-- ==== Sys2Proof/Word.lean ====
section
/-! DEFINITION. The word types of the part and their plainest readings (R2, R64). -/

namespace Sys2Proof

/-- A byte of memory. -/
abbrev Byte := BitVec 8
/-- A 32-bit register word. -/
abbrev Word := BitVec 32
/-- A 64-bit value: a register pair, an address, an instruction word or a clause header. -/
abbrev DWord := BitVec 64
/-- One bit for each of the 64 lanes of a warp slot, or of a segment. -/
abbrev Mask := BitVec 64

/-- Bits `hi` down to `lo` of `x`, as a value of `hi - lo + 1` bits (R64, `x[h:l]`). -/
abbrev field {n : Nat} (x : BitVec n) (hi lo : Nat) : BitVec (hi - lo + 1) :=
  x.extractLsb' lo (hi - lo + 1)

/-- Bits `hi` down to `lo` of `x`, as a number. -/
abbrev fieldN {n : Nat} (x : BitVec n) (hi lo : Nat) : Nat := (field x hi lo).toNat

/-- A 64-bit value from its two register words, low word first (R52). -/
abbrev pairWord (lo hi : Word) : DWord := hi ++ lo

/-- The low register word of a pair (R52). -/
abbrev loWord (x : DWord) : Word := x.setWidth 32

/-- The high register word of a pair (R52). -/
abbrev hiWord (x : DWord) : Word := x.extractLsb' 32 32

end Sys2Proof
end

