-- ==== Sys2Proof/Syntax.lean ====
section
/-! DEFINITION. The instructions and the events of the opcode table, one constructor per row. An instruction row's
operands are the fields of its word (R78-R93); an event row's operands name the agent it concerns, or carry what the
outside world supplies. -/

namespace Sys2Proof

/-- The sixteen type codes (R85). -/
inductive Ty
  | i8 | i16 | i32 | i64 | n8 | n16 | n32 | n64 | b32 | b64 | h16 | f32 | bf16 | e4m3 | e5m2 | q4
deriving DecidableEq, Repr

/-- The usher registers 0x90 to 0x99, in number order (R40). -/
inductive UReg
  | lmask | lpark | vpc | evt | etaken | udepth | olmask | ovpc | oevt | oetaken
deriving DecidableEq, Repr

/-- What an 8-bit register field names (R52): `v0` to `v127`, `p0` to `p15` (`p15` is `pt`), an usher register, or `vz`. -/
inductive Reg
  | v (n : BitVec 7)
  | p (n : BitVec 4)
  | u (r : UReg)
  | vz
deriving DecidableEq, Repr

/-- The `HOLD` field (R60, R78). -/
inductive Hold | none | a | b | c
deriving DecidableEq, Repr

/-- The common leading fields of every instruction word: `SW`, `HOLD`, `PN` and `PR` (R78). -/
structure Pre where
  /-- Switch marker (R76). -/
  sw : Bool
  /-- Source to latch (R60). -/
  hold : Hold
  /-- Predicate negate (R79). -/
  pn : Bool
  /-- Guard or condition predicate; 15 is `pt` (R79). -/
  pr : BitVec 4
deriving DecidableEq, Repr

/-- `ICMP` conditions (R90). -/
inductive ICond | eq | ne | lt | le | gt | ge
deriving DecidableEq, Repr
/-- `FCMP` conditions (R90). -/
inductive FCond | eq | ne | lt | le | gt | ge | ord | uno
deriving DecidableEq, Repr
/-- Rounding modes (R101, R90). -/
inductive RMode | rn | rz | ru | rd
deriving DecidableEq, Repr
/-- `XCHL` sub-operations (R90). -/
inductive XchlOp | xor | up | dn | idx
deriving DecidableEq, Repr
/-- `VOTE` sub-operations (R90). -/
inductive VoteOp | any | all | eq
deriving DecidableEq, Repr
/-- `GRED` and `RED` sub-operations (R90). -/
inductive RedOp | add | min | max | and | or | xor
deriving DecidableEq, Repr
/-- `ATOM` sub-operations (R90). -/
inductive AtomOp | red (op : RedOp) | exch
deriving DecidableEq, Repr
/-- Hierarchy levels (R33, R90). -/
inductive Level | lane | core | quad | die | pkg | pod
deriving DecidableEq, Repr
/-- Cache hints (R92, R217). -/
inductive Hint | none | ro | nt | keep
deriving DecidableEq, Repr
/-- `CACHE` sub-operations (R90). -/
inductive CacheOp | wb | inv | wbinv
deriving DecidableEq, Repr
/-- `TLBI` sub-operations (R90). -/
inductive TlbiOp | all | va | vf
deriving DecidableEq, Repr
/-- What a stall notification concerns (R342). -/
inductive StallKind | sync | queue | landing
deriving DecidableEq, Repr
/-- The three ring registers that a configuration write names (R287). -/
inductive RingReg | base | size | ctx
deriving DecidableEq, Repr
/-- The page of a register write: function page `f`, or the management page, by 64 or by 32 bits; or the management page, written by porter
firmware (R282, R283). -/
inductive RegPage | fn (f : Nat) | mgmt | fn32 (f : Nat) | mgmt32 | mgmtPorter
deriving DecidableEq, Repr
/-- What the error logic of a unit finds (R406-R408): a corrected error, an uncorrectable error whose one retry
succeeds, or one whose retry fails. -/
inductive ErrKind | corrected | retried | lasting
deriving DecidableEq, Repr
/-- A detected error: die, unit code of R406, location, what was found, and whether a spare row remains, or, for a core, whether
the state of its units can be read (R408). -/
structure ErrInput where
  die : Nat
  unit : Nat
  addr : DWord
  kind : ErrKind
  spare : Bool
deriving DecidableEq, Repr

/-- The rows of the opcode table. -/
inductive Instr
  /-- `nop` (R119). -/
  | nop (p : Pre)
  /-- `bra label`, `OFF40` counts instruction words from the branch's own word (R84, R114). -/
  | bra (p : Pre) (off : BitVec 40)
  /-- `brau label`, `OFF40` counts instruction words from the branch's own word (R84, R114). -/
  | brau (p : Pre) (off : BitVec 40)
  /-- `jmp label`, `OFF40` counts instruction words from the branch's own word (R84, R114). -/
  | jmp (p : Pre) (off : BitVec 40)
  /-- `call label`, `OFF40` counts instruction words from the branch's own word (R84, R114). -/
  | call (p : Pre) (off : BitVec 40)
  /-- `ret vA`, vA a pair (R117). -/
  | ret (p : Pre) (a : Reg)
  /-- `exit` (R118). -/
  | exit (p : Pre)
  /-- `yield` (R119). -/
  | yieldP (p : Pre)
  /-- `wait.ne` or `wait.eq`, 32 or 64 bits wide; D is the comparison value (R120). -/
  | wait (p : Pre) (eq wide : Bool) (d a b : Reg) (off : BitVec 16)
  /-- The due polls of warp `w`'s `WAIT` lanes (R121, R269). -/
  | waitPoll (w : Nat)
  /-- `udone` (R47, R122). -/
  | udone (p : Pre)
  /-- `park` (R48, R122). -/
  | park (p : Pre)
  /-- `wake vA` (R48, R122). -/
  | wake (p : Pre) (a : Reg)
  /-- `trap imm` (R127). -/
  | trap (p : Pre) (imm : BitVec 24)
  /-- `svc imm` (R127). -/
  | svc (p : Pre) (imm : BitVec 24)
  /-- `bkpt imm` (R127). -/
  | bkpt (p : Pre) (imm : BitVec 24)
  /-- `mov.b32` or `mov.b64` between vector, predicate and usher registers; `sel` is the `evt` field (R42, R123). -/
  | mov (p : Pre) (wide : Bool) (d a : Reg) (sel : BitVec 2)
  /-- `movs vD, sr.x` (R125). -/
  | movsRead (p : Pre) (wide : Bool) (d : Reg) (sr : BitVec 8)
  /-- `movs sr.x, vA` (R125). -/
  | movsWrite (p : Pre) (wide : Bool) (sr : BitVec 8) (a : Reg)
  /-- `movi` and `movi.hi` (R124). -/
  | movi (p : Pre) (hi : Bool) (d : Reg) (imm : BitVec 24)
  /-- `plop pD, pA, pB, pC, tt` (R139). -/
  | plop (p : Pre) (d a b c : Reg) (tt : BitVec 8)
  /-- `rtt` (R254, R346). -/
  | rtt (p : Pre)
  /-- `halt` (R255). -/
  | halt (p : Pre)
  /-- `srwr sr.x, vA` (R256). -/
  | srwr (p : Pre) (wide : Bool) (sr : BitVec 8) (a : Reg)
  /-- `cache.op vA, vB, off` (R257). -/
  | cache (p : Pre) (op : CacheOp) (a b : Reg) (off : BitVec 16)
  /-- `tlbi.all`, `tlbi.va vA, vB`, `tlbi.vf vA` (R258). -/
  | tlbi (p : Pre) (op : TlbiOp) (a b : Reg)
  /-- `iadd.T vD, vA, vB` (R130). -/
  | iadd (p : Pre) (ty : Ty) (sat : Bool) (d a b : Reg)
  /-- The I cell of `iadd` (R89, R130). -/
  | iaddImm (p : Pre) (ty : Ty) (sat : Bool) (d a : Reg) (imm : BitVec 24)
  /-- `isub.T vD, vA, vB` (R130). -/
  | isub (p : Pre) (ty : Ty) (sat : Bool) (d a b : Reg)
  /-- `iadc.T vD, vA, vB, pC` (R131). -/
  | iadc (p : Pre) (ty : Ty) (sat : Bool) (d a b c : Reg)
  /-- `isbb.T vD, vA, vB, pC` (R131). -/
  | isbb (p : Pre) (ty : Ty) (sat : Bool) (d a b c : Reg)
  /-- `imul.T vD, vA, vB` (R130). -/
  | imul (p : Pre) (ty : Ty) (sat : Bool) (d a b : Reg)
  /-- The I cell of `imul` (R89, R130). -/
  | imulImm (p : Pre) (ty : Ty) (sat : Bool) (d a : Reg) (imm : BitVec 24)
  /-- `imulh.T vD, vA, vB` (R130). -/
  | imulh (p : Pre) (ty : Ty) (d a b : Reg)
  /-- `imad.T vD, vA, vB, vC` (R130). -/
  | imad (p : Pre) (ty : Ty) (sat : Bool) (d a b c : Reg)
  /-- `imadh.T vD, vA, vB, vC` (R130). -/
  | imadh (p : Pre) (ty : Ty) (d a b c : Reg)
  /-- `imin.T vD, vA, vB` (R130). -/
  | imin (p : Pre) (ty : Ty) (d a b : Reg)
  /-- The I cell of `imin` (R89, R130). -/
  | iminImm (p : Pre) (ty : Ty) (d a : Reg) (imm : BitVec 24)
  /-- `imax.T vD, vA, vB` (R130). -/
  | imax (p : Pre) (ty : Ty) (d a b : Reg)
  /-- The I cell of `imax` (R89, R130). -/
  | imaxImm (p : Pre) (ty : Ty) (d a : Reg) (imm : BitVec 24)
  /-- `iabs.T vD, vA` (R130). -/
  | iabs (p : Pre) (ty : Ty) (sat : Bool) (d a : Reg)
  /-- `ineg.T vD, vA` (R130). -/
  | ineg (p : Pre) (ty : Ty) (sat : Bool) (d a : Reg)
  /-- `icmp.cond.T pD, vA, vB` (R132). -/
  | icmp (p : Pre) (cond : ICond) (ty : Ty) (d a b : Reg)
  /-- The I cell of `icmp` (R89, R132). -/
  | icmpImm (p : Pre) (cond : ICond) (ty : Ty) (d a : Reg) (imm : BitVec 24)
  /-- `aadd.T vD, vA, vB` (R133). -/
  | aadd (p : Pre) (ty : Ty) (d a b : Reg)
  /-- `aadd vD, vA, imm` (R133). -/
  | aaddImm (p : Pre) (d a : Reg) (imm : BitVec 24)
  /-- `and.T vD, vA, vB` (R134). -/
  | andL (p : Pre) (wide : Bool) (d a b : Reg)
  /-- The I cell of `and` (R89, R134). -/
  | andImm (p : Pre) (wide : Bool) (d a : Reg) (imm : BitVec 24)
  /-- `or.T vD, vA, vB` (R134). -/
  | orL (p : Pre) (wide : Bool) (d a b : Reg)
  /-- The I cell of `or` (R89, R134). -/
  | orImm (p : Pre) (wide : Bool) (d a : Reg) (imm : BitVec 24)
  /-- `xor.T vD, vA, vB` (R134). -/
  | xorL (p : Pre) (wide : Bool) (d a b : Reg)
  /-- The I cell of `xor` (R89, R134). -/
  | xorImm (p : Pre) (wide : Bool) (d a : Reg) (imm : BitVec 24)
  /-- `andn.T vD, vA, vB` (R134). -/
  | andn (p : Pre) (wide : Bool) (d a b : Reg)
  /-- `not.T vD, vA` (R134). -/
  | notL (p : Pre) (wide : Bool) (d a : Reg)
  /-- `shl.T vD, vA, vB`, vB one register (R135). -/
  | shl (p : Pre) (wide : Bool) (d a b : Reg)
  /-- The I cell of `shl` (R89, R135). -/
  | shlImm (p : Pre) (wide : Bool) (d a : Reg) (imm : BitVec 24)
  /-- `shr.T vD, vA, vB`, vB one register (R135). -/
  | shr (p : Pre) (wide : Bool) (d a b : Reg)
  /-- The I cell of `shr` (R89, R135). -/
  | shrImm (p : Pre) (wide : Bool) (d a : Reg) (imm : BitVec 24)
  /-- `sar.T vD, vA, vB`, vB one register (R135). -/
  | sar (p : Pre) (wide : Bool) (d a b : Reg)
  /-- The I cell of `sar` (R89, R135). -/
  | sarImm (p : Pre) (wide : Bool) (d a : Reg) (imm : BitVec 24)
  /-- `rol.T vD, vA, vB`, vB one register (R135). -/
  | rol (p : Pre) (wide : Bool) (d a b : Reg)
  /-- The I cell of `rol` (R89, R135). -/
  | rolImm (p : Pre) (wide : Bool) (d a : Reg) (imm : BitVec 24)
  /-- `clz.T vD, vA` (R136). -/
  | clz (p : Pre) (wide : Bool) (d a : Reg)
  /-- `ctz.T vD, vA` (R136). -/
  | ctz (p : Pre) (wide : Bool) (d a : Reg)
  /-- `popc.T vD, vA` (R136). -/
  | popc (p : Pre) (wide : Bool) (d a : Reg)
  /-- `brev.T vD, vA` (R136). -/
  | brev (p : Pre) (wide : Bool) (d a : Reg)
  /-- `bfx.T vD, vA, vB, vC` (R137). -/
  | bfx (p : Pre) (ty : Ty) (d a b c : Reg)
  /-- `bfi.T vD, vA, vB, vC` (R137). -/
  | bfi (p : Pre) (wide : Bool) (d a b c : Reg)
  /-- `prmt vD, vA, vB, vC` (R159). -/
  | prmt (p : Pre) (d a b c : Reg)
  /-- `sel.T vD, vA, vB, pC` (R138). -/
  | sel (p : Pre) (wide : Bool) (d a b c : Reg)
  /-- `xchl.op.T vD, vA, vB` (R155). -/
  | xchl (p : Pre) (op : XchlOp) (wide : Bool) (d a b : Reg)
  /-- `ballot vD, pA` (R156). -/
  | ballot (p : Pre) (d a : Reg)
  /-- `vote.op pD, pA` (R157). -/
  | vote (p : Pre) (op : VoteOp) (d a : Reg)
  /-- `gred.op.T vD, vA` (R158). -/
  | gred (p : Pre) (op : RedOp) (ty : Ty) (d a : Reg)
  /-- `fadd.T vD, vA, vB` (R142). -/
  | fadd (p : Pre) (packed ftz : Bool) (ty : Ty) (d a b : Reg)
  /-- `fsub.T vD, vA, vB` (R142). -/
  | fsub (p : Pre) (packed ftz : Bool) (ty : Ty) (d a b : Reg)
  /-- `fmul.T vD, vA, vB` (R142). -/
  | fmul (p : Pre) (packed ftz : Bool) (ty : Ty) (d a b : Reg)
  /-- `ffma.T vD, vA, vB, vC` (R142). -/
  | ffma (p : Pre) (packed ftz : Bool) (ty : Ty) (d a b c : Reg)
  /-- `fmin.T vD, vA, vB` (R142, R144). -/
  | fmin (p : Pre) (packed ftz : Bool) (ty : Ty) (d a b : Reg)
  /-- `fmax.T vD, vA, vB` (R142, R144). -/
  | fmax (p : Pre) (packed ftz : Bool) (ty : Ty) (d a b : Reg)
  /-- `fabs.T vD, vA` (R142, R145). -/
  | fabs (p : Pre) (packed ftz : Bool) (ty : Ty) (d a : Reg)
  /-- `fneg.T vD, vA` (R142, R145). -/
  | fneg (p : Pre) (packed ftz : Bool) (ty : Ty) (d a : Reg)
  /-- `fcmp.cond.T pD, vA, vB` (R147). -/
  | fcmp (p : Pre) (cond : FCond) (ftz : Bool) (ty : Ty) (d a b : Reg)
  /-- `fflr.T vD, vA` (R148). -/
  | fflr (p : Pre) (ftz : Bool) (ty : Ty) (d a : Reg)
  /-- `frnd.mode.T vD, vA` (R148). -/
  | frnd (p : Pre) (mode : RMode) (ftz : Bool) (ty : Ty) (d a : Reg)
  /-- `cvt.mode.ftz.sat.Td.Ts vD, vA` (R149). -/
  | cvt (p : Pre) (mode : RMode) (ftz sat : Bool) (td ts : Ty) (d a : Reg)
  /-- `frcp.T vD, vA` (R151). -/
  | frcp (p : Pre) (ftz : Bool) (ty : Ty) (d a : Reg)
  /-- `frsq.T vD, vA` (R151). -/
  | frsq (p : Pre) (ftz : Bool) (ty : Ty) (d a : Reg)
  /-- `fexp2.T vD, vA` (R151). -/
  | fexp2 (p : Pre) (ftz : Bool) (ty : Ty) (d a : Reg)
  /-- `flog2.T vD, vA` (R151). -/
  | flog2 (p : Pre) (ftz : Bool) (ty : Ty) (d a : Reg)
  /-- `fsin.T vD, vA` (R151). -/
  | fsin (p : Pre) (ftz : Bool) (ty : Ty) (d a : Reg)
  /-- `fcos.T vD, vA` (R151). -/
  | fcos (p : Pre) (ftz : Bool) (ty : Ty) (d a : Reg)
  /-- The retired `fdiva vD, vA, vB` (R94, R358). -/
  | fdiva (p : Pre) (ftz : Bool) (d a b : Reg)
  /-- `ld.T.h vD, vA, vB, off` (R214, R216). -/
  | ld (p : Pre) (hint : Hint) (b128 : Bool) (ty : Ty) (d a b : Reg) (off : BitVec 16)
  /-- `st.T.h vD, vA, vB, off` (R214, R216). -/
  | st (p : Pre) (hint : Hint) (b128 : Bool) (ty : Ty) (d a b : Reg) (off : BitVec 16)
  /-- `ldw.h vD, vA, vB, off` (R218). -/
  | ldw (p : Pre) (hint : Hint) (d a b : Reg) (off : BitVec 16)
  /-- `stw.h vD, vA, vB, off` (R218). -/
  | stw (p : Pre) (hint : Hint) (d a b : Reg) (off : BitVec 16)
  /-- `prf.l1` or `prf.l2 vA, vB, off` (R219). -/
  | prf (p : Pre) (l2 : Bool) (a b : Reg) (off : BitVec 16)
  /-- The retired `ldsp` (R94, R358). -/
  | ldsp (p : Pre) (b128 : Bool) (ty : Ty) (d a : Reg) (off : BitVec 16)
  /-- The retired `stsp` (R94, R358). -/
  | stsp (p : Pre) (b128 : Bool) (ty : Ty) (d a : Reg) (off : BitVec 16)
  /-- The retired `atsp` (R94, R358). -/
  | atsp (p : Pre) (d a b : Reg)
  /-- The retired `barw` (R94, R358). -/
  | barw (p : Pre)
  /-- `atom.op.T vD, vA, vB` (R221). -/
  | atom (p : Pre) (op : AtomOp) (ty : Ty) (d a b : Reg)
  /-- `cas.T vD, vA, vB, vC` (R221). -/
  | cas (p : Pre) (wide : Bool) (d a b c : Reg)
  /-- `red.op.T vA, vB` (R221). -/
  | red (p : Pre) (op : RedOp) (ty : Ty) (a b : Reg)
  /-- `sync.lvl vA` (R229). -/
  | sync (p : Pre) (lvl : Level) (a : Reg)
  /-- `drain.lvl vA` (R230). -/
  | drain (p : Pre) (lvl : Level) (a : Reg)
  /-- The delayed arrival of warp `w`'s `DRAIN` lanes (R230). -/
  | drainArrival (w : Nat)
  /-- `fence.fetch` or `fence.rec` (R231). -/
  | fence (p : Pre) (rec : Bool)
  /-- `qpush vA, vB` (R223). -/
  | qpush (p : Pre) (a b : Reg)
  /-- `qpop vD, vB` (R223). -/
  | qpop (p : Pre) (d b : Reg)
  /-- `qtry.push pC, vA, vB` or `qtry.pop vD, pC, vB`; `h` is A or D (R223). -/
  | qtry (p : Pre) (pop : Bool) (h b c : Reg)
  /-- The held slot of warp `w` is attempted again (R67, R267). -/
  | heldSlotAct (w : Nat)
  /-- `enq vA, vB` (R226). -/
  | enq (p : Pre) (a b : Reg)
  /-- `deq vD, vB` (R227). -/
  | deq (p : Pre) (d b : Reg)
  /-- `dcset vA, vB` (R228). -/
  | dcset (p : Pre) (a b : Reg)
  /-- `dcadd vA, vB` (R228). -/
  | dcadd (p : Pre) (a b : Reg)
  /-- `dcdec vA` (R228). -/
  | dcdec (p : Pre) (a : Reg)
  /-- `gmake vA, vB, vC` (R232). -/
  | gmake (p : Pre) (a b c : Reg)
  /-- `gatt vD, vA` (R232). -/
  | gatt (p : Pre) (d a : Reg)
  /-- `gdet vA` (R232). -/
  | gdet (p : Pre) (a : Reg)
  /-- `gfree vA` (R232). -/
  | gfree (p : Pre) (a : Reg)
  /-- `mma.q4 n, t, vA, vB, vC, vK, s` (R81, R233). -/
  | mmaQ4 (p : Pre) (land : BitVec 3) (tile : Bool) (sel : BitVec 2) (a b c k : Reg)
  /-- `mma.e4m3 n, t, vA, vB, vC, vK, s` (R81, R233). -/
  | mmaE4m3 (p : Pre) (land : BitVec 3) (tile : Bool) (sel : BitVec 2) (a b c k : Reg)
  /-- `mma.e5m2 n, t, vA, vB, vC, vK, s` (R81, R233). -/
  | mmaE5m2 (p : Pre) (land : BitVec 3) (tile : Bool) (sel : BitVec 2) (a b c k : Reg)
  /-- `mma.i8 n, t, vA, vB, vC, vK, s` (R81, R233). -/
  | mmaI8 (p : Pre) (land : BitVec 3) (tile : Bool) (sel : BitVec 2) (a b c k : Reg)
  /-- `mma.h16 n, t, vA, vB, vC, vK, s` (R81, R233). -/
  | mmaH16 (p : Pre) (land : BitVec 3) (tile : Bool) (sel : BitVec 2) (a b c k : Reg)
  /-- `mma4 n, t, vA, vB, vC, vK, s` (R81, R233, R94). -/
  | mma4 (p : Pre) (land : BitVec 3) (tile : Bool) (sel : BitVec 2) (a b c k : Reg)
  /-- `mma8 n, t, vA, vB, vC, vK, s` (R81, R233, R94). -/
  | mma8 (p : Pre) (land : BitVec 3) (tile : Bool) (sel : BitVec 2) (a b c k : Reg)
  /-- `accz vA` (R245). -/
  | accz (p : Pre) (a : Reg)
  /-- `accrd.T vD, vA, vB` (R245). -/
  | accrd (p : Pre) (ty : Ty) (d a b : Reg)
  /-- `accwr vA, vB, vC` (R245). -/
  | accwr (p : Pre) (a b c : Reg)
  /-- `ecopy.acq.rel vD, vA` (R246). -/
  | ecopy (p : Pre) (acq rel : Bool) (d a : Reg)
  /-- `egath.acq.rel vD, vA` (R246). -/
  | egath (p : Pre) (acq rel : Bool) (d a : Reg)
  /-- `ecoll.acq.rel vD, vA` (R246). -/
  | ecoll (p : Pre) (acq rel : Bool) (d a : Reg)
  /-- `ewait vA` (R252). -/
  | ewait (p : Pre) (a : Reg)
  /-- `quant.acq.rel vD, vA` (R246). -/
  | quant (p : Pre) (acq rel : Bool) (d a : Reg)
  /-- Warp `w` begins its next clause on one fetch set (R24, R75). -/
  | clauseIssue (w : Nat)
  /-- A port chooses among its ready warps (R268). -/
  | portIssueChoice (core port : Nat)
  /-- Warp `w`, parked by a switch marker, goes on (R76). -/
  | switchResume (w : Nat)
  /-- Result `k` of warp `w` arrives (R62, R73). -/
  | loadResultArrival (w k : Nat)
  /-- A performed store instruction of warp `w` is acknowledged (R73). -/
  | storeAck (w : Nat)
  /-- Event `k` of warp `w`'s window takes its value (R200). -/
  | earlyRead (w k : Nat)
  /-- Warp `w` returns to its checkpoint (R203). -/
  | rollback (w : Nat)
  /-- Warp `w`'s window commits (R204). -/
  | commit (w : Nat)
  /-- The held irrevocable instruction of warp `w` acts (R205). -/
  | irrevocableAct (w : Nat)
  /-- The head write of warp `w`'s side log is judged and performed (R209, R392). -/
  | sideLogDrain (w : Nat)
  /-- Engine command `c` reads its descriptor and moves its data (R246). -/
  | engineCommandRun (c : Nat)
  /-- Engine command `c` sets its token (R211). -/
  | engineCompletion (c : Nat)
  /-- A read miss of a core on a line of its own die (R166). -/
  | l1ReadMiss (core line : Nat)
  /-- A core is granted a line Owned (R166). -/
  | ownershipGrant (core line : Nat)
  /-- A core receives an invalidation of a line (R202, R213). -/
  | invalidation (core line : Nat)
  /-- A core's L1 evicts a line (R166). -/
  | l1Eviction (core line : Nat)
  /-- A read miss of a core on a line of another die (R168). -/
  | annexMiss (core line : Nat)
  /-- The oldest write that waits at the home slice of a line is performed (R170). -/
  | homeWritePerform (line : Nat)
  /-- The oldest atomic that waits at the home slice of a line is performed (R174). -/
  | homeAtomic (line : Nat)
  /-- A lease of die `die` on a line expires (R171). -/
  | leaseExpiry (die line : Nat)
  /-- A die has not drained within 2,048 cycles of the wrap (R386). -/
  | wrapStall (die : Nat)
  /-- A sleeping annex wakes (R173). -/
  | annexWake (die : Nat)
  /-- The fill of gallery entry `g` completes (R188). -/
  | galleryFillComplete (g : Nat)
  /-- Unattached resident gallery `g` is evicted (R193). -/
  | galleryEviction (g : Nat)
  /-- The write-back of gallery entry `g` completes (R188). -/
  | galleryWritebackComplete (g : Nat)
  /-- Complete landing `n` of a core issues (R239). -/
  | landingIssue (core n : Nat)
  /-- Landing `n` of gang unit `u` issues on every member (R240). -/
  | gangLandingIssue (u n : Nat)
  /-- The oldest operation of a tile's sequence writes the tile (R243). -/
  | mmaTileWrite (core tile : Nat)
  /-- Group `g` has ended and releases its resources (R29). -/
  | groupRelease (g : Nat)
  /-- The intake of a die places its next unit that fits (R259-R264). -/
  | unitPlacement (die : Nat)
  /-- Unit `u` has stood 16,384 cycles at the head of its class (R260). -/
  | intakeHeadBlock (u : Nat)
  /-- A launch-mode task is stolen by another die (R265). -/
  | taskSteal (u : Nat)
  /-- Waiting unit `u` pre-empts lower-class victims (R271). -/
  | preemptPriority (u : Nat)
  /-- A context has run for its slice (R271). -/
  | timeSliceExpiry (ctx : Nat)
  /-- A requested pre-emption of unit `u` completes (R272). -/
  | preemption (u : Nat)
  /-- Saved unit `u` is placed again (R273). -/
  | unitResumption (u : Nat)
  /-- The takeover of the segment at `lb` of warp `w` goes on to its next turn or ends (R376, R377). -/
  | banisterTakeover (w lb : Nat)
  /-- A waiting notice enters the usher (R350). -/
  | noticeDelivery (w lb : Nat)
  /-- A cause is delivered to the group trap handler (R344). -/
  | handlerEntry (w lb : Nat)
  /-- The porter serves a cause and returns the lanes (R347). -/
  | porterReturn (w lb : Nat)
  /-- The porter serves a fetch fault of warp `w` (R394). -/
  | fetchFaultService (w : Nat)
  /-- Warp `w`'s solo period ends (R380). -/
  | soloPeriodEnd (w : Nat)
  /-- Warp `w`'s escalation level returns to 0 (R380). -/
  | escalationDecay (w : Nat)
  /-- A serial pass of a die starts (R382). -/
  | serialPassStart (die : Nat)
  /-- A serial pass of a die ends (R382). -/
  | serialPassEnd (die : Nat)
  /-- Warp `w` has been held for 2^24 cycles by its window (R383). -/
  | ckptStall (w : Nat)
  /-- A pre-emption has not progressed for 2^24 cycles (R345, R384). -/
  | preemptBlocked (u : Nat)
  /-- A barrier, queue operation or landing has stayed open for 2^30 cycles (R342). -/
  | stallNotification (kind : StallKind) (k : Nat)
  /-- Lanes have been held 2^24 cycles on a translation (R391). -/
  | loadLong (w lb : Nat)
  /-- The head of warp `w`'s side log has waited 2^24 cycles (R392). -/
  | logLong (w : Nat)
  /-- A fault of the tile fetch unit kills unit `u` (R397, R398). -/
  | matrixUnitKill (u : Nat)
  /-- The fill of gallery entry `g` faults (R400). -/
  | galleryFillFault (g : Nat)
  /-- The write-back of gallery entry `g` faults (R400). -/
  | galleryWbFault (g : Nat)
  /-- A host write of `DOORBELL`k (R287). -/
  | doorbell (die fn : Nat) (k : Nat) (v : DWord)
  /-- A host write of `TRIGGER` (R307). -/
  | trigger (die fn : Nat) (v : DWord)
  /-- A host write of `TRIGOVF` (R283). -/
  | trigovfClear (die fn : Nat)
  /-- A host write of `CTXCREATE` (R286). -/
  | ctxcreate (die fn : Nat) (a : DWord)
  /-- A host write of `CTXEND` (R286). -/
  | ctxend (die fn : Nat) (v : DWord)
  /-- A host write of `RBASE`k, `RSIZE`k or `RCTX`k (R287). -/
  | ringConfigWrite (die fn : Nat) (k : Nat) (reg : RingReg) (v : DWord)
  /-- A host write of `CLREL` with bit 63 clear (R348). -/
  | clrelResume (fn hid : Nat)
  /-- A host write of `CLREL` with bit 63 set (R348). -/
  | clrelEnd (fn hid : Nat)
  /-- A write of `OBJREG` by the physical function (R351). -/
  | objreg (die : Nat) (a : DWord)
  /-- A write of `OBJDEL` (R353). -/
  | objdel (die : Nat) (a : DWord)
  /-- A write of `S2BASE`f or `S2BOUND`f (R285, R395). -/
  | s2SegmentWrite (fn : Nat) (bound : Bool) (v : DWord)
  /-- A write of `MODRST` (R285, R412). -/
  | modrst (v : DWord)
  /-- A write of `ATTREQ` (R415). -/
  | attreq (a : DWord)
  /-- A write of any other register, of 64 bits or narrower (R282, R283, R285, R348, R393). -/
  | registerWrite (die : Nat) (page : RegPage) (off : Nat) (v : DWord)
  /-- The fetcher reads the next packet of ring `r` (R296). -/
  | packetFetch (r : Nat)
  /-- Ring `r` executes its head packet, a PKT_NOP (R289). -/
  | pktNop (r : Nat)
  /-- Ring `r` executes its head packet, a PKT_LAUNCH (R291). -/
  | pktLaunch (r : Nat)
  /-- Ring `r` executes its head packet, a PKT_BUNDLE (R300). -/
  | pktBundle (r : Nat)
  /-- Ring `r` executes its head packet, a PKT_COPY (R292, R420). -/
  | pktCopy (r : Nat)
  /-- Ring `r` executes its head packet, a PKT_INDIRECT (R293). -/
  | pktIndirect (r : Nat)
  /-- Ring `r` executes its head packet, a PKT_PRED (R294). -/
  | pktPred (r : Nat)
  /-- Ring `r` executes its head packet, a PKT_LOOP (R295). -/
  | pktLoop (r : Nat)
  /-- Ring `r` executes its head packet, a PKT_FFENCE (R297). -/
  | pktFfence (r : Nat)
  /-- Ring `r` executes its head packet, a PKT_WAIT_COMPLETION (R298). -/
  | pktWaitCompletion (r : Nat)
  /-- Ring `r` executes its head packet, a PKT_WAIT_POLL (R298). -/
  | pktWaitPoll (r : Nat)
  /-- Ring `r` executes its head packet, a CP_WAIT_RELEASE (R298, R299). -/
  | cpWaitRelease (r : Nat)
  /-- Ring `r` executes its head packet, a PKT_SIGNAL (R299). -/
  | pktSignal (r : Nat)
  /-- Ring `r` executes its head packet, a PKT_GRAPH (R307). -/
  | pktGraph (r : Nat)
  /-- Ring `r` executes its head packet, a PKT_CTXSW (R302). -/
  | pktCtxsw (r : Nat)
  /-- Ring `r` executes its head packet, a CONFIG_CREATE_TASK_QUEUE (R301). -/
  | configCreateTaskQueue (r : Nat)
  /-- Ring `r` executes its head packet, a CONFIG_CREATE_COUNTER (R301). -/
  | configCreateCounter (r : Nat)
  /-- Ring `r` executes its head packet, a CONFIG_CLOSE_TASK_QUEUE (R301). -/
  | configCloseTaskQueue (r : Nat)
  /-- Ring `r` executes its head packet, a CONFIG_JOIN_STEAL_SET (R301). -/
  | configJoinStealSet (r : Nat)
  /-- Ring `r` executes its head packet, a CONFIG_LOAD_GRAPH (R301). -/
  | configLoadGraph (r : Nat)
  /-- Ring `r` executes its head packet, a CONFIG_UNLOAD_GRAPH (R301). -/
  | configUnloadGraph (r : Nat)
  /-- A run of graph `g` starts (R307). -/
  | graphRunStart (g : Nat)
  /-- Node `n` of graph `g`: GRAPH_LAUNCH_NODE (R304). -/
  | graphLaunchNode (g n : Nat)
  /-- Node `n` of graph `g`: GRAPH_COPY_NODE (R338). -/
  | graphCopyNode (g n : Nat)
  /-- Node `n` of graph `g`: GRAPH_COND_NODE (R305). -/
  | graphCondNode (g n : Nat)
  /-- Node `n` of graph `g`: GRAPH_LOOP_NODE (R306). -/
  | graphLoopNode (g n : Nat)
  /-- Node `n` of graph `g`: GRAPH_END_NODE (R304). -/
  | graphEndNode (g n : Nat)
  /-- Node `n` of graph `g`: GRAPH_NODE_FINISH (R304). -/
  | graphNodeFinish (g n : Nat)
  /-- A frame arrives on a Swezin Link port (R309). -/
  | swezinFrameArrival (port : Nat) (frame : List Byte)
  /-- A host write to a function page wakes the porter of its die (R309). -/
  | hostWriteWake (die fn : Nat)
  /-- A wake event reaches the halted porter warps of a die (R255). -/
  | porterWake (die : Nat)
  /-- A memory, link or logic error is detected (R406-R410). -/
  | memoryError (er : ErrInput)
  /-- The porter scrubs a die's HBM (R407). -/
  | hbmScrub (die : Nat)
  /-- A signed lodge command moves the life-cycle state on (R411). -/
  | lifecycleTransition (sig : List Byte)
  /-- A heartbeat arrives from a neighbour (R418). -/
  | heartbeatReceive (pkg : Nat) (seq : DWord)
  /-- A neighbour has been silent for 30 ms (R418). -/
  | heartbeatMiss (pkg : Nat)
  /-- A reset vote arrives (R419). -/
  | resetVoteReceive (voter target : Nat) (epoch : DWord) (sig : List Byte)
  /-- A write clears the mask bit of an MSI-X vector (R283, R348). -/
  | msixVectorUnmask (fn v : Nat)
  /-- The copy of a firmware image ends (R285). -/
  | firmwareCopyComplete (ok : Bool)
  /-- The cores of a die are power-gated (R309). -/
  | dieGating (die : Nat)
  /-- The lease clock wraps (R172). -/
  | leaseWrap
  /-- A 4,096-cycle tick of the banister (R374). -/
  | banisterTick
  /-- A write of `WFDROP` (R285). -/
  | wfdropClear
  /-- A write of `FWCMD` with bit 0 clear (R285). -/
  | fwcmdLodge
  /-- A write of `FWCMD` with bit 0 set (R285). -/
  | fwcmdPorter
  /-- The lodge resets the module (R412, R413). -/
  | moduleReset
  /-- Input power has exceeded 2,800 W for 1 ms (R417). -/
  | powerLimitExceeded
  /-- Input power has stayed below 2,600 W for 10 ms (R417). -/
  | powerThrottleRelease
  /-- The lodge sends its heartbeat (R418). -/
  | heartbeatSend
  /-- The lodge finishes an attestation report (R415). -/
  | attestReportDone
deriving DecidableEq, Repr

end Sys2Proof
end

