-- ==== Sys2Proof/Decode.lean ====
section
/-! DEFINITION. From an instruction word to an instruction, in the precedence of R95, and back. A word that breaks a rule
is refused by the name of its cause, with the detail word of R354. The clause header (R68) is read here too. -/

namespace Sys2Proof

/-- The causes that steps 2 to 7 of R95 raise (R354). -/
inductive DecErr
  | illOpc | classMix | endSlot | badType | rsvdReg | oddPair | regAlign | unusedReg | rsvdSub | rsvdMod | unusedImm
  | rsvdSreg | xRsvd | prefixRsvd
deriving DecidableEq, Repr

/-- The cause code of a refusal (R341). -/
def DecErr.code : DecErr → Nat
  | .illOpc => 0x00
  | .classMix => 0x05
  | .endSlot => 0x06
  | .badType => 0x09
  | .rsvdReg => 0x0A
  | .oddPair => 0x0B
  | .regAlign => 0x0C
  | .unusedReg => 0x0D
  | .rsvdSub => 0x0E
  | .rsvdMod => 0x0F
  | .unusedImm => 0x10
  | .rsvdSreg => 0x11
  | .xRsvd => 0x12
  | .prefixRsvd => 0x13

/-- A word, or the cause that refuses it with its detail word. -/
abbrev Decoded := Except (DecErr × Word) Instr

/-- The fields of an instruction word: the common ones of R78 and the five bytes of bits 39:0, which the formats of R80
name. -/
structure Fields where
  sw : BitVec 1
  hold : BitVec 2
  pn : BitVec 1
  pr : BitVec 4
  opc : BitVec 8
  ty : BitVec 4
  sub : BitVec 4
  d : BitVec 8
  a : BitVec 8
  b : BitVec 8
  c : BitVec 8
  m : BitVec 8
deriving DecidableEq, Repr

/-- The fields of a word (R78, R80). -/
def Fields.ofWord (w : DWord) : Fields where
  sw := w.extractLsb' 63 1
  hold := w.extractLsb' 61 2
  pn := w.extractLsb' 60 1
  pr := w.extractLsb' 56 4
  opc := w.extractLsb' 48 8
  ty := w.extractLsb' 44 4
  sub := w.extractLsb' 40 4
  d := w.extractLsb' 32 8
  a := w.extractLsb' 24 8
  b := w.extractLsb' 16 8
  c := w.extractLsb' 8 8
  m := w.extractLsb' 0 8

/-- The word of given fields (R78, R80). -/
def Fields.toWord (f : Fields) : DWord :=
  f.sw ++ f.hold ++ f.pn ++ f.pr ++ f.opc ++ f.ty ++ f.sub ++ f.d ++ f.a ++ f.b ++ f.c ++ f.m

/-- `IMM24` (R80, format I). -/
def Fields.imm24 (f : Fields) : BitVec 24 := f.b ++ f.c ++ f.m
/-- `OFF16` (R80, format M). -/
def Fields.off16 (f : Fields) : BitVec 16 := f.c ++ f.m
/-- `OFF40` (R80, format J). -/
def Fields.off40 (f : Fields) : BitVec 40 := f.d ++ f.a ++ f.b ++ f.c ++ f.m

/-- The instruction form of the detail word (R354). -/
def insnDetail (opc : BitVec 8) (fieldNo : BitVec 4) (value : BitVec 16) : Word := opc ++ fieldNo ++ 0#4 ++ value

/-! ### Codes of operands -/

/-- The register that a field byte names (R52); reserved bytes are refused before this is used. -/
def Reg.ofByte (x : BitVec 8) : Reg :=
  if x.toNat < 0x80 then .v (x.setWidth 7)
  else if x.toNat < 0x90 then .p (x.setWidth 4)
  else match x.toNat with
    | 0x90 => .u .lmask
    | 0x91 => .u .lpark
    | 0x92 => .u .vpc
    | 0x93 => .u .evt
    | 0x94 => .u .etaken
    | 0x95 => .u .udepth
    | 0x96 => .u .olmask
    | 0x97 => .u .ovpc
    | 0x98 => .u .oevt
    | 0x99 => .u .oetaken
    | _ => .vz

/-- The number of an usher register (R40). -/
def UReg.toByte : UReg → BitVec 8
  | .lmask => 0x90#8
  | .lpark => 0x91#8
  | .vpc => 0x92#8
  | .evt => 0x93#8
  | .etaken => 0x94#8
  | .udepth => 0x95#8
  | .olmask => 0x96#8
  | .ovpc => 0x97#8
  | .oevt => 0x98#8
  | .oetaken => 0x99#8

/-- The field byte of a register (R52). -/
def Reg.toByte : Reg → BitVec 8
  | .v n => 0#1 ++ n
  | .p n => 8#4 ++ n
  | .u r => r.toByte
  | .vz => 0xFF#8

/-- Type codes (R85). -/
def Ty.ofCode (x : BitVec 4) : Ty :=
  match x.toNat with
  | 0x0 => .i8
  | 0x1 => .i16
  | 0x2 => .i32
  | 0x3 => .i64
  | 0x4 => .n8
  | 0x5 => .n16
  | 0x6 => .n32
  | 0x7 => .n64
  | 0x8 => .b32
  | 0x9 => .b64
  | 0xA => .h16
  | 0xB => .f32
  | 0xC => .bf16
  | 0xD => .e4m3
  | 0xE => .e5m2
  | _ => .q4

/-- Type codes (R85). -/
def Ty.code : Ty → BitVec 4
  | .i8 => 0#4
  | .i16 => 1#4
  | .i32 => 2#4
  | .i64 => 3#4
  | .n8 => 4#4
  | .n16 => 5#4
  | .n32 => 6#4
  | .n64 => 7#4
  | .b32 => 8#4
  | .b64 => 9#4
  | .h16 => 10#4
  | .f32 => 11#4
  | .bf16 => 12#4
  | .e4m3 => 13#4
  | .e5m2 => 14#4
  | .q4 => 15#4

/-- Whether a type is 64 bits wide (R85). -/
def Ty.wide : Ty → Bool
  | .i64 | .n64 | .b64 => true
  | _ => false

/-- The type code of `.b32` or `.b64`. -/
def wideCode (wide : Bool) : BitVec 4 := if wide then 9#4 else 8#4

/-- `HOLD` (R78). -/
def Hold.ofCode (x : BitVec 2) : Hold :=
  match x.toNat with
  | 1 => .a
  | 2 => .b
  | 3 => .c
  | _ => .none

/-- `HOLD` (R78). -/
def Hold.code : Hold → BitVec 2
  | .none => 0#2
  | .a => 1#2
  | .b => 2#2
  | .c => 3#2

/-- Sub-operations (R90), read from `SUB` once it is known to be listed. -/
def ICond.ofSub (x : BitVec 4) : ICond :=
  match x.toNat with
  | 0 => .eq
  | 1 => .ne
  | 2 => .lt
  | 3 => .le
  | 4 => .gt
  | _ => .ge
def ICond.sub : ICond → BitVec 4
  | .eq => 0#4
  | .ne => 1#4
  | .lt => 2#4
  | .le => 3#4
  | .gt => 4#4
  | .ge => 5#4
def FCond.ofSub (x : BitVec 4) : FCond :=
  match x.toNat with
  | 0 => .eq
  | 1 => .ne
  | 2 => .lt
  | 3 => .le
  | 4 => .gt
  | 5 => .ge
  | 6 => .ord
  | _ => .uno
def FCond.sub : FCond → BitVec 4
  | .eq => 0#4
  | .ne => 1#4
  | .lt => 2#4
  | .le => 3#4
  | .gt => 4#4
  | .ge => 5#4
  | .ord => 6#4
  | .uno => 7#4
def RMode.ofSub (x : BitVec 4) : RMode :=
  match x.toNat with
  | 0 => .rn
  | 1 => .rz
  | 2 => .ru
  | _ => .rd
def RMode.sub : RMode → BitVec 4
  | .rn => 0#4
  | .rz => 1#4
  | .ru => 2#4
  | .rd => 3#4
def XchlOp.ofSub (x : BitVec 4) : XchlOp :=
  match x.toNat with
  | 0 => .xor
  | 1 => .up
  | 2 => .dn
  | _ => .idx
def XchlOp.sub : XchlOp → BitVec 4
  | .xor => 0#4
  | .up => 1#4
  | .dn => 2#4
  | .idx => 3#4
def VoteOp.ofSub (x : BitVec 4) : VoteOp :=
  match x.toNat with
  | 0 => .any
  | 1 => .all
  | _ => .eq
def VoteOp.sub : VoteOp → BitVec 4
  | .any => 0#4
  | .all => 1#4
  | .eq => 2#4
def RedOp.ofSub (x : BitVec 4) : RedOp :=
  match x.toNat with
  | 0 => .add
  | 1 => .min
  | 2 => .max
  | 3 => .and
  | 4 => .or
  | _ => .xor
def RedOp.sub : RedOp → BitVec 4
  | .add => 0#4
  | .min => 1#4
  | .max => 2#4
  | .and => 3#4
  | .or => 4#4
  | .xor => 5#4
def AtomOp.ofSub (x : BitVec 4) : AtomOp := if x.toNat = 6 then .exch else .red (RedOp.ofSub x)
def AtomOp.sub : AtomOp → BitVec 4
  | .red op => op.sub
  | .exch => 6#4
def Level.ofSub (x : BitVec 4) : Level :=
  match x.toNat with
  | 0 => .lane
  | 1 => .core
  | 2 => .quad
  | 3 => .die
  | 4 => .pkg
  | _ => .pod
def Level.sub : Level → BitVec 4
  | .lane => 0#4
  | .core => 1#4
  | .quad => 2#4
  | .die => 3#4
  | .pkg => 4#4
  | .pod => 5#4
/-- The hint of `SUB` bits 3:2 (R92). -/
def Hint.ofSub (x : BitVec 4) : Hint :=
  match x.toNat / 4 with
  | 0 => .none
  | 1 => .ro
  | 2 => .nt
  | _ => .keep
/-- `SUB` of a hint and a width bit (R92). -/
def Hint.sub (h : Hint) (b128 : Bool) : BitVec 4 :=
  (match h with
    | .none => 0#2
    | .ro => 1#2
    | .nt => 2#2
    | .keep => 3#2) ++ (if b128 then 1#2 else 0#2)
def CacheOp.ofSub (x : BitVec 4) : CacheOp :=
  match x.toNat with
  | 0 => .wb
  | 1 => .inv
  | _ => .wbinv
def CacheOp.sub : CacheOp → BitVec 4
  | .wb => 0#4
  | .inv => 1#4
  | .wbinv => 2#4
def TlbiOp.ofSub (x : BitVec 4) : TlbiOp :=
  match x.toNat with
  | 0 => .all
  | 1 => .va
  | _ => .vf
def TlbiOp.sub : TlbiOp → BitVec 4
  | .all => 0#4
  | .va => 1#4
  | .vf => 2#4

/-! ### The cells -/

/-- Formats (R80). -/
inductive Fmt | R | I | M | J | X
deriving DecidableEq, Repr

/-- What a register field must hold (R52, R82, R85, R214, R233, R355, R358): nothing (0xFF); a source or a destination of
the width of `TY`; one register; an even pair; the base of `AADD`, a pair that is 64 bits wide under `TY` 0x3 and 0x7; a group of four or of eight; a predicate; the landing byte of format X; the
source of `CVT`; the data of `LD` and `ST`; or what `SUB` or `MOV`'s two fields decide. -/
inductive FieldKind
  | unused | src | dst | one | pair | base | quad | oct | pred | landing | cvtSrc | data | movD | movA
  | movsD | movsA | tryD | tryA | tryC | tlbiA | tlbiB
deriving DecidableEq, Repr

/-- A row of R88: class (none: any, R71), whether it ends its clause (R72), whether it is retired (R94), format, type codes,
`SUB` values, `MOD` bits (R91), and the register fields. -/
structure CellRow where
  cls : Option (BitVec 3)
  ends : Bool
  retired : Bool
  fmt : Fmt
  types : List (BitVec 4)
  subs : List (BitVec 4)
  mod : BitVec 8
  d : FieldKind
  a : FieldKind
  b : FieldKind
  c : FieldKind
deriving DecidableEq, Repr

/-- Types 0x0 to 0x9 (R85), and the other lists that rows share. -/
def tyAll : List (BitVec 4) := [0, 1, 2, 3, 4, 5, 6, 7, 8, 9]
def tyInt : List (BitVec 4) := [0, 1, 2, 3, 4, 5, 6, 7]
def tyBit : List (BitVec 4) := [8, 9]
def tyFlt : List (BitVec 4) := [10, 11, 12]
def tyRed : List (BitVec 4) := [2, 3, 6, 7, 8, 9, 11]
def tyCvt : List (BitVec 4) := [0, 1, 2, 3, 4, 5, 6, 7, 10, 11, 12, 13, 14]

def ctlRow (ends : Bool) (a : FieldKind) : CellRow := ⟨some 0, ends, false, .R, [0], [0], 0, .unused, a, .unused, .unused⟩
def jRow : CellRow := ⟨none, true, false, .J, [0], [0], 0, .unused, .unused, .unused, .unused⟩
def trapRow : CellRow := ⟨some 0, true, false, .I, [0], [0], 0, .unused, .unused, .unused, .unused⟩
def vecRow (types subs : List (BitVec 4)) (mod : BitVec 8) (d a b c : FieldKind) : CellRow :=
  ⟨some 1, false, false, .R, types, subs, mod, d, a, b, c⟩
def vecImm (types subs : List (BitVec 4)) (d a : FieldKind) : CellRow :=
  ⟨some 1, false, false, .I, types, subs, 0, d, a, .unused, .unused⟩
def memRow (types subs : List (BitVec 4)) (d a b c : FieldKind) : CellRow :=
  ⟨some 2, false, false, .R, types, subs, 0, d, a, b, c⟩
def accessRow (types subs : List (BitVec 4)) (d : FieldKind) : CellRow :=
  ⟨some 2, false, false, .M, types, subs, 0, d, .pair, .one, .unused⟩
def levelRow : CellRow := ⟨some 2, true, false, .R, tyBit, [0, 1, 2, 3, 4, 5], 0, .unused, .src, .unused, .unused⟩
def mmaRow (ty : BitVec 4) (c : FieldKind) (retired : Bool) : CellRow :=
  ⟨some 3, false, retired, .X, [ty], [0], 0xFF, .landing, .pair, .pair, c⟩
def accRow (types : List (BitVec 4)) (d a b c : FieldKind) : CellRow := ⟨some 3, false, false, .R, types, [0], 0, d, a, b, c⟩
def engRow : CellRow := ⟨some 4, false, false, .R, [9], [0], 3, .one, .pair, .unused, .unused⟩
def sysRow (ends : Bool) : CellRow := ⟨some 5, ends, false, .R, [0], [0], 0, .unused, .unused, .unused, .unused⟩

/-- The opcode map (R88); an unassigned cell has no row. -/
def cellRow (opc : Nat) : Option CellRow :=
  match opc with
  | 0x01 => some ⟨none, false, false, .R, [0], [0], 0, .unused, .unused, .unused, .unused⟩
  | 0x02 => some jRow
  | 0x03 => some jRow
  | 0x04 => some jRow
  | 0x05 => some jRow
  | 0x06 => some ⟨none, true, false, .R, [0], [0], 0, .unused, .pair, .unused, .unused⟩
  | 0x07 => some (ctlRow true .unused)
  | 0x08 => some (ctlRow true .unused)
  | 0x09 => some ⟨some 0, true, false, .M, tyBit, [0, 1], 0, .src, .pair, .one, .unused⟩
  | 0x0A => some (ctlRow true .unused)
  | 0x0B => some (ctlRow true .unused)
  | 0x0C => some (ctlRow false .pair)
  | 0x0D => some trapRow
  | 0x0E => some trapRow
  | 0x0F => some trapRow
  | 0x10 => some ⟨none, false, false, .R, tyBit, [0], 3, .movD, .movA, .unused, .unused⟩
  | 0x11 => some ⟨none, false, false, .I, tyBit, [0, 1], 0, .movsD, .movsA, .unused, .unused⟩
  | 0x12 => some (vecImm [8] [0, 1] .one .unused)
  | 0x13 => some ⟨none, false, false, .R, [0], [0], 0xFF, .pred, .pred, .pred, .pred⟩
  | 0x14 => some (sysRow true)
  | 0x15 => some (sysRow true)
  | 0x16 => some ⟨some 5, false, false, .I, tyBit, [0], 0, .unused, .src, .unused, .unused⟩
  | 0x17 => some ⟨some 5, false, false, .M, [0], [0, 1, 2], 0, .unused, .pair, .one, .unused⟩
  | 0x18 => some ⟨some 5, false, false, .R, [0, 8, 9], [0, 1, 2], 0, .unused, .tlbiA, .tlbiB, .unused⟩
  | 0x40 => some (vecRow tyAll [0] 1 .dst .src .src .unused)
  | 0x41 => some (vecRow tyAll [0] 1 .dst .src .src .unused)
  | 0x42 => some (vecRow [6, 8] [0] 1 .dst .src .src .pred)
  | 0x43 => some (vecRow [6, 8] [0] 1 .dst .src .src .pred)
  | 0x44 => some (vecRow tyAll [0] 1 .dst .src .src .unused)
  | 0x45 => some (vecRow [2, 6] [0] 0 .dst .src .src .unused)
  | 0x46 => some (vecRow tyAll [0] 1 .dst .src .src .src)
  | 0x47 => some (vecRow [2, 6] [0] 0 .dst .src .src .src)
  | 0x48 => some (vecRow tyInt [0] 0 .dst .src .src .unused)
  | 0x49 => some (vecRow tyInt [0] 0 .dst .src .src .unused)
  | 0x4A => some (vecRow [0, 1, 2, 3] [0] 1 .dst .src .unused .unused)
  | 0x4B => some (vecRow tyInt [0] 1 .dst .src .unused .unused)
  | 0x4C => some (vecRow tyAll [0, 1, 2, 3, 4, 5] 0 .pred .src .src .unused)
  | 0x4D => some (vecRow tyInt [0] 0 .pair .base .one .unused)
  | 0x50 => some (vecRow tyBit [0] 0 .dst .src .src .unused)
  | 0x51 => some (vecRow tyBit [0] 0 .dst .src .src .unused)
  | 0x52 => some (vecRow tyBit [0] 0 .dst .src .src .unused)
  | 0x53 => some (vecRow tyBit [0] 0 .dst .src .src .unused)
  | 0x54 => some (vecRow tyBit [0] 0 .dst .src .unused .unused)
  | 0x55 => some (vecRow tyBit [0] 0 .dst .src .one .unused)
  | 0x56 => some (vecRow tyBit [0] 0 .dst .src .one .unused)
  | 0x57 => some (vecRow [2, 3] [0] 0 .dst .src .one .unused)
  | 0x58 => some (vecRow tyBit [0] 0 .dst .src .one .unused)
  | 0x59 => some (vecRow tyBit [0] 0 .one .src .unused .unused)
  | 0x5A => some (vecRow tyBit [0] 0 .one .src .unused .unused)
  | 0x5B => some (vecRow tyBit [0] 0 .one .src .unused .unused)
  | 0x5C => some (vecRow tyBit [0] 0 .dst .src .unused .unused)
  | 0x5D => some (vecRow [2, 3, 6, 7] [0] 0 .dst .src .one .one)
  | 0x5E => some (vecRow tyBit [0] 0 .dst .src .src .one)
  | 0x5F => some (vecRow [8] [0] 0 .dst .src .src .src)
  | 0x60 => some (vecImm tyAll [0, 1] .dst .src)
  | 0x61 => some (vecImm tyAll [0, 1] .dst .src)
  | 0x62 => some (vecImm tyInt [0] .dst .src)
  | 0x63 => some (vecImm tyInt [0] .dst .src)
  | 0x64 => some (vecImm tyAll [0, 1, 2, 3, 4, 5] .pred .src)
  | 0x65 => some (vecImm [9] [0] .pair .src)
  | 0x66 => some (vecImm tyBit [0] .dst .src)
  | 0x67 => some (vecImm tyBit [0] .dst .src)
  | 0x68 => some (vecImm tyBit [0] .dst .src)
  | 0x69 => some (vecImm tyBit [0] .dst .src)
  | 0x6A => some (vecImm tyBit [0] .dst .src)
  | 0x6B => some (vecImm [2, 3] [0] .dst .src)
  | 0x6C => some (vecImm tyBit [0] .dst .src)
  | 0x70 => some (vecRow tyBit [0] 0 .dst .src .src .pred)
  | 0x71 => some (vecRow tyBit [0, 1, 2, 3] 0 .dst .src .one .unused)
  | 0x72 => some (vecRow [9] [0] 0 .pair .pred .unused .unused)
  | 0x73 => some (vecRow [0] [0, 1, 2] 0 .pred .pred .unused .unused)
  | 0x74 => some (vecRow tyRed [0, 1, 2, 3, 4, 5] 0 .dst .src .unused .unused)
  | 0x80 => some (vecRow tyFlt [0, 1] 2 .dst .src .src .unused)
  | 0x81 => some (vecRow tyFlt [0, 1] 2 .dst .src .src .unused)
  | 0x82 => some (vecRow tyFlt [0, 1] 2 .dst .src .src .unused)
  | 0x83 => some (vecRow tyFlt [0, 1] 2 .dst .src .src .src)
  | 0x84 => some (vecRow tyFlt [0, 1] 2 .dst .src .src .unused)
  | 0x85 => some (vecRow tyFlt [0, 1] 2 .dst .src .src .unused)
  | 0x86 => some (vecRow tyFlt [0, 1] 2 .dst .src .unused .unused)
  | 0x87 => some (vecRow tyFlt [0, 1] 2 .dst .src .unused .unused)
  | 0x88 => some (vecRow tyFlt [0, 1, 2, 3, 4, 5, 6, 7] 2 .pred .src .src .unused)
  | 0x89 => some (vecRow tyFlt [0] 2 .dst .src .unused .unused)
  | 0x8A => some (vecRow tyFlt [0, 1, 2, 3] 2 .dst .src .unused .unused)
  | 0x8B => some (vecRow tyCvt [0, 1, 2, 3] 0xF3 .dst .cvtSrc .unused .unused)
  | 0x90 => some (vecRow [10, 11] [0] 2 .dst .src .unused .unused)
  | 0x91 => some (vecRow [10, 11] [0] 2 .dst .src .unused .unused)
  | 0x92 => some (vecRow [10, 11] [0] 2 .dst .src .unused .unused)
  | 0x93 => some (vecRow [10, 11] [0] 2 .dst .src .unused .unused)
  | 0x94 => some (vecRow [10, 11] [0] 2 .dst .src .unused .unused)
  | 0x95 => some (vecRow [10, 11] [0] 2 .dst .src .unused .unused)
  | 0x96 => some ⟨some 1, false, true, .R, [11], [0], 2, .dst, .src, .src, .unused⟩
  | 0xA0 => some (accessRow tyAll [0, 1, 4, 5, 8, 9, 12, 13] .data)
  | 0xA1 => some (accessRow tyAll [0, 1, 8, 9, 12, 13] .data)
  | 0xA2 => some (accessRow [8] [0, 4, 8, 12] .quad)
  | 0xA3 => some (accessRow [8] [0, 8, 12] .quad)
  | 0xA4 => some (accessRow [8] [0, 1] .unused)
  | 0xA5 => some (memRow tyRed [0, 1, 2, 3, 4, 5, 6] .dst .pair .src .unused)
  | 0xA6 => some (memRow tyBit [0] .dst .pair .src .src)
  | 0xA7 => some (memRow tyRed [0, 1, 2, 3, 4, 5] .unused .pair .src .unused)
  | 0xA8 => some levelRow
  | 0xA9 => some levelRow
  | 0xAA => some (memRow [0] [0, 1] .unused .unused .unused .unused)
  | 0xAC => some ⟨some 2, false, true, .M, tyAll, [0, 1], 0, .data, .one, .unused, .unused⟩
  | 0xAD => some ⟨some 2, false, true, .M, tyAll, [0, 1], 0, .data, .one, .unused, .unused⟩
  | 0xAE => some ⟨some 2, false, true, .R, [6], [0], 0, .dst, .src, .src, .unused⟩
  | 0xAF => some ⟨some 2, false, true, .R, [0], [0], 0, .unused, .unused, .unused, .unused⟩
  | 0xB0 => some (memRow [8] [0] .unused .one .one .unused)
  | 0xB1 => some (memRow [8] [0] .one .unused .one .unused)
  | 0xB2 => some (memRow [8] [0, 1] .tryD .tryA .one .tryC)
  | 0xB3 => some (memRow [9] [0] .unused .pair .one .unused)
  | 0xB4 => some (memRow [9] [0] .quad .unused .one .unused)
  | 0xB5 => some (memRow [8] [0] .unused .one .one .unused)
  | 0xB6 => some (memRow [2] [0] .unused .one .one .unused)
  | 0xB7 => some (memRow [8] [0] .unused .one .unused .unused)
  | 0xB8 => some (memRow [9] [0] .unused .pair .pair .one)
  | 0xB9 => some (memRow [9] [0] .pair .pair .unused .unused)
  | 0xBA => some (memRow [9] [0] .unused .pair .unused .unused)
  | 0xBB => some (memRow [9] [0] .unused .pair .unused .unused)
  | 0xC0 => some (mmaRow 0xF .pair false)
  | 0xC1 => some (mmaRow 0xD .pair false)
  | 0xC2 => some (mmaRow 0xE .pair false)
  | 0xC3 => some (mmaRow 0x0 .pair false)
  | 0xC4 => some (mmaRow 0xA .unused false)
  | 0xC5 => some (accRow [8] .unused .one .unused .unused)
  | 0xC6 => some (accRow [2, 10, 11, 12, 13] .one .one .one .unused)
  | 0xC7 => some (accRow [8] .unused .one .one .oct)
  | 0xC8 => some (mmaRow 0xF .unused true)
  | 0xC9 => some (mmaRow 0x0 .unused true)
  | 0xD0 => some engRow
  | 0xD1 => some engRow
  | 0xD2 => some engRow
  | 0xD3 => some ⟨some 4, false, false, .R, [8], [0], 0, .unused, .one, .unused, .unused⟩
  | 0xD4 => some engRow
  | _ => none

/-! ### The checks of R95 -/

/-- A refusal with the instruction form of the detail word. -/
def Fields.refuse (f : Fields) (e : DecErr) (fieldNo : BitVec 4) (value : BitVec 16) : DecErr × Word :=
  (e, insnDetail f.opc fieldNo value)

/-- The 64-bit special registers (R58). -/
def sreg64 (n : Nat) : Bool := n == 0x0C || n == 0x0D || n == 0x11 || n == 0x15

/-- The usher registers that a 64-bit source of a `vec` instruction accepts (R41, R42, R355). -/
def usherSource (x : BitVec 8) : Bool :=
  match x.toNat with
  | 0x90 | 0x91 | 0x92 | 0x94 | 0x95 | 0x96 | 0x97 | 0x99 => true
  | _ => false

/-- Kinds of byte in `MOV`'s fields (R123). -/
inductive MovKind | vec | pred | usher | bad
deriving DecidableEq, Repr

def movKind (x : BitVec 8) : MovKind :=
  if x.toNat < 0x80 then .vec
  else if x.toNat < 0x90 then .pred
  else if x.toNat < 0x9A then .usher
  else if x.toNat = 0xFF then .vec
  else .bad

/-- Whether a type code is 64 bits wide. -/
def wideTy (ty : BitVec 4) : Bool := (Ty.ofCode ty).wide

/-- The types that one operation takes, where they depend on `SUB` (R158, R214, R221, R233). -/
def typeOfSub (opc : Nat) (sub ty : BitVec 4) : Bool :=
  if opc = 0x74 ∨ opc = 0xA5 ∨ opc = 0xA7 then
    if sub.toNat < 3 then [2, 3, 6, 7, 11].contains ty else tyBit.contains ty
  else if opc = 0xA8 ∨ opc = 0xA9 then
    if sub.toNat = 0 ∨ sub.toNat = 5 then ty = 9 else ty = 8
  else if opc = 0x18 then
    ty = (match sub.toNat with
      | 0 => 0
      | 1 => 9
      | _ => 8)
  else true

/-- Step 5: the type code (R85, R93, R360, R361). -/
def checkType (row : CellRow) (f : Fields) : Option (DecErr × Word) :=
  let opc := f.opc.toNat
  let num := f.m.toNat
  if !row.types.contains f.ty then some (f.refuse .badType 1 (f.ty.setWidth 16))
  else if row.subs.contains f.sub && !typeOfSub opc f.sub f.ty then some (f.refuse .badType 1 (f.ty.setWidth 16))
  else if opc = 0x8B && !tyCvt.contains (f.m.extractLsb' 4 4) then some (f.refuse .badType 3 (f.m.setWidth 16))
  else if (opc = 0x11 ∨ opc = 0x16) && decide (num < 0x16) && f.ty != wideCode (sreg64 num) then
    some (f.refuse .badType 1 (f.ty.setWidth 16))
  else if opc = 0x10 && ((movKind f.d == .usher || movKind f.a == .usher) && f.ty != 9
      || (movKind f.d == .pred || movKind f.a == .pred) && f.ty != 8) then
    some (f.refuse .badType 1 (f.ty.setWidth 16))
  else none

/-- A vector register or group of `n` in a field (R52, R355). -/
def vecFault (x : BitVec 8) (n : Nat) : Option DecErr :=
  if x.toNat = 0xFF then (if n ≥ 4 then some .regAlign else none)
  else if x.toNat ≥ 0x80 then some .rsvdReg
  else if n = 2 ∧ x.toNat % 2 = 1 then some .oddPair
  else if n ≥ 4 ∧ x.toNat % n ≠ 0 then some .regAlign
  else none

/-- An unused field that is not 0xFF. A reserved or usher number there fails two checks of step 6, and the lower code decides
(R95, R52, R355). -/
def unusedFault (x : BitVec 8) : Option DecErr :=
  if x.toNat = 0xFF then none else if 0x90 ≤ x.toNat then some .rsvdReg else some .unusedReg
def predFault (x : BitVec 8) : Option DecErr := if 0x80 ≤ x.toNat ∧ x.toNat < 0x90 then none else some .rsvdReg

/-- What a field of a given kind is refused for. DESIGN CHOICE (assumption 98): step 6 of R95 comes before `SUB` is judged,
and a word whose reserved `SUB` decides what a field holds is read there as `QTRY`'s push form, as the read of `MOVS`, as
`TLBI`'s form without operands, and as an access of the width of `TY`. -/
def fieldFault (row : CellRow) (f : Fields) (k : FieldKind) (x : BitVec 8) : Option DecErr :=
  let n := if wideTy f.ty then 2 else 1
  match k with
  | .unused => unusedFault x
  | .src => if n = 2 ∧ row.cls = some 1 ∧ usherSource x then none else vecFault x n
  | .dst => vecFault x n
  | .one => vecFault x 1
  | .pair => vecFault x 2
  | .base => if n = 2 ∧ usherSource x then none else vecFault x 2
  | .quad => vecFault x 4
  | .oct => vecFault x 8
  | .pred => predFault x
  | .landing => if x.extractLsb' 0 2 = 0#2 then none else some .xRsvd
  | .cvtSrc => vecFault x (if wideTy (f.m.extractLsb' 4 4) then 2 else 1)
  | .data => if f.sub.extractLsb' 0 2 = 1#2 then vecFault x 4 else vecFault x n
  | .movsD => if f.sub = 1 then unusedFault x else vecFault x n
  | .movsA => if f.sub = 1 then vecFault x n else unusedFault x
  | .tryD => if f.sub = 1 then vecFault x 1 else unusedFault x
  | .tryA => if f.sub = 1 then unusedFault x else vecFault x 1
  | .tryC => predFault x
  | .tlbiA =>
    match f.sub.toNat with
    | 1 => vecFault x 2
    | 2 => vecFault x 1
    | _ => unusedFault x
  | .tlbiB => if f.sub = 1 then vecFault x 1 else unusedFault x
  | .movD =>
    match movKind f.d, movKind f.a with
    | .bad, _ => some .rsvdReg
    | .vec, _ => vecFault x n
    | .usher, .vec => if f.d.toNat ≤ 0x92 then none else some .rsvdReg
    | .usher, .bad => if f.d.toNat ≤ 0x92 then none else some .rsvdReg
    | .pred, .vec => none
    | .pred, .pred => none
    | .pred, .bad => none
    | _, _ => some .rsvdReg
  | .movA =>
    match movKind f.a with
    | .bad => some .rsvdReg
    | .vec => vecFault x n
    | _ => none

/-- The register fields that a format has (R80), with their numbers in the detail word, in order. -/
def regFields (row : CellRow) (f : Fields) : List (BitVec 4 × FieldKind × BitVec 8) :=
  match row.fmt with
  | .R => [(4, row.d, f.d), (5, row.a, f.a), (6, row.b, f.b), (7, row.c, f.c)]
  | .I => [(4, row.d, f.d), (5, row.a, f.a)]
  | .M => [(4, row.d, f.d), (5, row.a, f.a), (6, row.b, f.b)]
  | .J => []
  | .X => [(4, row.d, f.d), (5, row.a, f.a), (6, row.b, f.b), (7, row.c, f.c), (8, .one, f.m)]

/-- The first field of a list that is refused. -/
def firstFault (row : CellRow) (f : Fields) : List (BitVec 4 × FieldKind × BitVec 8) → Option (DecErr × Word)
  | [] => none
  | (no, k, x) :: rest =>
    match fieldFault row f k x with
    | some e => some (f.refuse e no (x.setWidth 16))
    | none => firstFault row f rest

/-- Step 6: the register fields, and a reserved special-register number (R82, R355, R360; DEDUCED, assumption 11). -/
def checkRegs (row : CellRow) (f : Fields) : Option (DecErr × Word) :=
  match firstFault row f (regFields row f) with
  | some e => some e
  | none =>
    if f.opc.toNat = 0x11 ∧ f.m.toNat ≥ 0x16 then some (f.refuse .rsvdSreg 9 (f.imm24.setWidth 16)) else none

/-- The `MOD` bits that a word may set (R42, R91). -/
def modMask (row : CellRow) (f : Fields) : BitVec 8 :=
  if f.opc.toNat = 0x10 then
    (if movKind f.d = .vec ∧ (f.a.toNat = 0x93 ∨ f.a.toNat = 0x98) then 3 else 0)
  else row.mod

/-- Step 7: `SUB`, `MOD`, unused immediates and the guard (R90-R92, R361, R362, R372). -/
def checkRest (row : CellRow) (f : Fields) : Option (DecErr × Word) :=
  let opc := f.opc.toNat
  let b128 := (opc = 0xA0 ∨ opc = 0xA1 ∨ opc = 0xAC ∨ opc = 0xAD) && f.sub.extractLsb' 0 2 == 1#2
  let packed := decide (0x80 ≤ opc ∧ opc ≤ 0x87) && f.sub == 1
  if !row.subs.contains f.sub || (b128 && f.ty != 9) || (packed && f.ty != 10) then
    some (f.refuse .rsvdSub 2 (f.sub.setWidth 16))
  else if row.fmt = .R ∧ (f.m &&& ~~~(modMask row f) ≠ 0 ∨ (opc = 0x10 ∧ f.m.extractLsb' 0 2 = 3#2)) then
    some (f.refuse .rsvdMod 3 (f.m.setWidth 16))
  else if (opc = 0x11 ∨ opc = 0x16) ∧ (f.b ≠ 0 ∨ f.c ≠ 0) then
    some (f.refuse .unusedImm 9 (f.imm24.setWidth 16))
  else if (opc = 0x0A ∨ opc = 0x14 ∨ opc = 0x15 ∨ opc = 0x16) ∧ (f.pr ≠ 15 ∨ f.pn ≠ 0) then
    some (f.refuse .prefixRsvd 10 ((f.pn ++ f.pr).setWidth 16))
  else none

/-! ### Building the instruction -/

/-- The common fields (R78). -/
def Fields.pre (f : Fields) : Pre where
  sw := f.sw = 1
  hold := Hold.ofCode f.hold
  pn := f.pn = 1
  pr := f.pr

/-- The instruction of fields that passed every check. -/
def build (f : Fields) : Option Instr :=
  let p := f.pre
  let ty := Ty.ofCode f.ty
  let wide : Bool := f.ty = 9
  let d := Reg.ofByte f.d
  let a := Reg.ofByte f.a
  let b := Reg.ofByte f.b
  let c := Reg.ofByte f.c
  let k := Reg.ofByte f.m
  let imm := f.imm24
  let off := f.off16
  let sat : Bool := f.m.extractLsb' 0 1 = 1#1
  let ftz : Bool := f.m.extractLsb' 1 1 = 1#1
  let sub1 : Bool := f.sub.extractLsb' 0 1 = 1#1
  let land := f.d.extractLsb' 5 3
  let tile : Bool := f.d.extractLsb' 4 1 = 1#1
  let sel := f.d.extractLsb' 2 2
  match f.opc.toNat with
  | 0x01 => some (.nop p)
  | 0x02 => some (.bra p f.off40)
  | 0x03 => some (.brau p f.off40)
  | 0x04 => some (.jmp p f.off40)
  | 0x05 => some (.call p f.off40)
  | 0x06 => some (.ret p a)
  | 0x07 => some (.exit p)
  | 0x08 => some (.yieldP p)
  | 0x09 => some (.wait p sub1 wide d a b off)
  | 0x0A => some (.udone p)
  | 0x0B => some (.park p)
  | 0x0C => some (.wake p a)
  | 0x0D => some (.trap p imm)
  | 0x0E => some (.svc p imm)
  | 0x0F => some (.bkpt p imm)
  | 0x10 => some (.mov p wide d a (f.m.extractLsb' 0 2))
  | 0x11 => if sub1 then some (.movsWrite p wide f.m a) else some (.movsRead p wide d f.m)
  | 0x12 => some (.movi p sub1 d imm)
  | 0x13 => some (.plop p d a b c f.m)
  | 0x14 => some (.rtt p)
  | 0x15 => some (.halt p)
  | 0x16 => some (.srwr p wide f.m a)
  | 0x17 => some (.cache p (CacheOp.ofSub f.sub) a b off)
  | 0x18 => some (.tlbi p (TlbiOp.ofSub f.sub) a b)
  | 0x40 => some (.iadd p ty sat d a b)
  | 0x41 => some (.isub p ty sat d a b)
  | 0x42 => some (.iadc p ty sat d a b c)
  | 0x43 => some (.isbb p ty sat d a b c)
  | 0x44 => some (.imul p ty sat d a b)
  | 0x45 => some (.imulh p ty d a b)
  | 0x46 => some (.imad p ty sat d a b c)
  | 0x47 => some (.imadh p ty d a b c)
  | 0x48 => some (.imin p ty d a b)
  | 0x49 => some (.imax p ty d a b)
  | 0x4A => some (.iabs p ty sat d a)
  | 0x4B => some (.ineg p ty sat d a)
  | 0x4C => some (.icmp p (ICond.ofSub f.sub) ty d a b)
  | 0x4D => some (.aadd p ty d a b)
  | 0x50 => some (.andL p wide d a b)
  | 0x51 => some (.orL p wide d a b)
  | 0x52 => some (.xorL p wide d a b)
  | 0x53 => some (.andn p wide d a b)
  | 0x54 => some (.notL p wide d a)
  | 0x55 => some (.shl p wide d a b)
  | 0x56 => some (.shr p wide d a b)
  | 0x57 => some (.sar p (wideTy f.ty) d a b)
  | 0x58 => some (.rol p wide d a b)
  | 0x59 => some (.clz p wide d a)
  | 0x5A => some (.ctz p wide d a)
  | 0x5B => some (.popc p wide d a)
  | 0x5C => some (.brev p wide d a)
  | 0x5D => some (.bfx p ty d a b c)
  | 0x5E => some (.bfi p wide d a b c)
  | 0x5F => some (.prmt p d a b c)
  | 0x60 => some (.iaddImm p ty sub1 d a imm)
  | 0x61 => some (.imulImm p ty sub1 d a imm)
  | 0x62 => some (.iminImm p ty d a imm)
  | 0x63 => some (.imaxImm p ty d a imm)
  | 0x64 => some (.icmpImm p (ICond.ofSub f.sub) ty d a imm)
  | 0x65 => some (.aaddImm p d a imm)
  | 0x66 => some (.andImm p wide d a imm)
  | 0x67 => some (.orImm p wide d a imm)
  | 0x68 => some (.xorImm p wide d a imm)
  | 0x69 => some (.shlImm p wide d a imm)
  | 0x6A => some (.shrImm p wide d a imm)
  | 0x6B => some (.sarImm p (wideTy f.ty) d a imm)
  | 0x6C => some (.rolImm p wide d a imm)
  | 0x70 => some (.sel p wide d a b c)
  | 0x71 => some (.xchl p (XchlOp.ofSub f.sub) wide d a b)
  | 0x72 => some (.ballot p d a)
  | 0x73 => some (.vote p (VoteOp.ofSub f.sub) d a)
  | 0x74 => some (.gred p (RedOp.ofSub f.sub) ty d a)
  | 0x80 => some (.fadd p sub1 ftz ty d a b)
  | 0x81 => some (.fsub p sub1 ftz ty d a b)
  | 0x82 => some (.fmul p sub1 ftz ty d a b)
  | 0x83 => some (.ffma p sub1 ftz ty d a b c)
  | 0x84 => some (.fmin p sub1 ftz ty d a b)
  | 0x85 => some (.fmax p sub1 ftz ty d a b)
  | 0x86 => some (.fabs p sub1 ftz ty d a)
  | 0x87 => some (.fneg p sub1 ftz ty d a)
  | 0x88 => some (.fcmp p (FCond.ofSub f.sub) ftz ty d a b)
  | 0x89 => some (.fflr p ftz ty d a)
  | 0x8A => some (.frnd p (RMode.ofSub f.sub) ftz ty d a)
  | 0x8B => some (.cvt p (RMode.ofSub f.sub) ftz sat ty (Ty.ofCode (f.m.extractLsb' 4 4)) d a)
  | 0x90 => some (.frcp p ftz ty d a)
  | 0x91 => some (.frsq p ftz ty d a)
  | 0x92 => some (.fexp2 p ftz ty d a)
  | 0x93 => some (.flog2 p ftz ty d a)
  | 0x94 => some (.fsin p ftz ty d a)
  | 0x95 => some (.fcos p ftz ty d a)
  | 0x96 => some (.fdiva p ftz d a b)
  | 0xA0 => some (.ld p (Hint.ofSub f.sub) sub1 ty d a b off)
  | 0xA1 => some (.st p (Hint.ofSub f.sub) sub1 ty d a b off)
  | 0xA2 => some (.ldw p (Hint.ofSub f.sub) d a b off)
  | 0xA3 => some (.stw p (Hint.ofSub f.sub) d a b off)
  | 0xA4 => some (.prf p sub1 a b off)
  | 0xA5 => some (.atom p (AtomOp.ofSub f.sub) ty d a b)
  | 0xA6 => some (.cas p wide d a b c)
  | 0xA7 => some (.red p (RedOp.ofSub f.sub) ty a b)
  | 0xA8 => some (.sync p (Level.ofSub f.sub) a)
  | 0xA9 => some (.drain p (Level.ofSub f.sub) a)
  | 0xAA => some (.fence p sub1)
  | 0xAC => some (.ldsp p sub1 ty d a off)
  | 0xAD => some (.stsp p sub1 ty d a off)
  | 0xAE => some (.atsp p d a b)
  | 0xAF => some (.barw p)
  | 0xB0 => some (.qpush p a b)
  | 0xB1 => some (.qpop p d b)
  | 0xB2 => some (.qtry p sub1 (if sub1 then d else a) b c)
  | 0xB3 => some (.enq p a b)
  | 0xB4 => some (.deq p d b)
  | 0xB5 => some (.dcset p a b)
  | 0xB6 => some (.dcadd p a b)
  | 0xB7 => some (.dcdec p a)
  | 0xB8 => some (.gmake p a b c)
  | 0xB9 => some (.gatt p d a)
  | 0xBA => some (.gdet p a)
  | 0xBB => some (.gfree p a)
  | 0xC0 => some (.mmaQ4 p land tile sel a b c k)
  | 0xC1 => some (.mmaE4m3 p land tile sel a b c k)
  | 0xC2 => some (.mmaE5m2 p land tile sel a b c k)
  | 0xC3 => some (.mmaI8 p land tile sel a b c k)
  | 0xC4 => some (.mmaH16 p land tile sel a b c k)
  | 0xC5 => some (.accz p a)
  | 0xC6 => some (.accrd p ty d a b)
  | 0xC7 => some (.accwr p a b c)
  | 0xC8 => some (.mma4 p land tile sel a b c k)
  | 0xC9 => some (.mma8 p land tile sel a b c k)
  | 0xD0 => some (.ecopy p sat ftz d a)
  | 0xD1 => some (.egath p sat ftz d a)
  | 0xD2 => some (.ecoll p sat ftz d a)
  | 0xD3 => some (.ewait p a)
  | 0xD4 => some (.quant p sat ftz d a)
  | _ => none

/-- Steps 5 to 7 of R95 on a cell's row, then the instruction. -/
def decodeCell (row : CellRow) (f : Fields) : Decoded :=
  match checkType row f with
  | some e => .error e
  | none =>
    match checkRegs row f with
    | some e => .error e
    | none =>
      match checkRest row f with
      | some e => .error e
      | none =>
        match build f with
        | some i => .ok i
        | none => .error (f.refuse .illOpc 0 (f.opc.setWidth 16))

/-- An instruction word at slot `slot` of a clause of class `cls` (R95 steps 2 to 7). A retired cell that passes steps 5 to
7 gives its instruction: the porter applies those steps before it emulates (R358). -/
def decodeFields (cls : BitVec 3) (slot : Nat) (last : Bool) (f : Fields) : Decoded :=
  match cellRow f.opc.toNat with
  | none => .error (f.refuse .illOpc 0 (f.opc.setWidth 16))
  | some row =>
    if row.ends && !last then .error (f.refuse .endSlot 11 (BitVec.ofNat 16 slot))
    else if row.cls != none && row.cls != some cls then .error (f.refuse .classMix 12 (cls.setWidth 16))
    else decodeCell row f

/-- An instruction word (R95 steps 2 to 7). -/
def decodeWord (cls : BitVec 3) (slot : Nat) (last : Bool) (w : DWord) : Decoded :=
  decodeFields cls slot last (Fields.ofWord w)

/-- The class in which a word's cell may stand: its own, or `vec` for a cell that any class takes (R71). -/
def classOf (w : DWord) : BitVec 3 :=
  match cellRow (w.extractLsb' 48 8).toNat with
  | some row => row.cls.getD 1
  | none => 1

/-- The instruction that the decoder reads from a word alone in a clause of its class. -/
def decodeAlone (w : DWord) : Decoded := decodeWord (classOf w) 0 true w

/-! ### The words in memory -/

/-- Eight bytes in ascending address order as a word (R2, R65). -/
def wordOfBytes (l : List Byte) : DWord :=
  BitVec.ofNat 64 (l.foldr (fun b n => b.toNat + 256 * n) 0)

/-- The bytes of a word in ascending address order (R2). -/
def bytesOfWord (w : DWord) : List Byte :=
  (List.range 8).map fun k => w.extractLsb' (8 * k) 8

/-- The decoder on bytes: the first eight are the instruction word, the rest are left over. -/
def decodeBytes (cls : BitVec 3) (slot : Nat) (last : Bool) (l : List Byte) : Option (Decoded × List Byte) :=
  if l.length < 8 then none else some (decodeWord cls slot last (wordOfBytes (l.take 8)), l.drop 8)

/-- The instruction of a table row's bits (one 64-bit word, the bits above `nbits` zero). -/
def decodeTableWord (nbits w : Nat) : Option Instr :=
  match decodeAlone (wordOfBytes (bytesOfWord (BitVec.ofNat 64 (w % 2 ^ nbits)))) with
  | .ok i => some i
  | .error _ => none

/-! ### Clause headers -/

/-- A clause header (R68). -/
structure Header where
  cls : BitVec 3
  cnt : BitVec 4
  wld : BitVec 4
  wst : BitVec 4
  wmx : BitVec 8
  wen : BitVec 4
  wq : BitVec 1
  rsvd : BitVec 36
deriving DecidableEq, Repr

/-- The fields of a header (R68). -/
def Header.ofWord (w : DWord) : Header where
  cls := w.extractLsb' 61 3
  cnt := w.extractLsb' 57 4
  wld := w.extractLsb' 53 4
  wst := w.extractLsb' 49 4
  wmx := w.extractLsb' 41 8
  wen := w.extractLsb' 37 4
  wq := w.extractLsb' 36 1
  rsvd := w.extractLsb' 0 36

/-- The word of a header (R68). -/
def Header.toWord (h : Header) : DWord :=
  h.cls ++ h.cnt ++ h.wld ++ h.wst ++ h.wmx ++ h.wen ++ h.wq ++ h.rsvd

/-- What step 1 of R95 finds wrong with the form of a header (R354). -/
inductive HeaderErr | cls | rsvd
deriving DecidableEq, Repr

def Header.fault (h : Header) : Option HeaderErr :=
  if h.cls.toNat ≥ 6 then some .cls else if h.rsvd ≠ 0 then some .rsvd else none

/-! ### The encoder -/

/-- Fields with the defaults of `swezas` (R82): registers 0xFF, the rest 0. -/
def Pre.fields (p : Pre) (opc : BitVec 8) (ty sub : BitVec 4) (d a b c m : BitVec 8) : Fields where
  sw := if p.sw then 1 else 0
  hold := p.hold.code
  pn := if p.pn then 1 else 0
  pr := p.pr
  opc := opc
  ty := ty
  sub := sub
  d := d
  a := a
  b := b
  c := c
  m := m

/-- A word of format R. -/
def encR (p : Pre) (opc : BitVec 8) (ty sub : BitVec 4) (d a b c : Reg) (m : BitVec 8) : Fields :=
  p.fields opc ty sub d.toByte a.toByte b.toByte c.toByte m
/-- A word of format I. -/
def encI (p : Pre) (opc : BitVec 8) (ty sub : BitVec 4) (d a : Reg) (imm : BitVec 24) : Fields :=
  p.fields opc ty sub d.toByte a.toByte (imm.extractLsb' 16 8) (imm.extractLsb' 8 8) (imm.extractLsb' 0 8)
/-- A word of format M. -/
def encM (p : Pre) (opc : BitVec 8) (ty sub : BitVec 4) (d a b : Reg) (off : BitVec 16) : Fields :=
  p.fields opc ty sub d.toByte a.toByte b.toByte (off.extractLsb' 8 8) (off.extractLsb' 0 8)
/-- A word of format J. -/
def encJ (p : Pre) (opc : BitVec 8) (off : BitVec 40) : Fields :=
  p.fields opc 0 0 (off.extractLsb' 32 8) (off.extractLsb' 24 8) (off.extractLsb' 16 8) (off.extractLsb' 8 8)
    (off.extractLsb' 0 8)
/-- A word of format X (R81). -/
def encX (p : Pre) (opc : BitVec 8) (ty : BitVec 4) (land : BitVec 3) (tile : Bool) (sel : BitVec 2) (a b c k : Reg) :
    Fields :=
  p.fields opc ty 0 (land ++ (if tile then 1#1 else 0#1) ++ sel ++ 0#2) a.toByte b.toByte c.toByte k.toByte

/-- One `MOD` bit. -/
def modBit (x : Bool) (n : Nat) : BitVec 8 := if x then BitVec.ofNat 8 (2 ^ n) else 0
/-- `SUB` 1 or 0. -/
def subBit (x : Bool) : BitVec 4 := if x then 1 else 0
/-- The type code of `.i32` or `.i64`. -/
def signedCode (wide : Bool) : BitVec 4 := if wide then 3#4 else 2#4

/-- The fields of an instruction's word, from the encoding tables of R78 to R94, R112 to R159, R214 and R233; an event has
none. -/
def encodeFields : Instr → Option Fields
  | .nop p => some (encR p 0x01 0 0 .vz .vz .vz .vz 0)
  | .bra p off => some (encJ p 0x02 off)
  | .brau p off => some (encJ p 0x03 off)
  | .jmp p off => some (encJ p 0x04 off)
  | .call p off => some (encJ p 0x05 off)
  | .ret p a => some (encR p 0x06 0 0 .vz a .vz .vz 0)
  | .exit p => some (encR p 0x07 0 0 .vz .vz .vz .vz 0)
  | .yieldP p => some (encR p 0x08 0 0 .vz .vz .vz .vz 0)
  | .wait p eq wide d a b off => some (encM p 0x09 (wideCode wide) (subBit eq) d a b off)
  | .udone p => some (encR p 0x0A 0 0 .vz .vz .vz .vz 0)
  | .park p => some (encR p 0x0B 0 0 .vz .vz .vz .vz 0)
  | .wake p a => some (encR p 0x0C 0 0 .vz a .vz .vz 0)
  | .trap p imm => some (encI p 0x0D 0 0 .vz .vz imm)
  | .svc p imm => some (encI p 0x0E 0 0 .vz .vz imm)
  | .bkpt p imm => some (encI p 0x0F 0 0 .vz .vz imm)
  | .mov p wide d a sel => some (encR p 0x10 (wideCode wide) 0 d a .vz .vz (sel.setWidth 8))
  | .movsRead p wide d sr => some (encI p 0x11 (wideCode wide) 0 d .vz (sr.setWidth 24))
  | .movsWrite p wide sr a => some (encI p 0x11 (wideCode wide) 1 .vz a (sr.setWidth 24))
  | .movi p hi d imm => some (encI p 0x12 8 (subBit hi) d .vz imm)
  | .plop p d a b c tt => some (encR p 0x13 0 0 d a b c tt)
  | .rtt p => some (encR p 0x14 0 0 .vz .vz .vz .vz 0)
  | .halt p => some (encR p 0x15 0 0 .vz .vz .vz .vz 0)
  | .srwr p wide sr a => some (encI p 0x16 (wideCode wide) 0 .vz a (sr.setWidth 24))
  | .cache p op a b off => some (encM p 0x17 0 op.sub .vz a b off)
  | .tlbi p op a b =>
    some (encR p 0x18 (match op with
      | .all => 0
      | .va => 9
      | .vf => 8) op.sub .vz a b .vz 0)
  | .iadd p ty sat d a b => some (encR p 0x40 ty.code 0 d a b .vz (modBit sat 0))
  | .iaddImm p ty sat d a imm => some (encI p 0x60 ty.code (subBit sat) d a imm)
  | .isub p ty sat d a b => some (encR p 0x41 ty.code 0 d a b .vz (modBit sat 0))
  | .iadc p ty sat d a b c => some (encR p 0x42 ty.code 0 d a b c (modBit sat 0))
  | .isbb p ty sat d a b c => some (encR p 0x43 ty.code 0 d a b c (modBit sat 0))
  | .imul p ty sat d a b => some (encR p 0x44 ty.code 0 d a b .vz (modBit sat 0))
  | .imulImm p ty sat d a imm => some (encI p 0x61 ty.code (subBit sat) d a imm)
  | .imulh p ty d a b => some (encR p 0x45 ty.code 0 d a b .vz 0)
  | .imad p ty sat d a b c => some (encR p 0x46 ty.code 0 d a b c (modBit sat 0))
  | .imadh p ty d a b c => some (encR p 0x47 ty.code 0 d a b c 0)
  | .imin p ty d a b => some (encR p 0x48 ty.code 0 d a b .vz 0)
  | .iminImm p ty d a imm => some (encI p 0x62 ty.code 0 d a imm)
  | .imax p ty d a b => some (encR p 0x49 ty.code 0 d a b .vz 0)
  | .imaxImm p ty d a imm => some (encI p 0x63 ty.code 0 d a imm)
  | .iabs p ty sat d a => some (encR p 0x4A ty.code 0 d a .vz .vz (modBit sat 0))
  | .ineg p ty sat d a => some (encR p 0x4B ty.code 0 d a .vz .vz (modBit sat 0))
  | .icmp p cond ty d a b => some (encR p 0x4C ty.code cond.sub d a b .vz 0)
  | .icmpImm p cond ty d a imm => some (encI p 0x64 ty.code cond.sub d a imm)
  | .aadd p ty d a b => some (encR p 0x4D ty.code 0 d a b .vz 0)
  | .aaddImm p d a imm => some (encI p 0x65 9 0 d a imm)
  | .andL p wide d a b => some (encR p 0x50 (wideCode wide) 0 d a b .vz 0)
  | .andImm p wide d a imm => some (encI p 0x66 (wideCode wide) 0 d a imm)
  | .orL p wide d a b => some (encR p 0x51 (wideCode wide) 0 d a b .vz 0)
  | .orImm p wide d a imm => some (encI p 0x67 (wideCode wide) 0 d a imm)
  | .xorL p wide d a b => some (encR p 0x52 (wideCode wide) 0 d a b .vz 0)
  | .xorImm p wide d a imm => some (encI p 0x68 (wideCode wide) 0 d a imm)
  | .andn p wide d a b => some (encR p 0x53 (wideCode wide) 0 d a b .vz 0)
  | .notL p wide d a => some (encR p 0x54 (wideCode wide) 0 d a .vz .vz 0)
  | .shl p wide d a b => some (encR p 0x55 (wideCode wide) 0 d a b .vz 0)
  | .shlImm p wide d a imm => some (encI p 0x69 (wideCode wide) 0 d a imm)
  | .shr p wide d a b => some (encR p 0x56 (wideCode wide) 0 d a b .vz 0)
  | .shrImm p wide d a imm => some (encI p 0x6A (wideCode wide) 0 d a imm)
  | .sar p wide d a b => some (encR p 0x57 (signedCode wide) 0 d a b .vz 0)
  | .sarImm p wide d a imm => some (encI p 0x6B (signedCode wide) 0 d a imm)
  | .rol p wide d a b => some (encR p 0x58 (wideCode wide) 0 d a b .vz 0)
  | .rolImm p wide d a imm => some (encI p 0x6C (wideCode wide) 0 d a imm)
  | .clz p wide d a => some (encR p 0x59 (wideCode wide) 0 d a .vz .vz 0)
  | .ctz p wide d a => some (encR p 0x5A (wideCode wide) 0 d a .vz .vz 0)
  | .popc p wide d a => some (encR p 0x5B (wideCode wide) 0 d a .vz .vz 0)
  | .brev p wide d a => some (encR p 0x5C (wideCode wide) 0 d a .vz .vz 0)
  | .bfx p ty d a b c => some (encR p 0x5D ty.code 0 d a b c 0)
  | .bfi p wide d a b c => some (encR p 0x5E (wideCode wide) 0 d a b c 0)
  | .prmt p d a b c => some (encR p 0x5F 8 0 d a b c 0)
  | .sel p wide d a b c => some (encR p 0x70 (wideCode wide) 0 d a b c 0)
  | .xchl p op wide d a b => some (encR p 0x71 (wideCode wide) op.sub d a b .vz 0)
  | .ballot p d a => some (encR p 0x72 9 0 d a .vz .vz 0)
  | .vote p op d a => some (encR p 0x73 0 op.sub d a .vz .vz 0)
  | .gred p op ty d a => some (encR p 0x74 ty.code op.sub d a .vz .vz 0)
  | .fadd p pk ftz ty d a b => some (encR p 0x80 ty.code (subBit pk) d a b .vz (modBit ftz 1))
  | .fsub p pk ftz ty d a b => some (encR p 0x81 ty.code (subBit pk) d a b .vz (modBit ftz 1))
  | .fmul p pk ftz ty d a b => some (encR p 0x82 ty.code (subBit pk) d a b .vz (modBit ftz 1))
  | .ffma p pk ftz ty d a b c => some (encR p 0x83 ty.code (subBit pk) d a b c (modBit ftz 1))
  | .fmin p pk ftz ty d a b => some (encR p 0x84 ty.code (subBit pk) d a b .vz (modBit ftz 1))
  | .fmax p pk ftz ty d a b => some (encR p 0x85 ty.code (subBit pk) d a b .vz (modBit ftz 1))
  | .fabs p pk ftz ty d a => some (encR p 0x86 ty.code (subBit pk) d a .vz .vz (modBit ftz 1))
  | .fneg p pk ftz ty d a => some (encR p 0x87 ty.code (subBit pk) d a .vz .vz (modBit ftz 1))
  | .fcmp p cond ftz ty d a b => some (encR p 0x88 ty.code cond.sub d a b .vz (modBit ftz 1))
  | .fflr p ftz ty d a => some (encR p 0x89 ty.code 0 d a .vz .vz (modBit ftz 1))
  | .frnd p mode ftz ty d a => some (encR p 0x8A ty.code mode.sub d a .vz .vz (modBit ftz 1))
  | .cvt p mode ftz sat td ts d a =>
    some (encR p 0x8B td.code mode.sub d a .vz .vz
      (ts.code ++ 0#2 ++ (if ftz then 1#1 else 0#1) ++ (if sat then 1#1 else 0#1)))
  | .frcp p ftz ty d a => some (encR p 0x90 ty.code 0 d a .vz .vz (modBit ftz 1))
  | .frsq p ftz ty d a => some (encR p 0x91 ty.code 0 d a .vz .vz (modBit ftz 1))
  | .fexp2 p ftz ty d a => some (encR p 0x92 ty.code 0 d a .vz .vz (modBit ftz 1))
  | .flog2 p ftz ty d a => some (encR p 0x93 ty.code 0 d a .vz .vz (modBit ftz 1))
  | .fsin p ftz ty d a => some (encR p 0x94 ty.code 0 d a .vz .vz (modBit ftz 1))
  | .fcos p ftz ty d a => some (encR p 0x95 ty.code 0 d a .vz .vz (modBit ftz 1))
  | .fdiva p ftz d a b => some (encR p 0x96 11 0 d a b .vz (modBit ftz 1))
  | .ld p h b128 ty d a b off => some (encM p 0xA0 ty.code (h.sub b128) d a b off)
  | .st p h b128 ty d a b off => some (encM p 0xA1 ty.code (h.sub b128) d a b off)
  | .ldw p h d a b off => some (encM p 0xA2 8 (h.sub false) d a b off)
  | .stw p h d a b off => some (encM p 0xA3 8 (h.sub false) d a b off)
  | .prf p l2 a b off => some (encM p 0xA4 8 (subBit l2) .vz a b off)
  | .ldsp p b128 ty d a off => some (encM p 0xAC ty.code (subBit b128) d a .vz off)
  | .stsp p b128 ty d a off => some (encM p 0xAD ty.code (subBit b128) d a .vz off)
  | .atsp p d a b => some (encR p 0xAE 6 0 d a b .vz 0)
  | .barw p => some (encR p 0xAF 0 0 .vz .vz .vz .vz 0)
  | .atom p op ty d a b => some (encR p 0xA5 ty.code op.sub d a b .vz 0)
  | .cas p wide d a b c => some (encR p 0xA6 (wideCode wide) 0 d a b c 0)
  | .red p op ty a b => some (encR p 0xA7 ty.code op.sub .vz a b .vz 0)
  | .sync p lvl a =>
    some (encR p 0xA8 (wideCode (lvl == .lane || lvl == .pod)) lvl.sub .vz a .vz .vz 0)
  | .drain p lvl a =>
    some (encR p 0xA9 (wideCode (lvl == .lane || lvl == .pod)) lvl.sub .vz a .vz .vz 0)
  | .fence p r => some (encR p 0xAA 0 (subBit r) .vz .vz .vz .vz 0)
  | .qpush p a b => some (encR p 0xB0 8 0 .vz a b .vz 0)
  | .qpop p d b => some (encR p 0xB1 8 0 d .vz b .vz 0)
  | .qtry p pop h b c =>
    some (encR p 0xB2 8 (subBit pop) (if pop then h else .vz) (if pop then .vz else h) b c 0)
  | .enq p a b => some (encR p 0xB3 9 0 .vz a b .vz 0)
  | .deq p d b => some (encR p 0xB4 9 0 d .vz b .vz 0)
  | .dcset p a b => some (encR p 0xB5 8 0 .vz a b .vz 0)
  | .dcadd p a b => some (encR p 0xB6 2 0 .vz a b .vz 0)
  | .dcdec p a => some (encR p 0xB7 8 0 .vz a .vz .vz 0)
  | .gmake p a b c => some (encR p 0xB8 9 0 .vz a b c 0)
  | .gatt p d a => some (encR p 0xB9 9 0 d a .vz .vz 0)
  | .gdet p a => some (encR p 0xBA 9 0 .vz a .vz .vz 0)
  | .gfree p a => some (encR p 0xBB 9 0 .vz a .vz .vz 0)
  | .mmaQ4 p land tile sel a b c k => some (encX p 0xC0 15 land tile sel a b c k)
  | .mmaE4m3 p land tile sel a b c k => some (encX p 0xC1 13 land tile sel a b c k)
  | .mmaE5m2 p land tile sel a b c k => some (encX p 0xC2 14 land tile sel a b c k)
  | .mmaI8 p land tile sel a b c k => some (encX p 0xC3 0 land tile sel a b c k)
  | .mmaH16 p land tile sel a b c k => some (encX p 0xC4 10 land tile sel a b c k)
  | .mma4 p land tile sel a b c k => some (encX p 0xC8 15 land tile sel a b c k)
  | .mma8 p land tile sel a b c k => some (encX p 0xC9 0 land tile sel a b c k)
  | .accz p a => some (encR p 0xC5 8 0 .vz a .vz .vz 0)
  | .accrd p ty d a b => some (encR p 0xC6 ty.code 0 d a b .vz 0)
  | .accwr p a b c => some (encR p 0xC7 8 0 .vz a b c 0)
  | .ecopy p acq rel d a => some (encR p 0xD0 9 0 d a .vz .vz (modBit acq 0 ||| modBit rel 1))
  | .egath p acq rel d a => some (encR p 0xD1 9 0 d a .vz .vz (modBit acq 0 ||| modBit rel 1))
  | .ecoll p acq rel d a => some (encR p 0xD2 9 0 d a .vz .vz (modBit acq 0 ||| modBit rel 1))
  | .ewait p a => some (encR p 0xD3 8 0 .vz a .vz .vz 0)
  | .quant p acq rel d a => some (encR p 0xD4 9 0 d a .vz .vz (modBit acq 0 ||| modBit rel 1))
  | _ => none

/-- The word of an instruction; an event has none. -/
def encode (i : Instr) : Option DWord := (encodeFields i).map Fields.toWord

end Sys2Proof
end

