-- ==== Sys2Proof/Config.lean ====
section
/-! DEFINITION. The numbers that the part fixes, and the values that the manual leaves free. A free value is a constant
with no body: nothing can be proved of it beyond what a meaning makes of it. -/

namespace Sys2Proof.Config

/-- Dies of the package (R6). -/
def dies : Nat := 4
/-- Program cores of a die (R8). -/
def coresPerDie : Nat := 128
/-- Warp slots of a core (R11). -/
def slotsPerCore : Nat := 16
/-- Physical scratchpad of a core in bytes (R11). -/
def spadBytes : Nat := 0x10_0000
/-- The first host-physical address at which no memory lies (R13). -/
def physTop : Nat := 0x90_0000_0000
/-- Memory homed by each die in bytes (R13). -/
def diePhys : Nat := 0x24_0000_0000
/-- Window limits of R201. -/
def winEvents : Nat := 64
def winInstrs : Nat := 256
/-- Lines of an L1 and of an instruction cache, and ways of an L2 or annex set (R11, R164). -/
def l1Lines : Nat := 1024
def icacheLines : Nat := 512
def ways : Nat := 16
/-- Entries of a side log (R209). -/
def logEntries : Nat := 256
/-- The top of a wait counter (R73). -/
def counterTop : Nat := 63

/-- FREE VALUE (assumption 6): the value that approximated function `fn` (0 to 5 for cells 0x90 to 0x95 in their
`.f32` form, 6 to 11 for the value that their `.h16` form rounds) proposes for a
binary32 source, before the bounds of R151 are imposed; a fixed function of the source bits and `.ftz` (R153). The split of the two
forms is a DESIGN CHOICE (assumption 99). -/
opaque approx (fn : Nat) (src : Word) (ftz : Bool) : Word
/-- FREE VALUE (assumption 12): the detail word of a cause for which no rule gives one, by code. -/
opaque openDetail (code : Nat) : Word
/-- FREE VALUE (assumption 7): the words that a listed service returns (R128), by the number of the value drawn. -/
opaque serviceWord (n : Nat) : Word
/-- FREE VALUE (assumption 7): which of several events that nothing orders comes next, by the number of the value drawn. -/
opaque choice (n : Nat) : Nat
/-- FREE VALUE (assumption 8): whether the signature of a firmware image verifies (R413). -/
opaque imageSigned (image : List Byte) : Bool
/-- FREE VALUE (assumption 8): whether an image has the header, body and signature of R413. -/
opaque imageFormed (image : List Byte) : Bool
/-- FREE VALUE (assumption 8): the security version in an image's header (R413). -/
opaque imageVersion (image : List Byte) : Nat
/-- FREE VALUE (assumption 8): the SHA3-512 digest of a byte string (R413 to R415). -/
opaque sha3 (bytes : List Byte) : BitVec 512
/-- FREE VALUE (assumption 8): the ML-DSA-87 signature of 4,627 bytes that the device identity key makes (R415, R418). -/
opaque deviceSign (digest : BitVec 512) (k : Nat) : Byte
/-- FREE VALUE (assumption 107): what a vote's signature is made over (R418). -/
opaque voteDigest (voter target : Nat) (epoch : DWord) : BitVec 512
/-- FREE VALUE (assumption 107): the package at the far end of a Swezin Link port, if there is one (R16, R408, R418). -/
opaque portPeer (port : Nat) : Option Nat
/-- FREE VALUE (assumption 8): whether a signature verifies under a neighbour's installed public key (R419). -/
opaque voteSigned (key : BitVec 512) (voter target : Nat) (epoch : DWord) (sig : List Byte) : Bool
/-- FREE VALUE (assumption 8): the state that a signed lodge command names, if its signature verifies (R411). -/
opaque lifecycleCommand (sig : List Byte) : Option Nat
/-- FREE VALUE (assumption 8): the serial number of the module (R415). -/
opaque serialNumber : BitVec 128
/-- The layout-3 bytes that the porter's conversion makes of a save area of an earlier layout (R416; assumption 49). -/
opaque convertedArea (layout : Nat) (bytes : List Byte) : List Byte
/-- FREE VALUE (assumption 7): whether a firmware image has been written when its copy ends (R285), by the number of the value drawn. -/
opaque copyWritten (n : Nat) : Bool
/-- FREE VALUE (assumption 9): the bytes by which the life-cycle state, the fused minimums of the lodge and the porter image, and
the feature level extend M2 (R414), by the first three. -/
opaque measured (lifecycle lodgeMin porterMin : Nat) : List Byte
/-- FREE VALUE (assumption 9): bytes 272 to 279 of a report, the life-cycle state and the security versions (R415). -/
opaque reported (lifecycle lodgeMin porterMin : Nat) : DWord

end Sys2Proof.Config
end

