-- ==== Sys2Proof/Machine/State.lean ====
section
/-! DEFINITION. The state of the module, as plain data, and the state after reset. Every field names the rule that
gives it; a field marked MODEL is the model's own bookkeeping. -/

namespace Sys2Proof.Machine

/-- No rule of the manual stops the module: every illegal use is a cause (R340), so no meaning of this model raises a
fault. -/
inductive Fault
  /-- Raised by no meaning; it keeps the type inhabited. Safe. -/
  | stopped
deriving DecidableEq, Repr

/-- Why a row has no meaning here. -/
inductive Refusal
  /-- Raised by an arm of `exec` for a row that is not modelled yet. Safe. -/
  | notModelled (mnemonic : String)
deriving DecidableEq, Repr

/-- A memory: (address, byte) pairs with rising addresses, no byte zero; an unlisted address reads 0 (R412). -/
abbrev Memory := List Host.Cell

/-- A table: (key, value) pairs with rising keys. -/
abbrev Tab (α : Type) := List (Nat × α)

/-! ### Registers and clauses -/

/-- Shape tags (R53). -/
inductive Shape | uniform | affine | general | void
deriving DecidableEq, Repr

/-- A vector register of a warp slot: its tag, and the word of each slot lane; a lane beyond the list reads 0 (R53). -/
structure VReg where
  tag : Shape
  lanes : List Word
deriving DecidableEq, Repr

/-- Where a fixed-latency result goes (R61, R126). -/
inductive Target | vreg (n : Nat) | preg (n : Nat) | lmask | lpark | lparkClear | vpc | flagsOr | flagsSet
deriving DecidableEq, Repr

/-- How far a write reaches over the segments of a slot (R54): every segment whole, some whole and the rest not at all, or
some segment partly. -/
inductive Cover | all | some | part
deriving DecidableEq, Repr

/-- A fixed-latency result that is not yet visible: the slot that made it, the slot at which it becomes visible, its
place, its lanes (slot lanes), a value for each slot lane (for a flag change the flags of the lane), its shape T, its reach and
the exited lanes of the segments that it writes whole (R54, R61, R126). -/
structure Pend where
  slot : Nat
  due : Nat
  tgt : Target
  lanes : Mask
  vals : List DWord
  shape : Shape
  cover : Cover
  fill : Mask
deriving DecidableEq, Repr

/-- An entry of the operand latch: register, holding slot, and what was read (R60). -/
structure Latch where
  reg : Nat
  slot : Nat
  tag : Shape
  lanes : List Word
deriving DecidableEq, Repr

/-- A clause that stands at a slot: header address and fields (R65, R68), the words fetched with it (R66), the lanes
that take part, the next slot, the results still pending there (R86), and the operand latch (R60). -/
structure ClauseAt where
  hdr : DWord
  cls : BitVec 3
  cnt : Nat
  words : List DWord
  lanes : Mask
  slot : Nat
  pend : List Pend
  latch : List Latch
deriving DecidableEq, Repr

/-- The event descriptor `evt`: branch address, taken target, fall-through (R40, R42). -/
structure Evt where
  br : DWord
  tk : DWord
  ft : DWord
deriving DecidableEq, Repr

/-- Classes of causes (R341). -/
inductive CauseClass | p | d | n
deriving DecidableEq, Repr

/-- A cause taken against a segment (R343, R344): its code and class, the lanes it stops and the lanes that raised it
(segment lanes), the clause at which it was taken with its pending results, its detail word, each lane's address or
operand, the lanes that are done at that slot (R363), the address and PC words of its log entry, the hold
identifier while the host or the porter holds it, and the operand latch as the slot leaves it for the lanes that are done (R60). -/
structure SegCause where
  code : Nat
  cls : CauseClass
  at_ : ClauseAt
  lanes : Mask
  mask : Mask
  done : Mask
  detail : Word
  addrs : List DWord
  logAddr : DWord
  logPc : DWord
  hid : Nat
  since : Nat
  told : Bool
  after : List Latch
deriving DecidableEq, Repr

/-- The trap record of a segment in its handler (R344): the cause, `v118` to `v127` as they were, `udepth`, and whether
the lanes were at handler grade before entry (R253). -/
structure TrapRec where
  cause : SegCause
  saved : List VReg
  udepth : Nat
  wasHandler : Bool
deriving DecidableEq, Repr

/-- A takeover of the banister: the lanes still to have their turn, and the clauses that the present lane has issued
(R376). -/
structure Takeover where
  left : Mask
  clauses : Nat
deriving DecidableEq, Repr

/-- Why a lane is held by a wait (R23, R277). -/
inductive HoldKind | wait | queue | sync | drain | gatt | xlat | halt
deriving DecidableEq, Repr

/-- A lane held at a slot: what holds it, the clause header and slot, its instruction word, and for a `WAIT` the poll
interval, the cycle at which the next poll is due, the value last read, and the values of its sources that pending results were
about to replace at its slot (R61, R120, R121). -/
structure LaneHold where
  kind : HoldKind
  hdr : DWord
  slot : Nat
  word : DWord
  interval : Nat
  due : Nat
  last : DWord
  latch : List Latch
deriving DecidableEq, Repr

/-- A segment placed in a warp slot. Masks are segment-relative. -/
structure Seg where
  /-- `sr.lbase` (R27). -/
  lbase : Nat
  /-- W (R25). -/
  width : Nat
  /-- The group, by the model's number (MODEL). -/
  gid : Nat
  /-- `sr.seg` (R27). -/
  idx : Nat
  /-- `sr.slot`: the first-placement warp slot (R274). -/
  vslot : Nat
  lmask : Mask
  lpark : Mask
  vpc : List DWord
  evt : Evt
  etaken : Mask
  udepth : Nat
  olmask : Mask
  ovpc : List DWord
  oevt : Evt
  oetaken : Mask
  /-- Lanes that entered the usher at depth 1, and lanes that run at the present depth (R45, R51). -/
  usher : Mask
  urun : Mask
  /-- `sr.ubase`, `sr.tbase`, `sr.bancnt`, `sr.dropcnt` (R58). -/
  ubase : DWord
  tbase : DWord
  bancnt : Word
  dropcnt : Word
  /-- Firmware grade (R253). -/
  firmware : Bool
  /-- Lanes at handler grade (R253). -/
  handler : Mask
  record : Option TrapRec
  /-- A cause taken and not yet delivered, or held by the porter or the host (R342, R343). -/
  cause : Option SegCause
  /-- Causes that wait (R343). -/
  queue : List SegCause
  /-- Notices that wait, by code (R350). -/
  notices : List Nat
  /-- No clause of the segment issues before this cycle (R46). -/
  notBefore : Nat
  /-- The banister's progress flag and count (R374). -/
  progress : Bool
  bc : Nat
  takeover : Option Takeover
  /-- A tick has begun a takeover that waits for a clause boundary (R374). -/
  tripped : Bool
deriving DecidableEq, Repr

/-! ### Windows -/

/-- A serialisation place of a byte: host-physical memory, or the physical scratchpad of a core (R174, R175). -/
inductive Loc | hbm (pa : Nat) | spad (core off : Nat)
deriving DecidableEq, Repr

/-- An event of a window, in window order (R198): a read, for a result record and lane, with its value once read; or a
write, for a store record and lane, with its place unless its translation failed (R392), and its cache hint (R217); or a completion token
seen by a lane (R211). -/
inductive WinEv
  | rd (res lane : Nat) (va : DWord) (loc : Loc) (n : Nat) (val : Option (BitVec 128))
  | wr (store lane : Nat) (va : DWord) (loc : Option Loc) (n : Nat) (val : BitVec 128) (hint : Hint)
  | token (lane : Nat)
deriving DecidableEq, Repr

/-- What restoring a warp needs (R203): registers, predicates, program counters, live lanes, segments, flags, holds,
engine sequence number, clauses that stand at a slot, arrivals by transfer, poison, and the clause at whose slot the checkpoint was taken, if it was
not taken at a header (R201). -/
structure Checkpoint where
  regs : List VReg
  preds : List Mask
  pcs : List DWord
  live : Mask
  segs : List Seg
  fpflags : BitVec 5
  holds : Tab LaneHold
  engSeq : Word
  resume : List ClauseAt
  via : Tab (DWord × Nat)
  poison : List Nat
  at_ : Option ClauseAt
deriving DecidableEq, Repr

/-- A signature of a landing (R238): the values of C and C + 1, the byte-select, whether it is committed, the number of the last
record that its warp had made before signing (R206), and whether a retired opcode made it, which no wait counter counts (R94). -/
structure Signer where
  c : Word
  c1 : Word
  sel : Nat
  committed : Bool
  upto : Nat
  emulated : Bool
deriving DecidableEq, Repr

/-- An issued matrix operation (R238, R242): landing, cell, record pointers, k offset, P, the signers' scales, the gang
position, the warp, segment base, group and generation that signed, its number in the order of issue, the images of its two records once
read (R237), and the bytes of each operand line that it has read, by the line's virtual address, with the poison of their granules (R243,
R409). -/
structure MmaOp where
  landing : Nat
  cell : Nat
  recA : DWord
  recB : DWord
  koff : Word
  mask : Mask
  signers : Tab Signer
  gi : Nat
  gj : Nat
  warp : Nat
  lbase : Nat
  gid : Nat
  gen : BitVec 16
  order : Nat
  recs : Tab (List Byte)
  got : Tab (List Byte × BitVec 4)
deriving DecidableEq, Repr

/-- An operation that a tile's sequence may hold before it takes effect (R244): `ACCZ`, `ACCWR` of a row, `ACCRD` of a row
for lanes of a result record, or a matrix operation. -/
inductive TileOp
  | zero
  | write (row : Nat) (cols : Tab (BitVec 256))
  | read (warp res row : Nat) (lanes : Mask) (ty : Ty)
  | mma (op : MmaOp)
deriving DecidableEq, Repr

/-- An open speculation window (R197, R201): its checkpoint, its events in window order, the instructions issued in it,
its read-set signature (R202), whether a hit is pending, the tile operations that wait for its commit (R244), the
cycle since which it has been unable to commit (R383), the irrevocable events that
were outstanding when it opened (R205), and the lanes whose barrier arrivals its commit withdraws (R45). -/
structure Window where
  ckpt : Checkpoint
  evs : List WinEv
  instrs : Nat
  sig : BitVec 1024
  hit : Bool
  tileOps : List (Nat × TileOp)
  since : Nat
  irr0 : Nat
  withdrawn : Mask
deriving DecidableEq, Repr

/-- The wait counters that a result or store record counts on (R73). -/
inductive Ctr | load | store | engine | queue
deriving DecidableEq, Repr

/-- A variable-latency result on its way (R62, R73): its counter, destination register and words per lane, its type for
the extension of R85, its lanes, the values produced, its shape, reach and fill (R54) and flags, the predicate it writes with its bits and lanes
(R223), whether it
belongs to the open window, the group identity and generation of its segments (R281), and the cache hint (R217). For R61: the clause
and slot that made it, the lanes for which that clause is still under way, the number of the first outstanding result of that run of the
clause, and the lanes of each word and of the predicate that a
later slot of the clause has written; and the lanes for which it counts as progress when it is performed (R374). -/
structure Res where
  id : Nat
  ctr : Ctr
  dst : Reg
  words : Nat
  ty : Ty
  lanes : Mask
  vals : Tab (BitVec 128)
  shape : Shape
  cover : Cover
  fill : Mask
  flags : BitVec 5
  pdst : Option Nat
  pbits : Mask
  pmask : Mask
  spec : Bool
  gens : List (Nat × Nat × BitVec 16)
  hint : Hint
  hdr : DWord
  slot : Nat
  under : Mask
  run : Nat
  lost : Tab Mask
  plost : Mask
  gain : Mask
deriving DecidableEq, Repr

/-- A store-counted instruction: the writes or messages still to be performed, each by the group that it belongs to (R29, R73), and the lanes
for which they count as progress (R374). -/
structure StoreRec where
  id : Nat
  owed : List Nat
  spec : Bool
  gain : Mask
deriving DecidableEq, Repr

/-- A side-log entry (R209, R392): the store record and lane, the address, the bytes, the place if its translation
succeeded, whether the write waits at its home slice, and its cache hint (R217). -/
structure LogEnt where
  store : Nat
  lane : Nat
  lbase : Nat
  va : DWord
  loc : Option Loc
  n : Nat
  val : BitVec 128
  sent : Bool
  hint : Hint
deriving DecidableEq, Repr

/-- Why a clause's slot is held (R67, R74, R205): a full counter, the window's limits, an irrevocable act that waits, a
queue or task operation, a directory, an engine token, a tile sequence, a landing, or a halt. -/
inductive HeldBy | counter | window | irrevocable | queue | gallery | token | tile | landing | maintenance
deriving DecidableEq, Repr

/-- The clause that a warp is issuing: where it stands, what holds its slot and since when, whether a switch marker parks it, whether an earlier
slot has committed or acted irrevocably (R201), the state at its header,
the segment or lane turns already taken at a held slot (R223) and the result record that they share, 0 if none, the cycle
since which the slot has stayed held, and whether that has been posted (R342, R383). -/
structure Clause where
  at_ : ClauseAt
  held : Option HeldBy
  heldAt : Nat
  parked : Bool
  acted : Bool
  snap : Checkpoint
  turns : Mask
  resId : Nat
  heldSince : Option Nat
  stallTold : Bool
deriving DecidableEq, Repr

/-- A warp slot. -/
structure Warp where
  /-- Segments in ascending `sr.lbase` (R26). -/
  segs : List Seg
  /-- `v0` to `v127` (R52, R53). -/
  regs : List VReg
  /-- `p0` to `p14`, one bit for each slot lane (R52). -/
  preds : List Mask
  /-- Each slot lane's program counter (R21, R65). -/
  pcs : List DWord
  /-- Live lanes (R23, R118). -/
  live : Mask
  /-- Lanes held by a wait (R23). -/
  holds : Tab LaneHold
  /-- Rotation pointer (R24). -/
  rot : Nat
  /-- `sr.fpflags` (R104). -/
  fpflags : BitVec 5
  /-- Load, store, engine and queue counters (R73). -/
  ldCnt : Nat
  stCnt : Nat
  enCnt : Nat
  quCnt : Nat
  /-- Results and store records on their way (R62, R73). -/
  results : List Res
  stores : List StoreRec
  /-- Lane writes performed so far of the store that wrote last, kept while there is poison that they may cover (R409). -/
  laid : List (Nat × Loc × Nat)
  nextId : Nat
  clause : Option Clause
  /-- Clauses that stand at a slot and may go on (R86, R346). -/
  resume : List ClauseAt
  /-- For each lane that last arrived by a transfer: the transfer's clause header and slot (R354). -/
  via : Tab (DWord × Nat)
  window : Option Window
  /-- Irrevocable events sent and not yet performed (R204, R205). -/
  irr : Nat
  sideLog : List LogEnt
  /-- The hold identifier of the side log, 0 if none, the cycle of its oldest post, and the pages already posted
  (R392). -/
  logHold : Nat
  logSince : Nat
  logPages : List Nat
  /-- `LOG_LONG` has been posted for the log (R392). -/
  logTold : Bool
  /-- `LOG_FULL` has been posted, and no commit has found room since (R384). -/
  fullTold : Bool
  /-- Drain goes on with the head entry (R392). -/
  logDrain : Bool
  /-- Engine sequence number (R246). -/
  engSeq : Word
  /-- Escalation level, cycles of its recent rollbacks, the end of its solo period, cycle of entry (R380). -/
  level : Nat
  rolls : List Nat
  soloUntil : Nat
  levelAt : Nat
  /-- Runs solo up to and including this slot of this clause, and to the clause's end; the lanes that failed there (R390). -/
  soloTo : Option (DWord × Nat × Mask)
  /-- The cycle at which the warp last issued a clause or was found ready; none while it is not ready (R267). -/
  readyAt : Option Nat
  /-- Slots of the port that must issue or cease to be ready first (R119). -/
  yieldTo : List Nat
  /-- Poisoned register lanes, as register * 64 + slot lane (R409). -/
  poison : List Nat
deriving DecidableEq, Repr

/-! ### Cores and dies -/

/-- An accumulator element: V and the sticky bits (R107). -/
structure Acc where
  v : BitVec 256
  o : Bool
  n : Bool
  p : Bool
  m : Bool
deriving DecidableEq, Repr

/-- An accumulator tile: the group that holds it, its elements by row * 64 + column (an unlisted element is zero), and
its sequence (R107, R244, R261). -/
structure Tile where
  owner : Option Nat
  elems : Tab Acc
  seq : List TileOp
deriving DecidableEq, Repr

/-- States of a landing (R239). -/
inductive LandSt | free | signing | complete
deriving DecidableEq, Repr

/-- A landing (R238): its state, binding, participant mask, signatures, the cycle of its first signature, whether its stall has been posted, and
the number of its last signature, which orders the landings of one warp (R244). -/
structure Landing where
  st : LandSt
  warp : Nat
  lbase : Nat
  cell : Nat
  tile : Nat
  recA : DWord
  recB : DWord
  koff : Word
  mask : Mask
  signers : Tab Signer
  since : Nat
  told : Bool
  turn : Nat
deriving DecidableEq, Repr

/-- A line of an instruction cache: its bytes, and the granules that were poisoned when it was filled (R164, R410). -/
structure CodeLine where
  line : Nat
  bytes : List Byte
  bad : List Nat
deriving DecidableEq, Repr

/-- A core: its two tiles and eight landings (R11), its round-robin pointers and the warp each port has chosen, for its next clause or
for a poll (R268, R269),
its tensor shape record cache, record address and image (R237), its instruction-cache lines, the oldest fill first (R164), and its engine command
queue, in the order of release (R197). -/
structure Core where
  tiles : List Tile
  landings : List Landing
  rr : List Nat
  chosen : List (Option (Nat × Bool))
  recCache : Tab (List Byte)
  icache : List CodeLine
  engq : List Nat
deriving DecidableEq, Repr

/-- A directory entry (R166): the sharers by die-local core, and the owner. -/
structure DirEnt where
  sharers : BitVec 128
  owner : Option Nat
deriving DecidableEq, Repr

/-- What a set keeps of a line for replacement: the hint of its fill, and the cycle of its last use (R217). -/
structure Way where
  hint : Hint
  used : Nat
deriving DecidableEq, Repr

/-- A line in an L1 (R166 to R168): Owned or Shared, dirty, filled through the annex, of a page private to the core, and its replacement
state (R217). -/
structure L1Line where
  owned : Bool
  dirty : Bool
  viaAnnex : Bool
  priv : Bool
  way : Way
deriving DecidableEq, Repr

/-- A line in an annex (R168, R169, R217): its expiry and its replacement state. -/
structure AnnexLine where
  expiry : Nat
  way : Way
deriving DecidableEq, Repr

/-- Who waits for a line as a whole (R170, R204): the commit of a warp, an engine command, a ring, a gallery's write-back, the patches of
a graph, the save of a unit, or what the porter and the lodge write into memory. -/
inductive Claimer
  | commit (w : Nat)
  | cmd (c : Nat)
  | ring (r : Nat)
  | gallery (g : Nat)
  | graph (g : Nat)
  | unit (u : Nat)
  | lodge (line : Nat)
deriving DecidableEq, Repr

/-- What waits at a home slice (R167, R168, R170, R174, R179): a lane of `ATOM`, `CAS` or `RED`, the head write of a side log (R209), a claim
on the line, page bits to be set in a leaf entry, the class of its page at an access by a core or by an engine, or the arrivals at the
record of a saved barrier node (R279). -/
inductive AtomFn
  | red (op : RedOp) (ty : Ty)
  | exch (wide : Bool)
  | cas (wide : Bool)
  | logWrite
  | claim (by_ : Claimer)
  | leafBits
  | leafClass (core : Option Nat) (base size : Nat)
  | nodeArrival (n : Nat)
deriving DecidableEq, Repr

/-- Where a remote request stands in a lease wrap: it reached its home slice; it has not left its die, which holds new requests (R172); it was held
at its home slice at the wrap, and is performed in the order of arrival (R385); or it is one that its die was late with (R386). -/
inductive WrapStage | none | unsent | held | late
deriving DecidableEq, Repr

/-- An operation that waits at a home slice or at a scratchpad unit (R170, R174, R175): the warp that sent it, or a number that no warp has,
its result or store record, its lane, place, width in bytes, operands, and its virtual address for the page bits; the die that sent it, and
where it stands in a wrap (R172, R385, R386). -/
structure HomeOp where
  warp : Nat
  recId : Nat
  store : Bool
  lane : Nat
  loc : Loc
  va : DWord
  n : Nat
  fn : AtomFn
  b : DWord
  c : DWord
  die : Nat
  stage : WrapStage
deriving DecidableEq, Repr

/-- A cached translation (R180): the core or engine that caches it (MODEL numbering), context, function, virtual page
of 4 KiB, host-physical frame of 4 KiB, leaf address, bytes of the page, and permissions. -/
structure Xlat where
  agent : Nat
  ctx : Nat
  fn : Nat
  vpage : Nat
  frame : Nat
  leafPa : Nat
  size : Nat
  nx : Bool
  us : Bool
  wr : Bool
  rd : Bool
deriving DecidableEq, Repr

/-- The annex of a die in retention sleep (R173): asleep, the wrap count it kept, and the wraps passed since. -/
structure AnnexSleep where
  asleep : Bool
  kept : BitVec 2
  passed : Nat
deriving DecidableEq, Repr

/-- A serial pass (R382): the favoured warp and its first cycle, and the warps that wait. -/
structure Serial where
  warp : Option Nat
  start : Nat
  waiting : List Nat
deriving DecidableEq, Repr

/-- A die: tunables (R285), dropped completions (R281), annex sleep, serial pass, whether its program cores and its porter are gated, and the
porter's lanes, by warp, for which a wake event has come since their window committed (R255, R309), the wrap stall (R386), the scrubs of its HBM
so far (R407), and its spare cores (R8). -/
structure Die where
  lterm : Nat
  stealDly : Nat
  galWait : Nat
  dropped : Nat
  sleep : AnnexSleep
  serial : Serial
  gated : Bool
  porterGated : Bool
  porterWake : Tab Mask
  wrapLate : Bool
  scrubs : Nat
  spares : Nat
deriving DecidableEq, Repr

/-! ### Work -/

/-- A group's queue (R222): capacity, allowance, cursors, count, entry words by position, and the segment that pushed
each (MODEL: the owner by position, which INFL counts). -/
structure Queue where
  depth : Nat
  allow : Nat
  count : Nat
  head : Nat
  tail : Nat
  infl : List Nat
  entries : List Word
  owners : List Nat
deriving DecidableEq, Repr

/-- A kernel record as registered (R320): entry, usher and handler addresses, queue capacities and allowances. -/
structure Kern where
  entry : DWord
  ubase : DWord
  tbase : DWord
  queues : List (Nat × Nat)
deriving DecidableEq, Repr

/-- A registered code object (R351-R353). -/
structure CodeObj where
  die : Nat
  fn : Nat
  ctx : Nat
  img : DWord
  text : DWord
  textLen : Nat
  kernels : List Kern
deriving DecidableEq, Repr

/-- Reach of a launch (R31). -/
inductive Reach | core | quad | die | pkg | pod
deriving DecidableEq, Repr

/-- A task record's fields (R225), with its context and function. -/
structure Task where
  prio : Nat
  acc : Nat
  spu : Nat
  gm1 : Nat
  wc : Nat
  tag : Word
  dcdone : Word
  dcw : Word
  gaff : DWord
  args : DWord
  entry : DWord
  ctx : Nat
  fn : Nat
  order : Nat
deriving DecidableEq, Repr

/-- A launch (R32, R291): context, function, intake die, parameters, the code object's index key and kernel record, the
job it counts toward, and for a launch-mode task its queue and completion counter (R225). -/
structure Launch where
  ctx : Nat
  fn : Nat
  die : Nat
  entry : DWord
  args : DWord
  gaff : DWord
  groups : Nat
  width : Nat
  segs : Nat
  gm : Nat
  gn : Nat
  reach : Reach
  gang : Bool
  spu : Nat
  acc : Nat
  prio : Nat
  stack : Option DWord
  kern : Kern
  text : DWord
  job : Option Nat
  taskq : Option Nat
  dcdone : Word
  ended : Nat
deriving DecidableEq, Repr

/-- A launch's place in an intake list (R259, R260): priority class, arrival number, the next of its units, how many it
has, the cycle at which its next unit became the head of its class, whether that unit blocks later ones, and for a
relaunch its unit number and kills so far. -/
structure Intake where
  launch : Nat
  prio : Nat
  arrival : Nat
  next : Nat
  units : Nat
  headAt : Option Nat
  blocks : Bool
  relaunch : Option (Nat × Nat)
deriving DecidableEq, Repr

/-- States of a unit of placement (R259, R271-R273, R397). -/
inductive UnitSt | placed | stopping | saved | killed | ended
deriving DecidableEq, Repr

/-- A unit: its launch, number within it, groups, state, cycle of placement, request cycle of a pre-emption and whether
its blockage has been posted (R384), kills so far (R398), and the hold of a kill (R397). -/
structure UnitRec where
  launch : Nat
  number : Nat
  gids : List Nat
  st : UnitSt
  placedAt : Nat
  stopAt : Nat
  told : Bool
  kills : Nat
  hid : Nat
deriving DecidableEq, Repr

/-- A group (R25, R261, R274): launch, unit, `sr.grp`, gang index, current core, generation (R281), scratchpad base in
16 KiB units, tiles, queues, attached galleries by name and view offset in bytes (R189), first-placement core and
package and slot mask (R274), the current slot of each first-placement slot, its save area (R275), whether it
still stands on a core, whether it has been released, and while it is saved the threads (segment index, lane) whose barrier has
completed (R279), the completions dropped (R281), the position masks that its threads read for life (R27, R274), and, by segment index, the
notices that wait while it is saved (R350). -/
structure Group where
  launch : Nat
  unit : Nat
  grp : Nat
  gmem : Nat
  core : Nat
  gen : BitVec 16
  spadBase : Nat
  tiles : List Nat
  queues : List Queue
  gals : List (DWord × Nat)
  vcore : Nat
  pkg : Nat
  vslots : BitVec 16
  segSlots : List Nat
  placed : Bool
  area : DWord
  released : Bool
  passed : List (Nat × Nat)
  drops : Nat
  gcores : BitVec 4
  gquads : BitVec 32
  notices : Tab (List Nat)
deriving DecidableEq, Repr

/-- States of a gallery (R186). -/
inductive GalSt | evicted | filling | resident | writingBack
deriving DecidableEq, Repr

/-- A gallery directory entry (R186): `sbase` is its place in the scratchpad of `core` in 16 KiB units; the operations that wait at it in the
order of their arrival, by warp,
segment base and whether it is a `GFREE`, the core that a fill or a pending
migration serves, the order of its last detach (R193), and the hold of a fault (R400). -/
structure Gal where
  ctx : Nat
  name : DWord
  size : Nat
  back : DWord
  seq : Word
  acnt : Word
  st : GalSt
  core : Nat
  sbase : Nat
  waiters : List (Nat × Nat × Bool)
  target : Option Nat
  detached : Nat
  hid : Nat
deriving DecidableEq, Repr

/-- A task queue (R224): mode, capacity, closed, steal set, ready tasks in arrival order. -/
structure TaskQ where
  worker : Bool
  cap : Nat
  closed : Bool
  set : Option Nat
  ready : List Task
deriving DecidableEq, Repr

/-- A dependence counter (R224) and the tasks that wait on it, each with its queue (R226). -/
structure DepCtr where
  val : Word
  waiting : List (Nat × Task)
deriving DecidableEq, Repr

/-- The unit that issued a barrier instance (R35): a segment of a group, a group, a gang, a launch. -/
inductive BarUnit | seg (gid idx : Nat) | group (gid : Nat) | gang (unit : Nat) | launch (l : Nat)
deriving DecidableEq, Repr

/-- A barrier instance: level, mask, issuing unit and place (R35), the threads arrived by group, segment index and lane, the
groups that were saved after they had arrived whole, the address of the record of a saved node (R279), whether its
completion has been performed there, the cycle it opened, whether its stall has been posted, the arrivals that its record counted beyond
those threads when the node was reloaded (R280), and the bit at which a redirected arrival disagreed with the record (R365). -/
structure Bar where
  lvl : Level
  mask : Mask
  unit : BarUnit
  place : Nat
  arrived : List (Nat × Nat × Nat)
  whole : List Nat
  saved : Option Nat
  done : Bool
  since : Nat
  told : Bool
  extra : Nat
  clash : Option Nat
deriving DecidableEq, Repr

/-- States of an engine command (R206, R210, R211): waiting in its warp's deferred-launch queue, released, held by a
fault, its data moved, ended. -/
inductive CmdSt | deferred | released | held | moved | ended
deriving DecidableEq, Repr

/-- An engine command (R246): cell (0xD0, 0xD1, 0xD2, 0xD4), sequence number, issuing warp, segment base, group and
generation (none for a packet's copy), descriptor address, and its image once read, modifiers, state, the job it counts
toward, its context and function, issuing die, whether its token is set, its hold, its first cycle, the number of its instruction,
which counts until each of its commands has its token (R74), the number of the last record that its warp had made before it, and the lanes
that issued it (R210), its place among the events of its window (R246), whether its release counts as progress (R374), the engine that runs it
among its die's eleven (R15), whether the engine has
judged it (R370), whether its reads are done, the bytes that each read event gave with the poison of the granules of its line, the write events
performed (R210), the bytes that a gather has read as its indices or a collective has reduced, the stretches of those that are poisoned, and
whether its descriptor was (R410). -/
structure Cmd where
  cell : Nat
  seq : Word
  warp : Nat
  lbase : Nat
  gid : Option Nat
  gen : BitVec 16
  desc : DWord
  image : Option (BitVec 512)
  acq : Bool
  rel : Bool
  st : CmdSt
  job : Option Nat
  ctx : Nat
  fn : Nat
  die : Nat
  token : Bool
  hid : Nat
  since : Nat
  insn : Nat
  upto : Nat
  lanes : Mask
  pos : Nat
  gain : Bool
  eng : Option Nat
  judged : Bool
  ready : Bool
  got : Tab (List Byte × BitVec 4)
  wrote : List Nat
  staged : Option (List Byte)
  stagedBad : List (Nat × Nat)
  spoiled : Bool
deriving DecidableEq, Repr

/-- A contribution of another package to a collective, as it arrives over the Swezin Link (R249). -/
structure PeerColl where
  cid : Word
  pkg : Nat
  fields : BitVec 512
  vals : List Word
deriving DecidableEq, Repr

/-- A collective that has ended because its participants disagree: its context, function, identifier and level, and the participants that it has
still to tell (R370). -/
structure OddColl where
  ctx : Nat
  fn : Nat
  cid : Word
  pod : Bool
  left : List Nat
deriving DecidableEq, Repr

/-- A job: work that a packet or a graph node started (R290): units and copies that have not completed, its ring, and
its graph node. -/
structure Job where
  left : Nat
  ring : Nat
  node : Option (Nat × Nat)
  failed : Bool
deriving DecidableEq, Repr

/-! ### Host interface -/

/-- A place from which packets are fetched (R293, R296): base address, bytes, offset, whether it is the ring itself, its
level, and the ring offset of the ring packet that led there. -/
structure Cursor where
  base : DWord
  size : Nat
  off : Nat
  ring : Bool
  lvl : Nat
  rpos : Nat
deriving DecidableEq, Repr

/-- A fetched packet (R296): its words, address, level, the ring offset of its ring packet, where fetching goes on after it
(innermost place first), and whether its buffer has been followed. -/
structure FPkt where
  words : List DWord
  addr : DWord
  lvl : Nat
  rpos : Nat
  curs : List Cursor
  followed : Bool
deriving DecidableEq, Repr

/-- A stretch of execution: a stream, with the place at which fetching stands, the place of the next packet to execute, and
the packets fetched and not executed (R293, R296); or the passes of a loop, with the copies of its body, those that the
present pass has still to execute, and the passes left after it (R295). -/
structure Frame where
  curs : List Cursor
  here : List Cursor
  fetched : List FPkt
  body : List FPkt
  passes : Nat
deriving DecidableEq, Repr

/-- A `LOOP` whose body is being taken up (R295): its packet, how many packets are still needed, those taken, and `COUNT`. -/
structure LoopSt where
  head : FPkt
  need : Nat
  body : List FPkt
  count : Nat
deriving DecidableEq, Repr

/-- What a ring waits for (R298, R299, R301): the completion of its work, the next poll of a word with the interval, its cycle
and the value last read, the unload of a graph, or the host (R396). -/
inductive RingWait
  | jobs
  | poll (interval due : Nat) (last : Word)
  | unload (g : Nat)
  | host (hid : Nat)
deriving DecidableEq, Repr

/-- A ring (R283, R287): its stretches of execution, innermost first, the loop that it takes up, the level and number of the
packets that a `PRED` skips (R294), and its place in the order in which the rings of its die became ready (R287). -/
structure Ring where
  base : DWord
  size : Nat
  ctx : Nat
  stat : Nat
  rdoff : Nat
  wroff : Nat
  frames : List Frame
  gather : Option LoopSt
  skip : Option (Nat × Nat)
  wait : Option RingWait
  turn : Nat
deriving DecidableEq, Repr

/-- An MSI-X table entry: address, data, mask bit (R283). -/
structure Msix where
  addr : DWord
  data : Word
  masked : Bool
deriving DecidableEq, Repr

/-- A function's package-scope registers: stage two (R181, R285), cause log (R348), MSI-X (R283). -/
structure Fn where
  s2base : DWord
  s2bound : DWord
  clbase : DWord
  clsize : Nat
  clwr : Word
  cllost : Nat
  clrd : Word
  msix : List Msix
  msixPend : BitVec 16
deriving DecidableEq, Repr

/-- A context (R286), whether its root has been found bad (R388), whether it has been ended, the cycle from which its slice
runs, and the pages of its save pool in use (R275). -/
structure Ctx where
  fn : Nat
  root : DWord
  slice : Nat
  spBase : DWord
  spSize : Nat
  gdie : Nat
  rootBad : Bool
  ended : Bool
  sliceAt : Nat
  pool : List (Nat × Nat)
deriving DecidableEq, Repr

/-- What a hold identifier names (R348, R386, R391, R392, R394, R396, R397, R400). -/
inductive Held
  | seg (w lb : Nat)
  | sideLog (w : Nat)
  | warp (w : Nat)
  | cmd (c : Nat)
  | ring (r : Nat)
  | gallery (g : Nat)
  | unit (u : Nat)
  | die (d : Nat)
  | fetch (w : Nat)
  | node (g n : Nat)
deriving DecidableEq, Repr

/-- States of a graph node in a run (R304). -/
inductive NodeSt | waiting | ready | acting | finished
deriving DecidableEq, Repr

/-- A run of a graph (R304): counts and states by node, whether it is abandoned, whether its end node has finished, and the job
of the packet that started it. -/
structure Run where
  counts : List Nat
  sts : List NodeSt
  abandoned : Bool
  done : Bool
  job : Option Nat
deriving DecidableEq, Repr

/-- A loaded graph (R301, R303): its nodes as 512-bit images, its context, function, die and argument base, its run, the trigger whose run
starts and the pending trigger, each with the context of the patch list and the job of its packet (R307, R308), and whether an unload holds
on its run. -/
structure Graph where
  die : Nat
  fn : Nat
  ctx : Nat
  nodes : List (BitVec 512)
  args : DWord
  run : Option Run
  starting : Option (DWord × Nat × Option Nat)
  pending : Option (DWord × Nat × Option Nat)
  unloading : Bool
deriving DecidableEq, Repr

/-- What the module sends to the outside: an MSI-X message, a heartbeat on a port, a reset vote, a breakpoint notice (R127, R283,
R418). -/
inductive OutMsg
  | msix (fn vector : Nat) (addr : DWord) (data : Word)
  | heartbeat (port pkg : Nat) (seq : DWord)
  | vote (voter target : Nat) (epoch : DWord) (sig : List Byte)
  | debug (gid : Nat) (hid : Nat)
deriving DecidableEq, Repr

/-! ### Lodge -/

/-- A neighbouring package (R418, R419): number, its installed key, the cycle its last heartbeat arrived, the cycle of
the last miss posted, and the last epoch accepted. -/
structure Neighbour where
  pkg : Nat
  key : BitVec 512
  heard : Nat
  missed : Nat
  epoch : DWord
deriving DecidableEq, Repr

/-- A wake-filter entry (R285, R309). -/
structure WakeEnt where
  value : BitVec 128
  mask : BitVec 128
  ports : BitVec 20
  die : Nat
  enable : Bool
deriving DecidableEq, Repr

/-- A firmware kind's two slots, A and B, and the active one (R413). -/
structure FwSlots where
  a : List Byte
  b : List Byte
  active : Nat
  minVer : Nat
  started : Option Nat
deriving DecidableEq, Repr

/-- The lodge and the package-scope management registers (R285, R309, R411-R419). -/
structure Lodge where
  lifecycle : Nat
  keyPresent : Bool
  lodgeFw : FwSlots
  porterFw : FwSlots
  m0 : BitVec 512
  m1 : BitVec 512
  m2 : BitVec 512
  coresUp : Bool
  resetAsked : Bool
  fwAddr : DWord
  fwLen : DWord
  fwStat : Nat
  fwKind : Nat
  fwImage : List Byte
  attStat : Nat
  attAddr : DWord
  pkgNum : BitVec 6
  wake : List WakeEnt
  frames : List (Nat × List Byte)
  wfUnmatched : Nat
  wfFull : Nat
  throttled : Bool
  hbSeq : DWord
  voteEpoch : DWord
  neighbours : List Neighbour
  votes : List (Nat × Nat)
  txBase : DWord
  txCnt : DWord
deriving DecidableEq, Repr

/-- The error counts of a unit of a die (R407, R408): die, unit code, cycle of the last post, count since, and the
cycles and places of its recent corrected errors. -/
structure EccRec where
  die : Nat
  unit : Nat
  lastPost : Nat
  count : Nat
  seen : List (DWord × Nat)
deriving DecidableEq, Repr

/-! ### The module -/

/-- The whole module. -/
structure State where
  /-- Core cycles since module reset: `sr.clock` (R58). -/
  now : Nat
  /-- Banister ticks so far (R374). -/
  ticks : Nat
  /-- MODEL: the rows that move next (assumption 1). -/
  agenda : List Instr
  /-- MODEL: writes of the host to `CTXCREATE`, `OBJREG` and `OBJDEL` that wait for memory to answer (R166, R170; assumption 106). -/
  asked : List Instr
  /-- MODEL: the warp whose slot runs next. -/
  cur : Nat
  /-- MODEL: the number of the next free value (assumption 7). -/
  freeNo : Nat
  /-- MODEL: the number given to the next group, unit, launch, job, command, hold, arrival. -/
  nextNo : Nat
  /-- HBM, by host-physical address (R13). -/
  mem : Memory
  /-- Physical scratchpad, by core * 2^20 + offset (R11). -/
  spad : Memory
  /-- Host memory, where the cause logs lie (R348). -/
  host : Memory
  /-- The code store (R16, R393). -/
  flash : Memory
  /-- Text that other packages hold, by package * 2^64 + address (R393, R394). -/
  peerText : Memory
  /-- Poisoned 32-byte granules of HBM and of scratchpad (R409). -/
  poison : List Nat
  poisonSpad : List Nat
  /-- Warp slots by number, core * 16 + slot; an unlisted slot is empty (R22). -/
  warps : Tab Warp
  /-- Cores by number, die * 256 + local core; local core 128 is the porter (R8, R10). -/
  cores : Tab Core
  /-- Dies (R6). -/
  dies : List Die
  /-- The lease clock and wrap count, and the cycle at which the clock reached its top (R169, R172, R386). -/
  leaseClock : BitVec 32
  wrapCount : BitVec 2
  wrapAt : Option Nat
  /-- Lease tables: the latest expiry of a line (R169, R197). -/
  leases : Tab Nat
  /-- Annex lines, by die * 2^34 + line (R168, R169). -/
  annex : Tab AnnexLine
  /-- Leases of lines that an annex has given up before their expiry, by die * 2^34 + line, which a window may have read under (R171). -/
  spent : List (Nat × Nat)
  /-- Lines in the L2 of their home die, by line (R14, R164). -/
  l2 : Tab Way
  /-- Directory entries by line (R166), and L1 lines by core * 2^34 + line. -/
  directory : Tab DirEnt
  l1 : Tab L1Line
  /-- What waits at home slices and scratchpad units, in the order of arrival; no lease is granted for a line with an operation or a claim
  (R166, R170, R174, R175). -/
  homeOps : List HomeOp
  /-- Cached translations (R180). -/
  xlats : List Xlat
  /-- Contexts by number (R286), functions 0 to 31 (R282-R285, R348), and code objects (R351). -/
  ctxs : Tab Ctx
  fns : List Fn
  objs : List CodeObj
  /-- `TRIGOVF` of function page die * 32 + f (R283). -/
  trigOvf : Tab Nat
  /-- Rings by (die * 32 + f) * 16 + k (R283, R287). -/
  rings : Tab Ring
  /-- Loaded graphs by die * 256 + number (R301). -/
  graphs : Tab Graph
  /-- Hold identifiers in use, each with its function (R348). -/
  holds : List (Nat × Nat × Held)
  /-- Messages sent to the outside, in order. -/
  out : List OutMsg
  /-- Launches, units, groups, jobs by number; intake lists by die (R259). -/
  launches : Tab Launch
  units : Tab UnitRec
  groups : Tab Group
  jobs : Tab Job
  intake : Tab (List Intake)
  /-- Gallery directory entries (R186). -/
  gals : Tab Gal
  /-- Task queues by die * 256 + index, dependence counters by die * 65536 + index (R224). -/
  taskqs : Tab TaskQ
  depctrs : Tab DepCtr
  /-- Open barriers (R35). -/
  bars : List Bar
  /-- Engine commands by number, and the contributions of other packages (R197, R246, R249). -/
  cmds : Tab Cmd
  peers : List PeerColl
  /-- Collectives that disagreement has ended, while a participant has still to be told (R370). -/
  oddColls : List OddColl
  /-- Services that system software lists (R128). -/
  services : List Nat
  /-- The lodge (R309, R411-R419), error counts (R407), and retired units by die, unit code and place (R408). -/
  lodge : Lodge
  ecc : List EccRec
  retired : List (Nat × Nat × DWord)
deriving DecidableEq, Repr

/-! ### Reset -/

/-- A void register (R52, R53). -/
def VReg.reset : VReg := ⟨.void, []⟩

/-- A warp slot that holds no segment. -/
def Warp.reset : Warp where
  segs := []
  regs := List.replicate 128 VReg.reset
  preds := List.replicate 15 0
  pcs := []
  live := 0
  holds := []
  rot := 0
  fpflags := 0
  ldCnt := 0
  stCnt := 0
  enCnt := 0
  quCnt := 0
  results := []
  stores := []
  laid := []
  nextId := 0
  clause := none
  resume := []
  via := []
  window := none
  irr := 0
  sideLog := []
  logHold := 0
  logSince := 0
  logPages := []
  logTold := false
  fullTold := false
  logDrain := false
  engSeq := 0
  level := 0
  rolls := []
  soloUntil := 0
  levelAt := 0
  soloTo := none
  readyAt := none
  yieldTo := []
  poison := []

/-- A tile that nothing holds, zeroed by the wipe of R412. -/
def Tile.reset : Tile := ⟨none, [], []⟩

/-- A free landing (R239). -/
def Landing.reset : Landing := ⟨.free, 0, 0, 0, 0, 0, 0, 0, 0, [], 0, false, 0⟩

/-- An idle core. -/
def Core.reset : Core where
  tiles := [Tile.reset, Tile.reset]
  landings := List.replicate 8 Landing.reset
  rr := [0, 0]
  chosen := [none, none]
  recCache := []
  icache := []
  engq := []

/-- A die with the tunables of R285 at their reset values. -/
def Die.reset : Die where
  lterm := 256
  stealDly := 2048
  galWait := 8192
  dropped := 0
  sleep := ⟨false, 0, 0⟩
  serial := ⟨none, 0, []⟩
  gated := false
  porterGated := false
  porterWake := []
  wrapLate := false
  scrubs := 0
  spares := 3

/-- A function's registers at reset (R283, R285, R348); every MSI-X vector is masked, as PCI Express has it. -/
def Fn.reset : Fn where
  s2base := 0
  s2bound := 0
  clbase := 0
  clsize := 0
  clwr := 0
  cllost := 0
  clrd := 0
  msix := List.replicate 16 ⟨0, 0, true⟩
  msixPend := 0

/-- A firmware kind with empty slots (assumption 10). -/
def FwSlots.reset : FwSlots := ⟨[], [], 0, 0, none⟩

/-- The lodge at reset: registers as R285 and R415 give them, the rest as assumption 10 names it. -/
def Lodge.reset : Lodge where
  lifecycle := 2
  keyPresent := true
  lodgeFw := FwSlots.reset
  porterFw := FwSlots.reset
  m0 := 0
  m1 := 0
  m2 := 0
  coresUp := true
  resetAsked := false
  fwAddr := 0
  fwLen := 0
  fwStat := 0
  fwKind := 0
  fwImage := []
  attStat := 0
  attAddr := 0
  pkgNum := 0
  wake := List.replicate 16 ⟨0, 0, 0, 0, false⟩
  frames := []
  wfUnmatched := 0
  wfFull := 0
  throttled := false
  hbSeq := 0
  voteEpoch := 0
  neighbours := []
  votes := []
  txBase := 0
  txCnt := 0

/-- The module right after reset: every memory wiped (R412), nothing created, nothing placed. -/
def State.reset : State where
  now := 0
  ticks := 0
  agenda := []
  asked := []
  cur := 0
  freeNo := 0
  nextNo := 1
  mem := []
  spad := []
  host := []
  flash := []
  peerText := []
  poison := []
  poisonSpad := []
  warps := []
  cores := []
  dies := List.replicate 4 Die.reset
  leaseClock := 0
  wrapCount := 0
  wrapAt := none
  leases := []
  annex := []
  spent := []
  l2 := []
  directory := []
  l1 := []
  homeOps := []
  xlats := []
  ctxs := []
  fns := List.replicate 32 Fn.reset
  objs := []
  trigOvf := []
  rings := []
  graphs := []
  holds := []
  out := []
  launches := []
  units := []
  groups := []
  jobs := []
  intake := []
  gals := []
  taskqs := []
  depctrs := []
  bars := []
  cmds := []
  peers := []
  oddColls := []
  services := []
  lodge := Lodge.reset
  ecc := []
  retired := []

end Sys2Proof.Machine
end

