-- ==== Sys2Proof/Machine/Ops.lean ====
section
/-! DEFINITION. The named operations on the state: tables and memory, lane masks, warps and segments, results that become
visible, cause logs, taking a cause, entering the group trap handler and returning from it. -/

namespace Sys2Proof.Machine

/-! ### Tables -/

/-- The value at a key. -/
def Tab.find {α : Type} (t : Tab α) (k : Nat) : Option α :=
  match t with
  | [] => none
  | (j, v) :: rest => if j = k then some v else if k < j then none else Tab.find rest k

/-- A table with a value put at a key; keys stay rising. -/
def Tab.put {α : Type} (t : Tab α) (k : Nat) (v : α) : Tab α :=
  match t with
  | [] => [(k, v)]
  | (j, u) :: rest => if j = k then (k, v) :: rest else if k < j then (k, v) :: (j, u) :: rest else (j, u) :: Tab.put rest k v

/-- A table without a key. -/
def Tab.del {α : Type} (t : Tab α) (k : Nat) : Tab α :=
  match t with
  | [] => []
  | (j, u) :: rest => if j = k then rest else if k < j then (j, u) :: rest else (j, u) :: Tab.del rest k

/-- The value at a key changed, if there is one. -/
def Tab.alter {α : Type} (t : Tab α) (k : Nat) (f : α → α) : Tab α :=
  match t.find k with
  | some v => t.put k (f v)
  | none => t

/-- Every value of a table changed. -/
def Tab.mapV {α : Type} (t : Tab α) (f : Nat → α → α) : Tab α := t.map fun p => (p.1, f p.1 p.2)

/-- An element of a list replaced. -/
def setAt {α : Type} (l : List α) (n : Nat) (x : α) : List α := l.set n x

/-- An element of a file of `size` registers replaced; a register beyond the list holds `blank`. -/
def fileAt {α : Type} (size : Nat) (blank : α) (l : List α) (n : Nat) (x : α) : List α :=
  (l ++ List.replicate (size - l.length) blank).set n x

/-! ### Memory -/

/-- What an unlisted address reads as: every memory is wiped to 0 at reset (R412). -/
def Memory.blank : Byte := 0

/-- The byte at an address. -/
def Memory.byte (m : Memory) (a : Nat) : Byte :=
  match m with
  | [] => Memory.blank
  | (j, v) :: rest => if j = a then v else if a < j then Memory.blank else Memory.byte rest a

/-- A memory with a byte written; writing the blank value removes the entry. -/
def Memory.put (m : Memory) (a : Nat) (b : Byte) : Memory :=
  match m with
  | [] => if b = Memory.blank then [] else [(a, b)]
  | (j, v) :: rest =>
    if j = a then (if b = Memory.blank then rest else (a, b) :: rest)
    else if a < j then (if b = Memory.blank then (j, v) :: rest else (a, b) :: (j, v) :: rest)
    else (j, v) :: Memory.put rest a b

/-- The canonical form: addresses strictly rising, no entry equal to what an unlisted address reads as. -/
def Memory.wf (m : Memory) : Bool :=
  match m with
  | [] => true
  | (a, b) :: rest => b != Memory.blank && rest.all (fun c => decide (a < c.1)) && Memory.wf rest

/-- The little-endian value of `n` bytes (R2). -/
def Memory.nat (m : Memory) (a : Nat) : Nat → Nat
  | 0 => 0
  | n + 1 => (m.byte a).toNat + 256 * Memory.nat m (a + 1) n

/-- `n` bytes written, little-endian (R2). -/
def Memory.store (m : Memory) (a : Nat) : Nat → Nat → Memory
  | 0, _ => m
  | n + 1, v => Memory.store (m.put a (BitVec.ofNat 8 v)) (a + 1) n (v / 256)

/-- `n` bytes as a list in ascending address order. -/
def Memory.bytes (m : Memory) (a n : Nat) : List Byte := (List.range n).map fun k => m.byte (a + k)

/-- A list of bytes written in ascending address order. -/
def Memory.putAll (m : Memory) (a : Nat) : List Byte → Memory
  | [] => m
  | b :: rest => Memory.putAll (m.put a b) (a + 1) rest

/-- A 32-bit word of memory. -/
def Memory.word (m : Memory) (a : Nat) : Word := BitVec.ofNat 32 (m.nat a 4)
/-- A 64-bit value of memory. -/
def Memory.dword (m : Memory) (a : Nat) : DWord := BitVec.ofNat 64 (m.nat a 8)

/-! ### Masks and lists -/

/-- The 64 lanes. -/
def allLanes : List Nat := List.range 64

/-- The lanes of a mask, ascending. -/
def lanesOf (m : Mask) : List Nat := allLanes.filter fun l => m.getLsbD l

/-- The mask of one lane. -/
def laneBit (l : Nat) : Mask := BitVec.ofNat 64 (2 ^ l)

/-- The mask of the lanes that satisfy a test. -/
def maskWhere (p : Nat → Bool) : Mask := allLanes.foldl (fun m l => if p l then m ||| laneBit l else m) 0

/-- The low `n` bits set. -/
def lowMask (n : Nat) : Mask := BitVec.ofNat 64 (2 ^ n - 1)

/-- The lowest lane of a mask. -/
def firstLane (m : Mask) : Option Nat := (lanesOf m).head?

/-- An element of a list of words; past its end 0. -/
def wordAt (l : List Word) (n : Nat) : Word := l.getD n 0

/-! ### Numbers of agents -/

/-- The core, the slot and the die of a warp (R22, R27). -/
def coreOf (w : Nat) : Nat := w / 16
def slotOf (w : Nat) : Nat := w % 16
def dieOf (w : Nat) : Nat := w / 16 / 256
/-- The issue port of a warp (R22). -/
def portOf (w : Nat) : Nat := slotOf w / 8
/-- Whether a core is a porter core (R10). -/
def isPorter (core : Nat) : Bool := core % 256 == 128

/-! ### Warps, segments and groups -/

/-- A warp slot; an unlisted slot holds nothing. -/
def State.warp (s : State) (w : Nat) : Warp := (s.warps.find w).getD Warp.reset
/-- A state with a warp slot replaced. -/
def State.setWarp (s : State) (w : Nat) (x : Warp) : State := { s with warps := s.warps.put w x }
/-- A state with a warp slot changed. -/
def State.onWarp (s : State) (w : Nat) (f : Warp → Warp) : State := s.setWarp w (f (s.warp w))
/-- The warp whose slot runs. -/
def State.curWarp (s : State) : Warp := s.warp s.cur

def State.core (s : State) (c : Nat) : Core := (s.cores.find c).getD Core.reset
def State.onCore (s : State) (c : Nat) (f : Core → Core) : State := { s with cores := s.cores.put c (f (s.core c)) }
def State.die (s : State) (d : Nat) : Die := s.dies.getD d Die.reset
def State.onDie (s : State) (d : Nat) (f : Die → Die) : State := { s with dies := setAt s.dies d (f (s.die d)) }
def State.fn (s : State) (f : Nat) : Fn := s.fns.getD f Fn.reset
def State.onFn (s : State) (f : Nat) (g : Fn → Fn) : State := { s with fns := setAt s.fns f (g (s.fn f)) }

/-- The lanes of a segment as a mask of its slot. -/
def Seg.slots (g : Seg) : Mask := lowMask g.width <<< g.lbase
/-- Slot lanes to segment lanes (R26). -/
def Seg.rel (g : Seg) (m : Mask) : Mask := (m >>> g.lbase) &&& lowMask g.width
/-- Segment lanes to slot lanes. -/
def Seg.abs (g : Seg) (m : Mask) : Mask := (m &&& lowMask g.width) <<< g.lbase
/-- Whether a slot lane is of the segment. -/
def Seg.hasLane (g : Seg) (l : Nat) : Bool := decide (g.lbase ≤ l ∧ l < g.lbase + g.width)

/-- The segment of a slot lane. -/
def Warp.segOf (wp : Warp) (l : Nat) : Option Seg := wp.segs.find? fun g => g.hasLane l
/-- The segment at a base. -/
def Warp.segAt (wp : Warp) (lb : Nat) : Option Seg := wp.segs.find? fun g => g.lbase == lb
/-- A warp with the segment at a base changed. -/
def Warp.onSeg (wp : Warp) (lb : Nat) (f : Seg → Seg) : Warp :=
  { wp with segs := wp.segs.map fun g => if g.lbase = lb then f g else g }
/-- A warp with every segment changed. -/
def Warp.onSegs (wp : Warp) (f : Seg → Seg) : Warp := { wp with segs := wp.segs.map f }
/-- The segments that a mask of slot lanes touches. -/
def Warp.segsIn (wp : Warp) (m : Mask) : List Seg := wp.segs.filter fun g => g.slots &&& m != 0

/-- A slot lane's program counter. -/
def Warp.pc (wp : Warp) (l : Nat) : DWord := wp.pcs.getD l 0
/-- A warp with program counters set on a mask of lanes. -/
def Warp.setPcs (wp : Warp) (m : Mask) (f : Nat → DWord) : Warp :=
  { wp with pcs := allLanes.map fun l => if m.getLsbD l then f l else wp.pc l }

/-- What `via` holds for a lane that has come to its header through `vpc`: no slot transferred it (R354). -/
def viaVpc : DWord × Nat := (0, 16)

/-- Lanes sent to their `vpc`, or to the usher: a word there that is no header is a bad target (R354). -/
def Warp.goVpc (wp : Warp) (m : Mask) (f : Nat → DWord) : Warp :=
  let wp := wp.setPcs m f
  { wp with via := (lanesOf m).foldl (fun (t : Tab (DWord × Nat)) l => t.put l viaVpc) wp.via }

/-- A group, its launch, its context and its function. -/
def State.group (s : State) (g : Nat) : Option Group := s.groups.find g
def State.launchOf (s : State) (g : Nat) : Option Launch := (s.group g).bind fun x => s.launches.find x.launch
def State.fnOf (s : State) (g : Nat) : Nat := ((s.launchOf g).map Launch.fn).getD 0
def State.ctxOf (s : State) (g : Nat) : Nat := ((s.launchOf g).map Launch.ctx).getD 0
def State.genOf (s : State) (g : Nat) : BitVec 16 := ((s.group g).map Group.gen).getD 0

/-- Grades (R253). -/
inductive Grade | program | handler | firmware
deriving DecidableEq, Repr

/-- The grade of a slot lane (R253). -/
def Seg.grade (g : Seg) (l : Nat) : Grade :=
  if g.handler.getLsbD (l - g.lbase) then .handler else if g.firmware then .firmware else .program

/-- A fresh number for an agent of the model. -/
def State.fresh (s : State) : Nat × State := (s.nextNo, { s with nextNo := s.nextNo + 1 })

/-- The event put at the end of the agenda. -/
def State.later (s : State) (i : Instr) : State := { s with agenda := s.agenda ++ [i] }

/-! ### Runnable lanes -/

/-- Lanes of a segment that stand stopped by a cause: the cause that is taken, and those that wait (R343). -/
def Seg.stopped (g : Seg) : Mask :=
  ((g.cause.map SegCause.lanes).getD 0) ||| g.queue.foldl (fun m c => m ||| (if c.cls = .p then c.lanes else 0)) 0

/-- Slot lanes that a wait holds (R23). -/
def Warp.heldMask (wp : Warp) : Mask := wp.holds.foldl (fun m h => m ||| laneBit h.1) 0

/-- Lanes that stand at a slot and will go on there (R86). -/
def Warp.resumeMask (wp : Warp) : Mask := wp.resume.foldl (fun m a => m ||| a.lanes) 0

/-- Lanes of a segment that are in its handler or stopped by a cause. -/
def Seg.trapped (g : Seg) : Mask :=
  g.stopped ||| ((g.record.map fun r => r.cause.lanes).getD 0)

/-- The runnable lanes of a segment, as slot lanes (R23): in a takeover only the lane whose turn it is, ignoring its masks
(R376); in the usher the usher's lanes (R45, R51); else the lanes with `lmask` 1 and `lpark` 0; lanes in the handler run on (R344). -/
def Warp.runnableIn (wp : Warp) (g : Seg) : Mask :=
  let base := g.rel (wp.live &&& ~~~wp.heldMask) &&& ~~~g.stopped
  let m :=
    match g.takeover with
    | some t =>
      match firstLane t.left with
      | some l => base &&& laneBit l
      | none => 0
    | none => base &&& (g.handler ||| (if g.udepth > 0 then g.urun else g.lmask &&& ~~~g.lpark))
  g.abs m

/-- The runnable lanes of a warp whose next slot may be that of the cycle after `now` (R23, R46). -/
def Warp.runnable (wp : Warp) (now : Nat) : Mask :=
  wp.segs.foldl (fun m g => if g.notBefore ≤ now + 1 then m ||| wp.runnableIn g else m) 0

/-! ### Registers and pending results -/

/-- The word of a register in a slot lane; a lane that nothing has written reads 0 (R53). -/
def VReg.word (r : VReg) (l : Nat) : Word := wordAt r.lanes l

/-- The rank of a shape in the order void = uniform < affine < general (R54). -/
def Shape.rank : Shape → Nat
  | .void => 0
  | .uniform => 0
  | .affine => 1
  | .general => 2

/-- The join of a result's shape and a register's old tag (R54). -/
def Shape.join (t old : Shape) : Shape := if t.rank ≥ old.rank then (if t = .void then .uniform else t) else old

/-- The tag that a register holds after a write (R54). -/
def Cover.tag (c : Cover) (t old : Shape) : Shape :=
  match c with
  | .all => t
  | .some => t.join old
  | .part => .general

/-- A register after a write of result shape `t`: the lanes written, and where the final shape is not general, the exited
lanes of the segments written whole (R53, R54). -/
def VReg.write (r : VReg) (lanes fill : Mask) (cover : Cover) (t : Shape) (f : Nat → Word) : VReg :=
  let tag := cover.tag t r.tag
  let m := if tag = .general then lanes else lanes ||| fill
  ⟨tag, allLanes.map fun l => if m.getLsbD l then f l else r.word l⟩

def Warp.reg (wp : Warp) (n : Nat) : VReg := wp.regs.getD n VReg.reset
def Warp.setReg (wp : Warp) (n : Nat) (r : VReg) : Warp := { wp with regs := fileAt 128 VReg.reset wp.regs n r }
def Warp.pred (wp : Warp) (n : Nat) : Mask := if n = 15 then ~~~0 else wp.preds.getD n 0

/-- The flags that the lanes of a mask raise together (R104). -/
def orFlags (m : Mask) (f : Nat → BitVec 5) : BitVec 5 := (lanesOf m).foldl (fun k l => k ||| f l) 0

/-- The flags of a pending flag change: those of its lanes together (R104, R126). -/
def Pend.flags (p : Pend) : BitVec 5 := orFlags p.lanes fun l => (p.vals.getD l 0).setWidth 5

/-- Poison of register lanes is cleared by a write (R410). -/
def clearPoison (p : List Nat) (n : Nat) (m : Mask) : List Nat :=
  p.filter fun k => !(k / 64 == n && m.getLsbD (k % 64))

/-- Lanes of a segment at `udepth` 0 whose `lmask` and `lpark` change so that they may run again: they stand at their `vpc` (R47, R48), but
for those that a wait holds, which go on from their slot (R45), and for a takeover, whose turns set where each lane starts (R376). -/
def Warp.startWoken (wp : Warp) (f : Seg → Seg) : Warp :=
  let woken := fun g : Seg =>
    if g.udepth = 0 ∧ g.takeover.isNone then
      ((f g).lmask &&& ~~~(f g).lpark) &&& ~~~(g.lmask &&& ~~~g.lpark) &&& g.rel (~~~wp.heldMask &&& ~~~wp.resumeMask) &&& ~~~g.trapped
    else 0
  let m := wp.segs.foldl (fun (m : Mask) g => m ||| g.abs (woken g)) 0
  let at_ := fun l => ((wp.segOf l).map fun g => g.vpc.getD (l - g.lbase) 0).getD 0
  (wp.goVpc m at_).onSegs f

/-- A pending result made visible (R61, R126). -/
def Warp.apply (wp : Warp) (p : Pend) : Warp :=
  match p.tgt with
  | .vreg n =>
    let r := (wp.reg n).write p.lanes p.fill p.cover p.shape fun l => loWord (p.vals.getD l 0)
    { wp.setReg n r with poison := clearPoison wp.poison n p.lanes }
  | .preg n =>
    let bits := p.lanes &&& maskWhere fun l => p.vals.getD l 0 != 0
    { wp with preds := fileAt 15 0 wp.preds n ((wp.pred n &&& ~~~p.lanes) ||| bits) }
  | .lmask => wp.startWoken fun g =>
      if g.slots &&& p.lanes != 0 then
        { g with lmask := p.vals.getD g.lbase 0 &&& lowMask g.width &&& g.rel wp.live }
      else g
  | .lpark => wp.startWoken fun g =>
      if g.slots &&& p.lanes != 0 then { g with lpark := p.vals.getD g.lbase 0 &&& lowMask g.width } else g
  | .lparkClear => wp.startWoken fun g =>
      if g.slots &&& p.lanes != 0 then { g with lpark := g.lpark &&& ~~~(p.vals.getD g.lbase 0) } else g
  | .vpc => wp.onSegs fun g =>
      { g with vpc := (List.range g.width).map fun l =>
          if p.lanes.getLsbD (g.lbase + l) then p.vals.getD (g.lbase + l) 0 &&& ~~~7 else g.vpc.getD l 0 }
  | .flagsOr => { wp with fpflags := wp.fpflags ||| p.flags }
  | .flagsSet => { wp with fpflags := p.flags }

/-- The reach of a write that has lost lanes (R54): a segment that has lost some of them is written partly, one that has lost them all not at
all. -/
def Cover.less (c : Cover) (segs : List Seg) (old new : Mask) : Cover :=
  if new = old ∨ c = .part then c
  else if segs.all fun g => g.slots &&& new == g.slots &&& old || g.slots &&& new == 0 then .some else .part

/-- The exited lanes of the segments that a write which has lost lanes still writes whole (R54). -/
def fillLess (segs : List Seg) (fill old new : Mask) : Mask :=
  fill &&& segs.foldl (fun m g => if g.slots &&& new == g.slots &&& old then m ||| g.slots else m) 0

/-- A result loses the lanes that a later slot's result of the same place has taken: the later slot wins (R54, R61). -/
def Pend.yieldTo (segs : List Seg) (p q : Pend) : Pend :=
  if p.tgt = q.tgt ∧ p.slot < q.slot ∧ p.tgt ≠ .flagsOr ∧ p.tgt ≠ .flagsSet ∧ p.tgt ≠ .lparkClear then
    let left := p.lanes &&& ~~~q.lanes
    { p with lanes := left, fill := fillLess segs p.fill p.lanes left &&& ~~~(q.lanes ||| q.fill), cover := p.cover.less segs p.lanes left }
  else p

/-- Whether a pending result still has an effect. -/
def Pend.alive (p : Pend) : Bool := p.lanes != 0

/-- Whether a pending result changes `sr.fpflags`. -/
def Pend.isFlags (p : Pend) : Bool := p.tgt == .flagsOr || p.tgt == .flagsSet

/-- A flag change put behind those that take effect no later (R126). -/
def insertDue (p : Pend) : List Pend → List Pend
  | [] => [p]
  | q :: rest => if p.due < q.due then p :: q :: rest else q :: insertDue p rest

/-- Results in the order in which they are made visible: registers in the order of their slots, so that the later slot wins
(R61); flag changes in the order of the slots at which they take effect, the later-issued last (R126). -/
def orderPends (ps : List Pend) : List Pend :=
  ps.filter (fun p => !p.isFlags) ++ (ps.filter Pend.isFlags).foldl (fun l p => insertDue p l) []

/-- Every pending result visible at slot `k` applied (R61); what is left still pends, without the lanes that a later slot's
result has taken. -/
def Warp.applyDue (wp : Warp) (ps : List Pend) (k : Nat) : Warp × List Pend :=
  let due := ps.filter fun p => decide (p.due ≤ k)
  let rest := ps.filter fun p => decide (k < p.due)
  ((orderPends due).foldl Warp.apply wp, (rest.map fun q => due.foldl (Pend.yieldTo wp.segs) q).filter Pend.alive)

/-- Every pending result applied: a clause boundary (R62). -/
def Warp.applyEnd (wp : Warp) (ps : List Pend) : Warp := (orderPends ps).foldl Warp.apply wp

/-- A result on its way loses the lanes `m` of a word, or of its predicate, if the place is one that it writes. -/
def Res.lose (r : Res) (tgt : Target) (m : Mask) : Res :=
  match tgt, r.dst with
  | .vreg n, .v d =>
    if d.toNat ≤ n ∧ n < d.toNat + r.words then
      { r with lost := r.lost.put (n - d.toNat) (m ||| (r.lost.find (n - d.toNat)).getD 0) }
    else r
  | .preg n, _ => if r.pdst = some n then { r with plost := r.plost ||| m } else r
  | _, _ => r

/-- A result on its way loses what a later slot of the same clause has written: the later slot wins, whatever their completion order
(R61). -/
def Res.outdone (r : Res) (hdr : DWord) (p : Pend) : Res :=
  let m := p.lanes &&& r.under
  if r.hdr ≠ hdr ∨ p.slot ≤ r.slot ∨ m = 0 then r else r.lose p.tgt m

/-- The results on their way lose what results of later slots that become visible take from them (R61). -/
def Warp.outdo (wp : Warp) (hdr : DWord) (ps : List Pend) : Warp :=
  { wp with results := wp.results.map fun r => ps.foldl (fun r p => r.outdone hdr p) r }

/-- A clause is no longer under way for some lanes (R61). -/
def Warp.closeRes (wp : Warp) (hdr : DWord) (m : Mask) : Warp :=
  { wp with results := wp.results.map fun r => if r.hdr = hdr then { r with under := r.under &&& ~~~m } else r }

/-- Lanes leave a clause for its boundary: every fixed-latency result of it is visible (R62). -/
def Warp.finish (wp : Warp) (x : ClauseAt) : Warp :=
  ((wp.applyEnd x.pend).outdo x.hdr x.pend).closeRes x.hdr x.lanes

/-- A write of `sr.fpflags` is the whole warp's: it stays with the lanes that go on, and leaves with the last of them (R104, R126). -/
def Pend.leaves (p : Pend) (others : Mask) : Bool := p.tgt != .flagsSet || others == 0

/-- A pending result restricted to the lanes of some segments: if it loses lanes, it no longer reaches every segment of the slot
(R54). -/
def Pend.within (m : Mask) (p : Pend) : Pend :=
  { p with lanes := p.lanes &&& m, fill := p.fill &&& m,
           cover := if p.lanes &&& ~~~m = 0 ∨ p.cover = .part then p.cover else .some }

/-- A pending result restricted to lanes of a segment: if it loses lanes, it writes the segment partly (R54). -/
def Pend.split (m : Mask) (p : Pend) : Pend :=
  { p with lanes := p.lanes &&& m, fill := p.fill &&& m, cover := if p.lanes &&& ~~~m = 0 then p.cover else .part }

/-- Every clause at which lanes of a warp stand: the one that issues, those that wait to go on, and those of causes and trap records. -/
def Warp.onClauses (wp : Warp) (f : ClauseAt → ClauseAt) : Warp :=
  let cause := fun (x : SegCause) => { x with at_ := f x.at_ }
  let wp := wp.onSegs fun g => { g with
    cause := g.cause.map cause
    queue := g.queue.map cause
    record := g.record.map fun (r : TrapRec) => { r with cause := cause r.cause } }
  { wp with clause := wp.clause.map fun (c : Clause) => { c with at_ := f c.at_ }, resume := wp.resume.map f }

/-- The reach of a write under way once another segment has come into the slot, which it does not write (R54). -/
def Cover.joined (c : Cover) : Cover := if c = .all then .some else c
def ClauseAt.joined (a : ClauseAt) : ClauseAt := { a with pend := a.pend.map fun (p : Pend) => { p with cover := p.cover.joined } }

/-- The reach of a write under way once segments have left the slot: it may write all that remain whole (R54). -/
def Cover.alone (segs : List Seg) (c : Cover) (m : Mask) : Cover :=
  if c = .some ∧ segs.all fun g => g.slots &&& m != 0 then .all else c
def ClauseAt.alone (segs : List Seg) (a : ClauseAt) : ClauseAt :=
  { a with pend := a.pend.map fun (p : Pend) => { p with cover := p.cover.alone segs (p.lanes ||| p.fill) } }

/-- A result added to a clause's pending results. -/
def Clause.push (c : Clause) (p : Pend) : Clause :=
  { c with at_ := { c.at_ with pend := c.at_.pend ++ [p] } }

/-- A result added to the clause of a warp. -/
def Warp.push (wp : Warp) (p : Pend) : Warp := { wp with clause := wp.clause.map fun c => c.push p }

/-- The reach of a write by slot lanes `m` (R54): the exited lanes of the segments written whole, and the cover. A segment whose lanes
have all exited has none that the write leaves out. -/
def Warp.reach (wp : Warp) (m : Mask) : Mask × Cover :=
  let whole := fun g : Seg => g.slots &&& wp.live &&& ~~~m == 0
  let none' := fun g : Seg => g.slots &&& m == 0
  let fill := wp.segs.foldl (fun k g => if whole g && !none' g then k ||| (g.slots &&& ~~~m) else k) 0
  let cover :=
    if wp.segs.all whole then Cover.all
    else if wp.segs.all fun g => whole g || none' g then Cover.some
    else Cover.part
  (fill, cover)

/-! ### Causes -/

/-- Destinations of causes (R342). -/
inductive Dest | usher | handler | porter | host
deriving DecidableEq, Repr

/-- The class of each code (R340, R341): the tables of "Traps and cause codes". -/
def causeClass (code : Nat) : CauseClass :=
  if code ≤ 0x19 then .p
  else match code with
    | 0x1A | 0x23 | 0x24 | 0x25 | 0x26 | 0x27 | 0x28 | 0x29 | 0x2A | 0x2B | 0x2C | 0x2D | 0x2E | 0x2F => .d
    | 0x1B | 0x1C | 0x1D | 0x1E | 0x1F | 0x20 | 0x21 | 0x22 => .n
    | 0x30 | 0x31 => .n
    | 0x3E => .d
    | 0x48 | 0x49 | 0x4D | 0x4E | 0x4F => .d
    | 0x4A | 0x4B | 0x4C => .n
    | 0x65 | 0x66 | 0x67 | 0x68 | 0x69 | 0x6A | 0x6B | 0x6C | 0x6D | 0x6E | 0x6F => .d
    | 0x71 | 0x7D | 0x82 | 0x83 | 0x84 | 0x85 | 0x86 | 0x87 | 0x88 | 0x89 | 0x8A | 0x8C => .d
    | 0x8D | 0x8E | 0x8F => .n
    | 0x93 => .p
    | 0x90 | 0x91 | 0x92 | 0x94 | 0x95 | 0x96 | 0x97 | 0x98 | 0x9A | 0x9C | 0x9D | 0x9E | 0x9F => .d
    | 0x99 | 0x9B => .n
    | 0xA2 | 0xA6 | 0xA7 | 0xA8 | 0xAD => .d
    | 0xA0 | 0xA1 | 0xA3 | 0xA4 | 0xA5 | 0xA9 | 0xAA | 0xAB | 0xAC | 0xAE | 0xAF => .n
    | 0xB3 | 0xB6 => .p
    | 0xB7 | 0xB8 | 0xBA => .d
    | 0xB0 | 0xB1 | 0xB2 | 0xB4 | 0xB5 | 0xB9 | 0xBB | 0xBC | 0xBD | 0xBE | 0xBF => .n
    | _ => .p

/-- The destination of each code (R340, R342). -/
def causeDest (code : Nat) : Dest :=
  match code with
  | 0x31 => .usher
  | 0x01 | 0x08 | 0x15 | 0x17 | 0x18 | 0x19 | 0x30 | 0x36 | 0x4D | 0x4E | 0x4F | 0x73 | 0x8B | 0x90 | 0x91 | 0x9D | 0xA0
  | 0xA1 | 0xA3 | 0xAE | 0xB0 | 0xB1 | 0xB4 | 0xB5 => .porter
  | 0x1A | 0x1B | 0x1C | 0x1D | 0x1E | 0x1F | 0x20 | 0x21 | 0x22 | 0x23 | 0x24 | 0x25 | 0x26 | 0x27 | 0x28 | 0x29 | 0x2A
  | 0x2B | 0x2C | 0x2D | 0x2E | 0x2F | 0x48 | 0x49 | 0x4A | 0x4B | 0x4C | 0x65 | 0x66 | 0x6C | 0x6D | 0x6E | 0x6F | 0x70
  | 0x71 | 0x72 | 0x78 | 0x79 | 0x7A | 0x7B | 0x7C | 0x7D | 0x7E | 0x7F | 0x80 | 0x81 | 0x82 | 0x83 | 0x84 | 0x86 | 0x87
  | 0x89 | 0x8A | 0x8C | 0x8D | 0x8E | 0x8F | 0x94 | 0x98 | 0x99 | 0x9A | 0x9B | 0x9F | 0xA2 | 0xA4 | 0xA5 | 0xA6 | 0xA7
  | 0xA8 | 0xA9 | 0xAA | 0xAB | 0xAC | 0xAD | 0xAF | 0xB2 | 0xB7 | 0xB8 | 0xB9 | 0xBA | 0xBB | 0xBC | 0xBD | 0xBE
  | 0xBF => .host
  | _ => .handler

/-- Bits 55:54 of a log entry (R349). -/
def CauseClass.bits : CauseClass → Nat
  | .p => 0
  | .d => 1
  | .n => 2

/-- What a cause-log entry carries (R349), apart from its code and class. -/
structure LogInfo where
  addr : DWord := 0
  pc : DWord := 0
  hold : Nat := 0
  gen : BitVec 16 := 0
  detail : Word := 0
  fn : Nat := 0
  ctx : Nat := 0
  die : Nat := 0
  core : Nat := 0
  wslot : Nat := 0
  islot : Nat := 15
deriving DecidableEq, Repr

/-- The 256 bits of a cause-log entry (R349). -/
def logEntry (code : Nat) (i : LogInfo) : BitVec 256 :=
  i.addr ++ i.pc ++ BitVec.ofNat 16 i.hold ++ i.gen ++ i.detail ++ BitVec.ofNat 8 code ++
    BitVec.ofNat 2 (causeClass code).bits ++ BitVec.ofNat 5 i.fn ++ BitVec.ofNat 10 i.ctx ++ BitVec.ofNat 2 i.die ++
    BitVec.ofNat 7 i.core ++ BitVec.ofNat 4 i.wslot ++ BitVec.ofNat 4 i.islot ++ 0#22

/-- An MSI-X message of a function's vector: sent, or its pending bit set while the vector is masked (R283, R348). -/
def State.msix (s : State) (f v : Nat) : State :=
  let x := s.fn f
  let e := x.msix.getD v ⟨0, 0, true⟩
  if e.masked then s.onFn f fun x => { x with msixPend := x.msixPend ||| BitVec.ofNat 16 (2 ^ v) }
  else { s with out := s.out ++ [.msix f v e.addr e.data] }

/-- The function whose log receives a cause (R342, R348): the physical function for stage-two causes, for 0xB0 to 0xBF and
for the notifications to the porter; else the function that owns the context or ring. -/
def logOwner (code fn : Nat) : Nat :=
  if (0x7E ≤ code ∧ code ≤ 0x83) ∨ code = 0x8F ∨ 0xB0 ≤ code ∨ (causeClass code = .n ∧ causeDest code = .porter) then 0
  else fn

/-- A cause posted to its log, a ring in host memory (R348): written at the next index and followed by vector 0, or counted as lost. One
that is bound for the porter wakes it (R255, R342). -/
def State.post (s : State) (code : Nat) (i : LogInfo) : State :=
  let s := if causeDest code = .porter then s.later (.porterWake i.die) else s
  let f := logOwner code i.fn
  let x := s.fn f
  if x.clbase = 0 ∨ x.clsize = 0 ∨ x.clsize ≤ (x.clwr - x.clrd).toNat then
    s.onFn f fun x => { x with cllost := min (x.cllost + 1) 65535 }
  else
    let a := x.clbase.toNat + 32 * (x.clwr.toNat % x.clsize)
    let s := { s with host := s.host.store a 32 (logEntry code i).toNat }
    (s.onFn f fun x => { x with clwr := x.clwr + 1 }).msix f 0

/-- The least hold identifier that names nothing, from 1 (R349). -/
def freeHold (hs : List (Nat × Nat × Held)) : Nat :=
  ((List.range (hs.length + 1)).find? fun k => !(hs.any fun h => h.1 == k + 1)).map (· + 1) |>.getD 0

/-- A hold identifier taken for something (R348). -/
def State.hold (s : State) (f : Nat) (h : Held) : Nat × State :=
  let k := freeHold s.holds
  (k, { s with holds := s.holds ++ [(k, f, h)] })

/-- A hold identifier given back. -/
def State.unhold (s : State) (k : Nat) : State := { s with holds := s.holds.filter fun h => h.1 != k }

/-- The log information of a segment of a warp. -/
def State.segInfo (s : State) (w : Nat) (g : Seg) : LogInfo :=
  { gen := s.genOf g.gid, fn := s.fnOf g.gid, ctx := s.ctxOf g.gid, die := dieOf w, core := coreOf w % 256,
    wslot := slotOf w }

/-! ### Taking a cause -/

/-- A cause as it is raised at a slot by a segment: code, cause mask in segment lanes, detail word, each segment lane's
address or operand, the lanes already done and the operand latch as the slot leaves it for them (R60, R363), and the address and PC words of
its log entry (R389). -/
structure Raise where
  code : Nat
  mask : Mask
  detail : Word
  addrs : List DWord := []
  done : Mask := 0
  after : List Latch := []
  logAddr : DWord := 0
  logPc : DWord := 0
deriving DecidableEq, Repr

/-- The cause record of a segment stopped at the current slot of a clause: the slot has no effect on any of its lanes, and
every earlier result that is not yet visible there is kept with it (R86, R341, R343). -/
def Raise.record (r : Raise) (c : ClauseAt) (g : Seg) (now : Nat) : SegCause where
  code := r.code
  cls := causeClass r.code
  at_ := { c with lanes := c.lanes &&& g.slots
                  pend := ((c.pend.filter fun p => p.leaves (c.lanes &&& ~~~g.slots)).map (Pend.within g.slots)).filter Pend.alive }
  lanes := g.rel c.lanes
  mask := r.mask
  done := r.done
  detail := r.detail
  addrs := r.addrs
  logAddr := r.logAddr
  logPc := r.logPc
  hid := 0
  since := now
  told := false
  after := r.after

/-- `TRAP_IN_HANDLER` takes the place of a precise cause that lanes at handler grade raise (R343, R345); its detail word
holds the code raised. `HANDLER_DIVERGE` and `TRAP_IN_HANDLER` stay as they are. -/
def Raise.atGrade (r : Raise) (g : Seg) : Raise :=
  if g.handler &&& r.mask != 0 && r.code != 0x36 && r.code != 0x19 then
    { r with code := 0x19, detail := BitVec.ofNat 32 r.code }
  else r

/-- A cause taken against a segment: recorded, or queued while the segment has one already and the new one is not of
handler grade (R343). -/
def Seg.take (g : Seg) (x : SegCause) : Seg :=
  if (g.cause.isSome || g.record.isSome) && x.code != 0x19 && x.code != 0x36 then { g with queue := g.queue ++ [x] }
  else { g with cause := some x }

/-- The lanes that leave a clause at a slot: they take no further part in it, and their pending results leave with them. -/
def Clause.drop (c : Clause) (m : Mask) : Clause :=
  { c with at_ := { c.at_ with
      lanes := c.at_.lanes &&& ~~~m
      pend := (c.at_.pend.map fun p => if p.leaves (c.at_.lanes &&& ~~~m) then p.within (~~~m) else p).filter Pend.alive } }

/-- Lanes of a clause leave it for its boundary while others go on or take a cause: their results are visible at once (R62, R127). -/
def Warp.leaveClause (wp : Warp) (m : Mask) : Warp :=
  match wp.clause with
  | none => wp
  | some c =>
    if c.at_.lanes &&& m = 0 then wp
    else
      let a := c.at_
      let part := fun (k : Mask) (p : Pend) => match p.tgt with
        | .lmask | .lpark | .lparkClear | .flagsSet => if p.lanes &&& m = 0 then p.split k else { p with lanes := p.lanes &&& k &&& m }
        | _ => p.split k
      let of := fun (k : Mask) => (a.pend.map (part k)).filter Pend.alive
      let wp := wp.finish { a with lanes := a.lanes &&& m, pend := of m }
      { wp with clause := some { c with at_ := { a with lanes := a.lanes &&& ~~~m, pend := of (~~~m) } } }

/-- A cause bound for the host is posted with a hold identifier, once no window is open (R207, R342, R348). -/
def State.announce (s : State) (w lb : Nat) : State :=
  let wp := s.warp w
  match wp.segAt lb with
  | none => s
  | some g =>
    match g.cause with
    | none => s
    | some x =>
      if causeDest x.code = .host ∧ x.hid = 0 ∧ wp.window.isNone then
        let (k, s) := s.hold (logOwner x.code (s.fnOf g.gid)) (.seg w lb)
        let s := s.onWarp w fun wp => wp.onSeg lb fun g => { g with cause := some { x with hid := k, since := s.now } }
        s.post x.code { s.segInfo w g with
          addr := x.logAddr, pc := x.logPc, hold := k, detail := x.detail, islot := x.at_.slot }
      else s

/-- Every cause of a warp that waits for its window is announced. -/
def State.announceAll (s : State) (w : Nat) : State := (s.warp w).segs.foldl (fun s g => s.announce w g.lbase) s

/-- A cause whose log entry has no `PC` of its own carries the clause's header (R389). -/
def Raise.placed (r : Raise) (hdr : DWord) : Raise := if r.logPc = 0 then { r with logPc := hdr } else r

/-- The segment at `lb` of a warp takes a cause at the current slot of the warp's clause, and its lanes leave the clause. -/
def Warp.takeHere (wp : Warp) (lb : Nat) (r : Raise) (now : Nat) : Warp :=
  match wp.clause, wp.segAt lb with
  | some c, some g =>
    { wp.onSeg lb (fun h => h.take (((r.placed c.at_.hdr).atGrade g).record c.at_ g now)) with clause := some (c.drop g.slots) }
  | _, _ => wp

/-- The causes that the segments of a mask raise. -/
def Warp.raises (wp : Warp) (m : Mask) (f : Seg → Option Raise) : List (Nat × Raise) :=
  (wp.segsIn m).filterMap fun g => (f g).map fun r => (g.lbase, r)

/-- A deferred cause waits at a segment for its next clause boundary (R344). -/
def SegCause.deferred (code : Nat) (detail : Word) (now : Nat) : SegCause where
  code := code
  cls := .d
  at_ := ⟨0, 0, 0, [], 0, 0, [], []⟩
  lanes := 0
  mask := 0
  done := 0
  detail := detail
  addrs := []
  logAddr := 0
  logPc := 0
  hid := 0
  since := now
  told := false
  after := []

/-- Another cause takes the place of the one at which a segment stands (R358, R365). -/
def State.recause (s : State) (w lb : Nat) (r : Raise) : State :=
  let s := s.onWarp w fun wp => wp.onSeg lb fun g =>
    { g with cause := g.cause.map fun (x : SegCause) =>
        let r := r.atGrade g
        { x with code := r.code, cls := causeClass r.code, mask := r.mask, detail := r.detail, addrs := r.addrs,
                 logAddr := r.logAddr, logPc := if r.logPc = 0 then x.at_.hdr else r.logPc, told := false } }
  s.announce w lb

/-! ### Entering the handler and returning -/

/-- A cause of a warp may be delivered once the window in which it was raised has committed (R207, R343). -/
def Warp.mayDeliver (wp : Warp) : Bool := wp.window.isNone

/-- A uniform or general value written at once to a register of some slot lanes. -/
def Warp.deliverReg (wp : Warp) (m : Mask) (n : Nat) (t : Shape) (f : Nat → Word) : Warp :=
  let (fill, cover) := wp.reach m
  wp.setReg n ((wp.reg n).write m fill cover t f)

/-- The words that a handler finds in `v122` (R344). -/
def SegCause.codeWord (x : SegCause) : Word :=
  BitVec.ofNat 32 (x.code + 256 * (if x.cls = .d then 15 else x.at_.slot) + 4096 * (if x.cls = .d then 1 else 0))

/-- Handler entry (R344): the trapped lanes' `v118` to `v127` go to the trap record with `udepth`, the pending results and
the grade before entry; the delivered values take their place; the lanes are at handler grade and start as one fetch set at
`sr.tbase`, 24 cycles later. -/
def Warp.enterHandler (wp : Warp) (lb : Nat) (now : Nat) : Warp :=
  match wp.segAt lb with
  | none => wp
  | some g =>
    match g.cause with
    | none => wp
    | some x =>
      let m := g.abs x.lanes
      let saved := (List.range 10).map fun k => wp.reg (118 + k)
      let addr := fun l => x.addrs.getD (l - g.lbase) 0
      let hdr := x.at_.hdr
      let wp := wp.deliverReg m 118 .uniform fun _ => loWord x.lanes
      let wp := wp.deliverReg m 119 .uniform fun _ => hiWord x.lanes
      let wp := wp.deliverReg m 120 .uniform fun _ => loWord hdr
      let wp := wp.deliverReg m 121 .uniform fun _ => hiWord hdr
      let wp := wp.deliverReg m 122 .uniform fun _ => x.codeWord
      let wp := wp.deliverReg m 123 .uniform fun _ => x.detail
      let wp := wp.deliverReg m 124 .general fun l => loWord (addr l)
      let wp := wp.deliverReg m 125 .general fun l => hiWord (addr l)
      let wp := wp.deliverReg m 126 .uniform fun _ => loWord x.mask
      let wp := wp.deliverReg m 127 .uniform fun _ => hiWord x.mask
      let wp := wp.setPcs m fun _ => g.tbase
      wp.onSeg lb fun g =>
        { g with
          cause := none
          record := some ⟨x, saved, g.udepth, g.handler &&& x.lanes != 0⟩
          handler := g.handler ||| x.lanes
          notBefore := max g.notBefore (now + 24) }

/-- The lanes that a clause left at a slot stand there again (R86, R346). -/
def Warp.standAt (wp : Warp) (x : ClauseAt) : Warp :=
  if x.lanes = 0 then wp else { wp with resume := wp.resume ++ [x] }

/-- Lanes for which a slot of a clause is over stand at the next slot, with the operand latch as the slot leaves it, or at the boundary
behind the clause, where its results are visible (R60, R62, R86, R346). -/
def Warp.standPast (wp : Warp) (x : ClauseAt) (after : List Latch) : Warp :=
  if x.lanes = 0 then wp
  else if x.cnt ≤ x.slot then wp.finish x else wp.standAt { x with slot := x.slot + 1, latch := after }

/-- Return from the handler (R346): the record's copies go back to `v118` to `v127`, the grade and `udepth` are those of the
record, the lanes of the cause mask stand at the slot again with every pending result, the lanes that are done stand at the
next slot (R363); after `TRAP_INSN` the lanes stand at the next header, and for a D cause at the boundary where it was
taken. The record is freed. -/
def Warp.returnTo (wp : Warp) (lb : Nat) : Warp :=
  match wp.segAt lb with
  | none => wp
  | some g =>
    match g.record with
    | none => wp
    | some r =>
      let x := r.cause
      let m := g.abs x.lanes &&& wp.live
      let back := fun n : Nat =>
        let old := wp.reg n
        let cp := r.saved.getD (n - 118) VReg.reset
        if n < 118 then old
        else VReg.mk (cp.tag.join old.tag) (allLanes.map fun l => if m.getLsbD l then cp.word l else old.word l)
      let wp := { wp with regs := (List.range 128).map back }
      let wp := wp.onSeg lb fun g =>
        { g with
          record := none
          udepth := r.udepth
          handler := if r.wasHandler then g.handler else g.handler &&& ~~~x.lanes }
      let next := x.at_.hdr + BitVec.ofNat 64 (8 * (x.at_.cnt + 2))
      if x.cls = .d then wp.setPcs m fun _ => x.at_.hdr
      else if x.code = 0x16 then (wp.finish x.at_).setPcs m fun _ => next
      else
        let again := m &&& ~~~(g.abs x.done)
        let past := m &&& g.abs x.done
        let wp := wp.setPcs m fun _ => next
        let wp := wp.standAt { x.at_ with lanes := again, pend := (x.at_.pend.map (Pend.split again)).filter Pend.alive }
        wp.standPast { x.at_ with lanes := past, pend := (x.at_.pend.map (Pend.split past)).filter Pend.alive } x.after

/-- The lanes of a cause resumed at their slot without a handler: released through `CLREL` or returned by the porter
(R346, R347). -/
def Warp.resumeCause (wp : Warp) (lb : Nat) (past : Bool) : Warp :=
  match wp.segAt lb with
  | none => wp
  | some g =>
    match g.cause with
    | none => wp
    | some x =>
      let m := g.abs x.lanes &&& wp.live
      let next := x.at_.hdr + BitVec.ofNat 64 (8 * (x.at_.cnt + 2))
      let wp := wp.onSeg lb fun g => { g with cause := none }
      let wp := wp.setPcs m fun _ => next
      if past then wp.standPast { x.at_ with lanes := m } x.after else wp.standAt { x.at_ with lanes := m }

/-- The lanes of a cause resumed at the header at which it was taken, or at the next header, where every result of the clause is visible
(R62). -/
def Warp.resumeHeader (wp : Warp) (lb : Nat) (next : Bool) : Warp :=
  match wp.segAt lb with
  | none => wp
  | some g =>
    match g.cause with
    | none => wp
    | some x =>
      let m := g.abs x.lanes &&& wp.live
      let a := if next then x.at_.hdr + BitVec.ofNat 64 (8 * (x.at_.cnt + 2)) else x.at_.hdr
      ((if next then wp.finish x.at_ else wp).onSeg lb fun g => { g with cause := none }).setPcs m fun _ => a

/-- The next waiting cause is taken up once the segment has neither a cause nor a record (R343, R346). Only precise causes
are taken up here; a deferred one waits for a boundary (R344). -/
def Seg.nextCause (g : Seg) : Seg :=
  if g.cause.isSome || g.record.isSome then g
  else match g.queue.find? fun x => x.cls = .p with
    | some x => { g with cause := some x, queue := g.queue.erase x }
    | none => g

end Sys2Proof.Machine
end

