-- ==== Sys2Proof/Machine/Operands.lean ====
section
/-! DEFINITION. Operands: which lanes execute, what a source reads, the shape of a result, and how a fixed-latency result is
recorded (R52 to R57, R59 to R61, R79, R83). -/

namespace Sys2Proof.Machine

/-! ### Executing lanes -/

/-- The clause at which a warp stands; no clause has no lanes. -/
def Warp.clauseAt (wp : Warp) : ClauseAt := (wp.clause.map Clause.at_).getD ⟨0, 0, 0, [], 0, 0, [], []⟩

/-- The lanes that a guard selects (R79). -/
def Warp.guard (wp : Warp) (p : Pre) : Mask :=
  let m := wp.pred p.pr.toNat
  if p.pn then ~~~m else m

/-- The lanes that execute the current slot: in the issuing fetch set, live, and passing the guard (R64, R79). -/
def Warp.execMask (wp : Warp) (p : Pre) : Mask := wp.clauseAt.lanes &&& wp.live &&& wp.guard p

/-- The lanes of the current fetch set, whatever the guard (R115). -/
def Warp.setMask (wp : Warp) : Mask := wp.clauseAt.lanes &&& wp.live

/-- The slot that executes. -/
def Warp.slotNo (wp : Warp) : Nat := wp.clauseAt.slot

/-- The address of the instruction word of the current slot (R84). -/
def Warp.pcWord (wp : Warp) : DWord := wp.clauseAt.hdr + BitVec.ofNat 64 (8 * (wp.slotNo + 1))

/-- The header that follows the current clause (R69). -/
def Warp.nextHdr (wp : Warp) : DWord := wp.clauseAt.hdr + BitVec.ofNat 64 (8 * (wp.clauseAt.cnt + 2))

/-! ### Reading -/

/-- The latch entry that serves a register at the current slot: within the two slots after the hold (R60). -/
def Warp.latched (wp : Warp) (n : Nat) : Option Latch :=
  wp.clauseAt.latch.find? fun e => e.reg == n && decide (e.slot < wp.slotNo ∧ wp.slotNo ≤ e.slot + 2)

/-- A vector register as the current slot reads it (R60, R61). -/
def Warp.srcReg (wp : Warp) (n : Nat) : VReg :=
  match wp.latched n with
  | some e => ⟨e.tag, e.lanes⟩
  | none => wp.reg n

/-- An usher register as slot lane `l` reads it (R40 to R42). -/
def Warp.usherVal (wp : Warp) (r : UReg) (field : BitVec 2) (l : Nat) : DWord :=
  let pick := fun e : Evt => match field.toNat with
    | 0 => e.br
    | 1 => e.tk
    | _ => e.ft
  match wp.segOf l with
  | none => 0
  | some g =>
    let outer := g.udepth == 2
    match r with
    | .lmask => g.lmask
    | .lpark => g.lpark
    | .vpc => g.vpc.getD (l - g.lbase) 0
    | .evt => pick g.evt
    | .etaken => g.etaken
    | .udepth => BitVec.ofNat 64 g.udepth
    | .olmask => if outer then g.olmask else 0
    | .ovpc => if outer then g.ovpc.getD (l - g.lbase) 0 else 0
    | .oevt => if outer then pick g.oevt else 0
    | .oetaken => if outer then g.oetaken else 0

/-- A 32-bit source in slot lane `l` (R52). -/
def Warp.val32 (wp : Warp) (r : Reg) (l : Nat) : Word :=
  match r with
  | .v n => (wp.srcReg n.toNat).word l
  | .p n => if (wp.pred n.toNat).getLsbD l then 1 else 0
  | .u r => loWord (wp.usherVal r 0 l)
  | .vz => 0

/-- A 64-bit source in slot lane `l`: a pair, low word first, or an usher register (R41, R52). -/
def Warp.val64 (wp : Warp) (r : Reg) (l : Nat) : DWord :=
  match r with
  | .v n => pairWord ((wp.srcReg n.toNat).word l) ((wp.srcReg (n.toNat + 1)).word l)
  | .u r => wp.usherVal r 0 l
  | r => (wp.val32 r l).setWidth 64

/-- A source of the width of its type. -/
def Warp.val (wp : Warp) (wide : Bool) (r : Reg) (l : Nat) : DWord :=
  if wide then wp.val64 r l else (wp.val32 r l).setWidth 64

/-- A predicate source in slot lane `l`. -/
def Warp.bit (wp : Warp) (r : Reg) (l : Nat) : Bool :=
  match r with
  | .p n => (wp.pred n.toNat).getLsbD l
  | _ => false

/-- Word `k` of a group of registers that starts at `r` (R92, R218). -/
def Warp.groupWord (wp : Warp) (r : Reg) (k l : Nat) : Word :=
  match r with
  | .v n => (wp.srcReg (n.toNat + k)).word l
  | _ => 0

/-! ### Shapes -/

/-- The shape of a register as a source: void counts as uniform (R55). -/
def VReg.shape (r : VReg) : Shape := if r.tag = .void then .uniform else r.tag

/-- The shape of a 32-bit source (R55). -/
def Warp.shape32 (wp : Warp) (r : Reg) : Shape :=
  match r with
  | .v n => (wp.srcReg n.toNat).shape
  | .p n => if n = 15 then .uniform else .general
  | .u .vpc => .general
  | .u .ovpc => .general
  | .u _ => .uniform
  | .vz => .uniform

/-- The shape of a source of either width: a pair is uniform when both halves are, and affine halves read as general
(R55). -/
def Warp.shape (wp : Warp) (wide : Bool) (r : Reg) : Shape :=
  match wide, r with
  | true, .v n => if (wp.srcReg n.toNat).shape = .uniform ∧ (wp.srcReg (n.toNat + 1)).shape = .uniform then .uniform else .general
  | _, r => wp.shape32 r

/-- The result shape of a lane-wise instruction that keeps no affine form (R55). -/
def plainShape (ts : List Shape) : Shape := if ts.all (· == .uniform) then .uniform else .general

/-- `IADD` and `ISUB` (R55). -/
def sumShape (keeps : Bool) (a b : Shape) : Shape :=
  if a = .uniform ∧ b = .uniform then .uniform
  else if a = .general ∨ b = .general then .general
  else if keeps then .affine else .general

/-- `IMUL`: affine by uniform (R55). -/
def mulShape (keeps : Bool) (a b : Shape) : Shape :=
  if a = .uniform ∧ b = .uniform then .uniform
  else if keeps ∧ ((a = .affine ∧ b = .uniform) ∨ (a = .uniform ∧ b = .affine)) then .affine
  else .general

/-- `INEG` and `MOV`: an affine source keeps its shape (R55). -/
def keepShape (keeps : Bool) (a : Shape) : Shape :=
  if a = .affine then (if keeps then .affine else .general) else a

/-! ### Recording results -/

/-- Whether a register field discards a write (R52). -/
def Reg.discards : Reg → Bool
  | .v _ => false
  | .p n => n == 15
  | .u _ => false
  | .vz => true

/-- The pending results of one register write: a single register, or both halves of a pair, written by slot lanes `m` with
the value `f` in each lane (R52, R54, R61). A write to `vz` is discarded. -/
def Warp.pendsFor (wp : Warp) (m : Mask) (lat : Nat) (wide : Bool) (d : Reg) (t : Shape) (f : Nat → DWord) : List Pend :=
  let (fill, cover) := wp.reach m
  match d with
  | .v n =>
    let lo := fun l => (loWord (f l)).setWidth 64
    let hi := fun l => (hiWord (f l)).setWidth 64
    let one := fun (k : Nat) (g : Nat → DWord) =>
      Pend.mk wp.slotNo (wp.slotNo + lat) (.vreg (n.toNat + k)) m (allLanes.map g) t cover fill
    if wide then [one 0 lo, one 1 hi] else [one 0 lo]
  | _ => []

/-- The pending result of one predicate write (R52). -/
def Warp.pendPred (wp : Warp) (m : Mask) (lat : Nat) (d : Reg) (f : Nat → Bool) : List Pend :=
  match d with
  | .p n =>
    if n = 15 then []
    else [⟨wp.slotNo, wp.slotNo + lat, .preg n.toNat, m, allLanes.map fun l => if f l then 1 else 0, .general, .part, 0⟩]
  | _ => []

/-- The pending flag change of one instruction, with the flags of each lane (R126). -/
def Warp.pendFlags (wp : Warp) (lat : Nat) (m : Mask) (f : Nat → BitVec 5) : List Pend :=
  if orFlags m f = 0 then []
  else [⟨wp.slotNo, wp.slotNo + lat, .flagsOr, m, allLanes.map fun l => (f l).setWidth 64, .uniform, .all, 0⟩]

/-- Several results pushed onto the clause of a warp. -/
def Warp.pushAll (wp : Warp) (ps : List Pend) : Warp := ps.foldl Warp.push wp

/-- A lane-wise instruction with a register result of latency `lat`: the executing lanes' results are recorded at the
current slot and nothing else changes (R61). -/
def State.alu (s : State) (p : Pre) (lat : Nat) (wide : Bool) (d : Reg) (t : Warp → Shape) (f : Warp → Nat → DWord) : State :=
  let wp := s.curWarp
  let m := wp.execMask p
  if m = 0 then s else s.setWarp s.cur (wp.pushAll (wp.pendsFor m lat wide d (t wp) (f wp)))

/-- A lane-wise instruction with a predicate result. -/
def State.aluPred (s : State) (p : Pre) (lat : Nat) (d : Reg) (f : Warp → Nat → Bool) : State :=
  let wp := s.curWarp
  let m := wp.execMask p
  if m = 0 then s else s.setWarp s.cur (wp.pushAll (wp.pendPred m lat d (f wp)))

/-- A lane-wise floating-point instruction: a register result and flags (R104, R126). -/
def State.aluFlags (s : State) (p : Pre) (lat : Nat) (wide : Bool) (d : Reg) (t : Warp → Shape)
    (f : Warp → Nat → DWord × BitVec 5) : State :=
  let wp := s.curWarp
  let m := wp.execMask p
  if m = 0 then s
  else s.setWarp s.cur (wp.pushAll (wp.pendsFor m lat wide d (t wp) (fun l => (f wp l).1)
    ++ wp.pendFlags lat m fun l => (f wp l).2))

/-- A register result and a predicate result of one instruction (R131). -/
def State.aluCarry (s : State) (p : Pre) (lat : Nat) (d c : Reg) (t : Warp → Shape) (f : Warp → Nat → DWord × Bool) : State :=
  let wp := s.curWarp
  let m := wp.execMask p
  if m = 0 then s
  else s.setWarp s.cur (wp.pushAll (wp.pendsFor m lat false d (t wp) (fun l => (f wp l).1)
    ++ wp.pendPred m lat c fun l => (f wp l).2))

/-! ### Addresses and uniform operands -/

/-- The effective address of a lane (R83); an absent index reads `vz`. -/
def Warp.ea (wp : Warp) (a b : Reg) (off : BitVec 16) (size l : Nat) : DWord :=
  wp.val64 a l + (wp.val32 b l).signExtend 64 * BitVec.ofNat 64 size + off.signExtend 64

/-- The lowest executing lane of a segment (R57). -/
def Seg.lead (g : Seg) (m : Mask) : Option Nat := firstLane (g.slots &&& m)

/-- The lowest executing lane of a segment whose value differs from that of the lead lane (R57, R359). -/
def Warp.mismatch (wp : Warp) (g : Seg) (m : Mask) (wide : Bool) (r : Reg) : Option Nat :=
  match g.lead m with
  | none => none
  | some l0 => (lanesOf (g.slots &&& m)).find? fun l => wp.val wide r l != wp.val wide r l0

/-- Each segment lane's value of an operand, for a trap record (R344). -/
def Warp.segVals (wp : Warp) (g : Seg) (wide : Bool) (r : Reg) : List DWord :=
  (List.range g.width).map fun l => wp.val wide r (g.lbase + l)

/-- The lanes of a segment that differ from its lead lane, as segment lanes. -/
def Warp.differing (wp : Warp) (g : Seg) (m : Mask) (wide : Bool) (r : Reg) : Mask :=
  match g.lead m with
  | none => 0
  | some l0 => g.rel (maskWhere fun l => (g.slots &&& m).getLsbD l && wp.val wide r l != wp.val wide r l0)

/-- `UNIF_MISMATCH` of a uniform operand in a segment (R359): source field number `fieldNo`. -/
def Warp.unifFault (wp : Warp) (g : Seg) (m : Mask) (ops : List (Nat × Bool × Reg)) : Option Raise :=
  match ops with
  | [] => none
  | (fieldNo, wide, r) :: rest =>
    match wp.mismatch g m wide r with
    | some l => some { code := 0x14, mask := wp.differing g m wide r,
                       detail := BitVec.ofNat 32 (fieldNo + 256 * (l - g.lbase)), addrs := wp.segVals g wide r }
    | none => wp.unifFault g m rest

/-! ### The registers that a word reads (R59, R60) -/

/-- The vector registers that a field reads. -/
def fieldRegs (f : Fields) (k : FieldKind) (x : BitVec 8) : List Nat :=
  let v := x.toNat
  let n := if wideTy f.ty then 2 else 1
  let k' := match k with
    | .src => n
    | .dst => n
    | .one => 1
    | .pair => 2
    | .base => 2
    | .quad => 4
    | .oct => 8
    | .cvtSrc => if wideTy (f.m.extractLsb' 4 4) then 2 else 1
    | .data => if f.sub.extractLsb' 0 2 = 1#2 then 4 else n
    | .movA => n
    | .movsA => if f.sub = 1 then n else 0
    | .tryA => if f.sub = 1 then 0 else 1
    | .tlbiA => if f.sub = 1 then 2 else if f.sub = 2 then 1 else 0
    | .tlbiB => if f.sub = 1 then 1 else 0
    | _ => 0
  if v < 0x80 then (List.range k').map (v + ·) else []

/-- Whether field D of a cell is read (R120, R214). -/
def readsD (opc : Nat) : Bool := opc == 0x09 || opc == 0xA1 || opc == 0xA3 || opc == 0xAD

/-- The registers of sources A, B and C, and of a data or comparison field D. -/
def sourceRegs (w : DWord) : List Nat × List Nat × List Nat × List Nat :=
  let f := Fields.ofWord w
  match cellRow f.opc.toNat with
  | none => ([], [], [], [])
  | some row =>
    let a := fieldRegs f row.a f.a
    let b := if row.fmt = .R ∨ row.fmt = .M ∨ row.fmt = .X then fieldRegs f row.b f.b else []
    let c := if row.fmt = .R ∨ row.fmt = .X then fieldRegs f row.c f.c else []
    let k := if row.fmt = .X then fieldRegs f .one f.m else []
    let d := if readsD f.opc.toNat then fieldRegs f row.d f.d else []
    (a, b, c, d ++ k)

/-- Every vector register that a word reads, each once (R59). -/
def allSources (w : DWord) : List Nat :=
  let (a, b, c, d) := sourceRegs w
  (a ++ b ++ c ++ d).foldl (fun l n => if l.contains n then l else l ++ [n]) []

/-- The empty cycles before a word issues (R59): the largest number of bank reads in one bank, less one. Only general
registers that no latch entry serves are read through the banks. -/
def Warp.bubbles (wp : Warp) (w : DWord) : Nat :=
  let reads := (allSources w).filter fun n => (wp.latched n).isNone && (wp.reg n).tag == .general
  let count := fun b => (reads.filter fun n => n % 4 == b).length
  max (max (count 0) (count 1)) (max (count 2) (count 3)) - 1

/-- The operand latch after a word with a hold (R60): what the word reads of the held source is latched, the oldest live
holds are dropped when more than three entries would be needed, and a group of four or eight, a predicate or `vz` holds
nothing. -/
def Warp.latchAfter (wp : Warp) (w : DWord) : List Latch :=
  let old := wp.clauseAt.latch.filter fun e => decide (wp.slotNo < e.slot + 2)
  let f := Fields.ofWord w
  let (a, b, c, _) := sourceRegs w
  let regs := match Hold.ofCode f.hold with
    | .none => []
    | .a => a
    | .b => b
    | .c => c
  if regs = [] ∨ 2 < regs.length then old
  else
    let fresh := regs.map fun n => Latch.mk n wp.slotNo (wp.srcReg n).tag (wp.srcReg n).lanes
    let slots := old.foldl (fun l e => if l.contains e.slot then l else l ++ [e.slot]) []
    let keep := slots.foldl (fun l k =>
      if (l ++ fresh).length > 3 then l.filter fun e => e.slot != k else l) old
    keep ++ fresh

/-- The executing lanes that read a poisoned register word (R410). -/
def Warp.poisoned (wp : Warp) (w : DWord) (m : Mask) : Mask :=
  if wp.poison = [] then 0
  else
    let regs := allSources w
    m &&& maskWhere fun l => regs.any fun n => wp.poison.contains (n * 64 + l)

end Sys2Proof.Machine
end

