-- ==== Sys2Proof/Machine/Flags.lean ====
section
/-! DEFINITION. Integer types (R85, R96, R129), the sticky floating-point flags (R104), and the number formats with their
one rounding (R97 to R103). -/

namespace Sys2Proof.Machine

/-! ### Integers -/

/-- The width of a type in bits (R85). -/
def Ty.bits : Ty → Nat
  | .i8 | .n8 | .e4m3 | .e5m2 => 8
  | .i16 | .n16 | .h16 | .bf16 => 16
  | .i32 | .n32 | .b32 | .f32 => 32
  | .i64 | .n64 | .b64 => 64
  | .q4 => 4

/-- Whether a type is read as two's complement (R129). -/
def Ty.signed : Ty → Bool
  | .i8 | .i16 | .i32 | .i64 => true
  | _ => false

/-- Whether a type is 64 bits wide. -/
def Ty.is2 : Ty → Bool
  | .i64 | .n64 | .b64 => true
  | _ => false

/-- The exact integer that a source reads as under a type (R129); bits above the width are ignored (R85). -/
def readInt (t : Ty) (x : DWord) : Int :=
  let n := x.toNat % 2 ^ Ty.bits t
  if Ty.signed t ∧ 2 ^ (Ty.bits t - 1) ≤ n then (n : Int) - 2 ^ Ty.bits t else n

/-- The bounds of a type (R96); `.b` types count as unsigned (R129). -/
def intMin (t : Ty) : Int := if Ty.signed t then -(2 ^ (Ty.bits t - 1)) else 0
def intMax (t : Ty) : Int := if Ty.signed t then 2 ^ (Ty.bits t - 1) - 1 else 2 ^ Ty.bits t - 1

/-- `.sat` (R96). -/
def clampInt (t : Ty) (x : Int) : Int := if x < intMin t then intMin t else if intMax t < x then intMax t else x

/-- An exact integer narrowed to a type and extended into its register or pair (R85, R129). -/
def writeInt (t : Ty) (x : Int) : DWord :=
  let low := BitVec.ofInt 64 x
  match t with
  | .i8 => ((low.setWidth 8).signExtend 32).setWidth 64
  | .i16 => ((low.setWidth 16).signExtend 32).setWidth 64
  | .n8 | .e4m3 | .e5m2 => (low.setWidth 8).setWidth 64
  | .n16 | .h16 | .bf16 => (low.setWidth 16).setWidth 64
  | .q4 => (low.setWidth 4).setWidth 64
  | .i32 | .n32 | .b32 | .f32 => (low.setWidth 32).setWidth 64
  | .i64 | .n64 | .b64 => low

/-- The result of an integer operation: clamped under `.sat`, then narrowed (R129). -/
def intResult (t : Ty) (sat : Bool) (x : Int) : DWord := writeInt t (if sat then clampInt t x else x)

/-- The immediate of an I cell (R89): sign-extended. -/
def immSigned (imm : BitVec 24) : DWord := imm.signExtend 64
/-- The immediate of a logic cell (R89): zero-extended. -/
def immZero (imm : BitVec 24) : DWord := imm.setWidth 64

/-- Whether `IADD`, `ISUB`, `IMUL`, `IMAD` and `INEG` of this form keep an affine shape (R55). -/
def keepsAffine (t : Ty) (sat : Bool) : Bool := !sat && (t == .i32 || t == .n32 || t == .b32)

/-! ### Flags -/

/-- `sr.fpflags` bits (R104). -/
def flagNV : BitVec 5 := 1
def flagDZ : BitVec 5 := 2
def flagOF : BitVec 5 := 4
def flagUF : BitVec 5 := 8
def flagNX : BitVec 5 := 16

/-! ### Formats -/

/-- A floating-point format (R97): exponent bits, fraction bits, bias, and whether it has infinities (E4M3 has none). -/
structure FloatFmt where
  ebits : Nat
  fbits : Nat
  bias : Nat
  hasInf : Bool
deriving DecidableEq, Repr

def fmtF32 : FloatFmt := ⟨8, 23, 127, true⟩
def fmtH16 : FloatFmt := ⟨5, 10, 15, true⟩
def fmtBf16 : FloatFmt := ⟨8, 7, 127, true⟩
def fmtE4m3 : FloatFmt := ⟨4, 3, 7, false⟩
def fmtE5m2 : FloatFmt := ⟨5, 2, 15, true⟩

/-- The format of a floating-point type (R97). -/
def Ty.float : Ty → Option FloatFmt
  | .f32 => some fmtF32
  | .h16 => some fmtH16
  | .bf16 => some fmtBf16
  | .e4m3 => some fmtE4m3
  | .e5m2 => some fmtE5m2
  | _ => none

def FloatFmt.width (f : FloatFmt) : Nat := 1 + f.ebits + f.fbits
/-- The top exponent code. -/
def FloatFmt.top (f : FloatFmt) : Nat := 2 ^ f.ebits - 1

/-- An exact value: a NaN (signalling or not), an infinity, or (-1)^neg * man * 2^exp. -/
inductive Num
  | nan (sig : Bool)
  | inf (neg : Bool)
  | fin (neg : Bool) (man : Nat) (exp : Int)
deriving DecidableEq, Repr

/-- The sign bit, the exponent field and the fraction of a bit pattern. -/
def FloatFmt.split (f : FloatFmt) (x : Nat) : Bool × Nat × Nat :=
  (x / 2 ^ (f.ebits + f.fbits) % 2 == 1, x / 2 ^ f.fbits % 2 ^ f.ebits, x % 2 ^ f.fbits)

/-- The value of a bit pattern (R97). -/
def FloatFmt.read (f : FloatFmt) (x : Nat) : Num :=
  let (neg, e, m) := f.split x
  if f.hasInf then
    if e = f.top then
      (if m = 0 then .inf neg else .nan (m < 2 ^ (f.fbits - 1)))
    else if e = 0 then .fin neg m (1 - (f.bias : Int) - f.fbits)
    else .fin neg (2 ^ f.fbits + m) ((e : Int) - f.bias - f.fbits)
  else
    if e = f.top ∧ m = 2 ^ f.fbits - 1 then .nan false
    else if e = 0 then .fin neg m (1 - (f.bias : Int) - f.fbits)
    else .fin neg (2 ^ f.fbits + m) ((e : Int) - f.bias - f.fbits)

/-- Whether a pattern is subnormal: a zero exponent field and a nonzero fraction. -/
def FloatFmt.isSub (f : FloatFmt) (x : Nat) : Bool :=
  let (_, e, m) := f.split x
  e == 0 && m != 0

/-- The sign bit as a pattern. -/
def FloatFmt.signBit (f : FloatFmt) (neg : Bool) : Nat := if neg then 2 ^ (f.ebits + f.fbits) else 0

/-- A source under `.ftz`: a subnormal becomes a zero of its sign (R100). -/
def FloatFmt.flush (f : FloatFmt) (ftz : Bool) (x : Nat) : Nat :=
  if ftz && f.isSub x then f.signBit (f.split x).1 else x % 2 ^ f.width

/-- The canonical NaN (R97). -/
def FloatFmt.nan (f : FloatFmt) : Nat :=
  if f.hasInf then f.top * 2 ^ f.fbits + 2 ^ (f.fbits - 1) else 2 ^ (f.ebits + f.fbits) - 1

/-- The largest finite magnitude (R97). -/
def FloatFmt.largest (f : FloatFmt) : Nat :=
  if f.hasInf then f.top * 2 ^ f.fbits - 1 else 2 ^ (f.ebits + f.fbits) - 2

/-- The pattern of an infinity, or of the NaN that stands for it in E4M3 (R101). -/
def FloatFmt.infinity (f : FloatFmt) (neg : Bool) : Nat :=
  if f.hasInf then f.signBit neg + f.top * 2 ^ f.fbits else f.nan

/-- The number of bits of a natural number. -/
def bitLen : Nat → Nat → Nat
  | 0, _ => 0
  | fuel + 1, n => if n = 0 then 0 else 1 + bitLen fuel (n / 2)

/-- The number of bits of a natural number below 2^1024. -/
def natBits (n : Nat) : Nat := bitLen 1024 n

/-- Whether a magnitude `floor + rem / 2^sh` is rounded up in a mode (R101). -/
def roundsUp (mode : RMode) (neg : Bool) (floor rem sh : Nat) : Bool :=
  if rem = 0 then false
  else match mode with
    | .rz => false
    | .ru => !neg
    | .rd => neg
    | .rn => decide (2 ^ sh < 2 * rem ∨ (2 * rem = 2 ^ sh ∧ floor % 2 = 1))

/-- `man * 2^exp` rounded to a multiple of `2^q`: the multiple, and whether it is exact. -/
def roundTo (mode : RMode) (neg : Bool) (man : Nat) (exp q : Int) : Nat × Bool :=
  if q ≤ exp then (man * 2 ^ (exp - q).toNat, true)
  else
    let sh := (q - exp).toNat
    let fl := man / 2 ^ sh
    let rem := man % 2 ^ sh
    (if roundsUp mode neg fl rem sh then fl + 1 else fl, rem == 0)

/-- The result of an overflow (R101). -/
def FloatFmt.overflow (f : FloatFmt) (mode : RMode) (neg sat : Bool) : Nat :=
  let toInf := match mode with
    | .rn => true
    | .rz => false
    | .ru => !neg
    | .rd => neg
  if toInf && !sat then f.infinity neg else f.signBit neg + f.largest

/-- Whether a nonzero value is tiny (R103): its magnitude lies below the smallest normal number after rounding with the exponent unbounded
below. -/
def FloatFmt.isTiny (f : FloatFmt) (mode : RMode) (neg : Bool) (man : Nat) (exp : Int) : Bool :=
  let e : Int := exp + natBits man - 1
  let emin : Int := 1 - (f.bias : Int)
  let (mu, _) := roundTo mode neg man exp (e - f.fbits)
  decide (e < emin ∧ (mu : Int) * 2 < 2 ^ (f.fbits + 2) ∨ e + 1 < emin)

/-- `round(x, fmt, mode)` with the flags that it raises (R101, R103), under saturation when `sat` holds. -/
def FloatFmt.round (f : FloatFmt) (mode : RMode) (sat : Bool) (x : Num) : Nat × BitVec 5 :=
  match x with
  | .nan _ => (f.nan, 0)
  | .inf neg =>
    if sat then (f.signBit neg + f.largest, flagNX)
    else if f.hasInf then (f.infinity neg, 0) else (f.nan, flagNV)
  | .fin neg man exp =>
    if man = 0 then (f.signBit neg, 0)
    else
      let e : Int := exp + natBits man - 1
      let emin : Int := 1 - (f.bias : Int)
      let q : Int := (if e < emin then emin else e) - f.fbits
      let (m, exact) := roundTo mode neg man exp q
      let tiny := f.isTiny mode neg man exp
      let nx : BitVec 5 := if exact then 0 else flagNX
      let uf : BitVec 5 := if tiny && !exact then flagUF else 0
      -- the exponent field and fraction of m * 2^q
      let (m, q) := if m = 2 ^ (f.fbits + 1) then (m / 2, q + 1) else (m, q)
      let field : Int := if m < 2 ^ f.fbits then 0 else q + f.fbits + f.bias
      let tooBig :=
        if f.hasInf then decide ((f.top : Int) ≤ field)
        else decide ((f.top : Int) < field ∨ (field = f.top ∧ m = 2 ^ (f.fbits + 1) - 1))
      if tooBig then (f.overflow mode neg sat, flagOF ||| flagNX)
      else (f.signBit neg + field.toNat * 2 ^ f.fbits + m % 2 ^ f.fbits, nx ||| uf)

/-- The flush of a result under `.ftz` (R100). -/
def FloatFmt.flushResult (f : FloatFmt) (ftz : Bool) (r : Nat × BitVec 5) : Nat × BitVec 5 :=
  if ftz && f.isSub r.1 then (f.signBit (f.split r.1).1, r.2 ||| flagUF ||| flagNX) else r

/-- `round` to an integer type (R102). -/
def roundInt (t : Ty) (mode : RMode) (x : Num) : Int × BitVec 5 :=
  match x with
  | .nan _ => (0, flagNV)
  | .inf neg => (if neg then intMin t else intMax t, flagNV)
  | .fin neg man exp =>
    let (m, exact) := roundTo mode neg man exp 0
    let v : Int := if neg then -(m : Int) else m
    if v < intMin t then (intMin t, flagNV)
    else if intMax t < v then (intMax t, flagNV)
    else (v, if exact then 0 else flagNX)

/-! ### Arithmetic on exact values -/

/-- An integer times a power of two as an exact value. -/
def Num.ofInt (v : Int) (exp : Int) : Num := .fin (v < 0) v.natAbs exp

/-- The signed mantissa at a lower exponent. -/
def scaled (neg : Bool) (man : Nat) (exp low : Int) : Int :=
  let v : Int := (man * 2 ^ (exp - low).toNat : Nat)
  if neg then -v else v

/-- An exact sum of two finite values; the sign of an exact zero follows R143. -/
def addFin (n1 : Bool) (m1 : Nat) (e1 : Int) (n2 : Bool) (m2 : Nat) (e2 : Int) : Num :=
  let low := if e1 < e2 then e1 else e2
  let v := scaled n1 m1 e1 low + scaled n2 m2 e2 low
  if v = 0 then .fin (m1 == 0 && m2 == 0 && n1 && n2) 0 0 else Num.ofInt v low

/-- The flag of a signalling source (R99). -/
def Num.sigFlag : Num → BitVec 5
  | .nan true => flagNV
  | _ => 0

def Num.isNan : Num → Bool
  | .nan _ => true
  | _ => false

/-- The sum of two values, with `NV` for infinities of opposite sign (R143). -/
def Num.add (a b : Num) : Num × BitVec 5 :=
  match a, b with
  | .nan _, _ => (.nan false, 0)
  | _, .nan _ => (.nan false, 0)
  | .inf x, .inf y => if x = y then (.inf x, 0) else (.nan false, flagNV)
  | .inf x, _ => (.inf x, 0)
  | _, .inf y => (.inf y, 0)
  | .fin n1 m1 e1, .fin n2 m2 e2 => (addFin n1 m1 e1 n2 m2 e2, 0)

/-- The product of two values, with `NV` for zero by infinity (R143). -/
def Num.mul (a b : Num) : Num × BitVec 5 :=
  match a, b with
  | .nan _, _ => (.nan false, 0)
  | _, .nan _ => (.nan false, 0)
  | .inf x, .inf y => (.inf (x != y), 0)
  | .inf x, .fin y m _ => if m = 0 then (.nan false, flagNV) else (.inf (x != y), 0)
  | .fin x m _, .inf y => if m = 0 then (.nan false, flagNV) else (.inf (x != y), 0)
  | .fin n1 m1 e1, .fin n2 m2 e2 => (.fin (n1 != n2) (m1 * m2) (e1 + e2), 0)

def Num.neg : Num → Num
  | .nan s => .nan s
  | .inf n => .inf (!n)
  | .fin n m e => .fin (!n) m e

/-- Whether `a < b` for values that are not NaN; zeros of either sign compare equal. -/
def Num.lt (a b : Num) : Bool :=
  match a, b with
  | .nan _, _ => false
  | _, .nan _ => false
  | .inf x, .inf y => x && !y
  | .inf x, .fin _ _ _ => x
  | .fin _ _ _, .inf y => !y
  | .fin n1 m1 e1, .fin n2 m2 e2 =>
    let low := if e1 < e2 then e1 else e2
    decide (scaled n1 m1 e1 low < scaled n2 m2 e2 low)

/-- Whether two values that are not NaN are equal. -/
def Num.eqv (a b : Num) : Bool := !a.isNan && !b.isNan && !a.lt b && !b.lt a

/-! ### The floating-point operations of R142 to R150 -/

/-- `FADD`, `FSUB`, `FMUL`, `FFMA` (R142, R143). -/
inductive FOp | add | sub | mul | fma
deriving DecidableEq, Repr

/-- The result and the flags of an arithmetic operation on bit patterns (R141, R143). -/
def floatOp (f : FloatFmt) (op : FOp) (ftz : Bool) (a b c : Nat) : Nat × BitVec 5 :=
  let x := f.read (f.flush ftz a)
  let y := f.read (f.flush ftz b)
  let z := f.read (f.flush ftz c)
  let sig := match op with
    | .fma => x.sigFlag ||| y.sigFlag ||| z.sigFlag
    | _ => x.sigFlag ||| y.sigFlag
  let (v, fl) := match op with
    | .add => x.add y
    | .sub => x.add y.neg
    | .mul => x.mul y
    | .fma =>
      let (p, f1) := x.mul y
      let (v, f2) := p.add z
      (v, f1 ||| f2)
  let r := f.flushResult ftz (f.round .rn false v)
  (r.1, r.2 ||| fl ||| sig)

/-- `FMIN` and `FMAX` (R144): the chosen operand unchanged; −0 orders below +0. -/
def floatMinMax (f : FloatFmt) (isMax ftz : Bool) (a b : Nat) : Nat × BitVec 5 :=
  let a := f.flush ftz a
  let b := f.flush ftz b
  let x := f.read a
  let y := f.read b
  let fl := x.sigFlag ||| y.sigFlag
  if x.isNan && y.isNan then (f.nan, fl)
  else if x.isNan then (b, fl)
  else if y.isNan then (a, fl)
  else
    let below := x.lt y || (x.eqv y && (f.split a).1 && !(f.split b).1)
    let r := if isMax then (if below then b else a) else (if below then a else if y.lt x || (f.split b).1 then b else a)
    (r, fl)

/-- `FABS` and `FNEG` (R145). -/
def floatSign (f : FloatFmt) (isNeg ftz : Bool) (a : Nat) : Nat :=
  let a := f.flush ftz a
  let mag := a % 2 ^ (f.ebits + f.fbits)
  if isNeg then f.signBit (!(f.split a).1) + mag else mag

/-- `FCMP` (R147). -/
def floatCmp (f : FloatFmt) (cond : FCond) (ftz : Bool) (a b : Nat) : Bool × BitVec 5 :=
  let x := f.read (f.flush ftz a)
  let y := f.read (f.flush ftz b)
  let un := x.isNan || y.isNan
  let r := match cond with
    | .eq => x.eqv y
    | .ne => !x.eqv y
    | .lt => x.lt y
    | .le => x.lt y || x.eqv y
    | .gt => y.lt x
    | .ge => y.lt x || x.eqv y
    | .ord => !un
    | .uno => un
  (r, x.sigFlag ||| y.sigFlag)

/-- `FFLR` and `FRND` (R148): an integral value of the same format, with the sign of the source. -/
def floatIntegral (f : FloatFmt) (mode : RMode) (ftz : Bool) (a : Nat) : Nat × BitVec 5 :=
  let a := f.flush ftz a
  match f.read a with
  | .nan s => (f.nan, if s then flagNV else 0)
  | .inf _ => (a, 0)
  | .fin neg man exp =>
    let (m, _) := roundTo mode neg man exp 0
    ((f.round .rn false (.fin neg m 0)).1, 0)

/-- `CVT` (R149, R150): the register value of the result and the flags. -/
def convert (td ts : Ty) (mode : RMode) (ftz sat : Bool) (x : DWord) : DWord × BitVec 5 :=
  match Ty.float td, Ty.float ts with
  | none, none => (intResult td sat (readInt ts x), 0)
  | some f, none =>
    let r := f.round mode sat (Num.ofInt (readInt ts x) 0)
    (BitVec.ofNat 64 r.1, r.2)
  | none, some f =>
    let r := roundInt td mode (f.read (f.flush ftz (x.toNat % 2 ^ f.width)))
    (writeInt td r.1, r.2)
  | some f, some g =>
    let a := x.toNat % 2 ^ g.width
    if td = ts then
      match g.read a with
      | .nan s => (BitVec.ofNat 64 g.nan, if s then flagNV else 0)
      | _ => if ftz && g.isSub a then (BitVec.ofNat 64 (g.flush true a), flagUF ||| flagNX) else (BitVec.ofNat 64 a, 0)
    else
      let v := g.read (g.flush ftz a)
      let r := f.flushResult ftz (f.round mode sat v)
      (BitVec.ofNat 64 r.1, r.2 ||| v.sigFlag)

end Sys2Proof.Machine
end

