-- ==== Sys2Proof/Machine/Approx.lean ====
section
/-! DEFINITION. The approximated functions (R151 to R153). The value that the part gives is free within the bound of R151:
an opaque proposal is taken where it keeps the bound, and else the nearest value of the format. The exact value is reckoned in
fixed point, far below the bound (assumption 6). -/

namespace Sys2Proof.Machine

/-- The six cells 0x90 to 0x95. -/
inductive ApproxFn | rcp | rsq | exp2 | log2 | sin | cos
deriving DecidableEq, Repr

/-- The number of a function in `Config.approx`. -/
def ApproxFn.number : ApproxFn → Nat
  | .rcp => 0
  | .rsq => 1
  | .exp2 => 2
  | .log2 => 3
  | .sin => 4
  | .cos => 5

/-- Fraction bits of the fixed-point numbers. -/
def fxBits : Nat := 192
/-- π at 256 fraction bits, rounded down. -/
def piFx : Nat := 0x3243f6a8885a308d313198a2e03707344a4093822299f31d0082efa98ec4e6c89
/-- The natural logarithm of 2 at 192 fraction bits, rounded down. -/
def ln2Fx : Nat := 0xb17217f7d1cf79abc9e3b39803f2f6af40f343267298b62d

/-- The product of two fixed-point numbers. -/
def fxMul (a b : Int) : Int := a * b / 2 ^ fxBits

/-- A Taylor series: each term is the one before times `x`, divided by the next number of the list. -/
def fxSeries (x : Int) (term : Int) : List Nat → Int
  | [] => term
  | d :: rest => term + fxSeries x (fxMul term x / d) rest

/-- `2^f` for a fixed-point fraction `f` in [0, 1). -/
def fxExp2 (f : Int) : Int :=
  fxSeries (fxMul f ln2Fx) (2 ^ fxBits) ((List.range 48).map (· + 1))

/-- `sin x` and `cos x` for a fixed-point `x` in [-π, π]. -/
def fxSin (x : Int) : Int :=
  fxSeries (-(fxMul x x)) x ((List.range 32).map fun k => (2 * k + 2) * (2 * k + 3))
def fxCos (x : Int) : Int :=
  fxSeries (-(fxMul x x)) (2 ^ fxBits) ((List.range 32).map fun k => (2 * k + 1) * (2 * k + 2))

/-- `n` binary digits of `log2 m` for a fixed-point `m` in [1, 2), by repeated squaring. -/
def fxLog2 : Nat → Nat → Nat → Nat
  | 0, _, acc => acc
  | n + 1, m, acc =>
    let q := m * m / 2 ^ fxBits
    if 2 ^ (fxBits + 1) ≤ q then fxLog2 n (q / 2) (2 * acc + 1) else fxLog2 n q (2 * acc)

/-- The integer square root, bit by bit from bit `k - 1`. -/
def isqrt (n : Nat) : Nat → Nat → Nat
  | 0, r => r
  | k + 1, r => if (r + 2 ^ k) * (r + 2 ^ k) ≤ n then isqrt n k (r + 2 ^ k) else isqrt n k r

/-- A positive finite `man * 2^exp` as a fixed-point number. -/
def toFx (man : Nat) (exp : Int) : Int :=
  let e := exp + fxBits
  if 0 ≤ e then (man * 2 ^ e.toNat : Nat) else (man / 2 ^ (-e).toNat : Nat)

/-- An angle reduced to [-π, π]. -/
def reduceAngle (x : Int) : Int :=
  let wide := x * 2 ^ 64
  let turn : Int := 2 * piFx
  let r := wide % turn
  (if (piFx : Int) < r then r - turn else r) / 2 ^ 64

/-- The exact value of a function at a finite nonzero source, to more than 90 bits. The sine of a source below `2^-60` lies
below it by less than one part in `2^120`. -/
def approxExact (fn : ApproxFn) (neg : Bool) (man : Nat) (exp : Int) : Num :=
  match fn with
  | .rcp =>
    let q := 2 ^ 160 / man
    .fin neg (2 * q + (if q * man = 2 ^ 160 then 0 else 1)) (-161 - exp)
  | .rsq =>
    -- 1 / sqrt(man * 2^exp) with an even exponent
    let (m, e) := if exp % 2 = 0 then (man, exp) else (2 * man, exp - 1)
    let n := 2 ^ 320 / m
    let r := isqrt n 170 0
    .fin false (2 * r + (if r * r = n then 0 else 1)) (-161 - e / 2)
  | .exp2 =>
    let x := toFx man exp
    let x := if neg then -x else x
    let x := if x < -(400 * 2 ^ fxBits) then -(400 * 2 ^ fxBits) else x
    let n := x / 2 ^ fxBits
    .fin false (fxExp2 (x - n * 2 ^ fxBits)).natAbs (n - fxBits)
  | .log2 =>
    let e : Int := exp + natBits man - 1
    let m := toFx man (exp - e)
    let frac := fxLog2 120 m.natAbs 0
    Num.ofInt (e * 2 ^ 120 + frac) (-120)
  | .sin =>
    if exp + natBits man < -60 then .fin neg (man * 2 ^ 124 - 1) (exp - 124)
    else
      let v := fxSin (reduceAngle (toFx man exp))
      Num.ofInt (if neg then -v else v) (-(fxBits : Int))
  | .cos => Num.ofInt (fxCos (reduceAngle (toFx man exp))) (-(fxBits : Int))

/-- Whether a source is `FSIN`'s or `FCOS`'s and beyond `2^15`, where the `.f32` forms have only a range (R151). -/
def rangeOnly (fn : ApproxFn) (man : Nat) (exp : Int) : Bool :=
  (fn == .sin || fn == .cos) && Num.lt (.fin false 1 15) (.fin false man exp)

/-- The bound of R151 at an exact value, as a power of two and a factor: ulps of the result, or an absolute error. -/
def approxBound (fn : ApproxFn) (man : Nat) (exp : Int) (exact : Num) : Nat × Int :=
  let ulp := match exact with
    | .fin _ m e =>
      let k : Int := e + natBits m - 1
      (if k < -126 then -126 else k) - 23
    | _ => 0
  match fn with
  | .rcp => (1, ulp)
  | .rsq => (2, ulp)
  | .exp2 => (2, ulp)
  | .log2 => if !(Num.lt (.fin false man exp) (.fin false 1 (-1))) && !(Num.lt (.fin false 2 0) (.fin false man exp)) then (1, -22)
             else (2, ulp)
  | .sin => (1, -21)
  | .cos => (1, -21)

/-- Whether a finite proposal lies within a bound of the exact value. -/
def withinBound (p exact : Num) (k : Nat) (e : Int) : Bool :=
  match p, exact with
  | .fin n1 m1 e1, .fin n2 m2 e2 =>
    match addFin n1 m1 e1 (!n2) m2 e2 with
    | .fin _ m d => !(Num.lt (.fin false k e) (.fin false m d))
    | _ => false
  | _, _ => false

/-- Whether a value lies in [-1, 1]. -/
def inUnit (p : Num) : Bool :=
  match p with
  | .fin _ m e => !(Num.lt (.fin false 1 0) (.fin false m e))
  | _ => false

/-- The `UF` flag of a result that counts as inexact, with its exact value (R103, R152): it is set when that value is tiny, also where the format
holds it exactly. -/
def FloatFmt.tiny (f : FloatFmt) (x : Num) : BitVec 5 :=
  match x with
  | .fin neg man exp => if man ≠ 0 ∧ f.isTiny .rn neg man exp then flagUF else 0
  | _ => 0

/-- The approximated value at a finite nonzero source outside the special rows: the free proposal if it keeps the bound,
else the nearest value (R151, R153). `NX` is set, and `UF` by R103. -/
def approxValue (fn : ApproxFn) (free : Word) (neg : Bool) (man : Nat) (exp : Int) : Nat × BitVec 5 :=
  let p := fmtF32.read free.toNat
  let exact := approxExact fn neg man exp
  if rangeOnly fn man exp then (if inUnit p then free.toNat else 0, flagNX ||| fmtF32.tiny exact)
  else
    let (k, e) := approxBound fn man exp exact
    (if withinBound p exact k e then free.toNat else (fmtF32.round .rn false exact).1, flagNX ||| fmtF32.tiny exact)

/-- An exact binary32 result. -/
def exactF32 (x : Num) : Nat × BitVec 5 := ((fmtF32.round .rn false x).1, 0)

/-- Whether `man * 2^exp` is a power of two, and its exponent. -/
def powerOfTwo (man : Nat) (exp : Int) : Option Int :=
  if man = 2 ^ (natBits man - 1) then some (exp + natBits man - 1) else none

/-- Whether `man * 2^exp` is an integer, and its value. -/
def integralVal (man : Nat) (exp : Int) : Option Nat :=
  let (m, ok) := roundTo .rz false man exp 0
  if ok then some m else none

/-- An approximated function on a binary32 pattern (R152): the special rows with the flags in their brackets, else a value
within the bound. -/
def approxF32 (fn : ApproxFn) (free : Word) (a : Nat) : Nat × BitVec 5 :=
  match fmtF32.read a with
  | .nan s => (fmtF32.nan, if s then flagNV else 0)
  | .inf neg =>
    match fn with
    | .rcp => (fmtF32.signBit neg, 0)
    | .rsq => if neg then (fmtF32.nan, flagNV) else (0, 0)
    | .exp2 => if neg then (0, 0) else (fmtF32.infinity false, 0)
    | .log2 => if neg then (fmtF32.nan, flagNV) else (fmtF32.infinity false, 0)
    | .sin => (fmtF32.nan, flagNV)
    | .cos => (fmtF32.nan, flagNV)
  | .fin neg man exp =>
    if man = 0 then
      match fn with
      | .rcp => (fmtF32.infinity neg, flagDZ)
      | .rsq => (fmtF32.infinity neg, flagDZ)
      | .exp2 => exactF32 (.fin false 1 0)
      | .log2 => (fmtF32.infinity true, flagDZ)
      | .sin => (fmtF32.signBit neg, 0)
      | .cos => exactF32 (.fin false 1 0)
    else
      match fn with
      | .rcp =>
        -- 1 / a beyond the largest finite value
        if Num.lt (fmtF32.read fmtF32.largest) (.fin false (2 ^ 200 / man) (-200 - exp)) then
          (fmtF32.infinity neg, flagOF ||| flagNX)
        else approxValue fn free neg man exp
      | .rsq => if neg then (fmtF32.nan, flagNV) else approxValue fn free neg man exp
      | .exp2 =>
        if !neg && !(Num.lt (.fin false man exp) (.fin false 128 0)) then (fmtF32.infinity false, flagOF ||| flagNX)
        else
          match integralVal man exp with
          | some n => if neg && decide (149 < n) then approxValue fn free neg man exp
                      else exactF32 (.fin false 1 (if neg then -(n : Int) else n))
          | none => approxValue fn free neg man exp
      | .log2 =>
        if neg then (fmtF32.nan, flagNV)
        else match powerOfTwo man exp with
          | some n => exactF32 (Num.ofInt n 0)
          | none => approxValue fn free neg man exp
      | .sin => approxValue fn free neg man exp
      | .cos => approxValue fn free neg man exp

/-- The binary16 result of an approximated value `r` of the binary32 form: rounded, or the nearest value where the `.h16` bound
on `FSIN` and `FCOS`, which has no range, is not kept (R151); the flags are those of the exact value (R103). -/
def approxHalf (fn : ApproxFn) (v : Num) (r : Nat × BitVec 5) : Nat × BitVec 5 :=
  let q := fmtH16.round .rn false (fmtF32.read r.1)
  match v with
  | .fin neg man exp =>
    if r.2 &&& flagNX = 0 ∨ man = 0 then (q.1, q.2 ||| r.2)
    else
      let exact := approxExact fn neg man exp
      let kept := !(fn == .sin || fn == .cos) || withinBound (fmtH16.read q.1) exact 1 (-10)
      (if kept then q.1 else (fmtH16.round .rn false exact).1,
        (q.2 ||| r.2) &&& ~~~flagUF ||| fmtH16.tiny exact)
  | _ => (q.1, q.2 ||| r.2)

/-- An approximated function under `TY` and `.ftz`: binary16 is evaluated on the binary32 value of its source and rounded
(R151). DESIGN CHOICE (assumption 99): the value that the `.h16` form rounds is a free value of its own, not the one that the
`.f32` form gives for that source. -/
def approxOp (fn : ApproxFn) (ty : Ty) (ftz : Bool) (x : Word) : Word × BitVec 5 :=
  match ty with
  | .h16 =>
    let v := fmtH16.read (fmtH16.flush ftz (x.toNat % 65536))
    let a := (fmtF32.round .rn false v).1
    let r := approxF32 fn (Config.approx (fn.number + 6) (BitVec.ofNat 32 a) ftz) a
    let q := fmtH16.flushResult ftz (approxHalf fn v r)
    (BitVec.ofNat 32 q.1, q.2 ||| v.sigFlag)
  | _ =>
    let a := fmtF32.flush ftz x.toNat
    let r := fmtF32.flushResult ftz (approxF32 fn (Config.approx fn.number (BitVec.ofNat 32 a) ftz) a)
    (BitVec.ofNat 32 r.1, r.2)

end Sys2Proof.Machine
end

