-- ==== Sys2Proof/Machine/Integer.lean ====
section
/-! DEFINITION. Integer arithmetic, comparison, addresses, logic, shifts, bit fields and selection (R129 to R139). -/

namespace Sys2Proof.Machine

/-- The outcome of a meaning: the machine always goes on (every illegal use is a cause, R340). -/
abbrev Result := Host.Outcome State Fault Refusal

/-! ### Shared shapes of meaning -/

/-- A two-source integer operation of R130 on exact integers. -/
def State.intBin (s : State) (p : Pre) (lat : Nat) (ty : Ty) (sat : Bool) (d a b : Reg)
    (shape : Bool → Shape → Shape → Shape) (op : Int → Int → Int) : State :=
  s.alu p lat (Ty.is2 ty) d
    (fun wp => shape (keepsAffine ty sat) (wp.shape (Ty.is2 ty) a) (wp.shape (Ty.is2 ty) b))
    (fun wp l => intResult ty sat
      (op (readInt ty (wp.val (Ty.is2 ty) a l)) (readInt ty (wp.val (Ty.is2 ty) b l))))

/-- The I cell of such an operation: the extended immediate is read under the type (R89). -/
def State.intBinImm (s : State) (p : Pre) (lat : Nat) (ty : Ty) (sat : Bool) (d a : Reg) (imm : BitVec 24)
    (shape : Bool → Shape → Shape → Shape) (op : Int → Int → Int) : State :=
  s.alu p lat (Ty.is2 ty) d
    (fun wp => shape (keepsAffine ty sat) (wp.shape (Ty.is2 ty) a) .uniform)
    (fun wp l => intResult ty sat (op (readInt ty (wp.val (Ty.is2 ty) a l)) (readInt ty (immSigned imm))))

/-- A three-source integer operation. -/
def State.intTern (s : State) (p : Pre) (lat : Nat) (ty : Ty) (sat : Bool) (d a b c : Reg)
    (shape : Bool → Shape → Shape → Shape → Shape) (op : Int → Int → Int → Int) : State :=
  s.alu p lat (Ty.is2 ty) d
    (fun wp => shape (keepsAffine ty sat) (wp.shape (Ty.is2 ty) a) (wp.shape (Ty.is2 ty) b) (wp.shape (Ty.is2 ty) c))
    (fun wp l => intResult ty sat
      (op (readInt ty (wp.val (Ty.is2 ty) a l)) (readInt ty (wp.val (Ty.is2 ty) b l))
        (readInt ty (wp.val (Ty.is2 ty) c l))))

/-- A one-source integer operation. -/
def State.intUn (s : State) (p : Pre) (lat : Nat) (ty : Ty) (sat : Bool) (d a : Reg)
    (shape : Bool → Shape → Shape) (op : Int → Int) : State :=
  s.alu p lat (Ty.is2 ty) d (fun wp => shape (keepsAffine ty sat) (wp.shape (Ty.is2 ty) a))
    (fun wp l => intResult ty sat (op (readInt ty (wp.val (Ty.is2 ty) a l))))

/-- Shapes of operations that keep no affine form (R55). -/
def plain1 (_ : Bool) (a : Shape) : Shape := plainShape [a]
def plain2 (_ : Bool) (a b : Shape) : Shape := plainShape [a, b]
def plain3 (_ : Bool) (a b c : Shape) : Shape := plainShape [a, b, c]

/-- `IMAD`: affine where the product is affine by the line of `IMUL` and the addend uniform or affine; a uniform product and an affine addend have no
line of their own, and give general (R55). -/
def madShape (keeps : Bool) (a b c : Shape) : Shape :=
  let ab := mulShape keeps a b
  if ab = .uniform ∧ c = .affine then .general else sumShape keeps ab c

/-- A bitwise or shifting operation on `.b32` or `.b64` sources; the value is cut to the width. -/
def State.bitBin (s : State) (p : Pre) (wide : Bool) (d a b : Reg) (op : DWord → DWord → DWord) : State :=
  s.alu p 4 wide d (fun wp => plainShape [wp.shape wide a, wp.shape wide b])
    (fun wp l => op (wp.val wide a l) (wp.val wide b l))

def State.bitImm (s : State) (p : Pre) (wide : Bool) (d a : Reg) (imm : BitVec 24) (op : DWord → DWord → DWord) : State :=
  s.alu p 4 wide d (fun wp => plainShape [wp.shape wide a]) (fun wp l => op (wp.val wide a l) (immZero imm))

def State.bitUn (s : State) (p : Pre) (wideD wideA : Bool) (d a : Reg) (op : DWord → DWord) : State :=
  s.alu p 4 wideD d (fun wp => plainShape [wp.shape wideA a]) (fun wp l => op (wp.val wideA a l))

/-! ### Arithmetic (R130) -/

def execIadd (p : Pre) (ty : Ty) (sat : Bool) (d a b : Reg) (s : State) : Result :=
  .next (s.intBin p 4 ty sat d a b sumShape (· + ·))
def execIaddImm (p : Pre) (ty : Ty) (sat : Bool) (d a : Reg) (imm : BitVec 24) (s : State) : Result :=
  .next (s.intBinImm p 4 ty sat d a imm sumShape (· + ·))
def execIsub (p : Pre) (ty : Ty) (sat : Bool) (d a b : Reg) (s : State) : Result :=
  .next (s.intBin p 4 ty sat d a b sumShape (· - ·))
def execImul (p : Pre) (ty : Ty) (sat : Bool) (d a b : Reg) (s : State) : Result :=
  .next (s.intBin p 4 ty sat d a b mulShape (· * ·))
def execImulImm (p : Pre) (ty : Ty) (sat : Bool) (d a : Reg) (imm : BitVec 24) (s : State) : Result :=
  .next (s.intBinImm p 4 ty sat d a imm mulShape (· * ·))
def execImad (p : Pre) (ty : Ty) (sat : Bool) (d a b c : Reg) (s : State) : Result :=
  .next (s.intTern p 4 ty sat d a b c madShape fun x y z => x * y + z)
def execImulh (p : Pre) (ty : Ty) (d a b : Reg) (s : State) : Result :=
  .next (s.intBin p 8 ty false d a b plain2 fun x y => x * y / 2 ^ 32)
def execImadh (p : Pre) (ty : Ty) (d a b c : Reg) (s : State) : Result :=
  .next (s.intTern p 8 ty false d a b c plain3 fun x y z => x * y / 2 ^ 32 + z)
def execImin (p : Pre) (ty : Ty) (d a b : Reg) (s : State) : Result :=
  .next (s.intBin p 4 ty false d a b plain2 fun x y => if x ≤ y then x else y)
def execIminImm (p : Pre) (ty : Ty) (d a : Reg) (imm : BitVec 24) (s : State) : Result :=
  .next (s.intBinImm p 4 ty false d a imm plain2 fun x y => if x ≤ y then x else y)
def execImax (p : Pre) (ty : Ty) (d a b : Reg) (s : State) : Result :=
  .next (s.intBin p 4 ty false d a b plain2 fun x y => if x ≤ y then y else x)
def execImaxImm (p : Pre) (ty : Ty) (d a : Reg) (imm : BitVec 24) (s : State) : Result :=
  .next (s.intBinImm p 4 ty false d a imm plain2 fun x y => if x ≤ y then y else x)
def execIabs (p : Pre) (ty : Ty) (sat : Bool) (d a : Reg) (s : State) : Result :=
  .next (s.intUn p 4 ty sat d a plain1 fun x => (x.natAbs : Int))
def execIneg (p : Pre) (ty : Ty) (sat : Bool) (d a : Reg) (s : State) : Result :=
  .next (s.intUn p 4 ty sat d a keepShape fun x => -x)

/-- Add with carry and subtract with borrow (R131): the exact result gives the carry out, whatever `.sat` does. -/
def carryResult (sub sat : Bool) (a b : Word) (cin : Bool) : DWord × Bool :=
  let c : Int := if cin then 1 else 0
  let x : Int := if sub then (a.toNat : Int) - b.toNat - c else (a.toNat : Int) + b.toNat + c
  (intResult .n32 sat x, if sub then decide (x < 0) else decide ((2 : Int) ^ 32 ≤ x))

def State.carryOp (s : State) (p : Pre) (sub sat : Bool) (d a b c : Reg) : State :=
  s.aluCarry p 4 d c (fun wp => plainShape [wp.shape32 a, wp.shape32 b, wp.shape32 c])
    (fun wp l => carryResult sub sat (wp.val32 a l) (wp.val32 b l) (wp.bit c l))

def execIadc (p : Pre) (_ : Ty) (sat : Bool) (d a b c : Reg) (s : State) : Result := .next (s.carryOp p false sat d a b c)
def execIsbb (p : Pre) (_ : Ty) (sat : Bool) (d a b c : Reg) (s : State) : Result := .next (s.carryOp p true sat d a b c)

/-- The conditions of `ICMP` on exact integers (R90, R132). -/
def intCond (c : ICond) (x y : Int) : Bool :=
  match c with
  | .eq => decide (x = y)
  | .ne => decide (x ≠ y)
  | .lt => decide (x < y)
  | .le => decide (x ≤ y)
  | .gt => decide (y < x)
  | .ge => decide (y ≤ x)

def execIcmp (p : Pre) (cond : ICond) (ty : Ty) (d a b : Reg) (s : State) : Result :=
  .next (s.aluPred p 4 d fun wp l =>
    intCond cond (readInt ty (wp.val (Ty.is2 ty) a l)) (readInt ty (wp.val (Ty.is2 ty) b l)))
def execIcmpImm (p : Pre) (cond : ICond) (ty : Ty) (d a : Reg) (imm : BitVec 24) (s : State) : Result :=
  .next (s.aluPred p 4 d fun wp l =>
    intCond cond (readInt ty (wp.val (Ty.is2 ty) a l)) (readInt ty (immSigned imm)))

/-- The index of `AADD` (R133): the low bits of one register for the narrow types, the whole register for the 64-bit types,
extended as the type says. -/
def aaddIndex (ty : Ty) (x : Word) : Int :=
  match ty with
  | .i64 => x.toInt
  | .n64 => (x.toNat : Int)
  | t => readInt t (x.setWidth 64)

def execAadd (p : Pre) (ty : Ty) (d a b : Reg) (s : State) : Result :=
  .next (s.alu p 4 true d (fun wp => plainShape [wp.shape true a, wp.shape32 b])
    (fun wp l => wp.val64 a l + BitVec.ofInt 64 (aaddIndex ty (wp.val32 b l) * (Ty.bits ty / 8 : Nat))))
def execAaddImm (p : Pre) (d a : Reg) (imm : BitVec 24) (s : State) : Result :=
  .next (s.alu p 4 true d (fun wp => plainShape [wp.shape true a]) (fun wp l => wp.val64 a l + immSigned imm))

/-! ### Logic and shifts (R134, R135) -/

def execAndL (p : Pre) (wide : Bool) (d a b : Reg) (s : State) : Result := .next (s.bitBin p wide d a b (· &&& ·))
def execAndImm (p : Pre) (wide : Bool) (d a : Reg) (imm : BitVec 24) (s : State) : Result :=
  .next (s.bitImm p wide d a imm (· &&& ·))
def execOrL (p : Pre) (wide : Bool) (d a b : Reg) (s : State) : Result := .next (s.bitBin p wide d a b (· ||| ·))
def execOrImm (p : Pre) (wide : Bool) (d a : Reg) (imm : BitVec 24) (s : State) : Result :=
  .next (s.bitImm p wide d a imm (· ||| ·))
def execXorL (p : Pre) (wide : Bool) (d a b : Reg) (s : State) : Result := .next (s.bitBin p wide d a b (· ^^^ ·))
def execXorImm (p : Pre) (wide : Bool) (d a : Reg) (imm : BitVec 24) (s : State) : Result :=
  .next (s.bitImm p wide d a imm (· ^^^ ·))
def execAndn (p : Pre) (wide : Bool) (d a b : Reg) (s : State) : Result :=
  .next (s.bitBin p wide d a b fun x y => x &&& ~~~y)
def execNotL (p : Pre) (wide : Bool) (d a : Reg) (s : State) : Result := .next (s.bitUn p wide wide d a fun x => ~~~x)

/-- Kinds of shift (R135). -/
inductive ShiftOp | shl | shr | sar | rol
deriving DecidableEq, Repr

/-- A shift or rotation of 32 or 64 bits by a count modulo the width (R135). -/
def shiftVal (op : ShiftOp) (wide : Bool) (x : DWord) (count : Nat) : DWord :=
  if wide then
    let n := count % 64
    match op with
    | .shl => x <<< n
    | .shr => x >>> n
    | .sar => x.sshiftRight n
    | .rol => x.rotateLeft n
  else
    let y := loWord x
    let n := count % 32
    let r : Word := match op with
      | .shl => y <<< n
      | .shr => y >>> n
      | .sar => y.sshiftRight n
      | .rol => y.rotateLeft n
    r.setWidth 64

/-- `SHL.b32` of an affine source by a uniform count stays affine (R55). -/
def shiftShape (op : ShiftOp) (wide : Bool) (a b : Shape) : Shape :=
  if op = .shl ∧ wide = false ∧ a = .affine ∧ b = .uniform then .affine else plainShape [a, b]

def State.shiftOp (s : State) (op : ShiftOp) (p : Pre) (wide : Bool) (d a b : Reg) : State :=
  s.alu p 4 wide d (fun wp => shiftShape op wide (wp.shape wide a) (wp.shape32 b))
    (fun wp l => shiftVal op wide (wp.val wide a l) (wp.val32 b l).toNat)
def State.shiftImm (s : State) (op : ShiftOp) (p : Pre) (wide : Bool) (d a : Reg) (imm : BitVec 24) : State :=
  s.alu p 4 wide d (fun wp => shiftShape op wide (wp.shape wide a) .uniform)
    (fun wp l => shiftVal op wide (wp.val wide a l) imm.toNat)

def execShl (p : Pre) (wide : Bool) (d a b : Reg) (s : State) : Result := .next (s.shiftOp .shl p wide d a b)
def execShlImm (p : Pre) (wide : Bool) (d a : Reg) (imm : BitVec 24) (s : State) : Result :=
  .next (s.shiftImm .shl p wide d a imm)
def execShr (p : Pre) (wide : Bool) (d a b : Reg) (s : State) : Result := .next (s.shiftOp .shr p wide d a b)
def execShrImm (p : Pre) (wide : Bool) (d a : Reg) (imm : BitVec 24) (s : State) : Result :=
  .next (s.shiftImm .shr p wide d a imm)
def execSar (p : Pre) (wide : Bool) (d a b : Reg) (s : State) : Result := .next (s.shiftOp .sar p wide d a b)
def execSarImm (p : Pre) (wide : Bool) (d a : Reg) (imm : BitVec 24) (s : State) : Result :=
  .next (s.shiftImm .sar p wide d a imm)
def execRol (p : Pre) (wide : Bool) (d a b : Reg) (s : State) : Result := .next (s.shiftOp .rol p wide d a b)
def execRolImm (p : Pre) (wide : Bool) (d a : Reg) (imm : BitVec 24) (s : State) : Result :=
  .next (s.shiftImm .rol p wide d a imm)

/-! ### Bit counts and fields (R136, R137) -/

/-- Leading zeros of the low `n` bits. -/
def leadZeros (x : Nat) : Nat → Nat
  | 0 => 0
  | n + 1 => if x.testBit n then 0 else 1 + leadZeros x n
/-- Trailing zeros of `n` bits from bit `k`. -/
def trailZeros (x : Nat) (k : Nat) : Nat → Nat
  | 0 => 0
  | n + 1 => if x.testBit k then 0 else 1 + trailZeros x (k + 1) n
/-- Ones among the low `n` bits. -/
def countOnes (x : Nat) : Nat → Nat
  | 0 => 0
  | n + 1 => (if x.testBit n then 1 else 0) + countOnes x n

def widthOf (wide : Bool) : Nat := if wide then 64 else 32

def execClz (p : Pre) (wide : Bool) (d a : Reg) (s : State) : Result :=
  .next (s.bitUn p false wide d a fun x => BitVec.ofNat 64 (leadZeros x.toNat (widthOf wide)))
def execCtz (p : Pre) (wide : Bool) (d a : Reg) (s : State) : Result :=
  .next (s.bitUn p false wide d a fun x => BitVec.ofNat 64 (trailZeros x.toNat 0 (widthOf wide)))
def execPopc (p : Pre) (wide : Bool) (d a : Reg) (s : State) : Result :=
  .next (s.bitUn p false wide d a fun x => BitVec.ofNat 64 (countOnes x.toNat (widthOf wide)))
def execBrev (p : Pre) (wide : Bool) (d a : Reg) (s : State) : Result :=
  .next (s.bitUn p wide wide d a fun x => if wide then x.reverse else ((loWord x).reverse).setWidth 64)

/-- `BFX` (R137). -/
def bfxVal (ty : Ty) (x : DWord) (b c : Word) : DWord :=
  let w := Ty.bits ty
  let pos := min (b.toNat % 256) w
  let len := min (c.toNat % 256) (w - pos)
  let f := x.toNat % 2 ^ w / 2 ^ pos % 2 ^ len
  if len = 0 then 0
  else if Ty.signed ty && f.testBit (len - 1) then writeInt ty ((f : Int) - 2 ^ len)
  else writeInt ty f

/-- `BFI` (R137). -/
def bfiVal (wide : Bool) (x y : DWord) (c : Word) : DWord :=
  let w := widthOf wide
  let pos := min (c.toNat % 256) w
  let len := min (c.toNat / 256 % 256) (w - pos)
  let m := BitVec.ofNat 64 ((2 ^ len - 1) * 2 ^ pos)
  (x &&& ~~~m) ||| ((y <<< pos) &&& m)

def execBfx (p : Pre) (ty : Ty) (d a b c : Reg) (s : State) : Result :=
  .next (s.alu p 4 (Ty.is2 ty) d (fun wp => plainShape [wp.shape (Ty.is2 ty) a, wp.shape32 b, wp.shape32 c])
    (fun wp l => bfxVal ty (wp.val (Ty.is2 ty) a l) (wp.val32 b l) (wp.val32 c l)))
def execBfi (p : Pre) (wide : Bool) (d a b c : Reg) (s : State) : Result :=
  .next (s.alu p 4 wide d (fun wp => plainShape [wp.shape wide a, wp.shape wide b, wp.shape32 c])
    (fun wp l => bfiVal wide (wp.val wide a l) (wp.val wide b l) (wp.val32 c l)))

/-- `PRMT` (R159). -/
def prmtVal (x y : Word) (sel : Word) : Word :=
  let pool : DWord := pairWord x y
  let byte := fun n : Nat =>
    let k := sel.toNat / 16 ^ n % 16
    let v := pool.toNat / 256 ^ (k % 8) % 256
    if 8 ≤ k then (if 128 ≤ v then 255 else 0) else v
  BitVec.ofNat 32 (byte 0 + 256 * byte 1 + 65536 * byte 2 + 16777216 * byte 3)

def execPrmt (p : Pre) (d a b c : Reg) (s : State) : Result :=
  .next (s.alu p 4 false d (fun wp => plainShape [wp.shape32 a, wp.shape32 b, wp.shape32 c])
    (fun wp l => (prmtVal (wp.val32 a l) (wp.val32 b l) (wp.val32 c l)).setWidth 64))

/-- `SEL` (R138). -/
def execSel (p : Pre) (wide : Bool) (d a b c : Reg) (s : State) : Result :=
  .next (s.alu p 4 wide d (fun wp => plainShape [wp.shape wide a, wp.shape wide b, wp.shape32 c])
    (fun wp l => if wp.bit c l then wp.val wide a l else wp.val wide b l))

/-- `PLOP` (R139). -/
def execPlop (p : Pre) (d a b c : Reg) (tt : BitVec 8) (s : State) : Result :=
  .next (s.aluPred p 4 d fun wp l =>
    tt.getLsbD ((if wp.bit a l then 4 else 0) + (if wp.bit b l then 2 else 0) + (if wp.bit c l then 1 else 0)))

end Sys2Proof.Machine
end

