-- ==== Sys2Proof/Machine/Float.lean ====
section
/-! DEFINITION. Floating point: arithmetic, comparison, rounding, conversion and the approximated functions (R140 to R153).
-/

namespace Sys2Proof.Machine

/-- The format of a floating-point type; binary32 stands for the types that no word of these cells may name. -/
def floatFmt (ty : Ty) : FloatFmt := (Ty.float ty).getD fmtF32

/-- An operation on bit patterns applied to a register value: on its low bits, or in the packed form on each half (R98,
R146). -/
def packedOp (packed : Bool) (op : Nat → Nat → Nat → Nat × BitVec 5) (a b c : Word) : DWord × BitVec 5 :=
  if packed then
    let lo := op (a.toNat % 65536) (b.toNat % 65536) (c.toNat % 65536)
    let hi := op (a.toNat / 65536) (b.toNat / 65536) (c.toNat / 65536)
    (BitVec.ofNat 64 (lo.1 + 65536 * hi.1), lo.2 ||| hi.2)
  else
    let r := op a.toNat b.toNat c.toNat
    (BitVec.ofNat 64 r.1, r.2)

/-- A three-source floating-point instruction (R141, R142). -/
def State.floatTern (s : State) (p : Pre) (lat : Nat) (packed : Bool) (d a b c : Reg)
    (op : Nat → Nat → Nat → Nat × BitVec 5) : State :=
  s.aluFlags p lat false d (fun wp => plainShape [wp.shape32 a, wp.shape32 b, wp.shape32 c])
    (fun wp l => packedOp packed op (wp.val32 a l) (wp.val32 b l) (wp.val32 c l))

/-- An arithmetic cell (R142, R143). -/
def State.floatArith (s : State) (op : FOp) (p : Pre) (packed ftz : Bool) (ty : Ty) (d a b c : Reg) : State :=
  s.floatTern p 4 packed d a b c fun x y z => floatOp (floatFmt ty) op ftz x y z

def execFadd (p : Pre) (packed ftz : Bool) (ty : Ty) (d a b : Reg) (s : State) : Result :=
  .next (s.floatArith .add p packed ftz ty d a b .vz)
def execFsub (p : Pre) (packed ftz : Bool) (ty : Ty) (d a b : Reg) (s : State) : Result :=
  .next (s.floatArith .sub p packed ftz ty d a b .vz)
def execFmul (p : Pre) (packed ftz : Bool) (ty : Ty) (d a b : Reg) (s : State) : Result :=
  .next (s.floatArith .mul p packed ftz ty d a b .vz)
def execFfma (p : Pre) (packed ftz : Bool) (ty : Ty) (d a b c : Reg) (s : State) : Result :=
  .next (s.floatArith .fma p packed ftz ty d a b c)

/-- `FMIN` and `FMAX` (R144). -/
def execFmin (p : Pre) (packed ftz : Bool) (ty : Ty) (d a b : Reg) (s : State) : Result :=
  .next (s.floatTern p 4 packed d a b .vz fun x y _ => floatMinMax (floatFmt ty) false ftz x y)
def execFmax (p : Pre) (packed ftz : Bool) (ty : Ty) (d a b : Reg) (s : State) : Result :=
  .next (s.floatTern p 4 packed d a b .vz fun x y _ => floatMinMax (floatFmt ty) true ftz x y)

/-- `FABS` and `FNEG` (R145). -/
def execFabs (p : Pre) (packed ftz : Bool) (ty : Ty) (d a : Reg) (s : State) : Result :=
  .next (s.floatTern p 4 packed d a .vz .vz fun x _ _ => (floatSign (floatFmt ty) false ftz x, 0))
def execFneg (p : Pre) (packed ftz : Bool) (ty : Ty) (d a : Reg) (s : State) : Result :=
  .next (s.floatTern p 4 packed d a .vz .vz fun x _ _ => (floatSign (floatFmt ty) true ftz x, 0))

/-- `FCMP` (R147): a predicate and flags. -/
def execFcmp (p : Pre) (cond : FCond) (ftz : Bool) (ty : Ty) (d a b : Reg) (s : State) : Result :=
  let wp := s.curWarp
  let m := wp.execMask p
  let r := fun l => floatCmp (floatFmt ty) cond ftz (wp.val32 a l).toNat (wp.val32 b l).toNat
  .next (if m = 0 then s
    else s.setWarp s.cur (wp.pushAll (wp.pendPred m 4 d (fun l => (r l).1) ++ wp.pendFlags 4 m fun l => (r l).2)))

/-- `FFLR` and `FRND` (R148). -/
def execFflr (p : Pre) (ftz : Bool) (ty : Ty) (d a : Reg) (s : State) : Result :=
  .next (s.floatTern p 4 false d a .vz .vz fun x _ _ => floatIntegral (floatFmt ty) .rd ftz x)
def execFrnd (p : Pre) (mode : RMode) (ftz : Bool) (ty : Ty) (d a : Reg) (s : State) : Result :=
  .next (s.floatTern p 4 false d a .vz .vz fun x _ _ => floatIntegral (floatFmt ty) mode ftz x)

/-- `CVT` (R149, R150). -/
def execCvt (p : Pre) (mode : RMode) (ftz sat : Bool) (td ts : Ty) (d a : Reg) (s : State) : Result :=
  .next (s.aluFlags p 4 (Ty.is2 td) d (fun wp => plainShape [wp.shape (Ty.is2 ts) a])
    (fun wp l => convert td ts mode ftz sat (wp.val (Ty.is2 ts) a l)))

/-- An approximated function (R151). -/
def State.floatApprox (s : State) (fn : ApproxFn) (p : Pre) (ftz : Bool) (ty : Ty) (d a : Reg) : State :=
  s.aluFlags p 8 false d (fun wp => plainShape [wp.shape32 a])
    (fun wp l => let r := approxOp fn ty ftz (wp.val32 a l); (r.1.setWidth 64, r.2))

def execFrcp (p : Pre) (ftz : Bool) (ty : Ty) (d a : Reg) (s : State) : Result := .next (s.floatApprox .rcp p ftz ty d a)
def execFrsq (p : Pre) (ftz : Bool) (ty : Ty) (d a : Reg) (s : State) : Result := .next (s.floatApprox .rsq p ftz ty d a)
def execFexp2 (p : Pre) (ftz : Bool) (ty : Ty) (d a : Reg) (s : State) : Result := .next (s.floatApprox .exp2 p ftz ty d a)
def execFlog2 (p : Pre) (ftz : Bool) (ty : Ty) (d a : Reg) (s : State) : Result := .next (s.floatApprox .log2 p ftz ty d a)
def execFsin (p : Pre) (ftz : Bool) (ty : Ty) (d a : Reg) (s : State) : Result := .next (s.floatApprox .sin p ftz ty d a)
def execFcos (p : Pre) (ftz : Bool) (ty : Ty) (d a : Reg) (s : State) : Result := .next (s.floatApprox .cos p ftz ty d a)

end Sys2Proof.Machine
end

