-- ==== Sys2Proof/Machine/Lane.lean ====
section
/-! DEFINITION. Lane operations: exchange, ballot, vote and reduction, each within one segment (R154 to R158). -/

namespace Sys2Proof.Machine

/-- The lanes of a segment that execute, as slot lanes (R64, R154). -/
def Warp.segLanes (wp : Warp) (m : Mask) (l : Nat) : List Nat :=
  match wp.segOf l with
  | some g => lanesOf (g.slots &&& m)
  | none => []

/-- The source lane of an exchange (R155), segment-relative. -/
def xchlLane (op : XchlOp) (width l b : Nat) : Nat :=
  match op with
  | .xor => Nat.xor l (b % width)
  | .up => if b ≤ l then l - b else l
  | .dn => if l + b < width then l + b else l
  | .idx => b % width

/-- `XCHL` (R155): the source lane need not execute. -/
def execXchl (p : Pre) (op : XchlOp) (wide : Bool) (d a b : Reg) (s : State) : Result :=
  .next (s.alu p 6 wide d (fun _ => .general) fun wp l =>
    match wp.segOf l with
    | some g => wp.val wide a (g.lbase + xchlLane op g.width (l - g.lbase) (wp.val32 b l).toNat)
    | none => 0)

/-- `BALLOT` (R156). -/
def execBallot (p : Pre) (d a : Reg) (s : State) : Result :=
  .next (s.alu p 6 true d (fun _ => .uniform) fun wp l =>
    match wp.segOf l with
    | some g => g.rel (wp.execMask p &&& maskWhere fun j => wp.bit a j)
    | none => 0)

/-- `VOTE` (R157) over the bits of the executing lanes of a segment. -/
def voteVal (op : VoteOp) (bits : List Bool) : Bool :=
  match op with
  | .any => bits.any id
  | .all => bits.all id
  | .eq => bits.all id || bits.all not

def execVote (p : Pre) (op : VoteOp) (d a : Reg) (s : State) : Result :=
  .next (s.aluPred p 6 d fun wp l => voteVal op ((wp.segLanes (wp.execMask p) l).map fun j => wp.bit a j))

/-- The exact sum of binary32 values, rounded once (R158). -/
def sumF32 (xs : List Nat) : Nat × BitVec 5 :=
  let vs := xs.map fmtF32.read
  let (v, fl) := vs.foldl (fun (acc : Num × BitVec 5) x =>
    let (r, f) := acc.1.add x
    (r, acc.2 ||| f)) (.fin true 0 0, 0)
  let pos := vs.any fun x => x == .inf false
  let neg := vs.any fun x => x == .inf true
  if vs.any Num.isNan then (fmtF32.nan, flagNV)
  else if pos && neg then (fmtF32.nan, flagNV)
  else
    let r := fmtF32.round .rn false v
    (r.1, r.2 ||| fl)

/-- `.min.f32` and `.max.f32` as a chain of `FMIN` or `FMAX`; a single lane with itself (R158). -/
def chainF32 (isMax : Bool) : List Nat → Nat × BitVec 5
  | [] => (0, 0)
  | x :: xs => (x :: xs).foldl (fun (acc : Nat × BitVec 5) y =>
      let r := floatMinMax fmtF32 isMax false acc.1 y
      (r.1, acc.2 ||| r.2)) (x, 0)

/-- A reduction of a nonempty list of values (R158). -/
def gredVal (op : RedOp) (ty : Ty) (xs : List DWord) : DWord × BitVec 5 :=
  match ty, op with
  | .f32, .add => let r := sumF32 (xs.map fun x => x.toNat); (BitVec.ofNat 64 r.1, r.2)
  | .f32, .min => let r := chainF32 false (xs.map fun x => x.toNat); (BitVec.ofNat 64 r.1, r.2)
  | .f32, .max => let r := chainF32 true (xs.map fun x => x.toNat); (BitVec.ofNat 64 r.1, r.2)
  | _, .and => (xs.foldl (· &&& ·) (~~~0), 0)
  | _, .or => (xs.foldl (· ||| ·) 0, 0)
  | _, .xor => (xs.foldl (· ^^^ ·) 0, 0)
  | t, .add => (writeInt t ((xs.map (readInt t)).foldl (· + ·) 0), 0)
  | t, .min => (writeInt t ((xs.map (readInt t)).foldl (fun a b => if a ≤ b then a else b) (intMax t)), 0)
  | t, .max => (writeInt t ((xs.map (readInt t)).foldl (fun a b => if a ≤ b then b else a) (intMin t)), 0)

/-- `GRED` (R158). -/
def execGred (p : Pre) (op : RedOp) (ty : Ty) (d a : Reg) (s : State) : Result :=
  .next (s.aluFlags p 6 (Ty.is2 ty) d (fun _ => .uniform) fun wp l =>
    gredVal op ty ((wp.segLanes (wp.execMask p) l).map fun j => wp.val (Ty.is2 ty) a j))

end Sys2Proof.Machine
end

