-- ==== Sys2Proof/Machine/Translate.lean ====
section
/-! DEFINITION. Apertures and the two translation stages (R160 to R163, R176 to R181, R282, R388, R389). -/

namespace Sys2Proof.Machine

/-- Kinds of access that a translation judges (R388). -/
inductive Access | load | store | atomic | fetch
deriving DecidableEq, Repr

/-- Who asks for a translation: the agent that caches it (a core's number, or `engineAgent`), the context, the
function, whether `US` 0 forbids the access (R388), and whether an engine asks (R389). -/
structure Asker where
  agent : Nat
  ctx : Nat
  fn : Nat
  user : Bool
  engine : Bool
deriving DecidableEq, Repr

/-- The numbers of an engine (engine `k` of die `d` is `d * 16 + k`: 0 to 7 copy, 8 and 9 gather, 10 reduce; R15), of a die's command processor
and of the concourse that moves its galleries. Cores and
engines cache translations (R180); the other two translate afresh (assumption 17). -/
def engineAgent (eng : Nat) : Nat := 0x10000 + eng
def cpAgent (die : Nat) : Nat := 0x20000 + die
def galleryAgent (die : Nat) : Nat := 0x30000 + die
/-- Whether an agent is a core or an engine (R180). -/
def cachesXlats (agent : Nat) : Bool := agent < cpAgent 0

/-- A failure of an access: the cause, its detail word, the address that failed, and for stage two the virtual address
(R388, R389). -/
structure XErr where
  code : Nat
  detail : Word
  addr : DWord
  pc : Option DWord
deriving DecidableEq, Repr

/-- Causes that send a store to the side log (R388, R392). -/
def XErr.toLog (e : XErr) : Bool := e.code == 0x71 || e.code == 0x7E || e.code == 0x7F || e.code == 0x81

/-! ### The address map -/

def spadWindow : Nat := 0xFFFF_FF00_0000_0000
def stackWindow : Nat := 0xFFFF_FF80_0000_0000

/-- The apertures of R160. -/
inductive Aperture
  | spad (off : Nat)
  | unimpl
  | stack (off : Nat)
  | global
deriving DecidableEq, Repr

/-- The aperture of an address: the first row of R160 that matches. -/
def aperture (a : DWord) : Aperture :=
  let n := a.toNat
  if spadWindow ≤ n ∧ n < spadWindow + 0x10_0000 then .spad (n - spadWindow)
  else if spadWindow ≤ n ∧ n < spadWindow + 0x100_0000 then .unimpl
  else if stackWindow ≤ n then .stack (n - stackWindow)
  else .global

/-- The home die of a host-physical address (R13). -/
def homeDie (pa : Nat) : Nat := pa / Config.diePhys

/-- Whether a host-physical address lies in a control window (R282). -/
def inWindow (pa : Nat) : Bool := decide (Config.physTop ≤ pa ∧ pa < Config.physTop + 4 * 0x40_0000)

/-- A page crossing that memory does not hold: a control window or no memory at all (R362). -/
def physFault (pa : Nat) : Option Nat :=
  if pa < Config.physTop then none else if inWindow pa then some 0x59 else some 0x5A

/-- The die and the offset of a host-physical address in a management page (R282). -/
def mgmtAt (pa : Nat) : Option (Nat × Nat) :=
  let off := (pa - Config.physTop) % 0x40_0000
  if inWindow pa ∧ 0x20_0000 ≤ off then some ((pa - Config.physTop) / 0x40_0000, off - 0x20_0000) else none

/-- Why an asker cannot reach a host-physical address; porter firmware reaches the management pages (R282, R362). -/
def Asker.physFault (q : Asker) (pa : Nat) : Option Nat :=
  if isPorter q.agent && !q.user && (mgmtAt pa).isSome then none else Sys2Proof.Machine.physFault pa

/-- Stage two (R181): the physical function's addresses are host-physical. -/
def State.stageTwo (s : State) (f g : Nat) : Option Nat :=
  if f = 0 then some g
  else if g < (s.fn f).s2bound.toNat then some ((s.fn f).s2base.toNat + g) else none

/-! ### Stage one -/

/-- The fields of a table entry (R177). -/
def pteValid (e : DWord) : Bool := e.getLsbD 0
def pteRd (e : DWord) : Bool := e.getLsbD 1
def pteWr (e : DWord) : Bool := e.getLsbD 2
def pteUs (e : DWord) : Bool := e.getLsbD 3
def pteAc (e : DWord) : Bool := e.getLsbD 8
def pteLf (e : DWord) : Bool := e.getLsbD 10
def pteCt (e : DWord) : Bool := e.getLsbD 11
def pteNx (e : DWord) : Bool := e.getLsbD 63
def ptePa (e : DWord) : Nat := fieldN e 47 12 * 4096
def pteOwn (e : DWord) : Nat := fieldN e 57 51
def ptePcl (e : DWord) : Nat := fieldN e 59 58
/-- Bits compared across a run (R178): `NX`, `LF`, `US`, `WR`, `RD`. -/
def ptePerm (e : DWord) : DWord := e &&& 0x8000_0000_0000_040E
/-- Reserved bits of every entry, and the bits that only a leaf has (R177). -/
def pteRsvd : DWord := 0x7007_0000_0000_00F0
def pteLeafOnly : DWord := 0x8FF8_0000_0000_030E

/-- The index of a virtual address at a level (R176). -/
def vaIndex (va : DWord) (lvl : Nat) : Nat :=
  if lvl = 5 then va.toNat / 2 ^ 57 else va.toNat / 2 ^ (12 + 9 * lvl) % 512

/-- The bytes that a leaf of a level maps (R176). -/
def leafSize (lvl : Nat) : Nat := 2 ^ (12 + 9 * lvl)

/-- Whether an entry is a leaf (R176, R177). -/
def isLeaf (lvl : Nat) (e : DWord) : Bool := lvl == 0 || (decide (lvl ≤ 2) && pteLf e)

/-- What a broken form of an entry raises, before its run and its class are judged (R388). DESIGN CHOICE (assumption 93): `CT` in an
entry that is no leaf is ignored, since R177 and R388 name no check of it. -/
def pteForm (lvl : Nat) (e : DWord) : Option Nat :=
  let leaf := isLeaf lvl e
  if e &&& pteRsvd ≠ 0 ∨ (!leaf ∧ e &&& pteLeafOnly ≠ 0) then some 0x78
  else if (lvl = 0 ∧ !pteLf e) ∨ (3 ≤ lvl ∧ pteLf e) then some 0x79
  else if leaf ∧ ptePa e % leafSize lvl ≠ 0 then some 0x7A
  else none

/-- Whether the sixteen leaves of a run are whole (R178). DESIGN CHOICE (assumption 93): `VL` of the other fifteen entries is not
looked at. -/
def runWhole (lvl : Nat) (es : List DWord) (e : DWord) : Bool :=
  let pa0 := ptePa (es.getD 0 0)
  pa0 % (16 * leafSize lvl) == 0 &&
    (List.range 16).all fun k =>
      let x := es.getD k 0
      pteCt x && ptePerm x == ptePerm e && ptePa x == pa0 + k * leafSize lvl

/-- `DETAIL` of R389. -/
def walkDetail (q : Asker) (acc : Access) (lvl : Nat) : Word :=
  BitVec.ofNat 32 (lvl + (if acc = .store ∨ acc = .atomic then 8 else 0) + (if acc = .fetch then 16 else 0)
    + (if q.engine then 32 else 0) + 64 * q.fn)

/-- The not-present cause of an access (R388). -/
def pfCode : Access → Nat
  | .load => 0x70
  | .store => 0x71
  | .atomic => 0x72
  | .fetch => 0x73

/-- Where a walk ends: the guest-physical page, and the entry, with the host-physical address of the entry that keeps its
`PCL`, `OWN`, `AC` and `DY`. -/
structure Leaf where
  gpa : Nat
  entry : DWord
  at_ : Nat
  lvl : Nat
deriving DecidableEq, Repr

/-- One walk of the radix table, entry by entry from the root (R176, R388). DESIGN CHOICE (assumption 106): R362 and R388 name no cause for an entry
at or above 0x90_0000_0000, where no memory lies (R13); it reads as 0, and is not present. -/
def State.walk (s : State) (q : Asker) (acc : Access) (va : DWord) : List Nat → Nat → Except XErr Leaf
  | [], _ => .error ⟨pfCode acc, walkDetail q acc 7, va, none⟩
  | lvl :: rest, table =>
    let i := vaIndex va lvl
    let ga := table + 8 * i
    match s.stageTwo q.fn ga with
    | none => .error ⟨0x7F, walkDetail q acc lvl, BitVec.ofNat 64 ga, some va⟩
    | some a =>
      let e := s.mem.dword a
      let fault := fun code => Except.error (XErr.mk code (walkDetail q acc lvl) va none)
      if !pteValid e then fault (pfCode acc)
      else match pteForm lvl e with
        | some code => fault code
        | none =>
          if !isLeaf lvl e then s.walk q acc va rest (ptePa e)
          else
            let first := if pteCt e then a - 8 * (i % 16) else a
            if pteCt e && !runWhole lvl ((List.range 16).map fun k => s.mem.dword (first + 8 * k)) e then fault 0x7B
            else if ptePcl (s.mem.dword first) = 3 then fault 0x7C
            else
              let size := leafSize lvl
              .ok ⟨ptePa e - ptePa e % size + (va.toNat % size - va.toNat % 4096), e, first, lvl⟩

/-- The permission that an access needs and a page refuses (R388). -/
def permFault (acc : Access) (user us rd wr nx : Bool) : Option Nat :=
  if user && !us then some 0x77
  else match acc with
    | .load => if rd then none else some 0x74
    | .store => if wr then none else some 0x75
    | .atomic => if !rd then some 0x74 else if wr then none else some 0x75
    | .fetch => if nx then some 0x76 else none

/-- A cached translation of an agent (R180). -/
def State.cached (s : State) (q : Asker) (va : DWord) : Option Xlat :=
  s.xlats.find? fun x => x.agent == q.agent && x.ctx == q.ctx && x.fn == q.fn && x.vpage == va.toNat / 4096

/-- The translation that a leaf gives an agent at a host-physical page (R178, R180). -/
def Leaf.xlat (lf : Leaf) (q : Asker) (va : DWord) (pa : Nat) : Xlat :=
  let e := lf.entry
  ⟨q.agent, q.ctx, q.fn, va.toNat / 4096, pa / 4096, lf.at_,
    leafSize lf.lvl * (if pteCt e then 16 else 1), pteNx e, pteUs e, pteWr e, pteRd e⟩

/-- The first byte of the page of a translation in host-physical memory (R167, R178). -/
def Xlat.base (x : Xlat) : Nat := x.frame * 4096 - x.vpage * 4096 % x.size

/-- The levels of a walk, from the root (R176). -/
def walkLevels : List Nat := [5, 4, 3, 2, 1, 0]

/-- A virtual address translated: through the cached entry where the agent holds one, else by a walk, and then judged
(R180, R388). -/
def State.xlate (s : State) (q : Asker) (acc : Access) (va : DWord) : Except XErr Xlat :=
  let judge := fun (x : Xlat) (lvl : Nat) =>
    match permFault acc q.user x.us x.rd x.wr x.nx with
    | some code => Except.error (XErr.mk code (walkDetail q acc lvl) va none)
    | none => .ok x
  match s.cached q va with
  | some x => judge x 7
  | none =>
    match s.ctxs.find q.ctx with
    | none => .error ⟨0x7D, walkDetail q acc 7, va, none⟩
    | some c =>
      match s.stageTwo q.fn c.root.toNat with
      | none => .error ⟨0x7D, walkDetail q acc 7, va, none⟩
      | some _ =>
        if c.rootBad ∨ c.root.toNat % 4096 ≠ 0 then .error ⟨0x7D, walkDetail q acc 7, va, none⟩
        else match s.walk q acc va walkLevels c.root.toNat with
          | .error e => .error e
          | .ok lf =>
            let e := lf.entry
            match permFault acc q.user (pteUs e) (pteRd e) (pteWr e) (pteNx e) with
            | some code => .error ⟨code, walkDetail q acc lf.lvl, va, none⟩
            | none =>
              match s.stageTwo q.fn lf.gpa with
              | none => .error ⟨if acc = .fetch then 0x80 else 0x7E, walkDetail q acc lf.lvl,
                  BitVec.ofNat 64 (lf.gpa + va.toNat % 4096), some va⟩
              | some pa => .ok (lf.xlat q va pa)

/-! ### Places -/

/-- The bytes of a group's scratchpad view (R161): its own allocation, then its attached galleries. -/
def State.viewPlace (s : State) (gid off : Nat) : Option Loc :=
  match s.group gid with
  | none => none
  | some x =>
    let own := ((s.launches.find x.launch).map Launch.spu).getD 0 * 16384
    if x.placed && decide (off < own) then some (.spad x.core (x.spadBase * 16384 + off))
    else
      let ctx := s.ctxOf gid
      if !x.placed then none else x.gals.findSome? fun (name, view) =>
        match s.gals.find? fun e => e.2.name == name && e.2.ctx == ctx with
        | none => none
        | some (_, e) =>
          if view ≤ off ∧ off < view + e.size * 16384 then some (.spad e.core (e.sbase * 16384 + (off - view))) else none

/-- The threads of a launch (R28, R162). -/
def Launch.threads (l : Launch) : Nat := l.groups * l.segs * l.width

/-- The place of an access, and the translation it uses (R160 to R163, R362, R388). -/
structure Place where
  loc : Loc
  xlat : Option Xlat
deriving DecidableEq, Repr

/-- The place of an access of `size` bytes by a thread of group `gid` (R160 to R163, R362). -/
def State.place (s : State) (q : Asker) (gid : Nat) (acc : Access) (size : Nat) (va : DWord) : Except XErr Place :=
  let fault := fun code => Except.error (XErr.mk code (BitVec.ofNat 32 size) va none)
  if va.toNat % size ≠ 0 then fault 0x50
  else match aperture va with
    | .unimpl => fault 0x53
    | .spad off =>
      match s.viewPlace gid off with
      | some loc => .ok ⟨loc, none⟩
      | none => fault 0x54
    | .stack off =>
      match (s.launchOf gid).bind Launch.stack with
      | none => fault 0x55
      | some base =>
        if ((s.launchOf gid).map Launch.threads).getD 0 * 0x8_0000 ≤ off then fault 0x56
        else if 2 ^ 20 ≤ off / 0x8_0000 then fault 0x57
        else
          let ga := base.toNat + off
          match s.stageTwo q.fn ga with
          | none => .error ⟨0x81, walkDetail q acc 7, BitVec.ofNat 64 ga, some va⟩
          | some pa =>
            match physFault pa with
            | some code => fault code
            | none => .ok ⟨.hbm pa, none⟩
    | .global =>
      match s.xlate q acc va with
      | .error e => .error e
      | .ok x =>
        let pa := x.frame * 4096 + va.toNat % 4096
        match q.physFault pa with
        | some code => fault code
        | none => .ok ⟨.hbm pa, some x⟩

/-- The asker for a lane of a warp. -/
def State.laneAsker (s : State) (w l : Nat) : Asker :=
  match (s.warp w).segOf l with
  | none => ⟨coreOf w, 0, 0, true, false⟩
  | some g => ⟨coreOf w, s.ctxOf g.gid, s.fnOf g.gid, g.grade l != .firmware, false⟩

/-- The group of a slot lane. -/
def Warp.gidOf (wp : Warp) (l : Nat) : Nat := ((wp.segOf l).map Seg.gid).getD 0

/-- The place of a lane's access. -/
def State.lanePlace (s : State) (w l : Nat) (acc : Access) (size : Nat) (va : DWord) : Except XErr Place :=
  s.place (s.laneAsker w l) ((s.warp w).gidOf l) acc size va

/-- The host-physical address of a word to fetch (R160, R356, R388). -/
def State.fetchPlace (s : State) (q : Asker) (va : DWord) : Except XErr Nat :=
  match aperture va with
  | .global =>
    match s.xlate q .fetch va with
    | .error e => .error e
    | .ok x =>
      let pa := x.frame * 4096 + va.toNat % 4096
      match physFault pa with
      | some code => .error ⟨code, 8, va, none⟩
      | none => .ok pa
  | _ => .error ⟨0x58, 8, va, none⟩

/-- A translation kept in the cache of its agent, if that agent has one (R180). -/
def State.keepXlat (s : State) (x : Xlat) : State :=
  if !cachesXlats x.agent || s.xlats.contains x then s else { s with xlats := s.xlats ++ [x] }

/-- What a failed translation leaves behind (R388, R391): a bad root stays bad until the context ends, and a translation that its permissions
refuse is cached as any other, so that a changed permission is not seen without `TLBI`. -/
def State.met (s : State) (q : Asker) (e : XErr) (va : DWord) : State :=
  if e.code = 0x7D then { s with ctxs := s.ctxs.alter q.ctx fun (c : Ctx) => { c with rootBad := true } }
  else if e.code < 0x74 ∨ 0x77 < e.code then s
  else match s.ctxs.find q.ctx with
    | none => s
    | some c =>
      match s.walk q .load va walkLevels c.root.toNat with
      | .error _ => s
      | .ok lf =>
        match s.stageTwo q.fn lf.gpa with
        | some pa => if (s.cached q va).isSome then s else s.keepXlat (lf.xlat q va pa)
        | none => s

/-- What the failed accesses of the lanes of a cause leave behind. -/
def State.metAll (s : State) (w lb : Nat) (r : Raise) : State :=
  (lanesOf r.mask).foldl (fun s j =>
    let va := r.addrs.getD j 0
    s.met (s.laneAsker w (lb + j)) ⟨r.code, r.detail, va, none⟩ va) s

/-- The segment at `lb` of warp `w` takes a cause at the current slot of the warp's clause. -/
def State.takeAt (s : State) (w lb : Nat) (r : Raise) : State :=
  ((s.metAll w lb r).onWarp w fun wp => wp.takeHere lb r s.now).announce w lb

/-- Several segments take their causes at the current slot. -/
def State.takeAll (s : State) (w : Nat) (rs : List (Nat × Raise)) : State :=
  rs.foldl (fun s r => s.takeAt w r.1 r.2) s

end Sys2Proof.Machine
end

