-- ==== Sys2Proof/Machine/Order.lean ====
section
/-! DEFINITION. The ordering machine: the lease clock, signatures and hits, the directory and the annexes, windows, early
reads, commit, rollback, side logs (R164 to R173, R197 to R209, R380, R381, R390, R392, R409). -/

namespace Sys2Proof.Machine

/-! ### Time -/

/-- The top of the lease clock (R169). -/
def leaseTop : Nat := 0xFFFF_FFFF

/-- `n` core cycles pass; the lease clock ticks every 16 of them and stands at its top until the wrap (R169, R172). -/
def State.tick (s : State) (n : Nat) : State :=
  let t := (s.now + n) / 16 - s.now / 16
  let c := min (s.leaseClock.toNat + t) leaseTop
  { s with
    now := s.now + n
    leaseClock := BitVec.ofNat 32 c
    wrapAt := if c = leaseTop ∧ s.wrapAt.isNone then some (s.now + n) else s.wrapAt }

/-! ### Places and signatures -/

/-- The line of a place, or its scratchpad block, as a number; lines sort by address (R164, R202). -/
def Loc.line : Loc → Nat
  | .hbm pa => pa / 128
  | .spad core off => 2 ^ 60 + core * 2 ^ 13 + off / 128

/-- The signature bit of a place (R202). -/
def Loc.sig : Loc → Nat
  | .hbm pa =>
    let l := BitVec.ofNat 41 (pa / 128)
    (l.extractLsb' 0 10 ^^^ l.extractLsb' 10 10 ^^^ l.extractLsb' 20 10 ^^^ l.extractLsb' 30 10
      ^^^ (l.extractLsb' 40 1).setWidth 10).toNat
  | .spad _ off =>
    let k := BitVec.ofNat 13 (off / 128)
    (k.extractLsb' 0 10 ^^^ (k.extractLsb' 10 3).setWidth 10 ^^^ 0x2AA#10).toNat

/-- The place `j` bytes on. -/
def Loc.add (l : Loc) (j : Nat) : Loc :=
  match l with
  | .hbm pa => .hbm (pa + j)
  | .spad c o => .spad c (o + j)

/-- Whether a place is homed on another die than a core's (R164). -/
def Loc.remote (l : Loc) (die : Nat) : Bool :=
  match l with
  | .hbm pa => homeDie pa != die
  | .spad _ _ => false

/-- The physical scratchpad's address of a byte. -/
def spadAddr (core off : Nat) : Nat := core * 2 ^ 20 + off

/-- The value of `n` bytes at a place. -/
def State.readLoc (s : State) (l : Loc) (n : Nat) : Nat :=
  match l with
  | .hbm pa => s.mem.nat pa n
  | .spad c o => s.spad.nat (spadAddr c o) n

/-- A register of a management page as an aligned 64-bit read finds it (R285, R348, R393, R415); every other offset reads 0. -/
def State.mgmtReg (s : State) (die off : Nat) : Nat :=
  let l := s.lodge
  let sub := off % 64
  if 0x2000 ≤ off ∧ off < 0x2800 then
    let x := s.fn ((off - 0x2000) / 64)
    if sub = 0 then x.clbase.toNat
    else if sub = 8 then x.clsize
    else if sub = 16 then x.clwr.toNat + 2 ^ 48 * x.cllost
    else if sub = 24 then x.clrd.toNat
    else 0
  else if 0x5010 ≤ off ∧ off < 0x5200 then
    let x := s.fn ((off - 0x5000) / 16)
    if off % 16 = 0 then x.s2base.toNat else x.s2bound.toNat
  else if 0x6000 ≤ off ∧ off < 0x6400 then
    let e := l.wake.getD ((off - 0x6000) / 64) ⟨0, 0, 0, 0, false⟩
    if sub = 0 then e.value.toNat % 2 ^ 64
    else if sub = 8 then e.value.toNat / 2 ^ 64
    else if sub = 16 then e.mask.toNat % 2 ^ 64
    else if sub = 24 then e.mask.toNat / 2 ^ 64
    else if sub = 32 then e.ports.toNat + 2 ^ 32 * e.die + (if e.enable then 2 ^ 63 else 0)
    else 0
  else if 0x8000 ≤ off ∧ off < 0xA000 then
    let e := (s.fn ((off - 0x8000) / 256)).msix.getD ((off - 0x8000) % 256 / 16) ⟨0, 0, true⟩
    if off % 16 = 0 then e.addr.toNat else e.data.toNat + (if e.masked then 2 ^ 32 else 0)
  else if off = 0x3000 then l.txBase.toNat
  else if off = 0x3008 then l.txCnt.toNat
  else if off = 0x4008 then l.attStat
  else if off = 0x5800 then (s.die die).lterm
  else if off = 0x5808 then (s.die die).stealDly
  else if off = 0x5810 then (s.die die).galWait
  else if off = 0x5818 then l.pkgNum.toNat
  else if off = 0x6400 then l.wfUnmatched + 2 ^ 32 * l.wfFull
  else if off = 0x7000 then l.fwAddr.toNat
  else if off = 0x7008 then l.fwLen.toNat
  else if off = 0x7018 then l.fwStat
  else 0

/-- Whether an access of a management page is of a width that its registers take: 64 bits, and 32 in the MSI-X tables (R282, R283). -/
def mgmtWidth (off n : Nat) : Bool := n == 8 || (n == 4 && decide (0x8000 ≤ off ∧ off < 0xA000))

/-- What a read of `n` bytes of a management page gives; one of another width gives 0 (R282). -/
def State.mgmtRead (s : State) (die off n : Nat) : Nat :=
  if mgmtWidth off n then s.mgmtReg die (off / 8 * 8) / 2 ^ (8 * (off % 8)) % 2 ^ (8 * n) else 0

/-- The row by which a write of a management page acts (R285, R348, R351, R353, R395, R412, R413, R415). -/
def mgmtRow (die off n : Nat) (v : DWord) : Instr :=
  if n = 4 then .registerWrite die .mgmt32 off v
  else if 0x2000 ≤ off ∧ off < 0x2800 ∧ off % 64 = 32 then
    if v.getLsbD 63 then .clrelEnd ((off - 0x2000) / 64) (v.toNat % 65536) else .clrelResume ((off - 0x2000) / 64) (v.toNat % 65536)
  else if 0x5010 ≤ off ∧ off < 0x5200 then .s2SegmentWrite ((off - 0x5000) / 16) (off % 16 != 0) v
  else if off = 0x1000 then .registerWrite die .mgmtPorter off v
  else if off = 0x1008 then .objdel die v
  else if off = 0x4000 then .attreq v
  else if off = 0x6400 then .wfdropClear
  else if off = 0x7010 then (if v.getLsbD 0 then .fwcmdPorter else .fwcmdLodge)
  else if off = 0x7020 then .modrst v
  else .registerWrite die .mgmt off v

/-- Byte `j` of a read of `n` bytes at a place (R282). -/
def State.byteOf (s : State) (l : Loc) (n j : Nat) : Byte :=
  match l with
  | .hbm pa =>
    match mgmtAt pa with
    | some (die, off) => BitVec.ofNat 8 (s.mgmtRead die off n / 2 ^ (8 * j))
    | none => BitVec.ofNat 8 (s.readLoc (l.add j) 1)
  | .spad _ _ => BitVec.ofNat 8 (s.readLoc (l.add j) 1)

/-- The poison of the granules that bytes lie in (R409). -/
def granules (a n : Nat) : List Nat := (List.range ((a + n + 31) / 32 - a / 32)).map (a / 32 + ·)

/-- Whether bytes at a place are poisoned (R409). -/
def State.poisoned (s : State) (l : Loc) (n : Nat) : Bool :=
  match l with
  | .hbm pa => (granules pa n).any s.poison.contains
  | .spad c o => (granules (spadAddr c o) n).any s.poisonSpad.contains

/-- A list of granules after a write: a granule written whole is clean (R409). -/
def cleanGranules (p : List Nat) (a n : Nat) : List Nat := p.filter fun g => !(decide (a ≤ 32 * g ∧ 32 * g + 32 ≤ a + n))

/-- `n` bytes written at a place (R409); a write of a management page moves its row, and one of another width is discarded (R282). -/
def State.writeLoc (s : State) (l : Loc) (n v : Nat) : State :=
  match l with
  | .hbm pa =>
    match mgmtAt pa with
    | some (die, off) => if mgmtWidth off n then s.later (mgmtRow die off n (BitVec.ofNat 64 v)) else s
    | none => { s with mem := s.mem.store pa n v, poison := cleanGranules s.poison pa n }
  | .spad c o =>
    { s with spad := s.spad.store (spadAddr c o) n v, poisonSpad := cleanGranules s.poisonSpad (spadAddr c o) n }

/-- Every open window that satisfies a test takes a hit (R200, R202). -/
def State.hitWhere (s : State) (p : Nat → Window → Bool) : State :=
  { s with warps := s.warps.mapV fun k wp =>
      match wp.window with
      | some x => if p k x then { wp with window := some { x with hit := true } } else wp
      | none => wp }

/-- A write to a place tests the signatures of every other warp: of every warp for memory, of the core's own for its
scratchpad (R202). -/
def State.hitLoc (s : State) (but : Option Nat) (l : Loc) : State :=
  s.hitWhere fun k x => decide (some k ≠ but) && x.sig.getLsbD l.sig &&
    (match l with
      | .hbm _ => true
      | .spad c _ => coreOf k == c)

/-- The lines that `n` bytes at a place touch, by their first bytes. -/
def linesOf (l : Loc) (n : Nat) : List Loc :=
  let off := match l with
    | .hbm pa => pa % 128
    | .spad _ o => o % 128
  (List.range ((off + n + 127) / 128)).map fun k => if k = 0 then l else l.add (128 * k - off)

/-- A write performed at its serialisation point (R198, R200). -/
def State.perform (s : State) (but : Option Nat) (l : Loc) (n v : Nat) : State :=
  (linesOf l n).foldl (fun s x => s.hitLoc but x) (s.writeLoc l n v)

/-! ### Sets, ways and replacement (R164, R182, R183, R217) -/

/-- Fields of a host-physical address joined by exclusive or: `w` bits from each of the given places. -/
def foldBits (pa w : Nat) (at_ : List Nat) : Nat := at_.foldl (fun k lo => k ^^^ pa / 2 ^ lo % 2 ^ w) 0

/-- The L2 set, the L2 slice, the annex set and the annex slice of a host-physical address (R183). -/
def l2Set (pa : Nat) : Nat := pa / 2 ^ 13 % 2 ^ 10
def l2Slice (pa : Nat) : Nat := foldBits pa 6 [7, 23, 29] ^^^ pa / 2 ^ 35 % 2 ^ 5
def anxSet (pa : Nat) : Nat := pa / 2 ^ 13 % 2 ^ 10
def anxSlice (pa : Nat) : Nat := foldBits pa 4 [7, 23, 27, 31, 35] ^^^ pa / 2 ^ 39 % 2

/-- The colour of a 4 KiB page (R183). -/
def pageColour (pa : Nat) : Nat := l2Set pa

/-- Which lines of a set are replaced first: those at its replacement end, then unhinted ones, then those of `.ro`, then those that
`.keep` protects (R217). -/
def hintRank : Hint → Nat
  | .nt => 0
  | .none => 1
  | .ro => 2
  | .keep => 3

/-- Whether a line of a set is replaced before another: by its hint, then the one used longer ago (R217; assumption 86). -/
def Way.before (a b : Way) : Bool :=
  decide (hintRank a.hint < hintRank b.hint ∨ (hintRank a.hint = hintRank b.hint ∧ a.used < b.used))

/-- The line of a set of `ways` places that a fill replaces; none while a place is free. -/
def replaced (ways : Nat) (lines : List (Nat × Way)) : Option Nat :=
  if lines.length < ways then none
  else (lines.foldl (fun (b : Option (Nat × Way)) q =>
    match b with
    | none => some q
    | some x => if q.2.before x.2 then some q else some x) none).map Prod.fst

/-- A line used again at a cycle; `.keep` protects it from then on (R217). -/
def Way.use (x : Way) (hint : Hint) (now : Nat) : Way := ⟨if hint = .keep then .keep else x.hint, now⟩

/-- The hint that an L2 or an annex keeps: `.ro` fills as an unhinted access does (R217). -/
def outerHint (hint : Hint) : Hint := if hint = .ro then .none else hint

/-- A poisoned granule that nothing uses is posted (R410). -/
def State.postIdle (s : State) (die granule : Nat) : State :=
  s.post 0xB4 { addr := BitVec.ofNat 64 (32 * granule), detail := Config.openDetail 0xB4, die := die }

/-- Memory bytes leave a cache, discarded or written back: their poison is posted (R410). -/
def State.idlePoison (s : State) (die pa n : Nat) : State :=
  ((granules pa n).filter s.poison.contains).foldl (fun s g => s.postIdle die g) s

/-- Code lines of a core leave its instruction cache; poison in them, which nothing has executed, is posted (R410). -/
def State.dropCode (s : State) (core : Nat) (p : CodeLine → Bool) : State :=
  let gone := ((s.core core).icache.filter p).flatMap CodeLine.bad
  (gone.foldl (fun s g => s.post 0xB5
    { addr := BitVec.ofNat 64 (32 * g), detail := Config.openDetail 0xB5, die := core / 256, core := core % 256 }) s).onCore core fun c =>
      { c with icache := c.icache.filter fun x => !p x }

/-- How many places of a cache of a die have been fenced off, among the locations that satisfy a test (R408; assumption 68). -/
def State.fencedOff (s : State) (unit die : Nat) (mine : Nat → Bool) : Nat :=
  (s.retired.filter fun q => q.1 == die && q.2.1 == unit && mine q.2.2.toNat).length

/-- What is left of the `n` lines of a core's L1 (unit 5) or instruction cache (unit 6). -/
def State.placesLeft (s : State) (unit core n : Nat) : Nat :=
  n - s.fencedOff unit (core / 256) fun a => a / 2 ^ 41 == core % 256

/-- Whether two addresses belong to one set of one slice of an L2 or of an annex (R183). -/
def sameL2 (a b : Nat) : Bool := homeDie a == homeDie b && l2Slice a == l2Slice b && l2Set a == l2Set b
def sameAnx (a b : Nat) : Bool := anxSlice a == anxSlice b && anxSet a == anxSet b

/-- A place in a line's L2 set: a line is replaced if none is free (R164, R217, R408). -/
def State.roomL2 (s : State) (line : Nat) : State :=
  let die := homeDie (line * 128)
  let ways := Config.ways - s.fencedOff 1 die (sameL2 (line * 128))
  match replaced ways (s.l2.filter fun q => sameL2 (q.1 * 128) (line * 128)) with
  | some k => { s.idlePoison die (k * 128) 128 with l2 := s.l2.del k }
  | none => s

/-- A line of its home die's L2 is used, or filled in its set of sixteen ways (R14, R164, R183); what lies above memory is homed nowhere
(R13). -/
def State.useL2 (s : State) (line : Nat) (hint : Hint) : State :=
  if Config.physTop ≤ line * 128 then s
  else match s.l2.find line with
  | some x => { s with l2 := s.l2.put line (x.use hint s.now) }
  | none =>
    let s := s.roomL2 line
    { s with l2 := s.l2.put line ⟨outerHint hint, s.now⟩ }

/-! ### Directories, leases and annexes -/

/-- Keys of an L1 line of a core and of an annex line of a die. -/
def l1Key (core line : Nat) : Nat := core * 2 ^ 34 + line
def annexKey (die line : Nat) : Nat := die * 2 ^ 34 + line

/-- The core of a die by its local number. -/
def coreNo (die k : Nat) : Nat := die * 256 + k

/-- The directory entry of a line (R166). -/
def State.dir (s : State) (line : Nat) : DirEnt := (s.directory.find line).getD ⟨0, none⟩

/-- The latest lease expiry that the home slice holds for a line (R169). -/
def State.leaseEnd (s : State) (line : Nat) : Option Nat := s.leases.find line

/-- Whether every annex lease on a line has expired: the count exceeds the latest expiry (R169, R170). -/
def State.leaseFree (s : State) (line : Nat) : Bool :=
  match s.leaseEnd line with
  | none => true
  | some e => decide (e < s.leaseClock.toNat)

/-- Whether a serial pass favours a warp (R382). -/
def State.favours (s : State) (w : Nat) : Bool := s.dies.any fun d => d.serial.warp == some w

/-- Whether a request at a home slice is one of a warp that a serial pass favours, its updates of leaf entries among them (R382). -/
def State.favoured (s : State) (o : HomeOp) : Bool :=
  match o.loc, o.fn with
  | .spad .., _ => false
  | _, .claim (.commit w) => s.favours w
  | _, .claim _ | _, .nodeArrival _ => false
  | _, _ => s.favours o.warp

/-- Whether a die holds its new remote requests: a wrap is under way, or the die was late at one (R172), until the host releases it and what it
was late with is complete (R386). -/
def State.wrapHolds (s : State) (die : Nat) : Bool :=
  s.wrapAt.isSome || (s.die die).wrapLate || s.homeOps.any fun o => o.stage == .late && o.die == die

/-- Whether new requests of a die for a place are held by a wrap (R172). -/
def State.wrapHeld (s : State) (die : Nat) (l : Loc) : Bool := l.remote die && s.wrapHolds die

/-- Whether a request has reached the home slice of a line: one that a wrap held at its die leaves when the die may send again (R172). -/
def State.atHome (s : State) (line : Nat) (o : HomeOp) : Bool := o.loc.line == line && (o.stage != .unsent || !s.wrapHolds o.die)

/-- The request that is performed next on a line: a favoured one, else the one that reached the home slice first (R170, R382). -/
def State.nextAt (s : State) (line : Nat) : Option HomeOp :=
  match s.homeOps.find? fun o => s.atHome line o && s.favoured o with
  | some o => some o
  | none => s.homeOps.find? (s.atHome line)

/-- Whether an operation or a claim waits on a line: the home slice grants no lease and holds read requests (R166, R170). -/
def State.lineHeld (s : State) (line : Nat) : Bool := s.homeOps.any (s.atHome line)

/-- Whether an operation that reaches the home slice of a line now is performed at once (R170). -/
def State.lineReady (s : State) (line : Nat) : Bool := s.leaseFree line && !s.lineHeld line

/-- Whether a die's annex sleeps with a wrap count that is no longer the package's: its lines go before it serves a request (R173). -/
def State.annexStale (s : State) (die : Nat) : Bool := (s.die die).sleep.asleep && (s.die die).sleep.kept != s.wrapCount

/-- Whether a die's annex holds a line under an unexpired lease (R169, R173). -/
def State.annexHolds (s : State) (die line : Nat) : Bool :=
  match s.annex.find (annexKey die line) with
  | none => false
  | some e => decide (s.leaseClock.toNat < e.expiry) && !s.annexStale die

/-- The annex lines of a die that satisfy a test become invalid, with the L1 copies that the annex served (R171); their poison is posted
(R410). -/
def State.dropAnnexLines (s : State) (die : Nat) (p : Nat → Bool) : State :=
  let gone := s.annex.filter fun q => q.1 / 2 ^ 34 == die && p (q.1 % 2 ^ 34)
  let s := gone.foldl (fun s q => s.idlePoison die (q.1 % 2 ^ 34 * 128) 128) s
  { s with
    annex := s.annex.filter fun q => !(q.1 / 2 ^ 34 == die && p (q.1 % 2 ^ 34))
    l1 := s.l1.filter fun q => !(q.2.viaAnnex && q.1 / 2 ^ 34 / 256 == die && p (q.1 % 2 ^ 34)) }

/-- An annex gives up a line before its lease has expired: the expiry is still to be checked against the windows of the die (R168, R171). -/
def State.loseAnnex (s : State) (die line : Nat) : State :=
  let left := (s.annex.filter fun q => q.1 == annexKey die line).map fun q => (q.1, q.2.expiry)
  { s.dropAnnexLines die fun l => l == line with spent := s.spent ++ left }

/-- Windows of a die that have read a line take a hit as a lease on it expires (R171, R202). -/
def State.hitLease (s : State) (die line : Nat) : State :=
  s.hitWhere fun k x => dieOf k == die && x.sig.getLsbD (Loc.hbm (line * 128)).sig

/-- A lease has expired: the line is no longer usable, and windows of the die that read it take a hit (R171, R202). -/
def State.expireLine (s : State) (die line : Nat) : State := (s.dropAnnexLines die fun l => l == line).hitLease die line

/-- An annex wakes before it serves a request: with a wrap count that is not the package's it loses its lines (R173, R387). -/
def State.wakeAnnex (s : State) (die : Nat) : State :=
  let d := s.die die
  if !d.sleep.asleep then s
  else
    let s := s.onDie die fun d => { d with sleep := ⟨false, s.wrapCount, 0⟩ }
    if d.sleep.kept = s.wrapCount then s
    else
      (s.dropAnnexLines die fun _ => true).post 0xAE
        { die := die
          detail := BitVec.ofNat 32 (d.sleep.kept.toNat + 4 * s.wrapCount.toNat + if 3 ≤ d.sleep.passed then 16 else 0) }

/-- A line leaves an L1: silently when it is Shared or of a private page, else with a write-back, after which no L1 owns it (R166, R167).
Poison in it is posted (R410). -/
def State.evictL1 (s : State) (core line : Nat) : State :=
  match s.l1.find (l1Key core line) with
  | none => s
  | some x =>
    let s := s.idlePoison (core / 256) (line * 128) 128
    let s := { s with l1 := s.l1.del (l1Key core line) }
    if x.owned && !x.priv then
      let d := s.dir line
      { s with directory := s.directory.put line ⟨d.sharers, d.owner.filter fun k => k ≠ core % 256⟩ }
    else s

/-- A place in a core's L1: a line is replaced if none is free (R11, R217, R408). -/
def State.roomL1 (s : State) (core : Nat) : State :=
  match replaced (s.placesLeft 5 core Config.l1Lines)
      ((s.l1.filter fun q => q.1 / 2 ^ 34 == core).map fun q => (q.1 % 2 ^ 34, q.2.way)) with
  | some k => s.evictL1 core k
  | none => s

/-- A line placed in an L1; one that was not there takes a free place, or that of the line that is replaced (R11, R217). -/
def State.putL1 (s : State) (core line : Nat) (x : L1Line) : State :=
  let key := l1Key core line
  let s := if (s.l1.find key).isSome then s else s.roomL1 core
  { s with l1 := s.l1.put key x }

/-- A place in a line's set of a die's annex: a line that is replaced goes with the L1 copies that the annex served (R164, R183, R408). -/
def State.roomAnnex (s : State) (die line : Nat) : State :=
  let ways := Config.ways - s.fencedOff 2 die (sameAnx (line * 128))
  match replaced ways ((s.annex.filter fun q => q.1 / 2 ^ 34 == die && sameAnx (q.1 % 2 ^ 34 * 128) (line * 128)).map
      fun q => (q.1 % 2 ^ 34, q.2.way)) with
  | some k => s.loseAnnex die k
  | none => s

/-- A line placed in its set of a die's annex. -/
def State.putAnnex (s : State) (die line : Nat) (x : AnnexLine) : State :=
  let key := annexKey die line
  let s := if (s.annex.find key).isSome then s else s.roomAnnex die line
  { s with annex := s.annex.put key x }

/-- Owned data of a line goes back to the home slice for a reader there; the copy stays Shared, and `.keep` protects it no more
(R166, R217). Poison in what is written back is posted (R410). -/
def State.recall (s : State) (line : Nat) : State :=
  let d := s.dir line
  let die := homeDie (line * 128)
  match d.owner with
  | none => s
  | some k =>
    let s := if ((s.l1.find (l1Key (coreNo die k) line)).map L1Line.dirty).getD false then s.idlePoison die (line * 128) 128 else s
    { s with
      directory := s.directory.put line ⟨d.sharers ||| BitVec.ofNat 128 (2 ^ k), none⟩
      l1 := s.l1.alter (l1Key (coreNo die k) line) fun x =>
        { x with owned := false, dirty := false, way := { x.way with hint := if x.way.hint = .keep then .none else x.way.hint } } }

/-- A read miss on a locally homed line (R166): dirty data goes back to the home slice, and the copies are Shared; the owner of a
private page skips the directory (R167). `.nt` does not allocate, and `.ro` never asks for Owned (R217). -/
def State.readMissLocal (s : State) (core line : Nat) (hint : Hint) (priv : Bool) : State :=
  let s := s.useL2 line hint
  let way : Way := ⟨hint, s.now⟩
  if priv then (if hint = .nt then s else s.putL1 core line ⟨hint != .ro, false, false, true, way⟩)
  else if (s.dir line).owner = some (core % 256) then s
  else
    let s := s.recall line
    if hint = .nt then s
    else
      let s := { s with directory := s.directory.put line ⟨(s.dir line).sharers ||| BitVec.ofNat 128 (2 ^ (core % 256)), none⟩ }
      s.putL1 core line ⟨false, false, false, false, way⟩

/-- A read of a line of another die (R166, R168, R169): the annex, awake, serves it, or the home slice takes back what an
L1 of its die owns, grants a lease and records its expiry. A line whose lease has run out expires first (R171). DESIGN CHOICE (assumption 102):
the term of a lease is that of the line's home die. -/
def State.annexServe (s : State) (die line : Nat) (hint : Hint) : State :=
  if Config.physTop ≤ line * 128 then s
  else
    let home := homeDie (line * 128)
    let s := s.wakeAnnex die
    if s.annexHolds die line then
      { s with annex := s.annex.alter (annexKey die line) fun x => { x with way := x.way.use hint s.now } }
    else
      let s := if (s.annex.find (annexKey die line)).isSome then s.expireLine die line else s
      let s := (s.recall line).useL2 line hint
      let e := min (s.leaseClock.toNat + (s.die home).lterm) leaseTop
      ({ s with leases := s.leases.put line (max e ((s.leaseEnd line).getD 0)) }).putAnnex die line ⟨e, ⟨outerHint hint, s.now⟩⟩

/-- A read miss of an L1 on a line of another die (R168): the copy that the annex serves is valid while its lease is. -/
def State.readMissRemote (s : State) (core line : Nat) (hint : Hint) : State :=
  let s := s.annexServe (core / 256) line hint
  if hint = .nt ∨ Config.physTop ≤ line * 128 then s else s.putL1 core line ⟨false, false, true, false, ⟨hint, s.now⟩⟩

/-- A read miss of an instruction cache (R164, R166, R168): the home slice or the annex serves it as it serves an L1, which takes no copy. -/
def State.codeMiss (s : State) (core line : Nat) : State :=
  if homeDie (line * 128) = core / 256 then (s.recall line).useL2 line .none else s.annexServe (core / 256) line .none

/-- Whether a read request of a core can be answered now: not while an operation or a claim waits at the home slice or a wrap is under
way, unless a copy that the core may still read is at hand (R170, R172). -/
def State.canRead (s : State) (core : Nat) (l : Loc) : Bool :=
  match l with
  | .spad _ _ => true
  | .hbm pa =>
    let line := pa / 128
    let remote := l.remote (core / 256)
    if remote && s.annexHolds (core / 256) line then true
    else if !remote && (s.l1.find (l1Key core line)).isSome then true
    else !s.lineHeld line && !s.wrapHeld (core / 256) l

/-- Whether a read of a warp can be answered now: its core can read, or a serial pass favours the warp, whose request at its home die comes
before any other that waits there (R382). DEDUCED (assumption 103): on another die it is granted its lease before the operations that wait. -/
def State.mayRead (s : State) (w : Nat) (l : Loc) : Bool :=
  s.canRead (coreOf w) l ||
    (s.favours w && !s.wrapHeld (dieOf w) l && !s.homeOps.any fun o => s.atHome l.line o && s.favoured o)

/-- Whether a read request that an engine or a command processor of a die makes can be answered now (R170, R172). -/
def State.canReadAt (s : State) (die : Nat) (l : Loc) : Bool :=
  match l with
  | .spad _ _ => true
  | .hbm pa => !s.lineHeld (pa / 128) && !s.wrapHeld die l

/-- What a read of a place does to the caches: a hit is used where it is, a miss fills (R166, R168, R217). -/
def State.fill (s : State) (core : Nat) (l : Loc) (hint : Hint) (priv : Bool) : State :=
  match l with
  | .spad _ _ => s
  | .hbm pa =>
    let line := pa / 128
    if Config.physTop ≤ pa then s
    else if (s.l1.find (l1Key core line)).isSome && (!l.remote (core / 256) || s.annexHolds (core / 256) line) then
      { s with l1 := s.l1.alter (l1Key core line) fun x => { x with way := x.way.use hint s.now } }
    else if l.remote (core / 256) then s.readMissRemote core line hint
    else s.readMissLocal core line hint priv

/-- Whether an L1 copy of a line on its home die goes when the line is granted or written: one that the directory records, one of a
private page, and any of the porter, which the sharer vector has no bit for (R166). -/
def State.copyHeld (s : State) (line keep k : Nat) : Bool :=
  let d := s.dir line
  decide (k ≠ keep) && (d.sharers.getLsbD k || decide (d.owner = some k) || decide (k = 128) ||
    ((s.l1.find (l1Key (coreNo (homeDie (line * 128)) k) line)).map L1Line.priv).getD false)

/-- Every L1 copy of a line on its home die is invalidated, and each invalidated core acknowledges; a hit is tested in the
windows of those cores (R166, R202, R213). Poison in the copies is posted (R410). -/
def State.invalidateAll (s : State) (but : Option Nat) (line keep : Nat) : State :=
  let die := homeDie (line * 128)
  let held := s.copyHeld line keep
  let s := (s.l1.filter fun (key, _) => decide (key % 2 ^ 34 = line ∧ key / 2 ^ 34 / 256 = die) && held (key / 2 ^ 34 % 256)).foldl
    (fun s _ => s.idlePoison die (line * 128) 128) s
  let s := { s with l1 := s.l1.filter fun (key, _) =>
      !(decide (key % 2 ^ 34 = line) && decide (key / 2 ^ 34 / 256 = die) && held (key / 2 ^ 34 % 256)) }
  let s := s.hitWhere fun k x => decide (some k ≠ but) && x.sig.getLsbD (Loc.hbm (line * 128)).sig
    && decide (dieOf k = die) && held (coreOf k % 256)
  { s with directory := s.directory.del line }

/-- A core gains a line Owned, or writes it at its home slice when the line is of another die, whose annex copy on the
issuing die goes (R166, R168, R204); the owner of a private page skips the directory (R167). A store with `.nt` leaves no copy that was
not there (R217). -/
def State.gain (s : State) (w : Nat) (l : Loc) (hint : Hint) (priv : Bool) : State :=
  match l with
  | .spad _ _ => s
  | .hbm pa =>
    let line := pa / 128
    let core := coreOf w
    if Config.physTop ≤ pa then s
    else if l.remote (dieOf w) then
      let s := (s.invalidateAll (some w) line 1000).useL2 line hint
      s.loseAnnex (dieOf w) line
    else
      let old := s.l1.find (l1Key core line)
      let s := if priv then s else s.invalidateAll (some w) line (core % 256)
      let s := if old.isSome then s else s.useL2 line hint
      if hint = .nt ∧ old.isNone then s
      else
        let way := (old.map fun x => x.way.use hint s.now).getD ⟨hint, s.now⟩
        let s := if priv then s else { s with directory := s.directory.put line ⟨0, some (core % 256)⟩ }
        s.putL1 core line ⟨true, true, false, priv, way⟩

/-! ### Claims on lines (R170, R204) -/

/-- The lines that a claimer has claimed, in the order of its requests. -/
def State.claimsOf (s : State) (c : Claimer) : List Nat :=
  (s.homeOps.filter fun o => o.fn == .claim c).map fun o => o.loc.line

/-- A claimer gives up its claims. -/
def State.unclaim (s : State) (c : Claimer) : State := { s with homeOps := s.homeOps.filter fun o => o.fn != .claim c }

/-- Whether a claim on a line has been granted: it is the next that is performed there, and every lease has expired (R170, R204). -/
def State.granted (s : State) (c : Claimer) (line : Nat) : Bool :=
  s.leaseFree line && ((s.nextAt line).map HomeOp.fn) == some (.claim c)

/-- A number that no warp has: what an engine, a command processor or the concourse sends to a home slice (MODEL). -/
def noWarp : Nat := 2 ^ 20

/-- A claim of an agent of a die on a line reaches its home slice. -/
def State.claim (s : State) (die : Nat) (c : Claimer) (line : Nat) : State :=
  if (s.claimsOf c).contains line then s
  else { s with homeOps := s.homeOps ++ [⟨noWarp, 0, false, 0, .hbm (line * 128), 0, 0, .claim c, 0, 0, die, .none⟩] }

/-- Lines claimed one after another: the next is asked for when the one before it is granted. The answer says whether all are granted. -/
def State.askLines (s : State) (die : Nat) (c : Claimer) : List Nat → State × Bool
  | [] => (s, true)
  | line :: rest =>
    if s.wrapHeld die (.hbm (line * 128)) && !(s.claimsOf c).contains line then (s, false)
    else
      let s := s.claim die c line
      if s.granted c line then s.askLines die c rest else (s, false)

/-- Line numbers in ascending order, each once. -/
def sortLines (l : List Nat) : List Nat :=
  let rec put (k : Nat) : List Nat → List Nat
    | [] => [k]
    | j :: rest => if k < j then k :: j :: rest else if k = j then j :: rest else j :: put k rest
  l.foldl (fun l k => put k l) []

/-- A claimer gains every line that it needs, in ascending line address (R204): lines for which nothing waits and no lease runs at once; what
it has claimed out of that order it gives up first. -/
def State.gainLines (s : State) (die : Nat) (c : Claimer) (lines : List Nat) : State × Bool :=
  if lines.all fun l => s.lineReady l && !s.wrapHeld die (.hbm (l * 128)) then (s, true)
  else
    let need := sortLines lines
    let have_ := s.claimsOf c
    (if need.take have_.length = have_ then s else s.unclaim c).askLines die c need

/-! ### Page bits (R167, R179) -/

/-- The owner of a private page writes back and invalidates its lines of the page; each counts as an invalidation (R167). -/
def State.flushPage (s : State) (core : Nat) (base size : Nat) : State :=
  let inPage := fun line : Nat => decide (base ≤ line * 128 ∧ line * 128 < base + size)
  let lines := (s.l1.filter fun (k, _) => decide (k / 2 ^ 34 = core) && inPage (k % 2 ^ 34)).map fun (k, _) => k % 2 ^ 34
  let s := lines.foldl (fun s l => s.evictL1 core l) s
  s.hitWhere fun k x => decide (coreOf k = core) && lines.any fun l => x.sig.getLsbD (Loc.hbm (l * 128)).sig

/-- The entry of a page after an access by a core, or by an engine (`core` = none), and the private owner whose lines are flushed (R167). The
porter's number does not fit `OWN`: its access makes an unclassified page shared (assumption 87). -/
def classAfter (e : DWord) (die : Nat) (core : Option Nat) : DWord × Option Nat :=
  let bare := e &&& ~~~(0x0FF8_0000_0000_0000 : DWord)
  let shared := bare ||| 0x0800_0000_0000_0000
  match ptePcl e with
  | 0 =>
    match core with
    | some c =>
      if c / 256 = die ∧ c % 256 < 128 then (bare ||| 0x0400_0000_0000_0000 ||| (BitVec.ofNat 64 (c % 256) <<< 51), none)
      else (shared, none)
    | none => (shared, none)
  | 1 => if core = some (coreNo die (pteOwn e)) then (e, none) else (shared, some (coreNo die (pteOwn e)))
  | _ => (e, none)

/-- A leaf entry after a waiting update of it, and the core whose private page is flushed (R167, R179). -/
def HomeOp.leafAfter (o : HomeOp) (e : DWord) : DWord × Option (Nat × Nat × Nat) :=
  match o.fn with
  | .leafBits => (e ||| o.b, none)
  | .leafClass core base size =>
    let r := classAfter e (homeDie base) core
    (r.1, r.2.map fun c => (c, base, size))
  | _ => (e, none)

/-- An update of a leaf entry performed at its home slice (R167, R179). -/
def State.performLeaf (s : State) (o : HomeOp) : State :=
  match o.loc with
  | .spad _ _ => s
  | .hbm a =>
    let r := o.leafAfter (s.mem.dword a)
    let s := match r.2 with
      | some (c, base, size) => s.flushPage c base size
      | none => s
    if s.mem.dword a = r.1 then s else s.perform (some o.warp) (.hbm a) 8 r.1.toNat

/-- An update of a leaf entry sent to its home slice: performed at once, or kept waiting behind the leases of its line or, at its die, behind a
wrap (R170, R172, R179). An update that would change nothing is not sent. -/
def State.leafOp (s : State) (o : HomeOp) : State :=
  match o.loc with
  | .spad _ _ => s
  | .hbm a =>
    let held := s.wrapHeld o.die o.loc
    if (o.leafAfter (s.mem.dword a)).1 = s.mem.dword a then s
    else if !held && s.lineReady (a / 128) then s.performLeaf o
    else
      let o := { o with stage := if held then .unsent else .none }
      if s.homeOps.contains o then s else { s with homeOps := s.homeOps ++ [o] }

/-- The die of an agent that asks for a translation. -/
def agentDie (agent : Nat) : Nat :=
  if agent < engineAgent 0 then agent / 256 else if agent < cpAgent 0 then (agent - engineAgent 0) / 16 else agent % 0x10000

/-- A number that no lane has: an update of a leaf entry is a transfer of no lane (MODEL). -/
def noLane : Nat := 64

/-- Bits set in the leaf entry of a translation (R179). -/
def State.setLeaf (s : State) (but : Option Nat) (x : Xlat) (bits : DWord) : State :=
  s.leafOp ⟨but.getD noWarp, 0, false, noLane, .hbm x.leafPa, 0, 8, .leafBits, bits, 0, agentDie x.agent, .none⟩

/-- `AC`, and `DY` for a write (R179). -/
def State.touch (s : State) (w : Nat) (x : Option Xlat) (write : Bool) : State :=
  match x with
  | none => s
  | some x => (s.keepXlat x).setLeaf (some w) x (if write then 0x300 else 0x100)

/-- The class of a page at an access by a core, or by an engine (`core` = none) (R167). DESIGN CHOICE (assumption 87): a command processor, the
porter's bulk reads and the moves of a gallery count as an engine. -/
def State.classify (s : State) (but : Option Nat) (core : Option Nat) (x : Xlat) : State :=
  s.leafOp ⟨but.getD noWarp, 0, false, noLane, .hbm x.leafPa, 0, 8, .leafClass core x.base x.size, 0, 0, agentDie x.agent, .none⟩

/-- Whether a change of class that a warp's access has asked for still waits at the home slice of the leaf entry: the access goes on behind it
(R167). -/
def State.classWaits (s : State) (w : Nat) (x : Option Xlat) : Bool :=
  match x with
  | none => false
  | some x => s.homeOps.any fun o => o.warp == w && o.loc == .hbm x.leafPa &&
      (match o.fn with
        | .leafClass .. => true
        | _ => false)

/-- The translation that a warp's access used, by its virtual address. -/
def State.xlatOf (s : State) (w lane : Nat) (va : DWord) : Option Xlat :=
  match aperture va with
  | .global => s.cached (s.laneAsker w lane) va
  | _ => none

/-- The class change that a warp's access to an address makes; a hit of another core's L1 in a private page makes none (R167). -/
def State.classAccess (s : State) (w lane : Nat) (va : DWord) : State :=
  match s.xlatOf w lane va with
  | some x =>
    let line := (x.frame * 4096 + va.toNat % 4096) / 128
    if ptePcl (s.mem.dword x.leafPa) = 1 ∧ (s.l1.find (l1Key (coreOf w) line)).isSome then s
    else s.classify (some w) (some (coreOf w)) x
  | none => s

/-- Whether an access of a warp is that of the owner of a private page: its fills and writes skip the directory (R167). -/
def State.privAccess (s : State) (w lane : Nat) (va : DWord) : Bool :=
  match s.xlatOf w lane va with
  | some x =>
    let e := s.mem.dword x.leafPa
    ptePcl e == 1 && decide (coreOf w = coreNo (homeDie (x.frame * 4096)) (pteOwn e))
  | none => false

/-! ### Windows -/

/-- Whether a warp runs solo (R381). -/
def State.solo (s : State) (w : Nat) : Bool :=
  decide (s.now < (s.warp w).soloUntil) || (s.warp w).soloTo.isSome

/-- What a checkpoint holds of a warp as it stands (R201, R203). -/
def Warp.checkpoint (wp : Warp) (a : Option ClauseAt) : Checkpoint where
  regs := wp.regs
  preds := wp.preds
  pcs := wp.pcs
  live := wp.live
  segs := wp.segs
  fpflags := wp.fpflags
  holds := wp.holds
  engSeq := wp.engSeq
  resume := wp.resume
  via := wp.via
  poison := wp.poison
  at_ := a

/-- A warp as a checkpoint has it. -/
def Warp.atCkpt (wp : Warp) (k : Checkpoint) : Warp :=
  { wp with
    regs := k.regs, preds := k.preds, pcs := k.pcs, live := k.live, segs := k.segs, fpflags := k.fpflags, holds := k.holds
    engSeq := k.engSeq, resume := k.resume, via := k.via, poison := k.poison }

/-- A change that no rollback undoes and that a rollback makes another way: `f` to the warp, `g` to the states kept of it (R203, R378). -/
def Warp.alwaysOr (wp : Warp) (f g : Warp → Warp) : Warp :=
  let old := fun (k : Checkpoint) => (g (wp.atCkpt k)).checkpoint k.at_
  let wp' := f wp
  { wp' with
    window := wp'.window.map fun (x : Window) => { x with ckpt := old x.ckpt }
    clause := wp'.clause.map fun (c : Clause) => { c with snap := old c.snap } }

/-- A change that no rollback undoes, since another agent or an irrevocable event makes it: it is made to the checkpoint of the open window
and to the state kept of the clause's header as well (R200, R203). -/
def Warp.always (wp : Warp) (f : Warp → Warp) : Warp :=
  wp.alwaysOr f f

/-- The checkpoint of the event that issues now (R201): the clause's header, or the slot itself when an earlier slot has
committed or acted. -/
def Warp.ckptNow (wp : Warp) : Checkpoint :=
  match wp.clause with
  | none => wp.checkpoint none
  | some c => if c.acted then wp.checkpoint (some c.at_) else c.snap

/-- An empty window, with the irrevocable events that are outstanding (R205). -/
def Window.start (k : Checkpoint) (now irr : Nat) : Window where
  ckpt := k
  evs := []
  instrs := 1
  sig := 0
  hit := false
  tileOps := []
  since := now
  irr0 := irr
  withdrawn := 0

/-- The window opened, unless one is open or the warp runs solo (R201, R381); a wake event that came before it counts no more for its lanes
(R255). -/
def State.openWindow (s : State) (w : Nat) : State :=
  let wp := s.warp w
  if wp.window.isSome || s.solo w then s
  else
    let s := s.setWarp w { wp with window := some (Window.start wp.ckptNow s.now wp.irr) }
    if isPorter (coreOf w) then s.onDie (dieOf w) fun d => { d with
      porterWake := d.porterWake.put w ((d.porterWake.find w).getD 0 &&& ~~~wp.clauseAt.lanes) }
    else s

/-- Whether the open window, or the one that opens now, has room for `n` more events; irrevocable events that are outstanding count
(R201, R205). -/
def Warp.hasRoom (wp : Warp) (n : Nat) : Bool :=
  match wp.window with
  | none => decide (wp.irr + n ≤ Config.winEvents)
  | some x => decide (x.evs.length + x.irr0 + n ≤ Config.winEvents)

/-- An event added to the window. -/
def Warp.addEvent (wp : Warp) (e : WinEv) : Warp :=
  { wp with window := wp.window.map fun x => { x with evs := x.evs ++ [e] } }

/-- The slot of the clause is held (R67). -/
def State.holdSlot (s : State) (w : Nat) (why : HeldBy) : State :=
  s.onWarp w fun wp => { wp with clause := wp.clause.map fun c => { c with
    held := some why, heldAt := s.now, heldSince := some (c.heldSince.getD s.now) } }

/-- An earlier slot of the clause has acted or committed (R201). -/
def Warp.acted (wp : Warp) : Warp := { wp with clause := wp.clause.map fun c => { c with acted := true } }

/-- The lanes of a mask whose events count as progress (R374): outside usher code, at handler grade or below. -/
def Warp.counts (wp : Warp) (m : Mask) : Mask :=
  wp.segs.foldl (fun k g => k ||| (g.slots &&& m &&& (if !g.firmware && g.udepth == 0 then g.slots else g.abs g.handler))) 0

/-- The segments of some lanes have made progress (R374). -/
def Warp.gained (wp : Warp) (m : Mask) : Warp :=
  wp.onSegs fun g => if g.slots &&& m != 0 then { g with progress := true, bc := 0 } else g

/-- Progress of segments, by lanes that count now (R374). -/
def Warp.progress (wp : Warp) (m : Mask) : Warp := wp.gained (wp.counts m)

/-- The lanes of a mask that counted when a record of the warp was made (R374). -/
def Warp.countedAt (wp : Warp) (id : Nat) (m : Mask) : Mask :=
  m &&& ((wp.results.find? fun r => r.id == id).map Res.gain |>.getD ((wp.stores.find? fun r => r.id == id).map StoreRec.gain |>.getD 0))

/-! ### Reads -/

/-- The byte that a buffered write supplies to byte `j` of a read (R200): by place, or by virtual address where the
write's translation failed. -/
def coverByte (rl : Loc) (rva : DWord) (j : Nat) (wl : Option Loc) (wva : DWord) (n : Nat) (v : BitVec 128) :
    Option Byte :=
  let pick := fun (a b : Nat) => if b ≤ a + j ∧ a + j < b + n then some (v.extractLsb' (8 * (a + j - b)) 8) else none
  match rl, wl with
  | .hbm a, some (.hbm b) => pick a b
  | .spad c a, some (.spad d b) => if c = d then pick a b else none
  | _, none => pick rva.toNat wva.toNat
  | _, _ => none

/-- A write as a read sees it: place, address, bytes, value. -/
abbrev BufWrite := Option Loc × DWord × Nat × BitVec 128

/-- The writes of a window before event `k`. -/
def winWrites (evs : List WinEv) (k : Nat) : List BufWrite :=
  (evs.take k).filterMap fun e =>
    match e with
    | .wr _ _ va loc n v _ => some (loc, va, n, v)
    | .rd .. | .token _ => none

/-- The writes of the side log, oldest first. -/
def logWrites (l : List LogEnt) : List BufWrite := l.map fun e => (e.loc, e.va, e.n, e.val)

/-- The value of `n` bytes: the youngest covering write of the buffer, else memory (R200). -/
def State.overlay (s : State) (ws : List BufWrite) (l : Loc) (va : DWord) (n : Nat) : BitVec 128 :=
  (List.range n).foldl (fun acc j =>
    let m := s.byteOf l n j
    let b := ws.foldl (fun b (x : BufWrite) => (coverByte l va j x.1 x.2.1 x.2.2.1 x.2.2.2).getD b) m
    acc ||| (b.setWidth 128 <<< (8 * j))) 0

/-- The value that a read by warp `w` takes now, after event `k` of its window (R200). -/
def State.viewRead (s : State) (w : Nat) (k : Nat) (l : Loc) (va : DWord) (n : Nat) : BitVec 128 :=
  let wp := s.warp w
  let evs := (wp.window.map Window.evs).getD []
  s.overlay (logWrites wp.sideLog ++ winWrites evs k) l va n

/-- A value given to a result record for the lanes it serves: one lane, or the executing lanes of its segment where the
address is uniform (R216). -/
def Res.give (r : Res) (lanes : Mask) (v : BitVec 128) : Res :=
  { r with vals := (lanesOf (lanes &&& r.lanes)).foldl (fun t l => t.put l v) r.vals }

/-- The lanes that a read event of a lane serves. -/
def Warp.served (wp : Warp) (r : Res) (lane : Nat) : Mask :=
  if r.shape = .uniform then ((wp.segOf lane).map Seg.slots).getD (laneBit lane) else laneBit lane

/-- A result record changed. -/
def Warp.onRes (wp : Warp) (id : Nat) (f : Res → Res) : Warp :=
  { wp with results := wp.results.map fun r => if r.id = id then f r else r }

/-- Event `k` of the window takes its value (R200): its line or block enters the signature. It waits for a change of class of its page
(R167). -/
def State.takeValue (s : State) (w k : Nat) : State :=
  let wp := s.warp w
  match wp.window with
  | none => s
  | some x =>
    match x.evs[k]? with
    | some (.rd res lane va loc n none) =>
      let s := s.classAccess w lane va
      if !s.canRead (coreOf w) loc || s.classWaits w (s.xlatOf w lane va) then s
      else
        let v := s.viewRead w k loc va n
        let hint := ((wp.results.find? fun r => r.id == res).map Res.hint).getD .none
        let s := s.fill (coreOf w) loc hint (s.privAccess w lane va)
        s.onWarp w fun wp =>
          let wp := wp.onRes res fun r => r.give (wp.served r lane) v
          { wp with window := wp.window.map fun y =>
              { y with
                evs := setAt y.evs k (.rd res lane va loc n (some v))
                sig := y.sig ||| (1#1024 <<< loc.sig) } }
    | _ => s

/-- Whether a read event has no value yet. -/
def WinEv.waits : WinEv → Bool
  | .rd _ _ _ _ _ none => true
  | _ => false
def WinEv.isRead : WinEv → Bool
  | .rd .. | .token _ => true
  | .wr .. => false

/-! ### Side logs -/

/-- The causes that a faulting write posts: `PF_STORE` once for each page and warp slot, with the log's identifier (R392). -/
def State.postLogFault (s : State) (w lane : Nat) (e : XErr) (again : Bool) : State :=
  let wp := s.warp w
  let page := e.addr.toNat / 4096
  if wp.logPages.contains page && !again then s
  else
    let f := s.fnOf (wp.gidOf lane)
    let (k, s) := if wp.logHold = 0 then s.hold f (.sideLog w) else (wp.logHold, s)
    let s := s.onWarp w fun wp => { wp with
      logHold := k
      logSince := if wp.logHold = 0 then s.now else wp.logSince
      logPages := if wp.logPages.contains page then wp.logPages else wp.logPages ++ [page] }
    match wp.segOf lane with
    | none => s
    | some g => s.post e.code { s.segInfo w g with addr := e.addr, pc := e.pc.getD 0, hold := k, detail := e.detail }

/-- `LOG_FULL` is posted: the log is full, or has no room for the writes of a commit (R384). -/
def State.postLogFull (s : State) (w : Nat) : State :=
  let wp := s.warp w
  match wp.segs.head? with
  | some g =>
    (s.onWarp w fun wp => { wp with fullTold := true }).post 0xA4
      { s.segInfo w g with addr := (wp.sideLog.head?.map LogEnt.va).getD 0, detail := Config.openDetail 0xA4 }
  | none => s

/-- A write put at the end of the side log; `LOG_FULL` is posted when the log fills (R384, R392). A write whose page failed when it issued is
judged again: mapped since, it has its place; failing for good, it is for Drain to end (R392). -/
def State.toSideLog (s : State) (w : Nat) (x : LogEnt) : State :=
  let judged := s.lanePlace w x.lane .store x.n x.va
  let x := match x.loc, judged with
    | none, .ok p => { x with loc := some p.loc }
    | _, _ => x
  let s := s.onWarp w fun wp => { wp with
    sideLog := wp.sideLog ++ [x]
    logSince := if wp.sideLog = [] then s.now else wp.logSince }
  let s := match judged, x.loc with
    | .error e, none => if e.toLog then s.postLogFault w x.lane e false else s.onWarp w fun wp => { wp with logDrain := true }
    | _, _ => s
  if (s.warp w).sideLog.length = Config.logEntries then s.postLogFull w else s

/-- One write of a store record, of a lane's group, has been performed (R29, R73). -/
def Warp.storeDone (wp : Warp) (id lane : Nat) : Warp :=
  let gid := wp.gidOf lane
  { wp with stores := wp.stores.map fun r =>
      if r.id = id then { r with owed := if r.owed.contains gid then r.owed.erase gid else r.owed.drop 1 } else r }

/-- Whether a byte of memory, or of scratchpad, lies in `n` bytes at a place. -/
def Loc.hasByte (l : Loc) (n : Nat) (spad : Bool) (b : Nat) : Bool :=
  match l with
  | .hbm a => !spad && decide (a ≤ b ∧ b < a + n)
  | .spad c o => spad && decide (spadAddr c o ≤ b ∧ b < spadAddr c o + n)

/-- One more lane write of a store performed: granules that the store has now written whole lose their poison (R409). -/
def State.layStore (s : State) (w store : Nat) (l : Loc) (n : Nat) : State :=
  if s.poison = [] ∧ s.poisonSpad = [] then s
  else
    let run := ((s.warp w).laid.filter fun q => q.1 == store) ++ [(store, l, n)]
    let whole := fun (spad : Bool) (g : Nat) => (List.range 32).all fun k => run.any fun q => q.2.1.hasByte q.2.2 spad (32 * g + k)
    { s.onWarp w fun wp => { wp with laid := run } with
      poison := s.poison.filter fun g => !whole false g
      poisonSpad := s.poisonSpad.filter fun g => !whole true g }

/-- A write performed for a warp: the line is gained, the write takes its place in the order, `DY` is set, the segment has
made progress (R179, R204, R374). -/
def State.writeEvent (s : State) (w store lane : Nat) (va : DWord) (l : Loc) (n : Nat) (v : BitVec 128) (hint : Hint) : State :=
  let s := s.classAccess w lane va
  let s := s.touch w (s.xlatOf w lane va) true
  let s := ((s.gain w l hint (s.privAccess w lane va)).perform (some w) l n v.toNat).layStore w store l n
  s.onWarp w fun wp => (wp.storeDone store lane).gained (wp.countedAt store (laneBit lane))

/-! ### Tiles and landings (R239, R244) -/

/-- The lanes that count as live for a barrier: an exit counts once it has committed (R34, R118). -/
def Warp.counted (wp : Warp) : Mask := wp.live ||| ((wp.window.map fun x => x.ckpt.live).getD 0)

/-- A tile of a core. -/
def State.tile (s : State) (core t : Nat) : Tile := ((s.core core).tiles.getD t ⟨none, [], []⟩)
def State.onTile (s : State) (core t : Nat) (f : Tile → Tile) : State :=
  s.onCore core fun c => { c with tiles := setAt c.tiles t (f (c.tiles.getD t ⟨none, [], []⟩)) }

/-- The physical tile that a group's tile bit names, if the group holds it. -/
def State.tileOf (s : State) (gid bit : Nat) : Option Nat := ((s.group gid).map Group.tiles).bind fun l => l[bit]?

/-- Whether every lane of P has signed with a committed signature, or has exited (R238, R239). -/
def State.landingFull (s : State) (d : Landing) : Bool :=
  let live := (s.warp d.warp).counted
  d.st != .free && (lanesOf d.mask).all fun l =>
    match d.signers.find l with
    | some g => g.committed
    | none => !live.getLsbD (d.lbase + l)

/-- Whether a group belongs to a gang. -/
def State.inGang (s : State) (gid : Nat) : Bool := ((s.launchOf gid).map Launch.gang).getD false

/-- A landing of a core. -/
def State.landing (s : State) (core n : Nat) : Landing := (s.core core).landings.getD n Landing.reset
/-- Whether an entry of a sequence is an operation of a landing. -/
def TileOp.ofLanding (n : Nat) : TileOp → Bool
  | .mma op => op.landing == n
  | _ => false

/-- The issued operations of a landing that have not written their tile (R239). -/
def State.opsOf (s : State) (core n : Nat) : Nat :=
  (s.core core).tiles.foldl (fun k t => k + (t.seq.filter (TileOp.ofLanding n)).length) 0

/-- Whether the operation of a complete landing outside a gang issues at once on a tile (R239). -/
def State.landingNow (s : State) (core t : Nat) : Bool :=
  (List.range 8).any fun n =>
    let d := s.landing core n
    s.landingFull d && decide (s.opsOf core n < 2) &&
      match (s.warp d.warp).segAt d.lbase with
      | some g => s.tileOf g.gid d.tile == some t && !s.inGang g.gid
      | none => false

/-- The tiles that the open window of a warp has signed operations for (R206). -/
def State.signedTiles (s : State) (w : Nat) : List Nat :=
  (List.range 8).filterMap fun n =>
    let d := s.landing (coreOf w) n
    if d.st ≠ .free ∧ d.warp = w ∧ (d.signers.any fun q => !q.2.committed) then
      ((s.warp w).segAt d.lbase).bind fun g => s.tileOf g.gid d.tile
    else none

/-- Whether a complete landing outside a gang has still to issue its operation on a tile: it enters the tile's sequence before what the same
warp does on the tile later, and, where fewer than two operations of the landing stand before it, at once, so before what any other warp
does there (R239, R244). -/
def State.landingDue (s : State) (w t : Nat) : Bool :=
  let core := coreOf w
  (List.range 8).any fun n =>
    let d := s.landing core n
    s.landingFull d && (d.warp == w || decide (s.opsOf core n < 2)) &&
      match (s.warp d.warp).segAt d.lbase with
      | some g => s.tileOf g.gid d.tile == some t && !s.inGang g.gid
      | none => false

/-! ### Commit -/

/-- The lines of memory that the writes of a window touch; the writes that the side log will take touch none (R204). -/
def commitLines : List WinEv → List Nat
  | [] => []
  | .wr _ _ _ none _ _ _ :: _ => []
  | .wr _ _ _ (some (.hbm pa)) _ _ _ :: rest => pa / 128 :: commitLines rest
  | .wr _ _ _ (some (.spad ..)) _ _ _ :: rest => commitLines rest
  | .rd .. :: rest | .token _ :: rest => commitLines rest

/-- The writes of a window. -/
def WinEv.isWrite (e : WinEv) : Bool := !e.isRead

/-- The writes that a commit would append to the side log (R204, R209). -/
def logShare (logged : Bool) (evs : List WinEv) : Nat :=
  let rec go : Bool → List WinEv → Nat
    | _, [] => 0
    | b, .wr _ _ _ l _ _ _ :: rest =>
      let b := b || l.isNone
      (if b then 1 else 0) + go b rest
    | b, .rd .. :: rest | b, .token _ :: rest => go b rest
  go logged evs

/-- The conditions of R204 under which a window may begin to commit. -/
def Warp.settled (wp : Warp) : Bool :=
  match wp.window with
  | none => false
  | some x =>
    !x.hit && !(x.evs.any WinEv.waits) &&
      (!(x.evs.any WinEv.isRead || wp.irr != 0) || (wp.sideLog.isEmpty && wp.irr == 0))

/-- Whether the side log has room for what a commit of the window would append (R384). -/
def Warp.logRoom (wp : Warp) : Bool :=
  match wp.window with
  | none => true
  | some x => decide (wp.sideLog.length + logShare (!wp.sideLog.isEmpty) x.evs ≤ Config.logEntries)

/-- The conditions under which a window may begin to commit (R204, R384). -/
def Warp.mayCommit (wp : Warp) : Bool := wp.settled && wp.logRoom

/-- The window's events performed in window order (R204). -/
def State.performEvents (s : State) (w : Nat) : List WinEv → State
  | [] => s
  | .rd .. :: rest | .token _ :: rest => s.performEvents w rest
  | .wr store lane va loc n v hint :: rest =>
    let s := match loc, (s.warp w).sideLog with
      | some l, [] => s.writeEvent w store lane va l n v hint
      | _, _ =>
        s.toSideLog w ⟨store, lane, (((s.warp w).segOf lane).map Seg.lbase).getD 0, va, loc, n, v, false, hint⟩
    s.performEvents w rest

/-- Who asks for a command's descriptor: an engine that reads as the thread would, through the translations of the thread's core (R246;
assumption 88). -/
def Cmd.descAsker (c : Cmd) : Asker := ⟨if c.gid.isSome then coreOf c.warp else cpAgent c.die, c.ctx, c.fn, true, true⟩

/-- A dropped completion of a group counted (R281): in each segment of its present incarnation, or, when the group has
ended, at a die; for a saved group it is counted at its resumption. A count that fills is posted. DESIGN CHOICE (assumption 105): the die is that
of the command, or of the core that held the group; no register shows the porter the count. -/
def State.countDrop (s : State) (die gid : Nat) : State :=
  if ((s.group gid).map Group.released).getD true then s.onDie die fun d => { d with dropped := d.dropped + 1 }
  else if !((s.group gid).map Group.placed).getD true then
    { s with groups := s.groups.alter gid fun (x : Group) => { x with drops := x.drops + 1 } }
  else
    let full := s.warps.flatMap fun q => (q.2.segs.filter fun g => g.gid == gid && g.dropcnt == 0xFFFF_FFFE#32).map fun g => (q.1, g)
    let s := { s with warps := s.warps.mapV fun _ wp => wp.onSegs fun g =>
      if g.gid = gid ∧ g.dropcnt ≠ 0xFFFF_FFFF#32 then { g with dropcnt := g.dropcnt + 1 } else g }
    full.foldl (fun s q => s.post 0xAB { s.segInfo q.1 q.2 with detail := Config.openDetail 0xAB }) s

/-- A counter falls by one (R73). -/
def Warp.countDown (wp : Warp) (c : Ctr) : Warp :=
  match c with
  | .load => { wp with ldCnt := wp.ldCnt - 1 }
  | .store => { wp with stCnt := wp.stCnt - 1 }
  | .engine => { wp with enCnt := wp.enCnt - 1 }
  | .queue => { wp with quCnt := wp.quCnt - 1 }

/-- Whether an instruction counts still: one of its commands, of a group that stands with the generation that issued it, has no token yet (R73,
R74). -/
def State.insnOpen (s : State) (c : Cmd) : Bool :=
  s.cmds.any fun q => q.2.insn == c.insn && q.2.warp == c.warp && !q.2.token &&
    (q.2.gid.any fun gid => ((s.group gid).map Group.placed).getD false && s.genOf gid == q.2.gen)

/-- A token set (R73, R74, R211): the engine counter falls with the last token of its instruction, or the completion is dropped (R281). -/
def State.setToken (s : State) (n : Nat) : State :=
  match s.cmds.find n with
  | none => s
  | some c =>
    if c.token then s
    else
      let s := { s with cmds := s.cmds.put n { c with token := true } }
      match c.gid with
      | none => s
      | some gid =>
        if ((s.group gid).map Group.placed).getD false ∧ s.genOf gid = c.gen then
          if s.insnOpen c then s else s.onWarp c.warp fun wp => wp.countDown .engine
        else s.countDrop c.die gid

/-- Whether a command is a legal copy of no bytes (R247). -/
def emptyCopy (cell : Nat) (d : BitVec 512) : Bool :=
  cell == 0xD0 && fieldN d 511 259 == 0 && decide (fieldN d 258 256 < 5) && (fieldN d 191 160 == 0 || fieldN d 159 128 == 0)

/-- A command has its descriptor (R246). -/
def State.takeDesc (s : State) (n : Nat) (d : BitVec 512) : State :=
  { s with cmds := s.cmds.alter n fun (c : Cmd) => { c with image := some d } }

/-- A released copy of no bytes performs no access and has its token at once (R247). -/
def State.endEmpty (s : State) (n : Nat) : State :=
  match s.cmds.find n with
  | none => s
  | some c =>
    if (c.image.map (emptyCopy c.cell)).getD false ∧ c.st = .released then ({ s with cmds := s.cmds.put n { c with st := .moved } }).setToken n
    else s

/-- Whether the descriptor of a command can be read now: no operation waits on its line but the claim of its own warp's commit (R170, R172,
R204). -/
def State.descFree (s : State) (c : Cmd) (l : Loc) : Bool :=
  match l with
  | .spad _ _ => true
  | .hbm _ => !s.wrapHeld c.die l &&
      !s.homeOps.any fun o => s.atHome l.line o && (c.gid.isNone || o.fn != .claim (.commit c.warp))

/-- A command reads its descriptor as its thread sees it at the command, through the writes `ws` before it, which sets `AC` and counts as an
access of an engine (R167, R179, R200, R246). Its poison goes to all that the command writes (R410). A read that fails or is held is met again
when the command runs. -/
def State.readDesc (s : State) (n : Nat) (ws : List BufWrite) : State :=
  match s.cmds.find n with
  | none => s
  | some c =>
    match s.place c.descAsker (c.gid.getD 0) .load 64 c.desc with
    | .error _ => s
    | .ok p =>
      if c.image.isSome || !s.descFree c p.loc then s
      else
        let part := fun k => (s.overlay ws (p.loc.add (16 * k)) (c.desc + BitVec.ofNat 64 (16 * k)) 16).setWidth 512 <<< (128 * k)
        let s := match p.xlat with
          | some x => (s.touch c.warp (some x) false).classify (some c.warp) none x
          | none => s
        let bad : List Nat := match p.loc with
          | .hbm pa => (granules pa 64).filter s.poison.contains
          | .spad k o => (granules (spadAddr k o) 64).filter s.poisonSpad.contains
        let s := bad.foldl (fun s g => s.postIdle c.die g) s
        let s := if bad = [] then s else { s with cmds := s.cmds.alter n fun (c : Cmd) => { c with spoiled := true } }
        s.takeDesc n (part 0 ||| part 1 ||| part 2 ||| part 3)

/-- A released command that has no descriptor yet reads it, through the writes before it in its thread's side log (R200, R246). -/
def State.fetchDesc (s : State) (n : Nat) : State :=
  match s.cmds.find n with
  | none => s
  | some c =>
    (s.readDesc n (if c.gid.isSome then logWrites ((s.warp c.warp).sideLog.filter fun e => decide (e.store ≤ c.upto)) else [])).endEmpty n

/-- A command released (R200, R206): it joins the engine command queue of its core and reads its descriptor, unless the commit has read it. -/
def State.releaseCmd (s : State) (n : Nat) : State :=
  match s.cmds.find n with
  | none => s
  | some c =>
    let s := if c.gid.isSome then s.onCore (coreOf c.warp) fun x => { x with engq := x.engq ++ [n] } else s
    ({ s with cmds := s.cmds.put n { c with st := .released } }).fetchDesc n

/-- The commands that wait in the deferred-launch queue of a warp, in the order of their issue (R206). -/
def State.deferredOf (s : State) (w : Nat) : List (Nat × Cmd) := s.cmds.filter fun q => q.2.warp == w && q.2.st == CmdSt.deferred

/-- The commands of a window read their descriptors at the commit, each through the events of the window before it (R204, R246). -/
def State.readDescs (s : State) (w : Nat) (x : Window) : State :=
  (s.deferredOf w).foldl (fun s q => s.readDesc q.1 (logWrites (s.warp w).sideLog ++ winWrites x.evs q.2.pos)) s

/-- Whether a command's descriptor translates but cannot be read now. -/
def State.descWaits (s : State) (c : Cmd) : Bool :=
  match s.place c.descAsker (c.gid.getD 0) .load 64 c.desc with
  | .ok p => !s.descFree c p.loc
  | .error _ => false

/-- Whether every command of a window can read its descriptor now, as far as it translates. -/
def State.descsFree (s : State) (w : Nat) : Bool := (s.deferredOf w).all fun q => !s.descWaits q.2

/-- The arrivals of a lane at open barriers withdrawn (R45). -/
def State.withdrawArrival (s : State) (w l : Nat) : State :=
  match (s.warp w).segOf l with
  | none => s
  | some g =>
    { s with bars := s.bars.map fun (b : Bar) =>
        if b.done then b
        else { b with arrived := b.arrived.filter fun a => a != (g.gid, g.idx, l - g.lbase) } }

/-- What the commit of a warp's window does beside performing its events (R45, R206, R244): deferred commands are released in issue order,
signatures are committed, tile operations join their sequences, arrivals are withdrawn, and results and stores belong to the window no
more. -/
def State.settle (s : State) (w : Nat) (x : Window) : State :=
  let mine := s.deferredOf w
  let sign := fun d : Landing =>
    if d.warp = w then { d with signers := d.signers.mapV fun _ (g : Signer) => { g with committed := true } } else d
  let tile := fun (t : Nat) (y : Tile) => { y with seq := y.seq ++ (x.tileOps.filter fun o => o.1 == t).map Prod.snd }
  let s := (mine.map Prod.fst).foldl State.releaseCmd s
  let s := (lanesOf x.withdrawn).foldl (fun s l => s.withdrawArrival w l) s
  let s := s.onCore (coreOf w) fun c => { c with landings := c.landings.map sign, tiles := c.tiles.mapIdx tile }
  s.onWarp w fun wp =>
    let wp := { wp with
      window := none
      results := wp.results.map fun (r : Res) => { r with spec := false }
      stores := wp.stores.map fun (r : StoreRec) => { r with spec := false } }
    let wp := mine.foldl (fun wp c =>
      match wp.segAt c.2.lbase with
      | some g => if c.2.gain then wp.gained g.slots else wp
      | none => wp) wp
    { wp with fullTold := wp.fullTold && decide (Config.logEntries ≤ wp.sideLog.length) }.acted

/-- The changes of class that the writes of a window make, asked for before they are performed (R167). -/
def State.classWrites (s : State) (w : Nat) (evs : List WinEv) : State :=
  evs.foldl (fun s e =>
    match e with
    | .wr _ lane va (some _) _ _ _ => s.classAccess w lane va
    | _ => s) s

/-- Whether one of those changes waits. -/
def State.classHeld (s : State) (w : Nat) (evs : List WinEv) : Bool :=
  evs.any fun e =>
    match e with
    | .wr _ lane va (some _) _ _ _ => s.classWaits w (s.xlatOf w lane va)
    | _ => false

/-- Whether a complete landing has to issue first on a tile that the commit of a window acts on or signs for (R244). -/
def State.tilesDue (s : State) (w : Nat) (x : Window) : Bool :=
  (x.tileOps.any fun o => s.landingDue w o.1) || (s.signedTiles w).any fun t => s.landingNow (coreOf w) t

/-- The lines that a commit has to gain (R204): those of its writes, unless the side log takes them all. -/
def Warp.commitNeeds (wp : Warp) (x : Window) : List Nat := if wp.sideLog.isEmpty then commitLines x.evs else []

/-- The window commits (R204): it gains each line in turn, and what it gains is invalidated elsewhere; when every line is held its commands read
their descriptors, its events are performed and the lines are released. While something keeps it from committing, such as a full side log (R384),
a complete landing that has to issue
first (R244), or a change of class (R167), it holds no line. -/
def State.commitWindow (s : State) (w : Nat) : State :=
  let wp := s.warp w
  match wp.window with
  | none => s
  | some x =>
    if wp.settled && !wp.logRoom && !wp.fullTold then (s.unclaim (.commit w)).postLogFull w
    else if !wp.mayCommit || s.tilesDue w x then s.unclaim (.commit w)
    else
      let s := s.classWrites w x.evs
      if s.classHeld w x.evs || !s.descsFree w then s.unclaim (.commit w)
      else
        let (s, all) := s.gainLines (dieOf w) (.commit w) (wp.commitNeeds x)
        let s := ((s.claimsOf (.commit w)).filter (s.granted (.commit w))).foldl (fun s l =>
          s.invalidateAll (some w) l (if homeDie (l * 128) = dieOf w then coreOf w % 256 else 1000)) s
        if all then
          let s := ((s.readDescs w x).performEvents w x.evs).unclaim (.commit w)
          (s.settle w x).announceAll w
        else s

/-! ### Rollback -/

/-- A segment as a rollback leaves it: the checkpoint's, but for what is not restored (R50, R58, R203, R374). Deferred causes, notices and the turns
of a takeover that came while the window was open stand in the checkpoint too (`Warp.always`, R378). -/
def Seg.restore (now k : Seg) : Seg :=
  { k with
    dropcnt := now.dropcnt
    bancnt := now.bancnt
    ubase := now.ubase
    tbase := now.tbase
    notBefore := now.notBefore
    progress := now.progress
    bc := now.bc }

/-- How many counted instructions of a window a counter holds. -/
def specCount (rs : List Res) (c : Ctr) : Nat := (rs.filter fun r => r.spec && r.ctr == c).length

/-- The warp returns to its checkpoint (R203). -/
def Warp.restore (wp : Warp) (x : Window) (now : Nat) (engines : Nat) : Warp :=
  let k := x.ckpt
  let segs := wp.segs.map fun g =>
    match k.segs.find? fun h => h.lbase == g.lbase && h.gid == g.gid with
    | some h => { g.restore h with notBefore := max g.notBefore (now + 24) }
    | none => g
  { wp with
    regs := k.regs
    preds := k.preds
    pcs := k.pcs
    live := k.live
    segs := segs
    fpflags := k.fpflags
    holds := k.holds
    engSeq := k.engSeq
    via := k.via
    poison := k.poison
    resume := (match k.at_ with
      | some a => k.resume ++ [a]
      | none => k.resume).map fun (a : ClauseAt) => { a with latch := [] }
    clause := none
    window := none
    ldCnt := wp.ldCnt - specCount wp.results .load
    quCnt := wp.quCnt - specCount wp.results .queue
    stCnt := wp.stCnt - (wp.stores.filter StoreRec.spec).length
    enCnt := wp.enCnt - engines
    results := wp.results.filter fun r => !r.spec
    stores := wp.stores.filter fun r => !r.spec }

/-- The tentative signatures of a warp withdrawn from its core's landings; a landing without signers is free (R206, R239). -/
def State.withdrawSigns (s : State) (w : Nat) : State :=
  s.onCore (coreOf w) fun c => { c with landings := c.landings.map fun d =>
    if d.warp = w ∧ d.st ≠ .free then
      let left := d.signers.filter fun (_, g) => g.committed
      if left = d.signers then d
      else if left.isEmpty then Landing.reset
      else { d with signers := left, st := .signing }
    else d }

/-- Everything of the open window undone (R203). -/
def State.undo (s : State) (w : Nat) : State :=
  let wp := s.warp w
  match wp.window with
  | none => s
  | some x =>
    let n := ((s.deferredOf w).map fun q => q.2.insn).eraseDups.length
    let s := s.unclaim (.commit w)
    let s := { s with cmds := s.cmds.filter fun (_, c) => !(c.warp == w && c.st == CmdSt.deferred) }
    ((s.withdrawSigns w).setWarp w (wp.restore x s.now n)).announceAll w

/-- Escalation after a counted rollback (R380): the fourth within 4,096 cycles raises the level. -/
def State.escalate (s : State) (w : Nat) : State :=
  let wp := s.warp w
  let rolls := (wp.rolls.filter fun t => decide (s.now < t + 4096)) ++ [s.now]
  if rolls.length < 4 ∨ 3 ≤ wp.level then s.setWarp w { wp with rolls := rolls }
  else
    let lvl := wp.level + 1
    let wp' := { wp with rolls := [], level := lvl, levelAt := s.now, soloUntil := if lvl < 3 then s.now + 65536 else wp.soloUntil }
    let s := s.setWarp w wp'
    match wp.segs.head? with
    | none => s
    | some g =>
      let i := s.segInfo w g
      if lvl = 1 then s.post 0xA0 { i with detail := Config.openDetail 0xA0 }
      else if lvl = 2 then
        let s := s.post 0xA1 { i with detail := Config.openDetail 0xA1 }
        s.onDie (dieOf w) fun d => { d with serial := { d.serial with waiting := d.serial.waiting ++ [w] } }
      else
        let (k, s) := s.hold (s.fnOf g.gid) (.warp w)
        s.post 0xA2 { i with hold := k, detail := Config.openDetail 0xA2 }

/-- A hit rolls the warp back (R203, R380). A rollback caused by a wrap is not counted. -/
def State.rollBack (s : State) (w : Nat) (counted : Bool) : State :=
  if (s.warp w).window.isNone then s
  else
    let s := s.undo w
    if counted then s.escalate w else s

/-- A read that raises a precise cause (R390): delivered at once on a solo pass; else the warp rolls back, uncounted, and
runs solo up to and including this slot. -/
def State.readFault (s : State) (w : Nat) (rs : List (Nat × Raise)) : State :=
  if s.solo w then s.takeAll w rs
  else
    let c := (s.warp w).clauseAt
    let s := (s.openWindow w).rollBack w false
    s.onWarp w fun wp => { wp with soloTo := some (c.hdr, c.slot, c.lanes) }

/-! ### Irrevocable instructions -/

/-- Whether an irrevocable instruction of a warp may act (R205). -/
def Warp.mayAct (wp : Warp) : Bool := wp.window.isNone && wp.sideLog.isEmpty && wp.irr == 0

/-- An irrevocable instruction of the current warp: it acts when R205 lets it, and its slot is held until then. -/
def State.irrevocably (s : State) (act : State → State) : State :=
  if s.curWarp.mayAct then (act s).onWarp s.cur Warp.acted else s.holdSlot s.cur .irrevocable

/-! ### Raising memory causes -/

/-- The cause that a segment raises from the failures of its lanes: the lowest code, with each lane's address (R343, R389). -/
def Warp.raiseOf (wp : Warp) (m : Mask) (g : Seg) (err : Nat → Option XErr) (addr : Nat → DWord) : Option Raise :=
  let lanes := lanesOf (g.slots &&& m)
  let errs := lanes.filterMap err
  match errs with
  | [] => none
  | e :: es =>
    let low := (e :: es).foldl (fun a b => if b.code < a.code then b else a) e
    some { code := low.code
           mask := g.rel (maskWhere fun l => m.getLsbD l && decide ((err l).map XErr.code = some low.code))
           detail := low.detail
           addrs := (List.range g.width).map fun l => if m.getLsbD (g.lbase + l) then addr (g.lbase + l) else 0
           logAddr := low.addr
           logPc := low.pc.getD wp.clauseAt.hdr }

/-- The slot lanes of the segments that have raised. -/
def Warp.stoppedBy (wp : Warp) (rs : List (Nat × Raise)) : Mask :=
  rs.foldl (fun m r => m ||| ((wp.segAt r.1).map Seg.slots).getD 0) 0

end Sys2Proof.Machine
end

