-- ==== Sys2Proof/Machine/MemInstr.lean ====
section
/-! DEFINITION. Loads, stores, rows and prefetch; early reads, commit, rollback and the side log as events (R214 to R219,
R200 to R209, R392). -/

namespace Sys2Proof.Machine

/-! ### Loads -/

/-- Bytes of one lane's access (R216). -/
def accessSize (b128 : Bool) (ty : Ty) : Nat := if b128 then 16 else Ty.bits ty / 8

/-- Registers of one lane's access. -/
def accessWords (b128 : Bool) (ty : Ty) : Nat := if b128 then 4 else if Ty.is2 ty then 2 else 1

/-- MODEL: the place of bytes that the warp's own writes hold and whose page is not mapped: none of memory, which lies below it. -/
def ownLoc (va : DWord) : Loc := .hbm (2 ^ 62 + va.toNat)
def Loc.own : Loc → Bool
  | .hbm pa => decide (2 ^ 62 ≤ pa)
  | .spad .. => false

/-- Whether writes of the warp that wait for their page give every byte of a read (R200, R392). -/
def State.ownBytes (s : State) (w n : Nat) (va : DWord) : Bool :=
  let wp := s.warp w
  let evs := (wp.window.map Window.evs).getD []
  let ws := (logWrites wp.sideLog ++ winWrites evs evs.length).filter fun x => x.1.isNone
  (List.range n).all fun j => ws.any fun x => (coverByte (ownLoc va) va j none x.2.1 x.2.2.1 x.2.2.2).isSome

/-- The place of a lane's read (R388): bytes that the warp's own store buffer and side log hold need no page (R392). -/
def State.readPlace (s : State) (w l : Nat) (size : Nat) (va : DWord) : Except XErr Place :=
  match s.lanePlace w l .load size va with
  | .ok p => .ok p
  | .error e => if (e.code == 0x70 || e.toLog) && s.ownBytes w size va then .ok ⟨ownLoc va, none⟩ else .error e

/-- What a lane's read raises: the failures of its place, or a poisoned granule (R362, R388, R410). -/
def State.readErr (s : State) (w l : Nat) (size : Nat) (va : DWord) : Option XErr :=
  match s.readPlace w l size va with
  | .error e => some e
  | .ok p => if s.poisoned p.loc size then some ⟨0xB3, Config.openDetail 0xB3, va &&& ~~~31, none⟩ else none

/-- The place of an access that has been judged. -/
def State.okPlace (s : State) (w l : Nat) (acc : Access) (size : Nat) (va : DWord) : Place :=
  match s.lanePlace w l acc size va with
  | .ok p => p
  | .error _ => ⟨.hbm 0, none⟩

/-- The place of a read that has been judged. -/
def State.loadPlace (s : State) (w l : Nat) (size : Nat) (va : DWord) : Place :=
  match s.readPlace w l size va with
  | .ok p => p
  | .error _ => ⟨.hbm 0, none⟩

/-- The causes of a reading slot, segment by segment; for poison the trap record holds granule addresses (R410). -/
def State.readRaises (s : State) (w : Nat) (m : Mask) (size : Nat) (ea : Nat → DWord) : List (Nat × Raise) :=
  let wp := s.warp w
  wp.raises m fun g =>
    (wp.raiseOf m g (fun l => s.readErr w l size (ea l)) ea).map fun (r : Raise) =>
      if r.code = 0xB3 then { r with addrs := r.addrs.map fun a => a &&& ~~~31 } else r

/-- The group identities and generations that a result belongs to (R281). -/
def State.gensOf (s : State) (w : Nat) (m : Mask) : List (Nat × Nat × BitVec 16) :=
  ((s.warp w).segsIn m).map fun g => (g.lbase, g.gid, s.genOf g.gid)

/-- The lanes that read for a result: the lead lane of each segment when the address is uniform and has no index (R56, R216). -/
def Warp.readers (wp : Warp) (m : Mask) (uniform : Bool) : List Nat :=
  if uniform then (wp.segsIn m).filterMap fun g => g.lead m else lanesOf m

/-- A result record put on its way, and its counter raised (R73). -/
def Warp.addRes (wp : Warp) (r : Res) : Warp :=
  let wp := { wp with results := wp.results ++ [r], nextId := r.id }
  match r.ctr with
  | .load => { wp with ldCnt := wp.ldCnt + 1 }
  | .store => { wp with stCnt := wp.stCnt + 1 }
  | .engine => { wp with enCnt := wp.enCnt + 1 }
  | .queue => { wp with quCnt := wp.quCnt + 1 }

/-- A new result record of warp `w` for lanes `m`. -/
def State.newRes (s : State) (w : Nat) (ctr : Ctr) (dst : Reg) (words : Nat) (ty : Ty) (m : Mask) (shape : Shape) : Res :=
  let wp := s.warp w
  let (fill, cover) := wp.reach m
  let id := wp.nextId + 1
  let mate := wp.results.find? fun r => r.hdr == wp.clauseAt.hdr && (r.under &&& m) != 0
  { id := id, run := (mate.map Res.run).getD id, gain := wp.counts m, ctr := ctr, dst := dst, words := words, ty := ty, lanes := m, vals := [], shape := shape
    cover := cover, fill := fill, flags := 0, pdst := none, pbits := 0, pmask := 0, spec := wp.window.isSome, gens := s.gensOf w m
    hint := .none, hdr := wp.clauseAt.hdr, slot := wp.slotNo, under := m, lost := [], plost := 0 }

/-- Whether a solo warp's next event may issue: every event before it is performed, those of a window that was open when the warp became solo
too (R381). -/
def Warp.soloFree (wp : Warp) : Bool := wp.window.isNone && wp.sideLog.isEmpty && wp.irr == 0

/-- What some lanes' reads ask of the leaf entries of their pages: `AC`, and a change of class, and whether one of those waits (R167, R179). -/
def State.classLanes (s : State) (w : Nat) (lanes : List Nat) (place : Nat → Place) (ea : Nat → DWord) : State × Bool :=
  let s := lanes.foldl (fun s l => (s.touch w (place l).xlat false).classAccess w l (ea l)) s
  (s, lanes.any fun l => s.classWaits w (s.xlatOf w l (ea l)))

/-- One read of a solo warp, at once at its serialisation point (R381). -/
def State.soloRead (s : State) (w id lane : Nat) (va : DWord) (l : Loc) (n : Nat) (hint : Hint) : State :=
  let s := s.fill (coreOf w) l hint (s.privAccess w lane va)
  let v := s.viewRead w 0 l va n
  s.onWarp w fun wp => (wp.onRes id fun r => r.give (wp.served r lane) v).acted

/-- A read of a window's event list: bytes that the warp's own writes hold are read at once (R200, R392). -/
def State.addRead (s : State) (w id lane : Nat) (va : DWord) (p : Place) (n : Nat) : State :=
  if p.loc.own then
    let v := s.viewRead w (((s.warp w).window.map Window.evs).getD []).length p.loc va n
    s.onWarp w fun wp => (wp.onRes id fun r => r.give (wp.served r lane) v).addEvent (.rd id lane va p.loc n (some v))
  else s.onWarp w fun wp => wp.addEvent (.rd id lane va p.loc n none)

/-- The current slot reads memory in each lane of `m` into registers (R216, R218). -/
def State.loadLanes (s : State) (m : Mask) (dst : Reg) (words : Nat) (ty : Ty) (hint : Hint) (shape : Shape) (size : Nat)
    (ea : Nat → DWord) : State :=
  let w := s.cur
  let wp := s.warp w
  let solo := s.solo w
  if m = 0 then s
  else if Config.counterTop ≤ wp.ldCnt then s.holdSlot w .counter
  else if !wp.hasRoom (wp.readers m (shape == .uniform)).length then s.holdSlot w .window
  else
    let rs := s.readRaises w m size ea
    if rs ≠ [] ∧ !solo then s.readFault w rs
    else
      let m := m &&& ~~~wp.stoppedBy rs
      let lanes := wp.readers m (shape == .uniform)
      let place := fun l => s.loadPlace w l size (ea l)
      let (s, waits) := if solo then s.classLanes w lanes place ea else (s, false)
      if solo && (!wp.soloFree || waits || lanes.any fun l => !s.mayRead w (place l).loc) then s.holdSlot w .window
      else
        let s := s.takeAll w rs
        if m = 0 then s
        else
          let s := s.openWindow w
          let r := { s.newRes w .load dst words ty m shape with hint := hint }
          let s := s.onWarp w fun wp => wp.addRes r
          lanes.foldl (fun s l =>
            let p := place l
            let s := if solo then s else s.touch w p.xlat false
            if solo then s.soloRead w r.id l (ea l) p.loc size hint
            else s.addRead w r.id l (ea l) p size) s

/-- `LD` (R216). -/
def execLd (p : Pre) (hint : Hint) (b128 : Bool) (ty : Ty) (d a b : Reg) (off : BitVec 16) (s : State) : Result :=
  let wp := s.curWarp
  let size := accessSize b128 ty
  let shape := if b = .vz ∧ wp.shape true a = .uniform then Shape.uniform else .general
  .next (s.loadLanes (wp.execMask p) d (accessWords b128 ty) ty hint shape size fun l => wp.ea a b off size l)

/-! ### Stores -/

/-- A store-counted record of lanes `m` put on its way, with the group of each of its writes (R29, R73, R374). -/
def Warp.addStore (wp : Warp) (owed : List Nat) (m : Mask) : Warp :=
  { wp with
    stores := wp.stores ++ [⟨wp.nextId + 1, owed, wp.window.isSome, wp.counts m⟩]
    nextId := wp.nextId + 1
    stCnt := wp.stCnt + 1 }

/-- The annex copy that a store to a remote-homed line invalidates at issue, with the L1 copies that the annex served (R168). -/
def State.dropAnnex (s : State) (w : Nat) (l : Loc) : State :=
  match l with
  | .spad _ _ => s
  | .hbm pa => if l.remote (dieOf w) then s.loseAnnex (dieOf w) (pa / 128) else s

/-- The current slot writes memory in each lane of `m` (R216, R218, R388, R392). -/
def State.storeLanes (s : State) (m : Mask) (hint : Hint) (size : Nat) (ea : Nat → DWord) (val : Nat → BitVec 128) : State :=
  let w := s.cur
  let wp := s.warp w
  let solo := s.solo w
  if m = 0 then s
  else if Config.counterTop ≤ wp.stCnt then s.holdSlot w .counter
  else if !wp.hasRoom (lanesOf m).length then s.holdSlot w .window
  else if solo && !wp.soloFree then s.holdSlot w .window
  else
    let judged := fun l => s.lanePlace w l .store size (ea l)
    let err := fun l => match judged l with
      | .error e => if e.toLog then none else some e
      | .ok _ => none
    let rs := wp.raises m fun g => wp.raiseOf m g err ea
    let m := m &&& ~~~wp.stoppedBy rs
    let s := s.takeAll w rs
    if m = 0 then s
    else
      let s := s.openWindow w
      let id := wp.nextId + 1
      let s := s.onWarp w fun wp => wp.addStore ((lanesOf m).map wp.gidOf) m
      (lanesOf m).foldl (fun s l =>
        let (loc, x) := match judged l with
          | .ok p => (some p.loc, p.xlat)
          | .error _ => (none, none)
        let s := s.touch w x false
        let s := match loc with
          | some k => s.dropAnnex w k
          | none => s
        if solo then
          (s.toSideLog w ⟨id, l, ((wp.segOf l).map Seg.lbase).getD 0, ea l, loc, size, val l, false, hint⟩).onWarp w Warp.acted
        else s.onWarp w fun wp => wp.addEvent (.wr id l (ea l) loc size (val l) hint)) s

/-- The bytes that a store takes from a register group, first register lowest (R216). -/
def Warp.storeValue (wp : Warp) (words : Nat) (d : Reg) (l : Nat) : BitVec 128 :=
  (List.range words).foldl (fun v k => v ||| ((wp.groupWord d k l).setWidth 128 <<< (32 * k))) 0

/-- `ST` (R216). -/
def execSt (p : Pre) (hint : Hint) (b128 : Bool) (ty : Ty) (d a b : Reg) (off : BitVec 16) (s : State) : Result :=
  let wp := s.curWarp
  let size := accessSize b128 ty
  .next (s.storeLanes (wp.execMask p) hint size (fun l => wp.ea a b off size l) (wp.storeValue (accessWords b128 ty) d))

/-! ### Rows (R218) -/

/-- The lowest executing lane of the sixteen that holds slot lane `l`. -/
def Warp.sixteenLead (wp : Warp) (m : Mask) (l : Nat) : Nat :=
  match wp.segOf l with
  | none => l
  | some g =>
    let k := (l - g.lbase) / 16
    ((lanesOf (g.slots &&& m)).find? fun j => (j - g.lbase) / 16 == k).getD l

/-- The row address of a lane's sixteen. -/
def Warp.rowBase (wp : Warp) (m : Mask) (a b : Reg) (off : BitVec 16) (l : Nat) : DWord :=
  wp.ea a b off 256 (wp.sixteenLead m l)

/-- The address of a lane within its row. -/
def Warp.rowAddr (wp : Warp) (m : Mask) (a b : Reg) (off : BitVec 16) (l : Nat) : DWord :=
  wp.rowBase m a b off l + BitVec.ofNat 64 (16 * ((l - ((wp.segOf l).map Seg.lbase).getD 0) % 16))

/-- The causes of misaligned rows (R362). -/
def Warp.rowRaises (wp : Warp) (m : Mask) (base : Nat → DWord) : List (Nat × Raise) :=
  wp.raises m fun g =>
    wp.raiseOf m g (fun l => if (base l).toNat % 256 = 0 then none else some ⟨0x51, 16, base l, none⟩) base

/-- `LDW` (R218). -/
def execLdw (p : Pre) (hint : Hint) (d a b : Reg) (off : BitVec 16) (s : State) : Result :=
  let wp := s.curWarp
  let m := wp.execMask p
  let rs := wp.rowRaises m (wp.rowBase m a b off)
  if rs ≠ [] ∧ !s.solo s.cur then .next (s.readFault s.cur rs)
  else
    .next ((s.takeAll s.cur rs).loadLanes (m &&& ~~~wp.stoppedBy rs) d 4 .b32 hint .general 16 fun l => wp.rowAddr m a b off l)

/-- `STW` (R218). -/
def execStw (p : Pre) (hint : Hint) (d a b : Reg) (off : BitVec 16) (s : State) : Result :=
  let wp := s.curWarp
  let m := wp.execMask p
  let rs := wp.rowRaises m (wp.rowBase m a b off)
  .next ((s.takeAll s.cur rs).storeLanes (m &&& ~~~wp.stoppedBy rs) hint 16 (fun l => wp.rowAddr m a b off l)
    (wp.storeValue 4 d))

/-! ### Prefetch -/

/-- A prefetched line filled: into the L1 and its L2 or annex, or into the L2 or annex alone (R219). DESIGN CHOICE (assumption 102): it is placed
there as an unhinted fill is. -/
def State.prefetch (s : State) (w lane : Nat) (va : DWord) (x : Place) (l2 : Bool) : State :=
  match x.loc with
  | .spad .. => s
  | .hbm pa =>
    if !l2 then s.fill (coreOf w) x.loc .none (s.privAccess w lane va)
    else if x.loc.remote (dieOf w) then s.annexServe (dieOf w) (pa / 128) .none
    else s.useL2 (pa / 128) .none

/-- The place that a lane prefetches, if it is one (R219). -/
def State.prefetched (s : State) (w l : Nat) (va : DWord) : Option Place :=
  match aperture va with
  | .global =>
    match s.lanePlace w l .load 1 va with
    | .error _ => none
    | .ok x => some x
  | _ => none

/-- `PRF` (R219): a line of a readable global address comes into the caches; nothing else happens. The slot is held while a home slice or a wrap
holds the request of a line (R170, R172). -/
def execPrf (p : Pre) (l2 : Bool) (a b : Reg) (off : BitVec 16) (s : State) : Result :=
  let wp := s.curWarp
  let w := s.cur
  let va := fun l => wp.ea a b off 4 l
  let lanes := lanesOf (wp.execMask p)
  .next (if lanes.any fun l => (s.prefetched w l (va l)).any fun x => !s.canRead (coreOf w) x.loc then s.holdSlot w .maintenance
    else lanes.foldl (fun s l =>
      match s.prefetched w l (va l) with
      | some x => s.prefetch w l (va l) x l2
      | none => s) s)

/-! ### Events of a window -/

/-- Whether an event of the open window is a read without a value whose granules are poisoned (R410). -/
def State.readsPoison (s : State) (w k : Nat) : Bool :=
  match ((s.warp w).window.map Window.evs).bind fun evs => evs[k]? with
  | some (.rd _ _ _ loc n none) => s.poisoned loc n
  | _ => false

/-- `EARLY_READ` (R200). A read that finds poison has no value: the warp rolls back, uncounted, and the read is judged where it issues again
(R390, R410). -/
def execEarlyRead (w k : Nat) (s : State) : Result :=
  .next (if s.readsPoison w k then s.rollBack w false else s.takeValue w k)

/-- `ROLLBACK`: the window has taken a hit (R203). -/
def execRollback (w : Nat) (s : State) : Result :=
  .next (if ((s.warp w).window.map Window.hit).getD false then s.rollBack w true else s)

/-- The held slot of a warp runs again: it is the slot that the next step executes. -/
def State.retry (s : State) (w : Nat) : State :=
  { s.onWarp w fun wp => { wp with clause := wp.clause.map fun c => { c with held := none } } with cur := w }

/-- `IRREVOCABLE_ACT` (R205). -/
def execIrrevocableAct (w : Nat) (s : State) : Result :=
  let wp := s.warp w
  .next (match wp.clause with
    | some c => if c.held = some .irrevocable ∧ !c.parked ∧ wp.mayAct then s.retry w else s
    | none => s)

/-- The held slot of a warp is attempted again (R67, R223); the clause of a warp that is between two slots goes on. -/
def execHeldSlotAct (w : Nat) (s : State) : Result :=
  .next (match (s.warp w).clause with
    | some c => if c.held ≠ some .irrevocable ∧ !c.parked then s.retry w else s
    | none => s)

/-! ### The side log -/

/-- The log is empty: its identifier and its pages are free (R348, R392). -/
def State.logEmptied (s : State) (w : Nat) : State :=
  let wp := s.warp w
  if wp.sideLog = [] then
    let s := if wp.logHold = 0 then s else s.unhold wp.logHold
    s.onWarp w fun wp => { wp with logHold := 0, logPages := [], logTold := false, fullTold := false, logDrain := false }
  else s

/-- Reads of a window that the warp's own writes of a page gave come to lie at the page's place, now that it has one: their lines enter the
signature (R200, R202). -/
def Window.found (x : Window) (va : DWord) (l : Loc) : Window :=
  x.evs.zipIdx.foldl (fun (x : Window) q =>
    match q.1, l with
    | .rd res lane v (.hbm pa) n val, .hbm base =>
      if (Loc.hbm pa).own ∧ v.toNat / 4096 = va.toNat / 4096 then
        let at_ := Loc.hbm (base / 4096 * 4096 + v.toNat % 4096)
        { x with evs := setAt x.evs q.2 (.rd res lane v at_ n val), sig := x.sig ||| (1#1024 <<< at_.sig) }
      else x
    | _, _ => x) x

/-- The head entry of the log is performed at a place. -/
def State.performHead (s : State) (w : Nat) (l : Loc) : State :=
  match (s.warp w).sideLog with
  | [] => s
  | e :: rest =>
    let s := s.onWarp w fun wp => { wp with sideLog := rest, logSince := s.now, window := wp.window.map fun x => x.found e.va l }
    (s.writeEvent w e.store e.lane e.va l e.n e.val e.hint).logEmptied w

/-- The store records whose writes are all performed, or withdrawn, fall off the store counter (R73, R74). -/
def Warp.dropDone (wp : Warp) : Warp :=
  let done := fun r : StoreRec => r.owed.isEmpty && !r.spec
  { wp with stores := wp.stores.filter fun r => !done r, stCnt := wp.stCnt - (wp.stores.filter done).length }

/-- The log discarded: its writes are never performed, and their store counts are withdrawn at once (R74, R392). -/
def State.discardLog (s : State) (w : Nat) : State :=
  let wp := s.warp w
  if wp.sideLog = [] then s
  else
    let s := { s with homeOps := s.homeOps.filter fun o => !(o.warp == w && o.fn == AtomFn.logWrite) }
    let s := s.onWarp w fun wp =>
      (wp.sideLog.foldl (fun (wp : Warp) e => wp.storeDone e.store e.lane) { wp with sideLog := [] }).dropDone
    s.logEmptied w

/-- The lowest-numbered segment of a group that has a live lane (R344). -/
def State.lowestLive (s : State) (gid : Nat) : Option (Nat × Nat) :=
  let all := s.warps.flatMap fun (k, wp) =>
    (wp.segs.filter fun h => h.gid == gid && (h.slots &&& wp.live) != 0).map fun h => (k, h.lbase, h.idx)
  (all.foldl (fun (b : Option (Nat × Nat × Nat)) x =>
    match b with
    | none => some x
    | some y => if x.2.2 < y.2.2 then some x else b) none).map fun x => (x.1, x.2.1)

/-- A deferred cause put at a segment (R344). -/
def State.queueAt (s : State) (w lb : Nat) (x : SegCause) : State :=
  s.onWarp w fun wp => wp.always fun wp => wp.onSeg lb fun h => { h with queue := h.queue ++ [x] }

/-- A cause that waits at a segment for its next clause boundary, or at the lowest segment of its group that still has a
live lane (R344); the lanes `m` of the segment have the address as theirs (R389). At a group without a live lane it waits for the porter, which
ends the group (`execHandlerEntry`). -/
def State.defer (s : State) (w lb : Nat) (code : Nat) (detail : Word) (addr : DWord) (m : Mask) : State :=
  match (s.warp w).segAt lb with
  | none => s
  | some g =>
    let x := { SegCause.deferred code detail s.now with logAddr := addr }
    let mine := { x with addrs := if m = 0 then [] else allLanes.map fun j => if m.getLsbD j then addr else 0 }
    if (g.slots &&& (s.warp w).live) != 0 then s.queueAt w lb mine
    else match s.lowestLive g.gid with
      | some (k, l) => s.queueAt k l x
      | none => s.queueAt w lb mine

/-- `SIDE_LOG_DRAIN`: the head write is judged (R392): performed, sent to a home slice that still has a lease to run,
posted again, or ended by `LOG_PERM`. -/
def execSideLogDrain (w : Nat) (s : State) : Result :=
  let wp := s.warp w
  .next (match wp.sideLog with
    | [] => s
    | e :: rest =>
      if e.sent ∨ !(e.loc.isSome || wp.logDrain) then s
      else match s.lanePlace w e.lane .store e.n e.va with
        | .ok p =>
          let s := match p.xlat with
            | some x => s.keepXlat x
            | none => s
          if s.lineReady p.loc.line && !s.wrapHeld (dieOf w) p.loc then s.performHead w p.loc
          else if s.wrapHeld (dieOf w) p.loc then s
          else
            let op : HomeOp := ⟨w, e.store, true, e.lane, p.loc, e.va, e.n, .logWrite, 0, 0, dieOf w, .none⟩
            let s := { s with homeOps := s.homeOps ++ [op] }
            s.onWarp w fun wp => { wp with sideLog := { e with sent := true } :: rest }
        | .error x =>
          if x.code = 0x75 ∨ x.code = 0x77 then
            ((s.discardLog w).met (s.laneAsker w e.lane) x e.va).defer w e.lbase 0x88 x.detail x.addr (laneBit (e.lane - e.lbase))
          else
            let s := s.postLogFault w e.lane x true
            s.onWarp w fun wp => { wp with
              logDrain := false
              sideLog := { e with loc := none } :: rest })

/-! ### Results and acknowledgements -/

/-- The words that a result writes: the value cut into registers, a narrow type extended (R85, R216). -/
def Res.word (r : Res) (k l : Nat) : Word :=
  let v := (r.vals.find l).getD 0
  if r.words = 1 then loWord (writeInt r.ty (readInt r.ty (v.setWidth 64))) else v.extractLsb' (32 * k) 32

/-- The lanes of word `k` of a result, of `m`, that a later slot of its clause has not written (R61). -/
def Res.kept (r : Res) (k : Nat) (m : Mask) : Mask := m &&& ~~~(r.lost.find k).getD 0

/-- A result written to a register file (R54, R61, R62). -/
def Res.writeRegs (r : Res) (segs : List Seg) (m : Mask) (regs : List VReg) : List VReg :=
  match r.dst with
  | .v n =>
    (List.range r.words).foldl (fun rs k =>
      let i := n.toNat + k
      let lanes := r.kept k m
      if lanes = 0 then rs
      else fileAt 128 VReg.reset rs i ((rs.getD i VReg.reset).write lanes (fillLess segs r.fill r.lanes lanes)
        (r.cover.less segs r.lanes lanes) r.shape fun l => r.word k l)) regs
  | _ => regs

/-- The predicate that a result writes (R61, R223). -/
def Res.writePreds (r : Res) (m : Mask) (ps : List Mask) : List Mask :=
  match r.pdst with
  | none => ps
  | some n =>
    let m := m &&& ~~~r.plost
    if n = 15 then ps else fileAt 15 0 ps n ((ps.getD n 0 &&& ~~~m) ||| (r.pbits &&& m))

/-- Poison that a result's lanes lose (R410). -/
def Res.cleanPoison (r : Res) (m : Mask) (p : List Nat) : List Nat :=
  match r.dst with
  | .v n => (List.range r.words).foldl (fun p k => clearPoison p (n.toNat + k) (r.kept k m)) p
  | _ => p

/-- What a result writes in the lanes `k`, as results of its slot (R61). -/
def Res.asPends (r : Res) (k : Mask) : List Pend :=
  let regs := match r.dst with
    | .v n => (List.range r.words).map fun j =>
        Pend.mk r.slot r.slot (.vreg (n.toNat + j)) (r.kept j (r.lanes &&& k)) [] .general .part 0
    | _ => []
  match r.pdst with
  | some n => regs ++ [Pend.mk r.slot r.slot (.preg n) (r.pmask &&& k &&& ~~~r.plost) [] .general .part 0]
  | none => regs

/-- Results of earlier slots that still pend in a clause yield to a result of it that arrives (R61). -/
def ClauseAt.yieldTo (a : ClauseAt) (segs : List Seg) (hdr : DWord) (ps : List Pend) : ClauseAt :=
  if a.hdr = hdr then { a with pend := (a.pend.map fun p => ps.foldl (Pend.yieldTo segs) p).filter Pend.alive } else a

/-- Results of earlier slots of the same run of a clause lose what a result that arrives has written, also when the clause is over (R61). -/
def Warp.outrun (wp : Warp) (r : Res) (ps : List Pend) : Warp :=
  { wp with results := wp.results.map fun x =>
      if x.run = r.run ∧ x.slot < r.slot then ps.foldl (fun x p => x.lose p.tgt p.lanes) x else x }

/-- A result applied to a warp, in the lanes `k`: registers, predicate, flags and poison; results of earlier slots of its clause yield to it,
those that still pend in a lane in which the clause is under way and those that are on their way themselves (R61, R104, R410). -/
def Res.applyTo (r : Res) (k : Mask) (wp : Warp) : Warp :=
  let ps := r.asPends (k &&& r.under)
  let wp := (wp.onClauses fun a => a.yieldTo wp.segs r.hdr ps).outrun r (r.asPends k)
  { wp with
    regs := r.writeRegs wp.segs (r.lanes &&& k) wp.regs
    preds := r.writePreds (r.pmask &&& k) wp.preds
    poison := r.cleanPoison (r.lanes &&& k) wp.poison
    fpflags := wp.fpflags ||| r.flags }

/-- A result from before a window applied to its checkpoint, which a rollback would otherwise lose it from (R203). -/
def Res.toCkpt (r : Res) (k : Mask) (wp : Warp) (c : Checkpoint) : Checkpoint :=
  (r.applyTo k (wp.atCkpt c)).checkpoint (c.at_.map fun a => a.yieldTo c.segs r.hdr (r.asPends (k &&& r.under)))

/-- The slot lanes of the segments of a result that still stand with the generation that sent it (R281). -/
def State.freshSlots (s : State) (w : Nat) (r : Res) : Mask :=
  r.gens.foldl (fun m (lb, gid, gen) =>
    match (s.warp w).segAt lb with
    | some g => if g.gid = gid ∧ s.genOf gid = gen then m ||| g.slots else m
    | none => m) 0

/-- The groups of a result that no longer stand with the generation that sent it (R281). -/
def State.staleGids (s : State) (r : Res) : List Nat :=
  r.gens.filterMap fun (_, gid, gen) => if s.genOf gid = gen ∧ (s.group gid).isSome then none else some gid

/-- Whether every lane of a result has its value. -/
def Res.complete (r : Res) : Bool := (lanesOf r.lanes).all fun l => (r.vals.find l).isSome

/-- `LOAD_RESULT_ARRIVAL` (R62, R73, R281): the result is written, also to the checkpoint that a result from before the
window would otherwise be lost from, and its counter falls. -/
def execLoadResultArrival (w k : Nat) (s : State) : Result :=
  let wp := s.warp w
  .next (match wp.results.find? fun r => r.id == k with
    | none => s
    | some r =>
      if !r.complete then s
      else
        let k := s.freshSlots w r
        let s := (s.staleGids r).foldl (fun s g => s.countDrop (dieOf w) g) s
        s.onWarp w fun wp =>
          let wp' := r.applyTo k { wp with results := wp.results.filter fun x => x.id != r.id }
          ({ wp' with
            window := if r.spec then wp'.window else wp'.window.map fun (x : Window) => { x with ckpt := r.toCkpt k wp x.ckpt }
            clause := wp'.clause.map fun (c : Clause) => { c with snap := r.toCkpt k wp c.snap } }).countDown r.ctr)

/-- `STORE_ACK` (R73): the store records whose writes are all performed fall off the counter. -/
def execStoreAck (w : Nat) (s : State) : Result := .next (s.onWarp w Warp.dropDone)

end Sys2Proof.Machine
end

