-- ==== Sys2Proof/Machine/Control.lean ====
section
/-! DEFINITION. Control: branches, calls, waiting, the usher, the banister's takeover, traps by instruction, moves and special
registers (R40 to R51, R113 to R128, R374 to R377). -/

namespace Sys2Proof.Machine

/-! ### Standing places -/

/-- The clause header at which a slot lane stands: its own, or that of the slot that holds it (R45). -/
def Warp.standing (wp : Warp) (l : Nat) : DWord :=
  match wp.holds.find l with
  | some h => h.hdr
  | none =>
    match wp.resume.find? fun a => a.lanes.getLsbD l with
    | some a => a.hdr
    | none => wp.pc l

/-- Lanes of a segment that neither a wait, nor a cause, nor a slot at which they stand keeps from entering the usher (R45). DESIGN
CHOICE (assumption 85): a lane that stands at a slot, and one that a cause has stopped, is kept out. -/
def Warp.free (wp : Warp) (g : Seg) : Mask := g.rel (wp.live &&& ~~~wp.heldMask &&& ~~~wp.resumeMask) &&& ~~~g.trapped

/-- A lane's wait ends: it goes on at the next header, and where it may not run yet, in the usher, parked or inactive, its `vpc` names that
header if it named the held clause (R34, R45; assumption 85). -/
def Warp.releaseLane (wp : Warp) (l : Nat) : Warp :=
  match wp.holds.find l with
  | none => wp
  | some h =>
    let next := wp.pc l
    let fix := fun (g : Seg) (v : List DWord) => if v.getD (l - g.lbase) 0 = h.hdr then setAt v (l - g.lbase) next else v
    let wp := { wp with holds := wp.holds.del l }
    wp.onSegs fun g => if g.hasLane l && (g.udepth != 0 || g.takeover.isSome || !(g.lmask &&& ~~~g.lpark).getLsbD (l - g.lbase)) then { g with vpc := fix g g.vpc, ovpc := fix g g.ovpc } else g

/-! ### Control transfers -/

/-- The target of a format J word (R84). -/
def Warp.jumpTarget (wp : Warp) (off : BitVec 40) : DWord := wp.pcWord + off.signExtend 64 * 8

/-- What a target raises (R354, R356): an address outside the global aperture, or a word that is no clause header. A target
whose page is not there is judged when it is fetched. -/
def State.targetErr (s : State) (w l : Nat) (target : DWord) : Option XErr :=
  let a := target &&& ~~~7
  match aperture a with
  | .global =>
    match s.fetchPlace (s.laneAsker w l) a with
    | .error _ => none
    | .ok pa =>
      let h := s.mem.dword pa
      if (Header.ofWord h).fault.isSome then some ⟨0x04, hiWord h, target, none⟩ else none
  | _ => some ⟨0x58, 8, target, none⟩

/-- The causes of a control transfer of lanes `m`. -/
def State.targetRaises (s : State) (m : Mask) (target : Nat → DWord) : List (Nat × Raise) :=
  let wp := s.curWarp
  wp.raises m fun g => wp.raiseOf m g (fun l => s.targetErr s.cur l (target l)) target

/-- Lanes sent to a target by the current slot (R354). -/
def Warp.goTo (wp : Warp) (m : Mask) (target : Nat → DWord) : Warp :=
  let c := wp.clauseAt
  let wp := wp.setPcs m fun l => target l &&& ~~~7
  { wp with via := (lanesOf m).foldl (fun t l => t.put l (c.hdr, c.slot)) wp.via }

/-- The lanes of `m` go to their targets, but for segments that a target stops. -/
def State.transfer (s : State) (m : Mask) (target : Nat → DWord) : State :=
  let rs := s.targetRaises m target
  let s' := s.takeAll s.cur rs
  s'.onWarp s.cur fun wp => wp.goTo (m &&& ~~~s.curWarp.stoppedBy rs) target

/-! ### Results that a later slot overtakes (R61) -/

/-- Pending results of a place lose slot lanes that the current slot has written: the later slot wins (R61). -/
def Warp.dropPend (wp : Warp) (t : Target) (m : Mask) : Warp :=
  { wp with clause := wp.clause.map fun c => { c with at_ := { c.at_ with
      pend := (c.at_.pend.map fun p => if p.tgt = t then p.split (~~~m) else p).filter Pend.alive } } }

/-- A `WAKE` that pends in any clause of the warp no longer clears the bits of lanes that the current slot has parked (R49, R61). -/
def Warp.dropWake (wp : Warp) (g : Seg) (m : Mask) : Warp :=
  wp.onClauses fun a => { a with pend := a.pend.map fun p =>
    if p.tgt = .lparkClear then { p with vals := setAt p.vals g.lbase (p.vals.getD g.lbase 0 &&& ~~~m) } else p }

/-! ### The banister's takeover -/

/-- The present lane of a takeover starts its turn from its `vpc` (R376); one that stands at a slot, or that a cause has stopped or sent to the
handler, goes on from there (assumption 85). -/
def Warp.startTurn (wp : Warp) (lb : Nat) : Warp :=
  match wp.segAt lb with
  | none => wp
  | some g =>
    match g.takeover.bind fun t => firstLane t.left with
    | none => wp
    | some l =>
      if (wp.resumeMask.getLsbD (lb + l)) || g.trapped.getLsbD l then wp
      else wp.goVpc (laneBit (lb + l)) fun _ => g.vpc.getD l 0

/-- A takeover of the lanes `b` of a segment starts (R375, R376); `stand` says whether the `vpc` of the lanes that run names where they stand. -/
def Warp.startTakeover (wp : Warp) (lb : Nat) (b : Mask) (stand : Bool) : Warp :=
  match wp.segAt lb with
  | none => wp
  | some g =>
    let runs := g.lmask &&& ~~~g.lpark &&& g.rel wp.live &&& ~~~g.trapped
    let vpc := (List.range g.width).map fun l => if runs.getLsbD l && stand then wp.standing (lb + l) else g.vpc.getD l 0
    (wp.onSeg lb fun g => { g with vpc := vpc, takeover := some ⟨b, 0⟩, tripped := false }).startTurn lb

/-- A takeover of a segment starts: `BAN_TAKE` is posted, and the lowest lane of B, the live lanes that no wait holds, is the first to run (R375,
R376). A rollback does not undo it: in the checkpoint each lane runs from where it stands there (R378). -/
def State.startTakeover (s : State) (w lb : Nat) (reason : Nat) : State :=
  let wp := s.warp w
  match wp.segAt lb with
  | none => s
  | some g =>
    let b := g.rel (wp.live &&& ~~~wp.heldMask)
    if b = 0 then s
    else
      let s := s.post 0x30 { s.segInfo w g with
        detail := BitVec.ofNat 32 (g.bc % 65536 + 65536 * reason), addr := b }
      s.onWarp w fun wp => wp.alwaysOr (fun wp => wp.startTakeover lb b (reason != 0)) fun wp => wp.startTakeover lb b true

/-- Whether the turn of the present lane of a takeover is over (R376). -/
def Warp.turnOver (wp : Warp) (g : Seg) (t : Takeover) : Bool :=
  match firstLane t.left with
  | none => true
  | some l =>
    decide (64 ≤ t.clauses) || !wp.live.getLsbD (g.lbase + l) || wp.heldMask.getLsbD (g.lbase + l)

/-- The present lane's turn ends: its `vpc` is its next clause header (R376). -/
def Warp.closeTurn (wp : Warp) (lb : Nat) : Warp :=
  wp.onSeg lb fun g =>
    match g.takeover.bind fun t => firstLane t.left with
    | some l => if wp.live.getLsbD (lb + l) then { g with vpc := setAt g.vpc l (wp.pc (lb + l)) } else g
    | none => g

/-- The end of a takeover (R377), with the notice or without it (R378). -/
def Warp.endTakeover (wp : Warp) (lb : Nat) (note : Bool) : Warp :=
  let wp := wp.closeTurn lb
  match wp.segAt lb with
  | none => wp
  | some g =>
    let wp := wp.goVpc (g.abs (wp.free g)) fun l => g.vpc.getD (l - lb) 0
    wp.onSeg lb fun g => { g with
      takeover := none
      lmask := g.rel wp.live
      progress := true
      bc := 0
      notices := if note && g.ubase != 0 then g.notices ++ [0x31] else g.notices }

/-- The next lane of a takeover has its turn, or the takeover ends (R376, R377). -/
def Warp.passTurn (wp : Warp) (lb : Nat) : Warp :=
  match wp.segAt lb with
  | none => wp
  | some g =>
    match g.takeover with
    | none => wp
    | some t =>
      let left := t.left &&& ~~~laneBit ((firstLane t.left).getD 64) &&& g.rel (wp.live &&& ~~~wp.heldMask)
      if left = 0 then wp.endTakeover lb true
      else ((wp.closeTurn lb).onSeg lb fun g => { g with takeover := some ⟨left, 0⟩ }).startTurn lb

/-- `BANISTER_TAKEOVER`: the present lane's turn ends, and the next lane of B has its turn, or the takeover ends (R376,
R377); no rollback undoes that (R378). -/
def execBanisterTakeover (w lb : Nat) (s : State) : Result :=
  let wp := s.warp w
  .next (match wp.segAt lb with
    | none => s
    | some g =>
      match g.takeover with
      | none => s
      | some t =>
        if wp.clause.isSome ∨ !wp.turnOver g t then s
        else s.setWarp w (wp.always fun wp => wp.passTurn lb))

/-! ### Usher events -/

/-- The usher's share of an event (R45, R46, R51): `F` the segment lanes that branched, `taken` those whose predicate was
true. -/
def Warp.usherEvent (wp : Warp) (lb : Nat) (F taken : Mask) (br tk : DWord) (now : Nat) : Warp :=
  match wp.segAt lb with
  | none => wp
  | some g =>
    let ft := br + 8
    let act := g.lmask &&& ~~~g.lpark
    let U := act &&& wp.free g
    let stay := if g.udepth = 1 then g.usher else act &&& g.rel wp.live
    let vpc := (List.range g.width).map fun l =>
      if F.getLsbD l then (if taken.getLsbD l then tk else ft)
      else if stay.getLsbD l then wp.standing (lb + l) else g.vpc.getD l 0
    let wp := (wp.dropPend .vpc (g.abs (F ||| stay))).onSeg lb fun g =>
      let g := if g.udepth = 1 then
          { g with olmask := g.lmask, ovpc := g.vpc, oevt := g.evt, oetaken := g.etaken } else g
      { g with
        etaken := taken
        vpc := vpc
        evt := ⟨br, tk, ft⟩
        udepth := g.udepth + 1
        usher := if g.udepth = 1 then g.usher else U
        urun := U
        notBefore := max g.notBefore (now + 12) }
    wp.goVpc (g.abs U) fun _ => g.ubase &&& ~~~7

/-- A divergent branch of a segment at `udepth` 0 or 1 (R44, R45, R374, R375). -/
def State.divergeSeg (s : State) (lb : Nat) (F taken : Mask) (br tk : DWord) : State :=
  let w := s.cur
  match (s.warp w).segAt lb with
  | none => s
  | some g =>
    if g.udepth = 1 then s.onWarp w fun wp => wp.usherEvent lb F taken br tk s.now
    else if g.progress then
      s.onWarp w fun wp =>
        (wp.onSeg lb fun g => { g with progress := false, bc := 0 }).usherEvent lb F taken br tk s.now
    else if g.bc < g.bancnt.toNat then
      s.onWarp w fun wp => (wp.onSeg lb fun g => { g with bc := g.bc + 1 }).usherEvent lb F taken br tk s.now
    else
      let wp := s.warp w
      let act := g.lmask &&& ~~~g.lpark &&& g.rel wp.live
      let vpc := (List.range g.width).map fun l =>
        if F.getLsbD l then (if taken.getLsbD l then tk else br + 8)
        else if act.getLsbD l then wp.standing (lb + l) else g.vpc.getD l 0
      let s := s.onWarp w fun wp => (wp.dropPend .vpc (g.abs (F ||| act))).onSeg lb fun g =>
        { g with etaken := taken, evt := ⟨br, tk, br + 8⟩, vpc := vpc }
      s.startTakeover w lb 0

/-- What a divergent branch raises in a segment (R345, R360, R379). -/
def divergeFault (g : Seg) (F taken : Mask) (br tk : DWord) : Option Raise :=
  if g.handler &&& F != 0 then some { code := 0x36, mask := F, detail := Config.openDetail 0x36 }
  else if g.udepth = 2 then
    some { code := 0x32, mask := F, detail := 2,
           addrs := (List.range g.width).map fun l =>
             if F.getLsbD l then (if taken.getLsbD l then tk else br + 8) else 0 }
  else if g.ubase = 0 then some { code := 0x34, mask := F, detail := Config.openDetail 0x34 }
  else none

/-- Whether a divergent branch of a segment enters the usher, and is no takeover (R374). -/
def Seg.enters (g : Seg) : Bool := g.udepth == 1 || g.progress || decide (g.bc < g.bancnt.toNat)

/-- What the address of the usher raises at the branch whose event would enter it (R356). -/
def State.usherErr (s : State) (g : Seg) (F : Mask) : Option Raise :=
  s.curWarp.raiseOf (g.abs F) g (fun l => s.targetErr s.cur l g.ubase) fun _ => g.ubase

/-- `BRA` in one segment of the fetch set `m` (R44): `F` its lanes there, `taken` those whose condition is true. -/
def State.branchSeg (s : State) (g : Seg) (m F taken : Mask) (br tk : DWord) : State :=
  if taken = 0 then s
  else if taken = F then s.transfer (g.slots &&& m) fun _ => tk
  else match divergeFault g F taken br tk with
    | some r => s.takeAt s.cur g.lbase r
    | none =>
      match if g.enters then s.usherErr g F else none with
      | some r => s.takeAt s.cur g.lbase r
      | none => s.divergeSeg g.lbase F taken br tk

/-- `BRA` (R44, R114, R115): each segment of the fetch set is judged separately. -/
def execBra (p : Pre) (off : BitVec 40) (s : State) : Result :=
  let wp := s.curWarp
  let m := wp.setMask
  .next ((wp.segsIn m).foldl (fun s g =>
    s.branchSeg g m (g.rel m) (g.rel m &&& g.rel (wp.guard p)) wp.pcWord (wp.jumpTarget off)) s)

/-- `BRAU` (R115): every lane of a segment follows the condition of its lowest lane in the fetch set. -/
def execBrau (p : Pre) (off : BitVec 40) (s : State) : Result :=
  let wp := s.curWarp
  let m := wp.setMask
  let cond := wp.guard p
  let go := (wp.segsIn m).foldl (fun k g =>
    match g.lead m with
    | some l => if cond.getLsbD l then k ||| (g.slots &&& m) else k
    | none => k) 0
  .next (s.transfer go fun _ => wp.jumpTarget off)

/-- `JMP` (R116). -/
def execJmp (p : Pre) (off : BitVec 40) (s : State) : Result :=
  let wp := s.curWarp
  .next (s.transfer (wp.execMask p) fun _ => wp.jumpTarget off)

/-- `CALL` (R116): the return address goes to `v126`, `v127`. -/
def execCall (p : Pre) (off : BitVec 40) (s : State) : Result :=
  let wp := s.curWarp
  let m := wp.execMask p
  let rs := s.targetRaises m fun _ => wp.jumpTarget off
  let go := m &&& ~~~wp.stoppedBy rs
  let s := s.takeAll s.cur rs
  .next (s.onWarp s.cur fun wp' =>
    let wp' := if go = 0 then wp'
      else wp'.pushAll (wp.pendsFor go 4 true (.v 126) .uniform fun _ => wp.pcWord + 8)
    wp'.goTo go fun _ => wp.jumpTarget off)

/-- `RET` (R117): bits 2:0 of the address are ignored. -/
def execRet (p : Pre) (a : Reg) (s : State) : Result :=
  let wp := s.curWarp
  .next (s.transfer (wp.execMask p) fun l => wp.val64 a l)

/-- A handler that has ended every trapped lane frees its record (R346). -/
def Warp.handlerEnds (wp : Warp) : Warp :=
  wp.onSegs fun g =>
    match g.record with
    | none => g
    | some r =>
      if r.cause.lanes &&& g.rel wp.live = 0 then
        { g with record := none, handler := g.handler &&& ~~~r.cause.lanes, udepth := r.udepth }.nextCause
      else g

/-- `NOP` (R119). -/
def execNop (_p : Pre) (s : State) : Result := .next s

/-! ### WAIT (R120, R121) -/

/-- The word of the current slot. -/
def Warp.curWord (wp : Warp) : DWord := wp.clauseAt.words.getD wp.slotNo 0

/-- The operand latch as the current slot leaves it (R60, R76). -/
def Warp.nextLatch (wp : Warp) : List Latch := if wp.curWord.getLsbD 63 then [] else wp.latchAfter wp.curWord

/-- What the current slot reads of the registers that a result pending there will replace, or that the operand latch serves: a latch that
serves the slot alone (R60, R61). -/
def Warp.oldSources (wp : Warp) (word : DWord) : List Latch :=
  ((allSources word).filter fun n => (wp.latched n).isSome || wp.clauseAt.pend.any fun p => p.tgt == .vreg n).map fun n =>
    ⟨n, wp.slotNo - 1, (wp.srcReg n).tag, (wp.srcReg n).lanes⟩

/-- A hold of the current slot. -/
def Warp.holdHere (wp : Warp) (kind : HoldKind) (now : Nat) : LaneHold :=
  ⟨kind, wp.clauseAt.hdr, wp.slotNo, wp.curWord, 0, now, 0, wp.oldSources wp.curWord⟩

/-- Lanes held by a wait at the current slot (R23). -/
def Warp.holdLanes (wp : Warp) (m : Mask) (h : LaneHold) : Warp :=
  { wp with holds := (lanesOf m).foldl (fun t l => t.put l h) wp.holds }

/-- `WAIT` (R120): the operands are judged, and each executing lane is held at the slot until a poll satisfies it; the first
poll is due at once. -/
def execWait (p : Pre) (_eq wide : Bool) (_d a b : Reg) (off : BitVec 16) (s : State) : Result :=
  let wp := s.curWarp
  let m := wp.execMask p
  let size := if wide then 8 else 4
  let ea := fun l => wp.ea a b off size l
  let rs := s.readRaises s.cur m size ea
  .next (if m = 0 then s
    else if rs ≠ [] ∧ !s.solo s.cur then s.readFault s.cur rs
    else
      let m := m &&& ~~~wp.stoppedBy rs
      let s := s.takeAll s.cur rs
      if m = 0 then s
      else
        let s := s.openWindow s.cur
        s.onWarp s.cur fun wp' => wp'.holdLanes m (wp.holdHere .wait s.now))

/-- A cause taken by lanes that a wait holds at a slot (R120, R343). -/
def State.takeHeld (s : State) (w lb : Nat) (m : Mask) (h : LaneHold) (r : Raise) : State :=
  let s := (s.metAll w lb r).onWarp w fun wp => wp.always fun wp =>
    let k : ClauseAt := ⟨h.hdr, 0, h.slot, [], m, h.slot, [], h.latch⟩
    let wp := { wp with holds := (lanesOf m).foldl (fun t l => t.del l) wp.holds }
    wp.onSeg lb fun g => g.take ((r.atGrade g).record k g s.now)
  s.announce w lb

/-- The next interval of a failing poll (R121). -/
def nextInterval (h : LaneHold) (x : DWord) : Nat :=
  if h.interval = 0 then 16 else if x = h.last then min (2 * h.interval) 4096 else 16

/-- A warp as a held lane's slot reads it (R61). -/
def Warp.atHold (wp : Warp) (h : LaneHold) : Warp :=
  { wp with clause := some ⟨⟨h.hdr, 0, h.slot, [], 0, h.slot, [], h.latch⟩, none, 0, false, false, wp.checkpoint none, 0, 0, none, false⟩ }

/-- The solo pass of a slot is over (R390). -/
def Warp.endSolo (hdr : DWord) (slot : Nat) (wp : Warp) : Warp :=
  if wp.soloTo.any fun x => x.1 == hdr && x.2.1 == slot then { wp with soloTo := none } else wp

/-- One poll of a `WAIT` lane (R120, R121, R390): the read of a satisfying poll enters the window; a failing poll changes no
state but the lane's interval. -/
def State.pollLane (s : State) (w l : Nat) (h : LaneHold) : State :=
  let wp := s.warp w
  let plain := wp.atHold h
  match decodeAlone h.word, wp.segOf l with
  | .ok (.wait _ eq wide d a b off), some g =>
    let size := if wide then 8 else 4
    let va := plain.ea a b off size l
    match s.readErr w l size va with
    | some e =>
      let mask := g.rel (laneBit l)
      let r : Raise := { code := e.code, mask := mask, detail := e.detail,
                         addrs := (List.range g.width).map fun j =>
                           if g.lbase + j = l then (if e.code = 0xB3 then e.addr else va) else 0,
                         logAddr := e.addr, logPc := e.pc.getD h.hdr }
      if wp.window.isSome ∧ !s.solo w then
        (s.rollBack w false).onWarp w fun wp => { wp with soloTo := some (h.hdr, h.slot, laneBit l) }
      else (s.takeHeld w g.lbase (laneBit l) h r).onWarp w (Warp.endSolo h.hdr h.slot)
    | none =>
      let place := s.loadPlace w l size va
      let (s, waits) := s.classLanes w [l] (fun _ => place) fun _ => va
      if !s.mayRead w place.loc ∨ waits ∨ !wp.hasRoom 1 ∨ (s.solo w ∧ !wp.soloFree) then s
      else
        let evs := (wp.window.map Window.evs).getD []
        let x := (s.viewRead w evs.length place.loc va size).setWidth 64
        let v := plain.val wide d l
        if (if eq then x = v else x ≠ v) then
          let s := (s.fill (coreOf w) place.loc .none (s.privAccess w l va)).openWindow w
          s.onWarp w fun wp =>
            let wp := wp.addEvent (.rd 0 l va place.loc size (some (x.setWidth 128)))
            let wp := { wp with
              window := wp.window.map fun (y : Window) => { y with sig := y.sig ||| (1#1024 <<< place.loc.sig) } }
            (wp.releaseLane l).endSolo h.hdr h.slot
        else
          let i := nextInterval h x
          s.onWarp w fun wp => { wp.endSolo h.hdr h.slot with holds := wp.holds.put l { h with interval := i, due := s.now + i, last := x } }
  | _, _ => s

/-- Whether a held lane may make progress at its slot: it is neither parked nor inactive, nor in the usher but as one of its running
lanes, and nothing else stops it (R37, R45, R51). -/
def Warp.mayAdvance (wp : Warp) (now l : Nat) : Bool :=
  wp.live.getLsbD l &&
    (match wp.segOf l with
      | some g => !(g.stopped).getLsbD (l - g.lbase) && decide (g.notBefore ≤ now) &&
          (g.handler ||| (if g.udepth = 0 then g.lmask &&& ~~~g.lpark else g.urun) |||
            ((g.takeover.bind fun t => firstLane t.left).map laneBit).getD 0).getLsbD (l - g.lbase)
      | none => false)

/-- Whether a held `WAIT` lane may poll: its poll is due, and the lane may make progress (R37, R121). -/
def Warp.pollDue (wp : Warp) (now l : Nat) (h : LaneHold) : Bool :=
  decide (h.kind = .wait ∧ h.due ≤ now) && wp.mayAdvance now l

/-- The polls of a warp that are due (R121). -/
def Warp.duePolls (wp : Warp) (now : Nat) : Tab LaneHold := wp.holds.filter fun q => wp.pollDue now q.1 q.2

/-- Due polls of one `WAIT`: the lanes of its fetch set, the cycle at which the first fell due, and its interval (R269). -/
structure PollSet where
  lanes : Mask
  due : Nat
  interval : Nat
deriving DecidableEq, Repr

/-- The due polls of the `WAIT` whose poll fell due first, first polls apart (R269). -/
def Warp.pollSet (wp : Warp) (now : Nat) : Option PollSet :=
  let due := (wp.duePolls now).filter fun q => q.2.interval != 0
  match due.foldl (fun (b : Option LaneHold) q =>
      match b with
      | none => some q.2
      | some h => if q.2.due < h.due then some q.2 else some h) none with
  | none => none
  | some h =>
    some ⟨due.foldl (fun m q => if q.2.hdr = h.hdr ∧ q.2.slot = h.slot then m ||| laneBit q.1 else m) 0, h.due, h.interval⟩

/-- The choice of a warp's port taken. -/
def State.dropChoice (s : State) (w : Nat) : State :=
  s.onCore (coreOf w) fun c => { c with chosen := setAt c.chosen (portOf w) none }

/-- Lanes of a warp poll, one after another. -/
def State.pollLanes (s : State) (w : Nat) (lanes : List Nat) : State :=
  lanes.foldl (fun s l =>
    match (s.warp w).holds.find l with
    | some h => s.pollLane w l h
    | none => s) s

/-! ### UDONE, PARK, WAKE -/

/-- Lanes of a segment that an `UDONE` sends to `vpc`: those of `act`, but a lane that a wait holds or that stands at a slot stays there
unless its `vpc` was rewritten (R45, R51). -/
def Warp.sendSet (wp : Warp) (g : Seg) (act : Mask) (vpc : List DWord) : Mask :=
  let held := act &&& g.rel (wp.heldMask ||| wp.resumeMask)
  g.abs (act &&& ~~~held) |||
    g.abs (maskWhere fun l => held.getLsbD l && wp.standing (g.lbase + l) != vpc.getD l 0)

/-- Held lanes of a segment whose `vpc` the usher has rewritten (R45). -/
def Warp.rewritten (wp : Warp) (g : Seg) (m : Mask) (vpc : List DWord) : Mask :=
  g.abs (maskWhere fun l => (m &&& g.rel wp.live &&& ~~~g.trapped &&& g.rel (wp.heldMask ||| wp.resumeMask)).getLsbD l &&
    wp.standing (g.lbase + l) != vpc.getD l 0)

/-- The active lanes of a segment that nothing has stopped. -/
def Warp.active (wp : Warp) (g : Seg) (lmask : Mask) : Mask := lmask &&& ~~~g.lpark &&& g.rel wp.live &&& ~~~g.trapped

/-- The holds of lanes withdrawn, their held operations unperformed; barrier arrivals go at once, or with the commit of an open window
(R45, R203). -/
def State.withdraw (s : State) (w : Nat) (m : Mask) : State :=
  let s := if (s.warp w).window.isNone then (lanesOf m).foldl (fun s l => s.withdrawArrival w l) s
    else s.onWarp w fun wp => { wp with window := wp.window.map fun (x : Window) => { x with withdrawn := x.withdrawn ||| m } }
  s.onWarp w fun wp => { wp with
    holds := (lanesOf m).foldl (fun t l => t.del l) wp.holds
    resume := (wp.resume.map fun (a : ClauseAt) => { a with lanes := a.lanes &&& ~~~m }).filter fun a => a.lanes != 0 }

/-- `UDONE` at `udepth` 1 (R45 to R47): every active lane that may run goes to its `vpc`; a held lane stays at its slot
unless its `vpc` was rewritten. -/
def State.outerUdone (s : State) (w lb : Nat) : State :=
  let wp := s.warp w
  match wp.segAt lb with
  | none => s
  | some g =>
    let go := wp.sendSet g (wp.active g g.lmask) g.vpc
    let s := s.withdraw w (wp.rewritten g (~~~0) g.vpc)
    s.onWarp w fun wp =>
      (wp.onSeg lb fun g => { g with udepth := 0, notBefore := max g.notBefore (s.now + 6) }).goVpc go
        fun l => g.vpc.getD (l - lb) 0 &&& ~~~7

/-- The usher lanes that run on after the inner `UDONE` of a segment: a lane that a wait holds goes on from its slot (R45, R51). -/
def Warp.innerRuns (wp : Warp) (g : Seg) : Mask := g.usher &&& wp.active g g.lmask

/-- A segment as the inner `UDONE` restores it (R51). -/
def Seg.restoreOuter (g : Seg) : Seg :=
  { g with lmask := g.olmask, vpc := g.ovpc, evt := g.oevt, etaken := g.oetaken, udepth := 1 }

/-- `UDONE` at `udepth` 2 (R51): what pending moves to `lmask` and `vpc` would write, the restored values overwrite (R61). -/
def State.innerUdone (s : State) (w lb : Nat) : State :=
  let wp := s.warp w
  match wp.segAt lb with
  | none => s
  | some g =>
    let runs := wp.innerRuns g
    let go := wp.sendSet g runs g.vpc
    let s := (s.withdraw w (wp.rewritten g g.usher g.vpc)).onWarp w fun wp =>
      let wp := ((wp.goVpc go fun l => g.vpc.getD (l - lb) 0 &&& ~~~7).dropPend .lmask g.slots).dropPend .vpc g.slots
      wp.onSeg lb fun h => { h.restoreOuter with urun := runs, notBefore := max h.notBefore (s.now + 6) }
    if runs = 0 then s.outerUdone w lb else s

/-- The lanes that a `UDONE` sends to an address, and the addresses, for the check of their targets (R354, R356): an inner `UDONE` after which
no usher lane runs is judged by the outer one that follows it. -/
def Warp.udoneGoes (wp : Warp) (g : Seg) : Mask × List DWord :=
  if g.udepth = 2 then
    if wp.innerRuns g = 0 then (wp.sendSet g (wp.active g g.olmask) g.ovpc, g.ovpc)
    else (wp.sendSet g (wp.innerRuns g) g.vpc, g.vpc)
  else (wp.sendSet g (wp.active g g.lmask) g.vpc, g.vpc)

/-- `UDONE` (R47, R51, R122): it acts on every segment of the fetch set; a guard is refused by the decoder. -/
def execUdone (_p : Pre) (s : State) : Result :=
  let wp := s.curWarp
  let m := wp.setMask
  .next ((wp.segsIn m).foldl (fun s g =>
    let goes := wp.udoneGoes g
    let bad := wp.raiseOf goes.1 g (fun l => s.targetErr s.cur l (goes.2.getD (l - g.lbase) 0))
      (fun l => goes.2.getD (l - g.lbase) 0)
    if g.udepth = 0 then s.takeAt s.cur g.lbase { code := 0x33, mask := g.rel m, detail := Config.openDetail 0x33 }
    else match bad with
      | some r => s.takeAt s.cur g.lbase r
      | none => if g.udepth = 2 then s.innerUdone s.cur g.lbase else s.outerUdone s.cur g.lbase) s)

/-- `PARK` (R48, R376). -/
def execPark (p : Pre) (s : State) : Result :=
  let wp := s.curWarp
  let m := wp.execMask p
  .next ((wp.segsIn m).foldl (fun s g =>
    if g.udepth ≠ 0 then s.takeAt s.cur g.lbase { code := 0x35, mask := g.rel m, detail := Config.openDetail 0x35 }
    else s.onWarp s.cur fun wp' => (wp'.dropWake g (g.rel m)).onSeg g.lbase fun h =>
      { h with
        lpark := h.lpark ||| g.rel m
        vpc := (List.range h.width).map fun l => if (g.rel m).getLsbD l then wp.nextHdr else h.vpc.getD l 0
        takeover := h.takeover.map fun t =>
          match firstLane t.left with
          | some l => if (g.rel m).getLsbD l then { t with clauses := 64 } else t
          | none => t }) s)

/-- `WAKE` (R48, R122): the mask of each segment's lead lane leaves `lpark`, with latency 4. -/
def execWake (p : Pre) (a : Reg) (s : State) : Result :=
  let wp := s.curWarp
  let m := wp.execMask p
  let vals := allLanes.map fun l =>
    match wp.segOf l with
    | some g => if l = g.lbase then ((g.lead m).map fun k => wp.val64 a k).getD 0 else 0
    | none => 0
  .next (if m = 0 then s
    else s.setWarp s.cur (wp.push ⟨wp.slotNo, wp.slotNo + 4, .lparkClear, m, vals, .uniform, .all, 0⟩))

/-! ### Traps by instruction (R127) -/

/-- A trap instruction: irrevocable, taken once for the executing lanes of each segment. The lanes that its guard excludes
go on at the next header, where every result of the clause is visible in them (R62, R127). -/
def State.trapInsn (s : State) (p : Pre) (code : Nat) (imm : BitVec 24) : State :=
  let wp := s.curWarp
  let m := wp.execMask p
  if m = 0 then s
  else s.irrevocably fun s =>
    (wp.segsIn m).foldl (fun s g =>
      let s := s.onWarp s.cur fun wp => wp.leaveClause (g.slots &&& ~~~m)
      s.takeAt s.cur g.lbase { code := code, mask := g.rel m, detail := imm.setWidth 32 }) s

def execTrap (p : Pre) (imm : BitVec 24) (s : State) : Result := .next (s.trapInsn p 0x16 imm)
def execSvc (p : Pre) (imm : BitVec 24) (s : State) : Result := .next (s.trapInsn p 0x17 imm)
def execBkpt (p : Pre) (imm : BitVec 24) (s : State) : Result := .next (s.trapInsn p 0x18 imm)

/-! ### Moves (R123, R124) -/

/-- The pending write of an usher register (R40 to R42): each segment at `udepth` 1 or more takes it, a mask register from
its lowest executing lane. DESIGN CHOICE (assumption 106): `udepth` counts at issue; a write that a later `udone` overtakes takes its place, and
lanes that it lets run start at their `vpc` (R40 gives no rule). -/
def Warp.pendUsher (wp : Warp) (m : Mask) (r : UReg) (f : Nat → DWord) : List Pend :=
  let m := (wp.segsIn m).foldl (fun k g => if g.udepth = 0 then k else k ||| (g.slots &&& m)) 0
  let lead := allLanes.map fun l =>
    match wp.segOf l with
    | some g => if l = g.lbase then ((g.lead m).map f).getD 0 else 0
    | none => 0
  let mk := fun t vals => [Pend.mk wp.slotNo (wp.slotNo + 4) t m vals .uniform .all 0]
  if m = 0 then []
  else match r with
    | .lmask => mk .lmask lead
    | .lpark => mk .lpark lead
    | .vpc => mk .vpc (allLanes.map f)
    | _ => []

/-- `MOV` (R41, R42, R123). -/
def execMov (p : Pre) (wide : Bool) (d a : Reg) (sel : BitVec 2) (s : State) : Result :=
  let val := fun (wp : Warp) l =>
    match a with
    | .u r => wp.usherVal r sel l
    | a => wp.val wide a l
  .next (match d with
    | .p _ => s.aluPred p 4 d fun wp l =>
        match a with
        | .p _ => wp.bit a l
        | a => wp.val32 a l != 0
    | .u r =>
      let wp := s.curWarp
      s.setWarp s.cur (wp.pushAll (wp.pendUsher (wp.execMask p) r fun l => wp.val64 a l))
    | d => s.alu p 4 wide d (fun wp => keepShape (!wide) (wp.shape wide a)) val)

/-- `MOVI` (R124). -/
def execMovi (p : Pre) (hi : Bool) (d : Reg) (imm : BitVec 24) (s : State) : Result :=
  let v : Word := if hi then imm.setWidth 32 <<< 8 else imm.signExtend 32
  .next (s.alu p 4 false d (fun _ => .uniform) fun _ _ => v.setWidth 64)

/-! ### Special registers (R27, R58, R125, R126) -/

/-- The core-position mask of a quad, and the quad mask of a die, that hold members of a group's gang or launch, as its placement fixed them
(R27, R58, R274). -/
def State.gcores (s : State) (gid : Nat) : Word := (((s.group gid).map Group.gcores).getD 0).setWidth 32
def State.gquads (s : State) (gid : Nat) : Word := ((s.group gid).map Group.gquads).getD 0

/-- The value of a special register in a slot lane (R27, R58, R274). -/
def State.sreg (s : State) (w l : Nat) (n : Nat) : DWord :=
  match (s.warp w).segOf l with
  | none => 0
  | some g =>
    let x := s.group g.gid
    let lau := s.launchOf g.gid
    let num := fun k => BitVec.ofNat 64 k
    let word := fun (k : Word) => k.setWidth 64
    match n with
    | 0x00 => num (l - g.lbase)
    | 0x01 => num g.idx
    | 0x02 => num ((x.map Group.grp).getD 0)
    | 0x03 => num ((x.map Group.gmem).getD 0)
    | 0x04 => num g.vslot
    | 0x05 => num g.lbase
    | 0x06 => num ((x.map Group.vcore).getD 0 % 256)
    | 0x07 => num ((x.map Group.vcore).getD 0 / 256)
    | 0x08 => num ((x.map Group.pkg).getD 0)
    | 0x09 => ((x.map Group.vslots).getD 0).setWidth 64
    | 0x0A => word (s.gcores g.gid)
    | 0x0B => word (s.gquads g.gid)
    | 0x0C => g.ubase
    | 0x0D => g.tbase
    | 0x0E => (s.warp w).fpflags.setWidth 64
    | 0x0F => word g.bancnt
    | 0x10 => word g.dropcnt
    | 0x11 => num s.now
    | 0x12 => 3
    | 0x13 => num g.width
    | 0x14 => num ((lau.map Launch.segs).getD 1)
    | 0x15 => (lau.map Launch.args).getD 0
    | _ => 0

/-- The result shape of a special-register read (R56): `sr.lane` is affine. -/
def sregShape (n : Nat) : Shape := if n = 0 then .affine else .uniform

/-- The read of a special register (R125, R126). -/
def execMovsRead (p : Pre) (wide : Bool) (d : Reg) (sr : BitVec 8) (s : State) : Result :=
  .next (s.alu p 4 wide d (fun _ => sregShape sr.toNat) fun _ l => s.sreg s.cur l sr.toNat)

/-- The write of a special register (R125, R126): only `sr.fpflags` takes it, from the lowest executing lane. -/
def execMovsWrite (p : Pre) (wide : Bool) (sr : BitVec 8) (a : Reg) (s : State) : Result :=
  let wp := s.curWarp
  .next (match firstLane (wp.execMask p) with
    | none => s
    | some l =>
      if sr = 0x0E then
        s.setWarp s.cur (wp.push ⟨wp.slotNo, wp.slotNo + 4, .flagsSet, wp.setMask,
          allLanes.map fun _ => (wp.val wide a l) &&& 31, .uniform, .all, 0⟩)
      else s)

end Sys2Proof.Machine
end

