-- ==== Sys2Proof/Machine/Barrier.lean ====
section
/-! DEFINITION. Stairwells: barriers, drain, and what an exit or a commit does to them (R33 to R35, R118, R229, R230, R274,
R279, R364, R365). -/

namespace Sys2Proof.Machine

/-! ### Levels, places and participants -/

/-- Levels in ascending order (R33, R229). -/
def levelRank : Level → Nat
  | .lane => 0
  | .core => 1
  | .quad => 2
  | .die => 3
  | .pkg => 4
  | .pod => 5

def Reach.rank : Reach → Nat
  | .core => 1
  | .quad => 2
  | .die => 3
  | .pkg => 4
  | .pod => 5

/-- Whether the units of a launch are its gangs (R31). -/
def Launch.gangUnits (l : Launch) : Bool := l.gang && decide (l.reach.rank ≤ 3)

/-- The reach of a launch; a gang's is at least `die` (R31). -/
def Launch.span (l : Launch) : Nat := if l.gang then max l.reach.rank 3 else l.reach.rank

/-- The bits of a mask that a level uses (R229, R26). -/
def levelTrim (lvl : Level) (width : Nat) (m : Mask) : Mask :=
  match lvl with
  | .lane => m &&& lowMask width
  | .core => m &&& 0xFFFF
  | .quad => m &&& 0xF
  | .die => m &&& 0xFFFF_FFFF
  | .pkg => m &&& 0xF
  | .pod => m

/-- The position of a group at a level, in first-placement positions (R33, R274). -/
def Group.position (x : Group) : Level → Nat
  | .quad => x.vcore % 4
  | .die => x.vcore % 256 / 4
  | .pkg => x.vcore / 256
  | .pod => x.pkg
  | _ => 0

/-- The place to which a mask is relative (R35). -/
def Group.place (x : Group) : Level → Nat
  | .quad => x.pkg * 4096 + x.vcore / 4
  | .die => x.pkg * 4096 + x.vcore / 256
  | .pkg => x.pkg
  | _ => 0

/-- Every segment of a group, with its warp. -/
def State.segsOf (s : State) (gid : Nat) : List (Nat × Seg) :=
  s.warps.flatMap fun q => (q.2.segs.filter fun g => g.gid == gid).map fun g => (q.1, g)

/-- The unit that issues a barrier of a group's segment (R35). -/
def State.barUnit (s : State) (lvl : Level) (gid idx : Nat) : BarUnit :=
  match lvl with
  | .lane => .seg gid idx
  | .core => .group gid
  | _ =>
    match s.group gid, s.launchOf gid with
    | some x, some l => if l.gangUnits then .gang x.unit else .launch x.launch
    | _, _ => .group gid

/-- The groups of a unit at a place (R33, R35). -/
def State.barGroups (s : State) (b : Bar) : List (Nat × Group) :=
  s.groups.filter fun q =>
    (match b.unit with
      | .gang u => q.2.unit == u
      | .launch l => q.2.launch == l
      | .group g => q.1 == g
      | .seg g _ => q.1 == g) && q.2.place b.lvl == b.place && !q.2.released

/-- The positions that hold a participant at a level for a group: the slots, cores and quads that its masks name for life, and the dies and
packages that hold a group of its launch (R274, R364). -/
def State.held (s : State) (lvl : Level) (gid : Nat) (width : Nat) : Mask :=
  match s.group gid with
  | none => 0
  | some x =>
    match lvl with
    | .lane => lowMask width
    | .core => x.vslots.setWidth 64
    | .quad => x.gcores.setWidth 64
    | .die => x.gquads.setWidth 64
    | lvl =>
      let b : Bar := ⟨lvl, 0, s.barUnit lvl gid 0, x.place lvl, [], [], none, false, 0, false, 0, none⟩
      (s.barGroups b).foldl (fun m q => m ||| laneBit (q.2.position lvl)) 0

/-- Whether a thread has arrived. -/
def Bar.has (b : Bar) (gid idx lane : Nat) : Bool := b.arrived.contains (gid, idx, lane)

/-- Whether every live thread of a segment has arrived (R34). -/
def Warp.segArrived (wp : Warp) (b : Bar) (g : Seg) : Bool :=
  (lanesOf (g.rel wp.counted)).all fun l => b.has g.gid g.idx l

/-- Whether a group has arrived: all of its segments, or, saved, it had arrived whole (R34, R279). -/
def State.groupArrived (s : State) (b : Bar) (gid : Nat) (x : Group) : Bool :=
  if b.whole.contains gid then true
  else if x.placed then (s.segsOf gid).all fun q => (s.warp q.1).segArrived b q.2
  else false

/-- Whether the participant at a position has arrived; a position without a live thread is not counted (R34). -/
def State.posArrived (s : State) (b : Bar) (k : Nat) : Bool :=
  match b.unit, b.lvl with
  | .seg gid idx, _ =>
    (s.segsOf gid).all fun q =>
      q.2.idx != idx || !(q.2.rel (s.warp q.1).counted).getLsbD k || b.has gid idx k
  | .group gid, .core =>
    b.whole.contains gid || (s.segsOf gid).all fun q => q.2.vslot != k || (s.warp q.1).segArrived b q.2
  | _, _ => (s.barGroups b).all fun q => q.2.position b.lvl != k || s.groupArrived b q.1 q.2

/-- Whether a position still counts: it has a live thread (R34). -/
def State.posCounts (s : State) (b : Bar) (k : Nat) : Bool :=
  match b.unit, b.lvl with
  | .seg gid idx, _ => (s.segsOf gid).any fun q => q.2.idx == idx && (q.2.rel (s.warp q.1).counted).getLsbD k
  | .group gid, .core =>
    (s.segsOf gid).any fun q => q.2.vslot == k && (q.2.slots &&& (s.warp q.1).counted) != 0
  | _, _ => (s.barGroups b).any fun q => q.2.position b.lvl == k &&
      (!q.2.placed || (s.segsOf q.1).any fun r => (r.2.slots &&& (s.warp r.1).counted) != 0)

/-- The participants that have arrived, with those that only its record counted, and those counted (R279, R280). -/
def State.arrivals (s : State) (b : Bar) : Nat :=
  ((lanesOf b.mask).filter fun k => s.posCounts b k && s.posArrived b k).length + b.extra
def State.barTarget (s : State) (b : Bar) : Nat := ((lanesOf b.mask).filter fun k => s.posCounts b k).length

/-- Whether an instance is complete (R34). -/
def State.barComplete (s : State) (b : Bar) : Bool :=
  (lanesOf b.mask).all (fun k => s.posArrived b k) || (b.extra != 0 && decide (s.barTarget b ≤ s.arrivals b))

/-- The identity of an instance (R35). -/
def Bar.same (a b : Bar) : Bool := a.lvl == b.lvl && a.mask == b.mask && a.unit == b.unit && a.place == b.place

/-- Two instances disagree (R365). -/
def Bar.disagrees (a b : Bar) : Bool :=
  a.lvl == b.lvl && a.unit == b.unit && a.place == b.place && a.mask != b.mask && (a.mask &&& b.mask) != 0

/-! ### Completion -/

/-- The lanes of a warp that wait at an instance go on past it. -/
def Warp.passBar (wp : Warp) (b : Bar) : Warp :=
  wp.segs.foldl (fun (wp : Warp) (g : Seg) =>
    (lanesOf (g.slots &&& wp.live)).foldl (fun (wp : Warp) l =>
      match wp.holds.find l with
      | some h =>
        if (h.kind = .sync ∨ h.kind = .drain) ∧ b.has g.gid g.idx (l - g.lbase) then wp.releaseLane l else wp
      | none => wp) wp) wp

/-- The waiting lanes that a completion releases, whatever a later rollback undoes; threads of saved groups have passed it when they resume
(R203, R279). -/
def State.releaseBar (s : State) (b : Bar) : State :=
  let mark : Nat → Group → Group := fun gid x =>
    if x.placed then x
    else { x with passed := x.passed ++
      (b.arrived.filter fun (a : Nat × Nat × Nat) => a.1 == gid).map fun (a : Nat × Nat × Nat) => (a.2.1, a.2.2) }
  let waits := fun (wp : Warp) => wp.segs.any fun g => b.arrived.any fun a => a.1 == g.gid
  { s with
    groups := s.groups.mapV mark
    warps := s.warps.mapV fun _ (wp : Warp) => if waits wp then wp.always fun wp => wp.passBar b else wp }

/-- Every instance that is complete releases its participants (R34); one whose node is saved is completed at its record
(R279). -/
def State.checkBars (s : State) : State :=
  let ready := s.bars.filter fun b => !b.done && b.saved.isNone && s.barComplete b
  let s := { s with bars := s.bars.filter fun b => !(ready.contains b) }
  ready.foldl State.releaseBar s

/-- Arrivals added to the record of a saved node at its home slice, and at the target the completion (R279). -/
def State.performArrival (s : State) (a n : Nat) : State :=
  let old := s.readLoc (.hbm (a + 16)) 4
  let target := s.readLoc (.hbm (a + 12)) 4
  let s := s.perform none (.hbm (a + 16)) 4 ((old + n) % 2 ^ 32)
  if old < target ∧ target ≤ old + n then
    let s := s.perform none (.hbm (a + 20)) 4 1
    match s.bars.find? fun b => b.saved == some a with
    | none => s
    | some b => { s with bars := s.bars.map fun (x : Bar) => if x = b then { x with done := true } else x }.releaseBar b
  else s

/-- The positions of a mask for which nothing more is waited: they have arrived, or no longer count (R34). -/
def State.doneAt (s : State) (b : Bar) : Nat := ((lanesOf b.mask).filter (s.posArrived b)).length

/-- An arrival redirected to the record of a saved node: the stairwell of a die sends an add for each participant to the home slice, where it
waits for the leases of its line (R170, R279). -/
def State.recordArrival (s : State) (die : Nat) (b : Bar) (before : Nat) : State :=
  match b.saved with
  | none => s
  | some a =>
    let n := s.doneAt b - before
    let held := s.wrapHeld die (.hbm a)
    if n = 0 then s
    else if !held && s.lineReady (a / 128) then s.performArrival a n
    else { s with homeOps := s.homeOps ++
      [⟨noWarp, 0, false, 0, .hbm a, 0, 4, .nodeArrival n, 0, 0, die, if held then .unsent else .none⟩] }

/-- What the end of threads does to the barriers (R34, R279): `s` is the state before it. A saved node counts a participant whose last unarrived
thread has ended at its record. -/
def State.exitBars (s t : State) (die : Nat) : State :=
  ((t.bars.filter fun b => b.saved.isSome && !b.done).foldl (fun t b => t.recordArrival die b (s.doneAt b)) t).checkBars

/-! ### Arrival -/

/-- What a thread that had arrived at a disagreeing instance raises, with each lane's own mask (R365). -/
def Bar.clashRaise (b : Bar) (g : Seg) (m : Mask) (bit : Nat) : Raise :=
  { code := 0x37, mask := g.rel m, detail := BitVec.ofNat 32 (levelRank b.lvl + 256 * bit)
    addrs := (List.range g.width).map fun j => if m.getLsbD (g.lbase + j) then b.mask else 0 }

/-- `SYNC_MASK` in a segment for the lanes that wait at an instance, at each slot at which they stand; a segment whose `BARW` waits there
raises it in place of `RETIRED` (R94, R358, R365). -/
def State.clashSeg (s : State) (w : Nat) (g : Seg) (b : Bar) (bit : Nat) : State :=
  let lanes := maskWhere fun l => g.hasLane l && b.has g.gid g.idx (l - g.lbase)
  let held := (s.warp w).holds.filter fun h => lanes.getLsbD h.1
  let places := held.foldl (fun (ps : List LaneHold) h =>
    if ps.any fun p => p.hdr == h.2.hdr && p.slot == h.2.slot then ps else ps ++ [h.2]) []
  let s := match g.cause with
    | some x => if x.code = 0x01 ∧ x.told ∧ g.abs x.lanes &&& lanes ≠ 0 then s.recause w g.lbase (b.clashRaise g (g.abs x.lanes &&& lanes) bit)
        else s
    | none => s
  places.foldl (fun s p =>
    let m := held.foldl (fun m h => if h.2.hdr = p.hdr ∧ h.2.slot = p.slot then m ||| laneBit h.1 else m) 0
    s.takeHeld w g.lbase m p (b.clashRaise g m bit)) s

/-- `SYNC_MASK` for every thread that waits at an instance, and the instance dissolved (R365). -/
def State.dissolve (s : State) (b : Bar) (bit : Nat) : State :=
  let s := { s with bars := s.bars.filter fun x => !x.same b }
  s.warps.foldl (fun s q => q.2.segs.foldl (fun s g => s.clashSeg q.1 g b bit) s) s

/-- The lanes `m` of a segment arrive at an instance (R34, R35), which is progress (R374). Every open instance that disagrees is dissolved with it,
one at which lanes of the same segment stand at once, another when the segment has arrived (R365); the saved participants of a record that
disagrees raise on their resumption. -/
def State.arrive (s : State) (w : Nat) (g : Seg) (m : Mask) (lvl : Level) (mask : Mask) : State :=
  match s.group g.gid with
  | none => s
  | some x =>
    let s := s.onWarp w fun wp => wp.progress m
    let fresh : Bar := ⟨lvl, mask, s.barUnit lvl g.gid g.idx, x.place lvl, [], [], none, false, s.now, false, 0, none⟩
    let old := (s.bars.find? fun b => b.same fresh && !b.done).getD fresh
    let before := s.doneAt old
    let b := { old with arrived := old.arrived ++ (lanesOf (g.rel m)).map fun l => (g.gid, g.idx, l) }
    let s := { s with bars := (s.bars.filter fun (y : Bar) => !(y.same fresh && !y.done)) ++ [b] }
    let whole := lvl == .lane || (s.warp w).segArrived b g
    let mine := fun (y : Bar) => y.arrived.any fun a => a.1 == g.gid && a.2.1 == g.idx
    let bit := fun (y : Bar) => (firstLane (b.mask ^^^ y.mask)).getD 0
    match s.bars.filter fun (y : Bar) => y.disagrees b && !y.done && (whole || mine y) with
    | [] => (s.recordArrival (dieOf w) b before).checkBars
    | y :: ys =>
      (y :: ys).foldl (fun s z =>
        if z.saved.isNone then s.dissolve z (bit z)
        else { s with bars := s.bars.map fun (v : Bar) => if v = z then { v with clash := some (bit z) } else v }) (s.dissolve b (bit y))

/-- `UNIF_MISMATCH` of the mask operand of a level in a segment: only the bits that the level uses are compared (R229, R359). -/
def Warp.maskFault (wp : Warp) (g : Seg) (m : Mask) (lvl : Level) (wide : Bool) (a : Reg) : Option Raise :=
  let val := fun l => levelTrim lvl g.width (wp.val wide a l)
  match g.lead m with
  | none => none
  | some l0 =>
    let odd := maskWhere fun l => (g.slots &&& m).getLsbD l && val l != val l0
    (firstLane odd).map fun l =>
      { code := 0x14, mask := g.rel odd, detail := BitVec.ofNat 32 (5 + 256 * (l - g.lbase)), addrs := wp.segVals g wide a }

/-- What a segment raises at `SYNC` or `DRAIN` (R359, R364). -/
def State.syncFault (s : State) (g : Seg) (m : Mask) (lvl : Level) (wide : Bool) (a : Reg) : Option Raise :=
  let wp := s.curWarp
  match wp.maskFault g m lvl wide a with
  | some r => some r
  | none =>
    match s.group g.gid, s.launchOf g.gid, g.lead m with
    | some x, some lau, some l0 =>
      let mask := levelTrim lvl g.width (wp.val wide a l0)
      let own := fun l : Nat => match lvl with
        | .lane => mask.getLsbD (l - g.lbase)
        | .core => mask.getLsbD g.vslot
        | lvl => mask.getLsbD (x.position lvl)
      let clear := g.rel (maskWhere fun l => (g.slots &&& m).getLsbD l && !own l)
      let code :=
        if clear ≠ 0 then some 0x38
        else if 2 ≤ levelRank lvl ∧ lau.span < levelRank lvl then some 0x39
        else if mask &&& ~~~(s.held lvl g.gid g.width) ≠ 0 then some 0x3A
        else if g.udepth ≠ 0 then some 0x3B
        else none
      code.map fun k =>
        { code := k, mask := if k = 0x38 then clear else g.rel m, detail := BitVec.ofNat 32 (levelRank lvl),
          addrs := wp.segVals g wide a }
    | _, _, _ => none

/-- `SYNC` or `DRAIN` of the current slot: the lanes are held, and for `SYNC` they arrive (R229, R230, R364). -/
def State.barrier (s : State) (p : Pre) (lvl : Level) (a : Reg) (drain : Bool) : State :=
  let m := s.curWarp.execMask p
  let wide := lvl == .lane || lvl == .pod
  if m = 0 then s
  else s.irrevocably fun s =>
    (s.curWarp.segsIn m).foldl (fun s g =>
      match s.syncFault g m lvl wide a with
      | some r => s.takeAt s.cur g.lbase r
      | none =>
        let wp := s.curWarp
        let k := g.slots &&& m
        let mask := levelTrim lvl g.width (((g.lead m).map fun l => wp.val wide a l).getD 0)
        let h := { wp.holdHere (if drain then .drain else .sync) s.now with last := mask }
        let s := s.setWarp s.cur (wp.holdLanes k h)
        if drain then s else s.arrive s.cur g k lvl mask) s

def execSync (p : Pre) (lvl : Level) (a : Reg) (s : State) : Result := .next (s.barrier p lvl a false)
def execDrain (p : Pre) (lvl : Level) (a : Reg) (s : State) : Result := .next (s.barrier p lvl a true)

/-- The waits of `DRAIN` on the whole warp slot (R230). -/
def State.drained (s : State) (w : Nat) : Bool :=
  let wp := s.warp w
  wp.stCnt == 0 && wp.enCnt == 0 &&
    !(s.cmds.any fun c => c.2.warp == w && (c.2.st == .deferred || c.2.st == .released || c.2.st == .held))

/-- The `DRAIN` lanes of a warp that have not arrived yet and may make progress (R37). -/
def Warp.drainWaits (wp : Warp) (now : Nat) : Tab LaneHold :=
  wp.holds.filter fun h => h.2.kind == .drain && h.2.interval == 0 && wp.mayAdvance now h.1

/-- `DRAIN_ARRIVAL` (R230): the lanes arrive once the warp slot has drained. -/
def execDrainArrival (w : Nat) (s : State) : Result :=
  let wp := s.warp w
  .next (if !s.drained w then s
    else
      (wp.segsIn ((wp.drainWaits s.now).foldl (fun m h => m ||| laneBit h.1) 0)).foldl (fun s g =>
        match (((s.warp w).drainWaits s.now).find? fun h => g.hasLane h.1) with
        | none => s
        | some (_, h) =>
          let m := ((s.warp w).drainWaits s.now).foldl (fun m k =>
            if g.hasLane k.1 ∧ k.2.hdr = h.hdr ∧ k.2.slot = h.slot ∧ k.2.last = h.last then m ||| laneBit k.1 else m) 0
          match decodeAlone h.word with
          | .ok (.drain _ lvl _) =>
            let s := s.onWarp w fun wp => wp.always fun wp => { wp with
              holds := wp.holds.mapV fun l x => if m.getLsbD l then { x with interval := 1 } else x }
            s.arrive w g m lvl h.last
          | _ => s) s)

/-! ### Exit and commit -/

/-- `EXIT` (R118, R34, R374): each executing lane's thread ends; a barrier that counted it may complete. -/
def execExit (p : Pre) (s : State) : Result :=
  let s0 := s
  let m := s.curWarp.execMask p
  .next (if m = 0 then s
    else
      let s := s.onWarp s.cur fun wp =>
        let wp := wp.progress m
        let wp := { wp with live := wp.live &&& ~~~m }
        let wp := wp.onSegs fun g => { g with lmask := g.lmask &&& ~~~(g.rel m), lpark := g.lpark &&& ~~~(g.rel m) }
        wp.handlerEnds
      let s := s.announceAll s.cur
      if s.curWarp.window.isNone then s0.exitBars s (dieOf s.cur) else s)

/-- `COMMIT` (R204): exits of the window now count at every barrier (R34, R118). -/
def execCommit (w : Nat) (s : State) : Result :=
  let s' := s.commitWindow w
  .next (if (s'.warp w).window.isNone ∧ (s.warp w).window.isSome then s.exitBars s' (dieOf w) else s')

end Sys2Proof.Machine
end

