-- ==== Sys2Proof/Machine/Atomics.lean ====
section
/-! DEFINITION. Atomics and reductions at their serialisation points (R170, R174, R175, R220, R221). -/

namespace Sys2Proof.Machine

/-- The value that an `ATOM` or `RED` operation leaves (R221). -/
def atomValue (op : RedOp) (ty : Ty) (old b : DWord) : DWord :=
  match ty, op with
  | .f32, .add => BitVec.ofNat 64 (floatOp fmtF32 .add false old.toNat b.toNat 0).1
  | .f32, .min => BitVec.ofNat 64 (floatMinMax fmtF32 false false old.toNat b.toNat).1
  | .f32, .max => BitVec.ofNat 64 (floatMinMax fmtF32 true false old.toNat b.toNat).1
  | t, .add => writeInt t (readInt t old + readInt t b)
  | t, .min => if readInt t old ≤ readInt t b then old else b
  | t, .max => if readInt t old ≤ readInt t b then b else old
  | _, .and => old &&& b
  | _, .or => old ||| b
  | _, .xor => old ^^^ b

/-- The new value of an operation at a home slice, if it writes; a failing `CAS` only reads (R198, R221). -/
def AtomFn.result (f : AtomFn) (old b c : DWord) : Option DWord :=
  match f with
  | .red op ty => some (atomValue op ty old b)
  | .exch _ => some b
  | .cas _ => if old = b then some c else none
  | .logWrite => none
  | .claim _ => none
  | .leafBits => none
  | .leafClass .. => none
  | .nodeArrival _ => none

/-- One waiting operation performed (R174, R221): the old value goes to its result record, or its store record falls. A claim is performed
by its claimer. -/
def State.performOp (s : State) (o : HomeOp) : State :=
  let s := { s with homeOps := s.homeOps.erase o }
  match o.fn with
  | .claim _ => s
  | .logWrite => s.performHead o.warp o.loc
  | .leafBits => s.performLeaf o
  | .leafClass .. => s.performLeaf o
  | .nodeArrival n =>
    match o.loc with
    | .hbm a => s.performArrival a n
    | .spad .. => s
  | f =>
    let old := BitVec.ofNat 64 (s.readLoc o.loc o.n)
    let s := s.classAccess o.warp o.lane o.va
    let s := match o.loc with
      | .hbm pa => (s.invalidateAll none (pa / 128) 1000).useL2 (pa / 128) .none
      | .spad _ _ => s
    let new := f.result old o.b o.c
    let s := match new with
      | some v => s.perform none o.loc o.n v.toNat
      | none => s
    s.onWarp o.warp fun wp =>
      let wp := { wp with irr := wp.irr - 1 }
      let wp := if new.isSome then wp.gained (wp.countedAt o.recId (laneBit o.lane)) else wp
      if o.store then wp.storeDone o.recId o.lane
      else wp.onRes o.recId fun r => r.give (laneBit o.lane) (old.setWidth 128)

/-- Whether two waiting operations are lanes of one atomic instruction at one address (R174). -/
def HomeOp.mates (o q : HomeOp) : Bool :=
  q.warp == o.warp && q.recId == o.recId && q.store == o.store && q.loc == o.loc && q.fn == o.fn

/-- Whether an operation waits for a change of class of its page that its warp has asked for (R167). -/
def State.opClassWaits (s : State) (o : HomeOp) : Bool :=
  match s.xlatOf o.warp o.lane o.va with
  | some x => x.leafPa / 128 != o.loc.line && s.classWaits o.warp (some x)
  | none => false

/-- Whether an operation that a wrap found held at its home slice comes behind an earlier one that could be performed now (R385). -/
def State.outOfTurn (s : State) (o : HomeOp) : Bool :=
  o.stage == .held && (s.homeOps.takeWhile fun q => q != o).any fun q =>
    q.stage == .held && q.loc.line != o.loc.line && s.nextAt q.loc.line == some q && s.leaseFree q.loc.line

/-- The operation that comes next on a line (R382) performed once the count exceeds its latest expiry (R170): a write, an update of a leaf
entry, or the lanes of one atomic that name its address, consecutively in slot-lane order with nothing between them (R174, R175,
R220). -/
def State.performLine (s : State) (line : Nat) : State :=
  match s.nextAt line with
  | none => s
  | some o =>
    match o.fn with
    | .claim _ => s
    | _ =>
      if s.leaseFree line && !s.outOfTurn o && !s.opClassWaits o then (s.homeOps.filter o.mates).foldl State.performOp s else s

/-- `HOME_ATOMIC` (R174). -/
def execHomeAtomic (line : Nat) (s : State) : Result := .next (s.performLine line)

/-- `HOME_WRITE_PERFORM` (R170). -/
def execHomeWritePerform (line : Nat) (s : State) : Result := .next (s.performLine line)

/-! ### Instructions -/

/-- The step-one failure of a lane's atomic (R363, R410). -/
def State.atomErr (s : State) (w l size : Nat) (poison : Bool) (va : DWord) : Option XErr :=
  match s.lanePlace w l .atomic size va with
  | .error e => some e
  | .ok p => if poison && s.poisoned p.loc size then some ⟨0xB3, Config.openDetail 0xB3, va &&& ~~~31, none⟩ else none

/-- The lanes of the current slot send their operations to their serialisation points (R220). -/
def State.sendOps (s : State) (m : Mask) (store : Bool) (recId size : Nat) (fn : AtomFn) (va b c : Nat → DWord) : State :=
  (lanesOf m).foldl (fun s l =>
    let p := s.okPlace s.cur l .atomic size (va l)
    let s := ((s.touch s.cur p.xlat true).classAccess s.cur l (va l)).dropAnnex s.cur p.loc
    let o : HomeOp := ⟨s.cur, recId, store, l, p.loc, va l, size, fn, b l, c l, dieOf s.cur, .none⟩
    let s := { s with homeOps := s.homeOps ++ [o] }
    s.onWarp s.cur fun wp => { wp with irr := wp.irr + 1 }) s

/-- The lanes that pass step one, and the state after the others' segments have taken their causes. -/
def State.stepOne (s : State) (m : Mask) (size : Nat) (poison : Bool) (va : Nat → DWord) : Mask × State :=
  let wp := s.curWarp
  let rs := wp.raises m fun g =>
    (wp.raiseOf m g (fun l => s.atomErr s.cur l size poison (va l)) va).map fun (r : Raise) =>
      if r.code = 0xB3 then { r with addrs := r.addrs.map fun a => a &&& ~~~31 } else r
  (m &&& ~~~wp.stoppedBy rs, s.takeAll s.cur rs)

/-- Whether a wrap holds the remote requests that lanes of the current slot would send (R172). -/
def State.wrapStops (s : State) (m : Mask) (size : Nat) (va : Nat → DWord) : Bool :=
  (lanesOf m).any fun l => s.wrapHeld (dieOf s.cur) (s.okPlace s.cur l .atomic size (va l)).loc

/-- An atomic with a register result. -/
def State.atomic (s : State) (p : Pre) (wide : Bool) (d a : Reg) (fn : AtomFn) (b c : Nat → DWord) : State :=
  let wp := s.curWarp
  let m := wp.execMask p
  let size := if wide then 8 else 4
  let va := fun l => wp.val64 a l
  if m = 0 then s
  else if Config.counterTop ≤ wp.ldCnt then s.holdSlot s.cur .counter
  else if s.wrapStops m size va then s.holdSlot s.cur .irrevocable
  else s.irrevocably fun s =>
    let (m, s) := s.stepOne m size true va
    if m = 0 then s
    else
      let r := s.newRes s.cur .load d (if wide then 2 else 1) (if wide then .b64 else .b32) m .general
      (s.onWarp s.cur fun wp => wp.addRes r).sendOps m false r.id size fn va b c

/-- `ATOM` (R220, R221). -/
def execAtom (p : Pre) (op : AtomOp) (ty : Ty) (d a b : Reg) (s : State) : Result :=
  let wp := s.curWarp
  let wide := Ty.is2 ty
  let fn := match op with
    | .red op => AtomFn.red op ty
    | .exch => .exch wide
  .next (s.atomic p wide d a fn (fun l => wp.val wide b l) fun _ => 0)

/-- `CAS` (R220, R221). -/
def execCas (p : Pre) (wide : Bool) (d a b c : Reg) (s : State) : Result :=
  let wp := s.curWarp
  .next (s.atomic p wide d a (.cas wide) (fun l => wp.val wide b l) fun l => wp.val wide c l)

/-- `RED` (R220, R221). -/
def execRed (p : Pre) (op : RedOp) (ty : Ty) (a b : Reg) (s : State) : Result :=
  let wp := s.curWarp
  let m := wp.execMask p
  let wide := Ty.is2 ty
  let size := if wide then 8 else 4
  let va := fun l => wp.val64 a l
  .next (if m = 0 then s
    else if Config.counterTop ≤ wp.stCnt then s.holdSlot s.cur .counter
    else if s.wrapStops m size va then s.holdSlot s.cur .irrevocable
    else s.irrevocably fun s =>
      let (m, s) := s.stepOne m size false va
      if m = 0 then s
      else
        let id := s.curWarp.nextId + 1
        (s.onWarp s.cur fun wp => wp.addStore ((lanesOf m).map wp.gidOf) m).sendOps m true id size
          (.red op ty) va (fun l => wp.val wide b l) fun _ => 0)

end Sys2Proof.Machine
end

