-- ==== Sys2Proof/Machine/Queue.lean ====
section
/-! DEFINITION. Group queues, task queues and dependence counters (R222 to R228, R265, R266, R363, R366, R373). -/

namespace Sys2Proof.Machine

/-! ### Turns of a held slot -/

/-- The turns already taken at the current slot. -/
def Warp.turnsTaken (wp : Warp) : Mask := (wp.clause.map fun c => c.turns).getD 0

/-- A turn taken (R223). -/
def Warp.takeTurn (wp : Warp) (m : Mask) : Warp :=
  { wp with clause := wp.clause.map fun (c : Clause) => { c with turns := c.turns ||| m } }

/-- The result record that the turns of the current slot share; made by the first of them, counted when the slot issues. -/
def State.sharedRes (s : State) (ctr : Ctr) (dst : Reg) (words : Nat) (m : Mask) : Nat × State :=
  let wp := s.curWarp
  match wp.clause with
  | none => (0, s)
  | some c =>
    if c.resId ≠ 0 then (c.resId, s)
    else
      let r := s.newRes s.cur ctr dst words .b32 m .general
      (r.id, s.setWarp s.cur { wp with
        results := wp.results ++ [r]
        nextId := r.id
        clause := some { c with resId := r.id } })

/-- A counter rises by one (R74). -/
def Warp.countUp (wp : Warp) (c : Ctr) : Warp :=
  match c with
  | .load => { wp with ldCnt := wp.ldCnt + 1 }
  | .store => { wp with stCnt := wp.stCnt + 1 }
  | .engine => { wp with enCnt := wp.enCnt + 1 }
  | .queue => { wp with quCnt := wp.quCnt + 1 }

/-- The slot has issued after its last turn: the next slot starts without turns (R223). -/
def Warp.turnsDone (wp : Warp) : Warp :=
  { wp with clause := wp.clause.map fun (c : Clause) => { c with turns := 0, resId := 0 } }

/-- The segments of a mask in ascending order of lead lane (R223). -/
def Warp.turnOrder (wp : Warp) (m : Mask) : List Seg := wp.segsIn m

/-! ### Group queues (R222, R223) -/

/-- A queue of a group. -/
def State.queue (s : State) (gid n : Nat) : Option Queue := (s.group gid).bind fun x => x.queues[n]?

/-- A queue of a group replaced. -/
def State.setQueue (s : State) (gid n : Nat) (q : Queue) : State :=
  { s with groups := s.groups.alter gid fun x => { x with queues := setAt x.queues n q } }

/-- Whether a push by segment `idx` can act. -/
def Queue.canPush (q : Queue) (idx : Nat) : Bool := decide (q.count < q.depth ∧ q.infl.getD idx 0 < q.allow)

/-- A push (R223): the value stands at the tail. -/
def Queue.push (q : Queue) (idx : Nat) (v : Word) : Queue :=
  { q with
    count := q.count + 1
    infl := setAt q.infl idx (q.infl.getD idx 0 + 1)
    entries := setAt q.entries q.tail v
    owners := setAt q.owners q.tail idx
    tail := (q.tail + 1) % 64 }

/-- The head entry of a queue. -/
def Queue.front (q : Queue) : Word := wordAt q.entries q.head

/-- A pop (R223): the count of the segment that pushed the entry falls. -/
def Queue.pop (q : Queue) : Queue :=
  let o := q.owners.getD q.head 0
  { q with count := q.count - 1, infl := setAt q.infl o (q.infl.getD o 0 - 1), head := (q.head + 1) % 64 }

/-- What a segment raises for its queue number (R359, R366). -/
def State.queueFault (s : State) (g : Seg) (m : Mask) (b : Reg) : Option Raise :=
  let wp := s.curWarp
  match wp.unifFault g m [(6, false, b)], g.lead m with
  | some r, _ => some r
  | none, some l =>
    let n := wp.val32 b l
    if (s.queue g.gid n.toNat).isNone then some { code := 0x41, mask := g.rel m, detail := n } else none
  | none, none => none

/-- The queue of a segment's operand. -/
def Warp.queueNo (wp : Warp) (g : Seg) (m : Mask) (b : Reg) : Nat := ((g.lead m).map fun l => (wp.val32 b l).toNat).getD 0

/-- The causes of a queue instruction's segments taken; the lanes that go on. -/
def State.judgeSegs (s : State) (m : Mask) (f : State → Seg → Option Raise) : Mask × State :=
  let wp := s.curWarp
  let rs := wp.raises m (f s)
  (m &&& ~~~wp.stoppedBy rs, s.takeAll s.cur rs)

/-- The turns of a queue instruction from the first segment that has not acted: `act` answers the state after the turn, or
none when the segment cannot act, which holds the slot (R67, R223). -/
def State.runTurns (s : State) (m : Mask) (act : State → Seg → Option State) : List Seg → Bool × State
  | [] => (true, s)
  | g :: rest =>
    if s.curWarp.turnsTaken &&& g.slots &&& m != 0 then s.runTurns m act rest
    else match act s g with
      | none => (false, s.holdSlot s.cur .queue)
      | some s => (s.onWarp s.cur fun wp => (wp.takeTurn (g.slots &&& m)).acted).runTurns m act rest

/-- `QPUSH` (R223). -/
def execQpush (p : Pre) (a b : Reg) (s : State) : Result :=
  let wp := s.curWarp
  let m := wp.execMask p
  .next (if m = 0 then s
    else if Config.counterTop ≤ wp.quCnt then s.holdSlot s.cur .counter
    else s.irrevocably fun s =>
      let (m, s) := s.judgeSegs m fun s g => s.queueFault g m b
      let (done, s) := s.runTurns m (fun s g =>
        let wp := s.curWarp
        let n := wp.queueNo g m b
        match s.queue g.gid n with
        | none => some s
        | some q =>
          if q.canPush g.idx then
            let v := ((g.lead m).map fun l => wp.val32 a l).getD 0
            some ((s.setQueue g.gid n (q.push g.idx v)).onWarp s.cur fun wp => wp.progress (g.slots &&& m))
          else none) (wp.turnOrder m)
      if done ∧ m ≠ 0 then
        let r := s.newRes s.cur .queue .vz 0 .b32 0 .general
        s.onWarp s.cur fun wp => (wp.addRes r).turnsDone
      else s)

/-- `QPOP` (R223): the entry goes to every executing lane of its segment. -/
def execQpop (p : Pre) (d b : Reg) (s : State) : Result :=
  let wp := s.curWarp
  let m := wp.execMask p
  .next (if m = 0 then s
    else if Config.counterTop ≤ wp.quCnt then s.holdSlot s.cur .counter
    else s.irrevocably fun s =>
      let (m, s) := s.judgeSegs m fun s g => s.queueFault g m b
      let (done, s) := s.runTurns m (fun s g =>
        let n := s.curWarp.queueNo g m b
        match s.queue g.gid n with
        | none => some s
        | some q =>
          if q.count = 0 then none
          else
            let (id, s) := s.sharedRes .queue d 1 m
            some ((s.setQueue g.gid n q.pop).onWarp s.cur fun wp =>
              (wp.onRes id fun r => r.give (g.slots &&& m) (q.front.setWidth 128)).progress (g.slots &&& m)))
        (wp.turnOrder m)
      if done ∧ m ≠ 0 then s.onWarp s.cur fun wp => (wp.countUp .queue).turnsDone else s)

/-- `QTRY` (R223): it acts at once; the predicate says for each segment whether it did. -/
def execQtry (p : Pre) (pop : Bool) (h b c : Reg) (s : State) : Result :=
  let wp := s.curWarp
  let m := wp.execMask p
  .next (if m = 0 then s
    else if Config.counterTop ≤ wp.quCnt then s.holdSlot s.cur .counter
    else s.irrevocably fun s =>
      let (m, s) := s.judgeSegs m fun s g => s.queueFault g m b
      let start : State × Mask × List (Mask × Word) := (s, 0, [])
      let (s, ok, vals) := (wp.turnOrder m).foldl (fun (acc : State × Mask × List (Mask × Word)) g =>
        let (s, ok, vals) := acc
        let n := s.curWarp.queueNo g m b
        let k := g.slots &&& m
        match s.queue g.gid n with
        | none => acc
        | some q =>
          if pop then
            if q.count = 0 then acc
            else ((s.setQueue g.gid n q.pop).onWarp s.cur fun wp => wp.progress k, ok ||| k, vals ++ [(k, q.front)])
          else if q.canPush g.idx then
            let v := ((g.lead m).map fun l => wp.val32 h l).getD 0
            ((s.setQueue g.gid n (q.push g.idx v)).onWarp s.cur fun wp => wp.progress k, ok ||| k, vals)
          else acc) start
      if m = 0 then s
      else
        let pd := match c with
          | .p n => some n.toNat
          | _ => none
        let r := { s.newRes s.cur .queue (if pop then h else .vz) 1 .b32 (if pop then ok else 0) .general with
          pdst := pd, pbits := ok, pmask := m, gens := s.gensOf s.cur m }
        let r := vals.foldl (fun (r : Res) v => r.give v.1 (v.2.setWidth 128)) r
        s.onWarp s.cur fun wp => wp.addRes r)

/-! ### Task queues and counters (R224) -/

/-- The key of a task queue or counter named by an id, if the id is well formed (R224). -/
def taskqKey (id : Word) : Option Nat :=
  if fieldN id 29 16 ≠ 0 ∨ 256 ≤ fieldN id 15 0 then none else some (fieldN id 31 30 * 256 + fieldN id 15 0)
def ctrKey (id : Word) : Option Nat :=
  if fieldN id 29 16 ≠ 0 then none else some (fieldN id 31 30 * 65536 + fieldN id 15 0)

/-- The task queue and the counter that an id names. -/
def State.taskq (s : State) (id : Word) : Option (Nat × TaskQ) :=
  (taskqKey id).bind fun k => (s.taskqs.find k).map fun q => (k, q)
def State.depctr (s : State) (id : Word) : Option (Nat × DepCtr) :=
  (ctrKey id).bind fun k => (s.depctrs.find k).map fun q => (k, q)

/-- No counter (R225). -/
def noCtr : Word := 0xFFFF_FFFF

/-- The code object of a context, made known to a die, whose text holds an entry, and its kernel record (R320, R351). -/
def State.findEntry (s : State) (die ctx : Nat) (entry : DWord) : Option (CodeObj × Kern) :=
  (s.objs.find? fun o => o.die == die && o.ctx == ctx && decide (o.text.toNat ≤ entry.toNat ∧ entry.toNat < o.text.toNat + o.textLen)).map
    fun o => (o, (o.kernels.find? fun k => k.entry == entry).getD ⟨entry, 0, 0, []⟩)

/-- Widths of the code of `WC` (R225). -/
def taskWidth (wc : Nat) : Nat := 8 * 2 ^ wc

/-- A launch-mode task as a launch of one group (R225). -/
def Task.launch (t : Task) (die key : Nat) (o : CodeObj × Kern) : Launch where
  ctx := t.ctx
  fn := t.fn
  die := die
  entry := t.entry
  args := t.args
  gaff := t.gaff
  groups := 1
  width := taskWidth t.wc
  segs := t.gm1 + 1
  gm := 1
  gn := 1
  reach := .core
  gang := false
  spu := t.spu
  acc := t.acc
  prio := t.prio
  stack := none
  kern := o.2
  text := o.1.text
  job := none
  taskq := some key
  dcdone := t.dcdone
  ended := 0

/-- The intake list of a die, in which the first unit of each class has been the head from now on, if it was not before
(R260). -/
def State.setIntake (s : State) (die : Nat) (l : List Intake) : State :=
  let heads := (List.range 4).filterMap fun c => (l.find? fun i => i.prio == c).map fun i => i.arrival
  { s with intake := s.intake.put die (l.map fun (i : Intake) =>
      if heads.contains i.arrival ∧ i.headAt.isNone then { i with headAt := some s.now } else i) }

/-- A launch joins the intake list of its die with its units (R259). -/
def State.addIntake (s : State) (die l prio units : Nat) (relaunch : Option (Nat × Nat)) : State :=
  let (a, s) := s.fresh
  let old := (s.intake.find die).getD []
  s.setIntake die (old ++ [⟨l, prio, a, 0, units, none, false, relaunch⟩])

/-- How many groups of a launch fit an empty core (R11, R261, R262). -/
def Launch.perCore (l : Launch) : Nat :=
  let lanes := 16 * (64 / l.width) / l.segs
  let spads := if l.spu = 0 then lanes else 64 / l.spu
  let tiles := if l.acc = 0 then lanes else 2 / l.acc
  let queues := if l.kern.queues = [] then lanes else 16 / l.kern.queues.length
  min (min lanes spads) (min tiles queues)

/-- Whether a unit of a launch can never be placed (R373): a group exceeds a core, or its gang or co-resident set exceeds the cores
of its level. -/
def Launch.neverFits (l : Launch) : Bool :=
  let cores := match l.reach with
    | .core => 1
    | .quad => 4
    | .die => 128
    | .pkg => 512
    | .pod => 512 * 64
  l.perCore == 0 || (if l.gang then decide (128 < l.gm * l.gn) || (decide (3 < (match l.reach with | .pkg => 4 | .pod => 5 | _ => 0)) && decide (cores * l.perCore < l.groups))
    else l.reach != .core && decide (cores * l.perCore < l.groups))

/-- A task becomes ready (R226): in worker mode it stands behind the ready tasks; in launch mode its group goes to intake. -/
def State.makeReady (s : State) (key : Nat) (t : Task) : State :=
  match s.taskqs.find key with
  | none => s
  | some q =>
    let (n, s) := s.fresh
    let t := { t with order := n }
    if q.worker then { s with taskqs := s.taskqs.put key { q with ready := q.ready ++ [t] } }
    else
      match s.findEntry (key / 256) t.ctx t.entry with
      | none => s.post 0x23 { addr := t.entry, fn := t.fn, ctx := t.ctx, die := key / 256, detail := Config.openDetail 0x23 }
      | some o =>
        let lau := t.launch (key / 256) key o
        let (l, s) := s.fresh
        if lau.neverFits then s.post 0x49 { addr := t.entry, fn := t.fn, ctx := t.ctx, die := key / 256, detail := Config.openDetail 0x49 }
        else { s with launches := s.launches.put l lau }.addIntake (key / 256) l t.prio 1 none

/-- A counter's value changed; at 0 every task that waits on it becomes ready, in the order of their `ENQ` (R228). -/
def State.setCtr (s : State) (key : Nat) (v : Word) : State :=
  match s.depctrs.find key with
  | none => s
  | some c =>
    if v = 0 then
      let s := { s with depctrs := s.depctrs.put key ⟨v, []⟩ }
      c.waiting.foldl (fun s t => s.makeReady t.1 t.2) s
    else { s with depctrs := s.depctrs.put key { c with val := v } }

/-- The tasks that count against a queue's capacity: ready, waiting on a counter, or launched and not yet placed. -/
def State.taskCount (s : State) (key : Nat) : Nat :=
  ((s.taskqs.find key).map fun q => q.ready.length).getD 0
    + (s.depctrs.foldl (fun n c => n + (c.2.waiting.filter fun t => t.1 == key).length) 0)
    + (s.intake.foldl (fun n d => n + (d.2.filter fun i =>
        i.relaunch.isNone && decide ((s.launches.find i.launch).bind (fun l => l.taskq) = some key)).length) 0)

/-- The fields of a task record (R225). -/
def taskOf (r : BitVec 512) (ctx fn : Nat) : Task where
  prio := fieldN r 304 303
  acc := fieldN r 302 301
  spu := fieldN r 300 294
  gm1 := fieldN r 293 290
  wc := fieldN r 289 288
  tag := field r 287 256
  dcdone := field r 255 224
  dcw := field r 223 192
  gaff := field r 191 128
  args := field r 127 64
  entry := field r 63 0
  ctx := ctx
  fn := fn
  order := 0

/-- The bit number of the lowest offending field of a record (R373). -/
def State.recordFault (s : State) (r : BitVec 512) (worker : Bool) (die ctx : Nat) : Option Nat :=
  let t := taskOf r ctx 0
  if !worker && (t.entry.toNat % 8 != 0 || (s.findEntry die ctx t.entry).isNone) then some 0
  else if 64 < t.spu then some 294
  else if t.acc = 3 then some 301
  else if fieldN r 511 305 ≠ 0 then some 305
  else none

/-- A 64-byte structure read by a lane: misalignment, a failed read, or its bits (R225, R366). -/
def State.readStruct (s : State) (w l : Nat) (va : DWord) : Except XErr (BitVec 512) :=
  if va.toNat % 64 ≠ 0 then .error ⟨0x52, 64, va, none⟩
  else match s.lanePlace w l .load 64 va with
    | .error e => .error e
    | .ok p =>
      if s.poisoned p.loc 64 then .error ⟨0xB3, Config.openDetail 0xB3, va &&& ~~~31, none⟩ else .ok (BitVec.ofNat 512 (s.readLoc p.loc 64))

/-- What a lane's `ENQ` raises: the lowest code among its conditions (R343, R366). -/
def State.enqErr (s : State) (w l : Nat) (va : DWord) (id : Word) : Option XErr :=
  let q := s.taskq id
  let ctx := (s.laneAsker w l).ctx
  let e1 := match q with
    | none => [XErr.mk 0x42 id va none]
    | some (_, q) => if q.closed then [XErr.mk 0x44 id va none] else []
  let e2 := match s.readStruct w l va with
    | .error e => [e]
    | .ok r =>
      let t := taskOf r ctx 0
      let worker := (q.map fun x => x.2.worker).getD true
      let bad := match s.recordFault r worker (fieldN id 31 30) ctx with
        | some n => [XErr.mk 0x45 (BitVec.ofNat 32 n) va none]
        | none => []
      let ctr := fun c : Word => if c ≠ noCtr ∧ (s.depctr c).isNone then [XErr.mk 0x46 c va none] else []
      bad ++ ctr t.dcw ++ ctr t.dcdone
  (e1 ++ e2).foldl (fun b e =>
    match b with
    | none => some e
    | some x => if e.code < x.code then some e else some x) none

/-- One lane's `ENQ` performed (R226). -/
def State.enqueue (s : State) (l : Nat) (va : DWord) (id : Word) : State :=
  match s.readStruct s.cur l va, s.taskq id with
  | .ok r, some (key, _) =>
    let q := s.laneAsker s.cur l
    let t := taskOf r q.ctx q.fn
    match s.depctr t.dcw with
    | some (k, c) =>
      if t.dcw ≠ noCtr ∧ c.val ≠ 0 then { s with depctrs := s.depctrs.put k { c with waiting := c.waiting ++ [(key, t)] } }
      else s.makeReady key t
    | none => s.makeReady key t
  | _, _ => s

/-- The reads of some lanes' records issue, of those that are refused among them (R167, R179, R226); the answer says whether one is held at its
home slice or behind a change of class
(R170). -/
def State.readRecords (s : State) (w : Nat) (lanes : List Nat) (va : Nat → DWord) : State × Bool :=
  lanes.foldl (fun (acc : State × Bool) l =>
    let (s, wait) := acc
    if (va l).toNat % 64 ≠ 0 then acc
    else match s.lanePlace w l .load 64 (va l) with
      | .error _ => acc
      | .ok p =>
        let s := (s.touch w p.xlat false).classAccess w l (va l)
        if !s.mayRead w p.loc || s.classWaits w p.xlat then (s, true)
        else (s.fill (coreOf w) p.loc .none (s.privAccess w l (va l)), wait)) (s, false)

/-- `ENQ` (R225, R226, R363): each lane enqueues its own record; a lane that finds its queue full holds the slot. A lane that is judged again
after others have acted, and fails, leaves them done. -/
def execEnq (p : Pre) (a b : Reg) (s : State) : Result :=
  let wp := s.curWarp
  let m := wp.execMask p
  let va := fun l => wp.val64 a l
  .next (if m = 0 then s
    else if Config.counterTop ≤ wp.stCnt then s.holdSlot s.cur .counter
    else s.irrevocably fun s =>
      let (s, wait) := s.readRecords s.cur (lanesOf (m &&& ~~~wp.turnsTaken)) va
      if wait then s.holdSlot s.cur .queue
      else
      let rs := wp.raises (m &&& ~~~wp.turnsTaken) fun g =>
        (wp.raiseOf (m &&& ~~~wp.turnsTaken) g (fun l => s.enqErr s.cur l (va l) (wp.val32 b l)) va).map fun (r : Raise) =>
          { r with done := g.rel wp.turnsTaken, after := wp.nextLatch }
      let s := s.takeAll s.cur rs
      let m := m &&& ~~~wp.stoppedBy rs
      let (s, stuck) := (lanesOf (m &&& ~~~wp.turnsTaken)).foldl (fun (acc : State × Bool) l =>
        let (s, stuck) := acc
        if stuck then acc
        else match s.taskq (wp.val32 b l) with
          | none => acc
          | some (key, q) =>
            if q.cap ≤ s.taskCount key then (s, true)
            else ((s.enqueue l (va l) (wp.val32 b l)).onWarp s.cur fun wp =>
              ((wp.takeTurn (laneBit l)).progress (laneBit l)).acted, false)) (s, false)
      if stuck then s.holdSlot s.cur .queue
      else if m = 0 then s
      else s.onWarp s.cur fun wp' => (wp'.addStore [] 0).turnsDone)

/-- The best ready task of a queue: the highest class, and the oldest within it (R227). -/
def bestTask (ts : List Task) : Option Task :=
  ts.foldl (fun (b : Option Task) t =>
    match b with
    | none => some t
    | some x => if x.prio < t.prio then some t else some x) none

/-- One task moved to an empty queue of a steal set from the fullest queue of the set (R266). -/
def State.stealSet (s : State) (key : Nat) : State :=
  match s.taskqs.find key with
  | none => s
  | some q =>
    if q.ready ≠ [] ∨ q.set.isNone then s
    else
      let peers := s.taskqs.filter fun x => x.1 ≠ key && x.2.set == q.set
      let full := peers.foldl (fun (b : Option (Nat × TaskQ)) x =>
        match b with
        | none => some x
        | some y => if y.2.ready.length < x.2.ready.length then some x else some y) none
      match full with
      | none => s
      | some (k, v) =>
        match bestTask v.ready with
        | none => s
        | some t =>
          let s := { s with taskqs := s.taskqs.put k { v with ready := v.ready.erase t } }
          { s with taskqs := s.taskqs.put key { q with ready := [t] } }

/-- What a segment raises at `DEQ` (R359, R366). -/
def State.deqFault (s : State) (g : Seg) (m : Mask) (b : Reg) : Option Raise :=
  let wp := s.curWarp
  match wp.unifFault g m [(6, false, b)], g.lead m with
  | some r, _ => some r
  | none, some l =>
    let id := wp.val32 b l
    let raise := fun code => some { code := code, mask := g.rel m, detail := id : Raise }
    match s.taskq id with
    | none => raise 0x42
    | some (_, q) => if q.worker then none else raise 0x43
  | none, none => none

/-- The registers that `DEQ` writes for a task, and for a closed queue (R227). -/
def taskWords (t : Task) : BitVec 128 := t.dcdone ++ t.tag ++ t.args
def closedWords : BitVec 128 := 0#32 ++ 0xFFFF_FFFF#32 ++ 0#64

/-- `DEQ` (R227, R266). -/
def execDeq (p : Pre) (d b : Reg) (s : State) : Result :=
  let wp := s.curWarp
  let m := wp.execMask p
  .next (if m = 0 then s
    else if Config.counterTop ≤ wp.quCnt then s.holdSlot s.cur .counter
    else s.irrevocably fun s =>
      let (m, s) := s.judgeSegs m fun s g => s.deqFault g m b
      let (done, s) := s.runTurns m (fun s g =>
        let id := ((g.lead m).map fun l => wp.val32 b l).getD 0
        let k := g.slots &&& m
        match s.taskq id with
        | none => some s
        | some (key, q0) =>
          let s := if q0.closed then s else s.stealSet key
          let q := (s.taskqs.find key).getD q0
          match bestTask q.ready with
          | some t =>
            let (rid, s) := s.sharedRes .queue d 4 m
            let s := { s with taskqs := s.taskqs.put key { q with ready := q.ready.erase t } }
            some (s.onWarp s.cur fun wp => (wp.onRes rid fun r => r.give k (taskWords t)).progress k)
          | none =>
            if q.closed then
              let (rid, s) := s.sharedRes .queue d 4 m
              some (s.onWarp s.cur fun wp => wp.onRes rid fun r => r.give k closedWords)
            else none) (wp.turnOrder m)
      if done ∧ m ≠ 0 then s.onWarp s.cur fun wp => (wp.countUp .queue).turnsDone else s)

/-! ### Dependence counters (R228, R363) -/

/-- A counter instruction: ids are judged before any lane acts; then each lane acts, in ascending order; a lane whose result
would leave the range is refused with `DCNT_RANGE`, and the segment's other lanes are done (R363). -/
def State.counterOp (s : State) (p : Pre) (a : Reg) (f : Nat → Word → Option Word) : State :=
  let wp := s.curWarp
  let m := wp.execMask p
  if m = 0 then s
  else if Config.counterTop ≤ wp.stCnt then s.holdSlot s.cur .counter
  else s.irrevocably fun s =>
    let (m, s) := s.judgeSegs m fun s g =>
      wp.raiseOf m g (fun l =>
        let id := wp.val32 a l
        if (s.depctr id).isNone then some ⟨0x46, id, 0, none⟩ else none) fun _ => 0
    let start : State × Tab Word := (s, [])
    let (s, refused) := (lanesOf m).foldl (fun (acc : State × Tab Word) l =>
      match acc.1.depctr (wp.val32 a l) with
      | none => acc
      | some (key, c) =>
        match f l c.val with
        | some v => ((acc.1.setCtr key v).onWarp s.cur fun wp => wp.progress (laneBit l), acc.2)
        | none => (acc.1, acc.2.put l c.val)) start
    if m = 0 then s
    else
      let s := s.onWarp s.cur fun wp' => wp'.addStore [] 0
      let bad := refused.foldl (fun k r => k ||| laneBit r.1) 0
      (wp.segsIn bad).foldl (fun s g =>
        s.takeAt s.cur g.lbase
          { code := 0x47, mask := g.rel bad, done := g.rel (wp.clauseAt.lanes &&& ~~~bad), after := wp.nextLatch
            detail := ((g.lead bad).bind fun l => refused.find l).getD 0 }) s

/-- `DCSET` (R228). -/
def execDcset (p : Pre) (a b : Reg) (s : State) : Result :=
  let wp := s.curWarp
  .next (s.counterOp p a fun l _ => some (wp.val32 b l))

/-- `DCADD` (R228): the result must stay within 0 to 2^32 − 1. -/
def execDcadd (p : Pre) (a b : Reg) (s : State) : Result :=
  let wp := s.curWarp
  .next (s.counterOp p a fun l c =>
    let v : Int := (c.toNat : Int) + (wp.val32 b l).toInt
    if 0 ≤ v ∧ v < 2 ^ 32 then some (BitVec.ofInt 32 v) else none)

/-- `DCDEC` (R228): the counter must be nonzero. -/
def execDcdec (p : Pre) (a : Reg) (s : State) : Result :=
  .next (s.counterOp p a fun _ c => if c = 0 then none else some (c - 1))

end Sys2Proof.Machine
end

