-- ==== Sys2Proof/Machine/Bulk.lean ====
section
/-! DEFINITION. Ranges that an engine, the concourse or a command processor reads and writes: translated page by page, read
and written at the home slices, with poison carried along (R167, R170, R179, R200, R202, R396, R409, R410). -/

namespace Sys2Proof.Machine

/-- A piece of a range inside one 4 KiB page: its address, its bytes, its place and translation. -/
structure Piece where
  va : DWord
  n : Nat
  loc : Loc
  xlat : Option Xlat
deriving DecidableEq, Repr

/-- The pages that `n` bytes at `va` touch: the first address in each and the bytes there. -/
def pageCuts (va n : Nat) : List (Nat × Nat) :=
  (List.range ((va % 4096 + n + 4095) / 4096)).map fun k =>
    let a := if k = 0 then va else va - va % 4096 + 4096 * k
    let b := min (va + n) (va - va % 4096 + 4096 * (k + 1))
    (a, b - a)

/-- The places of a range, page by page (R160 to R163, R388). -/
def State.pieces (s : State) (q : Asker) (gid : Nat) (acc : Access) : List (Nat × Nat) → Except XErr (List Piece)
  | [] => .ok []
  | (a, n) :: rest =>
    let va := BitVec.ofNat 64 a
    match s.place q gid acc 1 va with
    | .error e => .error e
    | .ok p =>
      match s.pieces q gid acc rest with
      | .error e => .error e
      | .ok ps => .ok (⟨va, n, p.loc, p.xlat⟩ :: ps)

/-- The places of several ranges. -/
def State.ranges (s : State) (q : Asker) (gid : Nat) (acc : Access) : List (Nat × Nat) → Except XErr (List Piece)
  | [] => .ok []
  | (a, n) :: rest =>
    match s.pieces q gid acc (pageCuts a n), s.ranges q gid acc rest with
    | .error e, _ => .error e
    | _, .error e => .error e
    | .ok ps, .ok qs => .ok (ps ++ qs)

/-- The bytes of pieces, in order. -/
def State.pieceBytes (s : State) (ps : List Piece) : List Byte :=
  ps.flatMap fun p => match p.loc with
    | .hbm pa => s.mem.bytes pa p.n
    | .spad c o => s.spad.bytes (spadAddr c o) p.n

/-- The first address among pieces that lies in a poisoned granule (R409). -/
def State.piecePoison (s : State) (ps : List Piece) : Option DWord :=
  ps.findSome? fun p => (List.range ((p.n + 31) / 32 + 1)).findSome? fun k =>
    let j := if k = 0 then 0 else 32 * k - p.va.toNat % 32
    if j < p.n ∧ s.poisoned (p.loc.add j) 1 then some (p.va + BitVec.ofNat 64 j) else none

/-- The poisoned granules of a range whose pieces begin at granules, by their number in it (R409). -/
def State.badGranules (s : State) (ps : List Piece) : List Nat :=
  let base := (ps.head?.map fun p => p.va.toNat).getD 0
  ps.flatMap fun p => (List.range (p.n / 32)).filterMap fun k =>
    if s.poisoned (p.loc.add (32 * k)) 1 then some ((p.va.toNat - base) / 32 + k) else none

/-- The memory granules that have given numbers in a range whose pieces begin at granules. -/
def granulesAt (ps : List Piece) (ks : List Nat) : List Nat :=
  let base := (ps.head?.map fun p => p.va.toNat).getD 0
  ps.flatMap fun p => match p.loc with
    | .hbm pa => (List.range (p.n / 32)).filterMap fun k => if ks.contains ((p.va.toNat - base) / 32 + k) then some (pa / 32 + k) else none
    | .spad _ _ => []

/-- The HBM lines of pieces. -/
def pieceLines (ps : List Piece) : List Nat :=
  ps.flatMap fun p => match p.loc with
    | .hbm _ => (linesOf p.loc p.n).map Loc.line
    | .spad _ _ => []

/-- Whether reads of pieces by an agent of a die can be answered now (R170, R172). -/
def State.piecesReadable (s : State) (die : Nat) (ps : List Piece) : Bool :=
  ps.all fun p => (linesOf p.loc p.n).all fun l => s.canReadAt die l

/-- What a read of pieces does to pages and lines, by an engine or by the tile fetch unit of a core (R166, R167, R179). -/
def State.readTouch (s : State) (core : Option Nat) (ps : List Piece) : State :=
  ps.foldl (fun s p =>
    let s := match p.xlat with
      | some x =>
        let s := s.keepXlat x
        (s.setLeaf none x 0x100).classify none core x
      | none => s
    (pieceLines [p]).foldl (fun s l => (s.recall l).useL2 l .none) s) s

/-- One piece written at its place: page bits, invalidations, tests of signatures, the bytes, and poison of its granules
if the data is poisoned (R166, R179, R202, R409). -/
def State.writePiece (s : State) (p : Piece) (bs : List Byte) (poison : Bool) : State :=
  let s := match p.xlat with
    | some x =>
      let s := s.keepXlat x
      (s.setLeaf none x 0x300).classify none none x
    | none => s
  let s := (pieceLines [p]).foldl (fun s l => (s.invalidateAll none l 1000).useL2 l .none) s
  let s := match p.loc with
    | .hbm pa => { s with
        mem := s.mem.putAll pa (bs.take p.n)
        poison := if poison then s.poison ++ (granules pa p.n).filter fun g => !s.poison.contains g
          else cleanGranules s.poison pa p.n }
    | .spad c o => { s with
        spad := s.spad.putAll (spadAddr c o) (bs.take p.n)
        poisonSpad := if poison then s.poisonSpad ++ (granules (spadAddr c o) p.n).filter fun g => !s.poisonSpad.contains g
          else cleanGranules s.poisonSpad (spadAddr c o) p.n }
  (linesOf p.loc p.n).foldl (fun s l => s.hitLoc none l) s

/-- Bytes written to pieces in order. -/
def State.writePieces (s : State) (poison : Bool) : List Piece → List Byte → State
  | [], _ => s
  | p :: ps, bs => (s.writePiece p bs poison).writePieces poison ps (bs.drop p.n)

/-- One of several things that nothing puts in an order: the only one, or one that a free value picks (assumption 7). -/
def State.pick {α : Type} (s : State) (l : List α) : Option α × State :=
  match l with
  | [] => (none, s)
  | [x] => (some x, s)
  | l => (l[Config.choice s.freeNo % l.length]?, { s with freeNo := s.freeNo + 1 })

/-- The little-endian value of bytes (R2). -/
def natOfBytes : List Byte → Nat
  | [] => 0
  | b :: bs => b.toNat + 256 * natOfBytes bs

/-- The `n` little-endian bytes of a value (R2). -/
def bytesOf : Nat → Nat → List Byte
  | 0, _ => []
  | n + 1, v => BitVec.ofNat 8 v :: bytesOf n (v / 256)

/-- The bytes that a read descriptor may reach, by first address and length: sources, destinations, tables and index arrays (R247 to R250). -/
def descSpans (cell : Nat) (d : BitVec 512) : List (Nat × Nat) :=
  let rows := fun (a n pitch len : Nat) => if n = 0 ∨ len = 0 then [] else [(a, (n - 1) * pitch + len)]
  match cell with
  | 0xD0 => rows (fieldN d 63 0) (fieldN d 191 160) (fieldN d 223 192) (fieldN d 159 128) ++
      rows (fieldN d 127 64) (fieldN d 191 160) (fieldN d 255 224) (fieldN d 159 128)
  | 0xD1 => [(fieldN d 191 128, 4 * fieldN d 223 192), (fieldN d 127 64, fieldN d 223 192 * fieldN d 255 224),
      (fieldN d 63 0, fieldN d 319 288 * fieldN d 287 256 + fieldN d 255 224)]
  | 0xD2 => [(fieldN d 63 0, 4 * fieldN d 159 128), (fieldN d 127 64, 4 * fieldN d 159 128)]
  | _ =>
    let r := fieldN d 329 320
    let c := fieldN d 339 330
    rows (fieldN d 63 0) r (fieldN d 371 340) (4 * c) ++
      [(fieldN d 127 64, r * c / 2), (fieldN d 191 128, r * c / 32), (fieldN d 255 192, r * c / 2), (fieldN d 319 256, r * c / 32)]

/-- The asker for an engine in a context. -/
def engineAsker (eng ctx fn : Nat) : Asker := ⟨engineAgent eng, ctx, fn, true, true⟩

/-- The asker for a command processor of a die in a context. -/
def cpAsker (die ctx fn : Nat) : Asker := ⟨cpAgent die, ctx, fn, true, false⟩

end Sys2Proof.Machine
end

