-- ==== Sys2Proof/Machine/Gallery.lean ====
section
/-! DEFINITION. Galleries: the directory, space and eviction on a core, the gallery instructions, fills and write-backs (R184 to
R196, R232, R367, R399, R400). -/

namespace Sys2Proof.Machine

/-! ### Space on a core (R187, R193, R261) -/

/-- The directory entry of a name in a context, with its number. -/
def State.findGal (s : State) (ctx : Nat) (name : DWord) : Option (Nat × Gal) :=
  s.gals.find? fun e => e.2.ctx == ctx && e.2.name == name

/-- Whether a gallery occupies space on a core (R186). -/
def Gal.onCore (g : Gal) (core : Nat) : Bool := g.st != .evicted && g.core == core

/-- Scratchpad units of a group (R32). -/
def State.spuOf (s : State) (x : Group) : Nat := ((s.launches.find x.launch).map Launch.spu).getD 0

/-- The scratchpad ranges in use on a core, in 16 KiB units, but for some galleries; a retired unit counts as used (R408). -/
def State.spadUsed (s : State) (core : Nat) (but : List Nat) : List (Nat × Nat) :=
  (s.groups.filterMap fun q => if q.2.placed && q.2.core == core then some (q.2.spadBase, s.spuOf q.2) else none)
    ++ (s.gals.filterMap fun q => if q.2.onCore core && !but.contains q.1 then some (q.2.sbase, q.2.size) else none)
    ++ s.retired.filterMap fun q => if q.2.1 = 3 ∧ q.2.2.toNat / 2 ^ 20 = core then some (q.2.2.toNat % 2 ^ 20 / 16384, 1) else none

/-- Whether a range of units meets none in use. -/
def rangeFree (used : List (Nat × Nat)) (n base : Nat) : Bool :=
  used.all fun u => decide (u.2 = 0 ∨ base + n ≤ u.1 ∨ u.1 + u.2 ≤ base)

/-- The lowest free range of `n` units among the 64 of a core. -/
def freeRange (used : List (Nat × Nat)) (n : Nat) : Option Nat :=
  if n = 0 then some 0 else if 64 < n then none else (List.range (65 - n)).find? (rangeFree used n)

/-- The galleries of a core that may be evicted, oldest detach first (R193, R195): no placed group holds them. One that only saved groups hold
stands where its last detach puts it, first if it has had none (DESIGN CHOICE, assumption 100). -/
def State.evictable (s : State) (core : Nat) : List Nat :=
  let held := fun (e : Gal) => s.groups.any fun q =>
    q.2.placed && s.ctxOf q.1 == e.ctx && q.2.gals.any fun x => x.1 == e.name
  let cand := s.gals.filter fun q => q.2.st == .resident && q.2.core == core && !held q.2
  let ins := fun (l : List (Nat × Nat)) (x : Nat × Nat) => (l.filter fun y => y.2 ≤ x.2) ++ x :: l.filter fun y => x.2 < y.2
  ((cand.map fun q => (q.1, q.2.detached)).foldl ins []).map Prod.fst

/-- The galleries that are on their way out of a core. -/
def State.leaving (s : State) (core : Nat) : List Nat :=
  (s.gals.filter fun q => q.2.st == .writingBack && q.2.core == core).map Prod.fst

/-- The galleries to evict, beside those already on their way out, so that `n` units, and for a fill a table entry, are free on a core: none
if not even the eviction of all of them would do (R193). -/
def State.evictPlan (s : State) (core n : Nat) (entry : Bool) : Option (List Nat) :=
  let cand := s.evictable core
  let out0 := s.leaving core
  let count := (s.gals.filter fun q => q.2.onCore core).length - out0.length
  let fits := fun (out : List Nat) (k : Nat) => (freeRange (s.spadUsed core out) n).isSome && (!entry || decide (count - k < 8))
  if fits [] 0 && (!entry || decide (count + out0.length < 8)) then some []
  else (List.range (cand.length + 1)).findSome? fun k => if fits (out0 ++ cand.take k) k then some (cand.take k) else none

/-- A gallery's eviction begins (R188). -/
def State.evict (s : State) (g : Nat) : State :=
  { s with gals := s.gals.alter g fun (e : Gal) => if e.st = .resident then { e with st := .writingBack } else e }

/-- Zeros in the scratchpad of a core. -/
def State.zeroSpad (s : State) (core base n : Nat) : State :=
  let a := core * 2 ^ 20 + base * 16384
  { s with
    spad := s.spad.filter fun c => !(decide (a ≤ c.1 ∧ c.1 < a + n * 16384))
    poisonSpad := s.poisonSpad.filter fun g => !(decide (a ≤ 32 * g ∧ 32 * g < a + n * 16384)) }

/-! ### Attaching and detaching (R189, R190) -/

/-- The view offset at which a gallery of `n` units would appear to a group (R189). -/
def State.viewOffset (s : State) (x : Group) (ctx n : Nat) : Option Nat :=
  let used := x.gals.map fun (name, view) => (view / 16384, ((s.findGal ctx name).map fun e => e.2.size).getD 0)
  let own := s.spuOf x
  if 64 < own + n then none else
    ((List.range (65 - n - own)).map (own + ·)).find? (rangeFree used n)

/-- A group attached to a gallery, if it has room (R188, R189). -/
def State.attach (s : State) (gid g : Nat) : State :=
  match s.group gid, s.gals.find g with
  | some x, some e =>
    if x.gals.any fun y => y.1 == e.name then s
    else match s.viewOffset x e.ctx e.size with
      | none => s
      | some v =>
        if 8 ≤ x.gals.length then s
        else { s with
          groups := s.groups.put gid { x with gals := x.gals ++ [(e.name, v * 16384)] }
          gals := s.gals.put g { e with acnt := e.acnt + 1 } }
  | _, _ => s

/-- A group detached from a gallery (R188, R190). -/
def State.detach (s : State) (gid : Nat) (name : DWord) : State :=
  let s := { s with groups := s.groups.alter gid fun x => { x with gals := x.gals.filter fun y => y.1 != name } }
  match s.findGal (s.ctxOf gid) name with
  | none => s
  | some (g, e) =>
    let (n, s) := s.fresh
    let last := e.acnt = 1
    { s with gals := s.gals.put g { e with
        acnt := e.acnt - 1
        seq := if last then e.seq + 1 else e.seq
        detached := if last then n else e.detached } }

/-- A group detached from every gallery that it holds (R190). -/
def State.detachAll (s : State) (gid : Nat) : State :=
  (((s.group gid).map Group.gals).getD []).foldl (fun s x => s.detach gid x.1) s

/-- The galleries of an ended context that no group holds are free: their space is zeroed, and nothing is written back (R188, R196,
R286). -/
def State.freeGals (s : State) (ctx : Nat) : State :=
  let ended := ((s.ctxs.find ctx).map Ctx.ended).getD false
  let gone := s.gals.filter fun q => ended && q.2.ctx == ctx && q.2.acnt == 0
  gone.foldl (fun s q =>
    let s := if q.2.st = .evicted then s else s.zeroSpad q.2.core q.2.sbase q.2.size
    let s := (if q.2.hid = 0 then s else s.unhold q.2.hid).unclaim (.gallery q.1)
    { s with gals := s.gals.del q.1 }) s

/-- An operation that waits recorded at its entry (R186, R188). -/
def State.awaitGal (s : State) (g w lb : Nat) (free : Bool) : State :=
  { s with gals := s.gals.alter g fun (e : Gal) =>
      if e.waiters.contains (w, lb, free) then e else { e with waiters := e.waiters ++ [(w, lb, free)] } }

/-- An operation that waited has been taken up (R186). -/
def State.takeUp (s : State) (g w lb : Nat) : State :=
  { s with gals := s.gals.alter g fun (e : Gal) =>
      { e with waiters := e.waiters.filter fun x => !(x.1 == w && x.2.1 == lb) } }

/-- The operation of a segment waits at no entry any more, since its cause was taken or its thread has ended; a migration that no attach waits for
is none (R186, R188). -/
def State.dropWaits (s : State) (w lb : Nat) : State :=
  { s with gals := s.gals.mapV fun _ (e : Gal) =>
      if e.waiters.any fun x => x.1 == w && x.2.1 == lb then
        let left := e.waiters.filter fun x => !(x.1 == w && x.2.1 == lb)
        { e with waiters := left, target := e.target.filter fun c => left.any fun x => !x.2.2 && coreOf x.1 == c }
      else e }

/-- Whether an operation that waits at an entry would be taken up in its present state (R188). -/
def State.wouldTake (s : State) (e : Gal) (x : Nat × Nat × Bool) : Bool :=
  match e.st with
  | .resident => x.2.2 || (if e.core = coreOf x.1 then e.acnt != 0xFFFF_FFFF#32 else e.acnt == 0)
  | .evicted => x.2.2 || (s.evictPlan (coreOf x.1) e.size true).isSome
  | _ => false

/-- Whether an operation that reached an entry earlier comes first: it waits there and would be taken up now (R186). -/
def State.overtakes (s : State) (e : Gal) (w lb : Nat) : Bool :=
  (e.waiters.takeWhile fun x => !(x.1 == w && x.2.1 == lb)).any (s.wouldTake e)

/-- A fill begins on a core at a free place (R188). -/
def State.startFill (s : State) (g core : Nat) : State :=
  match s.gals.find g with
  | none => s
  | some e =>
    match freeRange (s.spadUsed core []) e.size with
    | none => s
    | some b => if 8 ≤ (s.gals.filter fun q => q.2.onCore core).length then s else { s with gals := s.gals.put g { e with st := .filling, core := core, sbase := b, target := none } }

/-- An evicted gallery is wanted on a core: its fill begins, or the galleries in the way are evicted first, or it waits
(R188, R193). -/
def State.wantOn (s : State) (g core : Nat) : State :=
  match s.gals.find g with
  | none => s
  | some e =>
    match s.evictPlan core e.size true with
    | none => s
    | some [] => s.startFill g core
    | some ks => ks.foldl State.evict s

/-! ### The instructions (R232) -/

/-- What a segment raises for a name of 0, before anything else, or for its uniform operands (R359, R367). -/
def State.galJudge (s : State) (g : Seg) (m : Mask) (ops : List (Nat × Bool × Reg)) (name : DWord) (codes : List Nat) :
    Option Raise :=
  let code := fun n : Nat => some ({ code := n, mask := g.rel m, detail := loWord name } : Raise)
  if name = 0 then code 0x64
  else match s.curWarp.unifFault g m ops with
    | some r => some r
    | none => match codes with
      | [] => none
      | c :: cs => code (cs.foldl min c)

/-- The value of a uniform operand in a segment. -/
def Warp.uni (wp : Warp) (g : Seg) (m : Mask) (wide : Bool) (r : Reg) : DWord :=
  ((g.lead m).map fun l => wp.val wide r l).getD 0

/-- The turns of a gallery instruction (R223, R232): `judge` names a segment's cause; `act` answers whether the segment has
acted, and the state; a segment that waits holds the slot (R193). -/
def State.galTurns (s : State) (m : Mask) (judge : State → Seg → Option Raise) (act : State → Seg → Bool × State) :
    List Seg → Bool × State
  | [] => (true, s)
  | g :: rest =>
    if s.curWarp.turnsTaken &&& g.slots &&& m != 0 then s.galTurns m judge act rest
    else match judge s g with
      | some r => ((s.dropWaits s.cur g.lbase).takeAt s.cur g.lbase r).galTurns m judge act rest
      | none =>
        match act s g with
        | (false, s) => (false, s.holdSlot s.cur .gallery)
        | (true, s) =>
          (s.onWarp s.cur fun wp => ((wp.takeTurn (g.slots &&& m)).acted).progress (g.slots &&& m)).galTurns m judge act rest

/-- The slot issues after its last turn and adds to its counter (R73, R74). -/
def State.galIssued (s : State) (c : Ctr) : State :=
  let wp := s.curWarp
  let k := wp.turnsTaken
  if k = 0 then s
  else match c with
    | .load =>
      let id := (wp.clause.map fun c => c.resId).getD 0
      let (fill, cover) := wp.reach k
      let gens := s.gensOf s.cur k
      s.onWarp s.cur fun wp =>
        ((wp.onRes id fun r => { r with lanes := k, shape := .uniform, fill := fill, cover := cover, gens := gens }).countUp
          .load).turnsDone
    | _ => s.onWarp s.cur fun wp => (wp.addStore [] 0).turnsDone

/-- A store-counted gallery instruction. -/
def State.galStore (s : State) (p : Pre) (judge : State → Mask → Seg → Option Raise) (act : State → Mask → Seg → Bool × State) :
    State :=
  let m := s.curWarp.execMask p
  if m = 0 then s
  else if Config.counterTop ≤ s.curWarp.stCnt then s.holdSlot s.cur .counter
  else s.irrevocably fun s =>
    let (done, s) := s.galTurns m (fun s => judge s m) (fun s => act s m) (s.curWarp.turnOrder m)
    if done then s.galIssued .store else s

/-- Whether two ranges of bytes meet. -/
def rangesMeet (a n b k : Nat) : Bool := decide (a < b + k ∧ b < a + n)

/-- `GMAKE` (R188, R232, R367). -/
def execGmake (p : Pre) (a b c : Reg) (s : State) : Result :=
  .next (s.galStore p
    (fun s m g =>
      let wp := s.curWarp
      let name := wp.uni g m true a
      let back := (wp.uni g m true b).toNat
      let size := (wp.uni g m false c).toNat
      let ctx := s.ctxOf g.gid
      let mine := s.gals.filter fun e => e.2.ctx == ctx
      s.galJudge g m [(5, true, a), (6, true, b), (7, false, c)] name
        ((if (s.findGal ctx name).isSome then [0x5C] else [])
          ++ (if size = 0 ∨ 48 < size then [0x5F] else [])
          ++ (if back % 16384 ≠ 0 then [0x60] else [])
          ++ (if mine.any fun e => rangesMeet back (size * 16384) e.2.back.toNat (e.2.size * 16384) then [0x61] else [])
          ++ (if 256 ≤ mine.length then [0x62] else [])))
    (fun s m g =>
      let wp := s.curWarp
      let (n, s) := s.fresh
      let e : Gal :=
        { ctx := s.ctxOf g.gid, name := wp.uni g m true a, size := (wp.uni g m false c).toNat, back := wp.uni g m true b,
          seq := 0, acnt := 0, st := .evicted, core := 0, sbase := 0, waiters := [], target := none, detached := 0, hid := 0 }
      (true, { s with gals := s.gals.put n e })))

/-- Whether an engine command of a group may still access a range of its view: one that has been released, whose writes are not all performed,
and whose descriptor reaches the range or has not been read (R190, R246). -/
def Cmd.usesView (c : Cmd) (gid lo n : Nat) : Bool :=
  c.gid == some gid && (c.st == .released || c.st == .held || c.st == .deferred) &&
    (match c.image with
      | none => true
      | some d => (descSpans c.cell d).any fun x => rangesMeet x.1 x.2 (spadWindow + lo) n)

/-- Whether an access of a group to a range of a core's scratchpad has not been performed yet: one of its threads', of its released engine
commands, or of its matrix operations, issued or complete at their landings (R190, R239, R243, R246). `view` is the range's place in the group's
view. -/
def State.accessPending (s : State) (gid core lo n view : Nat) : Bool :=
  let hit := fun l : Loc => match l with
    | .spad c o => c == core && rangesMeet o 16 lo n
    | .hbm _ => false
  (s.warps.any fun (w, wp) =>
    let mine := fun lane => wp.gidOf lane == gid
    (((wp.window.map Window.evs).getD []).any fun e =>
      match e with
      | .rd _ l _ loc _ _ => mine l && hit loc
      | .wr _ l _ (some loc) _ _ _ => mine l && hit loc
      | .wr .. | .token _ => false)
    || (wp.sideLog.any fun e => mine e.lane && (e.loc.map hit).getD false)
    || s.homeOps.any fun o => o.warp == w && mine o.lane && hit o.loc)
  || (s.cmds.any fun c => c.2.usesView gid view n)
  || (s.cores.any fun c => c.2.landings.any fun d => s.landingFull d &&
      (((s.warp d.warp).segAt d.lbase).any fun g => g.gid == gid))
  || s.cores.any fun c => c.2.tiles.any fun t => t.seq.any fun o =>
      match o with
      | .mma op => op.gid == gid
      | _ => false

/-- `GDET` (R190, R232, R367). -/
def execGdet (p : Pre) (a : Reg) (s : State) : Result :=
  .next (s.galStore p
    (fun s m g =>
      let name := s.curWarp.uni g m true a
      let holds := ((s.group g.gid).map fun x => x.gals.any fun y => y.1 == name).getD false
      s.galJudge g m [(5, true, a)] name (if holds then [] else [0x5E]))
    (fun s m g =>
      let name := s.curWarp.uni g m true a
      match s.findGal (s.ctxOf g.gid) name with
      | none => (true, s.detach g.gid name)
      | some (_, e) =>
        let view := (((s.group g.gid).bind fun x => x.gals.find? fun y => y.1 == name).map Prod.snd).getD 0
        if e.st = .resident ∧ s.accessPending g.gid e.core (e.sbase * 16384) (e.size * 16384) view then (false, s)
        else (true, s.detach g.gid name)))

/-- Whether a `GFREE` of a segment holds at an entry (R186, R188). -/
def State.freeWaits (s : State) (e : Gal) (lb : Nat) : Bool := e.st == .filling || e.st == .writingBack || s.overtakes e s.cur lb

/-- `GFREE` (R186, R188, R232, R367): it waits at the entry behind what came earlier and may go on, and is judged when it is taken up. -/
def execGfree (p : Pre) (a : Reg) (s : State) : Result :=
  .next (s.galStore p
    (fun s m g =>
      let name := s.curWarp.uni g m true a
      s.galJudge g m [(5, true, a)] name (match s.findGal (s.ctxOf g.gid) name with
        | none => [0x5B]
        | some (_, e) => if e.acnt ≠ 0 ∧ !s.freeWaits e g.lbase then [0x5D] else []))
    (fun s m g =>
      match s.findGal (s.ctxOf g.gid) (s.curWarp.uni g m true a) with
      | none => (true, s)
      | some (n, e) =>
        if s.freeWaits e g.lbase then (false, s.awaitGal n s.cur g.lbase true)
        else (true, { s with gals := s.gals.del n })))

/-- One segment's `GATT` at the directory entry (R186, R188, R189, R193): whether it returns, and the state. -/
def State.attTurn (s : State) (g : Seg) (m : Mask) (d : Reg) (all : Mask) (name : DWord) : Bool × State :=
  let core := coreOf s.cur
  match s.findGal (s.ctxOf g.gid) name, s.group g.gid with
  | some (n, e), some x =>
    let answer := fun (s : State) =>
      let s := s.takeUp n s.cur g.lbase
      match s.group g.gid, s.gals.find n with
      | some x, some e =>
        let v := ((x.gals.find? fun y => y.1 == name).map Prod.snd).getD 0
        let (id, s) := s.sharedRes .load d 2 all
        s.onWarp s.cur fun wp => wp.onRes id fun r =>
          r.give (g.slots &&& m) ((e.seq ++ BitVec.ofNat 32 v : BitVec 64).setWidth 128)
      | _, _ => s
    let wait := fun (s : State) => (false, s.awaitGal n s.cur g.lbase false)
    let held := x.gals.any fun y => y.1 == name
    if held ∧ e.st = .resident ∧ e.core = core then (true, answer s)
    else if s.overtakes e s.cur g.lbase then wait s
    else match e.st with
    | .resident =>
      if e.core = core then
        if e.acnt = 0xFFFF_FFFF#32 then wait s
        else (true, answer (s.attach g.gid n))
      else if e.acnt = 0 then
        wait { s with gals := s.gals.put n { e with st := .writingBack, target := some core } }
      else wait s
    | .evicted => wait (s.wantOn n core)
    | .filling => wait s
    | .writingBack => wait s
  | _, _ => (true, s)

/-- Whether a `GATT` of a segment holds at the directory, so that nothing is judged: it comes behind an earlier operation, its gallery stands or
moves where it cannot be attached, or it waits for a fill that has not found space or is under way (R186, R188, R193, R367). -/
def State.attWaits (s : State) (g : Seg) (x : Group) (e : Gal) : Bool :=
  let core := coreOf s.cur
  if (x.gals.any fun y => y.1 == e.name) ∧ e.st = .resident ∧ e.core = core then false
  else s.overtakes e s.cur g.lbase ||
    match e.st with
    | .resident => if e.core = core then e.acnt == 0xFFFF_FFFF#32 else e.acnt != 0
    | .evicted => e.waiters.contains (s.cur, g.lbase, false) && s.evictPlan core e.size true != some []
    | .filling => e.core != core || e.waiters.contains (s.cur, g.lbase, false)
    | .writingBack => true

/-- `GATT` (R189, R232, R367, R399). -/
def execGatt (p : Pre) (d a : Reg) (s : State) : Result :=
  let m := s.curWarp.execMask p
  .next (if m = 0 then s
    else if Config.counterTop ≤ s.curWarp.ldCnt then s.holdSlot s.cur .counter
    else s.irrevocably fun s =>
      let name := fun (s : State) (g : Seg) => s.curWarp.uni g m true a
      let (done, s) := s.galTurns m
        (fun s g =>
          let ctx := s.ctxOf g.gid
          s.galJudge g m [(5, true, a)] (name s g) (match s.findGal ctx (name s g), s.group g.gid with
            | some (_, e), some x =>
              if s.attWaits g x e ∨ (x.gals.any fun y => y.1 == name s g) ∨ (x.gals.length < 8 ∧ (s.viewOffset x ctx e.size).isSome) then []
              else [0x63]
            | _, _ => [0x5B]))
        (fun s g => s.attTurn g m d m (name s g)) (s.curWarp.turnOrder m)
      if done then s.galIssued .load else s)

/-! ### Fills and write-backs (R188, R191, R193, R400) -/

/-- The pieces of a gallery's backing region. -/
def State.backing (s : State) (e : Gal) (acc : Access) : Except XErr (List Piece) :=
  let fn := ((s.ctxs.find e.ctx).map Ctx.fn).getD 0
  s.ranges ⟨galleryAgent (e.core / 256), e.ctx, fn, true, true⟩ 0 acc [(e.back.toNat, e.size * 16384)]

/-- `GALLERY_FILL_COMPLETE` (R188): the bytes of the backing region stand on the core, and every attach that waits there
returns. -/
def execGalleryFillComplete (g : Nat) (s : State) : Result :=
  .next (match s.gals.find g with
    | none => s
    | some e =>
      if e.st ≠ .filling ∨ e.hid ≠ 0 then s
      else match s.backing e .load with
        | .error _ => s
        | .ok ps =>
          if !s.piecesReadable (e.core / 256) ps then s else
          let bs := s.pieceBytes ps
          let bad := s.badGranules ps
          let s := s.readTouch none ps
          let a := spadAddr e.core (e.sbase * 16384)
          let s := { s with
            spad := s.spad.putAll a bs
            poisonSpad := cleanGranules s.poisonSpad a (e.size * 16384) ++ bad.map (a / 32 + ·)
            gals := s.gals.put g { e with st := .resident, waiters := e.waiters.filter fun x => x.2.2 || coreOf x.1 != e.core } }
          let here := e.waiters.filter fun x => !x.2.2 && coreOf x.1 == e.core
          here.foldl (fun s x =>
            match (s.warp x.1).segAt x.2.1 with
            | some seg => s.attach seg.gid g
            | none => s) s)

/-- `GALLERY_WRITEBACK_COMPLETE` (R188, R191): the bytes stand in the backing region and the space is free; a migration goes
on. Poison goes with them and is posted (R409, R410). -/
def execGalleryWritebackComplete (g : Nat) (s : State) : Result :=
  .next (match s.gals.find g with
    | none => s
    | some e =>
      if e.st ≠ .writingBack ∨ e.hid ≠ 0 then s
      else match s.backing e .store with
        | .error _ => s
        | .ok ps =>
          let (s, all) := s.gainLines (e.core / 256) (.gallery g) (pieceLines ps)
          if !all then s
          else
            let a := spadAddr e.core (e.sbase * 16384)
            let s := s.unclaim (.gallery g)
            let bad := granulesAt ps ((s.poisonSpad.filter fun g => decide (a ≤ 32 * g ∧ 32 * g < a + e.size * 16384)).map (· - a / 32))
            let s := s.writePieces false ps (s.spad.bytes a (e.size * 16384))
            let s := bad.foldl (fun s g => s.postIdle (e.core / 256) g) { s with poison := s.poison ++ bad }
            let s := { s with gals := s.gals.put g { e with st := .evicted, core := 0, sbase := 0, target := none } }
            match e.target with
            | some c => s.wantOn g c
            | none => s)

/-- Whether an evicted gallery that an attach, whose turn it is, waits for wants gallery `g` gone from its core (R186, R193). -/
def State.wantsSpace (s : State) (g core : Nat) : Bool :=
  s.gals.any fun q => q.2.st == .evicted && q.2.waiters.any fun x =>
    !x.2.2 && coreOf x.1 == core && !s.overtakes q.2 x.1 x.2.1 && (((s.evictPlan core q.2.size true).map fun ks => ks.contains g).getD false)

/-- `GALLERY_EVICTION` (R193): a gallery that no placed group holds gives way to a fill that needs its space. -/
def execGalleryEviction (g : Nat) (s : State) : Result :=
  .next (match s.gals.find g with
    | none => s
    | some e => if e.st = .resident ∧ s.wantsSpace g e.core then s.evict g else s)

/-- A fault of a fill or of a write-back posted with a hold identifier and the backing address (R400). -/
def State.galFault (s : State) (g : Nat) (st : GalSt) (acc : Access) (code : Nat) : State :=
  match s.gals.find g with
  | none => s
  | some e =>
    if e.st ≠ st ∨ e.hid ≠ 0 then s
    else match s.backing e acc with
      | .ok _ => s
      | .error x =>
        let fn := ((s.ctxs.find e.ctx).map Ctx.fn).getD 0
        let s := s.met ⟨galleryAgent (e.core / 256), e.ctx, fn, true, true⟩ x x.addr
        let (k, s) := s.hold fn (.gallery g)
        let s := { s with gals := s.gals.put g { e with hid := k } }
        s.post code { addr := e.back, hold := k, detail := x.detail, fn := fn, ctx := e.ctx, die := e.core / 256,
                      core := e.core % 256 }

/-- `GALLERY_FILL_FAULT` (R400). -/
def execGalleryFillFault (g : Nat) (s : State) : Result := .next (s.galFault g .filling .load 0x65)

/-- `GALLERY_WB_FAULT` (R400). -/
def execGalleryWbFault (g : Nat) (s : State) : Result := .next (s.galFault g .writingBack .store 0x66)

end Sys2Proof.Machine
end

