-- ==== Sys2Proof/Machine/Matrix.lean ====
section
/-! DEFINITION. Landings, matrix operations and accumulator tiles (R105 to R111, R233 to R245, R368, R369, R397). -/

namespace Sys2Proof.Machine

/-! ### Numbers (R105 to R111) -/

/-- The element type of a cell (R93), and the k extent of its operation (R242). -/
def mmaTy (cell : Nat) : Ty :=
  match cell with
  | 0xC0 => .q4
  | 0xC1 => .e4m3
  | 0xC2 => .e5m2
  | 0xC3 => .i8
  | _ => .h16
def mmaKop (cell : Nat) : Nat := if cell = 0xC0 then 128 else if cell = 0xC4 then 32 else 64

/-- The type code that a record's `FMT` must hold (R85, R235). -/
def mmaFmt (cell : Nat) : Nat :=
  match cell with
  | 0xC0 => 0xF
  | 0xC1 => 0xD
  | 0xC2 => 0xE
  | 0xC3 => 0x0
  | _ => 0xA

/-- The magnitude of a 4-bit code (R106), as a mantissa and an exponent. -/
def q4Mag (qt m : Nat) : Nat × Int :=
  match qt with
  | 1 => ([0, 1, 2, 3, 4, 6, 8, 12].getD m 0, -1)
  | 2 => if m = 0 then (0, 0) else (1, (m : Int) - 7)
  | _ => ([0, 1, 2, 3, 4, 8, 16, 32].getD m 0, 0)

/-- The value of a 4-bit code under a code type (R106). -/
def q4Val (qt c : Nat) : Num :=
  if qt = 0 then Num.ofInt (if c < 8 then (c : Int) else (c : Int) - 16) 0
  else .fin (8 ≤ c) (q4Mag qt (c % 8)).1 (q4Mag qt (c % 8)).2

/-- The value of an element code (R97, R106, R242). -/
def codeVal (cell qt c : Nat) : Num :=
  match cell with
  | 0xC0 => q4Val qt c
  | 0xC1 => fmtE4m3.read c
  | 0xC2 => fmtE5m2.read c
  | 0xC3 => Num.ofInt (BitVec.ofNat 8 c).toInt 0
  | _ => fmtH16.read c

/-- The exponent of a scale byte (R105). -/
def scaleExp (b : Nat) : Int := (BitVec.ofNat 6 b).toInt

/-- The bounds of V in units of 2^-128 (R107). -/
def accMin : Int := -(2 ^ 255)
def accMax : Int := 2 ^ 255 - 1

/-- An empty element (R107). -/
def Acc.zero : Acc := ⟨0, false, false, false, false⟩

/-- One product into a block's sum and the sticky bits (R109). -/
def mulInto (st : Int × Bool × Bool × Bool) (x y : Num) (ea eb : Int) : Int × Bool × Bool × Bool :=
  let (s, n, p, m) := st
  let zero := fun v : Num => match v with
    | .fin _ k _ => k == 0
    | _ => false
  let neg := fun v : Num => match v with
    | .fin b _ _ => b
    | .inf b => b
    | .nan _ => false
  let isInf := fun v : Num => match v with
    | .inf _ => true
    | _ => false
  if x.isNan || y.isNan then (s, true, p, m)
  else if (isInf x && zero y) || (isInf y && zero x) then (s, true, p, m)
  else if isInf x || isInf y then (if neg x == neg y then (s, n, true, m) else (s, n, p, true))
  else match x, y with
    | .fin n1 m1 e1, .fin n2 m2 e2 => (s + scaled (n1 != n2) (m1 * m2) (e1 + e2 + ea + eb) (-128), n, p, m)
    | _, _ => st

/-- One block into an element (R109). -/
def Acc.block (e : Acc) (st : Int × Bool × Bool × Bool) : Acc :=
  let t := e.v.toInt + st.1
  { v := BitVec.ofInt 256 t
    o := e.o || decide (t < accMin ∨ accMax < t)
    n := e.n || st.2.1
    p := e.p || st.2.2.1
    m := e.m || st.2.2.2 }

/-- The readout of an element (R111). -/
def Acc.readOut (e : Acc) (ty : Ty) : DWord × BitVec 5 :=
  let pick := fun (f h b x i : Nat) => BitVec.ofNat 64 (match ty with
    | .f32 => f
    | .h16 => h
    | .bf16 => b
    | .e4m3 => x
    | _ => i)
  let side : BitVec 5 := match ty with
    | .e4m3 => flagOF ||| flagNX
    | .i32 => flagNV
    | _ => 0
  if e.n || (e.p && e.m) then (pick 0x7FC0_0000 0x7E00 0x7FC0 0x7F 0, flagNV)
  else if e.p then (pick 0x7F80_0000 0x7C00 0x7F80 0x7E 0x7FFF_FFFF, side)
  else if e.m then (pick 0xFF80_0000 0xFC00 0xFF80 0xFE 0x8000_0000, side)
  else if e.o then (pick 0x7FC0_0000 0x7E00 0x7FC0 0x7F 0, flagNV ||| flagOF)
  else
    let x := Num.ofInt e.v.toInt (-128)
    match ty with
    | .i32 => let (v, f) := roundInt .i32 .rn x; (writeInt .i32 v, f)
    | ty => let (v, f) := ((Ty.float ty).getD fmtF32).round .rn (ty == .e4m3) x; (BitVec.ofNat 64 v, f)

/-! ### Tiles (R244, R245) -/

/-- The element of a tile. -/
def Tile.elem (t : Tile) (i j : Nat) : Acc := (t.elems.find (i * 64 + j)).getD Acc.zero
/-- A tile with an element replaced. -/
def Tile.setElem (t : Tile) (i j : Nat) (e : Acc) : Tile := { t with elems := t.elems.put (i * 64 + j) e }

/-- A slot that takes its effect outside any window is never executed again by a rollback (R201). -/
def State.markOutside (s : State) : State := if s.curWarp.window.isNone then s.onWarp s.cur Warp.acted else s

/-- An accumulator operation enters its tile's sequence, or waits for the open window's commit (R234, R244). -/
def State.tileOp (s : State) (w t : Nat) (op : TileOp) : State :=
  match (s.warp w).window with
  | some x => s.onWarp w fun wp => { wp with window := some { x with tileOps := x.tileOps ++ [(t, op)] } }
  | none => (s.onTile (coreOf w) t fun y => { y with seq := y.seq ++ [op] }).markOutside

/-- `UNIF_MISMATCH` of a matrix instruction: its detail holds the landing number or the tile bit, and the failing field (R368). -/
def Warp.matrixUnif (wp : Warp) (g : Seg) (m : Mask) (low : Nat) (ops : List (Nat × Bool × Reg)) : Option Raise :=
  (wp.unifFault g m ops).map fun r => { r with detail := BitVec.ofNat 32 (low + 256 * (r.detail.toNat % 16)) }

/-- What a segment raises at an accumulator instruction (R359, R368): the tile bit is that of the lead lane. -/
def State.accFault (s : State) (g : Seg) (m : Mask) (a : Reg) (b : Option Reg) : Option Raise :=
  let wp := s.curWarp
  let ops := (5, false, a) :: (b.map fun r => (6, false, r)).toList
  let bit := (wp.uni g m false a).toNat % 2
  match wp.matrixUnif g m bit ops with
  | some r => some r
  | none =>
    let row := (b.map fun r => (wp.uni g m false r).toNat).getD 0
    if (s.tileOf g.gid bit).isNone then some { code := 0x3F, mask := g.rel m, detail := BitVec.ofNat 32 (bit + 5 * 256) }
    else if 63 < row then some { code := 0x40, mask := g.rel m, detail := BitVec.ofNat 32 (bit + 6 * 256) }
    else none

/-- An accumulator instruction without a result: each segment's operation enters (R245), behind a landing that is complete
on the same tile. -/
def State.accEach (s : State) (p : Pre) (a : Reg) (b : Option Reg) (op : Warp → Seg → Mask → TileOp) : State :=
  let m := s.curWarp.execMask p
  let due := (s.curWarp.segsIn m).any fun g =>
    match s.tileOf g.gid ((s.curWarp.uni g m false a).toNat % 2) with
    | some t => s.landingDue s.cur t
    | none => false
  if due then s.holdSlot s.cur .tile
  else (s.curWarp.segsIn m).foldl (fun s g =>
    match s.accFault g m a b with
    | some r => s.takeAt s.cur g.lbase r
    | none =>
      match s.tileOf g.gid ((s.curWarp.uni g m false a).toNat % 2) with
      | some t => s.tileOp s.cur t (op s.curWarp g m)
      | none => s) s

/-- `ACCZ` (R245). -/
def execAccz (p : Pre) (a : Reg) (s : State) : Result := .next (s.accEach p a none fun _ _ _ => .zero)

/-- `ACCWR` (R245). -/
def execAccwr (p : Pre) (a b c : Reg) (s : State) : Result :=
  .next (s.accEach p a (some b) fun wp g m =>
    let val := fun l => (List.range 8).foldl (fun (v : BitVec 256) k =>
      v ||| ((wp.groupWord c k l).setWidth 256 <<< (32 * k))) 0
    .write ((wp.uni g m false b).toNat) ((lanesOf (g.slots &&& m)).map fun l => (l, val l)))

/-- Whether a warp still has a tentative signature, an uncommitted operation or a landing that is due on a tile (R244). -/
def State.tileBusy (s : State) (w t : Nat) : Bool :=
  s.landingDue w t || (((s.warp w).window.map Window.tileOps).getD []).any (fun o => o.1 == t) ||
    (s.core (coreOf w)).landings.any fun d =>
      d.st != .free && d.warp == w &&
        (((s.warp w).segAt d.lbase).bind fun g => s.tileOf g.gid d.tile) == some t &&
        d.signers.any fun q => !q.2.committed

/-- `ACCRD` (R244, R245): each segment's read enters its tile's sequence. -/
def execAccrd (p : Pre) (ty : Ty) (d a b : Reg) (s : State) : Result :=
  let wp := s.curWarp
  let m := wp.execMask p
  .next (if m = 0 then s
    else if Config.counterTop ≤ wp.ldCnt then s.holdSlot s.cur .counter
    else
      let (m, s) := s.judgeSegs m fun s g => s.accFault g m a (some b)
      let wp := s.curWarp
      let tile := fun g : Seg => (s.tileOf g.gid ((wp.uni g m false a).toNat % 2)).getD 0
      if m = 0 then s
      else if (wp.segsIn m).any fun g => s.tileBusy s.cur (tile g) then s.holdSlot s.cur .tile
      else
        let r := s.newRes s.cur .load d 1 ty m .general
        let reads := (wp.segsIn m).map fun g =>
          (tile g, TileOp.read s.cur r.id (wp.uni g m false b).toNat (g.slots &&& m) ty)
        let s := s.onWarp s.cur fun wp => wp.addRes r
        (reads.foldl (fun s x => s.onTile (coreOf s.cur) x.1 fun y => { y with seq := y.seq ++ [x.2] }) s).markOutside)

/-! ### Signing (R238, R239, R242, R368) -/

/-- A landing of a core replaced. -/
def State.setLanding (s : State) (core n : Nat) (d : Landing) : State :=
  s.onCore core fun c => { c with landings := setAt c.landings n d }

/-- The field that differs between a signature and a landing's binding (R238, R354). -/
def Landing.differs (d : Landing) (cell tile : Nat) (ra rb : DWord) (k : Word) : Option Nat :=
  if d.cell ≠ cell then some 0 else if d.tile ≠ tile then some 4 else if d.recA ≠ ra then some 5
  else if d.recB ≠ rb then some 6 else if d.koff ≠ k then some 8 else none

/-- One segment's signatures (R238). -/
def State.sign (s : State) (g : Seg) (m : Mask) (cell n : Nat) (tile : Bool) (sel : Nat) (a b c k : Reg) : State :=
  let wp := s.curWarp
  let core := coreOf s.cur
  let lanes := g.slots &&& m
  let d := s.landing core n
  let ra := wp.uni g m true a
  let rb := wp.uni g m true b
  let ko := loWord (wp.uni g m false k)
  let bit := if tile then 1 else 0
  let mine := d.st ≠ .free ∧ d.warp = s.cur ∧ d.lbase = g.lbase
  let busy := d.st ≠ .free ∧ (¬mine ∨ d.st = .complete ∨ (lanesOf (g.rel m)).any fun l => (d.signers.find l).isSome)
  let raise := fun (code fld : Nat) =>
    some ({ code := code, mask := g.rel m, detail := BitVec.ofNat 32 (n + 256 * fld) } : Raise)
  let selBad := if cell = 0xC4 then sel ≠ 0 else 4 < sel + mmaKop cell / 32
  let tooWide :=
    if g.width ≠ 64 then raise 0x3D 0
    else if (s.tileOf g.gid bit).isNone then raise 0x3F 4
    else if ra.toNat % 64 ≠ 0 then raise 0x52 5
    else if rb.toNat % 64 ≠ 0 then raise 0x52 6
    else if selBad then raise 0x93 4
    else none
  match wp.matrixUnif g m n [(5, true, a), (6, true, b), (8, false, k)], (if busy then none else
      if mine then d.differs cell bit ra rb ko else none), tooWide with
  | some r, _, _ => s.takeAt s.cur g.lbase r
  | none, some f, _ => match raise 0x3C f with
    | some r => s.takeAt s.cur g.lbase r
    | none => s
  | none, none, some r => s.takeAt s.cur g.lbase r
  | none, none, none =>
    if busy then s.holdSlot s.cur .landing
    else if wp.window.isNone && ((s.tileOf g.gid bit).map (s.landingNow core)).getD false then s.holdSlot s.cur .tile
    else
      let open' := wp.window.isSome
      let news := (lanesOf lanes).map fun l =>
        (l - g.lbase, Signer.mk (wp.groupWord c 0 l) (wp.groupWord c 1 l) sel (!open') wp.nextId false)
      let d := if mine then d else
        { st := .signing, warp := s.cur, lbase := g.lbase, cell := cell, tile := bit, recA := ra, recB := rb, koff := ko,
          mask := g.rel wp.live, signers := [], since := s.now, told := false, turn := 0 }
      let (k, s) := s.fresh
      (s.setLanding core n { d with signers := news.foldl (fun t x => t.put x.1 x.2) d.signers, turn := k }).markOutside

/-- `MMA` of a cell (R233, R234, R238). -/
def State.mma (s : State) (p : Pre) (cell : Nat) (n : BitVec 3) (tile : Bool) (sel : BitVec 2) (a b c k : Reg) : State :=
  let m := s.curWarp.execMask p
  (s.curWarp.segsIn m).foldl (fun s g => s.sign g m cell n.toNat tile sel.toNat a b c k) s

def execMmaQ4 (p : Pre) (land : BitVec 3) (tile : Bool) (sel : BitVec 2) (a b c k : Reg) (s : State) : Result :=
  .next (s.mma p 0xC0 land tile sel a b c k)
def execMmaE4m3 (p : Pre) (land : BitVec 3) (tile : Bool) (sel : BitVec 2) (a b c k : Reg) (s : State) : Result :=
  .next (s.mma p 0xC1 land tile sel a b c k)
def execMmaE5m2 (p : Pre) (land : BitVec 3) (tile : Bool) (sel : BitVec 2) (a b c k : Reg) (s : State) : Result :=
  .next (s.mma p 0xC2 land tile sel a b c k)
def execMmaI8 (p : Pre) (land : BitVec 3) (tile : Bool) (sel : BitVec 2) (a b c k : Reg) (s : State) : Result :=
  .next (s.mma p 0xC3 land tile sel a b c k)
def execMmaH16 (p : Pre) (land : BitVec 3) (tile : Bool) (sel : BitVec 2) (a b c k : Reg) (s : State) : Result :=
  .next (s.mma p 0xC4 land tile sel a b c k)

/-! ### Issue from a landing (R239, R240, R369) -/

/-- A landing that has become complete (R239). -/
def State.completeLanding (s : State) (core n : Nat) : State :=
  let d := s.landing core n
  if d.st = .signing ∧ s.landingFull d then
    s.setLanding core n { d with
      st := .complete
      mask := d.signers.foldl (fun m q => m ||| laneBit q.1) 0 }
  else s

/-- The group that a landing is bound to. -/
def State.landingGroup (s : State) (d : Landing) : Option Nat := ((s.warp d.warp).segAt d.lbase).map Seg.gid

/-- The operation of a complete landing joins its tile's sequence, and the landing is free (R239, R245). -/
def State.issueLanding (s : State) (core n gi gj : Nat) : State :=
  let d := s.landing core n
  match s.landingGroup d with
  | none => s
  | some gid =>
    match s.tileOf gid d.tile with
    | none => s
    | some t =>
      let (k, s) := s.fresh
      let op : MmaOp := ⟨n, d.cell, d.recA, d.recB, d.koff, d.mask, d.signers, gi, gj, d.warp, d.lbase, gid, s.genOf gid, k, [], []⟩
      (s.onTile core t fun y => { y with seq := y.seq ++ [.mma op] }).setLanding core n Landing.reset

/-- Whether a landing that the same warp signed earlier has still to issue its operation on the same tile (R244). -/
def State.landingBehind (s : State) (core n : Nat) : Bool :=
  let d := s.landing core n
  (List.range 8).any fun k =>
    let e := s.landing core k
    k != n && s.landingFull e && e.warp == d.warp && decide (e.turn < d.turn) && e.tile == d.tile &&
      s.landingGroup e == s.landingGroup d

/-- `LANDING_ISSUE` (R239): the landings of a warp issue on a tile in the order of their signatures (R244). -/
def execLandingIssue (core n : Nat) (s : State) : Result :=
  let s := s.completeLanding core n
  let d := s.landing core n
  .next (match s.landingGroup d with
    | none => s
    | some gid => if d.st = .complete ∧ !s.inGang gid ∧ s.opsOf core n < 2 ∧ !s.landingBehind core n then s.issueLanding core n 0 0 else s)

/-- The groups of a unit, gang by gang (R30, R259). -/
def State.gangs (s : State) (u : Nat) : List (List (Nat × Group)) :=
  let mine := s.groups.filter fun q => q.2.unit == u && q.2.placed
  let size := match mine.head? with
    | some q => ((s.launches.find q.2.launch).map fun l => l.gm * l.gn).getD 1
    | none => 1
  let keys := mine.foldl (fun (ks : List Nat) q => if ks.contains (q.2.grp / size) then ks else ks ++ [q.2.grp / size]) []
  keys.map fun k => mine.filter fun q => q.2.grp / size == k

/-- One gang's landing `n` (R240, R369). -/
def State.gangIssue (s : State) (n : Nat) (ms : List (Nat × Group)) : State :=
  let s := ms.foldl (fun s q => s.completeLanding q.2.core n) s
  let land := fun (q : Nat × Group) => s.landing q.2.core n
  let ready := fun q : Nat × Group => (land q).st = .complete ∧ s.landingGroup (land q) = some q.1
  if ms = [] ∨ !(ms.all fun q => decide (ready q)) then s
  else
    let first := ms.foldl (fun (b : Nat × Group) q => if q.2.gmem < b.2.gmem then q else b) (ms.headD (0, (ms.head?.map Prod.snd).getD
      ⟨0, 0, 0, 0, 0, 0, 0, [], [], [], 0, 0, 0, [], false, 0, false, [], 0, 0, 0, []⟩))
    let d0 := land first
    let odd := ms.filter fun q =>
      let d := land q
      (d0.differs d.cell d.tile d.recA d.recB d.koff).isSome
    match odd with
    | x :: xs =>
      let low := xs.foldl (fun b q => min b q.2.gmem) x.2.gmem
      ms.foldl (fun s q =>
        let d := s.landing q.2.core n
        (s.setLanding q.2.core n Landing.reset).defer d.warp d.lbase 0x3E (BitVec.ofNat 32 (n + 256 * low)) 0 0) s
    | [] =>
      if ms.all fun q => decide (s.opsOf q.2.core n < 2) && !s.landingBehind q.2.core n then
        ms.foldl (fun s q =>
          let gn := ((s.launches.find q.2.launch).map Launch.gn).getD 1
          s.issueLanding q.2.core n (q.2.gmem / gn) (q.2.gmem % gn)) s
      else s

/-- `GANG_LANDING_ISSUE` (R240, R369). -/
def execGangLandingIssue (u n : Nat) (s : State) : Result :=
  .next ((s.gangs u).foldl (fun s ms =>
    if ms.any fun q => s.inGang q.1 then s.gangIssue n ms else s) s)

/-! ### Records and operands (R235 to R237, R242, R243) -/

/-- A tensor shape record (R235). -/
structure Rec where
  base : DWord
  fmt : Nat
  ndim : Nat
  row0 : Nat
  col0 : Nat
  sz : List Nat
  str : List Int
  rsvd : Bool
deriving DecidableEq, Repr

/-- The fields of a record's 192 bytes (R235). -/
def recOf (bs : List Byte) : Rec :=
  let r := BitVec.ofNat 1536 (natOfBytes bs)
  { base := r.extractLsb' 0 64
    fmt := fieldN r 67 64
    ndim := fieldN r 79 72
    row0 := fieldN r 159 128
    col0 := fieldN r 191 160
    sz := (List.range 6).map fun d => (r.extractLsb' (256 + 32 * d) 32).toNat
    str := (List.range 6).map fun d => (r.extractLsb' (512 + 64 * d) 64).toInt
    rsvd := fieldN r 1535 896 ≠ 0 ∨ fieldN r 511 448 ≠ 0 ∨ fieldN r 255 192 ≠ 0 ∨ fieldN r 127 80 ≠ 0 ∨ fieldN r 71 68 ≠ 0 }

/-- Whether a record breaks the checks of R368. -/
def Rec.bad (r : Rec) (cell : Nat) : Bool :=
  r.rsvd || decide (r.ndim < 2 ∨ 6 < r.ndim ∨ r.fmt ≠ mmaFmt cell ∨ (cell = 0xC4 ∧ r.base.toNat % 2 ≠ 0))

/-- The outer index taken apart in mixed radix from dimension `d` up: the offset, and what is left of the index (R236). -/
def Rec.outer (r : Rec) : Nat → Nat → Nat → Int → Nat × Int
  | 0, _, a, off => (a, off)
  | n + 1, d, a, off =>
    let sz := r.sz.getD d 0
    if sz = 0 then (1, off) else r.outer n (d + 1) (a / sz) (off + (a % sz : Nat) * r.str.getD d 0)

/-- The element offset of X(a, k), or none where it reads as code 0 without an access (R236). -/
def Rec.offset (r : Rec) (a k : Nat) : Option Int :=
  if r.sz.getD 0 0 ≤ k then none
  else
    let (left, off) := r.outer (r.ndim - 1) 1 a ((k : Int) * r.str.getD 0 0)
    if left ≠ 0 then none else some off

/-- The address of an element and its bytes, and for 4-bit elements whether it is the high nibble (R236). -/
def Rec.address (r : Rec) (cell : Nat) (off : Int) : DWord × Nat × Bool :=
  match cell with
  | 0xC0 => (r.base + BitVec.ofInt 64 (off / 2), 1, off % 2 != 0)
  | 0xC4 => (r.base + BitVec.ofInt 64 (off * 2), 2, false)
  | _ => (r.base + BitVec.ofInt 64 off, 1, false)

/-- The key of a record in the record cache: its context, or for a scratchpad view its group. -/
def recKey (ctx gid : Nat) (va : DWord) : Nat :=
  match aperture va with
  | .global => ctx * 2 ^ 64 + va.toNat
  | _ => (gid + 1) * 2 ^ 80 + va.toNat

/-- The asker for a core's tile fetch unit. -/
def State.tileAsker (s : State) (core gid : Nat) : Asker := ⟨core, s.ctxOf gid, s.fnOf gid, true, false⟩

/-- A read that an operation still needs: one of its records, or an operand line, by its virtual number with the first address and the bytes of
an element there. -/
inductive OpRead
  | record (second : Bool)
  | line (k : Nat) (va : DWord) (n : Nat)
deriving DecidableEq, Repr

/-- The record of an operation. -/
def MmaOp.shapeRec (op : MmaOp) (second : Bool) : Option Rec := (op.recs.find second.toNat).map recOf

/-- The elements of an operand panel that are read: those of the rows of lanes that signed, inside the record (R236, R242). -/
def MmaOp.elems (op : MmaOp) (second : Bool) (i : Nat) : List (Option (DWord × Nat × Bool)) :=
  match op.shapeRec second with
  | none => []
  | some r =>
    let base := if second then 64 * op.gj else 64 * op.gi
    (List.range (mmaKop op.cell)).map fun kk =>
      (r.offset (r.row0 + base + i) (r.col0 + op.koff.toNat + kk)).map (r.address op.cell)

/-- The lines of some elements in their order, each once in a run, with its first element. -/
def elemLines : List (Option (DWord × Nat × Bool)) → List OpRead
  | [] => []
  | none :: rest => elemLines rest
  | some (va, n, _) :: rest =>
    let k := va.toNat / 128
    .line k va n :: (elemLines rest).filter fun o => match o with
      | .line j _ _ => j != k
      | .record _ => true

/-- The reads that an operation still needs: its records, then the lines of its operands (R236, R242, R243). -/
def MmaOp.needs (op : MmaOp) : List OpRead :=
  let recs := [false, true].filter fun b => (op.recs.find b.toNat).isNone
  if recs ≠ [] then recs.map .record
  else
    let add := fun (l : List OpRead) (o : OpRead) => match o with
      | .line k _ _ => if (op.got.find k).isSome || l.any (fun p => match p with
          | .line j _ _ => j == k
          | .record _ => false) then l else l ++ [o]
      | .record _ => l
    ([false, true].flatMap fun b => (lanesOf op.mask).flatMap fun i => elemLines (op.elems b i)).foldl add []

/-- The cause of a failed operand read (R397, R398). -/
def operandCode (e : XErr) : Nat := if e.code = 0x53 ∨ e.code = 0x54 then 0x9D else 0x90

/-- The places of a read of an operation, or the cause that it meets (R397). -/
def State.opPieces (s : State) (core : Nat) (op : MmaOp) (o : OpRead) : Except (Nat × XErr) (List Piece) :=
  let q := s.tileAsker core op.gid
  match o with
  | .record b =>
    match s.ranges q op.gid .load [((if b then op.recB else op.recA).toNat, 192)] with
    | .ok ps => .ok ps
    | .error e => .error (0x91, e)
  | .line k va n =>
    match s.place q op.gid .load n va with
    | .error e => .error (operandCode e, e)
    | .ok p =>
      let back := fun (l : Loc) (j : Nat) => match l with
        | .hbm pa => Loc.hbm (pa - j)
        | .spad c o => .spad c (o - j)
      .ok [⟨BitVec.ofNat 64 (128 * k), 128, back p.loc (va.toNat % 128), p.xlat⟩]

/-- Whether every event that a lane of a warp made before a number has been performed: none of its writes is in the side log and none of its
operations waits at a home slice (R206, R210). -/
def State.laneDone (s : State) (w l upto : Nat) : Bool :=
  ((s.warp w).sideLog.all fun e => e.lane != l || decide (upto < e.store)) &&
    s.homeOps.all fun o => o.warp != w || o.lane != l || o.recId == 0 || decide (upto < o.recId)

/-- Whether every event that a signer made before signing has been performed (R206). -/
def State.signersDone (s : State) (op : MmaOp) : Bool :=
  op.signers.all fun q => s.laneDone op.warp (op.lbase + q.1) q.2.upto

/-- Whether a read of an operation can be performed now: a record at hand in the record cache, or bytes whose home slices answer (R170, R206,
R237, R243). -/
def State.opReadable (s : State) (core : Nat) (op : MmaOp) (o : OpRead) : Bool :=
  match o with
  | .record b =>
    if (((s.core core).recCache).find (recKey (s.ctxOf op.gid) op.gid (if b then op.recB else op.recA))).isSome then true
    else match s.opPieces core op o with
      | .error _ => false
      | .ok ps => s.signersDone op && s.piecesReadable (core / 256) ps
  | .line .. =>
    match s.opPieces core op o with
    | .error _ => false
    | .ok ps => s.signersDone op && s.piecesReadable (core / 256) ps

/-- An issued operation of a core changed, by its number. -/
def State.onOp (s : State) (core order : Nat) (f : MmaOp → MmaOp) : State :=
  s.onCore core fun c => { c with tiles := c.tiles.map fun (t : Tile) => { t with seq := t.seq.map fun o => match o with
    | .mma op => if op.order = order then .mma (f op) else o
    | o => o } }

/-- One read event of an operation (R237, R243): a record's image, through the record cache, or an operand line; poisoned bytes are posted
(R410). DESIGN CHOICE (assumption 106): of the images that R237 allows, the model returns the first that was read since the last `FENCE.rec`. -/
def State.opRead (s : State) (core : Nat) (op : MmaOp) (o : OpRead) : State :=
  let keep := fun (s : State) (b : Bool) (bs : List Byte) =>
    s.onOp core op.order fun op => { op with recs := op.recs.put b.toNat bs }
  let key := fun b : Bool => recKey (s.ctxOf op.gid) op.gid (if b then op.recB else op.recA)
  match o, s.opPieces core op o with
  | .record b, p =>
    match ((s.core core).recCache).find (key b), p with
    | some bs, _ => keep s b bs
    | none, .ok ps =>
      let bs := s.pieceBytes ps
      keep ((s.readTouch (some core) ps).onCore core fun c => { c with recCache := c.recCache.put (key b) bs }) b bs
    | none, .error _ => s
  | .line k _ _, .ok ps =>
    let bs := s.pieceBytes ps
    let bad := BitVec.ofNat 4 ((List.range 4).foldl (fun n j =>
      n + if ps.any fun p => s.poisoned (p.loc.add (32 * j)) 1 then 2 ^ j else 0) 0)
    let s' := (s.readTouch (some core) ps).onOp core op.order fun op => { op with got := op.got.put k (bs, bad) }
    match s.piecePoison ps with
    | some a => s'.post 0xB4 { addr := a, detail := Config.openDetail 0xB4, fn := s.fnOf op.gid, ctx := s.ctxOf op.gid, die := core / 256, core := core % 256 }
    | none => s'
  | .line .., .error _ => s

/-- The code of an element among the bytes that an operation has read, and whether it is poisoned. -/
def MmaOp.code (op : MmaOp) : Option (DWord × Nat × Bool) → Nat × Bool
  | none => (0, false)
  | some (va, n, high) =>
    match op.got.find (va.toNat / 128) with
    | none => (0, false)
    | some (bs, bad) =>
      let v := natOfBytes ((bs.drop (va.toNat % 128)).take n)
      (if op.cell = 0xC0 then (if high then v / 16 else v % 16) else v, bad.getLsbD (va.toNat % 128 / 32))

/-- An operand panel: 64 rows of codes along k; a row of an absent lane has none (R242). -/
def MmaOp.panel (op : MmaOp) (second : Bool) : List (List (Nat × Bool)) :=
  (List.range 64).map fun i => if op.mask.getLsbD i then (op.elems second i).map op.code else []

/-- The scale byte of a signer for a block (R242). -/
def MmaOp.scale (op : MmaOp) (lane q : Nat) (second : Bool) : Nat :=
  if op.cell = 0xC4 then 0
  else match op.signers.find lane with
    | none => 0
    | some g => ((if second then g.c1 else g.c).extractLsb' (8 * (g.sel + q)) 8).toNat

/-- One element after an operation (R109, R242); a poisoned code makes the element not a number (R410). -/
def MmaOp.element (op : MmaOp) (e : Acc) (i j : Nat) (ra rb : List (Nat × Bool)) : Acc :=
  (List.range (mmaKop op.cell / 32)).foldl (fun e q =>
    let sa := op.scale i q false
    let sb := op.scale j q true
    let st := (List.range 32).foldl (fun (st : Int × Bool × Bool × Bool) kk =>
      let x := ra.getD (q * 32 + kk) (0, false)
      let y := rb.getD (q * 32 + kk) (0, false)
      let st := if x.2 || y.2 then (st.1, true, st.2.2) else st
      mulInto st (codeVal op.cell (sa / 64) x.1) (codeVal op.cell (sb / 64) y.1)
        (if op.cell = 0xC4 then 0 else scaleExp sa) (if op.cell = 0xC4 then 0 else scaleExp sb)) (0, false, false, false)
    e.block st) e

/-- A tile after an operation whose operands have been read (R242). -/
def MmaOp.apply (op : MmaOp) (t : Tile) : Tile :=
  let a := op.panel false
  let b := op.panel true
  (lanesOf op.mask).foldl (fun t i =>
    (lanesOf op.mask).foldl (fun t j => t.setElem i j (op.element (t.elem i j) i j (a.getD i []) (b.getD j []))) t) t

/-- An operation dropped because its group has gone on to another generation (R281). -/
def State.opStale (s : State) (op : MmaOp) : Bool := (s.group op.gid).isNone || s.genOf op.gid != op.gen

/-- A bad record (R368): the operation of every gang member is dropped, and the segment that each member's landing was bound to is told
(R344). -/
def State.badRecord (s : State) (op : MmaOp) (fld : Nat) : State :=
  let unit := ((s.group op.gid).map Group.unit).getD 0
  let members := if s.inGang op.gid then
      ((s.gangs unit).find? fun ms => ms.any fun q => q.1 == op.gid).getD []
    else (s.groups.filter fun q => q.1 == op.gid)
  members.foldl (fun s q =>
    let same := fun (o : TileOp) => match o with
      | .mma x => if x.landing = op.landing ∧ x.gid = q.1 ∧ x.recA = op.recA ∧ x.recB = op.recB ∧ x.koff = op.koff then some x else none
      | _ => none
    match (s.core q.2.core).tiles.findSome? fun t => t.seq.findSome? same with
    | none => s
    | some x =>
      let s := s.onCore q.2.core fun c => { c with tiles := c.tiles.map fun (t : Tile) => { t with seq := t.seq.filter fun o => match o with
        | .mma y => y.order != x.order
        | _ => true } }
      s.defer x.warp x.lbase 0x92 (BitVec.ofNat 32 (op.landing + 256 * fld)) 0 0) s

/-- What an operation does next: its records are bad, it reads, it waits, or its operands are at hand. -/
inductive OpNext
  | bad (field : Nat)
  | reads (l : List OpRead)
  | full
deriving DecidableEq, Repr

def MmaOp.next (op : MmaOp) : OpNext :=
  let broken := fun b => ((op.shapeRec b).map fun r => r.bad op.cell).getD false
  if (op.shapeRec false).isSome && (op.shapeRec true).isSome && broken false then .bad 5
  else if (op.shapeRec false).isSome && (op.shapeRec true).isSome && broken true then .bad 6
  else match op.needs with
    | [] => .full
    | l => .reads l

/-- Whether an operation is the first of its core in the order of issue (R243). -/
def State.opFirst (s : State) (core : Nat) (op : MmaOp) : Bool :=
  (s.core core).tiles.all fun t => t.seq.all fun o => match o with
    | .mma x => decide (op.order ≤ x.order)
    | _ => true

/-- The reads that the issued operations of a tile can perform now (R199, R243). -/
def State.tileReads (s : State) (core tile : Nat) : List (MmaOp × OpRead) :=
  (s.tile core tile).seq.flatMap fun o => match o with
    | .mma op =>
      if s.opStale op then []
      else match op.next with
        | .reads l => (l.filter (s.opReadable core op)).map fun r => (op, r)
        | _ => []
    | _ => []

/-- The head of a tile's sequence takes its effect, if it can without a further read (R243, R244). -/
def State.tileHead (s : State) (core tile : Nat) : Option State :=
  let t := s.tile core tile
  match t.seq with
  | [] => none
  | .zero :: rest => some (s.onTile core tile fun t => { t with elems := [], seq := rest })
  | .write row cols :: rest =>
    some (s.onTile core tile fun t => cols.foldl (fun t q => t.setElem row q.1 ⟨q.2, false, false, false, false⟩) { t with seq := rest })
  | .read w id row m ty :: rest =>
    let got := (lanesOf m).map fun l => (l, (t.elem row l).readOut ty)
    let s := s.onTile core tile fun t => { t with seq := rest }
    some (s.onWarp w fun wp => wp.onRes id fun r =>
      got.foldl (fun (r : Res) q => { r.give (laneBit q.1) (q.2.1.setWidth 128) with flags := r.flags ||| q.2.2 }) r)
  | .mma op :: rest =>
    if s.opStale op then
      some ((s.onTile core tile fun t => { t with seq := rest }).countDrop (core / 256) op.gid)
    else match op.next with
      | .bad fld => some (s.badRecord op fld)
      | .reads _ => none
      | .full => if s.opFirst core op then some (s.onTile core tile fun t => { op.apply t with seq := rest }) else none

/-- `MMA_TILE_WRITE` (R243, R244): the head of a tile's sequence takes its effect; while it is an operation whose operands are not at hand, one
read of the tile's operations is performed, in an order that nothing fixes. -/
def execMmaTileWrite (core tile : Nat) (s : State) : Result :=
  .next (match s.tileHead core tile with
    | some t => t
    | none =>
      match s.pick (s.tileReads core tile) with
      | (some (op, o), s) => s.opRead core op o
      | (none, s) => s)

/-- The fault that stops the head operation of a tile, if there is one (R397, R398). -/
def State.opFault (s : State) (core tile : Nat) : Option (Nat × XErr × MmaOp) :=
  match (s.tile core tile).seq with
  | .mma op :: _ =>
    if s.opStale op then none
    else match op.next with
      | .reads l => l.findSome? fun o => match s.opPieces core op o with
        | .error (code, e) => some (code, e, op)
        | .ok _ => none
      | _ => none
  | _ => none

/-- Landing `n` still waits for warp `w` (R73, R76): it holds a signature of the warp, or an operation that one joined. A signature that a
retired opcode made counts for none (R94). -/
def State.landingPends (s : State) (w n : Nat) : Bool :=
  let core := coreOf w
  let d := s.landing core n
  let counts := fun (l : Tab Signer) => l.any fun q => !q.2.emulated
  (d.st != .free && d.warp == w && counts d.signers) || (s.core core).tiles.any fun t => t.seq.any fun o =>
    match o with
    | .mma op => op.landing == n && op.warp == w && counts op.signers
    | _ => false

end Sys2Proof.Machine
end

