-- ==== Sys2Proof/Machine/Engine.lean ====
section
/-! DEFINITION. Engine commands: issue, descriptors, data movement, collectives, quantisation, tokens (R206, R210, R211, R246 to
R252, R292, R370, R396, R420). -/

namespace Sys2Proof.Machine

/-! ### Issue (R246, R252) -/

/-- Results on their way from earlier slots of a clause lose what a slot writes of a register at once (R61). -/
def Warp.outdoAt (wp : Warp) (a : ClauseAt) (m : Mask) (n : Nat) : Warp :=
  wp.outdo a.hdr [⟨a.slot, a.slot, .vreg n, m, [], .general, .part, 0⟩]

/-- Vector register lanes written at once by the current slot: an earlier slot's pending result of those lanes is overtaken
(R61, R62). -/
def Warp.writeNow (wp : Warp) (m : Mask) (n : Nat) (t : Shape) (f : Nat → Word) : Warp :=
  let wp := { wp.deliverReg m n t f with poison := clearPoison wp.poison n m }.outdoAt wp.clauseAt m n
  let cut := fun (p : Pend) => if p.tgt = .vreg n then p.within (~~~m) else p
  { wp with clause := wp.clause.map fun (c : Clause) =>
      { c with at_ := { c.at_ with pend := (c.at_.pend.map cut).filter Pend.alive } } }

/-- What a segment raises at the issue of an engine command (R359, R370). -/
def Warp.engFault (wp : Warp) (g : Seg) (m : Mask) (a : Reg) : Option Raise :=
  match wp.unifFault g m [(5, true, a)] with
  | some r => some r
  | none =>
    if (wp.uni g m true a).toNat % 64 = 0 then none
    else some { code := 0x52, mask := g.rel m, detail := 64, addrs := wp.segVals g true a, logAddr := wp.uni g m true a }

/-- One segment's engine command, as it stands in its warp's deferred-launch queue (R206, R246). -/
def State.newCmd (s : State) (insn : Nat) (g : Seg) (m : Mask) (cell : Nat) (acq rel : Bool) (a : Reg) (seq : Word) : Cmd :=
  let wp := s.curWarp
  { cell := cell, seq := seq, warp := s.cur, lbase := g.lbase, gid := some g.gid, gen := s.genOf g.gid,
    desc := wp.uni g m true a, image := none, acq := acq, rel := rel, st := .deferred, job := none,
    ctx := s.ctxOf g.gid, fn := s.fnOf g.gid, die := dieOf s.cur, token := false, hid := 0, since := s.now, insn := insn,
    upto := wp.nextId, lanes := g.slots &&& m, pos := (wp.window.map fun x => x.evs.length).getD 0,
    gain := wp.counts (g.slots &&& m) != 0, eng := none, judged := false, ready := false, got := [], wrote := [],
    staged := none, stagedBad := [], spoiled := false }

/-- A command put into the deferred-launch queue. -/
def State.addCmd (s : State) (c : Cmd) : State :=
  let (n, s) := s.fresh
  { s with cmds := s.cmds.put n c }

/-- The commands of an instruction released, in issue order (R206). -/
def State.releaseInsn (s : State) (insn : Nat) : State :=
  ((s.cmds.filter fun q => q.2.insn == insn).map Prod.fst).foldl State.releaseCmd s

/-- `ECOPY`, `EGATH`, `ECOLL`, `QUANT` (R246, R370): each segment's command takes the next sequence number, which goes to vD, and waits for the
window's commit, or is released at once when no window is open and its descriptor can be read (R206). One instruction counts once (R74). -/
def State.engine (s : State) (p : Pre) (cell : Nat) (acq rel : Bool) (d a : Reg) : State :=
  let m := s.curWarp.execMask p
  if m = 0 then s
  else if Config.counterTop ≤ s.curWarp.enCnt then s.holdSlot s.cur .counter
  else
    let (m, s) := s.judgeSegs m fun s g => s.curWarp.engFault g m a
    if m = 0 then s
    else
      let wp := s.curWarp
      let segs := wp.segsIn m
      let insn := s.nextNo
      let seq := fun k : Nat => wp.engSeq + BitVec.ofNat 32 (k + 1)
      let new := segs.zipIdx.map fun x => s.newCmd insn x.1 m cell acq rel a (seq x.2)
      if wp.window.isNone && new.any s.descWaits then s.holdSlot s.cur .maintenance
      else
        let s := new.foldl State.addCmd s
        let s := s.onWarp s.cur fun wp =>
          let wp := { wp with engSeq := wp.engSeq + BitVec.ofNat 32 segs.length, enCnt := wp.enCnt + 1 }
          match d with
          | .v k => wp.writeNow m k.toNat .uniform fun l => seq (segs.findIdx fun g => g.hasLane l)
          | _ => wp
        (if wp.window.isSome then s else s.releaseInsn insn).markOutside

def execEcopy (p : Pre) (acq rel : Bool) (d a : Reg) (s : State) : Result := .next (s.engine p 0xD0 acq rel d a)
def execEgath (p : Pre) (acq rel : Bool) (d a : Reg) (s : State) : Result := .next (s.engine p 0xD1 acq rel d a)
def execEcoll (p : Pre) (acq rel : Bool) (d a : Reg) (s : State) : Result := .next (s.engine p 0xD2 acq rel d a)
def execQuant (p : Pre) (acq rel : Bool) (d a : Reg) (s : State) : Result := .next (s.engine p 0xD4 acq rel d a)

/-- Whether a command of a warp slot with a sequence number is incomplete (R252). -/
def State.tokenDue (s : State) (w : Nat) (tok : Word) : Bool :=
  s.cmds.any fun c => c.2.warp == w && c.2.gid.isSome && c.2.seq == tok && !c.2.token

/-- `EWAIT` (R252): the slot is held while a command of the warp slot with the number that a segment's lead lane names is incomplete (R57). The
return is a read event of each lead lane (R211, R234). -/
def execEwait (p : Pre) (a : Reg) (s : State) : Result :=
  let wp := s.curWarp
  let leads := wp.readers (wp.execMask p) true
  .next (if wp.execMask p = 0 then s
    else if leads.any fun l => s.tokenDue s.cur (wp.val32 a l) then s.holdSlot s.cur .token
    else if !wp.hasRoom leads.length || (s.solo s.cur && !wp.soloFree) then s.holdSlot s.cur .window
    else (leads.foldl (fun s l => s.onWarp s.cur fun wp => wp.addEvent (.token l)) (s.openWindow s.cur)).markOutside)

/-! ### Failures (R370, R396, R420) -/

/-- What a failed access of a command does: the cause, its detail word, and whether the command is held for the host. -/
def Cmd.failure (c : Cmd) (desc : Bool) (e : XErr) : Nat × Word × Bool :=
  let kind := e.detail + BitVec.ofNat 32 (e.code * 65536)
  if c.gid.isSome then
    match e.code with
    | 0x53 | 0x54 => (0x68, c.seq, false)
    | 0x55 | 0x56 | 0x57 => (0x69, c.seq, false)
    | 0x59 => (0x6A, c.seq, false)
    | 0x5A => (0x6B, c.seq, false)
    | 0x74 | 0x75 | 0x76 | 0x77 => (0x85, e.detail, false)
    | 0x7E | 0x7F | 0x80 | 0x81 => (0x82, e.detail, true)
    | _ => (if desc then 0x9A else 0x84, kind, true)
  else
    match e.code with
    | 0x50 | 0x52 => (0x6C, Config.openDetail 0x6C, false)
    | 0x53 | 0x54 | 0x55 | 0x56 | 0x57 => (0x6D, Config.openDetail 0x6D, false)
    | 0x59 => (0x6E, Config.openDetail 0x6E, false)
    | 0x5A => (0x6F, Config.openDetail 0x6F, false)
    | 0x74 | 0x75 | 0x76 | 0x77 => (0x87, e.detail, false)
    | 0x7E | 0x7F | 0x80 | 0x81 => (0x82, e.detail, true)
    | _ => (0x84, kind, true)

/-- Where a command's causes come from (R349). -/
def Cmd.info (c : Cmd) : LogInfo :=
  { gen := c.gen, fn := c.fn, ctx := c.ctx, die := c.die, core := if c.gid.isSome then coreOf c.warp % 256 else 0,
    wslot := if c.gid.isSome then slotOf c.warp else 0 }

/-- One part of a job has completed (R290). -/
def State.jobDone (s : State) (j : Option Nat) (failed : Bool) : State :=
  match j with
  | none => s
  | some j =>
    match s.jobs.find j with
    | none => s
    | some x =>
      let y : Job := { x with left := x.left - 1, failed := x.failed || failed }
      { s with jobs := if y.left = 0 ∧ y.node.isNone then s.jobs.del j else s.jobs.put j y }

/-- A command is over: its token is set, its claims are given back, it leaves its core's queue, its job has one part less. -/
def State.endCmd (s : State) (n : Nat) (failed : Bool) : State :=
  match s.cmds.find n with
  | none => s
  | some c =>
    let s := (s.setToken n).unclaim (.cmd n)
    let s := if c.hid = 0 then s else s.unhold c.hid
    let s := { s with cores := s.cores.mapV fun _ (x : Core) => { x with engq := x.engq.erase n } }
    (s.jobDone c.job failed) |> fun s => { s with cmds := s.cmds.del n }

/-- A command ended by a cause: deferred to the issuing group, or posted for a copy without one (R370, R420). -/
def State.failCmd (s : State) (n : Nat) (code : Nat) (detail : Word) (addr : DWord) : State :=
  match s.cmds.find n with
  | none => s
  | some c =>
    let s := match c.gid with
      | some gid =>
        if (s.group gid).isSome ∧ s.genOf gid = c.gen then s.defer c.warp c.lbase code detail addr 0 else s
      | none => s.post code { c.info with addr := addr, detail := detail }
    s.endCmd n true

/-- `EDIE` of a descriptor (R247 to R250). -/
def cellEdie (cell : Nat) (d : BitVec 512) : Nat :=
  match cell with
  | 0xD0 => fieldN d 258 256
  | 0xD1 => fieldN d 323 321
  | 0xD2 => fieldN d 269 267
  | _ => fieldN d 380 378

/-- The die whose engine runs a command, if `EDIE` is legal (R246). -/
def edieOf (c : Cmd) (v : Nat) : Option Nat := if v < 4 then some v else if v = 4 then some c.die else none

/-- The engines of a die that run a cell's commands (R15, R250). -/
def engineKinds (cell : Nat) : List Nat :=
  match cell with
  | 0xD1 => [8, 9]
  | 0xD2 => [10]
  | _ => List.range 8

/-- The asker for a command's data accesses. -/
def Cmd.asker (c : Cmd) (d : BitVec 512) : Asker :=
  engineAsker (c.eng.getD (((edieOf c (cellEdie c.cell d)).getD c.die) * 16 + (engineKinds c.cell).headD 0)) c.ctx c.fn

/-- A failed access of a command (R388, R391, R396, R420). -/
def State.engError (s : State) (n : Nat) (desc : Bool) (e : XErr) : State :=
  match s.cmds.find n with
  | none => s
  | some c =>
    let s := s.met (if desc then c.descAsker else (c.image.map c.asker).getD c.descAsker) e e.addr
    let (code, detail, held) := c.failure desc e
    if held then
      let (k, s) := s.hold (logOwner code c.fn) (.cmd n)
      let s := { s with cmds := s.cmds.put n { c with st := .held, hid := k, eng := none } }
      s.post code { c.info with addr := e.addr, pc := e.pc.getD 0, hold := k, detail := detail }
    else s.failCmd n code detail e.addr

/-! ### Ranges -/

/-- Every failure that the pieces of some ranges meet. -/
def State.rangeErrs (s : State) (q : Asker) (gid : Nat) (acc : Access) (rs : List (Nat × Nat)) : List XErr :=
  rs.flatMap fun r => (pageCuts r.1 r.2).filterMap fun x =>
    match s.place q gid acc 1 (BitVec.ofNat 64 x.1) with
    | .ok _ => none
    | .error e => some e

/-- What an engine finds before its first data access: a range that reaches where no memory can be, the lowest code first (R370). -/
def State.engJudge (s : State) (q : Asker) (gid : Nat) (reads writes : List (Nat × Nat)) : Option XErr :=
  match (s.rangeErrs q gid .load reads ++ s.rangeErrs q gid .store writes).filter fun e => e.code < 0x70 with
  | e :: es => some (es.foldl (fun a b => if b.code < a.code then b else a) e)
  | [] => none

/-- Cut a list of bytes into consecutive parts. -/
def cutBytes : List Nat → List Byte → List (List Byte)
  | [], _ => []
  | n :: ns, bs => bs.take n :: cutBytes ns (bs.drop n)

/-- A command's plan: the ranges that it reads and writes, the bytes written, computed from the bytes read, the stretches of the bytes read that
a stretch of the bytes written is computed from, whether the result is that of reading everything first (R210, R247), and whether a stretch of the
bytes written is computed from bytes that an earlier part of the command read poisoned (R410). -/
structure Plan where
  reads : List (Nat × Nat)
  writes : List (Nat × Nat)
  data : List Byte → List Byte
  deps : Nat → Nat → List (Nat × Nat)
  apart : Bool
  bad : Nat → Nat → Bool := fun _ _ => false

/-- What a descriptor amounts to: a cause with its detail (none: the sequence number), or a plan. -/
inductive PlanOr
  | cause (code : Nat)
  | misalign (addr : DWord)
  | plan (p : Plan)

/-- `ECOPY` (R247, R370). -/
def planCopy (c : Cmd) (d : BitVec 512) : PlanOr :=
  let rows := fieldN d 191 160
  let len := fieldN d 159 128
  let row := fun (base pitch r : Nat) => ((base + r * pitch) % 2 ^ 64, len)
  if fieldN d 511 259 ≠ 0 then .cause 0x95
  else if (edieOf c (fieldN d 258 256)).isNone then .cause 0x96
  else if rows = 0 ∨ len = 0 then .plan { reads := [], writes := [], data := id, deps := fun _ _ => [], apart := true }
  else .plan
    { reads := (List.range rows).map (row (fieldN d 63 0) (fieldN d 223 192))
      writes := (List.range rows).map (row (fieldN d 127 64) (fieldN d 255 224))
      data := id
      deps := fun p n => [(p, n)]
      apart := true }

/-- `EGATH`'s checks on its descriptor alone (R248, R370). -/
def gatherBad (c : Cmd) (d : BitVec 512) : Option PlanOr :=
  if fieldN d 511 324 ≠ 0 ∨ fieldN d 255 224 % 4 ≠ 0 then some (.cause 0x95)
  else if (edieOf c (fieldN d 323 321)).isNone then some (.cause 0x96)
  else if fieldN d 191 128 % 4 ≠ 0 then some (.misalign (field d 191 128))
  else none

/-- Whether stretches of bytes meet. -/
def meets (a n b m : Nat) : Bool := decide (a < b + m ∧ b < a + n)
def meetsAny (l : List (Nat × Nat)) (a n : Nat) : Bool := l.any fun x => meets x.1 x.2 a n

/-- `EGATH` with its indices at hand, and the stretches of these that are poisoned (R248, R410). -/
def planGather (d : BitVec 512) (idx : List Nat) (odd : List (Nat × Nat)) : Plan :=
  let rowb := fieldN d 255 224
  let bound := fieldN d 319 288
  let cnt := fieldN d 223 192
  let lin := fun i : Nat => ((fieldN d 127 64 + i * rowb) % 2 ^ 64, rowb)
  let tab := fun x : Nat => ((fieldN d 63 0 + x * fieldN d 287 256) % 2 ^ 64, rowb)
  let at_ := fun i => idx.getD i 0
  let ins := (List.range cnt).filter fun i => at_ i < bound
  let rank := fun i => (ins.filter fun j => j < i).length
  let worst := (List.range cnt).filter fun i => meetsAny odd (4 * i) 4
  if fieldN d 320 320 = 1 then
    { reads := ins.map lin, writes := ins.map fun i => tab (at_ i), data := id, deps := fun p n => [(p, n)], apart := true
      bad := meetsAny (worst.map fun i => (rank i * rowb, rowb)) }
  else
    { reads := ins.map fun i => tab (at_ i)
      writes := (List.range cnt).map lin
      data := fun bs =>
        let rows := (cutBytes (ins.map fun _ => rowb) bs)
        (List.range cnt).flatMap fun i => if at_ i < bound then rows.getD (rank i) [] else List.replicate rowb 0
      deps := fun p n => (List.range cnt).filterMap fun i =>
        let lo := max p (i * rowb)
        let hi := min (p + n) ((i + 1) * rowb)
        if lo < hi ∧ at_ i < bound then some (rank i * rowb + (lo - i * rowb), hi - lo) else none
      apart := true
      bad := meetsAny (worst.map fun i => (i * rowb, rowb)) }

/-! ### QUANT (R250, R251) -/

/-- The values of a type's codes in units of 2^-6, with their codes; a zero is code 0 (R106, R251). -/
def quantVals (t : Nat) : List (Int × Nat) :=
  ((List.range 16).filter fun c => t == 0 || c != 8).map fun c =>
    (match q4Val t c with
      | .fin n m e => scaled n m e (-6)
      | _ => 0, c)

/-- The range of a type (R251). -/
def quantLo (t : Nat) : Int := [(-8 : Int), -6, -1, -32].getD t 0
def quantHi (t : Nat) : Int := [(7 : Int), 6, 1, 32].getD t 0

/-- A finite value in units of 2^-160. -/
def quantInt : Num → Option Int
  | .fin n m e => some (scaled n m e (-160))
  | _ => none

/-- The exponent of a block under a type (R251). -/
def quantExp (t : Nat) (xs : List Num) : Int :=
  let fits := fun e : Int => xs.all fun x =>
    match quantInt x with
    | none => true
    | some v => decide (quantLo t * 2 ^ (e + 160).toNat ≤ v ∧ v ≤ quantHi t * 2 ^ (e + 160).toNat)
  (((List.range 64).map fun k => (k : Int) - 32).find? fits).getD 31

/-- The code of a value, and its error in units of 2^-160 (R251). -/
def quantCode (t : Nat) (e : Int) (x : Num) : Nat × Nat :=
  let unit : Int := 2 ^ (e + 154).toNat
  match x with
  | .nan _ => (0, 0)
  | .inf neg =>
    let v := (if neg then quantLo t else quantHi t) * 64
    (((quantVals t).find? fun p => p.1 == v).map Prod.snd |>.getD 0, 0)
  | x =>
    let v := (quantInt x).getD 0
    let lo := quantLo t * 64 * unit
    let hi := quantHi t * 64 * unit
    let z := if v < lo then lo else if hi < v then hi else v
    let dist := fun p : Int × Nat => (z - p.1 * unit).natAbs
    let best := (quantVals t).foldl (fun b p =>
      if dist p < dist b ∨ (dist p = dist b ∧ p.1.natAbs < b.1.natAbs) then p else b) (0, 0)
    (best.2, (v - best.1 * unit).natAbs)

/-- One block: its codes and its scale byte (R251). -/
def quantBlock (mode : Nat) (xs : List Num) : List Nat × Nat :=
  let one := fun t =>
    let e := quantExp t xs
    let cs := xs.map (quantCode t e)
    (t, e, cs.map Prod.fst, cs.foldl (fun n c => n + c.2) 0)
  let cand := if mode = 4 then [0, 1, 2, 3] else [mode]
  let best := (cand.drop 1).foldl (fun (b : Nat × Int × List Nat × Nat) t =>
    let x := one t
    if x.2.2.2 < b.2.2.2 then x else b) (one (cand.headD 0))
  (best.2.2.1, best.1 * 64 + (BitVec.ofInt 6 best.2.1).toNat)

/-- A copy of an `n` by `k` matrix, blocked along its second index: the code bytes and the scale bytes (R250). -/
def quantCopy (mode n k : Nat) (get : Nat → Nat → Num) : List Byte × List Byte :=
  let blocks := (List.range (n * k / 32)).map fun b =>
    quantBlock mode ((List.range 32).map fun j => get (b * 32 / k) (b * 32 % k + j))
  let codes := blocks.flatMap Prod.fst
  ((List.range (n * k / 2)).map fun i => BitVec.ofNat 8 (codes.getD (2 * i) 0 + 16 * codes.getD (2 * i + 1) 0),
    blocks.map fun b => BitVec.ofNat 8 b.2)

/-- `QUANT` (R250, R370). -/
def planQuant (c : Cmd) (d : BitVec 512) : PlanOr :=
  let mode := fieldN d 375 373
  let crow := fieldN d 376 376 = 1
  let ccol := fieldN d 377 377 = 1
  let rows := fieldN d 329 320
  let cols := fieldN d 339 330
  let size := if fieldN d 372 372 = 1 then 2 else 4
  let badShape := fun v : Nat => decide (v < 32 ∨ 512 < v ∨ v % 32 ≠ 0)
  if fieldN d 511 381 ≠ 0 ∨ 4 < mode ∨ (¬crow ∧ ¬ccol) then .cause 0x95
  else if (edieOf c (fieldN d 380 378)).isNone then .cause 0x96
  else if badShape rows || badShape cols then .cause 0x9C
  else match (List.range rows).find? fun r => (fieldN d 63 0 + r * fieldN d 371 340) % 2 ^ 64 % size ≠ 0 with
  | some r => .misalign (BitVec.ofNat 64 (fieldN d 63 0 + r * fieldN d 371 340))
  | none =>
    let codes := rows * cols / 2
    let scales := rows * cols / 32
    let outs := (if crow then [(fieldN d 127 64, codes), (fieldN d 191 128, scales)] else [])
      ++ (if ccol then [(fieldN d 255 192, codes), (fieldN d 319 256, scales)] else [])
    let side := codes + scales
    let block := fun (col : Bool) (b : Nat) =>
      if col then (List.range 32).map fun j => (((b * 32 % rows + j) * cols + b * 32 / rows) * size, size) else [(b * 32 * size, 32 * size)]
    .plan
      { reads := (List.range rows).map fun r => ((fieldN d 63 0 + r * fieldN d 371 340) % 2 ^ 64, cols * size)
        writes := outs
        data := fun bs =>
          let val := fun r k : Nat =>
            let v := natOfBytes ((bs.drop ((r * cols + k) * size)).take size)
            if size = 2 then fmtH16.read v else fmtF32.read v
          let a := quantCopy mode rows cols val
          let b := quantCopy mode cols rows fun i j => val j i
          (if crow then a.1 ++ a.2 else []) ++ (if ccol then b.1 ++ b.2 else [])
        deps := fun p n => ((List.range n).map fun k =>
          let o := (p + k) % side
          (decide (!crow ∨ side ≤ p + k), if o < codes then o / 16 else o - codes)).eraseDups.flatMap fun x => block x.1 x.2
        apart := false }

/-! ### ECOLL (R249) -/

/-- The fields of a collective that every participant must give alike. -/
def collFields (d : BitVec 512) : BitVec 512 := d &&& ((0x7FF#512 <<< 256) ||| (0xFFFFFFFFFFFFFFFF#512 <<< 192) ||| (0xFFFFFFFFFFFFFFFF#512 <<< 128))

/-- The type and the operation of a collective, if they are legal (R249, R370). -/
def collOp (d : BitVec 512) : Option (RedOp × Ty) :=
  match fieldN d 266 263, fieldN d 262 259 with
  | 0, 2 => some (.add, .i32)
  | 0, 6 => some (.add, .n32)
  | 0, 0xB => some (.add, .f32)
  | 1, 2 => some (.min, .i32)
  | 1, 6 => some (.min, .n32)
  | 1, 0xB => some (.min, .f32)
  | 2, 2 => some (.max, .i32)
  | 2, 6 => some (.max, .n32)
  | 2, 0xB => some (.max, .f32)
  | 3, 8 => some (.and, .b32)
  | 4, 8 => some (.or, .b32)
  | 5, 8 => some (.xor, .b32)
  | _, _ => none

/-- The participants that a collective's mask names: dies, or packages (R249). -/
def collMask (d : BitVec 512) : List Nat :=
  if fieldN d 258 256 = 4 then (List.range 4).filter fun k => (field d 255 192).getLsbD k
  else (List.range 64).filter fun k => (field d 255 192).getLsbD k

/-- What a collective's descriptor alone raises (R370). -/
def State.collBad (s : State) (c : Cmd) (d : BitVec 512) : Option Nat :=
  let me := if fieldN d 258 256 = 4 then c.die else s.lodge.pkgNum.toNat
  if fieldN d 511 270 ≠ 0 ∨ (collOp d).isNone ∨ (fieldN d 258 256 ≠ 4 ∧ fieldN d 258 256 ≠ 5) then some 0x95
  else if (edieOf c (fieldN d 269 267)).isNone then some 0x96
  else if !(collMask d).contains me then some 0x9E
  else none

/-- The collectives of this package that carry an identifier in a context and have not read yet: the oldest of each die. -/
def State.collMates (s : State) (c : Cmd) (d : BitVec 512) : List (Nat × Cmd × BitVec 512) :=
  let all := s.cmds.filterMap fun q =>
    match q.2.image with
    | some e =>
      if q.2.cell = 0xD2 ∧ q.2.ctx = c.ctx ∧ q.2.fn = c.fn ∧ q.2.st = .released ∧ q.2.staged.isNone ∧ fieldN e 191 160 = fieldN d 191 160 ∧
          (s.collBad q.2 e).isNone then some (q.1, q.2, e) else none
    | none => none
  all.foldl (fun (l : List (Nat × Cmd × BitVec 512)) q => if l.any fun x => x.2.1.die == q.2.1.die then l else l ++ [q]) []

/-! ### Running a command -/

/-- Whether every event of the issuing thread before a command with `.acq` has been performed, the entries of its side log among them
(R210). -/
def State.acqReady (s : State) (c : Cmd) : Bool :=
  !c.acq || c.gid.isNone || (lanesOf c.lanes).all fun l => s.laneDone c.warp l c.upto

/-- An engine for a command: its own, or one of its kind that runs no other command; the participants of one collective share one (R15,
R249). -/
def State.engineFor (s : State) (n : Nat) (c : Cmd) (d : BitVec 512) : Option Nat :=
  match c.eng with
  | some e => some e
  | none =>
    let die := (edieOf c (cellEdie c.cell d)).getD c.die
    let mate := fun q : Nat × Cmd => c.cell == 0xD2 && q.2.ctx == c.ctx && q.2.fn == c.fn &&
      (q.2.image.map fun e => fieldN e 191 160) == some (fieldN d 191 160)
    ((engineKinds c.cell).map fun k => die * 16 + k).find? fun e => !(s.cmds.any fun q => q.1 != n && q.2.eng == some e && !mate q)

/-- Ranges cut at lines, as the events of an engine: the place of each in the stream of bytes, its address and its bytes. -/
def unitsOf (rs : List (Nat × Nat)) : List (Nat × Nat × Nat) :=
  (rs.foldl (fun (acc : List (Nat × Nat × Nat) × Nat) r =>
    let cuts := (List.range ((r.1 % 128 + r.2 + 127) / 128)).map fun k =>
      let a := if k = 0 then r.1 else r.1 - r.1 % 128 + 128 * k
      let b := min (r.1 + r.2) (r.1 - r.1 % 128 + 128 * (k + 1))
      (acc.2 + (a - r.1), a, b - a)
    (acc.1 ++ cuts, acc.2 + r.2)) ([], 0)).1

/-- Whether places meet. -/
def Piece.meets (p q : Piece) : Bool :=
  match p.loc, q.loc with
  | .hbm a, .hbm b => Machine.meets a p.n b q.n
  | .spad c a, .spad d b => c == d && Machine.meets a p.n b q.n
  | _, _ => false

/-- A stretch of a plan: its number, its place in the stream, and where it lies, or why that cannot be said. -/
abbrev EngUnit := Nat × (Nat × Nat) × Except XErr Piece

/-- The stretches of ranges that are still to be read or written. -/
def State.engUnits (s : State) (q : Asker) (gid : Nat) (acc : Access) (rs : List (Nat × Nat)) (past : Nat → Bool) : List EngUnit :=
  ((unitsOf rs).zipIdx.filter fun x => !past x.2).map fun x =>
    (x.2, (x.1.1, x.1.2.2), match s.pieces q gid acc [(x.1.2.1, x.1.2.2)] with
      | .ok (p :: _) => .ok p
      | .ok [] => .error ⟨0x70, 0, 0, none⟩
      | .error e => .error e)

/-- An event of an engine (R200): a read or a write of a stretch, or a failure that stops the command (R396). -/
inductive EngEvent
  | read (k : Nat) (p : Piece)
  | write (k pos : Nat) (p : Piece)
  | fail (e : XErr)
deriving DecidableEq, Repr

/-- Whether the reads that a stretch of written bytes is computed from are done (R210). -/
def Plan.fed (p : Plan) (reads : List EngUnit) (pos n : Nat) : Bool :=
  (p.deps pos n).all fun d => reads.all fun r => !meets d.1 d.2 r.2.1.1 r.2.1.2

/-- The writes that may be performed as far as the plan goes: computed from reads that are done, apart from those that are not where the plan
asks it, and behind the earlier writes to the same bytes (R210, R247, R248). -/
def Plan.writable (p : Plan) (reads writes : List EngUnit) : List (Nat × Nat × Piece) :=
  writes.filterMap fun u => match u.2.2 with
    | .error _ => none
    | .ok x =>
      let clear := fun (l : List EngUnit) => l.all fun r => match r.2.2 with
        | .ok y => !y.meets x
        | .error _ => true
      if p.fed reads u.2.1.1 u.2.1.2 && (!p.apart || clear reads) && clear (writes.takeWhile fun v => v.1 != u.1) then some (u.1, u.2.1.1, x)
      else none

/-- Whether a write of an engine can be performed at its home slice now (R170, R172). -/
def State.writeReady (s : State) (n die : Nat) (p : Piece) : Bool :=
  (pieceLines [p]).all fun l => !s.wrapHeld die (.hbm (l * 128)) && (s.lineReady l || s.granted (.cmd n) l)

/-- The events that a command can perform now, and a failure once everything before it is done (R396). -/
def State.engEvents (s : State) (n die : Nat) (p : Plan) (reads writes : List EngUnit) : List EngEvent :=
  let rd := reads.filterMap fun u => match u.2.2 with
    | .ok x => if s.piecesReadable die [x] then some (EngEvent.read u.1 x) else none
    | .error _ => none
  let wr := ((p.writable reads writes).filter fun x => s.writeReady n die x.2.2).map fun x => EngEvent.write x.1 x.2.1 x.2.2
  let bad := fun (l : List EngUnit) => match l with
    | (_, _, .error e) :: _ => [EngEvent.fail e]
    | _ => []
  rd ++ wr ++ bad reads ++ (match writes with
    | u :: _ => if p.fed reads u.2.1.1 u.2.1.2 then bad writes else []
    | [] => [])

/-- `POISON_IDLE` for poisoned bytes that an engine has read (R410). -/
def State.postPoison (s : State) (c : Cmd) (a : Option DWord) : State :=
  match a with
  | some a => s.post 0xB4 { c.info with addr := a, detail := Config.openDetail 0xB4 }
  | none => s

/-- The bytes that a command has read, in the order of its stream; what it has not read yet is 0. -/
def Cmd.stream (c : Cmd) (p : Plan) : List Byte :=
  (unitsOf p.reads).zipIdx.flatMap fun u => ((c.got.find u.2).map Prod.fst).getD (List.replicate u.1.2.2 0)

/-- The stretches of the bytes that a command has read that lie in granules read poisoned (R409, R410). -/
def Cmd.badReads (c : Cmd) (p : Plan) : List (Nat × Nat) :=
  (unitsOf p.reads).zipIdx.flatMap fun u =>
    let bad := ((c.got.find u.2).map Prod.snd).getD 0
    let a := u.1.2.1
    (List.range 4).filterMap fun j =>
      let lo := max a (a - a % 128 + 32 * j)
      let hi := min (a + u.1.2.2) (a - a % 128 + 32 * (j + 1))
      if bad.getLsbD j ∧ lo < hi then some (u.1.1 + (lo - a), hi - lo) else none

/-- Whether a stretch of written bytes is computed from poisoned bytes (R410). -/
def Cmd.tainted (c : Cmd) (p : Plan) (pos n : Nat) : Bool :=
  c.spoiled || p.bad pos n || (p.deps pos n).any fun d => meetsAny (c.badReads p) d.1 d.2

/-- A piece of a line cut at its granules, each with its place in the piece. -/
def Piece.granulated (x : Piece) : List (Nat × Piece) :=
  (List.range 4).filterMap fun j =>
    let a := x.va.toNat
    let lo := max a (a - a % 128 + 32 * j)
    let hi := min (a + x.n) (a - a % 128 + 32 * (j + 1))
    if lo < hi then some (lo - a, ⟨BitVec.ofNat 64 lo, hi - lo, x.loc.add (lo - a), x.xlat⟩) else none

/-- A stretch that a command writes, each granule poisoned if it is computed from poisoned bytes (R409, R410). -/
def State.engWrite (s : State) (c : Cmd) (p : Plan) (pos : Nat) (x : Piece) : State :=
  let bs := ((p.data (c.stream p)).drop pos).take x.n
  x.granulated.foldl (fun s y => s.writePieces (c.tainted p (pos + y.1) y.2.n) [y.2] (bs.drop y.1)) s

/-- One event of a command (R179, R200, R396, R409, R410). -/
def State.engPerform (s : State) (n : Nat) (c : Cmd) (p : Plan) (ev : EngEvent) : State :=
  match ev with
  | .read k x =>
    let bad := s.piecePoison [x]
    let bs := s.pieceBytes [x]
    let odd := BitVec.ofNat 4 ((x.granulated.filter fun y => s.poisoned y.2.loc 1).foldl (fun v y => v + 2 ^ (y.2.va.toNat % 128 / 32)) 0)
    let s := (s.readTouch none [x]).postPoison c bad
    { s with cmds := s.cmds.alter n fun (c : Cmd) => { c with got := c.got.put k (bs, odd) } }
  | .write k pos x =>
    let s := s.engWrite c p pos x
    let s := { s with homeOps := s.homeOps.filter fun o => !(o.fn == AtomFn.claim (.cmd n) && (pieceLines [x]).contains o.loc.line) }
    { s with cmds := s.cmds.alter n fun (c : Cmd) => { c with wrote := c.wrote ++ [k] } }
  | .fail e => s.engError n false e

/-- Whether a command has done every read of a plan, and every write. -/
def Cmd.hasRead (c : Cmd) (p : Plan) : Bool := (List.range (unitsOf p.reads).length).all fun k => (c.got.find k).isSome
def Cmd.hasWritten (c : Cmd) (p : Plan) : Bool := (List.range (unitsOf p.writes).length).all c.wrote.contains

/-- A command's last plan: it is ready once its reads are done, and moved once its writes are. -/
def State.engSettle (s : State) (n : Nat) (p : Plan) : State :=
  { s with cmds := s.cmds.alter n fun (c : Cmd) =>
      if c.st ≠ .released then c
      else { c with ready := c.hasRead p, st := if c.hasRead p && c.hasWritten p then .moved else c.st } }

/-- A step of a command's plan (R170, R210, R370): judged first, then one of its events, in an order that nothing fixes; a write whose line is
not at hand claims it. -/
def State.engStep (s : State) (n : Nat) (c : Cmd) (d : BitVec 512) (p : Plan) : State :=
  let gid := c.gid.getD 0
  if !s.acqReady c then s
  else match s.engineFor n c d with
    | none => s
    | some e =>
      let c := { c with eng := some e }
      let q := c.asker d
      let die := e / 16
      match if c.judged then none else s.engJudge q gid p.reads p.writes with
      | some x => s.engError n false x
      | none =>
        let c := { c with judged := true }
        let s := { s with cmds := s.cmds.put n c }
        let reads := s.engUnits q gid .load p.reads fun k => (c.got.find k).isSome
        let writes := s.engUnits q gid .store p.writes c.wrote.contains
        let s := ((p.writable reads writes).flatMap fun x => pieceLines [x.2.2]).foldl (fun s l =>
          if s.lineReady l || s.wrapHeld die (.hbm (l * 128)) then s else s.claim die (.cmd n) l) s
        match s.pick (s.engEvents n die p reads writes) with
        | (some ev, s) => s.engPerform n c p ev
        | (none, s) => s

/-- The plan of `ECOPY` or `QUANT`. -/
def State.runPlan (s : State) (n : Nat) (c : Cmd) (d : BitVec 512) (p : Plan) : State := (s.engStep n c d p).engSettle n p

/-- Bytes that a command has read for its next part, and the poisoned stretches among them: the indices of a gather, or the result of a
collective. -/
def State.stage (s : State) (n : Nat) (bs : List Byte) (bad : List (Nat × Nat)) : State :=
  { s with cmds := s.cmds.alter n fun (c : Cmd) => { c with staged := some bs, stagedBad := bad, got := [], judged := false } }

/-- A plan that only reads, and one that only writes bytes at hand. -/
def Plan.toRead (r : Nat × Nat) : Plan := { reads := [r], writes := [], data := id, deps := fun _ _ => [], apart := false }
def Plan.toWrite (r : Nat × Nat) (bs : List Byte) (odd : List (Nat × Nat)) : Plan :=
  { reads := [], writes := [r], data := fun _ => bs, deps := fun _ _ => [], apart := false, bad := meetsAny odd }

/-- `EGATH`: the indices are read, then the rows (R248). -/
def State.runGather (s : State) (n : Nat) (c : Cmd) (d : BitVec 512) : State :=
  match gatherBad c d with
  | some (.cause k) => s.failCmd n k c.seq 0
  | some (.misalign a) => s.failCmd n 0x67 c.seq a
  | _ =>
    let cnt := fieldN d 223 192
    let ix := Plan.toRead (fieldN d 191 128, 4 * cnt)
    match c.staged with
    | some bs => s.runPlan n c d (planGather d ((cutBytes (List.replicate cnt 4) bs).map natOfBytes) c.stagedBad)
    | none =>
      let buf := (fieldN d 127 64, cnt * fieldN d 255 224)
      let scat := fieldN d 320 320 = 1
      let early := if c.judged then none else
        s.engJudge (c.asker d) (c.gid.getD 0) (ix.reads ++ if scat then [buf] else []) (if scat then [] else [buf])
      match early with
      | some e => s.engError n false e
      | none =>
        let s := s.engStep n c d ix
        match s.cmds.find n with
        | none => s
        | some c => if c.st = .released ∧ c.hasRead ix then s.stage n (c.stream ix) (c.badReads ix) else s

/-- What the participants of a collective receive: the reduction of what they have read, and of what other packages sent (R158, R249). -/
def collResult (d : BitVec 512) (parts : List (List Byte)) (others : List (List Word)) : List Byte :=
  let cnt := fieldN d 159 128
  let words := parts.map fun p => (cutBytes (List.replicate cnt 4) p).map fun b => BitVec.ofNat 64 (natOfBytes b)
  let far := others.map fun l => l.map fun v => v.setWidth 64
  let (op, ty) := (collOp d).getD (.add, .n32)
  ((List.range cnt).map fun k => loWord (gredVal op ty ((words ++ far).map fun l => (l.getD k 0 : DWord))).1).flatMap fun v => bytesOf 4 v.toNat

/-- The participants of a collective that disagree have their cause, and it is kept for those that have still to come (R370). -/
def State.oddColl (s : State) (c : Cmd) (cid : Word) (pod : Bool) (all here : List Nat) : State :=
  let left := all.filter fun k => !here.contains k
  if left = [] then s else { s with oddColls := s.oddColls ++ [⟨c.ctx, c.fn, cid, pod, left⟩] }

/-- A participant that disagreement has still to tell is told (R370): the number of those that are, and the state. -/
def State.tellOdd (s : State) (ctx fn : Nat) (cid : Word) (pod : Bool) (k : Nat) : Bool × State :=
  match s.oddColls.find? fun o => o.ctx == ctx && o.fn == fn && o.cid == cid && o.pod == pod && o.left.contains k with
  | none => (false, s)
  | some o =>
    let rest := o.left.erase k
    (true, { s with oddColls := (s.oddColls.erase o) ++ if rest = [] then [] else [{ o with left := rest }] })

/-- What other packages sent to a collective that disagreement has ended is dropped (R370). -/
def State.dropOddPeers (s : State) (c : Cmd) (cid : Word) : State :=
  s.peers.foldl (fun s p =>
    if p.cid ≠ cid then s
    else match s.tellOdd c.ctx c.fn cid true p.pkg with
      | (true, s) => { s with peers := s.peers.erase p }
      | (false, s) => s) s

/-- Whether the last Swezin Link port that leads to a package has been retired (R408). -/
def State.lostPkg (s : State) (pkg : Nat) : Bool :=
  let ports := (List.range 20).filter fun p => Config.portPeer p == some pkg
  !ports.isEmpty && ports.all fun p => s.retired.any fun q => q.2.1 == 9 && q.2.2.toNat == p

/-- `LINK_FATAL` for a command that waits on a lost link (R408): it is held for the host. -/
def State.linkFatal (s : State) (n : Nat) (c : Cmd) : State :=
  let (k, s) := s.hold 0 (.cmd n)
  let s := { s with cmds := s.cmds.put n { c with st := .held, hid := k } }
  s.post 0xB7 { c.info with hold := k, detail := Config.openDetail 0xB7 }

/-- `ECOLL` (R249, R370): a participant is judged as it arrives; once every participant has met, each reads its contribution, and when all are
read each has its result to write. -/
def State.runColl (s : State) (n : Nat) (c : Cmd) (d : BitVec 512) : State :=
  let cnt := fieldN d 159 128
  let src := fun e : BitVec 512 => Plan.toRead (fieldN e 63 0, 4 * cnt)
  let pod := decide (fieldN d 258 256 = 5)
  let cid : Word := field d 191 160
  match s.collBad c d, c.staged with
  | some k, _ => s.failCmd n k c.seq 0
  | none, some bs => s.runPlan n c d (Plan.toWrite (fieldN d 127 64, 4 * cnt) bs c.stagedBad)
  | none, none =>
    match if pod then (false, s.dropOddPeers c cid) else s.tellOdd c.ctx c.fn cid false c.die with
    | (true, s) => s.failCmd n 0x97 c.seq 0
    | (false, s) =>
    let mates := s.collMates c d
    if !mates.any fun x => x.1 == n then s
    else if mates.any fun x => collFields x.2.2 != collFields d then
      let s := s.oddColl c cid false (mates.flatMap fun x => if fieldN x.2.2 258 256 = 4 then collMask x.2.2 else []).eraseDups
        (mates.map fun x => x.2.1.die)
      mates.foldl (fun s x => s.failCmd x.1 0x97 x.2.1.seq 0) s
    else
      let need := collMask d
      let me := s.lodge.pkgNum.toNat
      let peers := s.peers.filter fun p => pod && p.cid == cid && need.contains p.pkg && p.pkg != me
      let team := if pod then mates.filter fun x => x.1 == n else mates
      let here := if pod then need.all fun k => k == me || peers.any fun p => p.pkg == k
        else need.all fun k => mates.any fun x => x.2.1.die == k
      let odd := [field d 63 0, field d 127 64].find? fun a => a.toNat % 4 != 0
      if peers.any fun p => collFields p.fields != collFields d then
        let s := s.oddColl c cid true need (me :: peers.map PeerColl.pkg)
        ({ s with peers := s.peers.filter fun p => !peers.contains p }).failCmd n 0x97 c.seq 0
      else match odd, if c.judged then none else s.engJudge (c.asker d) (c.gid.getD 0) (src d).reads [(fieldN d 127 64, 4 * cnt)] with
        | some a, _ => s.failCmd n 0x67 c.seq a
        | none, some e => s.engError n false e
        | none, none =>
          if !here then
            if pod && need.any (fun k => k != me && s.lostPkg k && !peers.any fun p => p.pkg == k) then s.linkFatal n c else s
          else
          let s := s.engStep n c d (src d)
          let now := team.filterMap fun x => (s.cmds.find x.1).map fun c => (x.1, c, x.2.2)
          if now.all fun x => x.2.1.st == .released && x.2.1.hasRead (src x.2.2) then
            let bytes := collResult d (now.map fun x => x.2.1.stream (src x.2.2)) (peers.map PeerColl.vals)
            let bad := (now.flatMap fun x => x.2.1.badReads (src x.2.2)).eraseDups
            now.foldl (fun s x => s.stage x.1 bytes bad) { s with peers := s.peers.filter fun p => !peers.contains p }
          else s

/-- The descriptor of a released command read again after its first read failed or was held (R396). -/
def State.descAgain (s : State) (n : Nat) (c : Cmd) : State :=
  match s.place c.descAsker (c.gid.getD 0) .load 64 c.desc with
  | .error e => s.engError n true e
  | .ok _ => s.fetchDesc n

/-- Whether the group of a command can be reached: a saved group's view is not (R246, R272). -/
def State.cmdReach (s : State) (c : Cmd) : Bool :=
  match c.gid with
  | none => true
  | some g => ((s.group g).map Group.placed).getD true

/-- `ENGINE_COMMAND_RUN` (R246 to R251): a released command reads its descriptor, or performs one of its events. -/
def execEngineCommandRun (n : Nat) (s : State) : Result :=
  .next (match s.cmds.find n with
    | none => s
    | some c =>
      if c.st ≠ .released ∨ !s.cmdReach c then s
      else match c.image with
        | none => s.descAgain n c
        | some d =>
          match c.cell with
          | 0xD1 => s.runGather n c d
          | 0xD2 => s.runColl n c d
          | k =>
            match (if k = 0xD0 then planCopy c d else planQuant c d) with
            | .cause code => s.failCmd n code c.seq 0
            | .misalign a => if c.gid.isSome then s.failCmd n 0x67 c.seq a else s.failCmd n 0x6C (Config.openDetail 0x6C) a
            | .plan p => s.runPlan n c d p)

/-- `ENGINE_COMPLETION` (R211): the token is set, with `.rel` only after every write; a command whose writes are done and
whose token is set is over. -/
def execEngineCompletion (n : Nat) (s : State) : Result :=
  .next (match s.cmds.find n with
    | none => s
    | some c =>
      if c.st = .moved then s.endCmd n false
      else if c.st = .released ∧ c.ready ∧ !c.rel ∧ !c.token then s.setToken n
      else s)

end Sys2Proof.Machine
end

