-- ==== Sys2Proof/Machine/System.lean ====
section
/-! DEFINITION. The system instructions and the fences (R231, R253 to R258, R346, R371). -/

namespace Sys2Proof.Machine

/-! ### Grades (R253, R371) -/

/-- What a system instruction other than `RTT` raises in a segment: at handler grade `PRIV_GRADE`, which that grade turns
into `TRAP_IN_HANDLER` with 0x08 in its detail word (R345, R371); at program grade `PRIV_CLAUSE` (R354). -/
def Warp.privFault (wp : Warp) (g : Seg) (m : Mask) : Option Raise :=
  if g.handler &&& g.rel m != 0 then some { code := 0x08, mask := g.handler &&& g.rel m, detail := 0 }
  else if g.firmware then none
  else
    let h : Header := ⟨wp.clauseAt.cls, BitVec.ofNat 4 wp.clauseAt.cnt, 0, 0, 0, 0, 0, 0⟩
    some { code := 0x07, mask := g.rel m, detail := hiWord h.toWord }

/-- A system instruction that waits for commit (R234): its slot is held until no window is open and the side log is empty;
then segments that may not run it take their causes, and the rest act. -/
def State.system (s : State) (m : Mask) (act : State → Mask → State) : State :=
  let wp := s.curWarp
  if m = 0 then s
  else if wp.window.isSome || !wp.sideLog.isEmpty then s.holdSlot s.cur .maintenance
  else
    let rs := wp.raises m fun g => wp.privFault g m
    let go := m &&& ~~~wp.stoppedBy rs
    let s := s.takeAll s.cur rs
    if go = 0 then s else act (s.onWarp s.cur Warp.acted) go

/-- A cause that firmware raises for itself: logged, and nothing stops (R347, R371). -/
def State.logOwn (s : State) (g : Seg) (code : Nat) : State :=
  s.post code { s.segInfo s.cur g with detail := Config.openDetail code, pc := s.curWarp.clauseAt.hdr, islot := s.curWarp.slotNo }

/-! ### RTT (R254, R346) -/

/-- The results that still pend in the clause made visible, and no longer pending (R62). -/
def Warp.flush (wp : Warp) : Warp :=
  let wp' := wp.applyEnd wp.clauseAt.pend
  { wp' with clause := wp'.clause.map fun (c : Clause) => { c with at_ := { c.at_ with pend := [] } } }

/-- A segment leaves its handler (R346): nothing that its lanes still waited for in the handler is left. -/
def Warp.leaveHandler (wp : Warp) (lb : Nat) : Warp :=
  match wp.segAt lb with
  | none => wp
  | some g =>
    let m := g.abs ((g.record.map fun r => r.cause.lanes).getD 0)
    let wp := { wp with
      holds := wp.holds.filter fun h => !m.getLsbD h.1
      resume := (wp.resume.map fun (a : ClauseAt) => { a with lanes := a.lanes &&& ~~~m }).filter fun a => a.lanes != 0
      via := wp.via.filter fun v => !m.getLsbD v.1 }
    (wp.returnTo lb).onSeg lb Seg.nextCause

/-- `RTT` (R254, R346, R371): each segment of the fetch set resumes from its trap record; firmware without one is logged and
goes on. -/
def execRtt (p : Pre) (s : State) : Result :=
  let wp := s.curWarp
  let m := wp.execMask p
  .next ((wp.segsIn m).foldl (fun s g =>
    if !g.firmware && g.handler &&& g.rel m == 0 then
      match wp.privFault g m with
      | some r => s.takeAt s.cur g.lbase r
      | none => s
    else if g.record.isNone then s.logOwn g 0x08
    else (s.onWarp s.cur fun wp => wp.leaveHandler g.lbase).announce s.cur g.lbase) (s.onWarp s.cur Warp.flush))

/-! ### HALT (R255) -/

/-- The porter core of a die (R10). -/
def porterCore (die : Nat) : Nat := coreNo die 128

/-- The warps of a die's porter. -/
def State.porterWarps (s : State) (die : Nat) : List Nat :=
  (s.warps.filter fun q => coreOf q.1 == porterCore die).map Prod.fst

/-- The halted lanes of a warp. -/
def Warp.halted (wp : Warp) : Mask := maskWhere fun l => wp.holds.any fun h => h.1 == l && h.2.kind == .halt

/-- Halted lanes of a warp go on at the next header, whatever is rolled back later (R203, R255). -/
def Warp.wakeHalted (wp : Warp) : Warp :=
  (lanesOf wp.halted).foldl (fun wp l => wp.always fun wp => wp.releaseLane l) wp

/-- A wake event for a die's porter (R255): halted lanes go on; for the other lanes of a warp that has no window open the event is kept until
they halt. -/
def State.wakePorter (s : State) (die : Nat) : State :=
  (s.porterWarps die).foldl (fun s w =>
    let wp := s.warp w
    let near := if wp.window.isNone then wp.live &&& ~~~wp.halted else 0
    (s.onWarp w Warp.wakeHalted).onDie die fun d => { d with
      porterWake := if near = 0 then d.porterWake else d.porterWake.put w ((d.porterWake.find w).getD 0 ||| near) }) s

/-- `HALT` (R255): a lane for which a wake event has come goes on at once. -/
def execHalt (p : Pre) (s : State) : Result :=
  .next (s.system (s.curWarp.execMask p) fun s m =>
    let woken := ((s.die (dieOf s.cur)).porterWake.find s.cur).getD 0
    (s.onDie (dieOf s.cur) fun d => { d with porterWake := if woken = 0 then d.porterWake else d.porterWake.put s.cur (woken &&& ~~~m) }).onWarp
      s.cur fun wp => wp.holdLanes (m &&& ~~~woken) (wp.holdHere .halt s.now))

/-- `PORTER_WAKE` (R255): a doorbell or trigger write, a cause for the porter, or a message from the lodge; a porter that is awake
replays the frames that the lodge holds (R309). -/
def execPorterWake (die : Nat) (s : State) : Result :=
  let s := s.wakePorter die
  .next (if (s.die die).porterGated then s else { s with lodge := { s.lodge with frames := [] } })

/-! ### SRWR (R256) -/

/-- The write of a special register of one segment (R256, R371). -/
def State.srwrSeg (s : State) (g : Seg) (sr : Nat) (v : DWord) : State :=
  let w := s.cur
  let bad := s.logOwn g 0x15
  match sr with
  | 0x0C => if v.toNat % 8 ≠ 0 then bad else s.onWarp w fun wp => wp.onSeg g.lbase fun g => { g with ubase := v }
  | 0x0D => if v.toNat % 8 ≠ 0 then bad else s.onWarp w fun wp => wp.onSeg g.lbase fun g => { g with tbase := v }
  | 0x0E => s.onWarp w fun wp => { wp with fpflags := v.setWidth 5 }
  | 0x0F =>
    if (loWord v).toNat = 0 ∨ 65535 < (loWord v).toNat then bad
    else s.onWarp w fun wp => wp.onSeg g.lbase fun g => { g with bancnt := loWord v }
  | 0x10 => s.onWarp w fun wp => wp.onSeg g.lbase fun g => { g with dropcnt := 0 }
  | _ => s

/-- `SRWR` (R256): each segment's lead lane supplies the value. -/
def execSrwr (p : Pre) (wide : Bool) (sr : BitVec 8) (a : Reg) (s : State) : Result :=
  .next (s.system (s.curWarp.execMask p) fun s m =>
    (s.curWarp.segsIn m).foldl (fun s g => s.srwrSeg g sr.toNat (s.curWarp.uni g m wide a)) s)

/-! ### CACHE (R257) -/

/-- Every L1 and annex copy of a line dropped; each drop is an invalidation (R165, R202, R257). -/
def State.dropLine (s : State) (w line : Nat) : State :=
  let held := fun k : Nat => (s.l1.find (l1Key (coreOf k) line)).isSome || (s.annex.find (annexKey (dieOf k) line)).isSome
  let s := s.hitWhere fun k x => decide (k ≠ w) && x.sig.getLsbD (Loc.hbm (line * 128)).sig && held k
  { s with
    l1 := s.l1.filter fun q => decide (q.1 % 2 ^ 34 ≠ line)
    annex := s.annex.filter fun q => decide (q.1 % 2 ^ 34 ≠ line)
    directory := s.directory.del line }

/-- What a write-back leaves of the protection of a copy (R217). -/
def Way.written (x : Way) : Way := if x.hint = .keep then { x with hint := .none } else x

/-- Dirty data of a line goes to its home slice and to HBM, and poison in it is posted (R410); the copies stay, and `.keep` protects those that
were written back no more (R217, R257). -/
def State.cleanLine (s : State) (line : Nat) : State :=
  let s := if s.l1.any fun q => q.1 % 2 ^ 34 == line && q.2.dirty then s.idlePoison (homeDie (line * 128)) (line * 128) 128 else s
  { s with l1 := s.l1.mapV fun k (x : L1Line) =>
      if k % 2 ^ 34 = line ∧ x.dirty then { x with dirty := false, way := x.way.written } else x }

/-- The home L2's copy of a line written back to HBM, and dropped if it is not to stay (R217, R257). -/
def State.flushL2 (s : State) (line : Nat) (stay : Bool) : State :=
  { s with l2 := if stay then s.l2.alter line Way.written else s.l2.del line }

/-- `CACHE` (R257): the line of each executing lane's address. -/
def execCache (p : Pre) (op : CacheOp) (a b : Reg) (off : BitVec 16) (s : State) : Result :=
  .next (s.system (s.curWarp.execMask p) fun s m =>
    (lanesOf m).foldl (fun s l =>
      match s.lanePlace s.cur l .load 1 (s.curWarp.ea a b off 128 l) with
      | .ok ⟨.hbm pa, x⟩ =>
        let s := match x with
          | some x => s.keepXlat x
          | none => s
        match op with
        | .wb => (s.cleanLine (pa / 128)).flushL2 (pa / 128) true
        | .inv => (s.cleanLine (pa / 128)).dropLine s.cur (pa / 128)
        | .wbinv => ((s.cleanLine (pa / 128)).flushL2 (pa / 128) false).dropLine s.cur (pa / 128)
      | _ => s) s)

/-! ### TLBI (R258) -/

/-- Whether a lane of `TLBI` names a cached translation: by the page that its leaf maps (R180). -/
def tlbiHits (op : TlbiOp) (a : DWord) (ctx : Nat) (x : Xlat) : Bool :=
  match op with
  | .all => true
  | .va => x.ctx == ctx && (x.vpage * 4096) / x.size == a.toNat / x.size
  | .vf => x.fn == a.toNat

/-- Whether an access that used a translation of an address has not been performed (R258). -/
def State.xlatInUse (s : State) (hit : Xlat → Bool) : Bool :=
  let used := fun (w lane : Nat) (va : DWord) => (s.xlatOf w lane va).any hit
  s.warps.any fun (w, wp) =>
    (((wp.window.map Window.evs).getD []).any fun e =>
      match e with
      | .rd _ l va _ _ _ => used w l va
      | .wr _ l va _ _ _ _ => used w l va
      | .token _ => false)
    || (wp.sideLog.any fun e => e.loc.isSome && used w e.lane e.va)
    || s.homeOps.any fun o => o.warp == w && used w o.lane o.va

/-- `TLBI` (R258, R371): it completes once no access that used a dropped translation is left; a segment in which a lane names what does not exist
drops nothing, and is logged. -/
def execTlbi (p : Pre) (op : TlbiOp) (a b : Reg) (s : State) : Result :=
  .next (s.system (s.curWarp.execMask p) fun s m =>
    let wp := s.curWarp
    let val := fun l => match op with
      | .va => wp.val64 a l
      | _ => (wp.val32 a l).setWidth 64
    let ctx := fun l => (wp.val32 b l).toNat
    let bad := fun l => match op with
      | .all => false
      | .va => (s.ctxs.find (ctx l)).isNone
      | .vf => decide (31 < (val l).toNat)
    let wrong := (wp.segsIn m).filter fun g => (lanesOf (g.slots &&& m)).any bad
    let good := (lanesOf m).filter fun l => !wrong.any fun g => g.hasLane l
    let hit := fun x => good.any fun l => tlbiHits op (val l) (ctx l) x
    if s.xlatInUse hit then s.holdSlot s.cur .maintenance
    else
      let s := wrong.foldl (fun s g => s.logOwn g 0x8B) s
      { s with xlats := s.xlats.filter fun x => !hit x })

/-! ### FENCE (R231) -/

/-- `FENCE` (R212, R231): the instruction cache of the core and the clauses that the warp has fetched, but for the one that issues, or the record
cache of the core, are discarded. -/
def execFence (p : Pre) (rec : Bool) (s : State) : Result :=
  .next (if s.curWarp.execMask p = 0 then s
    else s.irrevocably fun s =>
      if rec then s.onCore (coreOf s.cur) fun c => { c with recCache := [] }
      else (s.dropCode (coreOf s.cur) fun _ => true).onWarp s.cur fun wp =>
        { wp.onClauses fun a => { a with words := [] } with clause := wp.clause })

end Sys2Proof.Machine
end

