-- ==== Sys2Proof/Machine/Retired.lean ====
section
/-! DEFINITION. The retired cells: each raises `RETIRED`, and the porter emulates it (R94, R347, R358). -/

namespace Sys2Proof.Machine

/-- A retired cell at the current slot: `RETIRED`, raised after commit, in every segment of the fetch set (R94, R95, R205). -/
def State.retire (s : State) : State :=
  let m := s.curWarp.setMask
  let word := s.curWarp.clauseAt.words.getD s.curWarp.slotNo 0
  if m = 0 then s
  else s.irrevocably fun s => s.takeAll s.cur (s.curWarp.raises m fun g =>
    some { code := 0x01, mask := g.rel m, detail := insnDetail (word.extractLsb' 48 8) 0 (word.extractLsb' 48 8 |>.setWidth 16) })

def execFdiva (_p : Pre) (_ftz : Bool) (_d _a _b : Reg) (s : State) : Result := .next s.retire
def execLdsp (_p : Pre) (_b128 : Bool) (_ty : Ty) (_d _a : Reg) (_off : BitVec 16) (s : State) : Result := .next s.retire
def execStsp (_p : Pre) (_b128 : Bool) (_ty : Ty) (_d _a : Reg) (_off : BitVec 16) (s : State) : Result := .next s.retire
def execAtsp (_p : Pre) (_d _a _b : Reg) (s : State) : Result := .next s.retire
def execBarw (_p : Pre) (s : State) : Result := .next s.retire
def execMma4 (_p : Pre) (_n : BitVec 3) (_t : Bool) (_s : BitVec 2) (_a _b _c _k : Reg) (s : State) : Result := .next s.retire
def execMma8 (_p : Pre) (_n : BitVec 3) (_t : Bool) (_s : BitVec 2) (_a _b _c _k : Reg) (s : State) : Result := .next s.retire

/-! ### The porter's emulation (R94, R358) -/

/-- A warp that stands again at the slot of a segment's cause, as the porter sees it. -/
def Warp.atCause (wp : Warp) (x : SegCause) : Warp :=
  let c : Clause := ⟨x.at_, none, 0, false, false, wp.checkpoint none, 0, 0, none, false⟩
  { wp with clause := some c }

/-- The emulated result of a register: visible to every later slot; an earlier slot's result of the same lanes, pending or on its way, is
overtaken (R61, R94). DESIGN CHOICE (assumption 101): its shape is general, whatever the shapes of the sources. -/
def State.emuWrite (s : State) (w lb : Nat) (x : SegCause) (m : Mask) (words : Nat) (d : Reg) (f : Nat → Nat → Word) : State :=
  match d with
  | .v n =>
    let cut := fun (p : Pend) => if (List.range words).any fun k => p.tgt == .vreg (n.toNat + k) then p.within (~~~m) else p
    s.onWarp w fun wp =>
      let wp := (List.range words).foldl (fun (wp : Warp) k =>
        { wp.deliverReg m (n.toNat + k) .general (f k) with poison := clearPoison wp.poison (n.toNat + k) m }.outdoAt x.at_ m (n.toNat + k)) wp
      wp.onSeg lb fun g => { g with cause := g.cause.map fun (x : SegCause) =>
        { x with at_ := { x.at_ with pend := (x.at_.pend.map cut).filter Pend.alive } } }
  | _ => s

/-- The emulated lanes stand at the next slot, and a cause that waited is taken up (R343, R347). -/
def State.emuDone (s : State) (w lb : Nat) : State :=
  (s.onWarp w fun wp => (wp.resumeCause lb true).onSeg lb Seg.nextCause).announce w lb

/-- The effect of a word at which a segment stands is done. -/
def State.emuTold (s : State) (w lb : Nat) : State :=
  s.onWarp w fun wp => wp.onSeg lb fun g => { g with cause := g.cause.map fun (x : SegCause) => { x with told := true } }

/-- The effect of an emulated word: what its present equivalent raises, or the state that it leaves (R94, R358). -/
abbrev Emu := Except Raise State

/-- Emulated reads or writes of the scratchpad window (R94): each lane is judged as its equivalent would be. -/
def State.emuAccess (s : State) (w : Nat) (g : Seg) (m : Mask) (size : Nat) (acc : Access) (ea : Nat → DWord)
    (act : State → Nat → Loc → State) (done : State → State) : Emu :=
  let err := fun l =>
    match s.lanePlace w l acc size (ea l) with
    | .error e => some e
    | .ok p => if acc ≠ .store ∧ s.poisoned p.loc size then some ⟨0xB3, Config.openDetail 0xB3, ea l &&& ~~~31, none⟩ else none
  match (s.warp w).raiseOf m g err ea with
  | some r => .error r
  | none => .ok ((done ((lanesOf m).foldl (fun s l => act s l (s.okPlace w l acc size (ea l)).loc) s)).emuTold w g.lbase)

/-- An emulated signature, with every scale byte 0 and counted by no wait counter (R94): the landing takes it, or the segment raises what `MMA`
raises, or the porter waits for the landing. -/
def State.emuSign (s : State) (w : Nat) (wp : Warp) (g : Seg) (p : Pre) (cell : Nat) (n : BitVec 3) (t : Bool) (sel : BitVec 2)
    (a b k : Reg) : Emu :=
  let m := wp.execMask p
  let lb := g.lbase
  if m = 0 then .ok (s.emuTold w lb)
  else
    let s' := ({ s with cur := w }.setWarp w wp).sign { g with cause := none } m cell n.toNat t sel.toNat a b .vz k
    let wp' := s'.warp w
    let news := fun (h : Seg) => (h.queue.filter fun q => !g.queue.contains q).head?
    if (wp'.clause.bind fun c => c.held).isSome then .ok s
    else match (wp'.segAt lb).bind news with
      | some q => .error { code := q.code, mask := q.mask, detail := q.detail, addrs := q.addrs, logAddr := q.logAddr }
      | none =>
        let mark := fun (d : Landing) =>
          if d.warp = w ∧ d.lbase = lb then
            { d with signers := d.signers.mapV fun l (x : Signer) => if m.getLsbD (lb + l) then { x with committed := true, emulated := true } else x }
          else d
        .ok (({ s with cores := s'.cores, nextNo := s'.nextNo }.onCore (coreOf w) fun c =>
          { c with landings := c.landings.mapIdx fun k d => if k = n.toNat then mark d else d }).emuTold w lb)

/-- The effect of the instruction at which a segment stands with `RETIRED`; nothing changes while it must wait. -/
def State.emuStep (s : State) (w : Nat) (g : Seg) (x : SegCause) (wp : Warp) (i : Instr) : Emu :=
  let lb := g.lbase
  let window := BitVec.ofNat 64 spadWindow
  let spadEa := fun (a : Reg) (off : BitVec 16) l => window + ((wp.val32 a l).setWidth 64 + off.signExtend 64)
  match i with
  | .fdiva p ftz d a b =>
    let m := wp.execMask p
    let val := fun l =>
      let (r, f1) := approxOp .rcp .f32 ftz (wp.val32 b l)
      let (q, f2) := floatOp fmtF32 .mul ftz (wp.val32 a l).toNat r.toNat 0
      (BitVec.ofNat 32 q, f1 ||| f2)
    let s := s.emuWrite w lb x m 1 d fun _ l => (val l).1
    .ok ((s.onWarp w fun wp => { wp with fpflags := wp.fpflags ||| orFlags m fun l => (val l).2 }).emuTold w lb)
  | .ldsp p b128 ty d a off =>
    let m := wp.execMask p
    let size := accessSize b128 ty
    let words := accessWords b128 ty
    let val := fun l =>
      let loc := (s.okPlace w l .load size (spadEa a off l)).loc
      let v := BitVec.ofNat 128 (s.readLoc loc size)
      if words = 1 then (writeInt ty (readInt ty (v.setWidth 64))).setWidth 128 else v
    s.emuAccess w g m size .load (spadEa a off) (fun s _ _ => s) fun s =>
      s.emuWrite w lb x m words d fun k l => (val l).extractLsb' (32 * k) 32
  | .stsp p b128 ty d a off =>
    let size := accessSize b128 ty
    s.emuAccess w g (wp.execMask p) size .store (spadEa a off)
      (fun s l loc => s.perform (some w) loc size (wp.storeValue (accessWords b128 ty) d l).toNat) id
  | .atsp p d a b =>
    let m := wp.execMask p
    let ea := fun l => window + (wp.val32 a l).setWidth 64
    match (s.warp w).raiseOf m g (fun l => s.atomErr w l 4 true (ea l)) ea with
    | some r => .error r
    | none =>
      let start : State × List (Nat × Word) := (s, [])
      let (s, old) := (lanesOf m).foldl (fun (acc : State × List (Nat × Word)) l =>
        let (s, old) := acc
        let loc := (s.okPlace w l .atomic 4 (ea l)).loc
        let v := BitVec.ofNat 32 (s.readLoc loc 4)
        (s.perform (some w) loc 4 (v + wp.val32 b l).toNat, old ++ [(l, v)])) start
      .ok ((s.emuWrite w lb x m 1 d fun _ l => ((old.find? fun q => q.1 == l).map Prod.snd).getD 0).emuTold w lb)
  | .barw p =>
    let m := wp.execMask p
    if m = 0 then .ok (s.emuTold w lb)
    else if g.udepth ≠ 0 then .error { code := 0x3B, mask := g.rel m, detail := 1 }
    else .ok ((s.emuTold w lb).arrive w g m .core ((((s.group g.gid).map Group.vslots).getD 0).setWidth 64))
  | .mma4 p n t sel a b _ k => s.emuSign w wp g p 0xC0 n t sel a b k
  | .mma8 p n t sel a b _ k => s.emuSign w wp g p 0xC3 n t sel a b k
  | _ => .ok (s.emuTold w lb)

/-- Whether a segment whose word has had its effect may go on: its arrival is no more awaited, and behind a switch marker every counter is 0 and
no landing pends (R76, R94). -/
def State.emuFree (s : State) (w : Nat) (g : Seg) (m : Mask) (word : DWord) : Bool :=
  let wp := s.warp w
  !(s.bars.any fun b => !b.done && (lanesOf (g.rel m)).any fun l => b.has g.gid g.idx l) &&
    (!word.getLsbD 63 || (wp.ldCnt == 0 && wp.stCnt == 0 && wp.enCnt == 0 && wp.quCnt == 0 &&
      !(List.range 8).any fun n => s.landingPends w n))

/-- The emulation of the instruction at which a segment stands with `RETIRED`: the word is decoded (R95, R358), then judged as the present
equivalent would be, a poisoned source lane among the causes, the lowest code first (R343, R410); once it has had its effect the segment goes
on, at once or when `BARW` or a switch marker lets it. -/
def State.emulate (s : State) (w lb : Nat) : State :=
  match (s.warp w).segAt lb with
  | none => s
  | some g =>
    match g.cause with
    | none => s
    | some x =>
      let wp := (s.warp w).atCause x
      let word := x.at_.words.getD x.at_.slot 0
      let m := wp.execMask (Fields.pre (Fields.ofWord word))
      let goOn := fun (s : State) => if s.emuFree w g m word then s.emuDone w lb else s
      if x.told then goOn s
      else
        let s := s.onWarp w fun wp' => wp'.onSeg lb fun g => { g with cause := g.cause.map fun (x : SegCause) => { x with after := wp.nextLatch } }
        match decodeAlone word with
        | .error e => s.recause w lb { code := e.1.code, mask := x.mask, detail := e.2 }
        | .ok i =>
          let bad := wp.poisoned word m
          match s.emuStep w g x wp i with
          | .error r => s.recause w lb r
          | .ok t =>
            if bad ≠ 0 then s.recause w lb { code := 0xB3, mask := g.rel bad, detail := Config.openDetail 0xB3 }
            else if (((t.warp w).segAt lb).bind Seg.cause).any SegCause.told then goOn t
            else t

end Sys2Proof.Machine
end

