-- ==== Sys2Proof/Machine/Issue.lean ====
section
/-! DEFINITION. Issue: fetching a clause, admitting it, choosing among warps, executing slot by slot, and what stands between
two slots (R23, R24, R59 to R77, R95, R119, R267, R268, R343, R344, R354, R356, R374, R388, R410). -/

namespace Sys2Proof.Machine

/-! ### Fetching (R66, R164, R356, R410) -/

/-- A word of code fetched by a warp's core: through its instruction cache, a line being read whole when it is not
there, in the place of the oldest when the cache is full (R11, R164, R168, R408); there is no answer while its home slice holds the read (R170,
R172). A poisoned granule cannot be executed (R410). -/
def State.fetchWord (s : State) (w : Nat) (q : Asker) (va : DWord) : Except (Option XErr) (DWord × State) :=
  match s.fetchPlace q va with
  | .error e => .error (some e)
  | .ok pa =>
    let core := coreOf w
    let line := pa / 128
    let s := match s.xlate q .fetch va with
      | .ok x => (s.touch w (some x) false).classify (some w) (some core) x
      | .error _ => s
    let word := fun (bs : List Byte) => wordOfBytes ((bs.drop (pa % 128)).take 8)
    let refused : XErr := ⟨0xB6, Config.openDetail 0xB6, va &&& ~~~31, none⟩
    match (s.core core).icache.find? fun c => c.line == line with
    | some c => if c.bad.contains (pa / 32) then .error (some refused) else .ok (word c.bytes, s)
    | none =>
      if !s.canRead core (.hbm pa) then .error none
      else if s.poisoned (.hbm pa) 8 then .error (some refused)
      else
        let c : CodeLine := ⟨line, s.mem.bytes (line * 128) 128, (granules (line * 128) 128).filter s.poison.contains⟩
        let old := (s.core core).icache.take ((s.core core).icache.length + 1 - s.placesLeft 6 core Config.icacheLines)
        let s := ((s.codeMiss core line).dropCode core old.contains).onCore core fun x => { x with icache := x.icache ++ [c] }
        .ok (word c.bytes, s)

/-- Consecutive words of code. -/
def State.fetchWords (s : State) (w : Nat) (q : Asker) : Nat → DWord → Except (Option XErr) (List DWord × State)
  | 0, _ => .ok ([], s)
  | n + 1, va =>
    match s.fetchWord w q va with
    | .error e => .error e
    | .ok (x, s) =>
      match s.fetchWords w q n (va + 8) with
      | .error e => .error e
      | .ok (xs, s) => .ok (x :: xs, s)

/-- What a fetch set finds at a header: nothing yet, a fault of the fetch, a word that is no header, or a clause. -/
inductive Fetched
  | late
  | fault (e : XErr)
  | bad (h : DWord)
  | clause (h : Header) (words : List DWord) (s : State)

/-- A clause fetched as one unit (R66). -/
def State.fetchClause (s : State) (w lane : Nat) (hdr : DWord) : Fetched :=
  let q := s.laneAsker w lane
  let failed := fun (e : Option XErr) => (e.map Fetched.fault).getD .late
  match s.fetchWord w q hdr with
  | .error e => failed e
  | .ok (hw, s) =>
    let h := Header.ofWord hw
    if h.fault.isSome then .bad hw
    else match s.fetchWords w q (h.cnt.toNat + 1) (hdr + 8) with
      | .error e => failed e
      | .ok (ws, s) => .clause h ws s

/-! ### The fetch set (R23, R24) -/

/-- A fetch set: its lanes, its header, and the slot at which it stands if it does not stand at a header. -/
structure Pick where
  lanes : Mask
  hdr : DWord
  stands : Option ClauseAt
deriving DecidableEq, Repr

/-- The set that holds the lowest runnable lane at or above the rotation pointer (R24). -/
def Warp.pick (wp : Warp) (run : Mask) : Option Pick :=
  match (allLanes.map fun k => (wp.rot + k) % 64).find? fun l => run.getLsbD l with
  | none => none
  | some l =>
    match wp.resume.find? fun a => a.lanes.getLsbD l with
    | some a => some ⟨a.lanes &&& run, a.hdr, some a⟩
    | none =>
      let still := run &&& ~~~wp.resumeMask
      some ⟨maskWhere fun j => still.getLsbD j && wp.pc j == wp.pc l, wp.pc l, none⟩

/-- Whether a unit of a warp's segments is being stopped by pre-emption (R272). -/
def State.stopping (s : State) (w : Nat) : Bool :=
  (s.warp w).segs.any fun g =>
    (((s.group g.gid).bind fun x => s.units.find x.unit).map fun u => u.st == .stopping).getD false

/-- Whether `BKPT` holds a group, or its gang (R127, R345). -/
def State.bkptHeld (s : State) (gid : Nat) : Bool :=
  let gang := ((s.launchOf gid).map Launch.gang).getD false
  let unit := (s.group gid).map Group.unit
  s.warps.any fun q => q.2.segs.any fun g =>
    ((g.cause.map SegCause.code) == some 0x18) &&
      (g.gid == gid || (gang && ((s.group g.gid).map Group.unit) == unit))

/-- The lanes of a warp that may issue while it runs solo after a fault: those that failed, and the others wait, unless none of these can run
(R390). -/
def Warp.soloOnly (wp : Warp) (m : Mask) : Mask :=
  match wp.soloTo with
  | some (_, _, k) => if m &&& k = 0 then m else m &&& k
  | none => m

/-- The lanes of a warp that may issue now: runnable, in no group that `BKPT` holds, and in a warp that pre-emption stops only those that stand
inside a
clause, run in a handler or in a turn of a takeover, or have a deferred cause to take (R23, R272, R345, R378). -/
def State.issuable (s : State) (w : Nat) : Mask :=
  let wp := s.warp w
  let m := wp.runnable s.now
  let on := wp.segs.foldl (fun k g =>
    if g.handler != 0 || (g.queue.any fun x => x.cls == .d) || (g.takeover.any fun t => !wp.turnOver g t) then k ||| g.slots
    else k) wp.resumeMask
  let m := wp.segs.foldl (fun k g => if s.bkptHeld g.gid then k &&& ~~~g.slots else k) m
  wp.soloOnly (if s.stopping w then m &&& on else m)

/-- Whether the wait fields of a header admit a clause of a warp (R68, R73, R75). -/
def State.admits (s : State) (w : Nat) (h : Header) : Bool :=
  let wp := s.warp w
  let le := fun (f : BitVec 4) (n : Nat) => f == 15 || decide (n ≤ f.toNat)
  le h.wld wp.ldCnt && le h.wst wp.stCnt && le h.wen wp.enCnt && (h.wq == 0 || wp.quCnt == 0) &&
    (List.range 8).all fun n => !(h.wmx.getLsbD n && s.landingPends w n)

/-- Whether a core is gated: the porter by itself, a program core with its die (R309). -/
def State.coreGated (s : State) (core : Nat) : Bool :=
  let d := s.die (core / 256)
  if isPorter core then d.porterGated else d.gated

/-- What a warp would issue next, if it is ready (R267): its fetch set and what it finds there. A level-3 warp is held (R380);
a gated core issues nothing. A set that stands inside a clause is not admitted again (R346). -/
def State.wouldIssue (s : State) (w : Nat) : Option (Pick × Option Fetched) :=
  let wp := s.warp w
  if wp.clause.isSome || decide (3 ≤ wp.level) || s.coreGated (coreOf w) then none
  else match wp.pick (s.issuable w) with
    | none => none
    | some k =>
      let l := (firstLane k.lanes).getD 0
      match k.stands with
      | some a =>
        if a.words ≠ [] then some (k, none)
        else match s.fetchClause w l k.hdr with
          | .late => none
          | .clause h ws s' => if a.cls = 7 ∧ !s.admits w h then none else some (k, some (.clause h ws s'))
          | f => some (k, some f)
      | none =>
        match s.fetchClause w l k.hdr with
        | .late => none
        | .clause h ws s' => if s.admits w h then some (k, some (.clause h ws s')) else none
        | f => some (k, some f)

/-- Whether a warp is ready on its port (R267). -/
def State.canGo (s : State) (w : Nat) : Bool := (s.wouldIssue w).isSome

/-- Whether a ready warp may issue: no warp is left for which a `YIELD` makes it wait (R119). -/
def State.ready (s : State) (w : Nat) : Bool :=
  s.canGo w && ((s.warp w).yieldTo.all fun v => !s.canGo v)

/-- `YIELD` (R119): the warp's next clause waits for every other warp of its port that is ready, and its age restarts. -/
def execYieldP (p : Pre) (s : State) : Result :=
  let w := s.cur
  .next (if s.curWarp.execMask p = 0 then s
    else
      let others := s.warps.filter fun q => q.1 ≠ w && coreOf q.1 == coreOf w && portOf q.1 == portOf w && s.canGo q.1
      s.onWarp w fun wp => { wp with yieldTo := others.map Prod.fst, readyAt := none })

/-! ### Port choice (R67, R267 to R269) -/

/-- A warp with the cycle noted since which it has been ready: none for a warp that is not ready (R267). -/
def State.noted (s : State) (w : Nat) (wp : Warp) : Warp :=
  if wp.segs.isEmpty then wp
  else { wp with readyAt := if s.canGo w then some (wp.readyAt.getD s.now) else none }

/-- The readiness of every warp noted, before time passes (R267). -/
def State.noteReady (s : State) : State := { s with warps := s.warps.mapV s.noted }

/-- Whether a warp of a port is between two slots of a clause, none of which is held: the port issues for no other (R67). -/
def State.portBusy (s : State) (core port : Nat) : Bool :=
  s.warps.any fun q => coreOf q.1 == core && portOf q.1 == port &&
    (q.2.clause.map fun c => c.held.isNone && !c.parked).getD false

/-- The priority class of a warp: that of the group whose lane is served first (R32, R225). -/
def State.baseClass (s : State) (w : Nat) : Nat :=
  match (s.warp w).pick (s.issuable w) with
  | none => 0
  | some k =>
    match (firstLane k.lanes).bind fun l => (s.warp w).segOf l with
    | none => 0
    | some g => ((s.launchOf g.gid).map Launch.prio).getD 0

/-- The warps of a port that hold segments. -/
def State.portWarps (s : State) (core port : Nat) : List Nat :=
  (s.warps.filter fun q => coreOf q.1 == core && portOf q.1 == port && !q.2.segs.isEmpty).map Prod.fst

/-- On a port, readiness noted, and warps that a `YIELD` waits for and that are no longer ready forgotten (R119, R267). -/
def State.refresh (s : State) (core port : Nat) : State :=
  (s.portWarps core port).foldl (fun t w =>
    t.onWarp w fun wp => { s.noted w wp with yieldTo := wp.yieldTo.filter s.canGo }) s

/-- The due polls of a warp that compete at its port, if its core is not gated and it is not held (R269, R380). -/
def State.pollOf (s : State) (w : Nat) : Option PollSet :=
  if decide (3 ≤ (s.warp w).level) || s.coreGated (coreOf w) then none else (s.warp w).pollSet s.now

/-- By how much the poll interval lowers a poll's class (R269). -/
def pollLowering (interval : Nat) : Nat := if interval < 256 then 0 else if interval < 2048 then 1 else 2

/-- The effective class and the age of a candidate of a port: a warp's next clause, or its poll (R268, R269). -/
def State.rankOf (s : State) (c : Nat × Bool) : Nat × Nat :=
  if c.2 then
    match s.pollOf c.1 with
    | none => (0, 0)
    | some p =>
      let base := (((firstLane p.lanes).bind fun l => (s.warp c.1).segOf l).bind fun g => (s.launchOf g.gid).map Launch.prio).getD 0
      let age := s.now - p.due
      (min 3 (base + age / 512 - pollLowering p.interval), age)
  else
    let age := s.now - (s.warp c.1).readyAt.getD s.now
    (min 3 (s.baseClass c.1 + age / 512), age)

/-- The candidates of a port: its ready warps, and its warps with a due poll (R267, R269). -/
def State.portCands (s : State) (core port : Nat) : List (Nat × Bool) :=
  let ws := s.portWarps core port
  (ws.filter s.ready).map (fun w => (w, false)) ++ (ws.filter fun w => (s.pollOf w).isSome).map fun w => (w, true)

/-- The candidate that comes first: effective class, then age, then round robin (R268, R269). -/
def State.firstReady (s : State) (core port : Nat) : Option (Nat × Bool) :=
  let rr := (s.core core).rr.getD port 0
  let key := fun c : Nat × Bool =>
    let r := s.rankOf c
    (r.1, r.2, 8 - (slotOf c.1 % 8 + 8 - rr) % 8)
  let before := fun (a b : Nat × Nat × Nat) =>
    a.1 < b.1 ∨ (a.1 = b.1 ∧ (a.2.1 < b.2.1 ∨ (a.2.1 = b.2.1 ∧ a.2.2 < b.2.2)))
  (s.portCands core port).foldl (fun (b : Option (Nat × Bool)) c =>
    match b with
    | none => some c
    | some v => if before (key v) (key c) then some c else some v) none

/-- `PORT_ISSUE_CHOICE` (R268, R269). -/
def execPortIssueChoice (core port : Nat) (s : State) : Result :=
  .next (if s.portBusy core port then s
    else
      let s := s.refresh core port
      match s.firstReady core port with
      | none => s.onCore core fun c => { c with chosen := setAt c.chosen port none }
      | some w => s.onCore core fun c =>
        { c with chosen := setAt c.chosen port (some w), rr := setAt c.rr port ((slotOf w.1 % 8 + 1) % 8) })

/-- `WAIT_POLL` (R120, R121, R269): the first poll of a `WAIT` belongs to its own issue; a later one issues when the port has chosen it, for
every due lane of the fetch set, and takes the port for one slot. A warp held at level 3 polls nothing (R380). -/
def execWaitPoll (w : Nat) (s : State) : Result :=
  let first := ((s.warp w).duePolls s.now).filter fun q => q.2.interval == 0
  .next (if 3 ≤ (s.warp w).level then s
    else if first ≠ [] then s.pollLanes w (first.map Prod.fst)
    else if (s.core (coreOf w)).chosen.getD (portOf w) none ≠ some (w, true) then s
    else
      match (s.warp w).pollSet s.now with
      | none => s.dropChoice w
      | some p => ((s.dropChoice w).pollLanes w (lanesOf p.lanes)).noteReady.tick 1)

/-! ### Issue of a clause -/

/-- A clause as it starts to issue. -/
def Warp.startClause (wp : Warp) (a : ClauseAt) : Warp :=
  let c : Clause := ⟨a, none, 0, false, false, wp.checkpoint none, 0, 0, none, false⟩
  { wp with clause := some c }

/-- Lanes that no longer stand at a slot. -/
def Warp.leaveResume (wp : Warp) (m : Mask) : Warp :=
  { wp with resume := (wp.resume.map fun (r : ClauseAt) => { r with lanes := r.lanes &&& ~~~m }).filter fun r => r.lanes != 0 }

/-- Lanes that take a cause at a slot before anything of it issues: the segments' records stand there, and the lanes leave
their resume entry. -/
def State.takeStanding (s : State) (w : Nat) (a : ClauseAt) (rs : List (Nat × Raise)) : State :=
  let s := s.onWarp w fun wp =>
    (wp.leaveResume a.lanes).startClause a
  (s.takeAll w rs).onWarp w fun wp => { wp with clause := none }

/-- A fetch fault, or a bad header reached by fall-through, taken by every segment of the set (R343, R354, R356). -/
def State.fetchFault (s : State) (w : Nat) (k : Pick) (code : Nat) (detail : Word) (addr : DWord) (pc : Option DWord) : State :=
  let wp := s.warp w
  let a : ClauseAt := (k.stands.map fun a => { a with lanes := k.lanes }).getD ⟨k.hdr, 7, 0, [], k.lanes, 0, [], []⟩
  s.takeStanding w a (wp.raises k.lanes fun g => some
    { code := code, mask := g.rel k.lanes, detail := detail
      addrs := (List.range g.width).map fun l => if (g.rel k.lanes).getLsbD l then addr else 0
      logAddr := addr, logPc := pc.getD 0 })

/-- A word that is no header (R354): lanes that came by a transfer raise `TARGET_BAD` at its slot, one transfer at a time in
each segment; the others raise the cause of the header. DEDUCED (assumption 104): lanes that a `vpc` or an usher event brought there, whose
transfer has had its effect, raise `TARGET_BAD` at the word itself. -/
def State.badHeader (s : State) (w : Nat) (k : Pick) (hw : DWord) : State :=
  let wp := s.warp w
  let code := if (Header.ofWord hw).fault = some .cls then 0x02 else 0x03
  (wp.segsIn k.lanes).foldl (fun s g =>
    let mine := g.slots &&& k.lanes
    match (lanesOf mine).findSome? fun l => (wp.via.find l).map fun v => v with
    | some v =>
      let m := maskWhere fun l => mine.getLsbD l && wp.via.find l == some v
      s.takeStanding w (if v = viaVpc then ⟨k.hdr, 7, 0, [], m, 0, [], []⟩ else ⟨v.1, 0, v.2, [], m, v.2, [], []⟩) [(g.lbase,
        { code := 0x04, mask := g.rel m, detail := hiWord hw
          addrs := (List.range g.width).map fun l => if (g.rel m).getLsbD l then k.hdr else 0 })]
    | none =>
      s.takeStanding w ⟨k.hdr, 7, 0, [], mine, 0, [], []⟩
        [(g.lbase, { code := code, mask := g.rel mine, detail := hiWord hw })]) s

/-- A deferred cause of a segment taken at the boundary at which its set issues (R344). -/
def State.takeDeferred (s : State) (w : Nat) (a : ClauseAt) : State :=
  ((s.warp w).segsIn a.lanes).foldl (fun s g =>
    match g.queue.find? fun x => x.cls = .d with
    | some x =>
      if g.cause.isSome || g.record.isSome then s
      else
        let m := g.rel a.lanes
        let s := s.onWarp w fun wp => wp.onSeg g.lbase fun h => { h with
          queue := h.queue.erase x
          cause := some { x with
            at_ := { a with lanes := a.lanes &&& h.slots }, lanes := m, mask := m, logPc := a.hdr, since := s.now } }
        s.announce w g.lbase
    | none => s) s

/-- The lanes of a set that a cause keeps from issuing. -/
def Warp.stoppedIn (wp : Warp) (m : Mask) : Mask := wp.segs.foldl (fun k g => k ||| (g.abs g.stopped &&& m)) 0

/-- `PRIV_CLAUSE` for lanes at program grade in a `sys` clause (R71, R354). -/
def Warp.privRaises (wp : Warp) (a : ClauseAt) (detail : Word) : List (Nat × Raise) :=
  if a.cls ≠ 5 then []
  else wp.raises a.lanes fun g =>
    let m := g.rel (maskWhere fun l => g.hasLane l && a.lanes.getLsbD l && g.grade l == .program)
    if m = 0 then none else some { code := 0x07, mask := m, detail := detail }

/-- A clause that the present lane of a takeover issues counts in its turn (R376). -/
def Seg.countTurn (g : Seg) (m : Mask) : Seg :=
  { g with takeover := g.takeover.map fun (t : Takeover) =>
      match firstLane t.left with
      | some l => if (g.rel m).getLsbD l then { t with clauses := t.clauses + 1 } else t
      | none => t }

/-- The set's clause begins: its lanes' program counters name the next header, the rotation pointer passes the set, and the warp's age
starts again (R24, R69, R267). -/
def Warp.beginClause (wp : Warp) (a : ClauseAt) : Warp :=
  let wp := (if a.slot = 0 then wp.closeRes a.hdr a.lanes else wp).startClause a
  let next := a.hdr + BitVec.ofNat 64 (8 * (a.cnt + 2))
  let top := (lanesOf a.lanes).getLastD 0
  let wp := (wp.setPcs a.lanes fun _ => next).leaveResume a.lanes
  { wp with
    via := wp.via.filter fun v => !a.lanes.getLsbD v.1
    rot := (top + 1) % 64
    readyAt := none
    yieldTo := []
    segs := wp.segs.map fun (g : Seg) => g.countTurn a.lanes }

/-- A fetch set issues its clause, or takes the causes that keep it from doing so. -/
def State.issueSet (s : State) (w : Nat) (k : Pick) (f : Option Fetched) : State :=
  match f with
  | some .late => s
  | some (.fault e) => s.fetchFault w k e.code e.detail e.addr e.pc
  | some (.bad hw) => s.badHeader w k hw
  | some (.clause h ws s) =>
    let a : ClauseAt := match k.stands with
      | some a => { a with cls := h.cls, cnt := h.cnt.toNat, words := ws, lanes := k.lanes }
      | none => ⟨k.hdr, h.cls, h.cnt.toNat, ws, k.lanes, 0, [], []⟩
    let s := if a.slot = 0 then s.takeDeferred w a else s
    let a := { a with lanes := a.lanes &&& ~~~(s.warp w).stoppedIn a.lanes }
    let rs := (s.warp w).privRaises a (hiWord h.toWord)
    let s := if rs = [] then s else s.takeStanding w { a with lanes := (s.warp w).stoppedBy rs &&& a.lanes } rs
    let a := { a with lanes := a.lanes &&& ~~~(s.warp w).stoppedIn a.lanes }
    if a.lanes = 0 then s
    else { s.onWarp w fun wp => wp.beginClause a with cur := w }
  | none =>
    match k.stands with
    | some a => { s.onWarp w fun wp => wp.beginClause { a with lanes := k.lanes } with cur := w }
    | none => s

/-- The warps of the port that a `YIELD` makes wait for a warp wait for it no more: it issues (R119). -/
def State.dropYields (s : State) (w : Nat) : State :=
  (s.portWarps (coreOf w) (portOf w)).foldl (fun s v =>
    s.onWarp v fun wp => { wp with yieldTo := wp.yieldTo.filter fun x => x ≠ w }) s

/-- `CLAUSE_ISSUE` (R24, R75): the warp that its port has chosen issues its next clause. -/
def execClauseIssue (w : Nat) (s : State) : Result :=
  .next (if (s.core (coreOf w)).chosen.getD (portOf w) none ≠ some (w, false) ∨ s.portBusy (coreOf w) (portOf w) then s
    else
      let t := (s.dropChoice w).dropYields w
      match t.wouldIssue w with
      | none => s.dropChoice w
      | some (k, f) => t.issueSet w k f)

/-! ### Slots (R59, R61, R67, R76) -/

/-- What happens next at the slot of the warp that issues. -/
inductive SlotAct
  /-- The slot's instruction executes. -/
  | run (i : Instr) (s : State)
  /-- The slot is over without an instruction having executed. -/
  | done (s : State)

/-- Whether a solo pass up to a slot is over as a clause ends: the clause has gone past the slot, where no lane waits any more, or the lanes have
exited (R390). -/
def Warp.soloDone (wp : Warp) (a : ClauseAt) (hdr : DWord) (slot : Nat) (m : Mask) : Bool :=
  (hdr == a.hdr && decide (slot < a.slot) && !wp.holds.any fun h => m.getLsbD h.1 && h.2.hdr == hdr && h.2.slot == slot) || m &&& wp.live == 0

/-- The clause of a warp ends (R62): every result of it is visible, and a solo pass whose slot lies behind it is over (R390). -/
def Warp.endClause (wp : Warp) : Warp :=
  match wp.clause with
  | none => wp
  | some c =>
    { wp.finish c.at_ with clause := none, soloTo := wp.soloTo.filter fun x => !wp.soloDone c.at_ x.1 x.2.1 x.2.2 }

/-- Whether a word ends a turn of lanes for good or parks them (R374). -/
def endsTurn (word : DWord) : Bool :=
  let opc := (Fields.ofWord word).opc
  opc == 0x07 || opc == 0x0A || opc == 0x0B

/-- Takeover reason 2 (R374): live lanes remain in a segment, none runnable, none held by a wait. A segment that the usher has
lost all its lanes in leaves the usher. -/
def State.checkStuck (s : State) (w : Nat) (m : Mask) : State :=
  ((s.warp w).segsIn m).foldl (fun s g =>
    let wp := s.warp w
    match wp.segAt g.lbase with
    | none => s
    | some g =>
      let live := g.slots &&& wp.live
      if live ≠ 0 ∧ wp.runnableIn g = 0 ∧ live &&& wp.heldMask = 0 ∧ g.stopped = 0 ∧ g.record.isNone ∧ g.takeover.isNone then
        (s.onWarp w fun wp => wp.onSeg g.lbase fun h => { h with udepth := 0 }).startTakeover w g.lbase 2
      else s) s

/-- What follows a slot that has executed (R60, R62, R76, R201, R374): it started in state `s`, and `t` is the state after
it. A held slot stays; else the next slot stands, or the clause is over. -/
def State.afterSlot (s t : State) (word : DWord) : State :=
  let w := s.cur
  let wp := t.warp w
  match wp.clause, s.curWarp.clause with
  | some c, some c0 =>
    if c.held.isSome then t
    else
      let sw := word.getLsbD 63
      let wasOpen := s.curWarp.window.isSome
      let parked := sw && c.at_.lanes != 0
      let c' : Clause := { c with
        at_ := { c.at_ with slot := c.at_.slot + 1, latch := s.curWarp.nextLatch }
        parked := parked
        turns := 0
        resId := 0
        heldSince := none
        stallTold := false }
      let t := t.setWarp w { wp with
        clause := some c'
        window := wp.window.map fun (x : Window) => if wasOpen then { x with instrs := x.instrs + 1 } else x }
      if parked then t
      else if c'.at_.lanes = 0 ∨ c'.at_.cnt < c'.at_.slot then
        let t := t.onWarp w Warp.endClause
        if endsTurn word then t.checkStuck w c0.at_.lanes else t
      else t
  | _, _ => t

/-- The causes that a word which does not decode raises in every segment of the fetch set (R95, R343, R354). -/
def State.refuseWord (s : State) (code : Nat) (detail : Word) : State :=
  let wp := s.curWarp
  s.takeAll s.cur (wp.raises wp.setMask fun g => some { code := code, mask := g.rel wp.setMask, detail := detail })

/-- The state in which the current slot executes: results that are due are visible (R61), and the slot's bubbles have passed
(R59). -/
def State.atSlot (s : State) : State :=
  let wp := s.curWarp
  match wp.clause with
  | none => s
  | some c =>
    let (wp, rest) := wp.applyDue c.at_.pend c.at_.slot
    let wp := wp.outdo c.at_.hdr (c.at_.pend.filter fun p => decide (p.due ≤ c.at_.slot))
    let wp := { wp with clause := some { c with at_ := { c.at_ with pend := rest } } }
    (s.noteReady.setWarp s.cur wp).tick (wp.bubbles wp.curWord + 1)

/-- Whether the current warp stands at a slot that may execute now (R67, R76). -/
def State.slotReady (s : State) : Bool :=
  match s.curWarp.clause with
  | none => false
  | some c => c.held.isNone && !c.parked

/-- What the current slot does (R95, R201): a full window holds it; a word that does not decode raises its cause, a retired
cell `RETIRED`; any other word executes. -/
def State.slotAct (s : State) : SlotAct :=
  let t := s.atSlot
  let wp := t.curWarp
  let a := wp.clauseAt
  let word := wp.curWord
  if decide (Config.winInstrs ≤ ((wp.window.map Window.instrs).getD 0)) then .done (t.holdSlot t.cur .window)
  else match decodeWord a.cls a.slot (a.slot == a.cnt) word with
    | .ok i => .run i t
    | .error (e, detail) =>
      let retired := ((cellRow (Fields.ofWord word).opc.toNat).map CellRow.retired).getD false
      let early := e == .illOpc || e == .classMix || e == .endSlot
      .done (t.afterSlot (if retired && !early then t.retire else t.refuseWord e.code detail) word)

/-- The executing lanes of the current slot that read a poisoned register, and in whose segments the slot, as executed, has
raised nothing of a lower code (R343, R410). -/
def State.poisonHits (s t : State) : Mask :=
  let wp := s.curWarp
  let m := wp.poisoned wp.curWord (wp.execMask (Fields.pre (Fields.ofWord wp.curWord)))
  if m = 0 then 0
  else wp.segs.foldl (fun k g =>
    match (t.warp s.cur).segAt g.lbase with
    | some h => if h.cause = g.cause ∧ h.queue = g.queue then k ||| (g.slots &&& m) else k
    | none => k) 0

/-- `POISON_DATA` taken for register lanes (R410). -/
def State.poisonTaken (s : State) (m : Mask) : State :=
  s.takeAll s.cur (s.curWarp.raises m fun g => some { code := 0xB3, mask := g.rel m, detail := Config.openDetail 0xB3 })

/-- `SWITCH_RESUME` (R76): every counter of the parked warp is 0 and every landing that it signed is complete. -/
def execSwitchResume (w : Nat) (s : State) : Result :=
  let wp := s.warp w
  .next (match wp.clause with
    | none => s
    | some c =>
      if !c.parked || wp.ldCnt != 0 || wp.stCnt != 0 || wp.enCnt != 0 || wp.quCnt != 0 ||
          (List.range 8).any (fun n => s.landingPends w n) then s
      else
        let s := s.onWarp w fun wp => { wp with clause := some { c with parked := false } }
        if c.at_.cnt < c.at_.slot then
          let s := s.onWarp w Warp.endClause
          if endsTurn (c.at_.words.getD c.at_.cnt 0) then s.checkStuck w c.at_.lanes else s
        else { s with cur := w })

end Sys2Proof.Machine
end

