-- ==== Sys2Proof/Machine/Coherence.lean ====
section
/-! DEFINITION. The events of caches, directories, leases and the lease clock, each on its own (R165 to R173, R202, R385 to
R387). The reads, writes and commits of other files make the same changes as part of themselves. -/

namespace Sys2Proof.Machine

/-- A read of a line that a warp of a core waits for: the warp, the lane, the address and the hint (R200, R217). -/
def State.waitRead (s : State) (core line : Nat) : Option (Nat × Nat × DWord × Hint) :=
  s.warps.findSome? fun q => if coreOf q.1 ≠ core then none else ((q.2.window.map Window.evs).getD []).findSome? fun e =>
    match e with
    | .rd res lane va (.hbm pa) _ none =>
      if pa / 128 = line then some (q.1, lane, va, ((q.2.results.find? fun r => r.id == res).map Res.hint).getD .none) else none
    | _ => none

/-- A miss for a read that waits: the class of its page changes first, and while that change waits so does the miss (R167, R170, R172). -/
def State.missFor (s : State) (core line : Nat) (miss : State → Hint → Bool → State) : State :=
  match s.waitRead core line with
  | none => s
  | some (w, lane, va, hint) =>
    if !s.canRead core (.hbm (line * 128)) ∨ Config.physTop ≤ line * 128 then s
    else
      let s := s.classAccess w lane va
      if s.classWaits w (s.xlatOf w lane va) then s else miss s hint (s.privAccess w lane va)

/-- `L1_READ_MISS` (R166): a read miss on a locally homed line. -/
def execL1ReadMiss (core line : Nat) (s : State) : Result :=
  .next (if homeDie (line * 128) = core / 256 ∧ (s.l1.find (l1Key core line)).isNone then
      s.missFor core line fun s hint priv => s.readMissLocal core line hint priv
    else s)

/-- `ANNEX_MISS` (R168, R169): a read miss on a line of another die. -/
def execAnnexMiss (core line : Nat) (s : State) : Result :=
  .next (if homeDie (line * 128) ≠ core / 256 then s.missFor core line fun s hint _ => s.readMissRemote core line hint else s)

/-- The warp of a core whose commit has been granted a line (R204). -/
def State.commitGranted (s : State) (core line : Nat) : Option Nat :=
  (s.warps.find? fun q => coreOf q.1 == core && s.granted (.commit q.1) line).map Prod.fst

/-- `OWNERSHIP_GRANT` (R166, R204): once every lease on the line has expired and nothing waits there before the claim of the core's commit,
every other copy is invalidated and the core holds the line Owned. -/
def execOwnershipGrant (core line : Nat) (s : State) : Result :=
  .next (match s.commitGranted core line with
    | none => s
    | some w =>
      if homeDie (line * 128) ≠ core / 256 ∨ (s.dir line).owner = some (core % 256) then s
      else
        let way := ((s.l1.find (l1Key core line)).map L1Line.way).getD ⟨.none, s.now⟩
        let s := s.invalidateAll (some w) line (core % 256)
        { s with directory := s.directory.put line ⟨0, some (core % 256)⟩ }.putL1 core line ⟨true, false, false, false, way⟩)

/-- `INVALIDATION` (R166, R202): a core gives up its copy of a line that another core of the die is granted Owned, acknowledges at
once, and its windows are tested. -/
def execInvalidation (core line : Nat) (s : State) : Result :=
  let wanted := s.warps.any fun q => coreOf q.1 ≠ core && dieOf q.1 == core / 256 && s.granted (.commit q.1) line
  .next (if !wanted || (s.l1.find (l1Key core line)).isNone then s
    else
      let d := s.dir line
      let s := s.hitWhere fun k x => coreOf k == core && x.sig.getLsbD (Loc.hbm (line * 128)).sig
      { s with
        l1 := s.l1.del (l1Key core line)
        directory := s.directory.put line
          ⟨d.sharers &&& ~~~(BitVec.ofNat 128 (2 ^ (core % 256))), d.owner.filter fun k => k ≠ core % 256⟩ })

/-- `L1_EVICTION` (R166): silent when Shared; with a write-back when Owned, after which no L1 owns the line. A fill evicts the line that
replacement names (R217); this row evicts any line, which an L1 may do at any time. -/
def execL1Eviction (core line : Nat) (s : State) : Result := .next (s.evictL1 core line)

/-- `LEASE_EXPIRY` (R169, R171): the line is no longer usable, and windows of the die that read it take a hit, whether the annex still holds the
line under that lease or has given it up before. -/
def execLeaseExpiry (die line : Nat) (s : State) : Result :=
  let done := fun (e : Nat) => decide (e ≤ s.leaseClock.toNat)
  let ended := fun (q : Nat × Nat) => q.1 == annexKey die line && done q.2
  .next (if (s.annex.find (annexKey die line)).any (fun x => done x.expiry) || s.spent.any ended then
      let t := { s with spent := s.spent.filter fun q => !ended q }
      if (s.annex.find (annexKey die line)).any fun x => done x.expiry then t.expireLine die line else t.hitLease die line
    else s)

/-- Whether a window has read a remote-homed line (R172). -/
def Window.readRemote (x : Window) (die : Nat) : Bool :=
  x.evs.any fun e =>
    match e with
    | .rd _ _ _ l _ (some _) => l.remote die
    | _ => false

/-- A wrap passes over the annex of a die (R172, R173, R385): awake, it loses every line; asleep, it keeps its lines until the
third wrap, at which the lodge clears them. -/
def State.wrapDie (s : State) (d : Nat) : State :=
  let x := (s.die d).sleep
  if !x.asleep then s.dropAnnexLines d fun _ => true
  else
    let s := if x.passed + 1 = 3 then s.dropAnnexLines d fun _ => true else s
    s.onDie d fun y => { y with sleep := { y.sleep with passed := y.sleep.passed + 1 } }

/-- Whether a remote request is in flight as a wrap counts them (R172, R385): it has reached its home slice and is held there under R170 neither
by a lease nor by another request; for a commit, its writes, once it holds every line. -/
def State.inFlight (s : State) (o : HomeOp) : Bool :=
  o.loc.remote o.die && o.stage != .unsent &&
    match o.fn with
    | .claim (.commit w) => (((s.warp w).window.map (s.warp w).commitNeeds).getD []).all fun l => s.granted (.commit w) l
    | .claim c => s.granted c o.loc.line
    | _ => s.leaseFree o.loc.line && s.nextAt o.loc.line == some o

/-- Whether a die has a remote request in flight (R172). -/
def State.remoteLeft (s : State) (die : Nat) : Bool := s.homeOps.any fun o => o.die == die && s.inFlight o

/-- Where a request stands after a wrap (R385, R386): one of a die that is late is outstanding; another operation at its home slice is performed
in the order of arrival. -/
def State.wrapStage (s : State) (late : List Nat) (o : HomeOp) : HomeOp :=
  if late.contains o.die && s.inFlight o then { o with stage := .late }
  else match o.fn, o.stage with
  | .claim _, _ => o
  | _, .unsent => o
  | _, .late => o
  | _, _ => { o with stage := .held }

/-- Steps 3 and 4 of the wrap (R172, R385): warps that have read a remote-homed line roll back, uncounted; the dies that are late keep what is
outstanding. -/
def State.wrap (s : State) (late : List Nat) : State :=
  let s := { s with homeOps := s.homeOps.map (s.wrapStage late) }
  let s := (List.range 4).foldl State.wrapDie s
  let hit := (s.warps.filter fun q => (q.2.window.map fun x => x.readRemote (dieOf q.1)).getD false).map Prod.fst
  let s := hit.foldl (fun s w => s.rollBack w false) s
  { s with leases := [], spent := [], leaseClock := 0, wrapCount := s.wrapCount + 1, wrapAt := none }

/-- `LEASE_WRAP` (R172): the remote requests in flight complete before the wrap. -/
def execLeaseWrap (s : State) : Result :=
  .next (if s.wrapAt.isSome && !(List.range Config.dies).any s.remoteLeft then s.wrap [] else s)

/-- `WRAP_STALL` (R386): a die that has not drained within 2,048 cycles is overtaken by the wrap, with every other that has not; each is posted,
and keeps its remote requests held until what is outstanding is complete and the host releases them. -/
def execWrapStall (die : Nat) (s : State) : Result :=
  .next (match s.wrapAt with
    | none => s
    | some t =>
      let late := (List.range Config.dies).filter s.remoteLeft
      if s.now < t + 2048 ∨ !late.contains die then s
      else late.foldl (fun s d =>
        let (k, s) := s.hold 0 (.die d)
        (s.onDie d fun x => { x with wrapLate := true }).post 0xAD { hold := k, detail := BitVec.ofNat 32 d, die := d }) (s.wrap late))

/-- `ANNEX_WAKE` (R173, R387). An annex that has not woken when it has to serve a request wakes first. -/
def execAnnexWake (die : Nat) (s : State) : Result := .next (if (s.die die).gated then s else s.wakeAnnex die)

end Sys2Proof.Machine
end

