-- ==== Sys2Proof/Machine/Concourse.lean ====
section
/-! DEFINITION. The concourse: units, packing, placement, stealing, the end of groups and units (R25 to R32, R53, R58, R118, R190,
R194, R224, R259 to R265, R281, R290, R347, R397, R408). -/

namespace Sys2Proof.Machine

/-! ### Units (R259) -/

/-- The groups of one gang, or one group. -/
def Launch.gangSize (l : Launch) : Nat := if l.gang then l.gm * l.gn else 1

/-- The number of units of a launch: its gangs, its groups, or one co-resident set. -/
def Launch.unitCount (l : Launch) : Nat :=
  if l.gangUnits then l.groups / l.gangSize
  else if !l.gang && l.reach == .core then l.groups
  else 1

/-- The `sr.grp` of the groups of unit `k`. -/
def Launch.unitGroups (l : Launch) (k : Nat) : List Nat :=
  if l.gangUnits then (List.range l.gangSize).map (k * l.gangSize + ·)
  else if !l.gang && l.reach == .core then [k]
  else List.range l.groups

/-! ### What is free on a core (R261, R262) -/

/-- Whether a core takes groups at all: a program core that is not retired, once firmware has started; a gated one is woken by its first
work (R10, R309, R408, R413). -/
def State.coreUsable (s : State) (core : Nat) : Bool :=
  decide (core / 256 < Config.dies ∧ core % 256 < Config.coresPerDie) && s.lodge.coresUp &&
    !(s.retired.any fun q => q.1 == core / 256 && q.2.1 == 10 && q.2.2.toNat == core)

/-- A range of lanes in use: slot, base, width, text and context of its code object. -/
structure LaneUse where
  slot : Nat
  lbase : Nat
  width : Nat
  text : DWord
  ctx : Nat
deriving DecidableEq, Repr

/-- The lanes in use on a core. -/
def State.lanesUsed (s : State) (core : Nat) : List LaneUse :=
  s.warps.flatMap fun q =>
    if coreOf q.1 = core then
      q.2.segs.map fun g => ⟨slotOf q.1, g.lbase, g.width, ((s.launchOf g.gid).map Launch.text).getD 0, s.ctxOf g.gid⟩
    else []

/-- Whether `width` lanes at `lb` of a slot are free. -/
def lanesFree (us : List LaneUse) (k lb width : Nat) : Bool :=
  us.all fun u => u.slot != k || decide (lb + width ≤ u.lbase ∨ u.lbase + u.width ≤ lb)

/-- The slot and base for a segment (R262); for a resumed one at its saved base (R273). -/
def slotFor (us : List LaneUse) (width : Nat) (text : DWord) (ctx : Nat) (lb : Option Nat) : Option (Nat × Nat) :=
  let used := fun k => us.any fun u => u.slot == k
  let same := fun k => us.all fun u => u.slot != k || (u.width == width && u.text == text && u.ctx == ctx)
  match lb with
  | some b => ((List.range 16).find? fun k => same k && lanesFree us k b width).map fun k => (k, b)
  | none =>
    let packed := if width = 64 then none else
      (List.range 16).findSome? fun k =>
        if used k && same k then
          (((List.range (64 / width)).map (· * width)).find? fun b => lanesFree us k b width).map fun b => (k, b)
        else none
    match packed with
    | some x => some x
    | none => ((List.range 16).find? fun k => !used k).map fun k => (k, 0)

/-- Slots and bases for the segments of a group, in ascending `sr.seg`. -/
def slotsFor (width : Nat) (text : DWord) (ctx : Nat) : List LaneUse → List (Option Nat) → Option (List (Nat × Nat))
  | _, [] => some []
  | us, b :: bs =>
    match slotFor us width text ctx b with
    | none => none
    | some (k, lb) => (slotsFor width text ctx (us ++ [⟨k, lb, width, text, ctx⟩]) bs).map fun r => (k, lb) :: r

/-- The tiles of a core that no group holds. -/
def State.freeTiles (s : State) (core : Nat) : List Nat :=
  (List.range 2).filter fun t => (s.tile core t).owner.isNone

/-- The queues of a core in use (R222). -/
def State.queuesUsed (s : State) (core : Nat) : Nat :=
  s.groups.foldl (fun n q => if q.2.placed && q.2.core == core then n + q.2.queues.length else n) 0

/-- Empty warp slots of a core, and of several. -/
def State.emptySlots (s : State) (core : Nat) : Nat :=
  ((List.range 16).filter fun k => (s.warp (core * 16 + k)).segs.isEmpty).length

/-- Where a group would stand on a core, the galleries that are evicted first, and whether evictions have to end first (R193, R261). -/
structure Fit where
  slots : List (Nat × Nat)
  tiles : List Nat
  evict : List Nat
  waits : Bool
deriving DecidableEq, Repr

/-- Whether a core can take a group, and where its segments and tiles would stand, and the galleries to evict first (R261). -/
def State.fit (s : State) (core : Nat) (l : Launch) (bases : List (Option Nat)) : Option Fit :=
  if !s.coreUsable core then none
  else match slotsFor l.width l.text l.ctx (s.lanesUsed core) bases, s.evictPlan core l.spu false with
    | some ks, some es =>
      if (s.freeTiles core).length < l.acc ∨ 16 < s.queuesUsed core + l.kern.queues.length then none
      else some ⟨ks, (s.freeTiles core).take l.acc, es, es != [] || (freeRange (s.spadUsed core []) l.spu).isNone⟩
    | _, _ => none

/-! ### Placing one group -/

/-- A segment at its first placement (R40, R58, R374). -/
def Seg.fresh (gid idx slot lb : Nat) (l : Launch) : Seg where
  lbase := lb
  width := l.width
  gid := gid
  idx := idx
  vslot := slot
  lmask := lowMask l.width
  lpark := 0
  vpc := List.replicate l.width l.entry
  evt := ⟨0, 0, 0⟩
  etaken := 0
  udepth := 0
  olmask := 0
  ovpc := List.replicate l.width 0
  oevt := ⟨0, 0, 0⟩
  oetaken := 0
  usher := 0
  urun := 0
  ubase := l.kern.ubase
  tbase := l.kern.tbase
  bancnt := 64
  dropcnt := 0
  firmware := false
  handler := 0
  record := none
  cause := none
  queue := []
  notices := []
  notBefore := 0
  progress := true
  bc := 0
  takeover := none
  tripped := false

/-- A segment put into segments in ascending base. -/
def insertSeg (g : Seg) (l : List Seg) : List Seg := l.filter (fun h => h.lbase < g.lbase) ++ g :: l.filter fun h => g.lbase < h.lbase

/-- Lanes of a register file set to words in the registers' present shapes (R53). -/
def setLanes (m : Mask) (regs : List VReg) (f : Nat → Nat → Word) : List VReg :=
  regs.mapIdx fun n r =>
    if r.tag = .void then r else { r with lanes := allLanes.map fun l => if m.getLsbD l then f n l else r.word l }

/-- A segment joins a checkpoint, so that a rollback does not lose it. -/
def Checkpoint.join (k : Checkpoint) (g : Seg) (pcs : List DWord) : Checkpoint :=
  { k with
    regs := setLanes g.slots k.regs fun _ _ => 0
    preds := k.preds.map fun p => p &&& ~~~g.slots
    pcs := allLanes.map fun l => if g.hasLane l then pcs.getD (l - g.lbase) 0 else k.pcs.getD l 0
    live := k.live ||| g.slots
    segs := insertSeg g k.segs
    resume := k.resume.map ClauseAt.joined
    at_ := k.at_.map ClauseAt.joined
    via := k.via.filter fun v => !g.hasLane v.1
    poison := k.poison.filter fun p => !g.hasLane (p % 64) }

/-- The writes under way in a slot that another segment comes into (R54). -/
def Warp.joined (wp : Warp) : Warp :=
  let wp := wp.onClauses ClauseAt.joined
  { wp with results := wp.results.map fun (r : Res) => { r with cover := r.cover.joined } }

/-- A segment stands in a warp slot: its registers are 0 in their present shapes, its predicates 0, its lanes live (R52, R53); what is under way
does not write it (R54). An empty slot is as at reset (R24). -/
def Warp.seat (wp : Warp) (g : Seg) (pcs : List DWord) : Warp :=
  let wp := if wp.segs.isEmpty then Warp.reset else wp.joined
  { wp with
    segs := insertSeg g wp.segs
    regs := setLanes g.slots wp.regs fun _ _ => 0
    preds := wp.preds.map fun p => p &&& ~~~g.slots
    pcs := allLanes.map fun l => if g.hasLane l then pcs.getD (l - g.lbase) 0 else wp.pc l
    live := wp.live ||| g.slots
    via := wp.via.filter fun v => !g.hasLane v.1
    poison := wp.poison.filter fun p => !g.hasLane (p % 64)
    window := wp.window.map fun (x : Window) => { x with ckpt := x.ckpt.join g pcs }
    clause := wp.clause.map fun (c : Clause) => { c with snap := c.snap.join g pcs } }

/-- A queue at placement (R222). -/
def Queue.fresh (q : Nat × Nat) : Queue :=
  ⟨q.1, q.2, 0, 0, 0, List.replicate 16 0, List.replicate 64 0, List.replicate 64 0⟩

/-- The tiles of a core held by a group, or given back. -/
def State.ownTiles (s : State) (core : Nat) (ts : List Nat) (o : Option Nat) : State :=
  ts.foldl (fun s t => s.onTile core t fun y => { y with owner := o, seq := if o.isNone then [] else y.seq }) s

/-- What is left of a killed group that waits for its relaunch: its number, its generation and the completions dropped since (R281, R397). -/
def State.ghost (s : State) (lnum grp : Nat) : Option (Nat × Group) :=
  s.groups.find? fun q => q.2.launch == lnum && q.2.grp == grp && !q.2.placed && !q.2.released && (s.units.find q.2.unit).isNone

/-- Work placed on a die wakes its program cores (R309). -/
def State.ungate (s : State) (core : Nat) : State :=
  if (s.die (core / 256)).gated then (s.onDie (core / 256) fun d => { d with gated := false }).wakeAnnex (core / 256) else s

/-- A group placed for the first time, or again after a kill, on a core that can take it without evictions (R27, R28, R261, R274, R281,
R397). -/
def State.seatGroup (s : State) (core lnum unit grp : Nat) (l : Launch) (f : Fit) : State :=
  let old := s.ghost lnum grp
  let (gid, s) := match old with
    | some (g, _) => (g, s)
    | none => s.fresh
  let drops := (old.map fun q => q.2.drops).getD 0
  let base := (freeRange (s.spadUsed core []) l.spu).getD 0
  let x : Group :=
    { launch := lnum, unit := unit, grp := grp, gmem := grp % l.gangSize, core := core, gen := (old.map fun q => q.2.gen + 1).getD 1, spadBase := base, tiles := f.tiles,
      queues := l.kern.queues.map Queue.fresh, gals := [], vcore := core, pkg := s.lodge.pkgNum.toNat,
      vslots := f.slots.foldl (fun m k => m ||| BitVec.ofNat 16 (2 ^ k.1)) 0, segSlots := f.slots.map Prod.fst, placed := true,
      area := 0, released := false, passed := [], drops := 0, gcores := 0, gquads := 0,
      notices := [] }
  let s := { s with
    groups := s.groups.put gid x
    units := s.units.alter unit fun (u : UnitRec) => { u with gids := u.gids ++ [gid] } }
  let s := (s.ungate core).ownTiles core f.tiles (some gid)
  (f.slots.mapIdx fun i k => (i, k)).foldl (fun s (i, k, lb) =>
    s.onWarp (core * 16 + k) fun wp =>
      wp.seat { Seg.fresh gid i k lb l with dropcnt := BitVec.ofNat 32 (min drops 0xFFFF_FFFF) } (List.replicate l.width l.entry)) s

/-- The position masks of the groups of a unit fixed at its placement: the members of its gang, or of its launch as it is placed now, in
their first-placement positions (R27, R58, R274). -/
def State.fixMasks (s : State) (u : Nat) : State :=
  let mates := fun (x : Group) =>
    let l := s.launches.find x.launch
    let gang := (l.map Launch.gang).getD false && !(l.map fun l => decide (3 < l.reach.rank)).getD false
    (s.groups.map Prod.snd).filter fun (y : Group) =>
      y.launch == x.launch && y.pkg == x.pkg && !y.released && (s.units.find y.unit).isSome && (!gang || y.unit == x.unit)
  { s with groups := s.groups.mapV fun _ (x : Group) =>
      if x.unit ≠ u then x
      else { x with
        gcores := (mates x).foldl (fun m y => if y.vcore / 4 = x.vcore / 4 then m ||| BitVec.ofNat 4 (2 ^ (y.vcore % 4)) else m) 0
        gquads := (mates x).foldl (fun m y => if y.vcore / 256 = x.vcore / 256 then m ||| BitVec.ofNat 32 (2 ^ (y.vcore % 256 / 4)) else m) 0 } }

/-! ### Choosing cores (R263, R264) -/

/-- The program cores of a die, in ascending order. -/
def dieCores (die : Nat) : List Nat := (List.range Config.coresPerDie).map (coreNo die)

/-- Empty warp slots of a list of cores. -/
def State.emptyIn (s : State) (cores : List Nat) : Nat := cores.foldl (fun n c => n + s.emptySlots c) 0

/-- How the groups of a unit are seated: the saved bases of their segments, the cores that each may stand on, and what seating
one does. -/
structure Seater where
  bases : Nat → List (Option Nat)
  allow : Nat → Nat → Bool
  put : State → Nat → Nat → Fit → State

/-- The cores of a list that can take a group, with where it would stand. -/
def State.fits (s : State) (p : Seater) (cores : List Nat) (l : Launch) (x : Nat) : List (Nat × Fit) :=
  cores.filterMap fun c => if p.allow x c then (s.fit c l (p.bases x)).map fun f => (c, f) else none

/-- The core that comes first for a group among those that can take it: the gallery's, then those that hold groups of the set,
then free slots, then the die of intake, then the lowest number (R263). -/
def State.bestCore (s : State) (p : Seater) (cores : List Nat) (l : Launch) (mates : List Nat) (x : Nat) : Option (Nat × Fit) :=
  let can := s.fits p cores l x
  let gal := match s.findGal l.ctx l.gaff with
    | some (_, e) => if e.st = GalSt.resident then some e.core else none
    | none => none
  match gal.bind fun c => can.find? fun x => x.1 == c with
  | some x => some x
  | none =>
    let key := fun (x : Nat × Fit) =>
      ((if mates.contains x.1 then 1 else 0) * 64 + s.emptySlots x.1) * 2 + (if x.1 / 256 = l.die then 1 else 0)
    can.foldl (fun (b : Option (Nat × Fit)) x =>
      match b with
      | none => some x
      | some y => if key y < key x then some x else some y) none

/-- What an attempt to place several groups one after another comes to: placed, or galleries to evict first, or no place. -/
inductive Seating
  | placed (s : State)
  | evict (s : State)
  | none

/-- The groups of a set placed one after another on the cores that R263 names among `cores`. -/
def State.seatAll (s : State) (p : Seater) (cores : List Nat) (l : Launch) : List Nat → List Nat → Seating
  | [], _ => .placed s
  | x :: rest, mates =>
    match s.bestCore p cores l mates x with
    | .none => .none
    | some (c, f) =>
      if f.waits then .evict (f.evict.foldl State.evict s)
      else (p.put s c x f).seatAll p cores l rest (mates ++ [c])

/-- The lowest-numbered cores that can each take the next member of a gang. -/
def State.gangCores (s : State) (p : Seater) (l : Launch) : List Nat → List Nat → List (Nat × Nat × Fit)
  | _, [] => []
  | [], _ => []
  | c :: cs, x :: xs =>
    match s.fits p [c] l x with
    | f :: _ => (x, f) :: s.gangCores p l cs xs
    | [] => s.gangCores p l cs (x :: xs)

/-- A gang placed on the lowest-numbered cores of a die that can each take a member (R263). -/
def State.seatGang (s : State) (p : Seater) (die : Nat) (l : Launch) (xs : List Nat) : Seating :=
  let can := s.gangCores p l (dieCores die) xs
  if can.length < xs.length then .none
  else
    let es := can.flatMap fun x => x.2.2.evict
    if can.any fun x => x.2.2.waits then .evict (es.foldl State.evict s)
    else .placed (can.foldl (fun s x => p.put s x.2.1 x.1 x.2.2) s)

/-- The gangs of a wide launch placed one after another, each on one die of the package. -/
def State.seatGangs (s : State) (p : Seater) (dies : List Nat) (l : Launch) : List (List Nat) → Seating
  | [] => .placed s
  | xs :: rest =>
    let got := dies.findSome? fun d =>
      match s.seatGang p d l xs with
      | .placed t => some (Seating.placed t)
      | .evict t => some (.evict t)
      | .none => Option.none
    match got with
    | some (.placed t) => t.seatGangs p dies l rest
    | some x => x
    | Option.none => .none

/-- A list cut into parts of one length. -/
def parts (n : Nat) : Nat → List Nat → List (List Nat)
  | 0, _ => []
  | k + 1, l => l.take n :: parts n k (l.drop n)

/-- A unit placed on a die, or for reach `pkg` and `pod` on the dies of the package, or not (R263, R264). -/
def State.seatUnit (s : State) (p : Seater) (die : Nat) (l : Launch) (xs : List Nat) : Seating :=
  let dies := die :: (List.range Config.dies).filter (· ≠ die)
  if l.gangUnits then s.seatGang p die l xs
  else if l.gang then s.seatGangs p dies l (parts l.gangSize (xs.length / l.gangSize) xs)
  else match l.reach with
    | .quad =>
      let quads := (List.range 32).filterMap fun q =>
        let cores := (List.range 4).map fun k => coreNo die (4 * q + k)
        match s.seatAll p cores l xs [] with
        | .none => Option.none
        | r => some (s.emptyIn cores, r)
      (quads.foldl (fun (b : Option (Nat × Seating)) x =>
        match b with
        | Option.none => some x
        | some y => if y.1 < x.1 then some x else some y) Option.none).map Prod.snd |>.getD .none
    | .pkg => s.seatAll p (dies.flatMap dieCores) l xs []
    | .pod => s.seatAll p (dies.flatMap dieCores) l xs []
    | _ => s.seatAll p (dieCores die) l xs []

/-- Whether an entry's next unit has stood at the head of its class for 16,384 cycles (R260). -/
def State.headBlocks (s : State) (i : Intake) : Bool := i.blocks || (i.headAt.map fun t => decide (t + 16384 ≤ s.now)).getD false

/-- Whether a head unit that has waited too long keeps a unit of a class off its die (R260). -/
def State.dieBlocked (s : State) (die prio : Nat) (but : Option Nat) : Bool :=
  ((s.intake.find die).getD []).any fun j => some j.arrival != but && decide (prio ≤ j.prio) && s.headBlocks j

/-- How a unit of an intake entry is seated (R260). -/
def State.seater (s : State) (l : Launch) (lnum unit : Nat) (but : Option Nat) : Seater where
  bases := fun _ => List.replicate l.segs none
  allow := fun _ c => !s.dieBlocked (c / 256) l.prio but
  put := fun s c grp f => s.seatGroup c lnum unit grp l f

/-! ### Placement from the intake list (R259, R260, R194) -/

/-- Whether a unit of groups waits for the resident core of its gallery affinity, within the bound of its die, while that core lies where the
unit may stand and cannot take its next group (R194, R263). The bound counts from the cycle in which the unit became the head of its class
(assumption 35). DESIGN CHOICE (assumption 105): a co-resident set waits for its first group alone, before any of it is placed. -/
def State.awaitsGallery (s : State) (die : Nat) (l : Launch) (headAt : Option Nat) : Bool :=
  match s.findGal l.ctx l.gaff with
  | some (_, e) =>
    l.gaff != 0 && e.st == .resident && !l.gang && (e.core / 256 == die || decide (3 < l.reach.rank)) &&
      (s.fit e.core l (List.replicate l.segs none)).isNone && (headAt.map fun t => decide (s.now < t + (s.die die).galWait)).getD true
  | none => false

/-- The next unit of an intake entry: its number within the launch and its kills so far. -/
def Intake.nextUnit (i : Intake) : Nat × Nat :=
  match i.relaunch with
  | some x => x
  | none => (i.next, 0)

/-- The entry after its next unit has been placed or has left it; none when nothing is left of it. -/
def Intake.advance (i : Intake) : Option Intake :=
  if i.next + 1 < i.units then some { i with next := i.next + 1, headAt := none, blocks := false } else none

/-- A die's intake list after the next unit of an entry has left it. -/
def State.advanceIntake (s : State) (die arrival : Nat) : State :=
  let l := (s.intake.find die).getD []
  s.setIntake die (l.filterMap fun i => if i.arrival = arrival then i.advance else some i)

/-- The next unit of an entry placed on a die: placed, or evictions begun, or no place. -/
def State.placeEntry (s : State) (die : Nat) (i : Intake) : Seating :=
  match s.launches.find i.launch with
  | none => .none
  | some l =>
    let (k, kills) := i.nextUnit
    let (u, s) := s.fresh
    let r : UnitRec :=
      { launch := i.launch, number := k, gids := [], st := .placed, placedAt := s.now, stopAt := 0, told := false, kills := kills, hid := 0 }
    match { s with units := s.units.put u r }.seatUnit (s.seater l i.launch u (some i.arrival)) die l (l.unitGroups k) with
    | .placed t => .placed (t.fixMasks u)
    | r => r

/-- The entries of an intake list in the order in which they are taken: descending class, then arrival (R259). -/
def intakeOrder (l : List Intake) : List Intake :=
  [3, 2, 1, 0].flatMap fun c => l.filter fun i => i.prio == c

/-- `UNIT_PLACEMENT` (R259 to R264): the first unit of a die's intake list that fits is placed whole. -/
def execUnitPlacement (die : Nat) (s : State) : Result :=
  let l := (s.intake.find die).getD []
  let one := fun (i : Intake) =>
    match s.launches.find i.launch with
    | none => some (s.advanceIntake die i.arrival)
    | some lau =>
      if s.dieBlocked die i.prio (some i.arrival) || s.awaitsGallery die lau i.headAt then none
      else match s.placeEntry die i with
        | .placed t => some (t.advanceIntake die i.arrival)
        | .evict t => if t.gals = s.gals then none else some { s with gals := t.gals }
        | .none => none
  .next (((intakeOrder l).findSome? one).getD s)

/-- `INTAKE_HEAD_BLOCK` (R260): the unit of arrival `u` has stood 16,384 cycles at the head of its class, which `dieBlocked` counts from then on
with this row or without it. -/
def execIntakeHeadBlock (u : Nat) (s : State) : Result :=
  .next { s with intake := s.intake.mapV fun _ l => l.map fun (i : Intake) =>
      match i.headAt with
      | some t => if i.arrival = u ∧ t + 16384 ≤ s.now then { i with blocks := true } else i
      | none => i }

/-- The die that would take an intake entry of die `d` (R265): another one, with no entry of the same or a higher class, on which a
core can take the unit, after evictions that R193 allows (R261); of several, the one with most empty warp slots. -/
def State.stealDie (s : State) (d : Nat) (i : Intake) (l : Launch) : Option Nat :=
  let dies := (List.range Config.dies).filter fun e =>
    e ≠ d && !((s.intake.find e).getD []).any (fun j => decide (i.prio ≤ j.prio)) &&
      (dieCores e).any fun c => (s.fit c l (List.replicate l.segs none)).isSome
  (dies.foldl (fun (b : Option (Nat × Nat)) e =>
    let n := s.emptyIn (dieCores e)
    match b with
    | none => some (e, n)
    | some y => if y.2 < n then some (e, n) else some y) none).map Prod.fst

/-- `TASK_STEAL` (R265): a launch-mode task that has stood at the head of its class for the steal delay goes to another die, once
the galleries that have to go have left. -/
def execTaskSteal (u : Nat) (s : State) : Result :=
  .next (match s.intake.find? fun q => q.2.any fun i => i.arrival == u with
    | none => s
    | some (d, l) =>
      match l.find? fun i => i.arrival == u with
      | none => s
      | some i =>
        match s.launches.find i.launch, i.headAt with
        | some lau, some t =>
          if lau.taskq.isNone ∨ s.now < t + (s.die d).stealDly then s
          else match s.stealDie d i lau with
            | none => s
            | some e =>
              match s.placeEntry e i with
              | .placed s => s.advanceIntake d u
              | .evict t => { s with gals := t.gals }
              | .none => s
        | _, _ => s)

/-! ### The end of a group (R29, R190, R281, R347) -/

/-- The lanes of a group in a warp. -/
def Warp.lanesOfGroup (wp : Warp) (gid : Nat) : Mask := wp.segs.foldl (fun m g => if g.gid = gid then m ||| g.slots else m) 0

/-- The warps that hold segments of a group. -/
def State.warpsOf (s : State) (gid : Nat) : List Nat :=
  (s.warps.filter fun q => q.2.segs.any fun g => g.gid == gid).map Prod.fst

/-- A segment in which nothing is left to run. -/
def Seg.dead (g : Seg) : Seg :=
  { g with lmask := 0, lpark := 0, record := none, cause := none, queue := [], notices := [], takeover := none, tripped := false, handler := 0 }

/-- A result that other groups still wait for loses the lanes of a group (R29). -/
def Res.without (r : Res) (gid : Nat) (m : Mask) : Res :=
  { r with lanes := r.lanes &&& ~~~m, fill := r.fill &&& ~~~m, under := r.under &&& ~~~m, pmask := r.pmask &&& ~~~m
           gens := r.gens.filter fun g => g.2.1 != gid }

/-- What the turns of a held slot have given keeps only the lanes that stay at the slot; it is gone with the last of them (R223). -/
def Warp.dropTurns (wp : Warp) (gid : Nat) (m : Mask) : Warp :=
  match wp.clause with
  | none => wp
  | some c =>
    if c.resId = 0 then wp
    else { wp with results := (wp.results.map fun (r : Res) => if r.id = c.resId then r.without gid m else r).filter fun r =>
      r.id != c.resId || (c.at_.lanes &&& ~~~m) != 0 }

/-- Every thread of a group in a warp is at its end; what its lanes still waited for is gone. -/
def Warp.dropGroup (wp : Warp) (gid : Nat) : Warp :=
  let m := wp.lanesOfGroup gid
  let wp := wp.dropTurns gid m
  let wp := { wp with
    live := wp.live &&& ~~~m
    holds := wp.holds.filter fun h => !m.getLsbD h.1
    via := wp.via.filter fun v => !m.getLsbD v.1
    segs := wp.segs.map fun (g : Seg) => if g.gid = gid then g.dead else g
    clause := wp.clause.bind fun c =>
      let c := c.drop m
      if c.at_.lanes = 0 then none else some { c with snap := { c.snap with live := c.snap.live &&& ~~~m } } }
  wp.leaveResume m

/-- A group whose commands complete for its warps no more, since it leaves its core or advances its generation: an instruction that other groups
of the slot wait for through its counter falls when the last command that they had in it was the group's (R73, R281). -/
def State.departInsns (s : State) (gid : Nat) (f : State → State) : State :=
  let mine := (s.cmds.filter fun q => q.2.gid == some gid && s.insnOpen q.2).map Prod.snd
  let one := mine.foldl (fun (l : List Cmd) c => if l.any fun d => d.insn == c.insn then l else l ++ [c]) []
  one.foldl (fun t c => if t.insnOpen c || (t.warps.find c.warp).isNone then t else t.onWarp c.warp fun wp => wp.countDown .engine) (f s)

/-- The threads of a group end (R347, R397): windows of its warps roll back and their side logs are discarded, its landings and
waits are withdrawn, and its generation advances (R281). -/
def State.endThreads (s : State) (gid : Nat) : State :=
  let ws := s.warpsOf gid
  let s := ws.foldl (fun s w => (s.rollBack w false).discardLog w) s
  let hids := ws.flatMap fun w => ((s.warp w).segs.filter fun g => g.gid == gid).filterMap fun g =>
    (g.cause.map SegCause.hid).filter (· ≠ 0)
  let s := hids.foldl State.unhold s
  let s := ws.foldl (fun s w =>
    let bases := ((s.warp w).segs.filter fun g => g.gid == gid).map Seg.lbase
    let s := s.onCore (coreOf w) fun c => { c with landings := c.landings.map fun d =>
      if d.st ≠ .free ∧ d.warp = w ∧ bases.contains d.lbase then Landing.reset else d }
    (bases.foldl (fun s lb => s.dropWaits w lb) s).onWarp w fun wp => wp.dropGroup gid) s
  let t := s.departInsns gid fun s => { s with
    groups := s.groups.alter gid fun (x : Group) => { x with gen := x.gen + 1 }
    bars := s.bars.map fun (b : Bar) => { b with arrived := b.arrived.filter fun a => a.1 ≠ gid } }
  s.exitBars t (((s.group gid).map Group.core).getD 0 / 256)

/-- A group that the porter ends: `GROUP_KILLED` is posted (R345, R347). -/
def State.endGroup (s : State) (gid : Nat) (w : Nat) (detail : Word) : State :=
  match (s.segsOf gid).head? with
  | none => s
  | some (v, g) =>
    let i := s.segInfo v g
    (s.endThreads gid).post 0xAC { i with detail := detail, wslot := slotOf w }

/-- Whether every transfer of a group has drained (R29): its own lanes of what its warps have sent, whatever other groups of a slot wait for, and
its engine commands, those of an earlier generation among them; a cause that one of its segments still has to be told is served first
(R344). -/
def State.groupDrained (s : State) (gid : Nat) : Bool :=
  (s.warps.all fun (w, wp) =>
    let m := wp.lanesOfGroup gid
    let mine := fun l => m.getLsbD l
    m == 0 ||
      ((wp.counted &&& m) == 0 && !(wp.segs.any fun g => g.gid == gid && !g.queue.isEmpty) &&
        !((wp.window.map Window.evs).getD []).any (fun e =>
          match e with
          | .rd _ l _ _ _ _ => mine l
          | .wr _ l _ _ _ _ _ => mine l
          | .token l => mine l) &&
        !(wp.sideLog.any fun e => mine e.lane) &&
        !(s.homeOps.any fun o => o.warp == w && mine o.lane) &&
        !(wp.results.any fun r => (r.gens.any fun g => g.2.1 == gid) &&
          ((lanesOf (r.lanes &&& m)).any (fun l => (r.vals.find l).isNone) || r.gens.all fun g => g.2.1 == gid)) &&
        !(wp.stores.any fun r => r.owed.contains gid) &&
        !((s.core (coreOf w)).landings.any fun d => d.st != .free && d.warp == w && mine d.lbase) &&
        !((wp.window.map Window.tileOps).getD []).any fun o => (s.tile (coreOf w) o.1).owner == some gid)) &&
  !(s.cmds.any fun c => c.2.gid == some gid) &&
  s.cores.all fun c => c.2.tiles.all fun t => (t.owner != some gid || t.seq.isEmpty) &&
    !(t.seq.any fun o => match o with
      | .mma op => op.gid == gid
      | _ => false)

/-- The results on their way to a warp changed. -/
def Warp.mapResults (wp : Warp) (f : Res → Res) : Warp := { wp with results := wp.results.map f }

/-- The segments of a group leave their slots; a slot that holds none is as at reset. -/
def State.vacate (s : State) (gid : Nat) : State :=
  (s.warpsOf gid).foldl (fun s w =>
    let wp := s.warp w
    let m := wp.lanesOfGroup gid
    let left := wp.segs.filter fun g => g.gid != gid
    if left = [] then { s with warps := s.warps.del w }
    else s.setWarp w (({ wp with segs := left }.onClauses (ClauseAt.alone left)).mapResults fun r =>
      let r := r.without gid m
      { r with cover := r.cover.alone left (r.lanes ||| r.fill) })) s

/-- The resources of a group on its core are free (R29, R272). -/
def State.freeGroup (s : State) (gid : Nat) : State :=
  match s.group gid with
  | none => s
  | some x => ((s.vacate gid).ownTiles x.core x.tiles none)

/-- A task's dependence counter falls when its last incarnation has ended (R225, R228, R397); one that is 0 already stays so
(R366). -/
def State.taskDone (s : State) (l : Launch) : State :=
  if l.taskq.isNone ∨ l.dcdone = noCtr then s
  else match s.depctr l.dcdone with
    | none => s
    | some (k, c) =>
      if c.val = 0 then s.post 0x48 { fn := l.fn, ctx := l.ctx, die := l.die, detail := Config.openDetail 0x48 }
      else s.setCtr k (c.val - 1)

/-- A unit is over: its groups are forgotten, its launch has one unit less, its job one part less (R290). -/
def State.endUnit (s : State) (u : Nat) (failed : Bool) : State :=
  match s.units.find u with
  | none => s
  | some r =>
    let s := { s.unclaim (.unit u) with
      units := s.units.del u
      groups := s.groups.filter fun q => q.2.unit ≠ u
      bars := s.bars.filter fun (b : Bar) => b.unit != BarUnit.gang u && !(match b.unit with
        | .group g => r.gids.contains g
        | .seg g _ => r.gids.contains g
        | _ => false) }
    match s.launches.find r.launch with
    | none => s
    | some l =>
      let l := { l with ended := l.ended + 1 }
      let s := ((s.taskDone l).jobDone l.job failed).freeGals l.ctx
      if l.unitCount ≤ l.ended then
        { s with
          launches := s.launches.del r.launch
          groups := s.groups.filter fun q => q.2.launch ≠ r.launch
          bars := s.bars.filter fun (b : Bar) => b.unit != BarUnit.launch r.launch }
      else { s with launches := s.launches.put r.launch l }

/-- A killed unit whose hold the host has cleared enters intake as a new arrival, once its resources are released (R397). Its groups keep
their numbers and generations (R281). -/
def State.relaunch (s : State) (u : Nat) : State :=
  match s.units.find u with
  | none => s
  | some r =>
    match s.launches.find r.launch with
    | none => s
    | some l =>
      if r.st = .killed ∧ r.hid = 0 ∧ r.gids.all fun g => !((s.group g).map Group.placed).getD false then
        { s with units := s.units.del u }.addIntake l.die r.launch l.prio 1 (some (r.number, r.kills))
      else s

/-- A drained group is released (R29): its galleries are detached (R190) and its resources are free; with the last
group of its unit the unit is over, unless it is held for a relaunch. -/
def State.releaseGroup (s : State) (gid : Nat) : State :=
  match s.group gid with
  | none => s
  | some x =>
    let s := (s.detachAll gid).freeGroup gid
    let killed := ((s.units.find x.unit).map fun r => r.st == .killed).getD false
    let s := { s with groups := s.groups.alter gid fun (y : Group) =>
      { y with placed := false, released := !killed, gen := if killed then y.gen else y.gen + 1, tiles := [], queues := [] } }
    let s := s.checkBars
    match s.units.find x.unit with
    | none => { s with groups := s.groups.del gid }
    | some r =>
      if killed then s.relaunch x.unit
      else if r.gids.all fun g => ((s.group g).map Group.released).getD true then s.endUnit x.unit false
      else s

/-- `GROUP_RELEASE` (R29). -/
def execGroupRelease (g : Nat) (s : State) : Result :=
  .next (match s.group g with
    | none => s
    | some x => if x.placed ∧ !x.released ∧ s.groupDrained g then s.releaseGroup g else s)

/-! ### Killing a unit (R397, R398) -/

/-- The state of a killed group on its core wiped (R397): tiles, scratchpad, queue stores. -/
def State.wipeGroup (s : State) (gid : Nat) : State :=
  match s.group gid with
  | none => s
  | some x =>
    let left := fun (o : TileOp) => match o with
      | .mma op => op.gid != gid
      | _ => true
    let wipe := fun (t : Tile) =>
      if t.owner == some gid then { t with elems := [], seq := [] } else { t with seq := t.seq.filter left }
    let s := s.onCore x.core fun c => { c with tiles := c.tiles.map wipe }
    let s := s.zeroSpad x.core x.spadBase (s.spuOf x)
    { s with groups := s.groups.alter gid fun (y : Group) => { y with queues := y.queues.map fun q => Queue.fresh (q.depth, q.allow) } }

/-- A unit killed (R397): the threads of its groups that stand on a core end, what it has sent runs on, its state is wiped; its galleries are
detached when
its resources are released (R190). -/
def State.killUnit (s : State) (u : Nat) : State :=
  match s.units.find u with
  | none => s
  | some r =>
    let s := { s.unclaim (.unit u) with units := s.units.put u { r with st := .killed, kills := r.kills + 1 } }
    (r.gids.filter fun gid => ((s.group gid).map Group.placed).getD false).foldl (fun s gid => (s.endThreads gid).wipeGroup gid) s

end Sys2Proof.Machine
end

