-- ==== Sys2Proof/Machine/SaveArea.lean ====
section
/-! DEFINITION. Save areas: what is written there, byte by byte, and what is read back (R273 to R280, R416). -/

namespace Sys2Proof.Machine

/-- Bytes with their poison (R409). -/
abbrev Chunk := List Byte × Bool

/-- The little-endian bytes of a number, clean. -/
def num (n v : Nat) : Chunk := (bytesOf n v, false)

/-- Zeros up to a multiple of 64 bytes. -/
def pad64 (cs : List Chunk) : List Chunk :=
  let n := cs.foldl (fun k c => k + c.1.length) 0
  cs ++ [(List.replicate ((64 - n % 64) % 64) 0, false)]

def chunkBytes (cs : List Chunk) : List Byte := cs.flatMap Prod.fst

/-- The offsets of poisoned bytes. -/
def chunkPoison : Nat → List Chunk → List Nat
  | _, [] => []
  | k, c :: cs => (if c.2 then [k] else []) ++ chunkPoison (k + c.1.length) cs

/-- A section header with the number of items (R278). -/
def sectionHead (n : Nat) : List Chunk := [num 4 n, (List.replicate 60 0, false)]

/-! ### Where a lane stands when it is saved (R272, R277) -/

/-- Causes under which a held lane may be saved at its slot (R391). -/
def savable (code : Nat) : Bool := code == 0x70 || code == 0x72 || decide (0x78 ≤ code ∧ code ≤ 0x83)

/-- A held slot at which pre-emption may stop a clause (R272): an irrevocable act of some lanes waits there. -/
def Clause.stands (c : Clause) : Bool :=
  !c.parked &&
    (c.held == some .queue || c.held == some .gallery || c.held == some .irrevocable || c.held == some .maintenance)

/-- The lanes of a group leave a held slot for their save area: what the turns taken there have given is in their registers, and every
earlier result of the clause is visible (R272; assumption 89). -/
def Warp.settleHeld (wp : Warp) (gid : Nat) : Warp :=
  let m := wp.lanesOfGroup gid
  let apply := fun (wp : Warp) (a : ClauseAt) =>
    wp.applyEnd ((a.pend.map (Pend.within m)).filter Pend.alive)
  let wp := match wp.clause with
    | none => wp
    | some c =>
      let wp := match wp.results.find? fun (r : Res) => r.id == c.resId with
        | some r => if c.resId = 0 then wp else r.applyTo (c.turns &&& m) wp
        | none => wp
      (wp.clause.map fun (c : Clause) => apply wp c.at_).getD wp
  wp.segs.foldl (fun (wp : Warp) (g : Seg) => match g.cause with
    | some x => if g.gid = gid then apply wp x.at_ else wp
    | none => wp) wp

/-- A lane's header, slot and held kind (R277): a lane whose turn at a held slot is over stands at the next slot, or at the next header
(R223, R272). -/
def Warp.saveLane (wp : Warp) (g : Seg) (l : Nat) : DWord × Nat × Nat :=
  match wp.holds.find l with
  | some h => (h.hdr, h.slot, match h.kind with
    | .wait => 1
    | .sync => 3
    | .drain => 4
    | .gatt => 5
    | .xlat => 6
    | _ => 2)
  | none =>
    let here := wp.clause.bind fun c => if c.at_.lanes.getLsbD l then some c else none
    match here, g.cause with
    | some c, _ =>
      if c.turns.getLsbD l then
        if c.at_.cnt ≤ c.at_.slot then (c.at_.hdr + BitVec.ofNat 64 (8 * (c.at_.cnt + 2)), 0, 0) else (c.at_.hdr, c.at_.slot + 1, 2)
      else (c.at_.hdr, c.at_.slot, if c.held = some .gallery then 5 else 2)
    | none, some x => if x.lanes.getLsbD (l - g.lbase) then (x.at_.hdr, x.at_.slot, 6) else (wp.pc l, 0, 0)
    | none, none => (wp.pc l, 0, 0)

/-! ### Sections -/

/-- The 2-bit code of a tag (R53). -/
def Shape.code : Shape → Nat
  | .uniform => 0
  | .affine => 1
  | .general => 2
  | .void => 3

/-- A segment record (R277): the registers by their tags, the uniform words first; a word that stands for every lane is poisoned if the word of a
lane is (R409). -/
def Warp.saveSeg (wp : Warp) (g : Seg) : List Chunk :=
  let lanes := (List.range g.width).map (g.lbase + ·)
  let q := fun (v : DWord) => num 8 v.toNat
  let evt := fun (e : Evt) => [q e.br, q e.tk, q e.ft]
  let tags := wp.regs.foldr (fun r n => r.tag.code + 4 * n) 0
  let word := fun (n l : Nat) (r : VReg) => (bytesOf 4 (r.word l).toNat, wp.poison.contains (n * 64 + l))
  let spoilt := fun (n : Nat) => lanes.any fun l => wp.poison.contains (n * 64 + l)
  let reg := fun (t : Shape) (n : Nat) (r : VReg) => if r.tag ≠ t then [] else match t with
    | .void => []
    | .uniform => [(bytesOf 4 (r.word g.lbase).toNat, spoilt n)]
    | .affine => [(bytesOf 4 (r.word g.lbase).toNat, spoilt n), (bytesOf 4 (r.word (g.lbase + 1) - r.word g.lbase).toNat, spoilt n)]
    | .general => lanes.map fun l => word n l r
  pad64 <|
    [num 32 tags] ++ wp.preds.map (fun p => q (g.rel p))
    ++ [q (g.rel wp.live), q g.lmask, q g.lpark, q g.etaken, q g.olmask, q g.oetaken]
    ++ evt g.evt ++ evt g.oevt
    ++ [num 4 g.udepth, num 4 wp.fpflags.toNat, num 4 wp.engSeq.toNat, num 4 g.dropcnt.toNat, q g.ubase, q g.tbase,
        num 4 g.bancnt.toNat, num 1 g.vslot, num 1 g.lbase, num 2 0]
    ++ lanes.map (fun l => let x := wp.saveLane g l; num 1 (x.2.1 * 16 + x.2.2))
    ++ lanes.map (fun l => q (wp.saveLane g l).1)
    ++ (List.range g.width).map (fun l => q (g.vpc.getD l 0)) ++ (List.range g.width).map (fun l => q (g.ovpc.getD l 0))
    ++ [Shape.uniform, .affine, .general].flatMap fun t => (wp.regs.mapIdx (reg t)).flatten

/-- A landing item (R278). -/
def Landing.save (d : Landing) (n idx : Nat) : List Chunk :=
  let mask := d.signers.foldl (fun m x => if x.2.committed then m ||| laneBit x.1 else m) 0
  [num 1 n, num 1 (if d.st = .complete then 2 else 1), num 1 d.cell, num 1 (d.tile + 16 * idx), num 4 d.koff.toNat,
    num 8 d.recA.toNat, num 8 d.recB.toNat, num 8 d.mask.toNat, num 8 mask.toNat, num 4 d.signers.length, num 20 0]
  ++ d.signers.flatMap fun x => [num 4 x.2.c.toNat, num 4 x.2.c1.toNat, num 1 x.2.sel, num 1 x.1, num 6 0]

/-- The landings that a group's segments are bound to, with their numbers and segments. -/
def State.landingsOf (s : State) (gid : Nat) : List (Nat × Landing × Seg) :=
  match s.group gid with
  | none => []
  | some x =>
    ((s.core x.core).landings.mapIdx fun n d => (n, d)).filterMap fun (n, d) =>
      if d.st = .free then none
      else match (s.warp d.warp).segAt d.lbase with
        | some g => if g.gid = gid then some (n, d, g) else none
        | none => none

/-- A queue item (R278). -/
def Queue.save (q : Queue) (n : Nat) : List Chunk :=
  [num 1 n, num 1 q.depth, num 1 q.allow, num 1 q.count, num 1 q.head, num 1 q.tail, num 2 0]
  ++ q.infl.map (num 1 ·) ++ [num 40 0] ++ q.entries.map fun w => num 4 w.toNat

/-- The barrier instances whose node a group holds: those whose lowest-numbered participant it is (R279). DESIGN CHOICE (assumption 105): of
several groups at the lowest position, the first in the group table. -/
def State.nodeOf (s : State) (gid : Nat) (b : Bar) : Bool :=
  match b.unit with
  | .seg g _ => g == gid
  | .group g => g == gid
  | _ =>
    let low := (firstLane b.mask).getD 64
    (((s.barGroups b).filter fun q => q.2.position b.lvl == low).head?.map Prod.fst) == some gid

/-- A barrier record (R279). -/
def State.saveBar (s : State) (b : Bar) : List Chunk :=
  let idx := match b.unit with
    | .seg _ i => i
    | _ => 0
  [num 8 b.mask.toNat, num 1 (levelRank b.lvl), num 1 idx, num 2 0, num 4 (s.barTarget b), num 4 (s.arrivals b), num 4 0, num 8 0]

/-- The open instances that a group's node counts. -/
def State.nodeBars (s : State) (gid : Nat) : List Bar := s.bars.filter fun b => !b.done && b.saved.isNone && s.nodeOf gid b

/-- A tile (R276): elements row by row, then the sticky bits. -/
def Tile.save (t : Tile) : List Chunk :=
  let es := (List.range 4096).map fun k => t.elem (k / 64) (k % 64)
  let bit := fun (b : Bool) (n : Nat) => if b then n else 0
  es.map (fun e => num 32 e.v.toNat) ++ es.map fun e => num 1 (bit e.o 8 + bit e.n 4 + bit e.p 2 + bit e.m 1)

/-- The tokens of a group's commands that are not set (R278). -/
def State.tokensOf (s : State) (gid : Nat) : List Cmd :=
  (s.cmds.filter fun c => c.2.gid == some gid && c.2.gen == s.genOf gid && !c.2.token).map Prod.snd

/-- The sections of a group's save area (R276). -/
def State.saveSections (s : State) (gid : Nat) (x : Group) : List (List Chunk) :=
  let segs := (List.range 16).flatMap fun i => (s.segsOf gid).filter fun q => q.2.idx == i
  let lands := s.landingsOf gid
  let toks := s.tokensOf gid
  let bars := s.nodeBars gid
  let spad := (List.range (s.spuOf x * 512)).map fun k =>
    let a := spadAddr x.core (x.spadBase * 16384 + 32 * k)
    (s.spad.bytes a 32, s.poisonSpad.contains (a / 32))
  [segs.flatMap fun q => (s.warp q.1).saveSeg q.2,
   sectionHead lands.length ++ lands.flatMap fun d => d.2.1.save d.1 d.2.2.idx,
   sectionHead bars.length ++ bars.flatMap s.saveBar,
   sectionHead x.queues.length ++ (x.queues.mapIdx fun n q => q.save n).flatten,
   sectionHead x.gals.length ++ x.gals.flatMap fun g => [num 8 g.1.toNat, num 4 g.2, num 4 0],
   sectionHead toks.length ++ toks.flatMap fun c =>
     [num 4 c.seq.toNat, num 1 ((((s.warp c.warp).segAt c.lbase).map Seg.idx).getD 0), num 3 0],
   x.tiles.flatMap fun t => (s.tile x.core t).save,
   spad].map pad64

/-- The offsets of sections from the area's start, and the size of the area. -/
def sectionOffsets : Nat → List (List Chunk) → List Nat × Nat
  | k, [] => ([], k)
  | k, c :: cs =>
    let r := sectionOffsets (k + (chunkBytes c).length) cs
    (k :: r.1, r.2)

/-- The 64 bytes of a save-area header (R275). -/
def Launch.saveHead (l : Launch) (lnum : Nat) (x : Group) (offs : List Nat) (size : Nat) : BitVec 512 :=
  let b := fun (n v : Nat) => BitVec.ofNat n v
  let soff := offs.foldr (fun v (acc : Nat) => v + 2 ^ 32 * acc) 0
  b 256 soff ++ b 48 0 ++ b 7 x.pkg ++ b 2 (x.vcore / 256) ++ b 7 (x.vcore % 256) ++ b 32 lnum ++ b 32 x.grp ++ b 6 x.gmem ++
    b 4 (l.segs - 1) ++ b 2 (if l.width = 8 then 0 else if l.width = 16 then 1 else if l.width = 32 then 2 else 3) ++ b 2 x.tiles.length ++
    b 7 l.spu ++ b 5 x.queues.length ++ b 4 x.gals.length ++ b 3 (l.reach.rank - 1) ++ b 31 0 ++ b 32 size ++ x.gen ++ b 16 3

/-- The whole area of a group, and the offset of its barrier section. -/
def State.saveImage (s : State) (gid : Nat) (x : Group) (l : Launch) : List Chunk × Nat :=
  let secs := s.saveSections gid x
  let (offs, size) := sectionOffsets 64 secs
  (num 64 (l.saveHead x.launch x offs size).toNat :: secs.flatten, offs.getD 2 0)

/-! ### Allocation and writing -/

/-- A range of pages of a context's save pool that is not in use. -/
def Ctx.poolRange (c : Ctx) (n : Nat) : Option Nat :=
  (List.range (c.spSize + 1 - n)).find? fun k => c.pool.all fun u => decide (k + n ≤ u.1 ∨ u.1 + u.2 ≤ k)

/-- The pieces of an area in host-physical memory (R181): none where stage two or the memory map refuses a page. -/
def State.areaPieces (s : State) (fn area n : Nat) : Option (List Piece) :=
  (pageCuts area n).mapM fun (a, k) =>
    match s.stageTwo fn a with
    | some pa => if (physFault pa).isSome then none else some ⟨BitVec.ofNat 64 a, k, .hbm pa, none⟩
    | none => none

/-- The host-physical address of an offset in an area. -/
def areaAddr (ps : List Piece) (area off : Nat) : Nat :=
  match ps.find? fun p => decide (p.va.toNat ≤ area + off ∧ area + off < p.va.toNat + p.n) with
  | some p => match p.loc with
    | .hbm pa => pa + (area + off - p.va.toNat)
    | .spad _ _ => 0
  | none => 0

/-- A group's state written to its area, and the group off its core (R272, R279). -/
def State.writeArea (s : State) (gid area : Nat) (ps : List Piece) (img : List Chunk) (barOff : Nat) : State :=
  let bars := s.nodeBars gid
  let s := s.writePieces false ps (chunkBytes img)
  let bad := (chunkPoison 0 img).map fun k => areaAddr ps area k / 32
  let mark := fun (b : Bar) =>
    let k := bars.findIdx fun y => y == b
    let b := if k < bars.length then { b with saved := some (areaAddr ps area (barOff + 64 + 32 * k)) } else b
    let mine : Bool := match s.group gid with
      | some x =>
        if b.unit = BarUnit.group gid then false
        else (s.barGroups b).any (fun q => q.1 == gid) && s.groupArrived b gid x
      | none => false
    if mine then { b with whole := b.whole ++ [gid] } else b
  { s with
    poison := s.poison ++ bad.filter fun g => !s.poison.contains g
    bars := s.bars.map mark }

/-- The lanes of a group leave their warps with nothing of them left there; notices that wait are kept with the group (R350), its save area
having no place for them. -/
def State.offCore (s : State) (gid : Nat) : State :=
  match s.group gid with
  | none => s
  | some x =>
    let notices := (s.segsOf gid).foldl (fun (t : Tab (List Nat)) q => if q.2.notices = [] then t else t.put q.2.idx q.2.notices) []
    let s := (s.warpsOf gid).foldl (fun s w =>
      let bases := ((s.warp w).segs.filter fun g => g.gid == gid).map Seg.lbase
      let s := s.onCore (coreOf w) fun c => { c with landings := c.landings.map fun d =>
        if d.st ≠ .free ∧ d.warp = w ∧ bases.contains d.lbase then Landing.reset else d }
      let s := bases.foldl (fun s lb => s.dropWaits w lb) s
      let hids := ((s.warp w).segs.filter fun g => g.gid == gid).filterMap fun g => (g.cause.map SegCause.hid).filter (· ≠ 0)
      (hids.foldl State.unhold s).onWarp w fun wp => wp.dropGroup gid) s
    s.departInsns gid fun s =>
      let s := s.freeGroup gid
      { s with groups := s.groups.put gid { x with placed := false, notices := notices } }

/-- The pages of a group's save area given back to the pool of its context (R275). -/
def State.freeArea (s : State) (gid : Nat) : State :=
  match s.group gid with
  | none => s
  | some x =>
    { s with
      ctxs := s.ctxs.alter (s.ctxOf gid) fun (c : Ctx) =>
        { c with pool := c.pool.filter fun p => c.spBase + BitVec.ofNat 64 (4096 * p.1) != x.area }
      groups := s.groups.put gid { x with area := 0 } }

/-! ### Reading back -/

/-- An area as it is read: bytes by offset, and poison by granule. -/
structure Area where
  bytes : List Byte
  poison : List Nat

def Area.nat (a : Area) (off n : Nat) : Nat := natOfBytes ((a.bytes.drop off).take n)
def Area.q (a : Area) (off : Nat) : DWord := BitVec.ofNat 64 (a.nat off 8)

/-- An area read from memory. -/
def State.readArea (s : State) (ps : List Piece) : Area where
  bytes := s.pieceBytes ps
  poison := s.badGranules ps

/-- What a segment record holds (R277): the segment, the words of its registers by register and lane, with their tags and
poison, its predicates, live lanes, flags, engine sequence number, program counters, and each lane's held slot and kind. -/
structure SegRec where
  seg : Seg
  tags : List Shape
  words : List (List Word)
  bad : List (Nat × Nat)
  preds : List Mask
  live : Mask
  flags : BitVec 5
  engSeq : Word
  pcs : List DWord
  holds : List (Nat × Nat)
deriving DecidableEq, Repr

/-- The tag of a code (R53). -/
def Shape.ofCode (n : Nat) : Shape :=
  match n with
  | 0 => .uniform
  | 1 => .affine
  | 2 => .general
  | _ => .void

/-- One register of a record at an offset: its words by lane, its poisoned lanes, and its bytes. -/
def Area.reg (a : Area) (width off : Nat) (t : Shape) : List Word × List Nat × Nat :=
  let w := fun k => BitVec.ofNat 32 (a.nat k 4)
  let bad := fun k => a.poison.contains (k / 32)
  let lanes := List.range width
  match t with
  | .void => (List.replicate width 0, [], 0)
  | .uniform => (List.replicate width (w off), if bad off then lanes else [], 4)
  | .affine => (lanes.map fun l => w off + BitVec.ofNat 32 l * w (off + 4), if bad off || bad (off + 4) then lanes else [], 8)
  | .general => (lanes.map fun l => w (off + 4 * l), lanes.filter fun l => bad (off + 4 * l), 4 * width)

/-- The offset of each register of a record, and the end: the uniform words, then the affine pairs, then the general registers, each in ascending
number (R277). -/
def regOffsets (width off : Nat) (tags : List Shape) : Tab Nat × Nat :=
  [(Shape.uniform, 4), (Shape.affine, 8), (Shape.general, 4 * width)].foldl (fun (acc : Tab Nat × Nat) k =>
    tags.zipIdx.foldl (fun (acc : Tab Nat × Nat) x =>
      if x.1 = k.1 then (acc.1 ++ [(x.2, acc.2)], acc.2 + k.2) else acc) acc) ([], off)

/-- The registers of a record from an offset on: words by register and lane, and poisoned (register, lane) pairs. -/
def Area.regs (a : Area) (width off : Nat) (tags : List Shape) : List (List Word) × List (Nat × Nat) × Nat :=
  let offs := regOffsets width off tags
  let all := tags.mapIdx fun n t => a.reg width ((offs.1.find? fun q => q.1 == n).map Prod.snd |>.getD off) t
  (all.map Prod.fst, (all.mapIdx fun n x => x.2.1.map fun l => (n, l)).flatten, offs.2)

/-- A segment record read at an offset, and where the next one stands. DESIGN CHOICE (assumption 89): the record has no place for the lanes
that run the usher, so at `udepth` 1 or 2 every live lane with `lmask` 1 and `lpark` 0 that is not held runs it after the resumption (R50,
R51). -/
def Area.seg (a : Area) (off gid idx width : Nat) : SegRec × Nat :=
  let q := fun k => a.q (off + k)
  let evt := fun k => Evt.mk (q k) (q (k + 8)) (q (k + 16))
  let tagN := a.nat off 32
  let tags := (List.range 128).map fun v => Shape.ofCode (tagN / 4 ^ v % 4)
  let lanes := List.range width
  let pcOff := 288 + width
  let arr := fun k => lanes.map fun l => q (pcOff + 8 * (k * width + l))
  let live := q 152
  let holds := lanes.map fun l => (a.nat (off + 288 + l) 1 / 16, a.nat (off + 288 + l) 1 % 16)
  let held := maskWhere fun l => decide (l < width) && decide ((holds.getD l (0, 0)).2 ≠ 0)
  let depth := a.nat (off + 248) 4
  let runs := if depth = 0 then 0 else live &&& q 160 &&& ~~~(q 168) &&& ~~~held
  let g : Seg :=
    { lbase := a.nat (off + 285) 1, width := width, gid := gid, idx := idx, vslot := a.nat (off + 284) 1, lmask := q 160, lpark := q 168,
      vpc := arr 1, evt := evt 200, etaken := q 176, udepth := depth, olmask := q 184, ovpc := arr 2, oevt := evt 224,
      oetaken := q 192, usher := runs, urun := runs, ubase := q 264, tbase := q 272, bancnt := BitVec.ofNat 32 (a.nat (off + 280) 4),
      dropcnt := BitVec.ofNat 32 (a.nat (off + 260) 4), firmware := false, handler := 0, record := none, cause := none, queue := [],
      notices := [], notBefore := 0, progress := true, bc := 0, takeover := none, tripped := false }
  let (ws, bad, stop) := a.regs width (off + 288 + 25 * width) tags
  ({ seg := g, tags := tags, words := ws, bad := bad, preds := (List.range 15).map fun k => q (32 + 8 * k), live := live
     flags := BitVec.ofNat 5 (a.nat (off + 252) 4), engSeq := BitVec.ofNat 32 (a.nat (off + 256) 4), pcs := arr 0, holds := holds },
   off + (stop - off + 63) / 64 * 64)

/-- The records of segments from an offset on. -/
def Area.segs (a : Area) (gid width : Nat) : Nat → Nat → Nat → List SegRec
  | 0, _, _ => []
  | n + 1, idx, off =>
    let (r, next) := a.seg off gid idx width
    r :: a.segs gid width n (idx + 1) next

/-- The landings of section 1: number, bound segment, and the landing without its warp. DESIGN CHOICE (assumption 105): the area does not say which
was signed last; by their numbers they come first. -/
def Area.landings (a : Area) : Nat → Nat → List (Nat × Nat × Landing)
  | 0, _ => []
  | n + 1, off =>
    let k := a.nat (off + 40) 4
    let signer := fun j =>
      let o := off + 64 + 16 * j
      (a.nat (o + 9) 1, Signer.mk (BitVec.ofNat 32 (a.nat o 4)) (BitVec.ofNat 32 (a.nat (o + 4) 4)) (a.nat (o + 8) 1) true 0 false)
    let d : Landing :=
      { st := if a.nat (off + 1) 1 = 2 then .complete else .signing, warp := 0, lbase := 0, cell := a.nat (off + 2) 1,
        tile := a.nat (off + 3) 1 % 2, recA := a.q (off + 8), recB := a.q (off + 16), koff := BitVec.ofNat 32 (a.nat (off + 4) 4),
        mask := a.q (off + 24), signers := ((List.range (min k 64)).map signer).foldl (fun t x => Tab.put t x.1 x.2) [], since := 0,
        told := false, turn := a.nat off 1 }
    (a.nat off 1, a.nat (off + 3) 1 / 16, d) :: a.landings n (off + 64 + 16 * k)

/-- The queues of section 3, with the owners that the concourse kept. -/
def Area.queues (a : Area) (off : Nat) (old : List Queue) : List Queue :=
  old.mapIdx fun k q =>
    let o := off + 64 + 320 * k
    { q with
      depth := a.nat (o + 1) 1, allow := a.nat (o + 2) 1, count := a.nat (o + 3) 1, head := a.nat (o + 4) 1, tail := a.nat (o + 5) 1
      infl := (List.range 16).map fun j => a.nat (o + 8 + j) 1
      entries := (List.range 64).map fun j => BitVec.ofNat 32 (a.nat (o + 64 + 4 * j) 4) }

/-- A tile of section 6. -/
def Area.tile (a : Area) (off : Nat) (t : Tile) : Tile :=
  { t with elems := ((List.range 4096).filterMap fun k =>
      let b := a.nat (off + 131072 + k) 1
      let e : Acc := ⟨BitVec.ofNat 256 (a.nat (off + 32 * k) 32), b / 8 % 2 == 1, b / 4 % 2 == 1, b / 2 % 2 == 1, b % 2 == 1⟩
      if e = Acc.zero then none else some (k, e)) }

/-- What a layout-3 area contradicts in itself (R416): the cause to raise, if any. -/
def Area.broken (a : Area) (nq : Nat) : Option Nat :=
  let soff := fun k => a.nat (32 + 4 * k) 4
  let lands := a.landings (min (a.nat (soff 1) 4) 64) (soff 1 + 64)
  let bars := (List.range (min (a.nat (soff 2) 4) 1024)).map fun k => soff 2 + 64 + 32 * k
  if a.nat (soff 3) 4 ≠ nq ∨ (List.range nq).any (fun k =>
      let o := soff 3 + 64 + 320 * k
      decide (a.nat (o + 1) 1 < a.nat (o + 3) 1 ∨ 15 < a.nat o 1)) then some 0x4E
  else if lands.any fun d => decide (7 < d.1) then some 0x4F
  else if bars.any fun o => decide (a.nat (o + 12) 4 < a.nat (o + 16) 4) then some 0x4D
  else none

end Sys2Proof.Machine
end

