-- ==== Sys2Proof/Machine/Preempt.lean ====
section
/-! DEFINITION. Pre-emption and resumption (R53, R77, R195, R208, R241, R262, R271 to R281, R345, R378, R384, R391, R416). -/

namespace Sys2Proof.Machine

/-! ### Asking for a pre-emption (R271) -/

/-- A unit asked to leave its cores (R272). -/
def State.stopUnit (s : State) (u : Nat) : State :=
  { s with units := s.units.alter u fun (r : UnitRec) =>
      if r.st = .placed then { r with st := .stopping, stopAt := s.now, told := false } else r }

/-- The groups of a unit that stand on a core. -/
def State.standing (s : State) (u : Nat) : List (Nat × Group) :=
  s.groups.filter fun q => q.2.unit == u && q.2.placed && !q.2.released

/-- The class, the context and the dies of a unit. -/
def State.unitPrio (s : State) (r : UnitRec) : Nat := ((s.launches.find r.launch).map Launch.prio).getD 0
def State.unitCtx (s : State) (r : UnitRec) : Nat := ((s.launches.find r.launch).map Launch.ctx).getD 0
def State.unitOn (s : State) (u die : Nat) : Bool := (s.standing u).any fun q => q.2.core / 256 == die

/-- The resources of a unit as they would be without it. -/
def State.without (s : State) (u : Nat) : State :=
  (s.standing u).foldl (fun s q =>
    let t := s.freeGroup q.1
    { t with groups := t.groups.alter q.1 fun (x : Group) => { x with placed := false } }) s

/-- Whether a waiting unit would find a place. -/
def State.wouldPlace (s : State) (die : Nat) (i : Intake) : Bool :=
  match s.placeEntry die i with
  | .none => false
  | _ => true

/-- Possible victims of a waiting unit, in the order in which they are taken: the lowest class first, within a class the most
recently placed first. -/
def State.victims (s : State) (prio : Nat) (dies : List Nat) : List Nat :=
  let can := s.units.filter fun q => q.2.st == .placed && decide (s.unitPrio q.2 < prio) && dies.any fun d => s.unitOn q.1 d
  let before := fun (x y : Nat × UnitRec) =>
    s.unitPrio x.2 < s.unitPrio y.2 ∨ (s.unitPrio x.2 = s.unitPrio y.2 ∧ y.2.placedAt < x.2.placedAt)
  let ins := fun (l : List (Nat × UnitRec)) (x : Nat × UnitRec) =>
    (l.takeWhile fun y => !decide (before x y)) ++ x :: l.dropWhile fun y => !decide (before x y)
  (can.foldl ins []).map Prod.fst

/-- The shortest first part of a list of victims whose going would let the unit be placed. -/
def State.enough (s : State) (die : Nat) (i : Intake) : List Nat → Option (List Nat)
  | [] => none
  | u :: us =>
    let s := s.without u
    if s.wouldPlace die i then some [u] else (s.enough die i us).map fun vs => u :: vs

/-- `PREEMPT_PRIORITY` (R271): the unit of arrival `u` has stood 4,096 cycles at the head of its class. -/
def execPreemptPriority (u : Nat) (s : State) : Result :=
  .next (match s.intake.find? fun q => q.2.any fun i => i.arrival == u with
    | none => s
    | some (d, l) =>
      match l.find? fun i => i.arrival == u with
      | none => s
      | some i =>
        match s.launches.find i.launch, i.headAt with
        | some lau, some t =>
          let leaving := (s.units.filter fun q => q.2.st == .stopping).map Prod.fst
          let free := leaving.foldl State.without s
          if s.now < t + 4096 ∨ free.wouldPlace d i then s
          else
            let dies := if 4 ≤ lau.reach.rank then List.range Config.dies else [d]
            match free.enough d i (s.victims i.prio dies) with
            | none => s
            | some vs => vs.foldl State.stopUnit s
        | _, _ => s)

/-- Cycles of a context's time slice, given in microseconds at 600 cycles each (R3, R286). -/
def Ctx.sliceCycles (c : Ctx) : Nat := (if c.slice = 0 then 10000 else c.slice) * 600

/-- Whether a unit of another context waits on a die. -/
def State.othersWait (s : State) (ctx die : Nat) : Bool :=
  (((s.intake.find die).getD []).any fun i => ((s.launches.find i.launch).map Launch.ctx) != some ctx) ||
  s.units.any fun q => q.2.st == .saved && !q.2.told && s.unitCtx q.2 != ctx &&
    ((s.launches.find q.2.launch).map Launch.die) == some die

/-- `TIME_SLICE_EXPIRY` (R271): every unit of a context that has run for its slice leaves a die on which another context waits. -/
def execTimeSliceExpiry (ctx : Nat) (s : State) : Result :=
  .next (match s.ctxs.find ctx with
    | none => s
    | some c =>
      let mine := s.units.filter fun q => q.2.st == .placed && s.unitCtx q.2 == ctx
      match mine with
      | [] => s
      | q :: qs =>
        let began := max c.sliceAt (qs.foldl (fun t x => min t x.2.placedAt) q.2.placedAt)
        let go := mine.filter fun q => (List.range Config.dies).any fun d => s.unitOn q.1 d && s.othersWait ctx d
        if s.now < began + c.sliceCycles ∨ go = [] then s
        else
          let s := { s with ctxs := s.ctxs.put ctx { c with sliceAt := s.now } }
          go.foldl (fun s q => s.stopUnit q.1) s)

/-! ### Saving (R272) -/

/-- Whether a segment may be saved: at program grade, with no cause but one under which R391 lets it be saved, at no turn of
a takeover, and outside the intervals of R46. -/
def State.segStill (s : State) (wp : Warp) (g : Seg) : Bool :=
  g.handler == 0 && g.record.isNone && g.queue.isEmpty && decide (g.notBefore ≤ s.now) &&
    (match g.cause with
      | none => true
      | some x => x.hid != 0 && savable x.code) &&
    (match g.takeover with
      | none => true
      | some t => wp.turnOver g t) &&
    (wp.resumeMask &&& g.slots) == 0

/-- Whether a warp slot has come to rest for the group `gid` (R272, steps 1 to 3). -/
def State.warpStill (s : State) (w gid : Nat) : Bool :=
  let wp := s.warp w
  let m := wp.lanesOfGroup gid
  wp.window.isNone && wp.sideLog.isEmpty && wp.irr == 0 && wp.ldCnt == 0 && wp.stCnt == 0 && wp.quCnt == 0 &&
    !(s.cmds.any fun c => c.2.warp == w && c.2.st == .deferred) &&
    (match wp.clause with
      | none => true
      | some c => (c.at_.lanes &&& m) == 0 || c.stands) &&
    wp.segs.all fun g => g.gid != gid || s.segStill wp g

/-- Whether every issued matrix operation of a group has written its tile (R241). -/
def State.tilesStill (s : State) (gid : Nat) : Bool :=
  s.cores.all fun c => c.2.tiles.all fun t =>
    (t.owner != some gid || t.seq.isEmpty) && !(t.seq.any fun o => match o with
      | .mma op => op.gid == gid
      | _ => false)

/-- Whether every matrix operation that a unit has issued has written its tile (R241, R272). -/
def State.unitTilesStill (s : State) (u : Nat) : Bool := (s.standing u).all fun q => s.tilesStill q.1

/-- Whether every warp of a group has come to rest. -/
def State.groupStill (s : State) (gid : Nat) : Bool := (s.warpsOf gid).all fun w => s.warpStill w gid

/-- Whether every group of a unit that still stands on a core may be saved now. -/
def State.unitStill (s : State) (u : Nat) : Bool := s.unitTilesStill u && (s.standing u).all fun q => s.groupStill q.1

/-- Whether a segment of a unit is at handler grade, or held for a cause with which R391 does not let it be saved (R345). -/
def State.unitTrapped (s : State) (u : Nat) : Bool :=
  (s.standing u).any fun q => (s.segsOf q.1).any fun x =>
    x.2.handler != 0 || x.2.record.isSome || x.2.cause.any fun c => c.hid == 0 || !savable c.code

/-- Whether a unit has come through the second step of its pre-emption (R272, R384): nothing in it is trapped, every warp stands at a boundary
with no window open, and its side log and its deferred-launch queue are empty. -/
def State.stepTwo (s : State) (u : Nat) : Bool :=
  !s.unitTrapped u && (s.standing u).all fun q => (s.warpsOf q.1).all fun w =>
    let wp := s.warp w
    wp.window.isNone && wp.sideLog.isEmpty && !(s.cmds.any fun c => c.2.warp == w && c.2.st == .deferred) &&
      (match wp.clause with
        | none => true
        | some c => (c.at_.lanes &&& wp.lanesOfGroup q.1) == 0 || c.stands) &&
      wp.segs.all fun g => g.gid != q.1 || s.segStill wp g

/-- The groups of a stopping unit that are saved next, once nothing in the unit is trapped (R345): a gang is saved whole (R241); of another unit
each group as soon as it has come to rest (R272, R279). -/
def State.savedNext (s : State) (u : Nat) (gang : Bool) : List (Nat × Group) :=
  if !s.unitTilesStill u || s.unitTrapped u then []
  else if gang then (if s.unitStill u then s.standing u else [])
  else ((s.standing u).filter fun q => s.groupStill q.1).take 1

/-- A takeover that pre-emption reaches between two turns ends without the notice (R378). -/
def State.endTakeovers (s : State) (gid : Nat) : State :=
  (s.segsOf gid).foldl (fun s q => if q.2.takeover.isSome then s.onWarp q.1 fun wp => wp.endTakeover q.2.lbase false else s) s

/-- A cause of a unit that pre-emption or resumption meets, posted with a hold identifier. -/
def State.unitCause (s : State) (u gid code : Nat) (addr : DWord) : State :=
  let f := s.fnOf gid
  let (k, s) := s.hold (logOwner code f) (.unit u)
  let s := { s with units := s.units.alter u fun (r : UnitRec) => { r with hid := k } }
  let core := ((s.group gid).map Group.core).getD 0
  let i : LogInfo :=
    { addr := addr, hold := k, gen := s.genOf gid, detail := Config.openDetail code, fn := f, ctx := s.ctxOf gid, die := core / 256,
      core := core % 256 }
  s.post code i

/-- What saving a unit comes to: done, waiting for lines of an area, or a cause. -/
inductive Saving
  | done (s : State)
  | waits (s : State)
  | full (gid : Nat)
  | fault (gid : Nat) (area : DWord)

/-- Everything that a group's held slots have given is in its registers (R272; assumption 89). -/
def State.settleHeld (s : State) (gid : Nat) : State :=
  (s.warpsOf gid).foldl (fun s w => s.onWarp w fun wp => wp.settleHeld gid) s

/-- Groups written to areas of the save pool, one after another (R272, R275); the writes wait for leases on the lines of an area, and behind what
reached its home slices before (R170). -/
def State.saveAll (s : State) (u : Nat) : List (Nat × Group) → Saving
  | [] => .done (s.unclaim (.unit u))
  | (gid, _) :: rest =>
    let s0 := s
    let s := (s.endTakeovers gid).settleHeld gid
    match s.group gid, s.launchOf gid with
    | some x, some l =>
      let (img, barOff) := s.saveImage gid x l
      let n := (chunkBytes img).length
      let pages := (n + 4095) / 4096
      match s.ctxs.find l.ctx with
      | none => .full gid
      | some c =>
        match c.poolRange pages with
        | none => .full gid
        | some k =>
          let area := c.spBase + BitVec.ofNat 64 (4096 * k)
          match s.areaPieces l.fn area.toNat n with
          | none => .fault gid area
          | some ps =>
            match s0.gainLines (x.core / 256) (.unit u) (pieceLines ps) with
            | (t, false) => .waits t
            | (_, true) =>
              let s := { s with ctxs := s.ctxs.put l.ctx { c with pool := c.pool ++ [(k, pages)] } }
              let s := ((s.writeArea gid area.toNat ps img barOff).unclaim (.unit u)).offCore gid
              { s with groups := s.groups.alter gid fun (y : Group) => { y with area := area } }.saveAll u rest
    | _, _ => s.saveAll u rest

/-- A unit that will never run again leaves the machine: its galleries are detached, its launch has one unit less. -/
def State.dropUnit (s : State) (u : Nat) : State :=
  let gs := s.groups.filter fun q => q.2.unit == u
  let s := gs.foldl (fun s q => (s.detachAll q.1).freeArea q.1) s
  match s.units.find u with
  | none => s
  | some r =>
    let s := if r.hid = 0 then s else s.unhold r.hid
    let s := { s with launches := s.launches.alter r.launch fun (l : Launch) => { l with taskq := none } }
    s.endUnit u true

/-- Whether the context of a unit has been ended (R286). -/
def State.ctxOver (s : State) (r : UnitRec) : Bool := ((s.ctxs.find (s.unitCtx r)).map Ctx.ended).getD true

/-- `PREEMPTION` (R272): groups of the unit that have come to rest are written to save areas and their resources are free; the unit is saved
with the last of them; a unit of a context that has been ended is not kept (R286). For a placed unit the row is the host's request through the
physical function, which asks it to leave (R271; assumption 66). -/
def execPreemption (u : Nat) (s : State) : Result :=
  .next (match s.units.find u with
    | none => s
    | some r =>
      let go := s.savedNext u (((s.launches.find r.launch).map Launch.gang).getD false)
      if r.st = .placed then s.stopUnit u
      else if r.st ≠ .stopping ∨ r.hid ≠ 0 ∨ (go = [] ∧ s.standing u ≠ []) then s.unclaim (.unit u)
      else match s.saveAll u go with
        | .waits t => t
        | .full gid => s.unitCause u gid 0xA6 0
        | .fault gid area => s.unitCause u gid 0xA7 area
        | .done t =>
          let t :=
            if t.standing u ≠ [] then t
            else
              let t := { t with units := t.units.put u { r with st := .saved, told := false } }
              if s.ctxOver r then t.dropUnit u else t
          t.checkBars)

/-- `PREEMPT_BLOCKED` (R345, R384): a pre-emption that has not come through its second step in 2^24 cycles. -/
def execPreemptBlocked (u : Nat) (s : State) : Result :=
  .next (match s.units.find u with
    | none => s
    | some r =>
      if r.st ≠ .stopping ∨ r.told ∨ s.now < r.stopAt + 2 ^ 24 ∨ s.stepTwo u then s
      else
        let s := { s with units := s.units.put u { r with told := true } }
        match (s.standing u).head?.bind fun q => (s.segsOf q.1).head? with
        | some (w, g) => s.post 0xA5 { s.segInfo w g with detail := Config.openDetail 0xA5 }
        | none => s)

/-! ### Resumption (R273) -/

/-- Whether a gallery that a saved group holds stands on a core or can be brought there (R193, R195). -/
def State.galAllows (s : State) (core : Nat) (name : DWord) (ctx : Nat) : Bool :=
  match s.findGal ctx name with
  | none => true
  | some (_, e) =>
    let held := s.groups.any fun q => q.2.placed && s.ctxOf q.1 == ctx && q.2.gals.any fun x => x.1 == name
    match e.st with
    | .resident => e.core == core || !held
    | .evicted => (s.evictPlan core e.size true).isSome
    | .filling => e.core == core
    | .writingBack => e.target == some core || e.target == none

/-- The numbers of the landings that a save area binds. -/
def Area.landNos (a : Area) : List Nat := (a.landings (min (a.nat (a.nat 36 4) 4) 8) (a.nat 36 4 + 64)).map Prod.fst

/-- Whether a saved group may stand on a core, apart from R261: the landings that it had bound are free there, and its galleries
can be there (R195, R241). -/
def State.mayResume (s : State) (gid core : Nat) (a : Area) : Bool :=
  (a.landNos.all fun n => (s.landing core n).st == .free) &&
    ((((s.group gid).map Group.gals).getD []).map Prod.fst).all fun n => s.galAllows core n (s.ctxOf gid)

/-- Whether a saved group's galleries are resident on a core. -/
def State.galsThere (s : State) (gid core : Nat) : Bool :=
  (((s.group gid).map Group.gals).getD []).all fun x =>
    match s.findGal (s.ctxOf gid) x.1 with
    | none => true
    | some (_, e) => e.st == .resident && e.core == core

/-- A saved group's galleries set in motion toward a core (R188, R195). -/
def State.bringGals (s : State) (gid core : Nat) : State :=
  (((s.group gid).map Group.gals).getD []).foldl (fun s x =>
    match s.findGal (s.ctxOf gid) x.1 with
    | none => s
    | some (g, e) =>
      match e.st with
      | .resident =>
        if e.core = core then s else { s with gals := s.gals.put g { e with st := .writingBack, target := some core } }
      | .evicted => s.wantOn g core
      | .filling => s
      | .writingBack => { s with gals := s.gals.put g { e with target := some core } }) s

/-- A lane of a resumed segment stands where it was saved (R277): at its header, or at its slot again; past a barrier that has
completed meanwhile, or still held by one that is open (R279). -/
def State.standLane (s : State) (w gid idx l lb : Nat) (pc : DWord) (slot kind : Nat) (passed : Bool) : State :=
  let j := lb + l
  let next := pc + BitVec.ofNat 64 (8 * (slot + 2))
  if kind = 0 then s
  else if passed then s.onWarp w fun wp => wp.always fun wp => wp.setPcs (laneBit j) fun _ => next
  else if (kind = 3 ∨ kind = 4) ∧ s.bars.any (fun b => !b.done && b.has gid idx l) then
    let h : LaneHold := ⟨if kind = 3 then .sync else .drain, pc, slot, 0, 1, s.now, 0, []⟩
    s.onWarp w fun wp => wp.always fun wp => (wp.setPcs (laneBit j) fun _ => next).holdLanes (laneBit j) h
  else s.onWarp w fun wp => wp.always fun wp =>
    match wp.resume.find? fun (a : ClauseAt) => a.hdr == pc && a.slot == slot && a.words == [] &&
        (((wp.segOf ((firstLane a.lanes).getD 64)).map Seg.lbase) == some lb) with
    | some a => { wp with resume := wp.resume.map fun (b : ClauseAt) =>
        if b = a then { b with lanes := b.lanes ||| laneBit j } else b }
    | none => wp.standAt ⟨pc, 0, 0, [], laneBit j, slot, [], []⟩

/-- The registers, predicates, live lanes and flags of a resumed segment in a slot (R53, R54, R273, R277). -/
def Warp.refill (alone : Bool) (r : SegRec) (wp : Warp) : Warp :=
  let g := r.seg
  let reg := fun (wp : Warp) (n : Nat) =>
    let t := r.tags.getD n .void
    if t = .void then wp
    else wp.setReg n ((wp.reg n).write g.slots 0 (if alone then .all else .some) t fun l => wordAt (r.words.getD n []) (l - g.lbase))
  let wp := (List.range 128).foldl reg wp
  { wp with
    preds := wp.preds.mapIdx fun k p => p ||| g.abs (r.preds.getD k 0)
    live := (wp.live &&& ~~~g.slots) ||| g.abs r.live
    fpflags := wp.fpflags ||| r.flags
    engSeq := if wp.engSeq.toNat < r.engSeq.toNat then r.engSeq else wp.engSeq
    poison := wp.poison ++ r.bad.map fun b => b.1 * 64 + (g.lbase + b.2) }

/-- A resumed segment stands in a slot (R21, R273, R277); no rollback of a window that another segment of the slot has open undoes that. -/
def State.reseat (s : State) (w gid : Nat) (r : SegRec) (x : Group) : State :=
  let g := { r.seg with
    dropcnt := BitVec.ofNat 32 (min (r.seg.dropcnt.toNat + x.drops) 0xFFFF_FFFF)
    notices := (x.notices.find r.seg.idx).getD [] }
  let alone := (s.warp w).segs.isEmpty
  let s := s.onWarp w fun wp => (wp.seat g r.pcs).always (Warp.refill alone r)
  (List.range g.width).foldl (fun s l =>
    if !r.live.getLsbD l then s
    else
      let h := r.holds.getD l (0, 0)
      s.standLane w gid g.idx l g.lbase (r.pcs.getD l 0) h.1 h.2 (x.passed.contains (g.idx, l))) s

/-- The outstanding tokens of a group counted again (R77, R273): each command belongs to the warp in which the segment that issued it now
stands, and counts by itself; `moves` names a segment's warp before the save, its base, and its warp now. -/
def State.recount (s : State) (gid : Nat) (old : BitVec 16) (moves : List (Nat × Nat × Nat)) : State :=
  let gen := s.genOf gid
  let goes := fun (c : Cmd) => if c.gid != some gid || c.gen != old then none else moves.find? fun m => m.1 == c.warp && m.2.1 == c.lbase
  let count := (s.cmds.filterMap fun q => if q.2.token then none else (goes q.2).map fun m => m.2.2)
  let move := fun (n : Nat) (c : Cmd) => match goes c with
    | some m => { c with warp := m.2.2, gen := gen, insn := n, upto := 0 }
    | none => c
  let s := { s with cmds := s.cmds.mapV move }
  count.foldl (fun s w => s.onWarp w fun wp => { wp with enCnt := wp.enCnt + 1 }) s

/-- A saved group placed on a core and restored from its area (R273, R280, R281). -/
def State.resumeGroup (s : State) (gid core : Nat) (f : Fit) (a : Area) : State :=
  match s.group gid, s.launchOf gid with
  | some x, some l =>
    let soff := fun k => a.nat (32 + 4 * k) 4
    let base := (freeRange (s.spadUsed core []) l.spu).getD 0
    let y : Group := { x with
      core := core
      gen := x.gen + 1
      spadBase := base
      tiles := f.tiles
      queues := a.queues (soff 3) x.queues
      segSlots := f.slots.map Prod.fst
      placed := true
      area := 0
      passed := []
      drops := 0
      notices := [] }
    let s := { s with
      groups := s.groups.put gid y
      bars := s.bars.map fun (b : Bar) => { b with whole := b.whole.erase gid } }
    let s := (s.ungate core).ownTiles core f.tiles (some gid)
    let s := (f.tiles.mapIdx fun i t => (i, t)).foldl (fun s (i, t) => s.onTile core t fun z => a.tile (soff 6 + i * 135168) z) s
    let at_ := core * 2 ^ 20 + base * 16384
    let n := l.spu * 16384
    let s := s.zeroSpad core base l.spu
    let s := { s with
      spad := s.spad.putAll at_ ((a.bytes.drop (soff 7)).take n)
      poisonSpad := s.poisonSpad ++ (a.poison.filter fun k => decide (soff 7 ≤ 32 * k ∧ 32 * k < soff 7 + n)).map fun k =>
        at_ / 32 + (k - soff 7 / 32) }
    let recs := a.segs gid l.width l.segs 0 (soff 0)
    let s := (recs.zip f.slots).foldl (fun s (r, k) => s.reseat (core * 16 + k.1) gid r x) s
    let warpOf := fun i => core * 16 + ((f.slots.getD i (0, 0)).1)
    let baseOf := fun i => (f.slots.getD i (0, 0)).2
    let s := (a.landings (min (a.nat (soff 1) 4) 8) (soff 1 + 64)).foldl (fun s (k, i, d) =>
      s.setLanding core k { d with warp := warpOf i, lbase := baseOf i, since := s.now }) s
    let s := s.recount gid x.gen ((x.segSlots.zip f.slots).map fun (o, k, lb) => (x.core * 16 + o, lb, core * 16 + k))
    { s with ctxs := s.ctxs.alter l.ctx fun (c : Ctx) =>
        { c with pool := c.pool.filter fun p => c.spBase + BitVec.ofNat 64 (4096 * p.1) != x.area } }
  | _, _ => s

/-- What reading the areas of a unit comes to: their contents, waiting for what stands before the reads at a home slice, or a cause. -/
inductive Reading
  | waits
  | done (as : List (Nat × Area))
  | fault (gid : Nat)
  | layout (gid : Nat)
  | broken (gid code : Nat)

/-- The areas of the groups of a unit (R170), those of an earlier layout converted (R416). DESIGN CHOICE (assumption 49): what the conversion makes
of one is a free value. -/
def State.readAreas (s : State) : List Nat → Reading
  | [] => .done []
  | gid :: rest =>
    match s.group gid with
    | none => s.readAreas rest
    | some x =>
      if x.released then s.readAreas rest
      else match s.areaPieces (s.fnOf gid) x.area.toNat 64 with
        | none => .fault gid
        | some h =>
          if !s.piecesReadable (x.core / 256) h then .waits
          else
          let head := s.readArea h
          if 3 < head.nat 0 2 ∨ head.nat 0 2 = 0 then .layout gid
          else match s.areaPieces (s.fnOf gid) x.area.toNat (head.nat 4 4) with
            | none => .fault gid
            | some ps =>
              if !s.piecesReadable (x.core / 256) ps then .waits
              else
              let read := s.readArea ps
              let a : Area := if head.nat 0 2 = 3 then read else ⟨Config.convertedArea (head.nat 0 2) read.bytes, []⟩
              match a.broken x.queues.length with
              | some code => .broken gid code
              | none =>
                match s.readAreas rest with
                | .done as => .done ((gid, a) :: as)
                | r => r

/-- The area read for a group. -/
def areaOf (as : List (Nat × Area)) (gid : Nat) : Area := ((as.find? fun q => q.1 == gid).map Prod.snd).getD ⟨[], []⟩

/-- How a saved unit is seated (R260, R273). -/
def State.reseater (s : State) (l : Launch) (as : List (Nat × Area)) : Seater where
  bases := fun gid =>
    let a := areaOf as gid
    (a.segs gid l.width l.segs 0 (a.nat 32 4)).map fun r => some r.seg.lbase
  allow := fun gid core => !s.dieBlocked (core / 256) l.prio none && s.mayResume gid core (areaOf as gid)
  put := fun s core gid f => s.resumeGroup gid core f (areaOf as gid)

/-- Where a saved unit would be placed (R261, R263, R264, R273), to which its galleries migrate (R195). -/
def State.seatSaved (s : State) (l : Launch) (as : List (Nat × Area)) : Seating := s.seatUnit (s.reseater l as) l.die l (as.map Prod.fst)

/-- The saved barrier nodes that the groups of a unit hold, with the addresses of their records. -/
def State.savedNodes (s : State) (gids : List Nat) : List (Bar × Nat) :=
  s.bars.filterMap fun b => b.saved.bind fun a => if gids.any fun g => s.nodeOf g b then some (b, a) else none

/-- A node reloaded from its record (R280): an exchange takes the arrival word, and what it counted beyond the threads that have arrived is
kept; a completion that the record holds releases the participants, if it has not released them already. -/
def State.reloadNode (s : State) (b : Bar) (a : Nat) : State :=
  let count := s.readLoc (.hbm (a + 16)) 4
  let done := s.readLoc (.hbm (a + 20)) 4
  let s := s.perform none (.hbm (a + 16)) 4 0
  let node : Bar := { b with saved := none, extra := 0 }
  let rest := s.bars.filter fun x => x != b
  if b.done then { s with bars := rest }
  else if done = 1 then { s with bars := rest }.releaseBar node
  else
    let s := { s with bars := rest ++ [node] }
    { s with bars := rest ++ [{ node with extra := count - s.arrivals node }] }

/-- Every node of a resumed unit reloaded; the participants of one at which a later arrival disagreed raise `SYNC_MASK` (R280, R365). -/
def State.reloadNodes (s : State) (gids : List Nat) : State :=
  let s := (s.savedNodes gids).foldl (fun s x => s.reloadNode x.1 x.2) s
  let odd := s.bars.filter fun b => b.clash.isSome && b.saved.isNone
  odd.foldl (fun s b => s.dissolve b (b.clash.getD 0)) s

/-- A unit that cannot be restored ends (R416): its cause is posted and `GROUP_KILLED` follows. -/
def State.endSaved (s : State) (u gid code : Nat) : State :=
  let i : LogInfo := { gen := s.genOf gid, detail := Config.openDetail 0xAC, fn := s.fnOf gid, ctx := s.ctxOf gid }
  ((s.post code { i with detail := Config.openDetail code, addr := ((s.group gid).map Group.area).getD 0 }).post 0xAC i).dropUnit u

/-- `UNIT_RESUMPTION` (R273): a saved unit is placed again whole, once its galleries stand where its groups will, and no unit of a
higher class waits on its die. Its barrier nodes are reloaded by exchanges at their home slices, which wait for leases (R170, R280). -/
def execUnitResumption (u : Nat) (s : State) : Result :=
  .next (match s.units.find u with
    | none => s
    | some r =>
      match s.launches.find r.launch with
      | none => s
      | some l =>
        if r.st ≠ .saved ∨ r.hid ≠ 0 ∨ r.told ∨ s.ctxOver r then s
        else if ((s.intake.find l.die).getD []).any fun i => decide (l.prio < i.prio) then s
        else match s.readAreas r.gids with
          | .fault gid => s.unitCause u gid 0xA8 (((s.group gid).map Group.area).getD 0)
          | .layout gid =>
            let s := s.unitCause u gid 0xBA (((s.group gid).map Group.area).getD 0)
            { s with units := s.units.alter u fun (r : UnitRec) => { r with told := true } }
          | .broken gid code => s.endSaved u gid code
          | .waits => s
          | .done as =>
            if !(s.savedNodes r.gids).all fun x => s.lineReady (x.2 / 128) then s
            else match s.seatSaved l as with
            | .none => s
            | .evict t => if t.gals = s.gals then s else { s with gals := t.gals }
            | .placed t =>
              let core := fun gid => ((t.group gid).map Group.core).getD 0
              if as.all fun q => s.galsThere q.1 (core q.1) then
                ({ t with units := t.units.put u { r with st := .placed, placedAt := s.now, told := false } }.reloadNodes r.gids).checkBars
              else as.foldl (fun s q => s.bringGals q.1 (core q.1)) s)

end Sys2Proof.Machine
end

