-- ==== Sys2Proof/Machine/Traps.lean ====
section
/-! DEFINITION. Delivery of causes, the porter's part, and what time brings: the banister's ticks, escalation, stalls, and the
kill of a unit (R127, R128, R342 to R350, R374, R380, R382, R383, R390 to R398). -/

namespace Sys2Proof.Machine

/-! ### Handler entry (R344) -/

/-- A group ended by the porter for want of a handler (R344): `NO_HANDLER` with the original code. -/
def State.noHandler (s : State) (w : Nat) (g : Seg) (x : SegCause) : State :=
  let i := s.segInfo w g
  let i : LogInfo := { i with addr := x.logAddr, pc := x.logPc, detail := BitVec.ofNat 32 x.code,
                              islot := if x.cls = .d then 15 else x.at_.slot }
  (s.endThreads g.gid).post 0x1A i

/-- A deferred cause still queued at a segment that has lost its last lane goes to the lowest segment of the group that has one; the porter ends
a group without a live lane (R344). -/
def State.passDead (s : State) (w : Nat) (g : Seg) : State :=
  let wp := s.warp w
  match g.queue.find? fun x => x.cls = .d with
  | none => s
  | some x =>
    if wp.window.isSome ∨ (wp.counted &&& g.slots) ≠ 0 then s
    else
      let t := s.onWarp w fun wp => wp.onSeg g.lbase fun g => { g with queue := g.queue.erase x }
      match s.lowestLive g.gid with
      | some (k, l) => t.queueAt k l { x with addrs := [] }
      | none =>
        if s.warps.any fun q => (q.2.counted &&& q.2.lanesOfGroup g.gid) != 0 then s
        else t.endGroup g.gid w (Config.openDetail 0xAC)

/-- `HANDLER_ENTRY` (R344): a cause bound for the group trap handler is delivered once its window has committed (R207). -/
def execHandlerEntry (w lb : Nat) (s : State) : Result :=
  let wp := s.warp w
  .next (match wp.segAt lb with
    | none => s
    | some g =>
      match g.cause with
      | none => s.passDead w g
      | some x =>
        if causeDest x.code ≠ .handler ∨ !wp.mayDeliver ∨ g.record.isSome then s
        else if g.tbase = 0 then s.noHandler w g x
        else s.onWarp w fun wp => wp.enterHandler lb s.now)

/-! ### The porter's returns (R128, R347) -/

/-- Registers of some lanes written at once with one value for each lane. -/
def Warp.give (wp : Warp) (m : Mask) (n : Nat) (f : Nat → Word) : Warp :=
  let wp' := wp.deliverReg m n .general f
  { wp' with poison := clearPoison wp.poison n m }

/-- The results of a service in the executing lanes (R128): free words in `v0` to `v3`, or 0xFFFF_FFFF in `v0` for a number that
the table does not list. R128 names no register by which system software installs its table: the model's is empty after reset, and no row
changes it (assumption 106). -/
def State.serve (s : State) (w : Nat) (m : Mask) (number : Nat) : State :=
  if s.services.contains number then
    let n := s.freeNo
    let s := s.onWarp w fun wp => (List.range 4).foldl (fun (wp : Warp) k =>
      wp.give m k fun l => Config.serviceWord (n + 4 * l + k)) wp
    { s with freeNo := n + 256 }
  else s.onWarp w fun wp => wp.give m 0 fun _ => 0xFFFF_FFFF#32

/-- `PORTER_RETURN` (R255, R347): the cause wakes the porter, which has served a cause of a segment, waits for the host, or ends the group. -/
def execPorterReturn (w lb : Nat) (s : State) : Result :=
  let wp := s.warp w
  .next (match wp.segAt lb with
    | none => s
    | some g =>
      match g.cause with
      | none => s
      | some x =>
        if causeDest x.code ≠ .porter ∨ !wp.mayDeliver ∨ x.hid ≠ 0 then s
        else
          let s := s.wakePorter (dieOf w)
          match x.code with
          | 0x01 => s.emulate w lb
          | 0x17 =>
            let m := g.abs x.mask &&& wp.live
            let n := if s.services.contains x.detail.toNat then 4 else 1
            let s := s.onWarp w fun wp => ((List.range n).foldl (fun wp k => wp.outdoAt x.at_ m k) wp).resumeHeader lb true
            let s := s.serve w m x.detail.toNat
            (s.onWarp w fun wp => wp.onSeg lb Seg.nextCause).announce w lb
          | 0x18 =>
            let (k, s) := s.hold (s.fnOf g.gid) (.seg w lb)
            let s := s.onWarp w fun wp => wp.onSeg lb fun g => { g with cause := some { x with hid := k, since := s.now } }
            { s with out := s.out ++ [.debug g.gid k] }
          | 0x73 => s
          | 0x19 => s.endGroup g.gid w x.detail
          | _ => s.endGroup g.gid w (Config.openDetail 0xAC))

/-! ### Fetch faults (R393, R394) -/

/-- The first entry of the text-extent table that covers a page of a context (R393): its source, and the peer that holds it; or the fault of
the porter's read of the table (R394). -/
def State.extent (s : State) (ctx : Nat) (page : Nat) : Option (Except Nat (Nat × Option Nat)) :=
  (List.range s.lodge.txCnt.toNat).findSome? fun k =>
    let a := s.lodge.txBase.toNat + 32 * k
    let e : BitVec 256 := BitVec.ofNat 256 (s.mem.nat a 32)
    let vbase := fieldN e 63 0
    if Config.physTop < a + 32 then some (.error 0x8C)
    else if fieldN e 169 160 = ctx ∧ vbase ≤ page ∧ page < vbase + 4096 * fieldN e 159 128 then
      some (.ok (fieldN e 255 192 + (page - vbase), if e.getLsbD 185 then some (fieldN e 191 186) else none))
    else none

/-- The address of the level-0 entry of a page, if every entry above it is a table (R176, R393); the porter's own walk may fault (R394). -/
def State.leafSlot (s : State) (fn : Nat) (va : DWord) : List Nat → Nat → Except Nat Nat
  | [], _ => .error 0x89
  | lvl :: rest, table =>
    match s.stageTwo fn (table + 8 * vaIndex va lvl) with
    | none => .error 0x8C
    | some a =>
      if Config.physTop < a + 8 then .error 0x8C
      else if lvl = 0 then .ok a
      else
        let e := s.mem.dword a
        if pteValid e && !isLeaf lvl e then s.leafSlot fn va rest (ptePa e) else .error 0x89

/-- Whether a segment waits for the fill of a page of a context (R394). -/
def State.waitsFill (s : State) (ctx page : Nat) (g : Seg) : Bool :=
  s.ctxOf g.gid == ctx && match g.cause with
    | some x => x.code == 0x73 && x.hid == 0 && x.logAddr.toNat / 4096 == page / 4096
    | none => false

/-- A failure of the service, posted with one hold identifier for every segment that waits for the page (R394). -/
def State.fetchHold (s : State) (w : Nat) (g : Seg) (x : SegCause) (code : Nat) (detail : Word) : State :=
  let f := if code = 0x8C then 0 else logOwner code (s.fnOf g.gid)
  let mine := s.waitsFill (s.ctxOf g.gid) x.logAddr.toNat
  let (k, s) := s.hold f (.fetch w)
  let wait := fun (g : Seg) => if mine g then { g with cause := g.cause.map fun (x : SegCause) => { x with hid := k } } else g
  let s := { s with warps := s.warps.mapV fun _ wp => wp.onSegs wait }
  let i := s.segInfo w g
  s.post code { i with addr := x.logAddr, pc := x.logPc, hold := k, detail := detail, fn := f }

/-- The lanes of a cause return to where they stood: to the header if its clause had not been admitted, else to their slot. -/
def Warp.returnHeld (wp : Warp) (lb : Nat) : Warp :=
  match (wp.segAt lb).bind Seg.cause with
  | none => wp
  | some x => (if x.at_.cls = 7 ∨ x.cls = .d then wp.resumeHeader lb false else wp.resumeCause lb false).onSeg lb Seg.nextCause

/-- The page filled: the bytes at its frame, the instruction caches that could hold its lines, and `VL` by an atomic update at the home slice
(R179, R394); `cores` are those of the warps that wait for it. -/
def State.fillText (s : State) (w : Nat) (cores : List Nat) (leaf pa : Nat) (bs : List Byte) : State :=
  let s := s.writePieces false [⟨BitVec.ofNat 64 pa, 4096, .hbm pa, none⟩] bs
  let s := s.dropCode (porterCore (dieOf w)) fun _ => true
  let s := cores.foldl (fun s core => s.dropCode core fun c => c.line / 32 == pa / 4096) s
  s.leafOp ⟨noWarp, 0, false, noLane, .hbm leaf, 0, 8, .leafBits, 1, 0, dieOf w, .none⟩

/-- Whether no lease, no earlier claim and no wrap keeps the service from the lines of a page and of its leaf entry (R170, R172). -/
def State.textReady (s : State) (die leaf pa : Nat) : Bool :=
  s.lineReady (leaf / 128) && !s.wrapHeld die (.hbm leaf) && !s.wrapHeld die (.hbm pa) &&
    (List.range 32).all fun k => s.lineReady (pa / 128 + k)

/-- Bytes of the code store (R16). -/
def flashSize : Nat := 2 ^ 38

/-- Whether the code store cannot give the 4 KiB at an offset: they lie outside it, or a page that they touch has an error (R394, R407). -/
def State.flashBad (s : State) (src : Nat) : Bool :=
  decide (flashSize < src + 4096) ||
    s.retired.any fun q => q.2.1 == 11 && (q.2.2.toNat / 4096 == src / 4096 || q.2.2.toNat / 4096 == (src + 4095) / 4096)

/-- Since when the first of the segments that wait for a page of a context has waited for it. -/
def State.fillSince (s : State) (ctx page now : Nat) : Nat :=
  (s.warps.flatMap fun q => q.2.segs.filter (s.waitsFill ctx page)).foldl
    (fun t g => min t ((g.cause.map SegCause.since).getD t)) now

/-- The service of one segment's fetch fault: the page is filled once, and its leaf then serves whoever waits for it. -/
def State.serveFetch (s : State) (w : Nat) (g : Seg) (x : SegCause) : State :=
  let page := x.logAddr.toNat - x.logAddr.toNat % 4096
  let ctx := s.ctxOf g.gid
  let fn := s.fnOf g.gid
  let root := ((s.ctxs.find ctx).map fun c => c.root.toNat).getD 0
  let back := fun (s : State) => (s.onWarp w fun wp => wp.returnHeld g.lbase).announce w g.lbase
  let cores := ((s.warps.filter fun q => q.2.segs.any (s.waitsFill ctx page)).map fun q => coreOf q.1).eraseDups
  let fail := fun code => s.fetchHold w g x code (if code = 0x89 then 1 else Config.openDetail code)
  match s.leafSlot fn x.logAddr [5, 4, 3, 2, 1, 0] root with
  | .error code => fail code
  | .ok leaf =>
    let e := s.mem.dword leaf
    if pteValid e then back s
    else match s.extent ctx page with
      | none => fail 0x89
      | some (.error code) => fail code
      | some (.ok (src, peer)) =>
        match s.stageTwo fn (ptePa e) with
        | none => fail 0x8C
        | some pa =>
          if (physFault pa).isSome then fail 0x8C
          else if !s.textReady (dieOf w) leaf pa then s
          else match peer with
            | none =>
              if s.flashBad src then s.fetchHold w g x 0x89 2 else back (s.fillText w cores leaf pa (s.flash.bytes src 4096))
            | some p =>
              let at_ := p * 2 ^ 64 + src
              if s.peerText.any fun c => decide (at_ ≤ c.1 ∧ c.1 < at_ + 4096) then
                back (s.fillText w cores leaf pa (s.peerText.bytes at_ 4096))
              else if s.lostPkg p then fail 0xB7
              else if s.now < s.fillSince ctx page x.since + 6000000 then s
              else fail 0x8A

/-- `FETCH_FAULT_SERVICE` (R255, R394): a fetch fault wakes the porter, which serves those of a warp. -/
def execFetchFaultService (w : Nat) (s : State) : Result :=
  let wp := s.warp w
  .next (if !wp.mayDeliver then s
    else wp.segs.foldl (fun s g =>
      match ((s.warp w).segAt g.lbase).bind Seg.cause with
      | some x => if x.code = 0x73 ∧ x.hid = 0 then (s.wakePorter (dieOf w)).serveFetch w g x else s
      | none => s) s)

/-! ### Notices (R350) -/

/-- Whether a segment stands at a clause boundary: no clause and no slot holds a lane of it. -/
def Warp.atBoundary (wp : Warp) (g : Seg) : Bool :=
  (match wp.clause with
    | some c => c.at_.lanes &&& g.slots == 0
    | none => true) && wp.resumeMask &&& g.slots == 0

/-- `NOTICE_DELIVERY` (R350): the first waiting notice of a segment enters the usher. A lane's `vpc` names the header at which it
stands (R40). -/
def execNoticeDelivery (w lb : Nat) (s : State) : Result :=
  let wp := s.warp w
  .next (match wp.segAt lb with
    | none => s
    | some g =>
      match g.notices with
      | [] => s
      | code :: rest =>
        let run := wp.runnableIn g
        if g.udepth ≠ 0 ∨ g.handler ≠ 0 ∨ g.record.isSome ∨ g.cause.isSome ∨ g.takeover.isSome ∨ run = 0 ∨ !wp.atBoundary g then s
        else
          let hdr := ((wp.pick run).map Pick.hdr).getD 0
          let act := g.lmask &&& ~~~g.lpark &&& g.rel wp.live
          s.onWarp w fun wp =>
            (wp.goVpc run fun _ => g.ubase).onSeg lb fun g => { g with
              notices := rest
              etaken := 0
              evt := ⟨hdr, BitVec.ofNat 64 (8 * code + 1), hdr⟩
              udepth := 1
              usher := g.rel run
              urun := g.rel run
              vpc := (List.range g.width).map fun l => if act.getLsbD l then wp.standing (lb + l) else g.vpc.getD l 0
              notBefore := max g.notBefore (s.now + 12) })

/-! ### The banister's tick (R374) -/

/-- Whether a live lane of a segment is parked or out of the active mask. -/
def Warp.leftOut (wp : Warp) (g : Seg) : Bool := g.rel wp.live &&& (g.lpark ||| ~~~g.lmask) != 0

/-- Whether a segment's ticks run (R376, R378). -/
def Seg.ticking (g : Seg) : Bool :=
  !g.firmware && g.handler == 0 && g.record.isNone && g.cause.isNone && g.takeover.isNone

/-- One tick of a segment. -/
def State.tickSeg (s : State) (w : Nat) (g : Seg) : State :=
  let wp := s.warp w
  if !g.ticking then s
  else if g.progress then s.onWarp w fun wp => wp.onSeg g.lbase fun g => { g with progress := false }
  else if wp.leftOut g && g.udepth == 0 then
    s.onWarp w fun wp => wp.onSeg g.lbase fun g =>
      { g with bc := g.bc + 1, tripped := g.tripped || decide (g.bancnt.toNat < g.bc + 1) }
  else s

/-- A takeover that a tick has begun starts at the segment's clause boundary. -/
def State.tripSeg (s : State) (w : Nat) (lb : Nat) : State :=
  match (s.warp w).segAt lb with
  | none => s
  | some g =>
    if !g.tripped ∨ !(s.warp w).atBoundary g then s
    else if g.progress || !g.ticking || g.udepth != 0 then s.onWarp w fun wp => wp.onSeg lb fun g => { g with tripped := false }
    else s.startTakeover w lb 1

/-- `BANISTER_TICK` (R374): every 4,096 cycles each segment is judged; a takeover starts at once, or at the segment's next clause
boundary. -/
def execBanisterTick (s : State) : Result :=
  let all := s.warps.flatMap fun q => q.2.segs.map fun g => (q.1, g)
  let s := if 4096 * (s.ticks + 1) ≤ s.now then all.foldl (fun s x => s.tickSeg x.1 x.2) { s with ticks := s.ticks + 1 } else s
  .next (all.foldl (fun s x => s.tripSeg x.1 x.2.lbase) s)

/-! ### Escalation (R380, R382) -/

/-- `SOLO_PERIOD_END` (R380). -/
def execSoloPeriodEnd (w : Nat) (s : State) : Result :=
  let wp := s.warp w
  .next (if wp.soloUntil ≠ 0 ∧ wp.soloUntil ≤ s.now then s.setWarp w { wp with soloUntil := 0 } else s)

/-- `ESCALATION_DECAY` (R380). -/
def execEscalationDecay (w : Nat) (s : State) : Result :=
  let wp := s.warp w
  .next (if (wp.level = 1 ∨ wp.level = 2) ∧ wp.levelAt + 2 ^ 20 ≤ s.now then s.setWarp w { wp with level := 0, levelAt := s.now } else s)

/-- `SERIAL_PASS_START` (R382): the next warp that has qualified runs solo and favoured. -/
def execSerialPassStart (die : Nat) (s : State) : Result :=
  let p := (s.die die).serial
  .next (match p.warp, p.waiting with
    | none, w :: rest =>
      let s := s.onDie die fun d => { d with serial := ⟨some w, s.now, rest⟩ }
      if (s.warp w).segs = [] then s else s.onWarp w fun wp => { wp with soloUntil := s.now + 65536 }
    | _, _ => s)

/-- `SERIAL_PASS_END` (R382): after 65,536 cycles, or when the warp has ended or has been pre-empted. -/
def execSerialPassEnd (die : Nat) (s : State) : Result :=
  let p := (s.die die).serial
  .next (match p.warp with
    | none => s
    | some w =>
      if p.start + 65536 ≤ s.now ∨ (s.warp w).segs = [] then
        s.onDie die fun d => { d with serial := { d.serial with warp := none } }
      else s)

/-! ### Stalls (R342, R383, R391, R392) -/

/-- Why a warp's window cannot commit, as the detail word of `CKPT_STALL` (R383); for a window that only an irrevocable event keeps R383
gives no value (assumption 106). -/
def State.stallDetail (s : State) (w : Nat) : Option Word :=
  let wp := s.warp w
  match wp.window with
  | none => none
  | some x =>
    if x.evs.any WinEv.waits then some 0
    else if !wp.sideLog.isEmpty then some 1
    else if s.claimsOf (.commit w) ≠ [] then some 2
    else some (Config.openDetail 0xA3)

/-- `CKPT_STALL` (R383): posted once for a slot held 2^24 cycles by the window's limits or by a commit that waits. -/
def execCkptStall (w : Nat) (s : State) : Result :=
  let wp := s.warp w
  .next (match wp.clause, s.stallDetail w, wp.segs.head? with
    | some c, some d, some g =>
      match c.held, c.heldSince with
      | some h, some t =>
        if c.stallTold ∨ s.now < t + 2 ^ 24 ∨ (h ≠ .window ∧ h ≠ .irrevocable ∧ h ≠ .maintenance) then s
        else
          let s := s.onWarp w fun wp => { wp with clause := some { c with stallTold := true } }
          let i := s.segInfo w g
          s.post 0xA3 { i with pc := c.at_.hdr, detail := d, islot := c.at_.slot }
      | _, _ => s
    | _, _, _ => s)

/-- A stall posted for a segment. -/
def State.postStall (s : State) (code w : Nat) (g : Seg) (pc : DWord) (slot : Nat) : State :=
  let i := s.segInfo w g
  s.post code { i with pc := pc, islot := slot, detail := Config.openDetail code }

/-- `STALL_NOTIFICATION` (R342): a barrier (number `k` in the list of open ones), the queue operation of warp `k`, or landing
`k` % 8 of core `k` / 8 that has stayed open, held or signing for 2^30 cycles. -/
def execStallNotification (kind : StallKind) (k : Nat) (s : State) : Result :=
  .next (match kind with
    | .sync =>
      match s.bars[k]? with
      | none => s
      | some b =>
        if b.done ∨ b.told ∨ s.now < b.since + 2 ^ 30 then s
        else
          let s := { s with bars := setAt s.bars k { b with told := true } }
          match b.arrived.head?.bind fun a => (s.segsOf a.1).find? fun q => q.2.idx == a.2.1 with
          | some (w, g) => s.postStall 0x4A w g 0 15
          | none => s
    | .queue =>
      let wp := s.warp k
      match wp.clause with
      | none => s
      | some c =>
        match c.heldSince, (wp.segsIn c.at_.lanes).head? with
        | some t, some g =>
          if c.held ≠ some .queue ∨ c.stallTold ∨ s.now < t + 2 ^ 30 then s
          else
            let s := s.onWarp k fun wp => { wp with clause := some { c with stallTold := true } }
            s.postStall 0x4B k g c.at_.hdr c.at_.slot
        | _, _ => s
    | .landing =>
      let d := s.landing (k / 8) (k % 8)
      if d.st ≠ .signing ∨ d.told ∨ s.now < d.since + 2 ^ 30 then s
      else
        let s := s.setLanding (k / 8) (k % 8) { d with told := true }
        match (s.warp d.warp).segAt d.lbase with
        | some g => s.postStall 0x4C d.warp g 0 15
        | none => s)

/-- `LOAD_LONG` (R391). -/
def execLoadLong (w lb : Nat) (s : State) : Result :=
  .next (match (s.warp w).segAt lb with
    | none => s
    | some g =>
      match g.cause with
      | none => s
      | some x =>
        if x.hid = 0 ∨ x.told ∨ !savable x.code ∨ s.now < x.since + 2 ^ 24 then s
        else
          let s := s.onWarp w fun wp => wp.onSeg lb fun g => { g with cause := some { x with told := true } }
          let i := s.segInfo w g
          s.post 0x8E { i with addr := x.logAddr, pc := x.logPc, hold := x.hid, detail := Config.openDetail 0x8E, islot := x.at_.slot })

/-- `LOG_LONG` (R392). -/
def execLogLong (w : Nat) (s : State) : Result :=
  let wp := s.warp w
  .next (match wp.sideLog with
    | [] => s
    | e :: _ =>
      if wp.logTold ∨ s.now < wp.logSince + 2 ^ 24 then s
      else
        let s := s.onWarp w fun wp => { wp with logTold := true }
        match wp.segOf e.lane with
        | none => s
        | some g =>
          let i := s.segInfo w g
          s.post 0x8D { i with addr := e.va, hold := wp.logHold, detail := Config.openDetail 0x8D })

/-! ### The kill of a unit (R397, R398) -/

/-- The first fault that a tile meets in an operation of a unit's groups: the core, the cause, what failed, and the operation. -/
def State.unitFault (s : State) (u : Nat) : Option (Nat × Nat × XErr × MmaOp) :=
  s.cores.findSome? fun (core, _) => [0, 1].findSome? fun t =>
    match s.opFault core t with
    | some (code, e, op) => if ((s.group op.gid).map Group.unit) = some u then some (core, code, e, op) else none
    | none => none

/-- What a kill leaves of groups that stand in save areas: nothing; they are released with the unit, or wait for its relaunch (R190, R275,
R397). -/
def State.dropSaved (s : State) (u : Nat) (ends : Bool) : State :=
  (s.groups.filter fun q => q.2.unit == u && !q.2.placed).foldl (fun s q =>
    let s := (s.detachAll q.1).freeArea q.1
    if ends then { s with groups := s.groups.alter q.1 fun (x : Group) => { x with released := true } } else s) s

/-- `MATRIX_UNIT_KILL` (R397, R398): the unit is killed; it waits for the host to be relaunched, unless its operand lay outside the
view or this is its fourth kill, whose cause is posted without a hold before `MMA_RELAUNCH_LIMIT` (assumption 83). -/
def execMatrixUnitKill (u : Nat) (s : State) : Result :=
  .next (match s.unitFault u, s.units.find u with
    | some (core, code, e, op), some r =>
      let fn := s.fnOf op.gid
      let i : LogInfo := { addr := e.addr, pc := e.pc.getD 0, gen := s.genOf op.gid, detail := e.detail, fn := fn, ctx := s.ctxOf op.gid,
                           die := core / 256, core := core % 256, wslot := slotOf op.warp }
      let s := ((s.met (s.tileAsker core op.gid) e e.addr).killUnit u).dropSaved u false
      let gone := fun (s : State) => { s.dropSaved u true with units := s.units.alter u fun (r : UnitRec) => { r with st := .ended } }
      if code = 0x9D then gone (s.post 0xAC { i with detail := Config.openDetail 0xAC })
      else if 4 ≤ r.kills + 1 then gone ((s.post code i).post 0x94 { i with detail := Config.openDetail 0x94 })
      else
        let (k, s) := s.hold fn (.unit u)
        let s := { s with units := s.units.alter u fun (r : UnitRec) => { r with hid := k } }
        s.post code { i with hold := k }
    | _, _ => s)

end Sys2Proof.Machine
end

