-- ==== Sys2Proof/Machine/HostRegs.lean ====
section
/-! DEFINITION. What the host writes: function pages, the management page, contexts, code objects, cause logs and holds (R282 to
R287, R307, R308, R310, R318 to R320, R347, R348, R351 to R353, R386, R391 to R396, R400, R412, R413, R415). -/

namespace Sys2Proof.Machine

/-! ### Addresses of a function (R181, R284) -/

/-- The host-physical address of `n` bytes in a function's address space, if memory lies there. -/
def State.physOf (s : State) (fn a n : Nat) : Option Nat :=
  match s.stageTwo fn a, s.stageTwo fn (a + n - 1) with
  | some x, some y => if y < Config.physTop then some x else none
  | _, _ => none

/-- The piece that `n` bytes at a host-physical address make, as far as memory lies there (R13). -/
def physPiece (a n : Nat) : Piece := ⟨BitVec.ofNat 64 a, min n (Config.physTop - a), .hbm a, none⟩

/-- Bytes that the porter or the lodge writes at a host-physical address: above the top there is nothing to write to (R13). -/
def State.physWrite (s : State) (a : Nat) (bs : List Byte) : State :=
  let p := physPiece a bs.length
  s.writePieces false [p] (bs.take p.n)

/-- A host write waits: it is served again when memory may answer (R166, R170); and it has been served. -/
def State.await (s : State) (i : Instr) : State := if s.asked.contains i then s else { s with asked := s.asked ++ [i] }
def State.served (s : State) (i : Instr) : State := { s with asked := s.asked.erase i }

/-- The bytes of a range of virtual addresses in a context, read by a command processor or the porter of a die. -/
def State.readVirt (s : State) (die ctx fn a n : Nat) : Except XErr (List Byte × List Piece) :=
  match s.ranges (cpAsker die ctx fn) 0 .load [(a, n)] with
  | .error e => .error e
  | .ok ps => .ok (s.pieceBytes ps, ps)

/-! ### Rings (R283, R287) -/

/-- A ring as at reset. -/
def Ring.reset : Ring where
  base := 0
  size := 0
  ctx := 0
  stat := 0
  rdoff := 0
  wroff := 0
  frames := []
  gather := none
  skip := none
  wait := none
  turn := 0

/-- The key of ring `k` of function `fn` on a die; the die, function and number of a key. -/
def ringKey (die fn k : Nat) : Nat := (die * 32 + fn) * 16 + k
def ringDie (r : Nat) : Nat := r / 512
def ringFn (r : Nat) : Nat := r / 16 % 32

def State.ring (s : State) (r : Nat) : Ring := (s.rings.find r).getD Ring.reset
def State.setRing (s : State) (r : Nat) (x : Ring) : State := { s with rings := s.rings.put r x }
def State.onRing (s : State) (r : Nat) (f : Ring → Ring) : State := s.setRing r (f (s.ring r))

/-- The place of the ring itself at an offset. -/
def Ring.cursor (x : Ring) (off : Nat) : Cursor := ⟨x.base, x.size, off, true, 0, off⟩

/-- The ring from which fetching starts at `RDOFF`: nothing is fetched (R287); a skip that has still to take packets goes on (R294). -/
def Ring.start (x : Ring) : Ring :=
  let c := [x.cursor x.rdoff]
  { x with frames := [⟨c, c, [], [], 0⟩], gather := none, wait := none }

/-- The ring without anything fetched or under way. -/
def Ring.clear (x : Ring) : Ring := { x with frames := [], gather := none, skip := none, wait := none }

/-- The hold of a ring given back, and the lines that it has claimed. -/
def State.freeRing (s : State) (r : Nat) : State :=
  let x := s.ring r
  let s := s.unclaim (.ring r)
  match x.wait with
  | some (.host k) => s.unhold k
  | _ => s

/-- A cause of a ring posted (R310, R349). -/
def State.postRing (s : State) (r code : Nat) (addr : DWord) (detail : Word) (hold : Nat) : State :=
  s.post code { addr := addr, hold := hold, detail := detail, fn := ringFn r, ctx := (s.ring r).ctx, die := ringDie r }

/-- A ring stopped by a cause at a ring offset (R310): `RSTAT` 2, `RDOFF` names the packet; work already started runs on. -/
def State.stopRing (s : State) (r off code : Nat) (addr : DWord) (detail : Word) : State :=
  let s := (s.freeRing r).onRing r fun x => { x.clear with stat := 2, rdoff := off }
  s.postRing r code addr detail 0

/-! ### Waking (R255, R309) -/

/-- A host write to a function page wakes the porter of its die; its program cores stay gated until work is placed on them. -/
def State.hostWake (s : State) (die : Nat) : State :=
  if s.lodge.coresUp then (s.onDie die fun d => { d with porterGated := false }).wakePorter die else s

/-! ### Doorbells and ring configuration (R283, R287, R310) -/

/-- Whether the configuration of a ring is legal (R283). -/
def Ring.legal (x : Ring) : Bool :=
  x.base != 0 && x.base.toNat % 4096 == 0 && (List.range 9).any fun k => x.size == 4096 * 2 ^ k

/-- Whether a function has a context that runs. -/
def State.ctxLive (s : State) (ctx fn : Nat) : Bool :=
  match s.ctxs.find ctx with
  | some c => c.fn == fn && !c.ended
  | none => false

/-- `DOORBELL` (R287): the write offset is set; an idle ring starts, and a stopped one restarts at `RDOFF`. -/
def execDoorbell (die fn k : Nat) (v : DWord) (s : State) : Result :=
  let r := ringKey die fn k
  .next (if !s.lodge.coresUp then s
    else
      let s := s.hostWake die
      let x := s.ring r
      let bad := fun code => s.stopRing r x.rdoff code (x.base + BitVec.ofNat 64 x.rdoff) (Config.openDetail code)
      if !x.legal then bad 0x2D
      else if v.toNat % 16 ≠ 0 ∨ x.size ≤ v.toNat then bad 0x2C
      else if !s.ctxLive x.ctx fn then bad 0x2E
      else
        let x := { x with wroff := v.toNat }
        let x := if x.stat = 1 then x else x.start
        s.setRing r { x with stat := if x.stat = 1 ∨ x.rdoff ≠ x.wroff then 1 else 0 })

/-- `RING_CONFIG_WRITE` (R287): a write to an idle or stopped ring is taken and resets it. -/
def execRingConfigWrite (die fn k : Nat) (reg : RingReg) (v : DWord) (s : State) : Result :=
  let r := ringKey die fn k
  .next (if !s.lodge.coresUp then s
    else
      let s := s.hostWake die
      let x := s.ring r
      if x.stat = 1 then s
      else
        let x := { x.clear with rdoff := 0, wroff := 0, stat := 0 }
        s.setRing r (match reg with
          | .base => { x with base := v }
          | .size => { x with size := v.toNat }
          | .ctx => { x with ctx := v.toNat }))

/-! ### Triggers (R307, R308) -/

/-- `TRIGOVF` of a function page rises, to its top. -/
def State.trigDrop (s : State) (die fn : Nat) : State :=
  let k := die * 32 + fn
  { s with trigOvf := s.trigOvf.put k (min ((s.trigOvf.find k).getD 0 + 1) (2 ^ 64 - 1)) }

/-- Whether a trigger value is well formed (R307). -/
def trigLegal (v : DWord) : Bool := fieldN v 48 44 == 0 && decide (fieldN v 55 49 ≤ 64)

/-- A trigger of a graph on a die (R307, R308): it starts the run of an idle graph at once, is pending while one runs, or is dropped. `ctx`
is the context of the patch list; a dropped trigger's job is complete at once (R290). -/
def State.trigger (s : State) (die fn : Nat) (v : DWord) (ctx : Nat) (job : Option Nat) : State :=
  let g := die * 256 + fieldN v 63 56
  let drop := (s.trigDrop die fn).jobDone job false
  match s.graphs.find g with
  | none => drop
  | some x =>
    if x.unloading ∨ x.pending.isSome then drop
    else if x.run.isNone ∧ x.starting.isNone then
      { s with graphs := s.graphs.put g { x with starting := some (v, ctx, job) } }.later (.graphRunStart g)
    else { s with graphs := s.graphs.put g { x with pending := some (v, ctx, job) } }

/-- `TRIGGER` (R307): the patch list is of the context of the function's ring 0, which must be the function's own (R284); another starts nothing and
is `CTX_UNKNOWN`, as at a doorbell (assumption 106). -/
def execTrigger (die fn : Nat) (v : DWord) (s : State) : Result :=
  .next (if !s.lodge.coresUp then s
    else
      let s := s.hostWake die
      let ctx := (s.ring (ringKey die fn 0)).ctx
      if trigLegal v then
        if fieldN v 55 49 ≠ 0 ∧ !s.ctxLive ctx fn then s.post 0x2E { detail := Config.openDetail 0x2E, fn := fn, ctx := ctx, die := die }
        else s.trigger die fn v ctx none
      else s.post 0x2B { detail := hiWord v, fn := fn, ctx := ctx, die := die })

/-- `TRIGOVF_CLEAR` (R283). -/
def execTrigovfClear (die fn : Nat) (s : State) : Result :=
  .next (if !s.lodge.coresUp then s else { s.hostWake die with trigOvf := s.trigOvf.del (die * 32 + fn) })

/-! ### Contexts (R286) -/

/-- Whether a context number names a context that still has units, or that has not been ended. -/
def State.ctxInUse (s : State) (n : Nat) : Bool :=
  match s.ctxs.find n with
  | none => false
  | some c => !c.ended || s.units.any fun q => s.unitCtx q.2 == n

/-- Whether a context descriptor is refused (R286). -/
def State.ctxRefused (s : State) (d : BitVec 512) : Bool :=
  let slice := fieldN d 223 192
  fieldN d 511 224 != 0 || fieldN d 93 74 != 0 || fieldN d 73 64 == 0 || s.ctxInUse (fieldN d 73 64) ||
    (slice != 0 && decide (slice < 1000 ∨ 1000000 < slice)) || fieldN d 63 0 % 4096 != 0 || fieldN d 191 128 % 4096 != 0

/-- The context that a descriptor describes (R286). -/
def ctxOfDesc (d : BitVec 512) (fn now : Nat) : Ctx where
  fn := fn
  root := field d 63 0
  slice := fieldN d 223 192
  spBase := field d 191 128
  spSize := fieldN d 127 96
  gdie := fieldN d 95 94
  rootBad := false
  ended := false
  sliceAt := now
  pool := []

/-- `CTXCREATE` (R286): the porter reads the descriptor once, and creates the context or refuses it. -/
def execCtxcreate (die fn : Nat) (a : DWord) (s : State) : Result :=
  .next (if !s.lodge.coresUp then s
    else
      let s := s.hostWake die
      let refuse := s.post 0x29 { addr := a, detail := Config.openDetail 0x29, fn := fn, die := die }
      if a.toNat % 64 ≠ 0 then refuse
      else match s.physOf fn a.toNat 64 with
        | none => s.post 0x8C { addr := a, detail := Config.openDetail 0x8C, fn := 0, die := die }
        | some p =>
          let again : Instr := .ctxcreate die fn a
          let s := s.served again
          if !s.piecesReadable die [physPiece p 64] then s.await again else
          let d := BitVec.ofNat 512 (s.mem.nat p 64)
          if s.ctxRefused d then refuse else { s with ctxs := s.ctxs.put (fieldN d 73 64) (ctxOfDesc d fn s.now) })

/-- A unit that ends without a relaunch (R286, R397): at once, or with the last of its groups that stands on a core. -/
def State.endUnitLater (s : State) (u : Nat) : State :=
  let s := s.dropSaved u true
  if s.standing u = [] then s.endUnit u true
  else { s with units := s.units.alter u fun (r : UnitRec) => { r with st := .ended, hid := 0 } }

/-- A launch of which nothing is placed or will be: every unit that it had not begun is over (R286, R290). -/
def State.dropIntake (s : State) (i : Intake) : State :=
  match s.launches.find i.launch with
  | none => s
  | some l =>
    let n := if i.relaunch.isSome then 1 else i.units - i.next
    let s := (List.range n).foldl (fun s _ => s.jobDone l.job true) s
    let gone := fun (x : Group) => x.launch == i.launch && (s.units.find x.unit).isNone &&
      match i.relaunch with
      | some (k, _) => (l.unitGroups k).contains x.grp
      | none => false
    let s := { s with groups := s.groups.filter fun q => !gone q.2 }
    let l := { l with ended := l.ended + n, taskq := none }
    if l.unitCount ≤ l.ended then
      { s with launches := s.launches.del i.launch, groups := s.groups.filter fun q => q.2.launch ≠ i.launch }
    else { s with launches := s.launches.put i.launch l }

/-- A context ended (R286): its placed units are pre-empted and never resumed, its saved and waiting units are dropped, its galleries
are released, its rings are disabled, and its code objects are removed. -/
def State.endCtx (s : State) (n : Nat) : State :=
  let s := { s with ctxs := s.ctxs.alter n fun (c : Ctx) => { c with ended := true } }
  let mine := fun (i : Intake) => ((s.launches.find i.launch).map Launch.ctx) == some n
  let waiting := (s.intake.flatMap Prod.snd).filter mine
  let s := { s with intake := s.intake.mapV fun _ l => l.filter fun i => !mine i }
  let s := s.intake.foldl (fun s q => s.setIntake q.1 q.2) s
  let s := waiting.foldl State.dropIntake s
  let units := s.units.filter fun q => s.unitCtx q.2 == n
  let s := units.foldl (fun s q => match q.2.st with
    | .placed => s.stopUnit q.1
    | .saved => s.dropUnit q.1
    | .killed =>
      (if q.2.hid = 0 then s else s.unhold q.2.hid).endUnitLater q.1
    | _ => s) s
  let s := s.freeGals n
  let rings := (s.rings.filter fun q => q.2.ctx == n).map Prod.fst
  let s := rings.foldl (fun s r => (s.freeRing r).onRing r fun x => { x.clear with base := 0, rdoff := 0, wroff := 0, stat := 0 }) s
  { s with objs := s.objs.filter fun o => o.ctx ≠ n }

/-- `CTXEND` (R286): a function ends a context of its own. -/
def execCtxend (die fn : Nat) (v : DWord) (s : State) : Result :=
  .next (if !s.lodge.coresUp then s
    else
      let s := s.hostWake die
      if s.ctxLive v.toNat fn then s.endCtx v.toNat
      else s.post 0x2E { detail := Config.openDetail 0x2E, fn := fn, die := die })

/-! ### Code objects (R318 to R320, R351 to R353) -/

/-- The end of a range of a file, and whether two ranges share a byte. -/
def fileOverlap (a b : Nat × Nat) : Bool := decide (a.2 ≠ 0 ∧ b.2 ≠ 0 ∧ a.1 < b.1 + b.2 ∧ b.1 < a.1 + a.2)

/-- Whether no two ranges of a list share a byte. -/
def apart : List (Nat × Nat) → Bool
  | [] => true
  | a :: rest => rest.all (fun b => !fileOverlap a b) && apart rest

/-- A section entry of an image: kind, alignment, file offset, size (R319). -/
structure Section where
  kind : Nat
  align : Nat
  off : Nat
  size : Nat
deriving DecidableEq, Repr

/-- An image as its header describes it: `b` gives `n` bytes at an offset as a number (R318). -/
structure Image where
  bytes : List Byte

def Image.num (x : Image) (off n : Nat) : Nat := natOfBytes ((x.bytes.drop off).take n)
def Image.hdr (x : Image) : BitVec 512 := BitVec.ofNat 512 (x.num 0 64)
/-- The tables: section, symbol, kernel and relocation, by offset and count. -/
def Image.nsec (x : Image) : Nat := fieldN x.hdr 159 128
def Image.secoff (x : Image) : Nat := fieldN x.hdr 127 64
def Image.nsym (x : Image) : Nat := fieldN x.hdr 351 320
def Image.symoff (x : Image) : Nat := fieldN x.hdr 319 256
def Image.nkern (x : Image) : Nat := fieldN x.hdr 191 160
def Image.koff (x : Image) : Nat := fieldN x.hdr 255 192
def Image.nrel (x : Image) : Nat := fieldN x.hdr 447 416
def Image.reloff (x : Image) : Nat := fieldN x.hdr 511 448

/-- The section entries (R319). -/
def Image.sections (x : Image) : List Section :=
  (List.range x.nsec).map fun k =>
    let e : BitVec 256 := BitVec.ofNat 256 (x.num (x.secoff + 32 * k) 32)
    ⟨fieldN e 7 0, fieldN e 71 64, fieldN e 191 128, fieldN e 255 192⟩

/-- The bytes of the text section. -/
def Image.textLen (x : Image) : Nat := ((x.sections.find? fun e => e.kind == 0).map Section.size).getD 0

/-- A section's own declaration (R319). -/
def Section.legal (e : Section) : Bool :=
  decide (e.kind ≤ 5 ∧ e.align ≤ 16 ∧ (e.kind ≠ 0 ∨ 3 ≤ e.align)) && e.off % 2 ^ e.align == 0

/-- Check 4 (R352): tables and sections lie within the length, apart, and aligned as declared. -/
def Image.laidOut (x : Image) (len : Nat) (text : Nat) : Bool :=
  let tables := [(0, 64), (x.secoff, 32 * x.nsec), (x.symoff, 32 * x.nsym), (x.koff, 96 * x.nkern), (x.reloff, 16 * x.nrel)]
  let inside := fun (a : Nat × Nat) => decide (a.2 = 0 ∨ a.1 + a.2 ≤ len)
  tables.all inside &&
    (let all := tables ++ x.sections.map fun e => (e.off, e.size)
     all.all inside && apart all && x.sections.all Section.legal && text % 8 == 0)

/-- A kernel record's bits (R320). -/
def Image.kern (x : Image) (k : Nat) : BitVec 768 := BitVec.ofNat 768 (x.num (x.koff + 96 * k) 96)

/-- The queues that a kernel record declares: capacity and allowance. -/
def kernQueues (r : BitVec 768) : List (Nat × Nat) :=
  (List.range (fieldN r 324 320)).map fun k => (fieldN r (358 + 14 * k) (352 + 14 * k), fieldN r (365 + 14 * k) (359 + 14 * k))

/-- No offset in a kernel record (R320). -/
def kernNone : Nat := 2 ^ 64 - 1

/-- Check 5 (R352). -/
def Image.kernsGood (x : Image) : Bool :=
  let inText := fun a : Nat => decide (a % 8 = 0 ∧ a < x.textLen)
  (List.range x.nkern).all fun k =>
    let r := x.kern k
    let opt := fun a : Nat => a == kernNone || inText a
    inText (fieldN r 63 0) && opt (fieldN r 127 64) && opt (fieldN r 191 128) && decide (fieldN r 324 320 ≤ 16) &&
      (kernQueues r).all fun q => decide (4 ≤ q.1 ∧ q.1 ≤ 64 ∧ 1 ≤ q.2 ∧ q.2 ≤ q.1)

/-- Check 6 (R352): every relocation names a symbol and lies inside a section. -/
def Image.relocsGood (x : Image) : Bool :=
  (List.range x.nrel).all fun k =>
    let e : BitVec 128 := BitVec.ofNat 128 (x.num (x.reloff + 16 * k) 16)
    decide (fieldN e 47 16 < x.nsym) &&
      match x.sections[fieldN e 63 48]? with
      | some c => decide (fieldN e 127 64 + 8 ≤ c.size)
      | none => false

/-- The kernel record of an object placed at a text base (R320). -/
def Image.kernel (x : Image) (text : DWord) (k : Nat) : Kern :=
  let r := x.kern k
  let at_ := fun a : Nat => if a = kernNone then 0 else text + BitVec.ofNat 64 a
  ⟨text + field r 63 0, at_ (fieldN r 127 64), at_ (fieldN r 191 128), kernQueues r⟩

/-- The first check of R352 that an image fails. -/
def Image.refusal (x : Image) (len text held : Nat) (porter : Bool) : Option Nat :=
  let h := x.hdr
  if fieldN h 31 0 ≠ 0x315A5753 then some 0x1C
  else if fieldN h 47 32 ≠ 1 then some 0x1D
  else if 3 < fieldN h 55 48 then some 0x1B
  else if !x.laidOut len text then some 0x1E
  else if !x.kernsGood then some 0x1F
  else if !x.relocsGood then some 0x20
  else if fieldN h 56 56 ≠ 0 ∧ !porter then some 0x21
  else if 256 ≤ held then some 0x22
  else none

/-- The verdict written into a registration block (R351): `RCODE` and `RDONE`. -/
def State.answerObj (s : State) (p code : Nat) : State :=
  s.physWrite (p + 30) [s.mem.byte (p + 30) ||| 0x80, BitVec.ofNat 8 code]

/-- A registration block at a host-physical address is read, and its line gained for the verdict (R166, R170): `act` follows once both are
done; until then the host's write `again` waits. -/
def State.withBlock (s : State) (die p : Nat) (again : Instr) (act : State → BitVec 256 → State) : State :=
  let s := s.served again
  let c := Claimer.lodge p
  let block := physPiece p 32
  if s.claimsOf c = [] ∧ !s.piecesReadable die [block] then s.await again
  else
    let (s, all) := s.gainLines die c (pieceLines [block])
    if !all then s.await again else act (s.unclaim c) (BitVec.ofNat 256 (s.mem.nat p 32))

/-- A code object made known to a die, or refused (R351, R352): the block lies at a host-physical address, the image and the text in the
context that the block names; blocks of porter firmware may register privileged code. The porter reads and answers when memory may
answer it. -/
def State.register (s : State) (die : Nat) (a : DWord) (porter : Bool) (again : Instr) : State :=
  if !s.lodge.coresUp then s
  else
    let fault := fun (s : State) (addr : DWord) => s.post 0x8C { addr := addr, detail := Config.openDetail 0x8C, fn := 0, die := die }
    match s.physOf 0 a.toNat 32 with
    | none => fault s a
    | some p => s.withBlock die p again fun s b =>
      let fn := fieldN b 217 213
      let ctx := fieldN b 212 203
      let len := fieldN b 159 128
      match s.readVirt die ctx fn (fieldN b 63 0) (max len 64) with
      | .error e => fault (s.met (cpAsker die ctx fn) e e.addr) e.addr
      | .ok (bs, ps) =>
        if !s.piecesReadable die ps then s.await again
        else
          let x : Image := ⟨bs⟩
          let s := s.readTouch none ps
          let text := field b 127 64
          let held := (s.objs.filter fun o => o.ctx == ctx).length
          match x.refusal len text.toNat held porter with
          | some code =>
            (s.answerObj p code).post code { addr := field b 63 0, detail := Config.openDetail code, fn := fn, ctx := ctx, die := die }
          | none =>
            let o : CodeObj :=
              { die := die, fn := fn, ctx := ctx, img := field b 63 0, text := text, textLen := x.textLen,
                kernels := (List.range x.nkern).map (x.kernel text) }
            { s with objs := s.objs ++ [o] }.answerObj p 0

/-- `OBJREG` (R351, R352): a write of the physical function. -/
def execObjreg (die : Nat) (a : DWord) (s : State) : Result := .next (s.register die a false (.objreg die a))

/-- `OBJDEL` (R353). -/
def execObjdel (die : Nat) (a : DWord) (s : State) : Result :=
  .next (if !s.lodge.coresUp then s
    else match s.physOf 0 a.toNat 32 with
      | none => s.post 0x8C { addr := a, detail := Config.openDetail 0x8C, fn := 0, die := die }
      | some p => s.withBlock die p (.objdel die a) fun s b =>
        let same := fun (o : CodeObj) =>
          o.die == die && o.fn == fieldN b 217 213 && o.ctx == fieldN b 212 203 && o.img == field b 63 0 && o.text == field b 127 64
        match s.objs.find? same with
        | some o => { s with objs := s.objs.erase o }.answerObj p 0
        | none => s.answerObj p 0x23)

/-! ### Stage two (R285, R395) -/

/-- `S2_SEGMENT_WRITE` (R285, R395): every cached stage-two translation of the function is dropped first. -/
def execS2SegmentWrite (fn : Nat) (bound : Bool) (v : DWord) (s : State) : Result :=
  let x := s.fn fn
  let top := (if bound then x.s2base else v).toNat + (if bound then v else x.s2bound).toNat
  .next (if fn = 0 ∨ 31 < fn ∨ !s.lodge.coresUp then s
    else if v.toNat % 0x20_0000 ≠ 0 ∨ Config.physTop < top then s.post 0x8F { detail := Config.openDetail 0x8F, fn := fn }
    else
      let s := { s with xlats := s.xlats.filter fun t => t.fn ≠ fn }
      s.onFn fn fun x => if bound then { x with s2bound := v } else { x with s2base := v })

/-! ### MSI-X (R283, R348) -/

/-- A vector unmasked: a message that waits is sent. -/
def State.unmask (s : State) (fn v : Nat) : State :=
  let s := s.onFn fn fun x => { x with msix := x.msix.mapIdx fun k (e : Msix) => if k = v then { e with masked := false } else e }
  if (s.fn fn).msixPend.getLsbD v then
    (s.onFn fn fun x => { x with msixPend := x.msixPend &&& ~~~(BitVec.ofNat 16 (2 ^ v)) }).msix fn v
  else s

/-- `MSIX_VECTOR_UNMASK` (R348). -/
def execMsixVectorUnmask (fn v : Nat) (s : State) : Result := .next (if v < 16 ∧ fn < 32 then s.unmask fn v else s)

/-- A 64-bit write of a function's MSI-X table at an offset: the message address, or the data and the vector control. -/
def State.msixWrite (s : State) (fn off : Nat) (v : DWord) : State :=
  let k := off / 16
  let set := fun (g : Msix → Msix) => s.onFn fn fun x => { x with msix := x.msix.mapIdx fun j (e : Msix) => if j = k then g e else e }
  if off % 16 = 0 then set fun e => { e with addr := v }
  else
    let s := set fun e => { e with data := loWord v, masked := v.getLsbD 32 }
    if v.getLsbD 32 then s else s.unmask fn k

/-! ### Registers without a behaviour of their own (R283, R285, R348, R393) -/

/-- A 32-bit write of a function's MSI-X table at an offset (R283). -/
def State.msixWrite32 (s : State) (fn off : Nat) (v : Word) : State :=
  let k := off / 16
  let set := fun (g : Msix → Msix) => s.onFn fn fun x => { x with msix := x.msix.mapIdx fun j (e : Msix) => if j = k then g e else e }
  match off % 16 with
  | 0 => set fun e => { e with addr := hiWord e.addr ++ v }
  | 4 => set fun e => { e with addr := v ++ loWord e.addr }
  | 8 => set fun e => { e with data := v }
  | 12 =>
    let s := set fun e => { e with masked := v.getLsbD 0 }
    if v.getLsbD 0 then s else s.unmask fn k
  | _ => s

/-- One word of a wake-filter entry (R285). -/
def WakeEnt.write (e : WakeEnt) (off : Nat) (v : DWord) : WakeEnt :=
  let lo := fun x : BitVec 128 => (x.extractLsb' 64 64 : DWord) ++ v
  let hi := fun x : BitVec 128 => v ++ (x.extractLsb' 0 64 : DWord)
  match off with
  | 0x00 => { e with value := lo e.value }
  | 0x08 => { e with value := hi e.value }
  | 0x10 => { e with mask := lo e.mask }
  | 0x18 => { e with mask := hi e.mask }
  | 0x20 => { e with ports := v.extractLsb' 0 20, die := fieldN v 33 32, enable := v.getLsbD 63 }
  | _ => e

/-- A cause-log register of a function (R348); a value outside its stated range is discarded (R285). -/
def Fn.logWrite (x : Fn) (off : Nat) (v : DWord) : Fn :=
  match off with
  | 0x00 => if v.toNat % 4096 = 0 then { x with clbase := v } else x
  | 0x08 => if (List.range 10).any fun k => v.toNat == 128 * 2 ^ k then { x with clsize := v.toNat } else x
  | 0x18 => { x with clrd := loWord v }
  | _ => x

/-- A die tunable within its range (R285). -/
def Die.tune (d : Die) (off v : Nat) : Die :=
  match off with
  | 0x5800 => if 16 ≤ v ∧ v ≤ 4096 then { d with lterm := v } else d
  | 0x5808 => if v ≤ 65535 then { d with stealDly := v } else d
  | 0x5810 => if v ≤ 65535 then { d with galWait := v } else d
  | _ => d

/-- A package register of the lodge (R285, R393). -/
def Lodge.write (l : Lodge) (off : Nat) (v : DWord) : Lodge :=
  match off with
  | 0x3000 => if v.toNat % 4096 = 0 then { l with txBase := v } else l
  | 0x3008 => if v.toNat ≤ 4096 then { l with txCnt := v } else l
  | 0x5818 => { l with pkgNum := v.setWidth 6 }
  | 0x7000 => if v.toNat % 4096 = 0 then { l with fwAddr := v } else l
  | 0x7008 => { l with fwLen := v }
  | _ => l

/-- A write of the management page (R285). -/
def State.mgmtWrite (s : State) (die off : Nat) (v : DWord) : State :=
  if off % 8 ≠ 0 then s
  else if 0x2000 ≤ off ∧ off < 0x2800 then s.onFn ((off - 0x2000) / 64) fun x => x.logWrite (off % 64) v
  else if 0x6000 ≤ off ∧ off < 0x6400 then
    let k := (off - 0x6000) / 64
    { s with lodge := { s.lodge with wake := s.lodge.wake.mapIdx fun j (e : WakeEnt) => if j = k then e.write (off % 64) v else e } }
  else if 0x8000 ≤ off ∧ off < 0xA000 then s.msixWrite ((off - 0x8000) / 256) (off % 256) v
  else if 0x5800 ≤ off ∧ off < 0x5818 then s.onDie die fun d => d.tune off v.toNat
  else { s with lodge := s.lodge.write off v }

/-- `REGISTER_WRITE` (R282, R283, R285): a write narrower than 64 bits is discarded, but for those of 32 bits that the MSI-X tables take;
`OBJREG` is registered for porter firmware
where its core writes the page (R351, R352). -/
def execRegisterWrite (die : Nat) (page : RegPage) (off : Nat) (v : DWord) (s : State) : Result :=
  .next (match page with
    | .mgmt => s.mgmtWrite die off v
    | .mgmtPorter => if off = 0x1000 then s.register die v true (.registerWrite die .mgmtPorter off v) else s.mgmtWrite die off v
    | .fn f =>
      if !s.lodge.coresUp then s
      else
        let s := s.hostWake die
        if die = 0 ∧ 0x1000 ≤ off ∧ off < 0x1100 ∧ off % 8 = 0 then s.msixWrite f (off - 0x1000) v else s
    | .mgmt32 => if 0x8000 ≤ off ∧ off < 0xA000 then s.msixWrite32 ((off - 0x8000) / 256) (off % 256) (loWord v) else s
    | .fn32 f =>
      if !s.lodge.coresUp then s
      else
        let s := s.hostWake die
        if die = 0 ∧ 0x1000 ≤ off ∧ off < 0x1100 then s.msixWrite32 f (off - 0x1000) (loWord v) else s)

/-! ### The lodge's registers (R285, R412, R413, R415) -/

/-- `WFDROP_CLEAR` (R285). -/
def execWfdropClear (s : State) : Result := .next { s with lodge := { s.lodge with wfUnmatched := 0, wfFull := 0 } }

/-- A copy of a firmware image begins, unless one is under way (R285, R413); one of an image that memory does not hold fails at once (R13). -/
def State.fwCopy (s : State) (kind : Nat) : State :=
  let l := s.lodge
  if l.fwStat = 1 then s
  else if Config.physTop < l.fwAddr.toNat + l.fwLen.toNat then { s with lodge := { l with fwStat := 3 } }
  else { s with lodge := { l with fwStat := 1, fwKind := kind, fwImage := s.mem.bytes l.fwAddr.toNat l.fwLen.toNat } }

/-- `FWCMD_LODGE` and `FWCMD_PORTER` (R285). -/
def execFwcmdLodge (s : State) : Result := .next (s.fwCopy 0)
def execFwcmdPorter (s : State) : Result := .next (s.fwCopy 1)

/-- `MODRST` (R285): writing 1 requests a module reset. -/
def execModrst (v : DWord) (s : State) : Result :=
  .next (if v = 1 then { s with lodge := { s.lodge with resetAsked := true } } else s)

/-- `ATTREQ` (R415): a request for a report at a host-physical address; an address that is not 8-byte aligned is outside the register's range, and
discarded (R285). -/
def execAttreq (a : DWord) (s : State) : Result :=
  let l := s.lodge
  .next (if l.attStat = 1 ∨ a.toNat % 8 ≠ 0 then s
    else
      let bad := (granules a.toNat 64).any s.poison.contains
      if l.lifecycle = 0 ∨ l.lifecycle = 3 ∨ Config.physTop < a.toNat + 64 ∨ bad then
        { s with lodge := { l with attStat := 3 } }.post 0xB9 { addr := a, detail := Config.openDetail 0xB9 }
      else { s with lodge := { l with attStat := 1, attAddr := a } })

/-! ### Holds released or ended (R348, R391, R392, R394, R396, R397, R400) -/

/-- The run of a graph abandoned (R304): no further node becomes ready. -/
def State.abandon (s : State) (g : Nat) : State :=
  { s with graphs := s.graphs.alter g fun (x : Graph) => { x with run := x.run.map fun (y : Run) =>
      { y with abandoned := true, sts := y.sts.map fun t => if t = .ready then .waiting else t } } }

/-- The graph of whose node a command is the copy. -/
def State.copyGraph (s : State) (n : Nat) : Option Nat :=
  ((((s.cmds.find n).bind Cmd.job).bind fun j => s.jobs.find j).bind Job.node).map Prod.fst

/-- Whether a node of a graph is held, or the copy of one (R304, R420). -/
def State.nodeHeld (s : State) (g : Nat) : Bool :=
  s.holds.any fun h => match h.2.2 with
    | .node k _ => k == g
    | .cmd n => s.copyGraph n == some g
    | _ => false

/-- A graph whose run has ended, or whose trigger could not start one: an unload that holds on it acts, or its pending trigger starts a run
(R301, R308). -/
def State.nextTrigger (s : State) (g : Nat) (x : Graph) : State :=
  if x.unloading then { s with graphs := s.graphs.del g }
  else
    let s := { s with graphs := s.graphs.put g { x with starting := x.pending, pending := none } }
    if x.pending.isSome then s.later (.graphRunStart g) else s

/-- A run is over (R304, R308): what its nodes still have under way stays the work of the ring that started it (R290); a pending
trigger starts its run, and an unload that holds on the run acts (R301). -/
def State.endRun (s : State) (g : Nat) (x : Graph) (y : Run) : State :=
  let ring := (y.job.bind fun j => s.jobs.find j).map Job.ring
  let jobs := s.jobs.filterMap fun q =>
    match q.2.node with
    | some (k, _) =>
      if k ≠ g then some q
      else if q.2.left = 0 then none
      else ring.map fun r => (q.1, { q.2 with node := none, ring := r })
    | none => some q
  let s := { s with jobs := jobs }.jobDone y.job false
  s.nextTrigger g { x with run := none }

/-- The run of a graph ends once its end node has finished, or once it has been abandoned and its work has completed; a held node holds
the run (R304). -/
def State.settleRun (s : State) (g : Nat) : State :=
  match s.graphs.find g with
  | none => s
  | some x =>
    match x.run with
    | none => s
    | some y =>
      let busy := s.jobs.any fun q => (q.2.node.map Prod.fst) == some g
      if (y.done ∨ (y.abandoned ∧ !busy)) ∧ !s.nodeHeld g then s.endRun g x y else s

/-- Whether a hold is of a side log. -/
def Held.isLog : Held → Bool
  | .sideLog _ => true
  | _ => false

/-- A trigger whose run cannot start is gone; its run counts as completed (R290, R304). -/
def State.dropTrigger (s : State) (g : Nat) : State :=
  match s.graphs.find g with
  | none => s
  | some x =>
    match x.starting with
    | none => s
    | some (_, _, job) => ((s.unclaim (.graph g)).nextTrigger g { x with starting := none }).jobDone job false

/-- What a hold identifier of a function's log names (R348); a side log may have been posted to the physical function's log, too
(R392, R395). -/
def State.holdOf (s : State) (fn hid : Nat) : Option Held :=
  (s.holds.find? fun h => h.1 == hid && (h.2.1 == fn || (fn == 0 && h.2.2.isLog))).map fun h => h.2.2

/-- Segments of a warp whose fetch fault is held under an identifier. -/
def Warp.fetchHeld (wp : Warp) (hid : Nat) : List Seg :=
  wp.segs.filter fun g => (g.cause.map fun x => x.hid) == some hid

/-- `CLREL_RESUME` (R348): what the identifier names goes on. -/
def execClrelResume (fn hid : Nat) (s : State) : Result :=
  .next (match s.holdOf fn hid with
    | none => s
    | some h =>
      match h with
      | .sideLog w => s.onWarp w fun wp => { wp with logDrain := true }
      | h =>
        let s := s.unhold hid
        match h with
        | .sideLog _ => s
        | .seg w lb =>
          match ((s.warp w).segAt lb).bind Seg.cause with
          | none => s
          | some x =>
            (s.onWarp w fun wp =>
              if x.code = 0x18 then (wp.resumeHeader lb true).onSeg lb Seg.nextCause else wp.returnHeld lb).announce w lb
        | .warp w => s.onWarp w fun wp => { wp with level := 0, levelAt := s.now }
        | .cmd c =>
          let t := { s with cmds := s.cmds.alter c fun (x : Cmd) => { x with st := .released, hid := 0 } }
          match s.copyGraph c with
          | some g => t.settleRun g
          | none => t
        | .ring r =>
          let (n, s) := s.fresh
          s.onRing r fun x => { x with wait := none, turn := n }
        | .gallery g => { s with gals := s.gals.alter g fun (e : Gal) => { e with hid := 0 } }
        | .unit u => { s with units := s.units.alter u fun (r : UnitRec) => { r with hid := 0 } }.relaunch u
        | .die d => s.onDie d fun x => { x with wrapLate := false }
        | .fetch _ =>
          let again := fun (g : Seg) => { g with cause := g.cause.map fun (x : SegCause) =>
            if x.hid = hid then { x with hid := 0, since := s.now } else x }
          { s with warps := s.warps.mapV fun _ wp => wp.onSegs again }
        | .node g _ => s.settleRun g)

/-- A gallery whose fill or write-back the host ends (R400): the attaching groups of a fill end and the gallery is evicted; after a
write-back it is free, with its contents lost. -/
def State.endGallery (s : State) (g : Nat) : State :=
  match s.gals.find g with
  | none => s
  | some e =>
    let s := s.unclaim (.gallery g)
    if e.st = .filling then
      let att := fun (x : Nat × Nat × Bool) => !x.2.2 && coreOf x.1 == e.core
      let gids := (e.waiters.filter att).filterMap fun x => ((s.warp x.1).segAt x.2.1).map Seg.gid
      let left := e.waiters.filter fun x => !att x
      let s := { s with gals := s.gals.put g { e with st := .evicted, core := 0, sbase := 0, target := none, hid := 0, waiters := left } }
      gids.eraseDups.foldl State.endThreads s
    else { s with gals := s.gals.del g }

/-- A unit that the host ends: a saved one is dropped, one that stands ends, one that was killed is not relaunched. -/
def State.hostEndUnit (s : State) (u : Nat) : State :=
  match s.units.find u with
  | none => s
  | some r =>
    match r.st with
    | .saved => { s with units := s.units.put u { r with hid := 0 } }.dropUnit u
    | .killed => s.endUnitLater u
    | _ =>
      let gs := s.standing u
      gs.foldl (fun s q => s.endThreads q.1) (s.endUnitLater u)

/-- The groups whose writes stand in a side log. -/
def State.loggers (s : State) (w : Nat) : List Nat :=
  ((s.warp w).sideLog.filterMap fun e => ((s.warp w).segAt e.lbase).map Seg.gid).eraseDups

/-- `CLREL_END` (R348): what the identifier names ends; a side log is discarded, and its writers end: the writes of the warp stop at the last
that was performed (R392). -/
def execClrelEnd (fn hid : Nat) (s : State) : Result :=
  .next (match s.holdOf fn hid with
    | none => s
    | some h =>
      let s := s.unhold hid
      match h with
      | .sideLog w => ((s.loggers w).foldl State.endThreads (s.discardLog w))
      | .seg w lb =>
        match (s.warp w).segAt lb with
        | some g => s.endThreads g.gid
        | none => s
      | .warp w => (((s.warp w).segs.map Seg.gid).eraseDups).foldl State.endThreads s
      | .cmd c => s.endCmd c true
      | .ring r => (s.freeRing r).onRing r fun x => { x.clear with stat := 2 }
      | .gallery g => s.endGallery g
      | .unit u => s.hostEndUnit u
      | .die d => s.onDie d fun x => { x with wrapLate := false }
      | .fetch _ => ((s.warps.flatMap fun q => q.2.fetchHeld hid).map Seg.gid).eraseDups.foldl State.endThreads s
      | .node g n =>
        let s := (s.abandon g).settleRun g
        if n = 0xFFF then s.dropTrigger g else s)

end Sys2Proof.Machine
end

