-- ==== Sys2Proof/Machine/CmdProc.lean ====
section
/-! DEFINITION. The command processor: packets and their fields, fetch-ahead, the packets' execution, and what they start (R287 to
R302, R310, R373, R396, R420). -/

namespace Sys2Proof.Machine

/-! ### Packets (R288, R289) -/

def FPkt.w (p : FPkt) (k : Nat) : DWord := p.words.getD k 0
def FPkt.kind (p : FPkt) : Nat := fieldN (p.w 0) 63 56
def FPkt.len (p : FPkt) : Nat := fieldN (p.w 0) 55 52
def FPkt.kp (p : FPkt) : Nat := fieldN (p.w 0) 51 0
def FPkt.bytes (p : FPkt) : Nat := 16 * (p.len + 1)
/-- The detail word of the packet causes (R310). -/
def FPkt.detail (p : FPkt) : Word := hiWord (p.w 0)
/-- A field of the kind parameters. -/
def FPkt.par (p : FPkt) (hi lo : Nat) : Nat := fieldN (p.w 0) hi lo
/-- The 512-bit descriptor at a word. -/
def FPkt.desc (p : FPkt) (k : Nat) : BitVec 512 := BitVec.ofNat 512 ((List.range 8).foldl (fun n j => n + (p.w (k + j)).toNat * 2 ^ (64 * j)) 0)

/-- The `LEN` values of each kind (R289). -/
def lenLegal (kind len : Nat) : Bool :=
  match kind with
  | 0x01 => true
  | 0x02 => len == 4
  | 0x03 => len == 5 || len == 10 || len == 15
  | 0x04 => len == 4
  | 0x05 => len == 1
  | 0x06 => len == 1
  | 0x07 => len == 0
  | 0x08 => len == 0
  | 0x09 => decide (len ≤ 1)
  | 0x0A => len == 1
  | 0x0B => len == 0
  | 0x0C => len == 0
  | 0x0D => decide (1 ≤ len ∧ len ≤ 3)
  | _ => false

/-- The bits of `KP` that each kind defines (R289). -/
def kpMask (kind : Nat) : DWord :=
  match kind with
  | 0x03 => 0xFF
  | 0x06 => 0x7FF
  | 0x07 => 0xFFFF_00FF
  | 0x09 => 0x703
  | 0x0A => 0xFF03
  | 0x0C => 0x3FF
  | 0x0D => 0xFF
  | _ => 0

/-- The bit number of the lowest offending field of a launch descriptor (R373). -/
def launchFault (d : BitVec 512) : Option Nat :=
  let n := fieldN d 223 192
  let size := (fieldN d 340 338 + 1) * (fieldN d 343 341 + 1)
  if fieldN d 2 0 ≠ 0 then some 0
  else if n = 0 ∨ n % size ≠ 0 then some 192
  else if fieldN d 255 224 ≠ 0 then some 224
  else if fieldN d 320 320 = 1 ∧ fieldN d 319 256 % 0x20_0000 ≠ 0 then some 256
  else if fieldN d 324 323 = 3 then some 323
  else if 64 < fieldN d 331 325 then some 325
  else if 4 < fieldN d 346 344 then some 344
  else if fieldN d 511 347 ≠ 0 then some 347
  else none

/-- What the fields of a copy descriptor alone break (R370, R420). -/
def copyFault (d : BitVec 512) : Bool := fieldN d 511 259 != 0 || decide (4 < fieldN d 258 256)

/-- What an entry of a bundle breaks (R300, R310). -/
def FPkt.entryFault (p : FPkt) (e : Nat) : Option (Nat × Word) :=
  let k := 2 + 10 * e
  let d := p.desc (k + 2)
  if 1 < (p.w k).toNat ∨ p.w (k + 1) ≠ 0 then some (0x27, p.detail)
  else if p.w k = 1 then (if copyFault d then some (0x27, p.detail) else none)
  else (launchFault d).map fun b => (0x28, BitVec.ofNat 32 b)

/-- What a packet that is about to execute breaks by its words alone (R289, R293, R295, R300, R307, R310, R373, R420): the cause and
its detail word; `inBody` says that it is one of the packets of a loop body. -/
def FPkt.fault (p : FPkt) (inBody : Bool) : Option (Nat × Word) :=
  let field := some (0x27, p.detail)
  if p.kind = 0 ∨ 13 < p.kind then some (0x24, p.detail)
  else if !lenLegal p.kind p.len then some (0x25, p.detail)
  else if (p.w 0 &&& 0xF_FFFF_FFFF_FFFF &&& ~~~(kpMask p.kind)) ≠ 0 then field
  else match p.kind with
    | 0x02 =>
      if p.w 1 ≠ 0 then field else (launchFault (p.desc 2)).map fun b => (0x28, BitVec.ofNat 32 b)
    | 0x03 =>
      let n := p.par 7 0
      if n = 0 ∨ 3 < n ∨ p.w 1 ≠ 0 then field
      else if p.len ≠ 5 * n then some (0x25, p.detail)
      else (List.range n).findSome? p.entryFault
    | 0x04 => if copyFault (p.desc 2) then field else none
    | 0x05 =>
      let n := fieldN (p.w 2) 31 0
      if 2 ≤ p.lvl then some (0x26, p.detail)
      else if (p.w 1).toNat % 16 ≠ 0 ∨ n % 16 ≠ 0 ∨ 2 ^ 20 < n then field else none
    | 0x06 => if p.par 7 0 = 0 ∨ 5 < p.par 10 8 then field else none
    | 0x07 => if inBody then some (0x26, p.detail) else if p.par 7 0 = 0 ∨ 31 < p.par 7 0 then field else none
    | 0x08 => if inBody then some (0x26, p.detail) else none
    | 0x09 =>
      if 1 < p.par 1 0 then field
      else if p.len < p.par 1 0 then some (0x25, p.detail)
      else if p.par 1 0 = 1 ∧ 5 < p.par 10 8 then field else none
    | 0x0A => if 15 < p.par 15 8 ∨ (p.w 1).toNat % 8 ≠ 0 then field else none
    | 0x0B => if trigLegal (p.w 1) then none else some (0x2B, hiWord (p.w 1))
    | 0x0D => if 5 < p.par 7 0 then field else none
    | _ => none

/-- `COND` (R289). -/
def condHolds (cond : Nat) (w v : Word) : Bool :=
  match cond with
  | 0 => w == v
  | 1 => w != v
  | 2 => decide (w.toNat < v.toNat)
  | 3 => decide (w.toNat ≤ v.toNat)
  | 4 => decide (v.toNat < w.toNat)
  | _ => decide (v.toNat ≤ w.toNat)

/-! ### Failures of the command processor's own accesses (R396) -/

/-- A ring held at its packet until `CLREL` names the hold. -/
def State.holdRing (s : State) (r code : Nat) (e : XErr) : State :=
  let (k, s) := s.hold (logOwner code (ringFn r)) (.ring r)
  let s := s.onRing r fun x => { x with wait := some (.host k) }
  let i : LogInfo :=
    { addr := e.addr, pc := e.pc.getD 0, hold := k, detail := e.detail, fn := ringFn r, ctx := (s.ring r).ctx, die := ringDie r }
  s.post code i

/-- What a failed access of a command processor raises, and whether it holds (R388, R396, R420). -/
def cpCode (code : Nat) : Nat × Bool :=
  match code with
  | 0x50 | 0x52 => (0x6C, false)
  | 0x53 | 0x54 | 0x55 | 0x56 | 0x57 => (0x6D, false)
  | 0x59 => (0x6E, false)
  | 0x5A => (0x6F, false)
  | 0x74 | 0x75 | 0x76 | 0x77 => (0x87, false)
  | 0x7E | 0x7F | 0x80 | 0x81 => (0x83, true)
  | _ => (0x86, true)

/-- The detail word of such a cause (R389); none is given where no walk failed. -/
def cpDetail (code : Nat) (e : XErr) : Word := if code < 0x70 then Config.openDetail code else e.detail

/-- A failed access met at a packet: the ring is held there, or stops (R310, R396). -/
def State.cpFail (s : State) (r off : Nat) (e : XErr) : State :=
  let (code, held) := cpCode e.code
  let s := s.met (cpAsker (ringDie r) (s.ring r).ctx (ringFn r)) e e.addr
  if held then s.holdRing r code e else s.stopRing r off code e.addr (cpDetail code e)

/-! ### Fetching (R293, R296) -/

/-- The bytes that a place has left to fetch: up to the write offset, or to the end of its buffer. -/
def Ring.left (x : Ring) (c : Cursor) : Nat := if c.ring then (x.wroff + (x.size - c.off)) % x.size else c.size - c.off

/-- Places without those whose buffers are exhausted. -/
def trimCurs (cs : List Cursor) : List Cursor := cs.dropWhile fun c => !c.ring && decide (c.size ≤ c.off)

/-- The two words of unit `k` from a place, and where they lie. -/
def State.unitAt (s : State) (r : Nat) (c : Cursor) (k : Nat) : Except XErr (List DWord × List Piece) :=
  let off := c.off + 16 * k
  if c.ring then
    let a := c.base.toNat + off % c.size
    match s.stageTwo (ringFn r) a with
    | none => .error ⟨0x7E, BitVec.ofNat 32 (7 + 64 * ringFn r), BitVec.ofNat 64 a, none⟩
    | some p =>
      match physFault p with
      | some code => .error ⟨code, 16, BitVec.ofNat 64 a, none⟩
      | none => .ok ([s.mem.dword p, s.mem.dword (p + 8)], [⟨BitVec.ofNat 64 a, 16, .hbm p, none⟩])
  else
    match s.readVirt (ringDie r) (s.ring r).ctx (ringFn r) (c.base.toNat + off) 16 with
    | .error e => .error e
    | .ok (bs, ps) => .ok ([BitVec.ofNat 64 (natOfBytes (bs.take 8)), BitVec.ofNat 64 (natOfBytes (bs.drop 8))], ps)

/-- Several units from a place. -/
def State.unitsAt (s : State) (r : Nat) (c : Cursor) : List Nat → Except XErr (List DWord × List Piece)
  | [] => .ok ([], [])
  | k :: ks =>
    match s.unitAt r c k, s.unitsAt r c ks with
    | .error e, _ => .error e
    | _, .error e => .error e
    | .ok a, .ok b => .ok (a.1 ++ b.1, a.2 ++ b.2)

/-- What an attempt to fetch the next packet comes to: a packet and where it lies, nothing to fetch yet, a packet that runs past its buffer (R293), or
a failed read. -/
inductive Fetch
  | pkt (p : FPkt) (ps : List Piece)
  | dry
  | long (off : Nat) (addr : DWord) (detail : Word)
  | fail (off : Nat) (e : XErr)

/-- Whether a packet is an `INDIRECT` that the fetcher follows. -/
def FPkt.follows (p : FPkt) : Bool := p.kind == 5 && (p.fault false).isNone

/-- The next packet of a stretch of execution. -/
def State.fetchPkt (s : State) (r : Nat) (curs : List Cursor) : Fetch :=
  let x := s.ring r
  match trimCurs curs with
  | [] => .dry
  | c :: cs =>
    let off := if c.ring then c.off else c.rpos
    let addr := c.base + BitVec.ofNat 64 c.off
    if x.left c < 16 then .dry
    else match s.unitAt r c 0 with
      | .error e => .fail off e
      | .ok (ws, _) =>
        let h := ws.headD 0
        let n := fieldN h 55 52
        if x.left c < 16 * (n + 1) then (if c.ring then .dry else .long off addr (hiWord h))
        else match s.unitsAt r c (List.range (n + 1)) with
          | .error e => .fail off e
          | .ok (ws, ps) =>
            let next := { c with off := if c.ring then (c.off + 16 * (n + 1)) % c.size else c.off + 16 * (n + 1) }
            let p : FPkt := ⟨ws, addr, c.lvl, off, next :: cs, false⟩
            if p.follows then
              .pkt { p with followed := true, curs := ⟨p.w 1, fieldN (p.w 2) 31 0, 0, false, c.lvl + 1, off⟩ :: next :: cs } ps
            else .pkt p ps

/-- The packets and bytes that stand fetched and unexecuted, those of loop bodies among them (R295, R296). -/
def Ring.ahead (x : Ring) : Nat × Nat :=
  let ps := (x.frames.flatMap fun f => if f.body = [] then f.fetched else f.body) ++ ((x.gather.map LoopSt.body).getD [])
  (ps.length, ps.foldl (fun n p => n + p.bytes) 0)

/-! ### Taking packets, skips and loop bodies (R293 to R295) -/

/-- What taking the next packet at a level comes to. -/
inductive Pull
  | pkt (p : FPkt) (x : Ring)
  | ended
  | dry

/-- The next packet at a level, without the packets of its buffer; `ended` at the end of the buffer or of a pass. -/
def Ring.pull (x : Ring) (lvl : Nat) : Pull :=
  match x.frames with
  | [] => .dry
  | f :: fs =>
    match f.fetched with
    | p :: rest =>
      if p.lvl < lvl then .ended
      else
        let rest := rest.dropWhile fun q => decide (lvl < q.lvl)
        let cut := fun (cs : List Cursor) => cs.dropWhile fun c => decide (lvl < c.lvl)
        let f := { f with fetched := rest, here := cut p.curs, curs := if rest = [] then cut f.curs else f.curs }
        .pkt { p with followed := false } { x with frames := f :: fs }
    | [] =>
      if f.body ≠ [] then .ended
      else match trimCurs f.curs with
        | [] => .ended
        | c :: _ => if c.lvl < lvl then .ended else .dry

/-- The largest body of a loop in bytes (R295). -/
def bodyTop : Nat := 2048 - 16

/-- `RDOFF` names the first packet of the ring that has not executed (R283, R287). -/
def Ring.mark (x : Ring) : Ring :=
  match x.frames with
  | [f] =>
    match trimCurs f.here with
    | [c] => { x with rdoff := c.off }
    | _ => x
  | _ => x

/-- A ring that is empty is idle, with what a skip has still to take (R283, R287, R294). -/
def Ring.rest (x : Ring) : Ring :=
  match x.frames with
  | [f] =>
    match f.fetched, trimCurs f.curs with
    | [], [c] => if f.body = [] ∧ c.ring ∧ x.left c = 0 then { x with stat := 0 } else x
    | _, _ => x
  | _ => x

/-- What a ring comes to between packets: skipped packets are taken away, a loop's body is taken up, exhausted buffers and passes
end, and the ring is idle when everything has executed (R287, R293 to R295); a packet that breaks a rule stops the ring when
it is about to execute (R310). -/
def State.settleRing (s : State) (r : Nat) : Nat → State
  | 0 => s
  | n + 1 =>
    let x := s.ring r
    let stop := fun (p : FPkt) (q : Nat × Word) => s.stopRing r p.rpos q.1 p.addr q.2
    if x.stat ≠ 1 ∨ x.wait.isSome then s
    else match x.gather, x.skip with
      | some g, _ =>
        match x.pull g.head.lvl with
        | .dry => s
        | .ended => stop g.head (0x27, g.head.detail)
        | .pkt p y =>
          let g := { g with need := g.need - 1, body := g.body ++ [p] }
          if bodyTop < g.body.foldl (fun k q => k + q.bytes) 0 then stop g.head (0x27, g.head.detail)
          else if g.need ≠ 0 then (s.setRing r { y with gather := some g }).settleRing r n
          else
            let loop : Frame := ⟨[], [], g.body, g.body, g.count - 1⟩
            (s.setRing r { y with gather := none, frames := if g.count = 0 then y.frames else loop :: y.frames }).settleRing r n
      | none, some (lvl, k) =>
        let ended := (s.setRing r { x with skip := none }).settleRing r n
        if k = 0 then ended
        else match x.pull lvl with
          | .dry => s.setRing r x.mark.rest
          | .ended => ended
          | .pkt p y =>
            let more := if p.kind = 7 ∧ p.len = 0 then p.par 7 0 else 0
            (s.setRing r { y with skip := some (lvl, k - 1 + more) }).settleRing r n
      | none, none =>
        match x.frames with
        | [] => s
        | f :: fs =>
          let x := x.mark
          let s := s.setRing r x
          match f.fetched with
          | p :: _ =>
            match p.fault (f.body != []) with
            | some q => s.stopRing r p.rpos q.1 p.addr q.2
            | none => s
          | [] =>
            if f.body ≠ [] then
              if f.passes = 0 then (s.setRing r { x with frames := fs }).settleRing r n
              else (s.setRing r { x with frames := { f with fetched := f.body, passes := f.passes - 1 } :: fs }).settleRing r n
            else match trimCurs f.curs, fs with
              | [], _ => (s.setRing r { x with frames := fs }).settleRing r n
              | _, _ => s.setRing r x.rest

/-- Enough turns for what can stand fetched. -/
def settleFuel : Nat := 4096

/-- The packet that a ring is to execute, if nothing holds it. -/
def State.headPkt (s : State) (r : Nat) : Option FPkt :=
  let x := s.ring r
  if x.stat ≠ 1 ∨ x.wait.isSome ∨ x.gather.isSome ∨ x.skip.isSome then none
  else x.frames.head?.bind fun f => f.fetched.head?

/-- A ring that has a packet to execute, and had none before, takes its place in the order of readiness (R287). -/
def State.readyRing (s : State) (r : Nat) (before : Bool) : State :=
  if before || (s.headPkt r).isNone then s
  else
    let (n, s) := s.fresh
    s.onRing r fun x => { x with turn := n }

/-- `PACKET_FETCH` (R179, R296): the innermost stream takes the next packet, while no more than 32 packets and 2,048 bytes stand
unexecuted; a failed read counts only for the packet that is to execute next. -/
def execPacketFetch (r : Nat) (s : State) : Result :=
  let x := s.ring r
  let held : Bool := match x.wait with
    | some (.host _) => true
    | _ => false
  .next (if x.stat ≠ 1 ∨ held then s
    else
      let loops := x.frames.takeWhile fun f => f.body != []
      match x.frames.drop loops.length with
      | [] => s
      | f :: fs =>
        let next := loops = [] ∧ f.fetched = []
        if ¬next ∧ 32 ≤ x.ahead.1 then s
        else match s.fetchPkt r f.curs with
          | .dry => s
          | .long off addr detail => if next then s.stopRing r off 0x25 addr detail else s
          | .fail off e => if next then s.cpFail r off e else s
          | .pkt p ps =>
            if (¬next ∧ 2048 < x.ahead.2 + p.bytes) ∨ !s.piecesReadable (ringDie r) ps then s
            else
              let f := { f with fetched := f.fetched ++ [p], curs := p.curs }
              (((s.readTouch none ps).setRing r { x with frames := loops ++ f :: fs }).settleRing r settleFuel).readyRing r
                (s.headPkt r).isSome)

/-! ### Executing packets -/

/-- The head packet taken from what is fetched. -/
def Ring.popPkt (x : Ring) : Ring :=
  match x.frames with
  | [] => x
  | f :: fs =>
    match f.fetched with
    | [] => x
    | p :: rest => { x with frames := { f with fetched := rest, here := p.curs } :: fs }

/-- The head packet has executed: `f` changes the ring as the packet says, and the ring is ready behind those that are ready (R287). -/
def State.donePkt (s : State) (r : Nat) (f : Ring → Ring) : State :=
  let (n, s) := s.fresh
  (s.onRing r fun x => { f x.popPkt with wait := none, turn := n }).settleRing r settleFuel

/-- A packet of a kind executes. -/
def State.pkt (s : State) (r kind : Nat) (act : FPkt → State) : State :=
  match s.headPkt r with
  | none => s
  | some p => if p.kind = kind then act p else s

/-- The ring stops at its head packet. -/
def State.stopAt (s : State) (r : Nat) (p : FPkt) (code : Nat) (detail : Word) : State := s.stopRing r p.rpos code p.addr detail

/-- A 32-bit word that a packet or a node names, read as one event (R199, R294, R298). -/
def State.cpWord (s : State) (die ctx fn : Nat) (va : DWord) : Except XErr (Word × Piece) :=
  match s.place (cpAsker die ctx fn) 0 .load 4 va with
  | .error e => .error e
  | .ok p =>
    let x : Piece := ⟨va, 4, p.loc, p.xlat⟩
    .ok (BitVec.ofNat 32 (natOfBytes (s.pieceBytes [x])), x)

/-- A read by the command processor acts once its home slices answer (R170). -/
def State.cpRead (s : State) (die : Nat) (ps : List Piece) (act : State → State) : State :=
  if s.piecesReadable die ps then act (s.readTouch none ps) else s

/-- `PKT_NOP` (R289). -/
def execPktNop (r : Nat) (s : State) : Result := .next (s.pkt r 0x01 fun _ => s.donePkt r id)

/-- `PKT_INDIRECT` (R293): a buffer that has been followed stands next; one in a loop body is followed now (R295). -/
def execPktIndirect (r : Nat) (s : State) : Result :=
  .next (s.pkt r 0x05 fun p => s.donePkt r fun x =>
    if p.followed then x
    else
      let c : Cursor := ⟨p.w 1, fieldN (p.w 2) 31 0, 0, false, p.lvl + 1, p.rpos⟩
      { x with frames := ⟨[c], [c], [], [], 0⟩ :: x.frames })

/-- `PKT_PRED` (R294). -/
def execPktPred (r : Nat) (s : State) : Result :=
  .next (s.pkt r 0x06 fun p =>
    match s.cpWord (ringDie r) (s.ring r).ctx (ringFn r) (p.w 1) with
    | .error e => s.cpFail r p.rpos e
    | .ok (v, x) =>
      let ok := condHolds (p.par 10 8) v (loWord (p.w 2))
      s.cpRead (ringDie r) [x] fun s => s.donePkt r fun y => if ok then y else { y with skip := some (p.lvl, p.par 7 0) })

/-- `PKT_LOOP` (R295): the body is taken up. -/
def execPktLoop (r : Nat) (s : State) : Result :=
  .next (s.pkt r 0x07 fun p => s.donePkt r fun x => { x with gather := some ⟨p, p.par 7 0, [], p.par 31 16⟩ })

/-- `PKT_FFENCE` (R297): what has been fetched and not executed is discarded; fetching goes on at the next packet of each stream. -/
def execPktFfence (r : Nat) (s : State) : Result :=
  .next (s.pkt r 0x08 fun _ => s.donePkt r fun x =>
    { x with frames := x.frames.map fun (f : Frame) => if f.body = [] then { f with fetched := [], curs := f.here } else f })

/-! ### Work that packets start (R290 to R292, R300, R420) -/

/-- A job with one part that stands for its start. -/
def State.newJob (s : State) (ring : Nat) (node : Option (Nat × Nat)) : Nat × State :=
  let (j, s) := s.fresh
  (j, { s with jobs := s.jobs.put j ⟨1, ring, node, false⟩ })

/-- Parts added to a job. -/
def State.addParts (s : State) (j n : Nat) : State := { s with jobs := s.jobs.alter j fun (x : Job) => { x with left := x.left + n } }

/-- Whether work that a ring has started has not completed (R290). -/
def State.ringBusy (s : State) (r : Nat) : Bool := s.jobs.any fun q => q.2.ring == r && q.2.node.isNone

/-- The reach that a descriptor names (R291). -/
def reachOf (n : Nat) (gang : Bool) : Reach :=
  match n with
  | 0 => if gang then .die else .core
  | 1 => if gang then .die else .quad
  | 2 => .die
  | 3 => .pkg
  | _ => .pod

/-- The launch that a descriptor describes (R291). -/
def launchOfDesc (d : BitVec 512) (ctx fn die : Nat) (o : CodeObj × Kern) (job : Nat) : Launch :=
  let gm := fieldN d 340 338 + 1
  let gn := fieldN d 343 341 + 1
  let gang := decide (1 < gm * gn)
  { ctx := ctx
    fn := fn
    die := die
    entry := field d 63 0
    args := field d 127 64
    gaff := field d 191 128
    groups := fieldN d 223 192
    width := taskWidth (fieldN d 337 336)
    segs := fieldN d 335 332 + 1
    gm := gm
    gn := gn
    reach := reachOf (fieldN d 346 344) gang
    gang := gang
    spu := fieldN d 331 325
    acc := fieldN d 324 323
    prio := fieldN d 322 321
    stack := if fieldN d 320 320 = 1 then some (field d 319 256) else none
    kern := o.2
    text := o.1.text
    job := some job
    taskq := none
    dcdone := noCtr
    ended := 0 }

/-- A launch handed to the intake of a die (R259, R291); refused there, it never begins (R290, R373). Answers whether it began. -/
def State.startLaunch (s : State) (die ctx fn : Nat) (d : BitVec 512) (job : Nat) : Bool × State :=
  let refuse := fun code =>
    (false, s.post code { addr := field d 63 0, detail := Config.openDetail code, fn := fn, ctx := ctx, die := die })
  match s.findEntry die ctx (field d 63 0) with
  | none => refuse 0x23
  | some o =>
    let l := launchOfDesc d ctx fn die o job
    if l.neverFits then refuse 0x49
    else
      let (n, s) := s.fresh
      let s := { s with launches := s.launches.put n l }.addIntake die n l.prio l.unitCount none
      (true, s.addParts job l.unitCount)

/-- A copy released to its engine (R292, R420): an `ECOPY` with `.acq` and `.rel` and without a group. -/
def State.startCopy (s : State) (die ctx fn : Nat) (d : BitVec 512) (job : Nat) : State :=
  let (n, s) := s.fresh
  let c : Cmd :=
    { cell := 0xD0, seq := 0, warp := noWarp, lbase := 0, gid := none, gen := 0, desc := 0, image := none, acq := true, rel := true,
      st := .released, job := some job, ctx := ctx, fn := fn, die := die, token := false, hid := 0, since := s.now, insn := n, upto := 0,
      lanes := 0, pos := 0, gain := false, eng := none, judged := false, ready := false, got := [], wrote := [], staged := none,
      stagedBad := [], spoiled := false }
  (((({ s with cmds := s.cmds.put n c }).addParts job 1)).takeDesc n d).endEmpty n

/-- `PKT_LAUNCH` (R291). -/
def execPktLaunch (r : Nat) (s : State) : Result :=
  .next (s.pkt r 0x02 fun p =>
    let (j, s) := s.newJob r none
    ((s.startLaunch (ringDie r) (s.ring r).ctx (ringFn r) (p.desc 2) j).2.jobDone (some j) false).donePkt r id)

/-- `PKT_BUNDLE` (R300): every entry is handed over at this execution. -/
def execPktBundle (r : Nat) (s : State) : Result :=
  .next (s.pkt r 0x03 fun p =>
    let (j, s) := s.newJob r none
    let one := fun (s : State) (e : Nat) =>
      let d := p.desc (4 + 10 * e)
      if p.w (2 + 10 * e) = 0 then (s.startLaunch (ringDie r) (s.ring r).ctx (ringFn r) d j).2
      else s.startCopy (ringDie r) (s.ring r).ctx (ringFn r) d j
    (((List.range (p.par 7 0)).foldl one s).jobDone (some j) false).donePkt r id)

/-- `PKT_COPY` (R292, R420). -/
def execPktCopy (r : Nat) (s : State) : Result :=
  .next (s.pkt r 0x04 fun p =>
    let (j, s) := s.newJob r none
    ((s.startCopy (ringDie r) (s.ring r).ctx (ringFn r) (p.desc 2) j).jobDone (some j) false).donePkt r id)

/-! ### Waits and signals (R298, R299) -/

/-- `PKT_WAIT_COMPLETION` (R298): mode 0. -/
def execPktWaitCompletion (r : Nat) (s : State) : Result :=
  .next (s.pkt r 0x09 fun p =>
    if p.par 1 0 ≠ 0 then s
    else if s.ringBusy r then s.onRing r fun x => { x with wait := some .jobs }
    else s.donePkt r id)

/-- One poll of a `WAIT` of mode 1 (R121, R298): the ring goes on, or polls again after its interval. -/
def State.pollRing (s : State) (r : Nat) (p : FPkt) (before : Option (Nat × Word)) : State :=
  match s.cpWord (ringDie r) (s.ring r).ctx (ringFn r) (p.w 1) with
  | .error e => (s.onRing r fun x => { x with wait := none }).cpFail r p.rpos e
  | .ok (v, x) =>
    if !s.piecesReadable (ringDie r) [x] then s
    else if condHolds (p.par 10 8) v (loWord (p.w 2)) then (s.readTouch none [x]).donePkt r id
    else
      let n := match before with
        | none => 16
        | some (n, u) => if v = u then min (2 * n) 4096 else 16
      (s.readTouch none [x]).onRing r fun y => { y with wait := some (.poll n (s.now + n) v) }

/-- `PKT_WAIT_POLL` (R298): the first poll of mode 1. -/
def execPktWaitPoll (r : Nat) (s : State) : Result :=
  .next (s.pkt r 0x09 fun p => if p.par 1 0 = 1 then s.pollRing r p none else s)

/-- `CP_WAIT_RELEASE` (R298, R299, R301): a held packet goes on once what it waits for has come, or polls again. -/
def execCpWaitRelease (r : Nat) (s : State) : Result :=
  let x := s.ring r
  let go := (s.setRing r { x with wait := none }).readyRing r false
  .next (if x.stat ≠ 1 then s
    else match x.wait with
      | some .jobs => if s.ringBusy r then s else go
      | some (.unload g) => if ((s.graphs.find g).map Graph.unloading).getD false then s else go
      | some (.poll n due v) =>
        if s.now < due then s
        else match (x.frames.head?).bind fun f => f.fetched.head? with
          | some p => s.pollRing r p (some (n, v))
          | none => s
      | _ => s)

/-- `PKT_SIGNAL` (R299): the write waits for the leases on its line (R170); the message follows it. -/
def execPktSignal (r : Nat) (s : State) : Result :=
  .next (s.pkt r 0x0A fun p =>
    if p.par 0 0 = 1 ∧ s.ringBusy r then s.onRing r fun x => { x with wait := some .jobs }
    else match s.place (cpAsker (ringDie r) (s.ring r).ctx (ringFn r)) 0 .store 8 (p.w 1) with
      | .error e => s.cpFail r p.rpos e
      | .ok pl =>
        let ps : List Piece := [⟨p.w 1, 8, pl.loc, pl.xlat⟩]
        let (s, all) := s.gainLines (ringDie r) (.ring r) (pieceLines ps)
        if !all then s
        else
          let s := (s.unclaim (.ring r)).writePieces false ps (bytesOf 8 (p.w 2).toNat)
          let s := if p.par 1 1 = 1 then s.msix (ringFn r) (p.par 15 8) else s
          s.donePkt r id)

/-! ### Graph, context and configuration packets (R301, R302, R307) -/

/-- `PKT_GRAPH` (R307): a trigger whose run counts as the ring's work. -/
def execPktGraph (r : Nat) (s : State) : Result :=
  .next (s.pkt r 0x0B fun p =>
    let (j, s) := s.newJob r none
    (s.trigger (ringDie r) (ringFn r) (p.w 1) (s.ring r).ctx (some j)).donePkt r id)

/-- `PKT_CTXSW` (R302). -/
def execPktCtxsw (r : Nat) (s : State) : Result :=
  .next (s.pkt r 0x0C fun p =>
    let n := p.par 9 0
    if !s.ctxLive n (ringFn r) then s.stopAt r p 0x2E (Config.openDetail 0x2E)
    else ((s.units.filter fun q => s.unitCtx q.2 == n).foldl (fun s q => s.stopUnit q.1) s).donePkt r id)

/-- A `CONFIG` of one operation executes. -/
def State.config (s : State) (r op : Nat) (act : FPkt → State) : State := s.pkt r 0x0D fun p => if p.par 7 0 = op then act p else s

/-- The object of a `CONFIG` cannot be what the packet asks for. -/
def State.configBad (s : State) (r : Nat) (p : FPkt) : State := s.stopAt r p 0x2F (Config.openDetail 0x2F)

/-- The die and the index that word 1 names. -/
def FPkt.objDie (p : FPkt) : Nat := fieldN (p.w 1) 63 62
def FPkt.objIdx (p : FPkt) : Nat := fieldN (p.w 1) 15 0

/-- `CONFIG_CREATE_TASK_QUEUE` (R224, R301). -/
def execConfigCreateTaskQueue (r : Nat) (s : State) : Result :=
  .next (s.config r 0 fun p =>
    let k := p.objDie * 256 + p.objIdx
    let cap := fieldN (p.w 1) 47 32
    if 255 < p.objIdx ∨ cap = 0 ∨ (s.taskqs.find k).isSome then s.configBad r p
    else { s with taskqs := s.taskqs.put k ⟨fieldN (p.w 1) 16 16 == 1, cap, false, none, []⟩ }.donePkt r id)

/-- `CONFIG_CREATE_COUNTER` (R224, R301). -/
def execConfigCreateCounter (r : Nat) (s : State) : Result :=
  .next (s.config r 1 fun p =>
    let k := p.objDie * 65536 + p.objIdx
    if (s.depctrs.find k).isSome then s.configBad r p
    else { s with depctrs := s.depctrs.put k ⟨loWord (p.w 2), []⟩ }.donePkt r id)

/-- `CONFIG_CLOSE_TASK_QUEUE` (R301). -/
def execConfigCloseTaskQueue (r : Nat) (s : State) : Result :=
  .next (s.config r 2 fun p =>
    let k := p.objDie * 256 + p.objIdx
    match (if p.objIdx ≤ 255 then s.taskqs.find k else none) with
    | none => s.configBad r p
    | some q => { s with taskqs := s.taskqs.put k { q with closed := true } }.donePkt r id)

/-- `CONFIG_JOIN_STEAL_SET` (R266, R301): a worker-mode queue joins at most one set. -/
def execConfigJoinStealSet (r : Nat) (s : State) : Result :=
  .next (s.config r 3 fun p =>
    let k := p.objDie * 256 + p.objIdx
    let n := fieldN (p.w 1) 23 16
    match (if p.objIdx ≤ 255 then s.taskqs.find k else none) with
    | none => s.configBad r p
    | some q =>
      if !q.worker ∨ (q.set.isSome ∧ q.set ≠ some n) then s.configBad r p
      else { s with taskqs := s.taskqs.put k { q with set := some n } }.donePkt r id)

/-! ### Loading graphs (R301, R303, R310) -/

/-- The fields of a node (R303). -/
def nodeKind (d : BitVec 512) : Nat := fieldN d 399 396
def nodeSuccs (d : BitVec 512) : List Nat := (List.range (fieldN d 415 412)).map fun k => fieldN d (427 + 12 * k) (416 + 12 * k)
def nodePred (d : BitVec 512) : Nat := fieldN d 411 400
def nodeLast (d : BitVec 512) : Nat := fieldN d 191 180
def nodeFirst (d : BitVec 512) : Nat := fieldN d 179 168
def nodeElse (d : BitVec 512) : Nat := fieldN d 167 156
def nodeCond (d : BitVec 512) : Nat := fieldN d 155 153
def nodeCmp (d : BitVec 512) : Word := BitVec.ofNat 32 (fieldN d 127 96)
def nodePtr (d : BitVec 512) : DWord := field d 63 0
/-- The index that names no node. -/
def noNode : Nat := 0xFFF

/-- Whether node `k` of a graph breaks R303 or R306. -/
def nodeBad (ns : List (BitVec 512)) (k : Nat) (d : BitVec 512) : Bool :=
  let names := fun (i : Nat) => i == noNode || decide (i < ns.length)
  let kind := nodeKind d
  fieldN d 395 192 != 0 || fieldN d 152 128 != 0 || fieldN d 95 64 != 0 || decide (4 < kind) || decide (8 < fieldN d 415 412) ||
    !(nodeSuccs d).all names ||
    ((kind == 2 || kind == 3) && decide (5 < nodeCond d)) || (kind == 2 && !names (nodeElse d)) ||
    (kind == 3 && !(decide (nodeFirst d ≤ nodeLast d ∧ nodeLast d < ns.length) && (nodeSuccs (ns.getD (nodeLast d) 0)).contains k))

/-- The detail word of `GRAPH_DESC` for a node array: the first offending node, or the graph as a whole (R304, R310). -/
def graphBad (ns : List (BitVec 512)) : Option Nat :=
  match (List.range ns.length).find? fun k => nodeBad ns k (ns.getD k 0) with
  | some k => some k
  | none => if (ns.filter fun d => nodeKind d == 4).length = 1 then none else some noNode

/-- An unload asked of a graph (R301, R308): the ring is held while it runs, and its pending trigger is dropped. None when the graph
is not running: it is gone. -/
def State.unloadGraph (s : State) (r g : Nat) : Bool × State :=
  match s.graphs.find g with
  | none => (true, s)
  | some x =>
    let s := match x.pending with
      | none => s
      | some (_, ctx, job) => (s.trigDrop x.die (((s.ctxs.find ctx).map Ctx.fn).getD x.fn)).jobDone job false
    if x.run.isSome ∨ x.starting.isSome then
      let s := { s with graphs := s.graphs.put g { x with pending := none, unloading := true } }
      (false, s.onRing r fun y => { y with wait := some (.unload g) })
    else (true, { s with graphs := s.graphs.del g })

/-- `CONFIG_UNLOAD_GRAPH` (R301). -/
def execConfigUnloadGraph (r : Nat) (s : State) : Result :=
  .next (s.config r 5 fun p =>
    match s.unloadGraph r (p.objDie * 256 + fieldN (p.w 1) 7 0) with
    | (true, s) => s.donePkt r id
    | (false, s) => s)

/-- `CONFIG_LOAD_GRAPH` (R301): the graph of that number is unloaded first; then the node array is copied. -/
def execConfigLoadGraph (r : Nat) (s : State) : Result :=
  .next (s.config r 4 fun p =>
    let g := p.objDie * 256 + fieldN (p.w 1) 7 0
    let n := fieldN (p.w 1) 27 16
    match s.unloadGraph r g with
    | (false, s) => s
    | (true, s) =>
      if n = 0 then s.stopAt r p 0x2A (BitVec.ofNat 32 noNode)
      else match s.readVirt (ringDie r) (s.ring r).ctx (ringFn r) (p.w 2).toNat (64 * n) with
        | .error e => s.cpFail r p.rpos e
        | .ok (bs, ps) =>
          let ns := (List.range n).map fun k => BitVec.ofNat 512 (natOfBytes ((bs.drop (64 * k)).take 64))
          s.cpRead (ringDie r) ps fun s => match graphBad ns with
          | some k => s.stopAt r p 0x2A (BitVec.ofNat 32 k)
          | none =>
            let x : Graph :=
              { die := p.objDie, fn := ringFn r, ctx := (s.ring r).ctx, nodes := ns, args := p.w 3, run := none, starting := none,
                pending := none, unloading := false }
            { s with graphs := s.graphs.put g x }.donePkt r id)

end Sys2Proof.Machine
end

