-- ==== Sys2Proof/Machine/Graph.lean ====
section
/-! DEFINITION. Task graphs: the start of a run, what each kind of node does, and how a node finishes (R303 to R308, R338, R420). -/

namespace Sys2Proof.Machine

/-- A run of a graph changed. -/
def State.onRun (s : State) (g : Nat) (f : Run → Run) : State :=
  { s with graphs := s.graphs.alter g fun (x : Graph) => { x with run := x.run.map f } }

/-- A node of a run in a state. -/
def Run.setSt (y : Run) (n : Nat) (t : NodeSt) : Run := { y with sts := y.sts.set n t }

/-- A decrement of a node's count (R304): one that reaches a node which is not waiting is discarded; at 0 the node is ready, unless the
run has been abandoned. -/
def Run.decrement (y : Run) (n : Nat) : Run :=
  if y.sts[n]? ≠ some NodeSt.waiting then y
  else
    let c := y.counts.getD n 0 - 1
    let y := { y with counts := y.counts.set n c }
    if c = 0 ∧ !y.abandoned then y.setSt n .ready else y

/-- A node finishes and decrements some nodes (R304, R305). -/
def Run.finish (y : Run) (n : Nat) (ks : List Nat) : Run := ks.foldl Run.decrement (y.setSt n .finished)

/-- A cause of a graph posted to the function that loaded it (R304, R420). -/
def State.postGraph (s : State) (x : Graph) (code : Nat) (addr pc : DWord) (detail : Word) (hold : Nat) : State :=
  s.post code { addr := addr, pc := pc, hold := hold, detail := detail, fn := x.fn, ctx := x.ctx, die := x.die }

/-- A failed access of the command processor for a node, or for a patch list under `noNode` (R304, R396), in the context of `q`: held for the
host, or posted; answers whether it is held. -/
def State.graphFault (s : State) (g n : Nat) (x : Graph) (q : Asker) (e : XErr) : Bool × State :=
  let (code, held) := cpCode e.code
  let s := s.met q e e.addr
  if held then
    let (k, s) := s.hold (logOwner code x.fn) (.node g n)
    (true, s.postGraph x code e.addr (e.pc.getD 0) e.detail k)
  else (false, s.postGraph x code e.addr 0 (cpDetail code e) 0)

/-- The run that starts (R304): every count is `NPRED`, and nodes whose count is 0 are ready. -/
def Graph.newRun (x : Graph) (job : Option Nat) : Run where
  counts := x.nodes.map nodePred
  sts := x.nodes.map fun d => if nodePred d = 0 then .ready else .waiting
  abandoned := false
  done := false
  job := job

/-- A patch: its address and its value (R307). -/
def Graph.patches (x : Graph) (bs : List Byte) (n : Nat) : List (DWord × Nat) :=
  (List.range n).map fun k =>
    let e := (bs.drop (16 * k)).take 16
    (x.args + BitVec.ofNat 64 (natOfBytes (e.take 8)), natOfBytes (e.drop 8))

/-- The patches written in list order, as command-processor events in the context of the graph (R307); the first failure ends them. -/
def State.writePatches (s : State) (q : Asker) : List (DWord × Nat) → State × Option XErr
  | [] => (s, none)
  | (va, v) :: rest =>
    match s.place q 0 .store 8 va with
    | .error e => (s, some e)
    | .ok p => (s.writePieces false [⟨va, 8, p.loc, p.xlat⟩] (bytesOf 8 v)).writePatches q rest

/-- The lines that patches write. -/
def State.patchPieces (s : State) (q : Asker) (ps : List (DWord × Nat)) : List Piece :=
  ps.filterMap fun x => match s.place q 0 .store 8 x.1 with
    | .ok p => some ⟨x.1, 8, p.loc, p.xlat⟩
    | .error _ => none

/-- `GRAPH_RUN_START` (R304, R307): the patch list is read, the patches are written once no lease runs on their lines (R170), and the
nodes without predecessors are ready. After a patch write that a fault held, the list is read and every patch written again, from the first
(assumption 106). -/
def execGraphRunStart (g : Nat) (s : State) : Result :=
  .next (match s.graphs.find g with
    | none => s
    | some x =>
      match x.starting with
      | none => s
      | some (v, ctx, job) =>
        if x.run.isSome ∨ s.nodeHeld g then s
        else
          let n := fieldN v 55 49
          let lfn := ((s.ctxs.find ctx).map Ctx.fn).getD 0
          let fail := fun (s : State) (q : Asker) (e : XErr) =>
            match s.graphFault g noNode x q e with
            | (true, s) => s
            | (false, s) => s.dropTrigger g
          match (if n = 0 then .ok ([], []) else s.readVirt x.die ctx lfn (16 * fieldN v 43 0) (16 * n)) with
          | .error e => fail s (cpAsker x.die ctx lfn) e
          | .ok (bs, ps) =>
            let q := cpAsker x.die x.ctx x.fn
            let list := x.patches bs n
            if !s.piecesReadable x.die ps then s
            else
              let (s, all) := s.gainLines x.die (.graph g) (pieceLines (s.patchPieces q list))
              if !all then s
              else
                let s := (s.unclaim (.graph g)).readTouch none ps
                match s.writePatches q list with
                | (s, some e) => fail s q e
                | (s, none) =>
                  { s with graphs := s.graphs.put g { x with starting := none, run := some (x.newRun job) } }.settleRun g)

/-- A ready node of a kind in a run that goes on, which no fault holds. -/
def State.node (s : State) (g n kind : Nat) (act : Graph → BitVec 512 → State) : State :=
  match s.graphs.find g with
  | none => s
  | some x =>
    match x.nodes[n]?, x.run with
    | some d, some y =>
      let held := s.holds.any fun h => h.2.2 == .node g n
      if nodeKind d = kind ∧ y.sts[n]? = some NodeSt.ready ∧ !y.abandoned ∧ !held then act x d else s
    | _, _ => s

/-- A node meets a cause that does not hold it: it does not finish, and its run is abandoned (R304). -/
def State.failNode (s : State) (g n : Nat) : State := ((s.onRun g fun y => y.setSt n .waiting).abandon g).settleRun g

/-- A failed access of a node. -/
def State.nodeFault (s : State) (g n : Nat) (x : Graph) (e : XErr) : State :=
  match s.graphFault g n x (cpAsker x.die x.ctx x.fn) e with
  | (true, s) => s
  | (false, s) => s.failNode g n

/-- The descriptor that a node names. -/
def State.nodeDesc (s : State) (x : Graph) (d : BitVec 512) : Except XErr (BitVec 512 × List Piece) :=
  match s.readVirt x.die x.ctx x.fn (nodePtr d).toNat 64 with
  | .error e => .error e
  | .ok (bs, ps) => .ok (BitVec.ofNat 512 (natOfBytes bs), ps)

/-- `GRAPH_LAUNCH_NODE` (R304). -/
def execGraphLaunchNode (g n : Nat) (s : State) : Result :=
  .next (s.node g n 0 fun x d =>
    match s.nodeDesc x d with
    | .error e => s.nodeFault g n x e
    | .ok (l, ps) =>
      s.cpRead x.die ps fun s => match launchFault l with
      | some b => (s.postGraph x 0x28 (nodePtr d) 0 (BitVec.ofNat 32 b) 0).failNode g n
      | none =>
        let (j, s) := s.newJob 0 (some (g, n))
        match s.startLaunch x.die x.ctx x.fn l j with
        | (false, s) => { s with jobs := s.jobs.del j }.failNode g n
        | (true, s) => (s.jobDone (some j) false).onRun g fun y => y.setSt n .acting)

/-- `GRAPH_COPY_NODE` (R338, R420). -/
def execGraphCopyNode (g n : Nat) (s : State) : Result :=
  .next (s.node g n 1 fun x d =>
    match s.nodeDesc x d with
    | .error e => s.nodeFault g n x e
    | .ok (c, ps) =>
      s.cpRead x.die ps fun s =>
      if copyFault c then (s.postGraph x 0x2A (nodePtr d) 0 (BitVec.ofNat 32 n) 0).failNode g n
      else
        let (j, s) := s.newJob 0 (some (g, n))
        ((s.startCopy x.die x.ctx x.fn c j).jobDone (some j) false).onRun g fun y => y.setSt n .acting)

/-- The word of a conditional or loop node read once (R305, R306). -/
def State.nodeWord (s : State) (g n : Nat) (x : Graph) (d : BitVec 512) (act : State → Bool → State) : State :=
  match s.cpWord x.die x.ctx x.fn (nodePtr d) with
  | .error e => s.nodeFault g n x e
  | .ok (v, p) => s.cpRead x.die [p] fun s => (act s (condHolds (nodeCond d) v (nodeCmp d))).settleRun g

/-- `GRAPH_COND_NODE` (R305). -/
def execGraphCondNode (g n : Nat) (s : State) : Result :=
  .next (s.node g n 2 fun x d => s.nodeWord g n x d fun s ok =>
    s.onRun g fun y => y.finish n (if ok then nodeSuccs d else [nodeElse d]))

/-- A loop node enters its body (R306): the body's counts and its own are set, and the first body node is decremented. R306 does not say whether a
body node other than the first whose `NPRED` is 0 is ready at once: here it waits, and a decrement makes it ready (assumption 106). -/
def Run.enterLoop (y : Run) (x : Graph) (n : Nat) (d : BitVec 512) : Run :=
  let inside := fun k : Nat => decide (nodeFirst d ≤ k ∧ k ≤ nodeLast d)
  let y := { y with
    counts := y.counts.mapIdx fun k c => if k = n then 1 else if inside k then nodePred (x.nodes.getD k 0) else c
    sts := y.sts.mapIdx fun k t => if k = n ∨ inside k then .waiting else t }
  y.decrement (nodeFirst d)

/-- `GRAPH_LOOP_NODE` (R306). -/
def execGraphLoopNode (g n : Nat) (s : State) : Result :=
  .next (s.node g n 3 fun x d => s.nodeWord g n x d fun s ok =>
    s.onRun g fun y => if ok then y.enterLoop x n d else y.finish n (nodeSuccs d))

/-- `GRAPH_END_NODE` (R304): the run completes. -/
def execGraphEndNode (g n : Nat) (s : State) : Result :=
  .next (s.node g n 4 fun _ d => (s.onRun g fun y => { y.finish n (nodeSuccs d) with done := true }).settleRun g)

/-- `GRAPH_NODE_FINISH` (R304, R420): the work of a node has completed; a node whose work was ended by a cause does not finish. -/
def execGraphNodeFinish (g n : Nat) (s : State) : Result :=
  .next (match s.jobs.find? fun q => q.2.node == some (g, n) && q.2.left == 0 with
    | none => s
    | some (j, w) =>
      let s := { s with jobs := s.jobs.del j }
      match s.graphs.find g with
      | none => s
      | some x =>
        if w.failed then s.failNode g n
        else (s.onRun g fun y => y.finish n (nodeSuccs (x.nodes.getD n 0))).settleRun g)

end Sys2Proof.Machine
end

