-- ==== Sys2Proof/Machine/Lodge.lean ====
section
/-! DEFINITION. The lodge and the part's errors: waking and gating, machine errors, wiping, firmware, attestation, power, heartbeats and
reset votes (R17, R173, R255, R285, R309, R406 to R419). -/

namespace Sys2Proof.Machine

/-! ### Waking and gating (R309) -/

/-- `HOST_WRITE_WAKE` (R309): a host write to any function page wakes the porter of the die that it addresses. -/
def execHostWriteWake (die _fn : Nat) (s : State) : Result := .next (s.hostWake die)

/-- Whether every porter and program core of the package is gated. -/
def State.allGated (s : State) : Bool := s.dies.all fun d => d.gated && d.porterGated

/-- The die on which a Swezin Link port lies (R16). -/
def portDie (port : Nat) : Nat := port / 5

/-- The first 16 bytes of a frame as a number, byte 0 lowest (R285). -/
def frameHead (f : List Byte) : BitVec 128 := BitVec.ofNat 128 (natOfBytes (f.take 16))

/-- Whether a frame that arrived on a port matches a filter entry (R309). -/
def WakeEnt.hits (e : WakeEnt) (port : Nat) (f : List Byte) : Bool :=
  e.enable && e.ports.getLsbD port && (frameHead f &&& e.mask) == (e.value &&& e.mask)

/-- A count of dropped frames rises, to its top (R285). -/
def bump32 (n : Nat) : Nat := min (n + 1) (2 ^ 32 - 1)

/-- `SWEZIN_FRAME_ARRIVAL` (R309): while every core is gated, and until the woken porter has replayed the frames, the lowest matching entry
wakes the porter of its die and the frame is held, up to 16 of them; any other frame is dropped and counted. Nothing arrives on a port that has
been retired (R408). -/
def execSwezinFrameArrival (port : Nat) (frame : List Byte) (s : State) : Result :=
  let l := s.lodge
  let drop := fun (s : State) => s.post 0xAF { detail := Config.openDetail 0xAF }
  let lost := s.retired.any fun q => q.1 == portDie port && q.2.1 == 9 && q.2.2.toNat == port
  .next (if lost ∨ (!s.allGated ∧ l.frames = []) then s
    else match l.wake.find? fun e => e.hits port frame with
      | none => drop { s with lodge := { l with wfUnmatched := bump32 l.wfUnmatched } }
      | some e =>
        if 16 ≤ l.frames.length then drop { s with lodge := { l with wfFull := bump32 l.wfFull } }
        else { s with lodge := { l with frames := l.frames ++ [(port, frame)] } }.hostWake e.die)

/-- Whether nothing of a die runs: no group stands on it, and every live lane of its porter is halted (R255). -/
def State.dieIdle (s : State) (die : Nat) : Bool :=
  (s.groups.all fun q => !q.2.placed || q.2.core / 256 != die) &&
    (s.porterWarps die).all fun w =>
      let wp := s.warp w
      (lanesOf wp.live).all fun l => wp.holds.any fun h => h.1 == l && h.2.kind == HoldKind.halt

/-- `DIE_GATING` (R173, R309): an idle die's program cores and its porter are gated, and its annex keeps its lines and its wrap count in
retention sleep. -/
def execDieGating (die : Nat) (s : State) : Result :=
  let d := s.die die
  .next (if 4 ≤ die ∨ (d.gated ∧ d.porterGated) ∨ !s.dieIdle die ∨ s.lodge.frames ≠ [] then s
    else s.onDie die fun d => { d with
      gated := true
      porterGated := true
      sleep := if d.sleep.asleep then d.sleep else ⟨true, s.wrapCount, 0⟩ })

/-! ### Errors (R406 to R410) -/

/-- Cycles of a millisecond and of a day (R3). -/
def cyclesMs : Nat := 600000
def cyclesDay : Nat := 51840000000000

/-- The error record of a unit of a die. -/
def State.eccOf (s : State) (die unit : Nat) : EccRec :=
  (s.ecc.find? fun e => e.die == die && e.unit == unit).getD ⟨die, unit, 0, 0, []⟩
def State.setEcc (s : State) (e : EccRec) : State :=
  { s with ecc := s.ecc.filter (fun x => x.die ≠ e.die ∨ x.unit ≠ e.unit) ++ [e] }

/-- A corrected error counted, and posted at most once in a millisecond for its unit (R407). -/
def State.corrected (s : State) (die unit : Nat) (addr : DWord) : State :=
  let e : EccRec := s.eccOf die unit
  let recent : List (DWord × Nat) := e.seen.filter fun (x : DWord × Nat) => decide (s.now < x.2 + cyclesDay)
  let e : EccRec := { e with count := min (e.count + 1) 0xFFFF, seen := recent ++ [(addr, s.now)] }
  if e.lastPost = 0 ∨ e.lastPost + cyclesMs ≤ s.now + 1 then
    (s.setEcc { e with lastPost := s.now + 1, count := 0 }).post 0xB0 { addr := addr, detail := BitVec.ofNat 32 (unit + 65536 * e.count), die := die }
  else s.setEcc e

/-- Whether a location has raised two corrected errors within a day (R408). -/
def State.twice (s : State) (die unit : Nat) (addr : DWord) : Bool :=
  decide (2 ≤ ((s.eccOf die unit).seen.filter fun x => x.1 == addr && decide (s.now < x.2 + cyclesDay)).length)

/-- The core and the memory address of a location in an L1 or an instruction cache: the local core stands above the 41 address bits. -/
def errCore (er : ErrInput) : Nat := coreNo er.die (er.addr.toNat / 2 ^ 41)
def errAddr (er : ErrInput) : Nat := er.addr.toNat % 2 ^ 41

/-- What a lasting error leaves of the data at a location (R406, R409): poison, or a line that is fetched again. R409 names no mark in accumulator
memory and in concourse memory: an accumulator element has its `N`, and concourse memory posts `POISON_IDLE` (assumption 107). -/
def State.spoil (s : State) (er : ErrInput) : State :=
  let a := er.addr.toNat
  let granule := a / 32
  let hbm := { s with poison := if s.poison.contains granule then s.poison else s.poison ++ [granule] }
  match er.unit with
  | 0 => hbm
  | 1 => hbm
  | 2 => { s with annex := s.annex.del (annexKey er.die (a / 128)) }
  | 3 => { s with poisonSpad := if s.poisonSpad.contains granule then s.poisonSpad else s.poisonSpad ++ [granule] }
  | 4 => s.onWarp (a / 8192) fun wp =>
      { wp with poison := if wp.poison.contains (a % 8192) then wp.poison else wp.poison ++ [a % 8192] }
  | 5 =>
    let g := errAddr er / 32
    match s.l1.find (l1Key (errCore er) (errAddr er / 128)) with
    | some x =>
      if x.dirty then { s with poison := if s.poison.contains g then s.poison else s.poison ++ [g] }
      else { s with l1 := s.l1.del (l1Key (errCore er) (errAddr er / 128)) }
    | none => s
  | 6 => s.dropCode (errCore er) fun c => c.line == errAddr er / 128
  | 7 => s.onTile (a / 32 / 8192) (a / 32 / 4096 % 2) fun t =>
      { t with elems := t.elems.put (a / 32 % 4096) { (t.elems.find (a / 32 % 4096)).getD ⟨0, false, false, false, false⟩ with n := true } }
  | 8 => s.postIdle er.die granule
  | _ => s

/-- A place of a cache emptied before it is fenced off (R408): the line at the location leaves, or the one that is replaced if the set is full. -/
def State.vacatePlace (s : State) (er : ErrInput) : State :=
  let line := er.addr.toNat / 128
  match er.unit with
  | 1 =>
    if (s.l2.find line).isSome then { s.idlePoison er.die (line * 128) 128 with l2 := s.l2.del line } else s.roomL2 line
  | 2 =>
    if (s.annex.find (annexKey er.die line)).isSome then s.dropAnnexLines er.die fun l => l == line else s.roomAnnex er.die line
  | 5 =>
    if (s.l1.find (l1Key (errCore er) (errAddr er / 128))).isSome then s.evictL1 (errCore er) (errAddr er / 128) else s.roomL1 (errCore er)
  | 6 =>
    let cs := (s.core (errCore er)).icache
    if cs.any fun c => c.line == errAddr er / 128 then s.dropCode (errCore er) fun c => c.line == errAddr er / 128
    else s.dropCode (errCore er) (cs.take (cs.length + 1 - s.placesLeft 6 (errCore er) Config.icacheLines)).contains
  | _ => s

/-- A unit whose state cannot be read is ended, with `GROUP_KILLED` for each of its groups that stands (R408). -/
def State.loseUnit (s : State) (u : Nat) : State :=
  (s.standing u).foldl (fun s q => s.endGroup q.1 (((s.segsOf q.1).head?.map Prod.fst).getD 0) (Config.openDetail 0xAC)) (s.endUnitLater u)

/-- A lasting location retired (R408): `UNIT_RETIRED` names it; the units of a core are pre-empted, or ended if they cannot be read, and nothing is
placed there again. Those that wait on a package to which no port leads any more have `LINK_FATAL` (`State.lostPkg`). -/
def State.retireUnit (s : State) (er : ErrInput) : State :=
  let addr := if er.unit = 0 ∧ !er.spare then er.addr &&& ~~~0xFFF else er.addr
  let s := s.vacatePlace er
  let s := if er.unit = 0 ∧ er.spare then s else { s with retired := s.retired ++ [(er.die, er.unit, addr)] }
  let s := s.post 0xB2 { addr := addr, detail := BitVec.ofNat 32 er.unit, die := er.die }
  if er.unit = 10 then
    (s.units.filter fun q => (s.standing q.1).any fun g => g.2.core == er.addr.toNat).foldl
      (fun s q => if er.spare then s.stopUnit q.1 else s.loseUnit q.1) s
  else s

/-- `MEMORY_ERROR` (R406 to R409). -/
def execMemoryError (er : ErrInput) (s : State) : Result :=
  .next (match er.kind with
    | .corrected =>
      let s := s.corrected er.die er.unit er.addr
      if s.twice er.die er.unit er.addr then s.retireUnit er else s
    | .retried => s.post 0xB1 { addr := er.addr, detail := BitVec.ofNat 32 er.unit, die := er.die }
    | .lasting => (s.spoil er).retireUnit er)

/-- `HBM_SCRUB` (R407, R410): once every 24 hours; poison that the scrub finds is posted. -/
def execHbmScrub (die : Nat) (s : State) : Result :=
  .next (if 4 ≤ die ∨ s.now < cyclesDay * ((s.die die).scrubs + 1) then s
    else
      let s := s.onDie die fun d => { d with scrubs := d.scrubs + 1 }
      (s.poison.filter fun g => homeDie (32 * g) == die).foldl (fun s g => s.postIdle die g) s)

/-! ### Firmware (R413, R414) -/

/-- The image of a slot: 0 A, 1 B. -/
def FwSlots.image (f : FwSlots) (k : Nat) : List Byte := if k = 0 then f.a else f.b

/-- Why an image is rejected (R413): 3 format, 1 signature, 2 security version. -/
def fwReason (min : Nat) (image : List Byte) : Option Nat :=
  if !Config.imageFormed image then some 3
  else if !Config.imageSigned image then some 1
  else if Config.imageVersion image < min then some 2
  else none

/-- The slots that are rejected before one is started, with their reasons, and the slot that is started (R413). -/
def FwSlots.choose (f : FwSlots) : List (Nat × Nat) × Option Nat :=
  let other := 1 - f.active
  match fwReason f.minVer (f.image f.active) with
  | none => ([], some f.active)
  | some x =>
    match fwReason f.minVer (f.image other) with
    | none => ([(f.active, x)], some other)
    | some y => ([(f.active, x), (other, y)], none)

/-- A slot started: the fused minimum rises to its security version (R413). -/
def FwSlots.start (f : FwSlots) (k : Nat) : FwSlots :=
  { f with started := some k, minVer := max f.minVer (Config.imageVersion (f.image k)) }

/-- A measurement register extended by bytes (R414). -/
def extend (m : BitVec 512) (d : List Byte) : BitVec 512 := Config.sha3 (bytesOf 64 m.toNat ++ d)

/-- The digest of an image as bytes. -/
def digest (image : List Byte) : List Byte := bytesOf 64 (Config.sha3 image).toNat

/-- The rejected slots of a firmware kind posted (R413). -/
def State.postRejected (s : State) (xs : List (Nat × Nat)) : State :=
  xs.foldl (fun s x => s.post 0xB8 { detail := BitVec.ofNat 32 (x.1 + 2 * x.2) }) s

/-- The firmware checked, measured and started (R413, R414); without it the cores stay gated, and no porter image is started. -/
def State.startFirmware (s : State) : State :=
  let l := s.lodge
  let (badL, slotL) := l.lodgeFw.choose
  let (badP, passP) := l.porterFw.choose
  let slotP := if slotL.isSome then passP else none
  let lodgeFw := match slotL with
    | some k => l.lodgeFw.start k
    | none => l.lodgeFw
  let porterFw := match slotP with
    | some k => l.porterFw.start k
    | none => l.porterFw
  let l := { l with
    lodgeFw := lodgeFw
    porterFw := porterFw
    m0 := match slotL with
      | some k => extend 0 (digest (lodgeFw.image k))
      | none => 0
    m1 := match slotP with
      | some k => extend 0 (digest (porterFw.image k))
      | none => 0
    m2 := extend 0 (Config.measured l.lifecycle lodgeFw.minVer porterFw.minVer)
    coresUp := slotL.isSome && slotP.isSome }
  let up := slotL.isSome && slotP.isSome
  let s := { s with lodge := l, dies := s.dies.map fun (d : Die) => { d with gated := !up, porterGated := !up } }
  (s.postRejected badL).postRejected badP

/-! ### Wiping and reset (R411, R412) -/

/-- Core roles at bring-up (R8, R17): each core of a die that an error has retired fails its self-test, and a spare takes its position while
one is left, in ascending order of the positions (assumption 92). The retired units that stay, and the spares left. -/
def assignRoles (die spares : Nat) (retired : List (Nat × Nat × DWord)) : Nat × List (Nat × Nat × DWord) :=
  let mine := fun (q : Nat × Nat × DWord) => q.1 == die && q.2.1 == 10
  let failed := (List.range 129).filter fun k => retired.any fun q => mine q && q.2.2.toNat == coreNo die k
  let served := failed.take spares
  (spares - served.length, retired.filter fun q => !(mine q && served.contains (q.2.2.toNat % 256)))

/-- The roles of every die assigned, from the retired units and the spares of each. -/
def bringUp (retired : List (Nat × Nat × DWord)) : Nat → List Nat → List (Nat × Nat × DWord) × List Nat
  | _, [] => (retired, [])
  | die, n :: rest =>
    let r := assignRoles die n retired
    let t := bringUp r.2 (die + 1) rest
    (t.1, r.1 :: t.2)

/-- What outlives a module reset: the code store, what the peers and the host hold, the fuses, the firmware slots, the installed keys and epochs, the
retired units and the spares left, what has been sent, and the count of free values; core roles are assigned anew (R8, R17). -/
def State.survivor (s : State) (lifecycle : Nat) : State :=
  let l := s.lodge
  let roles := bringUp s.retired 0 (s.dies.map Die.spares)
  { State.reset with
    dies := roles.2.map fun n => { Die.reset with spares := n }
    freeNo := s.freeNo
    flash := s.flash
    peerText := s.peerText
    host := s.host
    out := s.out
    services := s.services
    retired := roles.1
    lodge := { Lodge.reset with
      lifecycle := lifecycle
      keyPresent := decide (lifecycle = 1 ∨ lifecycle = 2)
      lodgeFw := { l.lodgeFw with started := none }
      porterFw := { l.porterFw with started := none }
      voteEpoch := l.voteEpoch
      neighbours := l.neighbours.map fun (n : Neighbour) => { n with heard := 0, missed := 0 } } }

/-- The module wiped and started (R412, R413): `LIFECYCLE_WIPE` follows the wipe. -/
def State.wipe (s : State) (lifecycle : Nat) : State :=
  ((s.survivor lifecycle).post 0xBF { detail := BitVec.ofNat 32 (s.lodge.lifecycle + 16 * lifecycle) }).startFirmware

/-- `MODULE_RESET` (R412). -/
def execModuleReset (s : State) : Result := .next (if s.lodge.resetAsked then s.wipe s.lodge.lifecycle else s)

/-- `LIFECYCLE_TRANSITION` (R411): only a signed lodge command moves the state, and only to its successor. -/
def execLifecycleTransition (sig : List Byte) (s : State) : Result :=
  .next (match Config.lifecycleCommand sig with
    | none => s
    | some n => if n = s.lodge.lifecycle + 1 ∧ n ≤ 3 then s.wipe n else s)

/-- `FIRMWARE_COPY_COMPLETE` (R285, R413): the image stands in its inactive slot, which the next reset checks first. -/
def execFirmwareCopyComplete (ok : Bool) (s : State) : Result :=
  let l := s.lodge
  let put := fun (f : FwSlots) =>
    if f.active = 0 then { f with b := l.fwImage, active := 1 } else { f with a := l.fwImage, active := 0 }
  .next (if l.fwStat ≠ 1 then s
    else if !ok then { s with freeNo := s.freeNo + 1, lodge := { l with fwStat := 3, fwImage := [] } }
    else if l.fwKind = 0 then { s with freeNo := s.freeNo + 1, lodge := { l with fwStat := 2, fwImage := [], lodgeFw := put l.lodgeFw } }
    else { s with freeNo := s.freeNo + 1, lodge := { l with fwStat := 2, fwImage := [], porterFw := put l.porterFw } })

/-! ### Attestation (R415) -/

/-- Bytes 0 to 279 of a report with a nonce. -/
def Lodge.report (l : Lodge) (nonce : List Byte) : List Byte :=
  bytesOf 16 Config.serialNumber.toNat ++ nonce ++ bytesOf 64 l.m0.toNat ++ bytesOf 64 l.m1.toNat ++ bytesOf 64 l.m2.toNat ++
    bytesOf 8 (Config.reported l.lifecycle l.lodgeFw.minVer l.porterFw.minVer).toNat

/-- `ATTEST_REPORT_DONE` (R415): the report and its signature stand in the buffer behind the nonce, once memory may answer (R166, R170); what would
lie above the top of memory is lost (R13). -/
def execAttestReportDone (s : State) : Result :=
  let l := s.lodge
  .next (if l.attStat ≠ 1 then s
    else
      let a := l.attAddr.toNat
      let die := homeDie a
      let c := Claimer.lodge a
      if s.claimsOf c = [] ∧ !s.piecesReadable die [physPiece a 64] then s
      else
        let (s, all) := s.gainLines die c (pieceLines [physPiece (a + 64) 4907])
        if !all then s
        else
          let body := l.report (s.mem.bytes a 64)
          let sig := (List.range 4627).map (Config.deviceSign (Config.sha3 body))
          { (s.unclaim c).physWrite (a + 64) (body ++ sig) with lodge := { l with attStat := 2 } })

/-! ### Power (R417) -/

/-- `POWER_LIMIT_EXCEEDED` and `POWER_THROTTLE_RELEASE` (R417): throttling changes timing only. -/
def execPowerLimitExceeded (s : State) : Result :=
  .next (if s.lodge.throttled then s
    else { s with lodge := { s.lodge with throttled := true } }.post 0xBE { detail := Config.openDetail 0xBE })
def execPowerThrottleRelease (s : State) : Result := .next { s with lodge := { s.lodge with throttled := false } }

/-! ### Heartbeats and votes (R418, R419) -/

/-- The ports that lead to another package and are not retired (R16, R408). -/
def State.linkPorts (s : State) : List Nat :=
  (List.range 20).filter fun p => (Config.portPeer p).isSome && !s.retired.any fun q => q.2.1 == 9 && q.2.2.toNat == p

/-- `HEARTBEAT_SEND` (R418): every 10 ms a heartbeat leaves on every port to a package. -/
def execHeartbeatSend (s : State) : Result :=
  let l := s.lodge
  .next (if s.now < 10 * cyclesMs * (l.hbSeq.toNat + 1) then s
    else
      let s := { s with lodge := { l with hbSeq := l.hbSeq + 1 } }
      { s with out := s.out ++ s.linkPorts.map fun p => OutMsg.heartbeat p l.pkgNum.toNat l.hbSeq })

/-- A neighbour changed. -/
def State.onNeighbour (s : State) (pkg : Nat) (f : Neighbour → Neighbour) : State :=
  { s with lodge := { s.lodge with neighbours := s.lodge.neighbours.map fun (n : Neighbour) => if n.pkg = pkg then f n else n } }

/-- `HEARTBEAT_RECEIVE` (R418). -/
def execHeartbeatReceive (pkg : Nat) (_seq : DWord) (s : State) : Result := .next (s.onNeighbour pkg fun n => { n with heard := s.now })

/-- `HEARTBEAT_MISS` (R418), for a package whose key system software has installed (by no register that the spec names: assumption 107):
30 ms of silence are posted once, with a vote; a further vote follows every 30 ms. -/
def execHeartbeatMiss (pkg : Nat) (s : State) : Result :=
  .next (match s.lodge.neighbours.find? fun n => n.pkg == pkg with
    | none => s
    | some n =>
      if s.now < max n.heard n.missed + 30 * cyclesMs then s
      else
        let l := s.lodge
        let e := l.voteEpoch + 1
        let sig := (List.range 4627).map (Config.deviceSign (Config.voteDigest l.pkgNum.toNat pkg e))
        let s := { s with lodge := { l with voteEpoch := e }, out := s.out ++ [OutMsg.vote l.pkgNum.toNat pkg e sig] }
        let s := s.onNeighbour pkg fun n => { n with missed := s.now }
        if n.heard < n.missed then s else s.post 0xBB { detail := Config.openDetail 0xBB })

/-- The mask of packages that have voted. -/
def votersMask (vs : List (Nat × Nat)) : DWord := vs.foldl (fun m v => m ||| BitVec.ofNat 64 (2 ^ v.1)) 0

/-- `RESET_VOTE_RECEIVE` (R419): an accepted vote is kept for 100 ms; three distinct voters reset the module. -/
def execResetVoteReceive (voter target : Nat) (epoch : DWord) (sig : List Byte) (s : State) : Result :=
  let l := s.lodge
  .next (match l.neighbours.find? fun n => n.pkg == voter with
    | none => s.post 0xBD { detail := Config.openDetail 0xBD }
    | some n =>
      if target ≠ l.pkgNum.toNat ∨ epoch.toNat ≤ n.epoch.toNat ∨ !Config.voteSigned n.key voter target epoch sig then
        s.post 0xBD { detail := Config.openDetail 0xBD }
      else
        let s := s.onNeighbour voter fun n => { n with epoch := epoch }
        let vs := (l.votes.filter fun v => decide (v.1 ≠ voter ∧ s.now ≤ v.2 + 100 * cyclesMs)) ++ [(voter, s.now)]
        if vs.length < 3 then { s with lodge := { s.lodge with votes := vs } }
        else (s.wipe s.lodge.lifecycle).post 0xBC { addr := votersMask vs, detail := Config.openDetail 0xBC })

end Sys2Proof.Machine
end

