-- ==== Sys2Proof/Machine/Dispatch.lean ====
section
/-! DEFINITION. The meaning of every row of the opcode table: one arm each. -/

namespace Sys2Proof.Machine

/-- The meaning of an instruction, or of an event. -/
def exec (i : Instr) (s : State) : Host.Outcome State Fault Refusal :=
  match i with
  | .nop p => Sys2Proof.Machine.execNop p s
  | .bra p off => Sys2Proof.Machine.execBra p off s
  | .brau p off => Sys2Proof.Machine.execBrau p off s
  | .jmp p off => Sys2Proof.Machine.execJmp p off s
  | .call p off => Sys2Proof.Machine.execCall p off s
  | .ret p a => Sys2Proof.Machine.execRet p a s
  | .exit p => Sys2Proof.Machine.execExit p s
  | .yieldP p => Sys2Proof.Machine.execYieldP p s
  | .wait p isEq wide d a b off => Sys2Proof.Machine.execWait p isEq wide d a b off s
  | .waitPoll w => Sys2Proof.Machine.execWaitPoll w s
  | .udone p => Sys2Proof.Machine.execUdone p s
  | .park p => Sys2Proof.Machine.execPark p s
  | .wake p a => Sys2Proof.Machine.execWake p a s
  | .trap p imm => Sys2Proof.Machine.execTrap p imm s
  | .svc p imm => Sys2Proof.Machine.execSvc p imm s
  | .bkpt p imm => Sys2Proof.Machine.execBkpt p imm s
  | .mov p wide d a sel => Sys2Proof.Machine.execMov p wide d a sel s
  | .movsRead p wide d sr => Sys2Proof.Machine.execMovsRead p wide d sr s
  | .movsWrite p wide sr a => Sys2Proof.Machine.execMovsWrite p wide sr a s
  | .movi p hi d imm => Sys2Proof.Machine.execMovi p hi d imm s
  | .plop p d a b c tt => Sys2Proof.Machine.execPlop p d a b c tt s
  | .rtt p => Sys2Proof.Machine.execRtt p s
  | .halt p => Sys2Proof.Machine.execHalt p s
  | .srwr p wide sr a => Sys2Proof.Machine.execSrwr p wide sr a s
  | .cache p op a b off => Sys2Proof.Machine.execCache p op a b off s
  | .tlbi p op a b => Sys2Proof.Machine.execTlbi p op a b s
  | .iadd p ty sat d a b => Sys2Proof.Machine.execIadd p ty sat d a b s
  | .iaddImm p ty sat d a imm => Sys2Proof.Machine.execIaddImm p ty sat d a imm s
  | .isub p ty sat d a b => Sys2Proof.Machine.execIsub p ty sat d a b s
  | .iadc p ty sat d a b c => Sys2Proof.Machine.execIadc p ty sat d a b c s
  | .isbb p ty sat d a b c => Sys2Proof.Machine.execIsbb p ty sat d a b c s
  | .imul p ty sat d a b => Sys2Proof.Machine.execImul p ty sat d a b s
  | .imulImm p ty sat d a imm => Sys2Proof.Machine.execImulImm p ty sat d a imm s
  | .imulh p ty d a b => Sys2Proof.Machine.execImulh p ty d a b s
  | .imad p ty sat d a b c => Sys2Proof.Machine.execImad p ty sat d a b c s
  | .imadh p ty d a b c => Sys2Proof.Machine.execImadh p ty d a b c s
  | .imin p ty d a b => Sys2Proof.Machine.execImin p ty d a b s
  | .iminImm p ty d a imm => Sys2Proof.Machine.execIminImm p ty d a imm s
  | .imax p ty d a b => Sys2Proof.Machine.execImax p ty d a b s
  | .imaxImm p ty d a imm => Sys2Proof.Machine.execImaxImm p ty d a imm s
  | .iabs p ty sat d a => Sys2Proof.Machine.execIabs p ty sat d a s
  | .ineg p ty sat d a => Sys2Proof.Machine.execIneg p ty sat d a s
  | .icmp p cond ty d a b => Sys2Proof.Machine.execIcmp p cond ty d a b s
  | .icmpImm p cond ty d a imm => Sys2Proof.Machine.execIcmpImm p cond ty d a imm s
  | .aadd p ty d a b => Sys2Proof.Machine.execAadd p ty d a b s
  | .aaddImm p d a imm => Sys2Proof.Machine.execAaddImm p d a imm s
  | .andL p wide d a b => Sys2Proof.Machine.execAndL p wide d a b s
  | .andImm p wide d a imm => Sys2Proof.Machine.execAndImm p wide d a imm s
  | .orL p wide d a b => Sys2Proof.Machine.execOrL p wide d a b s
  | .orImm p wide d a imm => Sys2Proof.Machine.execOrImm p wide d a imm s
  | .xorL p wide d a b => Sys2Proof.Machine.execXorL p wide d a b s
  | .xorImm p wide d a imm => Sys2Proof.Machine.execXorImm p wide d a imm s
  | .andn p wide d a b => Sys2Proof.Machine.execAndn p wide d a b s
  | .notL p wide d a => Sys2Proof.Machine.execNotL p wide d a s
  | .shl p wide d a b => Sys2Proof.Machine.execShl p wide d a b s
  | .shlImm p wide d a imm => Sys2Proof.Machine.execShlImm p wide d a imm s
  | .shr p wide d a b => Sys2Proof.Machine.execShr p wide d a b s
  | .shrImm p wide d a imm => Sys2Proof.Machine.execShrImm p wide d a imm s
  | .sar p wide d a b => Sys2Proof.Machine.execSar p wide d a b s
  | .sarImm p wide d a imm => Sys2Proof.Machine.execSarImm p wide d a imm s
  | .rol p wide d a b => Sys2Proof.Machine.execRol p wide d a b s
  | .rolImm p wide d a imm => Sys2Proof.Machine.execRolImm p wide d a imm s
  | .clz p wide d a => Sys2Proof.Machine.execClz p wide d a s
  | .ctz p wide d a => Sys2Proof.Machine.execCtz p wide d a s
  | .popc p wide d a => Sys2Proof.Machine.execPopc p wide d a s
  | .brev p wide d a => Sys2Proof.Machine.execBrev p wide d a s
  | .bfx p ty d a b c => Sys2Proof.Machine.execBfx p ty d a b c s
  | .bfi p wide d a b c => Sys2Proof.Machine.execBfi p wide d a b c s
  | .prmt p d a b c => Sys2Proof.Machine.execPrmt p d a b c s
  | .sel p wide d a b c => Sys2Proof.Machine.execSel p wide d a b c s
  | .xchl p op wide d a b => Sys2Proof.Machine.execXchl p op wide d a b s
  | .ballot p d a => Sys2Proof.Machine.execBallot p d a s
  | .vote p op d a => Sys2Proof.Machine.execVote p op d a s
  | .gred p op ty d a => Sys2Proof.Machine.execGred p op ty d a s
  | .fadd p packed ftz ty d a b => Sys2Proof.Machine.execFadd p packed ftz ty d a b s
  | .fsub p packed ftz ty d a b => Sys2Proof.Machine.execFsub p packed ftz ty d a b s
  | .fmul p packed ftz ty d a b => Sys2Proof.Machine.execFmul p packed ftz ty d a b s
  | .ffma p packed ftz ty d a b c => Sys2Proof.Machine.execFfma p packed ftz ty d a b c s
  | .fmin p packed ftz ty d a b => Sys2Proof.Machine.execFmin p packed ftz ty d a b s
  | .fmax p packed ftz ty d a b => Sys2Proof.Machine.execFmax p packed ftz ty d a b s
  | .fabs p packed ftz ty d a => Sys2Proof.Machine.execFabs p packed ftz ty d a s
  | .fneg p packed ftz ty d a => Sys2Proof.Machine.execFneg p packed ftz ty d a s
  | .fcmp p cond ftz ty d a b => Sys2Proof.Machine.execFcmp p cond ftz ty d a b s
  | .fflr p ftz ty d a => Sys2Proof.Machine.execFflr p ftz ty d a s
  | .frnd p mode ftz ty d a => Sys2Proof.Machine.execFrnd p mode ftz ty d a s
  | .cvt p mode ftz sat td ts d a => Sys2Proof.Machine.execCvt p mode ftz sat td ts d a s
  | .frcp p ftz ty d a => Sys2Proof.Machine.execFrcp p ftz ty d a s
  | .frsq p ftz ty d a => Sys2Proof.Machine.execFrsq p ftz ty d a s
  | .fexp2 p ftz ty d a => Sys2Proof.Machine.execFexp2 p ftz ty d a s
  | .flog2 p ftz ty d a => Sys2Proof.Machine.execFlog2 p ftz ty d a s
  | .fsin p ftz ty d a => Sys2Proof.Machine.execFsin p ftz ty d a s
  | .fcos p ftz ty d a => Sys2Proof.Machine.execFcos p ftz ty d a s
  | .fdiva p ftz d a b => Sys2Proof.Machine.execFdiva p ftz d a b s
  | .ld p hint b128 ty d a b off => Sys2Proof.Machine.execLd p hint b128 ty d a b off s
  | .st p hint b128 ty d a b off => Sys2Proof.Machine.execSt p hint b128 ty d a b off s
  | .ldw p hint d a b off => Sys2Proof.Machine.execLdw p hint d a b off s
  | .stw p hint d a b off => Sys2Proof.Machine.execStw p hint d a b off s
  | .prf p l2 a b off => Sys2Proof.Machine.execPrf p l2 a b off s
  | .ldsp p b128 ty d a off => Sys2Proof.Machine.execLdsp p b128 ty d a off s
  | .stsp p b128 ty d a off => Sys2Proof.Machine.execStsp p b128 ty d a off s
  | .atsp p d a b => Sys2Proof.Machine.execAtsp p d a b s
  | .barw p => Sys2Proof.Machine.execBarw p s
  | .atom p op ty d a b => Sys2Proof.Machine.execAtom p op ty d a b s
  | .cas p wide d a b c => Sys2Proof.Machine.execCas p wide d a b c s
  | .red p op ty a b => Sys2Proof.Machine.execRed p op ty a b s
  | .sync p lvl a => Sys2Proof.Machine.execSync p lvl a s
  | .drain p lvl a => Sys2Proof.Machine.execDrain p lvl a s
  | .drainArrival w => Sys2Proof.Machine.execDrainArrival w s
  | .fence p rcd => Sys2Proof.Machine.execFence p rcd s
  | .qpush p a b => Sys2Proof.Machine.execQpush p a b s
  | .qpop p d b => Sys2Proof.Machine.execQpop p d b s
  | .qtry p pop h b c => Sys2Proof.Machine.execQtry p pop h b c s
  | .heldSlotAct w => Sys2Proof.Machine.execHeldSlotAct w s
  | .enq p a b => Sys2Proof.Machine.execEnq p a b s
  | .deq p d b => Sys2Proof.Machine.execDeq p d b s
  | .dcset p a b => Sys2Proof.Machine.execDcset p a b s
  | .dcadd p a b => Sys2Proof.Machine.execDcadd p a b s
  | .dcdec p a => Sys2Proof.Machine.execDcdec p a s
  | .gmake p a b c => Sys2Proof.Machine.execGmake p a b c s
  | .gatt p d a => Sys2Proof.Machine.execGatt p d a s
  | .gdet p a => Sys2Proof.Machine.execGdet p a s
  | .gfree p a => Sys2Proof.Machine.execGfree p a s
  | .mmaQ4 p land tile sel a b c k => Sys2Proof.Machine.execMmaQ4 p land tile sel a b c k s
  | .mmaE4m3 p land tile sel a b c k => Sys2Proof.Machine.execMmaE4m3 p land tile sel a b c k s
  | .mmaE5m2 p land tile sel a b c k => Sys2Proof.Machine.execMmaE5m2 p land tile sel a b c k s
  | .mmaI8 p land tile sel a b c k => Sys2Proof.Machine.execMmaI8 p land tile sel a b c k s
  | .mmaH16 p land tile sel a b c k => Sys2Proof.Machine.execMmaH16 p land tile sel a b c k s
  | .mma4 p land tile sel a b c k => Sys2Proof.Machine.execMma4 p land tile sel a b c k s
  | .mma8 p land tile sel a b c k => Sys2Proof.Machine.execMma8 p land tile sel a b c k s
  | .accz p a => Sys2Proof.Machine.execAccz p a s
  | .accrd p ty d a b => Sys2Proof.Machine.execAccrd p ty d a b s
  | .accwr p a b c => Sys2Proof.Machine.execAccwr p a b c s
  | .ecopy p acq rel d a => Sys2Proof.Machine.execEcopy p acq rel d a s
  | .egath p acq rel d a => Sys2Proof.Machine.execEgath p acq rel d a s
  | .ecoll p acq rel d a => Sys2Proof.Machine.execEcoll p acq rel d a s
  | .ewait p a => Sys2Proof.Machine.execEwait p a s
  | .quant p acq rel d a => Sys2Proof.Machine.execQuant p acq rel d a s
  | .clauseIssue w => Sys2Proof.Machine.execClauseIssue w s
  | .portIssueChoice core port => Sys2Proof.Machine.execPortIssueChoice core port s
  | .switchResume w => Sys2Proof.Machine.execSwitchResume w s
  | .loadResultArrival w k => Sys2Proof.Machine.execLoadResultArrival w k s
  | .storeAck w => Sys2Proof.Machine.execStoreAck w s
  | .earlyRead w k => Sys2Proof.Machine.execEarlyRead w k s
  | .rollback w => Sys2Proof.Machine.execRollback w s
  | .commit w => Sys2Proof.Machine.execCommit w s
  | .irrevocableAct w => Sys2Proof.Machine.execIrrevocableAct w s
  | .sideLogDrain w => Sys2Proof.Machine.execSideLogDrain w s
  | .engineCommandRun c => Sys2Proof.Machine.execEngineCommandRun c s
  | .engineCompletion c => Sys2Proof.Machine.execEngineCompletion c s
  | .l1ReadMiss core line => Sys2Proof.Machine.execL1ReadMiss core line s
  | .ownershipGrant core line => Sys2Proof.Machine.execOwnershipGrant core line s
  | .invalidation core line => Sys2Proof.Machine.execInvalidation core line s
  | .l1Eviction core line => Sys2Proof.Machine.execL1Eviction core line s
  | .annexMiss core line => Sys2Proof.Machine.execAnnexMiss core line s
  | .homeWritePerform line => Sys2Proof.Machine.execHomeWritePerform line s
  | .homeAtomic line => Sys2Proof.Machine.execHomeAtomic line s
  | .leaseExpiry die line => Sys2Proof.Machine.execLeaseExpiry die line s
  | .wrapStall die => Sys2Proof.Machine.execWrapStall die s
  | .annexWake die => Sys2Proof.Machine.execAnnexWake die s
  | .galleryFillComplete g => Sys2Proof.Machine.execGalleryFillComplete g s
  | .galleryEviction g => Sys2Proof.Machine.execGalleryEviction g s
  | .galleryWritebackComplete g => Sys2Proof.Machine.execGalleryWritebackComplete g s
  | .landingIssue core n => Sys2Proof.Machine.execLandingIssue core n s
  | .gangLandingIssue u n => Sys2Proof.Machine.execGangLandingIssue u n s
  | .mmaTileWrite core tile => Sys2Proof.Machine.execMmaTileWrite core tile s
  | .groupRelease g => Sys2Proof.Machine.execGroupRelease g s
  | .unitPlacement die => Sys2Proof.Machine.execUnitPlacement die s
  | .intakeHeadBlock u => Sys2Proof.Machine.execIntakeHeadBlock u s
  | .taskSteal u => Sys2Proof.Machine.execTaskSteal u s
  | .preemptPriority u => Sys2Proof.Machine.execPreemptPriority u s
  | .timeSliceExpiry ctx => Sys2Proof.Machine.execTimeSliceExpiry ctx s
  | .preemption u => Sys2Proof.Machine.execPreemption u s
  | .unitResumption u => Sys2Proof.Machine.execUnitResumption u s
  | .banisterTakeover w lb => Sys2Proof.Machine.execBanisterTakeover w lb s
  | .noticeDelivery w lb => Sys2Proof.Machine.execNoticeDelivery w lb s
  | .handlerEntry w lb => Sys2Proof.Machine.execHandlerEntry w lb s
  | .porterReturn w lb => Sys2Proof.Machine.execPorterReturn w lb s
  | .fetchFaultService w => Sys2Proof.Machine.execFetchFaultService w s
  | .soloPeriodEnd w => Sys2Proof.Machine.execSoloPeriodEnd w s
  | .escalationDecay w => Sys2Proof.Machine.execEscalationDecay w s
  | .serialPassStart die => Sys2Proof.Machine.execSerialPassStart die s
  | .serialPassEnd die => Sys2Proof.Machine.execSerialPassEnd die s
  | .ckptStall w => Sys2Proof.Machine.execCkptStall w s
  | .preemptBlocked u => Sys2Proof.Machine.execPreemptBlocked u s
  | .stallNotification kind k => Sys2Proof.Machine.execStallNotification kind k s
  | .loadLong w lb => Sys2Proof.Machine.execLoadLong w lb s
  | .logLong w => Sys2Proof.Machine.execLogLong w s
  | .matrixUnitKill u => Sys2Proof.Machine.execMatrixUnitKill u s
  | .galleryFillFault g => Sys2Proof.Machine.execGalleryFillFault g s
  | .galleryWbFault g => Sys2Proof.Machine.execGalleryWbFault g s
  | .doorbell die func k v => Sys2Proof.Machine.execDoorbell die func k v s
  | .trigger die func v => Sys2Proof.Machine.execTrigger die func v s
  | .trigovfClear die func => Sys2Proof.Machine.execTrigovfClear die func s
  | .ctxcreate die func a => Sys2Proof.Machine.execCtxcreate die func a s
  | .ctxend die func v => Sys2Proof.Machine.execCtxend die func v s
  | .ringConfigWrite die func k reg v => Sys2Proof.Machine.execRingConfigWrite die func k reg v s
  | .clrelResume func hid => Sys2Proof.Machine.execClrelResume func hid s
  | .clrelEnd func hid => Sys2Proof.Machine.execClrelEnd func hid s
  | .objreg die a => Sys2Proof.Machine.execObjreg die a s
  | .objdel die a => Sys2Proof.Machine.execObjdel die a s
  | .s2SegmentWrite func bound v => Sys2Proof.Machine.execS2SegmentWrite func bound v s
  | .modrst v => Sys2Proof.Machine.execModrst v s
  | .attreq a => Sys2Proof.Machine.execAttreq a s
  | .registerWrite die page off v => Sys2Proof.Machine.execRegisterWrite die page off v s
  | .packetFetch r => Sys2Proof.Machine.execPacketFetch r s
  | .pktNop r => Sys2Proof.Machine.execPktNop r s
  | .pktLaunch r => Sys2Proof.Machine.execPktLaunch r s
  | .pktBundle r => Sys2Proof.Machine.execPktBundle r s
  | .pktCopy r => Sys2Proof.Machine.execPktCopy r s
  | .pktIndirect r => Sys2Proof.Machine.execPktIndirect r s
  | .pktPred r => Sys2Proof.Machine.execPktPred r s
  | .pktLoop r => Sys2Proof.Machine.execPktLoop r s
  | .pktFfence r => Sys2Proof.Machine.execPktFfence r s
  | .pktWaitCompletion r => Sys2Proof.Machine.execPktWaitCompletion r s
  | .pktWaitPoll r => Sys2Proof.Machine.execPktWaitPoll r s
  | .cpWaitRelease r => Sys2Proof.Machine.execCpWaitRelease r s
  | .pktSignal r => Sys2Proof.Machine.execPktSignal r s
  | .pktGraph r => Sys2Proof.Machine.execPktGraph r s
  | .pktCtxsw r => Sys2Proof.Machine.execPktCtxsw r s
  | .configCreateTaskQueue r => Sys2Proof.Machine.execConfigCreateTaskQueue r s
  | .configCreateCounter r => Sys2Proof.Machine.execConfigCreateCounter r s
  | .configCloseTaskQueue r => Sys2Proof.Machine.execConfigCloseTaskQueue r s
  | .configJoinStealSet r => Sys2Proof.Machine.execConfigJoinStealSet r s
  | .configLoadGraph r => Sys2Proof.Machine.execConfigLoadGraph r s
  | .configUnloadGraph r => Sys2Proof.Machine.execConfigUnloadGraph r s
  | .graphRunStart g => Sys2Proof.Machine.execGraphRunStart g s
  | .graphLaunchNode g n => Sys2Proof.Machine.execGraphLaunchNode g n s
  | .graphCopyNode g n => Sys2Proof.Machine.execGraphCopyNode g n s
  | .graphCondNode g n => Sys2Proof.Machine.execGraphCondNode g n s
  | .graphLoopNode g n => Sys2Proof.Machine.execGraphLoopNode g n s
  | .graphEndNode g n => Sys2Proof.Machine.execGraphEndNode g n s
  | .graphNodeFinish g n => Sys2Proof.Machine.execGraphNodeFinish g n s
  | .swezinFrameArrival port frame => Sys2Proof.Machine.execSwezinFrameArrival port frame s
  | .hostWriteWake die func => Sys2Proof.Machine.execHostWriteWake die func s
  | .porterWake die => Sys2Proof.Machine.execPorterWake die s
  | .memoryError er => Sys2Proof.Machine.execMemoryError er s
  | .hbmScrub die => Sys2Proof.Machine.execHbmScrub die s
  | .lifecycleTransition sig => Sys2Proof.Machine.execLifecycleTransition sig s
  | .heartbeatReceive pkg seq => Sys2Proof.Machine.execHeartbeatReceive pkg seq s
  | .heartbeatMiss pkg => Sys2Proof.Machine.execHeartbeatMiss pkg s
  | .resetVoteReceive voter target epoch sig => Sys2Proof.Machine.execResetVoteReceive voter target epoch sig s
  | .msixVectorUnmask func v => Sys2Proof.Machine.execMsixVectorUnmask func v s
  | .firmwareCopyComplete ok => Sys2Proof.Machine.execFirmwareCopyComplete ok s
  | .dieGating die => Sys2Proof.Machine.execDieGating die s
  | .leaseWrap => Sys2Proof.Machine.execLeaseWrap s
  | .banisterTick => Sys2Proof.Machine.execBanisterTick s
  | .wfdropClear => Sys2Proof.Machine.execWfdropClear s
  | .fwcmdLodge => Sys2Proof.Machine.execFwcmdLodge s
  | .fwcmdPorter => Sys2Proof.Machine.execFwcmdPorter s
  | .moduleReset => Sys2Proof.Machine.execModuleReset s
  | .powerLimitExceeded => Sys2Proof.Machine.execPowerLimitExceeded s
  | .powerThrottleRelease => Sys2Proof.Machine.execPowerThrottleRelease s
  | .heartbeatSend => Sys2Proof.Machine.execHeartbeatSend s
  | .attestReportDone => Sys2Proof.Machine.execAttestReportDone s

end Sys2Proof.Machine
end

