-- ==== Sys2Proof/Machine/Auto.lean ====
section
/-! DEFINITION. What the module does between two slots: the rows that may act now, in the fixed order in which the model tries them
(assumption 1), and the passing of a cycle in which none acts. -/

namespace Sys2Proof.Machine

/-! ### Rows that may act -/

/-- The warps that hold segments, and their cores and ports. -/
def State.liveWarps (s : State) : List Nat := (s.warps.filter fun q => !q.2.segs.isEmpty).map Prod.fst
def State.livePorts (s : State) : List (Nat × Nat) := (s.liveWarps.map fun w => (coreOf w, portOf w)).eraseDups
def State.liveSegs (s : State) : List (Nat × Nat) := s.warps.flatMap fun q => q.2.segs.map fun g => (q.1, g.lbase)

/-- The dies. -/
def allDies : List Nat := List.range Config.dies

/-- Rows of the ordering machine: windows, results, side logs and home slices (R166 to R175, R198 to R211). -/
def State.orderRows (s : State) : List Instr :=
  let waits := s.warps.flatMap fun q =>
    (((q.2.window.map Window.evs).getD []).zipIdx.filter fun e => e.1.waits).map fun e => Instr.earlyRead q.1 e.2
  let arrivals := s.warps.flatMap fun q => (q.2.results.filter Res.complete).map fun r => Instr.loadResultArrival q.1 r.id
  let warps := s.warps.map Prod.fst
  let lines := (s.homeOps.map fun o => o.loc.line).eraseDups
  warps.map Instr.rollback ++ waits ++ arrivals ++ warps.map Instr.storeAck ++ warps.map Instr.commit ++
    warps.map Instr.sideLogDrain ++ lines.map Instr.homeAtomic ++ lines.map Instr.homeWritePerform

/-- Rows of causes (R343 to R350, R394), before the windows' commits and after them. -/
def State.causeRows (s : State) : List Instr :=
  let caused := s.warps.flatMap fun q => (q.2.segs.filter fun g =>
    g.cause.isSome || (!g.queue.isEmpty && (q.2.counted &&& g.slots) == 0)).map fun g => (q.1, g.lbase)
  (caused.map fun x => Instr.handlerEntry x.1 x.2) ++ (caused.map fun x => Instr.porterReturn x.1 x.2) ++
    (s.warps.filter fun q => q.2.segs.any fun g => g.cause.isSome).map fun q => Instr.fetchFaultService q.1

/-- Rows of engines, galleries and the matrix unit. -/
def State.unitRows (s : State) : List Instr :=
  let cmds := s.cmds.map Prod.fst
  let gals := s.gals.map Prod.fst
  let cores := (s.liveWarps.map coreOf).eraseDups
  let units := s.units.map Prod.fst
  cmds.map Instr.engineCommandRun ++ cmds.map Instr.engineCompletion ++
    gals.map Instr.galleryFillComplete ++ gals.map Instr.galleryFillFault ++ gals.map Instr.galleryWritebackComplete ++
    gals.map Instr.galleryWbFault ++ gals.map Instr.galleryEviction ++
    (cores.flatMap fun c => (List.range 8).map fun n => Instr.landingIssue c n) ++
    (units.flatMap fun u => (List.range 8).map fun n => Instr.gangLandingIssue u n) ++
    (s.cores.flatMap fun c => [Instr.mmaTileWrite c.1 0, Instr.mmaTileWrite c.1 1]) ++ units.map Instr.matrixUnitKill

/-- Whether a held slot of a warp may be tried again at this cycle. -/
def Warp.mayRetry (wp : Warp) (now : Nat) : Bool :=
  match wp.clause with
  | some c => c.held.isSome && decide (c.heldAt < now)
  | none => false

/-- Rows of drains, first polls, held slots and notices (R67, R76, R205, R223, R230, R350). -/
def State.waitRows (s : State) : List Instr :=
  let warps := s.liveWarps
  let held := warps.filter fun w => (s.warp w).mayRetry s.now
  let first := warps.filter fun w => ((s.warp w).duePolls s.now).any fun q => q.2.interval == 0
  warps.map Instr.drainArrival ++ first.map Instr.waitPoll ++ held.map Instr.irrevocableAct ++ held.map Instr.heldSlotAct ++
    warps.map Instr.switchResume ++ s.liveSegs.map fun x => Instr.noticeDelivery x.1 x.2

/-- Rows of the concourse, of pre-emption and of the banister. -/
def State.placeRows (s : State) : List Instr :=
  let units := s.units.map Prod.fst
  let leaving := (s.units.filter fun q => q.2.st == .stopping).map Prod.fst
  let heads := s.intake.flatMap fun q => q.2.map Intake.arrival
  let trips := (s.warps.flatMap fun q => (q.2.segs.filter fun g => g.takeover.isSome).map fun g => (q.1, g.lbase)).map fun x =>
    Instr.banisterTakeover x.1 x.2
  heads.map Instr.preemptPriority ++ (s.ctxs.map Prod.fst).map Instr.timeSliceExpiry ++ leaving.map Instr.preemption ++
    [Instr.banisterTick] ++ trips ++ (s.groups.map Prod.fst).map Instr.groupRelease ++ allDies.map Instr.unitPlacement ++
    units.map Instr.unitResumption ++ heads.map Instr.intakeHeadBlock ++ heads.map Instr.taskSteal

/-- The live ports in turn: those behind the port that issued last come first. -/
def State.portsInTurn (s : State) : List (Nat × Nat) :=
  let last := 2 * coreOf s.cur + portOf s.cur
  let later := fun q : Nat × Nat => decide (last < 2 * q.1 + q.2)
  s.livePorts.filter later ++ s.livePorts.filter fun q => !later q

/-- Rows of issue (R75, R268, R269): a chosen warp issues or polls; a port without a choice chooses. -/
def State.issueRows (s : State) : List Instr :=
  s.portsInTurn.flatMap fun q =>
    match (s.core q.1).chosen.getD q.2 none with
    | some (w, false) => [Instr.clauseIssue w]
    | some (w, true) => [Instr.waitPoll w]
    | none => [Instr.portIssueChoice q.1 q.2]

/-- A ring put among rings in the order of their turns (R287). -/
def byTurn (r : Nat × Ring) : List (Nat × Ring) → List (Nat × Ring)
  | [] => [r]
  | q :: rest => if r.2.turn < q.2.turn then r :: q :: rest else q :: byTurn r rest

/-- Rows of the command processors and of graphs (R287 to R308). -/
def State.hostRows (s : State) : List Instr :=
  let rings := (s.rings.foldl (fun l r => byTurn r l) []).map Prod.fst
  let graphs := s.graphs.map Prod.fst
  let nodes := s.graphs.flatMap fun g => (List.range g.2.nodes.length).map fun n => (g.1, n)
  rings.map Instr.cpWaitRelease ++
    (rings.flatMap fun r =>
      [Instr.packetFetch r, .pktNop r, .pktLaunch r, .pktBundle r, .pktCopy r, .pktIndirect r, .pktPred r, .pktLoop r, .pktFfence r,
       .pktWaitCompletion r, .pktWaitPoll r, .pktSignal r, .pktGraph r, .pktCtxsw r, .configCreateTaskQueue r,
       .configCreateCounter r, .configCloseTaskQueue r, .configJoinStealSet r, .configLoadGraph r, .configUnloadGraph r]) ++
    graphs.map Instr.graphRunStart ++
    nodes.flatMap fun x =>
      [Instr.graphNodeFinish x.1 x.2, .graphLaunchNode x.1 x.2, .graphCopyNode x.1 x.2, .graphCondNode x.1 x.2,
       .graphLoopNode x.1 x.2, .graphEndNode x.1 x.2]

/-- Rows of the lodge and of the lease clock that act of themselves (R172, R173, R255, R285, R309, R412, R415, R418). -/
def State.lodgeRows (s : State) : List Instr :=
  [.moduleReset, .leaseWrap] ++ s.asked ++
    (allDies.filter fun d => !(s.die d).porterGated && !s.lodge.frames.isEmpty).map Instr.porterWake ++ allDies.map Instr.annexWake ++
    [.firmwareCopyComplete (Config.copyWritten s.freeNo), .attestReportDone, .heartbeatSend] ++
    s.lodge.neighbours.map fun n => Instr.heartbeatMiss n.pkg

/-- Rows that a passing of time brings about (R171, R342, R345, R380 to R384, R391, R392, R407). -/
def State.clockRows (s : State) : List Instr :=
  let warps := s.liveWarps
  let ends := (s.annex.map fun q => (q.1, q.2.expiry)) ++ s.spent
  (ends.filter fun q => decide (q.2 ≤ s.leaseClock.toNat)).map (fun q => Instr.leaseExpiry (q.1 / 2 ^ 34) (q.1 % 2 ^ 34)) ++
    (if s.wrapAt.isSome then allDies.map Instr.wrapStall else []) ++
    warps.map Instr.soloPeriodEnd ++ warps.map Instr.escalationDecay ++ allDies.map Instr.serialPassEnd ++
    allDies.map Instr.serialPassStart ++ warps.map Instr.ckptStall ++ (s.units.map Prod.fst).map Instr.preemptBlocked ++
    (List.range s.bars.length).map (Instr.stallNotification .sync) ++ warps.map (Instr.stallNotification .queue) ++
    ((s.cores.map Prod.fst).flatMap fun c => (List.range 8).map fun n => Instr.stallNotification .landing (8 * c + n)) ++
    (s.liveSegs.map fun x => Instr.loadLong x.1 x.2) ++ warps.map Instr.logLong ++ allDies.map Instr.hbmScrub

/-- Warps of other ports that are between two slots of a clause: their slots go on (R67). -/
def State.midRows (s : State) : List Instr :=
  (s.warps.filter fun q => q.1 != s.cur && (q.2.clause.map fun c => c.held.isNone && !c.parked).getD false).map fun q =>
    Instr.heldSlotAct q.1

/-- Every row that may act now, in the order in which the model tries them. -/
def State.candidates (s : State) : List Instr :=
  s.midRows ++ s.lodgeRows ++ s.clockRows ++ s.orderRows ++ s.causeRows ++ s.unitRows ++ s.waitRows ++ s.placeRows ++ s.hostRows ++
    s.issueRows

/-! ### Between slots -/

/-- Whether state `v`, in which the slot of a warp has been tried again, is state `s` but for the hold and the time that passed. -/
def State.stillHeld (s v : State) (w : Nat) : Bool :=
  match (s.warp w).clause, (v.warp w).clause with
  | some c0, some c =>
    let c' : Clause := { c with held := c0.held, heldAt := c0.heldAt, heldSince := c0.heldSince }
    let v' := v.onWarp w fun wp => { wp with clause := some c' }
    c.held.isSome && decide ({ v' with now := s.now, leaseClock := s.leaseClock, wrapAt := s.wrapAt, cur := s.cur } = s)
  | _, _ => false

/-- Whether trying the held slot of a warp again does more than hold it. -/
def State.retryHelps (s : State) (w : Nat) : Bool :=
  if ((s.warp w).clause.map fun c => c.held.isNone).getD false then true
  else match execHeldSlotAct w s with
  | .next t =>
    match t.slotAct with
    | .done v => !s.stillHeld v w
    | .run i u =>
      match exec i u with
      | .next v => !s.stillHeld v w
      | _ => false
  | _ => false

/-- The state after a row, if the row changed anything; a held slot is tried again when that helps. -/
def State.acts (s : State) (i : Instr) : Option State :=
  let idle := match i with
    | .heldSlotAct w => !s.retryHelps w
    | _ => false
  if idle then none
  else match exec i s with
    | .next t => if t = s then none else some t
    | .fault _ => none
    | .refused _ => none

/-- The first row that changes anything acts; if there is none, a cycle passes. -/
def State.auto (s : State) : State := (s.candidates.findSome? s.acts).getD (s.noteReady.tick 1)

end Sys2Proof.Machine
end

