-- ==== Sys2Proof/Machine/Step.lean ====
section
/-! DEFINITION. One step of the module, and the placing of a word where the next step fetches. -/

namespace Sys2Proof.Machine

/-- The outcome of a slot whose word decoded to `i`, in the state `t` at the slot. In a segment in which a lane has read poison, the
slot does nothing else (R410). -/
def State.finishSlot (t : State) (i : Instr) : Host.Outcome State Fault Refusal :=
  let word := t.curWarp.curWord
  match exec i t with
  | .next t' =>
    let m := t.poisonHits t'
    if m = 0 then .next (t.afterSlot t' word)
    else
      let u := t.poisonTaken m
      match exec i u with
      | .next u' => .next (t.afterSlot u' word)
      | .fault r => .fault r
      | .refused r => .refused r
  | .fault r => .fault r
  | .refused r => .refused r

/-- One step: the head of the agenda; or the slot of the warp that issues; or what the module does between slots. -/
def step (s : State) : Host.Outcome State Fault Refusal :=
  match s.agenda with
  | i :: rest => exec i { s with agenda := rest }
  | [] =>
    if s.slotReady then
      match s.slotAct with
      | .done t => .next t
      | .run i t => t.finishSlot i
    else .next s.auto

/-- The warp that stands at slot 0 of a clause of the one word `w`. -/
def Warp.standing0 (w : DWord) : Warp :=
  let g : Seg :=
    { lbase := 0, width := 64, gid := 0, idx := 0, vslot := 0, lmask := ~~~0, lpark := 0, vpc := List.replicate 64 0
      evt := ⟨0, 0, 0⟩, etaken := 0, udepth := 0, olmask := 0, ovpc := List.replicate 64 0, oevt := ⟨0, 0, 0⟩, oetaken := 0
      usher := 0, urun := 0, ubase := 0, tbase := 0, bancnt := 0, dropcnt := 0, firmware := classOf w == 5, handler := 0
      record := none, cause := none, queue := [], notices := [], notBefore := 0, progress := false, bc := 0
      takeover := none, tripped := false }
  let wp : Warp := { Warp.reset with segs := [g], pcs := List.replicate 64 0, live := ~~~0 }
  wp.beginClause ⟨0, classOf w, 0, [w], ~~~0, 0, [], []⟩

/-- The word of a table row stored where the next step fetches (assumption 2): it is the one slot of the clause at which the warp that
issues stands, its clause having been fetched as one unit (R66). -/
def State.withFetchWord (s : State) (nbits w : Nat) : State :=
  { s.setWarp s.cur (Warp.standing0 (BitVec.ofNat 64 (w % 2 ^ nbits))) with agenda := [] }

end Sys2Proof.Machine
end

