-- ==== Sys2Proof/Laws/PerInstr.lean ====
section
/-! SUPPORT. One lemma for each constructor: the encoder uses only opcodes of the cell table (R91). -/

namespace Sys2Proof.Laws.Encode

/-- Every opcode that the encoder gives an instruction has a row of the cell table. -/
def Statement (i : Instr) : Prop := ∀ f, encodeFields i = some f → (cellRow f.opc.toNat).isSome = true

theorem nop (p : Pre) : Statement (.nop p) := by intro f h; cases h; rfl
theorem bra (p : Pre) (off : BitVec 40) : Statement (.bra p off) := by intro f h; cases h; rfl
theorem brau (p : Pre) (off : BitVec 40) : Statement (.brau p off) := by intro f h; cases h; rfl
theorem jmp (p : Pre) (off : BitVec 40) : Statement (.jmp p off) := by intro f h; cases h; rfl
theorem call (p : Pre) (off : BitVec 40) : Statement (.call p off) := by intro f h; cases h; rfl
theorem ret (p : Pre) (a : Reg) : Statement (.ret p a) := by intro f h; cases h; rfl
theorem exit (p : Pre) : Statement (.exit p) := by intro f h; cases h; rfl
theorem yieldP (p : Pre) : Statement (.yieldP p) := by intro f h; cases h; rfl
theorem wait (p : Pre) (isEq wide : Bool) (d a b : Reg) (off : BitVec 16) : Statement (.wait p isEq wide d a b off) := by intro f h; cases h; rfl
theorem waitPoll (w : Nat) : Statement (.waitPoll w) := by intro f h; cases h
theorem udone (p : Pre) : Statement (.udone p) := by intro f h; cases h; rfl
theorem park (p : Pre) : Statement (.park p) := by intro f h; cases h; rfl
theorem wake (p : Pre) (a : Reg) : Statement (.wake p a) := by intro f h; cases h; rfl
theorem trap (p : Pre) (imm : BitVec 24) : Statement (.trap p imm) := by intro f h; cases h; rfl
theorem svc (p : Pre) (imm : BitVec 24) : Statement (.svc p imm) := by intro f h; cases h; rfl
theorem bkpt (p : Pre) (imm : BitVec 24) : Statement (.bkpt p imm) := by intro f h; cases h; rfl
theorem mov (p : Pre) (wide : Bool) (d a : Reg) (sel : BitVec 2) : Statement (.mov p wide d a sel) := by intro f h; cases h; rfl
theorem movsRead (p : Pre) (wide : Bool) (d : Reg) (sr : BitVec 8) : Statement (.movsRead p wide d sr) := by intro f h; cases h; rfl
theorem movsWrite (p : Pre) (wide : Bool) (sr : BitVec 8) (a : Reg) : Statement (.movsWrite p wide sr a) := by intro f h; cases h; rfl
theorem movi (p : Pre) (hi : Bool) (d : Reg) (imm : BitVec 24) : Statement (.movi p hi d imm) := by intro f h; cases h; rfl
theorem plop (p : Pre) (d a b c : Reg) (tt : BitVec 8) : Statement (.plop p d a b c tt) := by intro f h; cases h; rfl
theorem rtt (p : Pre) : Statement (.rtt p) := by intro f h; cases h; rfl
theorem halt (p : Pre) : Statement (.halt p) := by intro f h; cases h; rfl
theorem srwr (p : Pre) (wide : Bool) (sr : BitVec 8) (a : Reg) : Statement (.srwr p wide sr a) := by intro f h; cases h; rfl
theorem cache (p : Pre) (op : CacheOp) (a b : Reg) (off : BitVec 16) : Statement (.cache p op a b off) := by intro f h; cases h; rfl
theorem tlbi (p : Pre) (op : TlbiOp) (a b : Reg) : Statement (.tlbi p op a b) := by intro f h; cases h; rfl
theorem iadd (p : Pre) (ty : Ty) (sat : Bool) (d a b : Reg) : Statement (.iadd p ty sat d a b) := by intro f h; cases h; rfl
theorem iaddImm (p : Pre) (ty : Ty) (sat : Bool) (d a : Reg) (imm : BitVec 24) : Statement (.iaddImm p ty sat d a imm) := by intro f h; cases h; rfl
theorem isub (p : Pre) (ty : Ty) (sat : Bool) (d a b : Reg) : Statement (.isub p ty sat d a b) := by intro f h; cases h; rfl
theorem iadc (p : Pre) (ty : Ty) (sat : Bool) (d a b c : Reg) : Statement (.iadc p ty sat d a b c) := by intro f h; cases h; rfl
theorem isbb (p : Pre) (ty : Ty) (sat : Bool) (d a b c : Reg) : Statement (.isbb p ty sat d a b c) := by intro f h; cases h; rfl
theorem imul (p : Pre) (ty : Ty) (sat : Bool) (d a b : Reg) : Statement (.imul p ty sat d a b) := by intro f h; cases h; rfl
theorem imulImm (p : Pre) (ty : Ty) (sat : Bool) (d a : Reg) (imm : BitVec 24) : Statement (.imulImm p ty sat d a imm) := by intro f h; cases h; rfl
theorem imulh (p : Pre) (ty : Ty) (d a b : Reg) : Statement (.imulh p ty d a b) := by intro f h; cases h; rfl
theorem imad (p : Pre) (ty : Ty) (sat : Bool) (d a b c : Reg) : Statement (.imad p ty sat d a b c) := by intro f h; cases h; rfl
theorem imadh (p : Pre) (ty : Ty) (d a b c : Reg) : Statement (.imadh p ty d a b c) := by intro f h; cases h; rfl
theorem imin (p : Pre) (ty : Ty) (d a b : Reg) : Statement (.imin p ty d a b) := by intro f h; cases h; rfl
theorem iminImm (p : Pre) (ty : Ty) (d a : Reg) (imm : BitVec 24) : Statement (.iminImm p ty d a imm) := by intro f h; cases h; rfl
theorem imax (p : Pre) (ty : Ty) (d a b : Reg) : Statement (.imax p ty d a b) := by intro f h; cases h; rfl
theorem imaxImm (p : Pre) (ty : Ty) (d a : Reg) (imm : BitVec 24) : Statement (.imaxImm p ty d a imm) := by intro f h; cases h; rfl
theorem iabs (p : Pre) (ty : Ty) (sat : Bool) (d a : Reg) : Statement (.iabs p ty sat d a) := by intro f h; cases h; rfl
theorem ineg (p : Pre) (ty : Ty) (sat : Bool) (d a : Reg) : Statement (.ineg p ty sat d a) := by intro f h; cases h; rfl
theorem icmp (p : Pre) (cond : ICond) (ty : Ty) (d a b : Reg) : Statement (.icmp p cond ty d a b) := by intro f h; cases h; rfl
theorem icmpImm (p : Pre) (cond : ICond) (ty : Ty) (d a : Reg) (imm : BitVec 24) : Statement (.icmpImm p cond ty d a imm) := by intro f h; cases h; rfl
theorem aadd (p : Pre) (ty : Ty) (d a b : Reg) : Statement (.aadd p ty d a b) := by intro f h; cases h; rfl
theorem aaddImm (p : Pre) (d a : Reg) (imm : BitVec 24) : Statement (.aaddImm p d a imm) := by intro f h; cases h; rfl
theorem andL (p : Pre) (wide : Bool) (d a b : Reg) : Statement (.andL p wide d a b) := by intro f h; cases h; rfl
theorem andImm (p : Pre) (wide : Bool) (d a : Reg) (imm : BitVec 24) : Statement (.andImm p wide d a imm) := by intro f h; cases h; rfl
theorem orL (p : Pre) (wide : Bool) (d a b : Reg) : Statement (.orL p wide d a b) := by intro f h; cases h; rfl
theorem orImm (p : Pre) (wide : Bool) (d a : Reg) (imm : BitVec 24) : Statement (.orImm p wide d a imm) := by intro f h; cases h; rfl
theorem xorL (p : Pre) (wide : Bool) (d a b : Reg) : Statement (.xorL p wide d a b) := by intro f h; cases h; rfl
theorem xorImm (p : Pre) (wide : Bool) (d a : Reg) (imm : BitVec 24) : Statement (.xorImm p wide d a imm) := by intro f h; cases h; rfl
theorem andn (p : Pre) (wide : Bool) (d a b : Reg) : Statement (.andn p wide d a b) := by intro f h; cases h; rfl
theorem notL (p : Pre) (wide : Bool) (d a : Reg) : Statement (.notL p wide d a) := by intro f h; cases h; rfl
theorem shl (p : Pre) (wide : Bool) (d a b : Reg) : Statement (.shl p wide d a b) := by intro f h; cases h; rfl
theorem shlImm (p : Pre) (wide : Bool) (d a : Reg) (imm : BitVec 24) : Statement (.shlImm p wide d a imm) := by intro f h; cases h; rfl
theorem shr (p : Pre) (wide : Bool) (d a b : Reg) : Statement (.shr p wide d a b) := by intro f h; cases h; rfl
theorem shrImm (p : Pre) (wide : Bool) (d a : Reg) (imm : BitVec 24) : Statement (.shrImm p wide d a imm) := by intro f h; cases h; rfl
theorem sar (p : Pre) (wide : Bool) (d a b : Reg) : Statement (.sar p wide d a b) := by intro f h; cases h; rfl
theorem sarImm (p : Pre) (wide : Bool) (d a : Reg) (imm : BitVec 24) : Statement (.sarImm p wide d a imm) := by intro f h; cases h; rfl
theorem rol (p : Pre) (wide : Bool) (d a b : Reg) : Statement (.rol p wide d a b) := by intro f h; cases h; rfl
theorem rolImm (p : Pre) (wide : Bool) (d a : Reg) (imm : BitVec 24) : Statement (.rolImm p wide d a imm) := by intro f h; cases h; rfl
theorem clz (p : Pre) (wide : Bool) (d a : Reg) : Statement (.clz p wide d a) := by intro f h; cases h; rfl
theorem ctz (p : Pre) (wide : Bool) (d a : Reg) : Statement (.ctz p wide d a) := by intro f h; cases h; rfl
theorem popc (p : Pre) (wide : Bool) (d a : Reg) : Statement (.popc p wide d a) := by intro f h; cases h; rfl
theorem brev (p : Pre) (wide : Bool) (d a : Reg) : Statement (.brev p wide d a) := by intro f h; cases h; rfl
theorem bfx (p : Pre) (ty : Ty) (d a b c : Reg) : Statement (.bfx p ty d a b c) := by intro f h; cases h; rfl
theorem bfi (p : Pre) (wide : Bool) (d a b c : Reg) : Statement (.bfi p wide d a b c) := by intro f h; cases h; rfl
theorem prmt (p : Pre) (d a b c : Reg) : Statement (.prmt p d a b c) := by intro f h; cases h; rfl
theorem sel (p : Pre) (wide : Bool) (d a b c : Reg) : Statement (.sel p wide d a b c) := by intro f h; cases h; rfl
theorem xchl (p : Pre) (op : XchlOp) (wide : Bool) (d a b : Reg) : Statement (.xchl p op wide d a b) := by intro f h; cases h; rfl
theorem ballot (p : Pre) (d a : Reg) : Statement (.ballot p d a) := by intro f h; cases h; rfl
theorem vote (p : Pre) (op : VoteOp) (d a : Reg) : Statement (.vote p op d a) := by intro f h; cases h; rfl
theorem gred (p : Pre) (op : RedOp) (ty : Ty) (d a : Reg) : Statement (.gred p op ty d a) := by intro f h; cases h; rfl
theorem fadd (p : Pre) (packed ftz : Bool) (ty : Ty) (d a b : Reg) : Statement (.fadd p packed ftz ty d a b) := by intro f h; cases h; rfl
theorem fsub (p : Pre) (packed ftz : Bool) (ty : Ty) (d a b : Reg) : Statement (.fsub p packed ftz ty d a b) := by intro f h; cases h; rfl
theorem fmul (p : Pre) (packed ftz : Bool) (ty : Ty) (d a b : Reg) : Statement (.fmul p packed ftz ty d a b) := by intro f h; cases h; rfl
theorem ffma (p : Pre) (packed ftz : Bool) (ty : Ty) (d a b c : Reg) : Statement (.ffma p packed ftz ty d a b c) := by intro f h; cases h; rfl
theorem fmin (p : Pre) (packed ftz : Bool) (ty : Ty) (d a b : Reg) : Statement (.fmin p packed ftz ty d a b) := by intro f h; cases h; rfl
theorem fmax (p : Pre) (packed ftz : Bool) (ty : Ty) (d a b : Reg) : Statement (.fmax p packed ftz ty d a b) := by intro f h; cases h; rfl
theorem fabs (p : Pre) (packed ftz : Bool) (ty : Ty) (d a : Reg) : Statement (.fabs p packed ftz ty d a) := by intro f h; cases h; rfl
theorem fneg (p : Pre) (packed ftz : Bool) (ty : Ty) (d a : Reg) : Statement (.fneg p packed ftz ty d a) := by intro f h; cases h; rfl
theorem fcmp (p : Pre) (cond : FCond) (ftz : Bool) (ty : Ty) (d a b : Reg) : Statement (.fcmp p cond ftz ty d a b) := by intro f h; cases h; rfl
theorem fflr (p : Pre) (ftz : Bool) (ty : Ty) (d a : Reg) : Statement (.fflr p ftz ty d a) := by intro f h; cases h; rfl
theorem frnd (p : Pre) (mode : RMode) (ftz : Bool) (ty : Ty) (d a : Reg) : Statement (.frnd p mode ftz ty d a) := by intro f h; cases h; rfl
theorem cvt (p : Pre) (mode : RMode) (ftz sat : Bool) (td ts : Ty) (d a : Reg) : Statement (.cvt p mode ftz sat td ts d a) := by intro f h; cases h; rfl
theorem frcp (p : Pre) (ftz : Bool) (ty : Ty) (d a : Reg) : Statement (.frcp p ftz ty d a) := by intro f h; cases h; rfl
theorem frsq (p : Pre) (ftz : Bool) (ty : Ty) (d a : Reg) : Statement (.frsq p ftz ty d a) := by intro f h; cases h; rfl
theorem fexp2 (p : Pre) (ftz : Bool) (ty : Ty) (d a : Reg) : Statement (.fexp2 p ftz ty d a) := by intro f h; cases h; rfl
theorem flog2 (p : Pre) (ftz : Bool) (ty : Ty) (d a : Reg) : Statement (.flog2 p ftz ty d a) := by intro f h; cases h; rfl
theorem fsin (p : Pre) (ftz : Bool) (ty : Ty) (d a : Reg) : Statement (.fsin p ftz ty d a) := by intro f h; cases h; rfl
theorem fcos (p : Pre) (ftz : Bool) (ty : Ty) (d a : Reg) : Statement (.fcos p ftz ty d a) := by intro f h; cases h; rfl
theorem fdiva (p : Pre) (ftz : Bool) (d a b : Reg) : Statement (.fdiva p ftz d a b) := by intro f h; cases h; rfl
theorem ld (p : Pre) (hint : Hint) (b128 : Bool) (ty : Ty) (d a b : Reg) (off : BitVec 16) : Statement (.ld p hint b128 ty d a b off) := by intro f h; cases h; rfl
theorem st (p : Pre) (hint : Hint) (b128 : Bool) (ty : Ty) (d a b : Reg) (off : BitVec 16) : Statement (.st p hint b128 ty d a b off) := by intro f h; cases h; rfl
theorem ldw (p : Pre) (hint : Hint) (d a b : Reg) (off : BitVec 16) : Statement (.ldw p hint d a b off) := by intro f h; cases h; rfl
theorem stw (p : Pre) (hint : Hint) (d a b : Reg) (off : BitVec 16) : Statement (.stw p hint d a b off) := by intro f h; cases h; rfl
theorem prf (p : Pre) (l2 : Bool) (a b : Reg) (off : BitVec 16) : Statement (.prf p l2 a b off) := by intro f h; cases h; rfl
theorem ldsp (p : Pre) (b128 : Bool) (ty : Ty) (d a : Reg) (off : BitVec 16) : Statement (.ldsp p b128 ty d a off) := by intro f h; cases h; rfl
theorem stsp (p : Pre) (b128 : Bool) (ty : Ty) (d a : Reg) (off : BitVec 16) : Statement (.stsp p b128 ty d a off) := by intro f h; cases h; rfl
theorem atsp (p : Pre) (d a b : Reg) : Statement (.atsp p d a b) := by intro f h; cases h; rfl
theorem barw (p : Pre) : Statement (.barw p) := by intro f h; cases h; rfl
theorem atom (p : Pre) (op : AtomOp) (ty : Ty) (d a b : Reg) : Statement (.atom p op ty d a b) := by intro f h; cases h; rfl
theorem cas (p : Pre) (wide : Bool) (d a b c : Reg) : Statement (.cas p wide d a b c) := by intro f h; cases h; rfl
theorem red (p : Pre) (op : RedOp) (ty : Ty) (a b : Reg) : Statement (.red p op ty a b) := by intro f h; cases h; rfl
theorem sync (p : Pre) (lvl : Level) (a : Reg) : Statement (.sync p lvl a) := by intro f h; cases h; rfl
theorem drain (p : Pre) (lvl : Level) (a : Reg) : Statement (.drain p lvl a) := by intro f h; cases h; rfl
theorem drainArrival (w : Nat) : Statement (.drainArrival w) := by intro f h; cases h
theorem fence (p : Pre) (rcd : Bool) : Statement (.fence p rcd) := by intro f h; cases h; rfl
theorem qpush (p : Pre) (a b : Reg) : Statement (.qpush p a b) := by intro f h; cases h; rfl
theorem qpop (p : Pre) (d b : Reg) : Statement (.qpop p d b) := by intro f h; cases h; rfl
theorem qtry (p : Pre) (pop : Bool) (h b c : Reg) : Statement (.qtry p pop h b c) := by intro f h; cases h; rfl
theorem heldSlotAct (w : Nat) : Statement (.heldSlotAct w) := by intro f h; cases h
theorem enq (p : Pre) (a b : Reg) : Statement (.enq p a b) := by intro f h; cases h; rfl
theorem deq (p : Pre) (d b : Reg) : Statement (.deq p d b) := by intro f h; cases h; rfl
theorem dcset (p : Pre) (a b : Reg) : Statement (.dcset p a b) := by intro f h; cases h; rfl
theorem dcadd (p : Pre) (a b : Reg) : Statement (.dcadd p a b) := by intro f h; cases h; rfl
theorem dcdec (p : Pre) (a : Reg) : Statement (.dcdec p a) := by intro f h; cases h; rfl
theorem gmake (p : Pre) (a b c : Reg) : Statement (.gmake p a b c) := by intro f h; cases h; rfl
theorem gatt (p : Pre) (d a : Reg) : Statement (.gatt p d a) := by intro f h; cases h; rfl
theorem gdet (p : Pre) (a : Reg) : Statement (.gdet p a) := by intro f h; cases h; rfl
theorem gfree (p : Pre) (a : Reg) : Statement (.gfree p a) := by intro f h; cases h; rfl
theorem mmaQ4 (p : Pre) (land : BitVec 3) (tile : Bool) (sel : BitVec 2) (a b c k : Reg) : Statement (.mmaQ4 p land tile sel a b c k) := by intro f h; cases h; rfl
theorem mmaE4m3 (p : Pre) (land : BitVec 3) (tile : Bool) (sel : BitVec 2) (a b c k : Reg) : Statement (.mmaE4m3 p land tile sel a b c k) := by intro f h; cases h; rfl
theorem mmaE5m2 (p : Pre) (land : BitVec 3) (tile : Bool) (sel : BitVec 2) (a b c k : Reg) : Statement (.mmaE5m2 p land tile sel a b c k) := by intro f h; cases h; rfl
theorem mmaI8 (p : Pre) (land : BitVec 3) (tile : Bool) (sel : BitVec 2) (a b c k : Reg) : Statement (.mmaI8 p land tile sel a b c k) := by intro f h; cases h; rfl
theorem mmaH16 (p : Pre) (land : BitVec 3) (tile : Bool) (sel : BitVec 2) (a b c k : Reg) : Statement (.mmaH16 p land tile sel a b c k) := by intro f h; cases h; rfl
theorem mma4 (p : Pre) (land : BitVec 3) (tile : Bool) (sel : BitVec 2) (a b c k : Reg) : Statement (.mma4 p land tile sel a b c k) := by intro f h; cases h; rfl
theorem mma8 (p : Pre) (land : BitVec 3) (tile : Bool) (sel : BitVec 2) (a b c k : Reg) : Statement (.mma8 p land tile sel a b c k) := by intro f h; cases h; rfl
theorem accz (p : Pre) (a : Reg) : Statement (.accz p a) := by intro f h; cases h; rfl
theorem accrd (p : Pre) (ty : Ty) (d a b : Reg) : Statement (.accrd p ty d a b) := by intro f h; cases h; rfl
theorem accwr (p : Pre) (a b c : Reg) : Statement (.accwr p a b c) := by intro f h; cases h; rfl
theorem ecopy (p : Pre) (acq rel : Bool) (d a : Reg) : Statement (.ecopy p acq rel d a) := by intro f h; cases h; rfl
theorem egath (p : Pre) (acq rel : Bool) (d a : Reg) : Statement (.egath p acq rel d a) := by intro f h; cases h; rfl
theorem ecoll (p : Pre) (acq rel : Bool) (d a : Reg) : Statement (.ecoll p acq rel d a) := by intro f h; cases h; rfl
theorem ewait (p : Pre) (a : Reg) : Statement (.ewait p a) := by intro f h; cases h; rfl
theorem quant (p : Pre) (acq rel : Bool) (d a : Reg) : Statement (.quant p acq rel d a) := by intro f h; cases h; rfl
theorem clauseIssue (w : Nat) : Statement (.clauseIssue w) := by intro f h; cases h
theorem portIssueChoice (core port : Nat) : Statement (.portIssueChoice core port) := by intro f h; cases h
theorem switchResume (w : Nat) : Statement (.switchResume w) := by intro f h; cases h
theorem loadResultArrival (w k : Nat) : Statement (.loadResultArrival w k) := by intro f h; cases h
theorem storeAck (w : Nat) : Statement (.storeAck w) := by intro f h; cases h
theorem earlyRead (w k : Nat) : Statement (.earlyRead w k) := by intro f h; cases h
theorem rollback (w : Nat) : Statement (.rollback w) := by intro f h; cases h
theorem commit (w : Nat) : Statement (.commit w) := by intro f h; cases h
theorem irrevocableAct (w : Nat) : Statement (.irrevocableAct w) := by intro f h; cases h
theorem sideLogDrain (w : Nat) : Statement (.sideLogDrain w) := by intro f h; cases h
theorem engineCommandRun (c : Nat) : Statement (.engineCommandRun c) := by intro f h; cases h
theorem engineCompletion (c : Nat) : Statement (.engineCompletion c) := by intro f h; cases h
theorem l1ReadMiss (core line : Nat) : Statement (.l1ReadMiss core line) := by intro f h; cases h
theorem ownershipGrant (core line : Nat) : Statement (.ownershipGrant core line) := by intro f h; cases h
theorem invalidation (core line : Nat) : Statement (.invalidation core line) := by intro f h; cases h
theorem l1Eviction (core line : Nat) : Statement (.l1Eviction core line) := by intro f h; cases h
theorem annexMiss (core line : Nat) : Statement (.annexMiss core line) := by intro f h; cases h
theorem homeWritePerform (line : Nat) : Statement (.homeWritePerform line) := by intro f h; cases h
theorem homeAtomic (line : Nat) : Statement (.homeAtomic line) := by intro f h; cases h
theorem leaseExpiry (die line : Nat) : Statement (.leaseExpiry die line) := by intro f h; cases h
theorem wrapStall (die : Nat) : Statement (.wrapStall die) := by intro f h; cases h
theorem annexWake (die : Nat) : Statement (.annexWake die) := by intro f h; cases h
theorem galleryFillComplete (g : Nat) : Statement (.galleryFillComplete g) := by intro f h; cases h
theorem galleryEviction (g : Nat) : Statement (.galleryEviction g) := by intro f h; cases h
theorem galleryWritebackComplete (g : Nat) : Statement (.galleryWritebackComplete g) := by intro f h; cases h
theorem landingIssue (core n : Nat) : Statement (.landingIssue core n) := by intro f h; cases h
theorem gangLandingIssue (u n : Nat) : Statement (.gangLandingIssue u n) := by intro f h; cases h
theorem mmaTileWrite (core tile : Nat) : Statement (.mmaTileWrite core tile) := by intro f h; cases h
theorem groupRelease (g : Nat) : Statement (.groupRelease g) := by intro f h; cases h
theorem unitPlacement (die : Nat) : Statement (.unitPlacement die) := by intro f h; cases h
theorem intakeHeadBlock (u : Nat) : Statement (.intakeHeadBlock u) := by intro f h; cases h
theorem taskSteal (u : Nat) : Statement (.taskSteal u) := by intro f h; cases h
theorem preemptPriority (u : Nat) : Statement (.preemptPriority u) := by intro f h; cases h
theorem timeSliceExpiry (ctx : Nat) : Statement (.timeSliceExpiry ctx) := by intro f h; cases h
theorem preemption (u : Nat) : Statement (.preemption u) := by intro f h; cases h
theorem unitResumption (u : Nat) : Statement (.unitResumption u) := by intro f h; cases h
theorem banisterTakeover (w lb : Nat) : Statement (.banisterTakeover w lb) := by intro f h; cases h
theorem noticeDelivery (w lb : Nat) : Statement (.noticeDelivery w lb) := by intro f h; cases h
theorem handlerEntry (w lb : Nat) : Statement (.handlerEntry w lb) := by intro f h; cases h
theorem porterReturn (w lb : Nat) : Statement (.porterReturn w lb) := by intro f h; cases h
theorem fetchFaultService (w : Nat) : Statement (.fetchFaultService w) := by intro f h; cases h
theorem soloPeriodEnd (w : Nat) : Statement (.soloPeriodEnd w) := by intro f h; cases h
theorem escalationDecay (w : Nat) : Statement (.escalationDecay w) := by intro f h; cases h
theorem serialPassStart (die : Nat) : Statement (.serialPassStart die) := by intro f h; cases h
theorem serialPassEnd (die : Nat) : Statement (.serialPassEnd die) := by intro f h; cases h
theorem ckptStall (w : Nat) : Statement (.ckptStall w) := by intro f h; cases h
theorem preemptBlocked (u : Nat) : Statement (.preemptBlocked u) := by intro f h; cases h
theorem stallNotification (kind : StallKind) (k : Nat) : Statement (.stallNotification kind k) := by intro f h; cases h
theorem loadLong (w lb : Nat) : Statement (.loadLong w lb) := by intro f h; cases h
theorem logLong (w : Nat) : Statement (.logLong w) := by intro f h; cases h
theorem matrixUnitKill (u : Nat) : Statement (.matrixUnitKill u) := by intro f h; cases h
theorem galleryFillFault (g : Nat) : Statement (.galleryFillFault g) := by intro f h; cases h
theorem galleryWbFault (g : Nat) : Statement (.galleryWbFault g) := by intro f h; cases h
theorem doorbell (die func : Nat) (k : Nat) (v : DWord) : Statement (.doorbell die func k v) := by intro f h; cases h
theorem trigger (die func : Nat) (v : DWord) : Statement (.trigger die func v) := by intro f h; cases h
theorem trigovfClear (die func : Nat) : Statement (.trigovfClear die func) := by intro f h; cases h
theorem ctxcreate (die func : Nat) (a : DWord) : Statement (.ctxcreate die func a) := by intro f h; cases h
theorem ctxend (die func : Nat) (v : DWord) : Statement (.ctxend die func v) := by intro f h; cases h
theorem ringConfigWrite (die func : Nat) (k : Nat) (reg : RingReg) (v : DWord) : Statement (.ringConfigWrite die func k reg v) := by intro f h; cases h
theorem clrelResume (func hid : Nat) : Statement (.clrelResume func hid) := by intro f h; cases h
theorem clrelEnd (func hid : Nat) : Statement (.clrelEnd func hid) := by intro f h; cases h
theorem objreg (die : Nat) (a : DWord) : Statement (.objreg die a) := by intro f h; cases h
theorem objdel (die : Nat) (a : DWord) : Statement (.objdel die a) := by intro f h; cases h
theorem s2SegmentWrite (func : Nat) (bound : Bool) (v : DWord) : Statement (.s2SegmentWrite func bound v) := by intro f h; cases h
theorem modrst (v : DWord) : Statement (.modrst v) := by intro f h; cases h
theorem attreq (a : DWord) : Statement (.attreq a) := by intro f h; cases h
theorem registerWrite (die : Nat) (page : RegPage) (off : Nat) (v : DWord) : Statement (.registerWrite die page off v) := by intro f h; cases h
theorem packetFetch (r : Nat) : Statement (.packetFetch r) := by intro f h; cases h
theorem pktNop (r : Nat) : Statement (.pktNop r) := by intro f h; cases h
theorem pktLaunch (r : Nat) : Statement (.pktLaunch r) := by intro f h; cases h
theorem pktBundle (r : Nat) : Statement (.pktBundle r) := by intro f h; cases h
theorem pktCopy (r : Nat) : Statement (.pktCopy r) := by intro f h; cases h
theorem pktIndirect (r : Nat) : Statement (.pktIndirect r) := by intro f h; cases h
theorem pktPred (r : Nat) : Statement (.pktPred r) := by intro f h; cases h
theorem pktLoop (r : Nat) : Statement (.pktLoop r) := by intro f h; cases h
theorem pktFfence (r : Nat) : Statement (.pktFfence r) := by intro f h; cases h
theorem pktWaitCompletion (r : Nat) : Statement (.pktWaitCompletion r) := by intro f h; cases h
theorem pktWaitPoll (r : Nat) : Statement (.pktWaitPoll r) := by intro f h; cases h
theorem cpWaitRelease (r : Nat) : Statement (.cpWaitRelease r) := by intro f h; cases h
theorem pktSignal (r : Nat) : Statement (.pktSignal r) := by intro f h; cases h
theorem pktGraph (r : Nat) : Statement (.pktGraph r) := by intro f h; cases h
theorem pktCtxsw (r : Nat) : Statement (.pktCtxsw r) := by intro f h; cases h
theorem configCreateTaskQueue (r : Nat) : Statement (.configCreateTaskQueue r) := by intro f h; cases h
theorem configCreateCounter (r : Nat) : Statement (.configCreateCounter r) := by intro f h; cases h
theorem configCloseTaskQueue (r : Nat) : Statement (.configCloseTaskQueue r) := by intro f h; cases h
theorem configJoinStealSet (r : Nat) : Statement (.configJoinStealSet r) := by intro f h; cases h
theorem configLoadGraph (r : Nat) : Statement (.configLoadGraph r) := by intro f h; cases h
theorem configUnloadGraph (r : Nat) : Statement (.configUnloadGraph r) := by intro f h; cases h
theorem graphRunStart (g : Nat) : Statement (.graphRunStart g) := by intro f h; cases h
theorem graphLaunchNode (g n : Nat) : Statement (.graphLaunchNode g n) := by intro f h; cases h
theorem graphCopyNode (g n : Nat) : Statement (.graphCopyNode g n) := by intro f h; cases h
theorem graphCondNode (g n : Nat) : Statement (.graphCondNode g n) := by intro f h; cases h
theorem graphLoopNode (g n : Nat) : Statement (.graphLoopNode g n) := by intro f h; cases h
theorem graphEndNode (g n : Nat) : Statement (.graphEndNode g n) := by intro f h; cases h
theorem graphNodeFinish (g n : Nat) : Statement (.graphNodeFinish g n) := by intro f h; cases h
theorem swezinFrameArrival (port : Nat) (frame : List Byte) : Statement (.swezinFrameArrival port frame) := by intro f h; cases h
theorem hostWriteWake (die func : Nat) : Statement (.hostWriteWake die func) := by intro f h; cases h
theorem porterWake (die : Nat) : Statement (.porterWake die) := by intro f h; cases h
theorem memoryError (er : ErrInput) : Statement (.memoryError er) := by intro f h; cases h
theorem hbmScrub (die : Nat) : Statement (.hbmScrub die) := by intro f h; cases h
theorem lifecycleTransition (sig : List Byte) : Statement (.lifecycleTransition sig) := by intro f h; cases h
theorem heartbeatReceive (pkg : Nat) (seq : DWord) : Statement (.heartbeatReceive pkg seq) := by intro f h; cases h
theorem heartbeatMiss (pkg : Nat) : Statement (.heartbeatMiss pkg) := by intro f h; cases h
theorem resetVoteReceive (voter target : Nat) (epoch : DWord) (sig : List Byte) : Statement (.resetVoteReceive voter target epoch sig) := by intro f h; cases h
theorem msixVectorUnmask (func v : Nat) : Statement (.msixVectorUnmask func v) := by intro f h; cases h
theorem firmwareCopyComplete (ok : Bool) : Statement (.firmwareCopyComplete ok) := by intro f h; cases h
theorem dieGating (die : Nat) : Statement (.dieGating die) := by intro f h; cases h
theorem leaseWrap : Statement (.leaseWrap) := by intro f h; cases h
theorem banisterTick : Statement (.banisterTick) := by intro f h; cases h
theorem wfdropClear : Statement (.wfdropClear) := by intro f h; cases h
theorem fwcmdLodge : Statement (.fwcmdLodge) := by intro f h; cases h
theorem fwcmdPorter : Statement (.fwcmdPorter) := by intro f h; cases h
theorem moduleReset : Statement (.moduleReset) := by intro f h; cases h
theorem powerLimitExceeded : Statement (.powerLimitExceeded) := by intro f h; cases h
theorem powerThrottleRelease : Statement (.powerThrottleRelease) := by intro f h; cases h
theorem heartbeatSend : Statement (.heartbeatSend) := by intro f h; cases h
theorem attestReportDone : Statement (.attestReportDone) := by intro f h; cases h

end Sys2Proof.Laws.Encode
end

