-- ==== Sys2Proof/WellFormed.lean ====
section
/-! DEFINITION. Which instructions are well formed: each operand is one that the instruction's fields can hold (R41, R52,
R85, R89-R93, R112-R159, R214, R233, R355), and each event names an agent that the module has. -/

namespace Sys2Proof

/-- One vector register (R52, R355). -/
def Reg.isVec : Reg → Bool
  | .v _ => true
  | .vz => true
  | _ => false
/-- An even pair (R52); `vz` counts as even (R355). -/
def Reg.isPair : Reg → Bool
  | .v n => n.toNat % 2 == 0
  | .vz => true
  | _ => false
/-- A group of four (R355). -/
def Reg.isQuad : Reg → Bool
  | .v n => n.toNat % 4 == 0
  | _ => false
/-- A group of eight (R355). -/
def Reg.isOct : Reg → Bool
  | .v n => n.toNat % 8 == 0
  | _ => false
/-- A predicate (R52). -/
def Reg.isPred : Reg → Bool
  | .p _ => true
  | _ => false
/-- An usher register that a 64-bit `vec` source accepts (R41, R42). -/
def Reg.isUsher : Reg → Bool
  | .u .evt => false
  | .u .oevt => false
  | .u _ => true
  | _ => false
/-- No register: the field holds 0xFF (R82). -/
def Reg.isNone : Reg → Bool
  | .vz => true
  | _ => false

/-- A register or a pair. -/
def Reg.isSized (wide : Bool) (r : Reg) : Bool := if wide then r.isPair else r.isVec
/-- A source of a `vec` instruction (R41). -/
def Reg.isSource (wide : Bool) (r : Reg) : Bool := r.isSized wide || (wide && r.isUsher)

/-- The type classes of R130 to R158. -/
def Ty.is64 : Ty → Bool
  | .i64 | .n64 | .b64 => true
  | _ => false
def Ty.isInt : Ty → Bool
  | .i8 | .i16 | .i32 | .i64 | .n8 | .n16 | .n32 | .n64 => true
  | _ => false
def Ty.isBits : Ty → Bool
  | .b32 | .b64 => true
  | _ => false
def Ty.isAll (t : Ty) : Bool := t.isInt || t.isBits
def Ty.isFloat : Ty → Bool
  | .h16 | .f32 | .bf16 => true
  | _ => false
def Ty.isApprox : Ty → Bool
  | .h16 | .f32 => true
  | _ => false
def Ty.isNum : Ty → Bool
  | .b32 | .b64 | .q4 => false
  | _ => true
def Ty.isHigh : Ty → Bool
  | .i32 | .n32 => true
  | _ => false
def Ty.isSigned : Ty → Bool
  | .i8 | .i16 | .i32 | .i64 => true
  | _ => false
def Ty.isCarry : Ty → Bool
  | .n32 | .b32 => true
  | _ => false
def Ty.isField : Ty → Bool
  | .i32 | .i64 | .n32 | .n64 => true
  | _ => false
def Ty.isAccOut : Ty → Bool
  | .f32 | .h16 | .bf16 | .e4m3 | .i32 => true
  | _ => false

/-- The types of a reduction (R158, R221). -/
def RedOp.takes (op : RedOp) (t : Ty) : Bool :=
  match op with
  | .add | .min | .max => t.isField || t == .f32
  | .and | .or | .xor => t.isBits
def AtomOp.takes (op : AtomOp) (t : Ty) : Bool :=
  match op with
  | .red r => r.takes t
  | .exch => t.isBits

/-- The guard that `UDONE`, `RTT`, `HALT` and `SRWR` must have (R372). -/
def Pre.unguarded (p : Pre) : Bool := p.pr == 15 && !p.pn

/-- Special registers of 64 bits (R58). -/
def sregWide (n : BitVec 8) : Bool := n == 0x0C || n == 0x0D || n == 0x11 || n == 0x15

/-- `MOV`'s pairs (R42, R123). -/
def movWf (wide : Bool) (d a : Reg) (sel : BitVec 2) : Bool :=
  match d, a with
  | .u .lmask, .v n => wide && n.toNat % 2 == 0 && sel == 0
  | .u .lpark, .v n => wide && n.toNat % 2 == 0 && sel == 0
  | .u .vpc, .v n => wide && n.toNat % 2 == 0 && sel == 0
  | .u .lmask, .vz => wide && sel == 0
  | .u .lpark, .vz => wide && sel == 0
  | .u .vpc, .vz => wide && sel == 0
  | .u _, _ => false
  | d, .u .evt => wide && d.isPair && sel != 3
  | d, .u .oevt => wide && d.isPair && sel != 3
  | d, .u _ => wide && d.isPair && sel == 0
  | .p _, .p _ => !wide && sel == 0
  | .p _, a => !wide && a.isVec && sel == 0
  | d, .p _ => !wide && d.isVec && sel == 0
  | d, a => d.isSized wide && a.isSized wide && sel == 0

/-- Binary and unary forms that R130 to R159 share. -/
def wf3 (wide : Bool) (d a b : Reg) : Bool := d.isSized wide && a.isSource wide && b.isSource wide
def wf2 (wide : Bool) (d a : Reg) : Bool := d.isSized wide && a.isSource wide
def wfShift (wide : Bool) (d a b : Reg) : Bool := d.isSized wide && a.isSource wide && b.isVec
def wfFloat (packed : Bool) (ty : Ty) : Bool := ty.isFloat && (!packed || ty == .h16)
/-- The operands of `LD` and `ST` (R92, R214). -/
def wfAccess (b128 : Bool) (ty : Ty) (d a b : Reg) : Bool :=
  ty.isAll && (if b128 then ty == .b64 && d.isQuad else d.isSized ty.is64) && a.isPair && b.isVec
def wfMma (scaled : Bool) (a b c k : Reg) : Bool := a.isPair && b.isPair && (if scaled then c.isPair else c.isNone) && k.isVec

/-- Well-formedness: what the encoding can hold, and which agents an event may name. -/
def Instr.wf : Instr → Bool
  | .nop _ | .bra _ _ | .brau _ _ | .jmp _ _ | .call _ _ | .exit _ | .yieldP _ | .park _ => true
  | .ret _ a => a.isPair
  | .wait _ _ wide d a b _ => d.isSized wide && a.isPair && b.isVec
  | .udone p | .rtt p | .halt p => p.unguarded
  | .wake _ a => a.isPair
  | .trap _ _ | .svc _ _ | .bkpt _ _ => true
  | .mov _ wide d a fs => movWf wide d a fs
  | .movsRead _ wide d sr => decide (sr.toNat < 0x16) && wide == sregWide sr && d.isSized wide
  | .movsWrite _ wide sr a => decide (sr.toNat < 0x16) && wide == sregWide sr && a.isSized wide
  | .movi _ _ d _ => d.isVec
  | .plop _ d a b c _ => d.isPred && a.isPred && b.isPred && c.isPred
  | .srwr p wide sr a => p.unguarded && (decide (0x16 ≤ sr.toNat) || wide == sregWide sr) && a.isSized wide
  | .cache _ _ a b _ => a.isPair && b.isVec
  | .tlbi _ op a b =>
    match op with
    | .all => a.isNone && b.isNone
    | .va => a.isPair && b.isVec
    | .vf => a.isVec && b.isNone
  | .iadd _ ty _ d a b | .isub _ ty _ d a b | .imul _ ty _ d a b => ty.isAll && wf3 ty.is64 d a b
  | .iaddImm _ ty _ d a _ | .imulImm _ ty _ d a _ => ty.isAll && wf2 ty.is64 d a
  | .iadc _ ty _ d a b c | .isbb _ ty _ d a b c => ty.isCarry && d.isVec && a.isVec && b.isVec && c.isPred
  | .imulh _ ty d a b => ty.isHigh && d.isVec && a.isVec && b.isVec
  | .imad _ ty _ d a b c => ty.isAll && wf3 ty.is64 d a b && c.isSource ty.is64
  | .imadh _ ty d a b c => ty.isHigh && d.isVec && a.isVec && b.isVec && c.isVec
  | .imin _ ty d a b | .imax _ ty d a b => ty.isInt && wf3 ty.is64 d a b
  | .iminImm _ ty d a _ | .imaxImm _ ty d a _ => ty.isInt && wf2 ty.is64 d a
  | .iabs _ ty _ d a => ty.isSigned && wf2 ty.is64 d a
  | .ineg _ ty _ d a => ty.isInt && wf2 ty.is64 d a
  | .icmp _ _ ty d a b => ty.isAll && d.isPred && a.isSource ty.is64 && b.isSource ty.is64
  | .icmpImm _ _ ty d a _ => ty.isAll && d.isPred && a.isSource ty.is64
  | .aadd _ ty d a b => ty.isInt && d.isPair && (a.isPair || (ty.is64 && a.isUsher)) && b.isVec
  | .aaddImm _ d a _ => d.isPair && a.isSource true
  | .andL _ wide d a b | .orL _ wide d a b | .xorL _ wide d a b | .andn _ wide d a b => wf3 wide d a b
  | .andImm _ wide d a _ | .orImm _ wide d a _ | .xorImm _ wide d a _ => wf2 wide d a
  | .notL _ wide d a | .brev _ wide d a => wf2 wide d a
  | .shl _ wide d a b | .shr _ wide d a b | .sar _ wide d a b | .rol _ wide d a b => wfShift wide d a b
  | .shlImm _ wide d a _ | .shrImm _ wide d a _ | .sarImm _ wide d a _ | .rolImm _ wide d a _ => wf2 wide d a
  | .clz _ wide d a | .ctz _ wide d a | .popc _ wide d a => d.isVec && a.isSource wide
  | .bfx _ ty d a b c => ty.isField && wfShift ty.is64 d a b && c.isVec
  | .bfi _ wide d a b c => wf3 wide d a b && c.isVec
  | .prmt _ d a b c => d.isVec && a.isVec && b.isVec && c.isVec
  | .sel _ wide d a b c => wf3 wide d a b && c.isPred
  | .xchl _ _ wide d a b => wfShift wide d a b
  | .ballot _ d a => d.isPair && a.isPred
  | .vote _ _ d a => d.isPred && a.isPred
  | .gred _ op ty d a => op.takes ty && wf2 ty.is64 d a
  | .fadd _ pk _ ty d a b | .fsub _ pk _ ty d a b | .fmul _ pk _ ty d a b | .fmin _ pk _ ty d a b
  | .fmax _ pk _ ty d a b => wfFloat pk ty && d.isVec && a.isVec && b.isVec
  | .ffma _ pk _ ty d a b c => wfFloat pk ty && d.isVec && a.isVec && b.isVec && c.isVec
  | .fabs _ pk _ ty d a | .fneg _ pk _ ty d a => wfFloat pk ty && d.isVec && a.isVec
  | .fcmp _ _ _ ty d a b => ty.isFloat && d.isPred && a.isVec && b.isVec
  | .fflr _ _ ty d a | .frnd _ _ _ ty d a => ty.isFloat && d.isVec && a.isVec
  | .cvt _ _ _ _ td ts d a => td.isNum && ts.isNum && d.isSized td.is64 && a.isSized ts.is64
  | .frcp _ _ ty d a | .frsq _ _ ty d a | .fexp2 _ _ ty d a | .flog2 _ _ ty d a | .fsin _ _ ty d a | .fcos _ _ ty d a =>
    ty.isApprox && d.isVec && a.isVec
  | .fdiva _ _ d a b => d.isVec && a.isVec && b.isVec
  | .ld _ _ b128 ty d a b _ => wfAccess b128 ty d a b
  | .st _ h b128 ty d a b _ => h != .ro && wfAccess b128 ty d a b
  | .ldw _ _ d a b _ => d.isQuad && a.isPair && b.isVec
  | .stw _ h d a b _ => h != .ro && d.isQuad && a.isPair && b.isVec
  | .prf _ _ a b _ => a.isPair && b.isVec
  | .ldsp _ b128 ty d a _ | .stsp _ b128 ty d a _ =>
    ty.isAll && (if b128 then ty == .b64 && d.isQuad else d.isSized ty.is64) && a.isVec
  | .atsp _ d a b => d.isVec && a.isVec && b.isVec
  | .barw _ => true
  | .atom _ op ty d a b => op.takes ty && d.isSized ty.is64 && a.isPair && b.isSized ty.is64
  | .cas _ wide d a b c => d.isSized wide && a.isPair && b.isSized wide && c.isSized wide
  | .red _ op ty a b => op.takes ty && a.isPair && b.isSized ty.is64
  | .sync _ lvl a | .drain _ lvl a => a.isSized (lvl == .lane || lvl == .pod)
  | .fence _ _ => true
  | .qpush _ a b => a.isVec && b.isVec
  | .qpop _ d b => d.isVec && b.isVec
  | .qtry _ _ h b c => h.isVec && b.isVec && c.isPred
  | .enq _ a b => a.isPair && b.isVec
  | .deq _ d b => d.isQuad && b.isVec
  | .dcset _ a b | .dcadd _ a b => a.isVec && b.isVec
  | .dcdec _ a => a.isVec
  | .gmake _ a b c => a.isPair && b.isPair && c.isVec
  | .gatt _ d a => d.isPair && a.isPair
  | .gdet _ a | .gfree _ a => a.isPair
  | .mmaQ4 _ _ _ _ a b c k | .mmaE4m3 _ _ _ _ a b c k | .mmaE5m2 _ _ _ _ a b c k | .mmaI8 _ _ _ _ a b c k =>
    wfMma true a b c k
  | .mmaH16 _ _ _ _ a b c k | .mma4 _ _ _ _ a b c k | .mma8 _ _ _ _ a b c k => wfMma false a b c k
  | .accz _ a => a.isVec
  | .accrd _ ty d a b => ty.isAccOut && d.isVec && a.isVec && b.isVec
  | .accwr _ a b c => a.isVec && b.isVec && c.isOct
  | .ecopy _ _ _ d a | .egath _ _ _ d a | .ecoll _ _ _ d a | .quant _ _ _ d a => d.isVec && a.isPair
  | .ewait _ a => a.isVec
  | .portIssueChoice core port => decide (core % 256 ≤ 128 ∧ core < 1024 ∧ port < 2)
  | .landingIssue core n => decide (core < 1024 ∧ n < 8)
  | .mmaTileWrite core tile => decide (core < 1024 ∧ tile < 2)
  | .gangLandingIssue _ n => decide (n < 8)
  | .unitPlacement die | .wrapStall die | .annexWake die | .serialPassStart die | .serialPassEnd die | .objreg die _
  | .objdel die _ | .porterWake die | .hbmScrub die | .dieGating die => decide (die < 4)
  | .doorbell die fn k _ | .ringConfigWrite die fn k _ _ => decide (die < 4 ∧ fn < 32 ∧ k < 16)
  | .trigger die fn _ | .trigovfClear die fn | .ctxcreate die fn _ | .ctxend die fn _ | .hostWriteWake die fn =>
    decide (die < 4 ∧ fn < 32)
  | .clrelResume fn hid | .clrelEnd fn hid => decide (fn < 32 ∧ hid < 65536)
  | .s2SegmentWrite fn _ _ => decide (fn < 32)
  | .registerWrite die page _ _ =>
    match page with
    | .fn f => decide (die < 4 ∧ f < 32)
    | .mgmt => decide (die < 4)
    | .fn32 f => decide (die < 4 ∧ f < 32)
    | .mgmt32 => decide (die < 4)
    | .mgmtPorter => decide (die < 4)
  | .msixVectorUnmask fn v => decide (fn < 32 ∧ v < 16)
  | .swezinFrameArrival port _ => decide (port < 20)
  | .memoryError er => decide (er.die < 4)
  | _ => true

end Sys2Proof
end

