-- ==== Sys2Proof/Safety.lean ====
section
/-! DEFINITION. The terms in which claims are stated: canonical memories, the warp as it stands once its clause's results are visible,
and what a slot leaves as it was. -/

namespace Sys2Proof.Machine

/-- Every memory of the module, and the host memory that it has written, has its canonical form. -/
def State.memoriesWf (s : State) : Bool := s.mem.wf && s.spad.wf && s.flash.wf && s.peerText.wf && s.host.wf

/-- The results of the clause at which the current warp stands that are not yet visible (R61). -/
def State.pends (s : State) : List Pend := s.curWarp.clauseAt.pend

/-- The current warp as it stands once every result of its clause is visible (R61, R62). -/
def State.settled (s : State) : Warp := s.curWarp.applyEnd s.pends

/-- A warp without the results that its clause still owes. -/
def Warp.bare (wp : Warp) : Warp :=
  { wp with clause := wp.clause.map fun (c : Clause) => { c with at_ := { c.at_ with pend := [] } } }

/-- A warp without the clause at which it stands. -/
def Warp.idle (wp : Warp) : Warp := { wp with clause := none }

/-- A warp without its register and predicate files, its flags and its clause. -/
def Warp.fileless (wp : Warp) : Warp := { wp with regs := [], preds := [], poison := [], fpflags := 0, clause := none }

/-- The module apart from one warp slot. -/
def State.apart (s : State) (w : Nat) : State := { s with warps := s.warps.del w }

/-- Whether a destination of a width covers register `k`. -/
def Reg.covers (wide : Bool) (d : Reg) (k : Nat) : Bool :=
  match d with
  | .v n => k == n.toNat || (wide && k == n.toNat + 1)
  | _ => false

/-- The predicate register that a destination names, if a write of it is not discarded (R52). -/
def Reg.predNo (d : Reg) : Option Nat :=
  match d with
  | .p n => if n = 15 then none else some n.toNat
  | _ => none

/-- What a fixed-latency instruction of the current warp does to the module (R61, R62): `t` is the state after its slot. Lanes `m` write the value
`f` to register or pair `d` and the bit `g` to predicate `c`, the flags `fl` are raised, all of it `lat` slots later and by the end of the clause,
and nothing else of the module changes. -/
structure Gives (s t : State) (m : Mask) (lat : Nat) (wide : Bool) (d : Reg) (f : Nat → DWord) (c : Reg) (g : Nat → Bool) (fl : BitVec 5) : Prop where
  /-- The module apart from the warp slot is as it was. -/
  apart : t.apart s.cur = s.apart s.cur
  /-- The warp slot is as it was, but for the results that its clause owes. -/
  owes : t.curWarp.bare = s.curWarp.bare
  /-- The results become visible `lat` slots later. -/
  due : ∀ q, q ∈ t.pends → q ∈ s.pends ∨ (q.slot = s.curWarp.slotNo ∧ q.due = s.curWarp.slotNo + lat)
  /-- The lanes hold their results. -/
  value : ∀ l, m.getLsbD l = true → d ≠ .vz → t.settled.idle.val wide d l = if wide then f l else (loWord (f l)).setWidth 64
  /-- Every other register is as it would have been. -/
  others : ∀ k, Reg.covers wide d k = false → t.settled.reg k = s.settled.reg k
  /-- Every live lane that does not execute keeps its words. -/
  lanes : ∀ k l, s.curWarp.live.getLsbD l = true → m.getLsbD l = false → (t.settled.reg k).word l = (s.settled.reg k).word l
  /-- The predicate bits of the lanes. -/
  bits : ∀ n l, Reg.predNo c = some n → m.getLsbD l = true → (t.settled.pred n).getLsbD l = g l
  /-- Every other predicate bit. -/
  preds : ∀ n l, (Reg.predNo c ≠ some n ∨ m.getLsbD l = false) → (t.settled.pred n).getLsbD l = (s.settled.pred n).getLsbD l
  /-- The flags, unless a write of `sr.fpflags` is on its way. -/
  flags : (s.pends.all fun p => p.tgt != .flagsSet) = true → t.settled.fpflags = s.settled.fpflags ||| fl
  /-- Everything else of the warp slot. -/
  rest : t.settled.fileless = s.settled.fileless

/-- An instruction with a register result: in every state, its executing lanes write `f` to `d`. -/
def Computes (s : State) (i : Instr) (p : Pre) (lat : Nat) (wide : Bool) (d : Reg) (f : Nat → DWord) : Prop :=
  i.wf = true → ∃ t, exec i s = .next t ∧ Gives s t (s.curWarp.execMask p) lat wide d f .vz (fun _ => false) 0

/-- An instruction with a predicate result. -/
def Tests (s : State) (i : Instr) (p : Pre) (lat : Nat) (c : Reg) (g : Nat → Bool) : Prop :=
  i.wf = true → ∃ t, exec i s = .next t ∧ Gives s t (s.curWarp.execMask p) lat false .vz (fun _ => 0) c g 0

/-- An instruction with a register result and flags. -/
def Floats (s : State) (i : Instr) (p : Pre) (lat : Nat) (wide : Bool) (d : Reg) (f : Nat → DWord × BitVec 5) : Prop :=
  i.wf = true → ∃ t, exec i s = .next t ∧
    Gives s t (s.curWarp.execMask p) lat wide d (fun l => (f l).1) .vz (fun _ => false) (orFlags (s.curWarp.execMask p) fun l => (f l).2)

/-- The instruction or event answers a next state, and `P` holds of it. -/
def Completes (i : Instr) (s : State) (P : State → Prop) : Prop := ∃ t, exec i s = .next t ∧ P t

/-- The head packet of ring `r` has executed (R287): what it did is `u`, of which `P` holds and which leaves every ring as it was; then the ring, changed
by `f`, goes on to its next packet. -/
def Onward (s : State) (r : Nat) (f : Ring → Ring) (P : State → Prop) (t : State) : Prop := ∃ u, t = u.donePkt r f ∧ u.rings = s.rings ∧ P u

/-- An access of a lane to an address finds the class of its page as it is, or as its access leaves it: nothing is asked of the leaf entry, and no
change that the warp has asked for waits there (R167). -/
def State.classStays (s : State) (w lane : Nat) (va : DWord) : Prop :=
  (∀ x, s.xlatOf w lane va = some x →
    (classAfter (s.mem.dword x.leafPa) (homeDie x.base) (some (coreOf w))).1 = s.mem.dword x.leafPa) ∧
  s.classWaits w (s.xlatOf w lane va) = false

/-- The bytes of the leaf entry of a translation, which an access may mark `AC` and `DY` (R179). -/
def Xlat.leafByte (x : Option Xlat) (a : Nat) : Prop := ∃ y, x = some y ∧ y.leafPa ≤ a ∧ a < y.leafPa + 8

/-- A value of `n` bytes stands at a place: those bytes are its bytes, lowest first, and no byte has changed but them and those that `but` allows; a
management page takes no byte (R2, R282). -/
def State.Wrote (s t : State) (l : Loc) (n v : Nat) (but : Nat → Prop) : Prop :=
  match l with
  | .hbm pa => t.spad = s.spad ∧ (∀ a, ¬(pa ≤ a ∧ a < pa + n) → ¬but a → t.mem.byte a = s.mem.byte a) ∧
      (mgmtAt pa = none → ∀ a, pa ≤ a → a < pa + n → t.mem.byte a = BitVec.ofNat 8 (v / 2 ^ (8 * (a - pa))))
  | .spad c o => (∀ a, ¬but a → t.mem.byte a = s.mem.byte a) ∧
      ∀ a, t.spad.byte a = if c * 2 ^ 20 + o ≤ a ∧ a < c * 2 ^ 20 + o + n then BitVec.ofNat 8 (v / 2 ^ (8 * (a - (c * 2 ^ 20 + o)))) else s.spad.byte a

/-- The little-endian value of `n` bytes at a place (R2). -/
def State.natAt (s : State) (l : Loc) (n : Nat) : Nat :=
  match l with
  | .hbm pa => s.mem.nat pa n
  | .spad c o => s.spad.nat (c * 2 ^ 20 + o) n

/-- No byte of a structure of 64 bytes at a place lies in a management page (R282). -/
def Loc.plain (l : Loc) : Prop :=
  match l with
  | .hbm pa => ∀ j, j < 64 → mgmtAt (pa + j) = none
  | .spad _ _ => True

/-- Whether a request at a home slice is an update of a leaf entry (R167, R179). -/
def HomeOp.onLeaf (o : HomeOp) : Bool :=
  match o.fn with
  | .leafBits | .leafClass .. => true
  | _ => false

/-- A warp without its program counters and without the memory of how its lanes came there. -/
def Warp.unplaced (wp : Warp) : Warp := { wp with pcs := [], via := [] }

/-- No lane of `m` has a target that raises a cause (R354, R356). -/
def State.targetsGood (s : State) (m : Mask) (target : Nat → DWord) : Prop :=
  ∀ l, m.getLsbD l = true → s.targetErr s.cur l (target l) = none

/-- A control transfer of the current warp: lanes `m` stand at their targets, bits 2:0 cleared, and nothing else has changed. -/
structure Sends (s t : State) (m : Mask) (target : Nat → DWord) : Prop where
  /-- The module apart from the warp slot is as it was. -/
  apart : t.apart s.cur = s.apart s.cur
  /-- The program counters. -/
  pcs : ∀ l, l < 64 → t.curWarp.pc l = if m.getLsbD l then target l &&& ~~~7 else s.curWarp.pc l
  /-- The rest of the warp slot. -/
  rest : t.curWarp.unplaced = s.curWarp.unplaced

/-- The current warp, which stands at a slot, and whose lanes `m` execute it, all of them in segment `g`. -/
structure Alone (s : State) (g : Seg) (m : Mask) : Prop where
  /-- The segment is that at its base. -/
  here : s.curWarp.segAt g.lbase = some g
  /-- It is the segment of each of its lanes. -/
  own : ∀ l, g.slots.getLsbD l = true → s.curWarp.segOf l = some g
  /-- No lane of another segment executes. -/
  only : s.curWarp.segsIn m = [g]
  /-- Every lane that executes is of the segment. -/
  all : m &&& ~~~g.slots = 0
  /-- A clause is being issued. -/
  inClause : s.curWarp.clause.isSome = true
  /-- The segment has no cause. -/
  calm : g.cause = none
  /-- The segment lies in the warp slot (R25). -/
  fits : g.lbase + g.width ≤ 64

/-- Segment `g` of the current warp takes a cause at the current slot (R341, R343): its lanes of the fetch set leave the clause, its record holds
the code, the cause mask of lanes `m` and the place, `P` holds of the record, and the module apart from the warp slot, the register files, the
program counters and the live lanes are as they were. -/
structure Traps (s t : State) (g : Seg) (m : Mask) (code : Nat) (P : SegCause → Prop) : Prop where
  /-- The module apart from the warp slot is as it was. -/
  apart : t.apart s.cur = s.apart s.cur
  /-- The record. -/
  record : ∃ h x, t.curWarp.segAt g.lbase = some h ∧ h.cause = some x ∧ x.code = code ∧ x.mask = g.rel m ∧
    x.at_.hdr = s.curWarp.clauseAt.hdr ∧ x.at_.slot = s.curWarp.slotNo ∧ h.lmask = g.lmask ∧ h.lpark = g.lpark ∧ h.udepth = g.udepth ∧ P x
  /-- The lanes that go on. -/
  left : t.curWarp.clauseAt.lanes = s.curWarp.clauseAt.lanes &&& ~~~g.slots
  /-- The files and the lanes. -/
  files : t.curWarp.regs = s.curWarp.regs ∧ t.curWarp.preds = s.curWarp.preds ∧ t.curWarp.fpflags = s.curWarp.fpflags ∧
    t.curWarp.pcs = s.curWarp.pcs ∧ t.curWarp.live = s.curWarp.live

end Sys2Proof.Machine
end

