-- ==== Sys2Proof/Certificates/Slice0/Obligations.lean ====
section
/-! DEFINITION. The statements for the provers, from the numbered rules of the manual. `Computes`, `Tests`, `Floats` and `Gives` stand in
`Safety`: each says that the instruction answers a next state in which its results stand, and that nothing else has changed. -/

open Sys2Proof Sys2Proof.Machine

/-! ### Encoding -/

/-- Decoding the word of a well-formed instruction, at a slot of its own class, gives the instruction back with every operand (R78 to R95). -/
def Obligations.EncodeDecode : Prop :=
  ∀ (i : Instr) (w : DWord), i.wf = true → encode i = some w → decodeAlone w = .ok i

/-- Words written out from the manual's encodings decode to the instructions that they stand for (R78 to R91). -/
def Obligations.DecodedWords : Prop :=
  decodeAlone 0x5340_2004_0102_FF00 = .ok (.iadd ⟨false, .b, true, 3⟩ .i32 false (.v 4) (.v 1) (.v 2)) ∧
  decodeAlone 0x0FA0_9414_1EFF_0010 = .ok (.ld ⟨false, .none, false, 15⟩ .ro false .b64 (.v 20) (.v 30) .vz 16) ∧
  decodeAlone 0x0F4C_6581_040B_FF00 = .ok (.icmp ⟨false, .none, false, 15⟩ .ge .n32 (.p 1) (.v 4) (.v 11)) ∧
  decodeAlone 0x0FC1_D078_1416_1E28 = .ok (.mmaE4m3 ⟨false, .none, false, 15⟩ 3 true 2 (.v 20) (.v 22) (.v 30) (.v 40)) ∧
  decodeAlone 0x0F14_00FF_FFFF_FF00 = .ok (.rtt ⟨false, .none, false, 15⟩)

/-- The encoder uses only opcodes that the cell table has (R91). -/
def Obligations.EncodedOpcodes : Prop :=
∀ i : Instr, Sys2Proof.Laws.Encode.Statement i

/-- The arithmetic cells compute on exact integers, clamp under `.sat`, narrow and extend, with the latency of the table (R129, R130). -/
def Obligations.IntegerArithmetic : Prop :=
  ∀ (s : State) (p : Pre) (ty : Ty) (sat : Bool) (d a b c : Reg) (imm : BitVec 24),
    let A := fun l => readInt ty (s.curWarp.val (Ty.is2 ty) a l)
    let B := fun l => readInt ty (s.curWarp.val (Ty.is2 ty) b l)
    let C := fun l => readInt ty (s.curWarp.val (Ty.is2 ty) c l)
    let I := readInt ty (immSigned imm)
    let out := fun (i : Instr) (lat : Nat) (clamp : Bool) (f : Nat → Int) => Computes s i p lat (Ty.is2 ty) d fun l => intResult ty clamp (f l)
    out (.iadd p ty sat d a b) 4 sat (fun l => A l + B l) ∧
    out (.iaddImm p ty sat d a imm) 4 sat (fun l => A l + I) ∧
    out (.isub p ty sat d a b) 4 sat (fun l => A l - B l) ∧
    out (.imul p ty sat d a b) 4 sat (fun l => A l * B l) ∧
    out (.imulImm p ty sat d a imm) 4 sat (fun l => A l * I) ∧
    out (.imad p ty sat d a b c) 4 sat (fun l => A l * B l + C l) ∧
    out (.imulh p ty d a b) 8 false (fun l => A l * B l / 2 ^ 32) ∧
    out (.imadh p ty d a b c) 8 false (fun l => A l * B l / 2 ^ 32 + C l) ∧
    out (.imin p ty d a b) 4 false (fun l => min (A l) (B l)) ∧
    out (.iminImm p ty d a imm) 4 false (fun l => min (A l) I) ∧
    out (.imax p ty d a b) 4 false (fun l => max (A l) (B l)) ∧
    out (.imaxImm p ty d a imm) 4 false (fun l => max (A l) I) ∧
    out (.iabs p ty sat d a) 4 sat (fun l => |A l|) ∧
    out (.ineg p ty sat d a) 4 sat (fun l => -A l)

/-- Add with carry and subtract with borrow (R131): the carry out is that of the exact result, whatever `.sat` does. Comparisons of integers, and
`PLOP`, write the predicate bits of the executing lanes only, with latency 4 (R132, R139). -/
def Obligations.CarriesAndPredicates : Prop :=
  (∀ (s : State) (p : Pre) (ty : Ty) (sat : Bool) (d a b c : Reg),
    let A := fun l => ((s.curWarp.val32 a l).toNat : Int)
    let B := fun l => ((s.curWarp.val32 b l).toNat : Int)
    let cin := fun l => if s.curWarp.bit c l then (1 : Int) else 0
    let out := fun (i : Instr) (f : Nat → Int) (g : Nat → Bool) => i.wf = true → ∃ t, exec i s = .next t ∧
      Gives s t (s.curWarp.execMask p) 4 false d (fun l => intResult .n32 sat (f l)) c g 0
    out (.iadc p ty sat d a b c) (fun l => A l + B l + cin l) (fun l => decide (2 ^ 32 ≤ A l + B l + cin l)) ∧
    out (.isbb p ty sat d a b c) (fun l => A l - B l - cin l) (fun l => decide (A l - B l - cin l < 0))) ∧
  (∀ (s : State) (p : Pre) (cond : ICond) (ty : Ty) (d a b c : Reg) (imm : BitVec 24) (tt : BitVec 8),
    let A := fun l => readInt ty (s.curWarp.val (Ty.is2 ty) a l)
    let B := fun l => readInt ty (s.curWarp.val (Ty.is2 ty) b l)
    let I := readInt ty (immSigned imm)
    let holds := fun (x y : Int) => match cond with
      | .eq => decide (x = y)
      | .ne => decide (x ≠ y)
      | .lt => decide (x < y)
      | .le => decide (x ≤ y)
      | .gt => decide (x > y)
      | .ge => decide (x ≥ y)
    let n := fun (r : Reg) (l : Nat) => if s.curWarp.bit r l then 1 else 0
    Tests s (.icmp p cond ty d a b) p 4 d (fun l => holds (A l) (B l)) ∧
    Tests s (.icmpImm p cond ty d a imm) p 4 d (fun l => holds (A l) I) ∧
    Tests s (.plop p d a b c tt) p 4 d (fun l => tt.getLsbD (4 * n a l + 2 * n b l + n c l)))

/-- `AADD` adds an index, scaled by the bytes of its type, to a 64-bit base; the I cell adds its immediate (R133). Counts of bits, reversal, and bit
fields (R136, R137). -/
def Obligations.AddressesAndFields : Prop :=
  (∀ (s : State) (p : Pre) (ty : Ty) (d a b : Reg) (imm : BitVec 24),
    Computes s (.aadd p ty d a b) p 4 true d
      (fun l => s.curWarp.val64 a l + BitVec.ofInt 64 (aaddIndex ty (s.curWarp.val32 b l) * (Ty.bits ty / 8 : Nat))) ∧
    Computes s (.aaddImm p d a imm) p 4 true d (fun l => s.curWarp.val64 a l + imm.signExtend 64)) ∧
  (∀ (s : State) (p : Pre) (wide : Bool) (ty : Ty) (d a b c : Reg),
    let w := if wide then 64 else 32
    let A := fun l => s.curWarp.val wide a l
    let count := fun l => ((List.range w).filter fun k => (A l).getLsbD k).length
    Computes s (.popc p wide d a) p 4 false d (fun l => BitVec.ofNat 64 (count l)) ∧
    Computes s (.clz p wide d a) p 4 false d
      (fun l => BitVec.ofNat 64 (((List.range w).find? fun k => (A l).getLsbD (w - 1 - k)).getD w)) ∧
    Computes s (.ctz p wide d a) p 4 false d (fun l => BitVec.ofNat 64 (((List.range w).find? fun k => (A l).getLsbD k).getD w)) ∧
    Computes s (.brev p wide d a) p 4 wide d (fun l => if wide then (A l).reverse else ((loWord (A l)).reverse).setWidth 64) ∧
    Computes s (.bfx p ty d a b c) p 4 (Ty.is2 ty) d
      (fun l => bfxVal ty (s.curWarp.val (Ty.is2 ty) a l) (s.curWarp.val32 b l) (s.curWarp.val32 c l)) ∧
    Computes s (.bfi p wide d a b c) p 4 wide d (fun l => bfiVal wide (A l) (s.curWarp.val wide b l) (s.curWarp.val32 c l)))

/-- The bitwise operations, selection and byte permutation (R134, R138, R159). Shifts and rotations by a count modulo the width (R135). -/
def Obligations.LogicAndShifts : Prop :=
  (∀ (s : State) (p : Pre) (wide : Bool) (d a b c : Reg) (imm : BitVec 24),
    let A := fun l => s.curWarp.val wide a l
    let B := fun l => s.curWarp.val wide b l
    let out := fun (i : Instr) (f : Nat → DWord) => Computes s i p 4 wide d f
    out (.andL p wide d a b) (fun l => A l &&& B l) ∧
    out (.andImm p wide d a imm) (fun l => A l &&& imm.setWidth 64) ∧
    out (.orL p wide d a b) (fun l => A l ||| B l) ∧
    out (.orImm p wide d a imm) (fun l => A l ||| imm.setWidth 64) ∧
    out (.xorL p wide d a b) (fun l => A l ^^^ B l) ∧
    out (.xorImm p wide d a imm) (fun l => A l ^^^ imm.setWidth 64) ∧
    out (.andn p wide d a b) (fun l => A l &&& ~~~B l) ∧
    out (.notL p wide d a) (fun l => ~~~A l) ∧
    out (.sel p wide d a b c) (fun l => if s.curWarp.bit c l then A l else B l) ∧
    Computes s (.prmt p d a b c) p 4 false d
      (fun l => (prmtVal (s.curWarp.val32 a l) (s.curWarp.val32 b l) (s.curWarp.val32 c l)).setWidth 64)) ∧
  (∀ (s : State) (p : Pre) (wide : Bool) (d a b : Reg) (imm : BitVec 24),
    let A := fun l => s.curWarp.val wide a l
    let n := fun l => (s.curWarp.val32 b l).toNat
    let out := fun (i : Instr) (f : Nat → DWord) => Computes s i p 4 wide d f
    let by' := fun (long : DWord → Nat → DWord) (short : Word → Nat → Word) (x : DWord) (n : Nat) =>
      if wide then long x (n % 64) else (short (loWord x) (n % 32)).setWidth 64
    let shl := by' (fun x n => x <<< n) (fun x n => x <<< n)
    let shr := by' (fun x n => x >>> n) (fun x n => x >>> n)
    let sar := by' (fun x n => x.sshiftRight n) (fun x n => x.sshiftRight n)
    let rol := by' (fun x n => x.rotateLeft n) (fun x n => x.rotateLeft n)
    out (.shl p wide d a b) (fun l => shl (A l) (n l)) ∧ out (.shlImm p wide d a imm) (fun l => shl (A l) imm.toNat) ∧
    out (.shr p wide d a b) (fun l => shr (A l) (n l)) ∧ out (.shrImm p wide d a imm) (fun l => shr (A l) imm.toNat) ∧
    out (.sar p wide d a b) (fun l => sar (A l) (n l)) ∧ out (.sarImm p wide d a imm) (fun l => sar (A l) imm.toNat) ∧
    out (.rol p wide d a b) (fun l => rol (A l) (n l)) ∧ out (.rolImm p wide d a imm) (fun l => rol (A l) imm.toNat))

/-- Exchange, ballot, vote and reduction stay within each lane's own segment and have latency 6 (R154 to R158). -/
def Obligations.LaneOperations : Prop :=
  ∀ (s : State) (p : Pre) (op : XchlOp) (vop : VoteOp) (rop : RedOp) (wide : Bool) (ty : Ty) (d a b : Reg),
    let m := s.curWarp.execMask p
    let mates := fun l => s.curWarp.segLanes m l
    Computes s (.xchl p op wide d a b) p 6 wide d (fun l => match s.curWarp.segOf l with
      | some g => s.curWarp.val wide a (g.lbase + xchlLane op g.width (l - g.lbase) (s.curWarp.val32 b l).toNat)
      | none => 0) ∧
    Computes s (.ballot p d a) p 6 true d (fun l => match s.curWarp.segOf l with
      | some g => g.rel (m &&& maskWhere fun j => s.curWarp.bit a j)
      | none => 0) ∧
    Tests s (.vote p vop d a) p 6 d (fun l => match vop with
      | .any => (mates l).any fun j => s.curWarp.bit a j
      | .all => (mates l).all fun j => s.curWarp.bit a j
      | .eq => ((mates l).all fun j => s.curWarp.bit a j) || ((mates l).all fun j => !s.curWarp.bit a j)) ∧
    Floats s (.gred p rop ty d a) p 6 (Ty.is2 ty) d (fun l => gredVal rop ty ((mates l).map fun j => s.curWarp.val (Ty.is2 ty) a j))

/-- Arithmetic with one rounding, with the flags of every executing lane collected (R104, R141 to R143, R146). -/
def Obligations.FloatArithmetic : Prop :=
  ∀ (s : State) (p : Pre) (packed ftz : Bool) (ty : Ty) (d a b c : Reg),
    let fmt := floatFmt ty
    let A := fun l => s.curWarp.val32 a l
    let B := fun l => s.curWarp.val32 b l
    let C := fun l => s.curWarp.val32 c l
    let out := fun (i : Instr) (op : FOp) (z : Nat → Word) =>
      Floats s i p 4 false d fun l => packedOp packed (fun x y z => floatOp fmt op ftz x y z) (A l) (B l) (z l)
    out (.fadd p packed ftz ty d a b) .add (fun _ => 0) ∧ out (.fsub p packed ftz ty d a b) .sub (fun _ => 0) ∧
    out (.fmul p packed ftz ty d a b) .mul (fun _ => 0) ∧ out (.ffma p packed ftz ty d a b c) .fma C

/-- Minimum, maximum, sign operations, rounding to an integral value and conversion (R144, R145, R148 to R150). `FCMP` writes a predicate and raises
flags (R147). -/
def Obligations.FloatComparisons : Prop :=
  (∀ (s : State) (p : Pre) (mode : RMode) (packed ftz sat : Bool) (ty ts : Ty) (d a b : Reg),
    let fmt := floatFmt ty
    let A := fun l => s.curWarp.val32 a l
    let B := fun l => s.curWarp.val32 b l
    let out := fun (i : Instr) (half : Bool) (y : Nat → Word) (op : Nat → Nat → Nat × BitVec 5) =>
      Floats s i p 4 false d fun l => packedOp half (fun x y _ => op x y) (A l) (y l) 0
    out (.fmin p packed ftz ty d a b) packed B (floatMinMax fmt false ftz) ∧
    out (.fmax p packed ftz ty d a b) packed B (floatMinMax fmt true ftz) ∧
    out (.fabs p packed ftz ty d a) packed (fun _ => 0) (fun x _ => (floatSign fmt false ftz x, 0)) ∧
    out (.fneg p packed ftz ty d a) packed (fun _ => 0) (fun x _ => (floatSign fmt true ftz x, 0)) ∧
    out (.fflr p ftz ty d a) false (fun _ => 0) (fun x _ => floatIntegral fmt .rd ftz x) ∧
    out (.frnd p mode ftz ty d a) false (fun _ => 0) (fun x _ => floatIntegral fmt mode ftz x) ∧
    Floats s (.cvt p mode ftz sat ty ts d a) p 4 (Ty.is2 ty) d (fun l => convert ty ts mode ftz sat (s.curWarp.val (Ty.is2 ts) a l))) ∧
  (∀ (s : State) (p : Pre) (cond : FCond) (ftz : Bool) (ty : Ty) (d a b : Reg),
    let r := fun l => floatCmp (floatFmt ty) cond ftz (s.curWarp.val32 a l).toNat (s.curWarp.val32 b l).toNat
    (Instr.fcmp p cond ftz ty d a b).wf = true → ∃ t, exec (.fcmp p cond ftz ty d a b) s = .next t ∧
      Gives s t (s.curWarp.execMask p) 4 false .vz (fun _ => 0) d (fun l => (r l).1) (orFlags (s.curWarp.execMask p) fun l => (r l).2))

/-- The approximated functions have latency 8 and give a value that depends on nothing but the source (R151, R153). Rests on the model's choices of
log entry 6. -/
def Obligations.Approximations : Prop :=
  ∀ (s : State) (p : Pre) (ftz : Bool) (ty : Ty) (d a : Reg),
    let out := fun (i : Instr) (fn : ApproxFn) => Floats s i p 8 false d fun l =>
      ((approxOp fn ty ftz (s.curWarp.val32 a l)).1.setWidth 64, (approxOp fn ty ftz (s.curWarp.val32 a l)).2)
    out (.frcp p ftz ty d a) .rcp ∧ out (.frsq p ftz ty d a) .rsq ∧ out (.fexp2 p ftz ty d a) .exp2 ∧
    out (.flog2 p ftz ty d a) .log2 ∧ out (.fsin p ftz ty d a) .sin ∧ out (.fcos p ftz ty d a) .cos

/-- `MOV` to a vector register, to a predicate or to an usher register, `MOVI`, and the read and the write of a special register: what each owes,
and when (R40 to R42, R123 to R126). Instructions that leave the module as it is, apart from issue order, and the wait that holds its lanes
(R119, R120). Rests on the model's choices of log entry 106 (a write of an usher register counts by the `udepth` at issue). -/
def Obligations.MovesAndWaits : Prop :=
  (∀ (s : State) (p : Pre) (wide hi : Bool) (d a : Reg) (sel : BitVec 2) (imm : BitVec 24) (sr : BitVec 8),
    let src := fun l => match a with
      | .u r => s.curWarp.usherVal r sel l
      | a => s.curWarp.val wide a l
    (d.isSized wide = true → Computes s (.mov p wide d a sel) p 4 wide d src) ∧
    (d.isPred = true → Tests s (.mov p wide d a sel) p 4 d (fun l => match a with
      | .p _ => s.curWarp.bit a l
      | a => s.curWarp.val32 a l != 0)) ∧
    Computes s (.movi p hi d imm) p 4 false d
      (fun _ => (if hi then imm.setWidth 32 <<< 8 else imm.signExtend 32 : Word).setWidth 64) ∧
    Computes s (.movsRead p wide d sr) p 4 wide d (fun l => s.sreg s.cur l sr.toNat)) ∧
  (∀ (s : State) (p : Pre) (eq wide : Bool) (d a b : Reg) (off : BitVec 16) (sr : BitVec 8),
    let wp := s.curWarp
    let m := wp.execMask p
    Completes (.nop p) s (fun t => t = s) ∧
    Completes (.yieldP p) s (fun t => t.apart s.cur = s.apart s.cur ∧
      { t.curWarp with yieldTo := [], readyAt := none } = { wp with yieldTo := [], readyAt := none } ∧
      (m ≠ 0 → t.curWarp.readyAt = none ∧ s.cur ∉ t.curWarp.yieldTo)) ∧
    (m ≠ 0 → s.readRaises s.cur m (if wide then 8 else 4) (fun l => wp.ea a b off (if wide then 8 else 4) l) = [] →
      Completes (.wait p eq wide d a b off) s fun t => t.mem = s.mem ∧ t.spad = s.spad ∧ t.curWarp.regs = wp.regs ∧ t.curWarp.preds = wp.preds ∧
        (isPorter (coreOf s.cur) = false → t.apart s.cur = s.apart s.cur) ∧ (t.curWarp.window.isSome || s.solo s.cur) = true ∧
        ∀ l, m.getLsbD l = true → t.curWarp.holds.find l =
          some ⟨.wait, wp.clauseAt.hdr, wp.slotNo, wp.curWord, 0, s.now, 0, wp.oldSources wp.curWord⟩) ∧
    (∀ k, firstLane m = some k → wp.clause.isSome = true → Completes (.movsWrite p wide sr a) s fun t => t.apart s.cur = s.apart s.cur ∧
      t.curWarp.bare = wp.bare ∧ t.settled.fileless = s.settled.fileless ∧ t.settled.regs = s.settled.regs ∧ t.settled.preds = s.settled.preds ∧
      (∀ q, q ∈ t.pends → q ∈ s.pends ∨ (q.slot = wp.slotNo ∧ q.due = wp.slotNo + 4)) ∧
      (sr ≠ 0x0E → t.settled.fpflags = s.settled.fpflags) ∧
      (sr = 0x0E → (∀ q ∈ s.pends, q.isFlags = true → q.due ≤ wp.slotNo + 4) → t.settled.fpflags = (wp.val wide a k).setWidth 5))) ∧
  (∀ (s : State) (p : Pre) (wide : Bool) (r : UReg) (a : Reg) (sel : BitVec 2) (g : Seg) (k : Nat),
    let wp := s.curWarp
    let m := wp.execMask p
    let owes := fun (t : State) (f : Seg → Seg) => t.apart s.cur = s.apart s.cur ∧ t.curWarp.bare = wp.bare ∧
      (∀ q, q ∈ t.pends → q.slot = wp.slotNo ∧ q.due = wp.slotNo + 4) ∧ t.settled.segAt g.lbase = some (f g) ∧ t.settled.regs = wp.regs ∧
      t.settled.preds = wp.preds ∧ ∀ l, l < 64 → t.settled.pc l = wp.pc l
    let places := (List.range g.width).map fun l => if m.getLsbD (g.lbase + l) then wp.val64 a (g.lbase + l) &&& ~~~7 else g.vpc.getD l 0
    Alone s g m → g.lead m = some k → s.pends = [] →
    (g.udepth = 0 → Completes (.mov p wide (.u r) a sel) s fun t => owes t id ∧ t.pends = []) ∧
    (g.udepth ≠ 0 → Completes (.mov p wide (.u .lmask) a sel) s fun t => owes t fun g =>
      { g with lmask := wp.val64 a k &&& lowMask g.width &&& g.rel wp.live }) ∧
    (g.udepth ≠ 0 → Completes (.mov p wide (.u .lpark) a sel) s fun t => owes t fun g => { g with lpark := wp.val64 a k &&& lowMask g.width }) ∧
    (g.udepth ≠ 0 → Completes (.mov p wide (.u .vpc) a sel) s fun t => owes t fun g => { g with vpc := places }))

/-- What a step is: the head of the agenda, or what the module does between slots (log entry 1), or the slot of the warp that issues. A step at a
slot runs the instruction that the slot's word decodes to, once due results are visible and the slot's bubbles have passed (R59, R61), and then
the next slot stands (R67); with no poisoned register in the warp. Rests on the model's choices of log entries 1, 3. -/
def Obligations.StepRunsTheSlot : Prop :=
  (∀ s : State,
    (∀ i rest, s.agenda = i :: rest → step s = exec i { s with agenda := rest }) ∧
    (s.agenda = [] → s.slotReady = false → step s = .next s.auto) ∧
    (s.agenda = [] → s.slotReady = true → ∀ t, s.slotAct = .done t → step s = .next t)) ∧
  (∀ (s : State) (i : Instr),
    let t := s.atSlot
    let a := t.curWarp.clauseAt
    s.agenda = [] → s.slotReady = true → (t.curWarp.window.map Window.instrs).getD 0 < Config.winInstrs → t.curWarp.poison = [] →
    decodeWord a.cls a.slot (a.slot == a.cnt) t.curWarp.curWord = .ok i →
    step s = match exec i t with
      | .next u => .next (t.afterSlot u t.curWarp.curWord)
      | o => o)

/-- An unassigned cell raises `ILL_OPC`, whatever the guard and the slot; so do the words of all zeros and all ones (R357), in every live lane of the
segment's fetch set (R343, R354). Rests on the model's choices of log entry 76. -/
def Obligations.UnassignedCell : Prop :=
  (∀ (cls : BitVec 3) (slot : Nat) (last : Bool) (w : DWord), cellRow (w.extractLsb' 48 8).toNat = none →
    ∃ detail, decodeWord cls slot last w = .error (.illOpc, detail)) ∧
  cellRow ((0 : DWord).extractLsb' 48 8).toNat = none ∧ cellRow ((~~~0 : DWord).extractLsb' 48 8).toNat = none ∧
  (∀ (s : State) (g : Seg) (detail : Word), Alone s g s.curWarp.setMask → g.record = none → g.handler = 0 →
    Traps s (s.refuseWord 0x00 detail) g s.curWarp.setMask 0x00 fun x => x.detail = detail)

/-- `RTT`, `HALT` and `SRWR` under a guard raise `PREFIX_RSVD`; `CACHE` and `TLBI` decode under every guard, and one that selects no lane leaves them
without effect (R372). -/
def Obligations.SystemGuards : Prop :=
  ∀ (slot : Nat) (p : Pre) (wide : Bool) (sr : BitVec 8) (op : CacheOp) (tl : TlbiOp) (a b : Reg) (off : BitVec 16) (w : DWord),
    let guarded := p.pr ≠ 15 ∨ p.pn = true
    (guarded → ∀ i ∈ [Instr.rtt p, Instr.halt p], encode i = some w → ∃ d, decodeWord 5 slot true w = .error (.prefixRsvd, d)) ∧
    (guarded → encode (.srwr p wide sr a) = some w → (Instr.srwr ⟨p.sw, p.hold, false, 15⟩ wide sr a).wf = true →
      ∃ d, decodeWord 5 slot true w = .error (.prefixRsvd, d)) ∧
    (encode (.cache p op a b off) = some w → (Instr.cache p op a b off).wf = true → decodeWord 5 slot true w = .ok (.cache p op a b off)) ∧
    (encode (.tlbi p tl a b) = some w → (Instr.tlbi p tl a b).wf = true → decodeWord 5 slot true w = .ok (.tlbi p tl a b)) ∧
    ∀ s : State, s.curWarp.execMask p = 0 → Completes (.cache p op a b off) s (fun t => t = s) ∧ Completes (.tlbi p tl a b) s fun t => t = s

/-- `JMP`, `RET`, `CALL`, `BRAU` and a `BRA` that is uniform in every segment send exactly the lanes that take the transfer, and `CALL` leaves its
return address in `v126` and `v127` (R44, R84, R115 to R117). -/
def Obligations.Transfers : Prop :=
  ∀ (s : State) (p : Pre) (off : BitVec 40) (a : Reg),
    let wp := s.curWarp
    let m := wp.execMask p
    let jump := fun _ : Nat => wp.pcWord + off.signExtend 64 * 8
    let taken := maskWhere fun l => wp.setMask.getLsbD l && (wp.guard p).getLsbD l && wp.segs.any fun g => g.slots.getLsbD l
    let led := maskWhere fun l => wp.setMask.getLsbD l && wp.segs.any fun g =>
      g.slots.getLsbD l && (g.lead wp.setMask).any fun k => (wp.guard p).getLsbD k
    (s.targetsGood m jump → Completes (.jmp p off) s fun t => Sends s t m jump) ∧
    (s.targetsGood m (wp.val64 a) → Completes (.ret p a) s fun t => Sends s t m (wp.val64 a)) ∧
    (s.targetsGood m jump → Completes (.call p off) s fun t => ∃ u,
      Gives s u m 4 true (.v 126) (fun _ => wp.pcWord + 8) .vz (fun _ => false) 0 ∧ Sends u t m jump) ∧
    (s.targetsGood led jump → Completes (.brau p off) s fun t => Sends s t led jump) ∧
    (s.targetsGood taken jump → (∀ g ∈ wp.segs, ∀ j l, (g.slots &&& wp.setMask).getLsbD j = true → (g.slots &&& wp.setMask).getLsbD l = true →
        (wp.guard p).getLsbD j = (wp.guard p).getLsbD l) →
      Completes (.bra p off) s fun t => Sends s t taken jump)

/-- A branch that diverges (R44, R45, R46): the usher registers of the segment, the place of its lanes, and the interval of 12 cycles; in the usher
it nests once, and the outer event's registers are kept (R51). What a divergent branch raises (R345, R360, R379): at handler grade `HANDLER_DIVERGE`, at `udepth` 2 `USHER_DEPTH` with the address that each lane would
have taken, without an usher `USHER_NONE`. -/
def Obligations.UsherEntry : Prop :=
  (∀ (s : State) (p : Pre) (off : BitVec 40) (g : Seg),
    let wp := s.curWarp
    let m := wp.setMask
    let F := g.rel m
    let taken := F &&& g.rel (wp.guard p)
    let br := wp.pcWord
    let tk := br + off.signExtend 64 * 8
    let U := g.lmask &&& ~~~g.lpark &&& wp.free g
    let enters := fun (t : State) (stay : Mask) (P : Seg → Prop) => t.apart s.cur = s.apart s.cur ∧ t.curWarp.regs = wp.regs ∧
      t.curWarp.preds = wp.preds ∧ ∃ h, t.curWarp.segAt g.lbase = some h ∧ h.etaken = taken ∧ h.evt = ⟨br, tk, br + 8⟩ ∧
        h.lmask = g.lmask ∧ h.lpark = g.lpark ∧ h.urun = U ∧ s.now + 12 ≤ h.notBefore ∧ P h ∧
        (∀ l, l < g.width → h.vpc.getD l 0 = if F.getLsbD l then (if taken.getLsbD l then tk else br + 8)
          else if stay.getLsbD l then wp.standing (g.lbase + l) else g.vpc.getD l 0) ∧
        (∀ l, l < g.width → U.getLsbD l = true → t.curWarp.pc (g.lbase + l) = g.ubase &&& ~~~7)
    Alone s g m → taken ≠ 0 → taken ≠ F → g.ubase ≠ 0 → g.handler &&& F = 0 → s.usherErr g F = none →
    (g.udepth = 0 → g.progress = true ∨ g.bc < g.bancnt.toNat → Completes (.bra p off) s fun t =>
      enters t (g.lmask &&& ~~~g.lpark &&& g.rel wp.live) fun h => h.udepth = 1 ∧ h.usher = U ∧ h.progress = false ∧
        h.bc = if g.progress then 0 else g.bc + 1) ∧
    (g.udepth = 1 → Completes (.bra p off) s fun t => enters t g.usher fun h => h.udepth = 2 ∧ h.usher = g.usher ∧ h.olmask = g.lmask ∧
      h.ovpc = g.vpc ∧ h.oevt = g.evt ∧ h.oetaken = g.etaken ∧ h.progress = g.progress ∧ h.bc = g.bc)) ∧
  (∀ (s : State) (p : Pre) (off : BitVec 40) (g : Seg),
    let wp := s.curWarp
    let m := wp.setMask
    let F := g.rel m
    let taken := F &&& g.rel (wp.guard p)
    let br := wp.pcWord
    let tk := br + off.signExtend 64 * 8
    Alone s g m → taken ≠ 0 → taken ≠ F →
    (g.handler &&& F ≠ 0 → Completes (.bra p off) s fun t => Traps s t g m 0x36 fun _ => True) ∧
    (g.handler &&& F = 0 → g.record = none → g.udepth = 2 → Completes (.bra p off) s fun t => Traps s t g m 0x32 fun x =>
      x.detail = 2 ∧ ∀ l, l < g.width → F.getLsbD l = true → x.addrs.getD l 0 = if taken.getLsbD l then tk else br + 8) ∧
    (g.handler &&& F = 0 → g.record = none → g.udepth ≠ 2 → g.ubase = 0 → Completes (.bra p off) s fun t =>
      Traps s t g m 0x34 fun _ => True))

/-- `UDONE` sends the active lanes to their `vpc` and leaves the usher; outside the usher it raises `UDONE_OUTSIDE` (R47, R46). In a nested event it
sends the usher's lanes to their `vpc` and gives the outer event's registers back; with no usher lane to run on, the outer event ends too (R51). `PARK` parks its lanes
with the next header in `vpc`, and raises `PARK_IN_USHER` in the usher; `WAKE` clears the bits of its mask (R48, R122). Rests on the model's
choices of log entry 27. -/
def Obligations.UsherReturn : Prop :=
  ∀ (s : State) (p : Pre) (a : Reg) (g : Seg),
    let wp := s.curWarp
    let act := g.lmask &&& ~~~g.lpark &&& wp.free g
    (Alone s g wp.setMask → g.udepth = 1 → wp.holds = [] → wp.resume = [] → s.targetsGood (g.abs act) (fun l => g.vpc.getD (l - g.lbase) 0) →
      Completes (.udone p) s fun t => t.apart s.cur = s.apart s.cur ∧ t.curWarp.regs = wp.regs ∧
        (∃ h, t.curWarp.segAt g.lbase = some h ∧ h.udepth = 0 ∧ s.now + 6 ≤ h.notBefore ∧ h.lmask = g.lmask ∧ h.lpark = g.lpark) ∧
        ∀ l, l < g.width → act.getLsbD l = true → t.curWarp.pc (g.lbase + l) = g.vpc.getD l 0 &&& ~~~7) ∧
    (Alone s g wp.setMask → g.udepth = 2 → wp.holds = [] → wp.resume = [] →
      let runs := g.usher &&& act
      let last := g.olmask &&& ~~~g.lpark &&& wp.free g
      let outer := fun (t : State) (d : Nat) => t.apart s.cur = s.apart s.cur ∧ t.curWarp.regs = wp.regs ∧ ∃ h, t.curWarp.segAt g.lbase = some h ∧
        h.udepth = d ∧ s.now + 6 ≤ h.notBefore ∧ h.lmask = g.olmask ∧ h.lpark = g.lpark ∧ h.vpc = g.ovpc ∧ h.evt = g.oevt ∧
        h.etaken = g.oetaken ∧ h.usher = g.usher ∧ h.urun = runs
      (runs ≠ 0 → s.targetsGood (g.abs runs) (fun l => g.vpc.getD (l - g.lbase) 0) → Completes (.udone p) s fun t => outer t 1 ∧
        ∀ l, l < g.width → runs.getLsbD l = true → t.curWarp.pc (g.lbase + l) = g.vpc.getD l 0 &&& ~~~7) ∧
      (runs = 0 → s.targetsGood (g.abs last) (fun l => g.ovpc.getD (l - g.lbase) 0) → Completes (.udone p) s fun t => outer t 0 ∧
        ∀ l, l < g.width → last.getLsbD l = true → t.curWarp.pc (g.lbase + l) = g.ovpc.getD l 0 &&& ~~~7)) ∧
    (Alone s g wp.setMask → g.udepth = 0 → g.record = none → g.handler = 0 → Completes (.udone p) s fun t => Traps s t g wp.setMask 0x33 fun _ => True) ∧
    (Alone s g (wp.execMask p) → g.udepth = 0 → Completes (.park p) s fun t => t.apart s.cur = s.apart s.cur ∧
      t.curWarp.pcs = wp.pcs ∧ t.curWarp.regs = wp.regs ∧
      ∃ h, t.curWarp.segAt g.lbase = some h ∧ h.lpark = g.lpark ||| g.rel (wp.execMask p) ∧ h.lmask = g.lmask ∧
        ∀ l, l < g.width → h.vpc.getD l 0 = if (g.rel (wp.execMask p)).getLsbD l then wp.nextHdr else g.vpc.getD l 0) ∧
    (Alone s g (wp.execMask p) → g.udepth ≠ 0 → g.record = none → g.handler = 0 → Completes (.park p) s fun t =>
      Traps s t g (wp.execMask p) 0x35 fun _ => True) ∧
    (Alone s g (wp.execMask p) → wp.execMask p ≠ 0 → s.pends = [] → Completes (.wake p a) s fun t => t.apart s.cur = s.apart s.cur ∧
      ∃ h, t.settled.segAt g.lbase = some h ∧ h.lmask = g.lmask ∧
        ∀ k, g.lead (wp.execMask p) = some k → h.lpark = g.lpark &&& ~~~wp.val64 a k)

/-- The trap instructions (R127): taken once for the executing lanes of a segment, with the code of the word in the detail, after the lanes that the
guard excludes have left the clause with its results (`u`, R62). -/
def Obligations.TrapInstructions : Prop :=
  ∀ (s : State) (p : Pre) (imm : BitVec 24) (g : Seg),
    let m := s.curWarp.execMask p
    Alone s g m → g.record = none → m ≠ 0 → s.curWarp.mayAct = true → g.handler &&& g.rel m = 0 →
    let u := s.onWarp s.cur fun wp => wp.leaveClause (g.slots &&& ~~~m)
    let out := fun (i : Instr) (code : Nat) => Completes i s fun t => ∃ h, u.curWarp.segAt g.lbase = some h ∧ Traps u t h m code fun x =>
      x.detail = imm.setWidth 32 ∧ x.lanes = g.rel m ∧ x.cls = .p
    out (.trap p imm) 0x16 ∧ out (.svc p imm) 0x17 ∧ out (.bkpt p imm) 0x18

/-- Entry to the group trap handler (R344): what the trap record keeps, what `v118` to `v127` hold in the trapped lanes, and where and when those
lanes go on. Rests on the model's choices of log entries 73, 81. -/
def Obligations.HandlerEntry : Prop :=
  ∀ (s : State) (w lb : Nat) (g : Seg) (x : SegCause),
    let wp := s.warp w
    wp.segAt lb = some g → g.cause = some x → causeDest x.code = .handler → wp.window = none → g.record = none → g.tbase ≠ 0 →
    Completes (.handlerEntry w lb) s fun t => t.apart w = s.apart w ∧ (t.warp w).preds = wp.preds ∧
      (∃ h r, (t.warp w).segAt lb = some h ∧ h.cause = none ∧ h.record = some r ∧ r.cause = x ∧ r.udepth = g.udepth ∧
        r.saved = (List.range 10).map (fun k => wp.reg (118 + k)) ∧ h.handler = g.handler ||| x.lanes ∧ s.now + 24 ≤ h.notBefore) ∧
      (∀ k, k < 118 → (t.warp w).reg k = wp.reg k) ∧
      (∀ l, wp.live.getLsbD l = true → (g.abs x.lanes).getLsbD l = false → (t.warp w).pc l = wp.pc l ∧
        ∀ k, ((t.warp w).reg k).word l = (wp.reg k).word l) ∧
      ∀ l, (g.abs x.lanes).getLsbD l = true →
        let v := fun k => ((t.warp w).reg k).word l
        (t.warp w).pc l = g.tbase ∧ v 118 = loWord x.lanes ∧ v 119 = hiWord x.lanes ∧ v 120 = loWord x.at_.hdr ∧ v 121 = hiWord x.at_.hdr ∧
        v 122 = x.codeWord ∧ v 123 = x.detail ∧ v 124 = loWord (x.addrs.getD (l - g.lbase) 0) ∧ v 125 = hiWord (x.addrs.getD (l - g.lbase) 0) ∧
        v 126 = loWord x.mask ∧ v 127 = hiWord x.mask

/-- `RTT` from a trap record (R254, R346): the copies go back to `v118` to `v127`, `udepth` and the grade are those of the record, and the trapped
lanes stand at the slot of the cause again, those that are done at the next slot (R363), at the boundary of a deferred cause, or after `TRAP_INSN` at
the next header, with the results of their clause (R62). Rests on the model's choices of log entries 16, 81. -/
def Obligations.HandlerReturn : Prop :=
  ∀ (s : State) (p : Pre) (g : Seg) (r : TrapRec),
    let wp := s.curWarp
    let m := wp.execMask p
    let k := g.abs r.cause.lanes &&& wp.live
    let x := r.cause
    let past := k &&& g.abs x.done
    let owed := if x.cls = .d then [] else if x.code = 0x16 then x.at_.pend
      else if past ≠ 0 ∧ x.at_.cnt ≤ x.at_.slot then (x.at_.pend.map (Pend.split past)).filter Pend.alive else []
    wp.segAt g.lbase = some g → wp.segsIn m = [g] → (g.firmware = true ∨ g.handler &&& g.rel m ≠ 0) → g.record = some r → g.cause = none →
    g.queue = [] → s.pends = [] → k ≠ 0 →
    Completes (.rtt p) s fun t => t.apart s.cur = s.apart s.cur ∧ t.curWarp.preds = (wp.applyEnd owed).preds ∧
      (∃ h, t.curWarp.segAt g.lbase = some h ∧ h.record = none ∧ h.cause = none ∧ h.udepth = r.udepth ∧
        h.handler = if r.wasHandler then g.handler else g.handler &&& ~~~r.cause.lanes) ∧
      (∀ n, n < 118 → t.curWarp.reg n = (wp.applyEnd owed).reg n) ∧
      (∀ n l, owed = [] → 118 ≤ n → n < 128 → l < 64 → (t.curWarp.reg n).word l =
        if k.getLsbD l then (r.saved.getD (n - 118) VReg.reset).word l else (wp.reg n).word l) ∧
      (r.cause.cls = .d → ∀ l, k.getLsbD l = true → t.curWarp.pc l = r.cause.at_.hdr) ∧
      (x.cls ≠ .d → x.code = 0x16 ∨ owed = [] → ∀ l, k.getLsbD l = true → t.curWarp.pc l = x.at_.hdr + BitVec.ofNat 64 (8 * (x.at_.cnt + 2))) ∧
      (x.cls ≠ .d → x.code ≠ 0x16 →
        (k &&& ~~~g.abs x.done ≠ 0 → ∃ a ∈ t.curWarp.resume,
          a.hdr = x.at_.hdr ∧ a.slot = x.at_.slot ∧ a.words = x.at_.words ∧ a.latch = x.at_.latch ∧ a.lanes = k &&& ~~~g.abs x.done) ∧
        (past ≠ 0 → x.at_.slot < x.at_.cnt → ∃ a ∈ t.curWarp.resume,
          a.hdr = x.at_.hdr ∧ a.slot = x.at_.slot + 1 ∧ a.words = x.at_.words ∧ a.latch = x.after ∧ a.lanes = past))

/-- The privilege of the system instructions (R253, R345, R354, R371): at program grade `PRIV_CLAUSE`; at handler grade `TRAP_IN_HANDLER` with 0x08. -/
def Obligations.Privilege : Prop :=
  ∀ (s : State) (p : Pre) (g : Seg) (wide : Bool) (sr : BitVec 8) (op : CacheOp) (tl : TlbiOp) (a b : Reg) (off : BitVec 16),
    let m := s.curWarp.execMask p
    Alone s g m → m ≠ 0 →
    (g.firmware = false → g.record = none → g.handler &&& g.rel m = 0 → Completes (.rtt p) s fun t => s.pends = [] → Traps s t g m 0x07 fun _ => True) ∧
    ∀ i ∈ [Instr.halt p, .srwr p wide sr a, .cache p op a b off, .tlbi p tl a b], s.curWarp.window = none → s.curWarp.sideLog = [] →
      (g.firmware = false → g.record = none → g.handler &&& g.rel m = 0 → Completes i s fun t => Traps s t g m 0x07 fun _ => True) ∧
      (g.handler &&& g.rel m = g.rel m → g.rel m ≠ 0 → Completes i s fun t => Traps s t g m 0x19 fun x => x.detail = 8)

/-- `SRWR` under firmware (R256): which register takes the value of the segment's lowest executing lane, and that nothing else changes. `HALT`,
`CACHE`, `TLBI` under firmware, and `FENCE` (R231, R255, R257, R258). -/
def Obligations.SpecialRegisters : Prop :=
  (∀ (s : State) (p : Pre) (g : Seg) (wide : Bool) (a : Reg) (l : Nat),
    let wp := s.curWarp
    let m := wp.execMask p
    let v := wp.val wide a l
    Alone s g m → g.lead m = some l → g.firmware = true → g.handler &&& g.rel m = 0 → wp.window = none → wp.sideLog = [] →
    let out := fun (sr : BitVec 8) (P : Seg → State → Prop) => Completes (.srwr p wide sr a) s fun t =>
      t.apart s.cur = s.apart s.cur ∧ t.curWarp.regs = wp.regs ∧ t.curWarp.preds = wp.preds ∧ t.curWarp.pcs = wp.pcs ∧
      ∃ h, t.curWarp.segAt g.lbase = some h ∧ P h t
    (v.toNat % 8 = 0 → out 0x0C fun h t => h = { g with ubase := v } ∧ t.curWarp.fpflags = wp.fpflags) ∧
    (v.toNat % 8 = 0 → out 0x0D fun h t => h = { g with tbase := v } ∧ t.curWarp.fpflags = wp.fpflags) ∧
    out 0x0E (fun h t => h = g ∧ t.curWarp.fpflags = v.setWidth 5) ∧
    (0 < (loWord v).toNat → (loWord v).toNat ≤ 65535 → out 0x0F fun h t => h = { g with bancnt := loWord v } ∧ t.curWarp.fpflags = wp.fpflags) ∧
    out 0x10 (fun h t => h = { g with dropcnt := 0 } ∧ t.curWarp.fpflags = wp.fpflags)) ∧
  (∀ (s : State) (p : Pre) (g : Seg) (op : CacheOp) (a b : Reg) (off : BitVec 16) (l pa : Nat) (rec : Bool),
    let wp := s.curWarp
    let m := wp.execMask p
    let free := Alone s g m ∧ g.lead m = some l ∧ g.firmware = true ∧ g.handler &&& g.rel m = 0 ∧ wp.window = none ∧ wp.sideLog = []
    let woken := ((s.die (dieOf s.cur)).porterWake.find s.cur).getD 0
    (free → Completes (.halt p) s fun t => t.mem = s.mem ∧ t.curWarp.regs = wp.regs ∧ (woken = 0 → t.apart s.cur = s.apart s.cur) ∧
      (dieOf s.cur < s.dies.length → ((t.die (dieOf s.cur)).porterWake.find s.cur).getD 0 = woken &&& ~~~m) ∧
      (∀ k, (m &&& ~~~woken).getLsbD k = true → (t.curWarp.holds.find k).map LaneHold.kind = some .halt) ∧
      ∀ k, (m &&& woken).getLsbD k = true → t.curWarp.holds.find k = wp.holds.find k) ∧
    (free → m = laneBit l → (s.lanePlace s.cur l .load 1 (wp.ea a b off 128 l)) = .ok ⟨.hbm pa, none⟩ →
      Completes (.cache p op a b off) s fun t => t.mem = s.mem ∧ t.spad = s.spad ∧ t.curWarp.regs = wp.regs ∧
        (op = .wb → t.l1.map Prod.fst = s.l1.map Prod.fst ∧ ∀ q ∈ t.l1, q.1 % 2 ^ 34 = pa / 128 → q.2.dirty = false) ∧
        (op ≠ .wb → (∀ q ∈ t.l1, q.1 % 2 ^ 34 ≠ pa / 128) ∧ ∀ q ∈ t.annex, q.1 % 2 ^ 34 ≠ pa / 128)) ∧
    (free → s.homeOps = [] → (∀ q ∈ s.warps, q.2.window = none ∧ q.2.sideLog = []) → Completes (.tlbi p .all a b) s fun t =>
      t.xlats = [] ∧ t.mem = s.mem ∧ t.curWarp.regs = wp.regs) ∧
    (m ≠ 0 → wp.mayAct = true → Completes (.fence p rec) s fun t => t.mem = s.mem ∧ t.spad = s.spad ∧ t.curWarp.regs = wp.regs ∧
      t.core (coreOf s.cur) = if rec then { s.core (coreOf s.cur) with recCache := [] } else { s.core (coreOf s.cur) with icache := [] }))

/-- The retired cells raise `RETIRED` in every segment of the fetch set (R94, R95), and the porter returns the lanes: after `SVC` with its results at
the next header, after `FDIVA` with the product by the approximated reciprocal at the next slot (R128, R347, R358). Rests on the model's choices
of log entries 7, 76. -/
def Obligations.Porter : Prop :=
  (∀ (s : State) (g : Seg), Alone s g s.curWarp.setMask → s.curWarp.setMask ≠ 0 → s.curWarp.mayAct = true → g.record = none → g.handler = 0 →
    ∀ (p : Pre) (f t : Bool) (ty : Ty) (n : BitVec 3) (sel : BitVec 2) (off : BitVec 16) (a b c k : Reg),
    ∀ i ∈ [Instr.fdiva p f a b c, .ldsp p f ty a b off, .stsp p f ty a b off, .atsp p a b c, .barw p, .mma4 p n t sel a b c k, .mma8 p n t sel a b c k],
      Completes i s fun u => Traps s u g s.curWarp.setMask 0x01 fun _ => True) ∧
  (∀ (s : State) (w lb : Nat) (g : Seg) (x : SegCause), (s.warp w).segAt lb = some g → g.cause = some x → (s.warp w).window = none → x.hid = 0 →
    g.lbase = lb → g.record = none → g.queue = [] →
    coreOf w ≠ porterCore (dieOf w) →
    let wp := s.warp w
    let k := g.abs x.lanes &&& wp.live
    let due := wp.applyEnd x.at_.pend
    (x.code = 0x17 → Completes (.porterReturn w lb) s fun t => t.mem = s.mem ∧ (t.warp w).preds = due.preds ∧
      (∃ h, (t.warp w).segAt lb = some h ∧ h.cause = none) ∧
      (∀ l, k.getLsbD l = true → (t.warp w).pc l = x.at_.hdr + BitVec.ofNat 64 (8 * (x.at_.cnt + 2))) ∧
      (∀ n, 4 ≤ n ∨ (n ≠ 0 ∧ s.services.contains x.detail.toNat = false) → (t.warp w).reg n = due.reg n) ∧
      ∀ l, (g.abs x.mask &&& wp.live).getLsbD l = true →
        (s.services.contains x.detail.toNat = false → ((t.warp w).reg 0).word l = 0xFFFF_FFFF#32 ∧ t.freeNo = s.freeNo) ∧
        (s.services.contains x.detail.toNat = true → ∀ n, n < 4 → ((t.warp w).reg n).word l = Config.serviceWord (s.freeNo + 4 * l + n))) ∧
    (x.code = 0x18 → Completes (.porterReturn w lb) s fun t => t.mem = s.mem ∧ (t.warp w).regs = wp.regs ∧
      ∃ h y, (t.warp w).segAt lb = some h ∧ h.cause = some y ∧ y.hid = freeHold s.holds ∧ y.lanes = x.lanes ∧ t.out = s.out ++ [.debug g.gid y.hid]) ∧
    (∀ p f n a b, x.code = 0x01 → x.told = false → decodeAlone (x.at_.words.getD x.at_.slot 0) = .ok (.fdiva p f (.v n) a b) → wp.poison = [] →
      Completes (.porterReturn w lb) s fun t => t.mem = s.mem ∧
        (x.at_.pend = [] ∨ x.at_.slot < x.at_.cnt → (t.warp w).preds = wp.preds ∧ ∀ j, j ≠ n.toNat → (t.warp w).reg j = wp.reg j) ∧
        ∀ l, ((wp.atCause x).execMask p).getLsbD l = true → ((t.warp w).reg n.toNat).word l =
          BitVec.ofNat 32 (floatOp fmtF32 .mul f ((wp.atCause x).val32 a l).toNat (approxOp .rcp .f32 f ((wp.atCause x).val32 b l)).1.toNat 0).1))

/-- A load puts its reads, in lane order (or once for each segment, where the address is uniform), at the end of the window, and a result on its way;
it changes no register and no byte of memory but `AC` of a leaf entry; bytes that the warp's own writes hold for want of a page are read at once (R56,
R73, R179, R200, R216, R218, R392). -/
def Obligations.LoadIssue : Prop :=
  ∀ (s : State) (p : Pre) (hint : Hint) (b128 : Bool) (ty : Ty) (d a b : Reg) (off : BitVec 16),
    let wp := s.curWarp
    let m := wp.execMask p
    let size := accessSize b128 ty
    let go := fun (i : Instr) (words size : Nat) (ty : Ty) (readers : List Nat) (ea : Nat → DWord) =>
      m ≠ 0 → wp.ldCnt < 63 → wp.hasRoom readers.length = true → s.solo s.cur = false → s.readRaises s.cur m size ea = [] →
      let at_ := fun l => s.loadPlace s.cur l size (ea l)
      let evs := (wp.window.map Window.evs).getD []
      let issued := fun (t : State) (P : Res → Prop) => t.curWarp.regs = wp.regs ∧ t.curWarp.preds = wp.preds ∧ t.curWarp.pcs = wp.pcs ∧
        t.curWarp.ldCnt = wp.ldCnt + 1 ∧ t.spad = s.spad ∧
        (∀ x, (∀ l ∈ readers, ¬Xlat.leafByte (at_ l).xlat x) → t.mem.byte x = s.mem.byte x) ∧
        (∃ r, t.curWarp.results.getLast? = some r ∧ r.id = wp.nextId + 1 ∧ r.dst = d ∧ r.words = words ∧ r.ty = ty ∧ r.lanes = m ∧ P r) ∧
        (isPorter (coreOf s.cur) = false → (∀ l ∈ readers, (at_ l).xlat = none) → t.apart s.cur = s.apart s.cur)
      ((∀ l ∈ readers, (at_ l).loc.own = false) → Completes i s fun t => issued t (fun r => t.curWarp.results = wp.results ++ [r] ∧ r.vals = []) ∧
        (t.curWarp.window.map Window.evs).getD [] = evs ++ readers.map fun l => WinEv.rd (wp.nextId + 1) l (ea l) (at_ l).loc size none) ∧
      (∀ l, readers = [l] → (at_ l).loc.own = true → (at_ l).xlat = none →
        let v := s.viewRead s.cur evs.length (at_ l).loc (ea l) size
        Completes i s fun t => issued t (fun r => m.getLsbD l = true → r.vals.find l = some v) ∧
          (t.curWarp.window.map Window.evs).getD [] = evs ++ [WinEv.rd (wp.nextId + 1) l (ea l) (at_ l).loc size (some v)])
    go (.ld p hint b128 ty d a b off) (accessWords b128 ty) size ty
      (if b = .vz ∧ wp.shape true a = .uniform then (wp.segsIn m).filterMap (fun g => g.lead m) else lanesOf m) (fun l => wp.ea a b off size l) ∧
    ((∀ l, m.getLsbD l = true → (wp.rowBase m a b off l).toNat % 256 = 0) →
      go (.ldw p hint d a b off) 4 16 .b32 (lanesOf m) (fun l => wp.rowAddr m a b off l))

/-- A store puts its writes, in lane order, at the end of the window, those whose page is not there too, and changes no byte of memory but `AC` of a
leaf entry (R179, R200, R216, R218, R392). A load or a store that the counter or the window has no room for waits in its slot (R67, R73,
R201); `PRF` writes nothing and raises nothing, and waits while a line's home slice or a wrap holds its request (R170, R172, R219). -/
def Obligations.StoreIssue : Prop :=
  (∀ (s : State) (p : Pre) (hint : Hint) (b128 : Bool) (ty : Ty) (d a b : Reg) (off : BitVec 16),
    let wp := s.curWarp
    let m := wp.execMask p
    let size := accessSize b128 ty
    let go := fun (i : Instr) (words size : Nat) (ea : Nat → DWord) =>
      m ≠ 0 → wp.stCnt < 63 → wp.hasRoom (lanesOf m).length = true → s.solo s.cur = false →
      let judged := fun l => s.lanePlace s.cur l .store size (ea l)
      (∀ l e, m.getLsbD l = true → judged l = .error e → e.toLog = true) →
      Completes i s fun t => t.curWarp.regs = wp.regs ∧ t.curWarp.preds = wp.preds ∧ t.curWarp.pcs = wp.pcs ∧ t.curWarp.stCnt = wp.stCnt + 1 ∧
        (∀ x, (∀ l p, m.getLsbD l = true → judged l = .ok p → ¬Xlat.leafByte p.xlat x) → t.mem.byte x = s.mem.byte x) ∧
        t.spad = s.spad ∧ t.curWarp.results = wp.results ∧
        (∃ r, t.curWarp.stores = wp.stores ++ [r] ∧ r.id = wp.nextId + 1 ∧ r.owed = (lanesOf m).map wp.gidOf) ∧
        (t.curWarp.window.map Window.evs).getD [] = (wp.window.map Window.evs).getD [] ++ (lanesOf m).map fun l =>
          WinEv.wr (wp.nextId + 1) l (ea l) (match judged l with
            | .ok p => some p.loc
            | .error _ => none) size (wp.storeValue words d l) hint
    go (.st p hint b128 ty d a b off) (accessWords b128 ty) size (fun l => wp.ea a b off size l) ∧
    ((∀ l, m.getLsbD l = true → (wp.rowBase m a b off l).toNat % 256 = 0) →
      go (.stw p hint d a b off) 4 16 (fun l => wp.rowAddr m a b off l))) ∧
  (∀ (s : State) (p : Pre) (hint : Hint) (b128 l2 : Bool) (ty : Ty) (d a b : Reg) (off : BitVec 16),
    let wp := s.curWarp
    let m := wp.execMask p
    let held := fun (why : HeldBy) (t : State) => t.apart s.cur = s.apart s.cur ∧ t.curWarp.clause.bind Clause.held = wp.clause.map (fun _ => why) ∧
      t.curWarp.regs = wp.regs ∧ t.curWarp.ldCnt = wp.ldCnt ∧ t.curWarp.stCnt = wp.stCnt ∧ t.curWarp.window = wp.window
    let readers := if b = .vz ∧ wp.shape true a = .uniform then (wp.segsIn m).filterMap (fun g => g.lead m) else lanesOf m
    (m = 0 → Completes (.ld p hint b128 ty d a b off) s (fun t => t = s) ∧ Completes (.st p hint b128 ty d a b off) s fun t => t = s) ∧
    (m ≠ 0 → 63 ≤ wp.ldCnt → Completes (.ld p hint b128 ty d a b off) s (held .counter)) ∧
    (m ≠ 0 → 63 ≤ wp.stCnt → Completes (.st p hint b128 ty d a b off) s (held .counter)) ∧
    (m ≠ 0 → wp.ldCnt < 63 → wp.hasRoom readers.length = false → Completes (.ld p hint b128 ty d a b off) s (held .window)) ∧
    (m ≠ 0 → wp.stCnt < 63 → wp.hasRoom (lanesOf m).length = false → Completes (.st p hint b128 ty d a b off) s (held .window)) ∧
    (((lanesOf m).any fun l => (s.prefetched s.cur l (wp.ea a b off 4 l)).any fun x => !s.canRead (coreOf s.cur) x.loc) = true →
      Completes (.prf p l2 a b off) s (held .maintenance)) ∧
    Completes (.prf p l2 a b off) s (fun t => t.mem = s.mem ∧ t.spad = s.spad ∧ t.xlats = s.xlats ∧ t.curWarp.regs = wp.regs ∧
      t.curWarp.preds = wp.preds ∧ t.curWarp.pcs = wp.pcs ∧ t.curWarp.results = wp.results ∧ t.curWarp.ldCnt = wp.ldCnt))

/-- A window of one write commits (R198, R204): exactly the bytes of the write change, and the window is closed; a page's leaf entry, if its line is
free, holds `AC` and `DY` then (R179). A window that may not commit stays open and holds no line (R204), and `LOG_FULL` is posted once where only
the side log has no room for it (R384). Rests on the model's choices of log entry 4. -/
def Obligations.CommitWrites : Prop :=
  (∀ (s : State) (w store lane n : Nat) (va : DWord) (loc : Loc) (v : BitVec 128) (hint : Hint) (x : Window),
    let wp := s.warp w
    wp.window = some x → x.evs = [.wr store lane va (some loc) n v hint] → x.hit = false → x.tileOps = [] → wp.irr = 0 → wp.sideLog = [] →
    (∀ q ∈ s.cmds, q.2.warp = w → q.2.st ≠ .deferred) → s.lineReady loc.line = true → s.wrapHeld (dieOf w) loc = false →
    s.signedTiles w = [] → (∀ b ∈ s.bars, b.saved = none) → s.classStays w lane va → (∀ g ∈ wp.segs, g.cause = none) → s.mem.wf = true → s.spad.wf = true →
    Completes (.commit w) s fun t => (t.warp w).window = none ∧ (t.warp w).regs = wp.regs ∧
      s.Wrote t loc n v.toNat (Xlat.leafByte (s.xlatOf w lane va)) ∧
      ∀ y, s.xlatOf w lane va = some y → mgmtAt y.leafPa = none → s.lineReady (y.leafPa / 128) = true →
        s.wrapHeld (agentDie y.agent) (.hbm y.leafPa) = false → (∀ pa, loc = .hbm pa → pa + n ≤ y.leafPa ∨ y.leafPa + 8 ≤ pa) →
        t.mem.dword y.leafPa = s.mem.dword y.leafPa ||| 0x300) ∧
  (∀ (s : State) (w : Nat),
    let wp := s.warp w
    (wp.window = none → Completes (.commit w) s fun t => t = s) ∧
    (wp.window.isSome = true → wp.settled = false ∨ (wp.logRoom = false ∧ wp.fullTold = true) →
      Completes (.commit w) s fun t => t = s.unclaim (.commit w)) ∧
    (∀ g, wp.settled = true → wp.logRoom = false → wp.fullTold = false → wp.segs.head? = some g → Completes (.commit w) s fun t =>
      t.mem = s.mem ∧ t.spad = s.spad ∧ (t.warp w).window = wp.window ∧ (t.warp w).regs = wp.regs ∧ (t.warp w).fullTold = true ∧
      t.homeOps = s.homeOps.filter fun o => o.fn != .claim (.commit w)))

/-- After a rollback the registers, the predicates, the program counters, the live lanes and the usher registers are those of the checkpoint, no
result of the window is left, and no slot of a discarded clause stands (R50, R63, R203); its deferred commands are gone, and so are its tentative
signatures (R206). -/
def Obligations.Rollback : Prop :=
  ∀ (s : State) (w : Nat) (x : Window), (s.warp w).window = some x → x.hit = true →
    Completes (.rollback w) s fun t => ∀ n,
      (t.warp w).reg n = x.ckpt.regs.getD n VReg.reset ∧ (t.warp w).regs = x.ckpt.regs ∧ (t.warp w).preds = x.ckpt.preds ∧
      (t.warp w).pcs = x.ckpt.pcs ∧ (t.warp w).live = x.ckpt.live ∧ (t.warp w).fpflags = x.ckpt.fpflags ∧ (t.warp w).window = none ∧
      (t.warp w).clause = none ∧ (t.warp w).results = (s.warp w).results.filter (fun r => !r.spec) ∧
      (t.warp w).stores = ((s.warp w).stores.filter fun r => !r.spec) ∧
      (∀ lb g h, (s.warp w).segAt lb = some g → x.ckpt.segs.find? (fun h => h.lbase == lb && h.gid == g.gid) = some h →
        ∃ q, (t.warp w).segAt lb = some q ∧ q.lmask = h.lmask ∧ q.lpark = h.lpark ∧ q.vpc = h.vpc ∧ q.evt = h.evt ∧ q.etaken = h.etaken ∧
          q.udepth = h.udepth ∧ q.olmask = h.olmask ∧ q.ovpc = h.ovpc ∧ q.oevt = h.oevt ∧ q.oetaken = h.oetaken ∧ q.usher = h.usher ∧
          q.urun = h.urun ∧ q.dropcnt = g.dropcnt ∧ q.progress = g.progress ∧ q.bc = g.bc ∧ s.now + 24 ≤ q.notBefore) ∧
      t.cmds = s.cmds.filter (fun q => !(q.2.warp == w && q.2.st == CmdSt.deferred)) ∧
      ∀ k, (t.landing (coreOf w) k).warp = w → (t.landing (coreOf w) k).st ≠ .free →
        ∀ q ∈ (t.landing (coreOf w) k).signers, q.2.committed = true

/-- A read takes its value from the youngest write before it in its window or side log, else from memory, with its line in the signature (R200, R202).
A result whose lanes all have their values reaches its registers, narrow types extended, but for the words that a later slot of its clause has
written (R61), and its counter falls (R62, R73, R85); the store records whose writes are performed fall off (R73). The head of the side log is
performed when its place is there: exactly its bytes change, but for the leaf entry of its page (R179, R209, R392). Rests on the model's choices of log entry 18. -/
def Obligations.ReadsAndArrivals : Prop :=
  (∀ (s : State) (w k res lane n : Nat) (va : DWord) (loc : Loc) (x : Window),
    (s.warp w).window = some x → x.evs[k]? = some (.rd res lane va loc n none) → s.classStays w lane va → s.canRead (coreOf w) loc = true →
    s.poisoned loc n = false →
    Completes (.earlyRead w k) s fun t => t.mem = s.mem ∧ t.spad = s.spad ∧ (t.warp w).regs = (s.warp w).regs ∧
      ∃ y, (t.warp w).window = some y ∧ y.evs[k]? = some (.rd res lane va loc n (some (s.viewRead w k loc va n))) ∧ y.sig.getLsbD loc.sig = true ∧
        (∀ j, j ≠ k → y.evs[j]? = x.evs[j]?) ∧ y.ckpt = x.ckpt) ∧
  (∀ (s : State) (w k : Nat) (r : Res),
    let wp := s.warp w
    ((wp.results.find? fun r => r.id == k) = some r → r.complete = true → r.ctr = .load → r.pdst = none → s.staleGids r = [] →
      s.freshSlots w r &&& r.lanes = r.lanes →
      Completes (.loadResultArrival w k) s fun t => t.apart w = s.apart w ∧ (t.warp w).ldCnt = wp.ldCnt - 1 ∧ (t.warp w).preds = wp.preds ∧
        (t.warp w).results.map Res.id = (wp.results.filter fun x => x.id != r.id).map Res.id ∧
        ∀ n, r.dst = .v n → r.words ≤ 4 → n.toNat + r.words ≤ 128 →
          (∀ j l, j < r.words → r.lanes.getLsbD l = true → ((r.lost.find j).getD 0).getLsbD l = false →
            ((t.warp w).reg (n.toNat + j)).word l = r.word j l) ∧
          (∀ i, i < n.toNat ∨ n.toNat + r.words ≤ i → (t.warp w).reg i = wp.reg i) ∧
          (∀ j l, j < r.words → ((r.lost.find j).getD 0).getLsbD l = true → r.fill.getLsbD l = false → l < 64 →
            ((t.warp w).reg (n.toNat + j)).word l = (wp.reg (n.toNat + j)).word l) ∧
          ∀ i l, wp.live.getLsbD l = true → r.lanes.getLsbD l = false → r.fill.getLsbD l = false →
            ((t.warp w).reg i).word l = (wp.reg i).word l) ∧
    (let done := fun (x : StoreRec) => x.owed.isEmpty && !x.spec
     Completes (.storeAck w) s fun t => t.apart w = s.apart w ∧ (t.warp w).regs = wp.regs ∧
      (t.warp w).stores = wp.stores.filter (fun x => !done x) ∧ (t.warp w).stCnt = wp.stCnt - (wp.stores.filter done).length)) ∧
  (∀ (s : State) (w : Nat) (e : LogEnt) (rest : List LogEnt) (at_ : Place),
    let wp := s.warp w
    let u := match at_.xlat with
      | some x => s.keepXlat x
      | none => s
    wp.sideLog = e :: rest → e.sent = false → (e.loc.isSome || wp.logDrain) = true → s.lanePlace w e.lane .store e.n e.va = .ok at_ →
    s.wrapHeld (dieOf w) at_.loc = false →
    (s.lineReady at_.loc.line = true → u.classStays w e.lane e.va → s.mem.wf = true → s.spad.wf = true →
      Completes (.sideLogDrain w) s fun t => (t.warp w).sideLog = rest ∧ (t.warp w).regs = wp.regs ∧
        s.Wrote t at_.loc e.n e.val.toNat (Xlat.leafByte (u.xlatOf w e.lane e.va))) ∧
    (s.lineReady at_.loc.line = false → Completes (.sideLogDrain w) s fun t => (t.warp w).sideLog = { e with sent := true } :: rest ∧
      t.mem = s.mem ∧ t.spad = s.spad ∧ (t.warp w).regs = wp.regs ∧
      t.homeOps = s.homeOps ++ [HomeOp.mk w e.store true e.lane at_.loc e.va e.n .logWrite 0 0 (dieOf w) .none]))

/-- `ATOM`, `CAS` and `RED` send one operation for each lane, in lane order, to its place, once the warp may act. An operation at its serialisation
point reads the old value, writes the new one, and gives the old one to its result; lanes of one instruction at one address follow each other
with nothing between them (R174, R175, R198, R220, R221). Of the operations that wait on a line, one of a warp that a serial pass favours is
performed first, else the one that arrived first (R170, R382), but after those that a wrap found held (R385) and a change of class of its page
(R167). Rests on the model's choices of log entries 79, 87. -/
def Obligations.AtomicOperations : Prop :=
  (∀ (s : State) (p : Pre) (op : AtomOp) (rop : RedOp) (wide : Bool) (ty : Ty) (d a b c : Reg),
    let wp := s.curWarp
    let m := wp.execMask p
    let size := fun (wide : Bool) => if wide then 8 else 4
    let ok := fun (n : Nat) => m ≠ 0 ∧ wp.mayAct = true ∧ ∀ l, m.getLsbD l = true → ∃ q,
      s.lanePlace s.cur l .atomic n (wp.val64 a l) = .ok q ∧ s.poisoned q.loc n = false ∧ s.wrapHeld (dieOf s.cur) q.loc = false
    let sent := fun (t : State) (store : Bool) (n : Nat) (fn : AtomFn) (x y : Nat → DWord) =>
      let at_ := fun l => s.okPlace s.cur l .atomic n (wp.val64 a l)
      let ops := (lanesOf m).map fun l => HomeOp.mk s.cur (wp.nextId + 1) store l (at_ l).loc (wp.val64 a l) n fn (x l) (y l) (dieOf s.cur) .none
      let plain := ∀ l, m.getLsbD l = true → (at_ l).xlat = none ∧ aperture (wp.val64 a l) ≠ .global
      t.homeOps.filter (fun o => !o.onLeaf) = s.homeOps.filter (fun o => !o.onLeaf) ++ ops ∧ (plain → t.homeOps = s.homeOps ++ ops ∧ t.mem = s.mem) ∧
      t.curWarp.irr = wp.irr + (lanesOf m).length ∧ t.spad = s.spad ∧ t.curWarp.regs = wp.regs ∧
      ∀ k, (∀ y, (y ∈ t.xlats ∨ ∃ l, m.getLsbD l = true ∧ (at_ l).xlat = some y) → ¬(y.leafPa ≤ k ∧ k < y.leafPa + 8)) →
        t.mem.byte k = s.mem.byte k
    (ok (size (Ty.is2 ty)) → wp.ldCnt < 63 → Completes (.atom p op ty d a b) s fun t => t.curWarp.ldCnt = wp.ldCnt + 1 ∧
      sent t false (size (Ty.is2 ty)) (match op with
        | .red o => .red o ty
        | .exch => .exch (Ty.is2 ty)) (fun l => wp.val (Ty.is2 ty) b l) (fun _ => 0)) ∧
    (ok (size wide) → wp.ldCnt < 63 → Completes (.cas p wide d a b c) s fun t => t.curWarp.ldCnt = wp.ldCnt + 1 ∧
      sent t false (size wide) (.cas wide) (fun l => wp.val wide b l) (fun l => wp.val wide c l)) ∧
    (ok (size (Ty.is2 ty)) → wp.stCnt < 63 → Completes (.red p rop ty a b) s fun t => t.curWarp.stCnt = wp.stCnt + 1 ∧
      sent t true (size (Ty.is2 ty)) (.red rop ty) (fun l => wp.val (Ty.is2 ty) b l) (fun _ => 0))) ∧
  (∀ (s : State) (o : HomeOp) (wp : Warp) (r : Res),
    (match o.fn with
      | .red .. | .exch _ | .cas _ => True
      | _ => False) → s.leaseFree o.loc.line = true → s.atHome o.loc.line o = true → s.classStays o.warp o.lane o.va → s.warp o.warp = wp →
    wp.results = [r] → r.id = o.recId → o.store = false → o.lane < 64 → r.lanes.getLsbD o.lane = true → s.spad.wf = true → s.mem.wf = true →
    (∀ pa, o.loc = .hbm pa → mgmtAt pa = none) →
    let nat := fun (u : State) => match o.loc with
      | .hbm pa => u.mem.nat pa o.n
      | .spad c k => u.spad.nat (c * 2 ^ 20 + k) o.n
    let put := fun (u : State) (v : Nat) => match o.loc with
      | .hbm pa => { u with mem := u.mem.store pa o.n v }
      | .spad c k => { u with spad := u.spad.store (c * 2 ^ 20 + k) o.n v }
    let holds := fun (t u : State) => t.mem = u.mem ∧ t.spad = u.spad
    let old := BitVec.ofNat 64 (nat s)
    let done := fun (t : State) => t.homeOps = [] ∧ (t.warp o.warp).irr = wp.irr - 1 ∧ (t.warp o.warp).regs = wp.regs ∧
      (∃ q, (t.warp o.warp).results = [q] ∧ q.vals.find o.lane = some (old.setWidth 128)) ∧
      match o.fn.result old o.b o.c with
      | some v => holds t (put s v.toNat)
      | none => holds t s
    (s.homeOps = [o] → Completes (.homeAtomic o.loc.line) s done ∧ Completes (.homeWritePerform o.loc.line) s done) ∧
    (∀ q op ty, s.homeOps = [o, q] → o.mates q = true → q.va = o.va → o.lane ≠ q.lane → q.n = o.n → o.fn = .red op ty → q.lane < 64 →
      r.lanes.getLsbD q.lane = true → (∀ l, s.xlatOf o.warp l o.va = none) →
      let one := put s (atomValue op ty old o.b).toNat
      let mid := BitVec.ofNat 64 (nat one)
      Completes (.homeAtomic o.loc.line) s fun t => t.homeOps = [] ∧ (t.warp o.warp).irr = wp.irr - 1 - 1 ∧
        holds t (put one (atomValue op ty mid q.b).toNat) ∧
        ∃ x, (t.warp o.warp).results = [x] ∧ x.vals.find o.lane = some (old.setWidth 128) ∧ x.vals.find q.lane = some (mid.setWidth 128))) ∧
  (∀ (s : State) (line : Nat) (o : HomeOp), (∀ c, o.fn ≠ .claim c) → s.leaseFree line = true →
    s.homeOps.find? (fun x => s.atHome line x && s.favoured x) = some o ∨
      ((∀ x ∈ s.homeOps, s.atHome line x = true → s.favoured x = false) ∧ s.homeOps.find? (s.atHome line) = some o) →
    s.outOfTurn o = false → s.opClassWaits o = false →
    Completes (.homeAtomic line) s fun t => t = (s.homeOps.filter o.mates).foldl State.performOp s)

/-- `EXIT` ends the executing lanes' threads, and changes no register and no memory (R118). The first arrivals at a barrier open its instance; when
nothing more is missing, it completes and its lanes go on; the lanes of `DRAIN` wait until the warp slot has drained, and arrive then (R34, R35,
R229, R230). Rests on the model's choices of log entry 4. -/
def Obligations.ThreadsAndBarriers : Prop :=
  (∀ (s : State) (p : Pre),
    let wp := s.curWarp
    let m := wp.execMask p
    Completes (.exit p) s fun t => t.curWarp.live = wp.live &&& ~~~m ∧ t.curWarp.regs = wp.regs ∧ t.curWarp.preds = wp.preds ∧
      t.spad = s.spad ∧ ((∀ b ∈ s.bars, b.saved = none) → t.mem = s.mem) ∧ (s.bars = [] → (∀ g ∈ wp.segs, g.cause = none ∧ g.queue = []) → t.apart s.cur = s.apart s.cur) ∧
      (s.bars = [] → ∀ g ∈ t.curWarp.segs, ∃ h ∈ wp.segs, g.lbase = h.lbase ∧ g.lmask = h.lmask &&& ~~~(h.rel m) ∧ g.lpark = h.lpark &&& ~~~(h.rel m))) ∧
  (∀ (s : State) (p : Pre) (lvl : Level) (a : Reg) (g : Seg) (x : Group),
    let wp := s.curWarp
    let m := wp.execMask p
    let wide := lvl == .lane || lvl == .pod
    let opened := fun (mask : Mask) (m : Mask) => (⟨lvl, mask, s.barUnit lvl g.gid g.idx, x.place lvl, (lanesOf (g.rel m)).map fun l => (g.gid, g.idx, l), [],
      none, false, s.now, false, 0, none⟩ : Bar)
    (∀ k, Alone s g m → g.lead m = some k → wp.mayAct = true → s.syncFault g m lvl wide a = none →
      let mask := levelTrim lvl g.width (wp.val wide a k)
      let b := opened mask m
      (s.group g.gid = some x → s.bars = [] → s.barComplete b = false → Completes (.sync p lvl a) s fun t => t.bars = [b] ∧
        t.curWarp.regs = wp.regs ∧ t.mem = s.mem ∧ ∀ l, m.getLsbD l = true → (t.curWarp.holds.find l).map LaneHold.kind = some .sync) ∧
      (s.group g.gid = some x → s.bars = [] → s.barComplete b = true → Completes (.sync p lvl a) s fun t => t.bars = [] ∧
        t.curWarp.regs = wp.regs ∧ t.mem = s.mem) ∧
      Completes (.drain p lvl a) s fun t => t.bars = s.bars ∧ t.curWarp.regs = wp.regs ∧ t.mem = s.mem ∧
        ∀ l, m.getLsbD l = true → (t.curWarp.holds.find l).map (fun h => (h.kind, h.last)) = some (.drain, mask)) ∧
    (∀ w, s.drained w = false → Completes (.drainArrival w) s fun t => t = s) ∧
    (∀ w h,
      let waits := (s.warp w).drainWaits s.now
      let mw := waits.foldl (fun m q => m ||| laneBit q.1) 0
      s.drained w = true → waits ≠ [] → (∀ q ∈ waits, q.2 = h ∧ g.hasLane q.1 = true) → (s.warp w).segsIn mw = [g] →
      decodeAlone h.word = .ok (.drain p lvl a) → s.group g.gid = some x → s.bars = [] → Completes (.drainArrival w) s fun t =>
        t.bars = (if s.barComplete (opened h.last mw) then [] else [opened h.last mw]) ∧ (t.warp w).regs = (s.warp w).regs ∧ t.mem = s.mem))

/-- A queue gives its entries back in the order in which they were pushed, and counts them (R222, R223). `QPUSH`, `QPOP` and `QTRY` in one segment
(R223): what they do to the queue and what comes back; a full or an empty queue holds the slot. -/
def Obligations.GroupQueues : Prop :=
  (∀ (q : Queue) (i j : Nat) (v u : Word),
    q.entries.length = 64 → q.owners.length = 64 → q.head < 64 → q.tail = (q.head + q.count) % 64 → q.count + 2 ≤ 64 →
    (q.count = 0 → ((q.push i v).push j u).front = v ∧ (((q.push i v).push j u).pop).front = u) ∧
    (q.push i v).count = q.count + 1 ∧ (0 < q.count → (q.push i v).front = q.front ∧ q.pop.count + 1 = q.count) ∧
    (q.push i v).tail = ((q.push i v).head + (q.push i v).count) % 64 ∧ (0 < q.count → q.pop.tail = (q.pop.head + q.pop.count) % 64)) ∧
  (∀ (s : State) (p : Pre) (d a b c : Reg) (g : Seg) (k : Nat) (q : Queue) (cl : Clause),
    let wp := s.curWarp
    let m := wp.execMask p
    let n := (wp.val32 b k).toNat
    Alone s g m → g.lead m = some k → wp.mayAct = true → wp.quCnt < 63 → wp.clause = some cl → cl.turns = 0 → cl.resId = 0 →
    (wp.results.any fun r => r.id == wp.nextId + 1) = false →
    s.queueFault g m b = none → s.queue g.gid n = some q →
    let same := fun (t : State) => t.mem = s.mem ∧ t.spad = s.spad ∧ t.curWarp.regs = wp.regs ∧ t.curWarp.preds = wp.preds ∧ t.curWarp.pcs = wp.pcs
    let held := fun (t : State) => same t ∧ (t.curWarp.clause.bind Clause.held) = some .queue ∧ s.queue g.gid n = t.queue g.gid n
    (q.canPush g.idx = true → Completes (.qpush p a b) s fun t => same t ∧ t.curWarp.quCnt = wp.quCnt + 1 ∧
      t.queue g.gid n = some (q.push g.idx (wp.val32 a k))) ∧
    (q.canPush g.idx = false → Completes (.qpush p a b) s held) ∧
    (q.count ≠ 0 → Completes (.qpop p d b) s fun t => same t ∧ t.curWarp.quCnt = wp.quCnt + 1 ∧ t.queue g.gid n = some q.pop ∧
      ∃ r, t.curWarp.results = wp.results ++ [r] ∧ r.dst = d ∧ r.lanes = m ∧ r.words = 1 ∧
        ∀ l, m.getLsbD l = true → r.vals.find l = some (q.front.setWidth 128)) ∧
    (q.count = 0 → Completes (.qpop p d b) s held) ∧
    (q.canPush g.idx = true → Completes (.qtry p false a b c) s fun t => same t ∧ t.curWarp.quCnt = wp.quCnt + 1 ∧
      t.queue g.gid n = some (q.push g.idx (wp.val32 a k)) ∧ ∃ r, t.curWarp.results = wp.results ++ [r] ∧ r.pmask = m ∧ r.pbits = m) ∧
    (q.canPush g.idx = false → Completes (.qtry p false a b c) s fun t => same t ∧ t.queue g.gid n = some q ∧
      ∃ r, t.curWarp.results = wp.results ++ [r] ∧ r.pmask = m ∧ r.pbits = 0) ∧
    (q.count ≠ 0 → Completes (.qtry p true a b c) s fun t => same t ∧ t.queue g.gid n = some q.pop ∧
      ∃ r, t.curWarp.results = wp.results ++ [r] ∧ r.dst = a ∧ r.pmask = m ∧ r.pbits = m ∧ ∀ l, m.getLsbD l = true → r.vals.find l = some (q.front.setWidth 128)) ∧
    (q.count = 0 → Completes (.qtry p true a b c) s fun t => same t ∧ t.queue g.gid n = some q ∧
      ∃ r, t.curWarp.results = wp.results ++ [r] ∧ r.lanes = 0 ∧ r.pmask = m ∧ r.pbits = 0))

/-- `ENQ` in worker mode and `DEQ`, of one lane (R225 to R227): the task stands behind the ready ones; the best of them comes out, and from a closed
and empty queue the words that say so. Rests on the model's choices of log entry 30. -/
def Obligations.TaskQueues : Prop :=
  ∀ (s : State) (p : Pre) (d a b : Reg) (g : Seg) (k key : Nat) (q : TaskQ) (cl : Clause),
    let wp := s.curWarp
    let m := wp.execMask p
    let id := wp.val32 b k
    Alone s g m → m = laneBit k → g.lead m = some k → wp.mayAct = true → wp.clause = some cl → cl.turns = 0 → cl.resId = 0 →
    (wp.results.any fun r => r.id == wp.nextId + 1) = false → s.taskq id = some (key, q) →
    let same := fun (t : State) => t.mem = s.mem ∧ t.curWarp.regs = wp.regs ∧ t.curWarp.preds = wp.preds ∧ t.curWarp.pcs = wp.pcs
    (∀ r, wp.stCnt < 63 → q.worker = true → s.enqErr s.cur k (wp.val64 a k) id = none → s.taskCount key < q.cap →
      s.readStruct s.cur k (wp.val64 a k) = .ok r → (taskOf r 0 0).dcw = noCtr →
      (s.okPlace s.cur k .load 64 (wp.val64 a k)).xlat = none →
      Completes (.enq p a b) s fun t => same t ∧ t.curWarp.stCnt = wp.stCnt + 1 ∧ t.taskqs.find key = some { q with
        ready := q.ready ++ [{ taskOf r (s.laneAsker s.cur k).ctx (s.laneAsker s.cur k).fn with order := s.nextNo }] }) ∧
    (∀ y, wp.quCnt < 63 → q.worker = true → s.deqFault g m b = none → bestTask q.ready = some y →
      Completes (.deq p d b) s fun t => same t ∧ t.curWarp.quCnt = wp.quCnt + 1 ∧ t.taskqs.find key = some { q with ready := q.ready.erase y } ∧
        ∃ r, t.curWarp.results = wp.results ++ [r] ∧ r.dst = d ∧ r.words = 4 ∧ r.vals.find k = some (y.dcdone ++ y.tag ++ y.args)) ∧
    (wp.quCnt < 63 → s.deqFault g m b = none → q.ready = [] → q.closed = true → Completes (.deq p d b) s fun t => same t ∧
      t.curWarp.quCnt = wp.quCnt + 1 ∧ t.taskqs = s.taskqs ∧ ∃ r, t.curWarp.results = wp.results ++ [r] ∧ r.dst = d ∧ r.vals.find k = some closedWords) ∧
    (wp.quCnt < 63 → s.deqFault g m b = none → q.ready = [] → q.closed = false → q.set = none → Completes (.deq p d b) s fun t => same t ∧
      (t.curWarp.clause.bind Clause.held) = some .queue ∧ t.taskqs = s.taskqs)

/-- `DCSET`, `DCADD` and `DCDEC` once the warp may act (R228, R363): every executing lane acts, in ascending order, whatever counters the lanes
name, and the values that a counter takes follow each other; at 0 the tasks that wait on it become ready, those of a worker queue behind its
ready ones in the order of their `ENQ`. A lane whose result would leave 0 to 2^32 − 1 is not performed and joins the mask of `DCNT_RANGE`; the
others are done. -/
def Obligations.DependenceCounters : Prop :=
  (∀ (s : State) (p : Pre) (a b : Reg) (g : Seg),
    let wp := s.curWarp
    let m := wp.execMask p
    let mine := fun key : Nat => (lanesOf m).filter fun l => ctrKey (wp.val32 a l) == some key
    let sum := fun (key : Nat) (c : DepCtr) (n : Nat) => (c.val.toNat : Int) + (((mine key).take n).map fun l => (wp.val32 b l).toInt).sum
    Alone s g m → m ≠ 0 → wp.mayAct = true → wp.stCnt < 63 → (∀ l, m.getLsbD l = true → (s.depctr (wp.val32 a l)).isSome = true) →
    let runs := fun (i : Instr) (vals : Nat → DepCtr → List Word) => Completes i s fun t => t.mem = s.mem ∧ t.spad = s.spad ∧
      t.curWarp.regs = wp.regs ∧ t.curWarp.preds = wp.preds ∧ t.curWarp.pcs = wp.pcs ∧ t.curWarp.stCnt = wp.stCnt + 1 ∧
      (∀ key c, s.depctrs.find key = some c → t.depctrs.find key =
        some ⟨(vals key c).getLast?.getD c.val, if (0 : Word) ∈ vals key c then [] else c.waiting⟩) ∧
      ((∀ key c, s.depctrs.find key = some c → (0 : Word) ∈ vals key c → c.waiting = []) → t.taskqs = s.taskqs ∧ t.intake = s.intake)
    runs (.dcset p a b) (fun key _ => (mine key).map fun l => wp.val32 b l) ∧
    ((∀ key c n, s.depctrs.find key = some c → n ≤ (mine key).length → 0 ≤ sum key c n ∧ sum key c n < 2 ^ 32) →
      runs (.dcadd p a b) fun key c => (List.range (mine key).length).map fun n => BitVec.ofInt 32 (sum key c (n + 1))) ∧
    ((∀ key c, s.depctrs.find key = some c → (mine key).length ≤ c.val.toNat) →
      runs (.dcdec p a) fun key c => (List.range (mine key).length).map fun n => c.val - BitVec.ofNat 32 (n + 1))) ∧
  (∀ (s : State) (p : Pre) (a b : Reg) (g : Seg) (k key kq : Nat) (c : DepCtr) (q : TaskQ),
    let wp := s.curWarp
    let m := wp.execMask p
    let v := wp.val32 b k
    let sum : Int := (c.val.toNat : Int) + v.toInt
    Alone s g m → m = laneBit k → g.lead m = some k → wp.mayAct = true → wp.stCnt < 63 → s.depctr (wp.val32 a k) = some (key, c) →
    (s.taskqs.find kq = some q → q.worker = true → c.waiting.map Prod.fst = c.waiting.map (fun _ => kq) →
      let released := fun (t : State) => t.depctrs.find key = some ⟨0, []⟩ ∧ t.intake = s.intake ∧ (c.waiting ≠ [] → t.taskqs.find kq =
        some { q with ready := q.ready ++ c.waiting.zipIdx.map fun x => { x.1.2 with order := s.nextNo + x.2 } })
      (v = 0 → Completes (.dcset p a b) s released) ∧ (sum = 0 → Completes (.dcadd p a b) s released) ∧
      (c.val = 1 → Completes (.dcdec p a) s released)) ∧
    (g.record = none → g.handler = 0 →
      (sum < 0 ∨ 2 ^ 32 ≤ sum → Completes (.dcadd p a b) s fun t => Traps s t g m 0x47 fun x => x.detail = c.val) ∧
      (c.val = 0 → Completes (.dcdec p a) s fun t => Traps s t g m 0x47 fun x => x.detail = 0))) ∧
  (∀ (s : State) (p : Pre) (a : Reg) (g : Seg) (key : Nat) (c : DepCtr),
    let wp := s.curWarp
    let m := wp.execMask p
    let bad := maskWhere fun l => m.getLsbD l && decide (c.val.toNat ≤ ((lanesOf m).filter fun j => decide (j < l)).length)
    Alone s g m → wp.mayAct = true → wp.stCnt < 63 → (∀ l, m.getLsbD l = true → s.depctr (wp.val32 a l) = some (key, c)) →
    c.waiting = [] → c.val ≠ 0 → c.val.toNat < (lanesOf m).length → g.record = none → g.handler = 0 →
    Completes (.dcdec p a) s fun t => Traps { s with depctrs := s.depctrs.put key ⟨0, []⟩ } t g bad 0x47 fun x =>
      x.detail = 0 ∧ x.done = g.rel (wp.clauseAt.lanes &&& ~~~bad))

/-- `GMAKE`, `GFREE`, `GDET` and `GATT` in one segment at the directory entry (R186, R188 to R190, R193, R232): each once the warp may act; what each
leaves at the entry and at the group, and what `GATT` returns to every executing lane; an operation that waits joins the entry and holds its
slot. What the illegal combinations raise (R188). Whose turn it is among the operations that wait, and whose core is filled, rest on log entry 33;
the place of a fill on log entry 34; the rest on log entry 35. -/
def Obligations.GalleryInstructions : Prop :=
  ∀ (s : State) (p : Pre) (d a b c : Reg) (g : Seg) (k n : Nat) (e : Gal) (x : Group) (cl : Clause),
    let wp := s.curWarp
    let m := wp.execMask p
    let core := coreOf s.cur
    let name := wp.val64 a k
    let ctx := s.ctxOf g.gid
    Alone s g m → g.lead m = some k → wp.mayAct = true → wp.clause = some cl → cl.turns = 0 → name ≠ 0 → wp.unifFault g m [(5, true, a)] = none →
    s.group g.gid = some x →
    let same := fun (t : State) => t.mem = s.mem ∧ t.spad = s.spad ∧ t.curWarp.regs = wp.regs ∧ t.curWarp.preds = wp.preds ∧ t.curWarp.pcs = wp.pcs
    let stored := fun (t : State) => same t ∧ t.curWarp.stCnt = wp.stCnt + 1
    let waits := fun (t : State) => same t ∧ (t.curWarp.clause.bind Clause.held) = some .gallery ∧ t.curWarp.stCnt = wp.stCnt ∧
      t.curWarp.ldCnt = wp.ldCnt ∧ t.groups = s.groups
    let raises := fun (i : Instr) (code : Nat) => g.record = none → g.handler = 0 → Completes i s fun t =>
      Traps (s.dropWaits s.cur g.lbase) t g m code fun y => y.detail = loWord name
    let joins := fun (e : Gal) (free : Bool) => { e with waiters := e.waiters ++ [(s.cur, g.lbase, free)] }
    (wp.stCnt < 63 →
      (let size := (wp.val32 c k).toNat
       let back := wp.val64 b k
       s.findGal ctx name = none → wp.unifFault g m [(5, true, a), (6, true, b), (7, false, c)] = none → 1 ≤ size → size ≤ 48 →
       back.toNat % 16384 = 0 → (s.gals.filter fun q => q.2.ctx == ctx).length < 256 →
       (∀ q ∈ s.gals, q.2.ctx = ctx → q.2.back.toNat + q.2.size * 16384 ≤ back.toNat ∨ back.toNat + size * 16384 ≤ q.2.back.toNat) →
       Completes (.gmake p a b c) s fun t => stored t ∧
         t.gals = s.gals.put s.nextNo ⟨ctx, name, size, back, 0, 0, .evicted, 0, 0, [], none, 0, 0⟩) ∧
      (s.findGal ctx name = some (n, e) → s.gals.find n = some e →
        (e.acnt = 0 → e.st = .resident ∨ e.st = .evicted → s.overtakes e s.cur g.lbase = false → Completes (.gfree p a) s fun t =>
          stored t ∧ t.gals = s.gals.del n) ∧
        (e.st = .filling ∨ e.st = .writingBack ∨ s.overtakes e s.cur g.lbase = true → (s.cur, g.lbase, true) ∉ e.waiters →
          Completes (.gfree p a) s fun t => waits t ∧ t.gals = s.gals.put n (joins e true)) ∧
        (e.acnt ≠ 0 → e.st = .resident ∨ e.st = .evicted → s.overtakes e s.cur g.lbase = false → raises (.gfree p a) 0x5D) ∧
        (∀ v, (x.gals.find? fun y => y.1 == name) = some (name, v) →
          (e.st ≠ .resident ∨ s.accessPending g.gid e.core (e.sbase * 16384) (e.size * 16384) v = false → Completes (.gdet p a) s fun t => stored t ∧
            t.group g.gid = some { x with gals := x.gals.filter fun y => y.1 != name } ∧ t.gals = s.gals.put n { e with
              acnt := e.acnt - 1, seq := if e.acnt = 1 then e.seq + 1 else e.seq, detached := if e.acnt = 1 then s.nextNo else e.detached }) ∧
          (e.st = .resident → s.accessPending g.gid e.core (e.sbase * 16384) (e.size * 16384) v = true → Completes (.gdet p a) s fun t =>
            waits t ∧ t.gals = s.gals))) ∧
      (s.findGal ctx name = none → raises (.gfree p a) 0x5B) ∧
      ((x.gals.any fun y => y.1 == name) = false → raises (.gdet p a) 0x5E)) ∧
    (wp.ldCnt < 63 → s.findGal ctx name = none → raises (.gatt p d a) 0x5B) ∧
    (wp.ldCnt < 63 → s.findGal ctx name = some (n, e) → s.gals.find n = some e →
      ((x.gals.any fun y => y.1 == name) = false → s.attWaits g x e = false → 8 ≤ x.gals.length ∨ s.viewOffset x ctx e.size = none →
        raises (.gatt p d a) 0x63) ∧
      (cl.resId = 0 → (wp.results.any fun r => r.id == wp.nextId + 1) = false →
        let left := fun (e : Gal) => { e with waiters := e.waiters.filter fun y => !(y.1 == s.cur && y.2.1 == g.lbase) }
        let gives := fun (t : State) (v : Nat) => same t ∧ t.curWarp.ldCnt = wp.ldCnt + 1 ∧ ∃ r, t.curWarp.results = wp.results ++ [r] ∧ r.dst = d ∧
          r.words = 2 ∧ r.lanes = m ∧ ∀ l, m.getLsbD l = true → r.vals.find l = some ((e.seq ++ BitVec.ofNat 32 v : BitVec 64).setWidth 128)
        (∀ v, (x.gals.find? fun y => y.1 == name) = some (name, v) → e.st = .resident → e.core = core → Completes (.gatt p d a) s fun t => gives t v ∧
          t.groups = s.groups ∧ t.gals = s.gals.put n (left e)) ∧
        ((x.gals.any fun y => y.1 == name) = false → x.gals.length < 8 → ∀ v, s.viewOffset x ctx e.size = some v →
          s.overtakes e s.cur g.lbase = false →
          (e.st = .resident → e.core = core → e.acnt ≠ 0xFFFF_FFFF#32 → Completes (.gatt p d a) s fun t => gives t (v * 16384) ∧
            t.group g.gid = some { x with gals := x.gals ++ [(name, v * 16384)] } ∧ t.gals = s.gals.put n (left { e with acnt := e.acnt + 1 })) ∧
          ((s.cur, g.lbase, false) ∉ e.waiters →
            (∀ base, e.st = .evicted → freeRange (s.spadUsed core []) e.size = some base → (s.gals.filter fun q => q.2.onCore core).length < 8 →
              Completes (.gatt p d a) s fun t => waits t ∧
                t.gals = s.gals.put n (joins { e with st := .filling, core := core, sbase := base, target := none } false)) ∧
            (e.st = .resident → e.core ≠ core → e.acnt = 0 → Completes (.gatt p d a) s fun t => waits t ∧
              t.gals = s.gals.put n (joins { e with st := .writingBack, target := some core } false)) ∧
            (e.st = .filling ∨ e.st = .writingBack ∨ (e.st = .resident ∧ e.core ≠ core ∧ e.acnt ≠ 0) ∨
                (e.st = .resident ∧ e.core = core ∧ e.acnt = 0xFFFF_FFFF#32) ∨ (e.st = .evicted ∧ s.evictPlan core e.size true = none) →
              Completes (.gatt p d a) s fun t => waits t ∧ t.gals = s.gals.put n (joins e false))))))

/-- A fill stands once the backing region can be read, and an attach that waited there returns with its group attached (R188, R189). A write-back
puts the bytes into the backing region once it has its lines, releases the space, and a migration goes on (R188, R191). A gallery that no placed
group holds gives way to a fill that needs its space (R193). A fill or a write-back that faults is held and posted with its identifier and
backing address (R400). Whose turn a migration's next fill is rests on log entry 33; that an event whose condition fails changes nothing, on log
entry 4; the rest on log entry 21. -/
def Obligations.GalleryMoves : Prop :=
  ∀ (s : State) (n : Nat) (e : Gal) (ps : List Piece) (x : XErr),
    s.gals.find n = some e →
    let fn := ((s.ctxs.find e.ctx).map Ctx.fn).getD 0
    let stays := fun (i : Instr) => Completes i s fun t => t = s
    (e.st = .filling → e.hid = 0 → s.backing e .load = .ok ps →
      (s.piecesReadable (e.core / 256) ps = false → stays (.galleryFillComplete n)) ∧
      (s.piecesReadable (e.core / 256) ps = true →
        let stands := fun (t : State) => t.spad = s.spad.putAll (e.core * 2 ^ 20 + e.sbase * 16384) (s.pieceBytes ps)
        ((∀ y ∈ e.waiters, y.2.2 = true ∨ coreOf y.1 ≠ e.core) → Completes (.galleryFillComplete n) s fun t => stands t ∧ t.groups = s.groups ∧
          t.gals = s.gals.put n { e with st := .resident, waiters := e.waiters }) ∧
        ∀ w lb g y v, e.waiters = [(w, lb, false)] → coreOf w = e.core → (s.warp w).segAt lb = some g → s.group g.gid = some y →
          (y.gals.any fun z => z.1 == e.name) = false → y.gals.length < 8 → s.viewOffset y e.ctx e.size = some v →
          Completes (.galleryFillComplete n) s fun t => stands t ∧ t.group g.gid = some { y with gals := y.gals ++ [(e.name, v * 16384)] } ∧
            t.gals = s.gals.put n { e with st := .resident, waiters := [], acnt := e.acnt + 1 })) ∧
    (e.st = .writingBack → e.hid = 0 → s.backing e .store = .ok ps →
      (∀ l ∈ pieceLines ps, s.lineReady l = true ∧ s.wrapHeld (e.core / 256) (.hbm (l * 128)) = false) →
      let free := { s with gals := s.gals.put n { e with st := .evicted, core := 0, sbase := 0, target := none } }
      Completes (.galleryWritebackComplete n) s fun t => (e.target = none → t.gals = free.gals) ∧
        (∀ c, e.target = some c → t.gals = (free.wantOn n c).gals) ∧
        ∀ va size pa xl, ps = [⟨va, size, .hbm pa, xl⟩] → t.spad = s.spad ∧ ∀ a, ¬Xlat.leafByte xl a → t.mem.byte a =
          (s.mem.putAll pa ((s.spad.bytes (e.core * 2 ^ 20 + e.sbase * 16384) (e.size * 16384)).take size)).byte a) ∧
    (e.st = .resident → s.wantsSpace n e.core = true → Completes (.galleryEviction n) s fun t =>
      t = { s with gals := s.gals.put n { e with st := .writingBack } }) ∧
    (e.st ≠ .resident ∨ s.wantsSpace n e.core = false → stays (.galleryEviction n)) ∧
    (let u := s.met ⟨galleryAgent (e.core / 256), e.ctx, fn, true, true⟩ x x.addr
     let held := fun (code : Nat) (t : State) => t =
      ({ u with holds := s.holds ++ [(freeHold s.holds, fn, .gallery n)], gals := s.gals.put n { e with hid := freeHold s.holds } } : State).post code
        { addr := e.back, hold := freeHold s.holds, detail := x.detail, fn := fn, ctx := e.ctx, die := e.core / 256, core := e.core % 256 }
     (e.st = .filling → e.hid = 0 → s.backing e .load = .error x → Completes (.galleryFillFault n) s (held 0x65)) ∧
     (e.st = .writingBack → e.hid = 0 → s.backing e .store = .error x → Completes (.galleryWbFault n) s (held 0x66))) ∧
    (e.st ≠ .filling ∨ e.hid ≠ 0 → stays (.galleryFillComplete n) ∧ stays (.galleryFillFault n)) ∧
    (e.st ≠ .writingBack ∨ e.hid ≠ 0 → stays (.galleryWritebackComplete n) ∧ stays (.galleryWbFault n))

/-- A signature binds a free landing of the core with the operands that all lanes of the segment share, and holds each lane's scales (R238, R239); a
segment narrower than 64 lanes raises `LAND_WIDTH` (R368). Outside a window, this is where no complete landing waits to issue on the tile (R244).
Rests on the model's choices of log entry 42. -/
def Obligations.Signatures : Prop :=
  ∀ (s : State) (p : Pre) (n : BitVec 3) (tile : Bool) (sel : BitVec 2) (a b c k : Reg) (g : Seg) (l : Nat),
    let wp := s.curWarp
    let m := wp.execMask p
    let core := coreOf s.cur
    let bit := if tile then 1 else 0
    Alone s g m → g.lead m = some l → wp.unifFault g m [(5, true, a), (6, true, b), (8, false, k)] = none →
    (s.landing core n.toNat).st = .free → (s.core core).landings.length = 8 →
    let good := g.width = 64 ∧ (s.tileOf g.gid bit).isSome = true ∧ (wp.val64 a l).toNat % 64 = 0 ∧ (wp.val64 b l).toNat % 64 = 0 ∧
      (wp.window = none → ∀ t0, s.tileOf g.gid bit = some t0 → s.landingNow core t0 = false)
    let out := fun (i : Instr) (cell : Nat) => Completes i s fun t => t.mem = s.mem ∧ t.curWarp.regs = wp.regs ∧ t.curWarp.preds = wp.preds ∧
      let d := t.landing core n.toNat
      d.st = .signing ∧ d.warp = s.cur ∧ d.lbase = g.lbase ∧ d.cell = cell ∧ d.tile = bit ∧ d.recA = wp.val64 a l ∧ d.recB = wp.val64 b l ∧
      d.koff = wp.val32 k l ∧ d.mask = g.rel wp.live ∧
      ∀ j, (g.slots &&& m).getLsbD j = true →
        d.signers.find (j - g.lbase) = some ⟨wp.groupWord c 0 j, wp.groupWord c 1 j, sel.toNat, wp.window.isNone, wp.nextId, false⟩
    let bad := fun (i : Instr) => g.width ≠ 64 → g.record = none → g.handler = 0 → Completes i s fun t =>
      Traps s t g m 0x3D fun x => x.detail = BitVec.ofNat 32 n.toNat
    (good → sel = 0 → out (.mmaQ4 p n tile sel a b c k) 0xC0) ∧ (good → sel.toNat ≤ 2 → out (.mmaE4m3 p n tile sel a b c k) 0xC1) ∧
    (good → sel.toNat ≤ 2 → out (.mmaE5m2 p n tile sel a b c k) 0xC2) ∧ (good → sel.toNat ≤ 2 → out (.mmaI8 p n tile sel a b c k) 0xC3) ∧
    (good → sel = 0 → out (.mmaH16 p n tile sel a b c k) 0xC4) ∧
    bad (.mmaQ4 p n tile sel a b c k) ∧ bad (.mmaE4m3 p n tile sel a b c k) ∧ bad (.mmaE5m2 p n tile sel a b c k) ∧
    bad (.mmaI8 p n tile sel a b c k) ∧ bad (.mmaH16 p n tile sel a b c k)

/-- The accumulator instructions put their operations into the sequence of the group's tile, or into the window (R234, R244, R245); a tile that the
group does not hold raises `ACC_NOT_HELD`, a row above 63 `ACC_ROW` (R368). All of this where no complete landing of the warp still waits to issue
on the tile (R239). Rests on the model's choices of log entries 42, 84. -/
def Obligations.Accumulators : Prop :=
  ∀ (s : State) (p : Pre) (ty : Ty) (d a b c : Reg) (g : Seg) (l t0 : Nat),
    let wp := s.curWarp
    let m := wp.execMask p
    let core := coreOf s.cur
    let row := (wp.val32 b l).toNat
    let bit := (wp.val32 a l).toNat % 2
    let val := fun j => (List.range 8).foldl (fun (v : BitVec 256) k => v ||| ((wp.groupWord c k j).setWidth 256 <<< (32 * k))) 0
    Alone s g m → g.lead m = some l → wp.unifFault g m [(5, false, a)] = none → wp.unifFault g m [(5, false, a), (6, false, b)] = none →
    let same := fun (t : State) => t.mem = s.mem ∧ t.curWarp.regs = wp.regs ∧ t.curWarp.preds = wp.preds
    let joins := fun (t : State) (op : TileOp) => same t ∧ t.tile core t0 = { s.tile core t0 with seq := (s.tile core t0).seq ++ [op] }
    let write := TileOp.write row ((lanesOf (g.slots &&& m)).map fun j => (j, val j))
    (s.tileOf g.gid bit = some t0 → t0 < (s.core core).tiles.length → s.landingDue s.cur t0 = false →
      (wp.window = none → Completes (.accz p a) s fun t => joins t .zero) ∧
      (wp.window = none → row ≤ 63 → Completes (.accwr p a b c) s fun t => joins t write) ∧
      (row ≤ 63 → wp.ldCnt < 63 → s.tileBusy s.cur t0 = false → Completes (.accrd p ty d a b) s fun t => t.curWarp.ldCnt = wp.ldCnt + 1 ∧
        joins t (.read s.cur (wp.nextId + 1) row (g.slots &&& m) ty)) ∧
      (∀ x, wp.window = some x → Completes (.accz p a) s fun t => same t ∧ t.cores = s.cores ∧
        (t.curWarp.window.map Window.tileOps) = some (x.tileOps ++ [(t0, .zero)])) ∧
      (∀ x, wp.window = some x → row ≤ 63 → Completes (.accwr p a b c) s fun t => same t ∧ t.cores = s.cores ∧
        (t.curWarp.window.map Window.tileOps) = some (x.tileOps ++ [(t0, write)]))) ∧
    (s.tileOf g.gid bit = none → g.record = none → g.handler = 0 →
      (Completes (.accz p a) s fun t => Traps s t g m 0x3F fun x => x.detail = BitVec.ofNat 32 (bit + 5 * 256)) ∧
      Completes (.accwr p a b c) s fun t => Traps s t g m 0x3F fun x => x.detail = BitVec.ofNat 32 (bit + 5 * 256)) ∧
    (s.tileOf g.gid bit = some t0 → s.landingDue s.cur t0 = false → 63 < row → g.record = none → g.handler = 0 → Completes (.accwr p a b c) s fun t =>
      Traps s t g m 0x40 fun x => x.detail = BitVec.ofNat 32 (bit + 6 * 256))

/-- The head of a tile's sequence takes its effect: zeroing, a row written, a row read out, an operation on every element of its lanes once it has
read its operands and no operation of the core was issued before it (R107, R109, R111, R242 to R245). A complete landing behind no other of its
tile gives its operation to the tile of its group, and is free (R239, R244); the members of a gang issue together (R240). Rests on the model's
choices of log entry 91. -/
def Obligations.LandingsAndTiles : Prop :=
  (∀ (s : State) (core t0 : Nat) (rest : List TileOp),
    let y := s.tile core t0
    t0 < (s.core core).tiles.length →
    (y.seq = .zero :: rest → Completes (.mmaTileWrite core t0) s fun t => (t.tile core t0).seq = rest ∧ ∀ i j, (t.tile core t0).elem i j = Acc.zero) ∧
    (∀ row cols, y.seq = .write row cols :: rest → cols.Pairwise (fun x z => x.1 ≠ z.1) → (∀ q ∈ cols, q.1 < 64) →
      Completes (.mmaTileWrite core t0) s fun t => (t.tile core t0).seq = rest ∧
        (∀ j v, (j, v) ∈ cols → (t.tile core t0).elem row j = ⟨v, false, false, false, false⟩) ∧
        ∀ i j, i ≠ row → j < 64 → (t.tile core t0).elem i j = y.elem i j) ∧
    (∀ w id row m ty r, y.seq = .read w id row m ty :: rest → (s.warp w).results = [r] → r.id = id → r.lanes = m →
      Completes (.mmaTileWrite core t0) s fun t => (t.tile core t0) = { y with seq := rest } ∧
        ∃ q, (t.warp w).results = [q] ∧ ∀ l, m.getLsbD l = true → q.vals.find l = some (((y.elem row l).readOut ty).1.setWidth 128)) ∧
    (∀ op, y.seq = .mma op :: rest → s.opStale op = false → op.next = .full → s.opFirst core op = true →
      Completes (.mmaTileWrite core t0) s fun t => (t.tile core t0).seq = rest ∧ t.mem = s.mem ∧
        ∀ i j, j < 64 → (t.tile core t0).elem i j = if op.mask.getLsbD i && op.mask.getLsbD j then
          op.element (y.elem i j) i j ((op.panel false).getD i []) ((op.panel true).getD j []) else y.elem i j) ∧
    (∀ op l k va n q, y.seq = .mma op :: rest → s.opStale op = false → op.next = .reads l → s.tileReads core t0 = [(op, .line k va n)] →
      s.opPieces core op (.line k va n) = .ok [q] → q.xlat = none → s.piecePoison [q] = none →
      Completes (.mmaTileWrite core t0) s fun t => t.mem = s.mem ∧ t.spad = s.spad ∧ (∀ i j, (t.tile core t0).elem i j = y.elem i j) ∧
        ∃ bad tail, (t.tile core t0).seq = .mma { op with got := op.got.put k (s.pieceBytes [q], bad) } :: tail) ∧
    (∀ op l, y.seq = .mma op :: rest → s.opStale op = false → op.next = .reads l → s.tileReads core t0 = [] →
      Completes (.mmaTileWrite core t0) s fun t => t = s)) ∧
  (∀ (s : State) (core n gid t0 : Nat) (d : Landing),
    let op : MmaOp := ⟨n, d.cell, d.recA, d.recB, d.koff, d.mask, d.signers, 0, 0, d.warp, d.lbase, gid, s.genOf gid, s.nextNo, [], []⟩
    s.landing core n = d → d.st = .complete → s.landingBehind core n = false → n < (s.core core).landings.length → s.landingGroup d = some gid → s.tileOf gid d.tile = some t0 →
    t0 < (s.core core).tiles.length → s.opsOf core n < 2 →
    let done := fun (t : State) => t.landing core n = Landing.reset ∧ t.mem = s.mem ∧ t.warps = s.warps ∧
      t.tile core t0 = { s.tile core t0 with seq := (s.tile core t0).seq ++ [.mma op] }
    (s.inGang gid = false → Completes (.landingIssue core n) s done) ∧
    (∀ u x, s.inGang gid = true → s.gangs u = [[(gid, x)]] → x.core = core → x.gmem = 0 → Completes (.gangLandingIssue u n) s done))

/-- `ECOPY`, `EGATH`, `ECOLL` and `QUANT` in one segment (R74, R206, R246): the sequence number goes to the register, one is counted, and the command
is deferred while a window is open, else released with its descriptor read; a full counter holds the slot, a misaligned descriptor raises
`STRUCT_MISALIGN` (R370). `EWAIT` holds its slot while a command that a segment's lead lane names is incomplete, and its return is a read event of each lead
lane (R57, R211, R252). A released command performs its events one at a time, each read before the writes that are computed from it (R200,
R210, R247); its token is set and its instruction's count falls with the last token (R74, R211). That an event whose condition fails changes
nothing rests on log entry 4, the choice of an engine on 36, the parts of a command that are one event on 90, the detail word 64 of a misaligned
descriptor on 107; the rest on log entries 21, 38, 80, 87, 88. -/
def Obligations.Engines : Prop :=
  (∀ (s : State) (p : Pre) (acq rel : Bool) (d a : Reg) (g : Seg) (l : Nat),
    let wp := s.curWarp
    let m := wp.execMask p
    let out := fun (i : Instr) (cell : Nat) =>
      let cmd : Cmd := ⟨cell, wp.engSeq + 1, s.cur, g.lbase, some g.gid, s.genOf g.gid, wp.val64 a l, none, acq, rel, .deferred, none, s.ctxOf g.gid,
        s.fnOf g.gid, dieOf s.cur, false, 0, s.now, s.nextNo, wp.nextId, g.slots &&& m, (wp.window.map fun x => x.evs.length).getD 0,
        wp.counts (g.slots &&& m) != 0, none, false, false, [], [], none, [], false⟩
      (wp.enCnt < 63 → (wp.val64 a l).toNat % 64 = 0 → (∀ q ∈ s.cmds, q.2.insn ≠ s.nextNo) → (wp.window = none → s.descWaits cmd = false) →
        Completes i s fun t => t.spad = s.spad ∧
        t.curWarp.preds = wp.preds ∧ t.curWarp.pcs = wp.pcs ∧ t.curWarp.engSeq = wp.engSeq + 1 ∧ t.nextNo = s.nextNo + 1 ∧
        (match d with
          | .v n => (∀ j, m.getLsbD j = true → (t.curWarp.reg n.toNat).word j = wp.engSeq + 1) ∧
              (∀ j, j ≠ n.toNat → t.curWarp.reg j = wp.reg j) ∧
              ∀ j, wp.live.getLsbD j = true → m.getLsbD j = false → (t.curWarp.reg n.toNat).word j = (wp.reg n.toNat).word j
          | _ => t.curWarp.regs = wp.regs) ∧
        ∃ c, t.cmds.find s.nextNo = some c ∧ { c with st := .deferred, image := none, token := false, spoiled := false } = cmd ∧
          (c.token = false → t.curWarp.enCnt = wp.enCnt + 1) ∧ (wp.window.isSome = true → c = cmd ∧ t.mem = s.mem) ∧
          (wp.window = none → c.st ≠ .deferred ∧ (c.token = true ↔ c.st = .moved) ∧
            ∀ x xl, s.place cmd.descAsker g.gid .load 64 (wp.val64 a l) = .ok ⟨x, xl⟩ → wp.sideLog = [] → x.plain →
              let image := BitVec.ofNat 512 (s.natAt x 64)
              c.image = some image ∧ c.spoiled = s.poisoned x 64 ∧ (c.st = .moved ↔ emptyCopy cell image = true) ∧
                ∀ b, ¬Xlat.leafByte xl b → t.mem.byte b = s.mem.byte b)) ∧
      (63 ≤ wp.enCnt → Completes i s fun t => t.apart s.cur = s.apart s.cur ∧ t.curWarp.regs = wp.regs ∧ t.curWarp.engSeq = wp.engSeq ∧
        (t.curWarp.clause.bind Clause.held) = some .counter) ∧
      (wp.enCnt < 63 → (wp.val64 a l).toNat % 64 ≠ 0 → g.record = none → g.handler = 0 → Completes i s fun t =>
        Traps s t g m 0x52 fun x => x.detail = 64)
    Alone s g m → g.lead m = some l → wp.unifFault g m [(5, true, a)] = none →
    out (.ecopy p acq rel d a) 0xD0 ∧ out (.egath p acq rel d a) 0xD1 ∧ out (.ecoll p acq rel d a) 0xD2 ∧ out (.quant p acq rel d a) 0xD4) ∧
  (∀ (s : State) (p : Pre) (a : Reg),
    let wp := s.curWarp
    let m := wp.execMask p
    let leads := (wp.segsIn m).filterMap fun g => g.lead m
    let due := leads.any fun l => s.cmds.any fun c => c.2.warp == s.cur && c.2.gid.isSome && c.2.seq == wp.val32 a l && !c.2.token
    let held := fun (why : HeldBy) (t : State) => t.apart s.cur = s.apart s.cur ∧ t.curWarp.regs = wp.regs ∧
      (t.curWarp.clause.bind Clause.held) = wp.clause.map fun _ => why
    (m = 0 → Completes (.ewait p a) s fun t => t = s) ∧
    (m ≠ 0 → due = true → Completes (.ewait p a) s (held .token)) ∧
    (m ≠ 0 → due = false → wp.hasRoom leads.length = false → Completes (.ewait p a) s (held .window)) ∧
    (m ≠ 0 → due = false → wp.hasRoom leads.length = true → s.solo s.cur = false → Completes (.ewait p a) s fun t => t.mem = s.mem ∧ t.spad = s.spad ∧
      (isPorter (coreOf s.cur) = false → t.apart s.cur = s.apart s.cur) ∧ t.curWarp.regs = wp.regs ∧ t.curWarp.preds = wp.preds ∧
      t.curWarp.pcs = wp.pcs ∧ t.curWarp.enCnt = wp.enCnt ∧
      (t.curWarp.window.map Window.evs) = some ((wp.window.map Window.evs).getD [] ++ leads.map WinEv.token))) ∧
  (∀ (s : State) (n e : Nat) (c : Cmd) (d : BitVec 512) (plan : Plan),
    s.cmds.find n = some c →
    let gid := c.gid.getD 0
    let same := fun (t : State) => t.mem = s.mem ∧ t.spad = s.spad
    let near := fun (xl : Option Xlat) (t : State) => t.spad = s.spad ∧ ∀ a, ¬Xlat.leafByte xl a → t.mem.byte a = s.mem.byte a
    (c.st ≠ .released ∨ s.cmdReach c = false → Completes (.engineCommandRun n) s fun t => t = s) ∧
    (c.st = .released → s.cmdReach c = true →
      (∀ x xl, c.image = none → s.place c.descAsker gid .load 64 c.desc = .ok ⟨x, xl⟩ → s.descFree c x = true → x.plain →
        (c.gid.isSome = true → (s.warp c.warp).sideLog = []) → d = BitVec.ofNat 512 (s.natAt x 64) → emptyCopy c.cell d = false →
        Completes (.engineCommandRun n) s fun t => near xl t ∧ t.cmds.find n = some { c with
          image := some d, spoiled := c.spoiled || s.poisoned x 64 }) ∧
      (c.image = some d → (c.cell = 0xD0 ∧ ∃ code, planCopy c d = .cause code) ∨ (c.cell = 0xD1 ∧ (gatherBad c d).isSome = true) ∨
          (c.cell = 0xD2 ∧ (s.collBad c d).isSome = true) ∨
          (c.cell = 0xD4 ∧ ((∃ code, planQuant c d = .cause code) ∨ ∃ a, planQuant c d = .misalign a)) →
        Completes (.engineCommandRun n) s fun t => same t ∧ t.cmds = s.cmds.del n) ∧
      (c.image = some d → (c.cell = 0xD0 ∧ planCopy c d = .plan plan) ∨ (c.cell = 0xD4 ∧ planQuant c d = .plan plan) ∨
          (c.cell = 0xD1 ∧ gatherBad c d = none ∧ ∃ bs, c.staged = some bs ∧
            plan = planGather d ((cutBytes (List.replicate (fieldN d 223 192) 4) bs).map natOfBytes) c.stagedBad) ∨
          (c.cell = 0xD2 ∧ s.collBad c d = none ∧ ∃ bs, c.staged = some bs ∧
            plan = Plan.toWrite (fieldN d 127 64, 4 * fieldN d 159 128) bs c.stagedBad) →
        s.acqReady c = true → s.engineFor n c d = some e →
        let c1 : Cmd := { c with eng := some e, judged := true }
        let reads := s.engUnits (c1.asker d) gid .load plan.reads fun k => (c.got.find k).isSome
        let writes := s.engUnits (c1.asker d) gid .store plan.writes c.wrote.contains
        let events := s.engEvents n (e / 16) plan reads writes
        let stands := fun (t : State) (y : Cmd) => t.cmds.find n =
          some { y with ready := y.hasRead plan, st := if y.hasRead plan && y.hasWritten plan then .moved else .released }
        c.judged = true ∨ s.engJudge (c1.asker d) gid plan.reads plan.writes = none →
        (∀ x ∈ plan.writable reads writes, ∀ l ∈ pieceLines [x.2.2], s.lineReady l = true) →
        (events = [] → Completes (.engineCommandRun n) s fun t => same t ∧ stands t c1) ∧
        (∀ k x, events = [.read k x] → s.piecePoison [x] = none → Completes (.engineCommandRun n) s fun t => near x.xlat t ∧
          stands t { c1 with got := c.got.put k (s.pieceBytes [x], 0) }) ∧
        ∀ k pos x, events = [.write k pos x] → x.va.toNat % 128 + x.n ≤ 128 →
          let bs := ((plan.data (c.stream plan)).drop pos).take x.n
          Completes (.engineCommandRun n) s fun t => stands t { c1 with wrote := c.wrote ++ [k] } ∧
            (∀ a, ¬Xlat.leafByte x.xlat a → t.mem.byte a = (match x.loc with
              | .hbm pa => s.mem.putAll pa bs
              | .spad _ _ => s.mem).byte a) ∧
            t.spad = match x.loc with
              | .hbm _ => s.spad
              | .spad k o => s.spad.putAll (k * 2 ^ 20 + o) bs)) ∧
    (c.st ≠ .moved → c.st ≠ .released ∨ c.ready = false ∨ c.rel = true ∨ c.token = true → Completes (.engineCompletion n) s fun t => t = s) ∧
    (c.st = .moved → c.token = true → c.hid = 0 → Completes (.engineCompletion n) s fun t => same t ∧ t.cmds = s.cmds.del n ∧ t.warps = s.warps ∧
      ∀ j w, c.job = some j → s.jobs.find j = some w → 1 < w.left → t.jobs = s.jobs.put j { w with left := w.left - 1 }) ∧
    (c.token = false → c.st = .moved ∨ (c.st = .released ∧ c.ready = true ∧ c.rel = false) → Completes (.engineCompletion n) s fun t => same t ∧
      (c.st = .moved → t.cmds = s.cmds.del n) ∧ (c.st = .released → t.cmds = s.cmds.put n { c with token := true }) ∧
      ∀ k x, c.gid = some k → s.group k = some x → x.placed = true → (t.warp c.warp).regs = (s.warp c.warp).regs ∧ (t.warp c.warp).enCnt =
        if x.gen = c.gen ∧ ({ s with cmds := s.cmds.put n { c with token := true } } : State).insnOpen c = false then (s.warp c.warp).enCnt - 1
        else (s.warp c.warp).enCnt))

/-- A held slot is the slot that runs next; an irrevocable one only once the warp may act (R67, R205). A port that is not in the midst of a clause
serves a ready warp or a due poll of the highest effective class (R67, R267 to R269); the warp that it chose issues its next clause, with the lanes of its set at the next header and slot 0 before it (R24,
R66, R69); a warp parked by a switch marker goes on once its counters are 0 (R76). Rests on the model's choices of log entries 4, 48. -/
def Obligations.HeldSlots : Prop :=
  (∀ (s : State) (w : Nat) (c : Clause) (h : HeldBy), (s.warp w).clause = some c → c.held = some h → c.parked = false →
    let done := fun (t : State) => t.cur = w ∧ (t.warp w).clause = some { c with held := none } ∧ (t.warp w).regs = (s.warp w).regs ∧ t.mem = s.mem
    (h = .irrevocable → (s.warp w).mayAct = true → Completes (.irrevocableAct w) s done) ∧
    (h = .irrevocable → (s.warp w).mayAct = false → Completes (.irrevocableAct w) s fun t => t = s) ∧
    (h ≠ .irrevocable → Completes (.heldSlotAct w) s done)) ∧
  (∀ (s : State) (w core port : Nat),
    let wp := s.warp w
    let p := s.refresh core port
    let eff := fun (v : Nat × Bool) =>
      if v.2 then (p.rankOf v).1 else min 3 (p.baseClass v.1 + (p.now - (p.warp v.1).readyAt.getD p.now) / 512)
    let u := (s.dropChoice w).dropYields w
    (s.portBusy core port = true → Completes (.portIssueChoice core port) s fun t => t = s) ∧
    (s.portBusy core port = false → port < (s.core core).chosen.length → Completes (.portIssueChoice core port) s fun t => t.mem = s.mem ∧
      (t.core core).chosen.getD port none = p.firstReady core port ∧
      ∀ v, p.firstReady core port = some v → v ∈ p.portCands core port ∧ ∀ x ∈ p.portCands core port, eff x ≤ eff v) ∧
    ((s.core (coreOf w)).chosen.getD (portOf w) none ≠ some (w, false) ∨ s.portBusy (coreOf w) (portOf w) = true →
      Completes (.clauseIssue w) s fun t => t = s) ∧
    ((s.core (coreOf w)).chosen.getD (portOf w) none = some (w, false) → s.portBusy (coreOf w) (portOf w) = false → u.wouldIssue w = none →
      Completes (.clauseIssue w) s fun t => t = s.dropChoice w) ∧
    (∀ (m : Mask) (hdr : DWord) (h : Header) (ws : List DWord) (v : State), (s.core (coreOf w)).chosen.getD (portOf w) none = some (w, false) →
      s.portBusy (coreOf w) (portOf w) = false →
      u.wouldIssue w = some (⟨m, hdr, none⟩, some (.clause h ws v)) → h.cls ≠ 5 → m ≠ 0 →
      (∀ g ∈ (v.warp w).segs, g.cause = none ∧ g.queue = []) →
      Completes (.clauseIssue w) s fun t => t.apart w = { v with cur := w }.apart w ∧ t.curWarp.regs = (v.warp w).regs ∧
        t.curWarp.clauseAt = ⟨hdr, h.cls, h.cnt.toNat, ws, m, 0, [], []⟩ ∧
        ∀ l, l < 64 → t.curWarp.pc l = if m.getLsbD l then hdr + BitVec.ofNat 64 (8 * (h.cnt.toNat + 2)) else (v.warp w).pc l) ∧
    (∀ c, wp.clause = some c → c.parked = true → (List.range 8).any (fun n => s.landingPends w n) = false →
      (wp.ldCnt = 0 → wp.stCnt = 0 → wp.enCnt = 0 → wp.quCnt = 0 → c.at_.slot ≤ c.at_.cnt → Completes (.switchResume w) s fun t =>
        t.apart w = { s with cur := w }.apart w ∧ t.warp w = { wp with clause := some { c with parked := false } }) ∧
      (wp.ldCnt ≠ 0 ∨ wp.stCnt ≠ 0 ∨ wp.enCnt ≠ 0 ∨ wp.quCnt ≠ 0 → Completes (.switchResume w) s fun t => t = s)))

/-- Read misses, grants, invalidations, evictions and the end of a lease (R166 to R169, R171, R202): no byte of memory changes; a Shared copy is
recorded in the directory, a line of a page private to the core is not. The wrap of the lease clock, with no window that has read a line of another
die (R172, R385, R386), and the waking of an annex (R173, R387). Rests on the model's choices of log entries 4, 19, 86. -/
def Obligations.CacheEvents : Prop :=
  (∀ (s : State) (core line die w : Nat) (e : AnnexLine) (x : L1Line), line < 2 ^ 34 →
    let d := s.dir line
    let home := homeDie (line * 128)
    let key := l1Key core line
    let hits := fun (t : State) (k : Nat) => ∀ y, (s.warp k).window = some y → y.sig.getLsbD (Loc.hbm (line * 128)).sig = true →
      (t.warp k).window = some { y with hit := true }
    (∀ v lane va hint, s.waitRead core line = some (v, lane, va, hint) → s.classStays v lane va → s.canRead core (.hbm (line * 128)) = true →
      line * 128 < Config.physTop →
      (home = core / 256 → s.l1.find key = none →
        (s.privAccess v lane va = false → core % 256 < 128 → d.owner ≠ some (core % 256) →
          Completes (.l1ReadMiss core line) s fun t => t.mem = s.mem ∧ t.warps = s.warps ∧ (t.dir line).owner = none ∧
            (∀ k, k < 128 → d.owner = some k → (t.dir line).sharers.getLsbD k = true) ∧
            (hint = .nt → t.l1.find key = none) ∧
            (hint ≠ .nt → (∃ way, t.l1.find key = some ⟨false, false, false, false, way⟩) ∧
              (t.dir line).sharers.getLsbD (core % 256) = true)) ∧
        (s.privAccess v lane va = true → Completes (.l1ReadMiss core line) s fun t => t.mem = s.mem ∧ t.warps = s.warps ∧
          t.dir line = d ∧ (hint ≠ .nt → ∃ way, t.l1.find key = some ⟨hint != .ro, false, false, true, way⟩))) ∧
      (home ≠ core / 256 → s.annexHolds (core / 256) line = false →
        Completes (.annexMiss core line) s fun t => t.mem = s.mem ∧ (t.dir line).owner = none ∧
          (s.annex.find (annexKey (core / 256) line) = none → (s.die (core / 256)).sleep.asleep = false → t.warps = s.warps) ∧
          (hint ≠ .nt → ∃ way, t.l1.find key = some ⟨false, false, true, false, way⟩) ∧
          (let until' := min (s.leaseClock.toNat + (s.die home).lterm) 0xFFFF_FFFF
           (∃ way, t.annex.find (annexKey (core / 256) line) = some ⟨until', way⟩) ∧ ∃ n, t.leases.find line = some n ∧ until' ≤ n))) ∧
    (s.waitRead core line = none → (Completes (.l1ReadMiss core line) s fun t => t = s) ∧ Completes (.annexMiss core line) s fun t => t = s) ∧
    (home = core / 256 → s.commitGranted core line = some w → d.owner ≠ some (core % 256) →
      Completes (.ownershipGrant core line) s fun t => t.mem = s.mem ∧ t.dir line = ⟨0, some (core % 256)⟩ ∧
        (∃ way, t.l1.find key = some ⟨true, false, false, false, way⟩) ∧
        ∀ k, k ≠ w → dieOf k = home → coreOf k % 256 ≠ core % 256 →
          d.sharers.getLsbD (coreOf k % 256) = true ∨ d.owner = some (coreOf k % 256) ∨ coreOf k % 256 = 128 → hits t k) ∧
    (s.commitGranted core line = none → Completes (.ownershipGrant core line) s fun t => t = s) ∧
    (s.l1.find key = some x → (∃ q ∈ s.warps, coreOf q.1 ≠ core ∧ dieOf q.1 = core / 256 ∧ s.granted (.commit q.1) line = true) →
      Completes (.invalidation core line) s fun t => t.mem = s.mem ∧ t.l1 = s.l1.del key ∧ (t.dir line).owner ≠ some (core % 256) ∧
        (core % 256 < 128 → (t.dir line).sharers.getLsbD (core % 256) = false) ∧ ∀ k, coreOf k = core → hits t k) ∧
    (s.l1.find key = some x → Completes (.l1Eviction core line) s fun t => t.mem = s.mem ∧ t.warps = s.warps ∧ t.l1 = s.l1.del key ∧
      (x.owned = false ∨ x.priv = true → t.directory = s.directory) ∧
      (x.owned = true → x.priv = false → (t.dir line).owner ≠ some (core % 256) ∧ (t.dir line).sharers = d.sharers)) ∧
    (s.annex.find (annexKey die line) = some e → e.expiry ≤ s.leaseClock.toNat →
      Completes (.leaseExpiry die line) s fun t => t.mem = s.mem ∧ (∀ q ∈ t.annex, q.1 ≠ annexKey die line) ∧ ∀ k, dieOf k = die → hits t k) ∧
    (∀ n, (annexKey die line, n) ∈ s.spent → n ≤ s.leaseClock.toNat →
      Completes (.leaseExpiry die line) s fun t => t.mem = s.mem ∧ (annexKey die line, n) ∉ t.spent ∧ ∀ k, dieOf k = die → hits t k)) ∧
  (∀ (s : State) (die : Nat),
    let far := ∀ q ∈ s.warps, (q.2.window.map fun x => x.readRemote (dieOf q.1)).getD false = false
    (s.wrapAt.isSome = true → (∀ d, d < 4 → s.remoteLeft d = false) → far → Completes .leaseWrap s fun t => t.mem = s.mem ∧ t.leaseClock = 0 ∧
      t.wrapCount = s.wrapCount + 1 ∧ t.leases = [] ∧ t.wrapAt = none ∧
      ∀ d, d < 4 → (s.die d).sleep.asleep = false → ∀ q ∈ t.annex, q.1 / 2 ^ 34 ≠ d) ∧
    (s.wrapAt = none ∨ (∃ d, d < 4 ∧ s.remoteLeft d = true) → Completes .leaseWrap s fun t => t = s) ∧
    (∀ n, s.wrapAt = some n → n + 2048 ≤ s.now → far → die < s.dies.length → die < 4 → s.remoteLeft die = true →
      Completes (.wrapStall die) s fun t => t.leaseClock = 0 ∧ t.wrapAt = none ∧
        ∀ d, d < 4 → d < s.dies.length → s.remoteLeft d = true → (t.die d).wrapLate = true ∧ ∃ k, (k, 0, .die d) ∈ t.holds) ∧
    (∀ n, s.wrapAt = some n → s.now < n + 2048 ∨ s.remoteLeft die = false → Completes (.wrapStall die) s fun t => t = s) ∧
    ((s.die die).sleep.asleep = true → (s.die die).gated = false → die < s.dies.length →
      ((s.die die).sleep.kept = s.wrapCount → Completes (.annexWake die) s fun t => t.annex = s.annex ∧ t.mem = s.mem ∧
        (t.die die).sleep.asleep = false) ∧
      ((s.die die).sleep.kept ≠ s.wrapCount → Completes (.annexWake die) s fun t => (∀ q ∈ t.annex, q.1 / 2 ^ 34 ≠ die) ∧
        (t.die die).sleep.asleep = false)))

/-- The first unit of an intake list that fits is placed, with a fresh generation and its position mask fixed, its threads at their entry (R27, R28,
R259 to R263, R281); a unit that has headed its class for 16,384 cycles keeps its own and lower classes waiting (R260); a task that has waited for
the steal delay goes to a die without a waiting unit of its class (R265); a drained group gives its resources back, and with its last group its unit
is over (R29). Rests on the model's choices of log entries 4, 31, 34. -/
def Obligations.ConcourseEvents : Prop :=
  ∀ (s : State) (die c k lb : Nat) (i : Intake) (l : Launch) (f : Fit),
    (s.intake.find die = some [i] → s.launches.find i.launch = some l → l.reach = .core → l.gang = false → l.gaff = 0 → l.segs = 1 → i.relaunch = none →
      i.next + 1 = i.units → s.ghost i.launch i.next = none →
      s.bestCore (s.seater l i.launch s.nextNo (some i.arrival)) (dieCores die) l [] i.next = some (c, f) → f.waits = false → f.slots = [(k, lb)] →
      lb + l.width ≤ 64 → i.prio ≤ 3 →
      Completes (.unitPlacement die) s fun t => t.mem = s.mem ∧ t.intake.find die = some [] ∧ ∃ y, t.groups.find (s.nextNo + 1) = some y ∧
        y.core = c ∧ y.grp = i.next ∧ y.gen = 1 ∧ y.placed = true ∧ y.tiles = f.tiles ∧ y.gals = [] ∧ y.gcores.getLsbD (c % 4) = true ∧
        (t.warp (c * 16 + k)).segAt lb = some (Seg.fresh (s.nextNo + 1) 0 k lb l) ∧
        ∀ j, lb ≤ j → j < lb + l.width → (t.warp (c * 16 + k)).pc j = l.entry ∧ (t.warp (c * 16 + k)).live.getLsbD j = true ∧
          ∀ n, ((t.warp (c * 16 + k)).reg n).tag ≠ .void → ((t.warp (c * 16 + k)).reg n).word j = 0) ∧
    (∀ j n, s.intake = [(die, [j, i])] → i.arrival ≠ j.arrival → (s.launches.find i.launch).isSome = true → (s.launches.find j.launch).isSome = true →
      j.headAt = some n → n + 16384 ≤ s.now → i.prio ≤ j.prio → s.placeEntry die j = .none → Completes (.unitPlacement die) s fun t => t = s) ∧
    (∀ e, s.stealDie die i l = some e → e ≠ die ∧ e < 4 ∧ ∀ j ∈ (s.intake.find e).getD [], j.prio < i.prio) ∧
    (∀ e v n, s.intake = [(die, [i])] → s.launches.find i.launch = some l → i.headAt = some n →
      (s.now < n + (s.die die).stealDly → Completes (.taskSteal i.arrival) s fun t => t = s) ∧
      (l.taskq.isSome = true → n + (s.die die).stealDly ≤ s.now → s.stealDie die i l = some e →
        (s.placeEntry e i = .placed v → Completes (.taskSteal i.arrival) s fun t => t.groups = v.groups ∧ t.warps = v.warps ∧ t.mem = v.mem) ∧
        (s.placeEntry e i = .evict v → Completes (.taskSteal i.arrival) s fun t => t = { s with gals := v.gals }))) ∧
    (∀ u, s.intake = [(die, [i])] → Completes (.intakeHeadBlock u) s fun t => t.warps = s.warps ∧
      t.intake = [(die, [{ i with blocks := i.blocks || (decide (i.arrival = u) && i.headAt.any fun n => decide (n + 16384 ≤ s.now)) }])]) ∧
    (∀ g x, s.group g = some x → (x.placed = true → x.released = false → s.groupDrained g = false → Completes (.groupRelease g) s fun t => t = s) ∧
      (∀ r w wp, x.placed = true → x.released = false → s.groupDrained g = true → s.units.find x.unit = some r → r.gids = [g] → r.st ≠ .killed →
        s.warps = [(w, wp)] → wp.segs ≠ [] → (∀ h ∈ wp.segs, h.gid = g) → s.bars = [] →
        Completes (.groupRelease g) s fun t => t.warps = [] ∧ t.units = s.units.del x.unit ∧ (∀ q ∈ t.groups, q.2.unit ≠ x.unit) ∧
          ∀ n ∈ x.tiles, (t.tile x.core n).owner = none))

/-- Who is asked to leave, by a trigger or by the host, and what saving and resuming a unit come to: a gang is saved whole, of another unit one
group after another as each comes to rest, none while a segment of the unit is trapped, and the writes wait as others do at their home slices (R170,
R241, R271 to R273, R345, R384, R391). Rests on the model's choices of log entries 4, 50, 66. -/
def Obligations.PreemptionEvents : Prop :=
  ∀ (s v : State) (u prio : Nat) (r : UnitRec), s.units.find u = some r →
    let still := fun (t : State) => t = s
    let asked := { r with st := .stopping, stopAt := s.now, told := false }
    (∀ die i l n dies, s.intake = [(die, [i])] → s.launches.find i.launch = some l → i.headAt = some n → l.reach = .core →
      (s.now < n + 4096 → Completes (.preemptPriority i.arrival) s still) ∧
      (n + 4096 ≤ s.now → (s.units.filter fun q => q.2.st == .stopping) = [] → s.wouldPlace die i = false → s.victims i.prio [die] = u :: dies →
        (s.without u).wouldPlace die i = true → r.st = .placed → Completes (.preemptPriority i.arrival) s fun t =>
          t = { s with units := s.units.put u asked })) ∧
    (∀ k ∈ s.victims prio (List.range 4), ∃ x, (k, x) ∈ s.units ∧ x.st = .placed ∧ s.unitPrio x < prio) ∧
    (∀ ctx c die, s.ctxs.find ctx = some c → (s.units.filter fun q => q.2.st == .placed && s.unitCtx q.2 == ctx) = [(u, r)] →
      (s.now < max c.sliceAt r.placedAt + (if c.slice = 0 then 10000 else c.slice) * 600 → Completes (.timeSliceExpiry ctx) s still) ∧
      (max c.sliceAt r.placedAt + (if c.slice = 0 then 10000 else c.slice) * 600 ≤ s.now → die < 4 → s.unitOn u die = true →
        s.othersWait ctx die = true → r.st = .placed → Completes (.timeSliceExpiry ctx) s fun t =>
          t = { s with ctxs := s.ctxs.put ctx { c with sliceAt := s.now }, units := s.units.put u asked })) ∧
    (r.st = .placed → Completes (.preemption u) s fun t => t = { s with units := s.units.put u asked }) ∧
    (r.st ≠ .placed → r.st ≠ .stopping ∨ (s.standing u ≠ [] ∧ (s.unitTilesStill u = false ∨ s.unitTrapped u = true)) ∨
        (s.standing u ≠ [] ∧ ∀ q ∈ s.standing u, s.groupStill q.1 = false) →
      Completes (.preemption u) s fun t => t = s.unclaim (.unit u)) ∧
    (r.st = .stopping → r.hid = 0 → s.ctxOver r = false → s.unitTilesStill u = true → s.unitTrapped u = false →
      let gang := ((s.launches.find r.launch).map Launch.gang).getD false
      ∀ go, (gang = true → go = s.standing u ∧ s.unitStill u = true) → (gang = false → ∃ q, go = [q] ∧
          (s.standing u).find? (fun q => s.groupStill q.1) = some q) →
      (s.saveAll u go = .waits v → Completes (.preemption u) s fun t => t = v) ∧
      (s.saveAll u go = .done v → Completes (.preemption u) s fun t => t.mem = v.mem ∧
        (v.standing u = [] → t.units.find u = some { r with st := .saved, told := false }) ∧ (v.standing u ≠ [] → t.units = v.units) ∧
        ∀ q ∈ go, s.groups.find q.1 = some q.2 → (s.launchOf q.1).isSome = true → (t.group q.1).map Group.placed ≠ some true) ∧
      (∀ gid, s.saveAll u go = .full gid → Completes (.preemption u) s fun t =>
        t.units.find u = some { r with hid := freeHold s.holds } ∧ t.groups = s.groups ∧ t.warps = s.warps)) ∧
    (r.st = .stopping → r.told = false → r.stopAt + 2 ^ 24 ≤ s.now → s.stepTwo u = false → Completes (.preemptBlocked u) s fun t =>
      t.units = s.units.put u { r with told := true } ∧ t.warps = s.warps ∧ t.groups = s.groups) ∧
    (r.told = true ∨ s.now < r.stopAt + 2 ^ 24 ∨ s.stepTwo u = true → Completes (.preemptBlocked u) s still) ∧
    (r.st ≠ .saved ∨ s.readAreas r.gids = .waits → Completes (.unitResumption u) s still) ∧
    (∀ l as, s.launches.find r.launch = some l → r.st = .saved → r.hid = 0 → r.told = false → s.ctxOver r = false →
      (((s.intake.find l.die).getD []).any fun i => decide (l.prio < i.prio)) = false → s.readAreas r.gids = .done as →
      (s.savedNodes r.gids).all (fun x => s.lineReady (x.2 / 128)) = true →
      (s.seatSaved l as = .placed v →
        (as.all fun q => s.galsThere q.1 (((v.group q.1).map Group.core).getD 0)) = true → Completes (.unitResumption u) s fun t =>
          t.units.find u = some { r with st := .placed, placedAt := s.now, told := false } ∧
          ((∀ b ∈ v.bars, b.saved = none ∧ b.clash = none) → t.mem = v.mem)) ∧
      (s.seatSaved l as = .none → Completes (.unitResumption u) s still))

/-- The tick of the banister in one segment (R374), the turns of a takeover, at each of whose ends the lane's `vpc` is its next header (R376, R377),
and the polls of a wait, of which the first is its own and a later one its port's choice (R120, R121, R269). Rests on the model's choices of log
entries 4, 25, 72. -/
def Obligations.BanisterEvents : Prop :=
  ∀ (s : State) (w l : Nat) (wp : Warp) (g : Seg), s.warps = [(w, wp)] → wp.segs = [g] → wp.clause = none → wp.resume = [] →
    let ticks := 4096 * (s.ticks + 1) ≤ s.now
    let on := fun (t : State) (h : Seg) => t.ticks = s.ticks + 1 ∧ t.mem = s.mem ∧ t.warps = [(w, { wp with segs := [h] })]
    (g.tripped = false →
      (s.now < 4096 * (s.ticks + 1) → Completes .banisterTick s fun t => t = s) ∧
      (ticks → g.ticking = false → Completes .banisterTick s fun t => on t g) ∧
      (ticks → g.ticking = true → g.progress = true → Completes .banisterTick s fun t => on t { g with progress := false }) ∧
      (ticks → g.ticking = true → g.progress = false → wp.leftOut g = true → g.udepth = 0 → g.bc + 1 ≤ g.bancnt.toNat →
        Completes .banisterTick s fun t => on t { g with bc := g.bc + 1 }) ∧
      (ticks → g.ticking = true → g.progress = false → wp.leftOut g = true → g.udepth = 0 → g.bancnt.toNat < g.bc + 1 → g.queue = [] →
        firstLane (g.rel (wp.live &&& ~~~wp.heldMask)) = some l → Completes .banisterTick s fun t => t.ticks = s.ticks + 1 ∧
          ∃ h, (t.warp w).segs = [h] ∧ h.takeover = some ⟨g.rel (wp.live &&& ~~~wp.heldMask), 0⟩ ∧ h.lmask = g.lmask ∧ h.lpark = g.lpark)) ∧
    (∀ x, g.takeover = some x →
      (wp.turnOver g x = false → Completes (.banisterTakeover w g.lbase) s fun t => t = s) ∧
      (wp.turnOver g x = true →
        let left := x.left &&& ~~~laneBit ((firstLane x.left).getD 64) &&& g.rel (wp.live &&& ~~~wp.heldMask)
        let kept := fun (h : Seg) => ∀ b, firstLane x.left = some b → wp.live.getLsbD (g.lbase + b) = true → b < g.vpc.length →
          h.vpc.getD b 0 = wp.pc (g.lbase + b)
        (left ≠ 0 → Completes (.banisterTakeover w g.lbase) s fun t => t.mem = s.mem ∧
          ∃ h, (t.warp w).segs = [h] ∧ kept h ∧ h.takeover = some ⟨left, 0⟩ ∧ h.lmask = g.lmask ∧ h.lpark = g.lpark) ∧
        (left = 0 → Completes (.banisterTakeover w g.lbase) s fun t => t.mem = s.mem ∧
          ∃ h, (t.warp w).segs = [h] ∧ kept h ∧ h.takeover = none ∧ h.lmask = g.rel wp.live ∧ h.lpark = g.lpark ∧ h.progress = true ∧ h.bc = 0 ∧
            h.notices = if g.ubase ≠ 0 then g.notices ++ [0x31] else g.notices))) ∧
    (∀ (h : LaneHold) p eq wide d a b off, wp.holds = [(l, h)] →
      let chosen := (s.core (coreOf w)).chosen.getD (portOf w) none = some (w, true)
      (wp.pollDue s.now l h = false ∨ h.interval ≠ 0 → ¬chosen → Completes (.waitPoll w) s fun t => t = s) ∧
      (3 ≤ wp.level → Completes (.waitPoll w) s fun t => t = s) ∧
      (wp.pollDue s.now l h = false → chosen → wp.level < 3 → Completes (.waitPoll w) s fun t => t = s.dropChoice w) ∧
      (decodeAlone h.word = .ok (.wait p eq wide d a b off) → wp.segOf l = some g → wp.pollDue s.now l h = true → h.interval = 0 ∨ chosen →
        wp.level < 3 → wp.window = none → wp.hasRoom 1 = true → s.solo w = false → g.udepth = 0 →
        let at_ := wp.atHold h
        let n := if wide then 8 else 4
        let va := at_.ea a b off n l
        let x := s.loadPlace w l n va
        let u := s.touch w x.xlat false
        let near := fun (t : State) => ∀ a, ¬Xlat.leafByte x.xlat a → t.mem.byte a = s.mem.byte a
        s.readErr w l n va = none → u.mayRead w x.loc = true → u.classStays w l va →
        let v := (u.viewRead w 0 x.loc va n).setWidth 64
        ((if eq then v = at_.val wide d l else v ≠ at_.val wide d l) → Completes (.waitPoll w) s fun t => near t ∧ (t.warp w).holds = [] ∧
          (t.warp w).pcs = wp.pcs ∧ (t.warp w).regs = wp.regs ∧ ∃ x, (t.warp w).window = some x ∧ x.evs.length = 1) ∧
        (¬(if eq then v = at_.val wide d l else v ≠ at_.val wide d l) → Completes (.waitPoll w) s fun t => near t ∧ (t.warp w).pcs = wp.pcs ∧
          (t.warp w).regs = wp.regs ∧ (t.warp w).window = none ∧ (t.warp w).holds =
            (let k := if h.interval = 0 then 16 else if v = h.last then min (2 * h.interval) 4096 else 16
             [(l, { h with interval := k, due := s.now + k, last := v })]))))

/-- A cause posted to a log, a ring in host memory (R348): at the next index, with vector 0 behind it, or counted as lost when the log is full or
off; one that is bound for the porter wakes it (R255). A notice that waits enters the usher (R350), and the porter's service of a fetch fault: a
page that is valid by now lets the lanes fetch again, one that no extent covers is held for the host, and one of the code store is filled (R393,
R394). Rests on the model's choices of log entries 4, 23, 26, 71. -/
def Obligations.CauseEvents : Prop :=
  (∀ (s : State) (code : Nat) (i : LogInfo),
    let f := logOwner code i.fn
    let x := s.fn f
    let full := x.clbase = 0 ∨ x.clsize = 0 ∨ x.clsize ≤ (x.clwr - x.clrd).toNat
    let a := x.clbase.toNat + 32 * (x.clwr.toNat % x.clsize)
    f < s.fns.length → s.host.wf = true →
    (s.post code i).mem = s.mem ∧
    (s.post code i).agenda = s.agenda ++ (if causeDest code = .porter then [.porterWake i.die] else []) ∧
    (full → (s.post code i).host = s.host ∧ (s.post code i).out = s.out ∧ (s.post code i).fn f = { x with cllost := min (x.cllost + 1) 65535 }) ∧
    (¬full → ((s.post code i).fn f).clwr = x.clwr + 1 ∧ ((s.post code i).fn f).cllost = x.cllost ∧
      (∀ k, k < 32 → (s.post code i).host.byte (a + k) = (logEntry code i).extractLsb' (8 * k) 8) ∧
      (∀ k, k < a ∨ a + 32 ≤ k → (s.post code i).host.byte k = s.host.byte k) ∧
      ∀ e, x.msix[0]? = some e →
        (e.masked = false → (s.post code i).out = s.out ++ [.msix f 0 e.addr e.data]) ∧
        (e.masked = true → (s.post code i).out = s.out ∧ ((s.post code i).fn f).msixPend.getLsbD 0 = true))) ∧
  (∀ (s : State) (w lb : Nat) (g : Seg),
    let wp := s.warp w
    let run := wp.runnableIn g
    wp.segs = [g] → g.lbase = lb →
    (∀ code rest k, g.notices = code :: rest → g.udepth = 0 → g.handler = 0 → g.record = none → g.cause = none → g.takeover = none →
      wp.atBoundary g = true → run ≠ 0 → wp.pick run = some k →
      Completes (.noticeDelivery w lb) s fun t => t.apart w = s.apart w ∧ (t.warp w).regs = wp.regs ∧
        (∃ h, (t.warp w).segAt lb = some h ∧ h.notices = rest ∧ h.udepth = 1 ∧ h.etaken = 0 ∧ h.evt = ⟨k.hdr, BitVec.ofNat 64 (8 * code + 1), k.hdr⟩ ∧
          h.lmask = g.lmask ∧ h.lpark = g.lpark ∧ s.now + 12 ≤ h.notBefore ∧
          ∀ l, l < g.width → (g.lmask &&& ~~~g.lpark &&& g.rel wp.live).getLsbD l = true → h.vpc.getD l 0 = wp.standing (lb + l)) ∧
        ∀ l, l < 64 → (t.warp w).pc l = if run.getLsbD l then g.ubase else wp.pc l) ∧
    (g.udepth ≠ 0 ∨ g.notices = [] → Completes (.noticeDelivery w lb) s fun t => t = s) ∧
    (∀ x, g.cause = some x → x.code = 0x73 → x.hid = 0 → wp.window = none → isPorter (coreOf w) = false →
      let fn := s.fnOf g.gid
      let ctx := s.ctxOf g.gid
      let page := x.logAddr.toNat - x.logAddr.toNat % 4096
      let slot := s.leafSlot fn x.logAddr [5, 4, 3, 2, 1, 0] (((s.ctxs.find ctx).map fun c => c.root.toNat).getD 0)
      let back := fun (t : State) => ∃ h, (t.warp w).segAt lb = some h ∧ h.cause ≠ some x
      let held := fun (t : State) => (t.warp w).regs = wp.regs ∧ ∃ h, (t.warp w).segAt lb = some h ∧ h.cause = some { x with hid := freeHold s.holds }
      (∀ leaf, slot = .ok leaf → pteValid (s.mem.dword leaf) = true → x.at_.cls = 7 → g.queue = [] → Completes (.fetchFaultService w) s fun t => back t ∧
        t.apart w = (s.wakePorter (dieOf w)).apart w ∧ ∀ l, (g.abs x.lanes &&& wp.live).getLsbD l = true → (t.warp w).pc l = x.at_.hdr) ∧
      ((∃ code, slot = .error code) ∨ (∃ leaf, slot = .ok leaf ∧ pteValid (s.mem.dword leaf) = false ∧
          (s.extent ctx page = none ∨ ∃ code, s.extent ctx page = some (.error code))) →
        Completes (.fetchFaultService w) s held) ∧
      (∀ leaf src pa, slot = .ok leaf → pteValid (s.mem.dword leaf) = false → s.extent ctx page = some (.ok (src, none)) →
        s.stageTwo fn (ptePa (s.mem.dword leaf)) = some pa → physFault pa = none → s.textReady (dieOf w) leaf pa = true →
        (s.flashBad src = true → Completes (.fetchFaultService w) s held) ∧
        (s.flashBad src = false → s.mem.wf = true → g.queue = [] →
          Completes (.fetchFaultService w) s fun t => back t ∧ t.flash = s.flash ∧
            (∀ k, k < 4096 → leaf + 8 ≤ pa + k ∨ pa + k < leaf → t.mem.byte (pa + k) = s.flash.byte (src + k)) ∧
            ∀ k, k < pa ∨ pa + 4096 ≤ k → leaf + 8 ≤ k ∨ k < leaf → t.mem.byte k = s.mem.byte k))))

/-- What is posted once for a wait that has lasted (R342, R383, R391, R392), and nothing before its time. Escalation in time (R380, R382), the waking
of a porter (R255), which replays the frames that the lodge holds and leaves none (R309; log entry 65), and the kill of a unit whose operand failed
(R397, R398). Rests on the model's choices of log entries 4, 12, 72, 106. -/
def Obligations.Escalation : Prop :=
  (∀ (s : State) (w lb k : Nat) (g : Seg) (rest : List Seg) (c : Clause),
    let wp := s.warp w
    let i := s.segInfo w g
    let same := fun (t : State) => t = s
    wp.segs = g :: rest →
    (∀ d n, wp.clause = some c → s.stallDetail w = some d →
        c.held = some .window ∨ c.held = some .irrevocable ∨ c.held = some .maintenance → c.heldSince = some n →
      (c.stallTold = false → n + 2 ^ 24 ≤ s.now → Completes (.ckptStall w) s fun t =>
        t = (s.setWarp w { wp with clause := some { c with stallTold := true } }).post 0xA3 { i with pc := c.at_.hdr, detail := d, islot := c.at_.slot }) ∧
      (c.stallTold = true ∨ s.now < n + 2 ^ 24 → Completes (.ckptStall w) s same)) ∧
    (∀ n, wp.clause = some c → c.held = some .queue → c.heldSince = some n → (wp.segsIn c.at_.lanes).head? = some g →
      (c.stallTold = false → n + 2 ^ 30 ≤ s.now → Completes (.stallNotification .queue w) s fun t =>
        t = (s.setWarp w { wp with clause := some { c with stallTold := true } }).post 0x4B
          { i with pc := c.at_.hdr, islot := c.at_.slot, detail := Config.openDetail 0x4B }) ∧
      (c.stallTold = true ∨ s.now < n + 2 ^ 30 → Completes (.stallNotification .queue w) s same)) ∧
    (∀ b, s.bars[k]? = some b → b.done = true ∨ b.told = true ∨ s.now < b.since + 2 ^ 30 → Completes (.stallNotification .sync k) s same) ∧
    (∀ b, s.bars[k]? = some b → b.done = false → b.told = false → b.since + 2 ^ 30 ≤ s.now → Completes (.stallNotification .sync k) s fun t =>
      t.bars = s.bars.set k { b with told := true } ∧ t.warps = s.warps) ∧
    (let d := s.landing (k / 8) (k % 8)
     d.st = .signing → d.told = false → d.since + 2 ^ 30 ≤ s.now → (s.core (k / 8)).landings.length = 8 → Completes (.stallNotification .landing k) s fun t =>
      t.landing (k / 8) (k % 8) = { d with told := true } ∧ t.warps = s.warps) ∧
    (∀ x, wp.segAt lb = some g → g.lbase = lb → g.cause = some x → x.hid ≠ 0 → savable x.code = true →
      (x.told = false → x.since + 2 ^ 24 ≤ s.now → Completes (.loadLong w lb) s fun t =>
        (∃ h, (t.warp w).segAt lb = some h ∧ h.cause = some { x with told := true }) ∧ (t.warp w).regs = wp.regs ∧
        t.apart w = (s.post 0x8E { i with addr := x.logAddr, pc := x.logPc, hold := x.hid, detail := Config.openDetail 0x8E, islot := x.at_.slot }).apart w) ∧
      (x.told = true ∨ s.now < x.since + 2 ^ 24 → Completes (.loadLong w lb) s same)) ∧
    (∀ e log, wp.sideLog = e :: log → wp.segOf e.lane = some g →
      (wp.logTold = false → wp.logSince + 2 ^ 24 ≤ s.now → Completes (.logLong w) s fun t =>
        t = (s.setWarp w { wp with logTold := true }).post 0x8D { i with addr := e.va, hold := wp.logHold, detail := Config.openDetail 0x8D }) ∧
      (wp.logTold = true ∨ s.now < wp.logSince + 2 ^ 24 → Completes (.logLong w) s same))) ∧
  (∀ (s : State) (w die : Nat),
    let wp := s.warp w
    let same := fun (t : State) => t = s
    (wp.soloUntil ≠ 0 → wp.soloUntil ≤ s.now → Completes (.soloPeriodEnd w) s fun t => t = s.setWarp w { wp with soloUntil := 0 }) ∧
    (s.now < wp.soloUntil → Completes (.soloPeriodEnd w) s same) ∧
    (wp.level = 1 ∨ wp.level = 2 → wp.levelAt + 2 ^ 20 ≤ s.now → Completes (.escalationDecay w) s fun t =>
      t = s.setWarp w { wp with level := 0, levelAt := s.now }) ∧
    (wp.level = 3 ∨ s.now < wp.levelAt + 2 ^ 20 → Completes (.escalationDecay w) s same) ∧
    (∀ rest, (s.die die).serial.warp = none → (s.die die).serial.waiting = w :: rest → wp.segs ≠ [] → die < s.dies.length →
      Completes (.serialPassStart die) s fun t => (t.die die).serial = ⟨some w, s.now, rest⟩ ∧ t.warp w = { wp with soloUntil := s.now + 65536 } ∧
        t.apart w = (s.onDie die fun d => { d with serial := ⟨some w, s.now, rest⟩ }).apart w) ∧
    ((s.die die).serial.warp = some w → die < s.dies.length →
      ((s.die die).serial.start + 65536 ≤ s.now ∨ wp.segs = [] → Completes (.serialPassEnd die) s fun t => (t.die die).serial.warp = none ∧
        (t.die die).serial.waiting = (s.die die).serial.waiting ∧ t.warps = s.warps) ∧
      (s.now < (s.die die).serial.start + 65536 → wp.segs ≠ [] → Completes (.serialPassEnd die) s same)) ∧
    (∀ l h, s.warps = [(w, wp)] → coreOf w = porterCore die → wp.holds = [(l, h)] → h.kind = .halt → (s.die die).porterGated = false → wp.clause = none →
      Completes (.porterWake die) s fun t => (t.warp w).holds = [] ∧ (t.warp w).pcs = wp.pcs ∧ t.lodge.frames = [] ∧ t.mem = s.mem) ∧
    (∀ u core code e op r, s.unitFault u = some (core, code, e, op) → s.units.find u = some r →
      (code = 0x9D ∨ 3 ≤ r.kills → Completes (.matrixUnitKill u) s fun t =>
        t.units.find u = some { r with st := .ended, kills := r.kills + 1 }) ∧
      (code ≠ 0x9D → r.kills < 3 → Completes (.matrixUnitKill u) s fun t => ∃ k,
        t.units.find u = some { r with st := .killed, kills := r.kills + 1, hid := k } ∧ t.now = s.now)) ∧
    (s.unitFault w = none → Completes (.matrixUnitKill w) s same))

/-- Doorbells, ring configuration and triggers (R283, R284, R287, R307, R308, R310). Rests on the model's choices of log entries 55, 66, 106. -/
def Obligations.RingRegisters : Prop :=
  ∀ (s : State) (die fn k : Nat) (v : DWord) (reg : RingReg),
    let r := ringKey die fn k
    let x := s.ring r
    let good := x.legal = true ∧ s.ctxLive x.ctx fn = true
    let inRing := v.toNat % 16 = 0 ∧ v.toNat < x.size
    let cleared := { x with frames := [], gather := none, skip := none, wait := none, rdoff := 0, wroff := 0, stat := 0 }
    let g := die * 256 + fieldN v 63 56
    s.lodge.coresUp = true →
    (good → inRing → x.stat = 1 → Completes (.doorbell die fn k v) s fun t => t.mem = s.mem ∧ t.ring r = { x with wroff := v.toNat }) ∧
    (good → inRing → x.stat ≠ 1 → Completes (.doorbell die fn k v) s fun t => t.mem = s.mem ∧ (t.ring r).wroff = v.toNat ∧
      (t.ring r).rdoff = x.rdoff ∧ (t.ring r).stat = (if x.rdoff = v.toNat then 0 else 1) ∧ (t.ring r).wait = none ∧
      (t.ring r).frames = [⟨[⟨x.base, x.size, x.rdoff, true, 0, x.rdoff⟩], [⟨x.base, x.size, x.rdoff, true, 0, x.rdoff⟩], [], [], 0⟩]) ∧
    (¬good ∨ ¬inRing → Completes (.doorbell die fn k v) s fun t => (t.ring r).stat = 2 ∧ (t.ring r).rdoff = x.rdoff ∧ (t.ring r).wroff = x.wroff) ∧
    (x.stat ≠ 1 → Completes (.ringConfigWrite die fn k reg v) s fun t => t.mem = s.mem ∧ t.ring r = match reg with
      | .base => { cleared with base := v }
      | .size => { cleared with size := v.toNat }
      | .ctx => { cleared with ctx := v.toNat }) ∧
    (x.stat = 1 → Completes (.ringConfigWrite die fn k reg v) s fun t => t.mem = s.mem ∧ t.rings = s.rings) ∧
    (trigLegal v = true → fieldN v 55 49 = 0 ∨ s.ctxLive (s.ring (ringKey die fn 0)).ctx fn = true → (s.graphs.find g = none → Completes (.trigger die fn v) s fun t => t.mem = s.mem ∧ t.graphs = s.graphs ∧
        t.trigOvf.find (die * 32 + fn) = some (min ((s.trigOvf.find (die * 32 + fn)).getD 0 + 1) (2 ^ 64 - 1))) ∧
      ∀ y, s.graphs.find g = some y → y.unloading = false →
        (y.pending.isSome = true → Completes (.trigger die fn v) s fun t => t.graphs = s.graphs ∧
          t.trigOvf.find (die * 32 + fn) = some (min ((s.trigOvf.find (die * 32 + fn)).getD 0 + 1) (2 ^ 64 - 1))) ∧
        (y.pending = none →
          let trig := some (v, (s.ring (ringKey die fn 0)).ctx, none)
          let idle := y.run.isNone && y.starting.isNone
          Completes (.trigger die fn v) s fun t => t.trigOvf = s.trigOvf ∧
            t.graphs = s.graphs.put g (if idle then { y with starting := trig } else { y with pending := trig }) ∧
            t.agenda = if idle then s.agenda ++ [.graphRunStart g] else s.agenda)) ∧
    (trigLegal v = false ∨ (fieldN v 55 49 ≠ 0 ∧ s.ctxLive (s.ring (ringKey die fn 0)).ctx fn = false) →
      Completes (.trigger die fn v) s fun t => t.graphs = s.graphs ∧ t.trigOvf = s.trigOvf) ∧
    Completes (.trigovfClear die fn) s (fun t => t.mem = s.mem ∧ t.trigOvf = s.trigOvf.del (die * 32 + fn)) ∧
    Completes (.hostWriteWake die fn) s (fun t => t.mem = s.mem ∧ t.rings = s.rings ∧ (t.die die).gated = (s.die die).gated ∧ (die < s.dies.length → (t.die die).porterGated = false))

/-- Contexts made and ended, and code objects registered and removed (R286, R351 to R353); a host's write waits while memory may not answer the
porter (R170). Rests on the model's choices of log entries 61, 62, 63, 106. -/
def Obligations.ContextRegisters : Prop :=
  ∀ (s : State) (die fn p : Nat) (v : DWord),
    let d := BitVec.ofNat 512 (s.mem.nat p 64)
    let b : BitVec 256 := BitVec.ofNat 256 (s.mem.nat p 32)
    let same := fun (o : CodeObj) => o.die == die && o.fn == fieldN b 217 213 && o.ctx == fieldN b 212 203 && o.img == field b 63 0 && o.text == field b 127 64
    s.lodge.coresUp = true →
    let waits := fun (i : Instr) (t : State) => t.asked.contains i = true ∧ t.mem = s.mem ∧ t.ctxs = s.ctxs ∧ t.objs = s.objs
    (v.toNat % 64 = 0 → s.physOf fn v.toNat 64 = some p → s.piecesReadable die [physPiece p 64] = false →
      Completes (.ctxcreate die fn v) s (waits (.ctxcreate die fn v))) ∧
    (s.physOf 0 v.toNat 32 = some p → s.claimsOf (.lodge p) = [] → s.piecesReadable die [physPiece p 32] = false →
      Completes (.objreg die v) s (waits (.objreg die v)) ∧ Completes (.objdel die v) s (waits (.objdel die v))) ∧
    (v.toNat % 64 = 0 → s.physOf fn v.toNat 64 = some p → s.piecesReadable die [physPiece p 64] = true → s.ctxRefused d = false →
      Completes (.ctxcreate die fn v) s fun t => t.mem = s.mem ∧
      t.ctxs = s.ctxs.put (fieldN d 73 64) ⟨fn, field d 63 0, fieldN d 223 192, field d 191 128, fieldN d 127 96, fieldN d 95 94, false, false, s.now, []⟩) ∧
    (v.toNat % 64 ≠ 0 ∨ s.physOf fn v.toNat 64 = none ∨ (s.physOf fn v.toNat 64 = some p ∧ s.ctxRefused d = true) →
      Completes (.ctxcreate die fn v) s fun t => t.ctxs = s.ctxs) ∧
    (s.ctxLive v.toNat fn = true → s.units = [] → s.intake = [] → Completes (.ctxend die fn v) s fun t =>
      t.ctxLive v.toNat fn = false ∧ (∀ o ∈ t.objs, o.ctx ≠ v.toNat) ∧ t.mem = s.mem) ∧
    (s.ctxLive v.toNat fn = false → Completes (.ctxend die fn v) s fun t => t.ctxs = s.ctxs ∧ t.objs = s.objs ∧ t.rings = s.rings) ∧
    (s.physOf 0 v.toNat 32 = some p → s.mem.wf = true → p + 32 ≤ Config.physTop →
      (∀ l ∈ pieceLines [physPiece p 32], s.lineReady l = true ∧ s.wrapHeld die (.hbm (l * 128)) = false) →
      (∀ o, s.objs.find? same = some o → Completes (.objdel die v) s fun t => t.objs = s.objs.erase o ∧ t.mem.byte (p + 31) = 0 ∧
        (t.mem.byte (p + 30)).getLsbD 7 = true) ∧
      (s.objs.find? same = none → Completes (.objdel die v) s fun t => t.objs = s.objs ∧ t.mem.byte (p + 31) = 0x23 ∧
        (t.mem.byte (p + 30)).getLsbD 7 = true) ∧
      ∀ bs ps, s.readVirt die (fieldN b 212 203) (fieldN b 217 213) (fieldN b 63 0) (max (fieldN b 159 128) 64) = .ok (bs, ps) →
        s.piecesReadable die ps = true →
        let x : Image := ⟨bs⟩
        let answers := fun (row : Instr) (porter : Bool) =>
          let out := x.refusal (fieldN b 159 128) (field b 127 64).toNat (s.objs.filter fun o => o.ctx == fieldN b 212 203).length porter
          (out = none → Completes row s fun t => t.mem.byte (p + 31) = 0 ∧ (t.mem.byte (p + 30)).getLsbD 7 = true ∧
            t.objs = s.objs ++ [⟨die, fieldN b 217 213, fieldN b 212 203, field b 63 0, field b 127 64, x.textLen,
              (List.range x.nkern).map (x.kernel (field b 127 64))⟩]) ∧
          ∀ code, out = some code → Completes row s fun t => t.objs = s.objs
        answers (.objreg die v) false ∧ answers (.registerWrite die .mgmtPorter 0x1000 v) true)

/-- Management registers (R283, R285, R348, R395, R412, R413, R415). -/
def Obligations.ManagementRegisters : Prop :=
  ∀ (s : State) (die fn n : Nat) (v : DWord) (bound : Bool),
    let x := s.fn fn
    let l := s.lodge
    let lodge := fun (l : Lodge) (t : State) => t = { s with lodge := l }
    Completes .wfdropClear s (lodge { l with wfUnmatched := 0, wfFull := 0 }) ∧
    Completes (.modrst v) s (lodge (if v = 1 then { l with resetAsked := true } else l)) ∧
    (l.fwStat ≠ 1 → l.fwAddr.toNat + l.fwLen.toNat ≤ Config.physTop → Completes .fwcmdLodge s (lodge { l with fwStat := 1, fwKind := 0, fwImage := s.mem.bytes l.fwAddr.toNat l.fwLen.toNat }) ∧
      Completes .fwcmdPorter s (lodge { l with fwStat := 1, fwKind := 1, fwImage := s.mem.bytes l.fwAddr.toNat l.fwLen.toNat })) ∧
    (l.fwStat ≠ 1 → Config.physTop < l.fwAddr.toNat + l.fwLen.toNat → Completes .fwcmdLodge s (lodge { l with fwStat := 3 }) ∧
      Completes .fwcmdPorter s (lodge { l with fwStat := 3 })) ∧
    (l.fwStat = 1 → Completes .fwcmdLodge s (lodge l) ∧ Completes .fwcmdPorter s (lodge l)) ∧
    (l.attStat = 1 ∨ v.toNat % 8 ≠ 0 → Completes (.attreq v) s (lodge l)) ∧
    (l.attStat ≠ 1 → l.lifecycle = 1 ∨ l.lifecycle = 2 → v.toNat % 8 = 0 → v.toNat + 64 ≤ Config.physTop → s.poison = [] →
      Completes (.attreq v) s (lodge { l with attStat := 1, attAddr := v })) ∧
    (l.attStat ≠ 1 → v.toNat % 8 = 0 → l.lifecycle = 0 ∨ l.lifecycle = 3 ∨ Config.physTop < v.toNat + 64 → Completes (.attreq v) s fun t => t.lodge = { l with attStat := 3 }) ∧
    (l.coresUp = true → 0 < fn → fn < 32 → fn < s.fns.length →
      (v.toNat % 0x20_0000 = 0 → (if bound then x.s2base else v).toNat + (if bound then v else x.s2bound).toNat ≤ Config.physTop →
        Completes (.s2SegmentWrite fn bound v) s fun t => t.mem = s.mem ∧ t.fn fn = (if bound then { x with s2bound := v } else { x with s2base := v }) ∧
          ∀ q ∈ t.xlats, q.fn ≠ fn) ∧
      (v.toNat % 0x20_0000 ≠ 0 → Completes (.s2SegmentWrite fn bound v) s fun t => (t.fn fn).s2base = x.s2base ∧ (t.fn fn).s2bound = x.s2bound ∧
        t.xlats = s.xlats)) ∧
    (∀ e, n < 16 → fn < 32 → fn < s.fns.length → x.msix[n]? = some e → Completes (.msixVectorUnmask fn n) s fun t => t.mem = s.mem ∧
      (t.fn fn).msix[n]? = some { e with masked := false } ∧ (t.fn fn).msixPend.getLsbD n = false ∧
      t.out = if x.msixPend.getLsbD n then s.out ++ [.msix fn n e.addr e.data] else s.out) ∧
    (fn < 32 → fn < s.fns.length →
      (v.toNat % 4096 = 0 → Completes (.registerWrite die .mgmt (0x2000 + 64 * fn) v) s fun t => t.mem = s.mem ∧ t.fn fn = { x with clbase := v }) ∧
      Completes (.registerWrite die .mgmt (0x2018 + 64 * fn) v) s (fun t => t.mem = s.mem ∧ t.fn fn = { x with clrd := loWord v })) ∧
    (die < s.dies.length → 16 ≤ v.toNat → v.toNat ≤ 4096 → Completes (.registerWrite die .mgmt 0x5800 v) s fun t =>
      t.die die = { s.die die with lterm := v.toNat }) ∧
    (v.toNat < 16 ∨ 4096 < v.toNat → die < s.dies.length → Completes (.registerWrite die .mgmt 0x5800 v) s fun t => t.die die = s.die die)

/-- What a hold identifier names goes on, or ends (R348); one that names nothing has no effect. The writers of a side log that the host ends end with
it (R392). Rests on the model's choices of log entry 56. -/
def Obligations.HoldRelease : Prop :=
  ∀ (s : State) (fn hid w lb : Nat),
    let wp := s.warp w
    let free := fun (t : State) => t.holds = s.holds.filter fun h => h.1 != hid
    (s.holdOf fn hid = none → Completes (.clrelResume fn hid) s (fun t => t = s) ∧ Completes (.clrelEnd fn hid) s fun t => t = s) ∧
    (s.holdOf fn hid = some (.sideLog w) →
      Completes (.clrelResume fn hid) s (fun t => t = s.setWarp w { wp with logDrain := true }) ∧
      Completes (.clrelEnd fn hid) s fun t => (t.warp w).sideLog = [] ∧ ((∀ b ∈ s.bars, b.saved = none) → t.mem = s.mem) ∧
        (wp.window = none → (t.warp w).regs = wp.regs ∧
          ∀ e ∈ wp.sideLog, ∀ g, wp.segAt e.lbase = some g → (t.warp w).live &&& g.slots = 0)) ∧
    (∀ g x, s.holdOf fn hid = some (.seg w lb) → wp.segAt lb = some g → g.lbase = lb → g.cause = some x → g.queue = [] →
      (x.code ≠ 0x18 → x.at_.cls ≠ 7 → x.cls ≠ .d → g.abs x.lanes &&& wp.live ≠ 0 → Completes (.clrelResume fn hid) s fun t => free t ∧ t.mem = s.mem ∧
        (t.warp w).regs = wp.regs ∧ (∃ h, (t.warp w).segAt lb = some h ∧ h.cause = none) ∧
        ∃ a ∈ (t.warp w).resume, a.hdr = x.at_.hdr ∧ a.slot = x.at_.slot ∧ a.lanes = g.abs x.lanes &&& wp.live) ∧
      (s.warps = [(w, wp)] → wp.segs = [g] → wp.window = none → (∀ b ∈ s.bars, b.saved = none) → Completes (.clrelEnd fn hid) s fun t => t.mem = s.mem ∧
        (t.warp w).live = wp.live &&& ~~~g.slots ∧ ∃ h, (t.warp w).segAt lb = some h ∧ h.cause = none ∧ h.lmask = 0)) ∧
    (s.holdOf fn hid = some (.warp w) → Completes (.clrelResume fn hid) s fun t => free t ∧
      t.warp w = { wp with level := 0, levelAt := s.now }) ∧
    (∀ r x, s.holdOf fn hid = some (.ring r) → s.ring r = x →
      (Completes (.clrelResume fn hid) s fun t => free t ∧ ∃ n, t.ring r = { x with wait := none, turn := n }) ∧
      Completes (.clrelEnd fn hid) s fun t => (t.ring r).stat = 2 ∧ (t.ring r).frames = [] ∧ (t.ring r).rdoff = x.rdoff) ∧
    (∀ c x, s.holdOf fn hid = some (.cmd c) → s.cmds.find c = some x → Completes (.clrelResume fn hid) s fun t => free t ∧
      t.cmds.find c = some { x with st := .released, hid := 0 }) ∧
    (∀ n e, s.holdOf fn hid = some (.gallery n) → s.gals.find n = some e →
      (Completes (.clrelResume fn hid) s fun t => free t ∧ t.gals.find n = some { e with hid := 0 }) ∧
      (e.st ≠ .filling → Completes (.clrelEnd fn hid) s fun t => t.gals = s.gals.del n ∧ t.mem = s.mem)) ∧
    (∀ d, s.holdOf fn hid = some (.die d) → d < s.dies.length → Completes (.clrelResume fn hid) s fun t => free t ∧ (t.die d).wrapLate = false)

/-- A packet is fetched while no more than 32 packets and 2,048 bytes wait (R296); when one has executed, the ring stands at the next one, which stops
it if it breaks a rule (R310), or is idle when nothing is left (R287). Rests on the model's choices of log entries 53, 57. -/
def Obligations.PacketFlow : Prop :=
  ∀ (s : State) (r : Nat) (f : Frame) (p q : FPkt) (rest : List FPkt) (c : Cursor),
    let x := s.ring r
    x.stat = 1 → x.gather = none → x.skip = none → x.frames = [f] → f.body = [] →
    (x.wait = none → s.fetchPkt r f.curs = .dry → Completes (.packetFetch r) s fun t => t = s) ∧
    (x.wait = none → f.fetched ≠ [] → 32 ≤ x.ahead.1 → Completes (.packetFetch r) s fun t => t = s) ∧
    (∀ ps, x.wait = none → f.fetched = q :: rest → s.fetchPkt r f.curs = .pkt p ps →
      (2048 < x.ahead.2 + p.bytes → Completes (.packetFetch r) s fun t => t = s) ∧
      (x.ahead.1 < 32 → x.ahead.2 + p.bytes ≤ 2048 → s.piecesReadable (ringDie r) ps = true → q.fault false = none →
        Completes (.packetFetch r) s fun t => t.mem = (s.readTouch none ps).mem ∧ (t.ring r).stat = 1 ∧
          (t.ring r).frames = [{ f with fetched := f.fetched ++ [p], curs := p.curs }])) ∧
    (f.fetched = p :: q :: rest → trimCurs p.curs = [c] →
      let t := s.donePkt r id
      (q.fault false = none → t.mem = s.mem ∧ (t.ring r).stat = 1 ∧ (t.ring r).rdoff = c.off ∧
        (t.ring r).frames = [{ f with fetched := q :: rest, here := p.curs }]) ∧
      ∀ code d, q.fault false = some (code, d) → (t.ring r).stat = 2 ∧ (t.ring r).rdoff = q.rpos ∧ (t.ring r).frames = [] ∧ t.jobs = s.jobs) ∧
    (f.fetched = [p] → f.curs = [c] → p.curs = [c] → c.ring = true → x.left c = 0 →
      ((s.donePkt r id).ring r).stat = 0 ∧ ((s.donePkt r id).ring r).rdoff = c.off)

/-- The packets that start work or change what is executed next (R289, R291 to R297, R300). Rests on the model's choices of log entries 58, 75. -/
def Obligations.PacketWork : Prop :=
  ∀ (s : State) (r : Nat) (p : FPkt), s.headPkt r = some p →
    let die := ringDie r
    let fn := ringFn r
    let ctx := (s.ring r).ctx
    let job := s.nextNo
    let copy := fun (n : Nat) (d : BitVec 512) => ({
      cell := 0xD0, seq := 0, warp := noWarp, lbase := 0, gid := none, gen := 0, desc := 0, image := some d,
      acq := true, rel := true, st := .released, job := some job, ctx := ctx, fn := fn, die := die, token := false, hid := 0, since := s.now, insn := n,
      upto := 0, lanes := 0, pos := 0, gain := false, eng := none, judged := false, ready := false, got := [], wrote := [], staged := none,
      stagedBad := [], spoiled := false } : Cmd)
    (p.kind = 1 → Completes (.pktNop r) s fun t => t = s.donePkt r id) ∧
    (∀ o, p.kind = 2 → s.findEntry die ctx (field (p.desc 2) 63 0) = some o →
      let l := launchOfDesc (p.desc 2) ctx fn die o job
      l.neverFits = false → l.unitCount ≠ 0 → Completes (.pktLaunch r) s (Onward s r id fun u => u.mem = s.mem ∧
        u.launches.find (job + 1) = some l ∧ u.jobs.find job = some ⟨l.unitCount, r, none, false⟩ ∧
        ∃ old i, u.intake.find die = some (old ++ [i]) ∧ old.length = ((s.intake.find die).getD []).length ∧ i.launch = job + 1 ∧ i.prio = l.prio ∧
          i.next = 0 ∧ i.units = l.unitCount)) ∧
    (p.kind = 3 → p.par 7 0 ≠ 0 → (∀ e, e < p.par 7 0 → p.w (2 + 10 * e) ≠ 0 ∧ emptyCopy 0xD0 (p.desc (4 + 10 * e)) = false) →
      Completes (.pktBundle r) s (Onward s r id fun u => u.mem = s.mem ∧
      u.jobs.find job = some ⟨p.par 7 0, r, none, false⟩ ∧ ∀ e, e < p.par 7 0 → u.cmds.find (job + 1 + e) = some (copy (job + 1 + e) (p.desc (4 + 10 * e))))) ∧
    (∀ o, p.kind = 3 → p.par 7 0 = 1 → p.w 2 = 0 → s.findEntry die ctx (field (p.desc 4) 63 0) = some o →
      let l := launchOfDesc (p.desc 4) ctx fn die o job
      l.neverFits = false → l.unitCount ≠ 0 → Completes (.pktBundle r) s (Onward s r id fun u => u.mem = s.mem ∧
        u.launches.find (job + 1) = some l ∧ u.jobs.find job = some ⟨l.unitCount, r, none, false⟩)) ∧
    (p.kind = 4 → emptyCopy 0xD0 (p.desc 2) = false → Completes (.pktCopy r) s (Onward s r id fun u => u.mem = s.mem ∧ u.jobs.find job = some ⟨1, r, none, false⟩ ∧
      u.cmds.find (job + 1) = some (copy (job + 1) (p.desc 2)))) ∧
    (p.kind = 5 → p.followed = true → Completes (.pktIndirect r) s fun t => t = s.donePkt r id) ∧
    (p.kind = 5 → p.followed = false → Completes (.pktIndirect r) s fun t => t = s.donePkt r fun x =>
      let c : Cursor := ⟨p.w 1, fieldN (p.w 2) 31 0, 0, false, p.lvl + 1, p.rpos⟩
      { x with frames := ⟨[c], [c], [], [], 0⟩ :: x.frames }) ∧
    (∀ v y, p.kind = 6 → s.cpWord die ctx fn (p.w 1) = .ok (v, y) → s.piecesReadable die [y] = true →
      let u := s.readTouch none [y]
      (condHolds (p.par 10 8) v (loWord (p.w 2)) = true → Completes (.pktPred r) s fun t => t = u.donePkt r id) ∧
      (condHolds (p.par 10 8) v (loWord (p.w 2)) = false → Completes (.pktPred r) s fun t =>
        t = u.donePkt r fun x => { x with skip := some (p.lvl, p.par 7 0) })) ∧
    (p.kind = 7 → Completes (.pktLoop r) s fun t => t = s.donePkt r fun x => { x with gather := some ⟨p, p.par 7 0, [], p.par 31 16⟩ }) ∧
    (p.kind = 8 → Completes (.pktFfence r) s fun t => t = s.donePkt r fun x =>
      { x with frames := x.frames.map fun f => if f.body = [] then { f with fetched := [], curs := f.here } else f })

/-- The packets that wait, signal, trigger a graph or switch a context (R298, R299, R301, R302, R307). Rests on the model's choices of log entry 1. -/
def Obligations.PacketWaits : Prop :=
  ∀ (s : State) (r : Nat) (p : FPkt),
    let x := s.ring r
    let die := ringDie r
    let fn := ringFn r
    let waits := fun (k : RingWait) (t : State) => t = s.setRing r { x with wait := some k }
    (s.headPkt r = some p →
      (p.kind = 9 → p.par 1 0 = 0 → s.ringBusy r = true → Completes (.pktWaitCompletion r) s (waits .jobs)) ∧
      (p.kind = 9 → p.par 1 0 = 0 → s.ringBusy r = false → Completes (.pktWaitCompletion r) s fun t => t = s.donePkt r id) ∧
      (∀ v y, p.kind = 9 → p.par 1 0 = 1 → s.cpWord die x.ctx fn (p.w 1) = .ok (v, y) → s.piecesReadable die [y] = true →
        (condHolds (p.par 10 8) v (loWord (p.w 2)) = true → Completes (.pktWaitPoll r) s fun t => t = (s.readTouch none [y]).donePkt r id) ∧
        (condHolds (p.par 10 8) v (loWord (p.w 2)) = false → Completes (.pktWaitPoll r) s fun t =>
          t = (s.readTouch none [y]).setRing r { x with wait := some (.poll 16 (s.now + 16) v) })) ∧
      (p.kind = 10 → p.par 0 0 = 1 → s.ringBusy r = true → Completes (.pktSignal r) s (waits .jobs)) ∧
      (∀ pa z, p.kind = 10 → p.par 0 0 = 0 ∨ s.ringBusy r = false → s.place (cpAsker die x.ctx fn) 0 .store 8 (p.w 1) = .ok ⟨.hbm pa, z⟩ →
        (∀ l ∈ pieceLines [⟨p.w 1, 8, .hbm pa, z⟩], s.lineReady l = true ∧ s.wrapHeld die (.hbm (l * 128)) = false) → s.mem.wf = true →
        Completes (.pktSignal r) s
          (Onward s r id fun u => u.mem.nat pa 8 = (p.w 2).toNat ∧
            (p.par 1 1 = 0 → u.out = s.out ∧ u.fns = s.fns) ∧
            (p.par 1 1 = 1 → ∀ e, (s.fn fn).msix.getD (p.par 15 8) ⟨0, 0, true⟩ = e → e.masked = false →
              u.out = s.out ++ [.msix fn (p.par 15 8) e.addr e.data]))) ∧
      (p.kind = 11 → trigLegal (p.w 1) = true → ∀ g, s.graphs.find (die * 256 + fieldN (p.w 1) 63 56) = some g → g.unloading = false → g.pending = none →
        Completes (.pktGraph r) s (Onward s r id fun u => u.mem = s.mem ∧ u.jobs.find s.nextNo = some ⟨1, r, none, false⟩ ∧
          u.graphs = s.graphs.put (die * 256 + fieldN (p.w 1) 63 56) (
            let trig := some (p.w 1, x.ctx, some s.nextNo)
            if g.run.isNone && g.starting.isNone then { g with starting := trig } else { g with pending := trig }))) ∧
      (p.kind = 12 → s.ctxLive (p.par 9 0) fn = true → Completes (.pktCtxsw r) s (Onward s r id fun u => u.mem = s.mem ∧ u.groups = s.groups ∧
        ∀ k z, s.units = [(k, z)] → s.unitCtx z = p.par 9 0 → z.st = .placed → (u.units.find k).map UnitRec.st = some .stopping)) ∧
      (p.kind = 12 → s.ctxLive (p.par 9 0) fn = false → Completes (.pktCtxsw r) s fun t => (t.ring r).stat = 2 ∧ (t.ring r).rdoff = p.rpos ∧ t.units = s.units)) ∧
    (x.stat = 1 →
      let go := fun (t : State) => t.mem = s.mem ∧ t.jobs = s.jobs ∧ t.graphs = s.graphs ∧ ∃ n, t.ring r = { x with wait := none, turn := n }
      (x.wait = some .jobs → s.ringBusy r = true → Completes (.cpWaitRelease r) s fun t => t = s) ∧
      (x.wait = some .jobs → s.ringBusy r = false → Completes (.cpWaitRelease r) s go) ∧
      (∀ g, x.wait = some (.unload g) →
        (((s.graphs.find g).map Graph.unloading).getD false = false → Completes (.cpWaitRelease r) s go) ∧
        (((s.graphs.find g).map Graph.unloading).getD false = true → Completes (.cpWaitRelease r) s fun t => t = s)) ∧
      (∀ n due v, x.wait = some (.poll n due v) → s.now < due → Completes (.cpWaitRelease r) s fun t => t = s) ∧
      ∀ n due v u y, x.wait = some (.poll n due v) → due ≤ s.now → (x.frames.head?.bind fun f => f.fetched.head?) = some p →
        s.cpWord die x.ctx fn (p.w 1) = .ok (u, y) → s.piecesReadable die [y] = true →
        (condHolds (p.par 10 8) u (loWord (p.w 2)) = true → Completes (.cpWaitRelease r) s fun t => t = (s.readTouch none [y]).donePkt r id) ∧
        (condHolds (p.par 10 8) u (loWord (p.w 2)) = false → Completes (.cpWaitRelease r) s fun t =>
          let k := if u = v then min (2 * n) 4096 else 16
          t = (s.readTouch none [y]).setRing r { x with wait := some (.poll k (s.now + k) u) }))

/-- `CONFIG` (R224, R266, R301, R303): the object is created or changed, or the packet stops its ring. Rests on the model's choices of log entry 64. -/
def Obligations.PacketConfigs : Prop :=
  ∀ (s : State) (r : Nat) (p : FPkt), s.headPkt r = some p → p.kind = 13 →
    let die := fieldN (p.w 1) 63 62
    let idx := fieldN (p.w 1) 15 0
    let q := die * 256 + idx
    let g := die * 256 + fieldN (p.w 1) 7 0
    let n := fieldN (p.w 1) 27 16
    let set := fieldN (p.w 1) 23 16
    let done := fun (i : Instr) (P : State → Prop) => Completes i s (Onward s r id P)
    let stops := fun (i : Instr) => Completes i s fun t => (t.ring r).stat = 2 ∧ (t.ring r).rdoff = p.rpos ∧ t.taskqs = s.taskqs ∧ t.depctrs = s.depctrs
    (p.par 7 0 = 0 →
      (idx ≤ 255 → fieldN (p.w 1) 47 32 ≠ 0 → s.taskqs.find q = none → done (.configCreateTaskQueue r) fun u => u.mem = s.mem ∧
        u.taskqs = s.taskqs.put q ⟨fieldN (p.w 1) 16 16 == 1, fieldN (p.w 1) 47 32, false, none, []⟩) ∧
      (255 < idx ∨ fieldN (p.w 1) 47 32 = 0 ∨ (s.taskqs.find q).isSome = true → stops (.configCreateTaskQueue r))) ∧
    (p.par 7 0 = 1 →
      (s.depctrs.find (die * 65536 + idx) = none → done (.configCreateCounter r) fun u => u.mem = s.mem ∧
        u.depctrs = s.depctrs.put (die * 65536 + idx) ⟨loWord (p.w 2), []⟩) ∧
      ((s.depctrs.find (die * 65536 + idx)).isSome = true → stops (.configCreateCounter r))) ∧
    (p.par 7 0 = 2 →
      (∀ y, idx ≤ 255 → s.taskqs.find q = some y → done (.configCloseTaskQueue r) fun u => u.mem = s.mem ∧
        u.taskqs = s.taskqs.put q { y with closed := true }) ∧
      (255 < idx ∨ s.taskqs.find q = none → stops (.configCloseTaskQueue r))) ∧
    (p.par 7 0 = 3 →
      (∀ y, idx ≤ 255 → s.taskqs.find q = some y → y.worker = true → y.set = none ∨ y.set = some set → done (.configJoinStealSet r) fun u =>
        u.mem = s.mem ∧ u.taskqs = s.taskqs.put q { y with set := some set }) ∧
      (∀ y, s.taskqs.find q = some y → y.worker = false ∨ (∃ k, y.set = some k ∧ k ≠ set) → stops (.configJoinStealSet r))) ∧
    (p.par 7 0 = 4 → s.graphs.find g = none →
      (∀ bs ps, n ≠ 0 → s.readVirt (ringDie r) (s.ring r).ctx (ringFn r) (p.w 2).toNat (64 * n) = .ok (bs, ps) →
        s.piecesReadable (ringDie r) ps = true →
        let ns := (List.range n).map fun k => BitVec.ofNat 512 (natOfBytes ((bs.drop (64 * k)).take 64))
        (graphBad ns = none → done (.configLoadGraph r) fun u =>
          u.graphs = s.graphs.put g ⟨die, ringFn r, (s.ring r).ctx, ns, p.w 3, none, none, none, false⟩) ∧
        (graphBad ns ≠ none → stops (.configLoadGraph r))) ∧
      (n = 0 → stops (.configLoadGraph r))) ∧
    (p.par 7 0 = 5 →
      (s.graphs.find g = none → done (.configUnloadGraph r) fun u => u = s) ∧
      ∀ y, s.graphs.find g = some y → y.pending = none →
        (y.run = none → y.starting = none → done (.configUnloadGraph r) fun u => u.graphs = s.graphs.del g ∧ u.mem = s.mem) ∧
        (y.run.isSome = true ∨ y.starting.isSome = true → Completes (.configUnloadGraph r) s fun t => t.graphs = s.graphs.put g { y with unloading := true } ∧
          t.ring r = { s.ring r with wait := some (.unload g) }))

/-- A run starts with every count at `NPRED` (R304), a node does what its kind says and then finishes, which decrements its successors (R304 to R306),
and the end node ends the run. Rests on the model's choices of log entries 4, 64. -/
def Obligations.GraphEvents : Prop :=
  ∀ (s : State) (g n : Nat) (x : Graph),
    s.graphs.find g = some x →
    (∀ v ctx job, x.starting = some (v, ctx, job) → x.run = none → s.nodeHeld g = false → fieldN v 55 49 = 0 →
      Completes (.graphRunStart g) s fun t => t.mem = s.mem ∧ ∃ y : Run, t.graphs.find g = some { x with starting := none, run := some (y : Run) } ∧
        y.done = false ∧ y.abandoned = false ∧ y.job = job ∧ ∀ k (d : BitVec 512), k < x.nodes.length → x.nodes.getD k 0 = d → y.counts[k]? = some (nodePred d) ∧
          (y.sts : List NodeSt)[k]? = some (if nodePred d = 0 then NodeSt.ready else NodeSt.waiting)) ∧
    (x.starting = none ∨ x.run.isSome = true → Completes (.graphRunStart g) s fun t => t = s) ∧
    (∀ y d, x.run = some y → x.nodes[n]? = some d → y.sts[n]? = some .ready → y.abandoned = false → (s.holds.any fun h => h.2.2 == .node g n) = false →
      let after := fun (t : State) (z : Run) => t.graphs.find g = some { x with run := some z }
      let desc := s.readVirt x.die x.ctx x.fn (nodePtr d).toNat 64
      (∀ bs ps o, nodeKind d = 0 → desc = .ok (bs, ps) → s.piecesReadable x.die ps = true → launchFault (BitVec.ofNat 512 (natOfBytes bs)) = none →
        s.findEntry x.die x.ctx (field (BitVec.ofNat 512 (natOfBytes bs)) 63 0) = some o →
        let l := launchOfDesc (BitVec.ofNat 512 (natOfBytes bs)) x.ctx x.fn x.die o s.nextNo
        l.neverFits = false → l.unitCount ≠ 0 → Completes (.graphLaunchNode g n) s fun t => after t (y.setSt n .acting) ∧
          t.launches.find (s.nextNo + 1) = some l ∧ t.jobs.find s.nextNo = some ⟨l.unitCount, 0, some (g, n), false⟩) ∧
      (∀ bs ps, nodeKind d = 1 → desc = .ok (bs, ps) → s.piecesReadable x.die ps = true → copyFault (BitVec.ofNat 512 (natOfBytes bs)) = false →
        emptyCopy 0xD0 (BitVec.ofNat 512 (natOfBytes bs)) = false →
        Completes (.graphCopyNode g n) s fun t => after t (y.setSt n .acting) ∧ t.jobs.find s.nextNo = some ⟨1, 0, some (g, n), false⟩ ∧
          (t.cmds.find (s.nextNo + 1)).bind Cmd.image = some (BitVec.ofNat 512 (natOfBytes bs))) ∧
      (∀ v z, nodeKind d = 2 → s.cpWord x.die x.ctx x.fn (nodePtr d) = .ok (v, z) → s.piecesReadable x.die [z] = true → y.done = false →
        Completes (.graphCondNode g n) s fun t => after t (y.finish n (if condHolds (nodeCond d) v (nodeCmp d) then nodeSuccs d else [nodeElse d]))) ∧
      (∀ v z, nodeKind d = 3 → s.cpWord x.die x.ctx x.fn (nodePtr d) = .ok (v, z) → s.piecesReadable x.die [z] = true → y.done = false →
        Completes (.graphLoopNode g n) s fun t => after t (if condHolds (nodeCond d) v (nodeCmp d) then y.enterLoop x n d else y.finish n (nodeSuccs d))) ∧
      (nodeKind d = 4 → x.unloading = false → x.pending = none → s.nodeHeld g = false → Completes (.graphEndNode g n) s fun t =>
        t.graphs.find g = some { x with run := none, starting := none } ∧ t.mem = s.mem)) ∧
    (∀ y j w, x.run = some y → s.jobs.find? (fun q => q.2.node == some (g, n) && q.2.left == 0) = some (j, w) → w.failed = false → y.done = false →
      y.abandoned = false → Completes (.graphNodeFinish g n) s fun t => t.mem = s.mem ∧ t.jobs = s.jobs.del j ∧
        t.graphs.find g = some { x with run := some (y.finish n (nodeSuccs (x.nodes.getD n 0))) }) ∧
    (∀ (y : Run) k, (y.sts[k]? ≠ some .waiting → y.decrement k = y) ∧
      (y.sts[k]? = some .waiting → k < y.counts.length → (y.decrement k).counts.getD k 0 = y.counts.getD k 0 - 1 ∧
        (y.decrement k).sts[k]? = some (if y.counts.getD k 0 ≤ 1 ∧ y.abandoned = false then .ready else .waiting)))

/-- Frames and gating (R173, R309), machine errors and scrubs (R406 to R410). Rests on the model's choices of log entries 4, 65, 66, 68, 70. -/
def Obligations.ErrorEvents : Prop :=
  ∀ (s : State) (die port : Nat) (frame : List Byte) (er : ErrInput),
    let l := s.lodge
    let lost := s.retired.any fun q => q.1 == portDie port && q.2.1 == 9 && q.2.2.toNat == port
    let sleeps := lost = false ∧ (s.allGated = true ∨ l.frames ≠ [])
    (¬sleeps → Completes (.swezinFrameArrival port frame) s fun t => t = s) ∧
    (sleeps → (l.wake.find? fun e => e.hits port frame) = none → Completes (.swezinFrameArrival port frame) s fun t =>
      t.lodge = { l with wfUnmatched := bump32 l.wfUnmatched } ∧ t.dies = s.dies) ∧
    (∀ e, sleeps → (l.wake.find? fun e => e.hits port frame) = some e →
      (16 ≤ l.frames.length → Completes (.swezinFrameArrival port frame) s fun t => t.lodge = { l with wfFull := bump32 l.wfFull } ∧ t.dies = s.dies) ∧
      (l.frames.length < 16 → l.coresUp = true → e.die < s.dies.length → Completes (.swezinFrameArrival port frame) s fun t => t.mem = s.mem ∧
        t.lodge = { l with frames := l.frames ++ [(port, frame)] } ∧ (t.die e.die).porterGated = false ∧ ∀ d, (t.die d).gated = (s.die d).gated)) ∧
    (die < 4 → die < s.dies.length → (s.die die).gated = false ∨ (s.die die).porterGated = false →
      (s.dieIdle die = true → l.frames = [] → Completes (.dieGating die) s fun t => t = s.onDie die fun d =>
        { d with gated := true, porterGated := true, sleep := if (s.die die).sleep.asleep then (s.die die).sleep else ⟨true, s.wrapCount, 0⟩ }) ∧
      (s.dieIdle die = false ∨ l.frames ≠ [] → Completes (.dieGating die) s fun t => t = s)) ∧
    (er.kind = .retried → Completes (.memoryError er) s fun t =>
      t = s.post 0xB1 { addr := er.addr, detail := BitVec.ofNat 32 er.unit, die := er.die }) ∧
    (er.kind = .corrected → s.ecc = [] → Completes (.memoryError er) s fun t => t.poison = s.poison ∧ t.retired = s.retired ∧
      t.ecc = [⟨er.die, er.unit, s.now + 1, 0, [(er.addr, s.now)]⟩]) ∧
    (∀ n, er.kind = .corrected → s.ecc = [⟨er.die, er.unit, n, 0, [(er.addr, s.now)]⟩] → er.unit ≠ 0 →
      Completes (.memoryError er) s fun t => t.retired = s.retired ++ [(er.die, er.unit, er.addr)]) ∧
    (er.kind = .lasting → er.unit = 0 → Completes (.memoryError er) s fun t => er.addr.toNat / 32 ∈ t.poison ∧ (∀ k ∈ s.poison, k ∈ t.poison) ∧
      (er.spare = false → t.retired = s.retired ++ [(er.die, 0, er.addr &&& ~~~0xFFF)]) ∧ (er.spare = true → t.retired = s.retired)) ∧
    (er.kind = .lasting → er.unit = 4 → Completes (.memoryError er) s fun t =>
      er.addr.toNat % 8192 ∈ (t.warp (er.addr.toNat / 8192)).poison) ∧
    (die < 4 → die < s.dies.length →
      (s.now < 51840000000000 * ((s.die die).scrubs + 1) → Completes (.hbmScrub die) s fun t => t = s) ∧
      (51840000000000 * ((s.die die).scrubs + 1) ≤ s.now → s.poison = [] → Completes (.hbmScrub die) s fun t =>
        t = s.onDie die fun d => { d with scrubs := d.scrubs + 1 }))

/-- Reset and life cycle, firmware, attestation, power, heartbeats and votes (R285, R411 to R419). Rests on the model's choices of log entries 4, 10,
67, 70, 107. -/
def Obligations.LodgeEvents : Prop :=
  ∀ (s : State) (pkg target : Nat) (seq epoch : DWord) (sig : List Byte) (ok : Bool),
    let l := s.lodge
    let wiped := fun (t : State) (cycle : Nat) => t.mem = [] ∧ t.spad = [] ∧ t.warps = [] ∧ t.ctxs = [] ∧ t.rings = [] ∧ t.now = 0 ∧
      t.flash = s.flash ∧ t.lodge.lifecycle = cycle ∧ t.lodge.resetAsked = false
    (l.resetAsked = false → Completes .moduleReset s fun t => t = s) ∧
    (l.resetAsked = true → Completes .moduleReset s fun t => wiped t l.lifecycle) ∧
    Completes (.lifecycleTransition sig) s (fun t => match Config.lifecycleCommand sig with
      | some k => if k = l.lifecycle + 1 ∧ k ≤ 3 then wiped t k ∧ t.lodge.keyPresent = decide (k = 1 ∨ k = 2) else t = s
      | none => t = s) ∧
    (l.fwStat ≠ 1 → Completes (.firmwareCopyComplete ok) s fun t => t = s) ∧
    (l.fwStat = 1 → l.fwKind = 0 → Completes (.firmwareCopyComplete ok) s fun t => t.mem = s.mem ∧ t.lodge.porterFw = l.porterFw ∧
      t.lodge.fwStat = (if ok then 2 else 3) ∧ (ok = false → t.lodge.lodgeFw = l.lodgeFw) ∧
      (ok = true → l.lodgeFw.active = 0 → t.lodge.lodgeFw = { l.lodgeFw with b := l.fwImage, active := 1 })) ∧
    (l.attStat ≠ 1 → Completes .attestReportDone s fun t => t = s) ∧
    (let a := l.attAddr.toNat
     l.attStat = 1 → s.mem.wf = true →
      (s.claimsOf (.lodge a) = [] → s.piecesReadable (homeDie a) [physPiece a 64] = false → Completes .attestReportDone s fun t => t = s) ∧
      (s.piecesReadable (homeDie a) [physPiece a 64] = true → (∀ l ∈ pieceLines [physPiece (a + 64) 4907], s.lineReady l = true ∧
          s.wrapHeld (homeDie a) (.hbm (l * 128)) = false) →
        Completes .attestReportDone s fun t => t.lodge = { l with attStat := 2 } ∧ ∀ k, k < a + 64 → t.mem.byte k = s.mem.byte k)) ∧
    (l.throttled = false → Completes .powerLimitExceeded s fun t => t.lodge = { l with throttled := true } ∧ t.warps = s.warps) ∧
    Completes .powerThrottleRelease s (fun t => t = { s with lodge := { l with throttled := false } }) ∧
    (s.now < 6000000 * (l.hbSeq.toNat + 1) → Completes .heartbeatSend s fun t => t = s) ∧
    (6000000 * (l.hbSeq.toNat + 1) ≤ s.now → Completes .heartbeatSend s fun t => t.lodge = { l with hbSeq := l.hbSeq + 1 } ∧
      t.out = s.out ++ s.linkPorts.map fun p => OutMsg.heartbeat p l.pkgNum.toNat l.hbSeq) ∧
    Completes (.heartbeatReceive pkg seq) s (fun t => t.mem = s.mem ∧ t.lodge.neighbours.length = l.neighbours.length ∧
      ∀ n ∈ t.lodge.neighbours, n.pkg = pkg → n.heard = s.now) ∧
    (∀ n, (l.neighbours.find? fun n => n.pkg == pkg) = some n →
      (s.now < max n.heard n.missed + 18000000 → Completes (.heartbeatMiss pkg) s fun t => t = s) ∧
      (max n.heard n.missed + 18000000 ≤ s.now → Completes (.heartbeatMiss pkg) s fun t => t.lodge.voteEpoch = l.voteEpoch + 1 ∧
        ∃ tail, t.out = s.out ++ .vote l.pkgNum.toNat pkg (l.voteEpoch + 1)
          ((List.range 4627).map (Config.deviceSign (Config.voteDigest l.pkgNum.toNat pkg (l.voteEpoch + 1)))) :: tail) ∧
      (target = l.pkgNum.toNat → n.epoch.toNat < epoch.toNat → l.votes.length < 2 → Completes (.resetVoteReceive pkg target epoch sig) s fun t =>
        if Config.voteSigned n.key pkg target epoch sig then
          t.mem = s.mem ∧ (pkg, s.now) ∈ t.lodge.votes ∧ ∀ m ∈ t.lodge.neighbours, m.pkg = pkg → m.epoch = epoch
        else t.lodge = l) ∧
      (target ≠ l.pkgNum.toNat ∨ epoch.toNat ≤ n.epoch.toNat → Completes (.resetVoteReceive pkg target epoch sig) s fun t => t.lodge = l)) ∧
    ((l.neighbours.find? fun n => n.pkg == pkg) = none → Completes (.resetVoteReceive pkg target epoch sig) s fun t => t.lodge = l)

/-- What the module holds after reset, by the rules that give it a value (R285, R374, R412): memories read 0, nothing stands in a warp slot, the
tunables and the counts are as R285 has them. Rests on the model's choices of log entries 5, 92. -/
def Obligations.ResetState : Prop :=
  State.reset.memoriesWf = true ∧ (∀ a, State.reset.mem.byte a = 0 ∧ State.reset.spad.byte a = 0) ∧
  (∀ w, (State.reset.warp w).segs = [] ∧ (State.reset.warp w).live = 0 ∧ ∀ n, (State.reset.warp w).reg n = ⟨.void, []⟩) ∧
  (∀ c n, State.reset.landing c n = Landing.reset) ∧
  (∀ d, d < 4 → (State.reset.die d).lterm = 256 ∧ (State.reset.die d).stealDly = 2048 ∧ (State.reset.die d).galWait = 8192 ∧
    (State.reset.die d).gated = false ∧ (State.reset.die d).porterGated = false ∧ (State.reset.die d).spares = 3) ∧
  (∀ f, (State.reset.fn f).clbase = 0 ∧ (State.reset.fn f).clsize = 0 ∧ (State.reset.fn f).clwr = 0 ∧ (State.reset.fn f).clrd = 0) ∧
  State.reset.now = 0 ∧ State.reset.leaseClock = 0 ∧ State.reset.wrapCount = 0 ∧ (∀ r, State.reset.ring r = Ring.reset) ∧
  State.reset.lodge.fwStat = 0 ∧ State.reset.lodge.attStat = 0 ∧ State.reset.lodge.txCnt = 0

/-- Every step keeps the canonical form of every memory. -/
def Obligations.StepKeepsMemories : Prop :=
  ∀ s t : State, s.memoriesWf = true → step s = .next t → t.memoriesWf = true
end

