-- ==== Sys2Proof/Laws/Memory.lean ====
section
/-! SUPPORT. What tables and memories do: reading after writing, and the canonical form. -/

namespace Sys2Proof.Machine

/-! ### Tables -/

@[simp] theorem tab_find_put_same {α : Type} (t : Tab α) (k : Nat) (v : α) : (Tab.put t k v).find k = some v := by
  induction t with
  | nil => simp [Tab.put, Tab.find]
  | cons p rest ih =>
    obtain ⟨j, u⟩ := p
    simp only [Tab.put]
    split
    · simp [Tab.find]
    · split
      · simp [Tab.find]
      · simp only [Tab.find]
        split
        · contradiction
        · exact ih

@[simp] theorem tab_find_put_other {α : Type} (t : Tab α) (k i : Nat) (v : α) (h : i ≠ k) :
    (Tab.put t k v).find i = t.find i := by
  induction t with
  | nil => simp [Tab.put, Tab.find]; omega
  | cons p rest ih =>
    obtain ⟨j, u⟩ := p
    simp only [Tab.put]
    split
    · rename_i e; subst e; simp [Tab.find, Ne.symm h]
    · split
      · simp only [Tab.find, if_neg (Ne.symm h)]
        split
        · have : j ≠ i := by omega
          have : i < j := by omega
          simp [*]
        · rfl
      · simp only [Tab.find, ih]

/-- Taking a key out forgets what was put there. -/
@[simp] theorem tab_del_put {α : Type} (t : Tab α) (k : Nat) (v : α) : (Tab.put t k v).del k = t.del k := by
  induction t with
  | nil => simp [Tab.put, Tab.del]
  | cons p rest ih =>
    obtain ⟨j, u⟩ := p
    by_cases h1 : j = k
    · subst h1; simp [Tab.put, Tab.del]
    · by_cases h2 : k < j
      · simp [Tab.put, Tab.del, h1, h2]
      · simp [Tab.put, Tab.del, h1, h2, ih]

/-! ### The canonical form of a memory -/

/-- Every address of a memory is above `a`. -/
def Memory.above (m : Memory) (a : Nat) : Bool := m.all fun c => decide (a < c.1)

theorem memory_wf_cons (a : Nat) (b : Byte) (m : Memory) :
    Memory.wf ((a, b) :: m) = true ↔ b ≠ Memory.blank ∧ Memory.above m a = true ∧ Memory.wf m = true := by
  simp [Memory.wf, Memory.above, and_assoc]

theorem memory_above_put (m : Memory) (a c : Nat) (b : Byte) (h : c < a) (hm : Memory.above m c = true) :
    Memory.above (m.put a b) c = true := by
  induction m with
  | nil =>
    simp only [Memory.put]
    split <;> simp [Memory.above, h]
  | cons p rest ih =>
    obtain ⟨j, v⟩ := p
    have hr : Memory.above rest c = true := by
      simp only [Memory.above, List.all_cons, Bool.and_eq_true] at hm; exact hm.2
    have hj : c < j := by
      simp only [Memory.above, List.all_cons, Bool.and_eq_true, decide_eq_true_eq] at hm; exact hm.1
    simp only [Memory.put]
    split
    · split
      · exact hr
      · simp only [Memory.above, List.all_cons, Bool.and_eq_true, decide_eq_true_eq]; exact ⟨h, hr⟩
    · split
      · split
        · exact hm
        · simp only [Memory.above, List.all_cons, Bool.and_eq_true, decide_eq_true_eq]; exact ⟨h, hj, hr⟩
      · simp only [Memory.above, List.all_cons, Bool.and_eq_true, decide_eq_true_eq]
        exact ⟨hj, ih hr⟩

theorem memory_above_trans (m : Memory) (a c : Nat) (h : c ≤ a) (hm : Memory.above m a = true) : Memory.above m c = true := by
  simp only [Memory.above, List.all_eq_true, decide_eq_true_eq] at *
  intro x hx
  have := hm x hx
  omega

/-- One byte written keeps the canonical form. -/
theorem memory_put_wf (m : Memory) (a : Nat) (b : Byte) (h : m.wf = true) : (m.put a b).wf = true := by
  induction m with
  | nil =>
    simp only [Memory.put]
    split
    · rfl
    · rename_i e; simp [Memory.wf, e]
  | cons p rest ih =>
    obtain ⟨j, v⟩ := p
    obtain ⟨hv, hab, hr⟩ := (memory_wf_cons j v rest).1 h
    simp only [Memory.put]
    split
    · rename_i e
      subst e
      split
      · exact hr
      · rename_i e; exact (memory_wf_cons _ _ _).2 ⟨e, hab, hr⟩
    · split
      · rename_i hlt
        split
        · exact h
        · rename_i e
          refine (memory_wf_cons _ _ _).2 ⟨e, ?_, h⟩
          simp only [Memory.above, List.all_cons, Bool.and_eq_true, decide_eq_true_eq]
          exact ⟨hlt, memory_above_trans rest j a (by omega) hab⟩
      · exact (memory_wf_cons _ _ _).2 ⟨hv, memory_above_put rest a j b (by omega) hab, ih hr⟩

/-- Bytes written little-endian keep the canonical form. -/
theorem memory_store_wf (n : Nat) (m : Memory) (a v : Nat) (h : m.wf = true) : (m.store a n v).wf = true := by
  induction n generalizing m a v with
  | zero => exact h
  | succ n ih => exact ih _ _ _ (memory_put_wf m a _ h)

/-- A list of bytes written keeps the canonical form. -/
theorem memory_putAll_wf (l : List Byte) (m : Memory) (a : Nat) (h : m.wf = true) : (m.putAll a l).wf = true := by
  induction l generalizing m a with
  | nil => exact h
  | cons b rest ih => exact ih _ _ (memory_put_wf m a b h)

/-! ### Reading after writing -/

theorem memory_byte_above (m : Memory) (a : Nat) (h : Memory.above m a = true) : m.byte a = Memory.blank := by
  cases m with
  | nil => rfl
  | cons p rest =>
    obtain ⟨j, v⟩ := p
    simp only [Memory.above, List.all_cons, Bool.and_eq_true, decide_eq_true_eq] at h
    have : j ≠ a := by omega
    simp [Memory.byte, this, h.1]

/-- The byte just written. -/
theorem memory_byte_put_same (m : Memory) (a : Nat) (b : Byte) (h : m.wf = true) : (m.put a b).byte a = b := by
  induction m with
  | nil =>
    simp only [Memory.put]
    split
    · rename_i e; rw [e]; rfl
    · simp [Memory.byte]
  | cons p rest ih =>
    obtain ⟨j, v⟩ := p
    obtain ⟨_, hab, hr⟩ := (memory_wf_cons j v rest).1 h
    simp only [Memory.put]
    split
    · rename_i e
      subst e
      split
      · rename_i e; rw [e]; exact memory_byte_above rest _ hab
      · simp [Memory.byte]
    · rename_i hne
      split
      · rename_i hlt
        split
        · rename_i e
          rw [e]
          simp [Memory.byte, hne, hlt]
        · simp [Memory.byte]
      · rename_i hlt
        simp only [Memory.byte, if_neg hne, if_neg hlt]
        exact ih hr

/-- Every other byte. -/
theorem memory_byte_put_other (m : Memory) (a c : Nat) (b : Byte) (h : m.wf = true) (hc : c ≠ a) :
    (m.put a b).byte c = m.byte c := by
  induction m with
  | nil =>
    simp only [Memory.put]
    split
    · rfl
    · simp only [Memory.byte, if_neg (Ne.symm hc)]
      split <;> rfl
  | cons p rest ih =>
    obtain ⟨j, v⟩ := p
    obtain ⟨_, hab, hr⟩ := (memory_wf_cons j v rest).1 h
    simp only [Memory.put]
    split
    · rename_i e
      subst e
      split
      · simp only [Memory.byte, if_neg (Ne.symm hc)]
        split
        · exact memory_byte_above rest c (memory_above_trans rest _ c (by omega) hab)
        · rfl
      · simp [Memory.byte, Ne.symm hc]
    · split
      · rename_i hlt
        split
        · rfl
        · simp only [Memory.byte, if_neg (Ne.symm hc)]
          split
          · have h1 : j ≠ c := by omega
            have h2 : c < j := by omega
            simp [h1, h2]
          · rfl
      · simp only [Memory.byte, ih hr]

/-- Bytes outside a store. -/
theorem memory_byte_store_other (n : Nat) (m : Memory) (a v c : Nat) (h : m.wf = true) (hc : c < a ∨ a + n ≤ c) :
    (m.store a n v).byte c = m.byte c := by
  induction n generalizing m a v with
  | zero => rfl
  | succ n ih =>
    rw [Memory.store, ih _ _ _ (memory_put_wf m a _ h) (by omega), memory_byte_put_other m a c _ h (by omega)]

/-- The bytes of a store. -/
theorem memory_byte_store_same (n : Nat) (m : Memory) (a v k : Nat) (h : m.wf = true) (hk : k < n) :
    (m.store a n v).byte (a + k) = BitVec.ofNat 8 (v / 256 ^ k) := by
  induction n generalizing m a v k with
  | zero => omega
  | succ n ih =>
    rw [Memory.store]
    cases k with
    | zero =>
      rw [memory_byte_store_other n _ _ _ _ (memory_put_wf m a _ h) (by omega), Nat.add_zero,
        memory_byte_put_same m a _ h]
      simp
    | succ k =>
      have e : a + (k + 1) = a + 1 + k := by omega
      rw [e, ih _ _ _ _ (memory_put_wf m a _ h) (by omega), Nat.div_div_eq_div_mul, Nat.pow_succ, Nat.mul_comm 256]

end Sys2Proof.Machine
end

