-- ==== Sys2Proof/Laws/State.lean ====
section
/-! SUPPORT. Each field after each named update of the module and of a warp slot, and reading back what was put. -/

namespace Sys2Proof.Machine

/-! ### `State.setWarp` -/

@[simp] theorem setWarp_now (s : State) (w : Nat) (x : Warp) : (s.setWarp w x).now = s.now := rfl
@[simp] theorem setWarp_ticks (s : State) (w : Nat) (x : Warp) : (s.setWarp w x).ticks = s.ticks := rfl
@[simp] theorem setWarp_agenda (s : State) (w : Nat) (x : Warp) : (s.setWarp w x).agenda = s.agenda := rfl
@[simp] theorem setWarp_asked (s : State) (w : Nat) (x : Warp) : (s.setWarp w x).asked = s.asked := rfl
@[simp] theorem setWarp_cur (s : State) (w : Nat) (x : Warp) : (s.setWarp w x).cur = s.cur := rfl
@[simp] theorem setWarp_freeNo (s : State) (w : Nat) (x : Warp) : (s.setWarp w x).freeNo = s.freeNo := rfl
@[simp] theorem setWarp_nextNo (s : State) (w : Nat) (x : Warp) : (s.setWarp w x).nextNo = s.nextNo := rfl
@[simp] theorem setWarp_mem (s : State) (w : Nat) (x : Warp) : (s.setWarp w x).mem = s.mem := rfl
@[simp] theorem setWarp_spad (s : State) (w : Nat) (x : Warp) : (s.setWarp w x).spad = s.spad := rfl
@[simp] theorem setWarp_host (s : State) (w : Nat) (x : Warp) : (s.setWarp w x).host = s.host := rfl
@[simp] theorem setWarp_flash (s : State) (w : Nat) (x : Warp) : (s.setWarp w x).flash = s.flash := rfl
@[simp] theorem setWarp_peerText (s : State) (w : Nat) (x : Warp) : (s.setWarp w x).peerText = s.peerText := rfl
@[simp] theorem setWarp_poison (s : State) (w : Nat) (x : Warp) : (s.setWarp w x).poison = s.poison := rfl
@[simp] theorem setWarp_poisonSpad (s : State) (w : Nat) (x : Warp) : (s.setWarp w x).poisonSpad = s.poisonSpad := rfl
@[simp] theorem setWarp_cores (s : State) (w : Nat) (x : Warp) : (s.setWarp w x).cores = s.cores := rfl
@[simp] theorem setWarp_dies (s : State) (w : Nat) (x : Warp) : (s.setWarp w x).dies = s.dies := rfl
@[simp] theorem setWarp_leaseClock (s : State) (w : Nat) (x : Warp) : (s.setWarp w x).leaseClock = s.leaseClock := rfl
@[simp] theorem setWarp_wrapCount (s : State) (w : Nat) (x : Warp) : (s.setWarp w x).wrapCount = s.wrapCount := rfl
@[simp] theorem setWarp_wrapAt (s : State) (w : Nat) (x : Warp) : (s.setWarp w x).wrapAt = s.wrapAt := rfl
@[simp] theorem setWarp_leases (s : State) (w : Nat) (x : Warp) : (s.setWarp w x).leases = s.leases := rfl
@[simp] theorem setWarp_annex (s : State) (w : Nat) (x : Warp) : (s.setWarp w x).annex = s.annex := rfl
@[simp] theorem setWarp_spent (s : State) (w : Nat) (x : Warp) : (s.setWarp w x).spent = s.spent := rfl
@[simp] theorem setWarp_l2 (s : State) (w : Nat) (x : Warp) : (s.setWarp w x).l2 = s.l2 := rfl
@[simp] theorem setWarp_directory (s : State) (w : Nat) (x : Warp) : (s.setWarp w x).directory = s.directory := rfl
@[simp] theorem setWarp_l1 (s : State) (w : Nat) (x : Warp) : (s.setWarp w x).l1 = s.l1 := rfl
@[simp] theorem setWarp_homeOps (s : State) (w : Nat) (x : Warp) : (s.setWarp w x).homeOps = s.homeOps := rfl
@[simp] theorem setWarp_xlats (s : State) (w : Nat) (x : Warp) : (s.setWarp w x).xlats = s.xlats := rfl
@[simp] theorem setWarp_ctxs (s : State) (w : Nat) (x : Warp) : (s.setWarp w x).ctxs = s.ctxs := rfl
@[simp] theorem setWarp_fns (s : State) (w : Nat) (x : Warp) : (s.setWarp w x).fns = s.fns := rfl
@[simp] theorem setWarp_objs (s : State) (w : Nat) (x : Warp) : (s.setWarp w x).objs = s.objs := rfl
@[simp] theorem setWarp_trigOvf (s : State) (w : Nat) (x : Warp) : (s.setWarp w x).trigOvf = s.trigOvf := rfl
@[simp] theorem setWarp_rings (s : State) (w : Nat) (x : Warp) : (s.setWarp w x).rings = s.rings := rfl
@[simp] theorem setWarp_graphs (s : State) (w : Nat) (x : Warp) : (s.setWarp w x).graphs = s.graphs := rfl
@[simp] theorem setWarp_holds (s : State) (w : Nat) (x : Warp) : (s.setWarp w x).holds = s.holds := rfl
@[simp] theorem setWarp_out (s : State) (w : Nat) (x : Warp) : (s.setWarp w x).out = s.out := rfl
@[simp] theorem setWarp_launches (s : State) (w : Nat) (x : Warp) : (s.setWarp w x).launches = s.launches := rfl
@[simp] theorem setWarp_units (s : State) (w : Nat) (x : Warp) : (s.setWarp w x).units = s.units := rfl
@[simp] theorem setWarp_groups (s : State) (w : Nat) (x : Warp) : (s.setWarp w x).groups = s.groups := rfl
@[simp] theorem setWarp_jobs (s : State) (w : Nat) (x : Warp) : (s.setWarp w x).jobs = s.jobs := rfl
@[simp] theorem setWarp_intake (s : State) (w : Nat) (x : Warp) : (s.setWarp w x).intake = s.intake := rfl
@[simp] theorem setWarp_gals (s : State) (w : Nat) (x : Warp) : (s.setWarp w x).gals = s.gals := rfl
@[simp] theorem setWarp_taskqs (s : State) (w : Nat) (x : Warp) : (s.setWarp w x).taskqs = s.taskqs := rfl
@[simp] theorem setWarp_depctrs (s : State) (w : Nat) (x : Warp) : (s.setWarp w x).depctrs = s.depctrs := rfl
@[simp] theorem setWarp_bars (s : State) (w : Nat) (x : Warp) : (s.setWarp w x).bars = s.bars := rfl
@[simp] theorem setWarp_cmds (s : State) (w : Nat) (x : Warp) : (s.setWarp w x).cmds = s.cmds := rfl
@[simp] theorem setWarp_peers (s : State) (w : Nat) (x : Warp) : (s.setWarp w x).peers = s.peers := rfl
@[simp] theorem setWarp_oddColls (s : State) (w : Nat) (x : Warp) : (s.setWarp w x).oddColls = s.oddColls := rfl
@[simp] theorem setWarp_services (s : State) (w : Nat) (x : Warp) : (s.setWarp w x).services = s.services := rfl
@[simp] theorem setWarp_lodge (s : State) (w : Nat) (x : Warp) : (s.setWarp w x).lodge = s.lodge := rfl
@[simp] theorem setWarp_ecc (s : State) (w : Nat) (x : Warp) : (s.setWarp w x).ecc = s.ecc := rfl
@[simp] theorem setWarp_retired (s : State) (w : Nat) (x : Warp) : (s.setWarp w x).retired = s.retired := rfl

/-! ### `State.onWarp` -/

@[simp] theorem onWarp_now (s : State) (w : Nat) (f : Warp → Warp) : (s.onWarp w f).now = s.now := rfl
@[simp] theorem onWarp_ticks (s : State) (w : Nat) (f : Warp → Warp) : (s.onWarp w f).ticks = s.ticks := rfl
@[simp] theorem onWarp_agenda (s : State) (w : Nat) (f : Warp → Warp) : (s.onWarp w f).agenda = s.agenda := rfl
@[simp] theorem onWarp_asked (s : State) (w : Nat) (f : Warp → Warp) : (s.onWarp w f).asked = s.asked := rfl
@[simp] theorem onWarp_cur (s : State) (w : Nat) (f : Warp → Warp) : (s.onWarp w f).cur = s.cur := rfl
@[simp] theorem onWarp_freeNo (s : State) (w : Nat) (f : Warp → Warp) : (s.onWarp w f).freeNo = s.freeNo := rfl
@[simp] theorem onWarp_nextNo (s : State) (w : Nat) (f : Warp → Warp) : (s.onWarp w f).nextNo = s.nextNo := rfl
@[simp] theorem onWarp_mem (s : State) (w : Nat) (f : Warp → Warp) : (s.onWarp w f).mem = s.mem := rfl
@[simp] theorem onWarp_spad (s : State) (w : Nat) (f : Warp → Warp) : (s.onWarp w f).spad = s.spad := rfl
@[simp] theorem onWarp_host (s : State) (w : Nat) (f : Warp → Warp) : (s.onWarp w f).host = s.host := rfl
@[simp] theorem onWarp_flash (s : State) (w : Nat) (f : Warp → Warp) : (s.onWarp w f).flash = s.flash := rfl
@[simp] theorem onWarp_peerText (s : State) (w : Nat) (f : Warp → Warp) : (s.onWarp w f).peerText = s.peerText := rfl
@[simp] theorem onWarp_poison (s : State) (w : Nat) (f : Warp → Warp) : (s.onWarp w f).poison = s.poison := rfl
@[simp] theorem onWarp_poisonSpad (s : State) (w : Nat) (f : Warp → Warp) : (s.onWarp w f).poisonSpad = s.poisonSpad := rfl
@[simp] theorem onWarp_cores (s : State) (w : Nat) (f : Warp → Warp) : (s.onWarp w f).cores = s.cores := rfl
@[simp] theorem onWarp_dies (s : State) (w : Nat) (f : Warp → Warp) : (s.onWarp w f).dies = s.dies := rfl
@[simp] theorem onWarp_leaseClock (s : State) (w : Nat) (f : Warp → Warp) : (s.onWarp w f).leaseClock = s.leaseClock := rfl
@[simp] theorem onWarp_wrapCount (s : State) (w : Nat) (f : Warp → Warp) : (s.onWarp w f).wrapCount = s.wrapCount := rfl
@[simp] theorem onWarp_wrapAt (s : State) (w : Nat) (f : Warp → Warp) : (s.onWarp w f).wrapAt = s.wrapAt := rfl
@[simp] theorem onWarp_leases (s : State) (w : Nat) (f : Warp → Warp) : (s.onWarp w f).leases = s.leases := rfl
@[simp] theorem onWarp_annex (s : State) (w : Nat) (f : Warp → Warp) : (s.onWarp w f).annex = s.annex := rfl
@[simp] theorem onWarp_spent (s : State) (w : Nat) (f : Warp → Warp) : (s.onWarp w f).spent = s.spent := rfl
@[simp] theorem onWarp_l2 (s : State) (w : Nat) (f : Warp → Warp) : (s.onWarp w f).l2 = s.l2 := rfl
@[simp] theorem onWarp_directory (s : State) (w : Nat) (f : Warp → Warp) : (s.onWarp w f).directory = s.directory := rfl
@[simp] theorem onWarp_l1 (s : State) (w : Nat) (f : Warp → Warp) : (s.onWarp w f).l1 = s.l1 := rfl
@[simp] theorem onWarp_homeOps (s : State) (w : Nat) (f : Warp → Warp) : (s.onWarp w f).homeOps = s.homeOps := rfl
@[simp] theorem onWarp_xlats (s : State) (w : Nat) (f : Warp → Warp) : (s.onWarp w f).xlats = s.xlats := rfl
@[simp] theorem onWarp_ctxs (s : State) (w : Nat) (f : Warp → Warp) : (s.onWarp w f).ctxs = s.ctxs := rfl
@[simp] theorem onWarp_fns (s : State) (w : Nat) (f : Warp → Warp) : (s.onWarp w f).fns = s.fns := rfl
@[simp] theorem onWarp_objs (s : State) (w : Nat) (f : Warp → Warp) : (s.onWarp w f).objs = s.objs := rfl
@[simp] theorem onWarp_trigOvf (s : State) (w : Nat) (f : Warp → Warp) : (s.onWarp w f).trigOvf = s.trigOvf := rfl
@[simp] theorem onWarp_rings (s : State) (w : Nat) (f : Warp → Warp) : (s.onWarp w f).rings = s.rings := rfl
@[simp] theorem onWarp_graphs (s : State) (w : Nat) (f : Warp → Warp) : (s.onWarp w f).graphs = s.graphs := rfl
@[simp] theorem onWarp_holds (s : State) (w : Nat) (f : Warp → Warp) : (s.onWarp w f).holds = s.holds := rfl
@[simp] theorem onWarp_out (s : State) (w : Nat) (f : Warp → Warp) : (s.onWarp w f).out = s.out := rfl
@[simp] theorem onWarp_launches (s : State) (w : Nat) (f : Warp → Warp) : (s.onWarp w f).launches = s.launches := rfl
@[simp] theorem onWarp_units (s : State) (w : Nat) (f : Warp → Warp) : (s.onWarp w f).units = s.units := rfl
@[simp] theorem onWarp_groups (s : State) (w : Nat) (f : Warp → Warp) : (s.onWarp w f).groups = s.groups := rfl
@[simp] theorem onWarp_jobs (s : State) (w : Nat) (f : Warp → Warp) : (s.onWarp w f).jobs = s.jobs := rfl
@[simp] theorem onWarp_intake (s : State) (w : Nat) (f : Warp → Warp) : (s.onWarp w f).intake = s.intake := rfl
@[simp] theorem onWarp_gals (s : State) (w : Nat) (f : Warp → Warp) : (s.onWarp w f).gals = s.gals := rfl
@[simp] theorem onWarp_taskqs (s : State) (w : Nat) (f : Warp → Warp) : (s.onWarp w f).taskqs = s.taskqs := rfl
@[simp] theorem onWarp_depctrs (s : State) (w : Nat) (f : Warp → Warp) : (s.onWarp w f).depctrs = s.depctrs := rfl
@[simp] theorem onWarp_bars (s : State) (w : Nat) (f : Warp → Warp) : (s.onWarp w f).bars = s.bars := rfl
@[simp] theorem onWarp_cmds (s : State) (w : Nat) (f : Warp → Warp) : (s.onWarp w f).cmds = s.cmds := rfl
@[simp] theorem onWarp_peers (s : State) (w : Nat) (f : Warp → Warp) : (s.onWarp w f).peers = s.peers := rfl
@[simp] theorem onWarp_oddColls (s : State) (w : Nat) (f : Warp → Warp) : (s.onWarp w f).oddColls = s.oddColls := rfl
@[simp] theorem onWarp_services (s : State) (w : Nat) (f : Warp → Warp) : (s.onWarp w f).services = s.services := rfl
@[simp] theorem onWarp_lodge (s : State) (w : Nat) (f : Warp → Warp) : (s.onWarp w f).lodge = s.lodge := rfl
@[simp] theorem onWarp_ecc (s : State) (w : Nat) (f : Warp → Warp) : (s.onWarp w f).ecc = s.ecc := rfl
@[simp] theorem onWarp_retired (s : State) (w : Nat) (f : Warp → Warp) : (s.onWarp w f).retired = s.retired := rfl

/-! ### `State.onCore` -/

@[simp] theorem onCore_now (s : State) (c : Nat) (f : Core → Core) : (s.onCore c f).now = s.now := rfl
@[simp] theorem onCore_ticks (s : State) (c : Nat) (f : Core → Core) : (s.onCore c f).ticks = s.ticks := rfl
@[simp] theorem onCore_agenda (s : State) (c : Nat) (f : Core → Core) : (s.onCore c f).agenda = s.agenda := rfl
@[simp] theorem onCore_asked (s : State) (c : Nat) (f : Core → Core) : (s.onCore c f).asked = s.asked := rfl
@[simp] theorem onCore_cur (s : State) (c : Nat) (f : Core → Core) : (s.onCore c f).cur = s.cur := rfl
@[simp] theorem onCore_freeNo (s : State) (c : Nat) (f : Core → Core) : (s.onCore c f).freeNo = s.freeNo := rfl
@[simp] theorem onCore_nextNo (s : State) (c : Nat) (f : Core → Core) : (s.onCore c f).nextNo = s.nextNo := rfl
@[simp] theorem onCore_mem (s : State) (c : Nat) (f : Core → Core) : (s.onCore c f).mem = s.mem := rfl
@[simp] theorem onCore_spad (s : State) (c : Nat) (f : Core → Core) : (s.onCore c f).spad = s.spad := rfl
@[simp] theorem onCore_host (s : State) (c : Nat) (f : Core → Core) : (s.onCore c f).host = s.host := rfl
@[simp] theorem onCore_flash (s : State) (c : Nat) (f : Core → Core) : (s.onCore c f).flash = s.flash := rfl
@[simp] theorem onCore_peerText (s : State) (c : Nat) (f : Core → Core) : (s.onCore c f).peerText = s.peerText := rfl
@[simp] theorem onCore_poison (s : State) (c : Nat) (f : Core → Core) : (s.onCore c f).poison = s.poison := rfl
@[simp] theorem onCore_poisonSpad (s : State) (c : Nat) (f : Core → Core) : (s.onCore c f).poisonSpad = s.poisonSpad := rfl
@[simp] theorem onCore_warps (s : State) (c : Nat) (f : Core → Core) : (s.onCore c f).warps = s.warps := rfl
@[simp] theorem onCore_dies (s : State) (c : Nat) (f : Core → Core) : (s.onCore c f).dies = s.dies := rfl
@[simp] theorem onCore_leaseClock (s : State) (c : Nat) (f : Core → Core) : (s.onCore c f).leaseClock = s.leaseClock := rfl
@[simp] theorem onCore_wrapCount (s : State) (c : Nat) (f : Core → Core) : (s.onCore c f).wrapCount = s.wrapCount := rfl
@[simp] theorem onCore_wrapAt (s : State) (c : Nat) (f : Core → Core) : (s.onCore c f).wrapAt = s.wrapAt := rfl
@[simp] theorem onCore_leases (s : State) (c : Nat) (f : Core → Core) : (s.onCore c f).leases = s.leases := rfl
@[simp] theorem onCore_annex (s : State) (c : Nat) (f : Core → Core) : (s.onCore c f).annex = s.annex := rfl
@[simp] theorem onCore_spent (s : State) (c : Nat) (f : Core → Core) : (s.onCore c f).spent = s.spent := rfl
@[simp] theorem onCore_l2 (s : State) (c : Nat) (f : Core → Core) : (s.onCore c f).l2 = s.l2 := rfl
@[simp] theorem onCore_directory (s : State) (c : Nat) (f : Core → Core) : (s.onCore c f).directory = s.directory := rfl
@[simp] theorem onCore_l1 (s : State) (c : Nat) (f : Core → Core) : (s.onCore c f).l1 = s.l1 := rfl
@[simp] theorem onCore_homeOps (s : State) (c : Nat) (f : Core → Core) : (s.onCore c f).homeOps = s.homeOps := rfl
@[simp] theorem onCore_xlats (s : State) (c : Nat) (f : Core → Core) : (s.onCore c f).xlats = s.xlats := rfl
@[simp] theorem onCore_ctxs (s : State) (c : Nat) (f : Core → Core) : (s.onCore c f).ctxs = s.ctxs := rfl
@[simp] theorem onCore_fns (s : State) (c : Nat) (f : Core → Core) : (s.onCore c f).fns = s.fns := rfl
@[simp] theorem onCore_objs (s : State) (c : Nat) (f : Core → Core) : (s.onCore c f).objs = s.objs := rfl
@[simp] theorem onCore_trigOvf (s : State) (c : Nat) (f : Core → Core) : (s.onCore c f).trigOvf = s.trigOvf := rfl
@[simp] theorem onCore_rings (s : State) (c : Nat) (f : Core → Core) : (s.onCore c f).rings = s.rings := rfl
@[simp] theorem onCore_graphs (s : State) (c : Nat) (f : Core → Core) : (s.onCore c f).graphs = s.graphs := rfl
@[simp] theorem onCore_holds (s : State) (c : Nat) (f : Core → Core) : (s.onCore c f).holds = s.holds := rfl
@[simp] theorem onCore_out (s : State) (c : Nat) (f : Core → Core) : (s.onCore c f).out = s.out := rfl
@[simp] theorem onCore_launches (s : State) (c : Nat) (f : Core → Core) : (s.onCore c f).launches = s.launches := rfl
@[simp] theorem onCore_units (s : State) (c : Nat) (f : Core → Core) : (s.onCore c f).units = s.units := rfl
@[simp] theorem onCore_groups (s : State) (c : Nat) (f : Core → Core) : (s.onCore c f).groups = s.groups := rfl
@[simp] theorem onCore_jobs (s : State) (c : Nat) (f : Core → Core) : (s.onCore c f).jobs = s.jobs := rfl
@[simp] theorem onCore_intake (s : State) (c : Nat) (f : Core → Core) : (s.onCore c f).intake = s.intake := rfl
@[simp] theorem onCore_gals (s : State) (c : Nat) (f : Core → Core) : (s.onCore c f).gals = s.gals := rfl
@[simp] theorem onCore_taskqs (s : State) (c : Nat) (f : Core → Core) : (s.onCore c f).taskqs = s.taskqs := rfl
@[simp] theorem onCore_depctrs (s : State) (c : Nat) (f : Core → Core) : (s.onCore c f).depctrs = s.depctrs := rfl
@[simp] theorem onCore_bars (s : State) (c : Nat) (f : Core → Core) : (s.onCore c f).bars = s.bars := rfl
@[simp] theorem onCore_cmds (s : State) (c : Nat) (f : Core → Core) : (s.onCore c f).cmds = s.cmds := rfl
@[simp] theorem onCore_peers (s : State) (c : Nat) (f : Core → Core) : (s.onCore c f).peers = s.peers := rfl
@[simp] theorem onCore_oddColls (s : State) (c : Nat) (f : Core → Core) : (s.onCore c f).oddColls = s.oddColls := rfl
@[simp] theorem onCore_services (s : State) (c : Nat) (f : Core → Core) : (s.onCore c f).services = s.services := rfl
@[simp] theorem onCore_lodge (s : State) (c : Nat) (f : Core → Core) : (s.onCore c f).lodge = s.lodge := rfl
@[simp] theorem onCore_ecc (s : State) (c : Nat) (f : Core → Core) : (s.onCore c f).ecc = s.ecc := rfl
@[simp] theorem onCore_retired (s : State) (c : Nat) (f : Core → Core) : (s.onCore c f).retired = s.retired := rfl

/-! ### `State.onDie` -/

@[simp] theorem onDie_now (s : State) (d : Nat) (f : Die → Die) : (s.onDie d f).now = s.now := rfl
@[simp] theorem onDie_ticks (s : State) (d : Nat) (f : Die → Die) : (s.onDie d f).ticks = s.ticks := rfl
@[simp] theorem onDie_agenda (s : State) (d : Nat) (f : Die → Die) : (s.onDie d f).agenda = s.agenda := rfl
@[simp] theorem onDie_asked (s : State) (d : Nat) (f : Die → Die) : (s.onDie d f).asked = s.asked := rfl
@[simp] theorem onDie_cur (s : State) (d : Nat) (f : Die → Die) : (s.onDie d f).cur = s.cur := rfl
@[simp] theorem onDie_freeNo (s : State) (d : Nat) (f : Die → Die) : (s.onDie d f).freeNo = s.freeNo := rfl
@[simp] theorem onDie_nextNo (s : State) (d : Nat) (f : Die → Die) : (s.onDie d f).nextNo = s.nextNo := rfl
@[simp] theorem onDie_mem (s : State) (d : Nat) (f : Die → Die) : (s.onDie d f).mem = s.mem := rfl
@[simp] theorem onDie_spad (s : State) (d : Nat) (f : Die → Die) : (s.onDie d f).spad = s.spad := rfl
@[simp] theorem onDie_host (s : State) (d : Nat) (f : Die → Die) : (s.onDie d f).host = s.host := rfl
@[simp] theorem onDie_flash (s : State) (d : Nat) (f : Die → Die) : (s.onDie d f).flash = s.flash := rfl
@[simp] theorem onDie_peerText (s : State) (d : Nat) (f : Die → Die) : (s.onDie d f).peerText = s.peerText := rfl
@[simp] theorem onDie_poison (s : State) (d : Nat) (f : Die → Die) : (s.onDie d f).poison = s.poison := rfl
@[simp] theorem onDie_poisonSpad (s : State) (d : Nat) (f : Die → Die) : (s.onDie d f).poisonSpad = s.poisonSpad := rfl
@[simp] theorem onDie_warps (s : State) (d : Nat) (f : Die → Die) : (s.onDie d f).warps = s.warps := rfl
@[simp] theorem onDie_cores (s : State) (d : Nat) (f : Die → Die) : (s.onDie d f).cores = s.cores := rfl
@[simp] theorem onDie_leaseClock (s : State) (d : Nat) (f : Die → Die) : (s.onDie d f).leaseClock = s.leaseClock := rfl
@[simp] theorem onDie_wrapCount (s : State) (d : Nat) (f : Die → Die) : (s.onDie d f).wrapCount = s.wrapCount := rfl
@[simp] theorem onDie_wrapAt (s : State) (d : Nat) (f : Die → Die) : (s.onDie d f).wrapAt = s.wrapAt := rfl
@[simp] theorem onDie_leases (s : State) (d : Nat) (f : Die → Die) : (s.onDie d f).leases = s.leases := rfl
@[simp] theorem onDie_annex (s : State) (d : Nat) (f : Die → Die) : (s.onDie d f).annex = s.annex := rfl
@[simp] theorem onDie_spent (s : State) (d : Nat) (f : Die → Die) : (s.onDie d f).spent = s.spent := rfl
@[simp] theorem onDie_l2 (s : State) (d : Nat) (f : Die → Die) : (s.onDie d f).l2 = s.l2 := rfl
@[simp] theorem onDie_directory (s : State) (d : Nat) (f : Die → Die) : (s.onDie d f).directory = s.directory := rfl
@[simp] theorem onDie_l1 (s : State) (d : Nat) (f : Die → Die) : (s.onDie d f).l1 = s.l1 := rfl
@[simp] theorem onDie_homeOps (s : State) (d : Nat) (f : Die → Die) : (s.onDie d f).homeOps = s.homeOps := rfl
@[simp] theorem onDie_xlats (s : State) (d : Nat) (f : Die → Die) : (s.onDie d f).xlats = s.xlats := rfl
@[simp] theorem onDie_ctxs (s : State) (d : Nat) (f : Die → Die) : (s.onDie d f).ctxs = s.ctxs := rfl
@[simp] theorem onDie_fns (s : State) (d : Nat) (f : Die → Die) : (s.onDie d f).fns = s.fns := rfl
@[simp] theorem onDie_objs (s : State) (d : Nat) (f : Die → Die) : (s.onDie d f).objs = s.objs := rfl
@[simp] theorem onDie_trigOvf (s : State) (d : Nat) (f : Die → Die) : (s.onDie d f).trigOvf = s.trigOvf := rfl
@[simp] theorem onDie_rings (s : State) (d : Nat) (f : Die → Die) : (s.onDie d f).rings = s.rings := rfl
@[simp] theorem onDie_graphs (s : State) (d : Nat) (f : Die → Die) : (s.onDie d f).graphs = s.graphs := rfl
@[simp] theorem onDie_holds (s : State) (d : Nat) (f : Die → Die) : (s.onDie d f).holds = s.holds := rfl
@[simp] theorem onDie_out (s : State) (d : Nat) (f : Die → Die) : (s.onDie d f).out = s.out := rfl
@[simp] theorem onDie_launches (s : State) (d : Nat) (f : Die → Die) : (s.onDie d f).launches = s.launches := rfl
@[simp] theorem onDie_units (s : State) (d : Nat) (f : Die → Die) : (s.onDie d f).units = s.units := rfl
@[simp] theorem onDie_groups (s : State) (d : Nat) (f : Die → Die) : (s.onDie d f).groups = s.groups := rfl
@[simp] theorem onDie_jobs (s : State) (d : Nat) (f : Die → Die) : (s.onDie d f).jobs = s.jobs := rfl
@[simp] theorem onDie_intake (s : State) (d : Nat) (f : Die → Die) : (s.onDie d f).intake = s.intake := rfl
@[simp] theorem onDie_gals (s : State) (d : Nat) (f : Die → Die) : (s.onDie d f).gals = s.gals := rfl
@[simp] theorem onDie_taskqs (s : State) (d : Nat) (f : Die → Die) : (s.onDie d f).taskqs = s.taskqs := rfl
@[simp] theorem onDie_depctrs (s : State) (d : Nat) (f : Die → Die) : (s.onDie d f).depctrs = s.depctrs := rfl
@[simp] theorem onDie_bars (s : State) (d : Nat) (f : Die → Die) : (s.onDie d f).bars = s.bars := rfl
@[simp] theorem onDie_cmds (s : State) (d : Nat) (f : Die → Die) : (s.onDie d f).cmds = s.cmds := rfl
@[simp] theorem onDie_peers (s : State) (d : Nat) (f : Die → Die) : (s.onDie d f).peers = s.peers := rfl
@[simp] theorem onDie_oddColls (s : State) (d : Nat) (f : Die → Die) : (s.onDie d f).oddColls = s.oddColls := rfl
@[simp] theorem onDie_services (s : State) (d : Nat) (f : Die → Die) : (s.onDie d f).services = s.services := rfl
@[simp] theorem onDie_lodge (s : State) (d : Nat) (f : Die → Die) : (s.onDie d f).lodge = s.lodge := rfl
@[simp] theorem onDie_ecc (s : State) (d : Nat) (f : Die → Die) : (s.onDie d f).ecc = s.ecc := rfl
@[simp] theorem onDie_retired (s : State) (d : Nat) (f : Die → Die) : (s.onDie d f).retired = s.retired := rfl

/-! ### `State.onFn` -/

@[simp] theorem onFn_now (s : State) (k : Nat) (f : Fn → Fn) : (s.onFn k f).now = s.now := rfl
@[simp] theorem onFn_ticks (s : State) (k : Nat) (f : Fn → Fn) : (s.onFn k f).ticks = s.ticks := rfl
@[simp] theorem onFn_agenda (s : State) (k : Nat) (f : Fn → Fn) : (s.onFn k f).agenda = s.agenda := rfl
@[simp] theorem onFn_asked (s : State) (k : Nat) (f : Fn → Fn) : (s.onFn k f).asked = s.asked := rfl
@[simp] theorem onFn_cur (s : State) (k : Nat) (f : Fn → Fn) : (s.onFn k f).cur = s.cur := rfl
@[simp] theorem onFn_freeNo (s : State) (k : Nat) (f : Fn → Fn) : (s.onFn k f).freeNo = s.freeNo := rfl
@[simp] theorem onFn_nextNo (s : State) (k : Nat) (f : Fn → Fn) : (s.onFn k f).nextNo = s.nextNo := rfl
@[simp] theorem onFn_mem (s : State) (k : Nat) (f : Fn → Fn) : (s.onFn k f).mem = s.mem := rfl
@[simp] theorem onFn_spad (s : State) (k : Nat) (f : Fn → Fn) : (s.onFn k f).spad = s.spad := rfl
@[simp] theorem onFn_host (s : State) (k : Nat) (f : Fn → Fn) : (s.onFn k f).host = s.host := rfl
@[simp] theorem onFn_flash (s : State) (k : Nat) (f : Fn → Fn) : (s.onFn k f).flash = s.flash := rfl
@[simp] theorem onFn_peerText (s : State) (k : Nat) (f : Fn → Fn) : (s.onFn k f).peerText = s.peerText := rfl
@[simp] theorem onFn_poison (s : State) (k : Nat) (f : Fn → Fn) : (s.onFn k f).poison = s.poison := rfl
@[simp] theorem onFn_poisonSpad (s : State) (k : Nat) (f : Fn → Fn) : (s.onFn k f).poisonSpad = s.poisonSpad := rfl
@[simp] theorem onFn_warps (s : State) (k : Nat) (f : Fn → Fn) : (s.onFn k f).warps = s.warps := rfl
@[simp] theorem onFn_cores (s : State) (k : Nat) (f : Fn → Fn) : (s.onFn k f).cores = s.cores := rfl
@[simp] theorem onFn_dies (s : State) (k : Nat) (f : Fn → Fn) : (s.onFn k f).dies = s.dies := rfl
@[simp] theorem onFn_leaseClock (s : State) (k : Nat) (f : Fn → Fn) : (s.onFn k f).leaseClock = s.leaseClock := rfl
@[simp] theorem onFn_wrapCount (s : State) (k : Nat) (f : Fn → Fn) : (s.onFn k f).wrapCount = s.wrapCount := rfl
@[simp] theorem onFn_wrapAt (s : State) (k : Nat) (f : Fn → Fn) : (s.onFn k f).wrapAt = s.wrapAt := rfl
@[simp] theorem onFn_leases (s : State) (k : Nat) (f : Fn → Fn) : (s.onFn k f).leases = s.leases := rfl
@[simp] theorem onFn_annex (s : State) (k : Nat) (f : Fn → Fn) : (s.onFn k f).annex = s.annex := rfl
@[simp] theorem onFn_spent (s : State) (k : Nat) (f : Fn → Fn) : (s.onFn k f).spent = s.spent := rfl
@[simp] theorem onFn_l2 (s : State) (k : Nat) (f : Fn → Fn) : (s.onFn k f).l2 = s.l2 := rfl
@[simp] theorem onFn_directory (s : State) (k : Nat) (f : Fn → Fn) : (s.onFn k f).directory = s.directory := rfl
@[simp] theorem onFn_l1 (s : State) (k : Nat) (f : Fn → Fn) : (s.onFn k f).l1 = s.l1 := rfl
@[simp] theorem onFn_homeOps (s : State) (k : Nat) (f : Fn → Fn) : (s.onFn k f).homeOps = s.homeOps := rfl
@[simp] theorem onFn_xlats (s : State) (k : Nat) (f : Fn → Fn) : (s.onFn k f).xlats = s.xlats := rfl
@[simp] theorem onFn_ctxs (s : State) (k : Nat) (f : Fn → Fn) : (s.onFn k f).ctxs = s.ctxs := rfl
@[simp] theorem onFn_objs (s : State) (k : Nat) (f : Fn → Fn) : (s.onFn k f).objs = s.objs := rfl
@[simp] theorem onFn_trigOvf (s : State) (k : Nat) (f : Fn → Fn) : (s.onFn k f).trigOvf = s.trigOvf := rfl
@[simp] theorem onFn_rings (s : State) (k : Nat) (f : Fn → Fn) : (s.onFn k f).rings = s.rings := rfl
@[simp] theorem onFn_graphs (s : State) (k : Nat) (f : Fn → Fn) : (s.onFn k f).graphs = s.graphs := rfl
@[simp] theorem onFn_holds (s : State) (k : Nat) (f : Fn → Fn) : (s.onFn k f).holds = s.holds := rfl
@[simp] theorem onFn_out (s : State) (k : Nat) (f : Fn → Fn) : (s.onFn k f).out = s.out := rfl
@[simp] theorem onFn_launches (s : State) (k : Nat) (f : Fn → Fn) : (s.onFn k f).launches = s.launches := rfl
@[simp] theorem onFn_units (s : State) (k : Nat) (f : Fn → Fn) : (s.onFn k f).units = s.units := rfl
@[simp] theorem onFn_groups (s : State) (k : Nat) (f : Fn → Fn) : (s.onFn k f).groups = s.groups := rfl
@[simp] theorem onFn_jobs (s : State) (k : Nat) (f : Fn → Fn) : (s.onFn k f).jobs = s.jobs := rfl
@[simp] theorem onFn_intake (s : State) (k : Nat) (f : Fn → Fn) : (s.onFn k f).intake = s.intake := rfl
@[simp] theorem onFn_gals (s : State) (k : Nat) (f : Fn → Fn) : (s.onFn k f).gals = s.gals := rfl
@[simp] theorem onFn_taskqs (s : State) (k : Nat) (f : Fn → Fn) : (s.onFn k f).taskqs = s.taskqs := rfl
@[simp] theorem onFn_depctrs (s : State) (k : Nat) (f : Fn → Fn) : (s.onFn k f).depctrs = s.depctrs := rfl
@[simp] theorem onFn_bars (s : State) (k : Nat) (f : Fn → Fn) : (s.onFn k f).bars = s.bars := rfl
@[simp] theorem onFn_cmds (s : State) (k : Nat) (f : Fn → Fn) : (s.onFn k f).cmds = s.cmds := rfl
@[simp] theorem onFn_peers (s : State) (k : Nat) (f : Fn → Fn) : (s.onFn k f).peers = s.peers := rfl
@[simp] theorem onFn_oddColls (s : State) (k : Nat) (f : Fn → Fn) : (s.onFn k f).oddColls = s.oddColls := rfl
@[simp] theorem onFn_services (s : State) (k : Nat) (f : Fn → Fn) : (s.onFn k f).services = s.services := rfl
@[simp] theorem onFn_lodge (s : State) (k : Nat) (f : Fn → Fn) : (s.onFn k f).lodge = s.lodge := rfl
@[simp] theorem onFn_ecc (s : State) (k : Nat) (f : Fn → Fn) : (s.onFn k f).ecc = s.ecc := rfl
@[simp] theorem onFn_retired (s : State) (k : Nat) (f : Fn → Fn) : (s.onFn k f).retired = s.retired := rfl

/-! ### `State.later` -/

@[simp] theorem later_now (s : State) (i : Instr) : (s.later i).now = s.now := rfl
@[simp] theorem later_ticks (s : State) (i : Instr) : (s.later i).ticks = s.ticks := rfl
@[simp] theorem later_asked (s : State) (i : Instr) : (s.later i).asked = s.asked := rfl
@[simp] theorem later_cur (s : State) (i : Instr) : (s.later i).cur = s.cur := rfl
@[simp] theorem later_freeNo (s : State) (i : Instr) : (s.later i).freeNo = s.freeNo := rfl
@[simp] theorem later_nextNo (s : State) (i : Instr) : (s.later i).nextNo = s.nextNo := rfl
@[simp] theorem later_mem (s : State) (i : Instr) : (s.later i).mem = s.mem := rfl
@[simp] theorem later_spad (s : State) (i : Instr) : (s.later i).spad = s.spad := rfl
@[simp] theorem later_host (s : State) (i : Instr) : (s.later i).host = s.host := rfl
@[simp] theorem later_flash (s : State) (i : Instr) : (s.later i).flash = s.flash := rfl
@[simp] theorem later_peerText (s : State) (i : Instr) : (s.later i).peerText = s.peerText := rfl
@[simp] theorem later_poison (s : State) (i : Instr) : (s.later i).poison = s.poison := rfl
@[simp] theorem later_poisonSpad (s : State) (i : Instr) : (s.later i).poisonSpad = s.poisonSpad := rfl
@[simp] theorem later_warps (s : State) (i : Instr) : (s.later i).warps = s.warps := rfl
@[simp] theorem later_cores (s : State) (i : Instr) : (s.later i).cores = s.cores := rfl
@[simp] theorem later_dies (s : State) (i : Instr) : (s.later i).dies = s.dies := rfl
@[simp] theorem later_leaseClock (s : State) (i : Instr) : (s.later i).leaseClock = s.leaseClock := rfl
@[simp] theorem later_wrapCount (s : State) (i : Instr) : (s.later i).wrapCount = s.wrapCount := rfl
@[simp] theorem later_wrapAt (s : State) (i : Instr) : (s.later i).wrapAt = s.wrapAt := rfl
@[simp] theorem later_leases (s : State) (i : Instr) : (s.later i).leases = s.leases := rfl
@[simp] theorem later_annex (s : State) (i : Instr) : (s.later i).annex = s.annex := rfl
@[simp] theorem later_spent (s : State) (i : Instr) : (s.later i).spent = s.spent := rfl
@[simp] theorem later_l2 (s : State) (i : Instr) : (s.later i).l2 = s.l2 := rfl
@[simp] theorem later_directory (s : State) (i : Instr) : (s.later i).directory = s.directory := rfl
@[simp] theorem later_l1 (s : State) (i : Instr) : (s.later i).l1 = s.l1 := rfl
@[simp] theorem later_homeOps (s : State) (i : Instr) : (s.later i).homeOps = s.homeOps := rfl
@[simp] theorem later_xlats (s : State) (i : Instr) : (s.later i).xlats = s.xlats := rfl
@[simp] theorem later_ctxs (s : State) (i : Instr) : (s.later i).ctxs = s.ctxs := rfl
@[simp] theorem later_fns (s : State) (i : Instr) : (s.later i).fns = s.fns := rfl
@[simp] theorem later_objs (s : State) (i : Instr) : (s.later i).objs = s.objs := rfl
@[simp] theorem later_trigOvf (s : State) (i : Instr) : (s.later i).trigOvf = s.trigOvf := rfl
@[simp] theorem later_rings (s : State) (i : Instr) : (s.later i).rings = s.rings := rfl
@[simp] theorem later_graphs (s : State) (i : Instr) : (s.later i).graphs = s.graphs := rfl
@[simp] theorem later_holds (s : State) (i : Instr) : (s.later i).holds = s.holds := rfl
@[simp] theorem later_out (s : State) (i : Instr) : (s.later i).out = s.out := rfl
@[simp] theorem later_launches (s : State) (i : Instr) : (s.later i).launches = s.launches := rfl
@[simp] theorem later_units (s : State) (i : Instr) : (s.later i).units = s.units := rfl
@[simp] theorem later_groups (s : State) (i : Instr) : (s.later i).groups = s.groups := rfl
@[simp] theorem later_jobs (s : State) (i : Instr) : (s.later i).jobs = s.jobs := rfl
@[simp] theorem later_intake (s : State) (i : Instr) : (s.later i).intake = s.intake := rfl
@[simp] theorem later_gals (s : State) (i : Instr) : (s.later i).gals = s.gals := rfl
@[simp] theorem later_taskqs (s : State) (i : Instr) : (s.later i).taskqs = s.taskqs := rfl
@[simp] theorem later_depctrs (s : State) (i : Instr) : (s.later i).depctrs = s.depctrs := rfl
@[simp] theorem later_bars (s : State) (i : Instr) : (s.later i).bars = s.bars := rfl
@[simp] theorem later_cmds (s : State) (i : Instr) : (s.later i).cmds = s.cmds := rfl
@[simp] theorem later_peers (s : State) (i : Instr) : (s.later i).peers = s.peers := rfl
@[simp] theorem later_oddColls (s : State) (i : Instr) : (s.later i).oddColls = s.oddColls := rfl
@[simp] theorem later_services (s : State) (i : Instr) : (s.later i).services = s.services := rfl
@[simp] theorem later_lodge (s : State) (i : Instr) : (s.later i).lodge = s.lodge := rfl
@[simp] theorem later_ecc (s : State) (i : Instr) : (s.later i).ecc = s.ecc := rfl
@[simp] theorem later_retired (s : State) (i : Instr) : (s.later i).retired = s.retired := rfl

/-! ### `State.unhold` -/

@[simp] theorem unhold_now (s : State) (k : Nat) : (s.unhold k).now = s.now := rfl
@[simp] theorem unhold_ticks (s : State) (k : Nat) : (s.unhold k).ticks = s.ticks := rfl
@[simp] theorem unhold_agenda (s : State) (k : Nat) : (s.unhold k).agenda = s.agenda := rfl
@[simp] theorem unhold_asked (s : State) (k : Nat) : (s.unhold k).asked = s.asked := rfl
@[simp] theorem unhold_cur (s : State) (k : Nat) : (s.unhold k).cur = s.cur := rfl
@[simp] theorem unhold_freeNo (s : State) (k : Nat) : (s.unhold k).freeNo = s.freeNo := rfl
@[simp] theorem unhold_nextNo (s : State) (k : Nat) : (s.unhold k).nextNo = s.nextNo := rfl
@[simp] theorem unhold_mem (s : State) (k : Nat) : (s.unhold k).mem = s.mem := rfl
@[simp] theorem unhold_spad (s : State) (k : Nat) : (s.unhold k).spad = s.spad := rfl
@[simp] theorem unhold_host (s : State) (k : Nat) : (s.unhold k).host = s.host := rfl
@[simp] theorem unhold_flash (s : State) (k : Nat) : (s.unhold k).flash = s.flash := rfl
@[simp] theorem unhold_peerText (s : State) (k : Nat) : (s.unhold k).peerText = s.peerText := rfl
@[simp] theorem unhold_poison (s : State) (k : Nat) : (s.unhold k).poison = s.poison := rfl
@[simp] theorem unhold_poisonSpad (s : State) (k : Nat) : (s.unhold k).poisonSpad = s.poisonSpad := rfl
@[simp] theorem unhold_warps (s : State) (k : Nat) : (s.unhold k).warps = s.warps := rfl
@[simp] theorem unhold_cores (s : State) (k : Nat) : (s.unhold k).cores = s.cores := rfl
@[simp] theorem unhold_dies (s : State) (k : Nat) : (s.unhold k).dies = s.dies := rfl
@[simp] theorem unhold_leaseClock (s : State) (k : Nat) : (s.unhold k).leaseClock = s.leaseClock := rfl
@[simp] theorem unhold_wrapCount (s : State) (k : Nat) : (s.unhold k).wrapCount = s.wrapCount := rfl
@[simp] theorem unhold_wrapAt (s : State) (k : Nat) : (s.unhold k).wrapAt = s.wrapAt := rfl
@[simp] theorem unhold_leases (s : State) (k : Nat) : (s.unhold k).leases = s.leases := rfl
@[simp] theorem unhold_annex (s : State) (k : Nat) : (s.unhold k).annex = s.annex := rfl
@[simp] theorem unhold_spent (s : State) (k : Nat) : (s.unhold k).spent = s.spent := rfl
@[simp] theorem unhold_l2 (s : State) (k : Nat) : (s.unhold k).l2 = s.l2 := rfl
@[simp] theorem unhold_directory (s : State) (k : Nat) : (s.unhold k).directory = s.directory := rfl
@[simp] theorem unhold_l1 (s : State) (k : Nat) : (s.unhold k).l1 = s.l1 := rfl
@[simp] theorem unhold_homeOps (s : State) (k : Nat) : (s.unhold k).homeOps = s.homeOps := rfl
@[simp] theorem unhold_xlats (s : State) (k : Nat) : (s.unhold k).xlats = s.xlats := rfl
@[simp] theorem unhold_ctxs (s : State) (k : Nat) : (s.unhold k).ctxs = s.ctxs := rfl
@[simp] theorem unhold_fns (s : State) (k : Nat) : (s.unhold k).fns = s.fns := rfl
@[simp] theorem unhold_objs (s : State) (k : Nat) : (s.unhold k).objs = s.objs := rfl
@[simp] theorem unhold_trigOvf (s : State) (k : Nat) : (s.unhold k).trigOvf = s.trigOvf := rfl
@[simp] theorem unhold_rings (s : State) (k : Nat) : (s.unhold k).rings = s.rings := rfl
@[simp] theorem unhold_graphs (s : State) (k : Nat) : (s.unhold k).graphs = s.graphs := rfl
@[simp] theorem unhold_out (s : State) (k : Nat) : (s.unhold k).out = s.out := rfl
@[simp] theorem unhold_launches (s : State) (k : Nat) : (s.unhold k).launches = s.launches := rfl
@[simp] theorem unhold_units (s : State) (k : Nat) : (s.unhold k).units = s.units := rfl
@[simp] theorem unhold_groups (s : State) (k : Nat) : (s.unhold k).groups = s.groups := rfl
@[simp] theorem unhold_jobs (s : State) (k : Nat) : (s.unhold k).jobs = s.jobs := rfl
@[simp] theorem unhold_intake (s : State) (k : Nat) : (s.unhold k).intake = s.intake := rfl
@[simp] theorem unhold_gals (s : State) (k : Nat) : (s.unhold k).gals = s.gals := rfl
@[simp] theorem unhold_taskqs (s : State) (k : Nat) : (s.unhold k).taskqs = s.taskqs := rfl
@[simp] theorem unhold_depctrs (s : State) (k : Nat) : (s.unhold k).depctrs = s.depctrs := rfl
@[simp] theorem unhold_bars (s : State) (k : Nat) : (s.unhold k).bars = s.bars := rfl
@[simp] theorem unhold_cmds (s : State) (k : Nat) : (s.unhold k).cmds = s.cmds := rfl
@[simp] theorem unhold_peers (s : State) (k : Nat) : (s.unhold k).peers = s.peers := rfl
@[simp] theorem unhold_oddColls (s : State) (k : Nat) : (s.unhold k).oddColls = s.oddColls := rfl
@[simp] theorem unhold_services (s : State) (k : Nat) : (s.unhold k).services = s.services := rfl
@[simp] theorem unhold_lodge (s : State) (k : Nat) : (s.unhold k).lodge = s.lodge := rfl
@[simp] theorem unhold_ecc (s : State) (k : Nat) : (s.unhold k).ecc = s.ecc := rfl
@[simp] theorem unhold_retired (s : State) (k : Nat) : (s.unhold k).retired = s.retired := rfl

/-! ### `State.tick` -/

@[simp] theorem tick_ticks (s : State) (n : Nat) : (s.tick n).ticks = s.ticks := rfl
@[simp] theorem tick_agenda (s : State) (n : Nat) : (s.tick n).agenda = s.agenda := rfl
@[simp] theorem tick_asked (s : State) (n : Nat) : (s.tick n).asked = s.asked := rfl
@[simp] theorem tick_cur (s : State) (n : Nat) : (s.tick n).cur = s.cur := rfl
@[simp] theorem tick_freeNo (s : State) (n : Nat) : (s.tick n).freeNo = s.freeNo := rfl
@[simp] theorem tick_nextNo (s : State) (n : Nat) : (s.tick n).nextNo = s.nextNo := rfl
@[simp] theorem tick_mem (s : State) (n : Nat) : (s.tick n).mem = s.mem := rfl
@[simp] theorem tick_spad (s : State) (n : Nat) : (s.tick n).spad = s.spad := rfl
@[simp] theorem tick_host (s : State) (n : Nat) : (s.tick n).host = s.host := rfl
@[simp] theorem tick_flash (s : State) (n : Nat) : (s.tick n).flash = s.flash := rfl
@[simp] theorem tick_peerText (s : State) (n : Nat) : (s.tick n).peerText = s.peerText := rfl
@[simp] theorem tick_poison (s : State) (n : Nat) : (s.tick n).poison = s.poison := rfl
@[simp] theorem tick_poisonSpad (s : State) (n : Nat) : (s.tick n).poisonSpad = s.poisonSpad := rfl
@[simp] theorem tick_warps (s : State) (n : Nat) : (s.tick n).warps = s.warps := rfl
@[simp] theorem tick_cores (s : State) (n : Nat) : (s.tick n).cores = s.cores := rfl
@[simp] theorem tick_dies (s : State) (n : Nat) : (s.tick n).dies = s.dies := rfl
@[simp] theorem tick_wrapCount (s : State) (n : Nat) : (s.tick n).wrapCount = s.wrapCount := rfl
@[simp] theorem tick_leases (s : State) (n : Nat) : (s.tick n).leases = s.leases := rfl
@[simp] theorem tick_annex (s : State) (n : Nat) : (s.tick n).annex = s.annex := rfl
@[simp] theorem tick_spent (s : State) (n : Nat) : (s.tick n).spent = s.spent := rfl
@[simp] theorem tick_l2 (s : State) (n : Nat) : (s.tick n).l2 = s.l2 := rfl
@[simp] theorem tick_directory (s : State) (n : Nat) : (s.tick n).directory = s.directory := rfl
@[simp] theorem tick_l1 (s : State) (n : Nat) : (s.tick n).l1 = s.l1 := rfl
@[simp] theorem tick_homeOps (s : State) (n : Nat) : (s.tick n).homeOps = s.homeOps := rfl
@[simp] theorem tick_xlats (s : State) (n : Nat) : (s.tick n).xlats = s.xlats := rfl
@[simp] theorem tick_ctxs (s : State) (n : Nat) : (s.tick n).ctxs = s.ctxs := rfl
@[simp] theorem tick_fns (s : State) (n : Nat) : (s.tick n).fns = s.fns := rfl
@[simp] theorem tick_objs (s : State) (n : Nat) : (s.tick n).objs = s.objs := rfl
@[simp] theorem tick_trigOvf (s : State) (n : Nat) : (s.tick n).trigOvf = s.trigOvf := rfl
@[simp] theorem tick_rings (s : State) (n : Nat) : (s.tick n).rings = s.rings := rfl
@[simp] theorem tick_graphs (s : State) (n : Nat) : (s.tick n).graphs = s.graphs := rfl
@[simp] theorem tick_holds (s : State) (n : Nat) : (s.tick n).holds = s.holds := rfl
@[simp] theorem tick_out (s : State) (n : Nat) : (s.tick n).out = s.out := rfl
@[simp] theorem tick_launches (s : State) (n : Nat) : (s.tick n).launches = s.launches := rfl
@[simp] theorem tick_units (s : State) (n : Nat) : (s.tick n).units = s.units := rfl
@[simp] theorem tick_groups (s : State) (n : Nat) : (s.tick n).groups = s.groups := rfl
@[simp] theorem tick_jobs (s : State) (n : Nat) : (s.tick n).jobs = s.jobs := rfl
@[simp] theorem tick_intake (s : State) (n : Nat) : (s.tick n).intake = s.intake := rfl
@[simp] theorem tick_gals (s : State) (n : Nat) : (s.tick n).gals = s.gals := rfl
@[simp] theorem tick_taskqs (s : State) (n : Nat) : (s.tick n).taskqs = s.taskqs := rfl
@[simp] theorem tick_depctrs (s : State) (n : Nat) : (s.tick n).depctrs = s.depctrs := rfl
@[simp] theorem tick_bars (s : State) (n : Nat) : (s.tick n).bars = s.bars := rfl
@[simp] theorem tick_cmds (s : State) (n : Nat) : (s.tick n).cmds = s.cmds := rfl
@[simp] theorem tick_peers (s : State) (n : Nat) : (s.tick n).peers = s.peers := rfl
@[simp] theorem tick_oddColls (s : State) (n : Nat) : (s.tick n).oddColls = s.oddColls := rfl
@[simp] theorem tick_services (s : State) (n : Nat) : (s.tick n).services = s.services := rfl
@[simp] theorem tick_lodge (s : State) (n : Nat) : (s.tick n).lodge = s.lodge := rfl
@[simp] theorem tick_ecc (s : State) (n : Nat) : (s.tick n).ecc = s.ecc := rfl
@[simp] theorem tick_retired (s : State) (n : Nat) : (s.tick n).retired = s.retired := rfl

/-! ### Warp slots -/

@[simp] theorem warp_setWarp_same (s : State) (w : Nat) (x : Warp) : (s.setWarp w x).warp w = x := by
  simp [State.warp, State.setWarp]
@[simp] theorem warp_setWarp_other (s : State) (w v : Nat) (x : Warp) (h : v ≠ w) : (s.setWarp w x).warp v = s.warp v := by
  simp [State.warp, State.setWarp, h]
@[simp] theorem warp_onWarp_same (s : State) (w : Nat) (f : Warp → Warp) : (s.onWarp w f).warp w = f (s.warp w) := by
  simp [State.onWarp]
@[simp] theorem warp_onWarp_other (s : State) (w v : Nat) (f : Warp → Warp) (h : v ≠ w) : (s.onWarp w f).warp v = s.warp v := by
  simp [State.onWarp, h]
@[simp] theorem curWarp_setWarp (s : State) (x : Warp) : (s.setWarp s.cur x).curWarp = x := by simp [State.curWarp]
@[simp] theorem core_onCore_same (s : State) (c : Nat) (f : Core → Core) : (s.onCore c f).core c = f (s.core c) := by
  simp [State.core, State.onCore]
@[simp] theorem core_onCore_other (s : State) (c k : Nat) (f : Core → Core) (h : k ≠ c) : (s.onCore c f).core k = s.core k := by
  simp [State.core, State.onCore, h]

/-! ### `Warp.setReg` -/

@[simp] theorem setReg_segs (wp : Warp) (n : Nat) (r : VReg) : (wp.setReg n r).segs = wp.segs := rfl
@[simp] theorem setReg_preds (wp : Warp) (n : Nat) (r : VReg) : (wp.setReg n r).preds = wp.preds := rfl
@[simp] theorem setReg_pcs (wp : Warp) (n : Nat) (r : VReg) : (wp.setReg n r).pcs = wp.pcs := rfl
@[simp] theorem setReg_live (wp : Warp) (n : Nat) (r : VReg) : (wp.setReg n r).live = wp.live := rfl
@[simp] theorem setReg_holds (wp : Warp) (n : Nat) (r : VReg) : (wp.setReg n r).holds = wp.holds := rfl
@[simp] theorem setReg_rot (wp : Warp) (n : Nat) (r : VReg) : (wp.setReg n r).rot = wp.rot := rfl
@[simp] theorem setReg_fpflags (wp : Warp) (n : Nat) (r : VReg) : (wp.setReg n r).fpflags = wp.fpflags := rfl
@[simp] theorem setReg_ldCnt (wp : Warp) (n : Nat) (r : VReg) : (wp.setReg n r).ldCnt = wp.ldCnt := rfl
@[simp] theorem setReg_stCnt (wp : Warp) (n : Nat) (r : VReg) : (wp.setReg n r).stCnt = wp.stCnt := rfl
@[simp] theorem setReg_enCnt (wp : Warp) (n : Nat) (r : VReg) : (wp.setReg n r).enCnt = wp.enCnt := rfl
@[simp] theorem setReg_quCnt (wp : Warp) (n : Nat) (r : VReg) : (wp.setReg n r).quCnt = wp.quCnt := rfl
@[simp] theorem setReg_results (wp : Warp) (n : Nat) (r : VReg) : (wp.setReg n r).results = wp.results := rfl
@[simp] theorem setReg_stores (wp : Warp) (n : Nat) (r : VReg) : (wp.setReg n r).stores = wp.stores := rfl
@[simp] theorem setReg_laid (wp : Warp) (n : Nat) (r : VReg) : (wp.setReg n r).laid = wp.laid := rfl
@[simp] theorem setReg_nextId (wp : Warp) (n : Nat) (r : VReg) : (wp.setReg n r).nextId = wp.nextId := rfl
@[simp] theorem setReg_clause (wp : Warp) (n : Nat) (r : VReg) : (wp.setReg n r).clause = wp.clause := rfl
@[simp] theorem setReg_resume (wp : Warp) (n : Nat) (r : VReg) : (wp.setReg n r).resume = wp.resume := rfl
@[simp] theorem setReg_via (wp : Warp) (n : Nat) (r : VReg) : (wp.setReg n r).via = wp.via := rfl
@[simp] theorem setReg_window (wp : Warp) (n : Nat) (r : VReg) : (wp.setReg n r).window = wp.window := rfl
@[simp] theorem setReg_irr (wp : Warp) (n : Nat) (r : VReg) : (wp.setReg n r).irr = wp.irr := rfl
@[simp] theorem setReg_sideLog (wp : Warp) (n : Nat) (r : VReg) : (wp.setReg n r).sideLog = wp.sideLog := rfl
@[simp] theorem setReg_logHold (wp : Warp) (n : Nat) (r : VReg) : (wp.setReg n r).logHold = wp.logHold := rfl
@[simp] theorem setReg_logSince (wp : Warp) (n : Nat) (r : VReg) : (wp.setReg n r).logSince = wp.logSince := rfl
@[simp] theorem setReg_logPages (wp : Warp) (n : Nat) (r : VReg) : (wp.setReg n r).logPages = wp.logPages := rfl
@[simp] theorem setReg_logTold (wp : Warp) (n : Nat) (r : VReg) : (wp.setReg n r).logTold = wp.logTold := rfl
@[simp] theorem setReg_fullTold (wp : Warp) (n : Nat) (r : VReg) : (wp.setReg n r).fullTold = wp.fullTold := rfl
@[simp] theorem setReg_logDrain (wp : Warp) (n : Nat) (r : VReg) : (wp.setReg n r).logDrain = wp.logDrain := rfl
@[simp] theorem setReg_engSeq (wp : Warp) (n : Nat) (r : VReg) : (wp.setReg n r).engSeq = wp.engSeq := rfl
@[simp] theorem setReg_level (wp : Warp) (n : Nat) (r : VReg) : (wp.setReg n r).level = wp.level := rfl
@[simp] theorem setReg_rolls (wp : Warp) (n : Nat) (r : VReg) : (wp.setReg n r).rolls = wp.rolls := rfl
@[simp] theorem setReg_soloUntil (wp : Warp) (n : Nat) (r : VReg) : (wp.setReg n r).soloUntil = wp.soloUntil := rfl
@[simp] theorem setReg_levelAt (wp : Warp) (n : Nat) (r : VReg) : (wp.setReg n r).levelAt = wp.levelAt := rfl
@[simp] theorem setReg_soloTo (wp : Warp) (n : Nat) (r : VReg) : (wp.setReg n r).soloTo = wp.soloTo := rfl
@[simp] theorem setReg_readyAt (wp : Warp) (n : Nat) (r : VReg) : (wp.setReg n r).readyAt = wp.readyAt := rfl
@[simp] theorem setReg_yieldTo (wp : Warp) (n : Nat) (r : VReg) : (wp.setReg n r).yieldTo = wp.yieldTo := rfl
@[simp] theorem setReg_poison (wp : Warp) (n : Nat) (r : VReg) : (wp.setReg n r).poison = wp.poison := rfl

/-! ### `Warp.setPcs` -/

@[simp] theorem setPcs_segs (wp : Warp) (m : Mask) (f : Nat → DWord) : (wp.setPcs m f).segs = wp.segs := rfl
@[simp] theorem setPcs_regs (wp : Warp) (m : Mask) (f : Nat → DWord) : (wp.setPcs m f).regs = wp.regs := rfl
@[simp] theorem setPcs_preds (wp : Warp) (m : Mask) (f : Nat → DWord) : (wp.setPcs m f).preds = wp.preds := rfl
@[simp] theorem setPcs_live (wp : Warp) (m : Mask) (f : Nat → DWord) : (wp.setPcs m f).live = wp.live := rfl
@[simp] theorem setPcs_holds (wp : Warp) (m : Mask) (f : Nat → DWord) : (wp.setPcs m f).holds = wp.holds := rfl
@[simp] theorem setPcs_rot (wp : Warp) (m : Mask) (f : Nat → DWord) : (wp.setPcs m f).rot = wp.rot := rfl
@[simp] theorem setPcs_fpflags (wp : Warp) (m : Mask) (f : Nat → DWord) : (wp.setPcs m f).fpflags = wp.fpflags := rfl
@[simp] theorem setPcs_ldCnt (wp : Warp) (m : Mask) (f : Nat → DWord) : (wp.setPcs m f).ldCnt = wp.ldCnt := rfl
@[simp] theorem setPcs_stCnt (wp : Warp) (m : Mask) (f : Nat → DWord) : (wp.setPcs m f).stCnt = wp.stCnt := rfl
@[simp] theorem setPcs_enCnt (wp : Warp) (m : Mask) (f : Nat → DWord) : (wp.setPcs m f).enCnt = wp.enCnt := rfl
@[simp] theorem setPcs_quCnt (wp : Warp) (m : Mask) (f : Nat → DWord) : (wp.setPcs m f).quCnt = wp.quCnt := rfl
@[simp] theorem setPcs_results (wp : Warp) (m : Mask) (f : Nat → DWord) : (wp.setPcs m f).results = wp.results := rfl
@[simp] theorem setPcs_stores (wp : Warp) (m : Mask) (f : Nat → DWord) : (wp.setPcs m f).stores = wp.stores := rfl
@[simp] theorem setPcs_laid (wp : Warp) (m : Mask) (f : Nat → DWord) : (wp.setPcs m f).laid = wp.laid := rfl
@[simp] theorem setPcs_nextId (wp : Warp) (m : Mask) (f : Nat → DWord) : (wp.setPcs m f).nextId = wp.nextId := rfl
@[simp] theorem setPcs_clause (wp : Warp) (m : Mask) (f : Nat → DWord) : (wp.setPcs m f).clause = wp.clause := rfl
@[simp] theorem setPcs_resume (wp : Warp) (m : Mask) (f : Nat → DWord) : (wp.setPcs m f).resume = wp.resume := rfl
@[simp] theorem setPcs_via (wp : Warp) (m : Mask) (f : Nat → DWord) : (wp.setPcs m f).via = wp.via := rfl
@[simp] theorem setPcs_window (wp : Warp) (m : Mask) (f : Nat → DWord) : (wp.setPcs m f).window = wp.window := rfl
@[simp] theorem setPcs_irr (wp : Warp) (m : Mask) (f : Nat → DWord) : (wp.setPcs m f).irr = wp.irr := rfl
@[simp] theorem setPcs_sideLog (wp : Warp) (m : Mask) (f : Nat → DWord) : (wp.setPcs m f).sideLog = wp.sideLog := rfl
@[simp] theorem setPcs_logHold (wp : Warp) (m : Mask) (f : Nat → DWord) : (wp.setPcs m f).logHold = wp.logHold := rfl
@[simp] theorem setPcs_logSince (wp : Warp) (m : Mask) (f : Nat → DWord) : (wp.setPcs m f).logSince = wp.logSince := rfl
@[simp] theorem setPcs_logPages (wp : Warp) (m : Mask) (f : Nat → DWord) : (wp.setPcs m f).logPages = wp.logPages := rfl
@[simp] theorem setPcs_logTold (wp : Warp) (m : Mask) (f : Nat → DWord) : (wp.setPcs m f).logTold = wp.logTold := rfl
@[simp] theorem setPcs_fullTold (wp : Warp) (m : Mask) (f : Nat → DWord) : (wp.setPcs m f).fullTold = wp.fullTold := rfl
@[simp] theorem setPcs_logDrain (wp : Warp) (m : Mask) (f : Nat → DWord) : (wp.setPcs m f).logDrain = wp.logDrain := rfl
@[simp] theorem setPcs_engSeq (wp : Warp) (m : Mask) (f : Nat → DWord) : (wp.setPcs m f).engSeq = wp.engSeq := rfl
@[simp] theorem setPcs_level (wp : Warp) (m : Mask) (f : Nat → DWord) : (wp.setPcs m f).level = wp.level := rfl
@[simp] theorem setPcs_rolls (wp : Warp) (m : Mask) (f : Nat → DWord) : (wp.setPcs m f).rolls = wp.rolls := rfl
@[simp] theorem setPcs_soloUntil (wp : Warp) (m : Mask) (f : Nat → DWord) : (wp.setPcs m f).soloUntil = wp.soloUntil := rfl
@[simp] theorem setPcs_levelAt (wp : Warp) (m : Mask) (f : Nat → DWord) : (wp.setPcs m f).levelAt = wp.levelAt := rfl
@[simp] theorem setPcs_soloTo (wp : Warp) (m : Mask) (f : Nat → DWord) : (wp.setPcs m f).soloTo = wp.soloTo := rfl
@[simp] theorem setPcs_readyAt (wp : Warp) (m : Mask) (f : Nat → DWord) : (wp.setPcs m f).readyAt = wp.readyAt := rfl
@[simp] theorem setPcs_yieldTo (wp : Warp) (m : Mask) (f : Nat → DWord) : (wp.setPcs m f).yieldTo = wp.yieldTo := rfl
@[simp] theorem setPcs_poison (wp : Warp) (m : Mask) (f : Nat → DWord) : (wp.setPcs m f).poison = wp.poison := rfl

/-! ### `Warp.onSeg` -/

@[simp] theorem onSeg_regs (wp : Warp) (lb : Nat) (f : Seg → Seg) : (wp.onSeg lb f).regs = wp.regs := rfl
@[simp] theorem onSeg_preds (wp : Warp) (lb : Nat) (f : Seg → Seg) : (wp.onSeg lb f).preds = wp.preds := rfl
@[simp] theorem onSeg_pcs (wp : Warp) (lb : Nat) (f : Seg → Seg) : (wp.onSeg lb f).pcs = wp.pcs := rfl
@[simp] theorem onSeg_live (wp : Warp) (lb : Nat) (f : Seg → Seg) : (wp.onSeg lb f).live = wp.live := rfl
@[simp] theorem onSeg_holds (wp : Warp) (lb : Nat) (f : Seg → Seg) : (wp.onSeg lb f).holds = wp.holds := rfl
@[simp] theorem onSeg_rot (wp : Warp) (lb : Nat) (f : Seg → Seg) : (wp.onSeg lb f).rot = wp.rot := rfl
@[simp] theorem onSeg_fpflags (wp : Warp) (lb : Nat) (f : Seg → Seg) : (wp.onSeg lb f).fpflags = wp.fpflags := rfl
@[simp] theorem onSeg_ldCnt (wp : Warp) (lb : Nat) (f : Seg → Seg) : (wp.onSeg lb f).ldCnt = wp.ldCnt := rfl
@[simp] theorem onSeg_stCnt (wp : Warp) (lb : Nat) (f : Seg → Seg) : (wp.onSeg lb f).stCnt = wp.stCnt := rfl
@[simp] theorem onSeg_enCnt (wp : Warp) (lb : Nat) (f : Seg → Seg) : (wp.onSeg lb f).enCnt = wp.enCnt := rfl
@[simp] theorem onSeg_quCnt (wp : Warp) (lb : Nat) (f : Seg → Seg) : (wp.onSeg lb f).quCnt = wp.quCnt := rfl
@[simp] theorem onSeg_results (wp : Warp) (lb : Nat) (f : Seg → Seg) : (wp.onSeg lb f).results = wp.results := rfl
@[simp] theorem onSeg_stores (wp : Warp) (lb : Nat) (f : Seg → Seg) : (wp.onSeg lb f).stores = wp.stores := rfl
@[simp] theorem onSeg_laid (wp : Warp) (lb : Nat) (f : Seg → Seg) : (wp.onSeg lb f).laid = wp.laid := rfl
@[simp] theorem onSeg_nextId (wp : Warp) (lb : Nat) (f : Seg → Seg) : (wp.onSeg lb f).nextId = wp.nextId := rfl
@[simp] theorem onSeg_clause (wp : Warp) (lb : Nat) (f : Seg → Seg) : (wp.onSeg lb f).clause = wp.clause := rfl
@[simp] theorem onSeg_resume (wp : Warp) (lb : Nat) (f : Seg → Seg) : (wp.onSeg lb f).resume = wp.resume := rfl
@[simp] theorem onSeg_via (wp : Warp) (lb : Nat) (f : Seg → Seg) : (wp.onSeg lb f).via = wp.via := rfl
@[simp] theorem onSeg_window (wp : Warp) (lb : Nat) (f : Seg → Seg) : (wp.onSeg lb f).window = wp.window := rfl
@[simp] theorem onSeg_irr (wp : Warp) (lb : Nat) (f : Seg → Seg) : (wp.onSeg lb f).irr = wp.irr := rfl
@[simp] theorem onSeg_sideLog (wp : Warp) (lb : Nat) (f : Seg → Seg) : (wp.onSeg lb f).sideLog = wp.sideLog := rfl
@[simp] theorem onSeg_logHold (wp : Warp) (lb : Nat) (f : Seg → Seg) : (wp.onSeg lb f).logHold = wp.logHold := rfl
@[simp] theorem onSeg_logSince (wp : Warp) (lb : Nat) (f : Seg → Seg) : (wp.onSeg lb f).logSince = wp.logSince := rfl
@[simp] theorem onSeg_logPages (wp : Warp) (lb : Nat) (f : Seg → Seg) : (wp.onSeg lb f).logPages = wp.logPages := rfl
@[simp] theorem onSeg_logTold (wp : Warp) (lb : Nat) (f : Seg → Seg) : (wp.onSeg lb f).logTold = wp.logTold := rfl
@[simp] theorem onSeg_fullTold (wp : Warp) (lb : Nat) (f : Seg → Seg) : (wp.onSeg lb f).fullTold = wp.fullTold := rfl
@[simp] theorem onSeg_logDrain (wp : Warp) (lb : Nat) (f : Seg → Seg) : (wp.onSeg lb f).logDrain = wp.logDrain := rfl
@[simp] theorem onSeg_engSeq (wp : Warp) (lb : Nat) (f : Seg → Seg) : (wp.onSeg lb f).engSeq = wp.engSeq := rfl
@[simp] theorem onSeg_level (wp : Warp) (lb : Nat) (f : Seg → Seg) : (wp.onSeg lb f).level = wp.level := rfl
@[simp] theorem onSeg_rolls (wp : Warp) (lb : Nat) (f : Seg → Seg) : (wp.onSeg lb f).rolls = wp.rolls := rfl
@[simp] theorem onSeg_soloUntil (wp : Warp) (lb : Nat) (f : Seg → Seg) : (wp.onSeg lb f).soloUntil = wp.soloUntil := rfl
@[simp] theorem onSeg_levelAt (wp : Warp) (lb : Nat) (f : Seg → Seg) : (wp.onSeg lb f).levelAt = wp.levelAt := rfl
@[simp] theorem onSeg_soloTo (wp : Warp) (lb : Nat) (f : Seg → Seg) : (wp.onSeg lb f).soloTo = wp.soloTo := rfl
@[simp] theorem onSeg_readyAt (wp : Warp) (lb : Nat) (f : Seg → Seg) : (wp.onSeg lb f).readyAt = wp.readyAt := rfl
@[simp] theorem onSeg_yieldTo (wp : Warp) (lb : Nat) (f : Seg → Seg) : (wp.onSeg lb f).yieldTo = wp.yieldTo := rfl
@[simp] theorem onSeg_poison (wp : Warp) (lb : Nat) (f : Seg → Seg) : (wp.onSeg lb f).poison = wp.poison := rfl

/-! ### `Warp.onSegs` -/

@[simp] theorem onSegs_regs (wp : Warp) (f : Seg → Seg) : (wp.onSegs f).regs = wp.regs := rfl
@[simp] theorem onSegs_preds (wp : Warp) (f : Seg → Seg) : (wp.onSegs f).preds = wp.preds := rfl
@[simp] theorem onSegs_pcs (wp : Warp) (f : Seg → Seg) : (wp.onSegs f).pcs = wp.pcs := rfl
@[simp] theorem onSegs_live (wp : Warp) (f : Seg → Seg) : (wp.onSegs f).live = wp.live := rfl
@[simp] theorem onSegs_holds (wp : Warp) (f : Seg → Seg) : (wp.onSegs f).holds = wp.holds := rfl
@[simp] theorem onSegs_rot (wp : Warp) (f : Seg → Seg) : (wp.onSegs f).rot = wp.rot := rfl
@[simp] theorem onSegs_fpflags (wp : Warp) (f : Seg → Seg) : (wp.onSegs f).fpflags = wp.fpflags := rfl
@[simp] theorem onSegs_ldCnt (wp : Warp) (f : Seg → Seg) : (wp.onSegs f).ldCnt = wp.ldCnt := rfl
@[simp] theorem onSegs_stCnt (wp : Warp) (f : Seg → Seg) : (wp.onSegs f).stCnt = wp.stCnt := rfl
@[simp] theorem onSegs_enCnt (wp : Warp) (f : Seg → Seg) : (wp.onSegs f).enCnt = wp.enCnt := rfl
@[simp] theorem onSegs_quCnt (wp : Warp) (f : Seg → Seg) : (wp.onSegs f).quCnt = wp.quCnt := rfl
@[simp] theorem onSegs_results (wp : Warp) (f : Seg → Seg) : (wp.onSegs f).results = wp.results := rfl
@[simp] theorem onSegs_stores (wp : Warp) (f : Seg → Seg) : (wp.onSegs f).stores = wp.stores := rfl
@[simp] theorem onSegs_laid (wp : Warp) (f : Seg → Seg) : (wp.onSegs f).laid = wp.laid := rfl
@[simp] theorem onSegs_nextId (wp : Warp) (f : Seg → Seg) : (wp.onSegs f).nextId = wp.nextId := rfl
@[simp] theorem onSegs_clause (wp : Warp) (f : Seg → Seg) : (wp.onSegs f).clause = wp.clause := rfl
@[simp] theorem onSegs_resume (wp : Warp) (f : Seg → Seg) : (wp.onSegs f).resume = wp.resume := rfl
@[simp] theorem onSegs_via (wp : Warp) (f : Seg → Seg) : (wp.onSegs f).via = wp.via := rfl
@[simp] theorem onSegs_window (wp : Warp) (f : Seg → Seg) : (wp.onSegs f).window = wp.window := rfl
@[simp] theorem onSegs_irr (wp : Warp) (f : Seg → Seg) : (wp.onSegs f).irr = wp.irr := rfl
@[simp] theorem onSegs_sideLog (wp : Warp) (f : Seg → Seg) : (wp.onSegs f).sideLog = wp.sideLog := rfl
@[simp] theorem onSegs_logHold (wp : Warp) (f : Seg → Seg) : (wp.onSegs f).logHold = wp.logHold := rfl
@[simp] theorem onSegs_logSince (wp : Warp) (f : Seg → Seg) : (wp.onSegs f).logSince = wp.logSince := rfl
@[simp] theorem onSegs_logPages (wp : Warp) (f : Seg → Seg) : (wp.onSegs f).logPages = wp.logPages := rfl
@[simp] theorem onSegs_logTold (wp : Warp) (f : Seg → Seg) : (wp.onSegs f).logTold = wp.logTold := rfl
@[simp] theorem onSegs_fullTold (wp : Warp) (f : Seg → Seg) : (wp.onSegs f).fullTold = wp.fullTold := rfl
@[simp] theorem onSegs_logDrain (wp : Warp) (f : Seg → Seg) : (wp.onSegs f).logDrain = wp.logDrain := rfl
@[simp] theorem onSegs_engSeq (wp : Warp) (f : Seg → Seg) : (wp.onSegs f).engSeq = wp.engSeq := rfl
@[simp] theorem onSegs_level (wp : Warp) (f : Seg → Seg) : (wp.onSegs f).level = wp.level := rfl
@[simp] theorem onSegs_rolls (wp : Warp) (f : Seg → Seg) : (wp.onSegs f).rolls = wp.rolls := rfl
@[simp] theorem onSegs_soloUntil (wp : Warp) (f : Seg → Seg) : (wp.onSegs f).soloUntil = wp.soloUntil := rfl
@[simp] theorem onSegs_levelAt (wp : Warp) (f : Seg → Seg) : (wp.onSegs f).levelAt = wp.levelAt := rfl
@[simp] theorem onSegs_soloTo (wp : Warp) (f : Seg → Seg) : (wp.onSegs f).soloTo = wp.soloTo := rfl
@[simp] theorem onSegs_readyAt (wp : Warp) (f : Seg → Seg) : (wp.onSegs f).readyAt = wp.readyAt := rfl
@[simp] theorem onSegs_yieldTo (wp : Warp) (f : Seg → Seg) : (wp.onSegs f).yieldTo = wp.yieldTo := rfl
@[simp] theorem onSegs_poison (wp : Warp) (f : Seg → Seg) : (wp.onSegs f).poison = wp.poison := rfl

/-! ### `Warp.push` -/

@[simp] theorem push_segs (wp : Warp) (p : Pend) : (wp.push p).segs = wp.segs := rfl
@[simp] theorem push_regs (wp : Warp) (p : Pend) : (wp.push p).regs = wp.regs := rfl
@[simp] theorem push_preds (wp : Warp) (p : Pend) : (wp.push p).preds = wp.preds := rfl
@[simp] theorem push_pcs (wp : Warp) (p : Pend) : (wp.push p).pcs = wp.pcs := rfl
@[simp] theorem push_live (wp : Warp) (p : Pend) : (wp.push p).live = wp.live := rfl
@[simp] theorem push_holds (wp : Warp) (p : Pend) : (wp.push p).holds = wp.holds := rfl
@[simp] theorem push_rot (wp : Warp) (p : Pend) : (wp.push p).rot = wp.rot := rfl
@[simp] theorem push_fpflags (wp : Warp) (p : Pend) : (wp.push p).fpflags = wp.fpflags := rfl
@[simp] theorem push_ldCnt (wp : Warp) (p : Pend) : (wp.push p).ldCnt = wp.ldCnt := rfl
@[simp] theorem push_stCnt (wp : Warp) (p : Pend) : (wp.push p).stCnt = wp.stCnt := rfl
@[simp] theorem push_enCnt (wp : Warp) (p : Pend) : (wp.push p).enCnt = wp.enCnt := rfl
@[simp] theorem push_quCnt (wp : Warp) (p : Pend) : (wp.push p).quCnt = wp.quCnt := rfl
@[simp] theorem push_results (wp : Warp) (p : Pend) : (wp.push p).results = wp.results := rfl
@[simp] theorem push_stores (wp : Warp) (p : Pend) : (wp.push p).stores = wp.stores := rfl
@[simp] theorem push_laid (wp : Warp) (p : Pend) : (wp.push p).laid = wp.laid := rfl
@[simp] theorem push_nextId (wp : Warp) (p : Pend) : (wp.push p).nextId = wp.nextId := rfl
@[simp] theorem push_resume (wp : Warp) (p : Pend) : (wp.push p).resume = wp.resume := rfl
@[simp] theorem push_via (wp : Warp) (p : Pend) : (wp.push p).via = wp.via := rfl
@[simp] theorem push_window (wp : Warp) (p : Pend) : (wp.push p).window = wp.window := rfl
@[simp] theorem push_irr (wp : Warp) (p : Pend) : (wp.push p).irr = wp.irr := rfl
@[simp] theorem push_sideLog (wp : Warp) (p : Pend) : (wp.push p).sideLog = wp.sideLog := rfl
@[simp] theorem push_logHold (wp : Warp) (p : Pend) : (wp.push p).logHold = wp.logHold := rfl
@[simp] theorem push_logSince (wp : Warp) (p : Pend) : (wp.push p).logSince = wp.logSince := rfl
@[simp] theorem push_logPages (wp : Warp) (p : Pend) : (wp.push p).logPages = wp.logPages := rfl
@[simp] theorem push_logTold (wp : Warp) (p : Pend) : (wp.push p).logTold = wp.logTold := rfl
@[simp] theorem push_fullTold (wp : Warp) (p : Pend) : (wp.push p).fullTold = wp.fullTold := rfl
@[simp] theorem push_logDrain (wp : Warp) (p : Pend) : (wp.push p).logDrain = wp.logDrain := rfl
@[simp] theorem push_engSeq (wp : Warp) (p : Pend) : (wp.push p).engSeq = wp.engSeq := rfl
@[simp] theorem push_level (wp : Warp) (p : Pend) : (wp.push p).level = wp.level := rfl
@[simp] theorem push_rolls (wp : Warp) (p : Pend) : (wp.push p).rolls = wp.rolls := rfl
@[simp] theorem push_soloUntil (wp : Warp) (p : Pend) : (wp.push p).soloUntil = wp.soloUntil := rfl
@[simp] theorem push_levelAt (wp : Warp) (p : Pend) : (wp.push p).levelAt = wp.levelAt := rfl
@[simp] theorem push_soloTo (wp : Warp) (p : Pend) : (wp.push p).soloTo = wp.soloTo := rfl
@[simp] theorem push_readyAt (wp : Warp) (p : Pend) : (wp.push p).readyAt = wp.readyAt := rfl
@[simp] theorem push_yieldTo (wp : Warp) (p : Pend) : (wp.push p).yieldTo = wp.yieldTo := rfl
@[simp] theorem push_poison (wp : Warp) (p : Pend) : (wp.push p).poison = wp.poison := rfl

end Sys2Proof.Machine
end

