-- ==== Sys2Proof/Laws/Results.lean ====
section
/-! SUPPORT. What the shared shapes of fixed-latency meanings do (R61, R62): each is `Gives`. -/

namespace Sys2Proof.Machine

/-! ### Pushing results -/

theorem pushAll_some (ps : List Pend) (wp : Warp) (c : Clause) (h : wp.clause = some c) :
    wp.pushAll ps = { wp with clause := some { c with at_ := { c.at_ with pend := c.at_.pend ++ ps } } } := by
  induction ps generalizing wp c with
  | nil => cases wp; cases h; simp [Warp.pushAll]
  | cons p ps ih =>
    have : wp.pushAll (p :: ps) = (wp.push p).pushAll ps := rfl
    rw [this, ih (wp.push p) (c.push p) (by simp [Warp.push, h])]
    simp [Warp.push, Clause.push]

theorem fileAt_getD_same {α : Type} (size n : Nat) (b x : α) (l : List α) (h : n < size) :
    (fileAt size b l n x).getD n b = x := by
  have : n < (l ++ List.replicate (size - l.length) b).length := by simp; omega
  rw [List.getD_eq_getElem?_getD, fileAt, List.getElem?_set_self this]; rfl

theorem fileAt_getD_other {α : Type} (size n k : Nat) (b x : α) (l : List α) (h : k ≠ n) :
    (fileAt size b l n x).getD k b = l.getD k b := by
  have e : (fileAt size b l n x)[k]? = (l ++ List.replicate (size - l.length) b)[k]? := by
    simp [fileAt, Ne.symm h]
  rw [List.getD_eq_getElem?_getD, e, List.getD_eq_getElem?_getD, List.getElem?_append]
  split
  · rfl
  · rename_i hk
    rw [List.getElem?_replicate, List.getElem?_eq_none (l := l) (by omega)]
    split <;> rfl

/-! ### One result made visible -/

/-- A warp with another clause, which no result reads. -/
theorem apply_clause (wp : Warp) (p : Pend) (x : Option Clause) :
    ({ wp with clause := x } : Warp).apply p = { wp.apply p with clause := x } := by
  cases p with
  | mk slot due tgt lanes vals shape cover fill => cases tgt <;> rfl

theorem foldl_apply_clause (ps : List Pend) (wp : Warp) (x : Option Clause) :
    ps.foldl Warp.apply { wp with clause := x } = { ps.foldl Warp.apply wp with clause := x } := by
  induction ps generalizing wp with
  | nil => rfl
  | cons p ps ih => simp only [List.foldl_cons, apply_clause, ih]

/-- What a flag change does to the flags. -/
def Pend.onFlags (p : Pend) (x : BitVec 5) : BitVec 5 :=
  match p.tgt with
  | .flagsOr => x ||| p.flags
  | .flagsSet => p.flags
  | _ => x

theorem apply_flags (wp : Warp) (p : Pend) (h : p.isFlags = true) :
    wp.apply p = { wp with fpflags := p.onFlags wp.fpflags } := by
  cases p with
  | mk slot due tgt lanes vals shape cover fill => cases tgt <;> first | rfl | simp [Pend.isFlags] at h

theorem foldl_apply_flags (ps : List Pend) (wp : Warp) (h : ∀ p ∈ ps, p.isFlags = true) :
    ps.foldl Warp.apply wp = { wp with fpflags := ps.foldl (fun x p => p.onFlags x) wp.fpflags } := by
  induction ps generalizing wp with
  | nil => rfl
  | cons p ps ih =>
    rw [List.foldl_cons, ih _ (fun q hq => h q (List.mem_cons_of_mem _ hq)), apply_flags wp p (h p (List.mem_cons_self ..))]
    rfl

theorem mem_insertDue (p q : Pend) (l : List Pend) : q ∈ insertDue p l ↔ q = p ∨ q ∈ l := by
  induction l with
  | nil => simp [insertDue]
  | cons r l ih =>
    simp only [insertDue]
    split
    · simp
    · simp only [List.mem_cons, ih]; tauto

theorem mem_foldl_insertDue (ps l : List Pend) (q : Pend) :
    q ∈ ps.foldl (fun l p => insertDue p l) l ↔ q ∈ ps ∨ q ∈ l := by
  induction ps generalizing l with
  | nil => simp
  | cons p ps ih => simp only [List.foldl_cons, ih, mem_insertDue, List.mem_cons]; tauto

/-- The flag changes of a list, in their order. -/
def flagOrder (ps : List Pend) : List Pend := (ps.filter Pend.isFlags).foldl (fun l p => insertDue p l) []

theorem flagOrder_isFlags (ps : List Pend) : ∀ p ∈ flagOrder ps, p.isFlags = true := by
  intro p hp
  rw [flagOrder, mem_foldl_insertDue] at hp
  simp at hp
  exact hp.2

/-- A clause's end: registers first, then the flags. -/
theorem applyEnd_split (wp : Warp) (ps : List Pend) :
    wp.applyEnd ps =
      { (ps.filter fun p => !p.isFlags).foldl Warp.apply wp with
        fpflags := (flagOrder ps).foldl (fun x p => p.onFlags x) ((ps.filter fun p => !p.isFlags).foldl Warp.apply wp).fpflags } := by
  rw [Warp.applyEnd, orderPends, List.foldl_append]
  exact foldl_apply_flags _ _ (flagOrder_isFlags ps)

theorem insertDue_or (p : Pend) (l : List Pend) (x : BitVec 5) (hp : p.tgt = .flagsOr) (hl : ∀ q ∈ l, q.tgt = .flagsOr) :
    (insertDue p l).foldl (fun x p => p.onFlags x) x = l.foldl (fun x p => p.onFlags x) x ||| p.flags := by
  induction l generalizing x with
  | nil => simp [insertDue, Pend.onFlags, hp]
  | cons q l ih =>
    have hq : q.tgt = .flagsOr := hl q (List.mem_cons_self ..)
    have hr : ∀ r ∈ l, r.tgt = .flagsOr := fun r h => hl r (List.mem_cons_of_mem _ h)
    have move : ∀ (l : List Pend) (x y : BitVec 5), (∀ r ∈ l, r.tgt = .flagsOr) →
        l.foldl (fun x p => p.onFlags x) (x ||| y) = l.foldl (fun x p => p.onFlags x) x ||| y := by
      intro l
      induction l with
      | nil => intros; rfl
      | cons r l ih2 =>
        intro x y h
        have hr : r.tgt = .flagsOr := h r (List.mem_cons_self ..)
        have : r.onFlags (x ||| y) = r.onFlags x ||| y := by
          simp only [Pend.onFlags, hr, BitVec.or_assoc, BitVec.or_comm y]
        simp only [List.foldl_cons, this]
        exact ih2 _ _ fun r' h' => h r' (List.mem_cons_of_mem _ h')
    simp only [insertDue]
    split
    · simp only [List.foldl_cons]
      have : p.onFlags x = x ||| p.flags := by simp [Pend.onFlags, hp]
      rw [this]
      exact move (q :: l) x p.flags hl
    · simp only [List.foldl_cons, ih _ hr]

theorem flagOrder_or (ps : List Pend) (h : ∀ p ∈ ps, p.tgt ≠ .flagsSet) : ∀ p ∈ flagOrder ps, p.tgt = .flagsOr := by
  intro p hp
  have h1 := flagOrder_isFlags ps p hp
  rw [flagOrder, mem_foldl_insertDue] at hp
  simp at hp
  have h2 := h p hp.1
  revert h1 h2
  cases p with
  | mk slot due tgt lanes vals shape cover fill => cases tgt <;> simp [Pend.isFlags]

/-! ### Lanes and masks -/

theorem lanes_foldl (p : Nat → Bool) (ls : List Nat) (acc : Mask) (j : Nat) (hj : j < 64) :
    (ls.foldl (fun m l => if p l then m ||| laneBit l else m) acc).getLsbD j
      = (acc.getLsbD j || ls.any fun l => decide (l = j) && p l) := by
  induction ls generalizing acc with
  | nil => simp
  | cons l ls ih =>
    rw [List.foldl_cons, ih, List.any_cons]
    split
    · rename_i hp
      have : (laneBit l).getLsbD j = decide (l = j) := by
        simp only [laneBit, BitVec.getLsbD_ofNat, hj, decide_true, Bool.true_and, Nat.testBit_two_pow]
      simp [BitVec.getLsbD_or, this, hp, Bool.or_assoc]
    · rename_i hp
      simp [hp]

@[simp] theorem maskWhere_getLsbD (p : Nat → Bool) (j : Nat) : (maskWhere p).getLsbD j = (decide (j < 64) && p j) := by
  by_cases hj : j < 64
  · rw [maskWhere, lanes_foldl p allLanes 0 j hj]
    have : (allLanes.any fun l => decide (l = j) && p l) = p j := by
      rw [Bool.eq_iff_iff, List.any_eq_true]
      constructor
      · rintro ⟨l, _, h⟩
        simp at h
        rw [← h.1]; exact h.2
      · intro h
        exact ⟨j, by simp [allLanes, hj], by simp [h]⟩
    simp [this, hj]
  · simp [hj, BitVec.getLsbD_of_ge _ _ (by omega : 64 ≤ j)]

theorem mem_lanesOf (m : Mask) (l : Nat) : l ∈ lanesOf m ↔ m.getLsbD l = true := by
  simp only [lanesOf, allLanes, List.mem_filter, List.mem_range]
  constructor
  · exact fun h => h.2
  · intro h
    refine ⟨?_, h⟩
    by_contra hc
    rw [BitVec.getLsbD_of_ge _ _ (by omega)] at h
    exact Bool.noConfusion h

theorem lane_lt (m : Mask) (l : Nat) (h : m.getLsbD l = true) : l < 64 := by
  by_contra hc
  rw [BitVec.getLsbD_of_ge _ _ (by omega)] at h
  exact Bool.noConfusion h

theorem allLanes_map_getD {α : Type} (f : Nat → α) (b : α) (l : Nat) (h : l < 64) : (allLanes.map f).getD l b = f l := by
  simp [allLanes, List.getD, h]

theorem write_word (r : VReg) (lanes fill : Mask) (c : Cover) (t : Shape) (f : Nat → Word) (l : Nat) (h : lanes.getLsbD l = true) :
    (r.write lanes fill c t f).word l = f l := by
  have hl := lane_lt lanes l h
  simp only [VReg.write, VReg.word, wordAt, allLanes_map_getD _ _ _ hl]
  split <;> simp [h]

theorem write_word_other (r : VReg) (lanes fill : Mask) (c : Cover) (t : Shape) (f : Nat → Word) (l : Nat) (hl : l < 64)
    (h : lanes.getLsbD l = false) (hf : fill.getLsbD l = false) : (r.write lanes fill c t f).word l = r.word l := by
  simp only [VReg.write, VReg.word, wordAt, allLanes_map_getD _ _ _ hl]
  split <;> simp [h, hf]

/-- The lanes that a result fills beside its own are not live (R54). -/
theorem reach_fill (wp : Warp) (m : Mask) (l : Nat) (hl : wp.live.getLsbD l = true) : (wp.reach m).1.getLsbD l = false := by
  have h64 := lane_lt _ _ hl
  have key : ∀ (gs : List Seg) (k : Mask), k.getLsbD l = false →
      (gs.foldl (fun k g => if (g.slots &&& wp.live &&& ~~~m == 0 && !(g.slots &&& m == 0)) then k ||| (g.slots &&& ~~~m) else k) k).getLsbD l
        = false := by
    intro gs
    induction gs with
    | nil => exact fun _ h => h
    | cons g gs ih =>
      intro k hk
      simp only [List.foldl_cons]
      apply ih
      split
      · rename_i hw
        simp only [Bool.and_eq_true, beq_iff_eq] at hw
        have hz : (g.slots &&& wp.live &&& ~~~m).getLsbD l = false := by rw [hw.1]; simp
        simp only [BitVec.getLsbD_and, hl, Bool.and_true] at hz
        simp only [BitVec.getLsbD_or, hk, BitVec.getLsbD_and, hz, Bool.or_self]
      · exact hk
  exact key wp.segs 0 (by simp)

/-! ### Registers and predicates after a result -/

theorem reg_setReg (wp : Warp) (n k : Nat) (r : VReg) (h : n < 128) : (wp.setReg n r).reg k = if k = n then r else wp.reg k := by
  by_cases e : k = n
  · subst e; simp only [Warp.reg, Warp.setReg, if_pos]; exact fileAt_getD_same 128 k _ _ _ h
  · simp only [Warp.reg, Warp.setReg, if_neg e]; exact fileAt_getD_other 128 n k _ _ _ e

/-- A register result. -/
def Pend.reg (slot due n : Nat) (m : Mask) (vals : List DWord) (t : Shape) (c : Cover) (fill : Mask) : Pend :=
  ⟨slot, due, .vreg n, m, vals, t, c, fill⟩

theorem apply_vreg_reg (wp : Warp) (slot due n k : Nat) (m : Mask) (vals : List DWord) (t : Shape) (c : Cover) (fill : Mask)
    (h : n < 128) :
    (wp.apply ⟨slot, due, .vreg n, m, vals, t, c, fill⟩).reg k =
      if k = n then (wp.reg n).write m fill c t (fun l => loWord (vals.getD l 0)) else wp.reg k := by
  have := reg_setReg wp n k ((wp.reg n).write m fill c t (fun l => loWord (vals.getD l 0))) h
  simpa [Warp.apply, Warp.reg] using this

theorem apply_vreg_fileless (wp : Warp) (slot due n : Nat) (m : Mask) (vals : List DWord) (t : Shape) (c : Cover) (fill : Mask) :
    (wp.apply ⟨slot, due, .vreg n, m, vals, t, c, fill⟩).fileless = wp.fileless ∧
    (wp.apply ⟨slot, due, .vreg n, m, vals, t, c, fill⟩).preds = wp.preds ∧
    (wp.apply ⟨slot, due, .vreg n, m, vals, t, c, fill⟩).fpflags = wp.fpflags := ⟨rfl, rfl, rfl⟩

theorem apply_preg_fileless (wp : Warp) (slot due n : Nat) (m : Mask) (vals : List DWord) (t : Shape) (c : Cover) (fill : Mask) :
    (wp.apply ⟨slot, due, .preg n, m, vals, t, c, fill⟩).fileless = wp.fileless ∧
    (wp.apply ⟨slot, due, .preg n, m, vals, t, c, fill⟩).regs = wp.regs ∧
    (wp.apply ⟨slot, due, .preg n, m, vals, t, c, fill⟩).fpflags = wp.fpflags := ⟨rfl, rfl, rfl⟩

theorem apply_preg_pred (wp : Warp) (slot due n k l : Nat) (m : Mask) (g : Nat → Bool) (t : Shape) (c : Cover) (fill : Mask)
    (h : n < 15) :
    ((wp.apply ⟨slot, due, .preg n, m, allLanes.map fun l => if g l then 1 else 0, t, c, fill⟩).pred k).getLsbD l =
      if k = n ∧ m.getLsbD l = true then g l else (wp.pred k).getLsbD l := by
  have hn : n ≠ 15 := by omega
  by_cases e : k = n
  · subst e
    have hs := fileAt_getD_same 15 k (0 : Mask)
      ((wp.pred k &&& ~~~m) ||| (m &&& maskWhere fun l => (allLanes.map fun l => if g l then (1 : DWord) else 0).getD l 0 != 0)) wp.preds h
    simp only [Warp.apply, Warp.pred, if_neg hn] at hs ⊢
    rw [hs]
    by_cases hl : m.getLsbD l = true
    · have h64 := lane_lt m l hl
      simp only [BitVec.getLsbD_or, BitVec.getLsbD_and, BitVec.getLsbD_not, hl, maskWhere_getLsbD, allLanes_map_getD _ _ _ h64, h64]
      cases g l <;> simp
    · simp only [Bool.not_eq_true] at hl
      simp only [BitVec.getLsbD_or, BitVec.getLsbD_and, BitVec.getLsbD_not, hl, Bool.false_and, Bool.or_false, Bool.not_false, Bool.and_true]
      by_cases h64 : l < 64
      · simp only [h64, decide_true, Bool.and_true]; simp
      · simp only [BitVec.getLsbD_of_ge _ _ (by omega : 64 ≤ l), Bool.false_and]; simp
  · have ho := fileAt_getD_other 15 n k (0 : Mask)
      ((wp.pred n &&& ~~~m) ||| (m &&& maskWhere fun l => (allLanes.map fun l => if g l then (1 : DWord) else 0).getD l 0 != 0)) wp.preds e
    simp only [Warp.apply, Warp.pred, if_neg hn] at ho ⊢
    split
    · simp [e]
    · simp only [e, false_and, if_false]
      rw [ho]

/-! ### A slot's results -/

/-- The registers and the predicate that a slot's results stand in, and what they leave alone. -/
structure Stands (w u : Warp) (m : Mask) (wide : Bool) (d : Reg) (f : Nat → DWord) (c : Reg) (g : Nat → Bool) : Prop where
  lo : ∀ n l, d = .v n → m.getLsbD l = true → (u.reg n.toNat).word l = loWord (f l)
  hi : ∀ n l, d = .v n → wide = true → m.getLsbD l = true → (u.reg (n.toNat + 1)).word l = hiWord (f l)
  others : ∀ k, Reg.covers wide d k = false → u.reg k = w.reg k
  lanes : ∀ k l, w.live.getLsbD l = true → m.getLsbD l = false → (u.reg k).word l = (w.reg k).word l
  bits : ∀ n l, Reg.predNo c = some n → m.getLsbD l = true → (u.pred n).getLsbD l = g l
  preds : ∀ n l, (Reg.predNo c ≠ some n ∨ m.getLsbD l = false) → (u.pred n).getLsbD l = (w.pred n).getLsbD l
  rest : u.fileless = w.fileless
  flags : u.fpflags = w.fpflags

theorem stands_pred (w u : Warp) (m : Mask) (wide : Bool) (d : Reg) (f : Nat → DWord) (c : Reg) (g : Nat → Bool) (x : Warp) (lat : Nat)
    (h : Stands w u m wide d f .vz fun _ => false) :
    Stands w ((x.pendPred m lat c g).foldl Warp.apply u) m wide d f c g := by
  have base : ∀ n l, (u.pred n).getLsbD l = (w.pred n).getLsbD l := fun n l => h.preds n l (Or.inl (by simp [Reg.predNo]))
  have skip : Reg.predNo c = none → Stands w u m wide d f c g := fun e =>
    ⟨h.lo, h.hi, h.others, h.lanes, fun n l hn => by simp [e] at hn, fun n l _ => base n l, h.rest, h.flags⟩
  cases c with
  | v n => exact skip rfl
  | u r => exact skip rfl
  | vz => exact skip rfl
  | p n =>
    by_cases e : n = 15
    · simpa [Warp.pendPred, e] using skip (by simp [Reg.predNo, e])
    · have hn : n.toNat < 15 := by
        have h1 := n.isLt
        have h2 : n.toNat ≠ 15 := fun h3 => e (BitVec.eq_of_toNat_eq (by simpa using h3))
        omega
      simp only [Warp.pendPred, if_neg e, List.foldl_cons, List.foldl_nil]
      have p1 := apply_preg_pred u x.slotNo (x.slotNo + lat) n.toNat
      obtain ⟨q1, q2, q3⟩ := apply_preg_fileless u x.slotNo (x.slotNo + lat) n.toNat m (allLanes.map fun l => if g l then 1 else 0)
        .general .part 0
      have qr : ∀ k, (u.apply ⟨x.slotNo, x.slotNo + lat, .preg n.toNat, m, allLanes.map fun l => if g l then 1 else 0, .general, .part, 0⟩).reg k
          = u.reg k := fun k => by simp only [Warp.reg, q2]
      refine ⟨?_, ?_, ?_, ?_, ?_, ?_, q1.trans h.rest, q3.trans h.flags⟩
      · intro k l hd hm; rw [qr]; exact h.lo k l hd hm
      · intro k l hd hw hm; rw [qr]; exact h.hi k l hd hw hm
      · intro k hk; rw [qr]; exact h.others k hk
      · intro k l hl hm; rw [qr]; exact h.lanes k l hl hm
      · intro k l hk hm
        simp only [Reg.predNo, if_neg e, Option.some.injEq] at hk
        subst hk
        rw [p1 n.toNat l m g .general .part 0 hn]
        simp [hm]
      · intro k l hk
        rw [p1 k l m g .general .part 0 hn]
        simp only [Reg.predNo, if_neg e] at hk
        split
        · rename_i hc
          rcases hk with hk | hk
          · exact absurd (congrArg some hc.1.symm) hk
          · rw [hc.2] at hk; exact absurd hk (by decide)
        · exact base k l

theorem stands_regs (w : Warp) (m : Mask) (wide : Bool) (d : Reg) (f : Nat → DWord) (x : Warp) (lat : Nat) (t : Shape)
    (hm : ∀ l, w.live.getLsbD l = true → (x.reach m).1.getLsbD l = false)
    (hd : ∀ n, d = .v n → wide = true → n.toNat + 1 < 128) :
    Stands w ((x.pendsFor m lat wide d t f).foldl Warp.apply w) m wide d f .vz fun _ => false := by
  have nop : d ≠ .vz → (∀ n, d ≠ .v n) → Stands w w m wide d f .vz fun _ => false := fun _ h2 =>
    ⟨fun n l e => absurd e (h2 n), fun n l e => absurd e (h2 n), fun _ _ => rfl, fun _ _ _ _ => rfl,
      fun n l hn => by simp [Reg.predNo] at hn, fun _ _ _ => rfl, rfl, rfl⟩
  cases d with
  | p n => exact nop (by simp) (by simp)
  | u n => exact nop (by simp) (by simp)
  | vz =>
    exact ⟨fun n l e => by simp at e, fun n l e => by simp at e, fun _ _ => rfl, fun _ _ _ _ => rfl,
      fun n l hn => by simp [Reg.predNo] at hn, fun _ _ _ => rfl, rfl, rfl⟩
  | v n =>
    have hn : n.toNat < 128 := n.isLt
    cases wide with
    | false =>
      simp only [Warp.pendsFor, Bool.false_eq_true, if_false, List.foldl_cons, List.foldl_nil]
      have r1 := fun k => apply_vreg_reg w x.slotNo (x.slotNo + lat) (n.toNat + 0) k m (allLanes.map fun l => (loWord (f l)).setWidth 64) t
        (x.reach m).2 (x.reach m).1 (by omega)
      obtain ⟨q1, q2, q3⟩ := apply_vreg_fileless w x.slotNo (x.slotNo + lat) (n.toNat + 0) m (allLanes.map fun l => (loWord (f l)).setWidth 64) t
        (x.reach m).2 (x.reach m).1
      refine ⟨?_, fun _ _ _ hw => absurd hw (by decide), ?_, ?_, fun n l hn => by simp [Reg.predNo] at hn, ?_, q1, q3⟩
      · intro k l hk hl
        cases hk
        rw [r1]
        simp only [Nat.add_zero, if_true]
        rw [write_word _ _ _ _ _ _ _ hl, allLanes_map_getD _ _ _ (lane_lt _ _ hl)]
        simp [loWord]
      · intro k hk
        simp only [Reg.covers, Bool.false_and, Bool.or_false, beq_eq_false_iff_ne] at hk
        rw [r1]; simp [hk]
      · intro k l hl hml
        rw [r1]
        split
        · rename_i e
          rw [e, write_word_other _ _ _ _ _ _ _ (lane_lt _ _ hl) hml (hm l hl)]
        · rfl
      · intro k l _; simp only [Warp.pred, q2]
    | true =>
      have hn2 := hd n rfl rfl
      simp only [Warp.pendsFor, if_true, List.foldl_cons, List.foldl_nil]
      have r1 := fun k => apply_vreg_reg w x.slotNo (x.slotNo + lat) (n.toNat + 0) k m (allLanes.map fun l => (loWord (f l)).setWidth 64) t
        (x.reach m).2 (x.reach m).1 (by omega)
      obtain ⟨q1, q2, q3⟩ := apply_vreg_fileless w x.slotNo (x.slotNo + lat) (n.toNat + 0) m (allLanes.map fun l => (loWord (f l)).setWidth 64) t
        (x.reach m).2 (x.reach m).1
      generalize (w.apply ⟨x.slotNo, x.slotNo + lat, .vreg (n.toNat + 0), m, allLanes.map fun l => (loWord (f l)).setWidth 64, t,
        (x.reach m).2, (x.reach m).1⟩) = v at r1 q1 q2 q3 ⊢
      have r2 := fun k => apply_vreg_reg v x.slotNo (x.slotNo + lat) (n.toNat + 1) k m (allLanes.map fun l => (hiWord (f l)).setWidth 64) t
        (x.reach m).2 (x.reach m).1 (by omega)
      obtain ⟨p1, p2, p3⟩ := apply_vreg_fileless v x.slotNo (x.slotNo + lat) (n.toNat + 1) m (allLanes.map fun l => (hiWord (f l)).setWidth 64) t
        (x.reach m).2 (x.reach m).1
      refine ⟨?_, ?_, ?_, ?_, fun n l hn => by simp [Reg.predNo] at hn, ?_, p1.trans q1, p3.trans q3⟩
      · intro k l hk hl
        cases hk
        rw [r2, if_neg (by omega), r1]
        simp only [Nat.add_zero, if_true]
        rw [write_word _ _ _ _ _ _ _ hl, allLanes_map_getD _ _ _ (lane_lt _ _ hl)]
        simp [loWord]
      · intro k l hk _ hl
        cases hk
        rw [r2, if_pos rfl, write_word _ _ _ _ _ _ _ hl, allLanes_map_getD _ _ _ (lane_lt _ _ hl)]
        simp [loWord, hiWord]
      · intro k hk
        simp only [Reg.covers, Bool.true_and, Bool.or_eq_false_iff, beq_eq_false_iff_ne] at hk
        rw [r2, if_neg hk.2, r1, if_neg (by omega)]
      · intro k l hl hml
        rw [r2]
        split
        · rename_i e
          rw [write_word_other _ _ _ _ _ _ _ (lane_lt _ _ hl) hml (hm l hl), r1, if_neg (by omega), e]
        · rw [r1]
          split
          · rename_i e
            rw [e, write_word_other _ _ _ _ _ _ _ (lane_lt _ _ hl) hml (hm l hl)]
          · rfl
      · intro k l _; simp only [Warp.pred, p2, q2]

/-! ### A slot whose results join its clause -/

theorem pend_foldl_clause (ps : List Pend) (wp : Warp) : (ps.foldl Warp.apply wp).clause = wp.clause := by
  induction ps generalizing wp with
  | nil => rfl
  | cons p ps ih =>
    rw [List.foldl_cons, ih]
    cases p with
    | mk slot due tgt lanes vals shape cover fill => cases tgt <;> rfl

theorem apply_live (wp : Warp) (p : Pend) : (wp.apply p).live = wp.live := by
  cases p with
  | mk slot due tgt lanes vals shape cover fill => cases tgt <;> rfl

theorem foldl_apply_live (ps : List Pend) (wp : Warp) : (ps.foldl Warp.apply wp).live = wp.live := by
  induction ps generalizing wp with
  | nil => rfl
  | cons p ps ih => rw [List.foldl_cons, ih, apply_live]

theorem pendsFor_isFlags (x : Warp) (m : Mask) (lat : Nat) (wide : Bool) (d : Reg) (t : Shape) (f : Nat → DWord) :
    ∀ p ∈ x.pendsFor m lat wide d t f, p.isFlags = false := by
  intro p hp
  cases d with
  | v n =>
    cases wide <;> simp only [Warp.pendsFor] at hp <;> simp at hp
    · subst hp; rfl
    · rcases hp with hp | hp <;> subst hp <;> rfl
  | _ => simp [Warp.pendsFor] at hp

theorem pendPred_isFlags (x : Warp) (m : Mask) (lat : Nat) (c : Reg) (g : Nat → Bool) : ∀ p ∈ x.pendPred m lat c g, p.isFlags = false := by
  intro p hp
  cases c with
  | p n =>
    by_cases e : n = 15
    · simp [Warp.pendPred, e] at hp
    · simp only [Warp.pendPred, if_neg e, List.mem_singleton] at hp
      subst hp; rfl
  | _ => simp [Warp.pendPred] at hp

theorem pair_val (u : Warp) (n : BitVec 7) (l : Nat) (x : DWord) (h1 : (u.reg n.toNat).word l = loWord x)
    (h2 : (u.reg (n.toNat + 1)).word l = hiWord x) : u.idle.val true (.v n) l = x := by
  have e : u.idle.val true (.v n) l = pairWord ((u.reg n.toNat).word l) ((u.reg (n.toNat + 1)).word l) := rfl
  rw [e, h1, h2]
  apply BitVec.eq_of_getLsbD_eq
  intro i hi
  simp only [BitVec.getLsbD_append, BitVec.getLsbD_setWidth, BitVec.getLsbD_extractLsb']
  by_cases h : i < 32
  · simp [h]
  · simp only [h, decide_false, Bool.false_and]
    have : i - 32 < 32 := by omega
    have e : 32 + (i - 32) = i := by omega
    simp [this, e]

theorem pendsFor_due (x : Warp) (m : Mask) (lat : Nat) (wide : Bool) (d : Reg) (t : Shape) (f : Nat → DWord) :
    ∀ q, q ∈ x.pendsFor m lat wide d t f → q.slot = x.slotNo ∧ q.due = x.slotNo + lat := by
  intro q hq
  cases d with
  | v n =>
    cases wide <;> simp only [Warp.pendsFor] at hq <;> simp at hq
    · subst hq; exact ⟨rfl, rfl⟩
    · rcases hq with hq | hq <;> subst hq <;> exact ⟨rfl, rfl⟩
  | _ => simp [Warp.pendsFor] at hq

theorem pendPred_due (x : Warp) (m : Mask) (lat : Nat) (c : Reg) (g : Nat → Bool) :
    ∀ q, q ∈ x.pendPred m lat c g → q.slot = x.slotNo ∧ q.due = x.slotNo + lat := by
  intro q hq
  cases c with
  | p n =>
    by_cases e : n = 15
    · simp [Warp.pendPred, e] at hq
    · simp only [Warp.pendPred, if_neg e, List.mem_singleton] at hq
      subst hq; exact ⟨rfl, rfl⟩
  | _ => simp [Warp.pendPred] at hq

/-- The flags of a flag change over lanes whose values are their flags. -/
theorem orFlags_vals (m : Mask) (h : Nat → BitVec 5) :
    orFlags m (fun l => ((allLanes.map fun l => (h l).setWidth 64).getD l (0 : DWord)).setWidth 5) = orFlags m h := by
  have key : ∀ (ls : List Nat) (k : BitVec 5), (∀ l ∈ ls, l < 64) →
      ls.foldl (fun k l => k ||| ((allLanes.map fun l => (h l).setWidth 64).getD l (0 : DWord)).setWidth 5) k
        = ls.foldl (fun k l => k ||| h l) k := by
    intro ls
    induction ls with
    | nil => exact fun _ _ => rfl
    | cons l ls ih =>
      intro k hk
      simp only [List.foldl_cons]
      rw [allLanes_map_getD _ _ _ (hk l (List.mem_cons_self ..)), ih _ fun j hj => hk j (List.mem_cons_of_mem _ hj)]
      simp
  exact key _ _ fun l hl => lane_lt m l ((mem_lanesOf m l).1 hl)

theorem orFlags_none (m : Mask) : orFlags m (fun _ => 0#5) = 0#5 := by
  rw [orFlags]
  generalize lanesOf m = ls
  induction ls with
  | nil => rfl
  | cons l ls ih => simp

theorem pendFlags_due (x : Warp) (lat : Nat) (m : Mask) (h : Nat → BitVec 5) : ∀ q, q ∈ x.pendFlags lat m h → q.slot = x.slotNo ∧ q.due = x.slotNo + lat := by
  intro q hq
  simp only [Warp.pendFlags] at hq
  split at hq
  · simp at hq
  · simp only [List.mem_singleton] at hq; subst hq; exact ⟨rfl, rfl⟩

/-- The one lemma on fixed-latency results: a slot that adds a register result, a predicate result and a flag change to its clause. -/
theorem gives_push (s : State) (m : Mask) (lat : Nat) (wide : Bool) (d c : Reg) (t : Shape) (f : Nat → DWord) (g : Nat → Bool)
    (e : Nat → BitVec 5) (hc : s.curWarp.clause.isSome = true)
    (hd : d = .vz ∨ ∃ n, d = .v n ∧ (wide = true → n.toNat + 1 < 128)) :
    Gives s (s.setWarp s.cur (s.curWarp.pushAll (s.curWarp.pendsFor m lat wide d t f ++ s.curWarp.pendPred m lat c g
      ++ s.curWarp.pendFlags lat m e))) m lat wide d f c g (orFlags m e) := by
  obtain ⟨k, hk⟩ := Option.isSome_iff_exists.1 hc
  generalize hvs : s.curWarp.pendsFor m lat wide d t f = vs
  generalize hps : s.curWarp.pendPred m lat c g = ps
  generalize hfs : s.curWarp.pendFlags lat m e = fs
  have hnv : vs.filter (fun p => !p.isFlags) = vs := List.filter_eq_self.2 fun p hp => by
    simp [pendsFor_isFlags s.curWarp m lat wide d t f p (hvs ▸ hp)]
  have hnp : ps.filter (fun p => !p.isFlags) = ps := List.filter_eq_self.2 fun p hp => by
    simp [pendPred_isFlags s.curWarp m lat c g p (hps ▸ hp)]
  have hv0 : vs.filter Pend.isFlags = [] := List.filter_eq_nil_iff.2 fun p hp => by
    simp [pendsFor_isFlags s.curWarp m lat wide d t f p (hvs ▸ hp)]
  have hp0 : ps.filter Pend.isFlags = [] := List.filter_eq_nil_iff.2 fun p hp => by
    simp [pendPred_isFlags s.curWarp m lat c g p (hps ▸ hp)]
  have hf : fs = [] ∧ orFlags m e = 0 ∨ ∃ q : Pend, fs = [q] ∧ q.tgt = .flagsOr ∧ q.flags = orFlags m e ∧ q.isFlags = true := by
    rw [← hfs, Warp.pendFlags]
    split
    · rename_i h; exact Or.inl ⟨rfl, h⟩
    · exact Or.inr ⟨_, rfl, rfl, orFlags_vals m e, rfl⟩
  generalize orFlags m e = fl at hf ⊢
  have hnf : fs.filter (fun p => !p.isFlags) = [] := by
    rcases hf with ⟨h, _⟩ | ⟨q, h, _, _, h4⟩ <;> simp [h]
    exact h4
  have hff : fs.filter Pend.isFlags = fs := by
    rcases hf with ⟨h, _⟩ | ⟨q, h, _, _, h4⟩ <;> simp [h]
    exact h4
  have hcur : (s.setWarp s.cur (s.curWarp.pushAll (vs ++ ps ++ fs))).curWarp = s.curWarp.pushAll (vs ++ ps ++ fs) := curWarp_setWarp _ _
  have hpush := pushAll_some (vs ++ ps ++ fs) s.curWarp k hk
  -- the settled states
  let W := (s.pends.filter fun p => !p.isFlags).foldl Warp.apply s.curWarp
  let U := ps.foldl Warp.apply (vs.foldl Warp.apply W)
  have hpend : s.pends = k.at_.pend := by simp [State.pends, Warp.clauseAt, hk]
  have hs : s.settled = { W with fpflags := (flagOrder s.pends).foldl (fun x p => p.onFlags x) W.fpflags } := applyEnd_split _ _
  have hWlive : W.live = s.curWarp.live := foldl_apply_live _ _
  have stand : Stands W U m wide d f c g := by
    have h0 := stands_regs W m wide d f s.curWarp lat t (fun l hl => reach_fill s.curWarp m l (hWlive ▸ hl))
      (fun n hn hw => by
        rcases hd with h | ⟨j, h, h2⟩
        · rw [h] at hn; exact absurd hn (by simp)
        · rw [h] at hn; cases hn; exact h2 hw)
    have h1 := stands_pred W _ m wide d f c g s.curWarp lat h0
    simpa only [hvs, hps] using h1
  have hpt : (s.setWarp s.cur (s.curWarp.pushAll (vs ++ ps ++ fs))).pends = k.at_.pend ++ (vs ++ ps ++ fs) := by
    rw [State.pends, hcur, hpush]; rfl
  have ht : ∃ x, (s.setWarp s.cur (s.curWarp.pushAll (vs ++ ps ++ fs))).settled = { U with
      clause := x
      fpflags := (flagOrder (s.pends ++ (vs ++ ps ++ fs))).foldl (fun x p => p.onFlags x) U.fpflags } := by
    refine ⟨some { k with at_ := { k.at_ with pend := k.at_.pend ++ (vs ++ ps ++ fs) } }, ?_⟩
    rw [State.settled, hpt, applyEnd_split, hcur, hpush, foldl_apply_clause]
    have : (k.at_.pend ++ (vs ++ ps ++ fs)).filter (fun p => !p.isFlags) = (s.pends.filter fun p => !p.isFlags) ++ (vs ++ ps) := by
      simp only [List.filter_append, hnv, hnp, hnf, List.append_nil, hpend]
    rw [this, List.foldl_append, List.foldl_append, ← hpend]
  obtain ⟨x, ht⟩ := ht
  have flagsEq : flagOrder (s.pends ++ (vs ++ ps ++ fs)) = fs.foldl (fun l p => insertDue p l) (flagOrder s.pends) := by
    simp only [flagOrder, List.filter_append, hv0, hp0, hff, List.nil_append, List.foldl_append]
  refine ⟨?_, ?_, ?_, ?_, ?_, ?_, ?_, ?_, ?_, ?_⟩
  · simp only [State.apart, State.setWarp, tab_del_put]
  · rw [hcur, hpush]; simp [Warp.bare, hk]
  · intro q hq
    rw [hpt, ← hpend, List.mem_append, List.mem_append, List.mem_append] at hq
    rcases hq with hq | (hq | hq) | hq
    · exact Or.inl hq
    · exact Or.inr (pendsFor_due _ _ _ _ _ _ _ q (hvs ▸ hq))
    · exact Or.inr (pendPred_due _ _ _ _ _ q (hps ▸ hq))
    · exact Or.inr (pendFlags_due _ _ _ _ q (hfs ▸ hq))
  · intro l hl hz
    rcases hd with h | ⟨n, h, hw⟩
    · exact absurd h hz
    · subst h
      cases wide with
      | true =>
        rw [if_pos rfl, ht]
        exact pair_val U n l (f l) (stand.lo n l rfl hl) (stand.hi n l rfl rfl hl)
      | false =>
        rw [if_neg (by decide), ht]
        exact congrArg (BitVec.setWidth 64) (stand.lo n l rfl hl)
  · intro k hk; rw [hs, ht]; exact stand.others k hk
  · intro k l hl hml; rw [hs, ht]; exact stand.lanes k l (hWlive ▸ hl) hml
  · intro n l hn hl; rw [ht]; exact stand.bits n l hn hl
  · intro n l hn; rw [hs, ht]; exact stand.preds n l hn
  · intro hset
    have hset' : ∀ p ∈ s.pends, p.tgt ≠ .flagsSet := by simpa using hset
    rw [hs, ht, flagsEq]
    change List.foldl _ U.fpflags _ = List.foldl _ W.fpflags _ ||| fl
    rw [stand.flags]
    rcases hf with ⟨h, h0⟩ | ⟨q, h, h1, h2, _⟩
    · rw [h, h0]; simp
    · rw [h, ← h2]
      exact insertDue_or q _ _ h1 (flagOrder_or _ hset')
  · rw [hs, ht]
    exact stand.rest

/-! ### No lane executes -/

theorem gives_none (s : State) (lat : Nat) (wide : Bool) (d c : Reg) (f : Nat → DWord) (g : Nat → Bool) : Gives s s 0 lat wide d f c g 0 := by
  refine ⟨rfl, rfl, fun _ h => Or.inl h, ?_, fun _ _ => rfl, fun _ _ _ _ => rfl, ?_, fun _ _ _ => rfl, fun _ => by simp, rfl⟩
  · intro l hl; simp at hl
  · intro n l _ hl; simp at hl

theorem execMask_live (wp : Warp) (p : Pre) (l : Nat) (h : (wp.execMask p).getLsbD l = true) : wp.live.getLsbD l = true := by
  simp only [Warp.execMask, BitVec.getLsbD_and, Bool.and_eq_true] at h
  exact h.1.2

theorem execMask_clause (wp : Warp) (p : Pre) (h : wp.execMask p ≠ 0) : wp.clause.isSome = true := by
  cases hc : wp.clause with
  | some c => rfl
  | none => exact absurd (by simp [Warp.execMask, Warp.clauseAt, hc]) h

theorem orFlags_zero (f : Nat → BitVec 5) : orFlags 0 f = 0 := by
  have : lanesOf 0 = [] := by simp [lanesOf]
  rw [orFlags, this]; rfl

/-! ### The shared shapes of meaning -/

theorem alu_gives (s : State) (p : Pre) (lat : Nat) (wide : Bool) (d : Reg) (t : Warp → Shape) (f : Warp → Nat → DWord)
    (hd : d = .vz ∨ ∃ n, d = .v n ∧ (wide = true → n.toNat + 1 < 128)) :
    Gives s (s.alu p lat wide d t f) (s.curWarp.execMask p) lat wide d (f s.curWarp) .vz (fun _ => false) 0 := by
  by_cases h : s.curWarp.execMask p = 0
  · simp only [State.alu, h, if_true]; exact gives_none s lat wide d .vz _ _
  · have := gives_push s (s.curWarp.execMask p) lat wide d .vz (t s.curWarp) (f s.curWarp) (fun _ => false) (fun _ => 0)
      (execMask_clause _ _ h) hd
    simp only [State.alu, if_neg h]
    simpa [Warp.pendPred, Warp.pendFlags, orFlags_none] using this

theorem aluPred_gives (s : State) (p : Pre) (lat : Nat) (c : Reg) (g : Warp → Nat → Bool) :
    Gives s (s.aluPred p lat c g) (s.curWarp.execMask p) lat false .vz (fun _ => 0) c (g s.curWarp) 0 := by
  by_cases h : s.curWarp.execMask p = 0
  · simp only [State.aluPred, h, if_true]; exact gives_none s lat false .vz c _ _
  · have := gives_push s (s.curWarp.execMask p) lat false .vz c .general (fun _ => 0) (g s.curWarp) (fun _ => 0)
      (execMask_clause _ _ h) (Or.inl rfl)
    simp only [State.aluPred, if_neg h]
    simpa [Warp.pendsFor, Warp.pendFlags, orFlags_none] using this

theorem aluFlags_gives (s : State) (p : Pre) (lat : Nat) (wide : Bool) (d : Reg) (t : Warp → Shape) (f : Warp → Nat → DWord × BitVec 5)
    (hd : d = .vz ∨ ∃ n, d = .v n ∧ (wide = true → n.toNat + 1 < 128)) :
    Gives s (s.aluFlags p lat wide d t f) (s.curWarp.execMask p) lat wide d (fun l => (f s.curWarp l).1) .vz (fun _ => false)
      (orFlags (s.curWarp.execMask p) fun l => (f s.curWarp l).2) := by
  by_cases h : s.curWarp.execMask p = 0
  · simp only [State.aluFlags, h, if_true, orFlags_zero]; exact gives_none s lat wide d .vz _ _
  · have := gives_push s (s.curWarp.execMask p) lat wide d .vz (t s.curWarp) (fun l => (f s.curWarp l).1) (fun _ => false)
      (fun l => (f s.curWarp l).2) (execMask_clause _ _ h) hd
    simp only [State.aluFlags, if_neg h]
    simpa [Warp.pendPred] using this

theorem aluCarry_gives (s : State) (p : Pre) (lat : Nat) (d c : Reg) (t : Warp → Shape) (f : Warp → Nat → DWord × Bool)
    (hd : d = .vz ∨ ∃ n, d = .v n) :
    Gives s (s.aluCarry p lat d c t f) (s.curWarp.execMask p) lat false d (fun l => (f s.curWarp l).1) c (fun l => (f s.curWarp l).2) 0 := by
  by_cases h : s.curWarp.execMask p = 0
  · simp only [State.aluCarry, h, if_true]; exact gives_none s lat false d c _ _
  · have := gives_push s (s.curWarp.execMask p) lat false d c (t s.curWarp) (fun l => (f s.curWarp l).1) (fun l => (f s.curWarp l).2)
      (fun _ => 0) (execMask_clause _ _ h) (hd.imp id fun ⟨n, h⟩ => ⟨n, h, fun e => absurd e (by decide)⟩)
    simp only [State.aluCarry, if_neg h]
    simpa [Warp.pendFlags, orFlags_none] using this

/-- A sized destination is `vz`, or a register whose pair lies in the file. -/
theorem isSized_ok (wide : Bool) (d : Reg) (h : d.isSized wide = true) : d = .vz ∨ ∃ n, d = .v n ∧ (wide = true → n.toNat + 1 < 128) := by
  cases d with
  | vz => exact Or.inl rfl
  | v n =>
    refine Or.inr ⟨n, rfl, fun hw => ?_⟩
    subst hw
    simp only [Reg.isSized, if_true, Reg.isPair] at h
    have := n.isLt
    revert h
    simp
    omega
  | p n => cases wide <;> simp [Reg.isSized, Reg.isPair, Reg.isVec] at h
  | u n => cases wide <;> simp [Reg.isSized, Reg.isPair, Reg.isVec] at h

end Sys2Proof.Machine
end

