-- ==== Sys2Proof/Laws/Control.lean ====
section
/-! SUPPORT. What taking a cause and going to a target do. -/

namespace Sys2Proof.Machine

/-! ### Segments and masks -/

theorem apart_setWarp (s : State) (x : Warp) : (s.setWarp s.cur x).apart s.cur = s.apart s.cur := by
  simp only [State.apart, State.setWarp, tab_del_put]

theorem segAt_onSeg (wp : Warp) (lb : Nat) (f : Seg → Seg) (g : Seg) (h : wp.segAt lb = some g) (hf : ∀ x, (f x).lbase = x.lbase) :
    (wp.onSeg lb f).segAt lb = some (f g) := by
  have key : ∀ l : List Seg, l.find? (fun g => g.lbase == lb) = some g →
      (l.map fun g => if g.lbase = lb then f g else g).find? (fun g => g.lbase == lb) = some (f g) := by
    intro l
    induction l with
    | nil => simp
    | cons a l ih =>
      intro hl
      by_cases ha : a.lbase = lb
      · have e : a = g := by simpa [List.find?_cons, ha] using hl
        subst e
        simp [ha, hf]
      · have hl' : l.find? (fun g => g.lbase == lb) = some g := by simpa [List.find?_cons, ha] using hl
        simp [ha, ih hl']
  exact key wp.segs h

/-! ### Taking a cause -/

theorem atGrade_self (r : Raise) (g : Seg) (h : g.handler &&& r.mask = 0 ∨ r.code = 0x36 ∨ r.code = 0x19) :
    r.atGrade g = r := by
  unfold Raise.atGrade
  rw [if_neg]
  rcases h with h | h | h <;> simp [h]

theorem placed_fields (r : Raise) (a : DWord) : (r.placed a).code = r.code ∧ (r.placed a).mask = r.mask ∧ (r.placed a).detail = r.detail ∧
    (r.placed a).addrs = r.addrs := by
  unfold Raise.placed
  split <;> exact ⟨rfl, rfl, rfl, rfl⟩

theorem take_calm (g : Seg) (x : SegCause) (h : g.cause = none) (hr : g.record = none ∨ x.code = 0x36 ∨ x.code = 0x19) :
    g.take x = { g with cause := some x } := by
  unfold Seg.take
  rw [if_neg]
  rcases hr with hr | hr | hr <;> simp [h, hr]

theorem take_lbase (g : Seg) (x : SegCause) : (g.take x).lbase = g.lbase := by unfold Seg.take; split <;> rfl

/-- The record that a segment takes at a slot. -/
def slotCause (c : ClauseAt) (g : Seg) (r : Raise) (now : Nat) : SegCause := (r.placed c.hdr).record c g now

/-- What a calm segment's cause makes of the warp slot. -/
def Warp.stoppedAt (wp : Warp) (c : Clause) (g : Seg) (x : SegCause) : Warp :=
  { wp.onSeg g.lbase (fun h => h.take x) with clause := some (c.drop g.slots) }

theorem takeHere_eq (wp : Warp) (c : Clause) (g : Seg) (r : Raise) (now : Nat) (hc : wp.clause = some c) (hg : wp.segAt g.lbase = some g)
    (h : g.handler &&& r.mask = 0 ∨ r.code = 0x36 ∨ r.code = 0x19) :
    wp.takeHere g.lbase r now = wp.stoppedAt c g (slotCause c.at_ g r now) := by
  have hp := placed_fields r c.at_.hdr
  unfold Warp.takeHere
  rw [hc, hg]
  simp only [atGrade_self (r.placed c.at_.hdr) g (by rw [hp.1, hp.2.1]; exact h)]
  rfl

theorem stoppedAt_seg (wp : Warp) (c : Clause) (g : Seg) (x : SegCause) (hg : wp.segAt g.lbase = some g) (hn : g.cause = none)
    (hr : g.record = none ∨ x.code = 0x36 ∨ x.code = 0x19) :
    (wp.stoppedAt c g x).segAt g.lbase = some { g with cause := some x } := by
  have := segAt_onSeg wp g.lbase (fun h => h.take x) g hg (fun y => take_lbase y x)
  rw [take_calm g x hn hr] at this
  exact this

/-- The failed accesses of a cause leave nothing behind: neither ROOT_BAD nor one of the permission causes. -/
def Raise.leavesNothing (r : Raise) : Prop := r.code ≠ 0x7D ∧ (r.code < 0x74 ∨ 0x77 < r.code)

theorem met_eq (s : State) (q : Asker) (e : XErr) (va : DWord) (h : e.code ≠ 0x7D) (h2 : e.code < 0x74 ∨ 0x77 < e.code) :
    s.met q e va = s := by
  unfold State.met
  rw [if_neg h, if_pos h2]

theorem metAll_eq (s : State) (w lb : Nat) (r : Raise) (h : Raise.leavesNothing r) : s.metAll w lb r = s := by
  unfold State.metAll
  generalize lanesOf r.mask = l
  induction l with
  | nil => rfl
  | cons j l ih =>
    rw [List.foldl_cons, met_eq _ _ _ _ h.1 h.2]
    exact ih

/-- A calm segment takes a cause that nobody posts: nothing but its warp slot changes. -/
theorem takeAt_eq (s : State) (c : Clause) (g : Seg) (r : Raise) (hc : s.curWarp.clause = some c) (hg : s.curWarp.segAt g.lbase = some g)
    (hn : g.cause = none) (hc2 : g.record = none ∨ r.code = 0x36 ∨ r.code = 0x19) (hd : causeDest r.code ≠ .host) (hr : Raise.leavesNothing r)
    (h : g.handler &&& r.mask = 0 ∨ r.code = 0x36 ∨ r.code = 0x19) :
    s.takeAt s.cur g.lbase r = s.setWarp s.cur (s.curWarp.stoppedAt c g (slotCause c.at_ g r s.now)) := by
  unfold State.takeAt
  rw [metAll_eq s _ _ r hr]
  have h1 : (s.onWarp s.cur fun wp => wp.takeHere g.lbase r s.now)
      = s.setWarp s.cur (s.curWarp.stoppedAt c g (slotCause c.at_ g r s.now)) := by
    unfold State.onWarp
    rw [show s.warp s.cur = s.curWarp from rfl]; show s.setWarp s.cur (s.curWarp.takeHere g.lbase r s.now) = _; rw [takeHere_eq s.curWarp c g r s.now hc hg h]
  rw [h1]
  have h3 : (slotCause c.at_ g r s.now).code = r.code := (placed_fields r c.at_.hdr).1
  have h2 := stoppedAt_seg s.curWarp c g (slotCause c.at_ g r s.now) hg hn (by rw [h3]; exact hc2)
  unfold State.announce
  rw [warp_setWarp_same]
  simp only [h2, h3]
  rw [if_neg]
  intro h; exact hd h.1

/-- A segment takes a cause that nobody posts: its record is that of the slot. -/
theorem takeAt_traps (s : State) (g : Seg) (m : Mask) (r : Raise) (P : SegCause → Prop) (ha : Alone s g m) (hm : r.mask = g.rel m)
    (hc2 : g.record = none ∨ r.code = 0x36 ∨ r.code = 0x19) (hd : causeDest r.code ≠ .host) (hr : Raise.leavesNothing r)
    (hg : g.handler &&& g.rel m = 0 ∨ r.code = 0x36 ∨ r.code = 0x19)
    (hP : ∀ x : SegCause, x.detail = r.detail → x.addrs = r.addrs → x.cls = causeClass r.code → x.lanes = g.rel s.curWarp.clauseAt.lanes → P x) :
    Traps s (s.takeAt s.cur g.lbase r) g m r.code P := by
  obtain ⟨c, hc⟩ := Option.isSome_iff_exists.mp ha.inClause
  have hca : s.curWarp.clauseAt = c.at_ := by simp [Warp.clauseAt, hc]
  have hp := placed_fields r c.at_.hdr
  have h3 : (slotCause c.at_ g r s.now).code = r.code := hp.1
  rw [takeAt_eq s c g r hc ha.here ha.calm hc2 hd hr (by rw [hm]; exact hg)]
  have hw : (s.setWarp s.cur (s.curWarp.stoppedAt c g (slotCause c.at_ g r s.now))).curWarp
      = s.curWarp.stoppedAt c g (slotCause c.at_ g r s.now) := warp_setWarp_same _ _ _
  refine ⟨apart_setWarp s _, ?_, ?_, ?_⟩
  · rw [hw]
    refine ⟨_, slotCause c.at_ g r s.now, stoppedAt_seg s.curWarp c g _ ha.here ha.calm (by rw [h3]; exact hc2), rfl, hp.1, hp.2.1.trans hm, ?_, ?_, rfl, rfl, rfl, ?_⟩
    · rw [hca]; rfl
    · show c.at_.slot = _
      unfold Warp.slotNo; rw [hca]
    · refine hP _ hp.2.2.1 hp.2.2.2 ?_ ?_
      · show causeClass (r.placed _).code = _
        rw [hp.1]
      · rw [hca]; rfl
  · rw [hw, hca]; rfl
  · rw [hw]; exact ⟨rfl, rfl, rfl, rfl, rfl⟩

/-! ### Transfers -/

theorem raiseOf_none (wp : Warp) (m : Mask) (g : Seg) (err : Nat → Option XErr) (addr : Nat → DWord)
    (h : ∀ l, m.getLsbD l = true → err l = none) : wp.raiseOf m g err addr = none := by
  have : (lanesOf (g.slots &&& m)).filterMap err = [] := by
    rw [List.filterMap_eq_nil_iff]
    intro l hl
    rw [mem_lanesOf] at hl
    apply h
    rw [BitVec.getLsbD_and] at hl
    simp only [Bool.and_eq_true] at hl
    exact hl.2
  simp only [Warp.raiseOf, this]

theorem raises_none (wp : Warp) (m : Mask) (f : Seg → Option Raise) (h : ∀ g, f g = none) : wp.raises m f = [] := by
  simp [Warp.raises, h]

theorem targetRaises_good (s : State) (m : Mask) (target : Nat → DWord) (h : s.targetsGood m target) : s.targetRaises m target = [] := by
  unfold State.targetRaises
  exact raises_none _ _ _ fun g => raiseOf_none _ _ _ _ _ h

theorem stoppedBy_nil (wp : Warp) (m : Mask) : m &&& ~~~wp.stoppedBy [] = m := by
  show m &&& ~~~(0#64) = m
  rw [BitVec.not_zero, BitVec.and_allOnes]

/-- A transfer whose targets are good moves its lanes and nothing else. -/
theorem transfer_sends (s : State) (m : Mask) (target : Nat → DWord) (h : s.targetsGood m target) : Sends s (s.transfer m target) m target := by
  have e : s.transfer m target = s.setWarp s.cur (s.curWarp.goTo m target) := by
    unfold State.transfer
    rw [targetRaises_good s m target h]
    simp only [State.takeAll, List.foldl_nil, stoppedBy_nil]; rfl
  rw [e]
  have hw : (s.setWarp s.cur (s.curWarp.goTo m target)).curWarp = s.curWarp.goTo m target := warp_setWarp_same _ _ _
  refine ⟨apart_setWarp s _, ?_, ?_⟩
  · rw [hw]
    intro l hl
    show ((s.curWarp.setPcs m fun l => target l &&& ~~~7)).pcs.getD l 0 = _
    exact allLanes_map_getD (fun l => if m.getLsbD l then target l &&& ~~~7 else s.curWarp.pc l) 0 l hl
  · rw [hw]; rfl

end Sys2Proof.Machine
end

