-- ==== Sys2Proof/Tests/Slice0.lean ====
section
/-! SUPPORT. Small checks of the model: words written out from the manual, ill-formed terms, witnesses of the hypotheses of the
statements, and single steps. -/

namespace Sys2Proof.Tests
open Sys2Proof Sys2Proof.Machine

set_option Elab.async false

/-! ### Helpers -/

/-- No guard, no marker. -/
def px : Pre := ⟨false, .none, false, 15⟩

/-- A segment of `n` lanes of group 1. -/
def seg (n : Nat) : Seg :=
  { lbase := 0, width := n, gid := 1, idx := 0, vslot := 0, lmask := lowMask n, lpark := 0, vpc := List.replicate n 0x2000
    evt := ⟨0, 0, 0⟩, etaken := 0, udepth := 0, olmask := 0, ovpc := List.replicate n 0, oevt := ⟨0, 0, 0⟩, oetaken := 0
    usher := 0, urun := 0, ubase := 0x3000, tbase := 0x4000, bancnt := 8, dropcnt := 0, firmware := false, handler := 0
    record := none, cause := none, queue := [], notices := [], notBefore := 0, progress := false, bc := 0
    takeover := none, tripped := false }

/-- The first words of the registers that the checks use: v0 to v7 of every lane. -/
def file (vs : List Word) : List VReg :=
  vs.map (fun v => ⟨.uniform, List.replicate 64 v⟩) ++ List.replicate (128 - vs.length) VReg.reset

/-- A warp at slot 0 of a clause at 0x1000 of class `cls` and the one word `w`. -/
def at0 (g : Seg) (cls : BitVec 3) (w : DWord) (vs : List Word) : Warp :=
  { ({ Warp.reset with segs := [g], pcs := List.replicate 64 0x1000, live := lowMask g.width, regs := file vs } : Warp).beginClause
      ⟨0x1000, cls, 0, [w], lowMask g.width, 0, [], []⟩ with segs := [g] }

/-- A queue of four entries with an allowance of two. -/
def qu (n : Nat) : Queue := ⟨4, 2, n, 0, n, List.replicate 16 0, List.replicate 64 7, List.replicate 64 0⟩

/-- Group 1, placed on core 0 with one unit of scratchpad and the core's two tiles. -/
def grp : Group :=
  { launch := 1, unit := 1, grp := 0, gmem := 0, core := 0, gen := 3, spadBase := 0, tiles := [0, 1], queues := [qu 0, qu 1, qu 4], gals := []
    vcore := 0, pkg := 0, vslots := 1, segSlots := [0], placed := true, area := 0, released := false, passed := [], drops := 0
    gcores := 1, gquads := 1, notices := [] }

def kern : Kern := ⟨0x1000, 0x3000, 0x4000, []⟩

/-- Its launch, with a stack at 0x10000. -/
def lau : Launch :=
  { ctx := 5, fn := 0, die := 0, entry := 0x1000, args := 0, gaff := 0, groups := 1, width := 4, segs := 1, gm := 1, gn := 1, reach := .core
    gang := false, spu := 1, acc := 2, prio := 1, stack := some 0x10000, kern := kern, text := 0x1000, job := none, taskq := none, dcdone := noCtr
    ended := 0 }

/-- The module with that warp in slot 0 of core 0. -/
def mod (wp : Warp) : State :=
  { State.reset with warps := [(0, wp)], groups := [(1, grp)], launches := [(1, lau)], nextNo := 10,
                     units := [(1, ⟨1, 0, [1], .placed, 0, 0, false, 0, 0⟩)],
                     ctxs := [(5, ⟨0, 0x8000, 0, 0, 0, 0, false, false, 0, []⟩)] }

theorem getLsbD_lt {n : Nat} {m : BitVec n} {l : Nat} (h : m.getLsbD l = true) : l < n := BitVec.lt_of_getLsbD h

/-- What holds of each of 64 lanes holds of the lanes of a mask. -/
theorem lanes_of {m : Mask} {P : Nat → Prop} (h : ∀ l, l < 64 → m.getLsbD l = true → P l) : ∀ l, m.getLsbD l = true → P l :=
  fun l hl => h l (getLsbD_lt hl) hl

/-- `Alone`, from its decidable form. -/
theorem alone_of {s : State} {g : Seg} {m : Mask}
    (h : s.curWarp.segAt g.lbase = some g ∧ (∀ l, l < 64 → g.slots.getLsbD l = true → s.curWarp.segOf l = some g) ∧ s.curWarp.segsIn m = [g] ∧
      m &&& ~~~g.slots = 0 ∧ s.curWarp.clause.isSome = true ∧ g.cause = none ∧ g.lbase + g.width ≤ 64) : Alone s g m :=
  ⟨h.1, lanes_of h.2.1, h.2.2.1, h.2.2.2.1, h.2.2.2.2.1, h.2.2.2.2.2.1, h.2.2.2.2.2.2⟩

/-- Four lanes of one segment at a slot. -/
def four (vs : List Word) : State := mod (at0 (seg 4) 0 0 vs)


/-! ### Words written out from the encoding

Each word is put together from the fields of R78 and R80, the cell of R88 and the sub-operations of R89 to R93; the instruction
beside it is what the manual's tables say of those fields. -/

/-- The word decodes to the instruction, alone in a clause of its class, and the instruction encodes to the word. -/
def reads (w : DWord) (i : Instr) : Bool := decodeTableWord 64 w.toNat == some i && encode i == some w

theorem test_decode_control : ([
    reads 0x0F01_00FF_FFFF_FF00 (.nop px),
    reads 0x0F02_0000_0000_0122 (.bra px 0x0000000122),
    reads 0x0F03_0000_0000_0123 (.brau px 0x0000000123),
    reads 0x0F04_0000_0000_0124 (.jmp px 0x0000000124),
    reads 0x0F05_0000_0000_0125 (.call px 0x0000000125),
    reads 0x0F06_00FF_0AFF_FF00 (.ret px (.v 10)),
    reads 0x0F07_00FF_FFFF_FF00 (.exit px),
    reads 0x0F08_00FF_FFFF_FF00 (.yieldP px),
    reads 0x0F09_910C_0A05_0018 (.wait px true true (.v 12) (.v 10) (.v 5) 24),
    reads 0x0F0A_00FF_FFFF_FF00 (.udone px),
    reads 0x0F0B_00FF_FFFF_FF00 (.park px),
    reads 0x0F0C_00FF_0EFF_FF00 (.wake px (.v 14)),
    reads 0x0F0D_00FF_FF01_0203 (.trap px 0x010203),
    reads 0x0F0E_00FF_FF00_0102 (.svc px 0x000102),
    reads 0x0F0F_00FF_FF00_0009 (.bkpt px 9)].all id) = true := by decide +kernel

theorem test_decode_moves_and_system : ([
    reads 0x0F10_8005_07FF_FF00 (.mov px false (.v 5) (.v 7) 0),
    reads 0x0F11_8005_FF00_0004 (.movsRead px false (.v 5) 4),
    reads 0x0F11_81FF_0600_000B (.movsWrite px false 11 (.v 6)),
    reads 0x0F12_8103_FF12_3456 (.movi px true (.v 3) 0x123456),
    reads 0x0F13_0081_8283_84E8 (.plop px (.p 1) (.p 2) (.p 3) (.p 4) 232),
    reads 0x0F14_00FF_FFFF_FF00 (.rtt px),
    reads 0x0F15_00FF_FFFF_FF00 (.halt px),
    reads 0x0F16_80FF_0900_000B (.srwr px false 11 (.v 9)),
    reads 0x0F17_02FF_0805_0040 (.cache px .wbinv (.v 8) (.v 5) 64),
    reads 0x0F18_00FF_FFFF_FF00 (.tlbi px .all .vz .vz)].all id) = true := by decide +kernel

theorem test_decode_integer : ([
    reads 0x0F40_2004_0102_FF01 (.iadd px .i32 true (.v 4) (.v 1) (.v 2)),
    reads 0x0F41_3004_0608_FF00 (.isub px .i64 false (.v 4) (.v 6) (.v 8)),
    reads 0x0F42_6004_0102_8300 (.iadc px .n32 false (.v 4) (.v 1) (.v 2) (.p 3)),
    reads 0x0F43_6004_0102_8300 (.isbb px .n32 false (.v 4) (.v 1) (.v 2) (.p 3)),
    reads 0x0F44_7004_0608_FF00 (.imul px .n64 false (.v 4) (.v 6) (.v 8)),
    reads 0x0F45_2004_0102_FF00 (.imulh px .i32 (.v 4) (.v 1) (.v 2)),
    reads 0x0F46_0004_0102_0300 (.imad px .i8 false (.v 4) (.v 1) (.v 2) (.v 3)),
    reads 0x0F47_6004_0102_0300 (.imadh px .n32 (.v 4) (.v 1) (.v 2) (.v 3)),
    reads 0x0F48_4004_0102_FF00 (.imin px .n8 (.v 4) (.v 1) (.v 2)),
    reads 0x0F49_5004_0102_FF00 (.imax px .n16 (.v 4) (.v 1) (.v 2)),
    reads 0x0F4A_1004_01FF_FF01 (.iabs px .i16 true (.v 4) (.v 1)),
    reads 0x0F4B_2004_01FF_FF00 (.ineg px .i32 false (.v 4) (.v 1)),
    reads 0x0F4C_6281_0102_FF00 (.icmp px .lt .n32 (.p 1) (.v 1) (.v 2)),
    reads 0x0F4D_2004_0609_FF00 (.aadd px .i32 (.v 4) (.v 6) (.v 9)),
    reads 0x0F4D_7004_900A_FF00 (.aadd px .n64 (.v 4) (.u .lmask) (.v 10))].all id) = true := by decide +kernel

theorem test_decode_logic : ([
    reads 0x0F50_9004_0608_FF00 (.andL px true (.v 4) (.v 6) (.v 8)),
    reads 0x0F51_9004_0608_FF00 (.orL px true (.v 4) (.v 6) (.v 8)),
    reads 0x0F52_9004_0608_FF00 (.xorL px true (.v 4) (.v 6) (.v 8)),
    reads 0x0F53_9004_0608_FF00 (.andn px true (.v 4) (.v 6) (.v 8)),
    reads 0x0F54_8004_01FF_FF00 (.notL px false (.v 4) (.v 1)),
    reads 0x0F55_8004_0102_FF00 (.shl px false (.v 4) (.v 1) (.v 2)),
    reads 0x0F56_9004_0609_FF00 (.shr px true (.v 4) (.v 6) (.v 9)),
    reads 0x0F57_3004_0609_FF00 (.sar px true (.v 4) (.v 6) (.v 9)),
    reads 0x0F58_8004_0102_FF00 (.rol px false (.v 4) (.v 1) (.v 2)),
    reads 0x0F59_9005_06FF_FF00 (.clz px true (.v 5) (.v 6)),
    reads 0x0F5A_8005_06FF_FF00 (.ctz px false (.v 5) (.v 6)),
    reads 0x0F5B_9005_06FF_FF00 (.popc px true (.v 5) (.v 6)),
    reads 0x0F5C_8004_01FF_FF00 (.brev px false (.v 4) (.v 1)),
    reads 0x0F5D_2004_0102_0300 (.bfx px .i32 (.v 4) (.v 1) (.v 2) (.v 3)),
    reads 0x0F5E_8004_0102_0300 (.bfi px false (.v 4) (.v 1) (.v 2) (.v 3)),
    reads 0x0F5F_8004_0102_0300 (.prmt px (.v 4) (.v 1) (.v 2) (.v 3))].all id) = true := by decide +kernel

theorem test_decode_immediate : ([
    reads 0x0F60_2104_01FF_FFFE (.iaddImm px .i32 true (.v 4) (.v 1) 0xFFFFFE),
    reads 0x0F61_2004_0100_0007 (.imulImm px .i32 false (.v 4) (.v 1) 7),
    reads 0x0F62_2004_0100_0007 (.iminImm px .i32 (.v 4) (.v 1) 7),
    reads 0x0F63_6004_0100_0007 (.imaxImm px .n32 (.v 4) (.v 1) 7),
    reads 0x0F64_2482_0100_0007 (.icmpImm px .gt .i32 (.p 2) (.v 1) 7),
    reads 0x0F65_9004_0600_0010 (.aaddImm px (.v 4) (.v 6) 16),
    reads 0x0F66_8004_0100_FF00 (.andImm px false (.v 4) (.v 1) 0x00FF00),
    reads 0x0F67_8004_0100_0078 (.orImm px false (.v 4) (.v 1) 120),
    reads 0x0F68_8004_0100_0001 (.xorImm px false (.v 4) (.v 1) 1),
    reads 0x0F69_8004_0100_0005 (.shlImm px false (.v 4) (.v 1) 5),
    reads 0x0F6A_8004_0100_0005 (.shrImm px false (.v 4) (.v 1) 5),
    reads 0x0F6B_2004_0100_0005 (.sarImm px false (.v 4) (.v 1) 5),
    reads 0x0F6C_8004_0100_0005 (.rolImm px false (.v 4) (.v 1) 5)].all id) = true := by decide +kernel

theorem test_decode_lane : ([
    reads 0x0F70_8004_0102_8300 (.sel px false (.v 4) (.v 1) (.v 2) (.p 3)),
    reads 0x0F71_8204_0102_FF00 (.xchl px .dn false (.v 4) (.v 1) (.v 2)),
    reads 0x0F72_9004_81FF_FF00 (.ballot px (.v 4) (.p 1)),
    reads 0x0F73_0181_82FF_FF00 (.vote px .all (.p 1) (.p 2)),
    reads 0x0F74_B204_01FF_FF00 (.gred px .max .f32 (.v 4) (.v 1))].all id) = true := by decide +kernel

theorem test_decode_float : ([
    reads 0x0F80_B004_0102_FF02 (.fadd px false true .f32 (.v 4) (.v 1) (.v 2)),
    reads 0x0F81_B004_0102_FF02 (.fsub px false true .f32 (.v 4) (.v 1) (.v 2)),
    reads 0x0F82_B004_0102_FF02 (.fmul px false true .f32 (.v 4) (.v 1) (.v 2)),
    reads 0x0F83_A104_0102_0300 (.ffma px true false .h16 (.v 4) (.v 1) (.v 2) (.v 3)),
    reads 0x0F84_C004_0102_FF00 (.fmin px false false .bf16 (.v 4) (.v 1) (.v 2)),
    reads 0x0F85_C004_0102_FF00 (.fmax px false false .bf16 (.v 4) (.v 1) (.v 2)),
    reads 0x0F86_B004_01FF_FF00 (.fabs px false false .f32 (.v 4) (.v 1)),
    reads 0x0F87_B004_01FF_FF00 (.fneg px false false .f32 (.v 4) (.v 1)),
    reads 0x0F88_B781_0102_FF00 (.fcmp px .uno false .f32 (.p 1) (.v 1) (.v 2)),
    reads 0x0F89_B004_01FF_FF00 (.fflr px false .f32 (.v 4) (.v 1)),
    reads 0x0F8A_B204_01FF_FF00 (.frnd px .ru false .f32 (.v 4) (.v 1)),
    reads 0x0F8B_B104_01FF_FF21 (.cvt px .rz false true .f32 .i32 (.v 4) (.v 1))].all id) = true := by decide +kernel

theorem test_decode_approximation : ([
    reads 0x0F90_B004_01FF_FF02 (.frcp px true .f32 (.v 4) (.v 1)),
    reads 0x0F91_B004_01FF_FF02 (.frsq px true .f32 (.v 4) (.v 1)),
    reads 0x0F92_B004_01FF_FF02 (.fexp2 px true .f32 (.v 4) (.v 1)),
    reads 0x0F93_B004_01FF_FF02 (.flog2 px true .f32 (.v 4) (.v 1)),
    reads 0x0F94_B004_01FF_FF02 (.fsin px true .f32 (.v 4) (.v 1)),
    reads 0x0F95_B004_01FF_FF02 (.fcos px true .f32 (.v 4) (.v 1)),
    reads 0x0F96_B004_0102_FF00 (.fdiva px false (.v 4) (.v 1) (.v 2))].all id) = true := by decide +kernel

theorem test_decode_memory : ([
    reads 0x0FA0_9504_06FF_0010 (.ld px .ro true .b64 (.v 4) (.v 6) .vz 16),
    reads 0x0FA1_8805_0603_FFFC (.st px .nt false .b32 (.v 5) (.v 6) (.v 3) 0xFFFC),
    reads 0x0FA2_8408_06FF_0020 (.ldw px .ro (.v 8) (.v 6) .vz 32),
    reads 0x0FA3_8008_06FF_0000 (.stw px .none (.v 8) (.v 6) .vz 0),
    reads 0x0FA4_81FF_06FF_0040 (.prf px true (.v 6) .vz 64),
    reads 0x0FA5_8605_0603_FF00 (.atom px .exch .b32 (.v 5) (.v 6) (.v 3)),
    reads 0x0FA6_8005_0603_0200 (.cas px false (.v 5) (.v 6) (.v 3) (.v 2)),
    reads 0x0FA7_20FF_0603_FF00 (.red px .add .i32 (.v 6) (.v 3)),
    reads 0x0FA8_81FF_05FF_FF00 (.sync px .core (.v 5)),
    reads 0x0FA9_83FF_05FF_FF00 (.drain px .die (.v 5)),
    reads 0x0FAA_01FF_FFFF_FF00 (.fence px true),
    reads 0x0FAC_8005_06FF_0004 (.ldsp px false .b32 (.v 5) (.v 6) 4),
    reads 0x0FAD_8005_06FF_0004 (.stsp px false .b32 (.v 5) (.v 6) 4),
    reads 0x0FAE_6005_0607_FF00 (.atsp px (.v 5) (.v 6) (.v 7)),
    reads 0x0FAF_00FF_FFFF_FF00 (.barw px)].all id) = true := by decide +kernel

theorem test_decode_queue : ([
    reads 0x0FB0_80FF_0503_FF00 (.qpush px (.v 5) (.v 3)),
    reads 0x0FB1_8005_FF03_FF00 (.qpop px (.v 5) (.v 3)),
    reads 0x0FB2_80FF_0503_8100 (.qtry px false (.v 5) (.v 3) (.p 1)),
    reads 0x0FB3_90FF_0603_FF00 (.enq px (.v 6) (.v 3)),
    reads 0x0FB4_9008_FF03_FF00 (.deq px (.v 8) (.v 3)),
    reads 0x0FB5_80FF_0503_FF00 (.dcset px (.v 5) (.v 3)),
    reads 0x0FB6_20FF_0503_FF00 (.dcadd px (.v 5) (.v 3)),
    reads 0x0FB7_80FF_05FF_FF00 (.dcdec px (.v 5)),
    reads 0x0FB8_90FF_0608_0300 (.gmake px (.v 6) (.v 8) (.v 3)),
    reads 0x0FB9_9004_06FF_FF00 (.gatt px (.v 4) (.v 6)),
    reads 0x0FBA_90FF_06FF_FF00 (.gdet px (.v 6)),
    reads 0x0FBB_90FF_06FF_FF00 (.gfree px (.v 6))].all id) = true := by decide +kernel

theorem test_decode_matrix : ([
    reads 0x0FC0_F0B8_0608_0A03 (.mmaQ4 px 5 true 2 (.v 6) (.v 8) (.v 10) (.v 3)),
    reads 0x0FC1_D0B8_0608_0A03 (.mmaE4m3 px 5 true 2 (.v 6) (.v 8) (.v 10) (.v 3)),
    reads 0x0FC2_E0B8_0608_0A03 (.mmaE5m2 px 5 true 2 (.v 6) (.v 8) (.v 10) (.v 3)),
    reads 0x0FC3_00B8_0608_0A03 (.mmaI8 px 5 true 2 (.v 6) (.v 8) (.v 10) (.v 3)),
    reads 0x0FC4_A0B0_0608_FF03 (.mmaH16 px 5 true 0 (.v 6) (.v 8) .vz (.v 3)),
    reads 0x0FC5_80FF_05FF_FF00 (.accz px (.v 5)),
    reads 0x0FC6_2009_0503_FF00 (.accrd px .i32 (.v 9) (.v 5) (.v 3)),
    reads 0x0FC7_80FF_0503_0800 (.accwr px (.v 5) (.v 3) (.v 8)),
    reads 0x0FC8_F0B0_0608_FF03 (.mma4 px 5 true 0 (.v 6) (.v 8) .vz (.v 3)),
    reads 0x0FC9_00B0_0608_FF03 (.mma8 px 5 true 0 (.v 6) (.v 8) .vz (.v 3))].all id) = true := by decide +kernel

theorem test_decode_engine : ([
    reads 0x0FD0_9005_06FF_FF03 (.ecopy px true true (.v 5) (.v 6)),
    reads 0x0FD1_9005_06FF_FF03 (.egath px true true (.v 5) (.v 6)),
    reads 0x0FD2_9005_06FF_FF03 (.ecoll px true true (.v 5) (.v 6)),
    reads 0x0FD4_9005_06FF_FF03 (.quant px true true (.v 5) (.v 6)),
    reads 0x0FD3_80FF_05FF_FF00 (.ewait px (.v 5))].all id) = true := by decide +kernel

/-! ### Ill-formed terms

One term for each check of well-formedness, and well-formed neighbours beside them. -/

/-- Registers: a predicate or an usher register where a vector register stands (R52), an odd pair (R52), a group of four or eight
that does not start at its multiple (R355), a predicate field without a predicate. -/
theorem test_wf_registers : ([
    Instr.fadd px false false .f32 (.p 1) (.v 1) (.v 2), .fadd px false false .f32 (.v 4) (.u .udepth) (.v 2),
    .isub px .i64 false (.v 5) (.v 6) (.v 8), .isub px .i64 false (.v 4) (.v 7) (.v 8), .isub px .i64 false (.v 4) (.v 6) (.u .evt),
    .ldw px .none (.v 6) (.v 6) .vz 0, .accwr px (.v 5) (.v 3) (.v 4), .sel px false (.v 4) (.v 1) (.v 2) (.v 3), .ballot px (.v 4) (.v 1),
    .icmp px .eq .n32 (.v 1) (.v 1) (.v 2), .ret px (.v 1), .mmaH16 px 0 false 0 (.v 6) (.v 8) (.v 10) (.v 3),
    .tlbi px .all (.v 2) .vz, .ld px .none true .b64 (.v 6) (.v 8) .vz 0].all fun i => !i.wf) = true := by decide

/-- Types (R130 to R158), special registers (R58), guards (R372) and `MOV`'s pairs (R42, R123). -/
theorem test_wf_types : ([
    Instr.imulh px .i64 (.v 4) (.v 1) (.v 2), .iabs px .n32 false (.v 4) (.v 1), .iadc px .i32 false (.v 4) (.v 1) (.v 2) (.p 3),
    .fadd px true false .f32 (.v 4) (.v 1) (.v 2), .frcp px false .bf16 (.v 4) (.v 1), .gred px .add .b32 (.v 4) (.v 1),
    .gred px .and .i32 (.v 4) (.v 1), .cvt px .rn false false .f32 .b32 (.v 4) (.v 1), .accrd px .n32 (.v 9) (.v 5) (.v 3),
    .st px .ro false .b32 (.v 4) (.v 6) .vz 0, .movsRead px false (.v 5) 0x16, .movsRead px false (.v 5) 0x0C, .bfx px .i8 (.v 4) (.v 1) (.v 2) (.v 3),
    .rtt ⟨false, .none, false, 3⟩, .halt ⟨false, .none, true, 15⟩, .mov px true (.u .vpc) (.v 5) 0, .mov px false (.p 1) (.v 2) 1,
    .sync px .pod (.v 5)].all fun i => !i.wf) = true := by decide

/-- Events name an agent that the module has. -/
theorem test_wf_agents : ([
    Instr.portIssueChoice 1024 0, .portIssueChoice 0 2, .portIssueChoice 129 0, .landingIssue 0 8, .mmaTileWrite 0 2, .unitPlacement 4,
    .doorbell 0 0 16 0, .trigger 0 32 0, .swezinFrameArrival 20 []].all fun i => !i.wf) = true := by decide

theorem test_wf_admits : ([
    Instr.isub px .i64 false (.v 4) (.v 6) (.u .lmask), .ldw px .none (.v 8) (.v 6) .vz 0, .accwr px (.v 5) (.v 3) (.v 8), .rtt px,
    .mov px true (.u .vpc) (.v 4) 0, .mov px true (.v 4) (.u .evt) 2, .portIssueChoice 128 1, .landingIssue 1023 7, .unitPlacement 3].all Instr.wf) = true := by
  decide

/-! ### Words that the decoder refuses -/

/-- The cause code with which a word alone in a clause of its class is refused. -/
def refuses (w : DWord) : Option Nat :=
  match decodeAlone w with
  | .error e => some e.1.code
  | .ok _ => none

/-- Zeros, ones, an unassigned cell (0x00), a reserved type (0x09), register byte (0x0A), an odd pair (0x0B), a group of four (0x0C), an unused
register (0x0D), sub-operation (0x0E), modifier (0x0F), immediate (0x10), special register (0x11), the field of format X (0x12): the
codes of R341. -/
theorem test_decode_refuses : ([
    (0x0000_0000_0000_0000, 0x00), (0xFFFF_FFFF_FFFF_FFFF, 0x00), (0x0FAB_80FF_FFFF_FF00, 0x00), (0x0F40_B004_0102_FF00, 0x09),
    (0x0F40_2004_9002_FF00, 0x0A), (0x0F41_3005_0608_FF00, 0x0B), (0x0FA2_8006_06FF_0000, 0x0C), (0x0F40_2004_0102_0000, 0x0D),
    (0x0F40_2104_0102_FF00, 0x0E), (0x0F40_2004_0102_FF02, 0x0F), (0x0F11_8005_FF00_0104, 0x10), (0x0F11_8005_FF00_0040, 0x11),
    (0x0FC0_F0B9_0608_0A03, 0x12)].all fun q => refuses q.1 == some q.2) = true := by decide +kernel

/-- A mismatched class (0x05), and a transfer that is not last (0x06), R71, R72. -/
theorem test_decode_place :
    (match decodeWord 2 0 true 0x0F40_2004_0102_FF00 with | .error e => e.1.code | .ok _ => 99) = 0x05 ∧
    (match decodeWord 0 0 false 0x0F07_00FF_FFFF_FF00 with | .error e => e.1.code | .ok _ => 99) = 0x06 := by decide +kernel

/-! ### Single steps

The values are the manual's own examples. -/

/-- What lane 1 will see in register `n` once the results of instruction `i` are visible, with v0, v1, v2 holding `vs` in every lane. -/
def gives (i : Instr) (n : Nat) (vs : List Word) : Option Word :=
  match exec i (four vs) with
  | .next t => t.curWarp.clause.bind fun c => (c.at_.pend.find? fun q => q.tgt == .vreg n).map fun q => loWord (q.vals.getD 1 0)
  | _ => none

/-- The value and the flags. -/
def givesF (i : Instr) (n : Nat) (vs : List Word) : Option (Word × BitVec 5) :=
  match exec i (four vs) with
  | .next t => t.curWarp.clause.bind fun c => (c.at_.pend.find? fun q => q.tgt == .vreg n).map fun q =>
      (loWord (q.vals.getD 1 0), c.at_.pend.foldl (fun a q => if q.tgt == .flagsOr then a ||| q.flags else a) 0)
  | _ => none

/-- The edges that R130 lists, and the shift of R135. -/
theorem test_integer_edges :
    gives (.iabs px .i32 false (.v 4) (.v 1)) 4 [0, 0x8000_0000] = some 0x8000_0000 ∧
    gives (.iabs px .i32 true (.v 4) (.v 1)) 4 [0, 0x8000_0000] = some 0x7FFF_FFFF ∧
    gives (.ineg px .n32 false (.v 4) (.v 1)) 4 [0, 5] = some 0xFFFF_FFFB ∧
    gives (.ineg px .n32 true (.v 4) (.v 1)) 4 [0, 5] = some 0 ∧
    gives (.imul px .i16 true (.v 4) (.v 1) (.v 2)) 4 [0, 300, 200] = some 0x0000_7FFF ∧
    gives (.iadd px .i8 false (.v 4) (.v 1) (.v 2)) 4 [0, 100, 100] = some 0xFFFF_FFC8 ∧
    gives (.shl px false (.v 4) (.v 1) (.v 2)) 4 [0, 1, 33] = some 2 ∧
    gives (.clz px false (.v 4) (.v 1)) 4 [0, 0] = some 32 := by decide +kernel

/-- The example conversions of R150's table. -/
theorem test_conversions :
    givesF (.cvt px .rn false false .e5m2 .f32 (.v 4) (.v 1)) 4 [0, 0xC030_0000] = some (0xC2, 0x10) ∧
    givesF (.cvt px .rz false false .i32 .f32 (.v 4) (.v 1)) 4 [0, 0xC030_0000] = some (0xFFFF_FFFE, 0x10) ∧
    givesF (.cvt px .rn false false .e4m3 .f32 (.v 4) (.v 1)) 4 [0, 0x43FA_0000] = some (0x7F, 0x14) ∧
    givesF (.cvt px .rn false true .e4m3 .f32 (.v 4) (.v 1)) 4 [0, 0x43FA_0000] = some (0x7E, 0x14) ∧
    givesF (.cvt px .rz false false .e4m3 .f32 (.v 4) (.v 1)) 4 [0, 0x43FA_0000] = some (0x7E, 0x14) ∧
    gives (.cvt px .rn false false .n8 .i32 (.v 4) (.v 1)) 4 [0, 0xFFFF_FFFF] = some 0xFF ∧
    gives (.cvt px .rn false true .n8 .i32 (.v 4) (.v 1)) 4 [0, 0xFFFF_FFFF] = some 0 ∧
    givesF (.cvt px .rn false false .h16 .n32 (.v 4) (.v 1)) 4 [0, 70000] = some (0x7C00, 0x14) := by decide +kernel

/-- The selectors of R159. -/
theorem test_prmt :
    gives (.prmt px (.v 4) (.v 0) (.v 1) (.v 2)) 4 [0x0403_0281, 0x0807_0605, 0x3210] = some 0x0403_0281 ∧
    gives (.prmt px (.v 4) (.v 0) (.v 1) (.v 2)) 4 [0x0403_0281, 0x0807_0605, 0x0123] = some 0x8102_0304 ∧
    gives (.prmt px (.v 4) (.v 0) (.v 1) (.v 2)) 4 [0x0403_0281, 0x0807_0605, 0x5410] = some 0x0605_0281 ∧
    gives (.prmt px (.v 4) (.v 0) (.v 1) (.v 2)) 4 [0x0403_0281, 0x0807_0605, 0x8880] = some 0xFFFF_FF81 := by decide +kernel

/-- The 57 of the worked example after R111, read out as `.f32`, `.e4m3` and `.i32`. -/
theorem test_readout :
    (Acc.mk (BitVec.ofNat 256 (57 * 2 ^ 128)) false false false false).readOut .f32 = (0x4264_0000, 0) ∧
    (Acc.mk (BitVec.ofNat 256 (57 * 2 ^ 128)) false false false false).readOut .e4m3 = (0x66, 0x10) ∧
    (Acc.mk (BitVec.ofNat 256 (57 * 2 ^ 128)) false false false false).readOut .i32 = (0x39, 0) := by decide +kernel

/-- Empty memory is canonical, a byte that nothing has written reads as 0, and the lowest byte lies lowest (R2). -/
theorem test_memory :
    State.reset.memoriesWf = true ∧ Memory.byte State.reset.mem 0x1234 = 0 ∧ Memory.byte (Memory.store [] 0x100 4 0x1122_3344) 0x100 = 0x44 ∧
    Memory.byte (Memory.store [] 0x100 4 0x1122_3344) 0x103 = 0x11 ∧ Memory.store (Memory.store [] 0x100 4 0x1122_3344) 0x100 4 0 = [] := by
  decide +kernel

/-! ### Witnesses: each shows states and operands that meet all hypotheses of a clause together -/

/-- `EncodeDecode`, `EncodedOpcodes` and the statements whose only hypothesis is well-formedness. -/
theorem witness_wf :
    encode (.iadd px .i32 false (.v 4) (.v 1) (.v 2)) = some 0x0F40_2004_0102_FF00 ∧
    ([.iadd px .i64 true (.v 126) .vz (.v 0), .iaddImm px .n8 false (.v 1) (.v 127) 0x8000, .isub px .b64 true (.v 0) (.v 2) (.v 4),
      .iadc px .n32 false (.v 1) (.v 2) (.v 3) (.p 14), .icmp px .ge .n64 (.p 0) (.v 4) (.v 10), .plop px (.p 1) (.p 15) (.p 2) (.p 3) 0x96,
      .aadd px .i32 (.v 4) (.v 6) (.v 1), .bfx px .n64 (.v 2) (.v 4) (.v 1) (.v 9), .andL px true (.v 2) (.v 4) .vz, .shl px false (.v 1) (.v 2) (.v 3),
      .xchl px .idx true (.v 2) (.v 4) (.v 1), .ballot px (.v 2) (.p 3), .vote px .eq (.p 0) (.p 1), .gred px .xor .b64 (.v 2) (.v 4),
      .ffma px true false .h16 (.v 1) (.v 2) (.v 3) (.v 4), .fcmp px .uno true .f32 (.p 14) (.v 1) (.v 2), .cvt px .rz true false .n64 .f32 (.v 2) (.v 5),
      .frcp px false .f32 (.v 1) (.v 2), .mov px true (.v 2) (.u .lmask) 0, .mov px false (.p 1) (.v 3) 0, .movi px true (.v 9) 0xFFFFFF,
      .movsRead px true (.v 2) 0x11] : List Instr).all Instr.wf = true := by
  decide +kernel

theorem witness_UsherMoves :
    ([seg 4, { seg 4 with udepth := 1 }].all fun g =>
      let s := mod (at0 g 0 0 [])
      decide (g.lead (s.curWarp.execMask px) = some 0 ∧ s.pends = [])) = true ∧
    Alone (four []) (seg 4) ((four []).curWarp.execMask px) ∧
    (let g := { seg 4 with udepth := 1 }
     let s := mod (at0 g 0 0 [])
     Alone s g (s.curWarp.execMask px)) :=
  ⟨by decide +kernel, alone_of (by decide +kernel), alone_of (by decide +kernel)⟩

theorem witness_MovesAndWaits :
    (Reg.v 2).isSized true = true ∧ (Reg.p 3).isPred = true ∧ (four []).curWarp.execMask px ≠ 0 ∧
    (four [0x40, 0xFFFFFF00]).readRaises 0 ((four [0x40, 0xFFFFFF00]).curWarp.execMask px) 8
      (fun l => (four [0x40, 0xFFFFFF00]).curWarp.ea (.v 0) .vz 0 8 l) = [] ∧
    (four []).pends = [] := by
  decide +kernel

/-- `SLOT` one step: the agenda empty, a warp at a slot, its word decoding. -/
theorem witness_StepRunsTheSlot :
    let s := State.reset.withFetchWord 64 0x0F40_2004_0102_FF00
    let a := s.atSlot.curWarp.clauseAt
    s.agenda = [] ∧ s.slotReady = true ∧ (s.atSlot.curWarp.window.map Window.instrs).getD 0 < Config.winInstrs ∧ s.atSlot.curWarp.poison = [] ∧
    decodeWord a.cls a.slot (a.slot == a.cnt) s.atSlot.curWarp.curWord = .ok (.iadd px .i32 false (.v 4) (.v 1) (.v 2)) ∧
    State.reset.agenda = [] ∧ State.reset.slotReady = false ∧ ({ State.reset with agenda := [.leaseWrap] } : State).agenda = .leaseWrap :: [] ∧
    (match (State.reset.withFetchWord 64 0).slotAct with
      | .done _ => true
      | .run _ _ => false) = true := by
  decide +kernel

theorem witness_UnassignedCell :
    cellRow ((0x0FFF_0000_0000_0000 : DWord).extractLsb' 48 8).toNat = none ∧ Alone (four []) (seg 4) (four []).curWarp.setMask ∧
    (seg 4).record = none ∧ (seg 4).handler = 0 :=
  ⟨by decide +kernel, alone_of (by decide +kernel), rfl, rfl⟩

theorem witness_SystemGuards :
    encode (.rtt ⟨false, .none, true, 3⟩) = some 0x1314_00FF_FFFF_FF00 ∧ encode (.halt ⟨false, .none, false, 0⟩) ≠ none ∧
    (Instr.srwr ⟨false, .none, false, 15⟩ false 0x0E (.v 1)).wf = true ∧ encode (.srwr ⟨false, .none, false, 2⟩ false 0x0E (.v 1)) ≠ none ∧
    (Instr.cache ⟨false, .none, false, 2⟩ .wb (.v 2) .vz 0).wf = true ∧ encode (.cache ⟨false, .none, false, 2⟩ .wb (.v 2) .vz 0) ≠ none ∧
    (Instr.tlbi ⟨false, .none, false, 2⟩ .all .vz .vz).wf = true ∧ encode (.tlbi ⟨false, .none, false, 2⟩ .all .vz .vz) ≠ none ∧
    (four []).curWarp.execMask ⟨false, .none, true, 15⟩ = 0 := by
  decide +kernel

/-- A target that is no header stands nowhere here; every lane of the fetch set agrees on the guard. -/
theorem witness_Transfers :
    let s := four [0x2000, 0]
    s.targetsGood (s.curWarp.execMask px) (fun _ => s.curWarp.pcWord + (16 : BitVec 40).signExtend 64 * 8) ∧
    s.targetsGood (s.curWarp.execMask px) (s.curWarp.val64 (.v 0)) ∧
    ∀ g ∈ s.curWarp.segs, ∀ j l, (g.slots &&& s.curWarp.setMask).getLsbD j = true → (g.slots &&& s.curWarp.setMask).getLsbD l = true →
      (s.curWarp.guard px).getLsbD j = (s.curWarp.guard px).getLsbD l :=
  ⟨lanes_of (by decide +kernel), lanes_of (by decide +kernel), fun _ _ j l hj hl => by
    have all : ∀ k, k < 64 → ((four [0x2000, 0]).curWarp.guard px).getLsbD k = true := by decide +kernel
    exact (all j (getLsbD_lt hj)).trans (all l (getLsbD_lt hl)).symm⟩

/-- The warp of `four` with a predicate p1 true in the lanes `m`. -/
def split (g : Seg) (m : Mask) : State := mod { at0 g 0 0 [] with preds := List.replicate 15 m }
/-- Guarded by p1. -/
def p1 : Pre := ⟨false, .none, false, 1⟩

theorem witness_UsherEntry :
    (let s := split (seg 4) 0b0011
     let m := s.curWarp.setMask
     let F := (seg 4).rel m
     let taken := F &&& (seg 4).rel (s.curWarp.guard p1)
     Alone s (seg 4) m ∧ taken ≠ 0 ∧ taken ≠ F ∧ (seg 4).udepth = 0 ∧ (seg 4).ubase ≠ 0 ∧ (seg 4).handler &&& F = 0 ∧ s.usherErr (seg 4) F = none ∧
       ((seg 4).progress = true ∨ (seg 4).bc < (seg 4).bancnt.toNat)) ∧
    (let g := { seg 4 with udepth := 1, usher := 0b0111 }
     let s := split g 0b0011
     let F := g.rel s.curWarp.setMask
     Alone s g s.curWarp.setMask ∧ F &&& g.rel (s.curWarp.guard p1) ≠ 0 ∧ F &&& g.rel (s.curWarp.guard p1) ≠ F ∧ g.udepth = 1 ∧ g.ubase ≠ 0 ∧
       g.handler &&& F = 0 ∧ s.usherErr g F = none) ∧
    (let g := { seg 4 with handler := 0xF }
     let s := split g 0b0011
     Alone s g s.curWarp.setMask ∧ g.handler &&& g.rel s.curWarp.setMask ≠ 0) ∧
    (let g := { seg 4 with udepth := 2, urun := 0xF }
     let s := split g 0b0011
     Alone s g s.curWarp.setMask ∧ g.handler &&& g.rel s.curWarp.setMask = 0 ∧ g.record = none ∧ g.udepth = 2) ∧
    (let g := { seg 4 with ubase := 0 }
     let s := split g 0b1000
     Alone s g s.curWarp.setMask ∧ g.handler &&& g.rel s.curWarp.setMask = 0 ∧ g.record = none ∧ g.udepth ≠ 2 ∧ g.ubase = 0) := by
  refine ⟨⟨alone_of (by decide +kernel), by decide +kernel⟩, ⟨alone_of (by decide +kernel), by decide +kernel⟩,
    ⟨alone_of (by decide +kernel), by decide +kernel⟩,
    ⟨alone_of (by decide +kernel), by decide +kernel⟩, ⟨alone_of (by decide +kernel), by decide +kernel⟩⟩

/-- A nested event with an usher lane to run on, and one whose usher lanes are all parked. -/
theorem witness_NestedReturn :
    (let g := { seg 4 with udepth := 2, usher := 0b0011, olmask := 0xF, ovpc := List.replicate 4 0x2000 }
     let s := mod (at0 g 0 0 [])
     let act := g.lmask &&& ~~~g.lpark &&& s.curWarp.free g
     Alone s g s.curWarp.setMask ∧ g.udepth = 2 ∧ s.curWarp.holds = [] ∧ s.curWarp.resume = [] ∧ g.usher &&& act ≠ 0 ∧
       s.targetsGood (g.abs (g.usher &&& act)) (fun l => g.vpc.getD (l - g.lbase) 0)) ∧
    (let g := { seg 4 with udepth := 2, usher := 0b0011, olmask := 0xF, lpark := 0b0011, ovpc := List.replicate 4 0x2000 }
     let s := mod (at0 g 0 0 [])
     let last := g.olmask &&& ~~~g.lpark &&& s.curWarp.free g
     Alone s g s.curWarp.setMask ∧ g.udepth = 2 ∧ s.curWarp.holds = [] ∧ s.curWarp.resume = [] ∧
       g.usher &&& (g.lmask &&& ~~~g.lpark &&& s.curWarp.free g) = 0 ∧ last ≠ 0 ∧
       s.targetsGood (g.abs last) (fun l => g.ovpc.getD (l - g.lbase) 0)) :=
  ⟨⟨alone_of (by decide +kernel), by decide +kernel, by decide +kernel, by decide +kernel, by decide +kernel, lanes_of (by decide +kernel)⟩,
    ⟨alone_of (by decide +kernel), by decide +kernel, by decide +kernel, by decide +kernel, by decide +kernel, by decide +kernel,
      lanes_of (by decide +kernel)⟩⟩

theorem witness_UsherReturn :
    (let g := { seg 4 with udepth := 1, urun := 0xF }
     let s := mod (at0 g 0 0 [])
     Alone s g s.curWarp.setMask ∧ g.udepth = 1 ∧ s.curWarp.holds = [] ∧ s.curWarp.resume = [] ∧
       s.targetsGood (g.abs (g.lmask &&& ~~~g.lpark &&& s.curWarp.free g)) (fun l => g.vpc.getD (l - g.lbase) 0)) ∧
    (Alone (four []) (seg 4) (four []).curWarp.setMask ∧ Alone (four []) (seg 4) ((four []).curWarp.execMask px) ∧ (seg 4).udepth = 0 ∧
      (seg 4).record = none ∧ (seg 4).handler = 0 ∧ (four []).curWarp.execMask px ≠ 0 ∧ (four []).pends = []) ∧
    (let g := { seg 4 with udepth := 1, urun := 0xF }
     let s := mod (at0 g 0 0 [])
     Alone s g (s.curWarp.execMask px) ∧ g.udepth ≠ 0 ∧ g.record = none ∧ g.handler = 0) :=
  ⟨⟨alone_of (by decide +kernel), by decide +kernel, by decide +kernel, by decide +kernel, lanes_of (by decide +kernel)⟩,
    ⟨alone_of (by decide +kernel), alone_of (by decide +kernel), by decide +kernel⟩, ⟨alone_of (by decide +kernel), by decide +kernel⟩⟩

theorem witness_TrapInstructions :
    Alone (four []) (seg 4) ((four []).curWarp.execMask px) ∧ (seg 4).record = none ∧ (four []).curWarp.execMask px ≠ 0 ∧
    (four []).curWarp.mayAct = true ∧ (seg 4).handler &&& (seg 4).rel ((four []).curWarp.execMask px) = 0 :=
  ⟨alone_of (by decide +kernel), by decide +kernel⟩

/-- A cause of lanes `m` at the slot of `at0`. -/
def causeOf (code : Nat) (cls : CauseClass) (m : Mask) : SegCause :=
  { code := code, cls := cls, at_ := ⟨0x1000, 0, 0, [0], m, 0, [], []⟩, lanes := m, mask := m, done := 0, detail := 7, addrs := List.replicate 4 0x40
    logAddr := 0x8000, logPc := 0x1000, hid := 0, since := 0, told := false, after := [] }

/-- A segment with a cause, its lanes out of the clause. -/
def caused (code : Nat) (cls : CauseClass) : Seg := { seg 4 with cause := some (causeOf code cls 0b0101) }
/-- The module with a segment whose lanes stand at no slot. -/
def idle (g : Seg) : State := mod { at0 g 0 0 [1, 2, 3, 4] with clause := none }

theorem witness_HandlerEntry :
    ((idle (caused 0x51 .p)).warp 0).segAt 0 = some (caused 0x51 .p) ∧ (caused 0x51 .p).cause = some (causeOf 0x51 .p 0b0101) ∧
    causeDest 0x51 = .handler ∧ ((idle (caused 0x51 .p)).warp 0).window = none ∧ (caused 0x51 .p).record = none ∧ (caused 0x51 .p).tbase ≠ 0 := by
  decide +kernel

/-- A segment in its handler, after a cause of class `cls`. -/
def handling (code : Nat) (cls : CauseClass) : Seg :=
  { seg 4 with handler := 0b0101, record := some ⟨causeOf code cls 0b0101, List.replicate 10 VReg.reset, 0, false⟩ }

theorem witness_HandlerReturn :
    ([(0x16, CauseClass.p), (0x51, .p), (0xB4, .d)] : List (Nat × CauseClass)).all (fun c =>
      let g := handling c.1 c.2
      let s := mod (at0 g 0 0 [])
      decide (s.curWarp.segAt g.lbase = some g ∧ s.curWarp.segsIn (s.curWarp.execMask px) = [g] ∧
        (g.firmware = true ∨ g.handler &&& g.rel (s.curWarp.execMask px) ≠ 0) ∧ g.record.isSome = true ∧ g.cause = none ∧ g.queue = [] ∧ s.pends = [] ∧
        g.abs (causeOf c.1 c.2 0b0101).lanes &&& s.curWarp.live ≠ 0)) = true := by
  decide +kernel

theorem witness_Privilege :
    (Alone (four []) (seg 4) ((four []).curWarp.execMask px) ∧ (four []).curWarp.execMask px ≠ 0 ∧ (seg 4).firmware = false ∧ (seg 4).record = none ∧
      (seg 4).handler &&& (seg 4).rel ((four []).curWarp.execMask px) = 0 ∧ (four []).pends = [] ∧ (four []).curWarp.window = none ∧
      (four []).curWarp.sideLog = []) ∧
    (let g := { seg 4 with handler := 0xF }
     let s := mod (at0 g 5 0 [])
     Alone s g (s.curWarp.execMask px) ∧ g.handler &&& g.rel (s.curWarp.execMask px) = g.rel (s.curWarp.execMask px) ∧
       g.rel (s.curWarp.execMask px) ≠ 0) :=
  ⟨⟨alone_of (by decide +kernel), by decide +kernel⟩, ⟨alone_of (by decide +kernel), by decide +kernel⟩⟩

/-- Firmware at a slot of class 5. -/
def fwSeg : Seg := { seg 4 with firmware := true }
def fw (vs : List Word) : State := mod (at0 fwSeg 5 0 vs)

theorem witness_SpecialRegisters :
    (Alone (fw [8, 0]) fwSeg ((fw [8, 0]).curWarp.execMask px) ∧ fwSeg.lead ((fw [8, 0]).curWarp.execMask px) = some 0 ∧ fwSeg.firmware = true ∧
      fwSeg.handler &&& fwSeg.rel ((fw [8, 0]).curWarp.execMask px) = 0 ∧ (fw [8, 0]).curWarp.window = none ∧ (fw [8, 0]).curWarp.sideLog = [] ∧ ((fw [8, 0]).curWarp.val true (.v 0) 0).toNat % 8 = 0 ∧
      0 < (loWord ((fw [65535]).curWarp.val false (.v 0) 0)).toNat ∧ (loWord ((fw [65535]).curWarp.val false (.v 0) 0)).toNat ≤ 65535 ∧
      (((fw []).die 0).porterWake.find (fw []).cur).getD 0 = 0 ∧ dieOf (fw []).cur < (fw []).dies.length ∧
      ((((fw []).onDie 0 fun d => { d with porterWake := [(0, 3)] }).die 0).porterWake.find (fw []).cur).getD 0 = 3 ∧ (fw []).homeOps = [] ∧
      (∀ q ∈ (fw []).warps, q.2.window = none ∧ q.2.sideLog = []) ∧ (fw []).curWarp.mayAct = true) ∧
    (let s := mod { at0 fwSeg 5 0 [0x80, 0xFFFFFF80] with clause := (at0 fwSeg 5 0 []).clause.map fun c => { c with at_ := { c.at_ with lanes := 1 } } }
     s.curWarp.execMask px = laneBit 0 ∧ s.lanePlace 0 0 .load 1 (s.curWarp.ea (.v 0) .vz 0 128 0) = .ok ⟨.hbm 0x10080, none⟩) := by
  refine ⟨⟨alone_of (by decide +kernel), by decide +kernel⟩, by decide +kernel⟩

theorem witness_Porter :
    (Alone (four []) (seg 4) (four []).curWarp.setMask ∧ (four []).curWarp.setMask ≠ 0 ∧ (four []).curWarp.mayAct = true ∧ (seg 4).record = none ∧
      (seg 4).handler = 0) ∧
    ([0x17, 0x18, 0x01].all fun code =>
      let g := caused code .p
      let s := idle g
      decide ((s.warp 0).segAt 0 = some g ∧ g.cause = some (causeOf code .p 0b0101) ∧ (s.warp 0).window = none ∧ g.lbase = 0 ∧ g.record = none ∧
        g.queue = [] ∧ (causeOf code .p 0b0101).hid = 0 ∧ coreOf 0 ≠ porterCore (dieOf 0) ∧ (causeOf code .p 0b0101).at_.pend = [] ∧
        (s.warp 0).poison = [])) = true ∧
    decodeAlone 0x0F96_B004_0102_FF00 = .ok (.fdiva px false (.v 4) (.v 1) (.v 2)) :=
  ⟨⟨alone_of (by decide +kernel), by decide +kernel⟩, by decide +kernel, by decide +kernel⟩

/-! ### Memory, windows, barriers, queues -/

/-- A place is found without a translation. -/
theorem place_of {x : Except XErr Place} (h : x.toOption.map Place.xlat = some none) : ∃ loc, x = .ok ⟨loc, none⟩ := by
  match x, h with
  | .ok ⟨loc, none⟩, _ => exact ⟨loc, rfl⟩

theorem places_of {m : Mask} (f : Nat → Except XErr Place)
    (h : ∀ l, l < 64 → m.getLsbD l = true → (f l).toOption.map Place.xlat = some none) : ∀ l, m.getLsbD l = true → ∃ loc, f l = .ok ⟨loc, none⟩ :=
  fun l hl => place_of (h l (getLsbD_lt hl) hl)

/-- An access that finds the class of its page as it will leave it, and no change under way. -/
def stays (s : State) (w l : Nat) (va : DWord) : Bool :=
  (match s.xlatOf w l va with
    | some x => (classAfter (s.mem.dword x.leafPa) (homeDie x.base) (some (coreOf w))).1 == s.mem.dword x.leafPa
    | none => true) && !s.classWaits w (s.xlatOf w l va)

theorem stays_of {s : State} {w l : Nat} {va : DWord} (h : stays s w l va = true) : s.classStays w l va := by
  simp only [stays, Bool.and_eq_true, Bool.not_eq_true'] at h
  refine ⟨fun x hx => ?_, h.2⟩
  have h1 := h.1
  rw [hx] at h1
  simpa using h1

theorem witness_LoadIssue :
    let s := four [0x100, 0xFFFFFF00]
    let wp := s.curWarp
    let m := wp.execMask px
    m ≠ 0 ∧ wp.ldCnt < 63 ∧ wp.hasRoom (lanesOf m).length = true ∧ s.solo s.cur = false ∧
    s.readRaises s.cur m 8 (fun l => wp.ea (.v 0) .vz 0 8 l) = [] ∧ s.readRaises s.cur m 16 (fun l => wp.rowAddr m (.v 0) .vz 0 l) = [] ∧
    (∀ l ∈ lanesOf m, (s.loadPlace s.cur l 8 (wp.ea (.v 0) .vz 0 8 l)).loc.own = false) ∧
    ∀ l, m.getLsbD l = true → (wp.rowBase m (.v 0) .vz 0 l).toNat % 256 = 0 :=
  ⟨by decide +kernel, by decide +kernel, by decide +kernel, by decide +kernel, by decide +kernel, by decide +kernel, by decide +kernel,
    lanes_of (by decide +kernel)⟩

theorem witness_StoreIssue :
    (let s := four [0x100, 0xFFFFFF00]
     let wp := s.curWarp
     let m := wp.execMask px
     m ≠ 0 ∧ wp.stCnt < 63 ∧ wp.hasRoom (lanesOf m).length = true ∧ s.solo s.cur = false ∧
     (∀ l, m.getLsbD l = true → ∃ loc, s.lanePlace s.cur l .store 8 (wp.ea (.v 0) .vz 0 8 l) = .ok ⟨loc, none⟩) ∧
     (∀ l, m.getLsbD l = true → ∃ loc, s.lanePlace s.cur l .store 16 (wp.rowAddr m (.v 0) .vz 0 l) = .ok ⟨loc, none⟩) ∧
     ∀ l, m.getLsbD l = true → (wp.rowBase m (.v 0) .vz 0 l).toNat % 256 = 0) ∧
    (four []).curWarp.execMask ⟨false, .none, true, 15⟩ = 0 ∧
    (63 ≤ (mod { at0 (seg 4) 0 0 [] with ldCnt := 63, stCnt := 63 }).curWarp.ldCnt ∧
      63 ≤ (mod { at0 (seg 4) 0 0 [] with ldCnt := 63, stCnt := 63 }).curWarp.stCnt) :=
  ⟨⟨by decide +kernel, by decide +kernel, by decide +kernel, by decide +kernel,
      places_of _ (by decide +kernel), places_of _ (by decide +kernel),
      lanes_of (by decide +kernel)⟩, by decide +kernel, by decide +kernel⟩

/-- The state of a warp before its window. -/
def ckpt : Checkpoint :=
  { regs := file [9], preds := [], pcs := List.replicate 64 0x1000, live := 0xF, segs := [seg 4], fpflags := 0, holds := [], engSeq := 0, resume := [], via := []
    poison := [], at_ := none }
/-- A window with events. -/
def win (evs : List WinEv) (hit : Bool) : Window := ⟨ckpt, evs, 1, 0, hit, [], 0, 0, 0⟩
/-- The module whose warp has that window and is not at a slot. -/
def opened (evs : List WinEv) (hit : Bool) : State := mod { at0 (seg 4) 0 0 [] with clause := none, window := some (win evs hit) }

/-- A store to a page that is not there; a full window; a read of a line that a claim holds; a read of bytes that the side log holds for want of
their page. -/
theorem witness_IssueEdges :
    (let s := four [0x4000, 0]
     let wp := s.curWarp
     (lanesOf (wp.execMask px)).all (fun l => match s.lanePlace s.cur l .store 8 (wp.ea (.v 0) .vz 0 8 l) with
       | .ok _ => false
       | .error e => e.toLog) = true) ∧
    (let s := mod { at0 (seg 4) 0 0 [0x40, 0xFFFFFF80] with window := some (win (List.replicate 64 (.token 0)) false) }
     let wp := s.curWarp
     wp.execMask px ≠ 0 ∧ wp.ldCnt < 63 ∧ wp.stCnt < 63 ∧ wp.hasRoom 1 = false ∧ wp.hasRoom (lanesOf (wp.execMask px)).length = false) ∧
    (let s := { four [0x4000, 0] with
       mem := ((((Memory.store [] 0x8000 8 0x9001).store 0x9000 8 0xA001).store 0xA000 8 0xB001).store 0xB000 8 0xC001).store 0xC000 8 0x040F
       homeOps := [⟨1, 0, false, 0, .hbm 0x4000, 0, 0, .claim (.ring 0), 0, 0, 0, .none⟩] }
     ((lanesOf (s.curWarp.execMask px)).any fun l =>
       (s.prefetched s.cur l (s.curWarp.ea (.v 0) .vz 0 4 l)).any fun x => !s.canRead (coreOf s.cur) x.loc) = true) ∧
    (let e : LogEnt := ⟨1, 0, 0, 0x4000, none, 8, 5, false, .none⟩
     let s := mod { at0 (seg 4) 0 0 [0x4000, 0] with
       sideLog := [e], clause := (at0 (seg 4) 0 0 []).clause.map fun c => { c with at_ := { c.at_ with lanes := 1 } } }
     let wp := s.curWarp
     lanesOf (wp.execMask px) = [0] ∧ wp.hasRoom 1 = true ∧ s.solo s.cur = false ∧
     s.readRaises s.cur (wp.execMask px) 8 (fun l => wp.ea (.v 0) .vz 0 8 l) = [] ∧
     (s.loadPlace s.cur 0 8 (wp.ea (.v 0) .vz 0 8 0)).loc.own = true ∧ (s.loadPlace s.cur 0 8 (wp.ea (.v 0) .vz 0 8 0)).xlat = none) := by
  decide +kernel

/-- A window that may commit a write of 8 bytes at `va`, which stands at `loc`. -/
def commits (s : State) (va : DWord) (loc : Loc) : Bool :=
  decide ((s.warp 0).irr = 0 ∧ (s.warp 0).sideLog = [] ∧ (∀ q ∈ s.cmds, q.2.warp = 0 → q.2.st ≠ .deferred) ∧ s.lineReady loc.line = true ∧
    s.wrapHeld (dieOf 0) loc = false ∧ s.signedTiles 0 = [] ∧ (∀ b ∈ s.bars, b.saved = none) ∧
    (∀ g ∈ (s.warp 0).segs, g.cause = none) ∧ s.mem.wf = true ∧ s.spad.wf = true) && stays s 0 0 va

/-- A write of 8 bytes at the top of a unit of scratchpad, one to HBM, and one to a page that is the core's own; a window that waits for a read, and
one for which the side log has no room. -/
theorem witness_CommitWrites :
    [Loc.spad 0 16376, .hbm 0x10008].all (fun loc =>
      commits (opened [.wr 1 0 0xFFFF_FF00_0000_3FF8 (some loc) 8 5 .none] false) 0xFFFF_FF00_0000_3FF8 loc) = true ∧
    (let y : Xlat := ⟨0, 5, 0, 4, 4, 0xC000, 2 ^ 21, false, true, true, true⟩
     let s := { opened [.wr 1 0 0x4000 (some (.hbm 0x4000)) 8 5 .none] false with mem := Memory.store [] 0xC000 8 (0x040F + 2 ^ 58), xlats := [y] }
     commits s 0x4000 (.hbm 0x4000) = true ∧ s.xlatOf 0 0 0x4000 = some y ∧ mgmtAt y.leafPa = none ∧ s.lineReady (y.leafPa / 128) = true ∧
     s.wrapHeld (agentDie y.agent) (.hbm y.leafPa) = false ∧ 0x4000 + 8 ≤ y.leafPa) ∧
    ((opened [.rd 1 0 0 (.hbm 0x10000) 8 none] false).warp 0).settled = false ∧
    (let e : LogEnt := ⟨1, 0, 0, 0x4000, none, 8, 5, false, .none⟩
     let wp := { (opened [.wr 1 0 0x4000 none 8 5 .none] false).warp 0 with sideLog := List.replicate 256 e }
     wp.settled = true ∧ wp.logRoom = false ∧ wp.fullTold = false ∧ wp.segs.head? = some (seg 4)) := by
  decide +kernel

/-- A landing that one lane has signed for good and one tentatively. -/
def tentative : Landing :=
  { Landing.reset with st := .signing, signers := [(0, ⟨0, 0, 0, true, 0, false⟩), (1, ⟨0, 0, 0, false, 0, false⟩)] }

theorem witness_Rollback : ((opened [] true).warp 0).window = some (win [] true) ∧ (win [] true).hit = true ∧
    ((opened [] true).warp 0).segAt 0 = some (seg 4) ∧ (win [] true).ckpt.segs.find? (fun h => h.lbase == 0 && h.gid == (seg 4).gid) = some (seg 4) ∧
    (let s := { opened [] true with cores := [(0, { Core.reset with landings := setAt Core.reset.landings 2 tentative })] }
     (s.landing 0 2).warp = 0 ∧ (s.landing 0 2).st ≠ .free) := by decide +kernel

/-- A complete result of one register for two lanes. -/
def res : Res :=
  { id := 1, ctr := .load, dst := .v 4, words := 1, ty := .i8, lanes := 0b11, vals := [(0, 0x80), (1, 0x7F)], shape := .general, cover := .part, fill := 0
    flags := 0, pdst := none, pbits := 0, pmask := 0, spec := false, gens := [(0, 1, 3)], hint := .none
    hdr := 0x1000, slot := 0, under := 0, run := 0, lost := [(0, 0b10)], plost := 0, gain := 0 }
/-- A side log with one entry for the scratchpad. -/
def ent : LogEnt := ⟨1, 0, 0, 0xFFFF_FF00_0000_0010, some (.spad 0 16), 4, 0xAABBCCDD, false, .none⟩

theorem witness_ReadsAndArrivals :
    (let s := opened [.rd 1 0 0xFFFF_FF00_0000_0008 (.spad 0 8) 8 none] false
     stays s 0 0 0xFFFF_FF00_0000_0008 = true ∧ s.canRead 0 (.spad 0 8) = true ∧ s.poisoned (.spad 0 8) 8 = false) ∧
    (let s := mod { at0 (seg 4) 0 0 [] with results := [res], stores := [⟨2, [], false, 0⟩], ldCnt := 1, stCnt := 1 }
     ((s.warp 0).results.find? fun r => r.id == 1) = some res ∧ res.complete = true ∧ res.ctr = .load ∧ res.pdst = none ∧ s.staleGids res = [] ∧
     s.freshSlots 0 res &&& res.lanes = res.lanes ∧ ((s.warp 0).stores.filter fun r => r.owed.isEmpty && !r.spec) ≠ []) ∧
    (let s := mod { at0 (seg 4) 0 0 [] with sideLog := [ent] }
     ent.sent = false ∧ ent.loc.isSome = true ∧ s.lanePlace 0 ent.lane .store ent.n ent.va = .ok ⟨.spad 0 16, none⟩ ∧
     s.wrapHeld (dieOf 0) (.spad 0 16) = false ∧
     s.lineReady (Loc.spad 0 16).line = true ∧ stays s 0 ent.lane ent.va = true ∧ s.mem.wf = true ∧ s.spad.wf = true) := by
  decide +kernel

/-- Entries of a side log for HBM, one whose page has come, as it waits for its line, and one in a page that is the core's own. -/
theorem witness_DrainPlaces :
    (let e : LogEnt := ⟨1, 0, 0, 0x4000, none, 8, 5, false, .none⟩
     let s := { mod { at0 (seg 4) 0 0 [] with sideLog := [e], logDrain := true } with
       mem := ((((Memory.store [] 0x8000 8 0x9001).store 0x9000 8 0xA001).store 0xA000 8 0xB001).store 0xB000 8 0xC001).store 0xC000 8 (0x040F + 2 ^ 58) }
     (e.loc.isSome || (s.warp 0).logDrain) = true ∧
     (match s.lanePlace 0 0 .store 8 0x4000 with
       | .ok ⟨.hbm pa, some x⟩ => decide (pa = 0x4000) && !s.wrapHeld 0 (.hbm pa) && s.lineReady (Loc.hbm pa).line && stays (s.keepXlat x) 0 0 0x4000 &&
           !({ s with homeOps := [⟨1, 0, false, 0, .hbm 0x4000, 0, 0, .claim (.ring 0), 0, 0, 0, .none⟩] } : State).lineReady (Loc.hbm pa).line
       | _ => false) = true ∧ s.mem.wf = true ∧ s.spad.wf = true) := by
  decide +kernel

theorem judgedPlaces_of {m : Mask} (s : State) (n : Nat) (f : Nat → Except XErr Place)
    (h : ∀ l, l < 64 → m.getLsbD l = true → (match f l with
      | .ok q => !s.poisoned q.loc n && !s.wrapHeld (dieOf s.cur) q.loc
      | _ => false) = true) : ∀ l, m.getLsbD l = true → ∃ q, f l = .ok q ∧ s.poisoned q.loc n = false ∧ s.wrapHeld (dieOf s.cur) q.loc = false := by
  intro l hl
  have k := h l (getLsbD_lt hl) hl
  match hf : f l with
  | .ok q => exact ⟨q, rfl, by simpa [hf] using k⟩
  | .error _ => simp [hf] at k

theorem witness_AtomicOperations :
    (let s := four [0x40, 0xFFFFFF00]
     let wp := s.curWarp
     let m := wp.execMask px
     m ≠ 0 ∧ wp.mayAct = true ∧ wp.ldCnt < 63 ∧ wp.stCnt < 63 ∧ ∀ l, m.getLsbD l = true → ∃ q,
       s.lanePlace s.cur l .atomic 8 (wp.val64 (.v 0) l) = .ok q ∧ s.poisoned q.loc 8 = false ∧ s.wrapHeld (dieOf s.cur) q.loc = false) ∧
    ([Loc.spad 0 8, .hbm 0x10008].all fun loc =>
      let o : HomeOp := ⟨0, 1, false, 1, loc, 0xFFFF_FF00_0000_0008, 4, .red .add .i32, 5, 0, 0, .none⟩
      let s : State := { mod { at0 (seg 4) 0 0 [] with results := [res] } with homeOps := [o] }
      decide (s.leaseFree o.loc.line = true ∧ s.atHome o.loc.line o = true ∧ (s.warp 0).results = [res] ∧ res.id = o.recId ∧
        o.store = false ∧ o.lane < 64 ∧ res.lanes.getLsbD o.lane = true ∧ s.spad.wf = true ∧ s.mem.wf = true ∧ o.mates { o with lane := 0 } = true ∧
        res.lanes.getLsbD 0 = true ∧ s.xlats = [] ∧ mgmtAt 0x10008 = none) && stays s 0 1 o.va) = true ∧
    (let q : HomeOp := ⟨1, 1, true, 0, .hbm 0x1000, 0x1000, 4, .red .add .i32, 5, 0, 0, .none⟩
     let o : HomeOp := { q with warp := 2 }
     let s := { State.reset with homeOps := [q, o] }
     let t := s.onDie 0 fun d => { d with serial := ⟨some 2, 0, []⟩ }
     s.leaseFree 0x20 = true ∧ (s.homeOps.all fun x => s.atHome 0x20 x && !s.favoured x) = true ∧ s.homeOps.find? (s.atHome 0x20) = some q ∧
     t.leaseFree 0x20 = true ∧ t.homeOps.find? (fun x => t.atHome 0x20 x && t.favoured x) = some o ∧
     s.outOfTurn q = false ∧ t.outOfTurn o = false ∧ s.opClassWaits q = false ∧ t.opClassWaits o = false) :=
  ⟨⟨by decide +kernel, by decide +kernel, by decide +kernel, by decide +kernel,
    judgedPlaces_of _ 8 _ (by decide +kernel)⟩, by decide +kernel, by decide +kernel⟩

/-- A `DRAIN` that waits in lane 0. -/
def drainHold : LaneHold := ⟨.drain, 0x1000, 0, 0xfa990ff00ffff00, 0, 0, 1, []⟩

theorem witness_ThreadsAndBarriers :
    (let s := four [0xF, 0]
     let m := s.curWarp.execMask px
     Alone s (seg 4) m ∧ (seg 4).lead m = some 0 ∧ s.curWarp.mayAct = true ∧ s.syncFault (seg 4) m .lane true (.v 0) = none ∧
     s.group 1 = some grp ∧ s.bars = [] ∧
     s.barComplete ⟨.lane, 0xF, s.barUnit .lane 1 0, 0, (lanesOf 0xF).map fun l => (1, 0, l), [], none, false, 0, false, 0, none⟩ = true) ∧
    (let s := split (seg 4) 0b0011
     s.curWarp.execMask p1 = 3 ∧
     s.barComplete ⟨.lane, 0xF, s.barUnit .lane 1 0, 0, (lanesOf 3).map fun l => (1, 0, l), [], none, false, 0, false, 0, none⟩ = false) ∧
    (mod { at0 (seg 4) 0 0 [] with stCnt := 1 }).drained 0 = false ∧
    (let s := mod { at0 (seg 4) 0 0 [] with clause := none, holds := [(0, drainHold)] }
     let waits := (s.warp 0).drainWaits s.now
     s.drained 0 = true ∧ waits ≠ [] ∧ (∀ q ∈ waits, q.2 = drainHold ∧ (seg 4).hasLane q.1 = true) ∧
     (s.warp 0).segsIn (waits.foldl (fun m q => m ||| laneBit q.1) 0) = [seg 4] ∧ decodeAlone drainHold.word = .ok (.drain px .lane (.v 0))) := by
  refine ⟨⟨alone_of (by decide +kernel), by decide +kernel⟩, by decide +kernel, by decide +kernel, by decide +kernel⟩

theorem witness_GroupQueues :
    ((qu 2).entries.length = 64 ∧ (qu 2).owners.length = 64 ∧ (qu 2).head < 64 ∧ (qu 2).tail = ((qu 2).head + (qu 2).count) % 64 ∧ (qu 2).count + 2 ≤ 64) ∧
    ∀ n ∈ [(0 : Word), 2],
      let s := four [1, n]
      Alone s (seg 4) (s.curWarp.execMask px) ∧ (seg 4).lead (s.curWarp.execMask px) = some 0 ∧ s.curWarp.mayAct = true ∧ s.curWarp.quCnt < 63 ∧
      (s.curWarp.clause.map fun c => (c.turns, c.resId)) = some (0, 0) ∧ (s.curWarp.results.any fun r => r.id == s.curWarp.nextId + 1) = false ∧
      s.queueFault (seg 4) (s.curWarp.execMask px) (.v 1) = none ∧ s.queue 1 n.toNat = some (qu (2 * n.toNat)) ∧
      ((qu 0).canPush 0 = true ∧ (qu 4).canPush 0 = false ∧ (qu 4).count ≠ 0 ∧ (qu 0).count = 0) := by
  refine ⟨by decide +kernel, ?_⟩
  intro n hn
  rcases List.mem_cons.mp hn with rfl | hn
  · exact ⟨alone_of (by decide +kernel), by decide +kernel⟩
  · rcases List.mem_cons.mp hn with rfl | hn
    · exact ⟨alone_of (by decide +kernel), by decide +kernel⟩
    · cases hn

/-- One lane of `four` at the slot. -/
def one (vs : List Word) : State :=
  mod { at0 (seg 4) 0 0 vs with clause := (at0 (seg 4) 0 0 vs).clause.map fun c => { c with at_ := { c.at_ with lanes := 1 } } }
/-- A worker queue's task. -/
def task : Task := ⟨2, 0, 0, 0, 0, 7, noCtr, noCtr, 0, 0, 0x1000, 5, 0, 3⟩
/-- The module with task queues 0 (open), 1 (closed) and 2 (open and empty), and counter 0. -/
def tasks (vs : List Word) : State :=
  { one vs with taskqs := [(0, ⟨true, 4, false, none, [task]⟩), (1, ⟨true, 4, true, none, []⟩), (2, ⟨true, 4, false, none, []⟩)], depctrs := [(0, ⟨5, []⟩)]
                mem := ((List.range 8).map fun k => (0x10018 + k, 0xFF)) }

theorem witness_TaskQueues :
    (let s := tasks [0, 0xFFFFFF80, 0]
     Alone s (seg 4) (s.curWarp.execMask px) ∧ s.curWarp.execMask px = laneBit 0 ∧ (seg 4).lead (s.curWarp.execMask px) = some 0 ∧ s.curWarp.mayAct = true ∧
     (s.curWarp.clause.map fun c => (c.turns, c.resId)) = some (0, 0) ∧ (s.curWarp.results.any fun r => r.id == s.curWarp.nextId + 1) = false ∧
     s.taskq 0 = some (0, ⟨true, 4, false, none, [task]⟩) ∧ s.curWarp.stCnt < 63 ∧ s.enqErr 0 0 (s.curWarp.val64 (.v 0) 0) 0 = none ∧
     s.taskCount 0 < 4 ∧ (s.readStruct 0 0 (s.curWarp.val64 (.v 0) 0)).toOption.map (fun r => (taskOf r 0 0).dcw) = some noCtr ∧
     (s.okPlace 0 0 .load 64 (s.curWarp.val64 (.v 0) 0)).xlat = none ∧ bestTask [task] = some task) ∧
    ((tasks [0, 0xFFFFFF80, 0]).deqFault (seg 4) 1 (.v 2) = none ∧ (tasks [0, 0xFFFFFF80, 1]).deqFault (seg 4) 1 (.v 2) = none ∧
      (tasks [0, 0xFFFFFF80, 2]).deqFault (seg 4) 1 (.v 2) = none ∧ ((tasks []).taskq 1).isSome = true ∧ ((tasks []).taskq 2).isSome = true) := by
  refine ⟨⟨alone_of (by decide +kernel), by decide +kernel⟩, by decide +kernel⟩

/-- `four` with counter 0 at `v`. -/
def counted (v : Word) (vs : List Word) : State := { four vs with depctrs := [(0, ⟨v, []⟩)] }

/-- Four lanes that name one counter, sums that stay in the range and one at each end of it, tasks that wait, and lanes beyond the value. -/
theorem witness_DependenceCounters :
    (let s := counted 20 [0, 0xFFFFFFFB]
     let wp := s.curWarp
     let m := wp.execMask px
     let mine := fun key : Nat => (lanesOf m).filter fun l => ctrKey (wp.val32 (.v 0) l) == some key
     Alone s (seg 4) m ∧ m ≠ 0 ∧ wp.mayAct = true ∧ wp.stCnt < 63 ∧ (∀ l, m.getLsbD l = true → (s.depctr (wp.val32 (.v 0) l)).isSome = true) ∧
     s.depctrs = [(0, ⟨20, []⟩)] ∧ mine 0 = [0, 1, 2, 3] ∧
     (∀ n ∈ List.range 5, let x := ((20 : Word).toNat : Int) + (((mine 0).take n).map fun l => (wp.val32 (.v 1) l).toInt).sum
       0 ≤ x ∧ x < 2 ^ 32) ∧ (mine 0).length ≤ (20 : Word).toNat) ∧
    ((0xFFFFFFFB : Word).toNat : Int) + (5 : Word).toInt = 2 ^ 32 ∧ ((0 : Word).toNat : Int) + (0xFFFFFFFF : Word).toInt = -1 ∧
    (let s := { tasks [0, 0xFFFFFFFF] with depctrs := [(0, ⟨1, [(2, task)]⟩)] }
     let wp := s.curWarp
     Alone s (seg 4) (wp.execMask px) ∧ wp.execMask px = laneBit 0 ∧ (seg 4).lead (wp.execMask px) = some 0 ∧ wp.mayAct = true ∧ wp.stCnt < 63 ∧
     s.depctr (wp.val32 (.v 0) 0) = some (0, ⟨1, [(2, task)]⟩) ∧ s.taskqs.find 2 = some ⟨true, 4, false, none, []⟩ ∧
     ((1 : Word).toNat : Int) + (wp.val32 (.v 1) 0).toInt = 0 ∧ wp.val32 (.v 2) 0 = 0) ∧
    (let s := counted 2 [0]
     let wp := s.curWarp
     let m := wp.execMask px
     Alone s (seg 4) m ∧ wp.mayAct = true ∧ wp.stCnt < 63 ∧ (∀ l, m.getLsbD l = true → s.depctr (wp.val32 (.v 0) l) = some (0, ⟨2, []⟩)) ∧
     (2 : Word) ≠ 0 ∧ (2 : Word).toNat < (lanesOf m).length) ∧
    (seg 4).record = none ∧ (seg 4).handler = 0 := by
  refine ⟨⟨alone_of (by decide +kernel), by decide +kernel, by decide +kernel, by decide +kernel, lanes_of (by decide +kernel), by decide +kernel⟩,
    by decide +kernel, by decide +kernel, ⟨alone_of (by decide +kernel), by decide +kernel⟩,
    ⟨alone_of (by decide +kernel), by decide +kernel, by decide +kernel, lanes_of (by decide +kernel), by decide +kernel⟩, by decide +kernel⟩

/-! ### Galleries, matrices, engines -/

/-- A gallery of context 5 under the name 6, at a backing region of the stack's memory. -/
def gal (st : GalSt) (acnt : Word) : Gal := ⟨5, 6, 1, 0xFFFF_FF80_0000_4000, 0, acnt, st, 0, 8, [], none, 0, 0⟩
/-- `four` with galleries, whose name is in v0 and v1, a backing address in v2 and v3, and a size in v4. -/
def gals (es : List Gal) (held : Bool) : State :=
  { mod (at0 (seg 4) 0 0 [6, 0, 0x4000, 0xFFFFFF80, 48]) with
    gals := es.mapIdx fun i e => (i + 1, e)
    groups := [(1, { grp with gals := if held then [(6, 16384)] else [] })] }

/-- What all of `GalleryInstructions` asks of a state. -/
def galReady (s : State) : Bool :=
  let wp := s.curWarp
  let m := wp.execMask px
  (seg 4).lead m == some 0 && wp.mayAct && ((wp.clause.map fun c => (c.turns, c.resId)) == some (0, 0)) && wp.val64 (.v 0) 0 != 0 &&
    (wp.unifFault (seg 4) m [(5, true, .v 0)]).isNone && (s.group 1).isSome && decide (wp.stCnt < 63) && decide (wp.ldCnt < 63) &&
    !(wp.results.any fun r => r.id == wp.nextId + 1)

/-- No gallery, one in each state of `st` and `acnt`, held by the group or not. -/
theorem witness_GalleryInstructions :
    (∀ held : Bool, ∀ es ∈ ([[], [gal .resident 0], [gal .evicted 1]] : List (List Gal)), Alone (gals es held) (seg 4) ((gals es held).curWarp.execMask px)) ∧
    ([[], [gal .resident 0], [gal .evicted 0], [gal .filling 0], [gal .writingBack 0], [gal .resident 1]].all fun es =>
      galReady (gals es false) && galReady (gals es true)) = true ∧
    (let s := { gals [{ gal .evicted 0 with name := 7, back := 0xFFFF_FF80_0000_0000 }] false with }
     let wp := s.curWarp
     s.findGal 5 6 = none ∧ wp.unifFault (seg 4) (wp.execMask px) [(5, true, .v 0), (6, true, .v 2), (7, false, .v 4)] = none ∧
     1 ≤ (wp.val32 (.v 4) 0).toNat ∧ (wp.val32 (.v 4) 0).toNat ≤ 48 ∧ (wp.val64 (.v 2) 0).toNat % 16384 = 0 ∧
     (s.gals.filter fun q => q.2.ctx == 5).length < 256 ∧
     ∀ q ∈ s.gals, q.2.back.toNat + q.2.size * 16384 ≤ (wp.val64 (.v 2) 0).toNat) ∧
    ([GalSt.resident, .evicted, .filling, .writingBack].all fun st => decide ((gals [gal st 0] false).findGal 5 6 = some (1, gal st 0) ∧
      (gals [gal st 0] false).gals.find 1 = some (gal st 0) ∧ (gal st 0).acnt = 0 ∧ (gal st 0).waiters = [] ∧
      (gals [gal st 0] false).overtakes (gal st 0) 0 0 = false)) = true ∧
    (gal .resident 1).acnt ≠ 0 ∧
    (let s := gals [gal .resident 1] true
     let t : State := { s with warps := s.warps.mapV fun _ (wp : Warp) => { wp with sideLog := [⟨1, 0, 0, 0, some (.spad 0 (8 * 16384)), 4, 0, false, .none⟩] } }
     (s.group 1).map (fun x => x.gals.find? fun y => y.1 == 6) = some (some (6, 16384)) ∧
     s.accessPending 1 0 (8 * 16384) 16384 16384 = false ∧ t.accessPending 1 0 (8 * 16384) 16384 16384 = true) := by
  refine ⟨?_, by decide +kernel⟩
  intro held es hes
  simp only [List.mem_cons, List.not_mem_nil, or_false] at hes
  cases held <;> rcases hes with rfl | rfl | rfl <;> exact alone_of (by decide +kernel)

/-- Attachments that return at once, that cannot have room, and that wait for a fill, a migration or another operation. -/
theorem witness_GalleryAttach :
    (let s := gals [gal .resident 0] false
     (gal .resident 0).core = coreOf s.cur ∧ (gal .resident 0).acnt ≠ 0xFFFF_FFFF#32 ∧ ((s.group 1).map fun x => (x.gals.length, s.viewOffset x 5 1)) = some (0, some 1)) ∧
    ((four []).viewOffset { grp with gals := [] } 5 64 = none ∧ 8 ≤ ({ grp with gals := List.replicate 8 (9, 0) } : Group).gals.length) ∧
    (let s := gals [gal .evicted 0] false
     freeRange (s.spadUsed 0 []) 1 = some 1 ∧ (s.gals.filter fun q => q.2.onCore 0).length < 8) ∧
    (({ gal .resident 0 with core := 1 } : Gal).core ≠ 0 ∧
     (gals [{ gal .resident 0 with core := 1 }] false).findGal 5 6 = some (1, { gal .resident 0 with core := 1 }) ∧
     (gals [{ gal .resident 0 with core := 1 }] false).overtakes { gal .resident 0 with core := 1 } 0 0 = false) ∧
    (gals [gal .evicted 0] false).evictPlan 0 64 true = none ∧
    (gals [gal .resident 0] false).attWaits (seg 4) grp (gal .resident 0) = false ∧
    (gals [gal .resident 0] false).overtakes { gal .resident 0 with waiters := [(17, 0, true)] } 0 0 = true := by
  decide +kernel

/-- A page table that maps the addresses from 0 to 2 MiB to themselves, readable and writable. -/
def mapped : Memory :=
  ((((Memory.store [] 0x8000 8 0x9001).store 0x9000 8 0xA001).store 0xA000 8 0xB001).store 0xB000 8 0xC001).store 0xC000 8 0x040F

/-- A gallery whose backing region cannot be reached, as its context maps nothing; one that another needs to leave. -/
theorem witness_GalleryMoves :
    (gals [gal .filling 0] false).gals.find 1 = some (gal .filling 0) ∧ (gal .filling 0).hid = 0 ∧
    ((gals [gal .filling 0] false).backing (gal .filling 0) .load).toOption = none ∧
    ((gals [gal .writingBack 0] false).backing (gal .writingBack 0) .store).toOption = none ∧
    (let s := { gals [gal .resident 0, { gal .evicted 0 with name := 7, size := 63, back := 0x100000, waiters := [(0, 0, false)] }] false with }
     s.gals.find 1 = some (gal .resident 0) ∧ s.wantsSpace 1 0 = true) ∧
    (gals [gal .resident 0] false).wantsSpace 1 0 = false := by
  decide +kernel

theorem witness_GalleryBacking :
    (let e := { gal .filling 0 with back := 0x4000, waiters := [(0, 0, false)] }
     let s := { gals [e] false with mem := mapped }
     (s.backing e .load).toOption.map (s.piecesReadable 0) = some true ∧ ((s.warp 0).segAt 0).map Seg.gid = some 1 ∧ (s.group 1).map Group.gals = some [] ∧
     ((s.group 1).map fun x => s.viewOffset x 5 1) = some (some 1) ∧
     ({ s with homeOps := [⟨noWarp, 0, false, 0, .hbm 0x4000, 0, 16, .claim (.ring 0), 0, 0, 0, .none⟩] } : State).piecesReadable 0 [⟨0x4000, 16, .hbm 0x4000, none⟩] = false) ∧
    (let e := { gal .writingBack 0 with back := 0x4000 }
     let s := { gals [e] false with mem := mapped }
     (s.backing e .store).toOption.map (fun ps => (pieceLines ps).all fun l => s.lineReady l && !s.wrapHeld 0 (.hbm (l * 128))) = some true ∧ e.target = none) := by
  decide +kernel

/-- A segment of 64 lanes at a slot, with record addresses 0x40 and 0x80 in v0 to v3. -/
def wide : State := mod (at0 (seg 64) 0 0 [0x40, 0, 0x80, 0, 1, 2, 3])

theorem witness_Signatures :
    (let wp := wide.curWarp
     let m := wp.execMask px
     Alone wide (seg 64) m ∧ (seg 64).lead m = some 0 ∧ wp.unifFault (seg 64) m [(5, true, .v 0), (6, true, .v 2), (8, false, .v 4)] = none ∧
     (wide.landing 0 7).st = .free ∧ (wide.core 0).landings.length = 8 ∧ (seg 64).width = 64 ∧ (wide.tileOf 1 0).isSome = true ∧
     (wide.tileOf 1 1).isSome = true ∧ wp.window = none ∧ ((List.range 2).all fun t => !wide.landingNow 0 t) = true ∧ (wp.val64 (.v 0) 0).toNat % 64 = 0 ∧ (wp.val64 (.v 2) 0).toNat % 64 = 0 ∧ (2 : BitVec 2).toNat ≤ 2) ∧
    (Alone (four []) (seg 4) ((four []).curWarp.execMask px) ∧ (seg 4).width ≠ 64 ∧ (seg 4).record = none ∧ (seg 4).handler = 0 ∧
     (four []).curWarp.unifFault (seg 4) ((four []).curWarp.execMask px) [(5, true, .v 0), (6, true, .v 2), (8, false, .v 4)] = none) := by
  refine ⟨⟨alone_of (by decide +kernel), by decide +kernel⟩, ⟨alone_of (by decide +kernel), by decide +kernel⟩⟩

theorem witness_Accumulators :
    (let s := four [1, 63, 64]
     let wp := s.curWarp
     let m := wp.execMask px
     Alone s (seg 4) m ∧ (seg 4).lead m = some 0 ∧ wp.unifFault (seg 4) m [(5, false, .v 0)] = none ∧
     wp.unifFault (seg 4) m [(5, false, .v 0), (6, false, .v 1)] = none ∧ s.tileOf 1 1 = some 1 ∧ 1 < (s.core 0).tiles.length ∧ wp.window = none ∧
     (wp.val32 (.v 1) 0).toNat ≤ 63 ∧ wp.ldCnt < 63 ∧ s.landingDue 0 1 = false ∧ s.tileBusy 0 1 = false ∧ 63 < (wp.val32 (.v 2) 0).toNat ∧
     wp.unifFault (seg 4) m [(5, false, .v 0), (6, false, .v 2)] = none) ∧
    (mod { at0 (seg 4) 0 0 [1, 63] with window := some (win [] false) }).curWarp.window = some (win [] false) ∧
    ({ four [1, 63] with groups := [(1, { grp with tiles := [0] })] } : State).tileOf 1 1 = none ∧ (seg 4).record = none ∧ (seg 4).handler = 0 := by
  refine ⟨⟨alone_of (by decide +kernel), by decide +kernel⟩, by decide +kernel⟩

/-- A landing that all of its lanes have signed. -/
def landed : Landing := ⟨.complete, 0, 0, 0xC1, 0, 0x40, 0x80, 0, 0b11, [(0, ⟨0, 0, 0, true, 0, false⟩), (1, ⟨0, 0, 0, true, 0, false⟩)], 0, false, 0⟩
/-- Core 0 with tile 0's sequence and landing 2. -/
def core0 (seq : List TileOp) (d : Landing) : State :=
  { mod (at0 (seg 64) 0 0 []) with cores := [(0, { Core.reset with tiles := [⟨some 1, [], seq⟩, Tile.reset], landings := setAt Core.reset.landings 2 d })] }
/-- Two records of E4M3 matrices of 2 rows and 2 columns at offsets 0x40 and 0x100 of the stack's memory. -/
def records : Memory :=
  let at_ := fun (m : Memory) (a : Nat) => ((((m.store a 8 0xFFFF_FF80_0000_0200).store (a + 8) 2 0x20D).store (a + 32) 4 2).store (a + 36) 4 2).store (a + 64) 8 1
  at_ (at_ [] 0x10040) 0x10100
/-- An operation on them that has its records, and what it has read of its operands. -/
def mmaOp (got : Tab (List Byte × BitVec 4)) : MmaOp :=
  ⟨2, 0xC1, 0xFFFF_FF80_0000_0040, 0xFFFF_FF80_0000_0100, 0, 0b11, [], 0, 0, 0, 0, 1, 3, 4,
    [(0, records.bytes 0x10040 192), (1, records.bytes 0x10100 192)], got⟩
/-- The line of the matrices. -/
def mmaLine : Nat := 0xFFFF_FF80_0000_0200 / 128

theorem witness_LandingsAndTiles :
    (let s := core0 [.zero] landed
     (s.tile 0 0).seq = .zero :: [] ∧ 0 < (s.core 0).tiles.length ∧ s.landing 0 2 = landed ∧ landed.st = .complete ∧ 2 < (s.core 0).landings.length ∧
     s.landingGroup landed = some 1 ∧ s.tileOf 1 landed.tile = some 0 ∧ s.opsOf 0 2 < 2 ∧ s.inGang 1 = false ∧ s.landingBehind 0 2 = false) ∧
    (List.Pairwise (fun x z => x.1 ≠ z.1) [(0, (5 : BitVec 256)), (63, 6)] ∧ ∀ q ∈ [(0, (5 : BitVec 256)), (63, 6)], q.1 < 64) ∧
    (let s := { core0 [.read 0 1 63 0b11 .f32] landed with warps := [(0, { at0 (seg 64) 0 0 [] with results := [res] })] }
     (s.warp 0).results = [res] ∧ res.id = 1 ∧ res.lanes = 0b11) ∧
    (let s := { core0 [] landed with launches := [(1, { lau with gang := true })] }
     s.inGang 1 = true ∧ s.gangs 1 = [[(1, grp)]] ∧ grp.core = 0 ∧ grp.gmem = 0) := by
  decide +kernel

/-- An operation whose one line is read, first of its core; that line still to be read; and a lease of another claimant in the way. -/
theorem witness_TileReads :
    (let op := mmaOp [(mmaLine, [], 0)]
     let s := { core0 [.mma op] landed with mem := records }
     s.opStale op = false ∧ op.next = .full ∧ s.opFirst 0 op = true) ∧
    (let op := mmaOp []
     let s := { core0 [.mma op] landed with mem := records }
     let r := OpRead.line mmaLine 0xFFFF_FF80_0000_0200 1
     let x : Piece := ⟨0xFFFF_FF80_0000_0200, 128, .hbm 0x10200, none⟩
     op.next = .reads [r] ∧ s.tileReads 0 0 = [(op, r)] ∧ (s.opPieces 0 op r).toOption = some [x] ∧ s.piecePoison [x] = none ∧
     ({ s with homeOps := [⟨noWarp, 0, false, 0, .hbm 0x10200, 0, 128, .claim (.ring 0), 0, 0, 0, .none⟩] } : State).tileReads 0 0 = []) := by
  decide +kernel

/-- A command whose descriptor copies one row of 16 bytes within the scratchpad, with what it has read and written. -/
def copyCmd (gid : Option Nat) (got : Tab (List Byte × BitVec 4)) (wrote : List Nat) : Cmd :=
  { cell := 0xD0, seq := 1, warp := 0, lbase := 0, gid := gid, gen := 3, desc := 0xFFFF_FF00_0000_0040
    image := some (BitVec.ofNat 512 (0xFFFF_FF00_0000_0000 + 2 ^ 64 * 0xFFFF_FF00_0000_0100 + 2 ^ 128 * 16 + 2 ^ 160 + 2 ^ 256 * 4))
    acq := false, rel := false, st := .released, job := none, ctx := 5, fn := 0, die := 0, token := false, hid := 0, since := 0, insn := 7, upto := 0
    lanes := 0xF, pos := 0, gain := false, eng := none, judged := false, ready := false, got := got, wrote := wrote, staged := none, stagedBad := []
    spoiled := false }

theorem witness_Engines :
    (let s := four [0x40, 0]
     let m := s.curWarp.execMask px
     Alone s (seg 4) m ∧ (seg 4).lead m = some 0 ∧ s.curWarp.enCnt < 63 ∧ s.curWarp.unifFault (seg 4) m [(5, true, .v 0)] = none ∧
     (s.curWarp.val64 (.v 0) 0).toNat % 64 = 0 ∧ (s.curWarp.val64 (.v 0) 0 + 8).toNat % 64 ≠ 0 ∧ s.cmds = [] ∧ s.curWarp.window = none) ∧
    (let s := four [0x40, 0xFFFFFF00]
     s.descWaits ({ copyCmd (some 1) [] [] with desc := s.curWarp.val64 (.v 0) 0 } : Cmd) = false ∧
     (match s.place ({ copyCmd (some 1) [] [] with desc := s.curWarp.val64 (.v 0) 0 } : Cmd).descAsker 1 .load 64 (s.curWarp.val64 (.v 0) 0) with
       | .ok ⟨.spad k o, none⟩ => decide (k = 0 ∧ o = 0x40 ∧ s.curWarp.sideLog = [])
       | _ => false) = true) ∧
    (63 ≤ (mod { at0 (seg 4) 0 0 [] with enCnt := 63 }).curWarp.enCnt ∧ (mod { at0 (seg 4) 0 0 [] with window := some (win [] false) }).curWarp.window.isSome = true) ∧
    (let s := { four [1] with cmds := [(7, copyCmd (some 1) [] [])] }
     let waits := fun (s : State) => s.cmds.any fun c => c.2.warp == s.cur && c.2.gid.isSome && c.2.seq == s.curWarp.val32 (.v 0) 0 && !c.2.token
     ((s.curWarp.segsIn (s.curWarp.execMask px)).filterMap fun g => g.lead (s.curWarp.execMask px)) = [0] ∧ waits s = true ∧ waits (four [1]) = false ∧
     (four []).curWarp.hasRoom 1 = true ∧ (four []).solo 0 = false ∧
     ({ at0 (seg 4) 0 0 [] with window := some (win (List.replicate 64 (.token 0)) false) } : Warp).hasRoom 1 = false) := by
  refine ⟨⟨alone_of (by decide +kernel), by decide +kernel⟩, by decide +kernel⟩

/-- The plan of that command's copy, and what a state can do of it next. -/
def copyEvents (s : State) (c : Cmd) : Option (Bool × Bool × List EngEvent) :=
  match c.image with
  | some d => match planCopy c d, s.engineFor 7 c d with
    | .plan pl, some e =>
      let c1 : Cmd := { c with eng := some e, judged := true }
      let reads := s.engUnits (c1.asker d) 1 .load pl.reads fun k => (c.got.find k).isSome
      let writes := s.engUnits (c1.asker d) 1 .store pl.writes c.wrote.contains
      some ((s.engJudge (c1.asker d) 1 pl.reads pl.writes).isNone,
        (pl.writable reads writes).all fun x => (pieceLines [x.2.2]).all s.lineReady, s.engEvents 7 (e / 16) pl reads writes)
    | _, _ => none
  | none => none

theorem witness_EngineEvents :
    (let run := fun (c : Cmd) => copyEvents { four [] with cmds := [(7, c)] } c
     let rd : Piece := ⟨0xFFFF_FF00_0000_0000, 16, .spad 0 0, none⟩
     let wr : Piece := ⟨0xFFFF_FF00_0000_0100, 16, .spad 0 256, none⟩
     let bytes := List.replicate 16 (0 : Byte)
     run (copyCmd (some 1) [] []) = some (true, true, [.read 0 rd]) ∧ (four []).piecePoison [rd] = none ∧
     run (copyCmd (some 1) [(0, bytes, 0)] []) = some (true, true, [.write 0 0 wr]) ∧ wr.va.toNat % 128 + wr.n ≤ 128 ∧
     run (copyCmd (some 1) [(0, bytes, 0)] [0]) = some (true, true, [])) ∧
    (let c := copyCmd (some 1) [] []
     let s := { four [] with cmds := [(7, c)] }
     s.cmds.find 7 = some c ∧ c.st = .released ∧ s.cmdReach c = true ∧ s.acqReady c = true ∧
     ({ s with groups := [(1, { grp with placed := false })] } : State).cmdReach c = false ∧
     (match s.place c.descAsker 1 .load 64 c.desc with
       | .ok ⟨.spad k o, none⟩ => decide (k = 0 ∧ o = 0x40) && s.descFree c (.spad k o)
       | _ => false) = true ∧ (s.warp c.warp).sideLog = [] ∧
     (match planCopy c ((c.image.getD 0) ||| 2 ^ 300) with
       | .cause k => k == 0x95
       | _ => false) = true ∧
     (gatherBad c ((c.image.getD 0) ||| 2 ^ 400)).isSome = true ∧ (s.collBad c (c.image.getD 0)).isSome = true ∧
     (match planQuant c ((c.image.getD 0) ||| 2 ^ 500) with
       | .cause k => k == 0x95
       | _ => false) = true) ∧
    (let s := { four [] with spad := [(0x50, 1), (0x54, 1)] }
     emptyCopy 0xD0 (BitVec.ofNat 512 (s.spad.nat 0x40 64)) = false) ∧
    (let c := { copyCmd none [] [] with st := .moved, token := true, job := some 3 }
     c.st = .moved ∧ c.token = true ∧ c.hid = 0) ∧
    (let c := { copyCmd (some 1) [] [] with ready := true }
     c.token = false ∧ c.st = .released ∧ c.ready = true ∧ c.rel = false ∧ (four []).group 1 = some grp ∧ grp.placed = true ∧ grp.gen = c.gen) := by
  decide +kernel

/-! ### Issue, caches, placement -/

/-- Code at 0x1010: a header of class 0 and a `NOP`; the port of warp 0 has chosen it. -/
def coded : State :=
  { idle (seg 4) with mem := (mapped.store 0x1018 8 0x0F00_00FF_FFFF_FF00), cores := [(0, { Core.reset with chosen := [some (0, false), none] })] }
/-- `at0` with its slot held. -/
def heldAt (h : HeldBy) : State :=
  mod { at0 (seg 4) 0 0 [] with clause := (at0 (seg 4) 0 0 []).clause.map fun c => { c with held := some h, heldSince := some 3 } }

theorem witness_HeldSlots :
    ([HeldBy.irrevocable, .queue].all fun h => decide ((((heldAt h).warp 0).clause.map fun c => (c.held, c.parked)) = some (some h, false) ∧
      ((heldAt h).warp 0).mayAct = true)) = true ∧
    ((let s := heldAt .irrevocable
      { s with warps := s.warps.mapV fun _ (wp : Warp) => { wp with irr := 1 } }).warp 0).mayAct = false ∧
    ((four []).portBusy 0 0 = true ∧ coded.portBusy 0 0 = false ∧ (coded.refresh 0 0).firstReady 0 0 = some (0, false) ∧
      0 < (coded.core 0).chosen.length ∧ (coded.core (coreOf 0)).chosen.getD (portOf 0) none = some (0, false) ∧
      ((idle (seg 4)).core (coreOf 0)).chosen.getD (portOf 0) none = none ∧
      (let s := { idle (seg 4) with cores := coded.cores, warps := [(0, { at0 (seg 4) 0 0 [] with clause := none, live := 0 })] }
       ((s.dropChoice 0).dropYields 0).wouldIssue 0 = none ∧ (s.core 0).chosen.getD (portOf 0) none = some (0, false)) ∧
      (match ((coded.dropChoice 0).dropYields 0).wouldIssue 0 with
        | some (⟨m, hdr, none⟩, some (.clause h _ v)) => decide (m = 0xF ∧ hdr = 0x1010 ∧ h.cls ≠ 5 ∧ ∀ g ∈ (v.warp 0).segs, g.cause = none ∧ g.queue = [])
        | _ => false) = true) ∧
    (let s := mod { at0 (seg 4) 0 0 [] with clause := (at0 (seg 4) 0 0 []).clause.map fun c => { c with parked := true } }
     ((s.warp 0).clause.map fun c => (c.parked, decide (c.at_.slot ≤ c.at_.cnt))) = some (true, true) ∧
     (List.range 8).any (fun n => s.landingPends 0 n) = false ∧ (s.warp 0).ldCnt = 0 ∧ (s.warp 0).stCnt = 0 ∧ (s.warp 0).enCnt = 0 ∧ (s.warp 0).quCnt = 0) ∧
    (mod { at0 (seg 4) 0 0 [] with quCnt := 1 }).curWarp.quCnt ≠ 0 := by
  decide +kernel

/-- A window that waits to read a line, or to own it. -/
def wants (pa : Nat) : State := opened [.rd 1 0 0 (.hbm pa) 8 none] false
def asks (pa : Nat) : State :=
  { mod { at0 (seg 4) 0 0 [] with clause := none, window := some { win [] false with sig := ~~~0 } } with
    homeOps := [⟨0, 0, false, 0, .hbm pa, 0, 0, .claim (.commit 0), 0, 0, 0, .none⟩] }
/-- A page of its own that core 0 reads. -/
def own : State :=
  { opened [.rd 1 0 0x4000 (.hbm 0x4000) 8 none] false with
    mem := mapped.store 0xC000 8 (0x040F + 2 ^ 58), xlats := [⟨0, 5, 0, 4, 4, 0xC000, 2 ^ 21, false, true, true, true⟩] }

/-- Line 0x200 is homed on die 0; the first line of die 1 is 0x24_0000_0000 / 128. -/
theorem witness_CacheEvents :
    (let s := wants 0x10000
     homeDie (0x200 * 128) = 0 ∧ s.waitRead 0 0x200 = some (0, 0, 0, .none) ∧ stays s 0 0 0 = true ∧ 0x200 * 128 < Config.physTop ∧
     s.l1.find (l1Key 0 0x200) = none ∧ s.canRead 0 (.hbm (0x200 * 128)) = true ∧ s.privAccess 0 0 0 = false ∧ (s.dir 0x200).owner ≠ some 0 ∧
     s.waitRead 0 0x201 = none) ∧
    (let s := wants 0x24_0000_0000
     let line := 0x24_0000_0000 / 128
     line < 2 ^ 34 ∧ homeDie (line * 128) ≠ 0 ∧ s.waitRead 0 line = some (0, 0, 0, .none) ∧ line * 128 < Config.physTop ∧ s.canRead 0 (.hbm (line * 128)) = true ∧ s.annexHolds 0 line = false ∧
     s.annex.find (annexKey 0 line) = none ∧ (s.die 0).sleep.asleep = false) ∧
    (let s := asks 0x10000
     s.commitGranted 0 0x200 = some 0 ∧ (s.dir 0x200).owner ≠ some 0 ∧ (wants 0x10000).commitGranted 0 0x200 = none ∧
     (let t := { s with l1 := [(l1Key 1 0x200, ⟨true, true, false, false, ⟨.none, 0⟩⟩)] }
      t.l1.find (l1Key 1 0x200) = some ⟨true, true, false, false, ⟨.none, 0⟩⟩ ∧
      (t.warps.any fun q => coreOf q.1 != 1 && dieOf q.1 == 1 / 256 && t.granted (.commit q.1) 0x200) = true)) := by
  decide +kernel

/-- A wrap of the lease clock, and an annex that wakes. -/
theorem witness_LeaseWrap :
    (let s := { wants 0x10000 with annex := [(annexKey 1 0x200, ⟨0, ⟨.none, 0⟩⟩)], wrapAt := some 0, now := 2048,
                                   dies := setAt State.reset.dies 1 { Die.reset with sleep := ⟨true, 1, 0⟩ } }
     s.annex.find (annexKey 1 0x200) = some ⟨0, ⟨.none, 0⟩⟩ ∧ 0 ≤ s.leaseClock.toNat ∧ s.wrapAt.isSome = true ∧ (∀ d, d < 4 → s.remoteLeft d = false) ∧ 0 + 2048 ≤ s.now ∧
     (∀ q ∈ s.warps, (q.2.window.map fun x => x.readRemote (dieOf q.1)).getD false = false) ∧ 1 < s.dies.length ∧
     (s.die 1).sleep.asleep = true ∧ (s.die 1).gated = false ∧ (s.die 1).sleep.kept ≠ s.wrapCount ∧
     (let t := { s with wrapCount := 1 }
      (t.die 1).sleep.kept = t.wrapCount)) ∧ State.reset.wrapAt = none := by
  decide +kernel

/-- A request in flight to the home slice of another die, and a lease of which only L1 copies are left. -/
theorem witness_LeaseEnds :
    (let t := { State.reset with homeOps := [⟨1, 0, false, 0, .hbm 0x24_0000_0000, 0, 4, .cas false, 0, 0, 0, .none⟩] }
     t.remoteLeft 0 = true ∧ t.remoteLeft 1 = false) ∧
    (let s := { State.reset with spent := [(annexKey 0 0x200, 0)] }
     (annexKey 0 0x200, 0) ∈ s.spent ∧ 0 ≤ s.leaseClock.toNat) := by
  decide +kernel

theorem witness_PrivateRead :
    own.waitRead 0 0x80 = some (0, 0, 0x4000, .none) ∧ stays own 0 0 0x4000 = true ∧ own.l1.find (l1Key 0 0x80) = none ∧
    own.canRead 0 (.hbm (0x80 * 128)) = true ∧ own.privAccess 0 0 0x4000 = true ∧ homeDie (0x80 * 128) = 0 := by
  decide +kernel

/-- A launch of one group that waits at die 0. -/
def unitIn (head : Option Nat) : Intake := ⟨1, 1, 4, 0, 1, head, false, none⟩
def waiting (head : Option Nat) : State :=
  { State.reset with launches := [(1, lau)], intake := [(0, [unitIn head])], nextNo := 10 }

theorem witness_ConcourseEvents :
    (let s := waiting none
     s.intake.find 0 = some [unitIn none] ∧ s.launches.find 1 = some lau ∧ lau.reach = .core ∧ lau.gang = false ∧ lau.gaff = 0 ∧ lau.segs = 1 ∧
     (unitIn none).next + 1 = (unitIn none).units ∧ s.ghost 1 0 = none ∧
     (match s.bestCore (s.seater lau 1 s.nextNo (some 4)) (dieCores 0) lau [] 0 with
       | some (c, f) => decide (c = 0 ∧ f.waits = false ∧ f.slots.length = 1)
       | none => false) = true) ∧
    (let s := { waiting (some 0) with launches := [(1, { lau with taskq := some 0 })], now := 2048 }
     (unitIn (some 0)).headAt = some 0 ∧ ({ lau with taskq := some 0 } : Launch).taskq.isSome = true ∧ 0 + (s.die 0).stealDly ≤ s.now ∧
     (match s.stealDie 0 (unitIn (some 0)) { lau with taskq := some 0 } with
       | some e => decide (e ≠ 0) && (match s.placeEntry e (unitIn (some 0)) with
           | .placed _ => true
           | _ => false)
       | none => false) = true) ∧ 0 < 0 + ((waiting (some 0)).die 0).stealDly ∧
    (four []).group 1 = some grp ∧ grp.placed = true ∧ grp.released = false ∧ (four []).groupDrained 1 = false ∧
    (let s := mod { at0 (seg 4) 0 0 [] with clause := none, live := 0 }
     s.groupDrained 1 = true ∧ (s.units.find 1).map (fun r => (r.gids, decide (r.st ≠ .killed))) = some ([1], true) ∧
     (s.warps.all fun q => decide (q.2.segs ≠ [] ∧ ∀ h ∈ q.2.segs, h.gid = 1)) = true ∧ s.bars = []) := by
  decide +kernel

/-- A unit that has headed its class for 16,384 cycles and wants more than a core has, before another of its class; and a task that a die takes
once a gallery has left its only core. -/
theorem witness_ConcourseWaits :
    (let j : Intake := ⟨1, 1, 4, 0, 1, some 0, true, none⟩
     let i : Intake := ⟨2, 1, 5, 0, 1, none, false, none⟩
     let s := { State.reset with launches := [(1, { lau with acc := 3 }), (2, lau)], intake := [(0, [j, i])], nextNo := 10, now := 16384 }
     i.arrival ≠ j.arrival ∧ (s.launches.find i.launch).isSome = true ∧ (s.launches.find j.launch).isSome = true ∧ j.headAt = some 0 ∧ 0 + 16384 ≤ s.now ∧
     i.prio ≤ j.prio ∧ (match s.placeEntry 0 j with
       | .none => true
       | _ => false) = true) ∧
    (let l := { lau with taskq := some 0, spu := 64 }
     let s := { waiting (some 0) with
       launches := [(1, l)], now := 2048, gals := [(1, { gal .resident 0 with core := 256 })]
       retired := (List.range 127).map (fun k => (1, 10, BitVec.ofNat 64 (257 + k))) ++ (List.range 128).map (fun k => (2, 10, BitVec.ofNat 64 (512 + k))) ++
         (List.range 128).map fun k => (3, 10, BitVec.ofNat 64 (768 + k)) }
     s.stealDie 0 (unitIn (some 0)) l = some 1 ∧ (match s.placeEntry 1 (unitIn (some 0)) with
       | .evict _ => true
       | _ => false) = true) := by
  decide +kernel

/-- A unit of launch 1 in a state. -/
def unitRec (st : UnitSt) : UnitRec := ⟨1, 0, [1], st, 0, 0, false, 0, 0⟩
/-- A unit of class 1 with scratchpad on a core, and one of class 2 that waits for a whole scratchpad. -/
def busy (st : UnitSt) : State :=
  { mod { at0 (seg 4) 0 0 [] with clause := none } with units := [(1, unitRec st)], now := 2 ^ 24, intake := [(0, [⟨2, 2, 4, 0, 1, some 0, false, none⟩])],
                                                        launches := [(1, lau), (2, { lau with ctx := 6, prio := 2, spu := 64 })] }

/-- The unit with neither tiles nor scratchpad, and a save pool of `n` pages. -/
def bare (n : Nat) : State :=
  { busy .stopping with ctxs := [(5, ⟨0, 0x8000, 0, 0x100000, n, 0, false, false, 0, []⟩)], launches := [(1, { lau with spu := 0, acc := 0 })]
                        groups := [(1, { grp with tiles := [], queues := [] })] }
/-- The unit that has not come to rest. -/
def restless : State := { busy .stopping with warps := [(0, { at0 (seg 4) 0 0 [] with clause := none, irr := 1 })] }
/-- The unit with a store that waits for its page. -/
def unstill : State := { busy .stopping with warps := [(0, { at0 (seg 4) 0 0 [] with clause := none, sideLog := [ent] })] }
/-- The unit saved, its only group ended since. -/
def saved : State := { busy .saved with intake := [], groups := [(1, { grp with placed := false, area := 0x100000, released := true })] }

theorem witness_PreemptionEvents :
    (busy .placed).units.find 1 = some (unitRec .placed) ∧ (unitRec .placed).st = .placed ∧ ((busy .placed).launches.find 2).map (fun l => decide (l.reach = .core)) = some true ∧
    0 + 4096 ≤ (busy .placed).now ∧ ((busy .placed).units.filter fun q => q.2.st == .stopping) = [] ∧ (busy .placed).victims 2 [0] = [1] ∧
    ((busy .placed).units.filter fun q => q.2.st == .placed && (busy .placed).unitCtx q.2 == 5) = [(1, unitRec .placed)] ∧
    ((busy .placed).ctxs.find 5).isSome = true ∧ 10000 * 600 ≤ (busy .placed).now ∧ (busy .placed).unitOn 1 0 = true ∧
    (busy .placed).othersWait 5 0 = true := by
  decide +kernel

/-- With every other core of the die retired. -/
def last : State := { busy .placed with retired := (List.range 127).map fun k => (0, 10, BitVec.ofNat 64 (k + 1)) }

theorem witness_PreemptionPlaces :
    last.wouldPlace 0 ⟨2, 2, 4, 0, 1, some 0, false, none⟩ = false ∧ (last.without 1).wouldPlace 0 ⟨2, 2, 4, 0, 1, some 0, false, none⟩ = true := by
  decide +kernel

theorem witness_PreemptionSaves :
    (unitRec .stopping).st = .stopping ∧ (unitRec .stopping).hid = 0 ∧ (busy .stopping).unitTilesStill 1 = true ∧ (busy .stopping).unitStill 1 = true ∧
    (busy .stopping).unitTrapped 1 = false ∧ (bare 0).unitTrapped 1 = false ∧
    ((busy .stopping).standing 1).find? (fun q => (busy .stopping).groupStill q.1) = some (1, grp) ∧ (busy .stopping).ctxOver (unitRec .stopping) = false ∧
    (match (bare 0).saveAll 1 ((bare 0).standing 1) with
      | .full g => g == 1
      | _ => false) = true ∧ (bare 0).unitTilesStill 1 = true ∧ ((bare 0).standing 1).map Prod.fst = [1] ∧ (bare 0).groupStill 1 = true ∧
    (match (bare 64).saveAll 1 ((bare 64).standing 1) with
      | .done _ => true
      | _ => false) = true ∧
    (match ({ bare 64 with homeOps := [⟨1, 0, false, 0, .hbm 0x100000, 0, 0, .claim (.ring 0), 0, 0, 0, .none⟩] } : State).saveAll 1
        ((bare 64).standing 1) with
      | .waits _ => true
      | _ => false) = true ∧
    restless.unitStill 1 = false ∧ (unstill.stepTwo 1) = false ∧ (busy .stopping).stepTwo 1 = true ∧ restless.groupStill 1 = false ∧ (unitRec .stopping).told = false ∧ (unitRec .stopping).stopAt + 2 ^ 24 ≤ restless.now := by
  decide +kernel

theorem witness_PreemptionResumes :
    (unitRec .saved).st = .saved ∧ saved.launches.find 1 = some lau ∧ saved.ctxOver (unitRec .saved) = false ∧
    (((saved.intake.find 0).getD []).any fun i => decide (lau.prio < i.prio)) = false ∧
    ((saved.savedNodes [1]).all fun x => saved.lineReady (x.2 / 128)) = true ∧
    (match ({ saved with groups := [(1, { grp with placed := false, area := 0x100000 })], homeOps := [⟨1, 0, false, 0, .hbm 0x100000, 0, 0, .claim (.ring 0), 0, 0, 0, .none⟩] } : State).readAreas [1] with
      | .waits => true
      | _ => false) = true ∧
    (match saved.readAreas [1] with
      | .done as => match saved.seatSaved lau as with
        | .placed v => (as.all fun q => saved.galsThere q.1 (((v.group q.1).map Group.core).getD 0)) && v.bars.all fun b => b.saved.isNone && b.clash.isNone
        | _ => false
      | _ => false) = true := by
  decide +kernel

/-- A segment with a parked lane, alone in its slot at a tick. -/
def ticked (g : Seg) : State := { idle g with now := 4096, warps := [(0, { at0 g 0 0 [] with clause := none })] }
/-- A `WAIT` in lane 0 for v4 to equal the word at v0, due now, its first poll. -/
def waitHold : LaneHold := ⟨.wait, 0x1000, 0, 0xf09810400ff0000, 0, 0, 0, []⟩

theorem witness_BanisterEvents :
    (let g := { seg 4 with lpark := 1 }
     let wp := (ticked g).warp 0
     (ticked g).warps = [(0, wp)] ∧ wp.segs = [g] ∧ wp.clause = none ∧ wp.resume = [] ∧ g.tripped = false ∧
     4096 * ((ticked g).ticks + 1) ≤ (ticked g).now ∧ g.ticking = true ∧ g.progress = false ∧ wp.leftOut g = true ∧ g.udepth = 0 ∧
     g.bc + 1 ≤ g.bancnt.toNat ∧ ({ g with bancnt := 0 } : Seg).bancnt.toNat < g.bc + 1 ∧ g.queue = [] ∧
     firstLane (g.rel (wp.live &&& ~~~wp.heldMask)) = some 0 ∧ ({ g with handler := 1 } : Seg).ticking = false ∧ State.reset.now < 4096 * (0 + 1)) ∧
    (let g := { seg 4 with takeover := some ⟨0b1100, 64⟩ }
     (((ticked g).warp 0).turnOver g ⟨0b1100, 64⟩ = true ∧ ((ticked g).warp 0).turnOver g ⟨0b1100, 0⟩ = false ∧
     (0b1100 : Mask) &&& ~~~laneBit ((firstLane (0b1100 : Mask)).getD 64) &&& g.rel (((ticked g).warp 0).live &&& ~~~((ticked g).warp 0).heldMask) ≠ 0 ∧
     (0b1000 : Mask) &&& ~~~laneBit ((firstLane (0b1000 : Mask)).getD 64) &&& g.rel (((ticked g).warp 0).live &&& ~~~((ticked g).warp 0).heldMask) = 0)) := by
  decide +kernel

/-- A first poll, and a later one that the port has chosen. -/
theorem witness_WaitPolls :
    ([waitHold, { waitHold with interval := 16 }].all fun hold =>
      let s := { mod { at0 (seg 4) 0 0 [0x40, 0xFFFFFF80] with clause := none, holds := [(0, hold)] } with
        cores := [(0, { Core.reset with chosen := [some (0, true), none] })] }
      let wp := s.warp 0
      let at_ := wp.atHold hold
      match decodeAlone hold.word with
      | .ok (.wait _ eq wide d a b off) =>
        let n := if wide then 8 else 4
        let va := at_.ea a b off n 0
        let x := s.loadPlace 0 0 n va
        let u := s.touch 0 x.xlat false
        let v := (u.viewRead 0 0 x.loc va n).setWidth 64
        stays u 0 0 va && decide (eq = true ∧ s.readErr 0 0 n va = none ∧ u.mayRead 0 x.loc = true ∧ wp.level < 3 ∧ v = at_.val wide d 0 ∧ (5 : DWord) ≠ at_.val wide d 0 ∧
          wp.segOf 0 = some (seg 4) ∧ wp.pollDue s.now 0 hold = true ∧ wp.window = none ∧ wp.hasRoom 1 = true ∧ s.solo 0 = false ∧ (seg 4).udepth = 0 ∧
          (s.core (coreOf 0)).chosen.getD (portOf 0) none = some (0, true) ∧ ((idle (seg 4)).core (coreOf 0)).chosen.getD (portOf 0) none ≠ some (0, true) ∧
          wp.pollDue s.now 0 { hold with due := 1 } = false)
      | _ => false) = true := by
  decide +kernel

/-! ### Causes, holds and escalation -/

/-- A cause log at 0x20000 of two entries, of which `n` are taken; vector 0 open. -/
def logged (n : Word) (masked : Bool) : State :=
  { State.reset with fns := setAt State.reset.fns 0 { Fn.reset with clbase := 0x20000, clsize := 2, clwr := n, msix := setAt Fn.reset.msix 0 ⟨0x1000, 5, masked⟩ } }

theorem witness_CauseLog :
    logOwner 0xB1 0 = 0 ∧ logOwner 0xB1 0 < (logged 1 false).fns.length ∧ (logged 1 false).host.wf = true ∧
    ¬ (2 ≤ (((logged 1 false).fn 0).clwr - ((logged 1 false).fn 0).clrd).toNat) ∧ 2 ≤ (((logged 2 false).fn 0).clwr - ((logged 2 false).fn 0).clrd).toNat ∧
    ((logged 1 true).fn 0).msix[0]? = some ⟨0x1000, 5, true⟩ ∧ ((logged 1 false).fn 0).msix[0]? = some ⟨0x1000, 5, false⟩ := by
  decide +kernel

/-- A segment with a notice. -/
def noticed : Seg := { seg 4 with notices := [0x31] }
/-- A fetch fault at 0x8000. -/
def fetchCause : SegCause := { causeOf 0x73 .p 0b0101 with at_ := ⟨0x8000, 7, 0, [], 0b0101, 0, [], []⟩ }
/-- Tables to a leaf slot at 0xD040 for 0x8000, with that leaf. -/
def leafed (e : Nat) : State :=
  { idle { seg 4 with cause := some fetchCause } with
    mem := ((mapped.store 0xC000 8 0xD001).store 0xD040 8 e) }
/-- With an extent that covers 0x8000 from 0x1000 of the code store, in a table of one entry at 0x30000. -/
def covered : State :=
  let s := leafed 0x9000
  { s with mem := ((s.mem.store 0x30000 8 0x8000).store 0x30010 8 (1 + 5 * 2 ^ 32)).store 0x30018 8 0x1000, lodge := { s.lodge with txBase := 0x30000, txCnt := 1 } }

theorem witness_CauseEvents :
    (let wp := (idle noticed).warp 0
     wp.segs = [noticed] ∧ noticed.lbase = 0 ∧ noticed.notices = [0x31] ∧ noticed.udepth = 0 ∧ noticed.handler = 0 ∧ noticed.record = none ∧
     noticed.cause = none ∧ noticed.takeover = none ∧ wp.atBoundary noticed = true ∧ wp.runnableIn noticed ≠ 0 ∧
     (wp.pick (wp.runnableIn noticed)).isSome = true ∧ (seg 4).notices = []) ∧
    (let g := { seg 4 with cause := some fetchCause }
     ((leafed 0).warp 0).segs = [g] ∧ g.cause = some fetchCause ∧ fetchCause.code = 0x73 ∧ fetchCause.hid = 0 ∧ ((leafed 0).warp 0).window = none ∧
     fetchCause.at_.cls = 7 ∧ g.queue = [] ∧ isPorter (coreOf 0) = false) ∧
    ([0x9000, 0x940F].all fun e => decide ((leafed e).leafSlot 0 fetchCause.logAddr [5, 4, 3, 2, 1, 0] 0x8000 = .ok 0xD040 ∧
      (pteValid ((leafed e).mem.dword 0xD040) = decide (e % 2 = 1)))) = true ∧
    (match ({ leafed 0 with mem := [] } : State).leafSlot 0 fetchCause.logAddr [5, 4, 3, 2, 1, 0] 0x90_0000_0000 with
      | .error _ => true
      | .ok _ => false) = true ∧
    (leafed 0x9000).extent 5 0x8000 = none ∧
    covered.extent 5 0x8000 = some (.ok (0x1000, none)) ∧ covered.leafSlot 0 fetchCause.logAddr [5, 4, 3, 2, 1, 0] 0x8000 = .ok 0xD040 ∧
    pteValid (covered.mem.dword 0xD040) = false ∧ covered.stageTwo 0 (ptePa (covered.mem.dword 0xD040)) = some 0x9000 ∧ physFault 0x9000 = none ∧
    covered.textReady 0 0xD040 0x9000 = true ∧ covered.flashBad 0x1000 = false ∧
    ({ covered with retired := [(0, 11, 0x1000)] } : State).flashBad 0x1000 = true ∧ covered.mem.wf = true := by
  decide +kernel

/-- The module at cycle `n`. -/
def late (s : State) (n : Nat) : State := { s with now := n }

theorem witness_Stalls :
    (let s := mod { at0 (seg 4) 0 0 [] with window := some (win [.rd 1 0 0 (.hbm 0x10000) 8 none] false), clause := (at0 (seg 4) 0 0 []).clause.map fun c => { c with
       held := some .window, heldSince := some 3 } }
     s.stallDetail 0 = some 0 ∧ ((s.warp 0).clause.map fun c => (c.held, c.heldSince, c.stallTold)) = some (some .window, some 3, false) ∧
     3 + 2 ^ 24 ≤ (late s (2 ^ 25)).now ∧ s.now < 3 + 2 ^ 24) ∧
    (let s := late (heldAt .queue) (2 ^ 31)
     ((s.warp 0).clause.map fun c => ((s.warp 0).segsIn c.at_.lanes).head?) = some (some (seg 4)) ∧ 3 + 2 ^ 30 ≤ s.now) ∧
    (let b : Bar := ⟨.lane, 1, .seg 1 0, 0, [], [], none, false, 0, false, 0, none⟩
     b.done = false ∧ b.told = false ∧ b.since + 2 ^ 30 ≤ 2 ^ 30 ∧ 0 < b.since + 2 ^ 30) ∧
    (let s := late (core0 [] { landed with st := .signing }) (2 ^ 30)
     (s.landing (2 / 8) (2 % 8)).st = .signing ∧ (s.landing (2 / 8) (2 % 8)).told = false ∧ (s.landing 0 2).since + 2 ^ 30 ≤ s.now ∧
     (s.core 0).landings.length = 8) ∧
    (let x := { causeOf 0x70 .p 0b0101 with hid := 1 }
     let g := { seg 4 with cause := some x }
     ((idle g).warp 0).segAt 0 = some g ∧ x.hid ≠ 0 ∧ savable x.code = true ∧ x.told = false ∧ x.since + 2 ^ 24 ≤ 2 ^ 24 ∧ 0 < x.since + 2 ^ 24) ∧
    (let wp := { at0 (seg 4) 0 0 [] with sideLog := [ent] }
     wp.segOf ent.lane = some (seg 4) ∧ wp.logTold = false ∧ wp.logSince + 2 ^ 24 ≤ 2 ^ 24) := by
  decide +kernel

/-- A gated die with a porter whose lane has halted. -/
def asleep : State :=
  { State.reset with warps := [(128 * 16, { at0 (seg 4) 0 0 [] with clause := none, live := 1, holds := [(0, ⟨.halt, 0x1000, 0, 0, 0, 0, 0, []⟩)] })] }
/-- An operation whose operands lie beyond the scratchpad view: its records are there. -/
def broken : State := { core0 [.mma { mmaOp [] with recs := [], recA := 0xFFFF_FF00_0000_8000 }] landed with }

theorem witness_Escalation :
    (({ at0 (seg 4) 0 0 [] with soloUntil := 5 } : Warp).soloUntil ≠ 0 ∧ (5 : Nat) ≤ 5 ∧ ({ at0 (seg 4) 0 0 [] with level := 2 } : Warp).level = 2 ∧
      (at0 (seg 4) 0 0 []).levelAt + 2 ^ 20 ≤ 2 ^ 20) ∧
    (let s := (four []).onDie 0 fun d => { d with serial := ⟨none, 0, [0]⟩ }
     (s.die 0).serial.warp = none ∧ (s.die 0).serial.waiting = [0] ∧ (s.warp 0).segs ≠ [] ∧ 0 < s.dies.length) ∧
    (let s := late ((four []).onDie 0 fun d => { d with serial := ⟨some 0, 0, []⟩ }) 65536
     (s.die 0).serial.warp = some 0 ∧ (s.die 0).serial.start + 65536 ≤ s.now ∧ (four []).now < (s.die 0).serial.start + 65536) ∧
    (asleep.warps.length = 1 ∧ coreOf (128 * 16) = porterCore 0 ∧ (asleep.warp (128 * 16)).holds = [(0, ⟨.halt, 0x1000, 0, 0, 0, 0, 0, []⟩)] ∧
      (asleep.die 0).porterGated = false ∧ (asleep.warp (128 * 16)).clause = none) ∧
    (broken.unitFault 1).map (fun x => (x.1, x.2.1)) = some (0, 0x91) ∧ (broken.units.find 1).map UnitRec.kills = some 0 ∧
    (four []).unitFault 1 = none := by
  decide +kernel

/-! ### The host's side -/

/-- Ring 0 of function 0 of die 0, configured. -/
def ring0 (stat : Nat) : Ring := { Ring.reset with base := 0x40000, size := 4096, ctx := 5, stat := stat }
def ringed (x : Ring) : State := { mod (at0 (seg 4) 0 0 []) with rings := [(0, x)] }
/-- Graph 3 of die 0: one end node. -/
def endNode : BitVec 512 := BitVec.ofNat 512 (4 * 2 ^ 396)
def graph (run : Option Run) (starting pending : Option (DWord × Nat × Option Nat)) : Graph := ⟨0, 0, 5, [endNode], 0, run, starting, pending, false⟩
def trig3 : DWord := 0x0300_0000_0000_0000

theorem witness_RingRegisters :
    (ringed (ring0 0)).lodge.coresUp = true ∧ ringKey 0 0 0 = 0 ∧ ((ringed (ring0 1)).ring 0).stat = 1 ∧ ((ringed (ring0 0)).ring 0).stat ≠ 1 ∧
    (ring0 1).legal = true ∧ (ringed (ring0 1)).ctxLive 5 0 = true ∧ (0xFF0 : DWord).toNat % 16 = 0 ∧ (0xFF0 : DWord).toNat < (ring0 1).size ∧
    ¬ ((0x1000 : DWord).toNat < (ring0 1).size) ∧ trigLegal trig3 = true ∧ fieldN trig3 55 49 = 0 ∧ fieldN (trig3 ||| 2 ^ 49) 55 49 ≠ 0 ∧ trigLegal (trig3 ||| 2 ^ 49) = true ∧
    (ringed (ring0 0)).ctxLive ((ringed (ring0 0)).ring (ringKey 0 0 0)).ctx 0 = true ∧ State.reset.ctxLive (State.reset.ring (ringKey 0 0 0)).ctx 0 = false ∧
    trigLegal (trig3 ||| 0x1000_0000_0000) = false ∧
    0 * 256 + fieldN trig3 63 56 = 3 ∧ (ringed (ring0 0)).graphs.find 3 = none ∧
    (graph none none none).unloading = false ∧ (graph none none none).pending = none ∧ (graph none none (some (trig3, 5, none))).pending.isSome = true := by
  decide +kernel

/-- A context block at 0x50000 for context 7, and registration blocks at 0x60000 (of no image) and 0x60020. -/
def blocks : State :=
  { four [] with mem := (mapped.store 0x50000 8 0x8000).store 0x50008 8 7 }

theorem witness_ContextRegisters :
    blocks.lodge.coresUp = true ∧ (0x50000 : DWord).toNat % 64 = 0 ∧ blocks.physOf 0 0x50000 64 = some 0x50000 ∧
    blocks.ctxRefused (BitVec.ofNat 512 (blocks.mem.nat 0x50000 64)) = false ∧ (0x50008 : DWord).toNat % 64 ≠ 0 ∧
    blocks.physOf 0 0x90_0000_0000 64 = none ∧ blocks.ctxRefused (BitVec.ofNat 512 (blocks.mem.nat 0x50040 64)) = true ∧
    ({ blocks with units := [] } : State).ctxLive (5 : DWord).toNat 0 = true ∧ blocks.intake = [] ∧ blocks.ctxLive (7 : DWord).toNat 0 = false ∧
    ([physPiece 0x50000 64, physPiece 0x60000 32].all fun x => blocks.piecesReadable 0 [x] && (pieceLines [x]).all fun l =>
      blocks.lineReady l && !blocks.wrapHeld 0 (.hbm (l * 128))) = true ∧
    ({ blocks with homeOps := [0x50000, 0x60000].map fun a => ⟨noWarp, 0, false, 0, .hbm a, 0, 64, .claim (.ring 0), 0, 0, 0, .none⟩ } : State).piecesReadable 0
      [physPiece 0x50000 64] = false ∧
    ({ blocks with homeOps := [0x50000, 0x60000].map fun a => ⟨noWarp, 0, false, 0, .hbm a, 0, 64, .claim (.ring 0), 0, 0, 0, .none⟩ } : State).piecesReadable 0
      [physPiece 0x60000 32] = false ∧ blocks.claimsOf (.lodge 0x60000) = [] ∧ 0x60000 + 32 ≤ Config.physTop ∧
    blocks.physOf 0 0x60000 32 = some 0x60000 ∧ blocks.mem.wf = true ∧ blocks.objs.find? (fun o => o.die == 0) = none := by
  decide +kernel

/-- A registration block at 0x60000 that names an image at 0x70000 of 224 bytes: one section of 16 bytes of text and one kernel. -/
def image : State :=
  let m : Memory := mapped
  let m := (m.store 0x60000 8 0x70000).store 0x60008 8 0x1000
  let m := (m.store 0x60018 8 (5 * 2 ^ 11)).store 0x60010 8 224
  let m := ((m.store 0x70000 8 0x1_315A5753).store 0x70008 8 64).store 0x70010 8 0x1_0000_0001
  let m := (m.store 0x70018 8 96).store 0x70038 8 224
  let m := (m.store 0x70020 8 224)
  let m := (m.store 0x70048 8 3).store 0x70050 8 192
  let m := m.store 0x70058 8 16
  { four [] with mem := (m.store 0x70068 8 0xFFFF_FFFF_FFFF_FFFF).store 0x70070 8 0xFFFF_FFFF_FFFF_FFFF, objs := [⟨0, 0, 5, 0x70000, 0x1000, 16, [kern]⟩] }

theorem witness_CodeObjects :
    let b : BitVec 256 := BitVec.ofNat 256 (image.mem.nat 0x60000 32)
    (image.objs.find? fun o => o.die == 0 && o.fn == fieldN b 217 213 && o.ctx == fieldN b 212 203 && o.img == field b 63 0 && o.text == field b 127 64).isSome = true ∧
    (match image.readVirt 0 (fieldN b 212 203) (fieldN b 217 213) (fieldN b 63 0) (max (fieldN b 159 128) 64) with
      | .ok (bs, ps) => image.piecesReadable 0 ps && Image.refusal ⟨bs⟩ (fieldN b 159 128) (field b 127 64).toNat 0 false == none && Image.refusal ⟨bs⟩ (fieldN b 159 128) 4 0 false == some 0x1E
      | .error _ => false) = true := by
  decide +kernel

theorem witness_ManagementRegisters :
    State.reset.lodge.fwStat ≠ 1 ∧ State.reset.lodge.fwAddr.toNat + State.reset.lodge.fwLen.toNat ≤ Config.physTop ∧
    Config.physTop < ({ State.reset.lodge with fwAddr := 0x8F_FFFF_F000, fwLen := 0x2000 } : Lodge).fwAddr.toNat + 0x2000 ∧
    Config.physTop < (0x90_0000_0000 : DWord).toNat + 64 ∧ ({ State.reset.lodge with fwStat := 1, attStat := 1 } : Lodge).fwStat = 1 ∧ State.reset.lodge.attStat ≠ 1 ∧
    State.reset.lodge.lifecycle = 2 ∧ (0x8FFF_FFFF_C0 : DWord).toNat % 8 = 0 ∧ (0x8FFF_FFFF_C0 : DWord).toNat + 64 ≤ Config.physTop ∧
    State.reset.poison = [] ∧ (0x8FFF_FFFF_C1 : DWord).toNat % 8 ≠ 0 ∧ State.reset.lodge.coresUp = true ∧ 31 < State.reset.fns.length ∧
    (0x20_0000 : DWord).toNat % 0x20_0000 = 0 ∧ (0x20_0000 : DWord).toNat + (State.reset.fn 31).s2bound.toNat ≤ Config.physTop ∧
    (0x1000 : DWord).toNat % 0x20_0000 ≠ 0 ∧ (State.reset.fn 31).msix[15]? = some ⟨0, 0, true⟩ ∧ 3 < State.reset.dies.length ∧
    16 ≤ (16 : DWord).toNat ∧ (4096 : DWord).toNat ≤ 4096 ∧ (15 : DWord).toNat < 16 ∧ 4096 < (4097 : DWord).toNat := by
  decide +kernel

/-- A hold identifier that names `h`, with a ring, a command, galleries and a segment that it may name. -/
def holding (h : Held) : State :=
  { idle { seg 4 with cause := some { causeOf 0x70 .p 0b0101 with hid := 1 } } with
    holds := [(1, 0, h)], rings := [(0, ring0 1)], cmds := [(7, { copyCmd (some 1) [] [] with st := .held, hid := 1 })]
    gals := [(1, { gal .writingBack 0 with hid := 1 })] }

theorem witness_HoldRelease :
    (holding (.die 3)).holdOf 0 2 = none ∧
    ([Held.sideLog 0, .seg 0 0, .warp 0, .ring 0, .cmd 7, .gallery 1, .die 3].all fun h => (holding h).holdOf 0 1 == some h) = true ∧
    (let x := { causeOf 0x70 .p 0b0101 with hid := 1 }
     let g := { seg 4 with cause := some x }
     let s := holding (.seg 0 0)
     (s.warp 0).segAt 0 = some g ∧ g.lbase = 0 ∧ g.queue = [] ∧ x.code ≠ 0x18 ∧ x.at_.cls ≠ 7 ∧ x.cls ≠ .d ∧ g.abs x.lanes &&& (s.warp 0).live ≠ 0 ∧
     s.warps.length = 1 ∧ (s.warp 0).segs = [g] ∧ (s.warp 0).window = none ∧ s.bars = []) ∧
    (holding (.cmd 7)).cmds.find 7 = some { copyCmd (some 1) [] [] with st := .held, hid := 1 } ∧
    (gal .writingBack 0).st ≠ .filling ∧ 3 < (holding (.die 3)).dies.length := by
  decide +kernel

/-- A packet of words at offset `off` of the ring. -/
def pkt (ws : List DWord) (off : Nat) : FPkt :=
  ⟨ws, 0x40000 + BitVec.ofNat 64 off, 0, off, [⟨0x40000, 4096, off + 8 * ws.length, true, 0, off + 8 * ws.length⟩], false⟩
/-- `NOP` of two words. -/
def nopPkt (off : Nat) : FPkt := pkt [0x0100_0000_0000_0000, 0] off
/-- A stretch that stands at the ring's start with packets fetched. -/
def frame (ps : List FPkt) : Frame := ⟨[⟨0x40000, 4096, 16 * ps.length, true, 0, 16 * ps.length⟩], [⟨0x40000, 4096, 0, true, 0, 0⟩], ps, [], 0⟩
/-- A busy ring with packets fetched, at `wroff`. -/
def fetching (ps : List FPkt) (wroff : Nat) : State :=
  { ringed { ring0 1 with frames := [frame ps], wroff := wroff } with mem := mapped }

theorem witness_PacketFlow :
    (let x := (fetching [] 0).ring 0
     x.stat = 1 ∧ x.gather = none ∧ x.skip = none ∧ x.frames = [frame []] ∧ (frame []).body = [] ∧ x.wait = none ∧
     (match (fetching [] 0).fetchPkt 0 (frame []).curs with
       | .dry => true
       | _ => false) = true) ∧
    (32 ≤ ((fetching (List.replicate 32 (nopPkt 0)) 0).ring 0).ahead.1 ∧ frame (List.replicate 32 (nopPkt 0)) ≠ frame []) ∧
    (let s := { fetching [nopPkt 0] 32 with mem := mapped.store 0x40010 8 0x0100_0000_0000_0000 }
     let s := { s with mem := ((s.mem.store 0xC000 8 0xD001).store 0xD000 8 0x040F).store 0xD200 8 0x4040F }
     (s.ring 0).ahead.1 < 32 ∧ (nopPkt 0).fault false = none ∧
     (match s.fetchPkt 0 (frame [nopPkt 0]).curs with
       | .pkt p ps => decide ((s.ring 0).ahead.2 + p.bytes ≤ 2048) && s.piecesReadable 0 ps
       | _ => false) = true ∧ 2048 < ((fetching (List.replicate 8 (pkt [0x03F0_0000_0000_0000] 0)) 0).ring 0).ahead.2 + 16) ∧
    (trimCurs (nopPkt 0).curs = [⟨0x40000, 4096, 16, true, 0, 16⟩] ∧ (nopPkt 16).fault false = none ∧
      (pkt [0, 0] 16).fault false = some (0x24, 0)) ∧
    (let f := { frame [nopPkt 0] with curs := (nopPkt 0).curs }
     f.fetched = [nopPkt 0] ∧ ({ ring0 1 with frames := [f], wroff := 16 } : Ring).left ⟨0x40000, 4096, 16, true, 0, 16⟩ = 0) := by
  decide +kernel

/-- A ring whose head packet has those words, with a registered kernel at 0x1000. -/
def heads (ws : List DWord) : State :=
  { fetching [pkt ws 0] 16 with objs := [⟨0, 0, 5, 0x70000, 0x1000, 16, [kern]⟩] }
/-- The words of a launch of two groups of one segment of eight lanes at 0x1000. -/
def launchDesc : List DWord := [0x1000, 0, 0, 2, 0, 0, 0, 0]
def copyDesc : List DWord := [0, 0x100, 0x1_0000_0010, 0, 4, 0, 0, 0]

theorem witness_PacketWork :
    ([1, 2, 3, 4, 5, 6, 7, 8].all fun k => let ws : List DWord := BitVec.ofNat 64 (k * 2 ^ 56 + 1) :: 0 :: (if k = 3 then [0, 0] ++ launchDesc else launchDesc)
      (heads ws).headPkt 0 == some (pkt ws 0) && (pkt ws 0).kind == k && (pkt ws 0).par 7 0 == 1) = true ∧
    (let ws := (0x0200_0000_0000_0000 : DWord) :: 0 :: launchDesc
     ((heads ws).findEntry 0 5 (field ((pkt ws 0).desc 2) 63 0)).isSome = true ∧
     ((heads ws).findEntry 0 5 (field ((pkt ws 0).desc 2) 63 0)).map (fun o =>
       let l := launchOfDesc ((pkt ws 0).desc 2) 5 0 0 o 10
       (l.neverFits, l.unitCount)) = some (false, 2)) ∧
    (let ws := (0x0300_0000_0000_0001 : DWord) :: 0 :: 0 :: 0 :: launchDesc
     (pkt ws 0).w 2 = 0 ∧ ((heads ws).findEntry 0 5 (field ((pkt ws 0).desc 4) 63 0)).isSome = true) ∧
    (let ws := (0x0300_0000_0000_0003 : DWord) :: 0 :: ((1 :: 0 :: copyDesc) ++ (1 :: 0 :: copyDesc) ++ (1 :: 0 :: copyDesc))
     (pkt ws 0).par 7 0 = 3 ∧ ∀ e, e < 3 → (pkt ws 0).w (2 + 10 * e) ≠ 0 ∧ emptyCopy 0xD0 ((pkt ws 0).desc (4 + 10 * e)) = false) ∧
    (pkt [0x0500_0000_0000_0000, 0] 0).followed = false ∧ ({ pkt [0x0500_0000_0000_0000, 0] 0 with followed := true } : FPkt).followed = true ∧
    (match (heads [0x0600_0000_0000_0001, 0, 0, 0]).cpWord 0 5 0 0 with
      | .ok (v, y) => condHolds 0 v 0 && !condHolds 1 v 0 && (heads []).piecesReadable 0 [y]
      | .error _ => false) = true := by
  decide +kernel

theorem witness_PacketWaits :
    ([9, 10, 11, 12].all fun k => (pkt [BitVec.ofNat 64 (k * 2 ^ 56), trig3] 0).kind == k && (pkt [BitVec.ofNat 64 (k * 2 ^ 56), trig3] 0).par 1 0 == 0) = true ∧
    (heads [0x0900_0000_0000_0000, 0]).headPkt 0 = some (pkt [0x0900_0000_0000_0000, 0] 0) ∧
    (heads [0x0900_0000_0000_0000, 0]).ringBusy 0 = false ∧
    ({ heads [0x0900_0000_0000_0000, 0] with jobs := [(3, ⟨1, 0, none, false⟩)] } : State).ringBusy 0 = true ∧
    (pkt [0x0900_0000_0000_0001, 0, 0, 0] 0).par 1 0 = 1 ∧
    (match (heads [0x0900_0000_0000_0001, 0, 0, 0]).cpWord 0 5 0 0 with
      | .ok (v, y) => condHolds 0 v 0 && !condHolds 1 v 0 && (heads []).piecesReadable 0 [y]
      | .error _ => false) = true ∧
    (match (heads [0x0A00_0000_0000_0000, 8, 1, 0]).place (cpAsker 0 5 0) 0 .store 8 8 with
      | .ok ⟨.hbm pa, z⟩ => decide (pa = 8) && (pieceLines [⟨8, 8, .hbm pa, z⟩]).all fun l =>
          (heads []).lineReady l && !(heads []).wrapHeld 0 (.hbm (l * 128))
      | _ => false) = true ∧ (heads []).mem.wf = true ∧
    (pkt [0x0A00_0000_0000_0001, 8, 1, 0] 0).par 0 0 = 1 ∧ (pkt [0x0A00_0000_0000_0002, 8, 1, 0] 0).par 1 1 = 1 ∧
    (({ heads [] with fns := (logged 0 false).fns } : State).fn 0).msix.getD 0 ⟨0, 0, true⟩ = ⟨0x1000, 5, false⟩ ∧
    trigLegal ((pkt [0x0B00_0000_0000_0000, trig3] 0).w 1) = true ∧ (graph none none none).unloading = false ∧
    (heads []).ctxLive ((pkt [0x0C00_0000_0000_0005, 0] 0).par 9 0) 0 = true ∧ (heads []).ctxLive ((pkt [0x0C00_0000_0000_0006, 0] 0).par 9 0) 0 = false ∧
    (heads []).unitCtx ⟨1, 0, [1], .placed, 0, 0, false, 0, 0⟩ = 5 ∧
    (let s := ringed { ring0 1 with wait := some (.poll 16 16 0), frames := [frame [pkt [0x0900_0000_0000_0001, 0, 0, 0] 0]] }
     (s.ring 0).wait = some (.poll 16 16 0) ∧ s.now < 16 ∧ 16 ≤ (late s 16).now ∧
     ((s.ring 0).frames.head?.bind fun f => f.fetched.head?) = some (pkt [0x0900_0000_0000_0001, 0, 0, 0] 0) ∧ (s.graphs.find 3).bind Graph.run = none) := by
  decide +kernel

theorem witness_PacketConfigs :
    ([0, 1, 2, 3, 4, 5].all fun k => let ws : List DWord := [BitVec.ofNat 64 (13 * 2 ^ 56 + k), 0x0004_0001_00FF, 0, 0]
      (heads ws).headPkt 0 == some (pkt ws 0) && (pkt ws 0).kind == 13 && (pkt ws 0).par 7 0 == k) = true ∧
    fieldN (0x0004_0001_00FF : DWord) 15 0 ≤ 255 ∧ fieldN (0x0004_0001_00FF : DWord) 47 32 ≠ 0 ∧ (heads []).taskqs.find 255 = none ∧
    255 < fieldN (0x0004_0001_0100 : DWord) 15 0 ∧ (heads []).depctrs.find 255 = none ∧ ((tasks []).depctrs.find 0).isSome = true ∧
    (tasks []).taskqs.find 1 = some ⟨true, 4, true, none, []⟩ ∧ (heads []).graphs.find 3 = none ∧
    fieldN (0x0000_0001_0003 : DWord) 27 16 ≠ 0 ∧
    (match (heads []).readVirt 0 5 0 0x100 64 with
      | .ok (bs, ps) => (graphBad [BitVec.ofNat 512 (natOfBytes (bs.take 64))]).isSome && (heads []).piecesReadable 0 ps
      | .error _ => false) = true ∧ graphBad [endNode] = none ∧ fieldN (0x0000_0000_0003 : DWord) 27 16 = 0 ∧
    (graph none none none).run = none ∧ (graph none (some (trig3, 5, none)) none).starting.isSome = true ∧
    (graph (some ⟨[0], [.ready], false, false, none⟩) none none).run.isSome = true := by
  decide +kernel

/-- A node of kind `k` with one successor, node 0, at a descriptor at 0x100. -/
def node (k : Nat) : BitVec 512 := BitVec.ofNat 512 (0x100 + k * 2 ^ 396 + 2 ^ 412)
/-- A graph of that node and an end node that waits for it, its first node ready. -/
def running (k : Nat) : State :=
  { heads [] with graphs := [(3, { graph (some ⟨[0, 1], [.ready, .waiting], false, false, none⟩) none none with nodes := [node k, endNode] })]
                  mem := (mapped.store 0x100 8 0x1000).store 0x118 4 2 }

theorem witness_GraphEvents :
    (let x := graph none (some (trig3, 5, none)) none
     x.run = none ∧ x.unloading = false ∧ (heads []).nodeHeld 3 = false ∧ fieldN trig3 55 49 = 0 ∧ x.pending = none ∧ (graph none none none).starting = none) ∧
    ([0, 1, 2, 3, 4].all fun k => nodeKind (node k) == k && ((running k).graphs.find 3).isSome) = true ∧
    (let y : Run := ⟨[0, 1], [.ready, .waiting], false, false, none⟩
     y.sts[0]? = some .ready ∧ y.abandoned = false ∧ y.done = false ∧ y.sts[1]? = some .waiting ∧ 1 < y.counts.length) ∧
    (match (running 0).readVirt 0 5 0 0x100 64 with
      | .ok (bs, ps) =>
        let d := BitVec.ofNat 512 (natOfBytes bs)
        (launchFault d).isNone && (((running 0).findEntry 0 5 (field d 63 0)).map fun o => !(launchOfDesc d 5 0 0 o 10).neverFits &&
          (launchOfDesc d 5 0 0 o 10).unitCount != 0) == some true && !copyFault d && !emptyCopy 0xD0 ((node 1).setWidth 512 ||| (1 <<< 160) ||| (1 <<< 128)) && (running 0).piecesReadable 0 ps
      | .error _ => false) = true ∧
    ((running 2).cpWord 0 5 0 0x100).toOption.map (fun q => (running 2).piecesReadable 0 [q.2]) = some true ∧ (running 4).holds = [] ∧
    (let s := { running 0 with jobs := [(4, ⟨0, 0, some (3, 0), false⟩)] }
     s.jobs.find? (fun q => q.2.node == some (3, 0) && q.2.left == 0) = some (4, ⟨0, 0, some (3, 0), false⟩)) := by
  decide +kernel

/-- Every die gated. -/
def gated : State :=
  { State.reset with dies := State.reset.dies.map fun (d : Die) => { d with gated := true, porterGated := true }
                     lodge := { State.reset.lodge with wake := [⟨0x55, 0xFF, 1, 2, true⟩] } }

theorem witness_ErrorEvents :
    State.reset.allGated = false ∧ State.reset.lodge.frames = [] ∧ gated.allGated = true ∧
    (gated.retired.any fun q => q.1 == portDie 0 && q.2.1 == 9 && q.2.2.toNat == 0) = false ∧ (gated.lodge.wake.find? fun e => e.hits 0 [0x54]) = none ∧
    (gated.lodge.wake.find? fun e => e.hits 0 [0x55]) = some ⟨0x55, 0xFF, 1, 2, true⟩ ∧ gated.lodge.frames.length < 16 ∧ gated.lodge.coresUp = true ∧
    2 < gated.dies.length ∧ 16 ≤ ({ gated.lodge with frames := List.replicate 16 (0, []) } : Lodge).frames.length ∧
    (State.reset.die 3).gated = false ∧ State.reset.dieIdle 3 = true ∧ (mod (at0 (seg 4) 0 0 [])).dieIdle 0 = false ∧ State.reset.ecc = [] ∧
    ({ State.reset with ecc := [⟨0, 1, 3, 0, [(0x40, 0)]⟩] } : State).ecc = [⟨0, 1, 3, 0, [(0x40, State.reset.now)]⟩] ∧
    State.reset.now < 51840000000000 * ((State.reset.die 0).scrubs + 1) ∧
    51840000000000 * (((late State.reset 51840000000000).die 0).scrubs + 1) ≤ (late State.reset 51840000000000).now ∧ State.reset.poison = [] := by
  decide +kernel

/-- A lodge with a neighbour, package 9. -/
def paired : Lodge := { State.reset.lodge with neighbours := [⟨9, 0, 0, 0, 4⟩] }

theorem witness_LodgeEvents :
    State.reset.lodge.resetAsked = false ∧ ({ paired with resetAsked := true } : Lodge).resetAsked = true ∧ State.reset.lodge.fwStat ≠ 1 ∧
    ({ paired with fwStat := 1 } : Lodge).fwKind = 0 ∧ State.reset.lodge.attStat ≠ 1 ∧ ({ paired with attStat := 1 } : Lodge).attStat = 1 ∧
    (let a := State.reset.lodge.attAddr.toNat
     State.reset.piecesReadable (homeDie a) [physPiece a 64] = true ∧ ((pieceLines [physPiece (a + 64) 4907]).all fun l =>
       State.reset.lineReady l && !State.reset.wrapHeld (homeDie a) (.hbm (l * 128))) = true ∧ State.reset.claimsOf (.lodge a) = [] ∧
     ({ State.reset with homeOps := [⟨noWarp, 0, false, 0, .hbm a, 0, 64, .claim (.ring 0), 0, 0, 0, .none⟩] } : State).piecesReadable (homeDie a)
       [physPiece a 64] = false) ∧
    State.reset.mem.wf = true ∧ State.reset.lodge.throttled = false ∧ State.reset.now < 6000000 * (State.reset.lodge.hbSeq.toNat + 1) ∧
    6000000 * (State.reset.lodge.hbSeq.toNat + 1) ≤ (late State.reset 6000000).now ∧
    (paired.neighbours.find? fun n => n.pkg == 9) = some ⟨9, 0, 0, 0, 4⟩ ∧ State.reset.now < max 0 0 + 18000000 ∧
    max 0 0 + 18000000 ≤ (late State.reset 18000000).now ∧ 0 = paired.pkgNum.toNat ∧ (4 : DWord).toNat < (5 : DWord).toNat ∧ paired.votes.length < 2 ∧
    1 ≠ paired.pkgNum.toNat ∧ (4 : DWord).toNat ≤ (4 : DWord).toNat ∧ (paired.neighbours.find? fun n => n.pkg == 8) = none := by
  decide +kernel

/-- The canonical form holds in a state with memory, and that state steps. -/
theorem witness_StepKeepsMemories : (heads [0x0100_0000_0000_0000, 0]).memoriesWf = true ∧
    (match step (heads [0x0100_0000_0000_0000, 0]) with | .next _ => true | _ => false) = true := by
  decide +kernel

/-- A poisoned line written back is posted (R410), here as a lost entry of a log that has no ring. -/
theorem test_poison_leaves_cache :
    ((({ State.reset with poison := [4] }.putL1 1 1 ⟨true, true, false, false, ⟨.none, 0⟩⟩).evictL1 1 1).fn 0).cllost = 1 ∧
    (({ State.reset with poison := [4] }.dropCode 1 fun _ => true).fn 0).cllost = 0 := by decide

/-- A retired L2 location takes a way of its set and no other set's (R408). -/
theorem test_fenced_way :
    let s := (State.reset.retireUnit ⟨0, 1, 0x80, .lasting, false⟩)
    s.fencedOff 1 0 (sameL2 0x80) = 1 ∧ s.fencedOff 1 0 (sameL2 0x2080) = 0 := by decide
end Sys2Proof.Tests
end

section
/-! SUPPORT. What posting, waking an annex, intake and the end of a unit leave of the module as it was. -/

namespace Sys2Proof.Machine

/-! ### States that agree on what stands on the cores -/

/-- Two states agree on memory, warp slots, cores, units, groups and barriers. -/
structure Steady (s t : State) : Prop where
  mem : t.mem = s.mem
  warps : t.warps = s.warps
  cores : t.cores = s.cores
  units : t.units = s.units
  groups : t.groups = s.groups
  bars : t.bars = s.bars

theorem Steady.refl (s : State) : Steady s s := ⟨rfl, rfl, rfl, rfl, rfl, rfl⟩

theorem Steady.trans {s t u : State} (a : Steady s t) (b : Steady t u) : Steady s u :=
  ⟨b.mem.trans a.mem, b.warps.trans a.warps, b.cores.trans a.cores, b.units.trans a.units, b.groups.trans a.groups,
    b.bars.trans a.bars⟩

theorem steady_foldl {α : Type} {f : State → α → State} (hf : ∀ s a, Steady s (f s a)) (l : List α) (s : State) :
    Steady s (l.foldl f s) :=
  List.foldlRecOn l f (Steady.refl s) fun _ h a _ => h.trans (hf _ a)

/-- Steady states with the same intake lists. -/
structure Quiet (s t : State) : Prop extends Steady s t where
  intake : t.intake = s.intake

theorem Quiet.refl (s : State) : Quiet s s := ⟨Steady.refl s, rfl⟩

theorem Quiet.trans {s t u : State} (a : Quiet s t) (b : Quiet t u) : Quiet s u :=
  ⟨a.toSteady.trans b.toSteady, b.intake.trans a.intake⟩

theorem quiet_foldl {α : Type} {f : State → α → State} (hf : ∀ s a, Quiet s (f s a)) (l : List α) (s : State) :
    Quiet s (l.foldl f s) :=
  List.foldlRecOn l f (Quiet.refl s) fun _ h a _ => h.trans (hf _ a)

/-! ### Posting and waking -/

theorem onFn_quiet (s : State) (k : Nat) (f : Fn → Fn) : Quiet s (s.onFn k f) := ⟨⟨rfl, rfl, rfl, rfl, rfl, rfl⟩, rfl⟩

theorem onDie_quiet (s : State) (d : Nat) (f : Die → Die) : Quiet s (s.onDie d f) := ⟨⟨rfl, rfl, rfl, rfl, rfl, rfl⟩, rfl⟩

theorem later_quiet (s : State) (i : Instr) : Quiet s (s.later i) := ⟨⟨rfl, rfl, rfl, rfl, rfl, rfl⟩, rfl⟩

theorem host_quiet (s : State) (m : Memory) : Quiet s { s with host := m } := ⟨⟨rfl, rfl, rfl, rfl, rfl, rfl⟩, rfl⟩

theorem msix_quiet (s : State) (f v : Nat) : Quiet s (s.msix f v) := by
  unfold State.msix
  dsimp only
  split
  · exact onFn_quiet s f _
  · exact ⟨⟨rfl, rfl, rfl, rfl, rfl, rfl⟩, rfl⟩

theorem post_quiet (s : State) (code : Nat) (i : LogInfo) : Quiet s (s.post code i) := by
  unfold State.post
  have hw : Quiet s (if causeDest code = .porter then s.later (.porterWake i.die) else s) := by
    split
    · exact later_quiet s _
    · exact Quiet.refl s
  refine hw.trans ?_
  generalize (if causeDest code = .porter then s.later (.porterWake i.die) else s) = t
  dsimp only
  split
  · exact onFn_quiet t _ _
  · exact ((host_quiet t _).trans (onFn_quiet _ _ _)).trans (msix_quiet _ _ 0)

theorem idlePoison_quiet (s : State) (die pa n : Nat) : Quiet s (s.idlePoison die pa n) :=
  quiet_foldl (fun t _ => post_quiet t _ _) _ s

theorem dropAnnexLines_quiet (s : State) (die : Nat) (p : Nat → Bool) : Quiet s (s.dropAnnexLines die p) := by
  unfold State.dropAnnexLines
  refine Quiet.trans (quiet_foldl (fun t q => idlePoison_quiet t die (q.1 % 2 ^ 34 * 128) 128)
    (s.annex.filter fun q => q.1 / 2 ^ 34 == die && p (q.1 % 2 ^ 34)) s) ?_
  exact ⟨⟨rfl, rfl, rfl, rfl, rfl, rfl⟩, rfl⟩

theorem wakeAnnex_quiet (s : State) (die : Nat) : Quiet s (s.wakeAnnex die) := by
  unfold State.wakeAnnex
  dsimp only
  split
  · exact Quiet.refl s
  · split
    · exact onDie_quiet s die _
    · exact ((onDie_quiet s die _).trans (dropAnnexLines_quiet _ die _)).trans (post_quiet _ _ _)

theorem ungate_quiet (s : State) (core : Nat) : Quiet s (s.ungate core) := by
  unfold State.ungate
  split
  · exact (onDie_quiet s _ _).trans (wakeAnnex_quiet _ _)
  · exact Quiet.refl s

/-! ### Intake, counters, jobs and galleries -/

theorem setIntake_steady (s : State) (die : Nat) (l : List Intake) : Steady s (s.setIntake die l) := ⟨rfl, rfl, rfl, rfl, rfl, rfl⟩

theorem advanceIntake_steady (s : State) (die a : Nat) : Steady s (s.advanceIntake die a) := setIntake_steady s die _

theorem fresh_steady {s t : State} {n : Nat} (h : s.fresh = (n, t)) : Steady s t := by
  cases h
  exact ⟨rfl, rfl, rfl, rfl, rfl, rfl⟩

theorem addIntake_steady (s : State) (die l prio units : Nat) (relaunch : Option (Nat × Nat)) :
    Steady s (s.addIntake die l prio units relaunch) := (fresh_steady (s := s) rfl).trans (setIntake_steady _ die _)

theorem makeReady_steady (s : State) (key : Nat) (t : Task) : Steady s (s.makeReady key t) := by
  unfold State.makeReady
  split
  · exact Steady.refl s
  · split
    next n v hn =>
    refine (fresh_steady hn).trans ?_
    dsimp only
    split
    · exact ⟨rfl, rfl, rfl, rfl, rfl, rfl⟩
    · split
      · exact (post_quiet v _ _).toSteady
      · refine (fresh_steady (s := v) rfl).trans ?_
        split
        · exact (post_quiet _ _ _).toSteady
        · refine Steady.trans ?_ (addIntake_steady _ _ _ _ _ _)
          exact ⟨rfl, rfl, rfl, rfl, rfl, rfl⟩

theorem setCtr_steady (s : State) (key : Nat) (v : Word) : Steady s (s.setCtr key v) := by
  unfold State.setCtr
  split
  · exact Steady.refl s
  · split
    · refine Steady.trans (t := { s with depctrs := s.depctrs.put key ⟨v, []⟩ }) ⟨rfl, rfl, rfl, rfl, rfl, rfl⟩ ?_
      exact steady_foldl (fun s (t : Nat × Task) => makeReady_steady s t.1 t.2) _ _
    · exact ⟨rfl, rfl, rfl, rfl, rfl, rfl⟩

theorem taskDone_steady (s : State) (l : Launch) : Steady s (s.taskDone l) := by
  unfold State.taskDone
  split
  · exact Steady.refl s
  · split
    · exact Steady.refl s
    · split
      · exact (post_quiet s _ _).toSteady
      · exact setCtr_steady s _ _

theorem jobDone_steady (s : State) (j : Option Nat) (failed : Bool) : Steady s (s.jobDone j failed) := by
  unfold State.jobDone
  split
  · exact Steady.refl s
  · split
    · exact Steady.refl s
    · exact ⟨rfl, rfl, rfl, rfl, rfl, rfl⟩

theorem freeGals_steady (s : State) (ctx : Nat) : Steady s (s.freeGals ctx) := by
  refine steady_foldl (fun s q => ?_) _ s
  dsimp only
  split <;> split <;> exact ⟨rfl, rfl, rfl, rfl, rfl, rfl⟩

/-- The module without a unit's record, its claims, its groups and their barriers. -/
def State.clearUnit (s : State) (u : Nat) (r : UnitRec) : State :=
  { s.unclaim (.unit u) with
    units := s.units.del u
    groups := s.groups.filter fun q => q.2.unit ≠ u
    bars := s.bars.filter fun (b : Bar) => b.unit != BarUnit.gang u && !(match b.unit with
      | .group g => r.gids.contains g
      | .seg g _ => r.gids.contains g
      | _ => false) }

/-- A unit is over (R29): its record and its groups are gone, and what stands on the cores is left. -/
theorem endUnit_ends (s : State) (u : Nat) (failed : Bool) (r : UnitRec) (h : s.units.find u = some r) :
    (s.endUnit u failed).warps = s.warps ∧ (s.endUnit u failed).cores = s.cores ∧ (s.endUnit u failed).units = s.units.del u ∧
      ∀ q ∈ (s.endUnit u failed).groups, q.2.unit ≠ u := by
  have hgone : ∀ q ∈ (s.clearUnit u r).groups, q.2.unit ≠ u := fun q hq => by simpa using (List.mem_filter.1 hq).2
  unfold State.endUnit
  rw [h]
  dsimp only
  split
  · exact ⟨rfl, rfl, rfl, hgone⟩
  · next l hl =>
    have hv : ∀ k j c, Steady (s.clearUnit u r) ((((s.clearUnit u r).taskDone k).jobDone j failed).freeGals c) := fun k j c =>
      ((taskDone_steady _ k).trans (jobDone_steady _ j failed)).trans (freeGals_steady _ c)
    have hv := hv { l with ended := l.ended + 1 } l.job l.ctx
    have hin : ∀ q ∈ ((((s.clearUnit u r).taskDone { l with ended := l.ended + 1 }).jobDone l.job failed).freeGals l.ctx).groups,
        q.2.unit ≠ u := by rw [hv.groups]; exact hgone
    split
    · exact ⟨hv.warps, hv.cores, hv.units, fun q hq => hin q (List.mem_filter.1 hq).1⟩
    · exact ⟨hv.warps, hv.cores, hv.units, hin⟩

end Sys2Proof.Machine
end

section
/-! SUPPORT. The release of a drained group (R29). -/

namespace Sys2Proof.Machine

/-! ### Tiles -/

theorem ownTiles_eq (s : State) (core : Nat) (ts : List Nat) (o : Option Nat) : ∃ cs, s.ownTiles core ts o = { s with cores := cs } := by
  induction ts generalizing s with
  | nil => exact ⟨s.cores, rfl⟩
  | cons t ts ih =>
    obtain ⟨cs, h⟩ := ih (s.onTile core t fun y => { y with owner := o, seq := if o.isNone then [] else y.seq })
    exact ⟨cs, h⟩

theorem tile_onTile_other (s : State) (core t n : Nat) (f : Tile → Tile) (h : n ≠ t) : (s.onTile core t f).tile core n = s.tile core n := by
  unfold State.onTile State.tile
  rw [core_onCore_same]
  simp [setAt, Ne.symm h]

/-- A tile number beyond the tiles of a core reads as a tile without an owner. -/
theorem tile_onTile_owner_none (s : State) (core t : Nat) (f : Tile → Tile) (h : ∀ y, (f y).owner = none) :
    ((s.onTile core t f).tile core t).owner = none := by
  unfold State.onTile State.tile
  rw [core_onCore_same]
  by_cases hl : t < (s.core core).tiles.length
  · simp [setAt, hl, h]
  · simp [setAt, hl]

/-- Tiles given back have no owner (R29, R272). -/
theorem ownTiles_none (s : State) (core n : Nat) (ts : List Nat) (h : n ∈ ts ∨ (s.tile core n).owner = none) :
    ((s.ownTiles core ts none).tile core n).owner = none := by
  induction ts generalizing s with
  | nil => simpa [State.ownTiles] using h
  | cons t ts ih =>
    refine ih (s.onTile core t fun y => { y with owner := none, seq := [] }) ?_
    by_cases hn : n = t
    · subst hn
      exact Or.inr (tile_onTile_owner_none s core n _ fun _ => rfl)
    · rw [tile_onTile_other s core t n _ hn]
      simpa [hn] using h

/-! ### Galleries of a group -/

/-- A group has let go of galleries: it and the directory have changed, and nothing else that stands on the cores. -/
structure LetGo (gid : Nat) (s t : State) : Prop where
  frame : Steady { s with groups := t.groups } t
  group : ∀ x, s.group gid = some x → ∃ gs, t.group gid = some { x with gals := gs }

theorem LetGo.refl (gid : Nat) (s : State) : LetGo gid s s := ⟨Steady.refl s, fun x h => ⟨x.gals, h⟩⟩

theorem LetGo.trans {gid : Nat} {s t u : State} (a : LetGo gid s t) (b : LetGo gid t u) : LetGo gid s u := by
  refine ⟨⟨b.frame.mem.trans a.frame.mem, b.frame.warps.trans a.frame.warps, b.frame.cores.trans a.frame.cores,
    b.frame.units.trans a.frame.units, rfl, b.frame.bars.trans a.frame.bars⟩, fun x h => ?_⟩
  obtain ⟨_, h⟩ := a.group x h
  obtain ⟨gs, h⟩ := b.group _ h
  exact ⟨gs, h⟩

theorem tab_find_alter {α : Type} (t : Tab α) (k : Nat) (f : α → α) : (t.alter k f).find k = (t.find k).map f := by
  unfold Tab.alter
  cases h : t.find k with
  | none => exact h
  | some v => exact tab_find_put_same t k (f v)

theorem detach_letGo (s : State) (gid : Nat) (name : DWord) : LetGo gid s (s.detach gid name) := by
  have hg : ∀ x, s.group gid = some x → ∃ gs,
      (s.groups.alter gid fun (x : Group) => { x with gals := x.gals.filter fun y => y.1 != name }).find gid = some { x with gals := gs } :=
    fun x h => ⟨_, by rw [tab_find_alter, show s.groups.find gid = some x from h]; rfl⟩
  unfold State.detach
  dsimp only
  split
  · exact ⟨⟨rfl, rfl, rfl, rfl, rfl, rfl⟩, hg⟩
  · exact ⟨⟨rfl, rfl, rfl, rfl, rfl, rfl⟩, hg⟩

theorem detachAll_letGo (s : State) (gid : Nat) : LetGo gid s (s.detachAll gid) :=
  List.foldlRecOn _ _ (LetGo.refl gid s) fun _ h x _ => h.trans (detach_letGo _ gid x.1)

/-! ### The end of the last group -/

theorem checkBars_none {s t : State} (ht : s.checkBars = t) (h : s.bars = []) : Steady s t := by
  subst ht
  unfold State.checkBars
  simp only [h, List.filter_nil, List.foldl_nil]
  exact ⟨rfl, rfl, rfl, rfl, rfl, h.symm⟩

/-- A group that is alone in the only warp slot leaves every slot empty. -/
theorem vacate_alone (s : State) (gid w : Nat) (wp : Warp) (hw : s.warps = [(w, wp)]) (hne : wp.segs ≠ [])
    (hall : ∀ h ∈ wp.segs, h.gid = gid) : s.vacate gid = { s with warps := [] } := by
  have hof : s.warpsOf gid = [w] := by
    obtain ⟨g, gs, hs⟩ := List.exists_cons_of_ne_nil hne
    have : g.gid = gid := hall g (by simp [hs])
    simp [State.warpsOf, hw, hs, this]
  have hwp : s.warp w = wp := by simp [State.warp, hw, Tab.find]
  have hleft : (wp.segs.filter fun g => g.gid != gid) = [] := by
    simpa [List.filter_eq_nil_iff] using hall
  simp only [State.vacate, hof, List.foldl_cons, List.foldl_nil, hwp, hleft, if_true, hw, Tab.del]

/-- The resources of a group that is alone in the only warp slot are free (R29). -/
theorem freeGroup_alone (s : State) (gid w : Nat) (wp : Warp) (x : Group) (hx : s.group gid = some x) (hw : s.warps = [(w, wp)])
    (hne : wp.segs ≠ []) (hall : ∀ h ∈ wp.segs, h.gid = gid) :
    ∃ cs, s.freeGroup gid = { s with warps := [], cores := cs } ∧ ∀ n ∈ x.tiles, ((s.freeGroup gid).tile x.core n).owner = none := by
  have hf : s.freeGroup gid = ({ s with warps := [] } : State).ownTiles x.core x.tiles none := by
    unfold State.freeGroup
    rw [hx]
    dsimp only
    rw [vacate_alone s gid w wp hw hne hall]
  obtain ⟨cs, hcs⟩ := ownTiles_eq { s with warps := [] } x.core x.tiles none
  exact ⟨cs, hf.trans hcs, fun n hn => by rw [hf]; exact ownTiles_none _ _ _ _ (Or.inl hn)⟩

/-- What stands on the cores once a group that is alone in the only warp slot has let go of its galleries and its resources are free. -/
theorem detached_freed (s : State) (gid w : Nat) (wp : Warp) (x : Group) (hx : s.group gid = some x) (hw : s.warps = [(w, wp)])
    (hne : wp.segs ≠ []) (hall : ∀ h ∈ wp.segs, h.gid = gid) (hb : s.bars = []) :
    ∃ v : State, (s.detachAll gid).freeGroup gid = v ∧ v.warps = [] ∧ v.units = s.units ∧ v.bars = [] ∧ (∃ y, v.group gid = some y) ∧
      ∀ n ∈ x.tiles, (v.tile x.core n).owner = none := by
  have hd := detachAll_letGo s gid
  obtain ⟨gs, hdx⟩ := hd.group x hx
  obtain ⟨cs, hfree, htiles⟩ := freeGroup_alone (s.detachAll gid) gid w wp _ hdx (hd.frame.warps.trans hw) hne hall
  rw [hfree] at htiles
  exact ⟨_, hfree, rfl, hd.frame.units, hd.frame.bars.trans hb, ⟨_, hdx⟩, htiles⟩

/-- The last group of a unit, alone in the only warp slot, is released: its slots are empty, its tiles have no owner, and its unit is over (R29). -/
theorem releaseGroup_last (s : State) (gid w : Nat) (wp : Warp) (x : Group) (r : UnitRec) (hx : s.group gid = some x)
    (hr : s.units.find x.unit = some r) (hg : r.gids = [gid]) (hk : r.st ≠ .killed) (hw : s.warps = [(w, wp)]) (hne : wp.segs ≠ [])
    (hall : ∀ h ∈ wp.segs, h.gid = gid) (hb : s.bars = []) :
    ∃ v : State, s.releaseGroup gid = v.endUnit x.unit false ∧ v.warps = [] ∧ v.units = s.units ∧
      ∀ n ∈ x.tiles, (v.tile x.core n).owner = none := by
  obtain ⟨f, hf, hfw, hfu, hfb, ⟨y, hfy⟩, hft⟩ := detached_freed s gid w wp x hx hw hne hall hb
  have halive : (((f.units.find x.unit).map fun r => r.st == .killed).getD false) = false := by simp [hfu, hr, hk]
  unfold State.releaseGroup
  rw [hx]
  dsimp only
  rw [hf]
  simp only [halive]
  generalize hv : State.checkBars _ = v
  have hc := checkBars_none hv hfb
  have hvu : v.units.find x.unit = some r := by rw [hc.units, hfu, hr]
  have hvr : (r.gids.all fun g => ((v.group g).map Group.released).getD true) = true := by
    have : f.groups.find gid = some y := hfy
    simp [hg, State.group, hc.groups, tab_find_alter, this]
  refine ⟨v, ?_, hc.warps.trans hfw, hc.units.trans hfu, fun n hn => ?_⟩
  · simp [hvu, hvr]
  · have : v.tile x.core n = f.tile x.core n := by simp only [State.tile, State.core, hc.cores]
    rw [this]
    exact hft n hn

/-- `GROUP_RELEASE` of a group that has not drained does nothing (R29). -/
theorem execGroupRelease_undrained (s : State) (g : Nat) (x : Group) (hx : s.group g = some x) (hd : s.groupDrained g = false) :
    execGroupRelease g s = .next s := by
  simp [execGroupRelease, hx, hd]

/-- `GROUP_RELEASE` of a drained group that stands on a core releases it (R29). -/
theorem execGroupRelease_drained (s : State) (g : Nat) (x : Group) (hx : s.group g = some x) (hp : x.placed = true) (hr : x.released = false)
    (hd : s.groupDrained g = true) : execGroupRelease g s = .next (s.releaseGroup g) := by
  simp [execGroupRelease, hx, hp, hr, hd]

end Sys2Proof.Machine
end

section
/-! SUPPORT. The first placement of a unit of one group of one segment on a core of its die (R27, R28, R52, R53, R259 to R263). -/

namespace Sys2Proof.Machine

/-! ### A segment in a warp slot -/

theorem slots_getLsbD (g : Seg) (j : Nat) (h : g.lbase + g.width ≤ 64) (hj : g.hasLane j = true) : g.slots.getLsbD j = true := by
  simp only [Seg.hasLane, decide_eq_true_eq] at hj
  simp only [Seg.slots, lowMask, BitVec.getLsbD_shiftLeft, BitVec.getLsbD_ofNat, Nat.testBit_two_pow_sub_one]
  simp
  omega

/-- A segment that has joined others stands at its base. -/
theorem find_insertSeg (g : Seg) (l : List Seg) : (insertSeg g l).find? (fun h => h.lbase == g.lbase) = some g := by
  have : (l.filter fun h => h.lbase < g.lbase).find? (fun h => h.lbase == g.lbase) = none := by
    simp only [List.find?_eq_none, List.mem_filter, decide_eq_true_eq, beq_iff_eq]
    omega
  simp [insertSeg, List.find?_append, this]

theorem seat_segAt (wp : Warp) (g : Seg) (pcs : List DWord) : (wp.seat g pcs).segAt g.lbase = some g := find_insertSeg g _

theorem seat_pc (wp : Warp) (g : Seg) (pcs : List DWord) (j : Nat) (hj : j < 64) (h : g.hasLane j = true) :
    (wp.seat g pcs).pc j = pcs.getD (j - g.lbase) 0 := by
  unfold Warp.seat Warp.pc
  dsimp only
  rw [allLanes_map_getD _ _ _ hj, if_pos h]

theorem seat_live (wp : Warp) (g : Seg) (pcs : List DWord) (j : Nat) (h : g.slots.getLsbD j = true) :
    (wp.seat g pcs).live.getLsbD j = true := by
  refine BitVec.getLsbD_or.trans ?_
  rw [h, Bool.or_true]

/-- The lanes that a register file is set in hold the words given, but in a register that nothing has written (R53). -/
theorem setLanes_word (m : Mask) (regs : List VReg) (f : Nat → Nat → Word) (n j : Nat) (hj : m.getLsbD j = true)
    (ht : ((setLanes m regs f).getD n VReg.reset).tag ≠ .void) : ((setLanes m regs f).getD n VReg.reset).word j = f n j := by
  unfold setLanes at ht ⊢
  by_cases hn : n < regs.length
  · simp only [List.getD_eq_getElem?_getD, List.getElem?_mapIdx, List.getElem?_eq_getElem hn, Option.map_some, Option.getD_some] at ht ⊢
    split
    · next hv =>
      rw [if_pos hv] at ht
      exact absurd hv ht
    · unfold VReg.word wordAt
      rw [allLanes_map_getD _ _ _ (lane_lt m j hj), if_pos hj]
  · rw [List.getD_eq_default _ _ (by simpa using hn)] at ht
    exact absurd rfl ht

theorem seat_word (wp : Warp) (g : Seg) (pcs : List DWord) (n j : Nat) (hj : g.slots.getLsbD j = true)
    (ht : ((wp.seat g pcs).reg n).tag ≠ .void) : ((wp.seat g pcs).reg n).word j = 0 := setLanes_word g.slots _ _ n j hj ht

/-! ### A group at its first placement -/

/-- The module with the record of a unit that is about to be placed, its groups still to come (R259). -/
def State.openUnit (s : State) (lnum number : Nat) : State :=
  { s with
    nextNo := s.nextNo + 1
    units := s.units.put s.nextNo
      { launch := lnum, number := number, gids := [], st := .placed, placedAt := s.now, stopAt := 0, told := false, kills := 0, hid := 0 } }

/-- The record of a group at its first placement (R27, R28, R274, R281). -/
structure Group.First (x : Group) (c u n : Nat) (ts : List Nat) : Prop where
  core : x.core = c
  unit : x.unit = u
  grp : x.grp = n
  gen : x.gen = 1
  placed : x.placed = true
  released : x.released = false
  tiles : x.tiles = ts
  gals : x.gals = []
  vcore : x.vcore = c

/-- The module with a group on record, and in its unit's record, that no core holds yet. -/
def State.record (s : State) (unit : Nat) (x : Group) : State :=
  { s with
    nextNo := s.nextNo + 1
    groups := s.groups.put s.nextNo x
    units := s.units.alter unit fun (u : UnitRec) => { u with gids := u.gids ++ [s.nextNo] } }

/-- A group of one segment placed for the first time (R27, R28, R281). -/
theorem seatGroup_one (s : State) (core lnum unit grp k lb : Nat) (l : Launch) (f : Fit) (hg : s.ghost lnum grp = none)
    (hk : f.slots = [(k, lb)]) :
    ∃ x : Group, x.First core unit grp f.tiles ∧
      s.seatGroup core lnum unit grp l f = (((s.record unit x).ungate core).ownTiles core f.tiles (some s.nextNo)).onWarp (core * 16 + k)
        fun wp => wp.seat (Seg.fresh s.nextNo 0 k lb l) (List.replicate l.width l.entry) := by
  unfold State.seatGroup
  simp only [hg, hk]
  refine ⟨_, ?_, rfl⟩
  exact ⟨rfl, rfl, rfl, rfl, rfl, rfl, rfl, rfl, rfl⟩

/-- A group of one segment placed for the first time: its record, and the segment in its slot (R27, R28). -/
theorem seatGroup_first (s : State) (core lnum unit grp k lb : Nat) (l : Launch) (f : Fit) (hg : s.ghost lnum grp = none)
    (hk : f.slots = [(k, lb)]) :
    ∃ (x : Group) (wp : Warp) (t : State), s.seatGroup core lnum unit grp l f = t ∧ x.First core unit grp f.tiles ∧
      t.mem = s.mem ∧ t.intake = s.intake ∧ t.groups = s.groups.put s.nextNo x ∧
      t.units = s.units.alter unit (fun (u : UnitRec) => { u with gids := u.gids ++ [s.nextNo] }) ∧
      t.warp (core * 16 + k) = wp.seat (Seg.fresh s.nextNo 0 k lb l) (List.replicate l.width l.entry) := by
  obtain ⟨x, hx, h⟩ := seatGroup_one s core lnum unit grp k lb l f hg hk
  have hq := ungate_quiet (s.record unit x) core
  obtain ⟨cs, hcs⟩ := ownTiles_eq ((s.record unit x).ungate core) core f.tiles (some s.nextNo)
  rw [hcs] at h
  exact ⟨x, _, _, h, hx, hq.mem, hq.intake, hq.groups, hq.units, warp_onWarp_same _ _ _⟩

theorem ghost_openUnit (s : State) (lnum number grp : Nat) (h : s.ghost lnum grp = none) :
    (s.openUnit lnum number).ghost lnum grp = none := by
  have hfind : ∀ u, ((s.openUnit lnum number).units.find u).isNone = true → (s.units.find u).isNone = true := by
    intro u hu
    by_cases hn : u = s.nextNo
    · subst hn
      rw [State.openUnit, tab_find_put_same] at hu
      cases hu
    · rwa [State.openUnit, tab_find_put_other _ _ _ _ hn] at hu
  simp only [State.ghost, List.find?_eq_none, Bool.and_eq_true, not_and] at h ⊢
  exact fun q hq hs hu => h q hq hs (hfind _ hu)

/-! ### Position masks -/

theorem tab_find_mapV {α : Type} (t : Tab α) (f : Nat → α → α) (k : Nat) : (t.mapV f).find k = (t.find k).map (f k) := by
  induction t with
  | nil => rfl
  | cons p t ih =>
    obtain ⟨j, v⟩ := p
    simp only [Tab.mapV, List.map_cons, Tab.find] at ih ⊢
    split
    · next h => rw [h]; rfl
    · split
      · rfl
      · exact ih

theorem tab_mem_of_find {α : Type} (t : Tab α) (k : Nat) (v : α) (h : t.find k = some v) : (k, v) ∈ t := by
  induction t with
  | nil => cases h
  | cons p t ih =>
    obtain ⟨j, u⟩ := p
    simp only [Tab.find] at h
    split at h
    · next hj => cases h; simp [hj]
    · split at h
      · cases h
      · exact List.mem_cons_of_mem _ (ih h)

/-- A bit that one member of a list sets, or that is set at the start, stands in the mask of the list. -/
theorem getLsbD_foldl_or {α : Type} {n : Nat} (p : α → Prop) [DecidablePred p] (f : α → BitVec n) (b : Nat) (l : List α) (m : BitVec n)
    (h : m.getLsbD b = true ∨ ∃ y ∈ l, p y ∧ (f y).getLsbD b = true) :
    (l.foldl (fun m y => if p y then m ||| f y else m) m).getLsbD b = true := by
  induction l generalizing m with
  | nil => simpa using h
  | cons y l ih =>
    refine ih _ ?_
    rcases h with h | ⟨z, hz, hp, hf⟩
    · left
      dsimp only
      split
      · simp [BitVec.getLsbD_or, h]
      · exact h
    · rcases List.mem_cons.1 hz with rfl | hz
      · left; simp [hp, BitVec.getLsbD_or, hf]
      · exact Or.inr ⟨z, hz, hp, hf⟩

/-- The masks of a unit's groups are fixed: a group of it keeps all else, and its own core stands in its core mask (R27, R274). -/
theorem fixMasks_group (s : State) (g u : Nat) (x : Group) (hx : s.group g = some x) (hxu : x.unit = u) (hr : x.released = false)
    (hu : (s.units.find u).isSome = true) :
    ∃ gc gq, (s.fixMasks u).group g = some { x with gcores := gc, gquads := gq } ∧ gc.getLsbD (x.vcore % 4) = true := by
  subst hxu
  unfold State.fixMasks State.group
  dsimp only
  rw [tab_find_mapV, show s.groups.find g = some x from hx]
  simp only [Option.map_some, ne_eq, not_true_eq_false, if_false]
  refine ⟨_, _, rfl, getLsbD_foldl_or _ _ _ _ _ (Or.inr ⟨x, ?_, rfl, ?_⟩)⟩
  · have hmem : x ∈ s.groups.map Prod.snd := List.mem_map.2 ⟨(g, x), tab_mem_of_find _ _ _ hx, rfl⟩
    simp [List.mem_filter, hmem, hr, hu]
  · rw [BitVec.getLsbD_ofNat, Nat.testBit_two_pow_self]
    simp [Nat.mod_lt]

/-! ### Choosing the core -/

/-- What a core can take does not depend on the units on record or on the number that is fresh. -/
theorem bestCore_openUnit (s : State) (lnum number : Nat) (p : Seater) (cores : List Nat) (l : Launch) (mates : List Nat) (x : Nat) :
    (s.openUnit lnum number).bestCore p cores l mates x = s.bestCore p cores l mates x := rfl

theorem seatAll_one (s : State) (p : Seater) (cores : List Nat) (l : Launch) (x c : Nat) (f : Fit)
    (h : s.bestCore p cores l [] x = some (c, f)) (hw : f.waits = false) : s.seatAll p cores l [x] [] = .placed (p.put s c x f) := by
  simp [State.seatAll, h, hw]

theorem seatUnit_core (s : State) (p : Seater) (die : Nat) (l : Launch) (xs : List Nat) (hr : l.reach = .core) (hg : l.gang = false) :
    s.seatUnit p die l xs = s.seatAll p (dieCores die) l xs [] := by
  simp [State.seatUnit, Launch.gangUnits, hr, hg]

theorem unitGroups_core (l : Launch) (k : Nat) (hr : l.reach = .core) (hg : l.gang = false) : l.unitGroups k = [k] := by
  simp [Launch.unitGroups, Launch.gangUnits, hr, hg]

/-- The next unit of an entry whose launch has units of one group is placed on the core that comes first (R259, R263). -/
theorem placeEntry_core (s : State) (die c : Nat) (i : Intake) (l : Launch) (f : Fit) (hl : s.launches.find i.launch = some l)
    (hr : l.reach = .core) (hg : l.gang = false) (hre : i.relaunch = none)
    (hb : s.bestCore (s.seater l i.launch s.nextNo (some i.arrival)) (dieCores die) l [] i.next = some (c, f)) (hw : f.waits = false) :
    s.placeEntry die i = .placed (((s.openUnit i.launch i.next).seatGroup c i.launch s.nextNo i.next l f).fixMasks s.nextNo) := by
  have hseat : (s.openUnit i.launch i.next).seatUnit (s.seater l i.launch s.nextNo (some i.arrival)) die l (l.unitGroups i.next)
      = .placed ((s.openUnit i.launch i.next).seatGroup c i.launch s.nextNo i.next l f) := by
    rw [seatUnit_core _ _ _ _ _ hr hg, unitGroups_core _ _ hr hg, seatAll_one _ _ _ _ _ _ _ ((bestCore_openUnit ..).trans hb) hw]
    rfl
  unfold State.placeEntry
  rw [hl]
  simp only [Intake.nextUnit, hre]
  split
  · next t ht => rw [Seating.placed.inj (hseat.symm.trans ht)]; rfl
  · next hn => exact absurd hseat (hn _)

/-- What the placement of a unit of one group of one segment leaves (R27, R28, R259): the group's record with its own core in its core mask, and
the segment in its slot. -/
theorem place_first (s : State) (lnum number c k lb : Nat) (l : Launch) (f : Fit) (hg : s.ghost lnum number = none) (hk : f.slots = [(k, lb)]) :
    ∃ (t : State) (x : Group) (gc : BitVec 4) (gq : BitVec 32) (wp : Warp),
      ((s.openUnit lnum number).seatGroup c lnum s.nextNo number l f).fixMasks s.nextNo = t ∧
      x.First c s.nextNo number f.tiles ∧ t.mem = s.mem ∧ t.intake = s.intake ∧
      t.group (s.nextNo + 1) = some { x with gcores := gc, gquads := gq } ∧ gc.getLsbD (c % 4) = true ∧
      t.warp (c * 16 + k) = wp.seat (Seg.fresh (s.nextNo + 1) 0 k lb l) (List.replicate l.width l.entry) := by
  obtain ⟨x, wp, t, ht, hx, hmem, hint, hgs, hus, hwp⟩ :=
    seatGroup_first (s.openUnit lnum number) c lnum s.nextNo number k lb l f (ghost_openUnit s lnum number number hg) hk
  have hfind : t.group (s.nextNo + 1) = some x := by
    rw [State.group, hgs]
    exact tab_find_put_same _ _ _
  have hunit : (t.units.find s.nextNo).isSome = true := by
    rw [hus, tab_find_alter, State.openUnit, tab_find_put_same]
    rfl
  obtain ⟨gc, gq, hfix, hbit⟩ := fixMasks_group t (s.nextNo + 1) s.nextNo x hfind hx.unit hx.released hunit
  rw [hx.vcore] at hbit
  rw [ht]
  exact ⟨_, x, gc, gq, wp, rfl, hx, hmem, hint, hfix, hbit, hwp⟩

/-! ### The row -/

theorem intakeOrder_one (i : Intake) (h : i.prio ≤ 3) : intakeOrder [i] = [i] := by
  have : i.prio = 0 ∨ i.prio = 1 ∨ i.prio = 2 ∨ i.prio = 3 := by omega
  rcases this with h | h | h | h <;> simp [intakeOrder, h]

theorem mem_of_mem_intakeOrder {i : Intake} {l : List Intake} (h : i ∈ intakeOrder l) : i ∈ l := by
  obtain ⟨c, -, h⟩ := List.mem_flatMap.1 h
  exact List.mem_of_mem_filter h

/-- A unit that is alone in its list is kept off its die by no other (R260). -/
theorem dieBlocked_alone (s : State) (die prio : Nat) (i : Intake) (h : s.intake.find die = some [i]) :
    s.dieBlocked die prio (some i.arrival) = false := by
  simp [State.dieBlocked, h]

/-- A unit without gallery affinity waits for no gallery (R194). -/
theorem awaitsGallery_none (s : State) (die : Nat) (l : Launch) (t : Option Nat) (h : l.gaff = 0) : s.awaitsGallery die l t = false := by
  unfold State.awaitsGallery
  split
  · simp [h]
  · rfl

/-- The last unit of the only entry of a list leaves the list empty. -/
theorem advanceIntake_last (s : State) (die : Nat) (i : Intake) (h : s.intake.find die = some [i]) (hn : i.next + 1 = i.units) :
    (s.advanceIntake die i.arrival).intake.find die = some [] := by
  have hadv : i.advance = none := by simp [Intake.advance, hn]
  simp [State.advanceIntake, State.setIntake, h, hadv]

/-- `UNIT_PLACEMENT` places the only unit of a list that no gallery keeps waiting (R259). -/
theorem execUnitPlacement_placed (s t : State) (die : Nat) (i : Intake) (l : Launch) (h : s.intake.find die = some [i])
    (hl : s.launches.find i.launch = some l) (hga : l.gaff = 0) (hp : i.prio ≤ 3) (ht : s.placeEntry die i = .placed t) :
    execUnitPlacement die s = .next (t.advanceIntake die i.arrival) := by
  simp [execUnitPlacement, h, intakeOrder_one i hp, hl, dieBlocked_alone s die i.prio i h, awaitsGallery_none s die l i.headAt hga, ht]

/-- A unit that has headed its class too long keeps another unit of its own or a lower class off its die (R260). -/
theorem dieBlocked_behind (s : State) (die n : Nat) (i j : Intake) (h : j ∈ (s.intake.find die).getD []) (hne : i.arrival ≠ j.arrival)
    (hp : i.prio ≤ j.prio) (hj : j.headAt = some n) (hn : n + 16384 ≤ s.now) : s.dieBlocked die i.prio (some i.arrival) = true := by
  refine List.any_eq_true.2 ⟨j, h, ?_⟩
  simp [Ne.symm hne, hp, State.headBlocks, hj, hn]

/-- `UNIT_PLACEMENT` of a list whose first entry has no place and keeps the second waiting does nothing (R260). -/
theorem execUnitPlacement_blocked (s : State) (die n : Nat) (i j : Intake) (h : s.intake.find die = some [j, i]) (hne : i.arrival ≠ j.arrival)
    (hi : (s.launches.find i.launch).isSome = true) (hjl : (s.launches.find j.launch).isSome = true) (hj : j.headAt = some n)
    (hn : n + 16384 ≤ s.now) (hp : i.prio ≤ j.prio) (hpl : s.placeEntry die j = .none) : execUnitPlacement die s = .next s := by
  have hblock := dieBlocked_behind s die n i j (by simp [h]) hne hp hj hn
  obtain ⟨li, hi⟩ := Option.isSome_iff_exists.1 hi
  obtain ⟨lj, hjl⟩ := Option.isSome_iff_exists.1 hjl
  unfold execUnitPlacement
  dsimp only
  rw [List.findSome?_eq_none_iff.2 fun x hx => ?_]
  · rfl
  · have hx := mem_of_mem_intakeOrder hx
    rw [h] at hx
    simp only [Option.getD_some, List.mem_cons, List.not_mem_nil, or_false] at hx
    rcases hx with rfl | rfl
    · simp [hjl, hpl]
    · simp [hi, hblock]

/-! ### The other rows of intake -/

/-- `INTAKE_HEAD_BLOCK` marks the only entry if it is the one named and has headed its class for 16,384 cycles (R260). -/
theorem execIntakeHeadBlock_one (s : State) (die u : Nat) (i : Intake) (h : s.intake = [(die, [i])]) :
    execIntakeHeadBlock u s = .next { s with
      intake := [(die, [{ i with blocks := i.blocks || (decide (i.arrival = u) && i.headAt.any fun n => decide (n + 16384 ≤ s.now)) }])] } := by
  obtain ⟨launch, prio, arrival, next, units, headAt, blocks, relaunch⟩ := i
  unfold execIntakeHeadBlock
  rw [h]
  cases headAt with
  | none => simp [Tab.mapV]
  | some n =>
    by_cases hc : arrival = u ∧ n + 16384 ≤ s.now
    · simp [Tab.mapV, hc]
    · have hc' : (decide (arrival = u) && decide (n + 16384 ≤ s.now)) = false := by simpa using hc
      simp [Tab.mapV, hc, hc']

/-- A fold that keeps its choice or takes the present element comes to its first choice or to an element of the list. -/
theorem foldl_choice_mem {α β : Type} (f : Option (α × β) → α → Option (α × β)) (hf : ∀ b a, f b a = b ∨ ∃ n, f b a = some (a, n))
    (l : List α) (b : Option (α × β)) (y : α × β) (h : l.foldl f b = some y) : b = some y ∨ y.1 ∈ l := by
  induction l generalizing b with
  | nil => exact Or.inl h
  | cons a l ih =>
    rcases ih (f b a) h with hb | hl
    · rcases hf b a with he | ⟨n, he⟩
      · exact Or.inl (he.symm.trans hb)
      · cases he.symm.trans hb
        exact Or.inr List.mem_cons_self
    · exact Or.inr (List.mem_cons_of_mem a hl)

/-- The die to which a task goes is another one of the package, without a waiting unit of its class or a higher one (R265). -/
theorem stealDie_spec (s : State) (die e : Nat) (i : Intake) (l : Launch) (h : s.stealDie die i l = some e) :
    e ≠ die ∧ e < 4 ∧ ∀ j ∈ (s.intake.find e).getD [], j.prio < i.prio := by
  unfold State.stealDie at h
  obtain ⟨y, hy, rfl⟩ := Option.map_eq_some_iff.1 h
  have hchoice : y.1 ∈ _ := (foldl_choice_mem _ (fun b a => ?_) _ _ _ hy).resolve_left nofun
  · simp only [ne_eq, Config.dies, List.mem_filter, List.mem_range, Bool.and_eq_true, decide_eq_true_eq, Bool.not_eq_true',
      List.any_eq_false, Nat.not_le] at hchoice
    obtain ⟨hlt, ⟨hne, hprio⟩, -⟩ := hchoice
    exact ⟨hne, hlt, hprio⟩
  · dsimp only
    split
    · exact Or.inr ⟨_, rfl⟩
    · split
      · exact Or.inr ⟨_, rfl⟩
      · exact Or.inl rfl

section
variable (s : State) (die n : Nat) (i : Intake) (l : Launch) (h : s.intake = [(die, [i])]) (hl : s.launches.find i.launch = some l)
  (hh : i.headAt = some n)
include h hl hh

/-- `TASK_STEAL` before the steal delay has passed does nothing (R265). -/
theorem execTaskSteal_early (hn : s.now < n + (s.die die).stealDly) : execTaskSteal i.arrival s = .next s := by
  simp [execTaskSteal, h, hl, hh, hn]

variable (e : Nat) (ht : l.taskq.isSome = true) (hn : n + (s.die die).stealDly ≤ s.now) (he : s.stealDie die i l = some e)
include ht hn he

/-- `TASK_STEAL` of a task that the other die places (R265). -/
theorem execTaskSteal_placed (v : State) (hv : s.placeEntry e i = .placed v) : execTaskSteal i.arrival s = .next (v.advanceIntake die i.arrival) := by
  have hq : l.taskq ≠ none := by simpa [Option.isSome_iff_ne_none] using ht
  simp [execTaskSteal, h, hl, hh, hq, Nat.not_lt.2 hn, he, hv]

/-- `TASK_STEAL` of a task for which galleries have to leave first (R193, R265). -/
theorem execTaskSteal_evict (v : State) (hv : s.placeEntry e i = .evict v) : execTaskSteal i.arrival s = .next { s with gals := v.gals } := by
  have hq : l.taskq ≠ none := by simpa [Option.isSome_iff_ne_none] using ht
  simp [execTaskSteal, h, hl, hh, hq, Nat.not_lt.2 hn, he, hv]

end

end Sys2Proof.Machine
end

section
/-! SUPPORT. The concourse's rows: placement, stealing, blocking and release. -/

namespace Sys2Proof.Machine

theorem exec_unitPlacement (die : Nat) (s : State) : exec (.unitPlacement die) s = execUnitPlacement die s := rfl
theorem exec_taskSteal (u : Nat) (s : State) : exec (.taskSteal u) s = execTaskSteal u s := rfl
theorem exec_intakeHeadBlock (u : Nat) (s : State) : exec (.intakeHeadBlock u) s = execIntakeHeadBlock u s := rfl
theorem exec_groupRelease (g : Nat) (s : State) : exec (.groupRelease g) s = execGroupRelease g s := rfl

/-- What stands in a slot in which a first segment has been seated: the segment, and in each of its lanes the entry of its launch, a live thread and
registers of 0 (R40, R52, R53). -/
theorem seat_fresh (wp : Warp) (gid k lb : Nat) (l : Launch) (hlb : lb + l.width ≤ 64) :
    let t := wp.seat (Seg.fresh gid 0 k lb l) (List.replicate l.width l.entry)
    t.segAt lb = some (Seg.fresh gid 0 k lb l) ∧ ∀ j, lb ≤ j → j < lb + l.width →
      t.pc j = l.entry ∧ t.live.getLsbD j = true ∧ ∀ n, (t.reg n).tag ≠ .void → (t.reg n).word j = 0 := by
  refine ⟨seat_segAt wp (Seg.fresh gid 0 k lb l) _, fun j hj hj' => ?_⟩
  have hlane : (Seg.fresh gid 0 k lb l).hasLane j = true := decide_eq_true ⟨hj, hj'⟩
  have hslot := slots_getLsbD (Seg.fresh gid 0 k lb l) j hlb hlane
  refine ⟨?_, seat_live wp _ _ j hslot, fun n => seat_word wp _ _ n j hslot⟩
  rw [seat_pc wp _ _ j (by omega) hlane]
  exact List.getD_replicate _ (show j - lb < l.width by omega)

/-- Settles O43. Placement: the row takes the one entry of the list (`execUnitPlacement_placed`), and `place_first` says what seating its
group leaves; the other clauses are the row's equation in the case at hand, and for the last release `releaseGroup_last` with `endUnit_ends`. -/
theorem concourseEvents : Obligations.ConcourseEvents := by
  unfold Obligations.ConcourseEvents
  intro s die c k lb i l f
  refine ⟨?place, ?blocked, fun e => stealDie_spec s die e i l, ?steal, ?mark, ?release⟩
  case place =>
    intro hi hl hr hg hga _ hre hlast hghost hbest hwait hslot hlb hprio
    obtain ⟨t, x, gc, gq, wp, ht, hx, hmem, hint, hgrp, hbit, hwp⟩ := place_first s i.launch i.next c k lb l f hghost hslot
    have hplaced : s.placeEntry die i = .placed t := (placeEntry_core s die c i l f hl hr hg hre hbest hwait).trans (by rw [ht])
    have hst := advanceIntake_steady t die i.arrival
    have hwarp : (t.advanceIntake die i.arrival).warp (c * 16 + k) = t.warp (c * 16 + k) := by simp only [State.warp, hst.warps]
    refine ⟨_, (exec_unitPlacement die s).trans (execUnitPlacement_placed s t die i l hi hl hga hprio hplaced), hst.mem.trans hmem,
      advanceIntake_last t die i (by rw [hint, hi]) hlast, _, hgrp, hx.core, hx.grp, hx.gen, hx.placed, hx.tiles, hx.gals, hbit, ?_⟩
    rw [hwarp, hwp]
    exact seat_fresh wp (s.nextNo + 1) k lb l hlb
  case blocked =>
    intro j n hi hne hil hjl hj hn hp hpl
    exact ⟨s, execUnitPlacement_blocked s die n i j (by simp [hi, Tab.find]) hne hil hjl hj hn hp hpl, rfl⟩
  case steal =>
    intro e v n hi hl hh
    refine ⟨fun hn => ⟨s, execTaskSteal_early s die n i l hi hl hh hn, rfl⟩, fun hq hn he => ⟨fun hv => ?_, fun hv => ?_⟩⟩
    · have hst := advanceIntake_steady v die i.arrival
      exact ⟨_, execTaskSteal_placed s die n i l hi hl hh e hq hn he v hv, hst.groups, hst.warps, hst.mem⟩
    · exact ⟨_, execTaskSteal_evict s die n i l hi hl hh e hq hn he v hv, rfl⟩
  case mark =>
    intro u hi
    exact ⟨_, execIntakeHeadBlock_one s die u i hi, rfl, rfl⟩
  case release =>
    intro g x hx
    refine ⟨fun _ _ hd => ⟨s, execGroupRelease_undrained s g x hx hd, rfl⟩, ?_⟩
    intro r w wp hp hrel hd hr hgids hst hw hne hall hb
    obtain ⟨v, hv, hvw, hvu, hvt⟩ := releaseGroup_last s g w wp x r hx hr hgids hst hw hne hall hb
    obtain ⟨hew, hec, heu, heg⟩ := endUnit_ends v x.unit false r (by rw [hvu, hr])
    refine ⟨_, (execGroupRelease_drained s g x hx hp hrel hd).trans (by rw [hv]), hew.trans hvw, heu.trans (by rw [hvu]), heg, fun n hn => ?_⟩
    have htile : (v.endUnit x.unit false).tile x.core n = v.tile x.core n := by simp only [State.tile, State.core, hec]
    rw [htile]
    exact hvt n hn

end Sys2Proof.Machine
end

section
/-! SUPPORT. The usher: the lanes of a segment as bits, lanes sent to their `vpc`, and what an event makes of the segment (R26, R45, R46, R51). -/

namespace Sys2Proof.Machine

/-! ### The lanes of a segment -/

theorem lowMask_getLsbD (n l : Nat) : (lowMask n).getLsbD l = (decide (l < 64) && decide (l < n)) := by
  rw [lowMask, BitVec.getLsbD_ofNat, Nat.testBit_two_pow_sub_one]

theorem rel_getLsbD (g : Seg) (m : Mask) (l : Nat) : (g.rel m).getLsbD l = (decide (l < g.width) && m.getLsbD (g.lbase + l)) := by
  rw [Seg.rel, BitVec.getLsbD_and, lowMask_getLsbD, BitVec.getLsbD_ushiftRight]
  by_cases h : l < 64
  · simp [h, Bool.and_comm]
  · simp [BitVec.getLsbD_of_ge m (g.lbase + l) (by omega)]

/-- Segment lane `l` as a slot lane of a segment that lies in its slot. -/
theorem abs_getLsbD (g : Seg) (m : Mask) (l : Nat) (hf : g.lbase + g.width ≤ 64) (hl : l < g.width) :
    (g.abs m).getLsbD (g.lbase + l) = m.getLsbD l := by
  have h64 : g.lbase + l < 64 := by omega
  have : l < 64 := by omega
  simp [Seg.abs, lowMask_getLsbD, h64, hl, this]

theorem slots_getLsbD_eq (g : Seg) (j : Nat) : g.slots.getLsbD j = (decide (j < 64) && g.hasLane j) := by
  rw [Seg.slots, BitVec.getLsbD_shiftLeft, lowMask_getLsbD, Seg.hasLane]
  by_cases h : g.lbase ≤ j
  · have h1 : j < g.lbase + g.width ↔ j - g.lbase < g.width := by omega
    by_cases h2 : j < 64
    · have h3 : j - g.lbase < 64 := by omega
      simp [h, h1, h2, h3]
    · simp [h2]
  · simp [h]

theorem range_map_getD {α : Type} (n : Nat) (f : Nat → α) (b : α) (l : Nat) (h : l < n) : ((List.range n).map f).getD l b = f l := by
  simp [List.getD, h]

@[simp] theorem segRel_zero (g : Seg) : g.rel 0#64 = 0#64 := by simp [Seg.rel]

@[simp] theorem segAbs_zero (g : Seg) : g.abs 0#64 = 0#64 := by simp [Seg.abs]

@[simp] theorem lanesOf_zero : lanesOf 0#64 = [] := by simp [lanesOf]

/-! ### A warp slot of the module replaced -/

theorem apart_onWarp (s : State) (f : Warp → Warp) : (s.onWarp s.cur f).apart s.cur = s.apart s.cur := apart_setWarp s _

@[simp] theorem curWarp_onWarp (s : State) (f : Warp → Warp) : (s.onWarp s.cur f).curWarp = f s.curWarp := warp_onWarp_same _ _ _

/-- The module `t` is `s` with the warp `v` in the slot that runs. -/
structure Puts (s t : State) (v : Warp) : Prop where
  apart : t.apart s.cur = s.apart s.cur
  warp : t.curWarp = v

theorem Puts.refl (s : State) : Puts s s s.curWarp := ⟨rfl, rfl⟩

theorem Puts.cur {s t : State} {v : Warp} (h : Puts s t v) : t.cur = s.cur := by
  have : (t.apart s.cur).cur = (s.apart s.cur).cur := by rw [h.apart]
  exact this

theorem Puts.now {s t : State} {v : Warp} (h : Puts s t v) : t.now = s.now := by
  have : (t.apart s.cur).now = (s.apart s.cur).now := by rw [h.apart]
  exact this

theorem Puts.trans {s t u : State} {v w : Warp} (h : Puts s t v) (k : Puts t u w) : Puts s u w :=
  ⟨by rw [← h.cur, k.apart, h.cur, h.apart], k.warp⟩

/-- Another warp put in the place of the first. -/
theorem Puts.replaced {s t u : State} {v w : Warp} (h : Puts s t v) (k : Puts s u w) : Puts t u w :=
  ⟨by rw [h.cur, k.apart, h.apart], k.warp⟩

theorem puts_setWarp (s : State) (v : Warp) : Puts s (s.setWarp s.cur v) v := ⟨apart_setWarp s v, curWarp_setWarp s v⟩

theorem Puts.onWarp {s t : State} {v : Warp} (h : Puts s t v) (f : Warp → Warp) : Puts s (t.onWarp s.cur f) (f v) := by
  have k : Puts t (t.onWarp t.cur f) (f v) := ⟨apart_onWarp t f, by rw [curWarp_onWarp, h.warp]⟩
  rw [← h.cur]
  exact h.trans k

/-! ### A cause of the current slot -/

/-- A segment takes a cause of the slot that is no failed access and that nobody posts. -/
theorem takeAt_traps_at (s : State) (g : Seg) (m : Mask) (code : Nat) (detail : Word) (addrs : List DWord) (P : SegCause → Prop) (ha : Alone s g m)
    (hc : g.record = none ∨ code = 0x36 ∨ code = 0x19) (hd : causeDest code ≠ .host) (hl : code < 0x74)
    (hg : g.handler &&& g.rel m = 0 ∨ code = 0x36 ∨ code = 0x19) (hP : ∀ x : SegCause, x.detail = detail → x.addrs = addrs → P x) :
    Traps s (s.takeAt s.cur g.lbase { code := code, mask := g.rel m, detail := detail, addrs := addrs }) g m code P :=
  takeAt_traps s g m _ P ha rfl hc hd ⟨by dsimp only; omega, Or.inl hl⟩ hg fun x hx hy _ _ => hP x hx hy

/-! ### Lanes sent to their `vpc` -/

@[simp] theorem goVpc_segAt (wp : Warp) (m : Mask) (f : Nat → DWord) (lb : Nat) : (wp.goVpc m f).segAt lb = wp.segAt lb := rfl

theorem goVpc_pc (wp : Warp) (m : Mask) (f : Nat → DWord) (l : Nat) (h : l < 64) :
    (wp.goVpc m f).pc l = if m.getLsbD l then f l else wp.pc l :=
  allLanes_map_getD (fun l => if m.getLsbD l then f l else wp.pc l) 0 l h

/-- A lane of a segment that is sent to its `vpc`. -/
theorem goVpc_pc_abs (wp : Warp) (g : Seg) (m : Mask) (f : Nat → DWord) (l : Nat) (hf : g.lbase + g.width ≤ 64) (hl : l < g.width)
    (hm : m.getLsbD l = true) : (wp.goVpc (g.abs m) f).pc (g.lbase + l) = f (g.lbase + l) := by
  rw [goVpc_pc _ _ _ _ (by omega), abs_getLsbD g m l hf hl, hm, if_pos rfl]

/-! ### Segments changed -/

/-- A segment stands at its base after each segment has been changed. -/
theorem segAt_onSegs (wp : Warp) (lb : Nat) (f : Seg → Seg) (hf : ∀ x, (f x).lbase = x.lbase) :
    (wp.onSegs f).segAt lb = (wp.segAt lb).map f := by
  simp only [Warp.segAt, Warp.onSegs, List.find?_map, Function.comp_def, hf]

theorem segAt_startWoken (wp : Warp) (lb : Nat) (f : Seg → Seg) (hf : ∀ x, (f x).lbase = x.lbase) :
    (wp.startWoken f).segAt lb = (wp.segAt lb).map f := segAt_onSegs (wp.goVpc _ _) lb f hf

/-! ### The segment of the lanes that execute -/

section
variable {s : State} {g : Seg} {m : Mask} (ha : Alone s g m)
include ha

/-- Some lane of the segment executes. -/
theorem Alone.some_lane : g.slots &&& m ≠ 0 := by
  have : g ∈ s.curWarp.segsIn m := by rw [ha.only]; exact List.mem_singleton_self g
  simpa [Warp.segsIn] using (List.mem_filter.1 this).2

theorem Alone.slots_and : g.slots &&& m = m := by
  apply BitVec.eq_of_getLsbD_eq
  intro l _
  have h : (m &&& ~~~g.slots).getLsbD l = false := by rw [ha.all]; simp
  cases hm : m.getLsbD l <;> simp_all

/-- The base of the segment is one of its lanes. -/
theorem Alone.base_own : g.lbase < 64 ∧ s.curWarp.segOf g.lbase = some g := by
  have hw : g.width ≠ 0 := fun h => ha.some_lane (by simp [Seg.slots, lowMask, h])
  have hb := ha.fits
  refine ⟨by omega, ha.own _ (slots_getLsbD g g.lbase hb ?_)⟩
  simp only [Seg.hasLane, decide_eq_true_eq]
  omega

/-- A change of the segments that lanes of `m` lie in changes the segment of `m`. -/
theorem Alone.segAt_startWoken (f : Seg → Seg) (hf : ∀ x, (f x).lbase = x.lbase) :
    (s.curWarp.startWoken fun h => if h.slots &&& m != 0 then f h else h).segAt g.lbase = some (f g) := by
  rw [Machine.segAt_startWoken, ha.here, Option.map_some, if_pos (by simpa using ha.some_lane)]
  intro x
  split
  · exact hf x
  · rfl

end

/-- For each segment, at its base, the value of the lowest lane of `m` in it (R57). -/
def Warp.leadVals (wp : Warp) (m : Mask) (f : Nat → DWord) : List DWord :=
  allLanes.map fun l =>
    match wp.segOf l with
    | some g => if l = g.lbase then ((g.lead m).map f).getD 0 else 0
    | none => 0

theorem leadVals_base {s : State} {g : Seg} {m : Mask} (ha : Alone s g m) (k : Mask) (f : Nat → DWord) :
    (s.curWarp.leadVals k f).getD g.lbase 0 = ((g.lead k).map f).getD 0 := by
  obtain ⟨h64, hown⟩ := ha.base_own
  refine (allLanes_map_getD _ _ _ h64).trans ?_
  simp only [hown, if_true]

/-! ### One result of a clause that owes none -/

/-- A result joins those that its clause owes, and nothing else of the warp slot changes (R61). -/
theorem settled_push_all (s : State) (p : Pend) (hc : s.curWarp.clause.isSome = true) :
    let t := s.setWarp s.cur (s.curWarp.push p)
    t.pends = s.pends ++ [p] ∧ t.curWarp.bare = s.curWarp.bare ∧ ∃ x, t.settled = { s.curWarp.applyEnd (s.pends ++ [p]) with clause := x } := by
  obtain ⟨c, hc⟩ := Option.isSome_iff_exists.1 hc
  have hpush : s.curWarp.push p = { s.curWarp with clause := some (c.push p) } := by rw [Warp.push, hc]; rfl
  have hcp : c.at_.pend = s.pends := by simp [State.pends, Warp.clauseAt, hc]
  have hpt : (s.setWarp s.cur (s.curWarp.push p)).pends = s.pends ++ [p] := by
    rw [State.pends, curWarp_setWarp, hpush]
    simp [Warp.clauseAt, Clause.push, hcp]
  refine ⟨hpt, ?_, some (c.push p), ?_⟩
  · rw [curWarp_setWarp, hpush]
    simp [Warp.bare, Clause.push, hc]
  · rw [State.settled, hpt, curWarp_setWarp, hpush]
    exact foldl_apply_clause _ _ _

/-- A result that joins a clause without results is the only one, and the settled warp is the warp with it. -/
theorem settled_push (s : State) (p : Pend) (hc : s.curWarp.clause.isSome = true) (hp : s.pends = []) (hf : p.isFlags = false) :
    let t := s.setWarp s.cur (s.curWarp.push p)
    t.pends = [p] ∧ t.curWarp.bare = s.curWarp.bare ∧ ∃ x, t.settled = { s.curWarp.apply p with clause := x } := by
  have h := settled_push_all s p hc
  have happ : s.curWarp.applyEnd [p] = s.curWarp.apply p := by simp [Warp.applyEnd, orderPends, hf]
  rwa [hp, List.nil_append, happ] at h

/-! ### An event -/

/-- The lanes of a segment whose `vpc` an event sets to where they stand: the usher's in a nested event, else the active ones (R45, R51). -/
def Warp.stays (wp : Warp) (g : Seg) : Mask := if g.udepth = 1 then g.usher else g.lmask &&& ~~~g.lpark &&& g.rel wp.live

/-- The lanes that run the usher after an event (R45). -/
def Warp.ushers (wp : Warp) (g : Seg) : Mask := g.lmask &&& ~~~g.lpark &&& wp.free g

/-- Where the lanes of a segment are to go on after an event (R45). -/
def Warp.eventPlaces (wp : Warp) (g : Seg) (F taken : Mask) (br tk : DWord) : List DWord :=
  (List.range g.width).map fun l =>
    if F.getLsbD l then (if taken.getLsbD l then tk else br + 8)
    else if (wp.stays g).getLsbD l then wp.standing (g.lbase + l) else g.vpc.getD l 0

/-- The usher registers that a nested event keeps (R51). -/
def Seg.keepOuter (g : Seg) : Seg :=
  if g.udepth = 1 then { g with olmask := g.lmask, ovpc := g.vpc, oevt := g.evt, oetaken := g.etaken } else g

/-- A segment that enters the usher with lanes `U` (R45, R46, R51). -/
def Seg.entered (g : Seg) (U taken : Mask) (vpc : List DWord) (br tk : DWord) (now : Nat) : Seg :=
  { g.keepOuter with
    etaken := taken
    vpc := vpc
    evt := ⟨br, tk, br + 8⟩
    udepth := g.keepOuter.udepth + 1
    usher := if g.keepOuter.udepth = 1 then g.keepOuter.usher else U
    urun := U
    notBefore := max g.keepOuter.notBefore (now + 12) }

theorem entered_lbase (g : Seg) (U taken : Mask) (vpc : List DWord) (br tk : DWord) (now : Nat) :
    (g.entered U taken vpc br tk now).lbase = g.lbase := by
  simp only [Seg.entered, Seg.keepOuter]
  split <;> rfl

/-- The first event of a segment keeps no outer registers (R45). -/
theorem entered_first (g : Seg) (U taken : Mask) (vpc : List DWord) (br tk : DWord) (now : Nat) (h : g.udepth = 0) :
    g.entered U taken vpc br tk now = { g with
      etaken := taken, vpc := vpc, evt := ⟨br, tk, br + 8⟩, udepth := 1, usher := U, urun := U, notBefore := max g.notBefore (now + 12) } := by
  simp [Seg.entered, Seg.keepOuter, h]

/-- A nested event keeps the registers of the outer one (R51). -/
theorem entered_nested (g : Seg) (U taken : Mask) (vpc : List DWord) (br tk : DWord) (now : Nat) (h : g.udepth = 1) :
    g.entered U taken vpc br tk now = { g with
      olmask := g.lmask, ovpc := g.vpc, oevt := g.evt, oetaken := g.etaken
      etaken := taken, vpc := vpc, evt := ⟨br, tk, br + 8⟩, udepth := 2, urun := U, notBefore := max g.notBefore (now + 12) } := by
  simp [Seg.entered, Seg.keepOuter, h]

/-- What an event makes of a warp slot: its segment enters the usher, and the usher's lanes start at `ubase`. -/
theorem usherEvent_eq (wp : Warp) (g : Seg) (F taken : Mask) (br tk : DWord) (now : Nat) (hg : wp.segAt g.lbase = some g) :
    wp.usherEvent g.lbase F taken br tk now =
      ((wp.dropPend .vpc (g.abs (F ||| wp.stays g))).onSeg g.lbase fun h =>
        h.entered (wp.ushers g) taken (wp.eventPlaces g F taken br tk) br tk now).goVpc (g.abs (wp.ushers g)) fun _ => g.ubase &&& ~~~7 := by
  unfold Warp.usherEvent
  rw [hg]
  rfl

theorem usherEvent_segAt (wp : Warp) (g : Seg) (F taken : Mask) (br tk : DWord) (now : Nat) (hg : wp.segAt g.lbase = some g) :
    (wp.usherEvent g.lbase F taken br tk now).segAt g.lbase =
      some (g.entered (wp.ushers g) taken (wp.eventPlaces g F taken br tk) br tk now) := by
  rw [usherEvent_eq wp g F taken br tk now hg, goVpc_segAt]
  exact segAt_onSeg _ g.lbase _ g hg fun x => entered_lbase x ..

theorem usherEvent_files (wp : Warp) (g : Seg) (F taken : Mask) (br tk : DWord) (now : Nat) (hg : wp.segAt g.lbase = some g) :
    (wp.usherEvent g.lbase F taken br tk now).regs = wp.regs ∧ (wp.usherEvent g.lbase F taken br tk now).preds = wp.preds := by
  rw [usherEvent_eq wp g F taken br tk now hg]
  exact ⟨rfl, rfl⟩

end Sys2Proof.Machine
end

section
/-! SUPPORT. A divergent branch: the usher, and the causes that keep a segment out of it (R44 to R46, R51, R345, R360, R379). -/

namespace Sys2Proof.Machine

/-- `BRA` whose fetch set lies in one segment judges that segment alone (R44). -/
theorem execBra_one (s : State) (p : Pre) (off : BitVec 40) (g : Seg) (h : s.curWarp.segsIn s.curWarp.setMask = [g]) :
    execBra p off s = .next (s.branchSeg g s.curWarp.setMask (g.rel s.curWarp.setMask)
      (g.rel s.curWarp.setMask &&& g.rel (s.curWarp.guard p)) s.curWarp.pcWord (s.curWarp.jumpTarget off)) := by
  unfold execBra
  dsimp only
  rw [h]
  rfl

section
variable (s : State) (g : Seg) (m F taken : Mask) (br tk : DWord) (h0 : taken ≠ 0) (hF : taken ≠ F)
include h0 hF

/-- A divergent branch that no cause stops (R44). -/
theorem branchSeg_diverges (hd : divergeFault g F taken br tk = none) (hu : s.usherErr g F = none) :
    s.branchSeg g m F taken br tk = s.divergeSeg g.lbase F taken br tk := by
  unfold State.branchSeg
  rw [if_neg h0, if_neg hF, hd]
  simp only [hu, ite_self]

/-- A divergent branch that a cause stops (R345). -/
theorem branchSeg_faults (r : Raise) (hd : divergeFault g F taken br tk = some r) :
    s.branchSeg g m F taken br tk = s.takeAt s.cur g.lbase r := by
  unfold State.branchSeg
  rw [if_neg h0, if_neg hF, hd]

end

/-- A segment whose event the banister has counted (R374). -/
def Seg.counted (g : Seg) : Seg := { g with progress := false, bc := if g.progress then 0 else g.bc + 1 }

/-- The first event of a segment, which the banister lets into the usher (R374): its progress flag and its count, and the event. -/
theorem divergeSeg_first (s : State) (g : Seg) (F taken : Mask) (br tk : DWord) (hg : s.curWarp.segAt g.lbase = some g) (hd : g.udepth = 0)
    (hb : g.progress = true ∨ g.bc < g.bancnt.toNat) :
    ∃ f : Seg → Seg, (∀ x, (f x).lbase = x.lbase) ∧ f g = g.counted ∧
      s.divergeSeg g.lbase F taken br tk = s.onWarp s.cur fun wp => (wp.onSeg g.lbase f).usherEvent g.lbase F taken br tk s.now := by
  have hw : (s.warp s.cur).segAt g.lbase = some g := hg
  unfold State.divergeSeg
  dsimp only
  rw [hw]
  dsimp only
  rw [if_neg (show ¬g.udepth = 1 by omega)]
  cases hp : g.progress with
  | true => exact ⟨fun h => { h with progress := false, bc := 0 }, fun _ => rfl, by simp [Seg.counted, hp], rfl⟩
  | false =>
    have hlt : g.bc < g.bancnt.toNat := hb.resolve_left (by simp [hp])
    refine ⟨fun h => { h with bc := h.bc + 1 }, fun _ => rfl, by simp [Seg.counted, hp], ?_⟩
    rw [if_neg Bool.false_ne_true, if_pos hlt]

/-- An event in the usher (R51). -/
theorem divergeSeg_nested (s : State) (g : Seg) (F taken : Mask) (br tk : DWord) (hg : s.curWarp.segAt g.lbase = some g) (hd : g.udepth = 1) :
    s.divergeSeg g.lbase F taken br tk = s.onWarp s.cur fun wp => wp.usherEvent g.lbase F taken br tk s.now := by
  have hw : (s.warp s.cur).segAt g.lbase = some g := hg
  unfold State.divergeSeg
  dsimp only
  rw [hw]
  dsimp only
  rw [if_pos hd]

/-- Below `udepth` 2, with an usher and outside the handler, nothing keeps a segment out of the usher (R345, R360, R379). -/
theorem divergeFault_none (g : Seg) (F taken : Mask) (br tk : DWord) (hh : g.handler &&& F = 0) (hd : g.udepth ≠ 2) (hu : g.ubase ≠ 0) :
    divergeFault g F taken br tk = none := by
  unfold divergeFault
  rw [if_neg (by simp [hh]), if_neg hd, if_neg hu]

/-- At handler grade (R345). -/
theorem divergeFault_handler (g : Seg) (F taken : Mask) (br tk : DWord) (hh : g.handler &&& F ≠ 0) :
    divergeFault g F taken br tk = some { code := 0x36, mask := F, detail := Config.openDetail 0x36 } := by
  unfold divergeFault
  rw [if_pos (by simpa using hh)]

/-- Where the lanes of a branch would go on. -/
def branchPlaces (g : Seg) (F taken : Mask) (br tk : DWord) : List DWord :=
  (List.range g.width).map fun l => if F.getLsbD l then (if taken.getLsbD l then tk else br + 8) else 0

/-- In a nested event (R360). -/
theorem divergeFault_depth (g : Seg) (F taken : Mask) (br tk : DWord) (hh : g.handler &&& F = 0) (hd : g.udepth = 2) :
    divergeFault g F taken br tk = some { code := 0x32, mask := F, detail := 2, addrs := branchPlaces g F taken br tk } := by
  unfold divergeFault
  rw [if_neg (by simp [hh]), if_pos hd]
  rfl

/-- Without an usher (R379). -/
theorem divergeFault_none_usher (g : Seg) (F taken : Mask) (br tk : DWord) (hh : g.handler &&& F = 0) (hd : g.udepth ≠ 2) (hu : g.ubase = 0) :
    divergeFault g F taken br tk = some { code := 0x34, mask := F, detail := Config.openDetail 0x34 } := by
  unfold divergeFault
  rw [if_neg (by simp [hh]), if_neg hd, if_pos hu]

theorem eventPlaces_getD (wp : Warp) (g : Seg) (F taken : Mask) (br tk : DWord) (l : Nat) (h : l < g.width) :
    (wp.eventPlaces g F taken br tk).getD l 0 = if F.getLsbD l then (if taken.getLsbD l then tk else br + 8)
      else if (wp.stays g).getLsbD l then wp.standing (g.lbase + l) else g.vpc.getD l 0 := range_map_getD _ _ _ _ h

/-- The lanes that run the usher stand at `ubase` after an event (R45). -/
theorem usherEvent_pc (wp : Warp) (g : Seg) (F taken : Mask) (br tk : DWord) (now l : Nat) (hg : wp.segAt g.lbase = some g)
    (hf : g.lbase + g.width ≤ 64) (hl : l < g.width) (hu : (wp.ushers g).getLsbD l = true) :
    (wp.usherEvent g.lbase F taken br tk now).pc (g.lbase + l) = g.ubase &&& ~~~7 := by
  rw [usherEvent_eq wp g F taken br tk now hg]
  exact goVpc_pc_abs _ g _ _ l hf hl hu

/-- Settles O17. A branch that diverges comes to `divergeSeg`, whose event is `usherEvent`, or to the cause that `divergeFault` names. -/
theorem usherEntry : Obligations.UsherEntry := by
  unfold Obligations.UsherEntry
  refine ⟨?enters, ?raises⟩
  case enters =>
    intro s p off g wp m F taken br tk U enters ha h0 hF hub hh herr
    have run : g.udepth ≠ 2 → exec (.bra p off) s = .next (s.divergeSeg g.lbase F taken br tk) := fun hd =>
      (execBra_one s p off g ha.only).trans (congrArg _ (branchSeg_diverges s g m F taken br tk h0 hF
        (divergeFault_none g F taken br tk hh hd hub) herr))
    refine ⟨fun hd hb => ?_, fun hd => ?_⟩
    · obtain ⟨f, hfl, hfg, hdiv⟩ := divergeSeg_first s g F taken br tk ha.here hd hb
      refine ⟨_, (run (by omega)).trans (congrArg _ hdiv), ?_⟩
      -- the segment as the banister has counted the event
      have hv : (s.curWarp.onSeg g.lbase f).segAt g.lbase = some (f g) := segAt_onSeg _ _ _ _ ha.here hfl
      rw [hfg] at hv
      have hseg := usherEvent_segAt (s.curWarp.onSeg g.lbase f) g.counted F taken br tk s.now hv
      rw [entered_first g.counted _ _ _ _ _ _ hd] at hseg
      obtain ⟨hregs, hpreds⟩ := usherEvent_files (s.curWarp.onSeg g.lbase f) g.counted F taken br tk s.now hv
      simp only [enters, curWarp_onWarp]
      refine ⟨apart_onWarp s _, hregs, hpreds, _, hseg, rfl, rfl, rfl, rfl, rfl, le_max_right _ _, ⟨rfl, rfl, rfl, rfl⟩,
        fun l hl => ?_, fun l hl hu => ?_⟩
      · refine (eventPlaces_getD _ _ F taken br tk l hl).trans ?_
        simp only [Warp.stays, hd]
        rfl
      · exact usherEvent_pc _ g.counted F taken br tk s.now l hv ha.fits hl hu
    · have hdiv := divergeSeg_nested s g F taken br tk ha.here hd
      refine ⟨_, (run (by omega)).trans (congrArg _ hdiv), ?_⟩
      have hseg := usherEvent_segAt s.curWarp g F taken br tk s.now ha.here
      rw [entered_nested _ _ _ _ _ _ _ hd] at hseg
      obtain ⟨hregs, hpreds⟩ := usherEvent_files s.curWarp g F taken br tk s.now ha.here
      simp only [enters, curWarp_onWarp]
      refine ⟨apart_onWarp s _, hregs, hpreds, _, hseg, rfl, rfl, rfl, rfl, rfl, le_max_right _ _,
        ⟨rfl, rfl, rfl, rfl, rfl, rfl, rfl, rfl⟩, fun l hl => ?_, fun l hl hu => ?_⟩
      · refine (eventPlaces_getD _ _ F taken br tk l hl).trans ?_
        simp only [Warp.stays, hd]
        rfl
      · exact usherEvent_pc _ _ F taken br tk s.now l ha.here ha.fits hl hu
  case raises =>
    intro s p off g wp m F taken br tk ha h0 hF
    have run : ∀ r, divergeFault g F taken br tk = some r → exec (.bra p off) s = .next (s.takeAt s.cur g.lbase r) := fun r hr =>
      (execBra_one s p off g ha.only).trans (congrArg _ (branchSeg_faults s g m F taken br tk h0 hF r hr))
    refine ⟨fun hh => ?_, fun hh hr hd => ?_, fun hh hr hd hu => ?_⟩
    · exact ⟨_, run _ (divergeFault_handler g F taken br tk hh), takeAt_traps_at s g m 0x36 _ [] _ ha (Or.inr (Or.inl rfl)) (by decide)
        (by decide) (Or.inr (Or.inl rfl)) fun _ _ _ => trivial⟩
    · refine ⟨_, run _ (divergeFault_depth g F taken br tk hh hd), takeAt_traps_at s g m 0x32 2 _ _ ha (Or.inl hr) (by decide) (by decide)
        (Or.inl hh) fun x hdet haddr => ⟨hdet, fun l hl hFl => ?_⟩⟩
      rw [haddr]
      exact (range_map_getD _ _ _ l hl).trans (if_pos hFl)
    · exact ⟨_, run _ (divergeFault_none_usher g F taken br tk hh hd hu), takeAt_traps_at s g m 0x34 _ [] _ ha (Or.inl hr) (by decide) (by decide)
        (Or.inl hh) fun _ _ _ => trivial⟩

end Sys2Proof.Machine
end

section
/-! SUPPORT. `UDONE`, `PARK` and `WAKE` (R46 to R48, R51, R122). -/

namespace Sys2Proof.Machine

/-! ### Lanes that an `UDONE` sends -/

theorem heldMask_nil (wp : Warp) (h : wp.holds = []) : wp.heldMask = 0#64 := by rw [Warp.heldMask, h]; rfl

theorem resumeMask_nil (wp : Warp) (h : wp.resume = []) : wp.resumeMask = 0#64 := by rw [Warp.resumeMask, h]; rfl

theorem maskWhere_eq_zero (p : Nat → Bool) (h : ∀ l, p l = false) : maskWhere p = 0#64 := by
  apply BitVec.eq_of_getLsbD_eq
  intro i _
  simp [h]

section
variable (wp : Warp) (hh : wp.holds = []) (hr : wp.resume = [])
include hh hr

/-- No lane is held or stands at a slot. -/
theorem held_none (g : Seg) : g.rel (wp.heldMask ||| wp.resumeMask) = 0#64 := by
  rw [heldMask_nil wp hh, resumeMask_nil wp hr]
  exact segRel_zero g

/-- Where no lane is held or stands at a slot, the active lanes are those that are free (R45). -/
theorem active_eq (g : Seg) (k : Mask) : wp.active g k = k &&& ~~~g.lpark &&& wp.free g := by
  have hlive : wp.live &&& ~~~wp.heldMask &&& ~~~wp.resumeMask = wp.live := by
    rw [heldMask_nil wp hh, resumeMask_nil wp hr, BitVec.not_zero, BitVec.and_allOnes, BitVec.and_allOnes]
  rw [Warp.active, Warp.free, hlive]
  simp only [BitVec.and_assoc]

/-- Where no lane is held or stands at a slot, every lane of `act` goes (R45). -/
theorem sendSet_eq (g : Seg) (act : Mask) (vpc : List DWord) : wp.sendSet g act vpc = g.abs act := by
  have hw : (maskWhere fun l => (act &&& 0#64).getLsbD l && wp.standing (g.lbase + l) != vpc.getD l 0) = 0#64 :=
    maskWhere_eq_zero _ fun l => by simp
  unfold Warp.sendSet
  dsimp only
  rw [held_none wp hh hr, hw, BitVec.and_zero, BitVec.not_zero, BitVec.and_allOnes, segAbs_zero, BitVec.or_zero]

/-- No held lane has a rewritten `vpc` where none is held (R45). -/
theorem rewritten_eq (g : Seg) (m : Mask) (vpc : List DWord) : wp.rewritten g m vpc = 0#64 := by
  unfold Warp.rewritten
  rw [held_none wp hh hr, maskWhere_eq_zero _ fun l => by simp]
  exact segAbs_zero g

end

/-- A warp without lanes that stand at a slot, from which no hold is withdrawn. -/
theorem withdraw_zero (s : State) (h : s.curWarp.resume = []) : Puts s (s.withdraw s.cur 0#64) s.curWarp := by
  have drop : ∀ v : Warp, v.resume = [] → { v with
      holds := (lanesOf 0#64).foldl (fun t l => t.del l) v.holds
      resume := (v.resume.map fun (a : ClauseAt) => { a with lanes := a.lanes &&& ~~~0#64 }).filter fun a => a.lanes != 0 } = v := by
    rintro ⟨⟩ hv
    cases hv
    rw [lanesOf_zero]
    rfl
  have keep : ∀ v : Warp, { v with window := v.window.map fun (x : Window) => { x with withdrawn := x.withdrawn ||| 0#64 } } = v := by
    intro v
    simp
  unfold State.withdraw
  dsimp only
  split
  · have := (Puts.refl s).onWarp fun wp => { wp with
      holds := (lanesOf 0#64).foldl (fun t l => t.del l) wp.holds
      resume := (wp.resume.map fun (a : ClauseAt) => { a with lanes := a.lanes &&& ~~~0#64 }).filter fun a => a.lanes != 0 }
    rwa [drop _ h] at this
  · have := ((Puts.refl s).onWarp fun wp => { wp with
      window := wp.window.map fun (x : Window) => { x with withdrawn := x.withdrawn ||| 0#64 } }).onWarp fun wp => { wp with
      holds := (lanesOf 0#64).foldl (fun t l => t.del l) wp.holds
      resume := (wp.resume.map fun (a : ClauseAt) => { a with lanes := a.lanes &&& ~~~0#64 }).filter fun a => a.lanes != 0 }
    rwa [keep, drop _ h] at this

/-! ### `UDONE` -/

/-- A segment that leaves the usher (R46, R47). -/
def Seg.leftUsher (g : Seg) (now : Nat) : Seg := { g with udepth := 0, notBefore := max g.notBefore (now + 6) }

/-- A segment that leaves a nested event, with the lanes that run on in the usher (R51). -/
def Seg.leftInner (g : Seg) (runs : Mask) (now : Nat) : Seg := { g.restoreOuter with urun := runs, notBefore := max g.notBefore (now + 6) }

/-- What the `UDONE` of an outer event makes of the warp slot: its active lanes go to their `vpc` (R47). -/
def Warp.outerDone (wp : Warp) (g : Seg) (now : Nat) : Warp :=
  (wp.onSeg g.lbase fun h => h.leftUsher now).goVpc (g.abs (wp.ushers g)) fun l => g.vpc.getD (l - g.lbase) 0 &&& ~~~7

theorem outerDone_segAt (wp : Warp) (g : Seg) (now : Nat) (hg : wp.segAt g.lbase = some g) :
    (wp.outerDone g now).segAt g.lbase = some (g.leftUsher now) := segAt_onSeg wp g.lbase _ g hg fun _ => rfl

theorem outerDone_pc (wp : Warp) (g : Seg) (now l : Nat) (hf : g.lbase + g.width ≤ 64) (hl : l < g.width)
    (hm : (wp.ushers g).getLsbD l = true) : (wp.outerDone g now).pc (g.lbase + l) = g.vpc.getD l 0 &&& ~~~7 := by
  rw [Warp.outerDone, goVpc_pc_abs _ g _ _ l hf hl hm, Nat.add_sub_cancel_left]

/-- `UDONE` of an outer event sends the active lanes to their `vpc` (R47). -/
theorem outerUdone_puts (s : State) (g : Seg) (hg : s.curWarp.segAt g.lbase = some g) (hh : s.curWarp.holds = []) (hr : s.curWarp.resume = []) :
    Puts s (s.outerUdone s.cur g.lbase) (s.curWarp.outerDone g s.now) := by
  have hw := withdraw_zero s hr
  have hg' : (s.warp s.cur).segAt g.lbase = some g := hg
  unfold State.outerUdone
  dsimp only
  rw [hg']
  dsimp only
  rw [show s.warp s.cur = s.curWarp from rfl, sendSet_eq _ hh hr, active_eq _ hh hr, rewritten_eq _ hh hr, hw.now]
  exact hw.onWarp _

theorem Puts.outerUdone {s t : State} {v : Warp} (h : Puts s t v) (g : Seg) (hg : v.segAt g.lbase = some g) (hh : v.holds = [])
    (hr : v.resume = []) :
    Puts s (t.outerUdone s.cur g.lbase) (v.outerDone g s.now) := by
  obtain rfl := h.warp
  rw [← h.cur, ← h.now]
  exact h.trans (outerUdone_puts t g hg hh hr)

/-- The usher's lanes that run on after a nested event. -/
def Warp.runsOn (wp : Warp) (g : Seg) : Mask := g.usher &&& wp.ushers g

/-- What the `UDONE` of a nested event makes of the warp slot: its lanes go on, and the outer event's registers come back (R51). -/
def Warp.innerDone (wp : Warp) (g : Seg) (now : Nat) : Warp :=
  (((wp.goVpc (g.abs (wp.runsOn g)) fun l => g.vpc.getD (l - g.lbase) 0 &&& ~~~7).dropPend .lmask g.slots).dropPend .vpc g.slots).onSeg g.lbase
    fun h => h.leftInner (wp.runsOn g) now

theorem innerDone_segAt (wp : Warp) (g : Seg) (now : Nat) (hg : wp.segAt g.lbase = some g) :
    (wp.innerDone g now).segAt g.lbase = some (g.leftInner (wp.runsOn g) now) := segAt_onSeg _ g.lbase _ g hg fun _ => rfl

theorem innerDone_pc (wp : Warp) (g : Seg) (now l : Nat) (hf : g.lbase + g.width ≤ 64) (hl : l < g.width)
    (hm : (wp.runsOn g).getLsbD l = true) : (wp.innerDone g now).pc (g.lbase + l) = g.vpc.getD l 0 &&& ~~~7 := by
  have := goVpc_pc_abs wp g (wp.runsOn g) (fun l => g.vpc.getD (l - g.lbase) 0 &&& ~~~7) l hf hl hm
  rwa [Nat.add_sub_cancel_left] at this

theorem innerUdone_eq (s : State) (g : Seg) (hg : s.curWarp.segAt g.lbase = some g) (hh : s.curWarp.holds = []) (hr : s.curWarp.resume = []) :
    ∃ t, Puts s t (s.curWarp.innerDone g s.now) ∧
      s.innerUdone s.cur g.lbase = if s.curWarp.runsOn g = 0 then t.outerUdone s.cur g.lbase else t := by
  have hw := withdraw_zero s hr
  have hg' : (s.warp s.cur).segAt g.lbase = some g := hg
  refine ⟨_, hw.onWarp fun wp => (((wp.goVpc (g.abs (s.curWarp.runsOn g)) fun l => g.vpc.getD (l - g.lbase) 0 &&& ~~~7).dropPend .lmask
    g.slots).dropPend .vpc g.slots).onSeg g.lbase fun h => h.leftInner (s.curWarp.runsOn g) s.now, ?_⟩
  have hruns : s.curWarp.innerRuns g = s.curWarp.runsOn g := by rw [Warp.innerRuns, active_eq _ hh hr]; rfl
  unfold State.innerUdone
  dsimp only
  rw [hg']
  dsimp only
  rw [show s.warp s.cur = s.curWarp from rfl, hruns, sendSet_eq _ hh hr, rewritten_eq _ hh hr]
  rfl

section
variable (s : State) (p : Pre) (g : Seg) (h : s.curWarp.segsIn s.curWarp.setMask = [g])
include h

/-- `UDONE` outside the usher raises `UDONE_OUTSIDE` (R46). -/
theorem execUdone_outside (hd : g.udepth = 0) : execUdone p s =
    .next (s.takeAt s.cur g.lbase { code := 0x33, mask := g.rel s.curWarp.setMask, detail := Config.openDetail 0x33 }) := by
  simp [execUdone, h, hd]

/-- `UDONE` in the usher, to good targets (R47, R51). -/
theorem execUdone_inside (hd : g.udepth ≠ 0)
    (hgood : s.targetsGood (s.curWarp.udoneGoes g).1 fun l => (s.curWarp.udoneGoes g).2.getD (l - g.lbase) 0) :
    execUdone p s = .next (if g.udepth = 2 then s.innerUdone s.cur g.lbase else s.outerUdone s.cur g.lbase) := by
  unfold execUdone
  dsimp only
  rw [h, List.foldl_cons, List.foldl_nil, if_neg hd, raiseOf_none _ _ _ _ _ hgood]

end

section
variable (wp : Warp) (hh : wp.holds = []) (hr : wp.resume = []) (g : Seg)
include hh hr

theorem udoneGoes_outer (hd : g.udepth = 1) : wp.udoneGoes g = (g.abs (wp.ushers g), g.vpc) := by
  rw [Warp.udoneGoes, if_neg (by omega), sendSet_eq wp hh hr, active_eq wp hh hr]
  rfl

theorem innerRuns_eq : wp.innerRuns g = wp.runsOn g := by
  rw [Warp.innerRuns, active_eq wp hh hr]
  rfl

theorem udoneGoes_inner (hd : g.udepth = 2) (hn : wp.runsOn g ≠ 0) : wp.udoneGoes g = (g.abs (wp.runsOn g), g.vpc) := by
  rw [Warp.udoneGoes, if_pos hd, innerRuns_eq wp hh hr, if_neg hn, sendSet_eq wp hh hr]

theorem udoneGoes_last (hd : g.udepth = 2) (hn : wp.runsOn g = 0) :
    wp.udoneGoes g = (g.abs (g.olmask &&& ~~~g.lpark &&& wp.free g), g.ovpc) := by
  rw [Warp.udoneGoes, if_pos hd, innerRuns_eq wp hh hr, if_pos hn, sendSet_eq wp hh hr, active_eq wp hh hr]

end

/-! ### `PARK` -/

/-- A segment whose lanes `m` park, with header `next` in their `vpc` (R48, R376). -/
def Seg.parked (g : Seg) (m : Mask) (next : DWord) : Seg :=
  { g with
    lpark := g.lpark ||| m
    vpc := (List.range g.width).map fun l => if m.getLsbD l then next else g.vpc.getD l 0
    takeover := g.takeover.map fun t =>
      match firstLane t.left with
      | some l => if m.getLsbD l then { t with clauses := 64 } else t
      | none => t }

/-- A `WAKE` that loses lanes leaves the usher registers of a segment. -/
theorem dropWake_segAt (wp : Warp) (g h : Seg) (m : Mask) (lb : Nat) (hg : wp.segAt lb = some g) :
    ∃ c q r, (wp.dropWake h m).segAt lb = some { g with cause := c, queue := q, record := r } := by
  refine ⟨_, _, _, (segAt_onSegs wp lb _ ?_).trans (congrArg _ hg)⟩
  exact fun _ => rfl

/-- `PARK` outside the usher (R48). -/
theorem execPark_outside (s : State) (p : Pre) (g : Seg) (h : s.curWarp.segsIn (s.curWarp.execMask p) = [g]) (hd : g.udepth = 0) :
    execPark p s = .next (s.onWarp s.cur fun wp => (wp.dropWake g (g.rel (s.curWarp.execMask p))).onSeg g.lbase fun h =>
      h.parked (g.rel (s.curWarp.execMask p)) s.curWarp.nextHdr) := by
  unfold execPark
  dsimp only
  rw [h, List.foldl_cons, List.foldl_nil, if_neg (not_not.2 hd)]
  rfl

/-- `PARK` in the usher raises `PARK_IN_USHER` (R48). -/
theorem execPark_inside (s : State) (p : Pre) (g : Seg) (h : s.curWarp.segsIn (s.curWarp.execMask p) = [g]) (hd : g.udepth ≠ 0) :
    execPark p s = .next (s.takeAt s.cur g.lbase
      { code := 0x35, mask := g.rel (s.curWarp.execMask p), detail := Config.openDetail 0x35 }) := by
  unfold execPark
  dsimp only
  rw [h, List.foldl_cons, List.foldl_nil, if_pos hd]

/-! ### `WAKE` -/

/-- The result of a `WAKE`: the bits that leave `lpark` (R48). -/
def Warp.wakePend (wp : Warp) (m : Mask) (f : Nat → DWord) : Pend :=
  ⟨wp.slotNo, wp.slotNo + 4, .lparkClear, m, wp.leadVals m f, .uniform, .all, 0⟩

theorem execWake_eq (s : State) (p : Pre) (a : Reg) (h : s.curWarp.execMask p ≠ 0) :
    execWake p a s = .next (s.setWarp s.cur (s.curWarp.push (s.curWarp.wakePend (s.curWarp.execMask p) (s.curWarp.val64 a)))) := by
  unfold execWake
  dsimp only
  rw [if_neg h]
  rfl

/-- A `WAKE` that becomes visible clears the bits of its mask in the segment of its lanes (R48). -/
theorem apply_wake {s : State} {g : Seg} {m : Mask} (ha : Alone s g m) (f : Nat → DWord) :
    (s.curWarp.apply (s.curWarp.wakePend m f)).segAt g.lbase =
      some { g with lpark := g.lpark &&& ~~~((g.lead m).map f).getD 0 } := by
  refine (ha.segAt_startWoken (fun h => { h with lpark := h.lpark &&& ~~~(s.curWarp.leadVals m f).getD h.lbase 0 }) fun _ => rfl).trans ?_
  rw [leadVals_base ha]

/-- Settles O18. `outerUdone_puts` and `innerUdone_eq` say what `UDONE` leaves; `PARK` and `WAKE` change the segment of their lanes. -/
theorem usherReturn : Obligations.UsherReturn := by
  unfold Obligations.UsherReturn
  intro s p a g wp act
  refine ⟨?outer, ?nested, ?outside, ?park, ?inUsher, ?wake⟩
  case outer =>
    intro ha hd hh hr hgood
    have hgoes := udoneGoes_outer wp hh hr g hd
    have ht := outerUdone_puts s g ha.here hh hr
    refine ⟨_, (execUdone_inside s p g ha.only (by omega) (by rw [hgoes]; exact hgood)).trans (by rw [if_neg (by omega)]), ht.apart, ?_⟩
    rw [ht.warp]
    exact ⟨rfl, ⟨_, outerDone_segAt _ g _ ha.here, rfl, le_max_right _ _, rfl, rfl⟩, fun l hl hact => outerDone_pc _ g _ l ha.fits hl hact⟩
  case nested =>
    intro ha hd hh hr runs last outer
    obtain ⟨t, ht, hinner⟩ := innerUdone_eq s g ha.here hh hr
    have hseg := innerDone_segAt s.curWarp g s.now ha.here
    have run : (s.targetsGood (wp.udoneGoes g).1 fun l => (wp.udoneGoes g).2.getD (l - g.lbase) 0) →
        exec (.udone p) s = .next (if runs = 0 then t.outerUdone s.cur g.lbase else t) := fun hgood =>
      (execUdone_inside s p g ha.only (by omega) hgood).trans (by rw [if_pos hd, hinner]; rfl)
    refine ⟨fun hn hgood => ?_, fun hn hgood => ?_⟩
    · rw [udoneGoes_inner wp hh hr g hd hn, if_neg hn] at run
      refine ⟨t, run hgood, ⟨ht.apart, ?_⟩, ?_⟩
      · rw [ht.warp]
        exact ⟨rfl, _, hseg, rfl, le_max_right _ _, rfl, rfl, rfl, rfl, rfl, rfl, rfl⟩
      · rw [ht.warp]
        exact fun l hl hrun => innerDone_pc wp g s.now l ha.fits hl hrun
    · rw [udoneGoes_last wp hh hr g hd hn, if_pos hn] at run
      have hu : Puts s (t.outerUdone s.cur g.lbase) _ := ht.outerUdone (g.leftInner (wp.runsOn g) s.now) hseg hh hr
      refine ⟨_, run hgood, ⟨hu.apart, ?_⟩, ?_⟩
      · rw [hu.warp]
        exact ⟨rfl, _, outerDone_segAt _ _ _ hseg, rfl, le_max_right _ _, rfl, rfl, rfl, rfl, rfl, rfl, rfl⟩
      · rw [hu.warp]
        exact fun l hl hlast => outerDone_pc _ (g.leftInner (wp.runsOn g) s.now) s.now l ha.fits hl hlast
  case outside =>
    intro ha hd hr hh
    exact ⟨_, execUdone_outside s p g ha.only hd, takeAt_traps_at s g _ 0x33 _ [] _ ha (Or.inl hr) (by decide) (by decide)
      (Or.inl (by rw [hh]; exact BitVec.zero_and)) fun _ _ _ => trivial⟩
  case park =>
    intro ha hd
    obtain ⟨c, q, r, hw⟩ := dropWake_segAt wp g g (g.rel (wp.execMask p)) g.lbase ha.here
    have hpark := segAt_onSeg _ g.lbase (fun h => h.parked (g.rel (wp.execMask p)) wp.nextHdr) _ hw fun _ => rfl
    refine ⟨_, execPark_outside s p g ha.only hd, apart_onWarp s _, ?_⟩
    rw [curWarp_onWarp]
    exact ⟨rfl, rfl, _, hpark, rfl, rfl, fun l hl => range_map_getD _ _ _ l hl⟩
  case inUsher =>
    intro ha hd hr hh
    exact ⟨_, execPark_inside s p g ha.only hd, takeAt_traps_at s g _ 0x35 _ [] _ ha (Or.inl hr) (by decide) (by decide)
      (Or.inl (by rw [hh]; exact BitVec.zero_and)) fun _ _ _ => trivial⟩
  case wake =>
    intro ha hm hp
    obtain ⟨-, -, x, hx⟩ := settled_push s (wp.wakePend (wp.execMask p) (wp.val64 a)) ha.inClause hp rfl
    refine ⟨_, execWake_eq s p a hm, apart_setWarp s _, _,
      (congrArg (Warp.segAt · g.lbase) hx).trans (apply_wake ha (wp.val64 a)), rfl, fun k hk => ?_⟩
    rw [hk]
    rfl

end Sys2Proof.Machine
end

section
/-! SUPPORT. Control transfers: jumps, calls, returns and branches that send the lanes of several segments (R44, R84, R115 to R117). -/

namespace Sys2Proof.Machine

theorem exec_jmp (p : Pre) (off : BitVec 40) (s : State) : exec (.jmp p off) s = execJmp p off s := rfl
theorem exec_ret (p : Pre) (a : Reg) (s : State) : exec (.ret p a) s = execRet p a s := rfl

/-! ### Lanes sent one after another -/

theorem Sends.cur {s t : State} {m : Mask} {f : Nat → DWord} (h : Sends s t m f) : t.cur = s.cur := by
  have : (t.apart s.cur).cur = (s.apart s.cur).cur := by rw [h.apart]
  exact this

theorem Sends.refl (s : State) (f : Nat → DWord) : Sends s s 0 f := by
  refine ⟨rfl, fun l _ => ?_, rfl⟩
  simp

/-- Two masks of lanes sent to the same targets are one. -/
theorem Sends.trans {s t u : State} {m n : Mask} {f : Nat → DWord} (h : Sends s t m f) (k : Sends t u n f) : Sends s u (m ||| n) f := by
  refine ⟨?_, fun l hl => ?_, k.rest.trans h.rest⟩
  · have := k.apart
    rw [h.cur] at this
    exact this.trans h.apart
  · rw [k.pcs l hl, h.pcs l hl, BitVec.getLsbD_or]
    cases m.getLsbD l <;> cases n.getLsbD l <;> rfl

/-! ### Addresses and the warp slots

A fetch is translated through the memory, the contexts and the cached translations, which no warp slot holds. -/

theorem walk_warps (s : State) (ws : Tab Warp) (q : Asker) (acc : Access) (va : DWord) (ls : List Nat) (table : Nat) :
    ({ s with warps := ws } : State).walk q acc va ls table = s.walk q acc va ls table := by
  induction ls generalizing table with
  | nil => rfl
  | cons lvl ls ih =>
    unfold State.walk
    simp only [ih]
    rfl

theorem fetchPlace_warps (s : State) (ws : Tab Warp) (q : Asker) (va : DWord) :
    ({ s with warps := ws } : State).fetchPlace q va = s.fetchPlace q va := by
  have hx : ({ s with warps := ws } : State).xlate q .fetch va = s.xlate q .fetch va := by
    unfold State.xlate
    simp only [walk_warps]
    rfl
  unfold State.fetchPlace
  rw [hx]

theorem laneAsker_warps (s : State) (ws : Tab Warp) (w l : Nat) (h : (({ s with warps := ws } : State).warp w).segs = (s.warp w).segs) :
    ({ s with warps := ws } : State).laneAsker w l = s.laneAsker w l := by
  unfold State.laneAsker Warp.segOf
  rw [h]
  rfl

/-- What a target raises does not depend on where the lanes of the warp slot stand. -/
theorem Sends.targetErr {s t : State} {m : Mask} {f : Nat → DWord} (h : Sends s t m f) (l : Nat) (a : DWord) :
    t.targetErr t.cur l a = s.targetErr s.cur l a := by
  have ht : t = { s with warps := t.warps } := by
    have : { t.apart s.cur with warps := t.warps } = { s.apart s.cur with warps := t.warps } := by rw [h.apart]
    exact this
  have hsegs : (t.warp s.cur).segs = (s.warp s.cur).segs := by
    have : t.curWarp.unplaced.segs = s.curWarp.unplaced.segs := by rw [h.rest]
    rw [State.curWarp, h.cur] at this
    exact this
  rw [h.cur]
  generalize t.warps = ws at ht
  subst ht
  unfold State.targetErr
  simp only [fetchPlace_warps, laneAsker_warps s ws s.cur l hsegs]

theorem Sends.targetsGood {s t : State} {m n : Mask} {f e : Nat → DWord} (h : Sends s t m f) (k : s.targetsGood n e) : t.targetsGood n e :=
  fun l hl => (h.targetErr l (e l)).trans (k l hl)

/-! ### Lanes that segments send -/

theorem foldl_or_getLsbD {α : Type} (p : α → Bool) (f : α → Mask) (b : Nat) (l : List α) (k : Mask) :
    (l.foldl (fun k a => if p a then k ||| f a else k) k).getLsbD b = (k.getLsbD b || l.any fun a => p a && (f a).getLsbD b) := by
  induction l generalizing k with
  | nil => simp
  | cons a l ih =>
    rw [List.foldl_cons, ih, List.any_cons]
    cases p a <;> simp [Bool.or_assoc]

/-- The lanes of `m` in the segments that satisfy a test. -/
theorem sent_mask (wp : Warp) (m : Mask) (p : Seg → Bool) :
    (wp.segsIn m).foldl (fun k g => if p g then k ||| (g.slots &&& m) else k) 0 =
      maskWhere fun l => m.getLsbD l && wp.segs.any fun g => g.slots.getLsbD l && p g := by
  apply BitVec.eq_of_getLsbD_eq
  intro b hb
  rw [foldl_or_getLsbD, maskWhere_getLsbD, Bool.eq_iff_iff]
  simp only [BitVec.ofNat_eq_ofNat, BitVec.getLsbD_zero, Bool.false_or, hb, decide_true, Bool.true_and, List.any_eq_true,
    Bool.and_eq_true, BitVec.getLsbD_and, Warp.segsIn, List.mem_filter]
  constructor
  · rintro ⟨g, ⟨hg, -⟩, hp, hs, hm⟩
    exact ⟨hm, g, hg, hs, hp⟩
  · rintro ⟨hm, g, hg, hs, hp⟩
    refine ⟨g, ⟨hg, ?_⟩, hp, hs, hm⟩
    rw [bne_iff_ne]
    intro h
    have : (g.slots &&& m).getLsbD b = false := by rw [h]; simp
    simp [hs, hm] at this

/-- Branches of segments that are uniform send the lanes of those whose branch is taken (R44). -/
theorem branches_send (s : State) (m c : Mask) (br tk : DWord) (gs : List Seg) (h : ∀ g ∈ gs, g.rel m &&& g.rel c ≠ 0 →
      g.rel m &&& g.rel c = g.rel m ∧ s.targetsGood (g.slots &&& m) fun _ => tk) (t : State) (n : Mask) (ht : Sends s t n fun _ => tk) :
    Sends s (gs.foldl (fun t g => t.branchSeg g m (g.rel m) (g.rel m &&& g.rel c) br tk) t)
      (gs.foldl (fun k g => if g.rel m &&& g.rel c != 0 then k ||| (g.slots &&& m) else k) n) fun _ => tk := by
  induction gs generalizing t n with
  | nil => exact ht
  | cons g gs ih =>
    rw [List.foldl_cons, List.foldl_cons]
    refine ih (fun g hg => h g (List.mem_cons_of_mem _ hg)) _ _ ?_
    unfold State.branchSeg
    by_cases h0 : g.rel m &&& g.rel c = 0
    · rw [if_pos h0, if_neg (by simpa using h0)]
      exact ht
    · obtain ⟨hF, hgood⟩ := h g List.mem_cons_self h0
      rw [if_neg h0, if_pos hF, if_pos (by simpa using h0)]
      exact ht.trans (transfer_sends t _ _ (ht.targetsGood hgood))

/-! ### A branch that is uniform in a segment -/

/-- The lanes of `m` in a segment agree on the condition `c`. -/
def Seg.agrees (g : Seg) (m c : Mask) : Prop :=
  ∀ j l, (g.slots &&& m).getLsbD j = true → (g.slots &&& m).getLsbD l = true → c.getLsbD j = c.getLsbD l

/-- A segment lane of `m`, as a slot lane. -/
theorem rel_lane (g : Seg) (m : Mask) (l : Nat) (h : (g.rel m).getLsbD l = true) : (g.slots &&& m).getLsbD (g.lbase + l) = true := by
  rw [rel_getLsbD, Bool.and_eq_true, decide_eq_true_eq] at h
  have h64 := lane_lt m _ h.2
  simp [slots_getLsbD_eq, Seg.hasLane, h64, h]

theorem rel_of_slots (g : Seg) (m : Mask) (l : Nat) (h : g.slots.getLsbD l = true) : (g.rel m).getLsbD (l - g.lbase) = m.getLsbD l := by
  rw [slots_getLsbD_eq, Seg.hasLane, Bool.and_eq_true, decide_eq_true_eq, decide_eq_true_eq] at h
  obtain ⟨-, hge, hlt⟩ := h
  rw [rel_getLsbD, Nat.add_sub_cancel' hge]
  simp [show l - g.lbase < g.width by omega]

theorem exists_lane (m : Mask) (h : m ≠ 0) : ∃ l, m.getLsbD l = true := by
  by_contra hc
  refine h (BitVec.eq_of_getLsbD_eq fun l _ => ?_)
  simpa using fun hl => hc ⟨l, hl⟩

section
variable {g : Seg} {m c : Mask} (hu : g.agrees m c)
include hu

/-- Where the lanes agree, the branch is taken if it is taken in any lane. -/
theorem Seg.agrees.taken_iff {l : Nat} (hl : (g.slots &&& m).getLsbD l = true) : g.rel m &&& g.rel c ≠ 0 ↔ c.getLsbD l = true := by
  constructor
  · intro h
    obtain ⟨j, hj⟩ := exists_lane _ h
    rw [BitVec.getLsbD_and, Bool.and_eq_true] at hj
    have hc := rel_lane g c j hj.2
    rw [BitVec.getLsbD_and, Bool.and_eq_true] at hc
    exact (hu _ _ (rel_lane g m j hj.1) hl).symm.trans hc.2
  · intro hc h
    rw [BitVec.getLsbD_and, Bool.and_eq_true] at hl
    have : (g.rel m &&& g.rel c).getLsbD (l - g.lbase) = true := by
      rw [BitVec.getLsbD_and, rel_of_slots g m l hl.1, rel_of_slots g c l hl.1, hl.2, hc]
      rfl
    rw [h] at this
    simp at this

/-- Where the lanes agree, a branch that is taken is taken in all of them. -/
theorem Seg.agrees.all_taken (h : g.rel m &&& g.rel c ≠ 0) : g.rel m &&& g.rel c = g.rel m := by
  apply BitVec.eq_of_getLsbD_eq
  intro j _
  rw [BitVec.getLsbD_and]
  cases hj : (g.rel m).getLsbD j with
  | false => rfl
  | true =>
    have hl := rel_lane g m j hj
    have hc := (hu.taken_iff hl).1 h
    rw [BitVec.getLsbD_and, Bool.and_eq_true] at hl
    have := rel_of_slots g c (g.lbase + j) hl.1
    rw [Nat.add_sub_cancel_left] at this
    rw [this, hc]
    rfl

end

/-- Where the lanes of every segment agree, the segments whose branch is taken hold the lanes whose condition is true. -/
theorem taken_mask (wp : Warp) (m c : Mask) (hu : ∀ g ∈ wp.segs, g.agrees m c) :
    (maskWhere fun l => m.getLsbD l && wp.segs.any fun g => g.slots.getLsbD l && (g.rel m &&& g.rel c != 0)) =
      maskWhere fun l => m.getLsbD l && c.getLsbD l && wp.segs.any fun g => g.slots.getLsbD l := by
  apply BitVec.eq_of_getLsbD_eq
  intro l hl
  rw [maskWhere_getLsbD, maskWhere_getLsbD, Bool.eq_iff_iff]
  simp only [hl, decide_true, Bool.true_and, Bool.and_eq_true, List.any_eq_true, bne_iff_ne]
  have lane : ∀ g : Seg, m.getLsbD l = true → g.slots.getLsbD l = true → (g.slots &&& m).getLsbD l = true := fun g hm hs => by
    rw [BitVec.getLsbD_and, hs, hm]
    rfl
  constructor
  · rintro ⟨hm, g, hg, hs, h0⟩
    exact ⟨⟨hm, ((hu g hg).taken_iff (lane g hm hs)).1 h0⟩, g, hg, hs⟩
  · rintro ⟨⟨hm, hc⟩, g, hg, hs⟩
    exact ⟨hm, g, hg, hs, ((hu g hg).taken_iff (lane g hm hs)).2 hc⟩

/-- `BRA` that is uniform in every segment sends the lanes whose condition is true (R44). -/
theorem execBra_uniform (s : State) (p : Pre) (off : BitVec 40) (hu : ∀ g ∈ s.curWarp.segs, g.agrees s.curWarp.setMask (s.curWarp.guard p))
    (hgood : s.targetsGood (maskWhere fun l => s.curWarp.setMask.getLsbD l && (s.curWarp.guard p).getLsbD l &&
      s.curWarp.segs.any fun g => g.slots.getLsbD l) fun _ => s.curWarp.jumpTarget off) :
    ∃ t, execBra p off s = .next t ∧ Sends s t (maskWhere fun l => s.curWarp.setMask.getLsbD l && (s.curWarp.guard p).getLsbD l &&
      s.curWarp.segs.any fun g => g.slots.getLsbD l) fun _ => s.curWarp.jumpTarget off := by
  refine ⟨_, rfl, ?_⟩
  have hmem : ∀ g ∈ s.curWarp.segsIn s.curWarp.setMask, g ∈ s.curWarp.segs := fun g hg => List.mem_of_mem_filter hg
  have hsend := branches_send s s.curWarp.setMask (s.curWarp.guard p) s.curWarp.pcWord (s.curWarp.jumpTarget off)
    (s.curWarp.segsIn s.curWarp.setMask) ?_ s 0 (Sends.refl s _)
  · rw [sent_mask s.curWarp s.curWarp.setMask fun g => g.rel s.curWarp.setMask &&& g.rel (s.curWarp.guard p) != 0] at hsend
    rwa [taken_mask s.curWarp _ _ hu] at hsend
  · intro g hg h0
    refine ⟨(hu g (hmem g hg)).all_taken h0, fun l hl => hgood l ?_⟩
    have hc := ((hu g (hmem g hg)).taken_iff hl).1 h0
    rw [BitVec.getLsbD_and, Bool.and_eq_true] at hl
    simp only [maskWhere_getLsbD, lane_lt _ _ hl.2, decide_true, hl.2, hc, Bool.true_and, List.any_eq_true]
    exact ⟨g, hmem g hg, hl.1⟩

/-! ### `BRAU` and `CALL` -/

/-- `BRAU` sends each segment whose lowest lane satisfies the condition (R115). -/
theorem execBrau_eq (s : State) (p : Pre) (off : BitVec 40) : execBrau p off s =
    .next (s.transfer (maskWhere fun l => s.curWarp.setMask.getLsbD l && s.curWarp.segs.any fun g =>
      g.slots.getLsbD l && (g.lead s.curWarp.setMask).any fun k => (s.curWarp.guard p).getLsbD k) fun _ => s.curWarp.jumpTarget off) := by
  rw [← sent_mask s.curWarp s.curWarp.setMask fun g => (g.lead s.curWarp.setMask).any fun k => (s.curWarp.guard p).getLsbD k]
  unfold execBrau
  dsimp only
  congr 3
  funext k g
  cases g.lead s.curWarp.setMask <;> rfl

/-- A warp slot whose lanes a slot has sent to their targets. -/
theorem goTo_sends {s t : State} {m : Mask} {f : Nat → DWord} (h : Puts s t (s.curWarp.goTo m f)) : Sends s t m f := by
  refine ⟨h.apart, fun l hl => ?_, ?_⟩
  · rw [h.warp]
    exact allLanes_map_getD (fun l => if m.getLsbD l then f l &&& ~~~7 else s.curWarp.pc l) 0 l hl
  · rw [h.warp]
    rfl

theorem alu_puts (s : State) (p : Pre) (lat : Nat) (wide : Bool) (d : Reg) (t : Warp → Shape) (f : Warp → Nat → DWord) :
    Puts s (s.alu p lat wide d t f) (if s.curWarp.execMask p = 0 then s.curWarp
      else s.curWarp.pushAll (s.curWarp.pendsFor (s.curWarp.execMask p) lat wide d (t s.curWarp) (f s.curWarp))) := by
  unfold State.alu
  dsimp only
  split
  · exact Puts.refl s
  · exact puts_setWarp s _

/-- `CALL` to a good target: the return address is a result of its lanes, which then go to the target (R116). -/
theorem execCall_good (s : State) (p : Pre) (off : BitVec 40) (h : s.targetsGood (s.curWarp.execMask p) fun _ => s.curWarp.jumpTarget off) :
    ∃ t, execCall p off s = .next t ∧
      Sends (s.alu p 4 true (.v 126) (fun _ => .uniform) fun wp _ => wp.pcWord + 8) t (s.curWarp.execMask p) fun _ => s.curWarp.jumpTarget off := by
  refine ⟨_, rfl, goTo_sends ?_⟩
  have hu := alu_puts s p 4 true (.v 126) (fun _ => .uniform) fun wp _ => wp.pcWord + 8
  rw [hu.warp, targetRaises_good s _ _ h, State.takeAll, List.foldl_nil, stoppedBy_nil]
  exact hu.replaced ((Puts.refl s).onWarp _)

/-- Settles O16. A transfer to good targets is `transfer_sends`; `BRAU`, `CALL` and a uniform `BRA` come down to it. -/
theorem transfers : Obligations.Transfers := by
  unfold Obligations.Transfers
  intro s p off a wp m jump taken led
  refine ⟨fun h => ?jmp, fun h => ?ret, fun h => ?call, fun h => ?brau, fun h hu => ?bra⟩
  case jmp => exact ⟨_, exec_jmp p off s, transfer_sends s m jump h⟩
  case ret => exact ⟨_, exec_ret p a s, transfer_sends s m (wp.val64 a) h⟩
  case call =>
    obtain ⟨t, ht, hsend⟩ := execCall_good s p off h
    exact ⟨t, ht, _, alu_gives s p 4 true (.v 126) (fun _ => .uniform) (fun wp _ => wp.pcWord + 8)
      (Or.inr ⟨126, rfl, fun _ => by decide⟩), hsend⟩
  case brau => exact ⟨_, execBrau_eq s p off, transfer_sends s led jump h⟩
  case bra => exact execBra_uniform s p off hu h

end Sys2Proof.Machine
end

section
/-! SUPPORT. Moves, special registers, `NOP`, `YIELD` and `WAIT` (R40 to R42, R119 to R126). -/

namespace Sys2Proof.Machine

theorem exec_yieldP (p : Pre) (s : State) : exec (.yieldP p) s = execYieldP p s := rfl

/-! ### `MOV` to a register or a predicate -/

theorem eq_p_of_isPred (d : Reg) (h : d.isPred = true) : ∃ n, d = .p n := by
  cases d with
  | p n => exact ⟨n, rfl⟩
  | _ => cases h

/-- `MOV` to a vector register (R123). -/
theorem mov_computes (s : State) (p : Pre) (wide : Bool) (d a : Reg) (sel : BitVec 2) (hd : d.isSized wide = true) :
    Computes s (.mov p wide d a sel) p 4 wide d fun l => match a with
      | .u r => s.curWarp.usherVal r sel l
      | a => s.curWarp.val wide a l := by
  intro _
  rcases isSized_ok wide d hd with rfl | ⟨n, rfl, hn⟩
  · exact ⟨_, rfl, alu_gives s p 4 wide .vz _ _ (Or.inl rfl)⟩
  · exact ⟨_, rfl, alu_gives s p 4 wide (.v n) _ _ (Or.inr ⟨n, rfl, hn⟩)⟩

/-- `MOV` to a predicate (R42, R123). -/
theorem mov_tests (s : State) (p : Pre) (wide : Bool) (d a : Reg) (sel : BitVec 2) (hd : d.isPred = true) :
    Tests s (.mov p wide d a sel) p 4 d fun l => match a with
      | .p _ => s.curWarp.bit a l
      | a => s.curWarp.val32 a l != 0 := by
  intro _
  obtain ⟨n, rfl⟩ := eq_p_of_isPred d hd
  exact ⟨_, rfl, aluPred_gives s p 4 (.p n) _⟩

theorem wf_movi (p : Pre) (hi : Bool) (d : Reg) (imm : BitVec 24) : (Instr.movi p hi d imm).wf = d.isSized false := rfl

theorem wf_movsRead (p : Pre) (wide : Bool) (d : Reg) (sr : BitVec 8) :
    (Instr.movsRead p wide d sr).wf = (decide (sr.toNat < 0x16) && wide == sregWide sr && d.isSized wide) := rfl

/-- `MOVI` (R124). -/
theorem movi_computes (s : State) (p : Pre) (hi : Bool) (d : Reg) (imm : BitVec 24) :
    Computes s (.movi p hi d imm) p 4 false d
      fun _ => (if hi then imm.setWidth 32 <<< 8 else imm.signExtend 32 : Word).setWidth 64 := by
  intro hw
  rw [wf_movi] at hw
  exact ⟨_, rfl, alu_gives s p 4 false d _ _ (isSized_ok false d hw)⟩

/-- The read of a special register (R125). -/
theorem movsRead_computes (s : State) (p : Pre) (wide : Bool) (d : Reg) (sr : BitVec 8) :
    Computes s (.movsRead p wide d sr) p 4 wide d fun l => s.sreg s.cur l sr.toNat := by
  intro hw
  rw [wf_movsRead, Bool.and_eq_true] at hw
  exact ⟨_, rfl, alu_gives s p 4 wide d _ _ (isSized_ok wide d hw.2)⟩

/-! ### `YIELD` -/

/-- `YIELD` by some lane: the warp waits for others and its age restarts (R119). -/
theorem execYieldP_some (s : State) (p : Pre) (h : s.curWarp.execMask p ≠ 0) :
    ∃ ws, s.cur ∉ ws ∧ execYieldP p s = .next (s.onWarp s.cur fun wp => { wp with yieldTo := ws, readyAt := none }) := by
  refine ⟨(s.warps.filter fun q => q.1 ≠ s.cur && coreOf q.1 == coreOf s.cur && portOf q.1 == portOf s.cur && s.canGo q.1).map Prod.fst, ?_, ?_⟩
  · simp [List.mem_filter]
  · simp only [execYieldP, if_neg h]

/-! ### `WAIT` -/

theorem find_foldl_put {α : Type} (ls : List Nat) (t : Tab α) (x : α) (l : Nat) (h : l ∈ ls ∨ t.find l = some x) :
    (ls.foldl (fun t l => t.put l x) t).find l = some x := by
  induction ls generalizing t with
  | nil => simpa using h
  | cons k ls ih =>
    refine ih _ ?_
    by_cases hk : l = k
    · exact Or.inr (by rw [hk]; exact tab_find_put_same t k x)
    · rw [tab_find_put_other t k l x hk]
      exact h.imp_left fun hl => (List.mem_cons.1 hl).resolve_left hk

theorem holdLanes_find (wp : Warp) (m : Mask) (h : LaneHold) (l : Nat) (hl : m.getLsbD l = true) : (wp.holdLanes m h).holds.find l = some h :=
  find_foldl_put _ _ _ _ (Or.inl ((mem_lanesOf m l).2 hl))

/-- What the opening of a window leaves: memory, the files of the warp slot, the rest of the module but for the wakes of a porter's core, and a
window unless the warp runs solo (R201, R255, R381). -/
structure Opened (s t : State) : Prop where
  mem : t.mem = s.mem
  spad : t.spad = s.spad
  cur : t.cur = s.cur
  now : t.now = s.now
  apart : isPorter (coreOf s.cur) = false → t.apart s.cur = s.apart s.cur
  warp : ∃ w, t.curWarp = { s.curWarp with window := w } ∧ (w.isSome || s.solo s.cur) = true

theorem openWindow_opened (s : State) : Opened s (s.openWindow s.cur) := by
  unfold State.openWindow
  dsimp only
  split
  · next h => exact ⟨rfl, rfl, rfl, rfl, fun _ => rfl, _, rfl, h⟩
  · next h =>
    split
    · next hp => exact ⟨rfl, rfl, rfl, rfl, fun hn => absurd (hp.symm.trans hn) (by decide), _, warp_setWarp_same _ _ _, rfl⟩
    · exact ⟨rfl, rfl, rfl, rfl, fun _ => apart_setWarp s _, _, warp_setWarp_same _ _ _, rfl⟩

/-- `WAIT` by some lane, whose reads raise nothing, holds its lanes at the slot (R120). -/
theorem execWait_good (s : State) (p : Pre) (eq wide : Bool) (d a b : Reg) (off : BitVec 16) (h0 : s.curWarp.execMask p ≠ 0)
    (hr : s.readRaises s.cur (s.curWarp.execMask p) (if wide then 8 else 4) (s.curWarp.ea a b off (if wide then 8 else 4)) = []) :
    execWait p eq wide d a b off s = .next ((s.openWindow s.cur).onWarp s.cur fun wp =>
      wp.holdLanes (s.curWarp.execMask p) (s.curWarp.holdHere .wait s.now)) := by
  have ho := openWindow_opened s
  unfold execWait
  dsimp only
  rw [if_neg h0, hr, if_neg (by simp), State.takeAll, List.foldl_nil, stoppedBy_nil, if_neg h0, ho.cur, ho.now]

/-! ### The write of `sr.fpflags` -/

theorem firstLane_lane (m : Mask) (k : Nat) (h : firstLane m = some k) : m.getLsbD k = true :=
  (mem_lanesOf m k).1 (List.mem_of_head? h)

theorem insertDue_last (p : Pend) (l : List Pend) (h : ∀ q ∈ l, q.due ≤ p.due) : insertDue p l = l ++ [p] := by
  induction l with
  | nil => rfl
  | cons q l ih =>
    rw [insertDue, if_neg (Nat.not_lt.2 (h q List.mem_cons_self)), ih fun r hr => h r (List.mem_cons_of_mem _ hr)]
    rfl

/-- The flags that lanes of one value raise together. -/
theorem orFlags_const (m : Mask) (k : Nat) (e : BitVec 5) (h : m.getLsbD k = true) : orFlags m (fun _ => e) = e := by
  have fold : ∀ ls : List Nat, ls.foldl (fun x _ => x ||| e) e = e := by
    intro ls
    induction ls with
    | nil => rfl
    | cons l ls ih => rw [List.foldl_cons, BitVec.or_self, ih]
  obtain ⟨l, ls, hls⟩ := List.exists_cons_of_ne_nil (List.ne_nil_of_mem ((mem_lanesOf m k).2 h))
  rw [orFlags, hls, List.foldl_cons, show 0 ||| e = e by simp, fold]

theorem and_31 (x : DWord) : x &&& 31 = (x.setWidth 5).setWidth 64 := by
  apply BitVec.eq_of_toNat_eq
  have hmod : x.toNat &&& 31 = x.toNat % 32 := Nat.and_two_pow_sub_one_eq_mod x.toNat 5
  simp [hmod]
  omega

/-- The result of a write of `sr.fpflags` (R126). -/
def Warp.flagsPend (wp : Warp) (v : DWord) : Pend :=
  ⟨wp.slotNo, wp.slotNo + 4, .flagsSet, wp.setMask, allLanes.map fun _ => v &&& 31, .uniform, .all, 0⟩

/-- The write of `sr.fpflags` sets the low bits of the value. -/
theorem flagsPend_flags (wp : Warp) (v : DWord) (k : Nat) (h : wp.setMask.getLsbD k = true) : (wp.flagsPend v).flags = v.setWidth 5 := by
  rw [Pend.flags, Warp.flagsPend, and_31]
  exact (orFlags_vals wp.setMask fun _ => v.setWidth 5).trans (orFlags_const wp.setMask k _ h)

/-- A flag change that joins a clause leaves the settled warp as it would have been but for the flags; one that takes effect last decides
them (R61, R126). -/
theorem settled_pushFlags (s : State) (p : Pend) (hc : s.curWarp.clause.isSome = true) (hf : p.isFlags = true) :
    let t := s.setWarp s.cur (s.curWarp.push p)
    t.pends = s.pends ++ [p] ∧ t.curWarp.bare = s.curWarp.bare ∧
      ∃ x y, t.settled = { s.settled with clause := x, fpflags := y } ∧
        ((∀ q ∈ s.pends, q.isFlags = true → q.due ≤ p.due) → ∃ z, y = p.onFlags z) := by
  obtain ⟨hpend, hbare, x, hx⟩ := settled_push_all s p hc
  have horder : flagOrder (s.pends ++ [p]) = insertDue p (flagOrder s.pends) := by simp [flagOrder, hf]
  refine ⟨hpend, hbare, x, (flagOrder (s.pends ++ [p])).foldl (fun x p => p.onFlags x)
    ((s.pends.filter fun p => !p.isFlags).foldl Warp.apply s.curWarp).fpflags, ?_, fun hlast => ?_⟩
  · rw [hx, State.settled, applyEnd_split, applyEnd_split]
    simp [hf]
  · have hdue : ∀ q ∈ flagOrder s.pends, q.due ≤ p.due := fun q hq => by
      have hflag := flagOrder_isFlags s.pends q hq
      rw [flagOrder, mem_foldl_insertDue, List.mem_filter] at hq
      exact hlast q (hq.resolve_right List.not_mem_nil).1 hflag
    rw [horder, insertDue_last p _ hdue, List.foldl_append]
    exact ⟨_, rfl⟩

/-- The write of `sr.fpflags` (R126). -/
theorem execMovsWrite_flags (s : State) (p : Pre) (wide : Bool) (a : Reg) (k : Nat) (h : firstLane (s.curWarp.execMask p) = some k) :
    execMovsWrite p wide 0x0E a s = .next (s.setWarp s.cur (s.curWarp.push (s.curWarp.flagsPend (s.curWarp.val wide a k)))) := by
  unfold execMovsWrite
  dsimp only
  rw [h]
  rfl

/-- The write of another special register is discarded (R126). -/
theorem execMovsWrite_other (s : State) (p : Pre) (wide : Bool) (sr : BitVec 8) (a : Reg) (h : sr ≠ 0x0E) :
    execMovsWrite p wide sr a s = .next s := by
  unfold execMovsWrite
  dsimp only
  split
  · rfl
  · rw [if_neg h]

theorem execMask_setMask (wp : Warp) (p : Pre) (l : Nat) (h : (wp.execMask p).getLsbD l = true) : wp.setMask.getLsbD l = true := by
  rw [Warp.execMask, BitVec.getLsbD_and, Bool.and_eq_true] at h
  exact h.1

/-! ### `MOV` to an usher register -/

/-- The result of a move to an usher register (R40 to R42). -/
def Warp.usherPend (wp : Warp) (tgt : Target) (m : Mask) (vals : List DWord) : Pend := ⟨wp.slotNo, wp.slotNo + 4, tgt, m, vals, .uniform, .all, 0⟩

theorem execMov_usher (s : State) (p : Pre) (wide : Bool) (r : UReg) (a : Reg) (sel : BitVec 2) : execMov p wide (.u r) a sel s =
    .next (s.setWarp s.cur (s.curWarp.pushAll (s.curWarp.pendUsher (s.curWarp.execMask p) r fun l => s.curWarp.val64 a l))) := rfl

section
variable {s : State} {g : Seg} {m : Mask} (ha : Alone s g m)
include ha

/-- The lanes whose usher registers a move writes: those of the segment, if it is in the usher. -/
theorem usher_lanes : (s.curWarp.segsIn m).foldl (fun k g => if g.udepth = 0 then k else k ||| (g.slots &&& m)) 0 = if g.udepth = 0 then 0 else m := by
  rw [ha.only, List.foldl_cons, List.foldl_nil, ha.slots_and]
  simp

/-- Outside the usher a move to an usher register has no effect (R40). -/
theorem pendUsher_outside (hd : g.udepth = 0) (r : UReg) (f : Nat → DWord) : s.curWarp.pendUsher m r f = [] := by
  unfold Warp.pendUsher
  dsimp only
  rw [usher_lanes ha, if_pos hd, if_pos rfl]

/-- In the usher a mask register takes the value of the lowest executing lane, and `vpc` that of each lane (R40 to R42). -/
theorem pendUsher_inside (hd : g.udepth ≠ 0) (f : Nat → DWord) :
    s.curWarp.pendUsher m .lmask f = [s.curWarp.usherPend .lmask m (s.curWarp.leadVals m f)] ∧
    s.curWarp.pendUsher m .lpark f = [s.curWarp.usherPend .lpark m (s.curWarp.leadVals m f)] ∧
    s.curWarp.pendUsher m .vpc f = [s.curWarp.usherPend .vpc m (allLanes.map f)] := by
  have hm : m ≠ 0 := fun h => ha.some_lane (by rw [ha.slots_and, h])
  unfold Warp.pendUsher
  dsimp only
  rw [usher_lanes ha, if_neg hd]
  exact ⟨if_neg hm, if_neg hm, if_neg hm⟩

/-- A segment whose slots lanes of `m` lie in is that of `m`. -/
theorem Alone.eq_of_slots {h : Seg} (hh : h ∈ s.curWarp.segs) (hm : (h.slots &&& m != 0) = true) : h = g := by
  have : h ∈ s.curWarp.segsIn m := List.mem_filter.2 ⟨hh, hm⟩
  rwa [ha.only, List.mem_singleton] at this

end

theorem foldl_or_zero {α : Type} (l : List α) (f : α → Mask) (h : ∀ x ∈ l, f x = 0) : l.foldl (fun m x => m ||| f x) 0 = 0 := by
  induction l with
  | nil => rfl
  | cons x l ih =>
    rw [List.foldl_cons, h x List.mem_cons_self, BitVec.or_self]
    exact ih fun y hy => h y (List.mem_cons_of_mem _ hy)

/-- No lane is woken where the segments outside the usher stay as they are (R47). -/
theorem startWoken_pc (wp : Warp) (f : Seg → Seg) (h : ∀ g ∈ wp.segs, g.udepth = 0 → f g = g) (l : Nat) (hl : l < 64) :
    (wp.startWoken f).pc l = wp.pc l := by
  unfold Warp.startWoken
  dsimp only
  rw [foldl_or_zero _ _ fun g hg => ?_]
  · exact (goVpc_pc wp 0 _ l hl).trans (by simp)
  · split
    · next hd =>
      rw [h g hg hd.1]
      simp [segAbs_zero]
    · exact segAbs_zero g

/-- A result that waits for a segment in the usher: it is the only one that the clause owes, and once it is visible the segment has become `h`, with
the registers, the predicates and the places of the lanes as they were. -/
theorem settled_usher (s : State) (lb : Nat) (q : Pend) (h : Seg) (hc : s.curWarp.clause.isSome = true) (hp : s.pends = [])
    (hq : q.slot = s.curWarp.slotNo ∧ q.due = s.curWarp.slotNo + 4) (hf : q.isFlags = false) (hseg : (s.curWarp.apply q).segAt lb = some h)
    (hregs : (s.curWarp.apply q).regs = s.curWarp.regs) (hpreds : (s.curWarp.apply q).preds = s.curWarp.preds)
    (hpc : ∀ l, l < 64 → (s.curWarp.apply q).pc l = s.curWarp.pc l) :
    let t := s.setWarp s.cur (s.curWarp.pushAll [q])
    t.apart s.cur = s.apart s.cur ∧ t.curWarp.bare = s.curWarp.bare ∧
      (∀ q, q ∈ t.pends → q.slot = s.curWarp.slotNo ∧ q.due = s.curWarp.slotNo + 4) ∧ t.settled.segAt lb = some h ∧
      t.settled.regs = s.curWarp.regs ∧ t.settled.preds = s.curWarp.preds ∧ ∀ l, l < 64 → t.settled.pc l = s.curWarp.pc l := by
  obtain ⟨hpend, hbare, x, hx⟩ := settled_push s q hc hp hf
  refine ⟨apart_setWarp s _, hbare, fun r hr => ?_, ?_⟩
  · have : r ∈ [q] := hpend ▸ hr
    rwa [List.mem_singleton.1 this]
  · have hx : (s.setWarp s.cur (s.curWarp.pushAll [q])).settled = _ := hx
    rw [hx]
    exact ⟨hseg, hregs, hpreds, hpc⟩

section
variable {s : State} {g : Seg} {m : Mask} (ha : Alone s g m) (hd : g.udepth ≠ 0)
include ha hd

/-- A mask register that a move sets in the segment of its lanes wakes no lane. -/
theorem startWoken_usher (f : Seg → Seg) :
    ∀ l, l < 64 → (s.curWarp.startWoken fun h => if h.slots &&& m != 0 then f h else h).pc l = s.curWarp.pc l := by
  refine fun l hl => startWoken_pc _ _ (fun h hh h0 => ?_) l hl
  split
  · next hm => exact absurd (ha.eq_of_slots hh hm ▸ h0) hd
  · rfl

end

theorem apply_lmask_segAt {s : State} {g : Seg} {m : Mask} (ha : Alone s g m) (vals : List DWord) :
    (s.curWarp.apply (s.curWarp.usherPend .lmask m vals)).segAt g.lbase =
      some { g with lmask := vals.getD g.lbase 0 &&& lowMask g.width &&& g.rel s.curWarp.live } :=
  ha.segAt_startWoken (fun h => { h with lmask := vals.getD h.lbase 0 &&& lowMask h.width &&& h.rel s.curWarp.live }) fun _ => rfl

theorem apply_lpark_segAt {s : State} {g : Seg} {m : Mask} (ha : Alone s g m) (vals : List DWord) :
    (s.curWarp.apply (s.curWarp.usherPend .lpark m vals)).segAt g.lbase = some { g with lpark := vals.getD g.lbase 0 &&& lowMask g.width } :=
  ha.segAt_startWoken (fun h => { h with lpark := vals.getD h.lbase 0 &&& lowMask h.width }) fun _ => rfl

/-- Where the lanes of a segment go on after a move to `vpc`. -/
def movePlaces (g : Seg) (m : Mask) (f : Nat → DWord) : List DWord :=
  (List.range g.width).map fun l => if m.getLsbD (g.lbase + l) then f (g.lbase + l) &&& ~~~7 else g.vpc.getD l 0

/-- A move to `vpc` that becomes visible (R40). -/
theorem apply_vpc_segAt {s : State} {g : Seg} {m : Mask} (ha : Alone s g m) (f : Nat → DWord) :
    (s.curWarp.apply (s.curWarp.usherPend .vpc m (allLanes.map f))).segAt g.lbase = some { g with vpc := movePlaces g m f } := by
  refine (segAt_onSegs s.curWarp g.lbase _ ?_).trans ?_
  · exact fun _ => rfl
  rw [ha.here, Option.map_some]
  have : ((List.range g.width).map fun l => if m.getLsbD (g.lbase + l) then (allLanes.map f).getD (g.lbase + l) 0 &&& ~~~7 else g.vpc.getD l 0) =
      movePlaces g m f := by
    refine List.map_congr_left fun l _ => ?_
    split
    · next hm => rw [allLanes_map_getD f 0 _ (lane_lt m _ hm)]
    · rfl
  exact congrArg (fun v => some { g with vpc := v }) this

/-- Settles O12. Moves to registers are `alu_gives` and `aluPred_gives`; a move to an usher register is one result, which `settled_usher` makes
visible; the write of `sr.fpflags` is `settled_pushFlags`; `WAIT` holds its lanes after `openWindow_opened`. -/
theorem movesAndWaits : Obligations.MovesAndWaits := by
  unfold Obligations.MovesAndWaits
  refine ⟨?moves, ?waits, ?ushers⟩
  case moves =>
    intro s p wide hi d a sel imm sr src
    exact ⟨mov_computes s p wide d a sel, mov_tests s p wide d a sel, movi_computes s p hi d imm, movsRead_computes s p wide d sr⟩
  case waits =>
    intro s p eq wide d a b off sr wp m
    refine ⟨⟨s, rfl, rfl⟩, ?yield, fun hm hr => ?wait, fun k hk hc => ?write⟩
    case yield =>
      by_cases hm : m = 0
      · exact ⟨s, (exec_yieldP p s).trans (congrArg _ (if_pos hm)), rfl, rfl, fun h => absurd hm h⟩
      · obtain ⟨ws, hws, hy⟩ := execYieldP_some s p hm
        refine ⟨_, hy, apart_onWarp s _, ?_⟩
        rw [curWarp_onWarp]
        exact ⟨rfl, fun _ => ⟨rfl, hws⟩⟩
    case wait =>
      have ho := openWindow_opened s
      obtain ⟨w, hw, hopen⟩ := ho.warp
      have ht := (Puts.refl (s.openWindow s.cur)).onWarp fun v => v.holdLanes m (wp.holdHere .wait s.now)
      rw [ho.cur, hw] at ht
      refine ⟨_, execWait_good s p eq wide d a b off hm hr, ho.mem, ho.spad, ?_⟩
      have hcur := ht.warp
      have hapart := ht.apart
      rw [ho.cur] at hapart
      rw [hcur]
      exact ⟨rfl, rfl, fun hn => hapart.trans (ho.apart hn), hopen, fun l hl => holdLanes_find _ m _ l hl⟩
    case write =>
      by_cases hsr : sr = 0x0E
      · subst hsr
        obtain ⟨hpend, hbare, x, y, hset, hlast⟩ := settled_pushFlags s (wp.flagsPend (wp.val wide a k)) hc rfl
        refine ⟨_, execMovsWrite_flags s p wide a k hk, apart_setWarp s _, hbare, ?_⟩
        rw [hset, hpend]
        refine ⟨rfl, rfl, rfl, fun q hq => ?_, fun h => absurd rfl h, fun _ hdue => ?_⟩
        · exact (List.mem_append.1 hq).imp_right fun h => by rw [List.mem_singleton.1 h]; exact ⟨rfl, rfl⟩
        · obtain ⟨z, rfl⟩ := hlast hdue
          exact flagsPend_flags wp _ k (execMask_setMask wp p k (firstLane_lane m k hk))
      · exact ⟨s, execMovsWrite_other s p wide sr a hsr, rfl, rfl, rfl, rfl, rfl, fun _ h => Or.inl h, fun _ => rfl, fun h => absurd h hsr⟩
  case ushers =>
    intro s p wide r a sel g k wp m owes places ha hk hp
    have lead : (wp.leadVals m fun l => wp.val64 a l).getD g.lbase 0 = wp.val64 a k := by
      rw [leadVals_base ha, hk]
      rfl
    refine ⟨fun hd => ?outside, fun hd => ?lmask, fun hd => ?lpark, fun hd => ?vpc⟩
    case outside =>
      have ht := puts_setWarp s wp
      refine ⟨s.setWarp s.cur wp, (execMov_usher s p wide r a sel).trans (by rw [pendUsher_outside ha hd]; rfl), ?_⟩
      have hpend : (s.setWarp s.cur wp).pends = [] := by rw [State.pends, ht.warp]; exact hp
      have hset : (s.setWarp s.cur wp).settled = wp := by rw [State.settled, hpend, ht.warp]; rfl
      refine ⟨⟨ht.apart, by rw [ht.warp], fun q hq => ?_, ?_⟩, hpend⟩
      · rw [hpend] at hq
        cases hq
      · rw [hset]
        exact ⟨ha.here, rfl, rfl, fun _ _ => rfl⟩
    case lmask =>
      obtain ⟨hlmask, -, -⟩ := pendUsher_inside ha hd fun l => wp.val64 a l
      have hseg := apply_lmask_segAt ha (wp.leadVals m fun l => wp.val64 a l)
      rw [lead] at hseg
      exact ⟨_, (execMov_usher s p wide .lmask a sel).trans (by rw [hlmask]),
        settled_usher s g.lbase _ _ ha.inClause hp ⟨rfl, rfl⟩ rfl hseg rfl rfl (startWoken_usher ha hd _)⟩
    case lpark =>
      obtain ⟨-, hlpark, -⟩ := pendUsher_inside ha hd fun l => wp.val64 a l
      have hseg := apply_lpark_segAt ha (wp.leadVals m fun l => wp.val64 a l)
      rw [lead] at hseg
      exact ⟨_, (execMov_usher s p wide .lpark a sel).trans (by rw [hlpark]),
        settled_usher s g.lbase _ _ ha.inClause hp ⟨rfl, rfl⟩ rfl hseg rfl rfl (startWoken_usher ha hd _)⟩
    case vpc =>
      obtain ⟨-, -, hvpc⟩ := pendUsher_inside ha hd fun l => wp.val64 a l
      exact ⟨_, (execMov_usher s p wide .vpc a sel).trans (by rw [hvpc]),
        settled_usher s g.lbase _ _ ha.inClause hp ⟨rfl, rfl⟩ rfl (apply_vpc_segAt ha _) rfl rfl fun _ _ => rfl⟩

end Sys2Proof.Machine
end

section
/-! SUPPORT. One step of the module at a slot, between slots and on the agenda (R59, R61, R67). -/

namespace Sys2Proof.Machine

/-- A warp without a poisoned register reads none (R410). -/
theorem poisonHits_clean (s t : State) (h : s.curWarp.poison = []) : s.poisonHits t = 0 := by
  have hm : ∀ word m, s.curWarp.poisoned word m = 0 := fun word m => if_pos h
  unfold State.poisonHits
  dsimp only
  rw [hm, if_pos rfl]

/-- A slot that reads no poison is its instruction, and then the next slot stands (R67). -/
theorem finishSlot_clean (t : State) (i : Instr) (h : t.curWarp.poison = []) :
    t.finishSlot i = match exec i t with
      | .next u => .next (t.afterSlot u t.curWarp.curWord)
      | o => o := by
  unfold State.finishSlot
  dsimp only
  cases exec i t with
  | next u => exact if_pos (poisonHits_clean t u h)
  | fault _ => rfl
  | refused _ => rfl

/-- A slot whose window has room for its instruction runs what its word decodes to (R95, R201). -/
theorem slotAct_run (s : State) (i : Instr)
    (hroom : (s.atSlot.curWarp.window.map Window.instrs).getD 0 < Config.winInstrs)
    (hword : decodeWord s.atSlot.curWarp.clauseAt.cls s.atSlot.curWarp.clauseAt.slot
      (s.atSlot.curWarp.clauseAt.slot == s.atSlot.curWarp.clauseAt.cnt) s.atSlot.curWarp.curWord = .ok i) :
    s.slotAct = .run i s.atSlot := by
  unfold State.slotAct
  dsimp only
  rw [if_neg (by simpa using hroom), hword]

theorem step_agenda (s : State) (i : Instr) (rest : List Instr) (h : s.agenda = i :: rest) : step s = exec i { s with agenda := rest } := by
  unfold step
  rw [h]

theorem step_between (s : State) (h : s.agenda = []) (hr : s.slotReady = false) : step s = .next s.auto := by
  unfold step
  rw [h]
  exact if_neg (by simp [hr])

theorem step_slot (s : State) (h : s.agenda = []) (hr : s.slotReady = true) :
    step s = match s.slotAct with
      | .done t => .next t
      | .run i t => t.finishSlot i := by
  unfold step
  rw [h]
  exact if_pos hr

/-- Settles O13. The agenda, the module between slots and the slot are the cases of `step`; `slotAct_run` and `finishSlot_clean` say what a slot
does with a word that decodes. -/
theorem stepRunsTheSlot : Obligations.StepRunsTheSlot := by
  unfold Obligations.StepRunsTheSlot
  refine ⟨fun s => ⟨step_agenda s, step_between s, fun h hr t ht => ?done⟩, ?run⟩
  case done => rw [step_slot s h hr, ht]
  case run =>
    intro s i t a h hr hroom hclean hword
    rw [step_slot s h hr, slotAct_run s i hroom hword]
    exact finishSlot_clean t i hclean

end Sys2Proof.Machine
end

section
/-! SUPPORT. What a rollback leaves of a warp slot, its commands and its signatures (R50, R203, R206, R380). -/

namespace Sys2Proof.Machine

/-! ### What announcing causes and escalation leave -/

/-- A warp slot without what announcing its causes and escalation change: the causes of its segments and the counts of R380. -/
def Warp.lasting (wp : Warp) : Warp :=
  { wp.onSegs fun g => { g with cause := none } with rolls := [], level := 0, levelAt := 0, soloUntil := 0 }

theorem lasting_onSeg_cause (wp : Warp) (lb : Nat) (c : Option SegCause) :
    (wp.onSeg lb fun g => { g with cause := c }).lasting = wp.lasting := by
  have : ∀ g : Seg, { (if g.lbase = lb then { g with cause := c } else g) with cause := none } = { g with cause := none } := by
    intro g
    split <;> rfl
  simp only [Warp.lasting, Warp.onSegs, Warp.onSeg, List.map_map, Function.comp_def, this]

/-- Segments of slots that agree on what lasts differ in their causes alone. -/
theorem segAt_of_lasting {v wp : Warp} (h : v.lasting = wp.lasting) {lb : Nat} {g : Seg} (hg : wp.segAt lb = some g) :
    ∃ c, v.segAt lb = some { g with cause := c } := by
  have key : ∀ u : Warp, u.lasting.segAt lb = (u.segAt lb).map fun g => { g with cause := none } := fun u =>
    segAt_onSegs u lb (fun g => { g with cause := none }) fun _ => rfl
  have hv : (v.segAt lb).map (fun g => { g with cause := none }) = some { g with cause := none } := by
    rw [← key v, h, key wp, hg, Option.map_some]
  obtain ⟨q, hq, hqg⟩ := Option.map_eq_some_iff.1 hv
  exact ⟨q.cause, hq.trans (congrArg (fun x : Seg => some { x with cause := q.cause }) hqg)⟩

/-- `t` keeps of `s` the cores, the commands and what lasts of warp slot `w`. -/
structure Lasts (w : Nat) (s t : State) : Prop where
  cores : t.cores = s.cores
  cmds : t.cmds = s.cmds
  warp : (t.warp w).lasting = (s.warp w).lasting

theorem Lasts.refl (w : Nat) (s : State) : Lasts w s s := ⟨rfl, rfl, rfl⟩

theorem Lasts.trans {w : Nat} {s t u : State} (a : Lasts w s t) (b : Lasts w t u) : Lasts w s u :=
  ⟨b.cores.trans a.cores, b.cmds.trans a.cmds, b.warp.trans a.warp⟩

theorem onWarp_lasts (w : Nat) (s : State) (f : Warp → Warp) (hf : (f (s.warp w)).lasting = (s.warp w).lasting) : Lasts w s (s.onWarp w f) :=
  ⟨rfl, rfl, by rw [warp_onWarp_same, hf]⟩

theorem msix_cmds (s : State) (f v : Nat) : (s.msix f v).cmds = s.cmds := by
  unfold State.msix
  dsimp only
  split <;> rfl

theorem post_cmds (s : State) (code : Nat) (i : LogInfo) : (s.post code i).cmds = s.cmds := by
  have hwake : (if causeDest code = .porter then s.later (.porterWake i.die) else s).cmds = s.cmds := by
    split <;> rfl
  unfold State.post
  rw [← hwake]
  generalize (if causeDest code = .porter then s.later (.porterWake i.die) else s) = t
  dsimp only
  split
  · rfl
  · rw [msix_cmds, onFn_cmds]

theorem post_lasts (w : Nat) (s : State) (code : Nat) (i : LogInfo) : Lasts w s (s.post code i) := by
  have h := post_quiet s code i
  exact ⟨h.cores, post_cmds s code i, by rw [State.warp, h.warps]; rfl⟩

theorem hold_lasts (w : Nat) (s : State) (f : Nat) (x : Held) : Lasts w s (s.hold f x).2 := ⟨rfl, rfl, rfl⟩

theorem announce_lasts (w : Nat) (s : State) (lb : Nat) : Lasts w s (s.announce w lb) := by
  unfold State.announce
  dsimp only
  split
  · exact Lasts.refl w s
  · next g _ =>
    split
    · exact Lasts.refl w s
    · next x _ =>
      split
      · exact ((hold_lasts w s _ _).trans (onWarp_lasts w _ _ (lasting_onSeg_cause _ lb _))).trans (post_lasts w _ _ _)
      · exact Lasts.refl w s

theorem announceAll_lasts (w : Nat) (s : State) : Lasts w s (s.announceAll w) :=
  List.foldlRecOn _ _ (Lasts.refl w s) fun _ h g _ => h.trans (announce_lasts w _ g.lbase)

/-- A warp slot at the next level of escalation (R380). -/
def Warp.escalated (wp : Warp) (now : Nat) : Warp :=
  { wp with rolls := [], level := wp.level + 1, levelAt := now, soloUntil := if wp.level + 1 < 3 then now + 65536 else wp.soloUntil }

/-- Escalation counts the rollback, and may post a notice (R380). -/
theorem escalate_lasts (w : Nat) (s : State) : Lasts w s (s.escalate w) := by
  have counted : ∀ v : Warp, v.lasting = (s.warp w).lasting → Lasts w s (s.setWarp w v) := fun v hv => onWarp_lasts w s (fun _ => v) hv
  unfold State.escalate
  dsimp only
  split
  · exact counted _ rfl
  · refine (counted ((s.warp w).escalated s.now) rfl).trans ?_
    split
    · exact Lasts.refl w _
    · split
      · exact post_lasts w _ _ _
      · split
        · exact (post_lasts w _ _ _).trans ⟨rfl, rfl, rfl⟩
        · exact (hold_lasts w _ _ _).trans (post_lasts w _ _ _)

/-! ### The checkpoint restored -/

/-- A segment after a rollback to a checkpoint (R203). -/
def Seg.rolledBack (k : Checkpoint) (now : Nat) (g : Seg) : Seg :=
  match k.segs.find? fun h => h.lbase == g.lbase && h.gid == g.gid with
  | some h => { g.restore h with notBefore := max g.notBefore (now + 24) }
  | none => g

theorem rolledBack_lbase (k : Checkpoint) (now : Nat) (g : Seg) : (g.rolledBack k now).lbase = g.lbase := by
  unfold Seg.rolledBack
  split
  · next h hh =>
    have := List.find?_some hh
    rw [Bool.and_eq_true, beq_iff_eq] at this
    exact this.1
  · rfl

theorem restore_segAt (wp : Warp) (x : Window) (now n lb : Nat) :
    (wp.restore x now n).segAt lb = (wp.segAt lb).map (Seg.rolledBack x.ckpt now) :=
  segAt_onSegs wp lb (Seg.rolledBack x.ckpt now) (rolledBack_lbase x.ckpt now)

/-- A landing without the tentative signatures of a warp (R206, R239). -/
def Landing.withdrawn (w : Nat) (d : Landing) : Landing :=
  if d.warp = w ∧ d.st ≠ .free then
    let left := d.signers.filter fun q => q.2.committed
    if left = d.signers then d
    else if left.isEmpty then Landing.reset
    else { d with signers := left, st := .signing }
  else d

theorem withdrawn_reset (w : Nat) : Landing.reset.withdrawn w = Landing.reset := if_neg fun h => h.2 rfl

theorem withdrawSigns_landing (s : State) (w k : Nat) :
    (s.withdrawSigns w).landing (coreOf w) k = (s.landing (coreOf w) k).withdrawn w := by
  have hmap : (s.withdrawSigns w).landing (coreOf w) k = ((s.core (coreOf w)).landings.map (Landing.withdrawn w)).getD k Landing.reset := by
    unfold State.landing State.withdrawSigns
    rw [core_onCore_same]
    rfl
  rw [hmap, ← withdrawn_reset w, List.getD_map]
  rfl

theorem withdrawn_committed (w : Nat) (d : Landing) (hw : (d.withdrawn w).warp = w) (hst : (d.withdrawn w).st ≠ .free) :
    ∀ q ∈ (d.withdrawn w).signers, q.2.committed = true := by
  unfold Landing.withdrawn at hw hst ⊢
  split at hw
  · next hd =>
    rw [if_pos hd] at hst ⊢
    dsimp only at hst ⊢
    split
    · next hleft =>
      rw [← hleft]
      exact fun q hq => (List.mem_filter.1 hq).2
    · split
      · exact fun q hq => absurd hq List.not_mem_nil
      · exact fun q hq => (List.mem_filter.1 hq).2
  · next hd =>
    rw [if_neg hd] at hst
    exact absurd ⟨hw, hst⟩ hd

/-- Warp slot `w` after a rollback to the checkpoint of window `x`. -/
def State.restoredSlot (s : State) (w : Nat) (x : Window) : Warp :=
  (s.warp w).restore x s.now ((s.deferredOf w).map fun q => q.2.insn).eraseDups.length

/-- The module after that rollback, before the slot's causes are announced and the rollback is counted. -/
def State.restored (s : State) (w : Nat) (x : Window) : State :=
  let s' := { s.unclaim (.commit w) with cmds := s.cmds.filter fun (_, c) => !(c.warp == w && c.st == CmdSt.deferred) }
  (s'.withdrawSigns w).setWarp w (s.restoredSlot w x)

theorem restored_warp (s : State) (w : Nat) (x : Window) : (s.restored w x).warp w = s.restoredSlot w x := warp_setWarp_same _ _ _

/-- A segment of which the checkpoint holds the state `h`. -/
theorem restoredSlot_segAt (s : State) (w : Nat) (x : Window) (lb : Nat) (g h : Seg) (hg : (s.warp w).segAt lb = some g)
    (hh : x.ckpt.segs.find? (fun h => h.lbase == lb && h.gid == g.gid) = some h) :
    (s.restoredSlot w x).segAt lb = some { g.restore h with notBefore := max g.notBefore (s.now + 24) } := by
  obtain rfl : g.lbase = lb := by simpa using List.find?_some hg
  have hback : g.rolledBack x.ckpt s.now = { g.restore h with notBefore := max g.notBefore (s.now + 24) } := by
    rw [Seg.rolledBack, hh]
  rw [State.restoredSlot, restore_segAt, hg, Option.map_some, hback]

theorem restored_landing (s : State) (w k : Nat) (x : Window) :
    (s.restored w x).landing (coreOf w) k = (s.landing (coreOf w) k).withdrawn w := withdrawSigns_landing _ w k

theorem execRollback_hit (s : State) (w : Nat) (x : Window) (hx : (s.warp w).window = some x) (hhit : x.hit = true) :
    execRollback w s = .next (((s.restored w x).announceAll w).escalate w) := by
  have hroll : s.rollBack w true = (s.undo w).escalate w := if_neg (by simp [hx])
  have hundo : s.undo w = (s.restored w x).announceAll w := by
    unfold State.undo
    dsimp only
    rw [hx]
    rfl
  unfold execRollback
  rw [hx, Option.map_some, hhit, Option.getD_some, if_pos rfl, hroll, hundo]

theorem exec_rollback (w : Nat) (s : State) : exec (.rollback w) s = execRollback w s := rfl

/-- Settles O28. The rollback restores the slot (`State.restored`); what follows it keeps the cores, the commands and what lasts of the slot
(`announceAll_lasts`, `escalate_lasts`). -/
theorem rollback : Obligations.Rollback := by
  unfold Obligations.Rollback
  intro s w x hx hhit
  obtain ⟨hcores, hcmds, hwarp⟩ := (announceAll_lasts w (s.restored w x)).trans (escalate_lasts w _)
  refine ⟨_, (exec_rollback w s).trans (execRollback_hit s w x hx hhit), ?_⟩
  generalize ((s.restored w x).announceAll w).escalate w = t at hcores hcmds hwarp
  rw [restored_warp] at hwarp
  have hregs : (t.warp w).regs = x.ckpt.regs := congrArg Warp.regs hwarp
  refine fun n => ⟨by rw [Warp.reg, hregs], hregs, congrArg Warp.preds hwarp, congrArg Warp.pcs hwarp, congrArg Warp.live hwarp,
    congrArg Warp.fpflags hwarp, congrArg Warp.window hwarp, congrArg Warp.clause hwarp, congrArg Warp.results hwarp,
    congrArg Warp.stores hwarp, fun lb g h hg hh => ?segs, hcmds, fun k => ?signs⟩
  case segs =>
    obtain ⟨c, hc⟩ := segAt_of_lasting hwarp (restoredSlot_segAt s w x lb g h hg hh)
    exact ⟨_, hc, rfl, rfl, rfl, rfl, rfl, rfl, rfl, rfl, rfl, rfl, rfl, rfl, rfl, rfl, rfl, le_max_right _ _⟩
  case signs =>
    have hland : t.landing (coreOf w) k = (s.landing (coreOf w) k).withdrawn w := by
      rw [State.landing, State.core, hcores]
      exact restored_landing s w k x
    rw [hland]
    exact withdrawn_committed w _

end Sys2Proof.Machine
end

section
/-! SUPPORT. A load that marks the leaf entry of its page in a memory that is not in canonical form (R179). -/

namespace Sys2Proof.Machine

/-- No guard, no marker. -/
def unguarded : Pre := ⟨false, .none, false, 15⟩

/-- The load of 32 bits at address 0, which is uniform. -/
def loadZero : Instr := .ld unguarded .none false .b32 (.v 4) .vz .vz 0

/-- The module with a warp at a slot and the translation of page 0, whose leaf entry is at 8. Its memory is not canonical (`Memory.wf`): a blank byte
is listed at 8, before byte 3, and hides it. -/
def outOfOrder : State :=
  { State.reset.withFetchWord 64 0 with
    mem := [(8, 0), (3, 9)]
    xlats := [⟨0, 0, 0, 0, 0, 8, 4096, false, true, true, true⟩] }

/-- The load sets `AC` of the leaf entry. The write of byte 8 takes its blank byte off the list, and byte 3 comes to light. -/
theorem loadZero_uncovers : Completes loadZero outOfOrder fun t => t.mem.byte 3 = 9 := by
  have hrun : (match exec loadZero outOfOrder with
      | .next t => decide (t.mem.byte 3 = 9)
      | _ => false) = true := by decide +kernel
  unfold Completes
  cases h : exec loadZero outOfOrder with
  | next t =>
    rw [h] at hrun
    exact ⟨t, rfl, of_decide_eq_true hrun⟩
  | fault _ => simp [h] at hrun
  | refused _ => simp [h] at hrun

/-- Byte 3 lies in no leaf entry that the load marks: that of its one reading lane is at 8. -/
theorem loadZero_leaf : ¬Xlat.leafByte (outOfOrder.loadPlace outOfOrder.cur 0 4 (outOfOrder.curWarp.ea .vz .vz 0 4 0)).xlat 3 := by
  have hleaf : (outOfOrder.loadPlace outOfOrder.cur 0 4 (outOfOrder.curWarp.ea .vz .vz 0 4 0)).xlat.map Xlat.leafPa = some 8 := by decide +kernel
  rintro ⟨y, hy, hlow, -⟩
  rw [hy, Option.map_some, Option.some_inj] at hleaf
  omega

/-- Refutes O25. The statement asks for no canonical memory, as `CommitWrites` and `ReadsAndArrivals` do; in `outOfOrder` the load that sets `AC` of
the leaf entry at 8 changes what byte 3 reads as, which lies in no leaf entry. -/
theorem not_loadIssue : ¬Obligations.LoadIssue := by
  unfold Obligations.LoadIssue
  intro h
  obtain ⟨u, hu, hbyte⟩ := loadZero_uncovers
  have hload := (h outOfOrder unguarded .none false .b32 (.v 4) .vz .vz 0).1 (by decide +kernel) (by decide +kernel) (by decide +kernel)
    (by decide +kernel) (by decide +kernel)
  obtain ⟨t, ht, ⟨-, -, -, -, -, hmem, -, -⟩, -⟩ := hload.1 (by decide +kernel)
  obtain rfl : u = t := Host.Outcome.next.inj (hu.symm.trans ht)
  have hone : ∀ l ∈ (outOfOrder.curWarp.segsIn (outOfOrder.curWarp.execMask unguarded)).filterMap
      (fun g => g.lead (outOfOrder.curWarp.execMask unguarded)), l = 0 := by decide +kernel
  have huniform : Reg.vz = .vz ∧ outOfOrder.curWarp.shape true .vz = .uniform := by decide +kernel
  rw [if_pos huniform] at hmem
  have hkeep : u.mem.byte 3 = outOfOrder.mem.byte 3 := hmem 3 fun l hl => hone l hl ▸ loadZero_leaf
  rw [hbyte] at hkeep
  exact absurd hkeep (by decide)

end Sys2Proof.Machine
end

section
/-! SUPPORT. The decoder on the words of the encoder: words and fields, what each check of R95 asks, and that a well-formed instruction meets it. -/

namespace Sys2Proof

/-! ### Words and fields -/

/-- The fields cut out of twelve bit vectors that stand side by side, in the widths of R78 and R80. -/
theorem extract_side_by_side (sw : BitVec 1) (hold : BitVec 2) (pn : BitVec 1) (pr : BitVec 4) (opc : BitVec 8) (ty sub : BitVec 4)
    (d a b c m : BitVec 8) :
    let w := sw ++ hold ++ pn ++ pr ++ opc ++ ty ++ sub ++ d ++ a ++ b ++ c ++ m
    w.extractLsb' 63 1 = sw ∧ w.extractLsb' 61 2 = hold ∧ w.extractLsb' 60 1 = pn ∧ w.extractLsb' 56 4 = pr ∧ w.extractLsb' 48 8 = opc ∧
      w.extractLsb' 44 4 = ty ∧ w.extractLsb' 40 4 = sub ∧ w.extractLsb' 32 8 = d ∧ w.extractLsb' 24 8 = a ∧ w.extractLsb' 16 8 = b ∧
      w.extractLsb' 8 8 = c ∧ w.extractLsb' 0 8 = m := by
  intro w
  refine ⟨?_, ?_, ?_, ?_, ?_, ?_, ?_, ?_, ?_, ?_, ?_, ?_⟩ <;>
    simp (disch := decide) only [w, BitVec.extractLsb'_append_eq_of_le, BitVec.extractLsb'_append_eq_of_add_le, Nat.sub_self,
      BitVec.extractLsb'_eq_self, Nat.reduceSub]

theorem ofWord_toWord (f : Fields) : Fields.ofWord f.toWord = f := by
  obtain ⟨sw, hold, pn, pr, opc, ty, sub, d, a, b, c, m⟩ := f
  rw [Fields.ofWord, Fields.mk.injEq]
  exact extract_side_by_side sw hold pn pr opc ty sub d a b c m

section
variable (p : Pre) (opc : BitVec 8) (ty sub : BitVec 4) (d a b c m : BitVec 8)

@[simp] theorem fields_pre : (p.fields opc ty sub d a b c m).pre = p := by
  obtain ⟨sw, hold, pn, pr⟩ := p
  cases sw <;> cases hold <;> cases pn <;> rfl
@[simp] theorem fields_pr : (p.fields opc ty sub d a b c m).pr = p.pr := rfl
@[simp] theorem fields_pn : (p.fields opc ty sub d a b c m).pn = if p.pn = true then 1 else 0 := rfl
@[simp] theorem fields_opc : (p.fields opc ty sub d a b c m).opc = opc := rfl
@[simp] theorem fields_ty : (p.fields opc ty sub d a b c m).ty = ty := rfl
@[simp] theorem fields_sub : (p.fields opc ty sub d a b c m).sub = sub := rfl
@[simp] theorem fields_d : (p.fields opc ty sub d a b c m).d = d := rfl
@[simp] theorem fields_a : (p.fields opc ty sub d a b c m).a = a := rfl
@[simp] theorem fields_b : (p.fields opc ty sub d a b c m).b = b := rfl
@[simp] theorem fields_c : (p.fields opc ty sub d a b c m).c = c := rfl
@[simp] theorem fields_m : (p.fields opc ty sub d a b c m).m = m := rfl

end

/-! ### Operands and their codes -/

@[simp] theorem toNat_toByte_v (n : BitVec 7) : (Reg.v n).toByte.toNat = n.toNat := by
  change (0#1 ++ n).toNat = n.toNat
  rw [BitVec.toNat_append]
  simp

@[simp] theorem toNat_toByte_p (n : BitVec 4) : (Reg.p n).toByte.toNat = 0x80 + n.toNat := by
  change (8#4 ++ n).toNat = 0x80 + n.toNat
  rw [BitVec.toNat_append, ← Nat.shiftLeft_add_eq_or_of_lt n.isLt]
  rfl

@[simp] theorem ofByte_toByte (r : Reg) : Reg.ofByte r.toByte = r := by
  cases r with
  | v n =>
    have hlow := n.isLt
    rw [Reg.ofByte, toNat_toByte_v, if_pos (by omega)]
    exact congrArg Reg.v BitVec.setWidth_append_eq_right
  | p n =>
    have hlow := n.isLt
    rw [Reg.ofByte, toNat_toByte_p, if_neg (by omega), if_pos (by omega)]
    exact congrArg Reg.p BitVec.setWidth_append_eq_right
  | u r => cases r <;> rfl
  | vz => rfl

@[simp] theorem ty_ofCode_code (t : Ty) : Ty.ofCode t.code = t := by cases t <;> rfl
@[simp] theorem icond_ofSub_sub (x : ICond) : ICond.ofSub x.sub = x := by cases x <;> rfl
@[simp] theorem fcond_ofSub_sub (x : FCond) : FCond.ofSub x.sub = x := by cases x <;> rfl
@[simp] theorem rmode_ofSub_sub (x : RMode) : RMode.ofSub x.sub = x := by cases x <;> rfl
@[simp] theorem xchlOp_ofSub_sub (x : XchlOp) : XchlOp.ofSub x.sub = x := by cases x <;> rfl
@[simp] theorem voteOp_ofSub_sub (x : VoteOp) : VoteOp.ofSub x.sub = x := by cases x <;> rfl
@[simp] theorem redOp_ofSub_sub (x : RedOp) : RedOp.ofSub x.sub = x := by cases x <;> rfl
@[simp] theorem atomOp_ofSub_sub (x : AtomOp) : AtomOp.ofSub x.sub = x := by
  cases x with
  | red op => cases op <;> rfl
  | exch => rfl
@[simp] theorem level_ofSub_sub (x : Level) : Level.ofSub x.sub = x := by cases x <;> rfl
@[simp] theorem cacheOp_ofSub_sub (x : CacheOp) : CacheOp.ofSub x.sub = x := by cases x <;> rfl
@[simp] theorem tlbiOp_ofSub_sub (x : TlbiOp) : TlbiOp.ofSub x.sub = x := by cases x <;> rfl
@[simp] theorem hint_ofSub_sub (h : Hint) (b128 : Bool) : Hint.ofSub (h.sub b128) = h := by cases h <;> cases b128 <;> rfl
@[simp] theorem hint_sub_width (h : Hint) (b128 : Bool) : (h.sub b128).extractLsb' 0 1 = 1#1 ↔ b128 = true := by
  cases h <;> cases b128 <;> decide
@[simp] theorem subBit_bit (x : Bool) : (subBit x).extractLsb' 0 1 = 1#1 ↔ x = true := by cases x <;> decide
@[simp] theorem modBit_bit0 (x : Bool) : (modBit x 0).extractLsb' 0 1 = 1#1 ↔ x = true := by cases x <;> decide
@[simp] theorem modBit_bit1 (x : Bool) : (modBit x 1).extractLsb' 1 1 = 1#1 ↔ x = true := by cases x <;> decide
@[simp] theorem modBits_bit0 (x y : Bool) : (modBit x 0 ||| modBit y 1).extractLsb' 0 1 = 1#1 ↔ x = true := by
  cases x <;> cases y <;> decide
@[simp] theorem modBits_bit1 (x y : Bool) : (modBit x 0 ||| modBit y 1).extractLsb' 1 1 = 1#1 ↔ y = true := by
  cases x <;> cases y <;> decide
@[simp] theorem wideCode_wide (x : Bool) : wideCode x = 9#4 ↔ x = true := by cases x <;> decide
@[simp] theorem wideTy_signedCode (x : Bool) : wideTy (signedCode x) = x := by cases x <;> rfl
@[simp] theorem wideTy_wideCode (x : Bool) : wideTy (wideCode x) = x := by cases x <;> rfl

/-! ### Immediates -/

section
variable (p : Pre) (opc : BitVec 8) (ty sub : BitVec 4) (d a b : BitVec 8)

@[simp] theorem fields_imm24 (x : BitVec 24) :
    (p.fields opc ty sub d a (x.extractLsb' 16 8) (x.extractLsb' 8 8) (x.extractLsb' 0 8)).imm24 = x := by
  change x.extractLsb' 16 8 ++ x.extractLsb' 8 8 ++ x.extractLsb' 0 8 = x
  iterate 2 rw [BitVec.extractLsb'_append_extractLsb'_eq_extractLsb' (by rfl)]
  exact BitVec.extractLsb'_eq_self
@[simp] theorem fields_off16 (x : BitVec 16) : (p.fields opc ty sub d a b (x.extractLsb' 8 8) (x.extractLsb' 0 8)).off16 = x := by
  change x.extractLsb' 8 8 ++ x.extractLsb' 0 8 = x
  rw [BitVec.extractLsb'_append_extractLsb'_eq_extractLsb' (by rfl)]
  exact BitVec.extractLsb'_eq_self
@[simp] theorem fields_off40 (x : BitVec 40) : (p.fields opc ty sub (x.extractLsb' 32 8) (x.extractLsb' 24 8)
    (x.extractLsb' 16 8) (x.extractLsb' 8 8) (x.extractLsb' 0 8)).off40 = x := by
  change x.extractLsb' 32 8 ++ x.extractLsb' 24 8 ++ x.extractLsb' 16 8 ++ x.extractLsb' 8 8 ++ x.extractLsb' 0 8 = x
  iterate 4 rw [BitVec.extractLsb'_append_extractLsb'_eq_extractLsb' (by rfl)]
  exact BitVec.extractLsb'_eq_self

end

/-- The byte D of format X (R81). -/
def landingByte (land : BitVec 3) (tile : Bool) (sel : BitVec 2) : BitVec 8 := land ++ (if tile then 1#1 else 0#1) ++ sel ++ 0#2
/-- `CVT`'s byte `MOD` (R91). -/
def cvtMod (ts : Ty) (ftz sat : Bool) : BitVec 8 := ts.code ++ 0#2 ++ (if ftz then 1#1 else 0#1) ++ (if sat then 1#1 else 0#1)

section
variable (p : Pre) (opc : BitVec 8) (ty sub : BitVec 4)

@[simp] theorem encR_eq (d a b c : Reg) (m : BitVec 8) :
    encR p opc ty sub d a b c m = p.fields opc ty sub d.toByte a.toByte b.toByte c.toByte m := rfl
@[simp] theorem encI_eq (d a : Reg) (imm : BitVec 24) : encI p opc ty sub d a imm =
    p.fields opc ty sub d.toByte a.toByte (imm.extractLsb' 16 8) (imm.extractLsb' 8 8) (imm.extractLsb' 0 8) := rfl
@[simp] theorem encM_eq (d a b : Reg) (off : BitVec 16) : encM p opc ty sub d a b off =
    p.fields opc ty sub d.toByte a.toByte b.toByte (off.extractLsb' 8 8) (off.extractLsb' 0 8) := rfl
@[simp] theorem encJ_eq (off : BitVec 40) : encJ p opc off = p.fields opc 0 0 (off.extractLsb' 32 8) (off.extractLsb' 24 8)
    (off.extractLsb' 16 8) (off.extractLsb' 8 8) (off.extractLsb' 0 8) := rfl
@[simp] theorem encX_eq (land : BitVec 3) (tile : Bool) (sel : BitVec 2) (a b c k : Reg) : encX p opc ty land tile sel a b c k =
    p.fields opc ty 0 (landingByte land tile sel) a.toByte b.toByte c.toByte k.toByte := rfl

end

@[simp] theorem landingByte_land (land : BitVec 3) (tile : Bool) (sel : BitVec 2) : (landingByte land tile sel).extractLsb' 5 3 = land := by
  revert land tile sel; decide
@[simp] theorem landingByte_tile (land : BitVec 3) (tile : Bool) (sel : BitVec 2) :
    (landingByte land tile sel).extractLsb' 4 1 = 1#1 ↔ tile = true := by
  revert land tile sel; decide
@[simp] theorem landingByte_sel (land : BitVec 3) (tile : Bool) (sel : BitVec 2) : (landingByte land tile sel).extractLsb' 2 2 = sel := by
  revert land tile sel; decide
@[simp] theorem landingByte_low (land : BitVec 3) (tile : Bool) (sel : BitVec 2) : (landingByte land tile sel).extractLsb' 0 2 = 0#2 := by
  revert land tile sel; decide

@[simp] theorem cvtMod_type (ts : Ty) (ftz sat : Bool) : (cvtMod ts ftz sat).extractLsb' 4 4 = ts.code := by
  cases ts <;> cases ftz <;> cases sat <;> rfl
@[simp] theorem cvtMod_ftz (ts : Ty) (ftz sat : Bool) : (cvtMod ts ftz sat).extractLsb' 1 1 = 1#1 ↔ ftz = true := by
  cases ts <;> cases ftz <;> cases sat <;> decide
@[simp] theorem cvtMod_sat (ts : Ty) (ftz sat : Bool) : (cvtMod ts ftz sat).extractLsb' 0 1 = 1#1 ↔ sat = true := by
  cases ts <;> cases ftz <;> cases sat <;> decide

@[simp] theorem sel_low (sel : BitVec 2) : (sel.setWidth 8).extractLsb' 0 2 = sel := by revert sel; decide
@[simp] theorem sreg_low (sr : BitVec 8) : (sr.setWidth 24).extractLsb' 0 8 = sr := by
  apply BitVec.eq_of_toNat_eq
  simp only [BitVec.extractLsb'_toNat, BitVec.toNat_setWidth, Nat.shiftRight_eq_div_pow]
  omega
@[simp] theorem sreg_mid (sr : BitVec 8) : (sr.setWidth 24).extractLsb' 8 8 = 0#8 := by
  apply BitVec.eq_of_toNat_eq
  simp only [BitVec.extractLsb'_toNat, BitVec.toNat_setWidth, Nat.shiftRight_eq_div_pow, BitVec.toNat_ofNat]
  omega
@[simp] theorem sreg_high (sr : BitVec 8) : (sr.setWidth 24).extractLsb' 16 8 = 0#8 := by
  apply BitVec.eq_of_toNat_eq
  simp only [BitVec.extractLsb'_toNat, BitVec.toNat_setWidth, Nat.shiftRight_eq_div_pow, BitVec.toNat_ofNat]
  omega

/-! ### The instruction of a word's fields -/

theorem build_encode (i : Instr) (f : Fields) (h : encodeFields i = some f) : build f = some i := by
  cases i
  case qtry p pop h b c =>
    cases h
    refine congrArg some ?_
    cases pop <;> simp [subBit]
  case cvt p mode ftz sat td ts d a =>
    cases h
    change build (encR p 0x8B td.code mode.sub d a .vz .vz (cvtMod ts ftz sat)) = _
    refine congrArg some ?_
    simp
  all_goals cases h
  all_goals
    refine congrArg some ?_
    simp

/-! ### The checks of R95 -/

theorem refusal_eq_none {α : Type} {c : Prop} [Decidable c] (e : α) (x : Option α) : (if c then some e else x) = none ↔ ¬c ∧ x = none := by
  split <;> simp [*]

theorem checkType_eq_none (row : CellRow) (f : Fields) : checkType row f = none ↔
    row.types.contains f.ty = true ∧ (row.subs.contains f.sub = true → typeOfSub f.opc.toNat f.sub f.ty = true) ∧
    (f.opc.toNat = 0x8B → tyCvt.contains (f.m.extractLsb' 4 4) = true) ∧
    (f.opc.toNat = 0x11 ∨ f.opc.toNat = 0x16 → f.m.toNat < 0x16 → f.ty = wideCode (sreg64 f.m.toNat)) ∧
    (f.opc.toNat = 0x10 → (movKind f.d = .usher ∨ movKind f.a = .usher → f.ty = 9) ∧ (movKind f.d = .pred ∨ movKind f.a = .pred → f.ty = 8)) := by
  simp only [checkType, refusal_eq_none]
  grind

theorem checkRest_eq_none (row : CellRow) (f : Fields) : checkRest row f = none ↔
    row.subs.contains f.sub = true ∧
    (f.opc.toNat = 0xA0 ∨ f.opc.toNat = 0xA1 ∨ f.opc.toNat = 0xAC ∨ f.opc.toNat = 0xAD → f.sub.extractLsb' 0 2 = 1#2 → f.ty = 9) ∧
    (0x80 ≤ f.opc.toNat → f.opc.toNat ≤ 0x87 → f.sub = 1 → f.ty = 10) ∧
    (row.fmt = .R → f.m &&& ~~~(modMask row f) = 0 ∧ (f.opc.toNat = 0x10 → f.m.extractLsb' 0 2 ≠ 3#2)) ∧
    (f.opc.toNat = 0x11 ∨ f.opc.toNat = 0x16 → f.b = 0 ∧ f.c = 0) ∧
    (f.opc.toNat = 0x0A ∨ f.opc.toNat = 0x14 ∨ f.opc.toNat = 0x15 ∨ f.opc.toNat = 0x16 → f.pr = 15 ∧ f.pn = 0) := by
  simp only [checkRest, refusal_eq_none]
  constructor <;> grind

theorem firstFault_eq_none (row : CellRow) (f : Fields) (l : List (BitVec 4 × FieldKind × BitVec 8)) :
    firstFault row f l = none ↔ ∀ x ∈ l, fieldFault row f x.2.1 x.2.2 = none := by
  induction l with
  | nil => simp [firstFault]
  | cons x rest ih =>
    obtain ⟨no, k, b⟩ := x
    rw [firstFault, List.forall_mem_cons]
    cases fieldFault row f k b with
    | some e => simp
    | none => simpa using ih

theorem checkRegs_eq_none (row : CellRow) (f : Fields) : checkRegs row f = none ↔
    (∀ x ∈ regFields row f, fieldFault row f x.2.1 x.2.2 = none) ∧ (f.opc.toNat = 0x11 → f.m.toNat < 0x16) := by
  rw [← firstFault_eq_none, checkRegs]
  cases firstFault row f (regFields row f) with
  | some e => simp
  | none => simp
/-- A word whose fields pass every check is the instruction that is built from them. -/
theorem decodeAlone_toWord {f : Fields} {row : CellRow} {i : Instr} (hrow : cellRow f.opc.toNat = some row) (htype : checkType row f = none)
    (hregs : checkRegs row f = none) (hrest : checkRest row f = none) (hbuild : build f = some i) : decodeAlone f.toWord = .ok i := by
  have hfields := ofWord_toWord f
  have hopc : f.toWord.extractLsb' 48 8 = f.opc := congrArg Fields.opc hfields
  have hclass : classOf f.toWord = row.cls.getD 1 := by rw [classOf, hopc, hrow]
  rw [decodeAlone, decodeWord, hfields, decodeFields, hrow, hclass]
  have hself : (row.cls != none && row.cls != some (row.cls.getD 1)) = false := by cases row.cls <;> simp
  simp only [Bool.not_true, Bool.and_false, Bool.false_eq_true, if_false, hself, decodeCell, htype, hregs, hrest, hbuild]

/-! ### The bytes of registers -/

theorem vecFault_vec {r : Reg} (h : r.isVec = true) : vecFault r.toByte 1 = none := by
  cases r with
  | v n =>
    have hn := n.isLt
    unfold vecFault
    rw [toNat_toByte_v, if_neg (by omega), if_neg (by omega), if_neg (by omega), if_neg (by omega)]
  | vz => rfl
  | p n | u n => cases h

theorem vecFault_pair {r : Reg} (h : r.isPair = true) : vecFault r.toByte 2 = none := by
  cases r with
  | v n =>
    have hn := n.isLt
    have heven : n.toNat % 2 = 0 := beq_iff_eq.mp h
    unfold vecFault
    rw [toNat_toByte_v, if_neg (by omega), if_neg (by omega), if_neg (by omega), if_neg (by omega)]
  | vz => rfl
  | p n | u n => cases h

theorem vecFault_quad {r : Reg} (h : r.isQuad = true) : vecFault r.toByte 4 = none := by
  cases r with
  | v n =>
    have hn := n.isLt
    have hquad : n.toNat % 4 = 0 := beq_iff_eq.mp h
    unfold vecFault
    rw [toNat_toByte_v, if_neg (by omega), if_neg (by omega), if_neg (by omega), if_neg (by omega)]
  | p n | u n | vz => cases h

theorem vecFault_oct {r : Reg} (h : r.isOct = true) : vecFault r.toByte 8 = none := by
  cases r with
  | v n =>
    have hn := n.isLt
    have hoct : n.toNat % 8 = 0 := beq_iff_eq.mp h
    unfold vecFault
    rw [toNat_toByte_v, if_neg (by omega), if_neg (by omega), if_neg (by omega), if_neg (by omega)]
  | p n | u n | vz => cases h

theorem vecFault_sized {wide : Bool} {r : Reg} (h : r.isSized wide = true) : vecFault r.toByte (if wide = true then 2 else 1) = none := by
  cases wide with
  | true => exact vecFault_pair h
  | false => exact vecFault_vec h

theorem unusedFault_vz : unusedFault Reg.vz.toByte = none := rfl
theorem isNone_iff (r : Reg) : r.isNone = true ↔ r = .vz := by cases r <;> simp [Reg.isNone]
theorem predFault_pred {r : Reg} (h : r.isPred = true) : predFault r.toByte = none := by
  cases r with
  | p n =>
    have hn := n.isLt
    rw [predFault, toNat_toByte_p, if_pos (by omega)]
  | v n | u n | vz => cases h

theorem usherSource_usher {r : Reg} (h : r.isUsher = true) : usherSource r.toByte = true := by
  cases r with
  | u x => cases x <;> simp_all [Reg.isUsher, usherSource, Reg.toByte, UReg.toByte]
  | v n | p n | vz => cases h

/-! ### The register fields -/

section
variable {row : CellRow} {f : Fields} {r : Reg}

@[simp] theorem fieldFault_unused : fieldFault row f .unused Reg.vz.toByte = none := rfl
@[simp] theorem fieldFault_one (h : r.isVec = true) : fieldFault row f .one r.toByte = none := vecFault_vec h
@[simp] theorem fieldFault_pair (h : r.isPair = true) : fieldFault row f .pair r.toByte = none := vecFault_pair h
@[simp] theorem fieldFault_quad (h : r.isQuad = true) : fieldFault row f .quad r.toByte = none := vecFault_quad h
@[simp] theorem fieldFault_oct (h : r.isOct = true) : fieldFault row f .oct r.toByte = none := vecFault_oct h
@[simp] theorem fieldFault_pred (h : r.isPred = true) : fieldFault row f .pred r.toByte = none := predFault_pred h
@[simp] theorem fieldFault_dst (h : r.isSized (wideTy f.ty) = true) : fieldFault row f .dst r.toByte = none := vecFault_sized h
@[simp] theorem fieldFault_landing {x : BitVec 8} (h : x.extractLsb' 0 2 = 0#2) : fieldFault row f .landing x = none := if_pos h
@[simp] theorem fieldFault_cvtSrc (h : r.isSized (wideTy (f.m.extractLsb' 4 4)) = true) : fieldFault row f .cvtSrc r.toByte = none := vecFault_sized h

@[simp] theorem fieldFault_src_sized (h : r.isSized (wideTy f.ty) = true) : fieldFault row f .src r.toByte = none := by
  simp only [fieldFault, vecFault_sized h, ite_self]

@[simp] theorem fieldFault_src (hcls : row.cls = some 1) (h : r.isSource (wideTy f.ty) = true) : fieldFault row f .src r.toByte = none := by
  rw [Reg.isSource, Bool.or_eq_true, Bool.and_eq_true] at h
  obtain hsized | ⟨hwide, husher⟩ := h
  · exact fieldFault_src_sized hsized
  · exact if_pos ⟨if_pos hwide, hcls, usherSource_usher husher⟩

@[simp] theorem fieldFault_base (h : (r.isPair || (wideTy f.ty && r.isUsher)) = true) : fieldFault row f .base r.toByte = none := by
  rw [Bool.or_eq_true, Bool.and_eq_true] at h
  obtain hpair | ⟨hwide, husher⟩ := h
  · simp only [fieldFault, vecFault_pair hpair, ite_self]
  · exact if_pos ⟨if_pos hwide, usherSource_usher husher⟩

end

@[simp] theorem isSized_true (r : Reg) : r.isSized true = r.isPair := rfl
@[simp] theorem isSized_false (r : Reg) : r.isSized false = r.isVec := rfl
@[simp] theorem wideTy_code (t : Ty) : wideTy t.code = t.is64 := by cases t <;> rfl
@[simp] theorem wideTy_nine : wideTy 9#4 = true := rfl
@[simp] theorem wideTy_narrow : wideTy 0#4 = false ∧ wideTy 2#4 = false ∧ wideTy 6#4 = false ∧ wideTy 8#4 = false ∧ wideTy 11#4 = false := by decide
theorem is64_of_narrow {t : Ty} (h : (t.isCarry || t.isHigh || t.isFloat || t.isApprox) = true) : t.is64 = false := by
  cases t <;> first | rfl | cases h
theorem hint_sub_b128 (h : Hint) (b128 : Bool) : (h.sub b128).extractLsb' 0 2 = 1#2 ↔ b128 = true := by
  cases h <;> cases b128 <;> decide
theorem subBit_b128 (b128 : Bool) : (subBit b128).extractLsb' 0 2 = 1#2 ↔ b128 = true := by cases b128 <;> decide

/-- What `wfAccess` and its retired counterparts ask of the data register: four registers of `.b64`, or the width of the type (R214). -/
def dataWf (b128 : Bool) (ty : Ty) (d : Reg) : Bool := if b128 then ty == .b64 && d.isQuad else d.isSized ty.is64

theorem fieldFault_data {b128 : Bool} {ty : Ty} {d : Reg} (h : dataWf b128 ty d = true) {sub : BitVec 4}
    (hsub : sub.extractLsb' 0 2 = 1#2 ↔ b128 = true) (row : CellRow) (p : Pre) (opc x a b c m : BitVec 8) :
    fieldFault row (p.fields opc ty.code sub x a b c m) .data d.toByte = none := by
  cases b128 with
  | true =>
    obtain ⟨-, hquad⟩ : (ty == .b64) = true ∧ d.isQuad = true := Bool.and_eq_true_iff.mp h
    exact (if_pos (hsub.mpr rfl)).trans (vecFault_quad hquad)
  | false =>
    refine (if_neg fun hs => Bool.false_ne_true (hsub.mp hs)).trans ?_
    rw [fields_ty, wideTy_code]
    exact vecFault_sized h

theorem movKind_vec {r : Reg} (h : r.isVec = true) : movKind r.toByte = .vec := by
  cases r with
  | v n =>
    have hn := n.isLt
    rw [movKind, toNat_toByte_v, if_pos (by omega)]
  | vz => rfl
  | p n | u n => cases h
theorem movKind_p (n : BitVec 4) : movKind (Reg.p n).toByte = .pred := by
  have hn := n.isLt
  rw [movKind, toNat_toByte_p, if_neg (by omega), if_pos (by omega)]
theorem movKind_u (r : UReg) : movKind (Reg.u r).toByte = .usher := by cases r <;> rfl

theorem sreg64_toNat (n : BitVec 8) : sreg64 n.toNat = sregWide n := by revert n; decide

/-- The pairs of `MOV` (R42, R123): a write of `lmask`, `lpark` or `vpc`; a read of an usher register; predicates; vector registers. -/
theorem movWf_cases {wide : Bool} {d a : Reg} {sel : BitVec 2} (h : movWf wide d a sel = true) :
    (∃ r, d = .u r ∧ r.toByte.toNat ≤ 0x92 ∧ a.isPair = true ∧ wide = true ∧ sel = 0) ∨
    (∃ r, a = .u r ∧ d.isPair = true ∧ wide = true ∧ sel ≠ 3 ∧ (sel = 0 ∨ r = .evt ∨ r = .oevt)) ∨
    (∃ m n, d = .p m ∧ a = .p n ∧ wide = false ∧ sel = 0) ∨
    (∃ m, d = .p m ∧ a.isVec = true ∧ wide = false ∧ sel = 0) ∨
    (∃ n, a = .p n ∧ d.isVec = true ∧ wide = false ∧ sel = 0) ∨
    (d.isSized wide = true ∧ a.isSized wide = true ∧ sel = 0) := by
  cases d with
  | u r =>
    refine .inl ⟨r, rfl, ?_⟩
    cases r <;> cases a <;> simp_all [movWf, Reg.isPair, UReg.toByte]
  | p m =>
    cases a with
    | u r => cases r <;> simp [movWf, Reg.isPair] at h
    | p n => simp_all [movWf]
    | v n | vz => simp_all [movWf, Reg.isVec]
  | v m | vz =>
    cases a with
    | u r => cases r <;> simp_all [movWf]
    | p n => simp_all [movWf]
    | v n | vz => simp_all [movWf]

theorem isVec_of_isSized {wide : Bool} {r : Reg} (h : r.isSized wide = true) : r.isVec = true := by
  cases r <;> cases wide <;> first | rfl | cases h

/-- `MOV`'s pairs pass the checks of its two fields (R42, R123, R355). -/
theorem mov_fields {row : CellRow} {f : Fields} {wide : Bool} {d a : Reg} {sel : BitVec 2} (h : movWf wide d a sel = true)
    (hd : f.d = d.toByte) (ha : f.a = a.toByte) (hty : wideTy f.ty = wide) :
    fieldFault row f .movD d.toByte = none ∧ fieldFault row f .movA a.toByte = none := by
  obtain ⟨r, rfl, hr, hpair, rfl, -⟩ | ⟨r, rfl, hpair, rfl, -⟩ | ⟨m, n, rfl, rfl, rfl, -⟩ | ⟨m, rfl, hvec, rfl, -⟩ | ⟨n, rfl, hvec, rfl, -⟩ |
    ⟨hsd, hsa, -⟩ := movWf_cases h
  · have hvec : a.isVec = true := isVec_of_isSized (wide := true) hpair
    have hr' : (Reg.u r).toByte.toNat ≤ 146 := hr
    simp [fieldFault, hd, ha, hty, movKind_u, movKind_vec hvec, vecFault_pair hpair, hr']
  · have hvec : d.isVec = true := isVec_of_isSized (wide := true) hpair
    simp [fieldFault, hd, ha, hty, movKind_u, movKind_vec hvec, vecFault_pair hpair]
  · simp [fieldFault, hd, ha, movKind_p]
  · simp [fieldFault, hd, ha, hty, movKind_p, movKind_vec hvec, vecFault_vec hvec]
  · simp [fieldFault, hd, ha, hty, movKind_p, movKind_vec hvec, vecFault_vec hvec]
  · simp [fieldFault, hd, ha, hty, movKind_vec (isVec_of_isSized hsd), movKind_vec (isVec_of_isSized hsa), vecFault_sized hsd, vecFault_sized hsa]

/-- Every register field takes the operand of a well-formed instruction (R95 step 6). The proofs of this section reduce `Instr.wf` by `delta`: the
equations of a match of so many cases cost too much. -/
theorem checkRegs_encode (i : Instr) (f : Fields) (row : CellRow) (hwf : i.wf = true) (henc : encodeFields i = some f)
    (hrow : cellRow f.opc.toNat = some row) :
    checkRegs row f = none := by
  rw [checkRegs_eq_none]
  cases i
  case mov p wide d a sel =>
    cases henc
    cases hrow
    simpa [regFields] using mov_fields (f := encR p 0x10 (wideCode wide) 0 d a .vz .vz (sel.setWidth 8)) hwf rfl rfl (wideTy_wideCode wide)
  case movsRead p wide d sr =>
    cases henc
    cases hrow
    delta Instr.wf at hwf
    simp only [Bool.and_eq_true, decide_eq_true_eq] at hwf
    obtain ⟨⟨hsr, -⟩, hd⟩ := hwf
    refine ⟨?_, fun _ => (congrArg BitVec.toNat (sreg_low sr)).trans_lt hsr⟩
    simp [regFields, fieldFault, unusedFault_vz, vecFault_sized hd]
  case movsWrite p wide sr a =>
    cases henc
    cases hrow
    delta Instr.wf at hwf
    simp only [Bool.and_eq_true, decide_eq_true_eq] at hwf
    obtain ⟨⟨hsr, -⟩, ha⟩ := hwf
    refine ⟨?_, fun _ => (congrArg BitVec.toNat (sreg_low sr)).trans_lt hsr⟩
    simp [regFields, fieldFault, unusedFault_vz, vecFault_sized ha]
  case tlbi p op a b =>
    cases henc
    cases hrow
    cases op <;> delta Instr.wf at hwf <;> simp only [Bool.and_eq_true, isNone_iff] at hwf <;> obtain ⟨ha, hb⟩ := hwf
    case all => simp [regFields, fieldFault, TlbiOp.sub, unusedFault_vz, ha, hb]
    case va => simp [regFields, fieldFault, TlbiOp.sub, unusedFault_vz, vecFault_pair ha, vecFault_vec hb]
    case vf => simp [regFields, fieldFault, TlbiOp.sub, unusedFault_vz, vecFault_vec ha, hb]
  case qtry p pop h b c =>
    cases henc
    cases hrow
    delta Instr.wf at hwf
    simp only [Bool.and_eq_true] at hwf
    cases pop <;> simp [regFields, memRow, subBit, fieldFault, unusedFault_vz, predFault_pred, vecFault_vec, hwf]
  case cvt p mode ftz sat td ts d a =>
    obtain rfl : encR p 0x8B td.code mode.sub d a .vz .vz (cvtMod ts ftz sat) = f := Option.some.inj henc
    cases hrow
    delta Instr.wf at hwf
    simp only [Bool.and_eq_true] at hwf
    simp [regFields, vecRow, hwf]
  case ld p hint b128 ty d a b off | st p hint b128 ty d a b off =>
    cases henc
    cases hrow
    delta Instr.wf at hwf
    simp only [wfAccess, Bool.and_eq_true] at hwf
    have hdata : dataWf b128 ty d = true := by simp only [dataWf, hwf]
    simp [regFields, accessRow, fieldFault_data hdata (hint_sub_b128 hint b128), hwf]
  case ldsp p b128 ty d a off | stsp p b128 ty d a off =>
    cases henc
    cases hrow
    delta Instr.wf at hwf
    simp only [Bool.and_eq_true] at hwf
    have hdata : dataWf b128 ty d = true := by simp only [dataWf, hwf]
    simp [regFields, fieldFault_data hdata (subBit_b128 b128), hwf]
  all_goals cases henc
  all_goals cases hrow
  all_goals
    delta Instr.wf at hwf
    simp only [wf3, wf2, wfShift, wfFloat, wfMma, Bool.and_eq_true, if_true, Bool.false_eq_true, if_false, isNone_iff] at hwf
    simp [regFields, vecRow, vecImm, ctlRow, jRow, trapRow, memRow, accessRow, levelRow, mmaRow, accRow, engRow, sysRow, is64_of_narrow, hwf]

/-! ### The type codes of R85 -/

theorem mem_tyAll (t : Ty) : tyAll.contains t.code = t.isAll := by cases t <;> rfl
theorem mem_tyInt (t : Ty) : tyInt.contains t.code = t.isInt := by cases t <;> rfl
theorem mem_tyFlt (t : Ty) : tyFlt.contains t.code = t.isFloat := by cases t <;> rfl
theorem mem_tyCvt (t : Ty) : tyCvt.contains t.code = t.isNum := by cases t <;> rfl
theorem mem_carry (t : Ty) : ([6, 8] : List (BitVec 4)).contains t.code = t.isCarry := by cases t <;> rfl
theorem mem_high (t : Ty) : ([2, 6] : List (BitVec 4)).contains t.code = t.isHigh := by cases t <;> rfl
theorem mem_signed (t : Ty) : ([0, 1, 2, 3] : List (BitVec 4)).contains t.code = t.isSigned := by cases t <;> rfl
theorem mem_field (t : Ty) : ([2, 3, 6, 7] : List (BitVec 4)).contains t.code = t.isField := by cases t <;> rfl
theorem mem_approx (t : Ty) : ([10, 11] : List (BitVec 4)).contains t.code = t.isApprox := by cases t <;> rfl
theorem mem_accOut (t : Ty) : ([2, 10, 11, 12, 13] : List (BitVec 4)).contains t.code = t.isAccOut := by cases t <;> rfl
theorem wideCode_mem (x : Bool) : tyBit.contains (wideCode x) = true := by cases x <;> rfl
theorem signedCode_mem (x : Bool) : ([2, 3] : List (BitVec 4)).contains (signedCode x) = true := by cases x <;> rfl
/-- The types of a reduction pass the checks of the three cells that hold one (R158, R221). -/
theorem red_type {op : RedOp} {t : Ty} (h : op.takes t = true) :
    tyRed.contains t.code = true ∧ typeOfSub 0x74 op.sub t.code = true ∧ typeOfSub 0xA5 op.sub t.code = true ∧
    typeOfSub 0xA7 op.sub t.code = true := by
  revert h
  cases op <;> cases t <;> decide
theorem atom_type {op : AtomOp} {t : Ty} (h : op.takes t = true) : tyRed.contains t.code = true ∧ typeOfSub 0xA5 op.sub t.code = true := by
  cases op with
  | red op =>
    obtain ⟨hred, -, hatom, -⟩ := red_type h
    exact ⟨hred, hatom⟩
  | exch =>
    revert h
    cases t <;> decide
/-- A level at lane or pod is 64 bits wide, any other 32 (R229, R230). -/
theorem level_type (lvl : Level) : let ty := wideCode (lvl == .lane || lvl == .pod)
    typeOfSub 0xA8 lvl.sub ty = true ∧ typeOfSub 0xA9 lvl.sub ty = true := by
  cases lvl <;> decide

/-- Outside `MOV`, `MOVS`, `SRWR` and `CVT`, a type that the row and `SUB` take passes step 5. -/
theorem checkType_ofSub {row : CellRow} {f : Fields} (hopc : f.opc.toNat ∉ [0x10, 0x11, 0x16, 0x8B]) (hrow : row.types.contains f.ty = true)
    (hsub : typeOfSub f.opc.toNat f.sub f.ty = true) : checkType row f = none := by
  simp only [List.mem_cons, List.not_mem_nil, or_false, not_or] at hopc
  obtain ⟨hmov, hmovs, hsrwr, hcvt⟩ := hopc
  exact (checkType_eq_none row f).mpr ⟨hrow, fun _ => hsub, fun h => absurd h hcvt,
    fun h => absurd h (not_or.mpr ⟨hmovs, hsrwr⟩), fun h => absurd h hmov⟩

/-- `MOV` of an usher register is `.b64`, of a predicate `.b32` (R123). -/
theorem mov_types {wide : Bool} {d a : Reg} {sel : BitVec 2} (h : movWf wide d a sel = true) :
    (movKind d.toByte = .usher ∨ movKind a.toByte = .usher → wide = true) ∧
    (movKind d.toByte = .pred ∨ movKind a.toByte = .pred → wideCode wide = 8#4) := by
  obtain ⟨r, rfl, -, hpair, rfl, -⟩ | ⟨r, rfl, hpair, rfl, -⟩ | ⟨m, n, rfl, rfl, rfl, -⟩ | ⟨m, rfl, hvec, rfl, -⟩ | ⟨n, rfl, hvec, rfl, -⟩ |
    ⟨hsd, hsa, -⟩ := movWf_cases h
  · simp [movKind_u, movKind_vec (isVec_of_isSized (wide := true) hpair)]
  · simp [movKind_u, movKind_vec (isVec_of_isSized (wide := true) hpair)]
  · simp [movKind_p, wideCode]
  · simp [movKind_p, movKind_vec hvec, wideCode]
  · simp [movKind_p, movKind_vec hvec, wideCode]
  · simp [movKind_vec (isVec_of_isSized hsd), movKind_vec (isVec_of_isSized hsa)]

/-- `MOVS` and `SRWR` name a special register of their width, or one that is reserved (R58, R360). -/
theorem checkType_sreg {row : CellRow} {p : Pre} {opc : BitVec 8} {wide : Bool} {sub : BitVec 4} {d a : Reg} {sr : BitVec 8}
    (htypes : row.types = tyBit)
    (hopc : opc = 0x11 ∨ opc = 0x16) (hw : sr.toNat < 0x16 → wide = sregWide sr) :
    checkType row (encI p opc (wideCode wide) sub d a (sr.setWidth 24)) = none := by
  rw [checkType_eq_none, htypes]
  refine ⟨wideCode_mem wide, fun _ => ?_, fun h => ?_, fun _ hnum => ?_, fun h => ?_⟩
  · obtain rfl | rfl := hopc <;> rfl
  · obtain rfl | rfl := hopc <;> simp at h
  · simp only [encI_eq, fields_m, fields_ty, sreg_low, sreg64_toNat] at hnum ⊢
    rw [hw hnum]
  · obtain rfl | rfl := hopc <;> simp at h

theorem checkType_encode (i : Instr) (f : Fields) (row : CellRow) (hwf : i.wf = true) (henc : encodeFields i = some f)
    (hrow : cellRow f.opc.toNat = some row) :
    checkType row f = none := by
  cases i
  case mov p wide d a sel =>
    cases henc
    cases hrow
    obtain ⟨husher, hpred⟩ := mov_types hwf
    rw [checkType_eq_none]
    refine ⟨wideCode_mem wide, fun _ => rfl, fun h => absurd h (by simp), fun h => absurd h (by simp), fun _ => ?_⟩
    simpa using ⟨husher, hpred⟩
  case movsRead p wide d sr | movsWrite p wide sr a =>
    cases henc
    cases hrow
    delta Instr.wf at hwf
    simp only [Bool.and_eq_true, beq_iff_eq] at hwf
    exact checkType_sreg rfl (.inl rfl) fun _ => hwf.1.2
  case srwr p wide sr a =>
    cases henc
    cases hrow
    delta Instr.wf at hwf
    simp only [Bool.and_eq_true, Bool.or_eq_true, decide_eq_true_eq, beq_iff_eq] at hwf
    obtain ⟨⟨-, hsr⟩, -⟩ := hwf
    exact checkType_sreg rfl (.inr rfl) fun hnum => hsr.resolve_left (by omega)
  case tlbi p op a b =>
    cases henc
    cases hrow
    cases op <;> exact checkType_ofSub (by simp) rfl rfl
  case gred p op ty d a =>
    cases henc
    cases hrow
    delta Instr.wf at hwf
    simp only [Bool.and_eq_true] at hwf
    obtain ⟨hrow, hsub, -⟩ := red_type hwf.1
    exact checkType_ofSub (by simp) hrow hsub
  case red p op ty a b =>
    cases henc
    cases hrow
    delta Instr.wf at hwf
    simp only [Bool.and_eq_true] at hwf
    obtain ⟨hrow, -, -, hsub⟩ := red_type hwf.1.1
    exact checkType_ofSub (by simp) hrow hsub
  case atom p op ty d a b =>
    cases henc
    cases hrow
    delta Instr.wf at hwf
    simp only [Bool.and_eq_true] at hwf
    obtain ⟨hrow, hsub⟩ := atom_type hwf.1.1.1
    exact checkType_ofSub (by simp) hrow hsub
  case sync p lvl a =>
    cases henc
    cases hrow
    exact checkType_ofSub (by simp) (wideCode_mem _) (level_type lvl).1
  case drain p lvl a =>
    cases henc
    cases hrow
    exact checkType_ofSub (by simp) (wideCode_mem _) (level_type lvl).2
  case cvt p mode ftz sat td ts d a =>
    obtain rfl : encR p 0x8B td.code mode.sub d a .vz .vz (cvtMod ts ftz sat) = f := Option.some.inj henc
    cases hrow
    delta Instr.wf at hwf
    simp only [Bool.and_eq_true] at hwf
    rw [checkType_eq_none]
    simp only [vecRow, encR_eq, fields_opc, fields_ty, fields_sub, fields_m, cvtMod_type, mem_tyCvt, hwf]
    simp [typeOfSub]
  all_goals cases henc
  all_goals cases hrow
  all_goals
    delta Instr.wf at hwf
    simp only [wfFloat, wfAccess, Bool.and_eq_true] at hwf
    refine checkType_ofSub (by simp) ?_ rfl
    simp only [vecRow, vecImm, ctlRow, jRow, trapRow, memRow, accessRow, mmaRow, accRow, engRow, sysRow, encR_eq, encI_eq, encM_eq, encJ_eq,
      encX_eq, fields_ty, mem_tyAll, mem_tyInt, mem_tyFlt, mem_carry, mem_high, mem_signed, mem_field, mem_approx, mem_accOut, wideCode_mem,
      signedCode_mem, hwf] <;> rfl

/-! ### `SUB`, `MOD` and the guard -/

@[simp] theorem subBit_listed (x : Bool) : subBit x = 0#4 ∨ subBit x = 1#4 := by cases x <;> decide
@[simp] theorem icond_listed (x : ICond) : x.sub = 0#4 ∨ x.sub = 1#4 ∨ x.sub = 2#4 ∨ x.sub = 3#4 ∨ x.sub = 4#4 ∨ x.sub = 5#4 := by cases x <;> decide
@[simp] theorem fcond_listed (x : FCond) :
    x.sub = 0#4 ∨ x.sub = 1#4 ∨ x.sub = 2#4 ∨ x.sub = 3#4 ∨ x.sub = 4#4 ∨ x.sub = 5#4 ∨ x.sub = 6#4 ∨ x.sub = 7#4 := by cases x <;> decide
@[simp] theorem rmode_listed (x : RMode) : x.sub = 0#4 ∨ x.sub = 1#4 ∨ x.sub = 2#4 ∨ x.sub = 3#4 := by cases x <;> decide
@[simp] theorem xchlOp_listed (x : XchlOp) : x.sub = 0#4 ∨ x.sub = 1#4 ∨ x.sub = 2#4 ∨ x.sub = 3#4 := by cases x <;> decide
@[simp] theorem voteOp_listed (x : VoteOp) : x.sub = 0#4 ∨ x.sub = 1#4 ∨ x.sub = 2#4 := by cases x <;> decide
@[simp] theorem cacheOp_listed (x : CacheOp) : x.sub = 0#4 ∨ x.sub = 1#4 ∨ x.sub = 2#4 := by cases x <;> decide
@[simp] theorem tlbiOp_listed (x : TlbiOp) : x.sub = 0#4 ∨ x.sub = 1#4 ∨ x.sub = 2#4 := by cases x <;> decide
@[simp] theorem redOp_listed (x : RedOp) : x.sub = 0#4 ∨ x.sub = 1#4 ∨ x.sub = 2#4 ∨ x.sub = 3#4 ∨ x.sub = 4#4 ∨ x.sub = 5#4 := by cases x <;> decide
@[simp] theorem atomOp_listed (x : AtomOp) : x.sub = 0#4 ∨ x.sub = 1#4 ∨ x.sub = 2#4 ∨ x.sub = 3#4 ∨ x.sub = 4#4 ∨ x.sub = 5#4 ∨ x.sub = 6#4 := by
  cases x with
  | red op => cases op <;> decide
  | exch => decide
@[simp] theorem level_listed (x : Level) : x.sub = 0#4 ∨ x.sub = 1#4 ∨ x.sub = 2#4 ∨ x.sub = 3#4 ∨ x.sub = 4#4 ∨ x.sub = 5#4 := by cases x <;> decide
/-- The hints of a load, and of a store, which has no `ro` (R92). -/
@[simp] theorem hint_listed (h : Hint) (b128 : Bool) :
    h.sub b128 = 0#4 ∨ h.sub b128 = 1#4 ∨ h.sub b128 = 4#4 ∨ h.sub b128 = 5#4 ∨ h.sub b128 = 8#4 ∨ h.sub b128 = 9#4 ∨ h.sub b128 = 12#4 ∨
      h.sub b128 = 13#4 := by cases h <;> cases b128 <;> decide
@[simp] theorem storeHint_listed {h : Hint} (hro : h ≠ .ro) (b128 : Bool) :
    h.sub b128 = 0#4 ∨ h.sub b128 = 1#4 ∨ h.sub b128 = 8#4 ∨ h.sub b128 = 9#4 ∨ h.sub b128 = 12#4 ∨ h.sub b128 = 13#4 := by
  cases h
  case ro => exact absurd rfl hro
  all_goals cases b128 <;> decide
@[simp] theorem rowHint_listed (h : Hint) : h.sub false = 0#4 ∨ h.sub false = 4#4 ∨ h.sub false = 8#4 ∨ h.sub false = 12#4 := by cases h <;> decide
@[simp] theorem rowStoreHint_listed {h : Hint} (hro : h ≠ .ro) : h.sub false = 0#4 ∨ h.sub false = 8#4 ∨ h.sub false = 12#4 := by
  cases h
  case ro => exact absurd rfl hro
  all_goals decide

@[simp] theorem modBit_masked (x : Bool) : modBit x 0 &&& 254#8 = 0#8 ∧ modBit x 1 &&& 253#8 = 0#8 := by cases x <;> decide
@[simp] theorem modBits_masked (x y : Bool) : (modBit x 0 ||| modBit y 1) &&& 252#8 = 0#8 := by cases x <;> cases y <;> decide
@[simp] theorem cvtMod_masked (ts : Ty) (ftz sat : Bool) : cvtMod ts ftz sat &&& 12#8 = 0#8 := by cases ts <;> cases ftz <;> cases sat <;> decide
theorem sel_masked (sel : BitVec 2) : sel.setWidth 8 &&& 252#8 = 0#8 := by revert sel; decide

theorem data_type {b128 : Bool} {ty : Ty} {d : Reg} (h : dataWf b128 ty d = true) {sub : BitVec 4} (hsub : sub.extractLsb' 0 2 = 1#2 ↔ b128 = true) :
    sub.extractLsb' 0 2 = 1#2 → ty.code = 9#4 := by
  intro hs
  obtain rfl := hsub.mp hs
  obtain ⟨hty, -⟩ : (ty == .b64) = true ∧ d.isQuad = true := Bool.and_eq_true_iff.mp h
  rw [beq_iff_eq.mp hty]
  rfl
theorem packed_type {pk : Bool} {ty : Ty} (h : wfFloat pk ty = true) : subBit pk = 1#4 → ty.code = 10#4 := by
  revert h
  cases pk <;> cases ty <;> decide

/-- `MOV`'s field of an event is there only for a read of `evt` or `oevt` (R42). -/
theorem mov_mod {wide : Bool} {d a : Reg} {sel : BitVec 2} (h : movWf wide d a sel = true) {row : CellRow} {f : Fields} (hopc : f.opc = 0x10)
    (hd : f.d = d.toByte) (ha : f.a = a.toByte) : sel.setWidth 8 &&& ~~~modMask row f = 0#8 ∧ sel ≠ 3#2 := by
  by_cases hsel : sel = 0
  · subst hsel
    exact ⟨by simp, by decide⟩
  · obtain ⟨r, -, -, -, -, h0⟩ | ⟨r, rfl, hpair, -, h3, hevt⟩ | ⟨m, n, -, -, -, h0⟩ | ⟨m, -, -, -, h0⟩ | ⟨n, -, -, -, h0⟩ |
    ⟨-, -, h0⟩ := movWf_cases h
    case neg.inr.inl =>
      refine ⟨?_, h3⟩
      have hvec : d.isVec = true := isVec_of_isSized (wide := true) hpair
      have hmask : modMask row f = 3 := by
        have hevt : f.a.toNat = 0x93 ∨ f.a.toNat = 0x98 := by
          rw [ha]
          obtain rfl | rfl := hevt.resolve_left hsel
          · exact .inl rfl
          · exact .inr rfl
        rw [modMask, hopc, hd, movKind_vec hvec]
        exact (if_pos rfl).trans (if_pos ⟨rfl, hevt⟩)
      rw [hmask]
      exact sel_masked sel
    all_goals exact absurd h0 hsel

theorem checkRest_encode (i : Instr) (f : Fields) (row : CellRow) (hwf : i.wf = true) (henc : encodeFields i = some f)
    (hrow : cellRow f.opc.toNat = some row) :
    checkRest row f = none := by
  rw [checkRest_eq_none]
  cases i
  case mov p wide d a sel =>
    cases henc
    cases hrow
    obtain ⟨hmask, h3⟩ := mov_mod hwf (row := ⟨none, false, false, .R, tyBit, [0], 3, .movD, .movA, .unused, .unused⟩)
      (f := encR p 0x10 (wideCode wide) 0 d a .vz .vz (sel.setWidth 8)) rfl rfl rfl
    refine ⟨rfl, fun h => ?_, fun h => ?_, fun _ => ⟨hmask, fun _ => ?_⟩, fun h => ?_, fun h => ?_⟩
    · simp at h
    · simp at h
    · simpa using h3
    · simp at h
    · simp at h
  case cvt p mode ftz sat td ts d a =>
    obtain rfl : encR p 0x8B td.code mode.sub d a .vz .vz (cvtMod ts ftz sat) = f := Option.some.inj henc
    cases hrow
    simp [vecRow, modMask]
  case ld p hint b128 ty d a b off | st p hint b128 ty d a b off =>
    cases henc
    cases hrow
    delta Instr.wf at hwf
    simp only [wfAccess, Bool.and_eq_true, bne_iff_ne] at hwf
    have hdata : dataWf b128 ty d = true := by simp only [dataWf, hwf]
    simpa [accessRow, hwf] using data_type hdata (hint_sub_b128 hint b128)
  case ldsp p b128 ty d a off | stsp p b128 ty d a off =>
    cases henc
    cases hrow
    delta Instr.wf at hwf
    simp only [Bool.and_eq_true] at hwf
    have hdata : dataWf b128 ty d = true := by simp only [dataWf, hwf]
    simpa using data_type hdata (subBit_b128 b128)
  case fadd p pk ftz ty d a b | fsub p pk ftz ty d a b | fmul p pk ftz ty d a b | fmin p pk ftz ty d a b | fmax p pk ftz ty d a b =>
    cases henc
    cases hrow
    delta Instr.wf at hwf
    simp only [Bool.and_eq_true] at hwf
    have hfloat : wfFloat pk ty = true := by simp only [hwf]
    simpa [vecRow, modMask] using packed_type hfloat
  case ffma p pk ftz ty d a b c =>
    cases henc
    cases hrow
    delta Instr.wf at hwf
    simp only [Bool.and_eq_true] at hwf
    have hfloat : wfFloat pk ty = true := by simp only [hwf]
    simpa [vecRow, modMask] using packed_type hfloat
  case fabs p pk ftz ty d a | fneg p pk ftz ty d a =>
    cases henc
    cases hrow
    delta Instr.wf at hwf
    simp only [Bool.and_eq_true] at hwf
    have hfloat : wfFloat pk ty = true := by simp only [hwf]
    simpa [vecRow, modMask] using packed_type hfloat
  all_goals cases henc
  all_goals cases hrow
  all_goals
    delta Instr.wf at hwf
    simp only [Pre.unguarded, Bool.and_eq_true, beq_iff_eq, bne_iff_ne, Bool.not_eq_true'] at hwf
    simp [vecRow, vecImm, ctlRow, jRow, trapRow, memRow, accessRow, levelRow, mmaRow, accRow, engRow, sysRow, modMask, hwf]

theorem cellRow_encode (i : Instr) (f : Fields) (henc : encodeFields i = some f) : ∃ row, cellRow f.opc.toNat = some row := by
  cases i
  all_goals cases henc
  all_goals exact ⟨_, rfl⟩

/-- Settles O1: each step of the decoder takes the fields of a well-formed instruction, one lemma for each step, and what it builds from them is the
instruction. -/
theorem encodeDecode : Obligations.EncodeDecode := by
  unfold Obligations.EncodeDecode
  intro i w hwf hw
  obtain ⟨f, henc, rfl⟩ := Option.map_eq_some_iff.mp hw
  obtain ⟨row, hrow⟩ : ∃ row, cellRow f.opc.toNat = some row := cellRow_encode i f henc
  exact decodeAlone_toWord hrow (checkType_encode i f row hwf henc hrow) (checkRegs_encode i f row hwf henc hrow)
    (checkRest_encode i f row hwf henc hrow) (build_encode i f henc)

/-- Settles O2: each word is the encoding of the instruction beside it, which decodes to it (`encodeDecode`). -/
theorem decodedWords : Obligations.DecodedWords := by
  unfold Obligations.DecodedWords
  exact ⟨encodeDecode _ _ rfl (by decide), encodeDecode _ _ rfl (by decide), encodeDecode _ _ rfl (by decide), encodeDecode _ _ rfl (by decide),
    encodeDecode _ _ rfl (by decide)⟩

end Sys2Proof
end

section
/-! SUPPORT. The slot that runs again, the candidate that a port serves, the issue of a clause and the switch marker. -/

namespace Sys2Proof.Machine

/-! ### Held slots (R67, R205) -/

section
variable (s : State) (w : Nat)

@[simp] theorem retry_cur : (s.retry w).cur = w := rfl
@[simp] theorem retry_mem : (s.retry w).mem = s.mem := rfl
theorem retry_warp : (s.retry w).warp w = { s.warp w with clause := (s.warp w).clause.map fun c => { c with held := none } } :=
  warp_onWarp_same s w fun wp => { wp with clause := wp.clause.map fun c => { c with held := none } }

theorem retry_done (c : Clause) (hc : (s.warp w).clause = some c) : (s.retry w).cur = w ∧
    ((s.retry w).warp w).clause = some { c with held := none } ∧ ((s.retry w).warp w).regs = (s.warp w).regs ∧ (s.retry w).mem = s.mem := by
  rw [retry_warp, hc]
  exact ⟨rfl, rfl, rfl, rfl⟩

theorem execIrrevocableAct_held (c : Clause) (hc : (s.warp w).clause = some c) (hheld : c.held = some .irrevocable) (hrun : c.parked = false) :
    execIrrevocableAct w s = .next (if (s.warp w).mayAct then s.retry w else s) := by
  simp [execIrrevocableAct, hc, hheld, hrun]

theorem execHeldSlotAct_held (c : Clause) (h : HeldBy) (hc : (s.warp w).clause = some c) (hheld : c.held = some h) (hrun : c.parked = false)
    (hne : h ≠ .irrevocable) : execHeldSlotAct w s = .next (s.retry w) := by
  simp [execHeldSlotAct, hc, hheld, hrun, hne]

end

theorem completes_irrevocableAct {s t : State} {w : Nat} {P : State → Prop} (h : execIrrevocableAct w s = .next t) (hP : P t) :
    Completes (.irrevocableAct w) s P := ⟨t, h, hP⟩
theorem completes_heldSlotAct {s t : State} {w : Nat} {P : State → Prop} (h : execHeldSlotAct w s = .next t) (hP : P t) :
    Completes (.heldSlotAct w) s P := ⟨t, h, hP⟩
theorem completes_portIssueChoice {s t : State} {core port : Nat} {P : State → Prop} (h : execPortIssueChoice core port s = .next t) (hP : P t) :
    Completes (.portIssueChoice core port) s P := ⟨t, h, hP⟩
theorem completes_clauseIssue {s t : State} {w : Nat} {P : State → Prop} (h : execClauseIssue w s = .next t) (hP : P t) :
    Completes (.clauseIssue w) s P := ⟨t, h, hP⟩
theorem completes_switchResume {s t : State} {w : Nat} {P : State → Prop} (h : execSwitchResume w s = .next t) (hP : P t) :
    Completes (.switchResume w) s P := ⟨t, h, hP⟩

/-! ### The choice of a port (R67, R267 to R269) -/

section
variable (s : State) (core port : Nat)

theorem foldl_onWarp_keeps (f : State → Nat → Warp → Warp) (l : List Nat) :
    (l.foldl (fun t w => t.onWarp w (f t w)) s).mem = s.mem ∧ (l.foldl (fun t w => t.onWarp w (f t w)) s).cores = s.cores := by
  induction l generalizing s with
  | nil => exact ⟨rfl, rfl⟩
  | cons w l ih => exact ih (s.onWarp w (f s w))

theorem refresh_mem : (s.refresh core port).mem = s.mem := (foldl_onWarp_keeps s _ _).1
theorem refresh_core (k : Nat) : (s.refresh core port).core k = s.core k := by
  rw [State.core, State.refresh, (foldl_onWarp_keeps s _ _).2, State.core]

/-- What a port ranks its candidates by: effective class, age, and the distance from the rotation pointer (R268). -/
def State.portKey (c : Nat × Bool) : Nat × Nat × Nat :=
  ((s.rankOf c).1, (s.rankOf c).2, 8 - (slotOf c.1 % 8 + 8 - (s.core core).rr.getD port 0) % 8)

/-- Of two candidates the one whose key comes later; the earlier candidate when the keys are equal. -/
def laterKey {α : Type} (key : α → Nat × Nat × Nat) (b : Option α) (c : α) : Option α :=
  match b with
  | none => some c
  | some v =>
    if (key v).1 < (key c).1 ∨
      ((key v).1 = (key c).1 ∧ ((key v).2.1 < (key c).2.1 ∨ ((key v).2.1 = (key c).2.1 ∧ (key v).2.2 < (key c).2.2))) then some c else some v

theorem firstReady_eq : s.firstReady core port = (s.portCands core port).foldl (laterKey (s.portKey core port)) none := by
  refine congrArg (fun f => (s.portCands core port).foldl f none) (funext fun b => funext fun c => ?_)
  cases b <;> rfl

theorem laterKey_some {α : Type} (key : α → Nat × Nat × Nat) (u c : α) :
    ∃ v, laterKey key (some u) c = some v ∧ (v = u ∨ v = c) ∧ (key u).1 ≤ (key v).1 ∧ (key c).1 ≤ (key v).1 := by
  unfold laterKey
  dsimp only
  split
  case isTrue h => exact ⟨c, rfl, .inr rfl, by omega, le_rfl⟩
  case isFalse h => exact ⟨u, rfl, .inl rfl, le_rfl, by omega⟩

theorem foldl_laterKey_some {α : Type} (key : α → Nat × Nat × Nat) (l : List α) (u v : α) (h : l.foldl (laterKey key) (some u) = some v) :
    (v = u ∨ v ∈ l) ∧ (key u).1 ≤ (key v).1 ∧ ∀ x ∈ l, (key x).1 ≤ (key v).1 := by
  induction l generalizing u with
  | nil =>
    obtain rfl : u = v := Option.some.inj h
    exact ⟨.inl rfl, le_rfl, fun _ hx => absurd hx List.not_mem_nil⟩
  | cons c l ih =>
    obtain ⟨y, hy, hmem, hu, hc⟩ := laterKey_some key u c
    rw [List.foldl_cons, hy] at h
    obtain ⟨hv, hyv, hl⟩ := ih y h
    refine ⟨?_, hu.trans hyv, List.forall_mem_cons.mpr ⟨hc.trans hyv, hl⟩⟩
    obtain rfl | hv := hv
    · obtain hu | rfl := hmem
      · exact .inl hu
      · exact .inr List.mem_cons_self
    · exact .inr (List.mem_cons_of_mem _ hv)

/-- The candidate that a port serves is one of the highest effective class. -/
theorem firstReady_highest (v : Nat × Bool) (h : s.firstReady core port = some v) :
    v ∈ s.portCands core port ∧ ∀ x ∈ s.portCands core port, (s.rankOf x).1 ≤ (s.rankOf v).1 := by
  rw [firstReady_eq] at h
  cases hl : s.portCands core port with
  | nil => simp [hl] at h
  | cons c l =>
    rw [hl] at h
    obtain ⟨hv, hc, hx⟩ := foldl_laterKey_some (s.portKey core port) l c v h
    exact ⟨List.mem_cons.mpr hv, List.forall_mem_cons.mpr ⟨hc, hx⟩⟩

/-- The effective class of a warp's next clause (R268). -/
theorem rankOf_class (v : Nat × Bool) :
    (if v.2 = true then (s.rankOf v).1 else min 3 (s.baseClass v.1 + (s.now - (s.warp v.1).readyAt.getD s.now) / 512)) = (s.rankOf v).1 := by
  obtain ⟨w, poll⟩ := v
  cases poll with
  | true => rfl
  | false => rfl

theorem getD_setAt {α : Type} (l : List α) (n : Nat) (x d : α) (h : n < l.length) : (setAt l n x).getD n d = x := by
  simp [setAt, h]

/-- A port that no clause keeps busy notes the candidate that it serves, and none when there is none. -/
theorem execPortIssueChoice_free (hfree : s.portBusy core port = false) (hport : port < (s.core core).chosen.length) :
    ∃ t, execPortIssueChoice core port s = .next t ∧ t.mem = s.mem ∧
      (t.core core).chosen.getD port none = (s.refresh core port).firstReady core port := by
  rw [← refresh_core s core port core] at hport
  simp only [execPortIssueChoice, hfree, Bool.false_eq_true, if_false]
  cases hfirst : (s.refresh core port).firstReady core port with
  | none => exact ⟨_, rfl, refresh_mem s core port, by rw [core_onCore_same]; exact getD_setAt _ _ _ _ hport⟩
  | some v => exact ⟨_, rfl, refresh_mem s core port, by rw [core_onCore_same]; exact getD_setAt _ _ _ _ hport⟩

end

/-! ### The issue of a clause (R24, R66, R69) -/

section
variable (s : State) (w : Nat)

theorem execClauseIssue_idle (h : (s.core (coreOf w)).chosen.getD (portOf w) none ≠ some (w, false) ∨ s.portBusy (coreOf w) (portOf w) = true) :
    execClauseIssue w s = .next s := by
  rw [execClauseIssue, if_pos h]

theorem execClauseIssue_chosen (hport : (s.core (coreOf w)).chosen.getD (portOf w) none = some (w, false))
    (hfree : s.portBusy (coreOf w) (portOf w) = false) : execClauseIssue w s = .next
      (((((s.dropChoice w).dropYields w).wouldIssue w).map fun x => ((s.dropChoice w).dropYields w).issueSet w x.1 x.2).getD (s.dropChoice w)) := by
  rw [execClauseIssue, if_neg (not_or.mpr ⟨not_not.mpr hport, by simp [hfree]⟩)]
  dsimp only
  cases ((s.dropChoice w).dropYields w).wouldIssue w <;> rfl

theorem takeDeferred_of_no_queue (a : ClauseAt) (h : ∀ g ∈ (s.warp w).segs, g.queue = []) : s.takeDeferred w a = s := by
  unfold State.takeDeferred
  have hin : ∀ g ∈ (s.warp w).segsIn a.lanes, g.queue = [] := fun g hg => h g (List.mem_filter.mp hg).1
  generalize (s.warp w).segsIn a.lanes = l at hin
  induction l with
  | nil => rfl
  | cons g l ih =>
    rw [List.foldl_cons]
    simp only [hin g List.mem_cons_self, List.find?_nil]
    exact ih fun x hx => hin x (List.mem_cons_of_mem _ hx)

theorem stoppedIn_eq_zero (wp : Warp) (m : Mask) (h : ∀ g ∈ wp.segs, g.cause = none ∧ g.queue = []) : wp.stoppedIn m = 0 := by
  refine foldl_or_zero _ _ fun g hg => ?_
  obtain ⟨hcause, hqueue⟩ := h g hg
  simp [Seg.stopped, hcause, hqueue]

/-- A set at its header of no `sys` clause, none of whose segments has a cause, issues the clause from slot 0. -/
theorem issueSet_clause (v : State) (m : Mask) (hdr : DWord) (h : Header) (ws : List DWord) (hcls : h.cls ≠ 5) (hm : m ≠ 0)
    (hsegs : ∀ g ∈ (v.warp w).segs, g.cause = none ∧ g.queue = []) : s.issueSet w ⟨m, hdr, none⟩ (some (.clause h ws v)) =
      { v.onWarp w fun wp => wp.beginClause ⟨hdr, h.cls, h.cnt.toNat, ws, m, 0, [], []⟩ with cur := w } := by
  have hdeferred := takeDeferred_of_no_queue v w ⟨hdr, h.cls, h.cnt.toNat, ws, m, 0, [], []⟩ fun g hg => (hsegs g hg).2
  have hstopped : ∀ k, (v.warp w).stoppedIn k = 0 := fun k => stoppedIn_eq_zero _ k hsegs
  have hpriv : ∀ a d, a.cls = h.cls → (v.warp w).privRaises a d = [] := fun a d ha => if_pos (ha.trans_ne hcls)
  have hall : ∀ k : Mask, k &&& ~~~0 = k := fun k => (congrArg (k &&& ·) BitVec.not_zero).trans BitVec.and_allOnes
  simp only [State.issueSet, if_true, hdeferred, hstopped, hpriv, hall, if_neg hm]

section
variable (wp : Warp) (a : ClauseAt)

@[simp] theorem beginClause_regs : (wp.beginClause a).regs = wp.regs := by
  unfold Warp.beginClause
  split <;> rfl
@[simp] theorem beginClause_clauseAt : (wp.beginClause a).clauseAt = a := rfl
theorem beginClause_pc (l : Nat) (hl : l < 64) :
    (wp.beginClause a).pc l = if a.lanes.getLsbD l = true then a.hdr + BitVec.ofNat 64 (8 * (a.cnt + 2)) else wp.pc l := by
  unfold Warp.beginClause
  split <;> exact allLanes_map_getD (fun l => if a.lanes.getLsbD l = true then a.hdr + BitVec.ofNat 64 (8 * (a.cnt + 2)) else wp.pc l) 0 l hl

end

end

/-! ### The switch marker (R76) -/

section
variable (s : State) (w : Nat) (c : Clause) (hc : (s.warp w).clause = some c)
include hc

theorem execSwitchResume_waits
    (hcount : (s.warp w).ldCnt ≠ 0 ∨ (s.warp w).stCnt ≠ 0 ∨ (s.warp w).enCnt ≠ 0 ∨ (s.warp w).quCnt ≠ 0) :
    execSwitchResume w s = .next s := by
  simp only [execSwitchResume, hc]
  rw [if_pos]
  simp only [Bool.or_eq_true, bne_iff_ne]
  tauto

theorem execSwitchResume_goes (hparked : c.parked = true)
    (hland : (List.range 8).any (fun n => s.landingPends w n) = false) (hld : (s.warp w).ldCnt = 0)
    (hst : (s.warp w).stCnt = 0) (hen : (s.warp w).enCnt = 0) (hqu : (s.warp w).quCnt = 0) (hslot : c.at_.slot ≤ c.at_.cnt) : execSwitchResume w s =
    .next { s.onWarp w fun wp => { wp with clause := some { c with parked := false } } with cur := w } := by
  simp only [execSwitchResume, hc, hparked, hld, hst, hen, hqu, hland, bne_self_eq_false, Bool.not_true, Bool.or_false,
    Bool.false_eq_true, if_false, if_neg (Nat.not_lt.mpr hslot)]

end

theorem apart_onWarp_cur (s : State) (w : Nat) (f : Warp → Warp) :
    ({ s.onWarp w f with cur := w } : State).apart w = ({ s with cur := w } : State).apart w := by
  simp only [State.apart, State.onWarp, State.setWarp, tab_del_put]

theorem warp_onWarp_cur (s : State) (w : Nat) (f : Warp → Warp) : ({ s.onWarp w f with cur := w } : State).warp w = f (s.warp w) :=
  warp_onWarp_same s w f

/-- Settles O41, by a lemma for each of the five instructions that says where it goes under the statement's premises. -/
theorem heldSlots : Obligations.HeldSlots := by
  unfold Obligations.HeldSlots
  refine ⟨fun s w c h hc hheld hrun => ⟨?irrevocable, ?waits, ?held⟩, 
    fun s w core port => ⟨?busy, ?serves, ?unchosen, ?late, ?issues, ?switch⟩⟩
  case irrevocable =>
    rintro rfl hact
    exact completes_irrevocableAct (by rw [execIrrevocableAct_held s w c hc hheld hrun, if_pos hact]) (retry_done s w c hc)
  case waits =>
    rintro rfl hact
    exact completes_irrevocableAct (by rw [execIrrevocableAct_held s w c hc hheld hrun, hact]; rfl) rfl
  case held => exact fun hne => completes_heldSlotAct (execHeldSlotAct_held s w c h hc hheld hrun hne) (retry_done s w c hc)
  case busy => exact fun hbusy => completes_portIssueChoice (congrArg Host.Outcome.next (if_pos hbusy)) rfl
  case serves =>
    intro hfree hport
    obtain ⟨t, ht, hmem, hchosen⟩ := execPortIssueChoice_free s core port hfree hport
    refine completes_portIssueChoice ht ⟨hmem, hchosen, fun v hv => ?_⟩
    obtain ⟨hv, hclass⟩ := firstReady_highest _ core port v hv
    refine ⟨hv, fun x hx => ?_⟩
    dsimp only
    rw [rankOf_class, rankOf_class]
    exact hclass x hx
  case unchosen => exact fun h => completes_clauseIssue (execClauseIssue_idle s w h) rfl
  case late =>
    intro hport hfree hlate
    exact completes_clauseIssue ((execClauseIssue_chosen s w hport hfree).trans (by rw [hlate]; rfl)) rfl
  case issues =>
    intro m hdr h ws v hport hfree hfound hcls hm hsegs
    have hissue := issueSet_clause ((s.dropChoice w).dropYields w) w v m hdr h ws hcls hm hsegs
    refine completes_clauseIssue ((execClauseIssue_chosen s w hport hfree).trans (by rw [hfound, Option.map_some, Option.getD_some, hissue])) ?_
    refine ⟨apart_onWarp_cur v w _, ?_, ?_, fun l hl => ?_⟩
    · exact (congrArg Warp.regs (warp_onWarp_cur v w _)).trans (beginClause_regs _ _)
    · exact (congrArg Warp.clauseAt (warp_onWarp_cur v w _)).trans (beginClause_clauseAt _ _)
    · exact (congrArg (Warp.pc · l) (warp_onWarp_cur v w _)).trans (beginClause_pc _ _ l hl)
  case switch =>
    intro c hc hparked hland
    refine ⟨fun hld hst hen hqu hslot => ?_, fun hcount => ?_⟩
    · exact completes_switchResume (execSwitchResume_goes s w c hc hparked hland hld hst hen hqu hslot)
        ⟨apart_onWarp_cur s w _, warp_onWarp_cur s w _⟩
    · exact completes_switchResume (execSwitchResume_waits s w c hc hcount) rfl

end Sys2Proof.Machine
end

section
/-! SUPPORT. The store and the engine command that mark the leaf entry of their page in the memory of `outOfOrder` (R179). -/

namespace Sys2Proof.Machine

/-- Whether the instruction completes in a state of which `p` holds, by running it. -/
def runsTo (i : Instr) (s : State) (p : State → Bool) : Bool :=
  match exec i s with
  | .next t => p t
  | _ => false

theorem completes_of_runsTo (i : Instr) (s : State) (P : State → Prop) [DecidablePred P] (h : runsTo i s (fun t => decide (P t)) = true) :
    Completes i s P := by
  unfold runsTo at h
  split at h
  case h_1 t ht => exact ⟨t, ht, of_decide_eq_true h⟩
  case h_2 => cases h

/-- The store of 32 bits at address 0 by every lane. -/
def storeZero : Instr := .st unguarded .none false .b32 (.v 4) .vz .vz 0

/-- The store sets `AC` of the leaf entry, as the load does: byte 3 comes to light. -/
theorem storeZero_uncovers : Completes storeZero outOfOrder fun t => t.mem.byte 3 = 9 :=
  completes_of_runsTo _ _ _ (by decide +kernel)

/-- The leaf entry of the page of a place that was judged. -/
def leafOf (p : Except XErr Place) : Option Nat := p.toOption.bind fun q => q.xlat.map Xlat.leafPa

/-- No lane's store fails, and the leaf entry of its page is at 8. -/
theorem storeZero_leaf (l : Nat) (h : (outOfOrder.curWarp.execMask unguarded).getLsbD l = true) :
    leafOf (outOfOrder.lanePlace outOfOrder.cur l .store 4 (outOfOrder.curWarp.ea .vz .vz 0 4 l)) = some 8 := by
  have hall : ∀ l ∈ lanesOf (outOfOrder.curWarp.execMask unguarded),
      leafOf (outOfOrder.lanePlace outOfOrder.cur l .store 4 (outOfOrder.curWarp.ea .vz .vz 0 4 l)) = some 8 := by decide +kernel
  exact hall l ((mem_lanesOf _ l).mpr h)

/-- Refutes O26. The first part asks for no canonical memory (`Memory.wf`); in `outOfOrder` the store that sets `AC` of the leaf entry at 8 changes
what byte 3 reads as, which lies in no leaf entry. -/
theorem not_storeIssue : ¬Obligations.StoreIssue := by
  unfold Obligations.StoreIssue
  intro h
  obtain ⟨u, hu, hbyte⟩ := storeZero_uncovers
  have hstore := (h.1 outOfOrder unguarded .none false .b32 (.v 4) .vz .vz 0).1 (by decide +kernel) (by decide +kernel) (by decide +kernel)
    (by decide +kernel) ?noError
  case noError =>
    intro l e hl he
    exact absurd ((congrArg leafOf he).symm.trans (storeZero_leaf l hl)) nofun
  obtain ⟨t, ht, -, -, -, -, hmem, -⟩ := hstore
  obtain rfl : u = t := Host.Outcome.next.inj (hu.symm.trans ht)
  have hkeep : u.mem.byte 3 = outOfOrder.mem.byte 3 := by
    refine hmem 3 fun l p hl hp => ?_
    rintro ⟨y, hy, hlow, -⟩
    have hleaf : some y.leafPa = some 8 :=
      calc some y.leafPa
        _ = p.xlat.map Xlat.leafPa := (congrArg (Option.map Xlat.leafPa) hy).symm
        _ = leafOf (.ok p) := rfl
        _ = some 8 := (congrArg leafOf hp).symm.trans (storeZero_leaf l hl)
    rw [Option.some_inj] at hleaf
    omega
  rw [hbyte] at hkeep
  exact absurd hkeep (by decide)

/-- A gather's command of warp 0, released, whose descriptor lies at address 0 and has not been read. -/
def gatherAtZero : Cmd :=
  { cell := 0xD1, seq := 1, warp := 0, lbase := 0, gid := some 0, gen := 0, desc := 0, image := none, acq := false, rel := false, st := .released
    job := none, ctx := 0, fn := 0, die := 0, token := false, hid := 0, since := 0, insn := 0, upto := 0, lanes := 1, pos := 0, gain := false
    eng := none, judged := false, ready := false, got := [], wrote := [], staged := none, stagedBad := [], spoiled := false }

/-- `outOfOrder` with that command. -/
def outOfOrderCmd : State := { outOfOrder with cmds := [(0, gatherAtZero)] }

/-- The read of the descriptor sets `AC` of the leaf entry, and byte 3 comes to light. -/
theorem descRead_uncovers : Completes (.engineCommandRun 0) outOfOrderCmd fun t => t.mem.byte 3 = 9 :=
  completes_of_runsTo _ _ _ (by decide +kernel)

/-- The translation of page 0 in `outOfOrder`. -/
def zeroPage : Xlat := ⟨0, 0, 0, 0, 0, 8, 4096, false, true, true, true⟩

/-- Where the descriptor lies: at physical address 0, by the entry whose leaf is at 8. -/
theorem gatherAtZero_place : outOfOrderCmd.place gatherAtZero.descAsker 0 .load 64 0 =
    .ok ⟨.hbm 0, some zeroPage⟩ := rfl

theorem hbm_zero_plain : (Loc.hbm 0).plain := by
  have hplain : ∀ j < 64, mgmtAt (0 + j) = none := by decide +kernel
  exact hplain

/-- Refutes O40. The third part asks for no canonical memory (`Memory.wf`) where a command reads its descriptor; in `outOfOrderCmd` that read sets `AC`
of the leaf entry at 8 and changes what byte 3 reads as, which lies in no leaf entry. -/
theorem not_engines : ¬Obligations.Engines := by
  unfold Obligations.Engines
  rintro ⟨-, -, hrun⟩
  obtain ⟨u, hu, hbyte⟩ := descRead_uncovers
  obtain ⟨-, hreleased, -⟩ := hrun outOfOrderCmd 0 0 gatherAtZero (BitVec.ofNat 512 (outOfOrderCmd.natAt (.hbm 0) 64)) (Plan.toRead (0, 0)) rfl
  obtain ⟨hdesc, -⟩ := hreleased rfl (by decide +kernel)
  obtain ⟨t, ht, ⟨-, hmem⟩, -⟩ := hdesc (.hbm 0) (some zeroPage) rfl gatherAtZero_place (by decide +kernel)
    hbm_zero_plain (fun _ => rfl) rfl (by decide +kernel)
  obtain rfl : u = t := Host.Outcome.next.inj (hu.symm.trans ht)
  have hkeep : u.mem.byte 3 = outOfOrderCmd.mem.byte 3 := by
    refine hmem 3 ?_
    rintro ⟨y, hy, hlow, -⟩
    obtain rfl := Option.some.inj hy
    exact absurd hlow (by decide)
  rw [hbyte] at hkeep
  exact absurd hkeep (by decide)

end Sys2Proof.Machine
end

section
/-! SUPPORT. The opcodes of the cell table: the encoder's are among them, and a word of any other is refused (R91, R343, R354, R357). -/

namespace Sys2Proof

/-- Settles O3: `cellRow_encode` names the row of the opcode. -/
theorem encodedOpcodes : Obligations.EncodedOpcodes := by
  unfold Obligations.EncodedOpcodes
  intro i f henc
  obtain ⟨row, hrow⟩ : ∃ row, cellRow f.opc.toNat = some row := cellRow_encode i f henc
  exact Option.isSome_of_eq_some hrow

/-- Step 2 of R95: a word whose opcode has no row is refused before its class, its slot and its guard are looked at. -/
theorem decodeWord_unassigned (cls : BitVec 3) (slot : Nat) (last : Bool) (w : DWord) (h : cellRow (w.extractLsb' 48 8).toNat = none) :
    decodeWord cls slot last w = .error ((Fields.ofWord w).refuse .illOpc 0 ((w.extractLsb' 48 8).setWidth 16)) := by
  have hrow : cellRow (Fields.ofWord w).opc.toNat = none := h
  rw [decodeWord, decodeFields, hrow]
  rfl

end Sys2Proof

namespace Sys2Proof.Machine

/-- Where one segment alone has lanes, the causes of all segments are its own. -/
theorem takeAll_raises_alone {s : State} {g : Seg} {m : Mask} (ha : Alone s g m) (f : Seg → Raise) :
    s.takeAll s.cur (s.curWarp.raises m fun h => some (f h)) = s.takeAt s.cur g.lbase (f g) := by
  rw [Warp.raises, ha.only]
  rfl

/-- Settles O14: `decodeWord_unassigned` refuses the word, and the segment that stands alone at it takes the cause (`takeAt_traps_at`). -/
theorem unassignedCell : Obligations.UnassignedCell := by
  unfold Obligations.UnassignedCell
  refine ⟨fun cls slot last w h => ⟨_, decodeWord_unassigned cls slot last w h⟩, rfl, rfl, fun s g detail ha hrec hgrade => ?_⟩
  rw [State.refuseWord, takeAll_raises_alone ha]
  exact takeAt_traps_at s g _ 0x00 detail [] _ ha (.inl hrec) (by decide) (by decide) (.inl (by simp [hgrade])) fun x hx _ => hx

end Sys2Proof.Machine
end

section
/-! SUPPORT. The retired cells, and what a wake of a porter leaves as it was (R94, R205, R255). -/

namespace Sys2Proof.Machine

/-! ### A retired cell -/

@[simp] theorem acted_clauseAt (wp : Warp) : wp.acted.clauseAt = wp.clauseAt := by
  cases h : wp.clause <;> simp [Warp.clauseAt, Warp.acted, h]

/-- That a slot has acted is no part of the cause which its segment takes. -/
theorem Traps.acted {s t : State} {g : Seg} {m : Mask} {code : Nat} {P : SegCause → Prop} (h : Traps s t g m code P) :
    Traps s (t.onWarp s.cur Warp.acted) g m code P := by
  have hcur : t.cur = s.cur := (congrArg State.cur h.apart :)
  have hwarp : (t.onWarp s.cur Warp.acted).curWarp = t.curWarp.acted := hcur ▸ curWarp_onWarp t Warp.acted
  refine ⟨?_, ?_, ?_, ?_⟩
  · rw [← hcur, apart_onWarp, hcur, h.apart]
  · rw [hwarp]
    exact h.record
  · rw [hwarp, acted_clauseAt, h.left]
  · rw [hwarp]
    exact h.files

/-- A retired cell raises `RETIRED` once nothing is left to commit (R94, R205). -/
theorem retire_traps {s : State} {g : Seg} (ha : Alone s g s.curWarp.setMask) (hset : s.curWarp.setMask ≠ 0) (hact : s.curWarp.mayAct = true)
    (hrec : g.record = none) (hgrade : g.handler = 0) : Traps s s.retire g s.curWarp.setMask 0x01 fun _ => True := by
  unfold State.retire
  dsimp only
  rw [if_neg hset, State.irrevocably, if_pos hact, takeAll_raises_alone ha]
  exact (takeAt_traps_at s g _ 0x01 _ [] _ ha (.inl hrec) (by decide) (by decide) (.inl (by simp [hgrade])) fun _ _ _ => trivial).acted

/-! ### A wake of a porter -/

/-- `t` keeps of `s` what the porter's answers read and write, apart from the warp slots of core `core`. -/
structure Wakes (s t : State) (core : Nat) : Prop where
  mem : t.mem = s.mem
  services : t.services = s.services
  freeNo : t.freeNo = s.freeNo
  holds : t.holds = s.holds
  out : t.out = s.out
  warp : ∀ w, coreOf w ≠ core → t.warp w = s.warp w

/-- A wake reaches the warps of the porter core alone (R255). -/
theorem wakePorter_wakes (s : State) (die : Nat) : Wakes s (s.wakePorter die) (porterCore die) := by
  unfold State.wakePorter
  refine List.foldlRecOn (motive := fun t => Wakes s t (porterCore die)) _ _ ⟨rfl, rfl, rfl, rfl, rfl, fun _ _ => rfl⟩ fun t ht v hv => ?_
  have hcore : coreOf v = porterCore die := by
    obtain ⟨q, hq, rfl⟩ := List.mem_map.1 hv
    exact beq_iff_eq.1 (List.mem_filter.1 hq).2
  refine ⟨ht.mem, ht.services, ht.freeNo, ht.holds, ht.out, fun w hw => ?_⟩
  exact (warp_onWarp_other t v w _ fun h => hw (h ▸ hcore)).trans (ht.warp w hw)

end Sys2Proof.Machine
end

section
/-! SUPPORT. What the porter leaves of a warp slot when it serves, holds or emulates (R61, R62, R94, R128, R346, R347). -/

namespace Sys2Proof.Machine

/-! ### Results made visible at a boundary -/

theorem mem_orderPends (p : Pend) (ps : List Pend) : p ∈ orderPends ps ↔ p ∈ ps := by
  rw [orderPends, List.mem_append, mem_foldl_insertDue, List.mem_filter, List.mem_filter]
  cases p.isFlags <;> simp

/-- A result that has no lane `l` in register `n` leaves that word. -/
theorem apply_word_kept (wp : Warp) (p : Pend) (n l : Nat) (hn : n < 128) (hl : l < 64)
    (h : p.tgt = .vreg n → p.lanes.getLsbD l = false ∧ p.fill.getLsbD l = false) : ((wp.apply p).reg n).word l = (wp.reg n).word l := by
  obtain ⟨slot, due, tgt, lanes, vals, shape, cover, fill⟩ := p
  cases tgt
  case vreg k =>
    by_cases hk : n = k
    · subst hk
      obtain ⟨hlanes, hfill⟩ := h rfl
      rw [apply_vreg_reg wp slot due n n lanes vals shape cover fill hn, if_pos rfl, write_word_other _ _ _ _ _ _ _ hl hlanes hfill]
    · exact congrArg (VReg.word · l) (fileAt_getD_other 128 k n _ _ wp.regs hk)
  all_goals rfl

theorem applyEnd_word_kept (wp : Warp) (ps : List Pend) (n l : Nat) (hn : n < 128) (hl : l < 64)
    (h : ∀ p ∈ ps, p.tgt = .vreg n → p.lanes.getLsbD l = false ∧ p.fill.getLsbD l = false) :
    ((wp.applyEnd ps).reg n).word l = (wp.reg n).word l := by
  unfold Warp.applyEnd
  refine List.foldlRecOn (motive := fun u : Warp => (u.reg n).word l = (wp.reg n).word l) _ _ rfl fun u hu p hp => ?_
  rw [apply_word_kept u p n l hn hl (h p ((mem_orderPends p ps).1 hp)), hu]

/-- A change of a segment that concerns neither its causes nor its record. -/
def KeepsCauses (f : Seg → Seg) : Prop := ∀ x : Seg, (f x).cause = x.cause ∧ (f x).queue = x.queue ∧ (f x).record = x.record

theorem apply_segAt (wp : Warp) (p : Pend) (lb : Nat) : ∃ f, KeepsCauses f ∧ (wp.apply p).segAt lb = (wp.segAt lb).map f := by
  obtain ⟨slot, due, tgt, lanes, vals, shape, cover, fill⟩ := p
  cases tgt
  case lmask | lpark | lparkClear =>
    refine ⟨_, fun x => ?_, segAt_startWoken wp lb _ fun x => ?_⟩
    · split <;> exact ⟨rfl, rfl, rfl⟩
    · split <;> rfl
  case vpc =>
    refine ⟨_, fun _ => ?_, segAt_onSegs wp lb _ ?_⟩
    · exact ⟨rfl, rfl, rfl⟩
    · exact fun _ => rfl
  all_goals exact ⟨id, fun _ => ⟨rfl, rfl, rfl⟩, Option.map_id_apply.symm⟩

/-- A boundary leaves a segment its causes and its record. -/
theorem applyEnd_segAt (wp : Warp) (ps : List Pend) {lb : Nat} {g : Seg} (hg : wp.segAt lb = some g) :
    ∃ h, (wp.applyEnd ps).segAt lb = some h ∧ h.cause = g.cause ∧ h.queue = g.queue ∧ h.record = g.record := by
  unfold Warp.applyEnd
  refine List.foldlRecOn (motive := fun u : Warp => ∃ h, u.segAt lb = some h ∧ h.cause = g.cause ∧ h.queue = g.queue ∧ h.record = g.record)
    _ _ ⟨g, hg, rfl, rfl, rfl⟩ fun u hu p _ => ?_
  obtain ⟨h, hh, hcause, hqueue, hrecord⟩ := hu
  obtain ⟨f, hf, hseg⟩ := apply_segAt u p lb
  obtain ⟨fcause, fqueue, frecord⟩ := hf h
  exact ⟨f h, by rw [hseg, hh, Option.map_some], fcause.trans hcause, fqueue.trans hqueue, frecord.trans hrecord⟩

theorem apply_results (wp : Warp) (p : Pend) (rs : List Res) : ({ wp with results := rs } : Warp).apply p = { wp.apply p with results := rs } := by
  obtain ⟨slot, due, tgt, lanes, vals, shape, cover, fill⟩ := p
  cases tgt <;> rfl

/-- No result of a clause reads the results that are on their way. -/
theorem applyEnd_results (wp : Warp) (ps : List Pend) (rs : List Res) :
    ({ wp with results := rs } : Warp).applyEnd ps = { wp.applyEnd ps with results := rs } := by
  unfold Warp.applyEnd
  induction orderPends ps generalizing wp with
  | nil => rfl
  | cons p ps ih => rw [List.foldl_cons, apply_results, ih, List.foldl_cons]

/-! ### Lanes past their slot -/

/-- Lanes that leave no result behind, or stay in their clause, leave the files. -/
theorem standPast_files (wp : Warp) (x : ClauseAt) (after : List Latch) (h : x.pend = [] ∨ x.slot < x.cnt) :
    (wp.standPast x after).regs = wp.regs ∧ (wp.standPast x after).preds = wp.preds := by
  unfold Warp.standPast
  split
  · exact ⟨rfl, rfl⟩
  · split
    · next hlast =>
      have hpend : x.pend = [] := h.resolve_right (by omega)
      rw [Warp.finish, hpend]
      exact ⟨rfl, rfl⟩
    · unfold Warp.standAt
      split <;> exact ⟨rfl, rfl⟩

/-- Lanes that leave no result of lane `l` in register `n` behind leave that word. -/
theorem standPast_word_kept (wp : Warp) (x : ClauseAt) (after : List Latch) (n l : Nat) (hn : n < 128) (hl : l < 64)
    (h : ∀ p ∈ x.pend, p.tgt = .vreg n → p.lanes.getLsbD l = false ∧ p.fill.getLsbD l = false) :
    ((wp.standPast x after).reg n).word l = (wp.reg n).word l := by
  unfold Warp.standPast
  split
  · rfl
  · split
    · exact applyEnd_word_kept wp x.pend n l hn hl h
    · unfold Warp.standAt
      split <;> rfl

/-- Lanes that go past their slot leave a segment its causes and its record. -/
theorem standPast_segAt (wp : Warp) (x : ClauseAt) (after : List Latch) {lb : Nat} {g : Seg} (hg : wp.segAt lb = some g) :
    ∃ h, (wp.standPast x after).segAt lb = some h ∧ h.cause = g.cause ∧ h.queue = g.queue ∧ h.record = g.record := by
  unfold Warp.standPast
  split
  · exact ⟨g, hg, rfl, rfl, rfl⟩
  · split
    · exact applyEnd_segAt wp x.pend hg
    · unfold Warp.standAt
      split <;> exact ⟨g, hg, rfl, rfl, rfl⟩

/-! ### Lanes of a cause sent on -/

/-- A warp whose segment at `lb` has no cause any more, and lanes `m` of which stand at `a`. -/
def Warp.sentOn (wp : Warp) (lb : Nat) (m : Mask) (a : DWord) : Warp := (wp.onSeg lb fun g => { g with cause := none }).setPcs m fun _ => a

theorem sentOn_segAt {wp : Warp} {lb : Nat} {g : Seg} (hg : wp.segAt lb = some g) (m : Mask) (a : DWord) :
    (wp.sentOn lb m a).segAt lb = some { g with cause := none } :=
  segAt_onSeg wp lb (fun g => { g with cause := none }) g hg fun _ => rfl

theorem sentOn_pc (wp : Warp) (lb : Nat) (m : Mask) (a : DWord) (l : Nat) (hl : m.getLsbD l = true) : (wp.sentOn lb m a).pc l = a :=
  (allLanes_map_getD (fun l => if m.getLsbD l then a else wp.pc l) 0 l (lane_lt m l hl)).trans (if_pos hl)

/-! ### Causes taken up and announced -/

theorem nextCause_calm {g : Seg} (hrec : g.record = none) (hqueue : g.queue = []) : g.nextCause = g := by
  unfold Seg.nextCause
  rw [hrec, hqueue]
  simp

theorem nextCause_lbase (g : Seg) : g.nextCause.lbase = g.lbase := by
  unfold Seg.nextCause
  split
  · rfl
  · split <;> rfl

theorem announce_calm {s : State} {w lb : Nat} {g : Seg} (hg : (s.warp w).segAt lb = some g) (hc : g.cause = none) : s.announce w lb = s := by
  unfold State.announce
  dsimp only
  rw [hg]
  dsimp only
  rw [hc]

/-- A calm segment that has nothing waiting takes up no cause, and none is announced. -/
theorem nextCause_announce {s : State} {w lb : Nat} {g : Seg} (hg : (s.warp w).segAt lb = some g) (hc : g.cause = none) (hq : g.queue = [])
    (hr : g.record = none) :
    let t := s.onWarp w fun wp => wp.onSeg lb Seg.nextCause
    t.announce w lb = t ∧ (t.warp w).segAt lb = some g := by
  intro t
  have hseg : (t.warp w).segAt lb = some g := by
    rw [warp_onWarp_same, segAt_onSeg _ lb Seg.nextCause g hg nextCause_lbase, nextCause_calm hr hq]
  exact ⟨announce_calm hseg hc, hseg⟩

/-! ### Registers that the porter gives -/

section
variable (wp : Warp) (m : Mask) (n : Nat) (f : Nat → Word)

theorem give_word (hn : n < 128) (l : Nat) (hl : m.getLsbD l = true) : ((wp.give m n f).reg n).word l = f l := by
  have hreg : (wp.give m n f).reg n = (wp.reg n).write m (wp.reach m).1 (wp.reach m).2 .general f :=
    (reg_setReg wp n n _ hn).trans (if_pos rfl)
  rw [hreg, write_word _ _ _ _ _ _ _ hl]

theorem give_reg_other (k : Nat) (hk : k ≠ n) : (wp.give m n f).reg k = wp.reg k := fileAt_getD_other 128 n k _ _ wp.regs hk

end

/-- The registers below `n` given to the lanes of a mask. -/
def Warp.giveAll (wp : Warp) (m : Mask) (n : Nat) (f : Nat → Nat → Word) : Warp :=
  (List.range n).foldl (fun wp k => wp.give m k (f k)) wp

/-- `u` is `wp` with the words of the registers below `n` in the lanes of `m`. -/
structure Given (wp u : Warp) (m : Mask) (n : Nat) (f : Nat → Nat → Word) : Prop where
  low : ∀ k l, k < n → m.getLsbD l = true → (u.reg k).word l = f k l
  high : ∀ k, n ≤ k → u.reg k = wp.reg k
  preds : u.preds = wp.preds
  pcs : u.pcs = wp.pcs
  segs : u.segs = wp.segs

theorem giveAll_given (wp : Warp) (m : Mask) (n : Nat) (f : Nat → Nat → Word) (hn : n ≤ 128) : Given wp (wp.giveAll m n f) m n f := by
  induction n with
  | zero => exact ⟨fun k _ hk => absurd hk (Nat.not_lt_zero k), fun _ _ => rfl, rfl, rfl, rfl⟩
  | succ n ih =>
    obtain ⟨hlow, hhigh, hpreds, hpcs, hsegs⟩ := ih (by omega)
    have hlast : wp.giveAll m (n + 1) f = (wp.giveAll m n f).give m n (f n) := by
      rw [Warp.giveAll, List.range_succ, List.foldl_concat]
      rfl
    rw [hlast]
    refine ⟨fun k l hk hl => ?_, fun k hk => ?_, hpreds, hpcs, hsegs⟩
    · obtain rfl | hne := eq_or_ne k n
      · exact give_word _ m k (f k) (by omega) l hl
      · rw [give_reg_other _ m n (f n) k hne, hlow k l (by omega) hl]
    · rw [give_reg_other _ m n (f n) k (by omega), hhigh k (by omega)]

/-! ### A service (R128) -/

/-- How many registers a service number returns. -/
def State.serviceRegs (s : State) (number : Nat) : Nat := if s.services.contains number then 4 else 1

/-- What a service number returns in register `k` of lane `l`. -/
def State.serviceValue (s : State) (number k l : Nat) : Word :=
  if s.services.contains number then Config.serviceWord (s.freeNo + 4 * l + k) else 0xFFFF_FFFF#32

section
variable (s : State) (number : Nat)

theorem serviceRegs_listed (h : s.services.contains number = true) : s.serviceRegs number = 4 := if_pos h

theorem serviceRegs_unlisted (h : s.services.contains number = false) : s.serviceRegs number = 1 := if_neg (by rw [h]; decide)

theorem serviceRegs_bounds : 0 < s.serviceRegs number ∧ s.serviceRegs number ≤ 4 := by
  unfold State.serviceRegs
  split <;> decide

theorem serviceValue_listed (h : s.services.contains number = true) (k l : Nat) :
    s.serviceValue number k l = Config.serviceWord (s.freeNo + 4 * l + k) := if_pos h

theorem serviceValue_unlisted (h : s.services.contains number = false) (k l : Nat) : s.serviceValue number k l = 0xFFFF_FFFF#32 :=
  if_neg (by rw [h]; decide)

end

theorem serve_eq (s : State) (w : Nat) (m : Mask) (number : Nat) :
    s.serve w m number = { s.onWarp w fun wp => wp.giveAll m (s.serviceRegs number) (s.serviceValue number) with
      freeNo := if s.services.contains number then s.freeNo + 256 else s.freeNo } := by
  unfold State.serve State.serviceRegs
  have hvalue : s.serviceValue number = fun k l =>
    if s.services.contains number then Config.serviceWord (s.freeNo + 4 * l + k) else 0xFFFF_FFFF#32 := rfl
  split
  · next h => simp only [hvalue, h, if_true]; rfl
  · next h => simp only [hvalue, h]; rfl

section
variable (s : State) (w : Nat) (m : Mask) (number : Nat)

theorem serve_warp : (s.serve w m number).warp w = (s.warp w).giveAll m (s.serviceRegs number) (s.serviceValue number) := by
  rw [serve_eq]
  exact warp_onWarp_same s w fun wp => wp.giveAll m (s.serviceRegs number) (s.serviceValue number)

theorem serve_mem : (s.serve w m number).mem = s.mem := by
  rw [serve_eq]
  rfl

theorem serve_freeNo (h : s.services.contains number = false) : (s.serve w m number).freeNo = s.freeNo := by
  rw [serve_eq, h]
  rfl

end

/-- The header after the clause of a cause. -/
def SegCause.nextHdr (x : SegCause) : DWord := x.at_.hdr + BitVec.ofNat 64 (8 * (x.at_.cnt + 2))

/-- A warp whose segment at `lb` goes on at the next header, where results of the slot in the registers below `n` are about to come. -/
def Warp.afterService (wp : Warp) (lb : Nat) (x : SegCause) (m : Mask) (n : Nat) : Warp :=
  ((List.range n).foldl (fun wp k => wp.outdoAt x.at_ m k) wp).resumeHeader lb true

theorem foldl_outdoAt (a : ClauseAt) (m : Mask) (ks : List Nat) (wp : Warp) :
    ∃ rs, ks.foldl (fun wp k => wp.outdoAt a m k) wp = { wp with results := rs } := by
  refine List.foldlRecOn (motive := fun u : Warp => ∃ rs, u = { wp with results := rs }) _ _ ⟨wp.results, rfl⟩ fun u hu k _ => ?_
  obtain ⟨rs, rfl⟩ := hu
  exact ⟨_, rfl⟩

/-- The lanes of the cause stand at the next header, and every result of the clause is visible (R62). -/
theorem afterService_eq {wp : Warp} {lb : Nat} {g : Seg} {x : SegCause} (hg : wp.segAt lb = some g) (hx : g.cause = some x) (m : Mask) (n : Nat) :
    ∃ rs, wp.afterService lb x m n =
      { (wp.applyEnd x.at_.pend).sentOn lb (g.abs x.lanes &&& wp.live) x.nextHdr with results := rs } := by
  obtain ⟨rs, hrs⟩ := foldl_outdoAt x.at_ m (List.range n) wp
  have hseg : ({ wp with results := rs } : Warp).segAt lb = some g := hg
  rw [Warp.afterService, hrs, Warp.resumeHeader, hseg]
  dsimp only
  rw [hx]
  dsimp only
  rw [if_pos rfl, if_pos rfl, Warp.finish, applyEnd_results]
  exact ⟨_, rfl⟩

/-- A segment that returns from a service is calm and has the record and the queue that it had. -/
theorem afterService_segAt {wp : Warp} {lb : Nat} {g : Seg} {x : SegCause} (hg : wp.segAt lb = some g) (hx : g.cause = some x) (m : Mask)
    (n : Nat) : ∃ h, (wp.afterService lb x m n).segAt lb = some h ∧ h.cause = none ∧ h.queue = g.queue ∧ h.record = g.record := by
  obtain ⟨rs, hrs⟩ := afterService_eq hg hx m n
  obtain ⟨h, hh, -, hqueue, hrecord⟩ := applyEnd_segAt wp x.at_.pend hg
  rw [hrs]
  exact ⟨{ h with cause := none }, sentOn_segAt hh (g.abs x.lanes &&& wp.live) x.nextHdr, rfl, hqueue, hrecord⟩

end Sys2Proof.Machine
end

section
/-! SUPPORT. The porter's answers to a segment's cause: a service, a breakpoint, and the emulation of `FDIVA` (R94, R128, R347, R348, R358). -/

namespace Sys2Proof.Machine

theorem completes_porterReturn {s t : State} {w lb : Nat} {P : State → Prop} (h : execPorterReturn w lb s = .next t) (hP : P t) :
    Completes (.porterReturn w lb) s P := ⟨t, h, hP⟩

/-! ### The porter takes a cause up -/

/-- The porter serves lanes `m` of a segment, which goes on at the next header (R128, R347). -/
def State.service (s : State) (w lb : Nat) (x : SegCause) (m : Mask) : State :=
  (((s.onWarp w fun wp => wp.afterService lb x m (s.serviceRegs x.detail.toNat)).serve w m x.detail.toNat).onWarp w
    fun wp => wp.onSeg lb Seg.nextCause).announce w lb

/-- The porter holds a segment at a breakpoint, and the host is told (R347, R348). -/
def State.breakpoint (s : State) (w lb : Nat) (g : Seg) (x : SegCause) : State :=
  let k := freeHold s.holds
  { (s.hold (s.fnOf g.gid) (.seg w lb)).2.onWarp w fun wp => wp.onSeg lb fun h => { h with cause := some { x with hid := k, since := s.now } } with
    out := s.out ++ [.debug g.gid k] }

theorem breakpoint_warp (s : State) (w lb : Nat) (g : Seg) (x : SegCause) : (s.breakpoint w lb g x).warp w =
    (s.warp w).onSeg lb fun h => { h with cause := some { x with hid := freeHold s.holds, since := s.now } } :=
  warp_onWarp_same (s.hold (s.fnOf g.gid) (.seg w lb)).2 w fun wp => wp.onSeg lb fun h =>
    { h with cause := some { x with hid := freeHold s.holds, since := s.now } }

/-- What the porter does with a cause of its own that is not held, in a warp whose window has committed: a retired cell, a service, a breakpoint. -/
theorem execPorterReturn_answers {s : State} {w lb : Nat} {g : Seg} {x : SegCause} (hg : (s.warp w).segAt lb = some g) (hx : g.cause = some x)
    (hwin : (s.warp w).window = none) (hid : x.hid = 0) (hdest : causeDest x.code = .porter) :
    let t := s.wakePorter (dieOf w)
    (x.code = 0x01 → execPorterReturn w lb s = .next (t.emulate w lb)) ∧
    (x.code = 0x17 → execPorterReturn w lb s = .next (t.service w lb x (g.abs x.mask &&& (s.warp w).live))) ∧
    (x.code = 0x18 → execPorterReturn w lb s = .next (t.breakpoint w lb g x)) := by
  have hgo : ¬(causeDest x.code ≠ .porter ∨ (!(s.warp w).mayDeliver) = true ∨ x.hid ≠ 0) := by
    simp [hdest, Warp.mayDeliver, hwin, hid]
  unfold execPorterReturn
  dsimp only
  rw [hg]
  dsimp only
  rw [hx]
  dsimp only
  rw [if_neg hgo]
  refine ⟨fun hcode => ?_, fun hcode => ?_, fun hcode => ?_⟩
  · rw [hcode]
    rfl
  · rw [hcode]
    rfl
  · rw [State.breakpoint, hcode]
    rfl

/-! ### The emulation of `FDIVA` (R94) -/

theorem tab_put_put {α : Type} (t : Tab α) (k : Nat) (u v : α) : Tab.put (Tab.put t k u) k v = Tab.put t k v := by
  induction t with
  | nil => simp [Tab.put]
  | cons q rest ih =>
    obtain ⟨j, y⟩ := q
    simp only [Tab.put]
    split
    · simp [Tab.put]
    · split
      · simp [Tab.put]
      · next hne hnlt => simp [Tab.put, hne, hnlt, ih]

/-- Two changes of one warp slot are one. -/
theorem onWarp_onWarp (s : State) (w : Nat) (f g : Warp → Warp) : (s.onWarp w f).onWarp w g = s.onWarp w fun wp => g (f wp) := by
  rw [State.onWarp, warp_onWarp_same]
  simp only [State.onWarp, State.setWarp, tab_put_put]

/-- A segment whose cause is changed. -/
def Seg.onCause (g : Seg) (f : SegCause → SegCause) : Seg := { g with cause := g.cause.map f }

theorem segAt_onCause {wp : Warp} {lb : Nat} {g : Seg} {y : SegCause} (f : SegCause → SegCause)
    (h : wp.segAt lb = some { g with cause := some y }) :
    (wp.onSeg lb fun g => g.onCause f).segAt lb = some { g with cause := some (f y) } :=
  segAt_onSeg wp lb (fun g => g.onCause f) _ h fun _ => rfl

/-- A cause whose clause no longer holds results of earlier slots for register `n` of lanes `m`. -/
def SegCause.overtaken (x : SegCause) (m : Mask) (n : Nat) : SegCause :=
  { x with at_ := { x.at_ with pend := (x.at_.pend.map fun p => if p.tgt == .vreg n then p.within (~~~m) else p).filter Pend.alive } }

/-- What is left of the results has no lane of `m` in register `n`. -/
theorem overtaken_pend {x : SegCause} {m : Mask} {n l : Nat} (hl : m.getLsbD l = true) :
    ∀ p ∈ (x.overtaken m n).at_.pend, p.tgt = .vreg n → p.lanes.getLsbD l = false ∧ p.fill.getLsbD l = false := by
  intro p hp htgt
  obtain ⟨q, -, hq⟩ := List.mem_map.1 (List.mem_filter.1 hp).1
  split at hq
  · subst hq
    simp [Pend.within, hl]
  · next hother =>
    subst hq
    exact absurd (beq_iff_eq.2 htgt) hother

theorem overtaken_none {x : SegCause} (m : Mask) (n : Nat) (h : x.at_.pend = []) : (x.overtaken m n).at_.pend = [] := by
  rw [SegCause.overtaken, h]
  rfl

/-- The one word that an emulation writes (R61, R94). -/
theorem emuWrite_word (s : State) (w lb : Nat) (x : SegCause) (m : Mask) (n : BitVec 7) (f : Nat → Nat → Word) :
    s.emuWrite w lb x m 1 (.v n) f = s.onWarp w fun wp => ((wp.give m n.toNat (f 0)).outdoAt x.at_ m n.toNat).onSeg lb fun g =>
      g.onCause fun y => y.overtaken m n.toNat := by
  simp only [State.emuWrite, List.range_one, List.foldl_cons, List.foldl_nil, List.any_cons, List.any_nil, Bool.or_false, Nat.add_zero]
  rfl

/-- A quotient and its flags: the product by the approximated reciprocal (R94). -/
def Warp.quotient (wp : Warp) (ftz : Bool) (a b : Reg) (l : Nat) : Word × BitVec 5 :=
  let (r, f1) := approxOp .rcp .f32 ftz (wp.val32 b l)
  let (q, f2) := floatOp fmtF32 .mul ftz (wp.val32 a l).toNat r.toNat 0
  (BitVec.ofNat 32 q, f1 ||| f2)

/-- A warp whose segment at `lb` stands with `RETIRED` at an `FDIVA`, once the porter has written the quotients (R94). -/
def Warp.divided (u : Warp) (lb : Nat) (x : SegCause) (p : Pre) (ftz : Bool) (n : BitVec 7) (a b : Reg) : Warp :=
  let wp := u.atCause x
  let m := wp.execMask p
  let held := u.onSeg lb fun g => g.onCause fun x => { x with after := wp.nextLatch }
  let wrote := ((held.give m n.toNat fun l => (wp.quotient ftz a b l).1).outdoAt x.at_ m n.toNat).onSeg lb fun g =>
    g.onCause fun y => y.overtaken m n.toNat
  { wrote with fpflags := wrote.fpflags ||| orFlags m fun l => (wp.quotient ftz a b l).2 }.onSeg lb fun g =>
    g.onCause fun x => { x with told := true }

section
variable (u : Warp) (lb : Nat) (x : SegCause) (p : Pre) (ftz : Bool) (n : BitVec 7) (a b : Reg)

theorem divided_word (l : Nat) (hl : ((u.atCause x).execMask p).getLsbD l = true) :
    ((u.divided lb x p ftz n a b).reg n.toNat).word l = ((u.atCause x).quotient ftz a b l).1 :=
  give_word _ _ _ _ n.isLt l hl

theorem divided_reg_other (j : Nat) (hj : j ≠ n.toNat) : (u.divided lb x p ftz n a b).reg j = u.reg j :=
  give_reg_other _ _ n.toNat _ j hj

theorem divided_preds : (u.divided lb x p ftz n a b).preds = u.preds := rfl

/-- The cause of the segment, whose word has had its effect. -/
def Warp.dividedCause : SegCause :=
  { x.overtaken ((u.atCause x).execMask p) n.toNat with after := (u.atCause x).nextLatch, told := true }

theorem divided_segAt {g : Seg} (hg : u.segAt lb = some g) (hx : g.cause = some x) :
    (u.divided lb x p ftz n a b).segAt lb = some { g with cause := some (u.dividedCause x p n) } := by
  have hself : u.segAt lb = some { g with cause := some x } := hx ▸ hg
  exact segAt_onCause _ (segAt_onCause _ (segAt_onCause _ hself))

end

section
variable {s : State} {w lb : Nat} {g : Seg} {x : SegCause} {p : Pre} {ftz : Bool} {n : BitVec 7} {a b : Reg}

theorem emuStep_fdiva (hlb : g.lbase = lb) :
    (s.onWarp w fun u => u.onSeg lb fun g => g.onCause fun y => { y with after := ((s.warp w).atCause x).nextLatch }).emuStep w g x
      ((s.warp w).atCause x) (.fdiva p ftz (.v n) a b) = .ok (s.onWarp w fun u => u.divided lb x p ftz n a b) := by
  rw [State.emuStep, hlb]
  dsimp only
  rw [emuWrite_word, State.emuTold]
  simp only [onWarp_onWarp]
  unfold State.onWarp
  rfl

/-- The emulation of an `FDIVA` that reads no poison: the quotients are written, and the segment goes on, unless something holds it (R94). -/
theorem emulate_fdiva (hg : (s.warp w).segAt lb = some g) (hx : g.cause = some x) (hlb : g.lbase = lb) (htold : x.told = false)
    (hword : decodeAlone (x.at_.words.getD x.at_.slot 0) = .ok (.fdiva p ftz (.v n) a b)) (hpoison : (s.warp w).poison = []) :
    let t := s.onWarp w fun u => u.divided lb x p ftz n a b
    s.emulate w lb = t.emuDone w lb ∨ s.emulate w lb = t := by
  intro t
  have hbad : ∀ word m, ((s.warp w).atCause x).poisoned word m = 0 := fun word m => if_pos hpoison
  have hseg : (t.warp w).segAt lb = some { g with cause := some ((s.warp w).dividedCause x p n) } := by
    rw [warp_onWarp_same]
    exact divided_segAt _ lb x p ftz n a b hg hx
  have hdone : (((t.warp w).segAt lb).bind Seg.cause).any SegCause.told = true := by
    rw [hseg]
    rfl
  have hstep := emuStep_fdiva (s := s) (w := w) (x := x) (p := p) (ftz := ftz) (n := n) (a := a) (b := b) hlb
  unfold State.emulate
  rw [hg]
  dsimp only
  rw [hx]
  dsimp only
  rw [htold, if_neg (by decide), hword]
  dsimp only [Seg.onCause] at hstep ⊢
  rw [hstep]
  dsimp only
  rw [hbad, if_neg (not_not.2 rfl), if_pos hdone]
  exact ite_eq_or_eq _ _ _

end

/-! ### Lanes past an emulated slot -/

/-- A segment goes past the slot of its cause (R347). -/
theorem resumeCause_past {wp : Warp} {lb : Nat} {g : Seg} {y : SegCause} (hg : wp.segAt lb = some { g with cause := some y }) :
    let m := g.abs y.lanes &&& wp.live
    wp.resumeCause lb true = (wp.sentOn lb m y.nextHdr).standPast { y.at_ with lanes := m } y.after := by
  unfold Warp.resumeCause
  rw [hg]
  rfl

/-- A segment with nothing waiting is calm past the slot of its cause. -/
theorem emuDone_eq {s : State} {w lb : Nat} {g : Seg} {y : SegCause} (hg : (s.warp w).segAt lb = some { g with cause := some y })
    (hr : g.record = none) (hq : g.queue = []) :
    s.emuDone w lb = s.onWarp w fun wp => (wp.resumeCause lb true).onSeg lb Seg.nextCause := by
  obtain ⟨h, hh, hcause, hqueue, hrecord⟩ := standPast_segAt ((s.warp w).sentOn lb (g.abs y.lanes &&& (s.warp w).live) y.nextHdr)
    { y.at_ with lanes := g.abs y.lanes &&& (s.warp w).live } y.after (sentOn_segAt hg _ _)
  have hseg : ((s.onWarp w fun wp => wp.resumeCause lb true).warp w).segAt lb = some h := by
    rw [warp_onWarp_same, resumeCause_past hg]
    exact hh
  obtain ⟨hquiet, -⟩ := nextCause_announce hseg hcause (hqueue.trans hq) (hrecord.trans hr)
  rw [onWarp_onWarp] at hquiet
  exact hquiet

/-- What lanes past their slot leave of a register file: the word of a lane and a register of which no result is left, and all of it where
no result is visible yet. -/
theorem resumeCause_files {wp : Warp} {lb : Nat} {g : Seg} {y : SegCause} (hg : wp.segAt lb = some { g with cause := some y }) :
    (∀ n l, n < 128 → l < 64 → (∀ q ∈ y.at_.pend, q.tgt = .vreg n → q.lanes.getLsbD l = false ∧ q.fill.getLsbD l = false) →
      ((wp.resumeCause lb true).reg n).word l = (wp.reg n).word l) ∧
    (y.at_.pend = [] ∨ y.at_.slot < y.at_.cnt →
      (wp.resumeCause lb true).preds = wp.preds ∧ ∀ j, (wp.resumeCause lb true).reg j = wp.reg j) := by
  rw [resumeCause_past hg]
  refine ⟨fun n l hn hl h => standPast_word_kept _ _ _ n l hn hl h, fun h => ?_⟩
  obtain ⟨hregs, hpreds⟩ := standPast_files (wp.sentOn lb (g.abs y.lanes &&& wp.live) y.nextHdr)
    { y.at_ with lanes := g.abs y.lanes &&& wp.live } y.after h
  exact ⟨hpreds, fun j => congrArg (fun rs => rs.getD j VReg.reset) hregs⟩

/-- In `t` lanes `m` of a warp hold the words `v` in register `n`. The other registers and the predicates are those of `s`, unless the lanes have
left the clause of cause `x`, whose results are then visible. -/
structure Divides (s t : State) (w : Nat) (x : SegCause) (m : Mask) (n : Nat) (v : Nat → Word) : Prop where
  mem : t.mem = s.mem
  value : ∀ l, m.getLsbD l = true → ((t.warp w).reg n).word l = v l
  files : x.at_.pend = [] ∨ x.at_.slot < x.at_.cnt →
    (t.warp w).preds = (s.warp w).preds ∧ ∀ j, j ≠ n → (t.warp w).reg j = (s.warp w).reg j

section
variable {s : State} {w lb : Nat} {g : Seg} {x : SegCause} {p : Pre} {ftz : Bool} {n : BitVec 7} {a b : Reg}

theorem divided_divides : Divides s (s.onWarp w fun u => u.divided lb x p ftz n a b) w x (((s.warp w).atCause x).execMask p) n.toNat
    fun l => (((s.warp w).atCause x).quotient ftz a b l).1 := by
  refine ⟨rfl, ?_, fun _ => ?_⟩
  all_goals rw [warp_onWarp_same]
  · exact divided_word _ lb x p ftz n a b
  · exact ⟨divided_preds _ lb x p ftz n a b, divided_reg_other _ lb x p ftz n a b⟩

/-- The quotients stand behind the slot as well: the results of earlier slots have lost their lanes. -/
theorem emuDone_divides (hg : (s.warp w).segAt lb = some g) (hx : g.cause = some x) (hr : g.record = none) (hq : g.queue = []) :
    Divides s ((s.onWarp w fun u => u.divided lb x p ftz n a b).emuDone w lb) w x (((s.warp w).atCause x).execMask p) n.toNat
      fun l => (((s.warp w).atCause x).quotient ftz a b l).1 := by
  obtain ⟨hmem, hvalue, hfiles⟩ :=
    divided_divides (s := s) (w := w) (lb := lb) (x := x) (p := p) (ftz := ftz) (n := n) (a := a) (b := b)
  have hseg : ((s.onWarp w fun u => u.divided lb x p ftz n a b).warp w).segAt lb =
      some { g with cause := some ((s.warp w).dividedCause x p n) } := by
    rw [warp_onWarp_same]
    exact divided_segAt _ lb x p ftz n a b hg hx
  generalize (s.onWarp w fun u => u.divided lb x p ftz n a b) = t at hmem hvalue hfiles hseg ⊢
  obtain ⟨hword, hkept⟩ := resumeCause_files hseg
  rw [emuDone_eq hseg hr hq]
  refine ⟨hmem, ?_, fun hstay => ?_⟩
  all_goals rw [warp_onWarp_same]
  · exact fun l hl => (hword n.toNat l n.isLt (lane_lt _ l hl) (overtaken_pend hl)).trans (hvalue l hl)
  · obtain ⟨hpreds, hregs⟩ := hkept (hstay.imp_left (overtaken_none _ _))
    obtain ⟨hpreds', hothers⟩ := hfiles hstay
    exact ⟨hpreds.trans hpreds', fun j hj => (hregs j).trans (hothers j hj)⟩

/-- The emulation of an `FDIVA` that reads no poison, whether the segment goes on or waits. -/
theorem emulate_divides (hg : (s.warp w).segAt lb = some g) (hx : g.cause = some x) (hlb : g.lbase = lb) (hr : g.record = none)
    (hq : g.queue = []) (htold : x.told = false) (hword : decodeAlone (x.at_.words.getD x.at_.slot 0) = .ok (.fdiva p ftz (.v n) a b))
    (hpoison : (s.warp w).poison = []) :
    Divides s (s.emulate w lb) w x (((s.warp w).atCause x).execMask p) n.toNat fun l => (((s.warp w).atCause x).quotient ftz a b l).1 := by
  obtain hgoes | hwaits := emulate_fdiva hg hx hlb htold hword hpoison
  · exact hgoes ▸ emuDone_divides hg hx hr hq
  · exact hwaits ▸ divided_divides

end

end Sys2Proof.Machine
end

section
/-! SUPPORT. A service's results (R128), and the porter's returns together. -/

namespace Sys2Proof.Machine

/-- `t` is what a service leaves of `s`: lanes `m` of a warp hold its results, lanes `k` stand at the next header, and every result of the clause
of cause `x` is visible there (R62, R128). -/
structure Served (s t : State) (w lb : Nat) (x : SegCause) (m k : Mask) : Prop where
  mem : t.mem = s.mem
  freeNo : s.services.contains x.detail.toNat = false → t.freeNo = s.freeNo
  preds : (t.warp w).preds = ((s.warp w).applyEnd x.at_.pend).preds
  calm : ∃ h, (t.warp w).segAt lb = some h ∧ h.cause = none
  pc : ∀ l, k.getLsbD l = true → (t.warp w).pc l = x.nextHdr
  low : ∀ n l, n < s.serviceRegs x.detail.toNat → m.getLsbD l = true → ((t.warp w).reg n).word l = s.serviceValue x.detail.toNat n l
  high : ∀ n, s.serviceRegs x.detail.toNat ≤ n → (t.warp w).reg n = ((s.warp w).applyEnd x.at_.pend).reg n

section
variable {s : State} {w lb : Nat} {g : Seg} {x : SegCause} (hg : (s.warp w).segAt lb = some g) (hx : g.cause = some x)
  (hr : g.record = none) (hq : g.queue = [])
include hg hx hr hq

theorem service_served (m : Mask) :
    Served s (s.service w lb x m) w lb x m (g.abs x.lanes &&& (s.warp w).live) := by
  unfold State.service
  generalize hn : s.serviceRegs x.detail.toNat = n
  obtain ⟨rs, hback⟩ := afterService_eq hg hx m n
  obtain ⟨h, hh, hcause, hqueue, hrecord⟩ := afterService_segAt hg hx m n
  obtain ⟨hlow, hhigh, hpreds, hpcs, hsegs⟩ := giveAll_given ((s.warp w).afterService lb x m n) m n (s.serviceValue x.detail.toNat)
    (hn ▸ (serviceRegs_bounds s _).2.trans (by decide))
  have hserved : (((s.onWarp w fun wp => wp.afterService lb x m n).serve w m x.detail.toNat).warp w) =
      ((s.warp w).afterService lb x m n).giveAll m n (s.serviceValue x.detail.toNat) := by
    rw [serve_warp, warp_onWarp_same, ← hn]
    rfl
  have hmem := serve_mem (s.onWarp w fun wp => wp.afterService lb x m n) w m x.detail.toNat
  have hfree := serve_freeNo (s.onWarp w fun wp => wp.afterService lb x m n) w m x.detail.toNat
  generalize (s.onWarp w fun wp => wp.afterService lb x m n).serve w m x.detail.toNat = t at hserved hmem hfree ⊢
  have hseg : (t.warp w).segAt lb = some h := by
    rw [hserved, Warp.segAt, hsegs]
    exact hh
  obtain ⟨hquiet, hcalm⟩ := nextCause_announce hseg hcause (hqueue.trans hq) (hrecord.trans hr)
  rw [hquiet]
  refine ⟨hmem, hfree, ?_, ⟨h, hcalm, hcause⟩, fun l hl => ?_, fun k l hk hl => ?_, fun k hk => ?_⟩
  all_goals rw [warp_onWarp_same, hserved]
  · exact hpreds.trans (congrArg Warp.preds hback :)
  · refine (congrArg (fun pcs => pcs.getD l 0) hpcs).trans ?_
    rw [hback]
    exact sentOn_pc _ lb _ _ l hl
  · exact hlow k l (hn ▸ hk) hl
  · exact (hhigh k (hn ▸ hk)).trans (congrArg (Warp.reg · k) hback :)

end

/-! ### The answers, from the state in which the cause stands -/

section
variable {s t : State} {w lb : Nat} {g : Seg} {x : SegCause} (hwake : Wakes s t (porterCore (dieOf w))) (hcore : coreOf w ≠ porterCore (dieOf w))
include hwake hcore

/-- What a service leaves holds of the state before its wake as well. -/
theorem Served.woken {u : State} {m k : Mask} (h : Served t u w lb x m k) : Served s u w lb x m k := by
  obtain ⟨hmem, hfree, hpreds, hcalm, hpc, hlow, hhigh⟩ := h
  have hregs : ∀ n, t.serviceRegs n = s.serviceRegs n := fun n => by simp only [State.serviceRegs, hwake.services]
  have hvalue : ∀ n, t.serviceValue n = s.serviceValue n := fun n => by
    funext j l
    simp only [State.serviceValue, hwake.services, hwake.freeNo]
  rw [hwake.warp w hcore] at hpreds hhigh
  rw [hregs, hvalue] at hlow
  rw [hregs] at hhigh
  rw [hwake.services, hwake.freeNo] at hfree
  exact ⟨hmem.trans hwake.mem, hfree, hpreds, hcalm, hpc, hlow, hhigh⟩

/-- So does what an emulation leaves. -/
theorem Divides.woken {u : State} {m : Mask} {n : Nat} {v : Nat → Word} (h : Divides t u w x m n v) : Divides s u w x m n v := by
  obtain ⟨hmem, hvalue, hfiles⟩ := h
  rw [hwake.warp w hcore] at hfiles
  exact ⟨hmem.trans hwake.mem, hvalue, hfiles⟩

end

/-- The quotient is the product by the approximated reciprocal. -/
theorem quotient_word (wp : Warp) (ftz : Bool) (a b : Reg) (l : Nat) : (wp.quotient ftz a b l).1 =
    BitVec.ofNat 32 (floatOp fmtF32 .mul ftz (wp.val32 a l).toNat (approxOp .rcp .f32 ftz (wp.val32 b l)).1.toNat 0).1 := by
  unfold Warp.quotient
  rcases approxOp .rcp .f32 ftz (wp.val32 b l) with ⟨r, f1⟩
  dsimp only

/-- The retired cells are one instruction (R94). -/
theorem exec_retired (s : State) (p : Pre) (f t : Bool) (ty : Ty) (n : BitVec 3) (sel : BitVec 2) (off : BitVec 16) (a b c k : Reg) :
    ∀ i ∈ [Instr.fdiva p f a b c, .ldsp p f ty a b off, .stsp p f ty a b off, .atsp p a b c, .barw p, .mma4 p n t sel a b c k,
      .mma8 p n t sel a b c k], exec i s = .next s.retire := by
  intro i hi
  simp only [List.mem_cons, List.not_mem_nil, or_false] at hi
  obtain rfl | rfl | rfl | rfl | rfl | rfl | rfl := hi
  all_goals rfl

/-- Settles O24. A retired cell is `retire_traps`; the porter's answers are those of `execPorterReturn_answers`: what a service leaves is
`service_served`, what a breakpoint leaves `breakpoint_warp`, and what the emulation of `FDIVA` leaves `emulate_divides`. -/
theorem porter : Obligations.Porter := by
  unfold Obligations.Porter
  refine ⟨?retired, ?returns⟩
  case retired =>
    intro s g ha hset hact hrec hgrade p f t ty n sel off a b c k i hi
    exact ⟨_, exec_retired s p f t ty n sel off a b c k i hi, retire_traps ha hset hact hrec hgrade⟩
  case returns =>
    intro s w lb g x hg hx hwin hid hlb hrec hqueue hcore wp k due
    have hwake := wakePorter_wakes s (dieOf w)
    have hwarp : (s.wakePorter (dieOf w)).warp w = s.warp w := hwake.warp w hcore
    have hg' : ((s.wakePorter (dieOf w)).warp w).segAt lb = some g := by rw [hwarp, hg]
    refine ⟨fun hcode => ?service, fun hcode => ?breakpoint, fun p f n a b hcode htold hword hpoison => ?emulation⟩
    case service =>
      obtain ⟨-, hexec, -⟩ := execPorterReturn_answers hg hx hwin hid (by rw [hcode]; rfl)
      obtain ⟨hmem, hfree, hpreds, hcalm, hpc, hlow, hhigh⟩ := (service_served hg' hx hrec hqueue (g.abs x.mask &&& wp.live)).woken hwake hcore
      rw [hwarp] at hpc
      obtain ⟨hpos, hfour⟩ := serviceRegs_bounds s x.detail.toNat
      refine completes_porterReturn (hexec hcode) ⟨hmem, hpreds, hcalm, hpc, fun n hn => hhigh n ?high,
        fun l hl => ⟨fun hlist => ?unlisted, ?listed⟩⟩
      case high =>
        obtain hn | ⟨hn, hlist⟩ := hn
        · exact hfour.trans hn
        · rw [serviceRegs_unlisted s _ hlist]
          omega
      case unlisted => exact ⟨(hlow 0 l hpos hl).trans (serviceValue_unlisted s _ hlist 0 l), hfree hlist⟩
      case listed =>
        intro hlist n hn
        exact (hlow n l (serviceRegs_listed s _ hlist ▸ hn) hl).trans (serviceValue_listed s _ hlist n l)
    case breakpoint =>
      obtain ⟨-, -, hexec⟩ := execPorterReturn_answers hg hx hwin hid (by rw [hcode]; rfl)
      have hheld := breakpoint_warp (s.wakePorter (dieOf w)) w lb g x
      rw [hwarp, hwake.holds] at hheld
      refine completes_porterReturn (hexec hcode) ⟨hwake.mem, (congrArg Warp.regs hheld :), ?_⟩
      refine ⟨_, _, (congrArg (Warp.segAt · lb) hheld).trans (segAt_onSeg wp lb _ g hg ?_), rfl, rfl, rfl, ?_⟩
      · exact fun _ => rfl
      · rw [State.breakpoint, hwake.holds, hwake.out]
    case emulation =>
      obtain ⟨hexec, -, -⟩ := execPorterReturn_answers hg hx hwin hid (by rw [hcode]; rfl)
      refine completes_porterReturn (hexec hcode) ?_
      have hdivides := (emulate_divides hg' hx hlb hrec hqueue htold hword (hwarp ▸ hpoison)).woken hwake hcore
      rw [hwarp] at hdivides
      obtain ⟨hmem, hvalue, hfiles⟩ := hdivides
      exact ⟨hmem, hfiles, fun l hl => (hvalue l hl).trans (quotient_word _ f a b l)⟩

end Sys2Proof.Machine
end

section
/-! SUPPORT. Floating-point arithmetic: one rounding in each executing lane, and the flags of all of them (R104, R141 to R143, R146). -/

namespace Sys2Proof.Machine

/-- An instruction that is a three-source floating-point operation gives its lanes the operation's values, and the flags of all of them. -/
theorem floatTern_floats {s : State} {i : Instr} {p : Pre} {lat : Nat} {packed : Bool} {d a b c : Reg} {op : Nat → Nat → Nat → Nat × BitVec 5}
    (hd : i.wf = true → d.isVec = true) (hexec : exec i s = .next (s.floatTern p lat packed d a b c op)) :
    Floats s i p lat false d fun l => packedOp packed op (s.curWarp.val32 a l) (s.curWarp.val32 b l) (s.curWarp.val32 c l) := fun hwf =>
  ⟨_, hexec, aluFlags_gives s p lat false d _ _ (isSized_ok false d (hd hwf))⟩

section
variable (p : Pre) (packed ftz : Bool) (ty : Ty) (d a b c : Reg)

/-- The destination of a well-formed addition, subtraction or multiplication is a vector register, or discards its result. -/
theorem isVec_of_wf_arith2 :
    ∀ i ∈ [Instr.fadd p packed ftz ty d a b, .fsub p packed ftz ty d a b, .fmul p packed ftz ty d a b], i.wf = true → d.isVec = true := by
  intro i hi hwf
  simp only [List.mem_cons, List.not_mem_nil, or_false] at hi
  have hwf : (wfFloat packed ty && d.isVec && a.isVec && b.isVec) = true := by
    obtain rfl | rfl | rfl := hi
    all_goals exact hwf
  simp only [Bool.and_eq_true] at hwf
  obtain ⟨⟨⟨-, hd⟩, -⟩, -⟩ := hwf
  exact hd

theorem isVec_of_wf_ffma (hwf : (Instr.ffma p packed ftz ty d a b c).wf = true) : d.isVec = true := by
  have hwf : (wfFloat packed ty && d.isVec && a.isVec && b.isVec && c.isVec) = true := hwf
  simp only [Bool.and_eq_true] at hwf
  obtain ⟨⟨⟨⟨-, hd⟩, -⟩, -⟩, -⟩ := hwf
  exact hd

end

/-- Settles O9: each of the four is `floatTern_floats`; `FADD`, `FSUB` and `FMUL` have `vz`, which reads as 0, for their third source. -/
theorem floatArithmetic : Obligations.FloatArithmetic := by
  unfold Obligations.FloatArithmetic
  intro s p packed ftz ty d a b c fmt A B C out
  have hd := isVec_of_wf_arith2 p packed ftz ty d a b
  refine ⟨?add, ?sub, ?mul, ?fma⟩
  case add => exact floatTern_floats (c := .vz) (hd _ (by simp)) rfl
  case sub => exact floatTern_floats (c := .vz) (hd _ (by simp)) rfl
  case mul => exact floatTern_floats (c := .vz) (hd _ (by simp)) rfl
  case fma => exact floatTern_floats (isVec_of_wf_ffma p packed ftz ty d a b c) rfl

end Sys2Proof.Machine
end

section
/-! SUPPORT. What the operations of a tile's sequence leave of its elements and of a result that reads it (R107, R109, R111, R242, R245). -/

namespace Sys2Proof.Machine

/-! ### Elements of a tile -/

@[simp] theorem elem_setElem_same (y : Tile) (i j : Nat) (e : Acc) : (y.setElem i j e).elem i j = e := by
  simp [Tile.elem, Tile.setElem]

/-- The columns of a tile are 64, so that an element is named by its row and its column. -/
theorem elem_setElem_other (y : Tile) {i j k l : Nat} (e : Acc) (hj : j < 64) (hl : l < 64) (h : (k, l) ≠ (i, j)) :
    (y.setElem i j e).elem k l = y.elem k l := by
  have hkey : k * 64 + l ≠ i * 64 + j := fun hk => h (Prod.ext (by omega) (by omega))
  simp [Tile.elem, Tile.setElem, hkey]

/-- A tile with one of its elements, at a row and a column, changed. -/
def Tile.onElem (y : Tile) (q : Nat × Nat) (g : Acc → Acc) : Tile := y.setElem q.1 q.2 (g (y.elem q.1 q.2))

section
variable {α : Type} (pos : α → Nat × Nat) (g : α → Acc → Acc)

theorem seq_foldl_onElem (l : List α) (y : Tile) : (l.foldl (fun y a => y.onElem (pos a) (g a)) y).seq = y.seq :=
  List.foldlRecOn (motive := fun z : Tile => z.seq = y.seq) l _ rfl fun _ h _ _ => h

/-- Changes of other elements leave an element as it is. -/
theorem elem_foldl_onElem_other (l : List α) (y : Tile) {k m : Nat} (hcol : ∀ a ∈ l, (pos a).2 < 64) (hm : m < 64)
    (h : ∀ a ∈ l, (k, m) ≠ pos a) : (l.foldl (fun y a => y.onElem (pos a) (g a)) y).elem k m = y.elem k m :=
  List.foldlRecOn (motive := fun z : Tile => z.elem k m = y.elem k m) l _ rfl fun _ hz a ha =>
    (elem_setElem_other _ _ (hcol a ha) hm (h a ha)).trans hz

/-- Of changes of different elements, each finds its element as it was before them all, and leaves it changed. -/
theorem elem_foldl_onElem_mem (l : List α) (y : Tile) (hcol : ∀ a ∈ l, (pos a).2 < 64) (hdiff : l.Pairwise fun a b => pos a ≠ pos b)
    {a : α} (ha : a ∈ l) : (l.foldl (fun y a => y.onElem (pos a) (g a)) y).elem (pos a).1 (pos a).2 = g a (y.elem (pos a).1 (pos a).2) := by
  induction l generalizing y with
  | nil => cases ha
  | cons b l ih =>
    obtain ⟨hb, hl⟩ := List.pairwise_cons.1 hdiff
    obtain ⟨hbcol, hlcol⟩ := List.forall_mem_cons.1 hcol
    rw [List.foldl_cons]
    obtain rfl | ha := List.mem_cons.1 ha
    · rw [elem_foldl_onElem_other pos g l _ hlcol hbcol hb]
      exact elem_setElem_same y _ _ _
    · rw [ih _ hlcol hl ha]
      exact congrArg (g a) (elem_setElem_other y _ hbcol (hlcol a ha) (hb a ha).symm)

end

/-! ### A row written (R245) -/

/-- A tile with a row's elements set, which are then free of sticky bits. -/
def Tile.putRow (y : Tile) (row : Nat) (cols : Tab (BitVec 256)) : Tile :=
  cols.foldl (fun y q => y.setElem row q.1 ⟨q.2, false, false, false, false⟩) y

section
variable (y : Tile) (row : Nat) (cols : Tab (BitVec 256))

theorem putRow_eq : y.putRow row cols = cols.foldl (fun y q => y.onElem (row, q.1) fun _ => ⟨q.2, false, false, false, false⟩) y := rfl

theorem putRow_seq : (y.putRow row cols).seq = y.seq :=
  seq_foldl_onElem (fun q : Nat × BitVec 256 => (row, q.1)) (fun q _ => ⟨q.2, false, false, false, false⟩) cols y

variable (hcols : ∀ q ∈ cols, q.1 < 64)
include hcols

theorem putRow_elem (hdiff : cols.Pairwise fun x z => x.1 ≠ z.1) {j : Nat} {v : BitVec 256} (h : (j, v) ∈ cols) :
    (y.putRow row cols).elem row j = ⟨v, false, false, false, false⟩ := by
  rw [putRow_eq]
  exact elem_foldl_onElem_mem (fun q => (row, q.1)) (fun q _ => ⟨q.2, false, false, false, false⟩) cols y hcols
    (hdiff.imp fun hne heq => hne (congrArg Prod.snd heq)) h

theorem putRow_elem_other {i j : Nat} (hi : i ≠ row) (hj : j < 64) : (y.putRow row cols).elem i j = y.elem i j := by
  rw [putRow_eq]
  exact elem_foldl_onElem_other (fun q => (row, q.1)) (fun q _ => ⟨q.2, false, false, false, false⟩) cols y hcols hj
    fun _ _ heq => hi (congrArg Prod.fst heq)

end

/-! ### An operation on the elements of its lanes (R109, R242) -/

/-- One element of an operation, from the panels that it has read. -/
def MmaOp.elementAt (op : MmaOp) (q : Nat × Nat) (e : Acc) : Acc :=
  op.element e q.1 q.2 ((op.panel false).getD q.1 []) ((op.panel true).getD q.2 [])

theorem apply_eq (op : MmaOp) (y : Tile) :
    op.apply y = (lanesOf op.mask ×ˢ lanesOf op.mask).foldl (fun y q => y.onElem q (op.elementAt q)) y := by
  simp only [SProd.sprod, List.product, List.foldl_flatMap, List.foldl_map]
  rfl

/-- An operation changes the elements whose row and column are lanes that signed, and no others. -/
theorem apply_elem (op : MmaOp) (y : Tile) {i j : Nat} (hj : j < 64) : (op.apply y).elem i j =
    if op.mask.getLsbD i && op.mask.getLsbD j then
      op.element (y.elem i j) i j ((op.panel false).getD i []) ((op.panel true).getD j []) else y.elem i j := by
  have hmem : ∀ q, q ∈ lanesOf op.mask ×ˢ lanesOf op.mask ↔ op.mask.getLsbD q.1 = true ∧ op.mask.getLsbD q.2 = true := fun q => by
    rw [List.mem_product, mem_lanesOf, mem_lanesOf]
  have hcol : ∀ q ∈ lanesOf op.mask ×ˢ lanesOf op.mask, q.2 < 64 := fun q hq => lane_lt _ _ ((hmem q).1 hq).2
  have hnodup : (lanesOf op.mask).Nodup := List.nodup_range.filter _
  rw [apply_eq]
  split
  · next h =>
    exact elem_foldl_onElem_mem (a := (i, j)) id op.elementAt _ y hcol (hnodup.product hnodup) ((hmem (i, j)).2 (Bool.and_eq_true_iff.1 h))
  · next h =>
    exact elem_foldl_onElem_other id op.elementAt _ y hcol hj fun q hq heq => h (by
      rw [id] at heq
      exact Bool.and_eq_true_iff.2 ((hmem (i, j)).1 (heq ▸ hq)))

/-! ### A row read out (R111, R245) -/

theorem laneBit_getLsbD (l j : Nat) : (laneBit l).getLsbD j = (decide (j < 64) && decide (l = j)) := by
  rw [laneBit, BitVec.getLsbD_ofNat, Nat.testBit_two_pow]

theorem find_foldl_put_other {α : Type} (ls : List Nat) (t : Tab α) (x : α) {k : Nat} (h : k ∉ ls) :
    (ls.foldl (fun t l => t.put l x) t).find k = t.find k :=
  List.foldlRecOn (motive := fun u => Tab.find u k = t.find k) ls _ rfl fun u hu l hl =>
    (tab_find_put_other u l k x fun hk => h (hk ▸ hl)).trans hu

/-- A lane given its value of a read, and the flags of its readout. -/
def Res.readLane (r : Res) (q : Nat × DWord × BitVec 5) : Res :=
  { r.give (laneBit q.1) (q.2.1.setWidth 128) with flags := r.flags ||| q.2.2 }

theorem readLane_find_same (r : Res) (l : Nat) (x : DWord × BitVec 5) (hl : r.lanes.getLsbD l = true) :
    (r.readLane (l, x)).vals.find l = some (x.1.setWidth 128) := by
  refine find_foldl_put _ _ _ _ (Or.inl ((mem_lanesOf _ l).2 ?_))
  rw [BitVec.getLsbD_and, laneBit_getLsbD, hl]
  simpa using lane_lt _ _ hl

theorem readLane_find_other (r : Res) {k l : Nat} (x : DWord × BitVec 5) (h : k ≠ l) : (r.readLane (l, x)).vals.find k = r.vals.find k := by
  refine find_foldl_put_other _ _ _ fun hk => ?_
  rw [mem_lanesOf, BitVec.getLsbD_and, laneBit_getLsbD] at hk
  simp [Ne.symm h] at hk

/-- Each of some lanes of a result holds its value once all of them have been given theirs. -/
theorem foldl_readLane_find (f : Nat → DWord × BitVec 5) (ls : List Nat) (r : Res) {l : Nat} (hl : r.lanes.getLsbD l = true)
    (h : l ∈ ls ∨ r.vals.find l = some ((f l).1.setWidth 128)) :
    ((ls.map fun l => (l, f l)).foldl Res.readLane r).vals.find l = some ((f l).1.setWidth 128) := by
  induction ls generalizing r with
  | nil => exact h.resolve_left List.not_mem_nil
  | cons k ls ih =>
    refine ih (r.readLane (k, f k)) hl ?_
    by_cases hk : l = k
    · subst hk
      exact Or.inr (readLane_find_same r l (f l) hl)
    · rw [readLane_find_other r (f k) hk]
      exact h.imp_left fun hmem => (List.mem_cons.1 hmem).resolve_left hk

/-- The only result of a warp slot, changed. -/
theorem onRes_alone {wp : Warp} {r : Res} (h : wp.results = [r]) (f : Res → Res) : (wp.onRes r.id f).results = [f r] := by
  simp [Warp.onRes, h]

end Sys2Proof.Machine
end

section
/-! SUPPORT. `MMA_TILE_WRITE`: the head of a tile's sequence takes its effect, or one read of an operation is performed (R199, R243, R244). -/

namespace Sys2Proof.Machine

/-! ### A tile of the module -/

theorem tile_onTile_same (s : State) {core t : Nat} (f : Tile → Tile) (h : t < (s.core core).tiles.length) :
    (s.onTile core t f).tile core t = f (s.tile core t) := by
  rw [State.tile, State.onTile, core_onCore_same]
  exact getD_setAt _ _ _ _ h

theorem tile_onWarp (s : State) (w : Nat) (f : Warp → Warp) (core t : Nat) : (s.onWarp w f).tile core t = s.tile core t := rfl

/-! ### The head of a tile's sequence (R243, R244) -/

theorem exec_mmaTileWrite (core n : Nat) (s : State) : exec (.mmaTileWrite core n) s = execMmaTileWrite core n s := rfl

theorem completes_tileHead {s t : State} {core n : Nat} {P : State → Prop} (h : s.tileHead core n = some t) (hP : P t) :
    Completes (.mmaTileWrite core n) s P :=
  ⟨t, by rw [exec_mmaTileWrite, execMmaTileWrite, h], hP⟩

section
variable {s : State} {core n : Nat} {rest : List TileOp}

theorem tileHead_zero (h : (s.tile core n).seq = .zero :: rest) :
    s.tileHead core n = some (s.onTile core n fun y => { y with elems := [], seq := rest }) := by
  simp only [State.tileHead, h]

theorem tileHead_write {row : Nat} {cols : Tab (BitVec 256)} (h : (s.tile core n).seq = .write row cols :: rest) :
    s.tileHead core n = some (s.onTile core n fun y => ({ y with seq := rest } : Tile).putRow row cols) := by
  simp only [State.tileHead, h]
  rfl

theorem tileHead_read {w id row : Nat} {m : Mask} {ty : Ty} (h : (s.tile core n).seq = .read w id row m ty :: rest) :
    s.tileHead core n = some ((s.onTile core n fun y => { y with seq := rest }).onWarp w fun wp => wp.onRes id fun r =>
      ((lanesOf m).map fun l => (l, ((s.tile core n).elem row l).readOut ty)).foldl Res.readLane r) := by
  simp only [State.tileHead, h]
  rfl

variable {op : MmaOp} (h : (s.tile core n).seq = .mma op :: rest) (hstale : s.opStale op = false)
include h hstale

theorem tileHead_full (hnext : op.next = .full) (hfirst : s.opFirst core op = true) :
    s.tileHead core n = some (s.onTile core n fun y => { op.apply y with seq := rest }) := by
  simp [State.tileHead, h, hstale, hnext, hfirst]

theorem tileHead_reads {l : List OpRead} (hnext : op.next = .reads l) : s.tileHead core n = none := by
  simp [State.tileHead, h, hstale, hnext]

end

/-! ### A read of an operation (R243) -/

section
variable {s : State} {core n : Nat} (h : s.tileHead core n = none)
include h

/-- The only read that can be performed is performed. -/
theorem completes_opRead {op : MmaOp} {o : OpRead} {P : State → Prop} (hreads : s.tileReads core n = [(op, o)]) (hP : P (s.opRead core op o)) :
    Completes (.mmaTileWrite core n) s P :=
  ⟨_, by rw [exec_mmaTileWrite, execMmaTileWrite, h, hreads, State.pick], hP⟩

/-- Without a read that can be performed nothing changes. -/
theorem completes_noRead {P : State → Prop} (hreads : s.tileReads core n = []) (hP : P s) : Completes (.mmaTileWrite core n) s P :=
  ⟨_, by rw [exec_mmaTileWrite, execMmaTileWrite, h, hreads, State.pick], hP⟩

end

/-! ### What a read of pieces leaves (R166) -/

/-- Steady states with the same scratchpads. -/
structure Unwritten (s t : State) : Prop extends Steady s t where
  spad : t.spad = s.spad

theorem Unwritten.refl (s : State) : Unwritten s s := ⟨Steady.refl s, rfl⟩

theorem Unwritten.trans {s t u : State} (a : Unwritten s t) (b : Unwritten t u) : Unwritten s u :=
  ⟨a.toSteady.trans b.toSteady, b.spad.trans a.spad⟩

theorem unwritten_foldl {α : Type} {f : State → α → State} (hf : ∀ s a, Unwritten s (f s a)) (l : List α) (s : State) :
    Unwritten s (l.foldl f s) :=
  List.foldlRecOn l f (Unwritten.refl s) fun _ h a _ => h.trans (hf _ a)

theorem msix_spad (s : State) (f v : Nat) : (s.msix f v).spad = s.spad := by
  unfold State.msix
  dsimp only
  split <;> rfl

theorem post_spad (s : State) (code : Nat) (i : LogInfo) : (s.post code i).spad = s.spad := by
  have hwake : (if causeDest code = .porter then s.later (.porterWake i.die) else s).spad = s.spad := by
    split <;> rfl
  unfold State.post
  rw [← hwake]
  generalize (if causeDest code = .porter then s.later (.porterWake i.die) else s) = t
  dsimp only
  split
  · rfl
  · rw [msix_spad, onFn_spad]

theorem idlePoison_unwritten (s : State) (die pa n : Nat) : Unwritten s (s.idlePoison die pa n) :=
  unwritten_foldl (fun t _ => ⟨(post_quiet t _ _).toSteady, post_spad t _ _⟩) _ s

theorem recall_unwritten (s : State) (line : Nat) : Unwritten s (s.recall line) := by
  unfold State.recall
  dsimp only
  split
  · exact Unwritten.refl s
  · next k _ =>
    have hposted : Unwritten s (if ((s.l1.find (l1Key (coreNo (homeDie (line * 128)) k) line)).map L1Line.dirty).getD false then
        s.idlePoison (homeDie (line * 128)) (line * 128) 128 else s) := by
      split
      · exact idlePoison_unwritten s _ _ _
      · exact Unwritten.refl s
    exact hposted.trans ⟨⟨rfl, rfl, rfl, rfl, rfl, rfl⟩, rfl⟩

theorem roomL2_unwritten (s : State) (line : Nat) : Unwritten s (s.roomL2 line) := by
  unfold State.roomL2
  dsimp only
  split
  · exact (idlePoison_unwritten s _ _ _).trans ⟨⟨rfl, rfl, rfl, rfl, rfl, rfl⟩, rfl⟩
  · exact Unwritten.refl s

theorem useL2_unwritten (s : State) (line : Nat) (hint : Hint) : Unwritten s (s.useL2 line hint) := by
  unfold State.useL2
  split
  · exact Unwritten.refl s
  · split
    · exact ⟨⟨rfl, rfl, rfl, rfl, rfl, rfl⟩, rfl⟩
    · exact (roomL2_unwritten s line).trans ⟨⟨rfl, rfl, rfl, rfl, rfl, rfl⟩, rfl⟩

/-- A read of a piece without a translation leaves memory, the scratchpads and what stands on the cores as they were. -/
theorem readTouch_unwritten (s : State) (core : Option Nat) (q : Piece) (h : q.xlat = none) : Unwritten s (s.readTouch core [q]) := by
  rw [State.readTouch, List.foldl_cons, List.foldl_nil, h]
  exact unwritten_foldl (fun t l => (recall_unwritten t l).trans (useL2_unwritten _ l _)) _ s

/-! ### What an operation has read (R243) -/

/-- The operation of a given number in the order of issue, changed in a tile's sequence. -/
def TileOp.onOrder (order : Nat) (f : MmaOp → MmaOp) (o : TileOp) : TileOp :=
  match o with
  | .mma op => if op.order = order then .mma (f op) else o
  | o => o

theorem tile_onOp (s : State) (core n order : Nat) (f : MmaOp → MmaOp) : (s.onOp core order f).tile core n =
    { s.tile core n with seq := (s.tile core n).seq.map (TileOp.onOrder order f) } := by
  have honOp : s.onOp core order f = s.onCore core fun c =>
      { c with tiles := c.tiles.map fun t : Tile => { t with seq := t.seq.map (TileOp.onOrder order f) } } := rfl
  rw [honOp, State.tile, core_onCore_same]
  exact List.getD_map (s.core core).tiles ⟨none, [], []⟩ fun t : Tile => { t with seq := t.seq.map (TileOp.onOrder order f) }

/-- The only piece of an operand line's read has no translation and no poison: the bytes that it reads join the operation in its tile's
sequence. -/
theorem opRead_line {s : State} {core n k : Nat} {va : DWord} {b : Nat} {op : MmaOp} {q : Piece} {rest : List TileOp}
    (hseq : (s.tile core n).seq = .mma op :: rest) (hpieces : s.opPieces core op (.line k va b) = .ok [q]) (hxlat : q.xlat = none)
    (hpoison : s.piecePoison [q] = none) : ∃ t, s.opRead core op (.line k va b) = t ∧ t.mem = s.mem ∧ t.spad = s.spad ∧
      (t.tile core n).elems = (s.tile core n).elems ∧
      ∃ bad tail, (t.tile core n).seq = .mma { op with got := op.got.put k (s.pieceBytes [q], bad) } :: tail := by
  have ht := readTouch_unwritten s (some core) q hxlat
  have htile : (s.readTouch (some core) [q]).tile core n = s.tile core n := by rw [State.tile, State.core, ht.cores]; rfl
  simp only [State.opRead, hpieces, hpoison]
  refine ⟨_, rfl, ht.mem, ht.spad, ?_, ?_⟩
  · rw [tile_onOp, htile]
  · rw [tile_onOp, htile, hseq, List.map_cons, TileOp.onOrder, if_pos rfl]
    exact ⟨_, _, rfl⟩

end Sys2Proof.Machine
end

section
/-! SUPPORT. A complete landing gives its operation to a tile, alone or with its gang (R239, R240, R244). -/

namespace Sys2Proof.Machine

/-! ### A landing of the module -/

theorem landing_setLanding_same (s : State) {core n : Nat} (d : Landing) (h : n < (s.core core).landings.length) :
    (s.setLanding core n d).landing core n = d := by
  rw [State.landing, State.setLanding, core_onCore_same]
  exact getD_setAt _ _ _ _ h

theorem tile_setLanding (s : State) (core n t : Nat) (d : Landing) : (s.setLanding core n d).tile core t = s.tile core t := by
  rw [State.tile, State.setLanding, core_onCore_same]
  rfl

theorem landings_onTile (s : State) (core t : Nat) (f : Tile → Tile) : ((s.onTile core t f).core core).landings = (s.core core).landings := by
  rw [State.onTile, core_onCore_same]

/-! ### The operation of a landing -/

/-- The operation that landing `n` gives to a tile of group `gid`, at a place in its gang. -/
def State.landingOp (s : State) (n gid gi gj : Nat) (d : Landing) : MmaOp :=
  ⟨n, d.cell, d.recA, d.recB, d.koff, d.mask, d.signers, gi, gj, d.warp, d.lbase, gid, s.genOf gid, s.nextNo, [], []⟩

section
variable {s : State} {core n gid t0 : Nat} {d : Landing} (hland : s.landing core n = d)
include hland

theorem issueLanding_eq (hgroup : s.landingGroup d = some gid) (htile : s.tileOf gid d.tile = some t0) (gi gj : Nat) :
    s.issueLanding core n gi gj = (({ s with nextNo := s.nextNo + 1 } : State).onTile core t0 fun y =>
      { y with seq := y.seq ++ [.mma (s.landingOp n gid gi gj d)] }).setLanding core n Landing.reset := by
  subst hland
  simp only [State.issueLanding, hgroup, htile]
  rfl

/-- The landing is free, its operation is the last of the tile's sequence, and memory and the warp slots are as they were. -/
theorem issueLanding_issued (hgroup : s.landingGroup d = some gid) (htile : s.tileOf gid d.tile = some t0)
    (hn : n < (s.core core).landings.length) (ht0 : t0 < (s.core core).tiles.length) (gi gj : Nat) :
    ∃ t, s.issueLanding core n gi gj = t ∧ t.landing core n = Landing.reset ∧ t.mem = s.mem ∧ t.warps = s.warps ∧
      t.tile core t0 = { s.tile core t0 with seq := (s.tile core t0).seq ++ [.mma (s.landingOp n gid gi gj d)] } := by
  refine ⟨_, issueLanding_eq hland hgroup htile gi gj, ?_, rfl, rfl, ?_⟩
  · refine landing_setLanding_same _ _ ?_
    rw [landings_onTile]
    exact hn
  · exact (tile_setLanding _ core n t0 _).trans (tile_onTile_same _ _ ht0)

variable (hst : d.st = .complete)
include hst

theorem completeLanding_complete : s.completeLanding core n = s := by
  simp [State.completeLanding, hland, hst]

variable (hgroup : s.landingGroup d = some gid) (hops : s.opsOf core n < 2) (hbehind : s.landingBehind core n = false)
include hgroup hops hbehind

/-- `LANDING_ISSUE` of a complete landing outside a gang (R239). -/
theorem execLandingIssue_issues (hgang : s.inGang gid = false) : execLandingIssue core n s = .next (s.issueLanding core n 0 0) := by
  simp [execLandingIssue, completeLanding_complete hland hst, hland, hst, hgroup, hgang, hops, hbehind]

variable {x : Group} (hcore : x.core = core)
include hcore

/-- The landing of a gang's only member issues, at the member's place (R240). -/
theorem gangIssue_alone : ∃ gn, s.gangIssue n [(gid, x)] = s.issueLanding core n (x.gmem / gn) (x.gmem % gn) := by
  subst hcore
  have hops : s.opsOf x.core n ≤ 1 := Nat.le_of_lt_succ hops
  have hsame : d.differs d.cell d.tile d.recA d.recB d.koff = none := by simp [Landing.differs]
  refine ⟨((s.launches.find x.launch).map Launch.gn).getD 1, ?_⟩
  simp [State.gangIssue, completeLanding_complete hland hst, hland, hst, hgroup, hsame, hops, hbehind]

/-- `GANG_LANDING_ISSUE` of a unit with one gang of one member, the first (R240). -/
theorem execGangLandingIssue_issues {u : Nat} (hgang : s.inGang gid = true) (hgangs : s.gangs u = [[(gid, x)]]) (hfirst : x.gmem = 0) :
    execGangLandingIssue u n s = .next (s.issueLanding core n 0 0) := by
  obtain ⟨gn, hissue⟩ := gangIssue_alone hland hst hgroup hops hbehind hcore
  rw [hfirst, Nat.zero_div, Nat.zero_mod] at hissue
  simp [execGangLandingIssue, hgangs, hgang, hissue]

end

theorem completes_landingIssue {s t : State} {core n : Nat} {P : State → Prop} (h : execLandingIssue core n s = .next t) (hP : P t) :
    Completes (.landingIssue core n) s P := ⟨t, h, hP⟩

theorem completes_gangLandingIssue {s t : State} {u n : Nat} {P : State → Prop} (h : execGangLandingIssue u n s = .next t) (hP : P t) :
    Completes (.gangLandingIssue u n) s P := ⟨t, h, hP⟩

/-- Settles O39. The head of a tile's sequence is one `tileHead` lemma per operation; a row written is `putRow_elem`, a row read out is
`foldl_readLane_find`, an operation on the elements of its lanes is `apply_elem`, and a line read is `opRead_line`. A landing that issues, alone
or as its gang, is `issueLanding_issued`. -/
theorem landingsAndTiles : Obligations.LandingsAndTiles := by
  unfold Obligations.LandingsAndTiles
  refine ⟨?tiles, ?landings⟩
  case tiles =>
    intro s core t0 rest y ht0
    have hon := fun f : Tile → Tile => tile_onTile_same s f ht0
    refine ⟨fun hseq => ?zero, fun row cols hseq hdiff hcols => ?write, fun w id row m ty r hseq hres hid hlanes => ?read,
      fun op hseq hstale hnext hfirst => ?full, fun op l k va n q hseq hstale hnext hreads hpieces hxlat hpoison => ?line,
      fun op l hseq hstale hnext hreads => ?waits⟩
    case zero =>
      refine completes_tileHead (tileHead_zero hseq) ?_
      rw [hon]
      exact ⟨rfl, fun _ _ => rfl⟩
    case write =>
      refine completes_tileHead (tileHead_write hseq) ?_
      rw [hon]
      exact ⟨putRow_seq _ row cols, fun j v hjv => putRow_elem _ row cols hcols hdiff hjv,
        fun i j hi hj => putRow_elem_other _ row cols hcols hi hj⟩
    case read =>
      subst hid hlanes
      refine completes_tileHead (tileHead_read hseq) ⟨(tile_onWarp _ _ _ _ _).trans (hon _), ?_⟩
      rw [warp_onWarp_same]
      refine ⟨_, onRes_alone hres _, fun l hl => ?_⟩
      exact foldl_readLane_find (fun l => (y.elem row l).readOut ty) _ r hl (Or.inl ((mem_lanesOf _ l).2 hl))
    case full =>
      refine completes_tileHead (tileHead_full hseq hstale hnext hfirst) ?_
      rw [hon]
      exact ⟨rfl, rfl, fun i j hj => apply_elem op y hj⟩
    case line =>
      obtain ⟨t, ht, hmem, hspad, helems, hhead⟩ := opRead_line hseq hpieces hxlat hpoison
      refine completes_opRead (tileHead_reads hseq hstale hnext) hreads ?_
      rw [ht]
      exact ⟨hmem, hspad, fun i j => by rw [Tile.elem, helems]; rfl, hhead⟩
    case waits => exact completes_noRead (tileHead_reads hseq hstale hnext) hreads rfl
  case landings =>
    intro s core n gid t0 d op hland hst hbehind hn hgroup htile ht0 hops done
    have hissued : done (s.issueLanding core n 0 0) := by
      obtain ⟨t, ht, hissued⟩ := issueLanding_issued hland hgroup htile hn ht0 0 0
      rw [ht]
      exact hissued
    exact ⟨fun hgang => completes_landingIssue (execLandingIssue_issues hland hst hgroup hops hbehind hgang) hissued,
      fun u x hgang hgangs hcore hfirst =>
        completes_gangLandingIssue (execGangLandingIssue_issues hland hst hgroup hops hbehind hcore hgang hgangs hfirst) hissued⟩

end Sys2Proof.Machine
end

section
/-! SUPPORT. The shared shapes of integer, logical and shifting instructions, each said once (R129 to R139, R159). -/

namespace Sys2Proof.Machine

/-! ### Destinations of well-formed instructions -/

theorem is64_eq_is2 (ty : Ty) : ty.is64 = Ty.is2 ty := by cases ty <;> rfl

section
variable {x y wide : Bool} {ty : Ty} {d a b c : Reg}

theorem isSized_of_wf3 (h : wf3 wide d a b = true) : d.isSized wide = true := by
  simp only [wf3, Bool.and_eq_true] at h
  exact h.1.1

theorem isSized_of_wf2 (h : wf2 wide d a = true) : d.isSized wide = true := by
  simp only [wf2, Bool.and_eq_true] at h
  exact h.1

theorem isSized_of_wfShift (h : wfShift wide d a b = true) : d.isSized wide = true := by
  simp only [wfShift, Bool.and_eq_true] at h
  exact h.1.1

/-- A typed instruction of two sources: its destination fits its type (R130). -/
theorem isSized_of_typed2 (h : (x && wf3 ty.is64 d a b) = true) : d.isSized (Ty.is2 ty) = true :=
  is64_eq_is2 ty ▸ isSized_of_wf3 (Bool.and_eq_true_iff.1 h).2

/-- A typed instruction of one source. -/
theorem isSized_of_typed1 (h : (x && wf2 ty.is64 d a) = true) : d.isSized (Ty.is2 ty) = true :=
  is64_eq_is2 ty ▸ isSized_of_wf2 (Bool.and_eq_true_iff.1 h).2

/-- A typed instruction of two sources and a further operand. -/
theorem isSized_of_typed3 (h : (x && wf3 ty.is64 d a b && y) = true) : d.isSized (Ty.is2 ty) = true :=
  isSized_of_typed2 (Bool.and_eq_true_iff.1 h).1

/-- A typed instruction of a source, a position and a further operand. -/
theorem isSized_of_typedShift (h : (x && wfShift ty.is64 d a b && y) = true) : d.isSized (Ty.is2 ty) = true :=
  is64_eq_is2 ty ▸ isSized_of_wfShift (Bool.and_eq_true_iff.1 (Bool.and_eq_true_iff.1 h).1).2

/-- An instruction of two sources and a further operand. -/
theorem isSized_of_wf3_and (h : (wf3 wide d a b && y) = true) : d.isSized wide = true := isSized_of_wf3 (Bool.and_eq_true_iff.1 h).1

/-- The types of the high products are narrow, and their destinations single registers (R130). -/
theorem isSized_of_high2 (h : (ty.isHigh && d.isVec && x && y) = true) : d.isSized (Ty.is2 ty) = true := by
  simp only [Bool.and_eq_true] at h
  obtain ⟨⟨⟨hty, hd⟩, -⟩, -⟩ := h
  have hnarrow : Ty.is2 ty = false := by cases ty <;> cases hty <;> rfl
  rw [hnarrow]
  exact hd

end

/-! ### The shapes -/

section
variable {s : State} {i : Instr} {p : Pre} {lat : Nat} {wide wideA sat : Bool} {ty : Ty} {d a b c : Reg} {imm : BitVec 24}

/-- A lane-wise instruction gives its lanes its values. -/
theorem alu_computes {t : Warp → Shape} (f : Warp → Nat → DWord) (hd : i.wf = true → d.isSized wide = true)
    (hexec : exec i s = .next (s.alu p lat wide d t f)) : Computes s i p lat wide d (f s.curWarp) := fun hwf =>
  ⟨_, hexec, alu_gives s p lat wide d t f (isSized_ok wide d (hd hwf))⟩

/-- A lane-wise test gives its lanes its bits. -/
theorem aluPred_tests (g : Warp → Nat → Bool) (hexec : exec i s = .next (s.aluPred p lat d g)) : Tests s i p lat d (g s.curWarp) := fun _ =>
  ⟨_, hexec, aluPred_gives s p lat d g⟩

theorem intBin_computes {shape : Bool → Shape → Shape → Shape} (op : Int → Int → Int) (hd : i.wf = true → d.isSized (Ty.is2 ty) = true)
    (hexec : exec i s = .next (s.intBin p lat ty sat d a b shape op)) : Computes s i p lat (Ty.is2 ty) d fun l =>
      intResult ty sat (op (readInt ty (s.curWarp.val (Ty.is2 ty) a l)) (readInt ty (s.curWarp.val (Ty.is2 ty) b l))) :=
  alu_computes _ hd hexec

theorem intBinImm_computes {shape : Bool → Shape → Shape → Shape} (op : Int → Int → Int) (hd : i.wf = true → d.isSized (Ty.is2 ty) = true)
    (hexec : exec i s = .next (s.intBinImm p lat ty sat d a imm shape op)) : Computes s i p lat (Ty.is2 ty) d fun l =>
      intResult ty sat (op (readInt ty (s.curWarp.val (Ty.is2 ty) a l)) (readInt ty (immSigned imm))) :=
  alu_computes _ hd hexec

theorem intTern_computes {shape : Bool → Shape → Shape → Shape → Shape} (op : Int → Int → Int → Int)
    (hd : i.wf = true → d.isSized (Ty.is2 ty) = true) (hexec : exec i s = .next (s.intTern p lat ty sat d a b c shape op)) :
    Computes s i p lat (Ty.is2 ty) d fun l => intResult ty sat (op (readInt ty (s.curWarp.val (Ty.is2 ty) a l))
      (readInt ty (s.curWarp.val (Ty.is2 ty) b l)) (readInt ty (s.curWarp.val (Ty.is2 ty) c l))) :=
  alu_computes _ hd hexec

theorem intUn_computes {shape : Bool → Shape → Shape} (op : Int → Int) (hd : i.wf = true → d.isSized (Ty.is2 ty) = true)
    (hexec : exec i s = .next (s.intUn p lat ty sat d a shape op)) : Computes s i p lat (Ty.is2 ty) d fun l =>
      intResult ty sat (op (readInt ty (s.curWarp.val (Ty.is2 ty) a l))) :=
  alu_computes _ hd hexec

theorem bitBin_computes (op : DWord → DWord → DWord) (hd : i.wf = true → d.isSized wide = true)
    (hexec : exec i s = .next (s.bitBin p wide d a b op)) : Computes s i p 4 wide d fun l =>
      op (s.curWarp.val wide a l) (s.curWarp.val wide b l) :=
  alu_computes _ hd hexec

theorem bitImm_computes (op : DWord → DWord → DWord) (hd : i.wf = true → d.isSized wide = true)
    (hexec : exec i s = .next (s.bitImm p wide d a imm op)) : Computes s i p 4 wide d fun l =>
      op (s.curWarp.val wide a l) (imm.setWidth 64) :=
  alu_computes _ hd hexec

theorem bitUn_computes (op : DWord → DWord) (hd : i.wf = true → d.isSized wide = true)
    (hexec : exec i s = .next (s.bitUn p wide wideA d a op)) : Computes s i p 4 wide d fun l => op (s.curWarp.val wideA a l) :=
  alu_computes _ hd hexec

theorem shiftOp_computes (op : ShiftOp) (hd : i.wf = true → d.isSized wide = true)
    (hexec : exec i s = .next (s.shiftOp op p wide d a b)) : Computes s i p 4 wide d fun l =>
      shiftVal op wide (s.curWarp.val wide a l) (s.curWarp.val32 b l).toNat :=
  alu_computes _ hd hexec

theorem shiftImm_computes (op : ShiftOp) (hd : i.wf = true → d.isSized wide = true)
    (hexec : exec i s = .next (s.shiftImm op p wide d a imm)) : Computes s i p 4 wide d fun l =>
      shiftVal op wide (s.curWarp.val wide a l) imm.toNat :=
  alu_computes _ hd hexec

/-- Add with carry and subtract with borrow give their lanes a sum or a difference, and its carry (R131). -/
theorem carryOp_gives {sub : Bool} (hd : d.isVec = true) :
    Gives s (s.carryOp p sub sat d a b c) (s.curWarp.execMask p) 4 false d
      (fun l => (carryResult sub sat (s.curWarp.val32 a l) (s.curWarp.val32 b l) (s.curWarp.bit c l)).1) c
      (fun l => (carryResult sub sat (s.curWarp.val32 a l) (s.curWarp.val32 b l) (s.curWarp.bit c l)).2) 0 :=
  aluCarry_gives s p 4 d c _ _ ((isSized_ok false d hd).imp_right fun ⟨n, hn, _⟩ => ⟨n, hn⟩)

end

end Sys2Proof.Machine
end

section
/-! SUPPORT. Integer arithmetic on exact integers (R129, R130). -/

namespace Sys2Proof.Machine

/-- Settles O4: each instruction is one of the four shapes of integer operations at its own operation on exact integers. -/
theorem integerArithmetic : Obligations.IntegerArithmetic := by
  unfold Obligations.IntegerArithmetic
  intro s p ty sat d a b c imm A B C I out
  refine ⟨?iadd, ?iaddImm, ?isub, ?imul, ?imulImm, ?imad, ?imulh, ?imadh, ?imin, ?iminImm, ?imax, ?imaxImm, ?iabs, ?ineg⟩
  case iadd => exact intBin_computes (· + ·) isSized_of_typed2 rfl
  case iaddImm => exact intBinImm_computes (· + ·) isSized_of_typed1 rfl
  case isub => exact intBin_computes (· - ·) isSized_of_typed2 rfl
  case imul => exact intBin_computes (· * ·) isSized_of_typed2 rfl
  case imulImm => exact intBinImm_computes (· * ·) isSized_of_typed1 rfl
  case imad => exact intTern_computes (fun x y z => x * y + z) isSized_of_typed3 rfl
  case imulh => exact intBin_computes (fun x y => x * y / 2 ^ 32) isSized_of_high2 rfl
  case imadh => exact intTern_computes (fun x y z => x * y / 2 ^ 32 + z) (fun h => isSized_of_high2 (Bool.and_eq_true_iff.1 h).1) rfl
  case imin => exact intBin_computes (fun x y => if x ≤ y then x else y) isSized_of_typed2 rfl
  case iminImm => exact intBinImm_computes (fun x y => if x ≤ y then x else y) isSized_of_typed1 rfl
  case imax => exact intBin_computes (fun x y => if x ≤ y then y else x) isSized_of_typed2 rfl
  case imaxImm => exact intBinImm_computes (fun x y => if x ≤ y then y else x) isSized_of_typed1 rfl
  case iabs =>
    simp only [Int.abs_eq_natAbs, out]
    exact intUn_computes (fun x => (x.natAbs : Int)) isSized_of_typed1 rfl
  case ineg => exact intUn_computes (fun x => -x) isSized_of_typed1 rfl

end Sys2Proof.Machine
end

section
/-! SUPPORT. Carry chains, integer comparisons and predicate logic (R131, R132, R139). -/

namespace Sys2Proof.Machine

/-- The destination of a carry instruction is a single register (R131). -/
theorem isVec_of_carry {x y z d : Bool} {r : Reg} (h : (d && r.isVec && x && y && z) = true) : r.isVec = true := by
  simp only [Bool.and_eq_true] at h
  obtain ⟨⟨⟨⟨-, hr⟩, -⟩, -⟩, -⟩ := h
  exact hr

/-- A predicate's bit as its weight in the index of a truth table. -/
theorem tableBit (x : Bool) (k : Nat) : k * (if x = true then 1 else 0) = if x = true then k else 0 := by cases x <;> simp

/-- Settles O5: the sums with a carry are `carryOp_gives`, the tests `aluPred_tests`. -/
theorem carriesAndPredicates : Obligations.CarriesAndPredicates := by
  unfold Obligations.CarriesAndPredicates
  refine ⟨?carries, ?tests⟩
  case carries =>
    intro s p ty sat d a b c A B cin out
    refine ⟨fun hwf => ⟨_, rfl, ?_⟩, fun hwf => ⟨_, rfl, ?_⟩⟩
    · exact carryOp_gives (sub := false) (isVec_of_carry hwf)
    · exact carryOp_gives (sub := true) (isVec_of_carry hwf)
  case tests =>
    intro s p cond ty d a b c imm tt A B I holds n
    have hholds : holds = intCond cond := by
      funext x y
      cases cond <;> rfl
    refine ⟨?icmp, ?icmpImm, ?plop⟩
    case icmp =>
      rw [hholds]
      exact aluPred_tests (fun wp l => intCond cond (readInt ty (wp.val (Ty.is2 ty) a l)) (readInt ty (wp.val (Ty.is2 ty) b l))) rfl
    case icmpImm =>
      rw [hholds]
      exact aluPred_tests (fun wp l => intCond cond (readInt ty (wp.val (Ty.is2 ty) a l)) (readInt ty (immSigned imm))) rfl
    case plop =>
      simp only [n, tableBit]
      exact aluPred_tests (fun wp l =>
        tt.getLsbD ((if wp.bit a l then 4 else 0) + (if wp.bit b l then 2 else 0) + (if wp.bit c l then 1 else 0))) rfl

end Sys2Proof.Machine
end

section
/-! SUPPORT. Address sums, counts of bits and bit fields (R133, R136, R137). -/

namespace Sys2Proof.Machine

/-! ### Counts of bits -/

/-- The ones among the low `n` bits are the bits that are set there. -/
theorem countOnes_eq (x : Nat) : ∀ n, countOnes x n = ((List.range n).filter fun k => x.testBit k).length
  | 0 => rfl
  | n + 1 => by
    rw [countOnes, countOnes_eq x n, List.range_succ, List.filter_append, List.length_append, Nat.add_comm]
    cases h : x.testBit n <;> simp [h]

/-- The first number below `n + 1` that passes a test, or else `n + 1`. -/
theorem find_range_succ (q : Nat → Bool) (n : Nat) : ((List.range (n + 1)).find? q).getD (n + 1) =
    if q 0 = true then 0 else 1 + ((List.range n).find? fun k => q (k + 1)).getD n := by
  rw [List.range_succ_eq_map, List.find?_cons, List.find?_map]
  cases q 0 with
  | true => rfl
  | false =>
    change (Option.map _ ((List.range n).find? fun k => q (k + 1))).getD (n + 1) = _
    cases (List.range n).find? fun k => q (k + 1) <;> simp [Nat.add_comm]

/-- The zeros that lead below bit `n` end at the first bit from above that is set. -/
theorem leadZeros_eq (x : Nat) : ∀ n, leadZeros x n = ((List.range n).find? fun k => x.testBit (n - 1 - k)).getD n
  | 0 => rfl
  | n + 1 => by
    have hnext : (fun k => x.testBit (n - 1 - k)) = fun k => x.testBit (n + 1 - 1 - (k + 1)) := by
      funext k
      exact congrArg x.testBit (by omega)
    rw [leadZeros, leadZeros_eq x n, find_range_succ, hnext]
    rfl

/-- The zeros that trail from bit `k` on end at the first bit that is set. -/
theorem trailZeros_eq (x : Nat) : ∀ n k, trailZeros x k n = ((List.range n).find? fun j => x.testBit (k + j)).getD n
  | 0, _ => rfl
  | n + 1, k => by
    have hnext : (fun j => x.testBit (k + 1 + j)) = fun j => x.testBit (k + (j + 1)) := by
      funext j
      exact congrArg x.testBit (by omega)
    rw [trailZeros, trailZeros_eq x n (k + 1), find_range_succ, hnext]
    rfl

/-! ### Destinations -/

section
variable {x y z wide : Bool} {d : Reg}

theorem isSized_of_count (h : (d.isVec && x) = true) : d.isSized false = true := (Bool.and_eq_true_iff.1 h).1

theorem isSized_of_sum (h : (x && d.isPair && y && z) = true) : d.isSized true = true := by
  simp only [Bool.and_eq_true] at h
  obtain ⟨⟨⟨-, hd⟩, -⟩, -⟩ := h
  exact hd

end

/-- Settles O6: each is `alu_computes`; the counts of bits are `countOnes_eq`, `leadZeros_eq` and `trailZeros_eq`. -/
theorem addressesAndFields : Obligations.AddressesAndFields := by
  unfold Obligations.AddressesAndFields
  refine ⟨?sums, ?fields⟩
  case sums =>
    intro s p ty d a b imm
    refine ⟨?aadd, ?aaddImm⟩
    case aadd =>
      exact alu_computes (fun wp l => wp.val64 a l + BitVec.ofInt 64 (aaddIndex ty (wp.val32 b l) * (Ty.bits ty / 8 : Nat))) isSized_of_sum rfl
    case aaddImm =>
      exact alu_computes (fun wp l => wp.val64 a l + immSigned imm) (wide := true) (fun h => (Bool.and_eq_true_iff.1 h).1) rfl
  case fields =>
    intro s p wide ty d a b c w A count
    have hbit (l k : Nat) : (A l).getLsbD k = (A l).toNat.testBit k := rfl
    simp only [count, hbit, ← countOnes_eq, ← leadZeros_eq]
    refine ⟨?popc, ?clz, ?ctz, ?brev, ?bfx, ?bfi⟩
    case popc => exact bitUn_computes (fun x => BitVec.ofNat 64 (countOnes x.toNat (widthOf wide))) isSized_of_count rfl
    case clz => exact bitUn_computes (fun x => BitVec.ofNat 64 (leadZeros x.toNat (widthOf wide))) isSized_of_count rfl
    case ctz =>
      have htrail (l : Nat) := trailZeros_eq (A l).toNat w 0
      simp only [Nat.zero_add] at htrail
      simp only [← htrail]
      exact bitUn_computes (fun x => BitVec.ofNat 64 (trailZeros x.toNat 0 (widthOf wide))) isSized_of_count rfl
    case brev => exact bitUn_computes (fun x => if wide then x.reverse else ((loWord x).reverse).setWidth 64) isSized_of_wf2 rfl
    case bfx =>
      exact alu_computes (fun wp l => bfxVal ty (wp.val (Ty.is2 ty) a l) (wp.val32 b l) (wp.val32 c l)) isSized_of_typedShift rfl
    case bfi =>
      exact alu_computes (fun wp l => bfiVal wide (wp.val wide a l) (wp.val wide b l) (wp.val32 c l)) isSized_of_wf3_and rfl

end Sys2Proof.Machine
end

section
/-! SUPPORT. Logic, selection, permutation, shifts and rotations (R134, R135, R138, R159). -/

namespace Sys2Proof.Machine

/-- The destination of a permutation is a single register (R159). -/
theorem isSized_of_prmt {x y z : Bool} {d : Reg} (h : (d.isVec && x && y && z) = true) : d.isSized false = true := by
  simp only [Bool.and_eq_true] at h
  obtain ⟨⟨⟨hd, -⟩, -⟩, -⟩ := h
  exact hd

/-- Settles O7: the bitwise operations are the shapes of two sources, of a source and an immediate and of one source, each at its own operation;
the shifts and rotations are `shiftOp_computes` and `shiftImm_computes`. -/
theorem logicAndShifts : Obligations.LogicAndShifts := by
  unfold Obligations.LogicAndShifts
  refine ⟨?logic, ?shifts⟩
  case logic =>
    intro s p wide d a b c imm A B out
    refine ⟨?and, ?andImm, ?or, ?orImm, ?xor, ?xorImm, ?andn, ?not, ?sel, ?prmt⟩
    case and => exact bitBin_computes (· &&& ·) isSized_of_wf3 rfl
    case andImm => exact bitImm_computes (· &&& ·) isSized_of_wf2 rfl
    case or => exact bitBin_computes (· ||| ·) isSized_of_wf3 rfl
    case orImm => exact bitImm_computes (· ||| ·) isSized_of_wf2 rfl
    case xor => exact bitBin_computes (· ^^^ ·) isSized_of_wf3 rfl
    case xorImm => exact bitImm_computes (· ^^^ ·) isSized_of_wf2 rfl
    case andn => exact bitBin_computes (fun x y => x &&& ~~~y) isSized_of_wf3 rfl
    case not => exact bitUn_computes (fun x => ~~~x) isSized_of_wf2 rfl
    case sel => exact alu_computes (fun wp l => if wp.bit c l then wp.val wide a l else wp.val wide b l) isSized_of_wf3_and rfl
    case prmt =>
      exact alu_computes (fun wp l => (prmtVal (wp.val32 a l) (wp.val32 b l) (wp.val32 c l)).setWidth 64) isSized_of_prmt rfl
  case shifts =>
    intro s p wide d a b imm A n out by' shl shr sar rol
    refine ⟨?shl, ?shlImm, ?shr, ?shrImm, ?sar, ?sarImm, ?rol, ?rolImm⟩
    case shl => exact shiftOp_computes .shl isSized_of_wfShift rfl
    case shlImm => exact shiftImm_computes .shl isSized_of_wf2 rfl
    case shr => exact shiftOp_computes .shr isSized_of_wfShift rfl
    case shrImm => exact shiftImm_computes .shr isSized_of_wf2 rfl
    case sar => exact shiftOp_computes .sar isSized_of_wfShift rfl
    case sarImm => exact shiftImm_computes .sar isSized_of_wf2 rfl
    case rol => exact shiftOp_computes .rol isSized_of_wfShift rfl
    case rolImm => exact shiftImm_computes .rol isSized_of_wf2 rfl

end Sys2Proof.Machine
end

section
/-! SUPPORT. `TRAP`, `SVC` and `BKPT`: the lanes that the guard excludes leave the clause with its results, and the others take the cause (R62, R127). -/

namespace Sys2Proof.Machine

/-! ### Segments when results become visible -/

/-- A change of segments that leaves each its lanes, its cause, its record and its grade. -/
structure KeepsGrade (f : Seg → Seg) : Prop where
  lbase : ∀ x, (f x).lbase = x.lbase
  width : ∀ x, (f x).width = x.width
  cause : ∀ x, (f x).cause = x.cause
  record : ∀ x, (f x).record = x.record
  handler : ∀ x, (f x).handler = x.handler

theorem KeepsGrade.refl : KeepsGrade id := ⟨fun _ => rfl, fun _ => rfl, fun _ => rfl, fun _ => rfl, fun _ => rfl⟩

theorem KeepsGrade.comp {f g : Seg → Seg} (hg : KeepsGrade g) (hf : KeepsGrade f) : KeepsGrade (g ∘ f) :=
  ⟨fun x => (hg.lbase _).trans (hf.lbase x), fun x => (hg.width _).trans (hf.width x), fun x => (hg.cause _).trans (hf.cause x),
    fun x => (hg.record _).trans (hf.record x), fun x => (hg.handler _).trans (hf.handler x)⟩

/-- A change of some segments, none of which it gives other lanes, another cause, record or grade. -/
theorem KeepsGrade.ite {f : Seg → Seg} (hf : KeepsGrade f) (q : Seg → Bool) : KeepsGrade fun x => if q x = true then f x else x := by
  refine ⟨fun x => ?_, fun x => ?_, fun x => ?_, fun x => ?_, fun x => ?_⟩ <;> split
  exacts [hf.lbase x, rfl, hf.width x, rfl, hf.cause x, rfl, hf.record x, rfl, hf.handler x, rfl]

theorem KeepsGrade.slots {f : Seg → Seg} (hf : KeepsGrade f) (x : Seg) : (f x).slots = x.slots := by
  rw [Seg.slots, Seg.slots, hf.lbase, hf.width]

theorem KeepsGrade.rel {f : Seg → Seg} (hf : KeepsGrade f) (x : Seg) (m : Mask) : (f x).rel m = x.rel m := by
  rw [Seg.rel, Seg.rel, hf.lbase, hf.width]

/-- A result that becomes visible changes no segment's lanes, cause, record or grade. -/
theorem apply_segs (wp : Warp) (p : Pend) : ∃ f, KeepsGrade f ∧ (wp.apply p).segs = wp.segs.map f := by
  obtain ⟨slot, due, tgt, lanes, vals, shape, cover, fill⟩ := p
  cases tgt
  case lmask | lpark | lparkClear =>
    refine ⟨_, KeepsGrade.ite (f := fun x => { x with lmask := _, lpark := _ }) ?_ fun x => x.slots &&& lanes != 0, rfl⟩
    exact ⟨fun _ => rfl, fun _ => rfl, fun _ => rfl, fun _ => rfl, fun _ => rfl⟩
  case vpc =>
    refine ⟨_, ?_, rfl⟩
    exact ⟨fun _ => rfl, fun _ => rfl, fun _ => rfl, fun _ => rfl, fun _ => rfl⟩
  all_goals exact ⟨id, KeepsGrade.refl, (List.map_id _).symm⟩

/-- A boundary changes no segment's lanes, cause, record or grade (R62). -/
theorem finish_segs (wp : Warp) (x : ClauseAt) : ∃ f, KeepsGrade f ∧ (wp.finish x).segs = wp.segs.map f := by
  change ∃ f, KeepsGrade f ∧ (wp.applyEnd x.pend).segs = wp.segs.map f
  unfold Warp.applyEnd
  refine List.foldlRecOn (motive := fun u : Warp => ∃ f, KeepsGrade f ∧ u.segs = wp.segs.map f) _ _
    ⟨id, KeepsGrade.refl, (List.map_id _).symm⟩ fun u hu p _ => ?_
  obtain ⟨f, hf, hseg⟩ := hu
  obtain ⟨g, hg, hnext⟩ := apply_segs u p
  exact ⟨g ∘ f, hg.comp hf, by rw [hnext, hseg, List.map_map]⟩

theorem and_not_of_and_eq_zero {x m : Mask} (h : x &&& m = 0) : x &&& ~~~m = x := by
  apply BitVec.eq_of_getLsbD_eq
  intro l hl
  have hbit : (x &&& m).getLsbD l = false := by rw [h]; exact BitVec.getLsbD_zero
  rw [BitVec.getLsbD_and] at hbit
  rw [BitVec.getLsbD_and, BitVec.getLsbD_not, decide_eq_true hl]
  cases hx : x.getLsbD l <;> simp_all

/-- Lanes that leave a clause change no segment's lanes, cause, record or grade, and the others stay in it (R62, R127). -/
theorem leaveClause_segs (wp : Warp) (m : Mask) (hc : wp.clause.isSome = true) : ∃ f, KeepsGrade f ∧ (wp.leaveClause m).segs = wp.segs.map f ∧
    (wp.leaveClause m).clause.isSome = true ∧ (wp.leaveClause m).clauseAt.lanes = wp.clauseAt.lanes &&& ~~~m := by
  obtain ⟨c, hc⟩ := Option.isSome_iff_exists.1 hc
  have hat : wp.clauseAt = c.at_ := by simp [Warp.clauseAt, hc]
  unfold Warp.leaveClause
  rw [hc]
  dsimp only
  split
  · next hnone =>
    refine ⟨id, KeepsGrade.refl, (List.map_id _).symm, by rw [hc]; rfl, ?_⟩
    rw [hat]
    exact (and_not_of_and_eq_zero hnone).symm
  · obtain ⟨f, hf, hseg⟩ := finish_segs wp _
    exact ⟨f, hf, hseg, rfl, by rw [hat]; rfl⟩

/-! ### A segment whose warp has changed -/

/-- The lanes that execute are still those of their segment once each segment has been changed. -/
theorem Alone.mapped {s u : State} {g : Seg} {m : Mask} (ha : Alone s g m) {f : Seg → Seg} (hf : KeepsGrade f)
    (hsegs : u.curWarp.segs = s.curWarp.segs.map f) (hc : u.curWarp.clause.isSome = true) : Alone u (f g) m where
  here := by
    have := ha.here
    simp only [Warp.segAt] at this ⊢
    simp only [hsegs, List.find?_map, Function.comp_def, hf.lbase, this, Option.map_some]
  own := fun l hl => by
    have := ha.own l (hf.slots g ▸ hl)
    simp only [Warp.segOf] at this ⊢
    simp only [hsegs, List.find?_map, Function.comp_def, Seg.hasLane, hf.lbase, hf.width] at this ⊢
    rw [this, Option.map_some]
  only := by
    have := ha.only
    simp only [Warp.segsIn] at this ⊢
    simp only [hsegs, List.filter_map, Function.comp_def, hf.slots, this, List.map_cons, List.map_nil]
  all := by rw [hf.slots]; exact ha.all
  inClause := hc
  calm := (hf.cause g).trans ha.calm
  fits := by rw [hf.lbase, hf.width]; exact ha.fits

/-! ### The trap instructions -/

/-- The warp slot once the lanes that the guard excludes have left (R62, R127). -/
def State.left (s : State) (g : Seg) (m : Mask) : State := s.onWarp s.cur fun wp => wp.leaveClause (g.slots &&& ~~~m)

section
variable {s : State} {p : Pre} {g : Seg} (ha : Alone s g (s.curWarp.execMask p))
include ha

/-- The lanes of the segment that stay in the clause are those that execute. -/
theorem stays_execMask : g.rel (s.curWarp.clauseAt.lanes &&& ~~~(g.slots &&& ~~~s.curWarp.execMask p)) = g.rel (s.curWarp.execMask p) := by
  apply BitVec.eq_of_getLsbD_eq
  intro l hl
  rw [rel_getLsbD, rel_getLsbD]
  by_cases hw : l < g.width
  · have hf := ha.fits
    have h64 : g.lbase + l < 64 := by omega
    have hslot : g.slots.getLsbD (g.lbase + l) = true := slots_getLsbD g _ ha.fits (decide_eq_true ⟨by omega, by omega⟩)
    have hset : (s.curWarp.execMask p).getLsbD (g.lbase + l) = true → s.curWarp.clauseAt.lanes.getLsbD (g.lbase + l) = true := fun h => by
      have := execMask_setMask s.curWarp p _ h
      rw [Warp.setMask, BitVec.getLsbD_and, Bool.and_eq_true] at this
      exact this.1
    simp only [BitVec.getLsbD_and, BitVec.getLsbD_not, hslot, h64, decide_true, Bool.true_and, Bool.not_not]
    cases hm : (s.curWarp.execMask p).getLsbD (g.lbase + l)
    · simp
    · simp [hset hm]
  · simp [hw]

theorem trapInsn_alone (code : Nat) (imm : BitVec 24) (hm : s.curWarp.execMask p ≠ 0) (hact : s.curWarp.mayAct = true) :
    s.trapInsn p code imm = ((s.left g (s.curWarp.execMask p)).takeAt s.cur g.lbase
      { code := code, mask := g.rel (s.curWarp.execMask p), detail := imm.setWidth 32 }).onWarp s.cur Warp.acted := by
  unfold State.trapInsn
  dsimp only
  rw [if_neg hm, State.irrevocably, if_pos hact, ha.only]
  rfl

/-- A trap instruction is a cause of its own for the lanes that execute (R127). -/
theorem trapInsn_traps (code : Nat) (imm : BitVec 24) (hr : g.record = none) (hm : s.curWarp.execMask p ≠ 0) (hact : s.curWarp.mayAct = true)
    (hg : g.handler &&& g.rel (s.curWarp.execMask p) = 0) (hd : causeDest code ≠ .host) (hc : code ≤ 0x19) :
    ∃ h, (s.left g (s.curWarp.execMask p)).curWarp.segAt g.lbase = some h ∧
      Traps (s.left g (s.curWarp.execMask p)) (s.trapInsn p code imm) h (s.curWarp.execMask p) code fun x =>
        x.detail = imm.setWidth 32 ∧ x.lanes = g.rel (s.curWarp.execMask p) ∧ x.cls = .p := by
  rw [trapInsn_alone ha code imm hm hact]
  have hstay := stays_execMask ha
  generalize hk : s.curWarp.execMask p = m at *
  obtain ⟨f, hf, hsegs, hclause, hlanes⟩ := leaveClause_segs s.curWarp (g.slots &&& ~~~m) ha.inClause
  have hu : (s.left g m).curWarp = s.curWarp.leaveClause (g.slots &&& ~~~m) := curWarp_onWarp s _
  have hau : Alone (s.left g m) (f g) m := ha.mapped hf (by rw [hu, hsegs]) (by rw [hu, hclause])
  have hhere := hau.here
  rw [hf.lbase] at hhere
  refine ⟨f g, hhere, Traps.acted ?_⟩
  rw [← hf.lbase g, ← hf.rel g m]
  have hlow : code < 0x74 := by omega
  refine takeAt_traps (s.left g m) (f g) m _ _ hau rfl (.inl ((hf.record g).trans hr)) hd ⟨by dsimp only; omega, .inl hlow⟩
    (.inl (by rw [hf.handler, hf.rel, hg])) fun x hdetail _ hcls hxlanes => ⟨hdetail, ?_, hcls.trans (if_pos hc)⟩
  rw [hxlanes, hu, hlanes, hf.rel, hf.rel, ← hstay]
end

/-- Settles O19: the three instructions are `trapInsn` at their codes (`trapInsn_traps`). -/
theorem trapInstructions : Obligations.TrapInstructions := by
  unfold Obligations.TrapInstructions
  intro s p imm g m ha hr hm hact hg u out
  refine ⟨?trap, ?svc, ?bkpt⟩
  case trap => exact ⟨_, rfl, trapInsn_traps ha 0x16 imm hr hm hact hg (by decide) (by decide)⟩
  case svc => exact ⟨_, rfl, trapInsn_traps ha 0x17 imm hr hm hact hg (by decide) (by decide)⟩
  case bkpt => exact ⟨_, rfl, trapInsn_traps ha 0x18 imm hr hm hact hg (by decide) (by decide)⟩

end Sys2Proof.Machine
end

section
/-! SUPPORT. Barriers: what their completion depends on, and the first arrivals at one (R34, R35). -/

namespace Sys2Proof.Machine

/-! ### What the completion of a barrier depends on -/

/-- A segment without its progress (R374). -/
def Seg.still (g : Seg) : Seg := { g with progress := false, bc := 0 }

/-- What a barrier sees of a warp slot: its segments, but for their progress, and the lanes that count as live (R34). -/
def Warp.still (wp : Warp) : Warp := { Warp.reset with segs := wp.segs.map Seg.still, live := wp.counted }

/-- The module of which a barrier sees everything that stands in its warp slots. -/
def State.still (s : State) : State := { s with warps := s.warps.mapV fun _ => Warp.still }

theorem still_counted (wp : Warp) : wp.still.counted = wp.counted := BitVec.or_zero

section
variable (s : State) (b : Bar)

theorem still_warp_counted (w : Nat) : (s.still.warp w).counted = (s.warp w).counted := by
  unfold State.warp State.still
  rw [tab_find_mapV]
  cases s.warps.find w with
  | none => rfl
  | some wp => exact still_counted wp

theorem segsOf_still (gid : Nat) : s.still.segsOf gid = (s.segsOf gid).map fun q => (q.1, q.2.still) := by
  simp [State.segsOf, State.still, Tab.mapV, Warp.still, List.flatMap_map, List.map_flatMap, List.filter_map, Function.comp_def, Seg.still]

theorem segArrived_still (w : Nat) (g : Seg) : (s.still.warp w).segArrived b g.still = (s.warp w).segArrived b g := by
  unfold Warp.segArrived
  rw [still_warp_counted]
  rfl

theorem groupArrived_still (gid : Nat) (x : Group) : s.still.groupArrived b gid x = s.groupArrived b gid x := by
  unfold State.groupArrived
  rw [segsOf_still, List.all_map]
  simp only [Function.comp_def, segArrived_still]

theorem posArrived_still (k : Nat) : s.still.posArrived b k = s.posArrived b k := by
  have hgroups : s.still.barGroups b = s.barGroups b := rfl
  unfold State.posArrived
  simp only [segsOf_still, List.all_map, Function.comp_def, segArrived_still, groupArrived_still, still_warp_counted, hgroups]
  rfl

theorem posCounts_still (k : Nat) : s.still.posCounts b k = s.posCounts b k := by
  have hgroups : s.still.barGroups b = s.barGroups b := rfl
  unfold State.posCounts
  simp only [segsOf_still, List.any_map, Function.comp_def, still_warp_counted, hgroups]
  rfl

/-- Whether a barrier is complete depends on what a barrier sees of the warp slots. -/
theorem barComplete_still : s.still.barComplete b = s.barComplete b := by
  unfold State.barComplete State.barTarget State.arrivals
  simp only [posArrived_still, posCounts_still]

end

/-- Whether a barrier is complete depends on the groups and on what stands in the warp slots. -/
theorem barComplete_congr {s t : State} (b : Bar) (hg : t.groups = s.groups) (hw : t.still.warps = s.still.warps) :
    t.barComplete b = s.barComplete b := by
  rw [← barComplete_still t, ← barComplete_still s]
  change ({ s with groups := t.groups, warps := t.still.warps } : State).barComplete b = _
  rw [hg, hw]
  rfl

theorem tab_mapV_put {α β : Type} (t : Tab α) (k : Nat) (f : α → β) {u v : α} (hu : t.find k = some u) (hf : f v = f u) :
    (t.put k v).map (fun q => (q.1, f q.2)) = t.map fun q => (q.1, f q.2) := by
  induction t with
  | nil => cases hu
  | cons q t ih =>
    obtain ⟨j, y⟩ := q
    simp only [Tab.find] at hu
    simp only [Tab.put]
    split at hu
    · next h =>
      cases hu
      rw [if_pos h]
      simp [h, hf]
    · next h =>
      split at hu
      · cases hu
      · next hk => rw [if_neg h, if_neg hk, List.map_cons, ih hu, List.map_cons]

/-- A barrier does not see a change of a warp slot that leaves what it sees of it. -/
theorem still_onWarp {s : State} {w : Nat} {wp : Warp} (hw : s.warps.find w = some wp) {f : Warp → Warp} (hf : (f wp).still = wp.still) :
    (s.onWarp w f).still.warps = s.still.warps := by
  have hwarp : s.warp w = wp := by rw [State.warp, hw]; rfl
  refine tab_mapV_put s.warps w Warp.still hw ?_
  rw [hwarp, hf]

theorem progress_still (wp : Warp) (m : Mask) : (wp.progress m).still = wp.still := by
  have hseg (g : Seg) : (if g.slots &&& wp.counts m != 0 then { g with progress := true, bc := 0 } else g).still = g.still := by
    split <;> rfl
  simp only [Warp.still, Warp.progress, Warp.gained, Warp.onSegs, List.map_map, Function.comp_def, hseg]
  rfl

/-! ### Files that a completion leaves -/

/-- A warp slot keeps its files and its live lanes. -/
structure SameFiles (v w : Warp) : Prop where
  live : w.live = v.live
  regs : w.regs = v.regs
  preds : w.preds = v.preds

theorem SameFiles.refl (v : Warp) : SameFiles v v := ⟨rfl, rfl, rfl⟩

theorem SameFiles.trans {u v w : Warp} (a : SameFiles u v) (b : SameFiles v w) : SameFiles u w :=
  ⟨b.live.trans a.live, b.regs.trans a.regs, b.preds.trans a.preds⟩

theorem releaseLane_files (wp : Warp) (l : Nat) : SameFiles wp (wp.releaseLane l) := by
  unfold Warp.releaseLane
  split <;> exact ⟨rfl, rfl, rfl⟩

theorem passBar_files (wp : Warp) (b : Bar) : SameFiles wp (wp.passBar b) := by
  unfold Warp.passBar
  refine List.foldlRecOn (motive := SameFiles wp) _ _ (.refl wp) fun u hu g _ => ?_
  refine List.foldlRecOn (motive := SameFiles wp) _ _ hu fun v hv l _ => ?_
  split
  · split
    · exact hv.trans (releaseLane_files v l)
    · exact hv
  · exact hv

/-- What a completion makes of a warp slot: the lanes that wait at the barrier go on, in the states kept of it as well (R34, R203). -/
def Warp.passed (wp : Warp) (b : Bar) : Warp :=
  if wp.segs.any (fun g => b.arrived.any fun a => a.1 == g.gid) then wp.always fun wp => wp.passBar b else wp

theorem passed_files (wp : Warp) (b : Bar) : SameFiles wp (wp.passed b) := by
  have h := passBar_files wp b
  unfold Warp.passed
  split
  · exact ⟨h.live, h.regs, h.preds⟩
  · exact .refl wp

theorem releaseBar_warp (s : State) (b : Bar) (w : Nat) : SameFiles (s.warp w) ((s.releaseBar b).warp w) := by
  have hfind : (s.releaseBar b).warps.find w = (s.warps.find w).map fun wp => wp.passed b := tab_find_mapV s.warps (fun _ wp => wp.passed b) w
  rw [State.warp, State.warp, hfind]
  cases s.warps.find w with
  | none => exact .refl _
  | some wp => exact passed_files wp b

/-! ### Instances that are alone -/

/-- Nothing completes where no barrier stands open. -/
theorem checkBars_empty {s : State} (h : s.bars = []) : s.checkBars = s := by
  unfold State.checkBars
  simp only [h, List.filter_nil, List.foldl_nil]
  rw [← h]

/-- The only open barrier is released if it is complete, and stands otherwise (R34). -/
theorem checkBars_one {s : State} {b : Bar} (h : s.bars = [b]) (hd : b.done = false) (hs : b.saved = none) :
    s.checkBars = if s.barComplete b = true then ({ s with bars := [] } : State).releaseBar b else s := by
  unfold State.checkBars
  cases hc : s.barComplete b
  · simp [h, hd, hs, hc]
    rw [← h]
  · simp [h, hd, hs, hc]

/-- The entry of a barrier that lanes `m` of a segment open by their arrival (R34, R35). -/
def State.opened (s : State) (g : Seg) (x : Group) (lvl : Level) (mask m : Mask) : Bar :=
  ⟨lvl, mask, s.barUnit lvl g.gid g.idx, x.place lvl, (lanesOf (g.rel m)).map fun l => (g.gid, g.idx, l), [], none, false, s.now, false, 0, none⟩

/-- The first arrivals at a barrier where none stands open. -/
theorem arrive_first {s : State} {w : Nat} {g : Seg} {x : Group} (m : Mask) (lvl : Level) (mask : Mask) (hx : s.group g.gid = some x)
    (hb : s.bars = []) :
    s.arrive w g m lvl mask = ({ s.onWarp w (fun wp => wp.progress m) with bars := [s.opened g x lvl mask m] } : State).checkBars := by
  unfold State.arrive
  rw [hx]
  simp only [onWarp_bars, hb, List.find?_nil, List.filter_nil, List.nil_append, Option.getD_none, List.filter_cons, Bar.disagrees, bne_self_eq_false,
    Bool.and_false, Bool.false_and]
  rfl

/-- What the first arrivals at a barrier leave (R34, R35): the barrier's entry, unless it is complete; the files of the warp slot, memory,
and, while the entry stands, the holds. -/
structure Arrived (s t : State) (w : Nat) (b : Bar) : Prop where
  cur : t.cur = s.cur
  bars : t.bars = if s.barComplete b = true then [] else [b]
  mem : t.mem = s.mem
  regs : (t.warp w).regs = (s.warp w).regs
  holds : s.barComplete b = false → (t.warp w).holds = (s.warp w).holds

theorem arrive_arrived {s : State} {w : Nat} {wp : Warp} {g : Seg} {x : Group} (m : Mask) (lvl : Level) (mask : Mask)
    (hw : s.warps.find w = some wp) (hx : s.group g.gid = some x) (hb : s.bars = []) :
    Arrived s (s.arrive w g m lvl mask) w (s.opened g x lvl mask m) := by
  rw [arrive_first m lvl mask hx hb]
  have hstill := still_onWarp (f := fun wp => wp.progress m) hw (progress_still wp m)
  have hwarp := warp_onWarp_same s w fun wp => wp.progress m
  have hregs : ((s.onWarp w fun wp => wp.progress m).warp w).regs = (s.warp w).regs := by rw [hwarp]; rfl
  have hholds : ((s.onWarp w fun wp => wp.progress m).warp w).holds = (s.warp w).holds := by rw [hwarp]; rfl
  have hdone : (s.opened g x lvl mask m).done = false ∧ (s.opened g x lvl mask m).saved = none := ⟨rfl, rfl⟩
  generalize s.opened g x lvl mask m = b at hdone ⊢
  have hbars : ({ s.onWarp w (fun wp => wp.progress m) with bars := [b] } : State).barComplete b = s.barComplete b := barComplete_congr b rfl hstill
  rw [checkBars_one (b := b) rfl hdone.1 hdone.2, hbars]
  cases hc : s.barComplete b with
  | false =>
    rw [if_neg (by decide)]
    exact ⟨rfl, by rw [hc]; rfl, rfl, hregs, fun _ => hholds⟩
  | true =>
    rw [if_pos rfl]
    have hfiles := releaseBar_warp ({ s.onWarp w (fun wp => wp.progress m) with bars := [] } : State) b w
    exact ⟨rfl, by rw [hc]; rfl, rfl, hfiles.regs.trans hregs, fun h => absurd (hc.symm.trans h) (by decide)⟩

end Sys2Proof.Machine
end

section
/-! SUPPORT. `SYNC`, `DRAIN` and `DRAIN_ARRIVAL` where no barrier stands open (R34, R35, R229, R230). -/

namespace Sys2Proof.Machine

theorem exec_sync (p : Pre) (lvl : Level) (a : Reg) (s : State) : exec (.sync p lvl a) s = .next (s.barrier p lvl a false) := rfl
theorem exec_drain (p : Pre) (lvl : Level) (a : Reg) (s : State) : exec (.drain p lvl a) s = .next (s.barrier p lvl a true) := rfl
theorem exec_drainArrival (w : Nat) (s : State) : exec (.drainArrival w) s = execDrainArrival w s := rfl

/-! ### A slot that stands -/

theorem find_of_clause {s : State} (h : s.curWarp.clause.isSome = true) : s.warps.find s.cur = some s.curWarp := by
  unfold State.curWarp State.warp at h ⊢
  cases hf : s.warps.find s.cur with
  | none =>
    rw [hf] at h
    cases h
  | some wp => rfl

theorem acted_onWarp {t : State} {w : Nat} (h : t.cur = w) : (t.onWarp w Warp.acted).curWarp = (t.warp w).acted := by
  subst h
  exact curWarp_onWarp t Warp.acted

/-! ### The two instructions -/

/-- The hold of the lanes of a barrier's slot, with the mask that they name (R229, R230). -/
def Warp.barHold (wp : Warp) (kind : HoldKind) (now : Nat) (mask : Mask) : LaneHold := { wp.holdHere kind now with last := mask }

section
variable {s : State} {p : Pre} {lvl : Level} {a : Reg} {g : Seg} {k : Nat} (ha : Alone s g (s.curWarp.execMask p))
  (hk : g.lead (s.curWarp.execMask p) = some k) (hact : s.curWarp.mayAct = true)
  (hfault : s.syncFault g (s.curWarp.execMask p) lvl (lvl == .lane || lvl == .pod) a = none)
include ha hk hact hfault

/-- A barrier's slot in one segment holds its lanes, which for `SYNC` arrive (R229, R230). -/
theorem barrier_alone (drain : Bool) {mask : Mask} (hmask : mask = levelTrim lvl g.width (s.curWarp.val (lvl == .lane || lvl == .pod) a k)) :
    let m := s.curWarp.execMask p
    let u := s.setWarp s.cur (s.curWarp.holdLanes m (s.curWarp.barHold (if drain then .drain else .sync) s.now mask))
    s.barrier p lvl a drain = (if drain then u else u.arrive s.cur g m lvl mask).onWarp s.cur Warp.acted := by
  intro m u
  have hm : m ≠ 0 := fun h => ha.some_lane (by rw [ha.slots_and]; exact h)
  unfold State.barrier
  dsimp only
  rw [if_neg hm, State.irrevocably, if_pos hact, ha.only, List.foldl_cons, List.foldl_nil, hfault]
  dsimp only
  rw [ha.slots_and, hk, Option.map_some, Option.getD_some, ← hmask]
  rfl

theorem sync_arrives {x : Group} {mask : Mask} (hx : s.group g.gid = some x) (hb : s.bars = [])
    (hmask : mask = levelTrim lvl g.width (s.curWarp.val (lvl == .lane || lvl == .pod) a k)) :
    Completes (.sync p lvl a) s fun t =>
      t.bars = (if s.barComplete (s.opened g x lvl mask (s.curWarp.execMask p)) = true then []
        else [s.opened g x lvl mask (s.curWarp.execMask p)]) ∧
      t.curWarp.regs = s.curWarp.regs ∧ t.mem = s.mem ∧
      (s.barComplete (s.opened g x lvl mask (s.curWarp.execMask p)) = false → ∀ l, (s.curWarp.execMask p).getLsbD l = true →
        (t.curWarp.holds.find l).map LaneHold.kind = some .sync) := by
  refine ⟨_, exec_sync p lvl a s, ?_⟩
  rw [barrier_alone ha hk hact hfault false hmask]
  generalize hm : s.curWarp.execMask p = m at *
  simp only [Bool.false_eq_true, if_false]
  generalize hh : s.curWarp.barHold .sync s.now mask = h
  have hfind := find_of_clause ha.inClause
  have hstill : (s.setWarp s.cur (s.curWarp.holdLanes m h)).still.warps = s.still.warps :=
    still_onWarp (f := fun wp => wp.holdLanes m h) hfind rfl
  have hcomplete : (s.setWarp s.cur (s.curWarp.holdLanes m h)).barComplete (s.opened g x lvl mask m) = s.barComplete (s.opened g x lvl mask m) :=
    barComplete_congr _ rfl hstill
  have harr := arrive_arrived (s := s.setWarp s.cur (s.curWarp.holdLanes m h)) m lvl mask (tab_find_put_same s.warps s.cur _) hx hb
  have hopened : (s.setWarp s.cur (s.curWarp.holdLanes m h)).opened g x lvl mask m = s.opened g x lvl mask m := rfl
  rw [hopened] at harr
  generalize s.opened g x lvl mask m = b at hcomplete harr ⊢
  have hregs := harr.regs
  have hholds := harr.holds
  have hbars := harr.bars
  rw [hcomplete] at hholds hbars
  rw [warp_setWarp_same] at hregs hholds
  have hcur : ((s.setWarp s.cur (s.curWarp.holdLanes m h)).arrive s.cur g m lvl mask).cur = s.cur := harr.cur
  refine ⟨hbars, ?_, harr.mem, fun hc l hl => ?_⟩
  · rw [acted_onWarp hcur]
    exact hregs
  · rw [acted_onWarp hcur]
    have hlane := holdLanes_find s.curWarp m h l hl
    rw [← hholds hc] at hlane
    exact (congrArg (Option.map LaneHold.kind) hlane).trans (by rw [← hh]; rfl)

theorem drain_holds {mask : Mask} (hmask : mask = levelTrim lvl g.width (s.curWarp.val (lvl == .lane || lvl == .pod) a k)) :
    Completes (.drain p lvl a) s fun t => t.bars = s.bars ∧ t.curWarp.regs = s.curWarp.regs ∧ t.mem = s.mem ∧
      ∀ l, (s.curWarp.execMask p).getLsbD l = true → (t.curWarp.holds.find l).map (fun h => (h.kind, h.last)) = some (.drain, mask) := by
  refine ⟨_, exec_drain p lvl a s, ?_⟩
  rw [barrier_alone ha hk hact hfault true hmask]
  simp only [if_true]
  generalize hh : s.curWarp.barHold .drain s.now mask = h
  have hcur : (s.setWarp s.cur (s.curWarp.holdLanes (s.curWarp.execMask p) h)).cur = s.cur := rfl
  refine ⟨rfl, ?_, rfl, fun l hl => ?_⟩
  · rw [acted_onWarp hcur, warp_setWarp_same]
    rfl
  · rw [acted_onWarp hcur, warp_setWarp_same]
    exact (congrArg (Option.map fun h : LaneHold => (h.kind, h.last)) (holdLanes_find s.curWarp _ h l hl)).trans (by rw [← hh]; rfl)

end

/-! ### The arrival of `DRAIN` -/

theorem execDrainArrival_waits {s : State} {w : Nat} (h : s.drained w = false) : execDrainArrival w s = .next s := by
  unfold execDrainArrival
  simp [h]

/-- The lanes of a `DRAIN` wait no more for their warp slot (R230). -/
def Warp.drainedLanes (wp : Warp) (m : Mask) : Warp :=
  wp.always fun wp => { wp with holds := wp.holds.mapV fun l x => if m.getLsbD l then { x with interval := 1 } else x }

theorem drainedLanes_still (wp : Warp) (m : Mask) : (wp.drainedLanes m).still = wp.still := by
  have hwindow : (wp.drainedLanes m).window.map (fun x => x.ckpt.live) = wp.window.map fun x => x.ckpt.live :=
    Option.map_map (fun x : Window => x.ckpt.live) _ wp.window
  have hcounted : (wp.drainedLanes m).counted = wp.counted := by
    unfold Warp.counted
    rw [hwindow]
    rfl
  unfold Warp.still
  rw [hcounted]
  rfl

section
variable {s : State} {w : Nat} {g : Seg} {h : LaneHold} {p : Pre} {lvl : Level} {a : Reg}
  (hd : s.drained w = true) (hne : (s.warp w).drainWaits s.now ≠ [])
  (hall : ∀ q ∈ (s.warp w).drainWaits s.now, q.2 = h ∧ g.hasLane q.1 = true)
  (honly : (s.warp w).segsIn (((s.warp w).drainWaits s.now).foldl (fun m q => m ||| laneBit q.1) 0) = [g])
  (hword : decodeAlone h.word = .ok (.drain p lvl a))
include hne

theorem find_of_drainWaits : s.warps.find w = some (s.warp w) := by
  unfold State.warp at hne ⊢
  cases hf : s.warps.find w with
  | none =>
    rw [hf] at hne
    exact absurd rfl hne
  | some wp => rfl

include hd hall honly hword

/-- The lanes of one `DRAIN` in one segment arrive once their warp slot has drained (R230). -/
theorem execDrainArrival_alone : execDrainArrival w s =
    let mw := ((s.warp w).drainWaits s.now).foldl (fun m q => m ||| laneBit q.1) 0
    .next ((s.onWarp w fun wp => wp.drainedLanes mw).arrive w g mw lvl h.last) := by
  obtain ⟨q, qs, hqs⟩ := List.exists_cons_of_ne_nil hne
  have hq := hall q (by rw [hqs]; exact List.mem_cons_self)
  have hfind : ((s.warp w).drainWaits s.now).find? (fun y => g.hasLane y.1) = some (q.1, h) := by
    rw [hqs, List.find?_cons_of_pos (p := fun y : Nat × LaneHold => g.hasLane y.1) hq.2, ← hq.1]
  have hsame : ∀ (l : Tab LaneHold) (m : Mask), (∀ q ∈ l, q.2 = h ∧ g.hasLane q.1 = true) →
      l.foldl (fun m k => if g.hasLane k.1 = true ∧ k.2.hdr = h.hdr ∧ k.2.slot = h.slot ∧ k.2.last = h.last then m ||| laneBit k.1 else m) m
        = l.foldl (fun m q => m ||| laneBit q.1) m := by
    intro l
    induction l with
    | nil => intro m _; rfl
    | cons y l ih =>
      intro m hl
      obtain ⟨hy, hlane⟩ := hl y List.mem_cons_self
      rw [List.foldl_cons, List.foldl_cons, hy, if_pos ⟨hlane, rfl, rfl, rfl⟩]
      exact ih _ fun q hq => hl q (List.mem_cons_of_mem _ hq)
  unfold execDrainArrival
  dsimp only
  rw [hd, honly, if_neg (by decide), List.foldl_cons, List.foldl_nil, hfind]
  dsimp only
  rw [hsame _ _ hall, hword]
  rfl

theorem drainArrival_arrives {x : Group} (hx : s.group g.gid = some x) (hb : s.bars = []) :
    let b := s.opened g x lvl h.last (((s.warp w).drainWaits s.now).foldl (fun m q => m ||| laneBit q.1) 0)
    Completes (.drainArrival w) s fun t =>
      t.bars = (if s.barComplete b = true then [] else [b]) ∧ (t.warp w).regs = (s.warp w).regs ∧ t.mem = s.mem := by
  intro b
  refine ⟨_, (exec_drainArrival w s).trans (execDrainArrival_alone hd hne hall honly hword), ?_⟩
  have hfind := find_of_drainWaits hne
  generalize hm : ((s.warp w).drainWaits s.now).foldl (fun m q => m ||| laneBit q.1) 0 = m at *
  have hstill := still_onWarp (f := fun wp => wp.drainedLanes m) hfind (drainedLanes_still (s.warp w) m)
  have harr := arrive_arrived (s := s.onWarp w fun wp => wp.drainedLanes m) m lvl h.last (tab_find_put_same s.warps w _) hx hb
  have hopened : (s.onWarp w fun wp => wp.drainedLanes m).opened g x lvl h.last m = b := by rw [← hm]; rfl
  rw [hopened] at harr
  have hcomplete : (s.onWarp w fun wp => wp.drainedLanes m).barComplete b = s.barComplete b := barComplete_congr b rfl hstill
  have hbars := harr.bars
  have hregs := harr.regs
  rw [hcomplete] at hbars
  rw [warp_onWarp_same] at hregs
  exact ⟨hbars, hregs, harr.mem⟩

end

end Sys2Proof.Machine
end

section
/-! SUPPORT. `EXIT`: the threads end, their causes are announced, and instances that counted them may complete (R34, R118, R203). -/

namespace Sys2Proof.Machine

/-! ### Announcing causes -/

/-- `t` keeps of `s` its current slot, memory, scratchpads and instances. -/
structure Stays (s t : State) : Prop where
  cur : t.cur = s.cur
  mem : t.mem = s.mem
  spad : t.spad = s.spad
  bars : t.bars = s.bars

theorem Stays.refl (s : State) : Stays s s := ⟨rfl, rfl, rfl, rfl⟩

theorem Stays.trans {s t u : State} (a : Stays s t) (b : Stays t u) : Stays s u :=
  ⟨b.cur.trans a.cur, b.mem.trans a.mem, b.spad.trans a.spad, b.bars.trans a.bars⟩

theorem msix_cur (s : State) (f v : Nat) : (s.msix f v).cur = s.cur := by
  unfold State.msix
  dsimp only
  split <;> rfl

theorem post_cur (s : State) (code : Nat) (i : LogInfo) : (s.post code i).cur = s.cur := by
  have hwake : (if causeDest code = .porter then s.later (.porterWake i.die) else s).cur = s.cur := by
    split <;> rfl
  unfold State.post
  rw [← hwake]
  generalize (if causeDest code = .porter then s.later (.porterWake i.die) else s) = t
  dsimp only
  split
  · rfl
  · rw [msix_cur, onFn_cur]

theorem post_stays (s : State) (code : Nat) (i : LogInfo) : Stays s (s.post code i) :=
  ⟨post_cur s code i, (post_quiet s code i).mem, post_spad s code i, (post_quiet s code i).bars⟩

theorem onWarp_stays (s : State) (w : Nat) (f : Warp → Warp) : Stays s (s.onWarp w f) := ⟨rfl, rfl, rfl, rfl⟩

theorem hold_stays (s : State) (f : Nat) (x : Held) : Stays s (s.hold f x).2 := ⟨rfl, rfl, rfl, rfl⟩

theorem announce_stays (s : State) (w lb : Nat) : Stays s (s.announce w lb) := by
  unfold State.announce
  dsimp only
  split
  · exact .refl s
  · split
    · exact .refl s
    · split
      · exact ((hold_stays s _ _).trans (onWarp_stays _ w _)).trans (post_stays _ _ _)
      · exact .refl s

theorem announceAll_stays (s : State) (w : Nat) : Stays s (s.announceAll w) :=
  List.foldlRecOn _ _ (Stays.refl s) fun _ h g _ => h.trans (announce_stays _ w g.lbase)

/-- Nothing is announced of a warp slot whose segments have no cause. -/
theorem announceAll_calm {s : State} {w : Nat} (h : ∀ g ∈ (s.warp w).segs, g.cause = none) : s.announceAll w = s := by
  refine List.foldlRecOn (motive := fun t => t = s) _ _ rfl fun t ht g _ => ?_
  rw [ht]
  cases hg : (s.warp w).segAt g.lbase with
  | none =>
    unfold State.announce
    dsimp only
    rw [hg]
  | some x => exact announce_calm hg (h x (List.mem_of_find?_eq_some hg))

/-- The segments of slots that agree on what lasts differ in their causes alone. -/
theorem segs_of_lasting {v wp : Warp} (h : v.lasting = wp.lasting) {g : Seg} (hg : g ∈ v.segs) :
    ∃ x ∈ wp.segs, { g with cause := none } = { x with cause := none } := by
  have hmem : ({ g with cause := none } : Seg) ∈ wp.lasting.segs := by
    rw [← h]
    exact List.mem_map.2 ⟨g, hg, rfl⟩
  obtain ⟨x, hx, hxg⟩ := List.mem_map.1 hmem
  exact ⟨x, hx, hxg.symm⟩

theorem lasting_files {v w : Warp} (h : w.lasting = v.lasting) : SameFiles v w := by
  have hregs : w.lasting.regs = v.lasting.regs := by rw [h]
  have hpreds : w.lasting.preds = v.lasting.preds := by rw [h]
  have hlive : w.lasting.live = v.lasting.live := by rw [h]
  exact ⟨hlive, hregs, hpreds⟩

/-! ### The exit of lanes -/

/-- A warp slot whose lanes `m` have exited (R118, R374). -/
def Warp.exited (wp : Warp) (m : Mask) : Warp :=
  (({ wp.progress m with live := wp.live &&& ~~~m } : Warp).onSegs fun g =>
    { g with lmask := g.lmask &&& ~~~(g.rel m), lpark := g.lpark &&& ~~~(g.rel m) }).handlerEnds

/-- The state whose lanes `m` of the current slot have exited, and whose causes that waited are announced. -/
def State.exiting (s : State) (m : Mask) : State := (s.onWarp s.cur fun wp => wp.exited m).announceAll s.cur

theorem exec_exit (p : Pre) (s : State) : exec (.exit p) s =
    let m := s.curWarp.execMask p
    let t := s.exiting m
    .next (if m = 0 then s else if t.curWarp.window.isNone then s.exitBars t (dieOf t.cur) else t) := rfl

theorem progress_segs {wp : Warp} {m : Mask} {g : Seg} (hg : g ∈ (wp.progress m).segs) : ∃ x ∈ wp.segs, g.still = x.still := by
  obtain ⟨x, hx, rfl⟩ := List.mem_map.1 hg
  refine ⟨x, hx, ?_⟩
  split <;> rfl

theorem nextCause_groups (g : Seg) : g.nextCause.lmask = g.lmask ∧ g.nextCause.lpark = g.lpark := by
  unfold Seg.nextCause
  split
  · exact ⟨rfl, rfl⟩
  · split <;> exact ⟨rfl, rfl⟩

theorem nextCause_cause {g : Seg} (hc : g.cause = none) (hr : g.record = none) (hq : g.queue = []) : g.nextCause.cause = none := by
  rw [nextCause_calm hr hq]
  exact hc

/-- A handler's end leaves the segment, its group's mask and its parked lanes, and a segment without causes has none then. -/
theorem handlerEnds_segs {wp : Warp} {g : Seg} (hg : g ∈ wp.handlerEnds.segs) :
    ∃ x ∈ wp.segs, g.lbase = x.lbase ∧ g.lmask = x.lmask ∧ g.lpark = x.lpark ∧ (x.cause = none → x.queue = [] → g.cause = none) := by
  obtain ⟨x, hx, rfl⟩ := List.mem_map.1 hg
  refine ⟨x, hx, ?_⟩
  split
  · exact ⟨rfl, rfl, rfl, fun hc _ => hc⟩
  · next r _ =>
    split
    · have hgroups := nextCause_groups { x with record := none, handler := x.handler &&& ~~~r.cause.lanes, udepth := r.udepth }
      exact ⟨nextCause_lbase _, hgroups.1, hgroups.2, fun hc hq => nextCause_cause hc rfl hq⟩
    · exact ⟨rfl, rfl, rfl, fun hc _ => hc⟩

theorem exited_segs {wp : Warp} {m : Mask} {g : Seg} (hg : g ∈ (wp.exited m).segs) :
    ∃ x ∈ wp.segs, (g.lbase = x.lbase ∧ g.lmask = x.lmask &&& ~~~(x.rel m) ∧ g.lpark = x.lpark &&& ~~~(x.rel m)) ∧
      (x.cause = none → x.queue = [] → g.cause = none) := by
  obtain ⟨y, hy, hbase, hmask, hpark, hcalm⟩ := handlerEnds_segs hg
  obtain ⟨z, hz, rfl⟩ := List.mem_map.1 hy
  obtain ⟨x, hx, hzx⟩ := progress_segs hz
  have hrel : z.rel m = x.rel m := (congrArg (fun y : Seg => y.rel m) hzx :)
  have hbase' : z.lbase = x.lbase := (congrArg Seg.lbase hzx :)
  have hmask' : z.lmask = x.lmask := (congrArg Seg.lmask hzx :)
  have hpark' : z.lpark = x.lpark := (congrArg Seg.lpark hzx :)
  have hcause : z.cause = x.cause := (congrArg Seg.cause hzx :)
  have hqueue : z.queue = x.queue := (congrArg Seg.queue hzx :)
  refine ⟨x, hx, ⟨hbase.trans hbase', ?_, ?_⟩, fun hc hq => hcalm (hcause.trans hc) (hqueue.trans hq)⟩
  · rw [hmask, ← hmask', ← hrel]
  · rw [hpark, ← hpark', ← hrel]

theorem exiting_stays (s : State) (m : Mask) : Stays s (s.exiting m) := (onWarp_stays s s.cur _).trans (announceAll_stays _ _)

theorem exiting_lasting (s : State) (m : Mask) : (s.exiting m).curWarp.lasting = (s.curWarp.exited m).lasting := by
  have h := (announceAll_lasts s.cur (s.onWarp s.cur fun wp => wp.exited m)).warp
  rw [warp_onWarp_same] at h
  rw [State.curWarp, (exiting_stays s m).cur]
  exact h

theorem exiting_segs {s : State} {m : Mask} {g : Seg} (hg : g ∈ (s.exiting m).curWarp.segs) :
    ∃ h ∈ s.curWarp.segs, g.lbase = h.lbase ∧ g.lmask = h.lmask &&& ~~~(h.rel m) ∧ g.lpark = h.lpark &&& ~~~(h.rel m) := by
  obtain ⟨x, hx, hgx⟩ := segs_of_lasting (exiting_lasting s m) hg
  obtain ⟨h, hh, ⟨hbase, hmask, hpark⟩, -⟩ := exited_segs hx
  exact ⟨h, hh, (congrArg Seg.lbase hgx).trans hbase, (congrArg Seg.lmask hgx).trans hmask, (congrArg Seg.lpark hgx).trans hpark⟩

theorem exiting_apart {s : State} {m : Mask} (h : ∀ g ∈ s.curWarp.segs, g.cause = none ∧ g.queue = []) :
    (s.exiting m).apart s.cur = s.apart s.cur := by
  have hcalm : (s.onWarp s.cur fun wp => wp.exited m).announceAll s.cur = s.onWarp s.cur fun wp => wp.exited m := by
    refine announceAll_calm fun g hg => ?_
    rw [warp_onWarp_same] at hg
    obtain ⟨x, hx, -, hnone⟩ := exited_segs hg
    exact hnone (h x hx).1 (h x hx).2
  rw [State.exiting, hcalm, apart_onWarp]

/-! ### The instances that counted the lanes -/

/-- `t` keeps of `s` its current slot, scratchpads, and the files and live lanes of warp slot `w`. -/
structure KeepsFiles (w : Nat) (s t : State) : Prop where
  cur : t.cur = s.cur
  spad : t.spad = s.spad
  files : SameFiles (s.warp w) (t.warp w)

section
variable (w : Nat) (s : State)

theorem KeepsFiles.refl : KeepsFiles w s s := ⟨rfl, rfl, .refl _⟩

theorem KeepsFiles.trans {w : Nat} {s t u : State} (a : KeepsFiles w s t) (b : KeepsFiles w t u) : KeepsFiles w s u :=
  ⟨b.cur.trans a.cur, b.spad.trans a.spad, a.files.trans b.files⟩

theorem keepsFiles_foldl {α : Type} {f : State → α → State} (hf : ∀ s a, KeepsFiles w s (f s a)) (l : List α) : KeepsFiles w s (l.foldl f s) :=
  List.foldlRecOn l f (.refl w s) fun _ h a _ => h.trans (hf _ a)

/-- A change of every warp slot that leaves its files. -/
theorem keepsFiles_mapV (f : Nat → Warp → Warp) (hf : ∀ k wp, SameFiles wp (f k wp)) : KeepsFiles w s { s with warps := s.warps.mapV f } := by
  refine ⟨rfl, rfl, ?_⟩
  have hfind : (s.warps.mapV f).find w = (s.warps.find w).map (f w) := tab_find_mapV s.warps f w
  rw [State.warp, State.warp, hfind]
  cases s.warps.find w with
  | none => exact .refl _
  | some wp => exact hf w wp

theorem hitWhere_files (q : Nat → Window → Bool) : KeepsFiles w s (s.hitWhere q) := by
  refine keepsFiles_mapV w s _ fun k wp => ?_
  split
  · split
    · exact ⟨rfl, rfl, rfl⟩
    · exact .refl wp
  · exact .refl wp

theorem perform_hbm_files (but : Option Nat) (a n v : Nat) : KeepsFiles w s (s.perform but (.hbm a) n v) := by
  have hwrite : KeepsFiles w s (s.writeLoc (.hbm a) n v) := by
    unfold State.writeLoc
    dsimp only
    split
    · split <;> exact ⟨rfl, rfl, .refl _⟩
    · exact ⟨rfl, rfl, .refl _⟩
  exact hwrite.trans (keepsFiles_foldl w _ (fun t x => hitWhere_files w t _) (linesOf (.hbm a) n))

theorem bars_files (bars : List Bar) : KeepsFiles w s { s with bars := bars } := ⟨rfl, rfl, .refl _⟩

theorem releaseBar_files (b : Bar) : KeepsFiles w s (s.releaseBar b) := ⟨rfl, rfl, releaseBar_warp s b w⟩

theorem performArrival_files (a n : Nat) : KeepsFiles w s (s.performArrival a n) := by
  have hadd := perform_hbm_files w s none (a + 16) 4 ((s.readLoc (.hbm (a + 16)) 4 + n) % 2 ^ 32)
  unfold State.performArrival
  dsimp only
  generalize s.perform none (.hbm (a + 16)) 4 ((s.readLoc (.hbm (a + 16)) 4 + n) % 2 ^ 32) = t at hadd ⊢
  split
  · have hdone := perform_hbm_files w t none (a + 20) 4 1
    generalize t.perform none (.hbm (a + 20)) 4 1 = u at hdone ⊢
    refine hadd.trans (hdone.trans ?_)
    split
    · exact .refl w u
    · exact (bars_files w u _).trans (releaseBar_files w _ _)
  · exact hadd

theorem recordArrival_files (die : Nat) (b : Bar) (before : Nat) : KeepsFiles w s (s.recordArrival die b before) := by
  unfold State.recordArrival
  dsimp only
  split
  · exact .refl w s
  · split
    · exact .refl w s
    · split
      · exact performArrival_files w s _ _
      · exact ⟨rfl, rfl, .refl _⟩

theorem checkBars_files : KeepsFiles w s s.checkBars := by
  unfold State.checkBars
  exact (bars_files w s _).trans (keepsFiles_foldl w _ (releaseBar_files w) _)

theorem exitBars_files (t : State) (die : Nat) : KeepsFiles w t (s.exitBars t die) :=
  (keepsFiles_foldl w t (fun u b => recordArrival_files w u die b _) _).trans (checkBars_files w _)

end

theorem checkBars_mem (s : State) : s.checkBars.mem = s.mem :=
  List.foldlRecOn (motive := fun t : State => t.mem = s.mem) _ _ rfl fun _ h _ _ => h

/-- Without saved instances, exits write no arrival to memory (R203). -/
theorem exitBars_mem (s : State) {t : State} (die : Nat) (h : ∀ b ∈ t.bars, b.saved = none) : (s.exitBars t die).mem = t.mem := by
  have hsaved : (t.bars.filter fun b => b.saved.isSome && !b.done) = [] := by
    rw [List.filter_eq_nil_iff]
    intro b hb
    simp [h b hb]
  unfold State.exitBars
  rw [hsaved]
  exact checkBars_mem t

theorem exitBars_empty (s : State) {t : State} (die : Nat) (h : t.bars = []) : s.exitBars t die = t := by
  unfold State.exitBars
  rw [h]
  exact checkBars_empty h

/-- What the exit of lanes leaves of a warp slot, its segments and the module beside it (R34, R118). -/
theorem exit_ends (s : State) (p : Pre) :
    let wp := s.curWarp
    let m := wp.execMask p
    Completes (.exit p) s fun t => t.curWarp.live = wp.live &&& ~~~m ∧ t.curWarp.regs = wp.regs ∧ t.curWarp.preds = wp.preds ∧
      t.spad = s.spad ∧ ((∀ b ∈ s.bars, b.saved = none) → t.mem = s.mem) ∧
      (s.bars = [] → (∀ g ∈ wp.segs, g.cause = none ∧ g.queue = []) → t.apart s.cur = s.apart s.cur) ∧
      (s.bars = [] → ∀ g ∈ t.curWarp.segs, ∃ h ∈ wp.segs, g.lbase = h.lbase ∧ g.lmask = h.lmask &&& ~~~(h.rel m) ∧
        g.lpark = h.lpark &&& ~~~(h.rel m)) := by
  intro wp m
  refine ⟨_, exec_exit p s, ?_⟩
  dsimp only
  rw [show s.curWarp.execMask p = m from rfl]
  by_cases hm : m = 0
  · rw [if_pos hm, hm]
    have hkeep (x : Mask) : x &&& ~~~(0 : Mask) = x := (congrArg (x &&& ·) BitVec.not_zero).trans BitVec.and_allOnes
    have hrel (g : Seg) : g.rel (0 : Mask) = 0 := segRel_zero g
    refine ⟨(hkeep _).symm, rfl, rfl, rfl, fun _ => rfl, fun _ _ => rfl, fun _ g hg => ⟨g, hg, rfl, ?_, ?_⟩⟩
    · rw [hrel, hkeep]
    · rw [hrel, hkeep]
  rw [if_neg hm]
  have hstays := exiting_stays s m
  have hlasting := exiting_lasting s m
  have hfiles := lasting_files hlasting
  have hcur : (s.exiting m).curWarp = (s.exiting m).warp s.cur := by rw [State.curWarp, hstays.cur]
  generalize ht : s.exiting m = t at hstays hlasting hfiles hcur ⊢
  have hapart : (∀ g ∈ wp.segs, g.cause = none ∧ g.queue = []) → t.apart s.cur = s.apart s.cur := fun h => by
    rw [← ht]
    exact exiting_apart h
  have hsegs : ∀ g ∈ t.curWarp.segs, ∃ h ∈ wp.segs, g.lbase = h.lbase ∧ g.lmask = h.lmask &&& ~~~(h.rel m) ∧ g.lpark = h.lpark &&& ~~~(h.rel m) := by
    rw [← ht]
    exact fun g hg => exiting_segs hg
  split
  · have hkeeps := exitBars_files s.cur s t (dieOf t.cur)
    have hend : (s.exitBars t (dieOf t.cur)).curWarp = (s.exitBars t (dieOf t.cur)).warp s.cur := by
      rw [State.curWarp, hkeeps.cur, hstays.cur]
    have hall := hfiles.trans (hcur ▸ hkeeps.files)
    rw [← hend] at hall
    refine ⟨hall.live, hall.regs, hall.preds, hkeeps.spad.trans hstays.spad, fun h => ?_, fun h => ?_, fun h => ?_⟩
    · exact (exitBars_mem s _ (by rw [hstays.bars]; exact h)).trans hstays.mem
    · rw [exitBars_empty s _ (hstays.bars.trans h)]
      exact hapart
    · rw [exitBars_empty s _ (hstays.bars.trans h)]
      exact hsegs
  · exact ⟨hfiles.live, hfiles.regs, hfiles.preds, hstays.spad, fun _ => hstays.mem, fun _ => hapart, fun _ => hsegs⟩

/-- Settles O31. `EXIT` ends its lanes' threads and leaves registers and memory; the first arrivals at a barrier open it, and it completes
when nothing more is missing; the lanes of `DRAIN` arrive when their warp slot has drained (R34, R35, R118, R229, R230). -/
theorem threadsAndBarriers : Obligations.ThreadsAndBarriers := by
  unfold Obligations.ThreadsAndBarriers
  refine ⟨exit_ends, fun s p lvl a g x => ⟨fun k ha hk hact hfault => ⟨fun hx hb hc => ?_, fun hx hb hc => ?_, ?_⟩, fun w hw => ?_, ?_⟩⟩
  · obtain ⟨t, ht, hbars, hregs, hmem, hholds⟩ := sync_arrives ha hk hact hfault hx hb rfl
    exact ⟨t, ht, hbars.trans (if_neg fun h => Bool.false_ne_true (hc.symm.trans h)), hregs, hmem, hholds hc⟩
  · obtain ⟨t, ht, hbars, hregs, hmem, -⟩ := sync_arrives ha hk hact hfault hx hb rfl
    exact ⟨t, ht, hbars.trans (if_pos hc), hregs, hmem⟩
  · exact drain_holds ha hk hact hfault rfl
  · exact ⟨s, (exec_drainArrival w s).trans (execDrainArrival_waits hw), rfl⟩
  · exact fun w h hd hne hall honly hword hx hb => drainArrival_arrives hd hne hall honly hword hx hb

end Sys2Proof.Machine
end

section
/-! SUPPORT. Lane operations: exchange, ballot, vote and reduction, each within one segment (R154 to R158). -/

namespace Sys2Proof.Machine

/-! ### Instructions with a result and flags -/

/-- A lane-wise instruction with flags gives its lanes its values, and the flags of all of them. -/
theorem aluFlags_floats {s : State} {i : Instr} {p : Pre} {lat : Nat} {wide : Bool} {d : Reg} {t : Warp → Shape}
    (f : Warp → Nat → DWord × BitVec 5) (hd : i.wf = true → d.isSized wide = true)
    (hexec : exec i s = .next (s.aluFlags p lat wide d t f)) : Floats s i p lat wide d (f s.curWarp) := fun hwf =>
  ⟨_, hexec, aluFlags_gives s p lat wide d t f (isSized_ok wide d (hd hwf))⟩

/-! ### Destinations -/

/-- The mask of a ballot fills a pair (R156). -/
theorem isSized_of_ballot {x : Bool} {d : Reg} (h : (d.isPair && x) = true) : d.isSized true = true := (Bool.and_eq_true_iff.1 h).1

/-! ### Votes -/

/-- Equal bits make the same test. -/
theorem tests_congr {s : State} {i : Instr} {p : Pre} {lat : Nat} {d : Reg} {g k : Nat → Bool} (h : Tests s i p lat d g)
    (hgk : ∀ l, g l = k l) : Tests s i p lat d k := funext hgk ▸ h

/-- The vote `.eq` over the bits that lanes hold: all of them are set, or none is (R157). -/
theorem voteVal_eq_map (bit : Nat → Bool) (ls : List Nat) :
    voteVal .eq (ls.map bit) = (ls.all bit || ls.all fun j => !bit j) := congrArg₂ (· || ·) List.all_map List.all_map

/-- Settles O8: exchange and ballot are `alu_computes`, the vote is `aluPred_tests` with its bits
asked of the lanes themselves, and the reduction is `aluFlags_floats`. -/
theorem laneOperations : Obligations.LaneOperations := by
  unfold Obligations.LaneOperations
  intro s p op vop rop wide ty d a b m mates
  refine ⟨?xchl, ?ballot, ?vote, ?gred⟩
  case xchl => exact alu_computes (i := .xchl p op wide d a b) _ isSized_of_wfShift rfl
  case ballot => exact alu_computes (i := .ballot p d a) _ isSized_of_ballot rfl
  case vote =>
    have hvote := aluPred_tests (s := s) (i := .vote p vop d a)
      (fun wp l => voteVal vop ((wp.segLanes (wp.execMask p) l).map fun j => wp.bit a j)) rfl
    refine tests_congr hvote fun l => ?_
    cases vop with
    | any => exact List.any_map
    | all => exact List.all_map
    | eq => exact voteVal_eq_map _ _
  case gred => exact aluFlags_floats (i := .gred p rop ty d a) _ isSized_of_typed1 rfl

end Sys2Proof.Machine
end

section
/-! SUPPORT. Minimum, maximum, sign operations, rounding, conversion and comparison of floating-point values (R144, R145, R147 to R150). -/

namespace Sys2Proof.Machine

/-! ### Destinations -/

section
variable {x y z : Bool} {d : Reg}

/-- A typed floating-point instruction of one source: its destination is a vector register, or discards its result. -/
theorem isVec_of_wf_float1 (h : (x && d.isVec && y) = true) : d.isVec = true := by
  simp only [Bool.and_eq_true] at h
  obtain ⟨⟨-, hd⟩, -⟩ := h
  exact hd

/-- A typed floating-point instruction of two sources. -/
theorem isVec_of_wf_float2 (h : (x && d.isVec && y && z) = true) : d.isVec = true := isVec_of_wf_float1 (Bool.and_eq_true_iff.1 h).1

/-- The destination of a conversion fits the type that it converts to (R149). -/
theorem isSized_of_cvt {ty : Ty} (h : (x && y && d.isSized ty.is64 && z) = true) : d.isSized (Ty.is2 ty) = true := by
  simp only [Bool.and_eq_true] at h
  obtain ⟨⟨-, hd⟩, -⟩ := h
  exact is64_eq_is2 ty ▸ hd

end

/-! ### Comparison -/

/-- `FCMP` gives its lanes the bits of its comparison, and the flags of all of them (R147). -/
theorem execFcmp_gives (s : State) (p : Pre) (cond : FCond) (ftz : Bool) (ty : Ty) (d a b : Reg) :
    ∃ t, exec (.fcmp p cond ftz ty d a b) s = .next t ∧ Gives s t (s.curWarp.execMask p) 4 false .vz (fun _ => 0) d
      (fun l => (floatCmp (floatFmt ty) cond ftz (s.curWarp.val32 a l).toNat (s.curWarp.val32 b l).toNat).1)
      (orFlags (s.curWarp.execMask p) fun l =>
        (floatCmp (floatFmt ty) cond ftz (s.curWarp.val32 a l).toNat (s.curWarp.val32 b l).toNat).2) := by
  refine ⟨_, rfl, ?_⟩
  split
  case isTrue hm =>
    rw [hm, orFlags_zero]
    exact gives_none s 4 false .vz d _ _
  case isFalse hm =>
    exact gives_push s _ 4 false .vz d .general (fun _ => 0) _ _ (execMask_clause _ _ hm) (Or.inl rfl)

/-- Settles O10: each operation on one or two sources is `floatTern_floats`, where `vz`, which reads as 0, stands for the sources that it has not;
the conversion is `aluFlags_floats`, the comparison `execFcmp_gives`. -/
theorem floatComparisons : Obligations.FloatComparisons := by
  unfold Obligations.FloatComparisons
  refine ⟨?values, fun s p cond ftz ty d a b _ => execFcmp_gives s p cond ftz ty d a b⟩
  case values =>
    intro s p mode packed ftz sat ty ts d a b fmt A B out
    refine ⟨?fmin, ?fmax, ?fabs, ?fneg, ?fflr, ?frnd, ?cvt⟩
    case fmin => exact floatTern_floats (c := .vz) isVec_of_wf_float2 rfl
    case fmax => exact floatTern_floats (c := .vz) isVec_of_wf_float2 rfl
    case fabs => exact floatTern_floats (b := .vz) (c := .vz) isVec_of_wf_float1 rfl
    case fneg => exact floatTern_floats (b := .vz) (c := .vz) isVec_of_wf_float1 rfl
    case fflr => exact floatTern_floats (b := .vz) (c := .vz) isVec_of_wf_float1 rfl
    case frnd => exact floatTern_floats (b := .vz) (c := .vz) isVec_of_wf_float1 rfl
    case cvt => exact aluFlags_floats (i := .cvt p mode ftz sat ty ts d a) _ isSized_of_cvt rfl

end Sys2Proof.Machine
end

section
/-! SUPPORT. The approximated functions (R151, R153). -/

namespace Sys2Proof.Machine

/-- An approximated function gives its lanes the function's values at their source, and the flags of all of them (R151). -/
theorem floatApprox_floats {s : State} {i : Instr} {p : Pre} {ftz : Bool} {ty : Ty} {d a : Reg} (fn : ApproxFn)
    (hd : i.wf = true → d.isVec = true) (hexec : exec i s = .next (s.floatApprox fn p ftz ty d a)) : Floats s i p 8 false d fun l =>
      ((approxOp fn ty ftz (s.curWarp.val32 a l)).1.setWidth 64, (approxOp fn ty ftz (s.curWarp.val32 a l)).2) :=
  aluFlags_floats (fun wp l => ((approxOp fn ty ftz (wp.val32 a l)).1.setWidth 64, (approxOp fn ty ftz (wp.val32 a l)).2)) hd hexec

/-- Settles O11: each of the six is `floatApprox_floats` at its own function. -/
theorem approximations : Obligations.Approximations := by
  unfold Obligations.Approximations
  intro s p ftz ty d a out
  refine ⟨?rcp, ?rsq, ?exp2, ?log2, ?sin, ?cos⟩
  case rcp => exact floatApprox_floats .rcp isVec_of_wf_float1 rfl
  case rsq => exact floatApprox_floats .rsq isVec_of_wf_float1 rfl
  case exp2 => exact floatApprox_floats .exp2 isVec_of_wf_float1 rfl
  case log2 => exact floatApprox_floats .log2 isVec_of_wf_float1 rfl
  case sin => exact floatApprox_floats .sin isVec_of_wf_float1 rfl
  case cos => exact floatApprox_floats .cos isVec_of_wf_float1 rfl

end Sys2Proof.Machine
end

section
/-! SUPPORT. The atomic that marks the leaf entry of its page in the memory of `outOfOrder` (R179, R220). -/

namespace Sys2Proof.Machine

/-- The reduction of 32 bits that every lane sends to address 0. -/
def redZero : Instr := .red unguarded .add .b32 .vz .vz

/-- The lanes set `AC` and `DY` of the leaf entry, as the load does: byte 3 comes to light, and the only translation known is still that of page 0. -/
theorem redZero_uncovers : Completes redZero outOfOrder fun t => t.mem.byte 3 = 9 ∧ t.xlats = [zeroPage] :=
  completes_of_runsTo _ _ _ (by decide +kernel)

/-- Every lane's operation goes to physical address 0. -/
theorem redZero_place (l : Nat) (h : (outOfOrder.curWarp.execMask unguarded).getLsbD l = true) :
    outOfOrder.lanePlace outOfOrder.cur l .atomic 4 (outOfOrder.curWarp.val64 .vz l) = .ok ⟨.hbm 0, some zeroPage⟩ := by
  have hall : ∀ l ∈ lanesOf (outOfOrder.curWarp.execMask unguarded),
      (outOfOrder.lanePlace outOfOrder.cur l .atomic 4 (outOfOrder.curWarp.val64 .vz l)).toOption = some ⟨.hbm 0, some zeroPage⟩ := by
    decide +kernel
  have hl := hall l ((mem_lanesOf _ l).mpr h)
  cases hp : outOfOrder.lanePlace outOfOrder.cur l .atomic 4 (outOfOrder.curWarp.val64 .vz l) with
  | error e => simp [hp, Except.toOption] at hl
  | ok p => simpa [hp, Except.toOption] using hl

/-- Refutes O30. The first part asks for no canonical memory (`Memory.wf`); in `outOfOrder` the reduction that sets `AC` and `DY` of the leaf entry at
8 changes what byte 3 reads as, which lies in no leaf entry. -/
theorem not_atomicOperations : ¬Obligations.AtomicOperations := by
  unfold Obligations.AtomicOperations
  rintro ⟨hissue, -, -⟩
  obtain ⟨u, hu, hbyte, hxlats⟩ := redZero_uncovers
  obtain ⟨-, -, hred⟩ := hissue outOfOrder unguarded .exch .add false .b32 .vz .vz .vz .vz
  obtain ⟨t, ht, -, -, -, -, -, -, hmem⟩ := hred
    ⟨by decide +kernel, by decide +kernel, fun l hl => ⟨_, redZero_place l hl, by decide +kernel, by decide +kernel⟩⟩ (by decide +kernel)
  obtain rfl : u = t := Host.Outcome.next.inj (hu.symm.trans ht)
  have hleaf : ¬(zeroPage.leafPa ≤ 3 ∧ 3 < zeroPage.leafPa + 8) := by decide
  have hkeep : u.mem.byte 3 = outOfOrder.mem.byte 3 := by
    refine hmem 3 fun y hy => ?_
    suffices hzero : y = zeroPage from hzero ▸ hleaf
    obtain hknown | ⟨l, hl, hused⟩ := hy
    · simpa [hxlats] using hknown
    · have hplace : outOfOrder.okPlace outOfOrder.cur l .atomic 4 (outOfOrder.curWarp.val64 .vz l) = ⟨.hbm 0, some zeroPage⟩ := by
        rw [State.okPlace, redZero_place l hl]
      have hsome : some zeroPage = some y := (congrArg Place.xlat hplace).symm.trans hused
      exact (Option.some.inj hsome).symm
  rw [hbyte] at hkeep
  exact absurd hkeep (by decide)

end Sys2Proof.Machine
end

section
/-! SUPPORT. Posting changes nothing but logs, messages and what is due; the lists of units, launches and retired places outlive hits, barriers and
the end of a group. -/

namespace Sys2Proof.Machine

/-! ### What posting touches (R255, R348) -/

/-- `t` is `s` but for what a posted cause touches: what is due, host memory, the functions' logs and the messages sent. -/
def Told (s t : State) : Prop := ∃ agenda host fns out, t = { s with agenda := agenda, host := host, fns := fns, out := out }

theorem Told.refl (s : State) : Told s s := ⟨_, _, _, _, rfl⟩

theorem Told.trans {s t u : State} (a : Told s t) (b : Told t u) : Told s u := by
  obtain ⟨_, _, _, _, rfl⟩ := a
  obtain ⟨_, _, _, _, rfl⟩ := b
  exact ⟨_, _, _, _, rfl⟩

theorem told_foldl {α : Type} {f : State → α → State} (hf : ∀ s a, Told s (f s a)) (l : List α) (s : State) : Told s (l.foldl f s) :=
  List.foldlRecOn l f (Told.refl s) fun _ h a _ => h.trans (hf _ a)

/-- What posting does not touch is the same. -/
theorem Told.same {s t : State} {β : Type} (h : Told s t) (p : State → β)
    (hp : ∀ agenda host fns out, p { s with agenda := agenda, host := host, fns := fns, out := out } = p s) : p t = p s := by
  obtain ⟨_, _, _, _, rfl⟩ := h
  exact hp _ _ _ _

theorem onFn_told (s : State) (k : Nat) (f : Fn → Fn) : Told s (s.onFn k f) := ⟨_, _, _, _, rfl⟩

theorem msix_told (s : State) (f v : Nat) : Told s (s.msix f v) := by
  unfold State.msix
  dsimp only
  split <;> exact ⟨_, _, _, _, rfl⟩

theorem post_told (s : State) (code : Nat) (i : LogInfo) : Told s (s.post code i) := by
  have hwake : Told s (if causeDest code = .porter then s.later (.porterWake i.die) else s) := by
    split <;> exact ⟨_, _, _, _, rfl⟩
  unfold State.post
  refine hwake.trans ?_
  generalize (if causeDest code = .porter then s.later (.porterWake i.die) else s) = t
  dsimp only
  split
  · exact onFn_told t _ _
  · refine Told.trans ?_ (msix_told _ _ _)
    exact ⟨_, _, _, _, rfl⟩

theorem idlePoison_told (s : State) (die pa n : Nat) : Told s (s.idlePoison die pa n) := told_foldl (fun t _ => post_told t _ _) _ s

/-! ### The lists of units, launches and retired places -/

/-- `t` keeps of `s` the retired places, the units and the launches. -/
structure KeepsRolls (s t : State) : Prop where
  retired : t.retired = s.retired
  units : t.units = s.units
  launches : t.launches = s.launches

theorem KeepsRolls.refl (s : State) : KeepsRolls s s := ⟨rfl, rfl, rfl⟩

theorem KeepsRolls.trans {s t u : State} (a : KeepsRolls s t) (b : KeepsRolls t u) : KeepsRolls s u :=
  ⟨b.retired.trans a.retired, b.units.trans a.units, b.launches.trans a.launches⟩

theorem keepsRolls_foldl {α : Type} {f : State → α → State} (hf : ∀ s a, KeepsRolls s (f s a)) (l : List α) (s : State) :
    KeepsRolls s (l.foldl f s) :=
  List.foldlRecOn l f (KeepsRolls.refl s) fun _ h a _ => h.trans (hf _ a)

/-- Kept from a state that has the same lists. -/
theorem KeepsRolls.since {s t u : State} (h : KeepsRolls t u) (hr : t.retired = s.retired) (hu : t.units = s.units)
    (hl : t.launches = s.launches) : KeepsRolls s u := KeepsRolls.trans ⟨hr, hu, hl⟩ h

theorem Told.rolls {s t : State} (h : Told s t) : KeepsRolls s t := by
  obtain ⟨_, _, _, _, rfl⟩ := h
  exact ⟨rfl, rfl, rfl⟩

theorem hitLoc_rolls (s : State) (but : Option Nat) (l : Loc) : KeepsRolls s (s.hitLoc but l) := ⟨rfl, rfl, rfl⟩

theorem onWarp_rolls (s : State) (w : Nat) (f : Warp → Warp) : KeepsRolls s (s.onWarp w f) := ⟨rfl, rfl, rfl⟩

theorem perform_rolls (s : State) (but : Option Nat) (l : Loc) (n v : Nat) : KeepsRolls s (s.perform but l n v) := by
  have hwrite : KeepsRolls s (s.writeLoc l n v) := by
    unfold State.writeLoc
    split
    · split
      · split <;> exact ⟨rfl, rfl, rfl⟩
      · exact ⟨rfl, rfl, rfl⟩
    · exact ⟨rfl, rfl, rfl⟩
  exact hwrite.trans (keepsRolls_foldl (fun t x => hitLoc_rolls t but x) (linesOf l n) _)

theorem announce_rolls (s : State) (w lb : Nat) : KeepsRolls s (s.announce w lb) := by
  unfold State.announce
  dsimp only
  split
  · exact .refl s
  · split
    · exact .refl s
    · split
      · exact (post_told _ _ _).rolls.since rfl rfl rfl
      · exact .refl s

theorem announceAll_rolls (s : State) (w : Nat) : KeepsRolls s (s.announceAll w) :=
  keepsRolls_foldl (fun t (g : Seg) => announce_rolls t w g.lbase) (s.warp w).segs s

/-! ### Barriers (R34, R279) -/

theorem releaseBar_rolls (s : State) (b : Bar) : KeepsRolls s (s.releaseBar b) := ⟨rfl, rfl, rfl⟩

theorem checkBars_rolls (s : State) : KeepsRolls s s.checkBars :=
  (keepsRolls_foldl releaseBar_rolls _ _).since rfl rfl rfl

theorem performArrival_rolls (s : State) (a n : Nat) : KeepsRolls s (s.performArrival a n) := by
  have hadd := perform_rolls s none (.hbm (a + 16)) 4 ((s.readLoc (.hbm (a + 16)) 4 + n) % 2 ^ 32)
  unfold State.performArrival
  dsimp only
  generalize s.perform none (.hbm (a + 16)) 4 ((s.readLoc (.hbm (a + 16)) 4 + n) % 2 ^ 32) = t at hadd ⊢
  split
  · refine hadd.trans ((perform_rolls t none (.hbm (a + 20)) 4 1).trans ?_)
    split
    · exact .refl _
    · exact ⟨rfl, rfl, rfl⟩
  · exact hadd

theorem recordArrival_rolls (s : State) (die : Nat) (b : Bar) (before : Nat) : KeepsRolls s (s.recordArrival die b before) := by
  unfold State.recordArrival
  dsimp only
  split
  · exact .refl s
  · split
    · exact .refl s
    · split
      · exact performArrival_rolls s _ _
      · exact ⟨rfl, rfl, rfl⟩

theorem exitBars_rolls (s t : State) (die : Nat) : KeepsRolls t (s.exitBars t die) :=
  (keepsRolls_foldl (fun u b => recordArrival_rolls u die b _) _ t).trans (checkBars_rolls _)

/-! ### The threads and the groups that end (R74, R203, R281, R347) -/

theorem undo_rolls (s : State) (w : Nat) : KeepsRolls s (s.undo w) := by
  unfold State.undo
  dsimp only
  split
  · exact .refl s
  · exact (announceAll_rolls _ w).since rfl rfl rfl

theorem rollBack_rolls (s : State) (w : Nat) : KeepsRolls s (s.rollBack w false) := by
  unfold State.rollBack
  split
  · exact .refl s
  · exact undo_rolls s w

theorem discardLog_rolls (s : State) (w : Nat) : KeepsRolls s (s.discardLog w) := by
  have hempty : ∀ t : State, KeepsRolls t (t.logEmptied w) := fun t => by
    unfold State.logEmptied
    dsimp only
    split
    · split <;> exact ⟨rfl, rfl, rfl⟩
    · exact .refl t
  unfold State.discardLog
  dsimp only
  split
  · exact .refl s
  · exact (hempty _).since rfl rfl rfl

theorem departInsns_rolls (s : State) (gid : Nat) (f : State → State) (hf : ∀ t, KeepsRolls t (f t)) : KeepsRolls s (s.departInsns gid f) := by
  refine (hf s).trans (keepsRolls_foldl (fun t c => ?_) _ _)
  split
  · exact .refl t
  · exact ⟨rfl, rfl, rfl⟩

theorem unhold_rolls (s : State) (k : Nat) : KeepsRolls s (s.unhold k) := ⟨rfl, rfl, rfl⟩

theorem unholds_rolls (hids : List Nat) (s : State) : KeepsRolls s (hids.foldl State.unhold s) :=
  keepsRolls_foldl unhold_rolls hids s

theorem dropWaits_rolls (w : Nat) (bases : List Nat) (s : State) : KeepsRolls s (bases.foldl (fun s lb => s.dropWaits w lb) s) :=
  keepsRolls_foldl (f := fun s lb => s.dropWaits w lb) (fun _ _ => ⟨rfl, rfl, rfl⟩) bases s

theorem endThreads_rolls (s : State) (gid : Nat) : KeepsRolls s (s.endThreads gid) := by
  unfold State.endThreads
  refine KeepsRolls.trans ?_ (exitBars_rolls _ _ _)
  refine KeepsRolls.trans ?_ (departInsns_rolls _ gid _ fun _ => ⟨rfl, rfl, rfl⟩)
  refine KeepsRolls.trans ?_ (keepsRolls_foldl (fun t w => ?_) _ _)
  · refine KeepsRolls.trans ?_ (unholds_rolls _ _)
    exact keepsRolls_foldl (fun t w => (rollBack_rolls t w).trans (discardLog_rolls _ w)) _ s
  · exact ((dropWaits_rolls w _ _).trans (onWarp_rolls _ w _)).since rfl rfl rfl

theorem endGroup_rolls (s : State) (gid w : Nat) (detail : Word) : KeepsRolls s (s.endGroup gid w detail) := by
  unfold State.endGroup
  dsimp only
  split
  · exact .refl s
  · exact (endThreads_rolls s gid).trans (post_told _ _ _).rolls

end Sys2Proof.Machine
end

section
/-! SUPPORT. Frames, gating, machine errors and scrubs (R173, R309, R406 to R410). -/

namespace Sys2Proof.Machine

/-! ### What emptying a place of a cache leaves (R164, R183, R408) -/

/-- A step keeps a field through a list. -/
theorem foldl_field {α β : Type} {f : State → α → State} {p : State → β} (hf : ∀ s a, p (f s a) = p s) (l : List α) (s : State) :
    p (l.foldl f s) = p s :=
  List.foldlRecOn (motive := fun t => p t = p s) l f rfl fun _ h a _ => (hf _ a).trans h

theorem idlePoison_retired (s : State) (die pa n : Nat) : (s.idlePoison die pa n).retired = s.retired := (idlePoison_told s die pa n).rolls.retired

theorem dropAnnexLines_retired (s : State) (die : Nat) (p : Nat → Bool) : (s.dropAnnexLines die p).retired = s.retired :=
  foldl_field (p := State.retired) (fun t (q : Nat × AnnexLine) => idlePoison_retired t die (q.1 % 2 ^ 34 * 128) 128) _ s

theorem evictL1_retired (s : State) (core line : Nat) : (s.evictL1 core line).retired = s.retired := by
  unfold State.evictL1
  dsimp only
  split
  · rfl
  · split <;> exact idlePoison_retired s _ _ _

theorem roomL1_retired (s : State) (core : Nat) : (s.roomL1 core).retired = s.retired := by
  unfold State.roomL1
  split
  · exact evictL1_retired s core _
  · rfl

theorem roomL2_retired (s : State) (line : Nat) : (s.roomL2 line).retired = s.retired := by
  unfold State.roomL2
  dsimp only
  split
  · exact idlePoison_retired s _ _ _
  · rfl

theorem roomAnnex_retired (s : State) (die line : Nat) : (s.roomAnnex die line).retired = s.retired := by
  unfold State.roomAnnex
  dsimp only
  split
  · exact dropAnnexLines_retired s die (· == _)
  · rfl

theorem dropCode_retired (s : State) (core : Nat) (p : CodeLine → Bool) : (s.dropCode core p).retired = s.retired :=
  (told_foldl (fun t _ => post_told t _ _) _ s).rolls.retired

theorem vacatePlace_retired (s : State) (er : ErrInput) : (s.vacatePlace er).retired = s.retired := by
  unfold State.vacatePlace
  dsimp only
  split
  · split
    · exact idlePoison_retired s _ _ _
    · exact roomL2_retired s _
  · split
    · exact dropAnnexLines_retired s _ _
    · exact roomAnnex_retired s _ _
  · split
    · exact evictL1_retired s _ _
    · exact roomL1_retired s _
  · split <;> exact dropCode_retired s _ _
  · rfl

/-! ### What the end of a unit leaves (R190, R228, R275, R290, R397) -/

theorem detach_retired (s : State) (gid : Nat) (name : DWord) : (s.detach gid name).retired = s.retired := by
  unfold State.detach
  dsimp only
  split <;> rfl

theorem freeArea_retired (s : State) (gid : Nat) : (s.freeArea gid).retired = s.retired := by
  unfold State.freeArea
  split <;> rfl

theorem dropSaved_retired (s : State) (u : Nat) (ends : Bool) : (s.dropSaved u ends).retired = s.retired := by
  refine foldl_field (p := State.retired) (fun t q => ?_) _ s
  have hgone : ((t.detachAll q.1).freeArea q.1).retired = t.retired :=
    (freeArea_retired _ _).trans (foldl_field (p := State.retired) (fun v (x : DWord × Nat) => detach_retired v q.1 x.1) _ t)
  dsimp only
  split <;> exact hgone

theorem makeReady_retired (s : State) (key : Nat) (t : Task) : (s.makeReady key t).retired = s.retired := by
  unfold State.makeReady
  split
  · rfl
  · dsimp only
    split
    · rfl
    · split
      · exact (post_told _ _ _).rolls.retired
      · split
        · exact (post_told _ _ _).rolls.retired
        · rfl

theorem setCtr_retired (s : State) (key : Nat) (v : Word) : (s.setCtr key v).retired = s.retired := by
  unfold State.setCtr
  split
  · rfl
  · split
    · exact foldl_field (p := State.retired) (fun t (x : Nat × Task) => makeReady_retired t x.1 x.2) _ _
    · rfl

theorem taskDone_retired (s : State) (l : Launch) : (s.taskDone l).retired = s.retired := by
  unfold State.taskDone
  split
  · rfl
  · split
    · rfl
    · split
      · exact (post_told _ _ _).rolls.retired
      · exact setCtr_retired s _ _

theorem jobDone_retired (s : State) (j : Option Nat) (failed : Bool) : (s.jobDone j failed).retired = s.retired := by
  unfold State.jobDone
  split
  · rfl
  · split <;> rfl

theorem freeGals_retired (s : State) (ctx : Nat) : (s.freeGals ctx).retired = s.retired := by
  refine foldl_field (p := State.retired) (fun t q => ?_) _ s
  dsimp only
  split <;> split <;> rfl

theorem endUnit_retired (s : State) (u : Nat) (failed : Bool) : (s.endUnit u failed).retired = s.retired := by
  have hend : ∀ (t : State) k j c, (((t.taskDone k).jobDone j failed).freeGals c).retired = t.retired := fun t k j c =>
    (freeGals_retired _ c).trans ((jobDone_retired _ j failed).trans (taskDone_retired t k))
  unfold State.endUnit
  split
  · rfl
  · dsimp only
    split
    · rfl
    · split <;> exact hend _ _ _ _

theorem loseUnit_retired (s : State) (u : Nat) : (s.loseUnit u).retired = s.retired := by
  have hlater : (s.endUnitLater u).retired = s.retired := by
    unfold State.endUnitLater
    dsimp only
    split
    · exact (endUnit_retired _ u true).trans (dropSaved_retired s u true)
    · exact dropSaved_retired s u true
  exact (foldl_field (p := State.retired) (fun t _ => (endGroup_rolls t _ _ _).retired) _ _).trans hlater

/-! ### A location retired (R408) -/

/-- The units of a core that an error has taken are asked to leave it or are lost, and the list of retired places stays. -/
theorem retireUnit_retired (s : State) (er : ErrInput) : (s.retireUnit er).retired =
    if er.unit = 0 ∧ er.spare then s.retired
    else s.retired ++ [(er.die, er.unit, if er.unit = 0 ∧ !er.spare then er.addr &&& ~~~0xFFF else er.addr)] := by
  have hunits : ∀ t : State, ∀ q : Nat × UnitRec, (if er.spare then t.stopUnit q.1 else t.loseUnit q.1).retired = t.retired := fun t q => by
    split
    · rfl
    · exact loseUnit_retired t q.1
  unfold State.retireUnit
  dsimp only
  split
  · refine (foldl_field (p := State.retired) hunits _ _).trans ((post_told _ _ _).rolls.retired.trans ?_)
    split
    · exact vacatePlace_retired s er
    · exact congrArg (· ++ _) (vacatePlace_retired s er)
  · refine (post_told _ _ _).rolls.retired.trans ?_
    split
    · exact vacatePlace_retired s er
    · exact congrArg (· ++ _) (vacatePlace_retired s er)

/-- A location of memory or of a register file takes no place of a cache, and no unit stands on it. -/
theorem retireUnit_plain (s : State) (er : ErrInput) (h : er.unit = 0 ∨ er.unit = 4) :
    (s.retireUnit er).poison = s.poison ∧ (s.retireUnit er).warps = s.warps := by
  have hplace : s.vacatePlace er = s := by
    unfold State.vacatePlace
    rcases h with h | h <;> simp only [h]
  have hcore : er.unit ≠ 10 := by omega
  unfold State.retireUnit
  rw [hplace]
  dsimp only
  rw [if_neg hcore]
  split <;> exact ⟨(post_told _ _ _).same State.poison fun _ _ _ _ => rfl, (post_quiet _ _ _).warps⟩

theorem spoil_memory (s : State) (er : ErrInput) (h : er.unit = 0) :
    er.addr.toNat / 32 ∈ (s.spoil er).poison ∧ (∀ k ∈ s.poison, k ∈ (s.spoil er).poison) ∧ (s.spoil er).retired = s.retired := by
  have hspoil : s.spoil er = { s with poison := if s.poison.contains (er.addr.toNat / 32) then s.poison else s.poison ++ [er.addr.toNat / 32] } := by
    simp only [State.spoil, h]
  rw [hspoil]
  dsimp only
  by_cases hk : s.poison.contains (er.addr.toNat / 32) = true
  · rw [if_pos hk]
    exact ⟨by simpa using hk, fun _ hm => hm, rfl⟩
  · rw [if_neg hk]
    exact ⟨List.mem_append_right _ (List.mem_singleton.2 rfl), fun _ hm => List.mem_append_left _ hm, rfl⟩

theorem spoil_register (s : State) (er : ErrInput) (h : er.unit = 4) :
    er.addr.toNat % 8192 ∈ ((s.spoil er).warp (er.addr.toNat / 8192)).poison := by
  unfold State.spoil
  simp only [h, warp_onWarp_same]
  by_cases hk : (s.warp (er.addr.toNat / 8192)).poison.contains (er.addr.toNat % 8192) = true
  · rw [if_pos hk]
    simpa using hk
  · rw [if_neg hk]
    exact List.mem_append_right _ (List.mem_singleton.2 rfl)

/-! ### Corrected errors (R407, R408) -/

/-- The first corrected error of the package is posted, and its record stands alone. -/
theorem corrected_first (s : State) (die unit : Nat) (addr : DWord) (h : s.ecc = []) :
    Told { s with ecc := [⟨die, unit, s.now + 1, 0, [(addr, s.now)]⟩] } (s.corrected die unit addr) := by
  have hrec : s.eccOf die unit = ⟨die, unit, 0, 0, []⟩ := by simp [State.eccOf, h]
  unfold State.corrected
  simp only [hrec, List.filter_nil, List.nil_append, true_or, if_true, State.setEcc, h]
  exact post_told _ _ _

/-- The record of the one unit that has one is replaced. -/
theorem setEcc_only (s : State) {die unit n k n' k' : Nat} {seen seen' : List (DWord × Nat)} (h : s.ecc = [⟨die, unit, n, k, seen⟩]) :
    s.setEcc ⟨die, unit, n', k', seen'⟩ = { s with ecc := [⟨die, unit, n', k', seen'⟩] } := by
  simp [State.setEcc, h]

/-- A second corrected error in one place makes a record with both. -/
theorem corrected_second (s : State) (die unit n : Nat) (addr : DWord) (h : s.ecc = [⟨die, unit, n, 0, [(addr, s.now)]⟩]) :
    (s.corrected die unit addr).retired = s.retired ∧ (s.corrected die unit addr).twice die unit addr = true := by
  have hday : (0 : Nat) < cyclesDay := by decide
  have hrec : s.eccOf die unit = ⟨die, unit, n, 0, [(addr, s.now)]⟩ := by simp [State.eccOf, h]
  have htwice : ∀ (t : State) (last count : Nat), Told { s with ecc := [⟨die, unit, last, count, [(addr, s.now), (addr, s.now)]⟩] } t →
      t.retired = s.retired ∧ t.twice die unit addr = true := fun t last count ht => by
    have hnow : t.now = s.now := ht.same State.now fun _ _ _ _ => rfl
    have hecc : t.ecc = [⟨die, unit, last, count, [(addr, s.now), (addr, s.now)]⟩] := ht.same State.ecc fun _ _ _ _ => rfl
    exact ⟨ht.rolls.retired, by simp [State.twice, State.eccOf, hecc, hnow, hday]⟩
  have hseen : ([(addr, s.now)].filter fun x : DWord × Nat => decide (s.now < x.2 + cyclesDay)) ++ [(addr, s.now)] =
      [(addr, s.now), (addr, s.now)] := by simp [hday]
  unfold State.corrected
  dsimp only
  rw [hrec]
  dsimp only
  rw [hseen]
  split
  · refine htwice _ (s.now + 1) 0 ?_
    rw [setEcc_only s h]
    exact post_told _ _ _
  · refine htwice _ n (min (0 + 1) 0xFFFF) ?_
    rw [setEcc_only s h]
    exact .refl _

/-! ### Frames and gating (R255, R309) -/

theorem die_onDie_same (s : State) (d : Nat) (f : Die → Die) (h : d < s.dies.length) : (s.onDie d f).die d = f (s.die d) := by
  unfold State.onDie State.die setAt
  rw [List.getD_eq_getElem _ _ (by rwa [List.length_set]), List.getElem_set_self]

theorem die_onDie_other (s : State) (d k : Nat) (f : Die → Die) (h : k ≠ d) : (s.onDie d f).die k = s.die k := by
  unfold State.onDie State.die setAt
  simp [List.getD_eq_getElem?_getD, List.getElem?_set_ne (Ne.symm h)]

/-- A change of a die that keeps something of it keeps it of every die. -/
theorem die_onDie_kept {β : Type} (s : State) (d k : Nat) (f : Die → Die) (p : Die → β) (hf : ∀ x, p (f x) = p x) :
    p ((s.onDie d f).die k) = p (s.die k) := by
  by_cases hk : k = d
  · subst hk
    by_cases hl : k < s.dies.length
    · rw [die_onDie_same s k f hl, hf]
    · unfold State.onDie State.die setAt
      rw [List.set_eq_of_length_le (Nat.le_of_not_lt hl)]
  · rw [die_onDie_other s d k f hk]

/-- A wake event for a porter leaves memory, the lodge and the gating of every die. -/
theorem wakePorter_gating (s : State) (die : Nat) : (s.wakePorter die).mem = s.mem ∧ (s.wakePorter die).lodge = s.lodge ∧
    ∀ d, ((s.wakePorter die).die d).gated = (s.die d).gated ∧ ((s.wakePorter die).die d).porterGated = (s.die d).porterGated := by
  unfold State.wakePorter
  refine List.foldlRecOn (motive := fun t : State => t.mem = s.mem ∧ t.lodge = s.lodge ∧
    ∀ d, (t.die d).gated = (s.die d).gated ∧ (t.die d).porterGated = (s.die d).porterGated) _ _ ⟨rfl, rfl, fun _ => ⟨rfl, rfl⟩⟩ ?_
  intro t ht w _
  obtain ⟨hmem, hlodge, hdies⟩ := ht
  refine ⟨hmem, hlodge, fun d => ?_⟩
  obtain ⟨hg, hp⟩ := hdies d
  refine ⟨(die_onDie_kept (t.onWarp w Warp.wakeHalted) die d _ Die.gated ?_).trans hg,
    (die_onDie_kept (t.onWarp w Warp.wakeHalted) die d _ Die.porterGated ?_).trans hp⟩ <;> exact fun _ => rfl

/-- A host write to a function page wakes the porter of its die once cores are up (R309). -/
theorem hostWake_up (s : State) (die : Nat) (hup : s.lodge.coresUp = true) (hd : die < s.dies.length) :
    (s.hostWake die).mem = s.mem ∧ (s.hostWake die).lodge = s.lodge ∧ ((s.hostWake die).die die).porterGated = false ∧
      ∀ d, ((s.hostWake die).die d).gated = (s.die d).gated := by
  unfold State.hostWake
  rw [if_pos hup]
  obtain ⟨hmem, hlodge, hdies⟩ := wakePorter_gating (s.onDie die fun d => { d with porterGated := false }) die
  refine ⟨hmem, hlodge, ?_, fun d => ?_⟩
  · rw [(hdies die).2, die_onDie_same s die _ hd]
  · rw [(hdies d).1]
    exact die_onDie_kept s die d _ Die.gated fun _ => rfl

/-! ### The rows -/

theorem exec_memoryError (er : ErrInput) (s : State) : exec (.memoryError er) s = execMemoryError er s := rfl
theorem exec_hbmScrub (die : Nat) (s : State) : exec (.hbmScrub die) s = execHbmScrub die s := rfl

/-- The lodge holds the frames of a port while every core is gated, and until the woken porter has replayed them (R309). -/
theorem frames_held_iff (lost gated : Bool) (empty : Prop) :
    (lost = false ∧ (gated = true ∨ ¬empty)) ↔ ¬(lost = true ∨ (!gated) = true ∧ empty) := by
  cases lost <;> cases gated <;> simp

/-- What an awake port does with a frame is not the lodge's; a lodge that holds frames takes the lowest entry that the frame matches (R309). -/
theorem execSwezinFrameArrival_eq (port : Nat) (frame : List Byte) (s : State) :
    let l := s.lodge
    let drop := fun (s : State) => s.post 0xAF { detail := Config.openDetail 0xAF }
    let lost := s.retired.any fun q => q.1 == portDie port && q.2.1 == 9 && q.2.2.toNat == port
    let sleeps := lost = false ∧ (s.allGated = true ∨ l.frames ≠ [])
    (¬sleeps → execSwezinFrameArrival port frame s = .next s) ∧
    (sleeps → (l.wake.find? fun e => e.hits port frame) = none →
      execSwezinFrameArrival port frame s = .next (drop { s with lodge := { l with wfUnmatched := bump32 l.wfUnmatched } })) ∧
    (∀ e, sleeps → (l.wake.find? fun e => e.hits port frame) = some e → execSwezinFrameArrival port frame s =
      .next (if 16 ≤ l.frames.length then drop { s with lodge := { l with wfFull := bump32 l.wfFull } }
        else { s with lodge := { l with frames := l.frames ++ [(port, frame)] } }.hostWake e.die)) := by
  dsimp only
  unfold execSwezinFrameArrival
  simp only [ne_eq, frames_held_iff, not_not]
  refine ⟨fun h => by rw [if_pos h], fun h hf => by rw [if_neg h, hf], fun e h hf => by rw [if_neg h, hf]⟩

/-- A frame that is dropped is posted, and the counts of the lodge alone change. -/
theorem dropped_frame (s : State) (l : Lodge) :
    (({ s with lodge := l } : State).post 0xAF { detail := Config.openDetail 0xAF }).lodge = l ∧
      (({ s with lodge := l } : State).post 0xAF { detail := Config.openDetail 0xAF }).dies = s.dies := by
  have h := post_told { s with lodge := l } 0xAF { detail := Config.openDetail 0xAF }
  exact ⟨h.same State.lodge fun _ _ _ _ => rfl, h.same State.dies fun _ _ _ _ => rfl⟩

theorem execMemoryError_lasting (er : ErrInput) (s : State) (h : er.kind = .lasting) :
    exec (.memoryError er) s = .next ((s.spoil er).retireUnit er) := by
  rw [exec_memoryError]
  unfold execMemoryError
  rw [h]

theorem execMemoryError_second (er : ErrInput) (s : State) (n : Nat) (hk : er.kind = .corrected)
    (h : s.ecc = [⟨er.die, er.unit, n, 0, [(er.addr, s.now)]⟩]) :
    exec (.memoryError er) s = .next ((s.corrected er.die er.unit er.addr).retireUnit er) := by
  rw [exec_memoryError]
  unfold execMemoryError
  rw [hk]
  exact congrArg Host.Outcome.next (if_pos (corrected_second s er.die er.unit n er.addr h).2)

/-- Settles O57. The frames by `execSwezinFrameArrival_eq`, a wake by `hostWake_up`; of an error, `corrected_first`, `corrected_second` and
`spoil_memory` say what it leaves, and `retireUnit_retired` what the retirement of the place adds. -/
theorem errorEvents : Obligations.ErrorEvents := by
  unfold Obligations.ErrorEvents
  intro s die port frame er
  obtain ⟨hawake, hunmatched, hmatched⟩ := execSwezinFrameArrival_eq port frame s
  refine ⟨fun h => ⟨s, hawake h, rfl⟩, fun h hf => ⟨_, hunmatched h hf, dropped_frame s _⟩, fun e h hf =>
    ⟨fun hfull => ⟨_, hmatched e h hf, ?full⟩, fun hroom hup hd => ⟨_, hmatched e h hf, ?held⟩⟩, fun hd hl hrun =>
    ⟨fun hidle hframes => ⟨_, ?gate, rfl⟩, fun hbusy => ⟨s, ?stay, rfl⟩⟩, fun hk => ⟨_, ?retried, rfl⟩, fun hk hecc => ?first,
    fun n hk hecc hu => ⟨_, execMemoryError_second er s n hk hecc, ?second⟩, fun hk hu => ⟨_, execMemoryError_lasting er s hk, ?memory⟩,
    fun hk hu => ⟨_, execMemoryError_lasting er s hk, ?register⟩,
    fun hd hl => ⟨fun hearly => ⟨s, ?early, rfl⟩, fun hdue hp => ⟨_, ?scrub, rfl⟩⟩⟩
  case full =>
    rw [if_pos hfull]
    exact dropped_frame s _
  case held =>
    rw [if_neg (by omega)]
    exact hostWake_up _ e.die hup hd
  case gate =>
    have hopen : ¬(4 ≤ die ∨ ((s.die die).gated = true ∧ (s.die die).porterGated = true) ∨ (!s.dieIdle die) = true ∨ s.lodge.frames ≠ []) := by
      rcases hrun with hrun | hrun <;> simp [hrun, hidle, hframes, hd]
    exact congrArg Host.Outcome.next (if_neg hopen)
  case stay =>
    refine congrArg Host.Outcome.next (if_pos (.inr (.inr ?_)))
    simpa using hbusy
  case retried =>
    rw [exec_memoryError]
    unfold execMemoryError
    rw [hk]
  case first =>
    have hone := corrected_first s er.die er.unit er.addr hecc
    have hecc' := hone.same State.ecc fun _ _ _ _ => rfl
    have honce : (s.corrected er.die er.unit er.addr).twice er.die er.unit er.addr = false := by
      simp only [State.twice, State.eccOf, hecc', List.find?_cons_of_pos, beq_self_eq_true, Bool.and_self, Option.getD_some, decide_eq_false_iff_not]
      exact fun htwo => absurd (htwo.trans (List.length_filter_le _ _)) (by simp)
    refine ⟨s.corrected er.die er.unit er.addr, ?_, hone.same State.poison fun _ _ _ _ => rfl, hone.rolls.retired, hecc'⟩
    rw [exec_memoryError]
    unfold execMemoryError
    rw [hk]
    exact congrArg Host.Outcome.next (if_neg (by simp [honce]))
  case second =>
    dsimp only
    rw [retireUnit_retired, if_neg (by simp [hu]), if_neg (by simp [hu]), (corrected_second s er.die er.unit n er.addr hecc).1]
  case memory =>
    dsimp only
    obtain ⟨hpoison, hothers, hretired⟩ := spoil_memory s er hu
    rw [(retireUnit_plain (s.spoil er) er (.inl hu)).1, retireUnit_retired, hretired]
    exact ⟨hpoison, hothers, fun hspare => by simp [hu, hspare], fun hspare => by simp [hu, hspare]⟩
  case register =>
    dsimp only
    rw [State.warp, (retireUnit_plain (s.spoil er) er (.inr hu)).2]
    exact spoil_register s er hu
  case early => exact congrArg Host.Outcome.next (if_pos (.inr hearly))
  case scrub =>
    have hopen : ¬(4 ≤ die ∨ s.now < cyclesDay * ((s.die die).scrubs + 1)) := by
      simp only [cyclesDay]
      omega
    rw [exec_hbmScrub]
    unfold execHbmScrub
    rw [if_neg hopen]
    dsimp only
    rw [onDie_poison, hp]
    rfl

end Sys2Proof.Machine
end

section
/-! SUPPORT. What fills, evictions, recalls and the waking of an annex do to caches and directories (R164 to R173). -/

namespace Sys2Proof.Machine

/-! ### What the caches of a die touch -/

/-- `t` is `s` but for posts and for what the L1s, the L2s and the directories hold. -/
def Refilled (s t : State) : Prop := ∃ l1 l2 directory, Told { s with l1 := l1, l2 := l2, directory := directory } t

theorem Told.refilled {s t : State} (h : Told s t) : Refilled s t := ⟨_, _, _, h⟩

theorem Refilled.refl (s : State) : Refilled s s := (Told.refl s).refilled

theorem Refilled.trans {s t u : State} (a : Refilled s t) (b : Refilled t u) : Refilled s u := by
  obtain ⟨_, _, _, _, _, _, _, rfl⟩ := a
  obtain ⟨_, _, _, _, _, _, _, rfl⟩ := b
  exact ⟨_, _, _, _, _, _, _, rfl⟩

/-- What neither posts nor these caches touch is the same. -/
theorem Refilled.same {s t : State} {β : Type} (h : Refilled s t) (p : State → β)
    (hp : ∀ l1 l2 directory agenda host fns out,
      p { s with l1 := l1, l2 := l2, directory := directory, agenda := agenda, host := host, fns := fns, out := out } = p s) : p t = p s := by
  obtain ⟨_, _, _, _, _, _, _, rfl⟩ := h
  exact hp _ _ _ _ _ _ _

theorem Refilled.mem {s t : State} (h : Refilled s t) : t.mem = s.mem := h.same State.mem fun _ _ _ _ _ _ _ => rfl

theorem Refilled.warps {s t : State} (h : Refilled s t) : t.warps = s.warps := h.same State.warps fun _ _ _ _ _ _ _ => rfl

theorem Told.l1 {s t : State} (h : Told s t) : t.l1 = s.l1 := h.same State.l1 fun _ _ _ _ => rfl

theorem Told.directory {s t : State} (h : Told s t) : t.directory = s.directory := h.same State.directory fun _ _ _ _ => rfl

/-! ### L2 slices (R164, R183) -/

theorem useL2_told (s : State) (line : Nat) (hint : Hint) : ∃ l2, Told { s with l2 := l2 } (s.useL2 line hint) := by
  have hroom : ∃ l2, Told { s with l2 := l2 } (s.roomL2 line) := by
    unfold State.roomL2
    dsimp only
    split
    · next k _ =>
      obtain ⟨_, _, _, _, hk⟩ := idlePoison_told s (homeDie (line * 128)) (k * 128) 128
      rw [hk]
      exact ⟨_, _, _, _, _, rfl⟩
    · exact ⟨_, .refl _⟩
  unfold State.useL2
  split
  · exact ⟨_, .refl _⟩
  · split
    · exact ⟨_, .refl _⟩
    · obtain ⟨_, _, _, _, _, hr⟩ := hroom
      dsimp only
      rw [hr]
      exact ⟨_, _, _, _, _, rfl⟩

theorem useL2_refilled (s : State) (line : Nat) (hint : Hint) : Refilled s (s.useL2 line hint) := by
  obtain ⟨l2, h⟩ := useL2_told s line hint
  exact ⟨_, l2, _, h⟩

theorem useL2_l1 (s : State) (line : Nat) (hint : Hint) : (s.useL2 line hint).l1 = s.l1 := (useL2_told s line hint).choose_spec.l1

theorem useL2_dir (s : State) (line k : Nat) (hint : Hint) : (s.useL2 line hint).dir k = s.dir k := by
  rw [State.dir, (useL2_told s line hint).choose_spec.directory]
  rfl

/-! ### A line leaves an L1 (R166, R167) -/

theorem evictL1_none (s : State) (core line : Nat) (h : s.l1.find (l1Key core line) = none) : s.evictL1 core line = s := by
  unfold State.evictL1
  rw [h]

theorem evictL1_some (s : State) (core line : Nat) (x : L1Line) (h : s.l1.find (l1Key core line) = some x) :
    Told { s with
      l1 := s.l1.del (l1Key core line)
      directory := if x.owned && !x.priv then
          s.directory.put line ⟨(s.dir line).sharers, (s.dir line).owner.filter fun k => k ≠ core % 256⟩
        else s.directory } (s.evictL1 core line) := by
  obtain ⟨_, _, _, _, hposted⟩ := idlePoison_told s (core / 256) (line * 128) 128
  unfold State.evictL1
  rw [h]
  dsimp only
  rw [hposted]
  split <;> exact ⟨_, _, _, _, rfl⟩

theorem evictL1_refilled (s : State) (core line : Nat) : Refilled s (s.evictL1 core line) := by
  cases h : s.l1.find (l1Key core line) with
  | none => rw [evictL1_none s core line h]; exact .refl s
  | some x => exact ⟨_, _, _, evictL1_some s core line x h⟩

/-- The directory entry of another line stays, and that of a line of which the core has no copy. -/
theorem evictL1_dir (s : State) (core k line : Nat) (h : s.l1.find (l1Key core line) = none) : (s.evictL1 core k).dir line = s.dir line := by
  by_cases hk : k = line
  · rw [hk, evictL1_none s core line h]
  · cases hx : s.l1.find (l1Key core k) with
    | none => rw [evictL1_none s core k hx]
    | some x =>
      rw [State.dir, (evictL1_some s core k x hx).directory]
      dsimp only
      split
      · rw [tab_find_put_other _ _ _ _ (Ne.symm hk)]
        rfl
      · rfl

/-! ### A line enters an L1 (R11, R217) -/

theorem roomL1_refilled (s : State) (core : Nat) : Refilled s (s.roomL1 core) := by
  unfold State.roomL1
  split
  · exact evictL1_refilled s core _
  · exact .refl s

theorem putL1_refilled (s : State) (core line : Nat) (x : L1Line) : Refilled s (s.putL1 core line x) := by
  have hput : ∀ t : State, Refilled t { t with l1 := t.l1.put (l1Key core line) x } := fun t => ⟨_, _, _, .refl _⟩
  unfold State.putL1
  dsimp only
  split
  · exact hput s
  · exact (roomL1_refilled s core).trans (hput _)

theorem putL1_find (s : State) (core line : Nat) (x : L1Line) : (s.putL1 core line x).l1.find (l1Key core line) = some x :=
  tab_find_put_same _ _ x

/-- A fill evicts another line than its own. -/
theorem putL1_dir (s : State) (core line : Nat) (x : L1Line) : (s.putL1 core line x).dir line = s.dir line := by
  unfold State.putL1
  dsimp only
  split
  · rfl
  · next h =>
    have hnone : s.l1.find (l1Key core line) = none := by simpa using h
    have hroom : (s.roomL1 core).dir line = s.dir line := by
      unfold State.roomL1
      split
      · exact evictL1_dir s core _ line hnone
      · rfl
    exact hroom

/-! ### Owned data goes back to the home slice (R166) -/

theorem recall_none (s : State) (line : Nat) (h : (s.dir line).owner = none) : s.recall line = s := by
  unfold State.recall
  dsimp only
  rw [h]

theorem recall_some (s : State) (line k : Nat) (h : (s.dir line).owner = some k) :
    Told { s with
      directory := s.directory.put line ⟨(s.dir line).sharers ||| BitVec.ofNat 128 (2 ^ k), none⟩
      l1 := s.l1.alter (l1Key (coreNo (homeDie (line * 128)) k) line) fun x =>
        { x with owned := false, dirty := false, way := { x.way with hint := if x.way.hint = .keep then .none else x.way.hint } } }
      (s.recall line) := by
  have hback : Told s (if ((s.l1.find (l1Key (coreNo (homeDie (line * 128)) k) line)).map L1Line.dirty).getD false then
      s.idlePoison (homeDie (line * 128)) (line * 128) 128 else s) := by
    split
    · exact idlePoison_told s _ _ _
    · exact .refl s
  obtain ⟨_, _, _, _, hback⟩ := hback
  unfold State.recall
  dsimp only
  rw [h]
  dsimp only
  rw [hback]
  exact ⟨_, _, _, _, rfl⟩

theorem recall_refilled (s : State) (line : Nat) : Refilled s (s.recall line) := by
  cases h : (s.dir line).owner with
  | none => rw [recall_none s line h]; exact .refl s
  | some k => exact ⟨_, _, _, recall_some s line k h⟩

/-- After a recall the owner shares the line, and nothing owns it. -/
theorem recall_dir (s : State) (line : Nat) : ((s.recall line).dir line).owner = none ∧
    ∀ k, k < 128 → (s.dir line).owner = some k → ((s.recall line).dir line).sharers.getLsbD k = true := by
  cases h : (s.dir line).owner with
  | none => rw [recall_none s line h]; exact ⟨h, fun _ _ hk => nomatch hk⟩
  | some k =>
    have hdir : (s.recall line).dir line = ⟨(s.dir line).sharers ||| BitVec.ofNat 128 (2 ^ k), none⟩ := by
      rw [State.dir, (recall_some s line k h).directory]
      exact congrArg (Option.getD · _) (tab_find_put_same _ _ _)
    rw [hdir]
    refine ⟨rfl, fun j hj hjk => ?_⟩
    obtain rfl := Option.some.inj hjk
    rw [BitVec.getLsbD_or, BitVec.getLsbD_ofNat, Nat.testBit_two_pow_self, decide_eq_true hj]
    exact Bool.or_true _

/-- A recall reaches the owner's copy alone. -/
theorem recall_find (s : State) (line key : Nat) (h : ∀ k, (s.dir line).owner = some k → key ≠ l1Key (coreNo (homeDie (line * 128)) k) line) :
    (s.recall line).l1.find key = s.l1.find key := by
  cases hd : (s.dir line).owner with
  | none => rw [recall_none s line hd]
  | some k =>
    rw [(recall_some s line k hd).l1]
    dsimp only
    unfold Tab.alter
    split
    · exact tab_find_put_other _ _ _ _ (h k hd)
    · rfl

/-! ### The lines of an annex (R168, R171, R173) -/

theorem dropAnnexLines_told (s : State) (die : Nat) (p : Nat → Bool) :
    Told { s with
      annex := s.annex.filter fun q => !(q.1 / 2 ^ 34 == die && p (q.1 % 2 ^ 34))
      l1 := s.l1.filter fun q => !(q.2.viaAnnex && q.1 / 2 ^ 34 / 256 == die && p (q.1 % 2 ^ 34)) } (s.dropAnnexLines die p) := by
  have hposted : Told s ((s.annex.filter fun q => q.1 / 2 ^ 34 == die && p (q.1 % 2 ^ 34)).foldl
      (fun s q => s.idlePoison die (q.1 % 2 ^ 34 * 128) 128) s) := told_foldl (fun t _ => idlePoison_told t _ _ _) _ s
  obtain ⟨_, _, _, _, hposted⟩ := hposted
  unfold State.dropAnnexLines
  dsimp only
  rw [hposted]
  exact ⟨_, _, _, _, rfl⟩

/-- No line is found that a filter has taken out. -/
theorem find_filter_none {α : Type} (t : Tab α) (k : Nat) (p : Nat × α → Bool) (h : ∀ v, p (k, v) = false) : Tab.find (t.filter p) k = none := by
  cases hf : Tab.find (t.filter p) k with
  | none => rfl
  | some v => exact absurd (List.mem_filter.1 (tab_mem_of_find _ k v hf)).2 (by simp [h v])

theorem annexKey_die (die line : Nat) (h : line < 2 ^ 34) : annexKey die line / 2 ^ 34 = die := by
  unfold annexKey
  omega

theorem annexKey_line (die line : Nat) (h : line < 2 ^ 34) : annexKey die line % 2 ^ 34 = line := by
  unfold annexKey
  omega

/-- The annex line of a key is its die's and its line's. -/
theorem annexKey_mine (die line : Nat) (h : line < 2 ^ 34) (p : Nat → Bool) :
    (annexKey die line / 2 ^ 34 == die && p (annexKey die line % 2 ^ 34)) = p line := by
  rw [annexKey_die die line h, annexKey_line die line h, beq_self_eq_true, Bool.true_and]

/-- Windows that have read a line of a die take a hit as a lease on it ends (R171, R202). -/
theorem hitWhere_window (s : State) (p : Nat → Window → Bool) (k : Nat) (y : Window) (hy : (s.warp k).window = some y) (hp : p k y = true) :
    ((s.hitWhere p).warp k).window = some { y with hit := true } := by
  unfold State.warp at hy ⊢
  unfold State.hitWhere
  rw [tab_find_mapV]
  cases hk : s.warps.find k with
  | none =>
    rw [hk] at hy
    cases hy
  | some wp =>
    rw [hk] at hy
    have hwin : wp.window = some y := hy
    simp [hwin, hp]

theorem expireLine_told (s : State) (die line : Nat) (h : line < 2 ^ 34) : (s.expireLine die line).mem = s.mem ∧
    (s.expireLine die line).spent = s.spent ∧ (s.expireLine die line).leaseClock = s.leaseClock ∧ (s.expireLine die line).dies = s.dies ∧
    (∀ q ∈ (s.expireLine die line).annex, q.1 ≠ annexKey die line) ∧ ∀ k y, dieOf k = die → (s.warp k).window = some y →
      y.sig.getLsbD (Loc.hbm (line * 128)).sig = true → ((s.expireLine die line).warp k).window = some { y with hit := true } := by
  obtain ⟨_, _, _, _, ht⟩ := dropAnnexLines_told s die fun l => l == line
  unfold State.expireLine
  rw [ht]
  refine ⟨rfl, rfl, rfl, rfl, fun q hq hkey => ?_, fun k y hk hy hsig => ?_⟩
  · have hout := (List.mem_filter.1 hq).2
    rw [hkey, annexKey_mine die line h (· == line), beq_self_eq_true] at hout
    cases hout
  · exact hitWhere_window _ _ k y hy (by simp [hk, hsig])

/-- A die whose annex has woken, and what the loss of its lines is posted with (R173, R387). -/
def State.annexUp (s : State) (die : Nat) : State := s.onDie die fun d => { d with sleep := ⟨false, s.wrapCount, 0⟩ }
def State.wakeInfo (s : State) (die : Nat) : LogInfo :=
  { die := die
    detail := BitVec.ofNat 32 ((s.die die).sleep.kept.toNat + 4 * s.wrapCount.toNat + if 3 ≤ (s.die die).sleep.passed then 16 else 0) }

theorem wakeAnnex_awake (s : State) (die : Nat) (h : (s.die die).sleep.asleep = false) : s.wakeAnnex die = s := by
  have hawake : (!(s.die die).sleep.asleep) = true := by rw [h]; rfl
  exact if_pos hawake

theorem wakeAnnex_asleep (s : State) (die : Nat) (h : (s.die die).sleep.asleep = true) : s.wakeAnnex die =
    if (s.die die).sleep.kept = s.wrapCount then s.annexUp die
    else ((s.annexUp die).dropAnnexLines die fun _ => true).post 0xAE (s.wakeInfo die) := by
  have hasleep : ¬(!(s.die die).sleep.asleep) = true := by simp [h]
  exact if_neg hasleep

theorem wakeAnnex_kept (s : State) (die : Nat) (h : (s.die die).sleep.asleep = true) (hk : (s.die die).sleep.kept = s.wrapCount) :
    s.wakeAnnex die = s.annexUp die := by
  rw [wakeAnnex_asleep s die h, if_pos hk]

/-- An annex with another wrap count than the package's loses its lines as it wakes (R173, R387). -/
theorem wakeAnnex_stale (s : State) (die : Nat) (h : (s.die die).sleep.asleep = true) (hk : (s.die die).sleep.kept ≠ s.wrapCount) :
    ∃ l1, Told { s.annexUp die with annex := s.annex.filter (fun q => !(q.1 / 2 ^ 34 == die && true)), l1 := l1 } (s.wakeAnnex die) := by
  rw [wakeAnnex_asleep s die h, if_neg hk]
  exact ⟨_, (dropAnnexLines_told (s.annexUp die) die fun _ => true).trans (post_told _ _ _)⟩

/-- What the waking of an annex touches besides posts. -/
theorem wakeAnnex_told (s : State) (die : Nat) : ∃ annex l1 dies, Told { s with annex := annex, l1 := l1, dies := dies } (s.wakeAnnex die) := by
  cases ha : (s.die die).sleep.asleep with
  | false => rw [wakeAnnex_awake s die ha]; exact ⟨_, _, _, .refl s⟩
  | true =>
    by_cases hk : (s.die die).sleep.kept = s.wrapCount
    · rw [wakeAnnex_kept s die ha hk]
      exact ⟨_, _, _, .refl _⟩
    · obtain ⟨_, h⟩ := wakeAnnex_stale s die ha hk
      exact ⟨_, _, _, h⟩

/-- The waking of an annex changes how its die sleeps and nothing else of any die. -/
theorem wakeAnnex_die {β : Type} (s : State) (die k : Nat) (p : Die → β) (hp : ∀ x z, p { x with sleep := z } = p x) :
    p ((s.wakeAnnex die).die k) = p (s.die k) := by
  have hd : p ((s.annexUp die).die k) = p (s.die k) := die_onDie_kept s die k _ p fun x => hp x ⟨false, s.wrapCount, 0⟩
  cases ha : (s.die die).sleep.asleep with
  | false => rw [wakeAnnex_awake s die ha]
  | true =>
    by_cases hk : (s.die die).sleep.kept = s.wrapCount
    · rw [wakeAnnex_kept s die ha hk, hd]
    · obtain ⟨_, h⟩ := wakeAnnex_stale s die ha hk
      rw [State.die, h.same State.dies fun _ _ _ _ => rfl]
      exact hd

theorem annexHolds_false (s : State) (die line : Nat) (h : s.annex.find (annexKey die line) = none) : s.annexHolds die line = false := by
  unfold State.annexHolds
  rw [h]

/-- An annex that serves no line does not serve it once it is awake. -/
theorem annexHolds_wakeAnnex (s : State) (die line : Nat) (hl : line < 2 ^ 34) (h : s.annexHolds die line = false) :
    (s.wakeAnnex die).annexHolds die line = false := by
  cases ha : (s.die die).sleep.asleep with
  | false => rwa [wakeAnnex_awake s die ha]
  | true =>
    by_cases hk : (s.die die).sleep.kept = s.wrapCount
    · have hfresh : s.annexStale die = false := by simp [State.annexStale, hk]
      cases hf : s.annex.find (annexKey die line) with
      | none => exact annexHolds_false _ die line (by rw [wakeAnnex_kept s die ha hk]; exact hf)
      | some e =>
        have hend : decide (s.leaseClock.toNat < e.expiry) = false := by simpa [State.annexHolds, hf, hfresh] using h
        rw [wakeAnnex_kept s die ha hk]
        unfold State.annexHolds State.annexUp
        rw [onDie_annex, hf, onDie_leaseClock]
        dsimp only
        rw [hend, Bool.false_and]
    · obtain ⟨_, ht⟩ := wakeAnnex_stale s die ha hk
      refine annexHolds_false _ die line ?_
      rw [ht.same State.annex fun _ _ _ _ => rfl]
      exact find_filter_none _ _ _ fun _ => congrArg not (annexKey_mine die line hl fun _ => true)

theorem roomAnnex_told (s : State) (die line : Nat) :
    ∃ annex l1 spent, Told { s with annex := annex, l1 := l1, spent := spent } (s.roomAnnex die line) := by
  unfold State.roomAnnex
  dsimp only
  split
  · next k _ =>
    obtain ⟨_, _, _, _, h⟩ := dropAnnexLines_told s die (· == k)
    unfold State.loseAnnex
    rw [h]
    exact ⟨_, _, _, _, _, _, _, rfl⟩
  · exact ⟨_, _, _, .refl s⟩

theorem putAnnex_told (s : State) (die line : Nat) (x : AnnexLine) :
    ∃ annex l1 spent, Told { s with annex := annex, l1 := l1, spent := spent } (s.putAnnex die line x) := by
  unfold State.putAnnex
  dsimp only
  split
  · exact ⟨_, _, _, .refl _⟩
  · obtain ⟨_, _, _, _, _, _, _, h⟩ := roomAnnex_told s die line
    rw [h]
    exact ⟨_, _, _, _, _, _, _, rfl⟩

theorem putAnnex_find (s : State) (die line : Nat) (x : AnnexLine) : (s.putAnnex die line x).annex.find (annexKey die line) = some x :=
  tab_find_put_same _ _ x

/-- A line that has left the annex, or was not there, is asked of its home slice, which grants a lease and records its end (R168, R169). -/
theorem grantLease (s : State) (die line e : Nat) (hint : Hint) (way : Way) :
    let u := (s.recall line).useL2 line hint
    let t := ({ u with leases := u.leases.put line (max e ((u.leaseEnd line).getD 0)) }).putAnnex die line ⟨e, way⟩
    t.mem = s.mem ∧ t.warps = s.warps ∧ (t.dir line).owner = none ∧ t.annex.find (annexKey die line) = some ⟨e, way⟩ ∧
      ∃ n, t.leases.find line = some n ∧ e ≤ n := by
  intro u t
  have hu : Refilled s u := (recall_refilled s line).trans (useL2_refilled _ line hint)
  have howner : (u.dir line).owner = none := by rw [useL2_dir]; exact (recall_dir s line).1
  obtain ⟨_, _, _, ht⟩ := putAnnex_told { u with leases := u.leases.put line (max e ((u.leaseEnd line).getD 0)) } die line ⟨e, way⟩
  refine ⟨(ht.same State.mem fun _ _ _ _ => rfl).trans hu.mem, (ht.same State.warps fun _ _ _ _ => rfl).trans hu.warps, ?_,
    putAnnex_find _ die line _, max e ((u.leaseEnd line).getD 0), ?_, Nat.le_max_left _ _⟩
  · exact (congrArg (fun d => (Option.getD (Tab.find d line) ⟨0, none⟩).owner) (ht.same State.directory fun _ _ _ _ => rfl)).trans howner
  · rw [ht.same State.leases fun _ _ _ _ => rfl]
    exact tab_find_put_same _ _ _

/-- What a remote read leaves of memory, directory, annex and leases when the annex does not serve it (R168, R169, R173). -/
theorem annexServe_miss (s : State) (die line : Nat) (hint : Hint) (hl : line < 2 ^ 34) (hphys : line * 128 < Config.physTop)
    (h : s.annexHolds die line = false) :
    let t := s.annexServe die line hint
    let until' := min (s.leaseClock.toNat + (s.die (homeDie (line * 128))).lterm) 0xFFFF_FFFF
    t.mem = s.mem ∧ (t.dir line).owner = none ∧
      (s.annex.find (annexKey die line) = none → (s.die die).sleep.asleep = false → t.warps = s.warps) ∧
      (∃ way, t.annex.find (annexKey die line) = some ⟨until', way⟩) ∧ ∃ n, t.leases.find line = some n ∧ until' ≤ n := by
  obtain ⟨_, _, _, hwake⟩ := wakeAnnex_told s die
  have hlterm := wakeAnnex_die s die (homeDie (line * 128)) Die.lterm fun _ _ => rfl
  have hvmem := hwake.same State.mem fun _ _ _ _ => rfl
  have hvclock := hwake.same State.leaseClock fun _ _ _ _ => rfl
  have hawake := wakeAnnex_awake s die
  have hmiss := annexHolds_wakeAnnex s die line hl h
  unfold State.annexServe
  rw [if_neg (Nat.not_le.2 hphys)]
  dsimp only
  generalize s.wakeAnnex die = v at *
  rw [hmiss, if_neg Bool.false_ne_true]
  obtain ⟨x, hx, hxmem, hxclock, hxdies, hxwarps⟩ : ∃ x : State,
      (if (v.annex.find (annexKey die line)).isSome then v.expireLine die line else v) = x ∧
      x.mem = v.mem ∧ x.leaseClock = v.leaseClock ∧ x.dies = v.dies ∧ (v.annex.find (annexKey die line) = none → x.warps = v.warps) := by
    refine ⟨_, rfl, ?_⟩
    split
    · next hfound =>
      obtain ⟨hm, -, hc, hd, -, -⟩ := expireLine_told v die line hl
      exact ⟨hm, hc, hd, fun hnone => by simp [hnone] at hfound⟩
    · exact ⟨rfl, rfl, rfl, fun _ => rfl⟩
  rw [hx]
  have hu : Refilled x ((x.recall line).useL2 line hint) := (recall_refilled x line).trans (useL2_refilled _ line hint)
  have huclock := hu.same State.leaseClock fun _ _ _ _ _ _ _ => rfl
  have hudies := hu.same State.dies fun _ _ _ _ _ _ _ => rfl
  have hend : min (((x.recall line).useL2 line hint).leaseClock.toNat +
      (((x.recall line).useL2 line hint).die (homeDie (line * 128))).lterm) leaseTop =
      min (s.leaseClock.toNat + (s.die (homeDie (line * 128))).lterm) 0xFFFF_FFFF := by
    rw [State.die, huclock, hudies, hxclock, hxdies, hvclock, ← hlterm]
    rfl
  rw [hend]
  obtain ⟨hmem, hwarps, howner, hannex, hlease⟩ := grantLease x die line (min (s.leaseClock.toNat + (s.die (homeDie (line * 128))).lterm) 0xFFFF_FFFF)
    hint ⟨outerHint hint, ((x.recall line).useL2 line hint).now⟩
  refine ⟨hmem.trans (hxmem.trans hvmem), howner, fun hnone hup => ?_, ⟨_, hannex⟩, hlease⟩
  have hv := hawake hup
  rw [hwarps, hxwarps (by rw [hv]; exact hnone), hv]

end Sys2Proof.Machine
end

section
/-! SUPPORT. The wrap of the lease clock (R172, R173, R385, R386). -/

namespace Sys2Proof.Machine

/-! ### A wrap passes over the annexes -/

/-- `t` keeps of `s` what a wrap's pass over the annexes keeps: memory, warp slots and the wrap count; no annex gains a line, and as many dies have
their annexes asleep. -/
structure Passed (s t : State) : Prop where
  mem : t.mem = s.mem
  warps : t.warps = s.warps
  count : t.wrapCount = s.wrapCount
  length : t.dies.length = s.dies.length
  annex : ∀ q ∈ t.annex, q ∈ s.annex
  asleep : ∀ k, (t.die k).sleep.asleep = (s.die k).sleep.asleep

theorem Passed.refl (s : State) : Passed s s := ⟨rfl, rfl, rfl, rfl, fun _ h => h, fun _ => rfl⟩

theorem Passed.trans {s t u : State} (a : Passed s t) (b : Passed t u) : Passed s u :=
  ⟨b.mem.trans a.mem, b.warps.trans a.warps, b.count.trans a.count, b.length.trans a.length, fun q h => a.annex q (b.annex q h),
    fun k => (b.asleep k).trans (a.asleep k)⟩

theorem onDie_length (s : State) (d : Nat) (f : Die → Die) : (s.onDie d f).dies.length = s.dies.length := List.length_set

theorem onDie_beyond (s : State) (d : Nat) (f : Die → Die) (h : s.dies.length ≤ d) : s.onDie d f = s := by
  unfold State.onDie setAt
  rw [List.set_eq_of_length_le h]

theorem dropAnnexLines_passed (s : State) (die : Nat) (p : Nat → Bool) : Passed s (s.dropAnnexLines die p) := by
  obtain ⟨_, _, _, _, h⟩ := dropAnnexLines_told s die p
  rw [h]
  exact ⟨rfl, rfl, rfl, rfl, fun q hq => (List.mem_filter.1 hq).1, fun _ => rfl⟩

theorem wrapDie_passed (s : State) (d : Nat) : Passed s (s.wrapDie d) := by
  have hpass : ∀ t : State, Passed t (t.onDie d fun y => { y with sleep := { y.sleep with passed := y.sleep.passed + 1 } }) := fun t =>
    ⟨rfl, rfl, rfl, onDie_length t d _, fun _ h => h, fun k => die_onDie_kept t d k _ (fun y => y.sleep.asleep) fun _ => rfl⟩
  unfold State.wrapDie
  dsimp only
  split
  · exact dropAnnexLines_passed s d _
  · split
    · exact (dropAnnexLines_passed s d _).trans (hpass _)
    · exact hpass s

/-- An annex that is awake loses every line (R172). -/
theorem wrapDie_awake (s : State) (d : Nat) (h : (s.die d).sleep.asleep = false) : ∀ q ∈ (s.wrapDie d).annex, q.1 / 2 ^ 34 ≠ d := by
  have hawake : (!(s.die d).sleep.asleep) = true := by rw [h]; rfl
  have hdrop : s.wrapDie d = s.dropAnnexLines d fun _ => true := if_pos hawake
  intro q hq
  rw [hdrop, (dropAnnexLines_told s d _).same State.annex fun _ _ _ _ => rfl] at hq
  simpa using (List.mem_filter.1 hq).2

theorem wrapDies_passed (l : List Nat) (s : State) : Passed s (l.foldl State.wrapDie s) ∧
    ∀ d ∈ l, (s.die d).sleep.asleep = false → ∀ q ∈ (l.foldl State.wrapDie s).annex, q.1 / 2 ^ 34 ≠ d := by
  induction l generalizing s with
  | nil => exact ⟨.refl s, fun _ h => nomatch h⟩
  | cons k l ih =>
    have hk := wrapDie_passed s k
    obtain ⟨hl, hawake⟩ := ih (s.wrapDie k)
    refine ⟨hk.trans hl, fun d hd hup => ?_⟩
    rcases List.mem_cons.1 hd with rfl | hd
    · exact fun q hq => wrapDie_awake s d hup q (hl.annex q hq)
    · exact hawake d hd ((hk.asleep d).trans hup)

/-- The wrap with no window that has read a line of another die rolls no warp back (R172, R385). -/
theorem wrap_far (s : State) (late : List Nat)
    (h : ∀ q ∈ s.warps, (q.2.window.map fun x => x.readRemote (dieOf q.1)).getD false = false) :
    (s.wrap late).mem = s.mem ∧ (s.wrap late).leaseClock = 0 ∧ (s.wrap late).wrapCount = s.wrapCount + 1 ∧ (s.wrap late).leases = [] ∧
      (s.wrap late).wrapAt = none ∧ (s.wrap late).dies.length = s.dies.length ∧
      ∀ d, d < 4 → (s.die d).sleep.asleep = false → ∀ q ∈ (s.wrap late).annex, q.1 / 2 ^ 34 ≠ d := by
  obtain ⟨hpass, hawake⟩ := wrapDies_passed (List.range 4) { s with homeOps := s.homeOps.map (s.wrapStage late) }
  have hnone : (((List.range 4).foldl State.wrapDie { s with homeOps := s.homeOps.map (s.wrapStage late) }).warps.filter fun q =>
      (q.2.window.map fun x => x.readRemote (dieOf q.1)).getD false) = [] := by
    rw [hpass.warps, List.filter_eq_nil_iff]
    exact fun q hq => by simp [h q hq]
  unfold State.wrap
  dsimp only
  rw [hnone]
  exact ⟨hpass.mem, rfl, congrArg (· + 1) hpass.count, rfl, rfl, hpass.length, fun d hd hup => hawake d (List.mem_range.2 hd) hup⟩

/-! ### The dies that a wrap overtakes (R386) -/

/-- A die held and marked late, and one overtaken by a wrap, which is posted too. -/
def State.markLate (s : State) (d : Nat) : State :=
  { s with holds := s.holds ++ [(freeHold s.holds, 0, Held.die d)] }.onDie d fun x => { x with wrapLate := true }
def State.overtaken (s : State) (d : Nat) : State :=
  (s.markLate d).post 0xAD { hold := freeHold s.holds, detail := BitVec.ofNat 32 d, die := d }

theorem markLate_length (s : State) (d : Nat) : (s.markLate d).dies.length = s.dies.length := List.length_set

theorem markLate_late (s : State) (d k : Nat) (h : (s.die d).wrapLate = true ∨ (d = k ∧ d < s.dies.length)) :
    ((s.markLate k).die d).wrapLate = true := by
  have hsame : ∀ f, ({ s with holds := s.holds ++ [(freeHold s.holds, 0, Held.die k)] }.onDie k f).die d = (s.onDie k f).die d := fun _ => rfl
  unfold State.markLate
  rw [hsame]
  by_cases hd : d = k
  · subst hd
    by_cases hlt : d < s.dies.length
    · rw [die_onDie_same s d _ hlt]
    · rw [onDie_beyond s d _ (Nat.le_of_not_lt hlt)]
      exact h.resolve_right fun hr => hlt hr.2
  · rw [die_onDie_other s k d _ hd]
    exact h.resolve_right fun hr => hd hr.1

/-- The dies of a list are overtaken one after another; what has been held and marked stays so. -/
theorem overtaken_all (l : List Nat) (s : State) :
    let t := l.foldl State.overtaken s
    t.leaseClock = s.leaseClock ∧ t.wrapAt = s.wrapAt ∧ (∀ x ∈ s.holds, x ∈ t.holds) ∧ (∀ d, (s.die d).wrapLate = true → (t.die d).wrapLate = true) ∧
      ∀ d ∈ l, d < s.dies.length → (t.die d).wrapLate = true ∧ ∃ k, (k, 0, .die d) ∈ t.holds := by
  induction l generalizing s with
  | nil => exact ⟨rfl, rfl, fun _ h => h, fun _ h => h, fun _ h => nomatch h⟩
  | cons k l ih =>
    obtain ⟨hclock, hat, hholds, hlate, hall⟩ := ih (s.overtaken k)
    have hone : Told (s.markLate k) (s.overtaken k) := post_told _ _ _
    have hdies : (s.overtaken k).dies = (s.markLate k).dies := hone.same State.dies fun _ _ _ _ => rfl
    have hheld : (s.overtaken k).holds = s.holds ++ [(freeHold s.holds, 0, .die k)] := hone.same State.holds fun _ _ _ _ => rfl
    have hmark : ∀ d, (s.die d).wrapLate = true ∨ (d = k ∧ d < s.dies.length) → ((s.overtaken k).die d).wrapLate = true := fun d hd => by
      rw [State.die, hdies]
      exact markLate_late s d k hd
    refine ⟨hclock.trans (hone.same State.leaseClock fun _ _ _ _ => rfl), hat.trans (hone.same State.wrapAt fun _ _ _ _ => rfl), fun x hx => ?_,
      fun d hd => hlate d (hmark d (.inl hd)), fun d hd hlt => ?_⟩
    · exact hholds x (by rw [hheld]; exact List.mem_append_left _ hx)
    · rcases List.mem_cons.1 hd with rfl | hd
      · exact ⟨hlate d (hmark d (.inr ⟨rfl, hlt⟩)), _, hholds _ (by rw [hheld]; exact List.mem_append_right _ (List.mem_singleton.2 rfl))⟩
      · exact hall d hd (by rw [hdies, markLate_length]; exact hlt)

end Sys2Proof.Machine
end

section
/-! SUPPORT. The events of caches, leases and annexes, each on its own (R166 to R173, R202, R385 to R387). -/

namespace Sys2Proof.Machine

theorem exec_l1ReadMiss (core line : Nat) (s : State) : exec (.l1ReadMiss core line) s = execL1ReadMiss core line s := rfl
theorem exec_annexMiss (core line : Nat) (s : State) : exec (.annexMiss core line) s = execAnnexMiss core line s := rfl
theorem exec_ownershipGrant (core line : Nat) (s : State) : exec (.ownershipGrant core line) s = execOwnershipGrant core line s := rfl
theorem exec_l1Eviction (core line : Nat) (s : State) : exec (.l1Eviction core line) s = .next (s.evictL1 core line) := rfl

/-! ### Misses of reads that wait (R166 to R169) -/

/-- An access that finds the class of its page as it leaves it asks nothing of the leaf entry (R167). -/
theorem classAccess_stays {s : State} {w lane : Nat} {va : DWord} (h : s.classStays w lane va) : s.classAccess w lane va = s := by
  unfold State.classAccess
  cases hx : s.xlatOf w lane va with
  | none => rfl
  | some x =>
    dsimp only
    split
    · rfl
    · exact if_pos (h.1 x hx)

theorem dir_put (s : State) (line : Nat) (e : DirEnt) : ({ s with directory := s.directory.put line e } : State).dir line = e :=
  congrArg (Option.getD · _) (tab_find_put_same _ line e)

theorem missFor_stays {s : State} {core line v lane : Nat} {va : DWord} {hint : Hint} (miss : State → Hint → Bool → State)
    (hwait : s.waitRead core line = some (v, lane, va, hint)) (hstays : s.classStays v lane va) (hread : s.canRead core (.hbm (line * 128)) = true)
    (hphys : line * 128 < Config.physTop) : s.missFor core line miss = miss s hint (s.privAccess v lane va) := by
  have hopen : ¬((!s.canRead core (.hbm (line * 128))) = true ∨ Config.physTop ≤ line * 128) := by
    simp [hread, hphys]
  unfold State.missFor
  rw [hwait]
  dsimp only
  rw [if_neg hopen, classAccess_stays hstays, if_neg (by rw [hstays.2]; exact Bool.false_ne_true)]

theorem missFor_idle {s : State} {core line : Nat} (miss : State → Hint → Bool → State) (h : s.waitRead core line = none) :
    s.missFor core line miss = s := by
  unfold State.missFor
  rw [h]

/-- A local miss on a shared page: the owner shares the line, and the reader does unless it reads with `.nt` (R166, R217). -/
theorem readMissLocal_shared (s : State) (core line : Nat) (hint : Hint) (hhome : homeDie (line * 128) = core / 256)
    (hmiss : s.l1.find (l1Key core line) = none) (hcore : core % 256 < 128) (hown : (s.dir line).owner ≠ some (core % 256)) :
    let t := s.readMissLocal core line hint false
    t.mem = s.mem ∧ t.warps = s.warps ∧ (t.dir line).owner = none ∧
      (∀ k, k < 128 → (s.dir line).owner = some k → (t.dir line).sharers.getLsbD k = true) ∧
      (hint = .nt → t.l1.find (l1Key core line) = none) ∧
      (hint ≠ .nt → (∃ way, t.l1.find (l1Key core line) = some ⟨false, false, false, false, way⟩) ∧
        (t.dir line).sharers.getLsbD (core % 256) = true) := by
  have hu := useL2_refilled s line hint
  have hudir := useL2_dir s line line hint
  have hul1 := useL2_l1 s line hint
  unfold State.readMissLocal
  dsimp only
  rw [if_neg Bool.false_ne_true]
  generalize s.useL2 line hint = u at *
  rw [← hudir] at hown ⊢
  rw [if_neg hown]
  obtain ⟨howner, hsharers⟩ := recall_dir u line
  have hr : Refilled s (u.recall line) := hu.trans (recall_refilled u line)
  have hfind : (u.recall line).l1.find (l1Key core line) = none := by
    rw [recall_find u line _ fun k hk hkey => hown (hk.trans (congrArg some ?_)), hul1, hmiss]
    rw [hhome] at hkey
    simp only [l1Key, coreNo] at hkey
    omega
  by_cases hnt : hint = .nt
  · rw [if_pos hnt]
    exact ⟨hr.mem, hr.warps, howner, hsharers, fun _ => hfind, fun h => absurd hnt h⟩
  · rw [if_neg hnt]
    generalize u.recall line = r at *
    have hput : Refilled r ({ r with directory := r.directory.put line ⟨(r.dir line).sharers ||| BitVec.ofNat 128 (2 ^ (core % 256)), none⟩ }.putL1
        core line ⟨false, false, false, false, ⟨hint, u.now⟩⟩) := Refilled.trans ⟨_, _, _, .refl _⟩ (putL1_refilled _ _ _ _)
    have ht := hr.trans hput
    rw [putL1_dir, dir_put]
    refine ⟨ht.mem, ht.warps, rfl, fun k hk hkd => ?_, fun h => absurd h hnt, fun _ => ⟨⟨_, putL1_find _ core line _⟩, ?_⟩⟩
    · rw [BitVec.getLsbD_or, hsharers k hk hkd, Bool.true_or]
    · rw [BitVec.getLsbD_or, BitVec.getLsbD_ofNat, Nat.testBit_two_pow_self, decide_eq_true hcore]
      exact Bool.or_true _

/-- A local miss of the core that owns its page alone skips the directory (R167, R217). -/
theorem readMissLocal_priv (s : State) (core line : Nat) (hint : Hint) :
    let t := s.readMissLocal core line hint true
    t.mem = s.mem ∧ t.warps = s.warps ∧ t.dir line = s.dir line ∧
      (hint ≠ .nt → ∃ way, t.l1.find (l1Key core line) = some ⟨hint != .ro, false, false, true, way⟩) := by
  have hu := useL2_refilled s line hint
  have hudir := useL2_dir s line line hint
  unfold State.readMissLocal
  dsimp only
  rw [if_pos rfl]
  by_cases hnt : hint = .nt
  · rw [if_pos hnt]
    exact ⟨hu.mem, hu.warps, hudir, fun h => absurd hnt h⟩
  · rw [if_neg hnt]
    have ht := hu.trans (putL1_refilled _ core line ⟨hint != .ro, false, false, true, ⟨hint, (s.useL2 line hint).now⟩⟩)
    exact ⟨ht.mem, ht.warps, (putL1_dir _ core line _).trans hudir, fun _ => ⟨_, putL1_find _ core line _⟩⟩

/-- A miss on a line of another die that the annex does not hold (R168, R169). -/
theorem readMissRemote_miss (s : State) (core line : Nat) (hint : Hint) (hl : line < 2 ^ 34) (hphys : line * 128 < Config.physTop)
    (h : s.annexHolds (core / 256) line = false) :
    let t := s.readMissRemote core line hint
    let until' := min (s.leaseClock.toNat + (s.die (homeDie (line * 128))).lterm) 0xFFFF_FFFF
    t.mem = s.mem ∧ (t.dir line).owner = none ∧
      (s.annex.find (annexKey (core / 256) line) = none → (s.die (core / 256)).sleep.asleep = false → t.warps = s.warps) ∧
      (hint ≠ .nt → ∃ way, t.l1.find (l1Key core line) = some ⟨false, false, true, false, way⟩) ∧
      (∃ way, t.annex.find (annexKey (core / 256) line) = some ⟨until', way⟩) ∧ ∃ n, t.leases.find line = some n ∧ until' ≤ n := by
  obtain ⟨hmem, howner, hwarps, hannex, hlease⟩ := annexServe_miss s (core / 256) line hint hl hphys h
  unfold State.readMissRemote
  dsimp only at *
  generalize s.annexServe (core / 256) line hint = v at *
  by_cases hnt : hint = .nt
  · rw [if_pos (.inl hnt)]
    exact ⟨hmem, howner, hwarps, fun hn => absurd hnt hn, hannex, hlease⟩
  · have hopen : ¬(hint = .nt ∨ Config.physTop ≤ line * 128) := by simp [hnt, hphys]
    rw [if_neg hopen]
    have hput := putL1_refilled v core line ⟨false, false, true, false, ⟨hint, v.now⟩⟩
    refine ⟨hput.mem.trans hmem, ?_, fun ha hs => hput.warps.trans (hwarps ha hs), fun _ => ⟨_, putL1_find v core line _⟩, ?_, ?_⟩
    · rw [putL1_dir]
      exact howner
    · rw [hput.same State.annex fun _ _ _ _ _ _ _ => rfl]
      exact hannex
    · rw [hput.same State.leases fun _ _ _ _ _ _ _ => rfl]
      exact hlease

/-! ### Ownership and invalidation (R166, R202, R204) -/

/-- Every copy of a line but the keeper's goes: windows of those cores take a hit, and neither memory nor the keeper's copy changes. -/
theorem invalidateAll_hits (s : State) (w line keep : Nat) : (s.invalidateAll (some w) line keep).mem = s.mem ∧
    ∀ k y, k ≠ w → dieOf k = homeDie (line * 128) → s.copyHeld line keep (coreOf k % 256) = true → (s.warp k).window = some y →
      y.sig.getLsbD (Loc.hbm (line * 128)).sig = true → ((s.invalidateAll (some w) line keep).warp k).window = some { y with hit := true } := by
  have hposted := told_foldl (fun t (_ : Nat × L1Line) => idlePoison_told t (homeDie (line * 128)) (line * 128) 128)
    (s.l1.filter fun (key, _) => decide (key % 2 ^ 34 = line ∧ key / 2 ^ 34 / 256 = homeDie (line * 128)) &&
      s.copyHeld line keep (key / 2 ^ 34 % 256)) s
  obtain ⟨_, _, _, _, hposted⟩ := hposted
  unfold State.invalidateAll
  dsimp only
  rw [hposted]
  refine ⟨rfl, fun k y hk hd hheld hy hsig => ?_⟩
  refine hitWhere_window s (fun k x => decide (some k ≠ some w) && x.sig.getLsbD (Loc.hbm (line * 128)).sig &&
    decide (dieOf k = homeDie (line * 128)) && s.copyHeld line keep (coreOf k % 256)) k y hy ?_
  simp [hk, hd, hheld, hsig]


/-- A line granted Owned to a core for the commit of a warp (R166, R204). -/
def State.grantOwned (s : State) (core line w : Nat) : State :=
  let v := s.invalidateAll (some w) line (core % 256)
  { v with directory := v.directory.put line ⟨0, some (core % 256)⟩ }.putL1 core line
    ⟨true, false, false, false, ((s.l1.find (l1Key core line)).map L1Line.way).getD ⟨.none, s.now⟩⟩

/-- A core is granted a line: every other copy goes, and the core owns it (R166, R204). -/
theorem execOwnershipGrant_grant (core line w : Nat) (s : State) (hhome : homeDie (line * 128) = core / 256)
    (hgrant : s.commitGranted core line = some w) (hown : (s.dir line).owner ≠ some (core % 256)) :
    Completes (.ownershipGrant core line) s fun t => t.mem = s.mem ∧ t.dir line = ⟨0, some (core % 256)⟩ ∧
      (∃ way, t.l1.find (l1Key core line) = some ⟨true, false, false, false, way⟩) ∧
      ∀ k y, k ≠ w → dieOf k = homeDie (line * 128) → s.copyHeld line (core % 256) (coreOf k % 256) = true → (s.warp k).window = some y →
        y.sig.getLsbD (Loc.hbm (line * 128)).sig = true → (t.warp k).window = some { y with hit := true } := by
  obtain ⟨hmem, hhits⟩ := invalidateAll_hits s w line (core % 256)
  have hopen : ¬(homeDie (line * 128) ≠ core / 256 ∨ (s.dir line).owner = some (core % 256)) := by simp [hhome, hown]
  have hexec : exec (.ownershipGrant core line) s = .next (s.grantOwned core line w) := by
    rw [exec_ownershipGrant]
    unfold execOwnershipGrant
    rw [hgrant]
    exact congrArg Host.Outcome.next (if_neg hopen)
  refine ⟨_, hexec, ?_⟩
  unfold State.grantOwned
  generalize s.invalidateAll (some w) line (core % 256) = v at hmem hhits ⊢
  have hput := putL1_refilled { v with directory := v.directory.put line ⟨0, some (core % 256)⟩ } core line
    ⟨true, false, false, false, ((s.l1.find (l1Key core line)).map L1Line.way).getD ⟨.none, s.now⟩⟩
  refine ⟨hput.mem.trans hmem, ?_, ⟨_, putL1_find _ core line _⟩, fun k y hk hd hheld hy hsig => ?_⟩
  · rw [putL1_dir, dir_put]
  · rw [State.warp, hput.warps]
    exact hhits k y hk hd hheld hy hsig

/-- A line given up by a core, whose windows are tested (R166, R202). -/
def State.giveUp (s : State) (core line : Nat) : State :=
  let v := s.hitWhere fun k x => coreOf k == core && x.sig.getLsbD (Loc.hbm (line * 128)).sig
  { v with
    l1 := v.l1.del (l1Key core line)
    directory := v.directory.put line
      ⟨(s.dir line).sharers &&& ~~~(BitVec.ofNat 128 (2 ^ (core % 256))), (s.dir line).owner.filter fun k => k ≠ core % 256⟩ }

/-- A core gives up its copy of a line (R166, R202). -/
theorem execInvalidation_asked (core line : Nat) (s : State) (x : L1Line) (hx : s.l1.find (l1Key core line) = some x)
    (hask : ∃ q ∈ s.warps, coreOf q.1 ≠ core ∧ dieOf q.1 = core / 256 ∧ s.granted (.commit q.1) line = true) :
    Completes (.invalidation core line) s fun t => t.mem = s.mem ∧ t.l1 = s.l1.del (l1Key core line) ∧ (t.dir line).owner ≠ some (core % 256) ∧
      (core % 256 < 128 → (t.dir line).sharers.getLsbD (core % 256) = false) ∧ ∀ k, coreOf k = core → ∀ y, (s.warp k).window = some y →
        y.sig.getLsbD (Loc.hbm (line * 128)).sig = true → (t.warp k).window = some { y with hit := true } := by
  obtain ⟨q, hq, hcore, hdie, hgranted⟩ := hask
  have hopen : ¬(!(s.warps.any fun q => coreOf q.1 ≠ core && dieOf q.1 == core / 256 && s.granted (.commit q.1) line) ||
      (s.l1.find (l1Key core line)).isNone) = true := by
    have hwanted : (s.warps.any fun q => coreOf q.1 ≠ core && dieOf q.1 == core / 256 && s.granted (.commit q.1) line) = true :=
      List.any_eq_true.2 ⟨q, hq, by simp [hcore, hdie, hgranted]⟩
    rw [hwanted, hx]
    exact Bool.false_ne_true
  have hexec : exec (.invalidation core line) s = .next (s.giveUp core line) := congrArg Host.Outcome.next (if_neg hopen)
  have hdir : (s.giveUp core line).dir line =
      ⟨(s.dir line).sharers &&& ~~~(BitVec.ofNat 128 (2 ^ (core % 256))), (s.dir line).owner.filter fun k => k ≠ core % 256⟩ :=
    dir_put { s with l1 := s.l1.del (l1Key core line) } line _
  refine ⟨_, hexec, rfl, rfl, ?_, fun hlt => ?_, fun k hk y hy hsig => ?_⟩
  · rw [hdir]
    intro hown
    simpa using (Option.filter_eq_some_iff.1 hown).2
  · rw [hdir, BitVec.getLsbD_and, BitVec.getLsbD_not, BitVec.getLsbD_ofNat, Nat.testBit_two_pow_self, decide_eq_true hlt]
    simp
  · refine hitWhere_window s (fun k x => coreOf k == core && x.sig.getLsbD (Loc.hbm (line * 128)).sig) k y hy ?_
    simp [hk, hsig]

/-- A lease that has run out, of a line that the annex holds or has given up (R169, R171). -/
theorem execLeaseExpiry_over (die line : Nat) (s : State) (hl : line < 2 ^ 34)
    (hover : (s.annex.find (annexKey die line)).any (fun x => decide (x.expiry ≤ s.leaseClock.toNat)) = true ∨
      (s.spent.any fun q => q.1 == annexKey die line && decide (q.2 ≤ s.leaseClock.toNat)) = true) :
    Completes (.leaseExpiry die line) s fun t => t.mem = s.mem ∧
      ((s.annex.find (annexKey die line)).any (fun x => decide (x.expiry ≤ s.leaseClock.toNat)) = true → ∀ q ∈ t.annex, q.1 ≠ annexKey die line) ∧
      (∀ n, n ≤ s.leaseClock.toNat → (annexKey die line, n) ∉ t.spent) ∧
      ∀ k, dieOf k = die → ∀ y, (s.warp k).window = some y → y.sig.getLsbD (Loc.hbm (line * 128)).sig = true →
        (t.warp k).window = some { y with hit := true } := by
  have hspent : ∀ n, n ≤ s.leaseClock.toNat → (annexKey die line, n) ∉
      s.spent.filter fun q => !(q.1 == annexKey die line && decide (q.2 ≤ s.leaseClock.toNat)) := fun n hn hin => by
    have := (List.mem_filter.1 hin).2
    simp [hn] at this
  have hhit : ∀ t : State, t.warps = s.warps → ∀ k, dieOf k = die → ∀ y, (s.warp k).window = some y →
      y.sig.getLsbD (Loc.hbm (line * 128)).sig = true → ((t.hitLease die line).warp k).window = some { y with hit := true } :=
    fun t ht k hk y hy hsig => by
      refine hitWhere_window t _ k y (by rw [State.warp, ht]; exact hy) ?_
      simp [hk, hsig]
  have hexec : exec (.leaseExpiry die line) s = .next (
      if (s.annex.find (annexKey die line)).any fun x => decide (x.expiry ≤ s.leaseClock.toNat) then
        { s with spent := s.spent.filter fun q => !(q.1 == annexKey die line && decide (q.2 ≤ s.leaseClock.toNat)) }.expireLine die line
      else { s with spent := s.spent.filter fun q => !(q.1 == annexKey die line && decide (q.2 ≤ s.leaseClock.toNat)) }.hitLease die line) :=
    congrArg Host.Outcome.next (if_pos (by simpa using hover))
  refine ⟨_, hexec, ?_⟩
  by_cases hannex : (s.annex.find (annexKey die line)).any (fun x => decide (x.expiry ≤ s.leaseClock.toNat)) = true
  · rw [if_pos hannex]
    obtain ⟨hmem, hspent', -, -, hgone, hhit'⟩ := expireLine_told { s with spent := s.spent.filter fun q =>
      !(q.1 == annexKey die line && decide (q.2 ≤ s.leaseClock.toNat)) } die line hl
    exact ⟨hmem, fun _ => hgone, by rw [hspent']; exact hspent, fun k hk y hy hsig => hhit' k y hk hy hsig⟩
  · rw [if_neg hannex]
    exact ⟨rfl, fun h => absurd h hannex, hspent, hhit _ rfl⟩

/-! ### The rows of the wrap and of the waking of an annex (R172, R173, R385 to R387) -/

theorem execLeaseWrap_idle (s : State) (h : s.wrapAt = none ∨ ∃ d, d < 4 ∧ s.remoteLeft d = true) : execLeaseWrap s = .next s := by
  refine congrArg Host.Outcome.next (if_neg ?_)
  rcases h with h | ⟨d, hd, hleft⟩
  · simp [h]
  · have hany : (List.range Config.dies).any s.remoteLeft = true := List.any_eq_true.2 ⟨d, List.mem_range.2 hd, hleft⟩
    simp [hany]

theorem execLeaseWrap_drained (s : State) (hat : s.wrapAt.isSome = true) (h : ∀ d, d < 4 → s.remoteLeft d = false) :
    execLeaseWrap s = .next (s.wrap []) := by
  have hnone : (List.range Config.dies).any s.remoteLeft = false := List.any_eq_false.2 fun d hd => by simp [h d (List.mem_range.1 hd)]
  refine congrArg Host.Outcome.next (if_pos ?_)
  rw [hat, hnone]
  rfl

theorem mem_lateDies (s : State) (d : Nat) : d ∈ (List.range Config.dies).filter s.remoteLeft ↔ d < 4 ∧ s.remoteLeft d = true :=
  List.mem_filter.trans (and_congr_left' List.mem_range)

theorem execWrapStall_idle (s : State) (die n : Nat) (hat : s.wrapAt = some n) (h : s.now < n + 2048 ∨ s.remoteLeft die = false) :
    execWrapStall die s = .next s := by
  unfold execWrapStall
  rw [hat]
  refine congrArg Host.Outcome.next (if_pos (h.imp_right fun hleft => ?_))
  have hout : ((List.range Config.dies).filter s.remoteLeft).contains die = false := by
    rw [List.contains_eq_mem, decide_eq_false_iff_not, mem_lateDies, hleft]
    simp
  rw [hout]
  rfl

theorem execWrapStall_due (s : State) (die n : Nat) (hat : s.wrapAt = some n) (hdue : n + 2048 ≤ s.now) (hd : die < 4)
    (hleft : s.remoteLeft die = true) : execWrapStall die s = .next
      (((List.range Config.dies).filter s.remoteLeft).foldl State.overtaken (s.wrap ((List.range Config.dies).filter s.remoteLeft))) := by
  have hin : ((List.range Config.dies).filter s.remoteLeft).contains die = true :=
    List.contains_iff_mem.2 ((mem_lateDies s die).2 ⟨hd, hleft⟩)
  have hopen : ¬(s.now < n + 2048 ∨ (!((List.range Config.dies).filter s.remoteLeft).contains die) = true) := by
    rw [hin]
    simpa using hdue
  unfold execWrapStall
  rw [hat]
  exact congrArg Host.Outcome.next (if_neg hopen)

theorem execAnnexWake_up (s : State) (die : Nat) (h : (s.die die).gated = false) : execAnnexWake die s = .next (s.wakeAnnex die) :=
  congrArg Host.Outcome.next (if_neg (by rw [h]; exact Bool.false_ne_true))

/-- The annex of a die wakes (R173, R387). -/
theorem wakeAnnex_asleep_false (s : State) (die : Nat) (h : (s.die die).sleep.asleep = true) (hd : die < s.dies.length) :
    ((s.wakeAnnex die).die die).sleep.asleep = false := by
  have hup : ((s.annexUp die).die die).sleep.asleep = false := by
    unfold State.annexUp
    rw [die_onDie_same s die _ hd]
  by_cases hk : (s.die die).sleep.kept = s.wrapCount
  · rw [wakeAnnex_kept s die h hk]
    exact hup
  · obtain ⟨_, ht⟩ := wakeAnnex_stale s die h hk
    rw [State.die, ht.same State.dies fun _ _ _ _ => rfl]
    exact hup

theorem evictL1_kept (s : State) (core line : Nat) (x : L1Line) (h : s.l1.find (l1Key core line) = some x) :
    (s.evictL1 core line).l1 = s.l1.del (l1Key core line) ∧
      (x.owned = false ∨ x.priv = true → (s.evictL1 core line).directory = s.directory) ∧
      (x.owned = true → x.priv = false → ((s.evictL1 core line).dir line).owner ≠ some (core % 256) ∧
        ((s.evictL1 core line).dir line).sharers = (s.dir line).sharers) := by
  have ht := evictL1_some s core line x h
  refine ⟨ht.l1, fun hx => ?_, fun ho hp => ?_⟩
  · rw [ht.directory]
    exact if_neg (by rcases hx with hx | hx <;> simp [hx])
  · have hdir : (s.evictL1 core line).dir line = ⟨(s.dir line).sharers, (s.dir line).owner.filter fun k => k ≠ core % 256⟩ := by
      rw [State.dir, ht.directory]
      simp [ho, hp]
    rw [hdir]
    refine ⟨fun hown => ?_, rfl⟩
    simpa using (Option.filter_eq_some_iff.1 hown).2

/-- Settles O42. A miss by `readMissLocal_shared`, `readMissLocal_priv` and `readMissRemote_miss` once `missFor_stays` has found nothing to ask of
the leaf entry; a grant, an invalidation and a lease that ends by what their hits leave; the wrap by `wrap_far` and `overtaken_all`. -/
theorem cacheEvents : Obligations.CacheEvents := by
  unfold Obligations.CacheEvents
  refine ⟨?events, ?clock⟩
  case events =>
    intro s core line die w e x hl
    refine ⟨fun v lane va hint hwait hstays hread hphys => ⟨fun hhome hmiss => ⟨fun hpriv hcore hown => ⟨_, ?shared,
        readMissLocal_shared s core line hint hhome hmiss hcore hown⟩, fun hpriv => ⟨_, ?priv, readMissLocal_priv s core line hint⟩⟩,
      fun hhome hannex => ⟨_, ?remote, readMissRemote_miss s core line hint hl hphys hannex⟩⟩,
      fun hwait => ⟨⟨s, ?nolocal, rfl⟩, ⟨s, ?noremote, rfl⟩⟩, fun hhome hgrant hown => ?grant, fun hgrant => ⟨s, ?nogrant, rfl⟩,
      fun hx hask => ?invalidation, fun hx => ⟨_, exec_l1Eviction core line s, ?eviction⟩, fun he hexp => ?expiry, fun n hn hexp => ?spent⟩
    case shared =>
      refine congrArg Host.Outcome.next ((if_pos ⟨hhome, by rw [hmiss]; rfl⟩).trans ?_)
      rw [missFor_stays _ hwait hstays hread hphys, hpriv]
    case priv =>
      refine congrArg Host.Outcome.next ((if_pos ⟨hhome, by rw [hmiss]; rfl⟩).trans ?_)
      rw [missFor_stays _ hwait hstays hread hphys, hpriv]
    case remote => exact congrArg Host.Outcome.next ((if_pos hhome).trans (missFor_stays _ hwait hstays hread hphys))
    case nolocal =>
      rw [exec_l1ReadMiss]
      unfold execL1ReadMiss
      rw [missFor_idle _ hwait, ite_self]
    case noremote =>
      rw [exec_annexMiss]
      unfold execAnnexMiss
      rw [missFor_idle _ hwait, ite_self]
    case grant =>
      obtain ⟨t, ht, hmem, hdir, hown', hhits⟩ := execOwnershipGrant_grant core line w s hhome hgrant hown
      refine ⟨t, ht, hmem, hdir, hown', fun k hk hd hcore hheld y hy hsig => hhits k y hk hd ?_ hy hsig⟩
      unfold State.copyHeld
      dsimp only
      rw [decide_eq_true hcore, Bool.true_and]
      rcases hheld with hheld | hheld | hheld <;> simp [hheld]
    case nogrant =>
      rw [exec_ownershipGrant]
      unfold execOwnershipGrant
      rw [hgrant]
    case invalidation => exact execInvalidation_asked core line s x hx hask
    case eviction =>
      have ht := evictL1_refilled s core line
      exact ⟨ht.mem, ht.warps, evictL1_kept s core line x hx⟩
    case expiry =>
      have hover : (s.annex.find (annexKey die line)).any (fun x => decide (x.expiry ≤ s.leaseClock.toNat)) = true := by
        rw [he]
        exact decide_eq_true hexp
      obtain ⟨t, ht, hmem, hgone, -, hhits⟩ := execLeaseExpiry_over die line s hl (.inl hover)
      exact ⟨t, ht, hmem, hgone hover, hhits⟩
    case spent =>
      have hover : (s.spent.any fun q => q.1 == annexKey die line && decide (q.2 ≤ s.leaseClock.toNat)) = true :=
        List.any_eq_true.2 ⟨_, hn, by simp [hexp]⟩
      obtain ⟨t, ht, hmem, -, hspent, hhits⟩ := execLeaseExpiry_over die line s hl (.inr hover)
      exact ⟨t, ht, hmem, hspent n hexp, hhits⟩
  case clock =>
    intro s die
    refine ⟨fun hat hdrained hfar => ⟨_, execLeaseWrap_drained s hat hdrained, ?wrap⟩, fun hidle => ⟨s, execLeaseWrap_idle s hidle, rfl⟩,
      fun n hat hdue hfar hlen hd hleft => ⟨_, execWrapStall_due s die n hat hdue hd hleft, ?stall⟩,
      fun n hat hidle => ⟨s, execWrapStall_idle s die n hat hidle, rfl⟩, fun hasleep hgated hlen =>
        ⟨fun hkept => ⟨_, execAnnexWake_up s die hgated, ?kept⟩, fun hstale => ⟨_, execAnnexWake_up s die hgated, ?stale⟩⟩⟩
    case wrap =>
      obtain ⟨hmem, hclock, hcount, hleases, hat, -, hannex⟩ := wrap_far s [] hfar
      exact ⟨hmem, hclock, hcount, hleases, hat, hannex⟩
    case stall =>
      obtain ⟨-, hclock, -, -, hnone, hdies, -⟩ := wrap_far s ((List.range Config.dies).filter s.remoteLeft) hfar
      obtain ⟨hclock', hnone', -, -, hlate⟩ := overtaken_all ((List.range Config.dies).filter s.remoteLeft)
        (s.wrap ((List.range Config.dies).filter s.remoteLeft))
      exact ⟨hclock'.trans hclock, hnone'.trans hnone, fun d hd hl hleft' => hlate d ((mem_lateDies s d).2 ⟨hd, hleft'⟩) (by rw [hdies]; exact hl)⟩
    case kept =>
      refine ⟨?_, (wakeAnnex_quiet s die).mem, wakeAnnex_asleep_false s die hasleep hlen⟩
      rw [wakeAnnex_kept s die hasleep hkept]
      rfl
    case stale =>
      obtain ⟨_, ht⟩ := wakeAnnex_stale s die hasleep hstale
      refine ⟨fun q hq => ?_, wakeAnnex_asleep_false s die hasleep hlen⟩
      rw [ht.same State.annex fun _ _ _ _ => rfl] at hq
      simpa using (List.mem_filter.1 hq).2

end Sys2Proof.Machine
end

section
/-! SUPPORT. What saving a group writes and frees (R29, R170, R272, R275, R279). -/

namespace Sys2Proof.Machine

/-! ### What keeps the groups and the launches -/

/-- `t` keeps of `s` the groups and the launches. -/
structure KeepsGroups (s t : State) : Prop where
  groups : t.groups = s.groups
  launches : t.launches = s.launches

theorem KeepsGroups.refl (s : State) : KeepsGroups s s := ⟨rfl, rfl⟩

theorem KeepsGroups.trans {s t u : State} (a : KeepsGroups s t) (b : KeepsGroups t u) : KeepsGroups s u :=
  ⟨b.groups.trans a.groups, b.launches.trans a.launches⟩

/-- Kept from a state that has the same groups and launches. -/
theorem KeepsGroups.since {s t u : State} (h : KeepsGroups t u) (hg : t.groups = s.groups) (hl : t.launches = s.launches) : KeepsGroups s u :=
  KeepsGroups.trans ⟨hg, hl⟩ h

theorem keepsGroups_foldl {α : Type} {f : State → α → State} (hf : ∀ s a, KeepsGroups s (f s a)) (l : List α) (s : State) :
    KeepsGroups s (l.foldl f s) :=
  List.foldlRecOn l f (KeepsGroups.refl s) fun _ h a _ => h.trans (hf _ a)

theorem Told.keepsGroups {s t : State} (h : Told s t) : KeepsGroups s t :=
  ⟨h.same State.groups fun _ _ _ _ => rfl, h.same State.launches fun _ _ _ _ => rfl⟩

theorem Refilled.keepsGroups {s t : State} (h : Refilled s t) : KeepsGroups s t :=
  ⟨h.same State.groups fun _ _ _ _ _ _ _ => rfl, h.same State.launches fun _ _ _ _ _ _ _ => rfl⟩

theorem onWarp_keepsGroups (s : State) (w : Nat) (f : Warp → Warp) : KeepsGroups s (s.onWarp w f) := ⟨rfl, rfl⟩

theorem hitLoc_keepsGroups (s : State) (but : Option Nat) (l : Loc) : KeepsGroups s (s.hitLoc but l) := ⟨rfl, rfl⟩

theorem perform_keepsGroups (s : State) (but : Option Nat) (l : Loc) (n v : Nat) : KeepsGroups s (s.perform but l n v) := by
  have hwrite : KeepsGroups s (s.writeLoc l n v) := by
    unfold State.writeLoc
    split
    · split
      · split <;> exact ⟨rfl, rfl⟩
      · exact ⟨rfl, rfl⟩
    · exact ⟨rfl, rfl⟩
  exact hwrite.trans (keepsGroups_foldl (fun t x => hitLoc_keepsGroups t but x) (linesOf l n) _)

/-! ### A piece of an area written (R166, R167, R179, R202) -/

theorem flushPage_keepsGroups (s : State) (core base size : Nat) : KeepsGroups s (s.flushPage core base size) :=
  (keepsGroups_foldl (fun t l => (evictL1_refilled t core l).keepsGroups) _ s).trans ⟨rfl, rfl⟩

theorem performLeaf_keepsGroups (s : State) (o : HomeOp) : KeepsGroups s (s.performLeaf o) := by
  have hwrite : ∀ t : State, KeepsGroups s t → ∀ a e,
      KeepsGroups s (if t.mem.dword a = e then t else t.perform (some o.warp) (.hbm a) 8 e.toNat) := by
    intro t ht a e
    split
    · exact ht
    · exact ht.trans (perform_keepsGroups _ _ _ _ _)
  unfold State.performLeaf
  split
  · exact .refl s
  · next a _ =>
    dsimp only
    cases (o.leafAfter (s.mem.dword a)).2 with
    | none => exact hwrite s (.refl s) a _
    | some x => exact hwrite _ (flushPage_keepsGroups s _ _ _) a _

theorem leafOp_keepsGroups (s : State) (o : HomeOp) : KeepsGroups s (s.leafOp o) := by
  have hwait : ∀ q : HomeOp, KeepsGroups s (if s.homeOps.contains q then s else { s with homeOps := s.homeOps ++ [q] }) := fun q => by
    split <;> exact ⟨rfl, rfl⟩
  unfold State.leafOp
  split
  · exact .refl s
  · dsimp only
    split
    · exact .refl s
    · split
      · exact performLeaf_keepsGroups s o
      · exact hwait _

theorem invalidateAll_keepsGroups (s : State) (but : Option Nat) (line keep : Nat) : KeepsGroups s (s.invalidateAll but line keep) :=
  (keepsGroups_foldl (fun t _ => (idlePoison_told t _ _ _).keepsGroups) _ s).trans ⟨rfl, rfl⟩

theorem writePiece_keepsGroups (s : State) (p : Piece) (bs : List Byte) (poison : Bool) : KeepsGroups s (s.writePiece p bs poison) := by
  have hpage : KeepsGroups s (match p.xlat with
      | some x => (((s.keepXlat x).setLeaf none x 0x300).classify none none x)
      | none => s) := by
    split
    · next x _ =>
      have hkeep : KeepsGroups s (s.keepXlat x) := by
        unfold State.keepXlat
        split <;> exact ⟨rfl, rfl⟩
      exact (hkeep.trans (leafOp_keepsGroups _ _)).trans (leafOp_keepsGroups _ _)
    · exact .refl s
  have hlines : ∀ (t : State) (ls : List Nat), KeepsGroups t (ls.foldl (fun s l => (s.invalidateAll none l 1000).useL2 l .none) t) := fun t ls =>
    keepsGroups_foldl (fun v l => (invalidateAll_keepsGroups v none l 1000).trans (useL2_refilled _ l .none).keepsGroups) ls t
  have hhits : ∀ (t : State) (ls : List Loc), KeepsGroups t (ls.foldl (fun s l => s.hitLoc none l) t) := fun t ls =>
    keepsGroups_foldl (fun v l => hitLoc_keepsGroups v none l) ls t
  unfold State.writePiece
  dsimp only
  refine KeepsGroups.trans ?_ (hhits _ _)
  refine KeepsGroups.trans (hpage.trans (hlines _ (pieceLines [p]))) ?_
  cases p.loc <;> exact ⟨rfl, rfl⟩

theorem writePieces_keepsGroups (s : State) (poison : Bool) (ps : List Piece) (bs : List Byte) : KeepsGroups s (s.writePieces poison ps bs) := by
  induction ps generalizing s bs with
  | nil => exact .refl s
  | cons p ps ih => exact (writePiece_keepsGroups s p bs poison).trans (ih _ _)

theorem writeArea_keepsGroups (s : State) (gid area : Nat) (ps : List Piece) (img : List Chunk) (barOff : Nat) :
    KeepsGroups s (s.writeArea gid area ps img barOff) :=
  (writePieces_keepsGroups s false ps (chunkBytes img)).trans ⟨rfl, rfl⟩

theorem endTakeovers_keepsGroups (s : State) (gid : Nat) : KeepsGroups s (s.endTakeovers gid) :=
  keepsGroups_foldl (fun t q => by split <;> exact ⟨rfl, rfl⟩) (s.segsOf gid) s

theorem settleHeld_keepsGroups (s : State) (gid : Nat) : KeepsGroups s (s.settleHeld gid) :=
  keepsGroups_foldl (fun t w => onWarp_keepsGroups t w fun wp => wp.settleHeld gid) (s.warpsOf gid) s

/-! ### A group off its core (R29, R272) -/

/-- `t` keeps of `s` the launches and the launch of every group, and no group is placed that was not. -/
structure Unplaces (s t : State) : Prop where
  launches : t.launches = s.launches
  launch : ∀ k, (t.group k).map Group.launch = (s.group k).map Group.launch
  placed : ∀ k, (t.group k).map Group.placed = some true → (s.group k).map Group.placed = some true

theorem KeepsGroups.unplaces {s t : State} (h : KeepsGroups s t) : Unplaces s t :=
  ⟨h.launches, fun k => by rw [State.group, h.groups]; rfl, fun k => by rw [State.group, h.groups]; exact id⟩

theorem Unplaces.trans {s t u : State} (a : Unplaces s t) (b : Unplaces t u) : Unplaces s u :=
  ⟨b.launches.trans a.launches, fun k => (b.launch k).trans (a.launch k), fun k h => a.placed k (b.placed k h)⟩

/-- A group keeps its launch. -/
theorem Unplaces.launchOf {s t : State} (h : Unplaces s t) (k : Nat) : t.launchOf k = s.launchOf k := by
  have hbind : ∀ v : State, v.launchOf k = ((v.group k).map Group.launch).bind fun n => v.launches.find n := fun v => by
    unfold State.launchOf
    rw [Option.bind_map]
    rfl
  rw [hbind, hbind, h.launch, h.launches]

/-- A group put back with the same launch, and not placed if it was not. -/
theorem unplaces_put {s : State} {gid : Nat} {x y : Group} (h : s.group gid = some x) (hl : y.launch = x.launch)
    (hp : y.placed = true → x.placed = true) : Unplaces s { s with groups := s.groups.put gid y } := by
  have hself : (Tab.put s.groups gid y).find gid = some y := tab_find_put_same _ _ _
  have hother : ∀ k, k ≠ gid → (Tab.put s.groups gid y).find k = s.groups.find k := fun k hk => tab_find_put_other _ _ _ _ hk
  refine ⟨rfl, fun k => ?_, fun k hk => ?_⟩
  · by_cases hkg : k = gid
    · subst hkg
      simp [State.group, hself, show s.groups.find k = some x from h, hl]
    · simp [State.group, hother k hkg]
  · by_cases hkg : k = gid
    · subst hkg
      simp only [State.group, hself, Option.map_some, Option.some.injEq] at hk
      rw [h, Option.map_some, hp hk]
    · rwa [State.group, hother k hkg] at hk

theorem freeGroup_keepsGroups (s : State) (gid : Nat) : KeepsGroups s (s.freeGroup gid) := by
  have hvacate : KeepsGroups s (s.vacate gid) := keepsGroups_foldl (fun t w => by dsimp only; split <;> exact ⟨rfl, rfl⟩) _ s
  unfold State.freeGroup
  split
  · exact .refl s
  · next x _ =>
    obtain ⟨_, h⟩ := ownTiles_eq (s.vacate gid) x.core x.tiles none
    rw [h]
    exact hvacate.trans ⟨rfl, rfl⟩

theorem departInsns_keepsGroups (s : State) (gid : Nat) (f : State → State) : KeepsGroups (f s) (s.departInsns gid f) := by
  refine keepsGroups_foldl (fun t c => ?_) _ _
  split
  · exact .refl t
  · exact ⟨rfl, rfl⟩

/-- The lanes of a group leave the warp slots in which they stood. -/
def State.leaveWarps (s : State) (gid : Nat) : State :=
  (s.warpsOf gid).foldl (fun s w =>
    let bases := ((s.warp w).segs.filter fun g => g.gid == gid).map Seg.lbase
    let s := s.onCore (coreOf w) fun c => { c with landings := c.landings.map fun d =>
      if d.st ≠ .free ∧ d.warp = w ∧ bases.contains d.lbase then Landing.reset else d }
    let s := bases.foldl (fun s lb => s.dropWaits w lb) s
    let hids := ((s.warp w).segs.filter fun g => g.gid == gid).filterMap fun g => (g.cause.map SegCause.hid).filter (· ≠ 0)
    (hids.foldl State.unhold s).onWarp w fun wp => wp.dropGroup gid) s

theorem leaveWarps_keepsGroups (s : State) (gid : Nat) : KeepsGroups s (s.leaveWarps gid) := by
  have hwaits : ∀ (t : State) w (bases : List Nat), KeepsGroups t (bases.foldl (fun s lb => s.dropWaits w lb) t) := fun t w bases =>
    keepsGroups_foldl (f := fun s lb => s.dropWaits w lb) (fun _ _ => ⟨rfl, rfl⟩) bases t
  have hholds : ∀ (t : State) (hids : List Nat), KeepsGroups t (hids.foldl State.unhold t) := fun t hids =>
    keepsGroups_foldl (f := State.unhold) (fun _ _ => ⟨rfl, rfl⟩) hids t
  refine keepsGroups_foldl (fun t w => ?_) _ s
  exact ((hwaits _ w _).trans ((hholds _ _).trans (onWarp_keepsGroups _ w _))).since rfl rfl

/-- A group as it is off its core: the notices that wait are kept with it (R272, R350). -/
def State.offCored (s : State) (gid : Nat) (x : Group) : Group :=
  { x with
    placed := false
    notices := (s.segsOf gid).foldl (fun (t : Tab (List Nat)) q => if q.2.notices = [] then t else t.put q.2.idx q.2.notices) [] }

theorem offCore_put (s : State) (gid : Nat) (x : Group) (h : s.group gid = some x) :
    (s.offCore gid).groups = s.groups.put gid (s.offCored gid x) ∧ (s.offCore gid).launches = s.launches := by
  have heq : s.offCore gid = (s.leaveWarps gid).departInsns gid fun t =>
      { t.freeGroup gid with groups := (t.freeGroup gid).groups.put gid (s.offCored gid x) } := by
    unfold State.offCore
    rw [h]
    rfl
  have hleave := (leaveWarps_keepsGroups s gid).trans (freeGroup_keepsGroups _ gid)
  have hdepart := departInsns_keepsGroups (s.leaveWarps gid) gid fun t =>
      { t.freeGroup gid with groups := (t.freeGroup gid).groups.put gid (s.offCored gid x) }
  rw [heq]
  exact ⟨hdepart.groups.trans (congrArg (fun g => Tab.put g gid (s.offCored gid x)) hleave.groups), hdepart.launches.trans hleave.launches⟩

/-- A group that has left its core is not placed. -/
theorem offCore_unplaces (s : State) (gid : Nat) : Unplaces s (s.offCore gid) ∧
    ((s.offCore gid).group gid).map Group.placed ≠ some true := by
  cases hx : s.group gid with
  | none =>
    have hsame : s.offCore gid = s := by
      unfold State.offCore
      rw [hx]
    rw [hsame, hx]
    exact ⟨(KeepsGroups.refl s).unplaces, by simp⟩
  | some x =>
    obtain ⟨hput, hlaunches⟩ := offCore_put s gid x hx
    have hkeep : KeepsGroups { s with groups := s.groups.put gid (s.offCored gid x) } (s.offCore gid) := ⟨hput, hlaunches⟩
    refine ⟨(unplaces_put (y := s.offCored gid x) hx rfl fun h => absurd h Bool.false_ne_true).trans hkeep.unplaces, ?_⟩
    rw [State.group, hput, tab_find_put_same]
    exact fun h => absurd (Option.some.inj h) Bool.false_ne_true

end Sys2Proof.Machine
end

section
/-! SUPPORT. Pre-emption, saving and resumption (R170, R241, R271 to R273, R345, R384, R391). -/

namespace Sys2Proof.Machine

/-! ### Groups saved one after another (R272) -/

/-- A group off its core, with the address of its area (R272). -/
def State.leaveFor (s : State) (gid : Nat) (at_ : DWord) : State :=
  { s.offCore gid with groups := (s.offCore gid).groups.alter gid fun (y : Group) => { y with area := at_ } }

theorem leaveFor_unplaces (s : State) (gid : Nat) (at_ : DWord) :
    Unplaces s (s.leaveFor gid at_) ∧ ((s.leaveFor gid at_).group gid).map Group.placed ≠ some true := by
  obtain ⟨hoff, hgone⟩ := offCore_unplaces s gid
  unfold State.leaveFor Tab.alter
  generalize s.offCore gid = v at *
  cases hx : v.groups.find gid with
  | none => exact ⟨hoff.trans (KeepsGroups.unplaces ⟨rfl, rfl⟩), hgone⟩
  | some y =>
    refine ⟨hoff.trans (unplaces_put (s := v) hx rfl id), ?_⟩
    rw [State.group, hx] at hgone
    rw [State.group, tab_find_put_same]
    exact hgone

/-- Every group that has been saved is off its core, and no other comes on one (R272). -/
theorem saveAll_done (u : Nat) (go : List (Nat × Group)) (s v : State) (h : s.saveAll u go = .done v) :
    Unplaces s v ∧ ∀ q ∈ go, (s.launchOf q.1).isSome = true → (v.group q.1).map Group.placed ≠ some true := by
  fun_induction State.saveAll s u go with
  | case1 s =>
    obtain rfl := Saving.done.inj h
    exact ⟨KeepsGroups.unplaces ⟨rfl, rfl⟩, fun _ hq => nomatch hq⟩
  | case2 | case3 | case4 | case5 => cases h
  | case6 s gid x rest s0 w y l _ _ img barOff _ n pages c _ k _ area ps _ _ _ w' t ih =>
    have hstill : KeepsGroups s w := (endTakeovers_keepsGroups s gid).trans (settleHeld_keepsGroups _ gid)
    have hwritten : KeepsGroups s ((w'.writeArea gid area.toNat ps img barOff).unclaim (.unit u)) :=
      ((writeArea_keepsGroups w' gid area.toNat ps img barOff).since hstill.groups hstill.launches).trans ⟨rfl, rfl⟩
    obtain ⟨hleave, hgone⟩ := leaveFor_unplaces ((w'.writeArea gid area.toNat ps img barOff).unclaim (.unit u)) gid area
    have hone := hwritten.unplaces.trans hleave
    obtain ⟨hv, hall⟩ := ih h
    refine ⟨hone.trans hv, fun q hq hl => (List.mem_cons.1 hq).elim (fun he => ?_) fun hq =>
      hall q hq ((congrArg Option.isSome (hone.launchOf q.1)).trans hl)⟩
    rw [he]
    exact fun hp => hgone (hv.placed gid hp)
  | case7 s gid x rest w hnone ih =>
    have hstill : KeepsGroups s w := (endTakeovers_keepsGroups s gid).trans (settleHeld_keepsGroups _ gid)
    obtain ⟨hv, hall⟩ := ih h
    refine ⟨hstill.unplaces.trans hv, fun q hq hl => (List.mem_cons.1 hq).elim (fun he => ?_) fun hq =>
      hall q hq (by rw [hstill.unplaces.launchOf]; exact hl)⟩
    rw [he, ← hstill.unplaces.launchOf] at hl
    obtain ⟨l, hl⟩ := Option.isSome_iff_exists.1 hl
    obtain ⟨y, hy, -⟩ := Option.bind_eq_some_iff.1 hl
    exact (hnone y l hy hl).elim

/-! ### Nodes reloaded (R280, R365) -/

theorem keepXlat_rolls (s : State) (x : Xlat) : KeepsRolls s (s.keepXlat x) := by
  unfold State.keepXlat
  split
  · exact .refl s
  · exact ⟨rfl, rfl, rfl⟩

theorem met_rolls (s : State) (q : Asker) (e : XErr) (va : DWord) : KeepsRolls s (s.met q e va) := by
  unfold State.met
  split
  · exact ⟨rfl, rfl, rfl⟩
  · split
    · exact .refl s
    · split
      · exact .refl s
      · split
        · exact .refl s
        · split
          · split
            · exact .refl s
            · exact keepXlat_rolls s _
          · exact .refl s

theorem metAll_rolls (s : State) (w lb : Nat) (r : Raise) : KeepsRolls s (s.metAll w lb r) := keepsRolls_foldl (fun t _ => met_rolls t _ _ _) _ s

theorem clashSeg_rolls (s : State) (w : Nat) (g : Seg) (b : Bar) (bit : Nat) : KeepsRolls s (s.clashSeg w g b bit) := by
  have hrecause : ∀ r, KeepsRolls s (s.recause w g.lbase r) := fun r => (announce_rolls _ w g.lbase).since rfl rfl rfl
  have htake : ∀ (t : State) m p r, KeepsRolls t (t.takeHeld w g.lbase m p r) := fun t m p r =>
    ((metAll_rolls t w g.lbase r).trans (onWarp_rolls _ w _)).trans (announce_rolls _ w g.lbase)
  unfold State.clashSeg
  dsimp only
  refine KeepsRolls.trans ?_ (keepsRolls_foldl (fun t p => htake t _ p _) _ _)
  split
  · split
    · exact hrecause _
    · exact .refl s
  · exact .refl s

theorem dissolve_rolls (s : State) (b : Bar) (bit : Nat) : KeepsRolls s (s.dissolve b bit) := by
  have hsegs : ∀ (t : State) (q : Nat × Warp), KeepsRolls t (q.2.segs.foldl (fun s g => s.clashSeg q.1 g b bit) t) := fun t q =>
    keepsRolls_foldl (fun v g => clashSeg_rolls v q.1 g b bit) _ t
  exact (keepsRolls_foldl hsegs _ _).since rfl rfl rfl

theorem reloadNode_rolls (s : State) (b : Bar) (a : Nat) : KeepsRolls s (s.reloadNode b a) := by
  have hswap := perform_rolls s none (.hbm (a + 16)) 4 0
  unfold State.reloadNode
  dsimp only
  split
  · exact hswap.trans ⟨rfl, rfl, rfl⟩
  · split <;> exact hswap.trans ⟨rfl, rfl, rfl⟩

theorem reloadNodes_rolls (s : State) (gids : List Nat) : KeepsRolls s (s.reloadNodes gids) :=
  (keepsRolls_foldl (fun t (x : Bar × Nat) => reloadNode_rolls t x.1 x.2) _ s).trans
    (keepsRolls_foldl (fun t (b : Bar) => dissolve_rolls t b (b.clash.getD 0)) _ _)

/-- Without saved instances and without one at which arrivals disagreed, nothing is reloaded (R280). -/
theorem reloadNodes_none (s : State) (gids : List Nat) (h : ∀ b ∈ s.bars, b.saved = none ∧ b.clash = none) : s.reloadNodes gids = s := by
  have hnodes : s.savedNodes gids = [] := by
    unfold State.savedNodes
    rw [List.filterMap_eq_nil_iff]
    intro b hb
    rw [(h b hb).1]
    rfl
  have hodd : (s.bars.filter fun b => b.clash.isSome && b.saved.isNone) = [] := by
    rw [List.filter_eq_nil_iff]
    intro b hb
    simp [(h b hb).2]
  unfold State.reloadNodes
  dsimp only
  rw [hnodes, List.foldl_nil, hodd, List.foldl_nil]

/-! ### Who is asked to leave (R271, R272) -/

theorem stopUnit_placed (s : State) (u : Nat) (r : UnitRec) (h : s.units.find u = some r) (hp : r.st = .placed) :
    s.stopUnit u = { s with units := s.units.put u { r with st := .stopping, stopAt := s.now, told := false } } := by
  unfold State.stopUnit Tab.alter
  rw [h]
  dsimp only
  rw [if_pos hp]

/-- A victim is a placed unit of a lower class. -/
theorem mem_victims (s : State) (prio k : Nat) (dies : List Nat) (h : k ∈ s.victims prio dies) :
    ∃ x, (k, x) ∈ s.units ∧ x.st = .placed ∧ s.unitPrio x < prio := by
  have hcan : ∀ (l can : List (Nat × UnitRec)) (p : Nat × UnitRec → Nat × UnitRec → Bool), l = can.foldl (fun l x =>
      l.takeWhile (p x) ++ x :: l.dropWhile (p x)) [] → ∀ q ∈ l, q ∈ can := by
    rintro l can p rfl
    refine List.foldlRecOn (motive := fun l => ∀ q ∈ l, q ∈ can) _ _ (fun _ h => nomatch h) fun l hl x hx q hq => ?_
    rcases List.mem_append.1 hq with hq | hq
    · exact hl q ((List.takeWhile_sublist _).subset hq)
    · rcases List.mem_cons.1 hq with rfl | hq
      · exact hx
      · exact hl q ((List.dropWhile_sublist _).subset hq)
  obtain ⟨q, hq, rfl⟩ := List.mem_map.1 h
  obtain ⟨hmem, hok⟩ := List.mem_filter.1 (hcan _ _ _ rfl q hq)
  simp only [Bool.and_eq_true, beq_iff_eq, decide_eq_true_eq] at hok
  exact ⟨q.2, hmem, hok.1.1, hok.1.2⟩

/-! ### The rows -/

theorem exec_preemptPriority (u : Nat) (s : State) : exec (.preemptPriority u) s = execPreemptPriority u s := rfl
theorem exec_timeSliceExpiry (ctx : Nat) (s : State) : exec (.timeSliceExpiry ctx) s = execTimeSliceExpiry ctx s := rfl
theorem exec_preemption (u : Nat) (s : State) : exec (.preemption u) s = execPreemption u s := rfl

end Sys2Proof.Machine
end

section
/-! SUPPORT. The rows of pre-emption (R271 to R273, R345, R384). -/

namespace Sys2Proof.Machine

/-- The one unit at the head of its class, on the one intake list (R271). -/
theorem execPreemptPriority_head (s : State) (die n : Nat) (i : Intake) (l : Launch) (hin : s.intake = [(die, [i])])
    (hl : s.launches.find i.launch = some l) (hn : i.headAt = some n) :
    (s.now < n + 4096 → execPreemptPriority i.arrival s = .next s) ∧
    (n + 4096 ≤ s.now → (s.units.filter fun q => q.2.st == .stopping) = [] → s.wouldPlace die i = false → l.reach = .core →
      ∀ vs, s.enough die i (s.victims i.prio [die]) = some vs → execPreemptPriority i.arrival s = .next (vs.foldl State.stopUnit s)) := by
  have hlist : (s.intake.find? fun q => q.2.any fun j => j.arrival == i.arrival) = some (die, [i]) := by simp [hin]
  have hhead : ([i].find? fun j => j.arrival == i.arrival) = some i := by simp
  unfold execPreemptPriority
  rw [hlist]
  dsimp only
  rw [hhead]
  dsimp only
  rw [hl, hn]
  dsimp only
  refine ⟨fun h => congrArg Host.Outcome.next (if_pos (.inl h)), fun hdue hstop hplace hreach vs hvs => ?_⟩
  rw [hstop]
  have hopen : ¬(s.now < n + 4096 ∨ s.wouldPlace die i = true) := by
    rw [hplace]
    simp
    omega
  have hdies : (if 4 ≤ l.reach.rank then List.range Config.dies else [die]) = [die] := by rw [hreach]; rfl
  rw [List.map_nil, List.foldl_nil, if_neg hopen, hdies, hvs]

/-- The one unit that a context has on its dies, at the end of its slice (R271). -/
theorem execTimeSliceExpiry_one (s : State) (ctx u : Nat) (c : Ctx) (r : UnitRec) (hc : s.ctxs.find ctx = some c)
    (hmine : (s.units.filter fun q => q.2.st == .placed && s.unitCtx q.2 == ctx) = [(u, r)]) :
    (s.now < max c.sliceAt r.placedAt + (if c.slice = 0 then 10000 else c.slice) * 600 → execTimeSliceExpiry ctx s = .next s) ∧
    (max c.sliceAt r.placedAt + (if c.slice = 0 then 10000 else c.slice) * 600 ≤ s.now → ∀ die, die < 4 → s.unitOn u die = true →
      s.othersWait ctx die = true → execTimeSliceExpiry ctx s =
        .next ({ s with ctxs := s.ctxs.put ctx { c with sliceAt := s.now } }.stopUnit u)) := by
  unfold execTimeSliceExpiry
  rw [hc]
  dsimp only
  rw [hmine]
  dsimp only
  refine ⟨fun h => congrArg Host.Outcome.next (if_pos (.inl h)), fun hdue die hd hon hwait => ?_⟩
  have hany : (List.range Config.dies).any (fun d => s.unitOn u d && s.othersWait ctx d) = true :=
    List.any_eq_true.2 ⟨die, List.mem_range.2 hd, by rw [hon, hwait]; rfl⟩
  have hgo : ([(u, r)].filter fun q => (List.range Config.dies).any fun d => s.unitOn q.1 d && s.othersWait ctx d) = [(u, r)] :=
    List.filter_eq_self.2 fun q hq => by
      rw [List.mem_singleton.1 hq]
      exact hany
  rw [hgo]
  have hopen : ¬(s.now < max c.sliceAt r.placedAt + c.sliceCycles ∨ [(u, r)] = []) :=
    fun h => h.elim (fun h => Nat.not_lt.2 hdue h) fun h => nomatch h
  exact congrArg Host.Outcome.next (if_neg hopen)

/-- The groups that are saved next: a gang whole, of another unit the first that has come to rest (R241, R272). -/
theorem savedNext_eq (s : State) (u : Nat) (gang : Bool) (go : List (Nat × Group)) (htiles : s.unitTilesStill u = true)
    (htrap : s.unitTrapped u = false) (hgang : gang = true → go = s.standing u ∧ s.unitStill u = true)
    (hone : gang = false → ∃ q, go = [q] ∧ (s.standing u).find? (fun q => s.groupStill q.1) = some q) : s.savedNext u gang = go := by
  have hopen : ¬(!s.unitTilesStill u || s.unitTrapped u) = true := by simp [htiles, htrap]
  unfold State.savedNext
  rw [if_neg hopen]
  cases gang with
  | true =>
    obtain ⟨rfl, hstill⟩ := hgang rfl
    rw [if_pos rfl, if_pos hstill]
  | false =>
    obtain ⟨q, rfl, hq⟩ := hone rfl
    rw [if_neg Bool.false_ne_true, List.take_one, List.head?_filter, hq]
    rfl

/-- A stopping unit that cannot be saved yet gives up its claims (R170, R272, R345). -/
theorem execPreemption_waits (s : State) (u : Nat) (r : UnitRec) (hr : s.units.find u = some r) (hplaced : r.st ≠ .placed)
    (h : r.st ≠ .stopping ∨ (s.standing u ≠ [] ∧ (s.unitTilesStill u = false ∨ s.unitTrapped u = true)) ∨
      (s.standing u ≠ [] ∧ ∀ q ∈ s.standing u, s.groupStill q.1 = false)) : execPreemption u s = .next (s.unclaim (.unit u)) := by
  have hnone : ∀ gang, s.standing u ≠ [] → (s.unitTilesStill u = false ∨ s.unitTrapped u = true) ∨ (∀ q ∈ s.standing u, s.groupStill q.1 = false) →
      s.savedNext u gang = [] := by
    intro gang hstand h
    unfold State.savedNext
    rcases h with h | h
    · exact if_pos (by simpa using h)
    · have hfilter : ((s.standing u).filter fun q => s.groupStill q.1) = [] := List.filter_eq_nil_iff.2 fun q hq => by simp [h q hq]
      have hstill : s.unitStill u = false := by
        obtain ⟨q, hq⟩ := List.exists_mem_of_ne_nil _ hstand
        have : ((s.standing u).all fun q => s.groupStill q.1) = false := List.all_eq_false.2 ⟨q, hq, by simp [h q hq]⟩
        rw [State.unitStill, this, Bool.and_false]
      rw [hfilter, hstill]
      cases gang <;> simp
  unfold execPreemption
  rw [hr]
  dsimp only
  rw [if_neg hplaced]
  refine congrArg Host.Outcome.next (if_pos ?_)
  rcases h with h | ⟨hstand, h⟩ | ⟨hstand, h⟩
  · exact .inl h
  · exact .inr (.inr ⟨hnone _ hstand (.inl h), hstand⟩)
  · exact .inr (.inr ⟨hnone _ hstand (.inr h), hstand⟩)

/-- What a stopping unit's saving comes to (R272). -/
theorem execPreemption_saves (s : State) (u : Nat) (r : UnitRec) (go : List (Nat × Group)) (hr : s.units.find u = some r) (hstop : r.st = .stopping)
    (hhid : r.hid = 0) (hover : s.ctxOver r = false) (hgo : s.savedNext u (((s.launches.find r.launch).map Launch.gang).getD false) = go)
    (hsome : go = [] → s.standing u = []) :
    (∀ v, s.saveAll u go = .waits v → execPreemption u s = .next v) ∧
    (∀ gid, s.saveAll u go = .full gid → execPreemption u s = .next (s.unitCause u gid 0xA6 0)) ∧
    (∀ v, s.saveAll u go = .done v → execPreemption u s =
      .next (if v.standing u ≠ [] then v else { v with units := v.units.put u { r with st := .saved, told := false } }).checkBars) := by
  have hopen : ¬(r.st ≠ .stopping ∨ r.hid ≠ 0 ∨ (go = [] ∧ s.standing u ≠ [])) := by simpa [hstop, hhid] using hsome
  have hplaced : r.st ≠ .placed := by rw [hstop]; exact fun h => nomatch h
  have hrow : execPreemption u s = .next (match s.saveAll u go with
      | .waits t => t
      | .full gid => s.unitCause u gid 0xA6 0
      | .fault gid area => s.unitCause u gid 0xA7 area
      | .done t => (if t.standing u ≠ [] then t else { t with units := t.units.put u { r with st := .saved, told := false } }).checkBars) := by
    unfold execPreemption
    rw [hr]
    dsimp only
    rw [hgo, if_neg hplaced, if_neg hopen, hover]
    rfl
  rw [hrow]
  exact ⟨fun v h => by rw [h], fun gid h => by rw [h], fun v h => by rw [h]⟩

/-- A cause of a unit is held and posted; its groups and warp slots stay (R272, R348). -/
theorem unitCause_held (s : State) (u gid code : Nat) (addr : DWord) (r : UnitRec) (hr : s.units.find u = some r) :
    (s.unitCause u gid code addr).units.find u = some { r with hid := freeHold s.holds } ∧ (s.unitCause u gid code addr).groups = s.groups ∧
      (s.unitCause u gid code addr).warps = s.warps := by
  have hq : Quiet { (s.hold (logOwner code (s.fnOf gid)) (.unit u)).2 with units := s.units.alter u fun (r : UnitRec) =>
      { r with hid := freeHold s.holds } } (s.unitCause u gid code addr) := post_quiet _ _ _
  refine ⟨?_, hq.groups, hq.warps⟩
  rw [hq.units]
  exact (tab_find_alter _ _ _).trans (congrArg (Option.map _) hr)

/-- A stopping unit told once that it has not come through its second step (R345, R384). -/
theorem execPreemptBlocked_eq (s : State) (u : Nat) (r : UnitRec) (hr : s.units.find u = some r) :
    (r.told = true ∨ s.now < r.stopAt + 2 ^ 24 ∨ s.stepTwo u = true → execPreemptBlocked u s = .next s) ∧
    (r.st = .stopping → r.told = false → r.stopAt + 2 ^ 24 ≤ s.now → s.stepTwo u = false →
      ∃ t, execPreemptBlocked u s = .next t ∧ Told { s with units := s.units.put u { r with told := true } } t) := by
  unfold execPreemptBlocked
  rw [hr]
  dsimp only
  refine ⟨fun h => congrArg Host.Outcome.next (if_pos (.inr h)), fun hstop htold hdue htwo => ?_⟩
  have hopen : ¬(r.st ≠ .stopping ∨ r.told = true ∨ s.now < r.stopAt + 2 ^ 24 ∨ s.stepTwo u = true) := by
    rw [hstop, htold, htwo]
    simpa using hdue
  refine ⟨_, congrArg Host.Outcome.next (if_neg hopen), ?_⟩
  split
  · exact post_told _ _ _
  · exact .refl _

/-- A unit that may not resume, or whose areas cannot be read yet, stays as it is (R170, R273). -/
theorem execUnitResumption_waits (s : State) (u : Nat) (r : UnitRec) (hr : s.units.find u = some r)
    (h : r.st ≠ .saved ∨ s.readAreas r.gids = .waits) : execUnitResumption u s = .next s := by
  unfold execUnitResumption
  rw [hr]
  dsimp only
  split
  · rfl
  · rcases h with h | h
    · rw [if_pos (.inl h)]
    · rw [h]
      dsimp only
      rw [ite_self, ite_self]

/-- A saved unit that may resume is seated once its areas are read and its nodes can be reloaded (R170, R273, R280). -/
theorem execUnitResumption_seats (s : State) (u : Nat) (r : UnitRec) (l : Launch) (as : List (Nat × Area)) (hr : s.units.find u = some r)
    (hl : s.launches.find r.launch = some l) (hsaved : r.st = .saved) (hhid : r.hid = 0) (htold : r.told = false) (hover : s.ctxOver r = false)
    (hhigher : (((s.intake.find l.die).getD []).any fun i => decide (l.prio < i.prio)) = false) (hread : s.readAreas r.gids = .done as)
    (hnodes : (s.savedNodes r.gids).all (fun x => s.lineReady (x.2 / 128)) = true) :
    (s.seatSaved l as = .none → execUnitResumption u s = .next s) ∧
    (∀ v, s.seatSaved l as = .placed v → (as.all fun q => s.galsThere q.1 (((v.group q.1).map Group.core).getD 0)) = true →
      execUnitResumption u s =
        .next ({ v with units := v.units.put u { r with st := .placed, placedAt := s.now, told := false } }.reloadNodes r.gids).checkBars) := by
  have hopen : ¬(r.st ≠ .saved ∨ r.hid ≠ 0 ∨ r.told = true ∨ s.ctxOver r = true) := by simp [hsaved, hhid, htold, hover]
  have hready : ¬(!(s.savedNodes r.gids).all fun x => s.lineReady (x.2 / 128)) = true := by rw [hnodes]; exact Bool.false_ne_true
  unfold execUnitResumption
  rw [hr]
  dsimp only
  rw [hl]
  dsimp only
  rw [if_neg hopen, hhigher, if_neg Bool.false_ne_true, hread]
  dsimp only
  rw [if_neg hready]
  refine ⟨fun h => by rw [h], fun v h hgals => ?_⟩
  rw [h]
  exact congrArg Host.Outcome.next (if_pos hgals)

/-- Barriers that complete place no group. -/
theorem checkBars_placed (s : State) (k : Nat) : (s.checkBars.group k).map Group.placed = (s.group k).map Group.placed := by
  have hrelease : ∀ (t : State) (b : Bar), ((t.releaseBar b).group k).map Group.placed = (t.group k).map Group.placed := fun t b => by
    unfold State.releaseBar State.group
    dsimp only
    rw [tab_find_mapV, Option.map_map]
    refine congrArg (Option.map · _) (funext fun x => ?_)
    simp only [Function.comp_apply]
    split <;> rfl
  exact foldl_field (p := fun t => (t.group k).map Group.placed) hrelease _ _

/-- What stands once the groups of a stopping unit have been saved: with the last of them the unit is saved, and none of them is on a core (R272). -/
theorem saved_left (s : State) {v : State} (u : Nat) (r : UnitRec) (go : List (Nat × Group)) (hv : s.saveAll u go = .done v) :
    let t := (if v.standing u ≠ [] then v else { v with units := v.units.put u { r with st := .saved, told := false } }).checkBars
    t.mem = v.mem ∧ (v.standing u = [] → t.units.find u = some { r with st := .saved, told := false }) ∧ (v.standing u ≠ [] → t.units = v.units) ∧
      ∀ q ∈ go, s.groups.find q.1 = some q.2 → (s.launchOf q.1).isSome = true → (t.group q.1).map Group.placed ≠ some true := by
  have hrolls := checkBars_rolls (if v.standing u ≠ [] then v else { v with units := v.units.put u { r with st := .saved, told := false } })
  have hgone := (saveAll_done u go s v hv).2
  refine ⟨?_, fun hlast => ?_, fun hmore => ?_, fun q hq _ hl hp => hgone q hq hl ?_⟩
  · rw [checkBars_mem]
    split <;> rfl
  · rw [hrolls.units, if_neg (not_not.2 hlast)]
    exact tab_find_put_same _ _ _
  · rw [hrolls.units, if_pos hmore]
  · rw [checkBars_placed] at hp
    split at hp <;> exact hp

theorem execPreemption_placed (s : State) (u : Nat) (r : UnitRec) (hr : s.units.find u = some r) (hp : r.st = .placed) :
    execPreemption u s = .next { s with units := s.units.put u { r with st := .stopping, stopAt := s.now, told := false } } := by
  unfold execPreemption
  rw [hr]
  dsimp only
  rw [if_pos hp, stopUnit_placed s u r hr hp]

/-- Settles O44. Who is asked to leave is `stopUnit_placed` under each row's equation; a saving is what `saveAll` comes to (`execPreemption_saves`,
`saved_left`, `unitCause_held`), and a resumption seats the unit and reloads its nodes (`execUnitResumption_seats`, `reloadNodes_none`). -/
theorem preemptionEvents : Obligations.PreemptionEvents := by
  unfold Obligations.PreemptionEvents
  intro s v u prio r hr
  refine ⟨fun die i l n dies hin hl hn hreach => ⟨fun hearly => ⟨s, ?early, rfl⟩, fun hdue hstop hplace hvictims hwith hst => ⟨_, ?due, rfl⟩⟩,
    fun k hk => mem_victims s prio k _ hk, fun ctx c die hc hmine => ⟨fun hearly => ⟨s, ?unexpired, rfl⟩, fun hdue hd hon hwait hst =>
      ⟨_, ?expired, rfl⟩⟩,
    fun hst => ⟨_, ?asked, rfl⟩, fun hst hwait => ⟨_, ?waits, rfl⟩, fun hst hhid hover htiles htrap => ?saves, fun hst htold hdue htwo => ?blocked,
    fun h => ⟨s, ?unblocked, rfl⟩, fun h => ⟨s, ?unresumed, rfl⟩, fun l as hl hst hhid htold hover hhigher hread hnodes => ?resumes⟩
  case early => exact (execPreemptPriority_head s die n i l hin hl hn).1 hearly
  case due =>
    have henough : s.enough die i (s.victims i.prio [die]) = some [u] := by
      rw [hvictims]
      exact if_pos hwith
    rw [exec_preemptPriority, (execPreemptPriority_head s die n i l hin hl hn).2 hdue hstop hplace hreach [u] henough,
      List.foldl_cons, List.foldl_nil, stopUnit_placed s u r hr hst]
  case unexpired => exact (execTimeSliceExpiry_one s ctx u c r hc hmine).1 hearly
  case expired =>
    rw [exec_timeSliceExpiry, (execTimeSliceExpiry_one s ctx u c r hc hmine).2 hdue die hd hon hwait,
      stopUnit_placed { s with ctxs := s.ctxs.put ctx { c with sliceAt := s.now } } u r hr hst]
  case asked => rw [exec_preemption, execPreemption_placed s u r hr hst]
  case waits => exact execPreemption_waits s u r hr hst hwait
  case saves =>
    intro gang go hgang hone
    have hsome : go = [] → s.standing u = [] := fun hgo => by
      cases hg : gang with
      | true => exact (hgang hg).1.symm.trans hgo
      | false =>
        obtain ⟨q, hq, -⟩ := hone hg
        rw [hq] at hgo
        cases hgo
    obtain ⟨hwaits, hfull, hdone⟩ := execPreemption_saves s u r go hr hst hhid hover (savedNext_eq s u gang go htiles htrap hgang hone) hsome
    refine ⟨fun hv => ⟨v, hwaits v hv, rfl⟩, fun hv => ⟨_, hdone v hv, ?done⟩, fun gid hv => ⟨_, hfull gid hv, unitCause_held s u gid 0xA6 0 r hr⟩⟩
    case done => exact saved_left s u r go hv
  case blocked =>
    obtain ⟨t, ht, htold'⟩ := (execPreemptBlocked_eq s u r hr).2 hst htold hdue htwo
    exact ⟨t, ht, htold'.same State.units fun _ _ _ _ => rfl, htold'.same State.warps fun _ _ _ _ => rfl, htold'.same State.groups fun _ _ _ _ => rfl⟩
  case unblocked => exact (execPreemptBlocked_eq s u r hr).1 h
  case unresumed => exact execUnitResumption_waits s u r hr h
  case resumes =>
    obtain ⟨hnone, hplaced⟩ := execUnitResumption_seats s u r l as hr hl hst hhid htold hover hhigher hread hnodes
    refine ⟨fun hv hgals => ⟨_, hplaced v hv hgals, ?_, fun hbars => ?_⟩, fun hv => ⟨s, hnone hv, rfl⟩⟩
    · rw [(checkBars_rolls _).units, (reloadNodes_rolls _ _).units]
      exact tab_find_put_same _ _ _
    · rw [checkBars_mem, reloadNodes_none]
      exact hbars

end Sys2Proof.Machine
end

section
/-! SUPPORT. A gallery's write-back that marks the leaf entry of its page in a memory that is not in canonical form (R179, R188). -/

namespace Sys2Proof.Machine

/-- A gallery on its way out, of no bytes, whose backing address 1 lies in page 0: its backing region is one piece of no bytes, so that all its
write-back does to the memory is to mark the leaf entry of the page. -/
def emptyGallery : Gal := ⟨0, 1, 0, 1, 0, 0, .writingBack, 0, 0, [], none, 0, 0⟩

/-- The translation of page 0 by which die 0 moves its galleries; its leaf entry is at 8. -/
def galleryPage : Xlat := ⟨galleryAgent 0, 0, 0, 0, 0, 8, 4096, false, true, true, true⟩

/-- The memory of `outOfOrder`, in which a blank byte at 8 hides byte 3, with that gallery and that translation. -/
def outOfOrderGallery : State := { State.reset with mem := outOfOrder.mem, xlats := [galleryPage], gals := [(0, emptyGallery)] }

/-- The one piece of the backing region, at physical address 1, by the entry whose leaf is at 8. -/
theorem emptyGallery_backing : outOfOrderGallery.backing emptyGallery .store = .ok [⟨1, 0, .hbm 1, some galleryPage⟩] := by decide +kernel

/-- The write-back sets `AC` and `DY` of the leaf entry: byte 8 is blank no more, and the list no longer hides byte 3. -/
theorem galleryWriteback_uncovers : Completes (.galleryWritebackComplete 0) outOfOrderGallery fun t => t.mem.byte 3 = 9 :=
  completes_of_runsTo _ _ _ (by decide +kernel)

/-- Refutes O36. What it says of a write-back's bytes asks for no canonical memory (`Memory.wf`); in `outOfOrderGallery` the write-back that marks the
leaf entry at 8 changes what byte 3 reads as, which lies neither in the backing region nor in the leaf entry. -/
theorem not_galleryMoves : ¬Obligations.GalleryMoves := by
  unfold Obligations.GalleryMoves
  intro h
  obtain ⟨u, hu, hbyte⟩ := galleryWriteback_uncovers
  obtain ⟨-, hwriteback, -⟩ := h outOfOrderGallery 0 emptyGallery [⟨1, 0, .hbm 1, some galleryPage⟩] ⟨0, 0, 0, none⟩ rfl
  have hready : ∀ l ∈ pieceLines [⟨1, 0, .hbm 1, some galleryPage⟩], outOfOrderGallery.lineReady l = true ∧
      outOfOrderGallery.wrapHeld (emptyGallery.core / 256) (.hbm (l * 128)) = false := by decide +kernel
  obtain ⟨t, ht, -, -, hbytes⟩ := hwriteback rfl rfl emptyGallery_backing hready
  obtain rfl : u = t := Host.Outcome.next.inj (hu.symm.trans ht)
  have hkeep : u.mem.byte 3 = outOfOrderGallery.mem.byte 3 := by
    obtain ⟨-, hmem⟩ := hbytes 1 0 1 (some galleryPage) rfl
    refine hmem 3 ?_
    rintro ⟨y, hy, hlow, -⟩
    obtain rfl := Option.some.inj hy
    exact absurd hlow (by decide)
  rw [hbyte] at hkeep
  exact absurd hkeep (by decide)

end Sys2Proof.Machine
end

section
/-! SUPPORT. A gallery instruction in one segment that stands alone at its slot: it raises, it holds the slot, or its turn is taken and the slot
issues (R193, R205, R223, R232). -/

namespace Sys2Proof.Machine

/-! ### What a gallery instruction leaves as it was -/

/-- `u` differs from `s` in no warp slot and in no byte, as after an operation at the directory and at the group. -/
structure Beside (s u : State) : Prop where
  cur : u.cur = s.cur
  warps : u.warps = s.warps
  mem : u.mem = s.mem
  spad : u.spad = s.spad

/-- The registers, predicates and program counters of a warp are as they were. -/
structure KeepsPlace (v w : Warp) : Prop where
  regs : w.regs = v.regs
  preds : w.preds = v.preds
  pcs : w.pcs = v.pcs

theorem KeepsPlace.trans {u v w : Warp} (a : KeepsPlace u v) (b : KeepsPlace v w) : KeepsPlace u w :=
  ⟨b.regs.trans a.regs, b.preds.trans a.preds, b.pcs.trans a.pcs⟩

/-- `t` has the bytes of `s`, and its current warp the registers, predicates and program counters that it has in `s`. -/
def SamePlace (s t : State) : Prop :=
  t.mem = s.mem ∧ t.spad = s.spad ∧ t.curWarp.regs = s.curWarp.regs ∧ t.curWarp.preds = s.curWarp.preds ∧ t.curWarp.pcs = s.curWarp.pcs

/-- The slot has issued with one more operation in the store counter. -/
def Stored (s t : State) : Prop := SamePlace s t ∧ t.curWarp.stCnt = s.curWarp.stCnt + 1

/-- The slot is held for a gallery, nothing has been counted, and no group has changed. -/
def HeldForGallery (s t : State) : Prop :=
  SamePlace s t ∧ (t.curWarp.clause.bind Clause.held) = some .gallery ∧ t.curWarp.stCnt = s.curWarp.stCnt ∧ t.curWarp.ldCnt = s.curWarp.ldCnt ∧
    t.groups = s.groups

section
variable {s u : State} (h : Beside s u)
include h

theorem Beside.curWarp : u.curWarp = s.curWarp := by
  rw [State.curWarp, State.warp, h.warps, h.cur]
  rfl

theorem Beside.curWarp_onWarp (f : Warp → Warp) : (u.onWarp s.cur f).curWarp = f s.curWarp := by
  rw [← h.cur, Machine.curWarp_onWarp, h.curWarp]

theorem Beside.samePlace {f : Warp → Warp} (hf : KeepsPlace s.curWarp (f s.curWarp)) : SamePlace s (u.onWarp s.cur f) := by
  rw [SamePlace, h.curWarp_onWarp]
  exact ⟨h.mem, h.spad, hf.regs, hf.preds, hf.pcs⟩

end

/-! ### The slot of one segment -/

theorem Alone.dropWaits {s : State} {g : Seg} {m : Mask} (ha : Alone s g m) (w lb : Nat) : Alone (s.dropWaits w lb) g m :=
  ⟨ha.here, ha.own, ha.only, ha.all, ha.inClause, ha.calm, ha.fits⟩

/-- The slot of a gallery instruction whose counter has room: the turns of its segments, and its issue after the last (R223, R232). -/
def State.galSlot (s : State) (m : Mask) (judge : State → Seg → Option Raise) (act : State → Seg → Bool × State) (c : Ctr) : State :=
  s.irrevocably fun s =>
    let r := s.galTurns m judge act (s.curWarp.turnOrder m)
    if r.1 then r.2.galIssued c else r.2

/-- A segment that takes a cause takes no turn. -/
theorem takeAt_turnsTaken (s : State) (c : Clause) (g : Seg) (r : Raise) (hc : s.curWarp.clause = some c) (hg : s.curWarp.segAt g.lbase = some g)
    (hcalm : g.cause = none) (hrec : g.record = none) (hd : causeDest r.code ≠ .host) (hr : r.leavesNothing) (hgrade : g.handler &&& r.mask = 0) :
    (s.takeAt s.cur g.lbase r).curWarp.turnsTaken = c.turns := by
  rw [takeAt_eq s c g r hc hg hcalm (.inl hrec) hd hr (.inl hgrade), curWarp_setWarp]
  rfl

theorem galIssued_none {s : State} (h : s.curWarp.turnsTaken = 0) (c : Ctr) : s.galIssued c = s := by
  unfold State.galIssued
  exact if_pos h

theorem galIssued_store {s : State} (h : s.curWarp.turnsTaken ≠ 0) :
    s.galIssued .store = s.onWarp s.cur fun wp => (wp.addStore [] 0).turnsDone := by
  unfold State.galIssued
  exact if_neg h

/-- A gallery instruction of the current warp in segment `g` alone, whose lead lane is `k`, at the slot of clause `c`, at which no turn has been
taken: the warp may act, and the name in `a` is uniform and not 0; the group is `x`. -/
structure NamesGallery (s : State) (p : Pre) (a : Reg) (g : Seg) (k : Nat) (x : Group) (c : Clause) : Prop where
  alone : Alone s g (s.curWarp.execMask p)
  lead : g.lead (s.curWarp.execMask p) = some k
  mayAct : s.curWarp.mayAct = true
  clause : s.curWarp.clause = some c
  turns : c.turns = 0
  name : s.curWarp.val64 a k ≠ 0
  uniform : s.curWarp.unifFault g (s.curWarp.execMask p) [(5, true, a)] = none
  group : s.group g.gid = some x

/-- What the turn of the segment of lanes `m` makes of the warp (R223). -/
def Warp.turned (wp : Warp) (m : Mask) : Warp := ((wp.takeTurn m).acted).progress m

/-- A warp whose slot is held for a gallery from cycle `now` on. -/
def Warp.heldForGallery (wp : Warp) (now : Nat) : Warp :=
  { wp with clause := wp.clause.map fun c => { c with held := some .gallery, heldAt := now, heldSince := some (c.heldSince.getD now) } }

section
variable {s : State} {p : Pre} {a : Reg} {g : Seg} {k : Nat} {x : Group} {c : Clause} (h : NamesGallery s p a g k x c)
include h

theorem NamesGallery.execMask_ne : s.curWarp.execMask p ≠ 0 := fun hm => h.alone.some_lane (by rw [h.alone.slots_and, hm])

theorem NamesGallery.uni (wide : Bool) (r : Reg) : s.curWarp.uni g (s.curWarp.execMask p) wide r = s.curWarp.val wide r k := by
  rw [Warp.uni, h.lead, Option.map_some, Option.getD_some]

/-- A store-counted gallery instruction whose counter has room. -/
theorem NamesGallery.galStore_eq (hst : s.curWarp.stCnt < 63) (judge : State → Mask → Seg → Option Raise) (act : State → Mask → Seg → Bool × State) :
    s.galStore p judge act = s.galSlot (s.curWarp.execMask p) (fun t => judge t (s.curWarp.execMask p)) (fun t => act t (s.curWarp.execMask p)) .store := by
  rw [State.galStore]
  dsimp only
  rw [if_neg h.execMask_ne, if_neg (Nat.not_le.2 (show s.curWarp.stCnt < Config.counterTop from hst))]
  rfl

variable {judge : State → Seg → Option Raise} {act : State → Seg → Bool × State} {ctr : Ctr}

/-- The slot comes to the turn of its one segment. -/
theorem NamesGallery.galSlot_eq {b : Bool} {u : State} (hturn : s.galTurns (s.curWarp.execMask p) judge act [g] = (b, u)) :
    s.galSlot (s.curWarp.execMask p) judge act ctr = (if b then u.galIssued ctr else u).onWarp s.cur Warp.acted := by
  rw [State.galSlot, State.irrevocably, if_pos h.mayAct, Warp.turnOrder, h.alone.only, hturn]

theorem NamesGallery.turn_left : ¬(s.curWarp.turnsTaken &&& g.slots &&& s.curWarp.execMask p != 0) = true := by
  simp [Warp.turnsTaken, h.clause, h.turns]

/-- The segment raises what `judge` names, at the slot of which its operation waits no more (R188). -/
theorem NamesGallery.galSlot_raises {code : Nat} {detail : Word}
    (hjudge : judge s g = some { code := code, mask := g.rel (s.curWarp.execMask p), detail := detail })
    (hrec : g.record = none) (hgrade : g.handler = 0) (hd : causeDest code ≠ .host) (hl : code < 0x74) :
    Traps (s.dropWaits s.cur g.lbase) (s.galSlot (s.curWarp.execMask p) judge act ctr) g (s.curWarp.execMask p) code fun y => y.detail = detail := by
  have hcalm : g.handler &&& g.rel (s.curWarp.execMask p) = 0 := by simp [hgrade]
  have hplain : ({ code := code, mask := g.rel (s.curWarp.execMask p), detail := detail } : Raise).leavesNothing := ⟨by show code ≠ _; omega, .inl hl⟩
  have hturn : s.galTurns (s.curWarp.execMask p) judge act [g] = (true, (s.dropWaits s.cur g.lbase).takeAt s.cur g.lbase
      { code := code, mask := g.rel (s.curWarp.execMask p), detail := detail }) := by
    rw [State.galTurns, if_neg h.turn_left, hjudge]
    rfl
  have hnone : ((s.dropWaits s.cur g.lbase).takeAt s.cur g.lbase
      { code := code, mask := g.rel (s.curWarp.execMask p), detail := detail }).curWarp.turnsTaken = 0 :=
    (takeAt_turnsTaken (s.dropWaits s.cur g.lbase) c g _ h.clause h.alone.here h.alone.calm hrec hd hplain hcalm).trans h.turns
  rw [h.galSlot_eq hturn, if_pos rfl, galIssued_none hnone]
  exact (takeAt_traps_at (s.dropWaits s.cur g.lbase) g _ code detail [] _ (h.alone.dropWaits _ _) (.inl hrec) hd hl (.inl hcalm) fun y hy _ => hy).acted

/-- The segment cannot act yet: the slot is held (R193). -/
theorem NamesGallery.galSlot_waits {u : State} (hjudge : judge s g = none) (hact : act s g = (false, u)) (hu : Beside s u) :
    s.galSlot (s.curWarp.execMask p) judge act ctr = u.onWarp s.cur fun wp => (wp.heldForGallery u.now).acted := by
  have hturn : s.galTurns (s.curWarp.execMask p) judge act [g] = (false, u.holdSlot u.cur .gallery) := by
    rw [State.galTurns, if_neg h.turn_left, hjudge]
    dsimp only
    rw [hact]
  rw [h.galSlot_eq hturn, if_neg (by decide), hu.cur, State.holdSlot, onWarp_onWarp]
  rfl

theorem NamesGallery.heldForGallery {u : State} (hu : Beside s u) (hgroups : u.groups = s.groups) :
    HeldForGallery s (u.onWarp s.cur fun wp => (wp.heldForGallery u.now).acted) := by
  refine ⟨hu.samePlace ⟨rfl, rfl, rfl⟩, ?_⟩
  rw [hu.curWarp_onWarp]
  refine ⟨?_, rfl, rfl, hgroups⟩
  rw [Warp.heldForGallery, Warp.acted, h.clause]
  rfl

/-- The segment has acted: its turn is taken, and the slot issues. -/
theorem NamesGallery.galSlot_acts {u : State} (hjudge : judge s g = none) (hact : act s g = (true, u)) (hcur : u.cur = s.cur) :
    s.galSlot (s.curWarp.execMask p) judge act ctr =
      ((u.onWarp s.cur fun wp => wp.turned (s.curWarp.execMask p)).galIssued ctr).onWarp s.cur Warp.acted := by
  have hturn : s.galTurns (s.curWarp.execMask p) judge act [g] = (true, u.onWarp u.cur fun wp => wp.turned (s.curWarp.execMask p)) := by
    rw [State.galTurns, if_neg h.turn_left, hjudge]
    dsimp only
    rw [hact, h.alone.slots_and]
    rfl
  rw [h.galSlot_eq hturn, if_pos rfl, hcur]

end

/-- The turns at the slot of a warp that had taken none. -/
theorem turned_turnsTaken {wp : Warp} {c : Clause} (hc : wp.clause = some c) (hturns : c.turns = 0) (m : Mask) : (wp.turned m).turnsTaken = m := by
  simp [Warp.turned, Warp.progress, Warp.gained, Warp.takeTurn, Warp.acted, Warp.turnsTaken, hc, hturns]

theorem Completes.imp {i : Instr} {s : State} {P Q : State → Prop} (h : Completes i s P) (hpq : ∀ t, P t → Q t) : Completes i s Q := by
  obtain ⟨t, ht, hp⟩ := h
  exact ⟨t, ht, hpq t hp⟩

/-! ### Store-counted gallery instructions -/

section
variable {s u : State} {p : Pre} {a : Reg} {g : Seg} {k : Nat} {x : Group} {c : Clause} (h : NamesGallery s p a g k x c) {i : Instr}
  {judge : State → Mask → Seg → Option Raise} {act : State → Mask → Seg → Bool × State} (hexec : exec i s = .next (s.galStore p judge act))
  (hst : s.curWarp.stCnt < 63)
include h hexec hst

theorem NamesGallery.store_raises {code : Nat} {detail : Word}
    (hjudge : judge s (s.curWarp.execMask p) g = some { code := code, mask := g.rel (s.curWarp.execMask p), detail := detail })
    (hd : causeDest code ≠ .host) (hl : code < 0x74) (hrec : g.record = none) (hgrade : g.handler = 0) :
    Completes i s fun t => Traps (s.dropWaits s.cur g.lbase) t g (s.curWarp.execMask p) code fun y => y.detail = detail :=
  ⟨_, hexec, h.galStore_eq hst judge act ▸ h.galSlot_raises hjudge hrec hgrade hd hl⟩

variable (hjudge : judge s (s.curWarp.execMask p) g = none)
include hjudge

theorem NamesGallery.store_waits (hact : act s (s.curWarp.execMask p) g = (false, u)) (hu : Beside s u)
    (hgroups : u.groups = s.groups) : Completes i s fun t => HeldForGallery s t ∧ t.gals = u.gals := by
  refine ⟨_, hexec, ?_⟩
  rw [h.galStore_eq hst, h.galSlot_waits hjudge hact hu]
  exact ⟨h.heldForGallery hu hgroups, rfl⟩

theorem NamesGallery.store_acts (hact : act s (s.curWarp.execMask p) g = (true, u)) (hu : Beside s u) :
    Completes i s fun t => Stored s t ∧ t.groups = u.groups ∧ t.gals = u.gals := by
  have hissued : (u.onWarp s.cur fun wp => wp.turned (s.curWarp.execMask p)).galIssued .store =
      u.onWarp s.cur fun wp => ((wp.turned (s.curWarp.execMask p)).addStore [] 0).turnsDone := by
    have hturns : (u.onWarp s.cur fun wp => wp.turned (s.curWarp.execMask p)).curWarp.turnsTaken ≠ 0 := by
      rw [hu.curWarp_onWarp, turned_turnsTaken h.clause h.turns]
      exact h.execMask_ne
    rw [galIssued_store hturns, onWarp_cur, hu.cur, onWarp_onWarp]
  refine ⟨_, hexec, ?_⟩
  rw [h.galStore_eq hst, h.galSlot_acts hjudge hact hu.cur, hissued, onWarp_onWarp]
  refine ⟨⟨hu.samePlace ⟨rfl, rfl, rfl⟩, ?_⟩, rfl, rfl⟩
  rw [hu.curWarp_onWarp]
  rfl

end

end Sys2Proof.Machine
end

section
/-! SUPPORT. The operations at the directory, each as the change that it makes; `GMAKE`, `GFREE` and `GDET` (R186, R188, R190, R193). -/

namespace Sys2Proof.Machine

/-! ### The directory -/

/-- An entry of the directory put in its place. -/
def State.putGal (s : State) (n : Nat) (e : Gal) : State := { s with gals := s.gals.put n e }

theorem findGal_some {s : State} {ctx n : Nat} {name : DWord} {e : Gal} (h : s.findGal ctx name = some (n, e)) : e.ctx = ctx ∧ e.name = name := by
  have hkey := List.find?_some h
  simpa using hkey

/-- A group's table that a name is found in holds it. -/
theorem any_name_of_find {l : List (DWord × Nat)} {name : DWord} {q : DWord × Nat} (h : (l.find? fun y => y.1 == name) = some q) :
    (l.any fun y => y.1 == name) = true :=
  List.any_eq_true.2 ⟨q, List.mem_of_find?_eq_some h, List.find?_some (p := fun y : DWord × Nat => y.1 == name) h⟩

theorem tab_alter_some {α : Type} {t : Tab α} {k : Nat} {v : α} (h : t.find k = some v) (f : α → α) : t.alter k f = t.put k (f v) := by
  rw [Tab.alter, h]

/-- What is on its way out of a core is among what occupies it. -/
theorem State.leaving_length_le (s : State) (core : Nat) : (s.leaving core).length ≤ (s.gals.filter fun q => q.2.onCore core).length := by
  rw [State.leaving, List.length_map]
  refine (List.monotone_filter_right s.gals fun q hq => ?_).length_le
  simp only [Bool.and_eq_true, beq_iff_eq] at hq
  simp [Gal.onCore, hq.1, hq.2]

/-- Nothing need leave a core that has space and a free table entry (R193). -/
theorem evictPlan_fits {s : State} {core units : Nat} (hspace : (freeRange (s.spadUsed core []) units).isSome = true)
    (hcount : (s.gals.filter fun q => q.2.onCore core).length < 8) : s.evictPlan core units true = some [] := by
  have hle := s.leaving_length_le core
  refine if_pos ?_
  simp only [hspace, Bool.true_and, Bool.not_true, Bool.false_or, Bool.and_eq_true, decide_eq_true_eq]
  omega

section
variable {s : State} {n : Nat} {e : Gal} (he : s.gals.find n = some e)
include he

/-- An operation that does not wait at the entry yet joins it (R186). -/
theorem awaitGal_joins {w lb : Nat} {free : Bool} (hnew : (w, lb, free) ∉ e.waiters) :
    s.awaitGal n w lb free = { s with gals := s.gals.put n { e with waiters := e.waiters ++ [(w, lb, free)] } } := by
  rw [State.awaitGal, tab_alter_some he, if_neg (by simpa using hnew)]

theorem takeUp_eq (w lb : Nat) : s.takeUp n w lb =
    { s with gals := s.gals.put n { e with waiters := e.waiters.filter fun y => !(y.1 == w && y.2.1 == lb) } } := by
  rw [State.takeUp, tab_alter_some he]

/-- A fill begins at once on a core with space and a free table entry (R188, R193). -/
theorem wantOn_fits {core base : Nat} (hbase : freeRange (s.spadUsed core []) e.size = some base)
    (hcount : (s.gals.filter fun q => q.2.onCore core).length < 8) :
    s.wantOn n core = { s with gals := s.gals.put n { e with st := .filling, core := core, sbase := base, target := none } } := by
  have hplan : s.evictPlan core e.size true = some [] := evictPlan_fits (by rw [hbase]; rfl) hcount
  unfold State.wantOn
  rw [he]
  dsimp only
  rw [hplan]
  dsimp only
  unfold State.startFill
  rw [he]
  dsimp only
  rw [hbase]
  exact if_neg (by omega)

/-- A gallery for which no space can be made stays as it is (R193). -/
theorem wantOn_noPlan {core : Nat} (hplan : s.evictPlan core e.size true = none) : s.wantOn n core = s := by
  unfold State.wantOn
  rw [he]
  dsimp only
  rw [hplan]

/-- A group is attached where its table and its view have room (R188, R189). -/
theorem attach_eq {gid ctx v : Nat} {name : DWord} {x : Group} (hx : s.group gid = some x) (hkey : e.ctx = ctx ∧ e.name = name)
    (hnew : (x.gals.any fun y => y.1 == name) = false) (hroom : x.gals.length < 8) (hv : s.viewOffset x ctx e.size = some v) :
    s.attach gid n = { s with
      groups := s.groups.put gid { x with gals := x.gals ++ [(name, v * 16384)] }
      gals := s.gals.put n { e with acnt := e.acnt + 1 } } := by
  obtain ⟨rfl, rfl⟩ := hkey
  unfold State.attach
  rw [hx, he]
  dsimp only
  rw [if_neg (by rw [hnew]; decide), hv]
  exact if_neg (by omega)

end

/-- A group is detached, and the last detach puts the gallery at the end of the order of eviction (R190, R193). -/
theorem detach_eq {s : State} {gid n : Nat} {name : DWord} {e : Gal} {x : Group} (hx : s.group gid = some x)
    (hfind : s.findGal (s.ctxOf gid) name = some (n, e)) :
    s.detach gid name = { s with
      groups := s.groups.put gid { x with gals := x.gals.filter fun y => y.1 != name }
      gals := s.gals.put n { e with
        acnt := e.acnt - 1, seq := if e.acnt = 1 then e.seq + 1 else e.seq, detached := if e.acnt = 1 then s.nextNo else e.detached }
      nextNo := s.nextNo + 1 } := by
  have hctx : ({ s with groups := s.groups.put gid { x with gals := x.gals.filter fun y => y.1 != name } } : State).ctxOf gid = s.ctxOf gid := by
    simp only [State.ctxOf, State.launchOf, State.group, tab_find_put_same, Option.bind_some]
    rw [show s.groups.find gid = some x from hx]
    rfl
  have hfind' : ({ s with groups := s.groups.put gid { x with gals := x.gals.filter fun y => y.1 != name } } : State).findGal
      (({ s with groups := s.groups.put gid { x with gals := x.gals.filter fun y => y.1 != name } } : State).ctxOf gid) name = some (n, e) :=
    hctx ▸ hfind
  unfold State.detach
  rw [tab_alter_some hx]
  dsimp only
  rw [hfind']
  rfl

/-! ### What a segment raises -/

section
variable {s : State} {g : Seg} {m : Mask} {ops : List (Nat × Bool × Reg)} {name : DWord} (hname : name ≠ 0)
  (hunif : s.curWarp.unifFault g m ops = none)
include hname hunif

theorem galJudge_passes : s.galJudge g m ops name [] = none := by
  rw [State.galJudge]
  dsimp only
  rw [if_neg hname, hunif]

theorem galJudge_raises (code : Nat) : s.galJudge g m ops name [code] = some { code := code, mask := g.rel m, detail := loWord name } := by
  rw [State.galJudge]
  dsimp only
  rw [if_neg hname, hunif]
  rfl

end

theorem rangesMeet_apart {a n b k : Nat} (h : b + k ≤ a ∨ a + n ≤ b) : rangesMeet a n b k = false := by
  rw [rangesMeet, decide_eq_false_iff_not]
  omega

/-! ### `GMAKE`, `GFREE` and `GDET` -/

section
variable {s : State} {e : Gal} {lb : Nat}

theorem freeWaits_false (hst : e.st = .resident ∨ e.st = .evicted) (hturn : s.overtakes e s.cur lb = false) : s.freeWaits e lb = false := by
  rw [State.freeWaits, hturn]
  rcases hst with hst | hst <;> rw [hst] <;> rfl

theorem freeWaits_true (hwhy : e.st = .filling ∨ e.st = .writingBack ∨ s.overtakes e s.cur lb = true) : s.freeWaits e lb = true := by
  simpa [State.freeWaits, or_assoc] using hwhy

end

/-- What `GFREE` raises for the names that its segments give (R367). -/
def State.freeJudge (s : State) (m : Mask) (a : Reg) (g : Seg) : Option Raise :=
  s.galJudge g m [(5, true, a)] (s.curWarp.uni g m true a)
    (match s.findGal (s.ctxOf g.gid) (s.curWarp.uni g m true a) with
      | none => [0x5B]
      | some (_, e) => if e.acnt ≠ 0 ∧ !s.freeWaits e g.lbase then [0x5D] else [])

/-- What `GDET` raises for the names that its segments give (R367). -/
def State.detJudge (s : State) (m : Mask) (a : Reg) (g : Seg) : Option Raise :=
  s.galJudge g m [(5, true, a)] (s.curWarp.uni g m true a)
    (if ((s.group g.gid).map fun x => x.gals.any fun y => y.1 == s.curWarp.uni g m true a).getD false then [] else [0x5E])

section
variable {s : State} {p : Pre} {a : Reg} {g : Seg} {k : Nat} {x : Group} {cl : Clause} (h : NamesGallery s p a g k x cl) (hst : s.curWarp.stCnt < 63)
include h

theorem NamesGallery.uni_name : s.curWarp.uni g (s.curWarp.execMask p) true a = s.curWarp.val64 a k := h.uni true a

theorem NamesGallery.judge_passes : s.galJudge g (s.curWarp.execMask p) [(5, true, a)] (s.curWarp.val64 a k) [] = none :=
  galJudge_passes h.name h.uniform

include hst

/-- `GMAKE` makes an evicted gallery that nobody holds (R186, R188). -/
theorem NamesGallery.gmake_makes {b c : Reg} (hnew : s.findGal (s.ctxOf g.gid) (s.curWarp.val64 a k) = none)
    (hunif : s.curWarp.unifFault g (s.curWarp.execMask p) [(5, true, a), (6, true, b), (7, false, c)] = none)
    (hsome : 1 ≤ (s.curWarp.val32 c k).toNat) (hsize : (s.curWarp.val32 c k).toNat ≤ 48) (haligned : (s.curWarp.val64 b k).toNat % 16384 = 0)
    (hroom : (s.gals.filter fun q => q.2.ctx == s.ctxOf g.gid).length < 256)
    (hapart : ∀ q ∈ s.gals, q.2.ctx = s.ctxOf g.gid → q.2.back.toNat + q.2.size * 16384 ≤ (s.curWarp.val64 b k).toNat ∨
      (s.curWarp.val64 b k).toNat + (s.curWarp.val32 c k).toNat * 16384 ≤ q.2.back.toNat) :
    Completes (.gmake p a b c) s fun t => Stored s t ∧ t.groups = s.groups ∧ t.gals = s.gals.put s.nextNo
      ⟨s.ctxOf g.gid, s.curWarp.val64 a k, (s.curWarp.val32 c k).toNat, s.curWarp.val64 b k, 0, 0, .evicted, 0, 0, [], none, 0, 0⟩ := by
  have hback : s.curWarp.uni g (s.curWarp.execMask p) true b = s.curWarp.val64 b k := h.uni true b
  have hunits : (s.curWarp.uni g (s.curWarp.execMask p) false c).toNat = (s.curWarp.val32 c k).toNat := by
    rw [h.uni false c, Warp.val]
    simp only [Bool.false_eq_true, if_false, BitVec.toNat_setWidth]
    omega
  have hmeet : ((s.gals.filter fun q => q.2.ctx == s.ctxOf g.gid).any fun q => rangesMeet (s.curWarp.val64 b k).toNat
      ((s.curWarp.val32 c k).toNat * 16384) q.2.back.toNat (q.2.size * 16384)) = false := by
    rw [List.any_eq_false]
    intro q hq
    obtain ⟨hmem, hctx⟩ := List.mem_filter.1 hq
    rw [rangesMeet_apart (hapart q hmem (beq_iff_eq.1 hctx))]
    decide
  refine h.store_acts (u := { s with
    gals := s.gals.put s.nextNo
      ⟨s.ctxOf g.gid, s.curWarp.val64 a k, (s.curWarp.val32 c k).toNat, s.curWarp.val64 b k, 0, 0, .evicted, 0, 0, [], none, 0, 0⟩
    nextNo := s.nextNo + 1 }) rfl hst ?judged ?made ⟨rfl, rfl, rfl, rfl⟩
  case judged =>
    dsimp only
    rw [h.uni_name, hback, hunits, hnew, hmeet, if_neg (by decide), if_neg (by omega), if_neg (by omega), if_neg (by decide), if_neg (by omega)]
    exact galJudge_passes h.name hunif
  case made =>
    dsimp only
    rw [← h.uni_name, ← hback, ← hunits]
    rfl

section
variable {n : Nat} {e : Gal} (hfind : s.findGal (s.ctxOf g.gid) (s.curWarp.val64 a k) = some (n, e)) (he : s.gals.find n = some e)

theorem NamesGallery.gfree_unknown (hnone : s.findGal (s.ctxOf g.gid) (s.curWarp.val64 a k) = none) (hrec : g.record = none) (hgrade : g.handler = 0) :
    Completes (.gfree p a) s fun t => Traps (s.dropWaits s.cur g.lbase) t g (s.curWarp.execMask p) 0x5B fun y =>
      y.detail = loWord (s.curWarp.val64 a k) := by
  have hjudge : s.freeJudge (s.curWarp.execMask p) a g =
      some { code := 0x5B, mask := g.rel (s.curWarp.execMask p), detail := loWord (s.curWarp.val64 a k) } := by
    rw [State.freeJudge, h.uni_name, hnone]
    exact galJudge_raises h.name h.uniform 0x5B
  exact h.store_raises rfl hst hjudge (by decide) (by decide) hrec hgrade

include hfind

omit hst in
theorem NamesGallery.freeJudge_eq : s.freeJudge (s.curWarp.execMask p) a g = s.galJudge g (s.curWarp.execMask p) [(5, true, a)] (s.curWarp.val64 a k)
    (if e.acnt ≠ 0 ∧ !s.freeWaits e g.lbase then [0x5D] else []) := by
  rw [State.freeJudge, h.uni_name, hfind]

/-- `GFREE` of a gallery that a group holds, when its turn has come (R188). -/
theorem NamesGallery.gfree_attached (hacnt : e.acnt ≠ 0) (hturn : s.freeWaits e g.lbase = false) (hrec : g.record = none) (hgrade : g.handler = 0) :
    Completes (.gfree p a) s fun t => Traps (s.dropWaits s.cur g.lbase) t g (s.curWarp.execMask p) 0x5D fun y =>
      y.detail = loWord (s.curWarp.val64 a k) := by
  have hjudge : s.freeJudge (s.curWarp.execMask p) a g =
      some { code := 0x5D, mask := g.rel (s.curWarp.execMask p), detail := loWord (s.curWarp.val64 a k) } := by
    rw [h.freeJudge_eq hfind, if_pos ⟨hacnt, by rw [hturn]; rfl⟩]
    exact galJudge_raises h.name h.uniform 0x5D
  exact h.store_raises rfl hst hjudge (by decide) (by decide) hrec hgrade

omit hst in
/-- Nothing is raised against a `GFREE` that waits, or that finds its gallery free of groups. -/
theorem NamesGallery.freeJudge_passes (hok : e.acnt = 0 ∨ s.freeWaits e g.lbase = true) : s.freeJudge (s.curWarp.execMask p) a g = none := by
  have hcalm : ¬(e.acnt ≠ 0 ∧ (!s.freeWaits e g.lbase) = true) := by
    rintro ⟨hacnt, hgoes⟩
    rcases hok with hzero | hwaits
    · exact hacnt hzero
    · rw [hwaits] at hgoes
      cases hgoes
  rw [h.freeJudge_eq hfind, if_neg hcalm]
  exact h.judge_passes

theorem NamesGallery.gfree_frees (hacnt : e.acnt = 0) (hturn : s.freeWaits e g.lbase = false) :
    Completes (.gfree p a) s fun t => Stored s t ∧ t.groups = s.groups ∧ t.gals = s.gals.del n := by
  refine h.store_acts (u := { s with gals := s.gals.del n }) rfl hst (h.freeJudge_passes hfind (.inl hacnt)) ?_ ⟨rfl, rfl, rfl, rfl⟩
  rw [h.uni_name, hfind]
  simp only [hturn]
  rfl

include he

theorem NamesGallery.gfree_waits (hwaits : s.freeWaits e g.lbase = true) (hnew : (s.cur, g.lbase, true) ∉ e.waiters) :
    Completes (.gfree p a) s fun t => HeldForGallery s t ∧
      t.gals = s.gals.put n { e with waiters := e.waiters ++ [(s.cur, g.lbase, true)] } := by
  refine h.store_waits (u := { s with gals := s.gals.put n { e with waiters := e.waiters ++ [(s.cur, g.lbase, true)] } }) rfl hst
    (h.freeJudge_passes hfind (.inr hwaits)) ?_ ⟨rfl, rfl, rfl, rfl⟩ rfl
  rw [h.uni_name, hfind]
  dsimp only
  rw [hwaits, if_pos rfl, awaitGal_joins he hnew]

end

section
variable {n v : Nat} {e : Gal}

omit hst in
theorem NamesGallery.detJudge_eq : s.detJudge (s.curWarp.execMask p) a g = s.galJudge g (s.curWarp.execMask p) [(5, true, a)] (s.curWarp.val64 a k)
    (if (x.gals.any fun y => y.1 == s.curWarp.val64 a k) then [] else [0x5E]) := by
  rw [State.detJudge, h.uni_name, h.group, Option.map_some, Option.getD_some]

theorem NamesGallery.gdet_unattached (hnone : (x.gals.any fun y => y.1 == s.curWarp.val64 a k) = false) (hrec : g.record = none)
    (hgrade : g.handler = 0) : Completes (.gdet p a) s fun t => Traps (s.dropWaits s.cur g.lbase) t g (s.curWarp.execMask p) 0x5E fun y =>
      y.detail = loWord (s.curWarp.val64 a k) := by
  have hjudge : s.detJudge (s.curWarp.execMask p) a g =
      some { code := 0x5E, mask := g.rel (s.curWarp.execMask p), detail := loWord (s.curWarp.val64 a k) } := by
    rw [h.detJudge_eq, hnone]
    exact galJudge_raises h.name h.uniform 0x5E
  exact h.store_raises rfl hst hjudge (by decide) (by decide) hrec hgrade

variable (hfind : s.findGal (s.ctxOf g.gid) (s.curWarp.val64 a k) = some (n, e))
  (hv : (x.gals.find? fun y => y.1 == s.curWarp.val64 a k) = some (s.curWarp.val64 a k, v))
include hv

omit hst in
theorem NamesGallery.detJudge_passes : s.detJudge (s.curWarp.execMask p) a g = none := by
  rw [h.detJudge_eq, any_name_of_find hv, if_pos rfl]
  exact h.judge_passes

omit hst in
/-- Where the gallery appears to the group (R189). -/
theorem NamesGallery.gdet_view : (((s.group g.gid).bind fun x => x.gals.find? fun y => y.1 == s.curWarp.val64 a k).map Prod.snd).getD 0 = v := by
  rw [h.group, Option.bind_some, hv]
  rfl

include hfind

/-- `GDET` once nothing of the group is on its way to the gallery (R190). -/
theorem NamesGallery.gdet_detaches
    (hidle : e.st ≠ .resident ∨ s.accessPending g.gid e.core (e.sbase * 16384) (e.size * 16384) v = false) :
    Completes (.gdet p a) s fun t => Stored s t ∧
      t.groups = s.groups.put g.gid { x with gals := x.gals.filter fun y => y.1 != s.curWarp.val64 a k } ∧
      t.gals = s.gals.put n { e with
        acnt := e.acnt - 1, seq := if e.acnt = 1 then e.seq + 1 else e.seq, detached := if e.acnt = 1 then s.nextNo else e.detached } := by
  have hgo : ¬(e.st = .resident ∧ s.accessPending g.gid e.core (e.sbase * 16384) (e.size * 16384) v = true) := by
    rintro ⟨hres, hpending⟩
    rcases hidle with hne | hnone
    · exact hne hres
    · rw [hnone] at hpending
      cases hpending
  have hdetach := detach_eq h.group hfind
  have hdone := h.store_acts (i := .gdet p a) (u := s.detach g.gid (s.curWarp.val64 a k)) rfl hst (h.detJudge_passes hv) ?turn
    (hdetach ▸ ⟨rfl, rfl, rfl, rfl⟩)
  case turn =>
    rw [h.uni_name]
    dsimp only
    rw [hfind]
    dsimp only
    rw [h.gdet_view hv, if_neg hgo]
  rw [hdetach] at hdone
  exact hdone

theorem NamesGallery.gdet_waits (hres : e.st = .resident)
    (hpending : s.accessPending g.gid e.core (e.sbase * 16384) (e.size * 16384) v = true) :
    Completes (.gdet p a) s fun t => HeldForGallery s t ∧ t.gals = s.gals := by
  refine h.store_waits (u := s) rfl hst (h.detJudge_passes hv) ?_ ⟨rfl, rfl, rfl, rfl⟩ rfl
  rw [h.uni_name]
  dsimp only
  rw [hfind]
  dsimp only
  rw [h.gdet_view hv, if_pos ⟨hres, hpending⟩]

end

end

end Sys2Proof.Machine
end

section
/-! SUPPORT. `GATT` in one segment: what it raises, how it waits, and what it returns (R186, R188, R189, R193). -/

namespace Sys2Proof.Machine

/-! ### The judgement -/

/-- What `GATT` raises for the names that its segments give (R367, R399). -/
def State.attJudge (s : State) (m : Mask) (a : Reg) (g : Seg) : Option Raise :=
  s.galJudge g m [(5, true, a)] (s.curWarp.uni g m true a)
    (match s.findGal (s.ctxOf g.gid) (s.curWarp.uni g m true a), s.group g.gid with
      | some (_, e), some x =>
        if s.attWaits g x e ∨ (x.gals.any fun y => y.1 == s.curWarp.uni g m true a) ∨
          (x.gals.length < 8 ∧ (s.viewOffset x (s.ctxOf g.gid) e.size).isSome) then [] else [0x63]
      | _, _ => [0x5B])

section
variable {s : State} {p : Pre} {d a : Reg} {g : Seg} {k : Nat} {x : Group} {cl : Clause} (h : NamesGallery s p a g k x cl) {n : Nat} {e : Gal}
include h

theorem NamesGallery.attJudge_unknown (hnone : s.findGal (s.ctxOf g.gid) (s.curWarp.val64 a k) = none) : s.attJudge (s.curWarp.execMask p) a g =
    some { code := 0x5B, mask := g.rel (s.curWarp.execMask p), detail := loWord (s.curWarp.val64 a k) } := by
  rw [State.attJudge, h.uni_name, hnone]
  exact galJudge_raises h.name h.uniform 0x5B

theorem NamesGallery.attJudge_eq (hfind : s.findGal (s.ctxOf g.gid) (s.curWarp.val64 a k) = some (n, e)) :
    s.attJudge (s.curWarp.execMask p) a g = s.galJudge g (s.curWarp.execMask p) [(5, true, a)] (s.curWarp.val64 a k)
      (if s.attWaits g x e ∨ (x.gals.any fun y => y.1 == s.curWarp.val64 a k) ∨
        (x.gals.length < 8 ∧ (s.viewOffset x (s.ctxOf g.gid) e.size).isSome) then [] else [0x63]) := by
  rw [State.attJudge, h.uni_name, hfind, h.group]

/-- A group without room for one gallery more (R189). -/
theorem NamesGallery.attJudge_full (hfind : s.findGal (s.ctxOf g.gid) (s.curWarp.val64 a k) = some (n, e))
    (hnew : (x.gals.any fun y => y.1 == s.curWarp.val64 a k) = false) (hgoes : s.attWaits g x e = false)
    (hfull : 8 ≤ x.gals.length ∨ s.viewOffset x (s.ctxOf g.gid) e.size = none) : s.attJudge (s.curWarp.execMask p) a g =
    some { code := 0x63, mask := g.rel (s.curWarp.execMask p), detail := loWord (s.curWarp.val64 a k) } := by
  rw [h.attJudge_eq hfind, if_neg]
  · exact galJudge_raises h.name h.uniform 0x63
  · rw [hgoes, hnew]
    rintro (hf | hf | ⟨hroom, hplace⟩)
    · cases hf
    · cases hf
    · rcases hfull with hlength | hnone
      · omega
      · rw [hnone] at hplace
        cases hplace

theorem NamesGallery.attJudge_passes (hfind : s.findGal (s.ctxOf g.gid) (s.curWarp.val64 a k) = some (n, e))
    (hok : (x.gals.any fun y => y.1 == s.curWarp.val64 a k) = true ∨
      (x.gals.length < 8 ∧ (s.viewOffset x (s.ctxOf g.gid) e.size).isSome = true)) : s.attJudge (s.curWarp.execMask p) a g = none := by
  rw [h.attJudge_eq hfind, if_pos (.inr hok)]
  exact h.judge_passes

theorem NamesGallery.attJudge_room {v : Nat} (hfind : s.findGal (s.ctxOf g.gid) (s.curWarp.val64 a k) = some (n, e)) (hroom : x.gals.length < 8)
    (hv : s.viewOffset x (s.ctxOf g.gid) e.size = some v) : s.attJudge (s.curWarp.execMask p) a g = none :=
  h.attJudge_passes hfind (.inr ⟨hroom, by rw [hv]; rfl⟩)

/-- A `GATT` whose counter has room. -/
theorem NamesGallery.execGatt_eq (hld : s.curWarp.ldCnt < 63) : exec (.gatt p d a) s = .next (s.galSlot (s.curWarp.execMask p)
    (fun t g => t.attJudge (s.curWarp.execMask p) a g)
    (fun t g => t.attTurn g (s.curWarp.execMask p) d (s.curWarp.execMask p) (t.curWarp.uni g (s.curWarp.execMask p) true a)) .load) := by
  show execGatt p d a s = _
  unfold execGatt
  dsimp only
  rw [if_neg h.execMask_ne, if_neg (Nat.not_le.2 (show s.curWarp.ldCnt < Config.counterTop from hld))]
  rfl

theorem NamesGallery.gatt_raises (hld : s.curWarp.ldCnt < 63) {code : Nat} (hjudge : s.attJudge (s.curWarp.execMask p) a g =
      some { code := code, mask := g.rel (s.curWarp.execMask p), detail := loWord (s.curWarp.val64 a k) })
    (hd : causeDest code ≠ .host) (hl : code < 0x74) (hrec : g.record = none) (hgrade : g.handler = 0) :
    Completes (.gatt p d a) s fun t => Traps (s.dropWaits s.cur g.lbase) t g (s.curWarp.execMask p) code fun y =>
      y.detail = loWord (s.curWarp.val64 a k) :=
  ⟨_, h.execGatt_eq hld, h.galSlot_raises hjudge hrec hgrade hd hl⟩

/-- A `GATT` that cannot return yet (R188, R193). -/
theorem NamesGallery.gatt_waits (hld : s.curWarp.ldCnt < 63) {u : State} (hjudge : s.attJudge (s.curWarp.execMask p) a g = none)
    (hact : s.attTurn g (s.curWarp.execMask p) d (s.curWarp.execMask p) (s.curWarp.val64 a k) = (false, u)) (hu : Beside s u)
    (hgroups : u.groups = s.groups) : Completes (.gatt p d a) s fun t => HeldForGallery s t ∧ t.gals = u.gals := by
  refine ⟨_, h.execGatt_eq hld, ?_⟩
  rw [h.galSlot_waits hjudge (h.uni_name ▸ hact) hu]
  exact ⟨h.heldForGallery hu hgroups, rfl⟩

/-- A `GATT` that cannot return joins the entry, once its turn has made of the directory what it makes. -/
theorem NamesGallery.gatt_joins (hld : s.curWarp.ldCnt < 63) {u : State} (hjudge : s.attJudge (s.curWarp.execMask p) a g = none)
    (hturn : s.attTurn g (s.curWarp.execMask p) d (s.curWarp.execMask p) (s.curWarp.val64 a k) = (false, u.awaitGal n s.cur g.lbase false))
    (hu : Beside s u) (hgroups : u.groups = s.groups) (he : u.gals.find n = some e) (hfirst : (s.cur, g.lbase, false) ∉ e.waiters) :
    Completes (.gatt p d a) s fun t => HeldForGallery s t ∧ t.gals = u.gals.put n { e with waiters := e.waiters ++ [(s.cur, g.lbase, false)] } := by
  rw [awaitGal_joins he hfirst] at hturn
  exact h.gatt_waits hld hjudge hturn ⟨hu.cur, hu.warps, hu.mem, hu.spad⟩ hgroups

end

/-! ### The answer -/

/-- A record whose slot issues for lanes `m` with one value for each segment. -/
def Res.issued (r : Res) (m fill : Mask) (cover : Cover) (gens : List (Nat × Nat × BitVec 16)) : Res :=
  { r with lanes := m, shape := .uniform, fill := fill, cover := cover, gens := gens }

theorem galIssued_load {s : State} {c : Clause} {m : Mask} (hturns : s.curWarp.turnsTaken = m) (hm : m ≠ 0) (hc : s.curWarp.clause = some c) :
    ∃ fill cover gens, s.galIssued .load = s.onWarp s.cur fun wp =>
      ((wp.onRes c.resId fun r => r.issued m fill cover gens).countUp .load).turnsDone := by
  refine ⟨(s.curWarp.reach m).1, (s.curWarp.reach m).2, s.gensOf s.cur m, ?_⟩
  unfold State.galIssued
  dsimp only
  rw [hturns, hc, if_neg hm]
  rfl

/-- What `GATT` gives each lane: the gallery's sequence number, and its place in the group's view (R189). -/
def Gal.answer (e : Gal) (v : Nat) : BitVec 128 := (e.seq ++ BitVec.ofNat 32 v : BitVec 64).setWidth 128

/-- An entry at which the operation of a segment waits no more. -/
def Gal.left (e : Gal) (w lb : Nat) : Gal := { e with waiters := e.waiters.filter fun y => !(y.1 == w && y.2.1 == lb) }

/-- The answer of a `GATT` to its segment, once the group holds the gallery: what `State.attTurn` does then. -/
def State.attAnswer (s : State) (n : Nat) (g : Seg) (m : Mask) (d : Reg) (all : Mask) (name : DWord) : State :=
  let s := s.takeUp n s.cur g.lbase
  match s.group g.gid, s.gals.find n with
  | some x, some e =>
    let v := ((x.gals.find? fun y => y.1 == name).map Prod.snd).getD 0
    let (id, s) := s.sharedRes .load d 2 all
    s.onWarp s.cur fun wp => wp.onRes id fun r => r.give (g.slots &&& m) (e.answer v)
  | _, _ => s

/-- A result record that the turns of the warp's slot share. -/
def Warp.withRes (wp : Warp) (r : Res) : Warp :=
  { wp with results := wp.results ++ [r], nextId := r.id, clause := wp.clause.map fun c => { c with resId := r.id } }

theorem sharedRes_first {s : State} {c : Clause} (hc : s.curWarp.clause = some c) (hid : c.resId = 0) (ctr : Ctr) (d : Reg) (words : Nat) (m : Mask) :
    s.sharedRes ctr d words m = ((s.newRes s.cur ctr d words .b32 m .general).id, s.onWarp s.cur fun wp =>
      wp.withRes (s.newRes s.cur ctr d words .b32 m .general)) := by
  have hwarp : s.warp s.cur = s.curWarp := rfl
  simp only [State.sharedRes, State.onWarp, Warp.withRes, hwarp, hc, Option.map_some]
  exact if_neg (by rw [hid]; decide)

/-- A change of the newest record, whose number is new, changes no other. -/
theorem onRes_newest {wp : Warp} {l : List Res} {r : Res} (hl : wp.results = l ++ [r]) (hnew : (l.any fun q => q.id == r.id) = false) (f : Res → Res) :
    (wp.onRes r.id f).results = l ++ [f r] := by
  have hold : l.map (fun q => if q.id = r.id then f q else q) = l := by
    conv_rhs => rw [← List.map_id l]
    exact List.map_congr_left fun q hq => if_neg fun hid => List.any_eq_false.1 hnew q hq (beq_iff_eq.2 hid)
  simp [Warp.onRes, hl, hold]

/-- The answer leaves the entry, with the operation gone from it, and one record more at the slot, which holds the values of the segment's lanes. -/
theorem attAnswer_eq {u : State} {n v : Nat} {g : Seg} {m all : Mask} {d : Reg} {name : DWord} {x : Group} {e : Gal} {c : Clause}
    (hx : u.group g.gid = some x) (he : u.gals.find n = some e) (hv : (x.gals.find? fun y => y.1 == name) = some (name, v))
    (hc : u.curWarp.clause = some c) (hid : c.resId = 0) : ∃ r : Res, r.id = u.curWarp.nextId + 1 ∧ r.dst = d ∧ r.words = 2 ∧ r.lanes = all ∧
      u.attAnswer n g m d all name = (u.putGal n (e.left u.cur g.lbase)).onWarp u.cur fun wp =>
        (wp.withRes r).onRes r.id fun r => r.give (g.slots &&& m) (e.answer v) := by
  refine ⟨(u.putGal n (e.left u.cur g.lbase)).newRes u.cur .load d 2 .b32 all .general, rfl, rfl, rfl, rfl, ?_⟩
  have hup : u.takeUp n u.cur g.lbase = u.putGal n (e.left u.cur g.lbase) := takeUp_eq he _ _
  have hgroup : (u.putGal n (e.left u.cur g.lbase)).group g.gid = some x := hx
  have hentry : (u.putGal n (e.left u.cur g.lbase)).gals.find n = some (e.left u.cur g.lbase) := tab_find_put_same _ _ _
  have hshared := sharedRes_first (s := u.putGal n (e.left u.cur g.lbase)) hc hid .load d 2 all
  unfold State.attAnswer
  rw [hup]
  dsimp only
  rw [hgroup, hentry]
  dsimp only
  rw [hshared, hv]
  dsimp only
  rw [onWarp_cur, onWarp_onWarp]
  rfl

/-! ### The turn of a segment -/

section
variable {s : State} {g : Seg} {m : Mask} {d : Reg} {all : Mask} {name : DWord} {n : Nat} {e : Gal} {x : Group}
  (hfind : s.findGal (s.ctxOf g.gid) name = some (n, e)) (hx : s.group g.gid = some x)
include hfind hx

theorem attTurn_held (hheld : (x.gals.any fun y => y.1 == name) = true) (hst : e.st = .resident) (hcore : e.core = coreOf s.cur) :
    s.attTurn g m d all name = (true, s.attAnswer n g m d all name) := by
  unfold State.attTurn
  rw [hfind, hx]
  exact if_pos ⟨hheld, hst, hcore⟩

/-- The segment's group does not hold the gallery yet. -/
theorem attTurn_new (hnew : (x.gals.any fun y => y.1 == name) = false) : s.attTurn g m d all name =
    if s.overtakes e s.cur g.lbase then (false, s.awaitGal n s.cur g.lbase false)
    else match e.st with
      | .resident =>
        if e.core = coreOf s.cur then
          if e.acnt = 0xFFFF_FFFF#32 then (false, s.awaitGal n s.cur g.lbase false)
          else (true, (s.attach g.gid n).attAnswer n g m d all name)
        else if e.acnt = 0 then
          (false, ({ s with gals := s.gals.put n { e with st := .writingBack, target := some (coreOf s.cur) } } : State).awaitGal n s.cur g.lbase false)
        else (false, s.awaitGal n s.cur g.lbase false)
      | .evicted => (false, (s.wantOn n (coreOf s.cur)).awaitGal n (s.wantOn n (coreOf s.cur)).cur g.lbase false)
      | .filling => (false, s.awaitGal n s.cur g.lbase false)
      | .writingBack => (false, s.awaitGal n s.cur g.lbase false) := by
  unfold State.attTurn
  rw [hfind, hx]
  exact if_neg fun hheld => by simp [hnew] at hheld

end

/-! ### `GATT` returns -/

/-- The slot has issued with one more operation in the load counter, whose record, of destination `d`, holds `v` for each lane of `m`. -/
def Returned (s t : State) (m : Mask) (d : Reg) (v : BitVec 128) : Prop :=
  SamePlace s t ∧ t.curWarp.ldCnt = s.curWarp.ldCnt + 1 ∧ ∃ r, t.curWarp.results = s.curWarp.results ++ [r] ∧ r.dst = d ∧ r.words = 2 ∧ r.lanes = m ∧
    ∀ l, m.getLsbD l = true → r.vals.find l = some v

/-- A warp whose slot has given the lanes `m` their value in the record `r`, which is new, and has taken their turn. -/
def Warp.given (wp : Warp) (r : Res) (m : Mask) (v : BitVec 128) : Warp := ((wp.withRes r).onRes r.id fun r => r.give m v).turned m

theorem given_clause {wp : Warp} {c : Clause} (hc : wp.clause = some c) (r : Res) (m : Mask) (v : BitVec 128) :
    (wp.given r m v).clause = some { c with resId := r.id, turns := c.turns ||| m, acted := true } := by
  simp [Warp.given, Warp.turned, Warp.progress, Warp.gained, Warp.takeTurn, Warp.acted, Warp.onRes, Warp.withRes, hc]

theorem given_results {wp : Warp} {r : Res} (hnew : (wp.results.any fun q => q.id == r.id) = false) (m : Mask) (v : BitVec 128) :
    (wp.given r m v).results = wp.results ++ [r.give m v] := onRes_newest (wp := wp.withRes r) rfl hnew fun r => r.give m v

theorem given_keeps (wp : Warp) (r : Res) (m : Mask) (v : BitVec 128) : KeepsPlace wp (wp.given r m v) := ⟨rfl, rfl, rfl⟩

theorem given_ldCnt (wp : Warp) (r : Res) (m : Mask) (v : BitVec 128) : (wp.given r m v).ldCnt = wp.ldCnt := rfl

/-- A warp whose load-counted slot issues: the record of the slot is completed, and the counter rises (R73, R74). -/
def Warp.loadIssued (wp : Warp) (id : Nat) (f : Res → Res) : Warp := (((wp.onRes id f).countUp .load).turnsDone).acted

theorem loadIssued_keeps (wp : Warp) (id : Nat) (f : Res → Res) : KeepsPlace wp (wp.loadIssued id f) := ⟨rfl, rfl, rfl⟩

theorem loadIssued_ldCnt (wp : Warp) (id : Nat) (f : Res → Res) : (wp.loadIssued id f).ldCnt = wp.ldCnt + 1 := rfl

theorem loadIssued_results (wp : Warp) (id : Nat) (f : Res → Res) : (wp.loadIssued id f).results = (wp.onRes id f).results := rfl

/-- The values of a record that had none. -/
theorem give_find {r : Res} {m : Mask} (hlanes : r.lanes = m) (v : BitVec 128) {l : Nat} (hl : m.getLsbD l = true) :
    (r.give m v).vals.find l = some v :=
  find_foldl_put _ _ _ _ (.inl ((mem_lanesOf _ l).2 (by rw [hlanes, BitVec.and_self, hl])))

section
variable {s u : State} {p : Pre} {d a : Reg} {g : Seg} {k : Nat} {x y : Group} {c : Clause} (h : NamesGallery s p a g k x c)
  (hld : s.curWarp.ldCnt < 63) (hid : c.resId = 0) (hjudge : s.attJudge (s.curWarp.execMask p) a g = none)
include h hld hjudge

theorem NamesGallery.gatt_acts
    (hact : s.attTurn g (s.curWarp.execMask p) d (s.curWarp.execMask p) (s.curWarp.val64 a k) = (true, u)) (hcur : u.cur = s.cur) :
    exec (.gatt p d a) s = .next (((u.onWarp s.cur fun wp => wp.turned (s.curWarp.execMask p)).galIssued .load).onWarp s.cur Warp.acted) := by
  rw [h.execGatt_eq hld, h.galSlot_acts hjudge (h.uni_name ▸ hact) hcur]

omit hld hjudge in
/-- A slot that has given its lanes their value issues, and its record stands last. -/
theorem NamesGallery.issued_returns {r : Res} (hnew : (s.curWarp.results.any fun q => q.id == r.id) = false) (hdst : r.dst = d) (hwords : r.words = 2)
    (hlanes : r.lanes = s.curWarp.execMask p) {v : BitVec 128} (hu : Beside s u) :
    ∃ t, ((u.onWarp s.cur fun wp => wp.given r (s.curWarp.execMask p) v).galIssued .load).onWarp s.cur Warp.acted = t ∧
      Returned s t (s.curWarp.execMask p) d v ∧ t.groups = u.groups ∧ t.gals = u.gals := by
  have hwarp : (u.onWarp s.cur fun wp => wp.given r (s.curWarp.execMask p) v).curWarp = s.curWarp.given r (s.curWarp.execMask p) v :=
    hu.curWarp_onWarp _
  have hclause := given_clause h.clause r (s.curWarp.execMask p) v
  have hturns : (s.curWarp.given r (s.curWarp.execMask p) v).turnsTaken = s.curWarp.execMask p := by
    rw [Warp.turnsTaken, hclause, Option.map_some, Option.getD_some, h.turns]
    exact BitVec.zero_or
  obtain ⟨fill, cover, gens, hissued⟩ := galIssued_load (hwarp ▸ hturns) h.execMask_ne (hwarp ▸ hclause)
  have hstate : ((u.onWarp s.cur fun wp => wp.given r (s.curWarp.execMask p) v).galIssued .load).onWarp s.cur Warp.acted =
      u.onWarp s.cur fun wp => (wp.given r (s.curWarp.execMask p) v).loadIssued r.id fun q => q.issued (s.curWarp.execMask p) fill cover gens := by
    rw [hissued, onWarp_cur, hu.cur, onWarp_onWarp, onWarp_onWarp]
    rfl
  have hresults : ((s.curWarp.given r (s.curWarp.execMask p) v).loadIssued r.id fun q => q.issued (s.curWarp.execMask p) fill cover gens).results =
      s.curWarp.results ++ [(r.give (s.curWarp.execMask p) v).issued (s.curWarp.execMask p) fill cover gens] :=
    (loadIssued_results _ _ _).trans (onRes_newest (given_results hnew _ _) hnew _)
  refine ⟨_, hstate, ⟨hu.samePlace ((given_keeps _ _ _ _).trans (loadIssued_keeps _ _ _)), ?_⟩, rfl, rfl⟩
  rw [hu.curWarp_onWarp]
  exact ⟨by rw [loadIssued_ldCnt, given_ldCnt], _, hresults, hdst, hwords, rfl, fun l hl => give_find hlanes v hl⟩

include hid in
/-- A `GATT` whose segment is answered in a state `u`, in which its group holds the gallery. -/
theorem NamesGallery.gatt_returns {n v : Nat} {e : Gal}
    (hnew : (s.curWarp.results.any fun r => r.id == s.curWarp.nextId + 1) = false)
    (hact : s.attTurn g (s.curWarp.execMask p) d (s.curWarp.execMask p) (s.curWarp.val64 a k) =
      (true, u.attAnswer n g (s.curWarp.execMask p) d (s.curWarp.execMask p) (s.curWarp.val64 a k)))
    (hu : Beside s u) (hy : u.group g.gid = some y) (he : u.gals.find n = some e)
    (hv : (y.gals.find? fun z => z.1 == s.curWarp.val64 a k) = some (s.curWarp.val64 a k, v)) :
    Completes (.gatt p d a) s fun t => Returned s t (s.curWarp.execMask p) d (e.answer v) ∧ t.groups = u.groups ∧
      t.gals = u.gals.put n (e.left s.cur g.lbase) := by
  obtain ⟨r, hrid, hdst, hwords, hlanes, hanswer⟩ := attAnswer_eq (m := s.curWarp.execMask p) (all := s.curWarp.execMask p) (d := d) hy he hv
    (hu.curWarp ▸ h.clause) hid
  rw [h.alone.slots_and, hu.cur] at hanswer
  rw [hu.curWarp] at hrid
  obtain ⟨t, ht, hdone⟩ := h.issued_returns (hrid ▸ hnew) hdst hwords hlanes (v := e.answer v)
    (u := u.putGal n (e.left s.cur g.lbase)) ⟨hu.cur, hu.warps, hu.mem, hu.spad⟩
  rw [hanswer] at hact
  refine ⟨t, ?_, hdone⟩
  rw [h.gatt_acts hld hjudge hact hu.cur, onWarp_onWarp, ← ht]
  rfl

end

/-! ### The cases of `GATT` -/

section
variable {s : State} {p : Pre} {d a : Reg} {g : Seg} {k : Nat} {x : Group} {c : Clause} (h : NamesGallery s p a g k x c) {n : Nat} {e : Gal}
  (hld : s.curWarp.ldCnt < 63) (hfind : s.findGal (s.ctxOf g.gid) (s.curWarp.val64 a k) = some (n, e)) (he : s.gals.find n = some e)
include h hld hfind he

section
variable (hid : c.resId = 0) (hnew : (s.curWarp.results.any fun r => r.id == s.curWarp.nextId + 1) = false)
include hid hnew

/-- `GATT` of a gallery that the group holds already, where it stands on the core (R189). -/
theorem NamesGallery.gatt_again {v : Nat} (hv : (x.gals.find? fun y => y.1 == s.curWarp.val64 a k) = some (s.curWarp.val64 a k, v))
    (hst : e.st = .resident) (hcore : e.core = coreOf s.cur) :
    Completes (.gatt p d a) s fun t => Returned s t (s.curWarp.execMask p) d (e.answer v) ∧ t.groups = s.groups ∧
      t.gals = s.gals.put n (e.left s.cur g.lbase) := by
  have hheld := any_name_of_find hv
  exact h.gatt_returns hld hid (h.attJudge_passes hfind (.inl hheld)) hnew (attTurn_held hfind h.group hheld hst hcore) ⟨rfl, rfl, rfl, rfl⟩
    h.group he hv

end

section
variable {v : Nat} (hunheld : (x.gals.any fun y => y.1 == s.curWarp.val64 a k) = false) (hroom : x.gals.length < 8)
  (hv : s.viewOffset x (s.ctxOf g.gid) e.size = some v)
include hunheld hroom hv

/-- `GATT` of a gallery that stands on the core attaches the group (R188, R189). -/
theorem NamesGallery.gatt_attaches (hid : c.resId = 0) (hnew : (s.curWarp.results.any fun r => r.id == s.curWarp.nextId + 1) = false)
    (hturn : s.overtakes e s.cur g.lbase = false) (hst : e.st = .resident) (hcore : e.core = coreOf s.cur) (hacnt : e.acnt ≠ 0xFFFF_FFFF#32) :
    Completes (.gatt p d a) s fun t => Returned s t (s.curWarp.execMask p) d (e.answer (v * 16384)) ∧
      t.groups = s.groups.put g.gid { x with gals := x.gals ++ [(s.curWarp.val64 a k, v * 16384)] } ∧
      t.gals = s.gals.put n (({ e with acnt := e.acnt + 1 } : Gal).left s.cur g.lbase) := by
  have hattach := attach_eq he h.group (findGal_some hfind) hunheld hroom hv
  have hact : s.attTurn g (s.curWarp.execMask p) d (s.curWarp.execMask p) (s.curWarp.val64 a k) = (true,
      (s.attach g.gid n).attAnswer n g (s.curWarp.execMask p) d (s.curWarp.execMask p) (s.curWarp.val64 a k)) := by
    rw [attTurn_new hfind h.group hunheld, hturn, hst]
    dsimp only
    rw [if_pos hcore, if_neg hacnt]
    rfl
  have hseen : ((x.gals ++ [(s.curWarp.val64 a k, v * 16384)]).find? fun y => y.1 == s.curWarp.val64 a k) = some (s.curWarp.val64 a k, v * 16384) := by
    rw [List.find?_append, List.find?_eq_none.2 (List.any_eq_false.1 hunheld)]
    simp
  rw [hattach] at hact
  refine (h.gatt_returns hld hid (h.attJudge_room hfind hroom hv) hnew hact ⟨rfl, rfl, rfl, rfl⟩ (tab_find_put_same _ _ _)
    (tab_find_put_same _ _ _) hseen).imp fun t ht => ?_
  rw [tab_put_put] at ht
  exact ht

/-- `GATT` of an evicted gallery begins the fill on a core with room (R188, R193). -/
theorem NamesGallery.gatt_fills {base : Nat} (hturn : s.overtakes e s.cur g.lbase = false) (hst : e.st = .evicted)
    (hbase : freeRange (s.spadUsed (coreOf s.cur) []) e.size = some base)
    (hcount : (s.gals.filter fun q => q.2.onCore (coreOf s.cur)).length < 8) (hfirst : (s.cur, g.lbase, false) ∉ e.waiters) :
    Completes (.gatt p d a) s fun t => HeldForGallery s t ∧ t.gals = s.gals.put n { e with
      st := .filling, core := coreOf s.cur, sbase := base, target := none, waiters := e.waiters ++ [(s.cur, g.lbase, false)] } := by
  refine (h.gatt_joins hld (h.attJudge_room hfind hroom hv)
    (u := s.putGal n { e with st := .filling, core := coreOf s.cur, sbase := base, target := none }) ?turn ⟨rfl, rfl, rfl, rfl⟩ rfl
    (tab_find_put_same _ _ _) hfirst).imp fun t ht => ?_
  case turn =>
    rw [attTurn_new hfind h.group hunheld, hturn, hst]
    dsimp only
    rw [wantOn_fits he hbase hcount]
    rfl
  · rw [State.putGal, tab_put_put] at ht
    exact ht

omit he in
/-- `GATT` of a gallery that stands on another core, where no group holds it, begins its migration (R188, R191). -/
theorem NamesGallery.gatt_migrates (hturn : s.overtakes e s.cur g.lbase = false) (hst : e.st = .resident) (hcore : e.core ≠ coreOf s.cur)
    (hacnt : e.acnt = 0) (hfirst : (s.cur, g.lbase, false) ∉ e.waiters) :
    Completes (.gatt p d a) s fun t => HeldForGallery s t ∧ t.gals = s.gals.put n { e with
      st := .writingBack, target := some (coreOf s.cur), waiters := e.waiters ++ [(s.cur, g.lbase, false)] } := by
  refine (h.gatt_joins hld (h.attJudge_room hfind hroom hv) (u := s.putGal n { e with st := .writingBack, target := some (coreOf s.cur) }) ?turn
    ⟨rfl, rfl, rfl, rfl⟩ rfl (tab_find_put_same _ _ _) hfirst).imp fun t ht => ?_
  case turn =>
    rw [attTurn_new hfind h.group hunheld, hturn, hst]
    dsimp only
    rw [if_neg hcore, if_pos hacnt]
    rfl
  · rw [State.putGal, tab_put_put] at ht
    exact ht

/-- `GATT` waits at a gallery that moves, that is held on another core or by as many groups as it can be, or for which no space can be made. -/
theorem NamesGallery.gatt_stays (hturn : s.overtakes e s.cur g.lbase = false)
    (hwhy : e.st = .filling ∨ e.st = .writingBack ∨ (e.st = .resident ∧ e.core ≠ coreOf s.cur ∧ e.acnt ≠ 0) ∨
      (e.st = .resident ∧ e.core = coreOf s.cur ∧ e.acnt = 0xFFFF_FFFF#32) ∨ (e.st = .evicted ∧ s.evictPlan (coreOf s.cur) e.size true = none))
    (hfirst : (s.cur, g.lbase, false) ∉ e.waiters) :
    Completes (.gatt p d a) s fun t => HeldForGallery s t ∧
      t.gals = s.gals.put n { e with waiters := e.waiters ++ [(s.cur, g.lbase, false)] } := by
  refine h.gatt_joins hld (h.attJudge_room hfind hroom hv) (u := s) ?turn ⟨rfl, rfl, rfl, rfl⟩ rfl he hfirst
  rw [attTurn_new hfind h.group hunheld, hturn]
  rcases hwhy with hst | hst | ⟨hst, hcore, hacnt⟩ | ⟨hst, hcore, hacnt⟩ | ⟨hst, hplan⟩
  · rw [hst]
    rfl
  · rw [hst]
    rfl
  · rw [hst]
    dsimp only
    rw [if_neg hcore, if_neg hacnt]
    rfl
  · rw [hst]
    dsimp only
    rw [if_pos hcore, if_pos hacnt]
    rfl
  · rw [hst]
    dsimp only
    rw [wantOn_noPlan he hplan]
    rfl

end

end

end Sys2Proof.Machine
end

section
/-! SUPPORT. The four gallery instructions together (R186, R188 to R190, R193, R232, R367). -/

namespace Sys2Proof.Machine

/-- Settles O35. The store-counted instructions are `gmake_makes`, the `gfree_…` and the `gdet_…` lemmas, one for each way that the slot goes;
`GATT` returns by `gatt_again` and `gatt_attaches`, waits by `gatt_fills`, `gatt_migrates` and `gatt_stays`, and raises by `gatt_raises`. -/
theorem galleryInstructions : Obligations.GalleryInstructions := by
  unfold Obligations.GalleryInstructions
  intro s p d a b c g k n e x cl wp m core name ctx ha hk hact hcl hturns hname hunif hx same stored waits raises joins
  have h : NamesGallery s p a g k x cl := ⟨ha, hk, hact, hcl, hturns, hname, hunif, hx⟩
  refine ⟨fun hst => ⟨?gmake, fun hfind he => ⟨?gfree, ?gfreeWaits, ?gfreeAttached, fun v hv => ⟨?gdet, ?gdetWaits⟩⟩, ?gfreeUnknown, ?gdetUnattached⟩,
    ?gattUnknown, fun hld hfind he => ⟨?gattFull, fun hid hnew => ⟨?gattAgain, fun hunheld hroom v hv hturn =>
      ⟨?gattAttaches, fun hfirst => ⟨?gattFills, ?gattMigrates, ?gattStays⟩⟩⟩⟩⟩
  case gmake =>
    intro size back hnew hoperands hsome hsize haligned hroom hapart
    exact (h.gmake_makes hst hnew hoperands hsome hsize haligned hroom hapart).imp fun _ ⟨hstored, _, hgals⟩ => ⟨hstored, hgals⟩
  case gfree =>
    intro hacnt hstands hturn
    exact (h.gfree_frees hst hfind hacnt (freeWaits_false hstands hturn)).imp fun _ ⟨hstored, _, hgals⟩ => ⟨hstored, hgals⟩
  case gfreeWaits =>
    intro hwhy hfirst
    exact h.gfree_waits hst hfind he (freeWaits_true hwhy) hfirst
  case gfreeAttached =>
    intro hacnt hstands hturn hrec hgrade
    exact h.gfree_attached hst hfind hacnt (freeWaits_false hstands hturn) hrec hgrade
  case gdet =>
    intro hidle
    refine (h.gdet_detaches hst hfind hv hidle).imp fun t ⟨hstored, hgroups, hgals⟩ => ⟨hstored, ?_, hgals⟩
    rw [State.group, hgroups]
    exact tab_find_put_same _ _ _
  case gdetWaits => exact h.gdet_waits hst hfind hv
  case gfreeUnknown => exact h.gfree_unknown hst
  case gdetUnattached => exact h.gdet_unattached hst
  case gattUnknown =>
    intro hld hnone
    exact h.gatt_raises hld (h.attJudge_unknown hnone) (by decide) (by decide)
  case gattFull =>
    intro hunheld hgoes hfull
    exact h.gatt_raises hld (h.attJudge_full hfind hunheld hgoes hfull) (by decide) (by decide)
  case gattAgain => exact fun v hv hst hcore => h.gatt_again hld hfind he hid hnew hv hst hcore
  case gattAttaches =>
    intro hst hcore hacnt
    refine (h.gatt_attaches hld hfind he hunheld hroom hv hid hnew hturn hst hcore hacnt).imp fun t ⟨hgives, hgroups, hgals⟩ => ⟨hgives, ?_, hgals⟩
    rw [State.group, hgroups]
    exact tab_find_put_same _ _ _
  case gattFills => exact fun base hst hbase hcount => h.gatt_fills hld hfind he hunheld hroom hv hturn hst hbase hcount hfirst
  case gattMigrates => exact fun hst hcore hacnt => h.gatt_migrates (e := e) hld hfind hunheld hroom hv hturn hst hcore hacnt hfirst
  case gattStays => exact fun hwhy => h.gatt_stays hld hfind he hunheld hroom hv hturn hwhy hfirst

end Sys2Proof.Machine
end

section
/-! SUPPORT. Hits on windows, and what the caches leave of memory and of the warp slots when a line is read, gained or invalidated (R166 to R173,
R202). -/

namespace Sys2Proof.Machine

/-! ### Hits (R202) -/

/-- A warp slot without the hit of its window. -/
def Warp.unhit (wp : Warp) : Warp := { wp with window := wp.window.map fun x => { x with hit := false } }

/-- The warp slots `b` are `a` but for hits. -/
def Hits (a b : Tab Warp) : Prop := ∀ k, (b.find k).map Warp.unhit = (a.find k).map Warp.unhit

theorem Hits.refl (a : Tab Warp) : Hits a a := fun _ => rfl

theorem Hits.trans {a b c : Tab Warp} (h : Hits a b) (k : Hits b c) : Hits a c := fun i => (k i).trans (h i)

/-- `t` keeps of `s` the commands and the instances, and its warp slots but for hits. -/
structure Struck (s t : State) : Prop where
  cmds : t.cmds = s.cmds
  bars : t.bars = s.bars
  hits : Hits s.warps t.warps

theorem Struck.refl (s : State) : Struck s s := ⟨rfl, rfl, .refl _⟩

theorem Struck.trans {s t u : State} (a : Struck s t) (b : Struck t u) : Struck s u :=
  ⟨b.cmds.trans a.cmds, b.bars.trans a.bars, a.hits.trans b.hits⟩

theorem struck_foldl {α : Type} {f : State → α → State} (hf : ∀ s a, Struck s (f s a)) (l : List α) (s : State) : Struck s (l.foldl f s) :=
  List.foldlRecOn l f (Struck.refl s) fun _ h a _ => h.trans (hf _ a)

theorem Struck.warp {s t : State} (h : Struck s t) (w : Nat) : (t.warp w).unhit = (s.warp w).unhit := by
  have hw := h.hits w
  unfold State.warp
  rw [← Option.getD_map Warp.unhit, ← Option.getD_map Warp.unhit, hw]

theorem Struck.regs {s t : State} (h : Struck s t) (w : Nat) : (t.warp w).regs = (s.warp w).regs := (congrArg Warp.regs (h.warp w) :)

theorem Struck.sideLog {s t : State} (h : Struck s t) (w : Nat) : (t.warp w).sideLog = (s.warp w).sideLog := (congrArg Warp.sideLog (h.warp w) :)

/-- An open window stays open with its events, its checkpoint and its signature. -/
theorem Struck.window {s t : State} (h : Struck s t) {w : Nat} {x : Window} (hx : (s.warp w).window = some x) :
    ∃ hit, (t.warp w).window = some { x with hit := hit } := by
  have hw : (t.warp w).unhit.window = (s.warp w).unhit.window := congrArg Warp.window (h.warp w)
  simp only [Warp.unhit, hx, Option.map_some] at hw
  obtain ⟨y, hy, hyx⟩ := Option.map_eq_some_iff.1 hw
  refine ⟨y.hit, hy.trans (congrArg some ?_)⟩
  exact (congrArg (fun z : Window => { z with hit := y.hit }) hyx :)

/-- `t` is `s` but for hits and for what no access reads. -/
structure Shaken (s t : State) : Prop extends Struck s t where
  mem : t.mem = s.mem
  spad : t.spad = s.spad

theorem Shaken.refl (s : State) : Shaken s s := ⟨.refl s, rfl, rfl⟩

theorem Shaken.trans {s t u : State} (a : Shaken s t) (b : Shaken t u) : Shaken s u :=
  ⟨a.toStruck.trans b.toStruck, b.mem.trans a.mem, b.spad.trans a.spad⟩

/-- From a state that agrees on what is kept. -/
theorem Shaken.since {s t u : State} (h : Shaken t u) (hc : t.cmds = s.cmds) (hb : t.bars = s.bars) (hw : Hits s.warps t.warps)
    (hm : t.mem = s.mem) (hs : t.spad = s.spad) : Shaken s u := Shaken.trans ⟨⟨hc, hb, hw⟩, hm, hs⟩ h

theorem Told.shaken {s t : State} (h : Told s t) : Shaken s t := by
  obtain ⟨_, _, _, _, rfl⟩ := h
  exact ⟨⟨rfl, rfl, .refl _⟩, rfl, rfl⟩

theorem Refilled.shaken {s t : State} (h : Refilled s t) : Shaken s t := by
  obtain ⟨_, _, _, h⟩ := h
  exact h.shaken.since rfl rfl (.refl _) rfl rfl

theorem hitWhere_shaken (s : State) (p : Nat → Window → Bool) : Shaken s (s.hitWhere p) := by
  refine ⟨⟨rfl, rfl, fun k => ?_⟩, rfl, rfl⟩
  unfold State.hitWhere
  rw [tab_find_mapV]
  cases s.warps.find k with
  | none => rfl
  | some wp =>
    refine congrArg some ?_
    dsimp only
    split
    · next x hx =>
      split
      · rw [Warp.unhit, Warp.unhit, hx]
        rfl
      · rfl
    · rfl

theorem hitLoc_shaken (s : State) (but : Option Nat) (l : Loc) : Shaken s (s.hitLoc but l) := hitWhere_shaken s _

/-! ### Lines invalidated (R166, R202) -/

/-- `t` is `s` but for posts, hits, and what the L1s and the directories hold. -/
def Recalled (s t : State) : Prop := ∃ l1 directory warps, Hits s.warps warps ∧ Told { s with l1 := l1, directory := directory, warps := warps } t

theorem Recalled.refl (s : State) : Recalled s s := ⟨_, _, _, .refl _, .refl s⟩

theorem Recalled.trans {s t u : State} (a : Recalled s t) (b : Recalled t u) : Recalled s u := by
  obtain ⟨_, _, _, ha, _, _, _, _, rfl⟩ := a
  obtain ⟨_, _, _, hb, _, _, _, _, rfl⟩ := b
  exact ⟨_, _, _, ha.trans hb, _, _, _, _, rfl⟩

theorem Recalled.shaken {s t : State} (h : Recalled s t) : Shaken s t := by
  obtain ⟨_, _, _, hits, h⟩ := h
  exact h.shaken.since rfl rfl hits rfl rfl

/-- What neither posts, hits nor these caches touch is the same. -/
theorem Recalled.same {s t : State} {β : Type} (h : Recalled s t) (p : State → β)
    (hp : ∀ l1 directory warps agenda host fns out,
      p { s with l1 := l1, directory := directory, warps := warps, agenda := agenda, host := host, fns := fns, out := out } = p s) : p t = p s := by
  obtain ⟨_, _, _, -, _, _, _, _, rfl⟩ := h
  exact hp _ _ _ _ _ _ _

theorem invalidateAll_recalled (s : State) (but : Option Nat) (line keep : Nat) : Recalled s (s.invalidateAll but line keep) := by
  have hposted := told_foldl (fun t (_ : Nat × L1Line) => idlePoison_told t (homeDie (line * 128)) (line * 128) 128)
    (s.l1.filter fun (key, _) => decide (key % 2 ^ 34 = line ∧ key / 2 ^ 34 / 256 = homeDie (line * 128)) &&
      s.copyHeld line keep (key / 2 ^ 34 % 256)) s
  obtain ⟨_, _, _, _, hposted⟩ := hposted
  unfold State.invalidateAll
  dsimp only
  rw [hposted]
  exact ⟨_, _, _, (hitWhere_shaken s fun k x => decide (some k ≠ but) && x.sig.getLsbD (Loc.hbm (line * 128)).sig
    && decide (dieOf k = homeDie (line * 128)) && s.copyHeld line keep (coreOf k % 256)).hits, _, _, _, _, rfl⟩

/-! ### Annexes (R168, R169, R171, R173) -/

theorem dropAnnexLines_shaken (s : State) (die : Nat) (p : Nat → Bool) : Shaken s (s.dropAnnexLines die p) :=
  (dropAnnexLines_told s die p).shaken.since rfl rfl (.refl _) rfl rfl

theorem loseAnnex_shaken (s : State) (die line : Nat) : Shaken s (s.loseAnnex die line) :=
  (dropAnnexLines_shaken s die fun l => l == line).trans ⟨⟨rfl, rfl, .refl _⟩, rfl, rfl⟩

theorem wakeAnnex_shaken (s : State) (die : Nat) : Shaken s (s.wakeAnnex die) := by
  obtain ⟨_, _, _, h⟩ := wakeAnnex_told s die
  exact h.shaken.since rfl rfl (.refl _) rfl rfl

theorem putAnnex_shaken (s : State) (die line : Nat) (x : AnnexLine) : Shaken s (s.putAnnex die line x) := by
  obtain ⟨_, _, _, h⟩ := putAnnex_told s die line x
  exact h.shaken.since rfl rfl (.refl _) rfl rfl

theorem expireLine_shaken (s : State) (die line : Nat) : Shaken s (s.expireLine die line) :=
  (dropAnnexLines_shaken s die _).trans (hitWhere_shaken _ _)

theorem annexServe_shaken (s : State) (die line : Nat) (hint : Hint) : Shaken s (s.annexServe die line hint) := by
  have hwake := wakeAnnex_shaken s die
  unfold State.annexServe
  split
  · exact .refl s
  dsimp only
  generalize s.wakeAnnex die = v at hwake ⊢
  split
  · exact hwake.trans ⟨⟨rfl, rfl, .refl _⟩, rfl, rfl⟩
  · have hold : Shaken v (if (v.annex.find (annexKey die line)).isSome then v.expireLine die line else v) := by
      split
      · exact expireLine_shaken v die line
      · exact .refl v
    generalize (if (v.annex.find (annexKey die line)).isSome then v.expireLine die line else v) = u at hold ⊢
    have hserve := (recall_refilled u line).shaken.trans (useL2_refilled _ line hint).shaken
    exact (hwake.trans (hold.trans hserve)).trans ((putAnnex_shaken _ die line _).since rfl rfl (.refl _) rfl rfl)

/-! ### Reads and gains (R166, R168, R204) -/

theorem readMissLocal_shaken (s : State) (core line : Nat) (hint : Hint) (priv : Bool) : Shaken s (s.readMissLocal core line hint priv) := by
  have huse := (useL2_refilled s line hint).shaken
  unfold State.readMissLocal
  dsimp only
  generalize s.useL2 line hint = u at huse ⊢
  split
  · split
    · exact huse
    · exact huse.trans (putL1_refilled u core line _).shaken
  · split
    · exact huse
    · have hback := huse.trans (recall_refilled u line).shaken
      split
      · exact hback
      · exact hback.trans ((putL1_refilled _ core line _).shaken.since rfl rfl (.refl _) rfl rfl)

theorem fill_shaken (s : State) (core : Nat) (l : Loc) (hint : Hint) (priv : Bool) : Shaken s (s.fill core l hint priv) := by
  unfold State.fill
  split
  · exact .refl s
  · next pa =>
    dsimp only
    split
    · exact .refl s
    split
    · exact ⟨⟨rfl, rfl, .refl _⟩, rfl, rfl⟩
    split
    · have hserve := annexServe_shaken s (core / 256) (pa / 128) hint
      unfold State.readMissRemote
      dsimp only
      split
      · exact hserve
      · exact hserve.trans (putL1_refilled _ core _ _).shaken
    · exact readMissLocal_shaken s core _ hint priv

theorem gain_shaken (s : State) (w : Nat) (l : Loc) (hint : Hint) (priv : Bool) : Shaken s (s.gain w l hint priv) := by
  unfold State.gain
  split
  · exact .refl s
  · next pa =>
    dsimp only
    split
    · exact .refl s
    split
    · exact ((invalidateAll_recalled s _ _ _).shaken.trans (useL2_refilled _ _ hint).shaken).trans (loseAnnex_shaken _ _ _)
    · have hcopies : Shaken s (if priv then s else s.invalidateAll (some w) (pa / 128) (coreOf w % 256)) := by
        split
        · exact .refl s
        · exact (invalidateAll_recalled s _ _ _).shaken
      generalize (if priv then s else s.invalidateAll (some w) (pa / 128) (coreOf w % 256)) = u at hcopies ⊢
      have huse : Shaken s (if (s.l1.find (l1Key (coreOf w) (pa / 128))).isSome then u else u.useL2 (pa / 128) hint) := by
        split
        · exact hcopies
        · exact hcopies.trans (useL2_refilled u _ hint).shaken
      generalize (if (s.l1.find (l1Key (coreOf w) (pa / 128))).isSome then u else u.useL2 (pa / 128) hint) = v at huse ⊢
      split
      · exact huse
      · refine huse.trans (Shaken.trans ?_ (putL1_refilled _ _ _ _).shaken)
        split
        · exact .refl v
        · exact ⟨⟨rfl, rfl, .refl _⟩, rfl, rfl⟩

end Sys2Proof.Machine
end

section
/-! SUPPORT. A write performed: its bytes, and the leaf entry of its page (R2, R179, R198, R209, R282). -/

namespace Sys2Proof.Machine

/-! ### Values in memory (R2) -/

theorem memory_nat_congr {a b : Memory} (k n : Nat) (h : ∀ i, k ≤ i → i < k + n → a.byte i = b.byte i) : a.nat k n = b.nat k n := by
  induction n generalizing k with
  | zero => rfl
  | succ n ih => rw [Memory.nat, Memory.nat, h k (by omega) (by omega), ih (k + 1) fun i hl hu => h i (by omega) (by omega)]

theorem memory_nat_store (m : Memory) (a n v : Nat) (h : m.wf = true) : (m.store a n v).nat a n = v % 256 ^ n := by
  induction n generalizing m a v with
  | zero => rw [Nat.pow_zero, Nat.mod_one]; rfl
  | succ n ih =>
    have hput := memory_put_wf m a (BitVec.ofNat 8 v) h
    have hlow : (BitVec.ofNat 8 v).toNat = v % 256 := BitVec.toNat_ofNat v 8
    rw [Memory.nat, Memory.store, ih _ _ _ hput, memory_byte_store_other _ _ _ _ _ hput (by omega), memory_byte_put_same m a _ h, hlow,
      Nat.pow_succ, Nat.mul_comm (256 ^ n), Nat.mod_mul]

theorem memory_dword_store (m : Memory) (a : Nat) (v : DWord) (h : m.wf = true) : (m.store a 8 v.toNat).dword a = v := by
  rw [Memory.dword, memory_nat_store m a 8 _ h]
  exact BitVec.eq_of_toNat_eq (by rw [BitVec.toNat_ofNat]; omega)

theorem memory_dword_congr {a b : Memory} (k : Nat) (h : ∀ i, k ≤ i → i < k + 8 → a.byte i = b.byte i) : a.dword k = b.dword k :=
  congrArg (BitVec.ofNat 64) (memory_nat_congr k 8 h)

/-- The bytes of a store, by address. -/
theorem memory_byte_store (m : Memory) (a n v k : Nat) (h : m.wf = true) (hl : a ≤ k) (hu : k < a + n) :
    (m.store a n v).byte k = BitVec.ofNat 8 (v / 2 ^ (8 * (k - a))) := by
  obtain ⟨j, rfl⟩ := Nat.exists_eq_add_of_le hl
  rw [memory_byte_store_same n m a v j h (by omega), Nat.add_sub_cancel_left, Nat.pow_mul]

/-! ### A place written (R282, R409) -/

theorem writeLoc_mgmt {s : State} {pa n v : Nat} (h : mgmtAt pa ≠ none) :
    (s.writeLoc (.hbm pa) n v).mem = s.mem ∧ (s.writeLoc (.hbm pa) n v).spad = s.spad := by
  unfold State.writeLoc
  dsimp only
  split
  · split <;> exact ⟨rfl, rfl⟩
  · next hnone => exact absurd hnone h

theorem writeLoc_memory {s : State} {pa n v : Nat} (h : mgmtAt pa = none) :
    (s.writeLoc (.hbm pa) n v).mem = s.mem.store pa n v ∧ (s.writeLoc (.hbm pa) n v).spad = s.spad := by
  unfold State.writeLoc
  dsimp only
  rw [h]
  exact ⟨rfl, rfl⟩

theorem writeLoc_struck (s : State) (l : Loc) (n v : Nat) : Struck s (s.writeLoc l n v) := by
  unfold State.writeLoc
  split
  · split
    · split <;> exact ⟨rfl, rfl, .refl _⟩
    · exact ⟨rfl, rfl, .refl _⟩
  · exact ⟨rfl, rfl, .refl _⟩

/-- A value of `n` bytes written where memory has changed in the bytes of `but` alone. -/
theorem wrote_writeLoc {s u t : State} {but : Nat → Prop} {l : Loc} {n v : Nat} (hmem : u.mem.wf = true) (hspad : s.spad.wf = true)
    (hkeep : u.spad = s.spad) (hbut : ∀ a, ¬but a → u.mem.byte a = s.mem.byte a) (htmem : t.mem = (u.writeLoc l n v).mem)
    (htspad : t.spad = (u.writeLoc l n v).spad) : s.Wrote t l n v but := by
  cases l with
  | hbm pa =>
    cases hp : mgmtAt pa with
    | none =>
      obtain ⟨hm, hs⟩ := writeLoc_memory (s := u) (n := n) (v := v) hp
      rw [hm] at htmem
      rw [hs, hkeep] at htspad
      refine ⟨htspad, fun a ha hna => ?_, fun _ a hl hu => ?_⟩
      · rw [htmem, memory_byte_store_other n _ _ _ _ hmem (by omega), hbut a hna]
      · rw [htmem, memory_byte_store _ _ _ _ _ hmem hl hu]
    | some q =>
      obtain ⟨hm, hs⟩ := writeLoc_mgmt (s := u) (n := n) (v := v) (pa := pa) (by rw [hp]; exact Option.some_ne_none q)
      rw [hm] at htmem
      rw [hs, hkeep] at htspad
      exact ⟨htspad, fun a _ hna => by rw [htmem, hbut a hna], fun h => by rw [hp] at h; cases h⟩
  | spad c o =>
    have hm : t.mem = u.mem := htmem
    have hs : t.spad = s.spad.store (c * 2 ^ 20 + o) n v := by rw [htspad, ← hkeep]; rfl
    refine ⟨fun a hna => by rw [hm, hbut a hna], fun a => ?_⟩
    rw [hs]
    split
    · next ha => exact memory_byte_store _ _ _ _ _ hspad ha.1 ha.2
    · next ha => exact memory_byte_store_other n _ _ _ _ hspad (by omega)

/-- A value of 64 bits apart from a place that is written. -/
theorem writeLoc_dword_apart {s : State} {l : Loc} {n v a : Nat} (hmem : s.mem.wf = true) (h : ∀ pa, l = .hbm pa → pa + n ≤ a ∨ a + 8 ≤ pa) :
    (s.writeLoc l n v).mem.dword a = s.mem.dword a := by
  cases l with
  | hbm pa =>
    have hapart := h pa rfl
    by_cases hp : mgmtAt pa = none
    · rw [(writeLoc_memory hp).1]
      exact memory_dword_congr a fun i hl hu => memory_byte_store_other n _ _ _ _ hmem (by omega)
    · rw [(writeLoc_mgmt hp).1]
  | spad c o => rfl

theorem perform_struck (s : State) (but : Option Nat) (l : Loc) (n v : Nat) : Struck s (s.perform but l n v) :=
  (writeLoc_struck s l n v).trans (struck_foldl (fun t x => (hitLoc_shaken t but x).toStruck) (linesOf l n) _)

theorem perform_bytes (s : State) (but : Option Nat) (l : Loc) (n v : Nat) :
    (s.perform but l n v).mem = (s.writeLoc l n v).mem ∧ (s.perform but l n v).spad = (s.writeLoc l n v).spad :=
  ⟨foldl_field (p := State.mem) (fun t x => (hitLoc_shaken t but x).mem) (linesOf l n) _,
    foldl_field (p := State.spad) (fun t x => (hitLoc_shaken t but x).spad) (linesOf l n) _⟩

/-! ### The leaf entry of a page (R179) -/

/-- `t` is `s` but for hits, for what no access reads, and for the bytes of the leaf entry of a translation. -/
structure Marked (x : Option Xlat) (s t : State) : Prop extends Struck s t where
  spad : t.spad = s.spad
  wf : s.mem.wf = true → t.mem.wf = true
  byte : s.mem.wf = true → ∀ a, ¬Xlat.leafByte x a → t.mem.byte a = s.mem.byte a

theorem Shaken.marked {s t : State} (h : Shaken s t) (x : Option Xlat) : Marked x s t :=
  ⟨h.toStruck, h.spad, fun hm => by rw [h.mem, hm], fun _ _ _ => by rw [h.mem]⟩

theorem Marked.trans {x : Option Xlat} {s t u : State} (a : Marked x s t) (b : Marked x t u) : Marked x s u :=
  ⟨a.toStruck.trans b.toStruck, b.spad.trans a.spad, fun h => b.wf (a.wf h), fun h k hk => (b.byte (a.wf h) k hk).trans (a.byte h k hk)⟩

/-- The request that sets bits of a leaf entry. -/
def leafRequest (w : Nat) (x : Xlat) (bits : DWord) (stage : WrapStage) : HomeOp :=
  ⟨w, 0, false, noLane, .hbm x.leafPa, 0, 8, .leafBits, bits, 0, agentDie x.agent, stage⟩

theorem performLeaf_bits (s : State) (w : Nat) (x : Xlat) (bits : DWord) : s.performLeaf (leafRequest w x bits .none) =
    if s.mem.dword x.leafPa = s.mem.dword x.leafPa ||| bits then s
    else s.perform (some w) (.hbm x.leafPa) 8 (s.mem.dword x.leafPa ||| bits).toNat := rfl

theorem performLeaf_marks (s : State) (w : Nat) (x : Xlat) (bits : DWord) : Marked (some x) s (s.performLeaf (leafRequest w x bits .none)) := by
  rw [performLeaf_bits]
  split
  · exact (Shaken.refl s).marked _
  · obtain ⟨hmem, hspad⟩ := perform_bytes s (some w) (.hbm x.leafPa) 8 (s.mem.dword x.leafPa ||| bits).toNat
    have hstruck := perform_struck s (some w) (.hbm x.leafPa) 8 (s.mem.dword x.leafPa ||| bits).toNat
    by_cases hp : mgmtAt x.leafPa = none
    · rw [(writeLoc_memory hp).1] at hmem
      rw [(writeLoc_memory hp).2] at hspad
      refine ⟨hstruck, hspad, fun hwf => by rw [hmem]; exact memory_store_wf 8 _ _ _ hwf, fun hwf a ha => ?_⟩
      rw [hmem]
      refine memory_byte_store_other 8 _ _ _ _ hwf ?_
      by_contra hin
      exact ha ⟨x, rfl, by omega⟩
    · rw [(writeLoc_mgmt hp).1] at hmem
      rw [(writeLoc_mgmt hp).2] at hspad
      exact ⟨hstruck, hspad, fun hwf => by rw [hmem, hwf], fun _ _ _ => by rw [hmem]⟩

/-- A leaf entry of memory has the bits after the request (R179). -/
theorem performLeaf_dword {s : State} {x : Xlat} (w : Nat) (bits : DWord) (hmem : s.mem.wf = true) (hp : mgmtAt x.leafPa = none) :
    (s.performLeaf (leafRequest w x bits .none)).mem.dword x.leafPa = s.mem.dword x.leafPa ||| bits := by
  rw [performLeaf_bits]
  split
  · assumption
  · rw [(perform_bytes s _ _ _ _).1, (writeLoc_memory hp).1, memory_dword_store _ _ _ hmem]

/-- Bits of a leaf entry that stand already are not asked for. -/
theorem setLeaf_eq (s : State) (w : Nat) (x : Xlat) (bits : DWord) : s.setLeaf (some w) x bits =
    if s.mem.dword x.leafPa ||| bits = s.mem.dword x.leafPa then s
    else if !s.wrapHeld (agentDie x.agent) (.hbm x.leafPa) && s.lineReady (x.leafPa / 128) then s.performLeaf (leafRequest w x bits .none)
    else
      let o := leafRequest w x bits (if s.wrapHeld (agentDie x.agent) (.hbm x.leafPa) then .unsent else .none)
      if s.homeOps.contains o then s else { s with homeOps := s.homeOps ++ [o] } := rfl

theorem setLeaf_marks (s : State) (w : Nat) (x : Xlat) (bits : DWord) : Marked (some x) s (s.setLeaf (some w) x bits) := by
  have hwaits : ∀ o, Shaken s (if s.homeOps.contains o then s else { s with homeOps := s.homeOps ++ [o] }) := fun o => by
    split
    · exact .refl s
    · exact ⟨⟨rfl, rfl, .refl _⟩, rfl, rfl⟩
  rw [setLeaf_eq]
  split
  · exact (Shaken.refl s).marked _
  split
  · exact performLeaf_marks s w x bits
  · exact (hwaits _).marked _

theorem keepXlat_eq (s : State) (x : Xlat) : ∃ xs, s.keepXlat x = { s with xlats := xs } := by
  unfold State.keepXlat
  split <;> exact ⟨_, rfl⟩

theorem keepXlat_shaken (s : State) (x : Xlat) : Shaken s (s.keepXlat x) := by
  obtain ⟨xs, h⟩ := keepXlat_eq s x
  rw [h]
  exact ⟨⟨rfl, rfl, .refl _⟩, rfl, rfl⟩

theorem touch_marks (s : State) (w : Nat) (x : Option Xlat) (write : Bool) : Marked x s (s.touch w x write) := by
  cases x with
  | none => exact (Shaken.refl s).marked _
  | some x => exact ((keepXlat_shaken s x).marked _).trans (setLeaf_marks _ w x _)

/-- A write sets `AC` and `DY` of its page's leaf entry where the line of that entry is free (R179). -/
theorem touch_dword {s : State} {x : Xlat} (w : Nat) (hmem : s.mem.wf = true) (hp : mgmtAt x.leafPa = none)
    (hready : s.lineReady (x.leafPa / 128) = true) (hheld : s.wrapHeld (agentDie x.agent) (.hbm x.leafPa) = false) :
    (s.touch w (some x) true).mem.dword x.leafPa = s.mem.dword x.leafPa ||| 0x300 := by
  obtain ⟨xs, hkeep⟩ := keepXlat_eq s x
  have htouch : s.touch w (some x) true = ({ s with xlats := xs } : State).setLeaf (some w) x 0x300 := by
    rw [← hkeep]
    rfl
  rw [htouch, setLeaf_eq]
  split
  · next h => exact h.symm
  · have hnow : (!({ s with xlats := xs } : State).wrapHeld (agentDie x.agent) (.hbm x.leafPa) &&
        ({ s with xlats := xs } : State).lineReady (x.leafPa / 128)) = true :=
      Bool.and_eq_true_iff.2 ⟨(congrArg not hheld :), hready⟩
    rw [if_pos hnow]
    exact performLeaf_dword w 0x300 hmem hp

/-! ### The event (R179, R198, R204, R374, R409) -/

/-- What a write leaves of the module: the commands, the instances, and the registers and the side log of a warp slot. -/
structure Writes (w : Nat) (s t : State) : Prop where
  cmds : t.cmds = s.cmds
  bars : t.bars = s.bars
  regs : (t.warp w).regs = (s.warp w).regs
  sideLog : (t.warp w).sideLog = (s.warp w).sideLog

theorem Writes.trans {w : Nat} {s t u : State} (a : Writes w s t) (b : Writes w t u) : Writes w s u :=
  ⟨b.cmds.trans a.cmds, b.bars.trans a.bars, b.regs.trans a.regs, b.sideLog.trans a.sideLog⟩

theorem Struck.writes {s t : State} (h : Struck s t) (w : Nat) : Writes w s t := ⟨h.cmds, h.bars, h.regs w, h.sideLog w⟩

theorem onWarp_writes (w : Nat) (s : State) (f : Warp → Warp) (hr : ∀ wp, (f wp).regs = wp.regs) (hl : ∀ wp, (f wp).sideLog = wp.sideLog) :
    Writes w s (s.onWarp w f) := ⟨rfl, rfl, by rw [warp_onWarp_same, hr], by rw [warp_onWarp_same, hl]⟩

theorem layStore_bytes (s : State) (w store : Nat) (l : Loc) (n : Nat) :
    (s.layStore w store l n).mem = s.mem ∧ (s.layStore w store l n).spad = s.spad := by
  unfold State.layStore
  dsimp only
  split <;> exact ⟨rfl, rfl⟩

theorem layStore_writes (s : State) (w store : Nat) (l : Loc) (n : Nat) : Writes w s (s.layStore w store l n) := by
  unfold State.layStore
  dsimp only
  split
  · exact ⟨rfl, rfl, rfl, rfl⟩
  · have h := onWarp_writes w s (fun wp => { wp with laid := ((s.warp w).laid.filter fun q => q.1 == store) ++ [(store, l, n)] })
      (fun _ => rfl) fun _ => rfl
    exact ⟨rfl, rfl, h.regs, h.sideLog⟩

section
variable {s : State} {w lane : Nat} {va : DWord} (store : Nat) (l : Loc) (n : Nat) (v : BitVec 128) (hint : Hint)

/-- The state in which a write takes its bytes: the leaf entry of its page is marked, and its line is gained. -/
def State.gained (s : State) (w lane : Nat) (va : DWord) (l : Loc) (hint : Hint) : State :=
  let u := s.touch w (s.xlatOf w lane va) true
  u.gain w l hint (u.privAccess w lane va)

theorem gained_marks (s : State) (w lane : Nat) (va : DWord) (l : Loc) (hint : Hint) :
    Marked (s.xlatOf w lane va) s (s.gained w lane va l hint) :=
  (touch_marks s w _ true).trans ((gain_shaken _ w l hint _).marked _)

variable (h : s.classStays w lane va)
include h

theorem writeEvent_eq : s.writeEvent w store lane va l n v hint =
    (((s.gained w lane va l hint).perform (some w) l n v.toNat).layStore w store l n).onWarp w fun wp =>
      (wp.storeDone store lane).gained (wp.countedAt store (laneBit lane)) := by
  unfold State.writeEvent
  rw [classAccess_stays h]
  rfl

theorem writeEvent_writes : Writes w s (s.writeEvent w store lane va l n v hint) := by
  rw [writeEvent_eq store l n v hint h]
  have hbefore := ((gained_marks s w lane va l hint).toStruck.trans (perform_struck _ (some w) l n v.toNat)).writes w
  exact (hbefore.trans (layStore_writes _ w store l n)).trans (onWarp_writes w _ _ (fun _ => rfl) fun _ => rfl)

theorem writeEvent_bytes : (s.writeEvent w store lane va l n v hint).mem = ((s.gained w lane va l hint).writeLoc l n v.toNat).mem ∧
    (s.writeEvent w store lane va l n v hint).spad = ((s.gained w lane va l hint).writeLoc l n v.toNat).spad := by
  rw [writeEvent_eq store l n v hint h]
  have hlay := layStore_bytes ((s.gained w lane va l hint).perform (some w) l n v.toNat) w store l n
  have hput := perform_bytes (s.gained w lane va l hint) (some w) l n v.toNat
  exact ⟨hlay.1.trans hput.1, hlay.2.trans hput.2⟩

/-- Exactly the bytes of a write change, but for the leaf entry of its page. -/
theorem writeEvent_wrote (hmem : s.mem.wf = true) (hspad : s.spad.wf = true) :
    s.Wrote (s.writeEvent w store lane va l n v hint) l n v.toNat (Xlat.leafByte (s.xlatOf w lane va)) := by
  have hmarks := gained_marks s w lane va l hint
  obtain ⟨hm, hs⟩ := writeEvent_bytes store l n v hint h
  exact wrote_writeLoc (hmarks.wf hmem) hspad hmarks.spad (hmarks.byte hmem) hm hs

/-- The leaf entry of its page, where the write leaves it alone and its line is free, has `AC` and `DY` then (R179). -/
theorem writeEvent_leaf {y : Xlat} (hmem : s.mem.wf = true) (hy : s.xlatOf w lane va = some y) (hp : mgmtAt y.leafPa = none)
    (hready : s.lineReady (y.leafPa / 128) = true) (hheld : s.wrapHeld (agentDie y.agent) (.hbm y.leafPa) = false)
    (hapart : ∀ pa, l = .hbm pa → pa + n ≤ y.leafPa ∨ y.leafPa + 8 ≤ pa) :
    (s.writeEvent w store lane va l n v hint).mem.dword y.leafPa = s.mem.dword y.leafPa ||| 0x300 := by
  have hgain : (s.gained w lane va l hint).mem = (s.touch w (some y) true).mem := by
    unfold State.gained
    rw [hy]
    exact (gain_shaken _ w l hint _).mem
  rw [(writeEvent_bytes store l n v hint h).1, writeLoc_dword_apart ((gained_marks s w lane va l hint).wf hmem) hapart, hgain,
    touch_dword w hmem hp hready hheld]

end

end Sys2Proof.Machine
end

section
/-! SUPPORT. A commit: a window of one write performs it and closes; a window that may not commit stays open and holds no line (R179, R198,
R204, R384). -/

namespace Sys2Proof.Machine

/-! ### A window that stays open -/

theorem exec_commit (w : Nat) (s : State) : exec (.commit w) s = execCommit w s := rfl

/-- A commit that leaves the window open completes no barrier. -/
theorem execCommit_open {s : State} {w : Nat} (h : ((s.commitWindow w).warp w).window.isSome = true) : execCommit w s = .next (s.commitWindow w) := by
  refine congrArg Host.Outcome.next (if_neg fun hnone => ?_)
  rw [Option.isNone_iff_eq_none.1 hnone.1] at h
  cases h

theorem commitWindow_none {s : State} {w : Nat} (h : (s.warp w).window = none) : s.commitWindow w = s := by
  unfold State.commitWindow
  dsimp only
  rw [h]

theorem execCommit_none {s : State} {w : Nat} (h : (s.warp w).window = none) : execCommit w s = .next s := by
  refine (congrArg Host.Outcome.next (if_neg fun hopen => ?_)).trans (congrArg Host.Outcome.next (commitWindow_none h))
  rw [h] at hopen
  exact Bool.false_ne_true hopen.2

/-- A window that has not settled, or whose want of room in the side log has been told, holds no line (R204, R384). -/
theorem commitWindow_waits {s : State} {w : Nat} (hx : (s.warp w).window.isSome = true)
    (h : (s.warp w).settled = false ∨ ((s.warp w).logRoom = false ∧ (s.warp w).fullTold = true)) :
    s.commitWindow w = s.unclaim (.commit w) := by
  obtain ⟨x, hx⟩ := Option.isSome_iff_exists.1 hx
  have htold : ¬((s.warp w).settled && !(s.warp w).logRoom && !(s.warp w).fullTold) = true := by
    rcases h with h | h <;> simp [h]
  have hmay : (!(s.warp w).mayCommit || s.tilesDue w x) = true := by
    rcases h with h | h <;> simp [Warp.mayCommit, h]
  unfold State.commitWindow
  dsimp only
  rw [hx]
  exact (if_neg htold).trans (if_pos hmay)

theorem commitWindow_full {s : State} {w : Nat} (hset : (s.warp w).settled = true) (hroom : (s.warp w).logRoom = false)
    (htold : (s.warp w).fullTold = false) : s.commitWindow w = (s.unclaim (.commit w)).postLogFull w := by
  cases hx : (s.warp w).window with
  | none =>
    rw [Warp.settled, hx] at hset
    cases hset
  | some x =>
    unfold State.commitWindow
    dsimp only
    rw [hx]
    exact if_pos (by simp [hset, hroom, htold])

/-- `LOG_FULL` is posted and noted in the warp slot (R384). -/
theorem postLogFull_told {s : State} {w : Nat} {g : Seg} (h : (s.warp w).segs.head? = some g) :
    Told (s.onWarp w fun wp => { wp with fullTold := true }) (s.postLogFull w) := by
  unfold State.postLogFull
  dsimp only
  rw [h]
  exact post_told _ _ _

theorem commit_full {s : State} {w : Nat} {g : Seg} (hset : (s.warp w).settled = true) (hroom : (s.warp w).logRoom = false)
    (htold : (s.warp w).fullTold = false) (hg : (s.warp w).segs.head? = some g) : Completes (.commit w) s fun t =>
      t.mem = s.mem ∧ t.spad = s.spad ∧ (t.warp w).window = (s.warp w).window ∧ (t.warp w).regs = (s.warp w).regs ∧ (t.warp w).fullTold = true ∧
        t.homeOps = s.homeOps.filter fun o => o.fn != .claim (.commit w) := by
  have hfull := commitWindow_full hset hroom htold
  have hpost := postLogFull_told (s := s.unclaim (.commit w)) hg
  have hwarp : ((s.commitWindow w).warp w) = { s.warp w with fullTold := true } := by
    rw [hfull, State.warp, hpost.same State.warps fun _ _ _ _ => rfl]
    exact warp_onWarp_same (s.unclaim (.commit w)) w fun wp => { wp with fullTold := true }
  have hsome : (s.warp w).window.isSome = true := by
    cases hx : (s.warp w).window with
    | none =>
      rw [Warp.settled, hx] at hset
      cases hset
    | some x => rfl
  refine ⟨_, (exec_commit w s).trans (execCommit_open (by rw [hwarp]; exact hsome)), ?_⟩
  dsimp only
  rw [hwarp, hfull]
  exact ⟨hpost.same State.mem fun _ _ _ _ => rfl, hpost.same State.spad fun _ _ _ _ => rfl, rfl, rfl, rfl,
    hpost.same State.homeOps fun _ _ _ _ => rfl⟩

/-! ### Lines at hand (R170, R204) -/

theorem gainLines_ready {s : State} {die : Nat} {lines : List Nat} (c : Claimer)
    (h : ∀ l ∈ lines, s.lineReady l = true ∧ s.wrapHeld die (.hbm (l * 128)) = false) : s.gainLines die c lines = (s, true) :=
  if_pos (List.all_eq_true.2 fun l hl => by simp [h l hl])

/-- A wrap holds the requests for a place as it does those for the place's line. -/
theorem wrapHeld_line (s : State) (die pa : Nat) : s.wrapHeld die (.hbm (pa / 128 * 128)) = s.wrapHeld die (.hbm pa) := by
  have hhome : homeDie (pa / 128 * 128) = homeDie pa := by
    simp only [homeDie, Config.diePhys]
    omega
  simp only [State.wrapHeld, Loc.remote, hhome]

/-- The copies of the lines that the commit of a warp holds go (R166, R204). -/
def State.shedCopies (s : State) (w : Nat) : State :=
  ((s.claimsOf (.commit w)).filter (s.granted (.commit w))).foldl (fun s l =>
    s.invalidateAll (some w) l (if homeDie (l * 128) = dieOf w then coreOf w % 256 else 1000)) s

theorem shedCopies_recalled (s : State) (w : Nat) : Recalled s (s.shedCopies w) :=
  List.foldlRecOn _ _ (Recalled.refl s) fun _ h _ _ => h.trans (invalidateAll_recalled _ _ _ _)

/-! ### Translations that are not touched -/

theorem xlatOf_congr {s t : State} {w : Nat} (lane : Nat) (va : DWord) (hx : t.xlats = s.xlats) (hsegs : (t.warp w).segs = (s.warp w).segs)
    (hg : t.groups = s.groups) (hl : t.launches = s.launches) : t.xlatOf w lane va = s.xlatOf w lane va := by
  have hasker : t.laneAsker w lane = s.laneAsker w lane := by
    simp only [State.laneAsker, Warp.segOf, State.ctxOf, State.fnOf, State.launchOf, State.group, hsegs, hg, hl]
  simp only [State.xlatOf, State.cached, hasker, hx]

/-- The class of a page stays where the translation, memory and the waiting requests are the same. -/
theorem classStays_congr {s t : State} {w lane : Nat} {va : DWord} (hx : t.xlatOf w lane va = s.xlatOf w lane va) (hm : t.mem = s.mem)
    (ho : t.homeOps = s.homeOps) (h : s.classStays w lane va) : t.classStays w lane va := by
  have hwaits : t.classWaits w (s.xlatOf w lane va) = s.classWaits w (s.xlatOf w lane va) := by simp only [State.classWaits, ho]
  rw [State.classStays, hx, hm, hwaits]
  exact h

theorem Recalled.xlatOf {s t : State} (h : Recalled s t) (w lane : Nat) (va : DWord) : t.xlatOf w lane va = s.xlatOf w lane va :=
  xlatOf_congr lane va (h.same State.xlats fun _ _ _ _ _ _ _ => rfl) (congrArg Warp.segs (h.shaken.warp w) :)
    (h.same State.groups fun _ _ _ _ _ _ _ => rfl) (h.same State.launches fun _ _ _ _ _ _ _ => rfl)

theorem wrote_congr {s u t v : State} {l : Loc} {n x : Nat} {but : Nat → Prop} (hm : u.mem = s.mem) (hs : u.spad = s.spad) (tm : v.mem = t.mem)
    (ts : v.spad = t.spad) (h : u.Wrote t l n x but) : s.Wrote v l n x but := by
  cases l <;> simpa only [State.Wrote, hm, hs, tm, ts] using h

/-! ### The window closes (R45, R206, R244) -/

theorem withdrawArrival_bars (s : State) (w l : Nat) :
    ∃ f : Bar → Bar, (∀ b, (f b).saved = b.saved) ∧ s.withdrawArrival w l = { s with bars := s.bars.map f } := by
  unfold State.withdrawArrival
  split
  · exact ⟨id, fun _ => rfl, by rw [List.map_id]⟩
  · refine ⟨_, fun b => ?_, rfl⟩
    split <;> rfl

/-- `t` is `s` but for its instances, and none of them is saved if none of `s` is. -/
def Withdrawn (s t : State) : Prop := ∃ bars, t = { s with bars := bars } ∧ ((∀ b ∈ s.bars, b.saved = none) → ∀ b ∈ bars, b.saved = none)

theorem withdrawArrivals_withdrawn (s : State) (w : Nat) (ls : List Nat) : Withdrawn s (ls.foldl (fun s l => s.withdrawArrival w l) s) := by
  refine List.foldlRecOn (motive := Withdrawn s) _ _ ⟨s.bars, rfl, id⟩ fun t ht l _ => ?_
  obtain ⟨bars, rfl, hbars⟩ := ht
  obtain ⟨f, hf, heq⟩ := withdrawArrival_bars { s with bars := bars } w l
  refine ⟨bars.map f, heq, fun h b hb => ?_⟩
  obtain ⟨c, hc, rfl⟩ := List.mem_map.1 hb
  rw [hf]
  exact hbars h c hc

theorem settle_closes {s : State} {w : Nat} (x : Window) (h : s.deferredOf w = []) :
    (s.settle w x).mem = s.mem ∧ (s.settle w x).spad = s.spad ∧ ((s.settle w x).warp w).regs = (s.warp w).regs ∧
      ((s.settle w x).warp w).window = none ∧ ((∀ b ∈ s.bars, b.saved = none) → ∀ b ∈ (s.settle w x).bars, b.saved = none) := by
  obtain ⟨bars, hdrawn, hbars⟩ := withdrawArrivals_withdrawn s w (lanesOf x.withdrawn)
  unfold State.settle
  dsimp only
  rw [h, List.map_nil, List.foldl_nil, hdrawn, warp_onWarp_same]
  exact ⟨rfl, rfl, rfl, rfl, hbars⟩

/-- A window closed, once its events are performed: its lines are released, and the causes that waited for it are announced. -/
def State.closed (s : State) (w : Nat) (x : Window) : State := ((s.unclaim (.commit w)).settle w x).announceAll w

/-- What the close of a window without deferred commands leaves. -/
structure Closes (w : Nat) (s t : State) : Prop where
  mem : t.mem = s.mem
  spad : t.spad = s.spad
  regs : (t.warp w).regs = (s.warp w).regs
  window : (t.warp w).window = none
  unsaved : (∀ b ∈ s.bars, b.saved = none) → ∀ b ∈ t.bars, b.saved = none

theorem closed_closes {s : State} {w : Nat} (x : Window) (h : s.deferredOf w = []) : Closes w s (s.closed w x) := by
  obtain ⟨hmem, hspad, hregs, hwindow, hbars⟩ := settle_closes (s := s.unclaim (.commit w)) x h
  have htold := announceAll_stays ((s.unclaim (.commit w)).settle w x) w
  have hlast := (announceAll_lasts w ((s.unclaim (.commit w)).settle w x)).warp
  refine ⟨htold.mem.trans hmem, htold.spad.trans hspad, (lasting_files hlast).regs.trans hregs, ?_, ?_⟩
  · exact (congrArg Warp.window hlast :).trans hwindow
  · rw [State.closed, htold.bars]
    exact hbars

theorem passBar_window (wp : Warp) (b : Bar) : (wp.passBar b).window = wp.window := by
  unfold Warp.passBar
  refine List.foldlRecOn (motive := fun v : Warp => v.window = wp.window) _ _ rfl fun u hu g _ => ?_
  refine List.foldlRecOn (motive := fun v : Warp => v.window = wp.window) _ _ hu fun v hv l _ => ?_
  have hrelease : (v.releaseLane l).window = v.window := by
    unfold Warp.releaseLane
    split <;> rfl
  split
  · split
    · exact hrelease.trans hv
    · exact hv
  · exact hv

/-- A completion opens no window. -/
theorem releaseBar_window {s : State} {w : Nat} (b : Bar) (h : (s.warp w).window = none) : ((s.releaseBar b).warp w).window = none := by
  have hfind : (s.releaseBar b).warps.find w = (s.warps.find w).map fun wp => wp.passed b := tab_find_mapV s.warps (fun _ wp => wp.passed b) w
  unfold State.warp at h ⊢
  rw [hfind]
  cases hw : s.warps.find w with
  | none => rfl
  | some wp =>
    rw [hw] at h
    have hpassed : (wp.passed b).window = none := by
      unfold Warp.passed
      split
      · exact Option.map_eq_none_iff.2 ((passBar_window wp b).trans h)
      · exact h
    exact hpassed

theorem checkBars_window {s : State} {w : Nat} (h : (s.warp w).window = none) : (s.checkBars.warp w).window = none :=
  List.foldlRecOn (motive := fun t : State => (t.warp w).window = none) _ _ h fun _ ht b _ => releaseBar_window b ht

/-- Without saved instances nothing is written to a record, and instances that are complete release their lanes (R34, R279). -/
theorem exitBars_unsaved (s : State) {t : State} (die : Nat) (h : ∀ b ∈ t.bars, b.saved = none) : s.exitBars t die = t.checkBars := by
  have hsaved : (t.bars.filter fun b => b.saved.isSome && !b.done) = [] := List.filter_eq_nil_iff.2 fun b hb => by simp [h b hb]
  unfold State.exitBars
  rw [hsaved]
  rfl

/-- A commit that closes the window: instances that its exits complete release their lanes (R34, R204). -/
theorem execCommit_closes {s t : State} {w : Nat} (hx : (s.warp w).window.isSome = true) (h : s.commitWindow w = t)
    (hwindow : (t.warp w).window = none) (hbars : ∀ b ∈ t.bars, b.saved = none) : execCommit w s = .next t.checkBars := by
  subst h
  rw [← exitBars_unsaved s (dieOf w) hbars]
  exact congrArg Host.Outcome.next (if_pos ⟨Option.isNone_iff_eq_none.2 hwindow, hx⟩)

/-! ### A window of one write (R198, R204) -/

section
variable {s : State} {w store lane n : Nat} {va : DWord} {loc : Loc} {v : BitVec 128} {hint : Hint} {x : Window}

theorem oneWrite_mayCommit (hx : (s.warp w).window = some x) (hevs : x.evs = [.wr store lane va (some loc) n v hint]) (hhit : x.hit = false)
    (hirr : (s.warp w).irr = 0) (hlog : (s.warp w).sideLog = []) : (s.warp w).settled = true ∧ (s.warp w).logRoom = true := by
  constructor
  · simp [Warp.settled, hx, hevs, hhit, hirr, WinEv.waits, WinEv.isRead]
  · simp [Warp.logRoom, hx, hevs, hlog, logShare, logShare.go]

theorem commitNeeds_ready (hevs : x.evs = [.wr store lane va (some loc) n v hint]) (hready : s.lineReady loc.line = true)
    (hheld : s.wrapHeld (dieOf w) loc = false) :
    ∀ l ∈ (s.warp w).commitNeeds x, s.lineReady l = true ∧ s.wrapHeld (dieOf w) (.hbm (l * 128)) = false := by
  have hlines : ∀ l ∈ commitLines x.evs, ∃ pa, loc = .hbm pa ∧ l = pa / 128 := by
    rw [hevs]
    cases loc with
    | hbm pa => exact fun l hl => ⟨pa, rfl, List.mem_singleton.1 hl⟩
    | spad c o => exact fun l hl => absurd hl List.not_mem_nil
  intro l hl
  unfold Warp.commitNeeds at hl
  split at hl
  · obtain ⟨pa, rfl, rfl⟩ := hlines l hl
    exact ⟨hready, (wrapHeld_line s _ pa).trans hheld⟩
  · cases hl

theorem commitWindow_oneWrite (hx : (s.warp w).window = some x) (hevs : x.evs = [.wr store lane va (some loc) n v hint]) (hhit : x.hit = false)
    (htiles : x.tileOps = []) (hirr : (s.warp w).irr = 0) (hlog : (s.warp w).sideLog = []) (hcmds : s.deferredOf w = [])
    (hready : s.lineReady loc.line = true) (hheld : s.wrapHeld (dieOf w) loc = false) (hsigns : s.signedTiles w = [])
    (hstays : s.classStays w lane va) : s.commitWindow w =
      ((s.shedCopies w).writeEvent w store lane va loc n v hint).closed w x := by
  obtain ⟨hset, hroom⟩ := oneWrite_mayCommit hx hevs hhit hirr hlog
  have htold : ¬((s.warp w).settled && !(s.warp w).logRoom && !(s.warp w).fullTold) = true := by simp [hroom]
  have hmay : ¬(!(s.warp w).mayCommit || s.tilesDue w x) = true := by simp [Warp.mayCommit, State.tilesDue, hset, hroom, htiles, hsigns]
  have hclass : s.classWrites w x.evs = s := by
    rw [hevs]
    exact classAccess_stays hstays
  have hfree : ¬(s.classHeld w x.evs || !s.descsFree w) = true := by simp [State.classHeld, State.descsFree, hevs, hcmds, hstays.2]
  have hshed := (shedCopies_recalled s w).shaken
  have hdescs : (s.shedCopies w).readDescs w x = s.shedCopies w := by
    have hnone : (s.shedCopies w).deferredOf w = [] := by
      rw [State.deferredOf, hshed.cmds]
      exact hcmds
    rw [State.readDescs, hnone, List.foldl_nil]
  have hperform : (s.shedCopies w).performEvents w x.evs = (s.shedCopies w).writeEvent w store lane va loc n v hint := by
    rw [hevs]
    simp only [State.performEvents, (hshed.sideLog w).trans hlog]
  unfold State.commitWindow
  dsimp only
  rw [hx]
  dsimp only
  rw [if_neg htold, if_neg hmay, hclass, if_neg hfree, gainLines_ready _ (commitNeeds_ready hevs hready hheld)]
  dsimp only
  rw [if_pos rfl, ← State.shedCopies, hdescs, hperform]
  rfl

/-- The write of a window, performed once the copies of the lines that its commit holds have gone. -/
structure Commits (s t : State) (w lane n : Nat) (va : DWord) (loc : Loc) (v : BitVec 128) : Prop extends Writes w s t where
  wrote : s.Wrote t loc n v.toNat (Xlat.leafByte (s.xlatOf w lane va))
  leaf : ∀ y, s.xlatOf w lane va = some y → mgmtAt y.leafPa = none → s.lineReady (y.leafPa / 128) = true →
    s.wrapHeld (agentDie y.agent) (.hbm y.leafPa) = false → (∀ pa, loc = .hbm pa → pa + n ≤ y.leafPa ∨ y.leafPa + 8 ≤ pa) →
    t.mem.dword y.leafPa = s.mem.dword y.leafPa ||| 0x300

theorem shedCopies_commits (store : Nat) (hint : Hint) (hstays : s.classStays w lane va) (hmem : s.mem.wf = true) (hspad : s.spad.wf = true) :
    Commits s ((s.shedCopies w).writeEvent w store lane va loc n v hint) w lane n va loc v := by
  have hshed := shedCopies_recalled s w
  have hkeep := hshed.shaken
  have hxlat := hshed.xlatOf w lane va
  have hclass := classStays_congr hxlat hkeep.mem (hshed.same State.homeOps fun _ _ _ _ _ _ _ => rfl) hstays
  have hwrote := writeEvent_wrote store loc n v hint hclass (by rw [hkeep.mem, hmem]) (by rw [hkeep.spad, hspad])
  rw [hxlat] at hwrote
  refine ⟨(hkeep.writes w).trans (writeEvent_writes store loc n v hint hclass), wrote_congr hkeep.mem hkeep.spad rfl rfl hwrote,
    fun y hy hp hready hheld hapart => ?_⟩
  have hready' : (s.shedCopies w).lineReady (y.leafPa / 128) = true :=
    (hshed.same (fun t => t.lineReady (y.leafPa / 128)) fun _ _ _ _ _ _ _ => rfl).trans hready
  have hheld' : (s.shedCopies w).wrapHeld (agentDie y.agent) (.hbm y.leafPa) = false :=
    (hshed.same (fun t => t.wrapHeld (agentDie y.agent) (.hbm y.leafPa)) fun _ _ _ _ _ _ _ => rfl).trans hheld
  rw [writeEvent_leaf store loc n v hint hclass (by rw [hkeep.mem, hmem]) (hxlat.trans hy) hp hready' hheld' hapart, hkeep.mem]

end

/-- Settles O27. A window of one write finds its line at hand, performs the write (`shedCopies_commits`) and closes (`closed_closes`); the end
of the window writes to no record, as no barrier is saved (R204, R279, R384). -/
theorem commitWrites : Obligations.CommitWrites := by
  unfold Obligations.CommitWrites
  refine ⟨fun s w store lane n va loc v hint x => ?_, fun s w => ⟨fun hx => ?_, fun hx h => ?_, fun g hset hroom htold hg => ?_⟩⟩
  · intro wp hx hevs hhit htiles hirr hlog hcmds hready hheld hsigns hbars hstays _ hmem hspad
    have hnone : s.deferredOf w = [] := List.filter_eq_nil_iff.2 fun q hq => by simpa using hcmds q hq
    have hcommit := commitWindow_oneWrite hx hevs hhit htiles hirr hlog hnone hready hheld hsigns hstays
    have hwrite := shedCopies_commits (loc := loc) (n := n) (v := v) store hint hstays hmem hspad
    generalize (s.shedCopies w).writeEvent w store lane va loc n v hint = u at hcommit hwrite
    have hclose := closed_closes (s := u) x (by rw [State.deferredOf, hwrite.cmds]; exact hnone)
    generalize u.closed w x = t at hcommit hclose
    have hexec := execCommit_closes (Option.isSome_of_eq_some hx) hcommit hclose.window (hclose.unsaved (by rw [hwrite.bars]; exact hbars))
    have hend := checkBars_files w t
    have hmem' : t.checkBars.mem = u.mem := (checkBars_mem t).trans hclose.mem
    refine ⟨_, (exec_commit w s).trans hexec, checkBars_window hclose.window, hend.files.regs.trans (hclose.regs.trans hwrite.regs),
      wrote_congr rfl rfl hmem' (hend.spad.trans hclose.spad) hwrite.wrote, ?_⟩
    rw [hmem']
    exact hwrite.leaf
  · exact ⟨s, (exec_commit w s).trans (execCommit_none hx), rfl⟩
  · have hwaits := commitWindow_waits hx h
    have hopen : ((s.commitWindow w).warp w).window.isSome = true := by
      rw [hwaits]
      exact hx
    exact ⟨_, (exec_commit w s).trans (execCommit_open hopen), hwaits⟩
  · exact commit_full hset hroom htold hg

end Sys2Proof.Machine
end

section
/-! SUPPORT. Reads of a window, results that arrive, acknowledged stores and the side log (R61, R62, R73, R85, R179, R200, R202, R209, R392). -/

namespace Sys2Proof.Machine

theorem exec_earlyRead (w k : Nat) (s : State) : exec (.earlyRead w k) s = execEarlyRead w k s := rfl
theorem exec_loadResultArrival (w k : Nat) (s : State) : exec (.loadResultArrival w k) s = execLoadResultArrival w k s := rfl
theorem exec_storeAck (w : Nat) (s : State) : exec (.storeAck w) s = .next (s.onWarp w Warp.dropDone) := rfl
theorem exec_sideLogDrain (w : Nat) (s : State) : exec (.sideLogDrain w) s = execSideLogDrain w s := rfl

/-! ### A read takes its value (R200, R202) -/

theorem loc_sig_lt (l : Loc) : l.sig < 1024 := by
  cases l <;> exact BitVec.isLt _

/-- The line or block of a read enters the signature. -/
theorem sig_enters (m : BitVec 1024) (l : Loc) : (m ||| (1#1024 <<< l.sig)).getLsbD l.sig = true := by
  simp [loc_sig_lt l]

/-- A warp slot whose read `k` has its value: its lanes have it in the result, and its place is in the signature. -/
def Warp.valued (wp : Warp) (k res lane : Nat) (va : DWord) (loc : Loc) (n : Nat) (v : BitVec 128) : Warp :=
  { wp.onRes res fun r => r.give (wp.served r lane) v with
    window := wp.window.map fun y =>
      { y with evs := setAt y.evs k (.rd res lane va loc n (some v)), sig := y.sig ||| (1#1024 <<< loc.sig) } }

section
variable {s : State} {w k res lane n : Nat} {va : DWord} {loc : Loc} {x : Window} (hx : (s.warp w).window = some x)
  (hk : x.evs[k]? = some (.rd res lane va loc n none)) (hstays : s.classStays w lane va) (hread : s.canRead (coreOf w) loc = true)
include hx hk hstays hread

theorem takeValue_reads : ∃ hint, s.takeValue w k =
    (s.fill (coreOf w) loc hint (s.privAccess w lane va)).onWarp w fun wp => wp.valued k res lane va loc n (s.viewRead w k loc va n) := by
  refine ⟨(((s.warp w).results.find? fun r => r.id == res).map Res.hint).getD .none, ?_⟩
  have hopen : ¬(!s.canRead (coreOf w) loc || s.classWaits w (s.xlatOf w lane va)) = true := by simp [hread, hstays.2]
  unfold State.takeValue
  dsimp only
  rw [hx]
  dsimp only
  rw [hk]
  dsimp only
  rw [classAccess_stays hstays, if_neg hopen]
  rfl

theorem earlyRead_takes (hclean : s.poisoned loc n = false) : Completes (.earlyRead w k) s fun t =>
    t.mem = s.mem ∧ t.spad = s.spad ∧ (t.warp w).regs = (s.warp w).regs ∧
      ∃ y, (t.warp w).window = some y ∧ y.evs[k]? = some (.rd res lane va loc n (some (s.viewRead w k loc va n))) ∧ y.sig.getLsbD loc.sig = true ∧
        (∀ j, j ≠ k → y.evs[j]? = x.evs[j]?) ∧ y.ckpt = x.ckpt := by
  have hpoison : s.readsPoison w k = false := by
    unfold State.readsPoison
    rw [hx, Option.map_some, Option.bind_some, hk]
    exact hclean
  obtain ⟨hint, htake⟩ := takeValue_reads hx hk hstays hread
  have hexec : execEarlyRead w k s = .next (s.takeValue w k) :=
    congrArg Host.Outcome.next (if_neg (by rw [hpoison]; exact Bool.false_ne_true))
  refine ⟨_, (exec_earlyRead w k s).trans hexec, ?_⟩
  have hfill := fill_shaken s (coreOf w) loc hint (s.privAccess w lane va)
  rw [htake]
  generalize s.fill (coreOf w) loc hint (s.privAccess w lane va) = u at hfill ⊢
  obtain ⟨hit, hwindow⟩ := hfill.window hx
  have hin : k < x.evs.length := (List.getElem?_eq_some_iff.1 hk).1
  dsimp only
  rw [warp_onWarp_same]
  refine ⟨hfill.mem, hfill.spad, hfill.regs w, _, congrArg (Option.map _) hwindow, ?_, sig_enters _ loc, fun j hj => ?_, rfl⟩
  · exact List.getElem?_set_self hin
  · exact List.getElem?_set_ne (Ne.symm hj)

end

/-! ### The registers of a result (R54, R61) -/

/-- What a result makes of the register that takes its word `k`: the lanes that no later slot has written take theirs. -/
def Res.wordReg (r : Res) (segs : List Seg) (m : Mask) (k : Nat) (old : VReg) : VReg :=
  if r.kept k m = 0 then old
  else old.write (r.kept k m) (fillLess segs r.fill r.lanes (r.kept k m)) (r.cover.less segs r.lanes (r.kept k m)) r.shape fun l => r.word k l

section
variable (r : Res) (segs : List Seg) (m : Mask)

theorem kept_getLsbD (k l : Nat) : (r.kept k m).getLsbD l = (m.getLsbD l && !((r.lost.find k).getD 0).getLsbD l) := by
  unfold Res.kept
  rw [BitVec.getLsbD_and, BitVec.getLsbD_not]
  by_cases hl : l < 64
  · simp [hl]
  · simp [BitVec.getLsbD_of_ge _ _ (Nat.le_of_not_lt hl)]

theorem fillLess_getLsbD {fill : Mask} (old new : Mask) {l : Nat} (h : fill.getLsbD l = false) : (fillLess segs fill old new).getLsbD l = false := by
  rw [fillLess, BitVec.getLsbD_and, h, Bool.false_and]

theorem wordReg_word {k l : Nat} (old : VReg) (h : (r.kept k m).getLsbD l = true) : (r.wordReg segs m k old).word l = r.word k l := by
  unfold Res.wordReg
  split
  · next hzero =>
    rw [hzero] at h
    simp at h
  · exact write_word _ _ _ _ _ _ l h

theorem wordReg_word_other {k l : Nat} (old : VReg) (hl : l < 64) (h : (r.kept k m).getLsbD l = false) (hf : r.fill.getLsbD l = false) :
    (r.wordReg segs m k old).word l = old.word l := by
  unfold Res.wordReg
  split
  · rfl
  · exact write_word_other _ _ _ _ _ _ l hl h (fillLess_getLsbD segs _ _ hf)

/-- A file after word `k` of a result whose registers begin at `n`. -/
def Res.putWord (r : Res) (segs : List Seg) (m : Mask) (n : Nat) (rs : List VReg) (k : Nat) : List VReg :=
  if r.kept k m = 0 then rs else fileAt 128 VReg.reset rs (n + k) (r.wordReg segs m k (rs.getD (n + k) VReg.reset))

theorem putWord_getD {n k : Nat} (rs : List VReg) (h : n + k < 128) (i : Nat) : (r.putWord segs m n rs k).getD i VReg.reset =
    if i = n + k then r.wordReg segs m k (rs.getD i VReg.reset) else rs.getD i VReg.reset := by
  unfold Res.putWord
  split
  · next hzero =>
    have hsame : r.wordReg segs m k (rs.getD i VReg.reset) = rs.getD i VReg.reset := if_pos hzero
    rw [hsame, ite_self]
  · split
    · next hi =>
      subst hi
      exact fileAt_getD_same 128 _ _ _ rs h
    · next hi => exact fileAt_getD_other 128 _ i _ _ rs hi

theorem putWords_getD {n : Nat} (rs : List VReg) (c : Nat) (h : n + c ≤ 128) (i : Nat) :
    ((List.range c).foldl (r.putWord segs m n) rs).getD i VReg.reset =
      if n ≤ i ∧ i < n + c then r.wordReg segs m (i - n) (rs.getD i VReg.reset) else rs.getD i VReg.reset := by
  induction c with
  | zero => exact (if_neg (by omega)).symm
  | succ c ih =>
    rw [List.range_succ, List.foldl_append, List.foldl_cons, List.foldl_nil, putWord_getD r segs m _ (by omega), ih (by omega)]
    by_cases hi : i = n + c
    · subst hi
      rw [if_pos rfl, if_neg (by omega), if_pos (by omega), Nat.add_sub_cancel_left]
    · rw [if_neg hi]
      exact if_congr (by omega) rfl rfl

/-- Each register of a result takes its word, and no other register changes. -/
theorem writeRegs_getD {n : BitVec 7} (rs : List VReg) (hd : r.dst = .v n) (h : n.toNat + r.words ≤ 128) (i : Nat) :
    (r.writeRegs segs m rs).getD i VReg.reset =
      if n.toNat ≤ i ∧ i < n.toNat + r.words then r.wordReg segs m (i - n.toNat) (rs.getD i VReg.reset) else rs.getD i VReg.reset := by
  have hwords : r.writeRegs segs m rs = (List.range r.words).foldl (r.putWord segs m n.toNat) rs := by
    unfold Res.writeRegs
    rw [hd]
    refine congrArg (fun f => (List.range r.words).foldl f rs) (funext fun rs => funext fun k => ?_)
    unfold Res.putWord Res.wordReg
    dsimp only
    split <;> rfl
  rw [hwords]
  exact putWords_getD r segs m rs r.words h i

end

/-! ### A result arrives (R61, R62, R73, R85) -/

theorem lose_id (x : Res) (tgt : Target) (m : Mask) : (x.lose tgt m).id = x.id := by
  unfold Res.lose
  split
  · split <;> rfl
  · split <;> rfl
  · rfl

/-- What earlier slots lose to a result leaves which results are on their way. -/
theorem outrun_ids (wp : Warp) (r : Res) (ps : List Pend) : (wp.outrun r ps).results.map Res.id = wp.results.map Res.id := by
  have hlose : ∀ x : Res, (ps.foldl (fun x p => x.lose p.tgt p.lanes) x).id = x.id := fun x =>
    List.foldlRecOn (motive := fun y : Res => y.id = x.id) _ _ rfl fun y hy p _ => (lose_id y p.tgt p.lanes).trans hy
  unfold Warp.outrun
  rw [List.map_map]
  refine List.map_congr_left fun x _ => ?_
  rw [Function.comp_apply]
  split
  · exact hlose x
  · rfl

/-- What a result makes of a warp slot in which it arrives. -/
structure Arrives (r : Res) (k : Mask) (v t : Warp) : Prop where
  count : t.ldCnt = v.ldCnt - 1
  preds : t.preds = v.preds
  ids : t.results.map Res.id = (v.results.filter fun x => x.id != r.id).map Res.id
  regs : ∃ segs, t.regs = r.writeRegs segs (r.lanes &&& k) v.regs

/-- A warp slot without a result that arrives, and with it applied to the slot and to what a rollback would return to (R203). -/
def Res.arrived (r : Res) (k : Mask) (wp : Warp) : Warp :=
  let v := r.applyTo k { wp with results := wp.results.filter fun x => x.id != r.id }
  ({ v with
    window := if r.spec then v.window else v.window.map fun (x : Window) => { x with ckpt := r.toCkpt k wp x.ckpt }
    clause := v.clause.map fun (c : Clause) => { c with snap := r.toCkpt k wp c.snap } }).countDown r.ctr

theorem arrived_arrives {r : Res} (k : Mask) (wp : Warp) (hc : r.ctr = .load) (hp : r.pdst = none) : Arrives r k wp (r.arrived k wp) := by
  have hpreds : r.writePreds (r.pmask &&& k) wp.preds = wp.preds := by
    unfold Res.writePreds
    rw [hp]
  unfold Res.arrived
  rw [hc]
  exact ⟨rfl, hpreds, outrun_ids _ r _, _, rfl⟩

theorem execLoadResultArrival_complete {s : State} {w k : Nat} {r : Res} (hr : ((s.warp w).results.find? fun r => r.id == k) = some r)
    (hc : r.complete = true) (hstale : s.staleGids r = []) :
    execLoadResultArrival w k s = .next (s.onWarp w fun wp => r.arrived (s.freshSlots w r) wp) := by
  unfold execLoadResultArrival
  dsimp only
  rw [hr]
  dsimp only
  rw [hc, if_neg (by decide), hstale]
  rfl

theorem apart_onWarp_of (s : State) (w : Nat) (f : Warp → Warp) : (s.onWarp w f).apart w = s.apart w := by
  simp only [State.apart, State.onWarp, State.setWarp, tab_del_put]

/-- The words of a result in its registers, by lane and register (R61, R85). -/
theorem arrived_words {r : Res} {k : Mask} {v t : Warp} (h : Arrives r k v t) (hk : k &&& r.lanes = r.lanes) {n : BitVec 7} (hd : r.dst = .v n)
    (hn : n.toNat + r.words ≤ 128) :
    (∀ j l, j < r.words → r.lanes.getLsbD l = true → ((r.lost.find j).getD 0).getLsbD l = false → (t.reg (n.toNat + j)).word l = r.word j l) ∧
    (∀ i, i < n.toNat ∨ n.toNat + r.words ≤ i → t.reg i = v.reg i) ∧
    (∀ j l, j < r.words → ((r.lost.find j).getD 0).getLsbD l = true → r.fill.getLsbD l = false → l < 64 →
      (t.reg (n.toNat + j)).word l = (v.reg (n.toNat + j)).word l) ∧
    ∀ i l, v.live.getLsbD l = true → r.lanes.getLsbD l = false → r.fill.getLsbD l = false → (t.reg i).word l = (v.reg i).word l := by
  obtain ⟨segs, hregs⟩ := h.regs
  have hlanes : r.lanes &&& k = r.lanes := (BitVec.and_comm _ _).trans hk
  have hreg : ∀ i, t.reg i = if n.toNat ≤ i ∧ i < n.toNat + r.words then r.wordReg segs r.lanes (i - n.toNat) (v.reg i) else v.reg i := fun i => by
    rw [Warp.reg, hregs, hlanes]
    exact writeRegs_getD r segs r.lanes v.regs hd hn i
  have hword : ∀ j, j < r.words → t.reg (n.toNat + j) = r.wordReg segs r.lanes j (v.reg (n.toNat + j)) := fun j hj => by
    rw [hreg, if_pos (by omega), Nat.add_sub_cancel_left]
  refine ⟨fun j l hj hl hlost => ?_, fun i hi => ?_, fun j l hj hlost hf hl => ?_, fun i l hlive hl hf => ?_⟩
  · rw [hword j hj]
    exact wordReg_word r segs r.lanes _ (by rw [kept_getLsbD, hl, hlost]; rfl)
  · rw [hreg, if_neg (by omega)]
  · rw [hword j hj]
    exact wordReg_word_other r segs r.lanes _ hl (by rw [kept_getLsbD, hlost, Bool.not_true, Bool.and_false]) hf
  · rw [hreg]
    split
    · exact wordReg_word_other r segs r.lanes _ (lane_lt _ _ hlive) (by rw [kept_getLsbD, hl, Bool.false_and]) hf
    · rfl

/-! ### The side log (R209, R392) -/

/-- The log emptied gives its identifier back and forgets its pages. -/
theorem logEmptied_leaves (s : State) (w : Nat) : (s.logEmptied w).mem = s.mem ∧ (s.logEmptied w).spad = s.spad ∧
    ((s.logEmptied w).warp w).regs = (s.warp w).regs ∧ ((s.logEmptied w).warp w).sideLog = (s.warp w).sideLog := by
  unfold State.logEmptied
  dsimp only
  split
  · rw [warp_onWarp_same]
    split <;> exact ⟨rfl, rfl, rfl, rfl⟩
  · exact ⟨rfl, rfl, rfl, rfl⟩

/-- The module whose log has lost its head, which is performed at place `l` (R200, R202, R209). -/
def State.popped (s : State) (w : Nat) (e : LogEnt) (rest : List LogEnt) (l : Loc) : State :=
  s.onWarp w fun wp => { wp with sideLog := rest, logSince := s.now, window := wp.window.map fun x => x.found e.va l }

theorem popped_warp (s : State) (w : Nat) (e : LogEnt) (rest : List LogEnt) (l : Loc) : (s.popped w e rest l).warp w =
    { s.warp w with sideLog := rest, logSince := s.now, window := (s.warp w).window.map fun x => x.found e.va l } := warp_onWarp_same s w _

/-- The head of the log performed at a place: exactly its bytes change, but for the leaf entry of its page (R179, R209). -/
theorem performHead_wrote {s : State} {w : Nat} {e : LogEnt} {rest : List LogEnt} (l : Loc) (hlog : (s.warp w).sideLog = e :: rest)
    (hstays : s.classStays w e.lane e.va) (hmem : s.mem.wf = true) (hspad : s.spad.wf = true) :
    ((s.performHead w l).warp w).sideLog = rest ∧ ((s.performHead w l).warp w).regs = (s.warp w).regs ∧
      s.Wrote (s.performHead w l) l e.n e.val.toNat (Xlat.leafByte (s.xlatOf w e.lane e.va)) := by
  have hperform : s.performHead w l = ((s.popped w e rest l).writeEvent w e.store e.lane e.va l e.n e.val e.hint).logEmptied w := by
    unfold State.performHead
    rw [hlog]
    rfl
  have hwarp := popped_warp s w e rest l
  have hxlat : (s.popped w e rest l).xlatOf w e.lane e.va = s.xlatOf w e.lane e.va := xlatOf_congr _ _ rfl (by rw [hwarp]) rfl rfl
  have hclass : (s.popped w e rest l).classStays w e.lane e.va := classStays_congr hxlat rfl rfl hstays
  have hwrites := writeEvent_writes e.store l e.n e.val e.hint hclass
  have hwrote := writeEvent_wrote e.store l e.n e.val e.hint hclass hmem hspad
  obtain ⟨hm, hs, hr, hl⟩ := logEmptied_leaves ((s.popped w e rest l).writeEvent w e.store e.lane e.va l e.n e.val e.hint) w
  rw [hxlat] at hwrote
  rw [hperform]
  refine ⟨?_, ?_, wrote_congr rfl rfl hm hs hwrote⟩
  · rw [hl, hwrites.sideLog, hwarp]
  · rw [hr, hwrites.regs, hwarp]

/-- The module that keeps the translation of a place (R180). -/
def State.keepPlace (s : State) (p : Place) : State :=
  match p.xlat with
  | some x => s.keepXlat x
  | none => s

theorem keepPlace_eq (s : State) (p : Place) : ∃ xs, s.keepPlace p = { s with xlats := xs } := by
  unfold State.keepPlace
  split
  · exact keepXlat_eq s _
  · exact ⟨_, rfl⟩

/-- The head of the log sent to its home slice (R392). -/
def State.sendHead (s : State) (w : Nat) (e : LogEnt) (rest : List LogEnt) (l : Loc) : State :=
  { s with homeOps := s.homeOps ++ [HomeOp.mk w e.store true e.lane l e.va e.n .logWrite 0 0 (dieOf w) .none] }.onWarp w fun wp =>
    { wp with sideLog := { e with sent := true } :: rest }

section
variable {s : State} {w : Nat} {e : LogEnt} {rest : List LogEnt} {p : Place} (hlog : (s.warp w).sideLog = e :: rest) (hsent : e.sent = false)
  (hplaced : (e.loc.isSome || (s.warp w).logDrain) = true) (hp : s.lanePlace w e.lane .store e.n e.va = .ok p)
include hlog hsent hplaced hp

/-- The head of a log whose page is there: performed, kept by a wrap, or sent (R172, R392). -/
theorem execSideLogDrain_placed : execSideLogDrain w s = .next (
    if (s.keepPlace p).lineReady p.loc.line && !(s.keepPlace p).wrapHeld (dieOf w) p.loc then (s.keepPlace p).performHead w p.loc
    else if (s.keepPlace p).wrapHeld (dieOf w) p.loc then s.keepPlace p
    else (s.keepPlace p).sendHead w e rest p.loc) := by
  have hnow : ¬(e.sent = true ∨ (!(e.loc.isSome || (s.warp w).logDrain)) = true) := by simp [hsent, hplaced]
  unfold execSideLogDrain
  dsimp only
  rw [hlog]
  dsimp only
  rw [if_neg hnow, hp]
  rfl

variable (hheld : s.wrapHeld (dieOf w) p.loc = false)
include hheld

theorem sideLogDrain_performs (hready : s.lineReady p.loc.line = true) (hstays : (s.keepPlace p).classStays w e.lane e.va)
    (hmem : s.mem.wf = true) (hspad : s.spad.wf = true) : Completes (.sideLogDrain w) s fun t =>
      (t.warp w).sideLog = rest ∧ (t.warp w).regs = (s.warp w).regs ∧
        s.Wrote t p.loc e.n e.val.toNat (Xlat.leafByte ((s.keepPlace p).xlatOf w e.lane e.va)) := by
  have hexec := (exec_sideLogDrain w s).trans (execSideLogDrain_placed hlog hsent hplaced hp)
  obtain ⟨xs, hkeep⟩ := keepPlace_eq s p
  rw [hkeep] at hexec hstays ⊢
  have hnow : (({ s with xlats := xs } : State).lineReady p.loc.line && !({ s with xlats := xs } : State).wrapHeld (dieOf w) p.loc) = true :=
    Bool.and_eq_true_iff.2 ⟨hready, (congrArg not hheld :)⟩
  rw [if_pos hnow] at hexec
  obtain ⟨hl, hr, hwrote⟩ := performHead_wrote (s := { s with xlats := xs }) p.loc hlog hstays hmem hspad
  exact ⟨_, hexec, hl, hr, wrote_congr rfl rfl rfl rfl hwrote⟩

theorem sideLogDrain_sends (hready : s.lineReady p.loc.line = false) : Completes (.sideLogDrain w) s fun t =>
    (t.warp w).sideLog = { e with sent := true } :: rest ∧ t.mem = s.mem ∧ t.spad = s.spad ∧ (t.warp w).regs = (s.warp w).regs ∧
      t.homeOps = s.homeOps ++ [HomeOp.mk w e.store true e.lane p.loc e.va e.n .logWrite 0 0 (dieOf w) .none] := by
  have hexec := (exec_sideLogDrain w s).trans (execSideLogDrain_placed hlog hsent hplaced hp)
  obtain ⟨xs, hkeep⟩ := keepPlace_eq s p
  rw [hkeep] at hexec
  have hline : ({ s with xlats := xs } : State).lineReady p.loc.line = false := hready
  have hopen : ({ s with xlats := xs } : State).wrapHeld (dieOf w) p.loc = false := hheld
  rw [hline, hopen, Bool.false_and, if_neg Bool.false_ne_true, if_neg Bool.false_ne_true] at hexec
  have hwarp : ((({ s with xlats := xs } : State).sendHead w e rest p.loc).warp w) =
      { s.warp w with sideLog := { e with sent := true } :: rest } := warp_onWarp_same _ w _
  exact ⟨_, hexec, by rw [hwarp], rfl, rfl, by rw [hwarp], rfl⟩

end

/-- Settles O29, by a lemma for each row: a read (`earlyRead_takes`), a result (`arrived_words`), the acknowledged stores, and the head of
the side log (`sideLogDrain_performs`, `sideLogDrain_sends`). -/
theorem readsAndArrivals : Obligations.ReadsAndArrivals := by
  unfold Obligations.ReadsAndArrivals
  refine ⟨fun s w k res lane n va loc x => ?read, fun s w k r => ⟨?result, ?acks⟩, fun s w e rest p => ?log⟩
  case read => exact fun hx hk hstays hread hclean => earlyRead_takes hx hk hstays hread hclean
  case result =>
    intro hr hcomplete hctr hpdst hstale hfresh
    refine ⟨_, (exec_loadResultArrival w k s).trans (execLoadResultArrival_complete hr hcomplete hstale), ?_⟩
    have harrives := arrived_arrives (s.freshSlots w r) (s.warp w) hctr hpdst
    dsimp only
    rw [warp_onWarp_same]
    exact ⟨apart_onWarp_of s w _, harrives.count, harrives.preds, harrives.ids, fun n hd _ hn => arrived_words harrives hfresh hd hn⟩
  case acks =>
    refine ⟨_, exec_storeAck w s, ?_⟩
    dsimp only
    rw [warp_onWarp_same]
    exact ⟨apart_onWarp_of s w _, rfl, rfl, rfl⟩
  case log =>
    intro wp u hlog hsent hplaced hp hheld
    have hu : u = s.keepPlace p := by
      cases p with
      | mk loc xlat => cases xlat <;> rfl
    rw [hu]
    exact ⟨fun hready hstays hmem hspad => sideLogDrain_performs hlog hsent hplaced hp hheld hready hstays hmem hspad,
      fun hready => sideLogDrain_sends hlog hsent hplaced hp hheld hready⟩

end Sys2Proof.Machine
end

section
/-! SUPPORT. Every step keeps the canonical form of every memory (O60): one lemma for each operation of the model that gives a state, in the
order of the model. An operation that stores puts bytes into one memory; every other one is a composition of operations before it. -/

namespace Sys2Proof.Machine

/-! ### Memories in canonical form -/

theorem memoriesWf_congr {s t : State} (hs : s.memoriesWf = true) (hmem : t.mem = s.mem) (hspad : t.spad = s.spad)
    (hflash : t.flash = s.flash) (hpeer : t.peerText = s.peerText) (hhost : t.host = s.host) : t.memoriesWf = true := by
  unfold State.memoriesWf at hs ⊢
  rw [hmem, hspad, hflash, hpeer, hhost]
  exact hs

theorem memoriesWf_iff {s : State} :
    s.memoriesWf = true ↔ s.mem.wf = true ∧ s.spad.wf = true ∧ s.flash.wf = true ∧ s.peerText.wf = true ∧ s.host.wf = true := by
  simp only [State.memoriesWf, Bool.and_eq_true, and_assoc]

theorem ite_memoriesWf {c : Prop} [Decidable c] {u v : State} (hu : u.memoriesWf = true) (hv : v.memoriesWf = true) :
    (if c then u else v).memoriesWf = true := by
  split
  · exact hu
  · exact hv

theorem memoriesWf_of_fst {α : Type} {x : State × α} {a : α} {u : State} (h : x = (u, a))
    (hx : x.1.memoriesWf = true) : u.memoriesWf = true := by
  subst h
  exact hx

theorem memoriesWf_of_snd {α : Type} {x : α × State} {a : α} {u : State} (h : x = (a, u))
    (hx : x.2.memoriesWf = true) : u.memoriesWf = true := by
  subst h
  exact hx

theorem memory_filter_wf {p : Nat × Byte → Bool} {m : Memory} (h : m.wf = true) : Memory.wf (m.filter p) = true := by
  induction m with
  | nil => rfl
  | cons c rest ih =>
    simp only [Memory.wf, Bool.and_eq_true, List.all_eq_true] at h
    obtain ⟨⟨hb, hlt⟩, hrest⟩ := h
    by_cases hp : p c = true
    · simp only [List.filter_cons_of_pos hp, Memory.wf, Bool.and_eq_true, List.all_eq_true]
      exact ⟨⟨hb, fun x hx => hlt x (List.mem_filter.1 hx).1⟩, ih hrest⟩
    · rw [List.filter_cons_of_neg hp]
      exact ih hrest

theorem foldl_memoriesWf {α : Type} {f : State → α → State} (hf : ∀ u a, u.memoriesWf = true → (f u a).memoriesWf = true)
    {l : List α} {s : State} (hs : s.memoriesWf = true) : (l.foldl f s).memoriesWf = true :=
  List.foldlRecOn l f hs fun u h a _ => hf u a h

theorem foldl_fst_memoriesWf {α β : Type} {f : State × β → α → State × β} (hf : ∀ x a, x.1.memoriesWf = true → (f x a).1.memoriesWf = true)
    {l : List α} {x : State × β} (hx : x.1.memoriesWf = true) : (l.foldl f x).1.memoriesWf = true :=
  List.foldlRecOn (motive := fun x : State × β => x.1.memoriesWf = true) l f hx fun x h a _ => hf x a h

theorem next_memoriesWf {t u : State} (hu : u.memoriesWf = true)
    (ht : (Host.Outcome.next u : Host.Outcome State Fault Refusal) = .next t) : t.memoriesWf = true := by
  cases ht
  exact hu

/-! ### The operations of Machine/Ops -/

theorem setWarp_memoriesWf {s : State} {w : Nat} {x : Warp} (hs : s.memoriesWf = true) :
    (s.setWarp w x).memoriesWf = true :=
  hs

theorem onWarp_memoriesWf {s : State} {w : Nat} {f : Warp → Warp} (hs : s.memoriesWf = true) :
    (s.onWarp w f).memoriesWf = true :=
  hs

theorem onCore_memoriesWf {s : State} {c : Nat} {f : Core → Core} (hs : s.memoriesWf = true) :
    (s.onCore c f).memoriesWf = true :=
  hs

theorem onDie_memoriesWf {s : State} {d : Nat} {f : Die → Die} (hs : s.memoriesWf = true) :
    (s.onDie d f).memoriesWf = true :=
  hs

theorem onFn_memoriesWf {s : State} {f : Nat} {g : Fn → Fn} (hs : s.memoriesWf = true) :
    (s.onFn f g).memoriesWf = true :=
  hs

theorem fresh_memoriesWf {s : State} (hs : s.memoriesWf = true) :
    (s.fresh).2.memoriesWf = true :=
  hs

theorem later_memoriesWf {s : State} {i : Instr} (hs : s.memoriesWf = true) :
    (s.later i).memoriesWf = true :=
  hs

theorem msix_memoriesWf {s : State} {f v : Nat} (hs : s.memoriesWf = true) :
    (s.msix f v).memoriesWf = true := by
  unfold State.msix
  grind -ring -linarith -lia [State.memoriesWf, onFn_memoriesWf]

theorem post_memoriesWf {s : State} {code : Nat} {i : LogInfo} (hs : s.memoriesWf = true) :
    (s.post code i).memoriesWf = true := by
  unfold State.post
  grind -ring -linarith -lia +splitImp [State.memoriesWf, memory_store_wf, onFn_memoriesWf, later_memoriesWf, msix_memoriesWf]

theorem hold_memoriesWf {s : State} {f : Nat} {h : Held} (hs : s.memoriesWf = true) :
    (s.hold f h).2.memoriesWf = true :=
  hs

theorem unhold_memoriesWf {s : State} {k : Nat} (hs : s.memoriesWf = true) :
    (s.unhold k).memoriesWf = true :=
  hs

theorem announce_memoriesWf {s : State} {w lb : Nat} (hs : s.memoriesWf = true) :
    (s.announce w lb).memoriesWf = true := by
  unfold State.announce
  grind -ring -linarith -lia [State.memoriesWf, onWarp_memoriesWf, post_memoriesWf, hold_memoriesWf]

theorem announceAll_memoriesWf {s : State} {w : Nat} (hs : s.memoriesWf = true) :
    (s.announceAll w).memoriesWf = true :=
  foldl_memoriesWf (fun _ _ hu => announce_memoriesWf hu) hs

theorem recause_memoriesWf {s : State} {w lb : Nat} {r : Raise} (hs : s.memoriesWf = true) :
    (s.recause w lb r).memoriesWf = true :=
  announce_memoriesWf hs

/-! ### The operations of Machine/Operands -/

theorem alu_memoriesWf {s : State} {p : Pre} {lat : Nat} {wide : Bool} {d : Reg} {t : Warp → Shape} {f : Warp → Nat → DWord}
    (hs : s.memoriesWf = true) :
    (s.alu p lat wide d t f).memoriesWf = true := by
  unfold State.alu
  grind -ring -linarith -lia [setWarp_memoriesWf]

theorem aluPred_memoriesWf {s : State} {p : Pre} {lat : Nat} {d : Reg} {f : Warp → Nat → Bool} (hs : s.memoriesWf = true) :
    (s.aluPred p lat d f).memoriesWf = true := by
  unfold State.aluPred
  grind -ring -linarith -lia [setWarp_memoriesWf]

theorem aluFlags_memoriesWf {s : State} {p : Pre} {lat : Nat} {wide : Bool} {d : Reg} {t : Warp → Shape}
    {f : Warp → Nat → DWord × BitVec 5} (hs : s.memoriesWf = true) :
    (s.aluFlags p lat wide d t f).memoriesWf = true := by
  unfold State.aluFlags
  grind -ring -linarith -lia [setWarp_memoriesWf]

theorem aluCarry_memoriesWf {s : State} {p : Pre} {lat : Nat} {d c : Reg} {t : Warp → Shape} {f : Warp → Nat → DWord × Bool}
    (hs : s.memoriesWf = true) :
    (s.aluCarry p lat d c t f).memoriesWf = true := by
  unfold State.aluCarry
  grind -ring -linarith -lia [setWarp_memoriesWf]

/-! ### The operations of Machine/Integer -/

theorem intBin_memoriesWf {s : State} {p : Pre} {lat : Nat} {ty : Ty} {sat : Bool} {d a b : Reg} {shape : Bool → Shape → Shape → Shape}
    {op : Int → Int → Int} (hs : s.memoriesWf = true) :
    (s.intBin p lat ty sat d a b shape op).memoriesWf = true :=
  alu_memoriesWf hs

theorem intBinImm_memoriesWf {s : State} {p : Pre} {lat : Nat} {ty : Ty} {sat : Bool} {d a : Reg} {imm : BitVec 24}
    {shape : Bool → Shape → Shape → Shape} {op : Int → Int → Int} (hs : s.memoriesWf = true) :
    (s.intBinImm p lat ty sat d a imm shape op).memoriesWf = true :=
  alu_memoriesWf hs

theorem intTern_memoriesWf {s : State} {p : Pre} {lat : Nat} {ty : Ty} {sat : Bool} {d a b c : Reg}
    {shape : Bool → Shape → Shape → Shape → Shape} {op : Int → Int → Int → Int} (hs : s.memoriesWf = true) :
    (s.intTern p lat ty sat d a b c shape op).memoriesWf = true :=
  alu_memoriesWf hs

theorem intUn_memoriesWf {s : State} {p : Pre} {lat : Nat} {ty : Ty} {sat : Bool} {d a : Reg} {shape : Bool → Shape → Shape}
    {op : Int → Int} (hs : s.memoriesWf = true) :
    (s.intUn p lat ty sat d a shape op).memoriesWf = true :=
  alu_memoriesWf hs

theorem bitBin_memoriesWf {s : State} {p : Pre} {wide : Bool} {d a b : Reg} {op : DWord → DWord → DWord} (hs : s.memoriesWf = true) :
    (s.bitBin p wide d a b op).memoriesWf = true :=
  alu_memoriesWf hs

theorem bitImm_memoriesWf {s : State} {p : Pre} {wide : Bool} {d a : Reg} {imm : BitVec 24} {op : DWord → DWord → DWord}
    (hs : s.memoriesWf = true) :
    (s.bitImm p wide d a imm op).memoriesWf = true :=
  alu_memoriesWf hs

theorem bitUn_memoriesWf {s : State} {p : Pre} {wideD wideA : Bool} {d a : Reg} {op : DWord → DWord} (hs : s.memoriesWf = true) :
    (s.bitUn p wideD wideA d a op).memoriesWf = true :=
  alu_memoriesWf hs

theorem carryOp_memoriesWf {s : State} {p : Pre} {sub sat : Bool} {d a b c : Reg} (hs : s.memoriesWf = true) :
    (s.carryOp p sub sat d a b c).memoriesWf = true :=
  aluCarry_memoriesWf hs

theorem execIcmp_memoriesWf {p : Pre} {cond : ICond} {ty : Ty} {d a b : Reg} {s : State} {t : State} (hs : s.memoriesWf = true)
    (ht : execIcmp p cond ty d a b s = .next t) :
    t.memoriesWf = true := by
  cases ht
  exact aluPred_memoriesWf hs

theorem execIcmpImm_memoriesWf {p : Pre} {cond : ICond} {ty : Ty} {d a : Reg} {imm : BitVec 24} {s : State} {t : State}
    (hs : s.memoriesWf = true) (ht : execIcmpImm p cond ty d a imm s = .next t) :
    t.memoriesWf = true := by
  cases ht
  exact aluPred_memoriesWf hs

theorem execAadd_memoriesWf {p : Pre} {ty : Ty} {d a b : Reg} {s : State} {t : State} (hs : s.memoriesWf = true)
    (ht : execAadd p ty d a b s = .next t) :
    t.memoriesWf = true := by
  cases ht
  exact alu_memoriesWf hs

theorem shiftOp_memoriesWf {s : State} {op : ShiftOp} {p : Pre} {wide : Bool} {d a b : Reg} (hs : s.memoriesWf = true) :
    (s.shiftOp op p wide d a b).memoriesWf = true :=
  alu_memoriesWf hs

theorem shiftImm_memoriesWf {s : State} {op : ShiftOp} {p : Pre} {wide : Bool} {d a : Reg} {imm : BitVec 24} (hs : s.memoriesWf = true) :
    (s.shiftImm op p wide d a imm).memoriesWf = true :=
  alu_memoriesWf hs

theorem execBfx_memoriesWf {p : Pre} {ty : Ty} {d a b c : Reg} {s : State} {t : State} (hs : s.memoriesWf = true)
    (ht : execBfx p ty d a b c s = .next t) :
    t.memoriesWf = true := by
  cases ht
  exact alu_memoriesWf hs

theorem execBfi_memoriesWf {p : Pre} {wide : Bool} {d a b c : Reg} {s : State} {t : State} (hs : s.memoriesWf = true)
    (ht : execBfi p wide d a b c s = .next t) :
    t.memoriesWf = true := by
  cases ht
  exact alu_memoriesWf hs

theorem execPrmt_memoriesWf {p : Pre} {d a b c : Reg} {s : State} {t : State} (hs : s.memoriesWf = true)
    (ht : execPrmt p d a b c s = .next t) :
    t.memoriesWf = true := by
  cases ht
  exact alu_memoriesWf hs

theorem execSel_memoriesWf {p : Pre} {wide : Bool} {d a b c : Reg} {s : State} {t : State} (hs : s.memoriesWf = true)
    (ht : execSel p wide d a b c s = .next t) :
    t.memoriesWf = true := by
  cases ht
  exact alu_memoriesWf hs

theorem execPlop_memoriesWf {p : Pre} {d a b c : Reg} {tt : BitVec 8} {s : State} {t : State} (hs : s.memoriesWf = true)
    (ht : execPlop p d a b c tt s = .next t) :
    t.memoriesWf = true := by
  cases ht
  exact aluPred_memoriesWf hs

/-! ### The operations of Machine/Float -/

theorem floatTern_memoriesWf {s : State} {p : Pre} {lat : Nat} {packed : Bool} {d a b c : Reg}
    {op : Nat → Nat → Nat → Nat × BitVec 5} (hs : s.memoriesWf = true) :
    (s.floatTern p lat packed d a b c op).memoriesWf = true :=
  aluFlags_memoriesWf hs

theorem floatArith_memoriesWf {s : State} {op : FOp} {p : Pre} {packed ftz : Bool} {ty : Ty} {d a b c : Reg} (hs : s.memoriesWf = true) :
    (s.floatArith op p packed ftz ty d a b c).memoriesWf = true :=
  floatTern_memoriesWf hs

theorem execFcmp_memoriesWf {p : Pre} {cond : FCond} {ftz : Bool} {ty : Ty} {d a b : Reg} {s : State} {t : State}
    (hs : s.memoriesWf = true) (ht : execFcmp p cond ftz ty d a b s = .next t) :
    t.memoriesWf = true := by
  unfold execFcmp at ht
  grind -ring -linarith -lia [setWarp_memoriesWf]

theorem execCvt_memoriesWf {p : Pre} {mode : RMode} {ftz sat : Bool} {td ts : Ty} {d a : Reg} {s : State} {t : State}
    (hs : s.memoriesWf = true) (ht : execCvt p mode ftz sat td ts d a s = .next t) :
    t.memoriesWf = true := by
  cases ht
  exact aluFlags_memoriesWf hs

theorem floatApprox_memoriesWf {s : State} {fn : ApproxFn} {p : Pre} {ftz : Bool} {ty : Ty} {d a : Reg} (hs : s.memoriesWf = true) :
    (s.floatApprox fn p ftz ty d a).memoriesWf = true :=
  aluFlags_memoriesWf hs

/-! ### The operations of Machine/Lane -/

theorem execXchl_memoriesWf {p : Pre} {op : XchlOp} {wide : Bool} {d a b : Reg} {s : State} {t : State} (hs : s.memoriesWf = true)
    (ht : execXchl p op wide d a b s = .next t) :
    t.memoriesWf = true := by
  cases ht
  exact alu_memoriesWf hs

theorem execBallot_memoriesWf {p : Pre} {d a : Reg} {s : State} {t : State} (hs : s.memoriesWf = true) (ht : execBallot p d a s = .next t) :
    t.memoriesWf = true := by
  cases ht
  exact alu_memoriesWf hs

theorem execGred_memoriesWf {p : Pre} {op : RedOp} {ty : Ty} {d a : Reg} {s : State} {t : State} (hs : s.memoriesWf = true)
    (ht : execGred p op ty d a s = .next t) :
    t.memoriesWf = true := by
  cases ht
  exact aluFlags_memoriesWf hs

/-! ### The operations of Machine/Translate -/

theorem keepXlat_memoriesWf {s : State} {x : Xlat} (hs : s.memoriesWf = true) :
    (s.keepXlat x).memoriesWf = true := by
  unfold State.keepXlat
  grind -ring -linarith -lia [State.memoriesWf]

theorem met_memoriesWf {s : State} {q : Asker} {e : XErr} {va : DWord} (hs : s.memoriesWf = true) :
    (s.met q e va).memoriesWf = true := by
  unfold State.met
  grind -ring -linarith -lia [State.memoriesWf, keepXlat_memoriesWf]

theorem metAll_memoriesWf {s : State} {w lb : Nat} {r : Raise} (hs : s.memoriesWf = true) :
    (s.metAll w lb r).memoriesWf = true :=
  foldl_memoriesWf (fun _ _ hu => met_memoriesWf hu) hs

theorem takeAt_memoriesWf {s : State} {w lb : Nat} {r : Raise} (hs : s.memoriesWf = true) :
    (s.takeAt w lb r).memoriesWf = true :=
  announce_memoriesWf (metAll_memoriesWf hs)

theorem takeAll_memoriesWf {s : State} {w : Nat} {rs : List (Nat × Raise)} (hs : s.memoriesWf = true) :
    (s.takeAll w rs).memoriesWf = true :=
  foldl_memoriesWf (fun _ _ hu => takeAt_memoriesWf hu) hs

/-! ### The operations of Machine/Order -/

theorem tick_memoriesWf {s : State} {n : Nat} (hs : s.memoriesWf = true) :
    (s.tick n).memoriesWf = true :=
  hs

theorem writeLoc_memoriesWf {s : State} {l : Loc} {n v : Nat} (hs : s.memoriesWf = true) :
    (s.writeLoc l n v).memoriesWf = true := by
  obtain ⟨hmem, hspad, hrest⟩ := memoriesWf_iff.1 hs
  unfold State.writeLoc
  split
  · split
    · split
      · exact later_memoriesWf hs
      · exact hs
    · exact memoriesWf_iff.2 ⟨memory_store_wf _ _ _ _ hmem, hspad, hrest⟩
  · exact memoriesWf_iff.2 ⟨hmem, memory_store_wf _ _ _ _ hspad, hrest⟩

theorem hitWhere_memoriesWf {s : State} {p : Nat → Window → Bool} (hs : s.memoriesWf = true) :
    (s.hitWhere p).memoriesWf = true :=
  hs

theorem hitLoc_memoriesWf {s : State} {but : Option Nat} {l : Loc} (hs : s.memoriesWf = true) :
    (s.hitLoc but l).memoriesWf = true :=
  hs

theorem perform_memoriesWf {s : State} {but : Option Nat} {l : Loc} {n v : Nat} (hs : s.memoriesWf = true) :
    (s.perform but l n v).memoriesWf = true :=
  foldl_memoriesWf (fun _ _ hu => hitLoc_memoriesWf hu) (writeLoc_memoriesWf hs)

theorem postIdle_memoriesWf {s : State} {die granule : Nat} (hs : s.memoriesWf = true) :
    (s.postIdle die granule).memoriesWf = true :=
  post_memoriesWf hs

theorem idlePoison_memoriesWf {s : State} {die pa n : Nat} (hs : s.memoriesWf = true) :
    (s.idlePoison die pa n).memoriesWf = true :=
  foldl_memoriesWf (fun _ _ hu => postIdle_memoriesWf hu) hs

theorem dropCode_memoriesWf {s : State} {core : Nat} {p : CodeLine → Bool} (hs : s.memoriesWf = true) :
    (s.dropCode core p).memoriesWf = true :=
  foldl_memoriesWf (fun _ _ hu => post_memoriesWf hu) hs

theorem roomL2_memoriesWf {s : State} {line : Nat} (hs : s.memoriesWf = true) :
    (s.roomL2 line).memoriesWf = true := by
  unfold State.roomL2
  grind -ring -linarith -lia [State.memoriesWf, idlePoison_memoriesWf]

theorem useL2_memoriesWf {s : State} {line : Nat} {hint : Hint} (hs : s.memoriesWf = true) :
    (s.useL2 line hint).memoriesWf = true := by
  unfold State.useL2
  grind -ring -linarith -lia [State.memoriesWf, roomL2_memoriesWf]

theorem dropAnnexLines_memoriesWf {s : State} {die : Nat} {p : Nat → Bool} (hs : s.memoriesWf = true) :
    (s.dropAnnexLines die p).memoriesWf = true :=
  foldl_memoriesWf (fun _ _ hu => idlePoison_memoriesWf hu) hs

theorem loseAnnex_memoriesWf {s : State} {die line : Nat} (hs : s.memoriesWf = true) :
    (s.loseAnnex die line).memoriesWf = true := by
  unfold State.loseAnnex
  grind -ring -linarith -lia [State.memoriesWf, dropAnnexLines_memoriesWf]

theorem hitLease_memoriesWf {s : State} {die line : Nat} (hs : s.memoriesWf = true) :
    (s.hitLease die line).memoriesWf = true :=
  hs

theorem expireLine_memoriesWf {s : State} {die line : Nat} (hs : s.memoriesWf = true) :
    (s.expireLine die line).memoriesWf = true :=
  hitLease_memoriesWf (dropAnnexLines_memoriesWf hs)

theorem wakeAnnex_memoriesWf {s : State} {die : Nat} (hs : s.memoriesWf = true) :
    (s.wakeAnnex die).memoriesWf = true := by
  unfold State.wakeAnnex
  grind -ring -linarith -lia [State.memoriesWf, onDie_memoriesWf, post_memoriesWf, dropAnnexLines_memoriesWf]

theorem evictL1_memoriesWf {s : State} {core line : Nat} (hs : s.memoriesWf = true) :
    (s.evictL1 core line).memoriesWf = true := by
  unfold State.evictL1
  grind -ring -linarith -lia [State.memoriesWf, idlePoison_memoriesWf]

theorem roomL1_memoriesWf {s : State} {core : Nat} (hs : s.memoriesWf = true) :
    (s.roomL1 core).memoriesWf = true := by
  unfold State.roomL1
  grind -ring -linarith -lia [State.memoriesWf, evictL1_memoriesWf]

theorem putL1_memoriesWf {s : State} {core line : Nat} {x : L1Line} (hs : s.memoriesWf = true) :
    (s.putL1 core line x).memoriesWf = true := by
  unfold State.putL1
  grind -ring -linarith -lia [State.memoriesWf, roomL1_memoriesWf]

theorem roomAnnex_memoriesWf {s : State} {die line : Nat} (hs : s.memoriesWf = true) :
    (s.roomAnnex die line).memoriesWf = true := by
  unfold State.roomAnnex
  grind -ring -linarith -lia [State.memoriesWf, loseAnnex_memoriesWf]

theorem putAnnex_memoriesWf {s : State} {die line : Nat} {x : AnnexLine} (hs : s.memoriesWf = true) :
    (s.putAnnex die line x).memoriesWf = true := by
  unfold State.putAnnex
  grind -ring -linarith -lia [State.memoriesWf, roomAnnex_memoriesWf]

theorem recall_memoriesWf {s : State} {line : Nat} (hs : s.memoriesWf = true) :
    (s.recall line).memoriesWf = true := by
  unfold State.recall
  grind -ring -linarith -lia [State.memoriesWf, idlePoison_memoriesWf]

theorem readMissLocal_memoriesWf {s : State} {core line : Nat} {hint : Hint} {priv : Bool} (hs : s.memoriesWf = true) :
    (s.readMissLocal core line hint priv).memoriesWf = true := by
  unfold State.readMissLocal
  grind -ring -linarith -lia [State.memoriesWf, useL2_memoriesWf, putL1_memoriesWf, recall_memoriesWf]

theorem annexServe_memoriesWf {s : State} {die line : Nat} {hint : Hint} (hs : s.memoriesWf = true) :
    (s.annexServe die line hint).memoriesWf = true := by
  unfold State.annexServe
  grind -ring -linarith -lia [State.memoriesWf, useL2_memoriesWf, expireLine_memoriesWf, wakeAnnex_memoriesWf, putAnnex_memoriesWf,
    recall_memoriesWf]

theorem readMissRemote_memoriesWf {s : State} {core line : Nat} {hint : Hint} (hs : s.memoriesWf = true) :
    (s.readMissRemote core line hint).memoriesWf = true := by
  unfold State.readMissRemote
  grind -ring -linarith -lia [putL1_memoriesWf, annexServe_memoriesWf]

theorem codeMiss_memoriesWf {s : State} {core line : Nat} (hs : s.memoriesWf = true) :
    (s.codeMiss core line).memoriesWf = true := by
  unfold State.codeMiss
  grind -ring -linarith -lia [useL2_memoriesWf, recall_memoriesWf, annexServe_memoriesWf]

theorem fill_memoriesWf {s : State} {core : Nat} {l : Loc} {hint : Hint} {priv : Bool} (hs : s.memoriesWf = true) :
    (s.fill core l hint priv).memoriesWf = true := by
  unfold State.fill
  grind -ring -linarith -lia [State.memoriesWf, readMissLocal_memoriesWf, readMissRemote_memoriesWf]

theorem invalidateAll_memoriesWf {s : State} {but : Option Nat} {line keep : Nat} (hs : s.memoriesWf = true) :
    (s.invalidateAll but line keep).memoriesWf = true :=
  foldl_memoriesWf (fun _ _ hu => idlePoison_memoriesWf hu) hs

theorem gain_memoriesWf {s : State} {w : Nat} {l : Loc} {hint : Hint} {priv : Bool} (hs : s.memoriesWf = true) :
    (s.gain w l hint priv).memoriesWf = true := by
  unfold State.gain
  grind -ring -linarith -lia [State.memoriesWf, useL2_memoriesWf, loseAnnex_memoriesWf, putL1_memoriesWf, invalidateAll_memoriesWf]

theorem unclaim_memoriesWf {s : State} {c : Claimer} (hs : s.memoriesWf = true) :
    (s.unclaim c).memoriesWf = true :=
  hs

theorem claim_memoriesWf {s : State} {die : Nat} {c : Claimer} {line : Nat} (hs : s.memoriesWf = true) :
    (s.claim die c line).memoriesWf = true := by
  unfold State.claim
  grind -ring -linarith -lia [State.memoriesWf]

theorem askLines_memoriesWf {s : State} {die : Nat} {c : Claimer} {lines : List Nat} (hs : s.memoriesWf = true) :
    (s.askLines die c lines).1.memoriesWf = true := by
  induction lines generalizing s with
  | nil => exact hs
  | cons line rest ih =>
    unfold State.askLines
    dsimp only
    split
    · exact hs
    · split
      · exact ih (claim_memoriesWf hs)
      · exact claim_memoriesWf hs

theorem gainLines_memoriesWf {s : State} {die : Nat} {c : Claimer} {lines : List Nat} (hs : s.memoriesWf = true) :
    (s.gainLines die c lines).1.memoriesWf = true := by
  unfold State.gainLines
  grind -ring -linarith -lia [unclaim_memoriesWf, askLines_memoriesWf]

theorem flushPage_memoriesWf {s : State} {core : Nat} {base size : Nat} (hs : s.memoriesWf = true) :
    (s.flushPage core base size).memoriesWf = true :=
  foldl_memoriesWf (fun _ _ hu => evictL1_memoriesWf hu) hs

theorem performLeaf_memoriesWf {s : State} {o : HomeOp} (hs : s.memoriesWf = true) :
    (s.performLeaf o).memoriesWf = true := by
  unfold State.performLeaf
  grind -ring -linarith -lia [State.memoriesWf, perform_memoriesWf, flushPage_memoriesWf]

theorem leafOp_memoriesWf {s : State} {o : HomeOp} (hs : s.memoriesWf = true) :
    (s.leafOp o).memoriesWf = true := by
  unfold State.leafOp
  grind -ring -linarith -lia [State.memoriesWf, performLeaf_memoriesWf]

theorem setLeaf_memoriesWf {s : State} {but : Option Nat} {x : Xlat} {bits : DWord} (hs : s.memoriesWf = true) :
    (s.setLeaf but x bits).memoriesWf = true :=
  leafOp_memoriesWf hs

theorem touch_memoriesWf {s : State} {w : Nat} {x : Option Xlat} {write : Bool} (hs : s.memoriesWf = true) :
    (s.touch w x write).memoriesWf = true := by
  unfold State.touch
  grind -ring -linarith -lia [State.memoriesWf, keepXlat_memoriesWf, setLeaf_memoriesWf]

theorem classify_memoriesWf {s : State} {but : Option Nat} {core : Option Nat} {x : Xlat} (hs : s.memoriesWf = true) :
    (s.classify but core x).memoriesWf = true :=
  leafOp_memoriesWf hs

theorem classAccess_memoriesWf {s : State} {w lane : Nat} {va : DWord} (hs : s.memoriesWf = true) :
    (s.classAccess w lane va).memoriesWf = true := by
  unfold State.classAccess
  grind -ring -linarith -lia [State.memoriesWf, classify_memoriesWf]

theorem openWindow_memoriesWf {s : State} {w : Nat} (hs : s.memoriesWf = true) :
    (s.openWindow w).memoriesWf = true := by
  unfold State.openWindow
  grind -ring -linarith -lia [State.memoriesWf, setWarp_memoriesWf, onDie_memoriesWf]

theorem holdSlot_memoriesWf {s : State} {w : Nat} {why : HeldBy} (hs : s.memoriesWf = true) :
    (s.holdSlot w why).memoriesWf = true :=
  hs

theorem takeValue_memoriesWf {s : State} {w k : Nat} (hs : s.memoriesWf = true) :
    (s.takeValue w k).memoriesWf = true := by
  unfold State.takeValue
  grind -ring -linarith -lia [State.memoriesWf, onWarp_memoriesWf, fill_memoriesWf, classAccess_memoriesWf]

theorem postLogFault_memoriesWf {s : State} {w lane : Nat} {e : XErr} {again : Bool} (hs : s.memoriesWf = true) :
    (s.postLogFault w lane e again).memoriesWf = true := by
  unfold State.postLogFault
  grind -ring -linarith -lia [State.memoriesWf, onWarp_memoriesWf, post_memoriesWf, hold_memoriesWf]

theorem postLogFull_memoriesWf {s : State} {w : Nat} (hs : s.memoriesWf = true) :
    (s.postLogFull w).memoriesWf = true := by
  unfold State.postLogFull
  grind -ring -linarith -lia [State.memoriesWf, onWarp_memoriesWf, post_memoriesWf]

theorem toSideLog_memoriesWf {s : State} {w : Nat} {x : LogEnt} (hs : s.memoriesWf = true) :
    (s.toSideLog w x).memoriesWf = true := by
  unfold State.toSideLog
  grind -ring -linarith -lia [State.memoriesWf, onWarp_memoriesWf, postLogFault_memoriesWf, postLogFull_memoriesWf]

theorem layStore_memoriesWf {s : State} {w store : Nat} {l : Loc} {n : Nat} (hs : s.memoriesWf = true) :
    (s.layStore w store l n).memoriesWf = true := by
  unfold State.layStore
  grind -ring -linarith -lia [State.memoriesWf, onWarp_memoriesWf]

theorem writeEvent_memoriesWf {s : State} {w store lane : Nat} {va : DWord} {l : Loc} {n : Nat} {v : BitVec 128} {hint : Hint}
    (hs : s.memoriesWf = true) :
    (s.writeEvent w store lane va l n v hint).memoriesWf = true := by
  unfold State.writeEvent
  grind -ring -linarith -lia [onWarp_memoriesWf, perform_memoriesWf, gain_memoriesWf, touch_memoriesWf, classAccess_memoriesWf,
    layStore_memoriesWf]

theorem onTile_memoriesWf {s : State} {core t : Nat} {f : Tile → Tile} (hs : s.memoriesWf = true) :
    (s.onTile core t f).memoriesWf = true :=
  hs

theorem performEvents_memoriesWf {s : State} {w : Nat} {evs : List WinEv} (hs : s.memoriesWf = true) :
    (s.performEvents w evs).memoriesWf = true := by
  induction evs generalizing s with
  | nil => exact hs
  | cons e rest ih =>
    cases e with
    | rd | token => exact ih hs
    | wr store lane va loc n v hint =>
      unfold State.performEvents
      refine ih ?_
      split
      · exact writeEvent_memoriesWf hs
      · exact toSideLog_memoriesWf hs

theorem countDrop_memoriesWf {s : State} {die gid : Nat} (hs : s.memoriesWf = true) :
    (s.countDrop die gid).memoriesWf = true := by
  unfold State.countDrop
  grind -ring -linarith -lia [State.memoriesWf, foldl_memoriesWf, onDie_memoriesWf, post_memoriesWf]

theorem setToken_memoriesWf {s : State} {n : Nat} (hs : s.memoriesWf = true) :
    (s.setToken n).memoriesWf = true := by
  unfold State.setToken
  grind -ring -linarith -lia [State.memoriesWf, onWarp_memoriesWf, countDrop_memoriesWf]

theorem takeDesc_memoriesWf {s : State} {n : Nat} {d : BitVec 512} (hs : s.memoriesWf = true) :
    (s.takeDesc n d).memoriesWf = true :=
  hs

theorem endEmpty_memoriesWf {s : State} {n : Nat} (hs : s.memoriesWf = true) :
    (s.endEmpty n).memoriesWf = true := by
  unfold State.endEmpty
  grind -ring -linarith -lia [State.memoriesWf, setToken_memoriesWf]

theorem readDesc_memoriesWf {s : State} {n : Nat} {ws : List BufWrite} (hs : s.memoriesWf = true) :
    (s.readDesc n ws).memoriesWf = true := by
  unfold State.readDesc
  grind -ring -linarith -lia [State.memoriesWf, foldl_memoriesWf, postIdle_memoriesWf, touch_memoriesWf, classify_memoriesWf,
    takeDesc_memoriesWf]

theorem fetchDesc_memoriesWf {s : State} {n : Nat} (hs : s.memoriesWf = true) :
    (s.fetchDesc n).memoriesWf = true := by
  unfold State.fetchDesc
  grind -ring -linarith -lia [State.memoriesWf, endEmpty_memoriesWf, readDesc_memoriesWf]

theorem releaseCmd_memoriesWf {s : State} {n : Nat} (hs : s.memoriesWf = true) :
    (s.releaseCmd n).memoriesWf = true := by
  unfold State.releaseCmd
  grind -ring -linarith -lia [State.memoriesWf, onCore_memoriesWf, fetchDesc_memoriesWf]

theorem readDescs_memoriesWf {s : State} {w : Nat} {x : Window} (hs : s.memoriesWf = true) :
    (s.readDescs w x).memoriesWf = true :=
  foldl_memoriesWf (fun _ _ hu => readDesc_memoriesWf hu) hs

theorem withdrawArrival_memoriesWf {s : State} {w l : Nat} (hs : s.memoriesWf = true) :
    (s.withdrawArrival w l).memoriesWf = true := by
  unfold State.withdrawArrival
  grind -ring -linarith -lia [State.memoriesWf]

theorem settle_memoriesWf {s : State} {w : Nat} {x : Window} (hs : s.memoriesWf = true) :
    (s.settle w x).memoriesWf = true := by
  unfold State.settle
  grind -ring -linarith -lia [State.memoriesWf, foldl_memoriesWf, onWarp_memoriesWf, onCore_memoriesWf, gain_memoriesWf,
    releaseCmd_memoriesWf, withdrawArrival_memoriesWf]

theorem classWrites_memoriesWf {s : State} {w : Nat} {evs : List WinEv} (hs : s.memoriesWf = true) :
    (s.classWrites w evs).memoriesWf = true := by
  unfold State.classWrites
  grind -ring -linarith -lia [State.memoriesWf, foldl_memoriesWf, classAccess_memoriesWf]

theorem commitWindow_memoriesWf {s : State} {w : Nat} (hs : s.memoriesWf = true) :
    (s.commitWindow w).memoriesWf = true := by
  unfold State.commitWindow
  grind -ring -linarith -lia [State.memoriesWf, foldl_memoriesWf, announceAll_memoriesWf, invalidateAll_memoriesWf, unclaim_memoriesWf,
    gainLines_memoriesWf, postLogFull_memoriesWf, performEvents_memoriesWf, readDescs_memoriesWf, settle_memoriesWf, classWrites_memoriesWf]

theorem withdrawSigns_memoriesWf {s : State} {w : Nat} (hs : s.memoriesWf = true) :
    (s.withdrawSigns w).memoriesWf = true :=
  hs

theorem undo_memoriesWf {s : State} {w : Nat} (hs : s.memoriesWf = true) :
    (s.undo w).memoriesWf = true := by
  unfold State.undo
  grind -ring -linarith -lia [State.memoriesWf, setWarp_memoriesWf, announceAll_memoriesWf, unclaim_memoriesWf, withdrawSigns_memoriesWf]

theorem escalate_memoriesWf {s : State} {w : Nat} (hs : s.memoriesWf = true) :
    (s.escalate w).memoriesWf = true := by
  unfold State.escalate
  grind -ring -linarith -lia [State.memoriesWf, setWarp_memoriesWf, onDie_memoriesWf, post_memoriesWf, hold_memoriesWf]

theorem rollBack_memoriesWf {s : State} {w : Nat} {counted : Bool} (hs : s.memoriesWf = true) :
    (s.rollBack w counted).memoriesWf = true := by
  unfold State.rollBack
  grind -ring -linarith -lia [undo_memoriesWf, escalate_memoriesWf]

theorem readFault_memoriesWf {s : State} {w : Nat} {rs : List (Nat × Raise)} (hs : s.memoriesWf = true) :
    (s.readFault w rs).memoriesWf = true := by
  unfold State.readFault
  grind -ring -linarith -lia [State.memoriesWf, onWarp_memoriesWf, takeAll_memoriesWf, openWindow_memoriesWf, rollBack_memoriesWf]

theorem irrevocably_memoriesWf {s : State} {act : State → State} (hs : s.memoriesWf = true) (hf0 : ∀ u : State,
    u.memoriesWf = true → (act u).memoriesWf = true) :
    (s.irrevocably act).memoriesWf = true := by
  unfold State.irrevocably
  grind -ring -linarith -lia [onWarp_memoriesWf, holdSlot_memoriesWf]

/-! ### The operations of Machine/MemInstr -/

theorem classLanes_memoriesWf {s : State} {w : Nat} {lanes : List Nat} {place : Nat → Place} {ea : Nat → DWord} (hs : s.memoriesWf = true) :
    (s.classLanes w lanes place ea).1.memoriesWf = true := by
  unfold State.classLanes
  grind -ring -linarith -lia [foldl_memoriesWf, touch_memoriesWf, classAccess_memoriesWf]

theorem soloRead_memoriesWf {s : State} {w id lane : Nat} {va : DWord} {l : Loc} {n : Nat} {hint : Hint} (hs : s.memoriesWf = true) :
    (s.soloRead w id lane va l n hint).memoriesWf = true :=
  fill_memoriesWf hs

theorem addRead_memoriesWf {s : State} {w id lane : Nat} {va : DWord} {p : Place} {n : Nat} (hs : s.memoriesWf = true) :
    (s.addRead w id lane va p n).memoriesWf = true := by
  unfold State.addRead
  grind -ring -linarith -lia [onWarp_memoriesWf]

theorem loadLanes_memoriesWf {s : State} {m : Mask} {dst : Reg} {words : Nat} {ty : Ty} {hint : Hint} {shape : Shape} {size : Nat}
    {ea : Nat → DWord} (hs : s.memoriesWf = true) :
    (s.loadLanes m dst words ty hint shape size ea).memoriesWf = true := by
  unfold State.loadLanes
  grind -ring -linarith -lia [State.memoriesWf, foldl_memoriesWf, onWarp_memoriesWf, takeAll_memoriesWf, touch_memoriesWf,
    openWindow_memoriesWf, holdSlot_memoriesWf, readFault_memoriesWf, classLanes_memoriesWf, soloRead_memoriesWf, addRead_memoriesWf]

theorem execLd_memoriesWf {p : Pre} {hint : Hint} {b128 : Bool} {ty : Ty} {d a b : Reg} {off : BitVec 16} {s : State} {t : State}
    (hs : s.memoriesWf = true) (ht : execLd p hint b128 ty d a b off s = .next t) :
    t.memoriesWf = true := by
  cases ht
  exact loadLanes_memoriesWf hs

theorem dropAnnex_memoriesWf {s : State} {w : Nat} {l : Loc} (hs : s.memoriesWf = true) :
    (s.dropAnnex w l).memoriesWf = true := by
  unfold State.dropAnnex
  grind -ring -linarith -lia [State.memoriesWf, loseAnnex_memoriesWf]

theorem storeLanes_memoriesWf {s : State} {m : Mask} {hint : Hint} {size : Nat} {ea : Nat → DWord} {val : Nat → BitVec 128}
    (hs : s.memoriesWf = true) :
    (s.storeLanes m hint size ea val).memoriesWf = true := by
  unfold State.storeLanes
  grind -ring -linarith -lia [State.memoriesWf, foldl_memoriesWf, onWarp_memoriesWf, takeAll_memoriesWf, touch_memoriesWf,
    openWindow_memoriesWf, holdSlot_memoriesWf, toSideLog_memoriesWf, dropAnnex_memoriesWf]

theorem execSt_memoriesWf {p : Pre} {hint : Hint} {b128 : Bool} {ty : Ty} {d a b : Reg} {off : BitVec 16} {s : State} {t : State}
    (hs : s.memoriesWf = true) (ht : execSt p hint b128 ty d a b off s = .next t) :
    t.memoriesWf = true := by
  cases ht
  exact storeLanes_memoriesWf hs

theorem execLdw_memoriesWf {p : Pre} {hint : Hint} {d a b : Reg} {off : BitVec 16} {s : State} {t : State} (hs : s.memoriesWf = true)
    (ht : execLdw p hint d a b off s = .next t) :
    t.memoriesWf = true := by
  unfold execLdw at ht
  grind -ring -linarith -lia [takeAll_memoriesWf, readFault_memoriesWf, loadLanes_memoriesWf]

theorem execStw_memoriesWf {p : Pre} {hint : Hint} {d a b : Reg} {off : BitVec 16} {s : State} {t : State} (hs : s.memoriesWf = true)
    (ht : execStw p hint d a b off s = .next t) :
    t.memoriesWf = true := by
  cases ht
  exact storeLanes_memoriesWf (takeAll_memoriesWf hs)

theorem prefetch_memoriesWf {s : State} {w lane : Nat} {va : DWord} {x : Place} {l2 : Bool} (hs : s.memoriesWf = true) :
    (s.prefetch w lane va x l2).memoriesWf = true := by
  unfold State.prefetch
  grind -ring -linarith -lia [State.memoriesWf, useL2_memoriesWf, annexServe_memoriesWf, fill_memoriesWf]

theorem execPrf_memoriesWf {p : Pre} {l2 : Bool} {a b : Reg} {off : BitVec 16} {s : State} {t : State} (hs : s.memoriesWf = true)
    (ht : execPrf p l2 a b off s = .next t) :
    t.memoriesWf = true := by
  unfold execPrf at ht
  grind -ring -linarith -lia [State.memoriesWf, foldl_memoriesWf, holdSlot_memoriesWf, prefetch_memoriesWf]

theorem execEarlyRead_memoriesWf {w k : Nat} {s : State} {t : State} (hs : s.memoriesWf = true) (ht : execEarlyRead w k s = .next t) :
    t.memoriesWf = true := by
  unfold execEarlyRead at ht
  grind -ring -linarith -lia [takeValue_memoriesWf, rollBack_memoriesWf]

theorem execRollback_memoriesWf {w : Nat} {s : State} {t : State} (hs : s.memoriesWf = true) (ht : execRollback w s = .next t) :
    t.memoriesWf = true := by
  unfold execRollback at ht
  grind -ring -linarith -lia [rollBack_memoriesWf]

theorem retry_memoriesWf {s : State} {w : Nat} (hs : s.memoriesWf = true) :
    (s.retry w).memoriesWf = true :=
  hs

theorem execIrrevocableAct_memoriesWf {w : Nat} {s : State} {t : State} (hs : s.memoriesWf = true) (ht : execIrrevocableAct w s = .next t) :
    t.memoriesWf = true := by
  unfold execIrrevocableAct at ht
  grind -ring -linarith -lia [State.memoriesWf, retry_memoriesWf]

theorem execHeldSlotAct_memoriesWf {w : Nat} {s : State} {t : State} (hs : s.memoriesWf = true) (ht : execHeldSlotAct w s = .next t) :
    t.memoriesWf = true := by
  unfold execHeldSlotAct at ht
  grind -ring -linarith -lia [State.memoriesWf, retry_memoriesWf]

theorem logEmptied_memoriesWf {s : State} {w : Nat} (hs : s.memoriesWf = true) :
    (s.logEmptied w).memoriesWf = true := by
  unfold State.logEmptied
  grind -ring -linarith -lia [State.memoriesWf, onWarp_memoriesWf, unhold_memoriesWf]

theorem performHead_memoriesWf {s : State} {w : Nat} {l : Loc} (hs : s.memoriesWf = true) :
    (s.performHead w l).memoriesWf = true := by
  unfold State.performHead
  grind -ring -linarith -lia [State.memoriesWf, onWarp_memoriesWf, writeEvent_memoriesWf, logEmptied_memoriesWf]

theorem discardLog_memoriesWf {s : State} {w : Nat} (hs : s.memoriesWf = true) :
    (s.discardLog w).memoriesWf = true := by
  unfold State.discardLog
  grind -ring -linarith -lia [State.memoriesWf, foldl_memoriesWf, onWarp_memoriesWf, logEmptied_memoriesWf]

theorem queueAt_memoriesWf {s : State} {w lb : Nat} {x : SegCause} (hs : s.memoriesWf = true) :
    (s.queueAt w lb x).memoriesWf = true :=
  hs

theorem defer_memoriesWf {s : State} {w lb : Nat} {code : Nat} {detail : Word} {addr : DWord} {m : Mask} (hs : s.memoriesWf = true) :
    (s.defer w lb code detail addr m).memoriesWf = true := by
  unfold State.defer
  grind -ring -linarith -lia [State.memoriesWf, queueAt_memoriesWf]

theorem execSideLogDrain_memoriesWf {w : Nat} {s : State} {t : State} (hs : s.memoriesWf = true) (ht : execSideLogDrain w s = .next t) :
    t.memoriesWf = true := by
  unfold execSideLogDrain at ht
  grind -ring -linarith -lia [State.memoriesWf, onWarp_memoriesWf, keepXlat_memoriesWf, met_memoriesWf, postLogFault_memoriesWf,
    performHead_memoriesWf, discardLog_memoriesWf, defer_memoriesWf]

theorem execLoadResultArrival_memoriesWf {w k : Nat} {s : State} {t : State} (hs : s.memoriesWf = true)
    (ht : execLoadResultArrival w k s = .next t) :
    t.memoriesWf = true := by
  unfold execLoadResultArrival at ht
  grind -ring -linarith -lia [State.memoriesWf, foldl_memoriesWf, onWarp_memoriesWf, countDrop_memoriesWf]

/-! ### The operations of Machine/Control -/

theorem transfer_memoriesWf {s : State} {m : Mask} {target : Nat → DWord} (hs : s.memoriesWf = true) :
    (s.transfer m target).memoriesWf = true :=
  takeAll_memoriesWf hs

theorem startTakeover_memoriesWf {s : State} {w lb : Nat} {reason : Nat} (hs : s.memoriesWf = true) :
    (s.startTakeover w lb reason).memoriesWf = true := by
  unfold State.startTakeover
  grind -ring -linarith -lia [State.memoriesWf, onWarp_memoriesWf, post_memoriesWf]

theorem execBanisterTakeover_memoriesWf {w lb : Nat} {s : State} {t : State} (hs : s.memoriesWf = true)
    (ht : execBanisterTakeover w lb s = .next t) :
    t.memoriesWf = true := by
  unfold execBanisterTakeover at ht
  grind -ring -linarith -lia [State.memoriesWf, setWarp_memoriesWf]

theorem divergeSeg_memoriesWf {s : State} {lb : Nat} {F taken : Mask} {br tk : DWord} (hs : s.memoriesWf = true) :
    (s.divergeSeg lb F taken br tk).memoriesWf = true := by
  unfold State.divergeSeg
  grind -ring -linarith -lia [State.memoriesWf, onWarp_memoriesWf, startTakeover_memoriesWf]

theorem branchSeg_memoriesWf {s : State} {g : Seg} {m F taken : Mask} {br tk : DWord} (hs : s.memoriesWf = true) :
    (s.branchSeg g m F taken br tk).memoriesWf = true := by
  unfold State.branchSeg
  grind -ring -linarith -lia [State.memoriesWf, takeAt_memoriesWf, transfer_memoriesWf, divergeSeg_memoriesWf]

theorem execBra_memoriesWf {p : Pre} {off : BitVec 40} {s : State} {t : State} (hs : s.memoriesWf = true) (ht : execBra p off s = .next t) :
    t.memoriesWf = true := by
  cases ht
  exact foldl_memoriesWf (fun _ _ hu => branchSeg_memoriesWf hu) hs

theorem execBrau_memoriesWf {p : Pre} {off : BitVec 40} {s : State} {t : State} (hs : s.memoriesWf = true)
    (ht : execBrau p off s = .next t) :
    t.memoriesWf = true := by
  cases ht
  exact transfer_memoriesWf hs

theorem execJmp_memoriesWf {p : Pre} {off : BitVec 40} {s : State} {t : State} (hs : s.memoriesWf = true) (ht : execJmp p off s = .next t) :
    t.memoriesWf = true := by
  cases ht
  exact transfer_memoriesWf hs

theorem execCall_memoriesWf {p : Pre} {off : BitVec 40} {s : State} {t : State} (hs : s.memoriesWf = true)
    (ht : execCall p off s = .next t) :
    t.memoriesWf = true := by
  cases ht
  exact takeAll_memoriesWf hs

theorem execRet_memoriesWf {p : Pre} {a : Reg} {s : State} {t : State} (hs : s.memoriesWf = true) (ht : execRet p a s = .next t) :
    t.memoriesWf = true := by
  cases ht
  exact transfer_memoriesWf hs

theorem execNop_memoriesWf {_p : Pre} {s : State} {t : State} (hs : s.memoriesWf = true) (ht : execNop _p s = .next t) :
    t.memoriesWf = true := by
  cases ht
  exact hs

theorem execWait_memoriesWf {p : Pre} {_eq wide : Bool} {_d a b : Reg} {off : BitVec 16} {s : State} {t : State}
    (hs : s.memoriesWf = true) (ht : execWait p _eq wide _d a b off s = .next t) :
    t.memoriesWf = true := by
  unfold execWait at ht
  grind -ring -linarith -lia [onWarp_memoriesWf, takeAll_memoriesWf, openWindow_memoriesWf, readFault_memoriesWf]

theorem takeHeld_memoriesWf {s : State} {w lb : Nat} {m : Mask} {h : LaneHold} {r : Raise} (hs : s.memoriesWf = true) :
    (s.takeHeld w lb m h r).memoriesWf = true :=
  announce_memoriesWf (metAll_memoriesWf hs)

theorem pollLane_memoriesWf {s : State} {w l : Nat} {h : LaneHold} (hs : s.memoriesWf = true) :
    (s.pollLane w l h).memoriesWf = true := by
  unfold State.pollLane
  grind -ring -linarith -lia [State.memoriesWf, onWarp_memoriesWf, fill_memoriesWf, openWindow_memoriesWf, rollBack_memoriesWf,
    classLanes_memoriesWf, takeHeld_memoriesWf]

theorem dropChoice_memoriesWf {s : State} {w : Nat} (hs : s.memoriesWf = true) :
    (s.dropChoice w).memoriesWf = true :=
  hs

theorem pollLanes_memoriesWf {s : State} {w : Nat} {lanes : List Nat} (hs : s.memoriesWf = true) :
    (s.pollLanes w lanes).memoriesWf = true := by
  unfold State.pollLanes
  grind -ring -linarith -lia [State.memoriesWf, foldl_memoriesWf, pollLane_memoriesWf]

theorem withdraw_memoriesWf {s : State} {w : Nat} {m : Mask} (hs : s.memoriesWf = true) :
    (s.withdraw w m).memoriesWf = true := by
  unfold State.withdraw
  grind -ring -linarith -lia [State.memoriesWf, foldl_memoriesWf, onWarp_memoriesWf, withdrawArrival_memoriesWf]

theorem outerUdone_memoriesWf {s : State} {w lb : Nat} (hs : s.memoriesWf = true) :
    (s.outerUdone w lb).memoriesWf = true := by
  unfold State.outerUdone
  grind -ring -linarith -lia [State.memoriesWf, onWarp_memoriesWf, withdraw_memoriesWf]

theorem innerUdone_memoriesWf {s : State} {w lb : Nat} (hs : s.memoriesWf = true) :
    (s.innerUdone w lb).memoriesWf = true := by
  unfold State.innerUdone
  grind -ring -linarith -lia [State.memoriesWf, onWarp_memoriesWf, withdraw_memoriesWf, outerUdone_memoriesWf]

theorem execUdone_memoriesWf {_p : Pre} {s : State} {t : State} (hs : s.memoriesWf = true) (ht : execUdone _p s = .next t) :
    t.memoriesWf = true := by
  unfold execUdone at ht
  grind -ring -linarith -lia [State.memoriesWf, foldl_memoriesWf, takeAt_memoriesWf, outerUdone_memoriesWf, innerUdone_memoriesWf]

theorem execPark_memoriesWf {p : Pre} {s : State} {t : State} (hs : s.memoriesWf = true) (ht : execPark p s = .next t) :
    t.memoriesWf = true := by
  unfold execPark at ht
  grind -ring -linarith -lia [State.memoriesWf, foldl_memoriesWf, onWarp_memoriesWf, takeAt_memoriesWf]

theorem execWake_memoriesWf {p : Pre} {a : Reg} {s : State} {t : State} (hs : s.memoriesWf = true) (ht : execWake p a s = .next t) :
    t.memoriesWf = true := by
  unfold execWake at ht
  grind -ring -linarith -lia [State.memoriesWf, setWarp_memoriesWf]

theorem trapInsn_memoriesWf {s : State} {p : Pre} {code : Nat} {imm : BitVec 24} (hs : s.memoriesWf = true) :
    (s.trapInsn p code imm).memoriesWf = true := by
  unfold State.trapInsn
  grind -ring -linarith -lia [foldl_memoriesWf, onWarp_memoriesWf, takeAt_memoriesWf, irrevocably_memoriesWf]

theorem execMov_memoriesWf {p : Pre} {wide : Bool} {d a : Reg} {sel : BitVec 2} {s : State} {t : State} (hs : s.memoriesWf = true)
    (ht : execMov p wide d a sel s = .next t) :
    t.memoriesWf = true := by
  unfold execMov at ht
  grind -ring -linarith -lia [State.memoriesWf, setWarp_memoriesWf, alu_memoriesWf, aluPred_memoriesWf]

theorem execMovi_memoriesWf {p : Pre} {hi : Bool} {d : Reg} {imm : BitVec 24} {s : State} {t : State} (hs : s.memoriesWf = true)
    (ht : execMovi p hi d imm s = .next t) :
    t.memoriesWf = true := by
  cases ht
  exact alu_memoriesWf hs

theorem execMovsWrite_memoriesWf {p : Pre} {wide : Bool} {sr : BitVec 8} {a : Reg} {s : State} {t : State} (hs : s.memoriesWf = true)
    (ht : execMovsWrite p wide sr a s = .next t) :
    t.memoriesWf = true := by
  unfold execMovsWrite at ht
  grind -ring -linarith -lia [State.memoriesWf, setWarp_memoriesWf]

/-! ### The operations of Machine/Barrier -/

theorem releaseBar_memoriesWf {s : State} {b : Bar} (hs : s.memoriesWf = true) :
    (s.releaseBar b).memoriesWf = true :=
  hs

theorem checkBars_memoriesWf {s : State} (hs : s.memoriesWf = true) :
    (s.checkBars).memoriesWf = true :=
  foldl_memoriesWf (fun _ _ hu => releaseBar_memoriesWf hu) hs

theorem performArrival_memoriesWf {s : State} {a n : Nat} (hs : s.memoriesWf = true) :
    (s.performArrival a n).memoriesWf = true := by
  unfold State.performArrival
  grind -ring -linarith -lia [State.memoriesWf, perform_memoriesWf, releaseBar_memoriesWf]

theorem recordArrival_memoriesWf {s : State} {die : Nat} {b : Bar} {before : Nat} (hs : s.memoriesWf = true) :
    (s.recordArrival die b before).memoriesWf = true := by
  unfold State.recordArrival
  grind -ring -linarith -lia [State.memoriesWf, performArrival_memoriesWf]

theorem exitBars_memoriesWf {s t : State} {die : Nat} (ht : t.memoriesWf = true) : (s.exitBars t die).memoriesWf = true := by
  unfold State.exitBars
  exact checkBars_memoriesWf (foldl_memoriesWf (fun _ _ hu => recordArrival_memoriesWf hu) ht)

theorem clashSeg_memoriesWf {s : State} {w : Nat} {g : Seg} {b : Bar} {bit : Nat} (hs : s.memoriesWf = true) :
    (s.clashSeg w g b bit).memoriesWf = true := by
  unfold State.clashSeg
  grind -ring -linarith -lia [State.memoriesWf, foldl_memoriesWf, recause_memoriesWf, takeHeld_memoriesWf]

theorem dissolve_memoriesWf {s : State} {b : Bar} {bit : Nat} (hs : s.memoriesWf = true) :
    (s.dissolve b bit).memoriesWf = true := by
  unfold State.dissolve
  grind -ring -linarith -lia [State.memoriesWf, foldl_memoriesWf, clashSeg_memoriesWf]

theorem arrive_memoriesWf {s : State} {w : Nat} {g : Seg} {m : Mask} {lvl : Level} {mask : Mask} (hs : s.memoriesWf = true) :
    (s.arrive w g m lvl mask).memoriesWf = true := by
  unfold State.arrive
  grind -ring -linarith -lia [State.memoriesWf, foldl_memoriesWf, onWarp_memoriesWf, checkBars_memoriesWf, recordArrival_memoriesWf,
    dissolve_memoriesWf]

theorem barrier_memoriesWf {s : State} {p : Pre} {lvl : Level} {a : Reg} {drain : Bool} (hs : s.memoriesWf = true) :
    (s.barrier p lvl a drain).memoriesWf = true := by
  unfold State.barrier
  grind -ring -linarith -lia [State.memoriesWf, foldl_memoriesWf, setWarp_memoriesWf, takeAt_memoriesWf, irrevocably_memoriesWf,
    arrive_memoriesWf]

theorem execDrainArrival_memoriesWf {w : Nat} {s : State} {t : State} (hs : s.memoriesWf = true) (ht : execDrainArrival w s = .next t) :
    t.memoriesWf = true := by
  unfold execDrainArrival at ht
  grind -ring -linarith -lia [State.memoriesWf, foldl_memoriesWf, onWarp_memoriesWf, arrive_memoriesWf]

theorem execExit_memoriesWf {p : Pre} {s : State} {t : State} (hs : s.memoriesWf = true) (ht : execExit p s = .next t) :
    t.memoriesWf = true := by
  unfold execExit at ht
  grind -ring -linarith -lia [State.memoriesWf, onWarp_memoriesWf, announceAll_memoriesWf, exitBars_memoriesWf]

theorem execCommit_memoriesWf {w : Nat} {s : State} {t : State} (hs : s.memoriesWf = true) (ht : execCommit w s = .next t) :
    t.memoriesWf = true := by
  unfold execCommit at ht
  grind -ring -linarith -lia [commitWindow_memoriesWf, exitBars_memoriesWf]

/-! ### The operations of Machine/Atomics -/

theorem performOp_memoriesWf {s : State} {o : HomeOp} (hs : s.memoriesWf = true) :
    (s.performOp o).memoriesWf = true := by
  unfold State.performOp
  grind -ring -linarith -lia [State.memoriesWf, onWarp_memoriesWf, perform_memoriesWf, useL2_memoriesWf, invalidateAll_memoriesWf,
    claim_memoriesWf, performLeaf_memoriesWf, classAccess_memoriesWf, performHead_memoriesWf, performArrival_memoriesWf]

theorem performLine_memoriesWf {s : State} {line : Nat} (hs : s.memoriesWf = true) :
    (s.performLine line).memoriesWf = true := by
  unfold State.performLine
  grind -ring -linarith -lia [State.memoriesWf, foldl_memoriesWf, claim_memoriesWf, performOp_memoriesWf]

theorem sendOps_memoriesWf {s : State} {m : Mask} {store : Bool} {recId size : Nat} {fn : AtomFn} {va b c : Nat → DWord}
    (hs : s.memoriesWf = true) :
    (s.sendOps m store recId size fn va b c).memoriesWf = true := by
  unfold State.sendOps
  grind -ring -linarith -lia [State.memoriesWf, foldl_memoriesWf, onWarp_memoriesWf, touch_memoriesWf, classAccess_memoriesWf,
    dropAnnex_memoriesWf]

theorem stepOne_memoriesWf {s : State} {m : Mask} {size : Nat} {poison : Bool} {va : Nat → DWord} (hs : s.memoriesWf = true) :
    (s.stepOne m size poison va).2.memoriesWf = true :=
  takeAll_memoriesWf hs

theorem atomic_memoriesWf {s : State} {p : Pre} {wide : Bool} {d a : Reg} {fn : AtomFn} {b c : Nat → DWord} (hs : s.memoriesWf = true) :
    (s.atomic p wide d a fn b c).memoriesWf = true := by
  unfold State.atomic
  grind -ring -linarith -lia [onWarp_memoriesWf, holdSlot_memoriesWf, irrevocably_memoriesWf, sendOps_memoriesWf, stepOne_memoriesWf]

theorem execAtom_memoriesWf {p : Pre} {op : AtomOp} {ty : Ty} {d a b : Reg} {s : State} {t : State} (hs : s.memoriesWf = true)
    (ht : execAtom p op ty d a b s = .next t) :
    t.memoriesWf = true := by
  cases ht
  exact atomic_memoriesWf hs

theorem execCas_memoriesWf {p : Pre} {wide : Bool} {d a b c : Reg} {s : State} {t : State} (hs : s.memoriesWf = true)
    (ht : execCas p wide d a b c s = .next t) :
    t.memoriesWf = true := by
  cases ht
  exact atomic_memoriesWf hs

theorem execRed_memoriesWf {p : Pre} {op : RedOp} {ty : Ty} {a b : Reg} {s : State} {t : State} (hs : s.memoriesWf = true)
    (ht : execRed p op ty a b s = .next t) :
    t.memoriesWf = true := by
  unfold execRed at ht
  grind -ring -linarith -lia [onWarp_memoriesWf, holdSlot_memoriesWf, irrevocably_memoriesWf, sendOps_memoriesWf, stepOne_memoriesWf]

/-! ### The operations of Machine/Queue -/

theorem sharedRes_memoriesWf {s : State} {ctr : Ctr} {dst : Reg} {words : Nat} {m : Mask} (hs : s.memoriesWf = true) :
    (s.sharedRes ctr dst words m).2.memoriesWf = true := by
  unfold State.sharedRes
  grind -ring -linarith -lia [State.memoriesWf, setWarp_memoriesWf]

theorem setQueue_memoriesWf {s : State} {gid n : Nat} {q : Queue} (hs : s.memoriesWf = true) :
    (s.setQueue gid n q).memoriesWf = true :=
  hs

theorem judgeSegs_memoriesWf {s : State} {m : Mask} {f : State → Seg → Option Raise} (hs : s.memoriesWf = true) :
    (s.judgeSegs m f).2.memoriesWf = true :=
  takeAll_memoriesWf hs

theorem runTurns_memoriesWf {s : State} {m : Mask} {act : State → Seg → Option State}
    (hact : ∀ (u : State) g v, u.memoriesWf = true → act u g = some v → v.memoriesWf = true) {gs : List Seg} (hs : s.memoriesWf = true) :
    (s.runTurns m act gs).2.memoriesWf = true := by
  induction gs generalizing s with
  | nil => exact hs
  | cons g rest ih =>
    unfold State.runTurns
    split
    · exact ih hs
    · split
      · exact holdSlot_memoriesWf hs
      · next v hv => exact ih (onWarp_memoriesWf (hact s g v hs hv))

theorem execQpush_memoriesWf {p : Pre} {a b : Reg} {s t : State} (hs : s.memoriesWf = true) (ht : execQpush p a b s = .next t) :
    t.memoriesWf = true := by
  unfold execQpush at ht
  cases ht
  dsimp only
  split
  · exact hs
  split
  · exact holdSlot_memoriesWf hs
  refine irrevocably_memoriesWf hs fun u hu => ?_
  grind -ring -linarith -lia [runTurns_memoriesWf, setQueue_memoriesWf, onWarp_memoriesWf, judgeSegs_memoriesWf]

theorem execQpop_memoriesWf {p : Pre} {a b : Reg} {s t : State} (hs : s.memoriesWf = true) (ht : execQpop p a b s = .next t) :
    t.memoriesWf = true := by
  unfold execQpop at ht
  cases ht
  dsimp only
  split
  · exact hs
  split
  · exact holdSlot_memoriesWf hs
  refine irrevocably_memoriesWf hs fun u hu => ?_
  grind -ring -linarith -lia [runTurns_memoriesWf, setQueue_memoriesWf, onWarp_memoriesWf, judgeSegs_memoriesWf, sharedRes_memoriesWf]

theorem execQtry_memoriesWf {p : Pre} {pop : Bool} {a b c : Reg} {s t : State} (hs : s.memoriesWf = true)
    (ht : execQtry p pop a b c s = .next t) :
    t.memoriesWf = true := by
  unfold execQtry at ht
  cases ht
  dsimp only
  split
  · exact hs
  split
  · exact holdSlot_memoriesWf hs
  refine irrevocably_memoriesWf hs fun u hu => ?_
  grind -ring -linarith -lia [foldl_fst_memoriesWf, setQueue_memoriesWf, onWarp_memoriesWf, judgeSegs_memoriesWf]

theorem setIntake_memoriesWf {s : State} {die : Nat} {l : List Intake} (hs : s.memoriesWf = true) :
    (s.setIntake die l).memoriesWf = true :=
  hs

theorem addIntake_memoriesWf {s : State} {die l prio units : Nat} {relaunch : Option (Nat × Nat)} (hs : s.memoriesWf = true) :
    (s.addIntake die l prio units relaunch).memoriesWf = true :=
  hs

theorem makeReady_memoriesWf {s : State} {key : Nat} {t : Task} (hs : s.memoriesWf = true) :
    (s.makeReady key t).memoriesWf = true := by
  unfold State.makeReady
  grind -ring -linarith -lia [State.memoriesWf, fresh_memoriesWf, post_memoriesWf, addIntake_memoriesWf]

theorem setCtr_memoriesWf {s : State} {key : Nat} {v : Word} (hs : s.memoriesWf = true) :
    (s.setCtr key v).memoriesWf = true := by
  unfold State.setCtr
  grind -ring -linarith -lia [State.memoriesWf, foldl_memoriesWf, makeReady_memoriesWf]

theorem enqueue_memoriesWf {s : State} {l : Nat} {va : DWord} {id : Word} (hs : s.memoriesWf = true) :
    (s.enqueue l va id).memoriesWf = true := by
  unfold State.enqueue
  grind -ring -linarith -lia [State.memoriesWf, makeReady_memoriesWf]

theorem readRecords_memoriesWf {s : State} {w : Nat} {lanes : List Nat} {va : Nat → DWord} (hs : s.memoriesWf = true) :
    (s.readRecords w lanes va).1.memoriesWf = true := by
  unfold State.readRecords
  refine List.foldlRecOn (motive := fun x : State × Bool => x.1.memoriesWf = true) lanes _ hs fun acc h l _ => ?_
  grind -ring -linarith -lia [fill_memoriesWf, touch_memoriesWf, classAccess_memoriesWf]

theorem execEnq_memoriesWf {p : Pre} {a b : Reg} {s : State} {t : State} (hs : s.memoriesWf = true) (ht : execEnq p a b s = .next t) :
    t.memoriesWf = true := by
  unfold execEnq at ht
  cases ht
  dsimp only
  split
  · exact hs
  split
  · exact holdSlot_memoriesWf hs
  refine irrevocably_memoriesWf hs fun u hu => ?_
  grind -ring -linarith -lia [foldl_fst_memoriesWf, onWarp_memoriesWf, takeAll_memoriesWf, holdSlot_memoriesWf, enqueue_memoriesWf,
    readRecords_memoriesWf]

theorem stealSet_memoriesWf {s : State} {key : Nat} (hs : s.memoriesWf = true) :
    (s.stealSet key).memoriesWf = true := by
  unfold State.stealSet
  grind -ring -linarith -lia [State.memoriesWf, foldl_memoriesWf]

theorem execDeq_memoriesWf {p : Pre} {a b : Reg} {s t : State} (hs : s.memoriesWf = true) (ht : execDeq p a b s = .next t) :
    t.memoriesWf = true := by
  unfold execDeq at ht
  cases ht
  dsimp only
  split
  · exact hs
  split
  · exact holdSlot_memoriesWf hs
  refine irrevocably_memoriesWf hs fun u hu => ?_
  grind -ring -linarith -lia [State.memoriesWf, runTurns_memoriesWf, setQueue_memoriesWf, onWarp_memoriesWf, judgeSegs_memoriesWf,
    sharedRes_memoriesWf, stealSet_memoriesWf]

theorem counterOp_memoriesWf {s : State} {p : Pre} {a : Reg} {f : Nat → Word → Option Word} (hs : s.memoriesWf = true) :
    (s.counterOp p a f).memoriesWf = true := by
  unfold State.counterOp
  dsimp only
  split
  · exact hs
  split
  · exact holdSlot_memoriesWf hs
  refine irrevocably_memoriesWf hs fun u hu => ?_
  grind -ring -linarith -lia [setCtr_memoriesWf, onWarp_memoriesWf, foldl_fst_memoriesWf, foldl_memoriesWf, judgeSegs_memoriesWf,
    takeAt_memoriesWf]

theorem execDcset_memoriesWf {p : Pre} {a b : Reg} {s : State} {t : State} (hs : s.memoriesWf = true) (ht : execDcset p a b s = .next t) :
    t.memoriesWf = true := by
  cases ht
  exact counterOp_memoriesWf hs

theorem execDcadd_memoriesWf {p : Pre} {a b : Reg} {s : State} {t : State} (hs : s.memoriesWf = true) (ht : execDcadd p a b s = .next t) :
    t.memoriesWf = true := by
  cases ht
  exact counterOp_memoriesWf hs

/-! ### The operations of Machine/Bulk -/

theorem readTouch_memoriesWf {s : State} {core : Option Nat} {ps : List Piece} (hs : s.memoriesWf = true) :
    (s.readTouch core ps).memoriesWf = true := by
  unfold State.readTouch
  grind -ring -linarith -lia [State.memoriesWf, foldl_memoriesWf, keepXlat_memoriesWf, useL2_memoriesWf, recall_memoriesWf,
    setLeaf_memoriesWf, classify_memoriesWf]

theorem writePiece_memoriesWf {s : State} {p : Piece} {bs : List Byte} {poison : Bool} (hs : s.memoriesWf = true) :
    (s.writePiece p bs poison).memoriesWf = true := by
  unfold State.writePiece
  refine foldl_memoriesWf (fun _ _ hu => hitLoc_memoriesWf hu) ?_
  have hu : ∀ u : State, u.memoriesWf = true →
      ((pieceLines [p]).foldl (fun s l => (s.invalidateAll none l 1000).useL2 l .none) u).memoriesWf = true :=
    fun _ hu => foldl_memoriesWf (fun _ _ hv => useL2_memoriesWf (invalidateAll_memoriesWf hv)) hu
  have hx : (match p.xlat with
      | some x => ((s.keepXlat x).setLeaf none x 0x300).classify none none x
      | none => s).memoriesWf = true := by
    split
    · exact classify_memoriesWf (setLeaf_memoriesWf (keepXlat_memoriesWf hs))
    · exact hs
  obtain ⟨hmem, hspad, hrest⟩ := memoriesWf_iff.1 (hu _ hx)
  dsimp only
  split
  · exact memoriesWf_iff.2 ⟨memory_putAll_wf _ _ _ hmem, hspad, hrest⟩
  · exact memoriesWf_iff.2 ⟨hmem, memory_putAll_wf _ _ _ hspad, hrest⟩

theorem writePieces_memoriesWf {s : State} {poison : Bool} {ps : List Piece} {bs : List Byte} (hs : s.memoriesWf = true) :
    (s.writePieces poison ps bs).memoriesWf = true := by
  induction ps generalizing s bs with
  | nil => exact hs
  | cons p ps ih => exact ih (writePiece_memoriesWf hs)

theorem pick_memoriesWf {α : Type} {s : State} {l : List α} (hs : s.memoriesWf = true) :
    (s.pick l).2.memoriesWf = true := by
  unfold State.pick
  grind -ring -linarith -lia [State.memoriesWf]

/-! ### The operations of Machine/Gallery -/

theorem evict_memoriesWf {s : State} {g : Nat} (hs : s.memoriesWf = true) :
    (s.evict g).memoriesWf = true :=
  hs

theorem zeroSpad_memoriesWf {s : State} {core base n : Nat} (hs : s.memoriesWf = true) :
    (s.zeroSpad core base n).memoriesWf = true := by
  obtain ⟨hmem, hspad, hrest⟩ := memoriesWf_iff.1 hs
  exact memoriesWf_iff.2 ⟨hmem, memory_filter_wf hspad, hrest⟩

theorem attach_memoriesWf {s : State} {gid g : Nat} (hs : s.memoriesWf = true) :
    (s.attach gid g).memoriesWf = true := by
  unfold State.attach
  grind -ring -linarith -lia [State.memoriesWf]

theorem detach_memoriesWf {s : State} {gid : Nat} {name : DWord} (hs : s.memoriesWf = true) :
    (s.detach gid name).memoriesWf = true := by
  unfold State.detach
  grind -ring -linarith -lia [State.memoriesWf, fresh_memoriesWf]

theorem detachAll_memoriesWf {s : State} {gid : Nat} (hs : s.memoriesWf = true) :
    (s.detachAll gid).memoriesWf = true :=
  foldl_memoriesWf (fun _ _ hu => detach_memoriesWf hu) hs

theorem freeGals_memoriesWf {s : State} {ctx : Nat} (hs : s.memoriesWf = true) :
    (s.freeGals ctx).memoriesWf = true := by
  unfold State.freeGals
  grind -ring -linarith -lia [State.memoriesWf, foldl_memoriesWf, unhold_memoriesWf, unclaim_memoriesWf, zeroSpad_memoriesWf]

theorem awaitGal_memoriesWf {s : State} {g w lb : Nat} {free : Bool} (hs : s.memoriesWf = true) :
    (s.awaitGal g w lb free).memoriesWf = true :=
  hs

theorem takeUp_memoriesWf {s : State} {g w lb : Nat} (hs : s.memoriesWf = true) :
    (s.takeUp g w lb).memoriesWf = true :=
  hs

theorem dropWaits_memoriesWf {s : State} {w lb : Nat} (hs : s.memoriesWf = true) :
    (s.dropWaits w lb).memoriesWf = true :=
  hs

theorem startFill_memoriesWf {s : State} {g core : Nat} (hs : s.memoriesWf = true) :
    (s.startFill g core).memoriesWf = true := by
  unfold State.startFill
  grind -ring -linarith -lia [State.memoriesWf, onCore_memoriesWf]

theorem wantOn_memoriesWf {s : State} {g core : Nat} (hs : s.memoriesWf = true) :
    (s.wantOn g core).memoriesWf = true := by
  unfold State.wantOn
  grind -ring -linarith -lia [State.memoriesWf, foldl_memoriesWf, evict_memoriesWf, startFill_memoriesWf]

theorem galTurns_memoriesWf {s : State} {m : Mask} {judge : State → Seg → Option Raise} {act : State → Seg → Bool × State}
    (hact : ∀ u g, u.memoriesWf = true → (act u g).2.memoriesWf = true) {gs : List Seg} (hs : s.memoriesWf = true) :
    (s.galTurns m judge act gs).2.memoriesWf = true := by
  induction gs generalizing s with
  | nil => exact hs
  | cons g rest ih =>
    unfold State.galTurns
    split
    · exact ih hs
    · split
      · exact ih (takeAt_memoriesWf (dropWaits_memoriesWf hs))
      · have ha := hact s g hs
        split
        · next v hv => exact holdSlot_memoriesWf (by rw [hv] at ha; exact ha)
        · next v hv => exact ih (onWarp_memoriesWf (by rw [hv] at ha; exact ha))

theorem galIssued_memoriesWf {s : State} {c : Ctr} (hs : s.memoriesWf = true) :
    (s.galIssued c).memoriesWf = true := by
  unfold State.galIssued
  grind -ring -linarith -lia [State.memoriesWf, onWarp_memoriesWf]

theorem galStore_memoriesWf {s : State} {p : Pre} {judge : State → Mask → Seg → Option Raise} {act : State → Mask → Seg → Bool × State}
    (hact : ∀ u m g, u.memoriesWf = true → (act u m g).2.memoriesWf = true) (hs : s.memoriesWf = true) :
    (s.galStore p judge act).memoriesWf = true := by
  unfold State.galStore
  grind -ring -linarith -lia [irrevocably_memoriesWf, holdSlot_memoriesWf, galTurns_memoriesWf, galIssued_memoriesWf]

theorem execGmake_memoriesWf {p : Pre} {a b c : Reg} {s : State} {t : State} (hs : s.memoriesWf = true)
    (ht : execGmake p a b c s = .next t) :
    t.memoriesWf = true := by
  cases ht
  exact galStore_memoriesWf (fun _ _ _ hu => memoriesWf_congr (fresh_memoriesWf hu) rfl rfl rfl rfl rfl) hs

theorem execGdet_memoriesWf {p : Pre} {a : Reg} {s : State} {t : State} (hs : s.memoriesWf = true) (ht : execGdet p a s = .next t) :
    t.memoriesWf = true := by
  cases ht
  refine galStore_memoriesWf (fun u m g hu => ?_) hs
  dsimp only
  split
  · exact detach_memoriesWf hu
  split
  · exact hu
  · exact detach_memoriesWf hu

theorem execGfree_memoriesWf {p : Pre} {a : Reg} {s : State} {t : State} (hs : s.memoriesWf = true) (ht : execGfree p a s = .next t) :
    t.memoriesWf = true := by
  cases ht
  refine galStore_memoriesWf (fun u m g hu => ?_) hs
  split
  · exact hu
  split
  · exact awaitGal_memoriesWf hu
  · exact memoriesWf_congr hu rfl rfl rfl rfl rfl

theorem attTurn_memoriesWf {s : State} {g : Seg} {m : Mask} {d : Reg} {all : Mask} {name : DWord} (hs : s.memoriesWf = true) :
    (s.attTurn g m d all name).2.memoriesWf = true := by
  unfold State.attTurn
  grind -ring -linarith -lia [State.memoriesWf, onWarp_memoriesWf, sharedRes_memoriesWf, attach_memoriesWf, awaitGal_memoriesWf,
    takeUp_memoriesWf, wantOn_memoriesWf]

theorem execGatt_memoriesWf {p : Pre} {d a : Reg} {s : State} {t : State} (hs : s.memoriesWf = true) (ht : execGatt p d a s = .next t) :
    t.memoriesWf = true := by
  unfold execGatt at ht
  cases ht
  dsimp only
  split
  · exact hs
  split
  · exact holdSlot_memoriesWf hs
  refine irrevocably_memoriesWf hs fun u hu => ?_
  grind -ring -linarith -lia [galTurns_memoriesWf, galIssued_memoriesWf, attTurn_memoriesWf]

theorem execGalleryFillComplete_memoriesWf {g : Nat} {s : State} {t : State} (hs : s.memoriesWf = true)
    (ht : execGalleryFillComplete g s = .next t) :
    t.memoriesWf = true := by
  unfold execGalleryFillComplete at ht
  grind -ring -linarith -lia +splitImp [State.memoriesWf, foldl_memoriesWf, memory_putAll_wf, readTouch_memoriesWf, attach_memoriesWf]

theorem execGalleryWritebackComplete_memoriesWf {g : Nat} {s t : State} (hs : s.memoriesWf = true)
    (ht : execGalleryWritebackComplete g s = .next t) : t.memoriesWf = true := by
  unfold execGalleryWritebackComplete at ht
  cases ht
  split
  · exact hs
  next e _ =>
  split
  · exact hs
  split
  · exact hs
  next ps _ =>
  have hg := gainLines_memoriesWf (die := e.core / 256) (c := .gallery g) (lines := pieceLines ps) hs
  generalize s.gainLines (e.core / 256) (.gallery g) (pieceLines ps) = x at hg
  obtain ⟨u, all⟩ := x
  dsimp only
  split
  · exact hg
  have hpost : ∀ (bad : List Nat) (v : State), v.memoriesWf = true → (bad.foldl (fun s g => s.postIdle (e.core / 256) g) v).memoriesWf
    = true :=
    fun _ _ hv => foldl_memoriesWf (fun _ _ hu => postIdle_memoriesWf hu) hv
  split
  · exact wantOn_memoriesWf (hpost _ _ (writePieces_memoriesWf (unclaim_memoriesWf hg)))
  · exact hpost _ _ (writePieces_memoriesWf (unclaim_memoriesWf hg))

theorem execGalleryEviction_memoriesWf {g : Nat} {s : State} {t : State} (hs : s.memoriesWf = true)
    (ht : execGalleryEviction g s = .next t) :
    t.memoriesWf = true := by
  unfold execGalleryEviction at ht
  grind -ring -linarith -lia [State.memoriesWf, evict_memoriesWf]

theorem galFault_memoriesWf {s : State} {g : Nat} {st : GalSt} {acc : Access} {code : Nat} (hs : s.memoriesWf = true) :
    (s.galFault g st acc code).memoriesWf = true := by
  unfold State.galFault
  grind -ring -linarith -lia [State.memoriesWf, post_memoriesWf, hold_memoriesWf, met_memoriesWf]

/-! ### The operations of Machine/Matrix -/

theorem markOutside_memoriesWf {s : State} (hs : s.memoriesWf = true) :
    (s.markOutside).memoriesWf = true := by
  unfold State.markOutside
  grind -ring -linarith -lia [onWarp_memoriesWf]

theorem tileOp_memoriesWf {s : State} {w t : Nat} {op : TileOp} (hs : s.memoriesWf = true) :
    (s.tileOp w t op).memoriesWf = true := by
  unfold State.tileOp
  grind -ring -linarith -lia [State.memoriesWf, onWarp_memoriesWf, onTile_memoriesWf, markOutside_memoriesWf]

theorem accEach_memoriesWf {s : State} {p : Pre} {a : Reg} {b : Option Reg} {op : Warp → Seg → Mask → TileOp} (hs : s.memoriesWf = true) :
    (s.accEach p a b op).memoriesWf = true := by
  unfold State.accEach
  grind -ring -linarith -lia [State.memoriesWf, foldl_memoriesWf, takeAt_memoriesWf, holdSlot_memoriesWf, tileOp_memoriesWf]

theorem execAccwr_memoriesWf {p : Pre} {a b c : Reg} {s : State} {t : State} (hs : s.memoriesWf = true)
    (ht : execAccwr p a b c s = .next t) :
    t.memoriesWf = true := by
  cases ht
  exact accEach_memoriesWf hs

theorem execAccrd_memoriesWf {p : Pre} {ty : Ty} {d a b : Reg} {s : State} {t : State} (hs : s.memoriesWf = true)
    (ht : execAccrd p ty d a b s = .next t) :
    t.memoriesWf = true := by
  unfold execAccrd at ht
  grind -ring -linarith -lia [State.memoriesWf, foldl_memoriesWf, onWarp_memoriesWf, holdSlot_memoriesWf, onTile_memoriesWf,
    judgeSegs_memoriesWf, markOutside_memoriesWf]

theorem setLanding_memoriesWf {s : State} {core n : Nat} {d : Landing} (hs : s.memoriesWf = true) :
    (s.setLanding core n d).memoriesWf = true :=
  hs

theorem sign_memoriesWf {s : State} {g : Seg} {m : Mask} {cell n : Nat} {tile : Bool} {sel : Nat} {a b c k : Reg}
    (hs : s.memoriesWf = true) :
    (s.sign g m cell n tile sel a b c k).memoriesWf = true := by
  unfold State.sign
  dsimp only
  split
  · exact takeAt_memoriesWf hs
  · exact takeAt_memoriesWf hs
  · exact takeAt_memoriesWf hs
  · grind -ring -linarith -lia [holdSlot_memoriesWf, markOutside_memoriesWf, setLanding_memoriesWf, fresh_memoriesWf]

theorem mma_memoriesWf {s : State} {p : Pre} {cell : Nat} {n : BitVec 3} {tile : Bool} {sel : BitVec 2} {a b c k : Reg}
    (hs : s.memoriesWf = true) :
    (s.mma p cell n tile sel a b c k).memoriesWf = true :=
  foldl_memoriesWf (fun _ _ hu => sign_memoriesWf hu) hs

theorem completeLanding_memoriesWf {s : State} {core n : Nat} (hs : s.memoriesWf = true) :
    (s.completeLanding core n).memoriesWf = true := by
  unfold State.completeLanding
  grind -ring -linarith -lia [State.memoriesWf, foldl_memoriesWf, setLanding_memoriesWf]

theorem issueLanding_memoriesWf {s : State} {core n gi gj : Nat} (hs : s.memoriesWf = true) :
    (s.issueLanding core n gi gj).memoriesWf = true := by
  unfold State.issueLanding
  grind -ring -linarith -lia [State.memoriesWf, fresh_memoriesWf, onTile_memoriesWf, setLanding_memoriesWf, mma_memoriesWf]

theorem execLandingIssue_memoriesWf {core n : Nat} {s : State} {t : State} (hs : s.memoriesWf = true)
    (ht : execLandingIssue core n s = .next t) :
    t.memoriesWf = true := by
  unfold execLandingIssue at ht
  grind -ring -linarith -lia [State.memoriesWf, completeLanding_memoriesWf, issueLanding_memoriesWf]

theorem gangIssue_memoriesWf {s : State} {n : Nat} {ms : List (Nat × Group)} (hs : s.memoriesWf = true) :
    (s.gangIssue n ms).memoriesWf = true := by
  unfold State.gangIssue
  grind -ring -linarith -lia [State.memoriesWf, foldl_memoriesWf, defer_memoriesWf, setLanding_memoriesWf, completeLanding_memoriesWf,
    issueLanding_memoriesWf]

theorem execGangLandingIssue_memoriesWf {u n : Nat} {s : State} {t : State} (hs : s.memoriesWf = true)
    (ht : execGangLandingIssue u n s = .next t) :
    t.memoriesWf = true := by
  unfold execGangLandingIssue at ht
  grind -ring -linarith -lia [foldl_memoriesWf, gangIssue_memoriesWf]

theorem onOp_memoriesWf {s : State} {core order : Nat} {f : MmaOp → MmaOp} (hs : s.memoriesWf = true) :
    (s.onOp core order f).memoriesWf = true :=
  hs

theorem opRead_memoriesWf {s : State} {core : Nat} {op : MmaOp} {o : OpRead} (hs : s.memoriesWf = true) :
    (s.opRead core op o).memoriesWf = true := by
  unfold State.opRead
  grind -ring -linarith -lia [State.memoriesWf, foldl_memoriesWf, onCore_memoriesWf, post_memoriesWf, readTouch_memoriesWf, onOp_memoriesWf]

theorem badRecord_memoriesWf {s : State} {op : MmaOp} {fld : Nat} (hs : s.memoriesWf = true) :
    (s.badRecord op fld).memoriesWf = true := by
  unfold State.badRecord
  grind -ring -linarith -lia [State.memoriesWf, foldl_memoriesWf, onCore_memoriesWf, defer_memoriesWf, mma_memoriesWf]

theorem tileHead_memoriesWf {s : State} {core tile : Nat} {t : State} (hs : s.memoriesWf = true) (ht : s.tileHead core tile = some t) :
    t.memoriesWf = true := by
  unfold State.tileHead at ht
  grind -ring -linarith -lia [State.memoriesWf, foldl_memoriesWf, onWarp_memoriesWf, onTile_memoriesWf, countDrop_memoriesWf,
    mma_memoriesWf, badRecord_memoriesWf]

theorem execMmaTileWrite_memoriesWf {core tile : Nat} {s : State} {t : State} (hs : s.memoriesWf = true)
    (ht : execMmaTileWrite core tile s = .next t) :
    t.memoriesWf = true := by
  unfold execMmaTileWrite at ht
  grind -ring -linarith -lia [State.memoriesWf, pick_memoriesWf, opRead_memoriesWf, tileHead_memoriesWf]

/-! ### The operations of Machine/Engine -/

theorem addCmd_memoriesWf {s : State} {c : Cmd} (hs : s.memoriesWf = true) :
    (s.addCmd c).memoriesWf = true :=
  hs

theorem releaseInsn_memoriesWf {s : State} {insn : Nat} (hs : s.memoriesWf = true) :
    (s.releaseInsn insn).memoriesWf = true :=
  foldl_memoriesWf (fun _ _ hu => releaseCmd_memoriesWf hu) hs

theorem engine_memoriesWf {s : State} {p : Pre} {cell : Nat} {acq rel : Bool} {d a : Reg} (hs : s.memoriesWf = true) :
    (s.engine p cell acq rel d a).memoriesWf = true := by
  unfold State.engine
  grind -ring -linarith -lia [State.memoriesWf, foldl_memoriesWf, onWarp_memoriesWf, holdSlot_memoriesWf, judgeSegs_memoriesWf,
    markOutside_memoriesWf, addCmd_memoriesWf, releaseInsn_memoriesWf]

theorem execEwait_memoriesWf {p : Pre} {a : Reg} {s : State} {t : State} (hs : s.memoriesWf = true) (ht : execEwait p a s = .next t) :
    t.memoriesWf = true := by
  unfold execEwait at ht
  grind -ring -linarith -lia [foldl_memoriesWf, onWarp_memoriesWf, openWindow_memoriesWf, holdSlot_memoriesWf, markOutside_memoriesWf]

theorem jobDone_memoriesWf {s : State} {j : Option Nat} {failed : Bool} (hs : s.memoriesWf = true) :
    (s.jobDone j failed).memoriesWf = true := by
  unfold State.jobDone
  grind -ring -linarith -lia [State.memoriesWf]

theorem endCmd_memoriesWf {s : State} {n : Nat} {failed : Bool} (hs : s.memoriesWf = true) :
    (s.endCmd n failed).memoriesWf = true := by
  unfold State.endCmd
  grind -ring -linarith -lia [State.memoriesWf, unhold_memoriesWf, unclaim_memoriesWf, setToken_memoriesWf, jobDone_memoriesWf]

theorem failCmd_memoriesWf {s : State} {n : Nat} {code : Nat} {detail : Word} {addr : DWord} (hs : s.memoriesWf = true) :
    (s.failCmd n code detail addr).memoriesWf = true := by
  unfold State.failCmd
  grind -ring -linarith -lia [State.memoriesWf, post_memoriesWf, defer_memoriesWf, endCmd_memoriesWf]

theorem engError_memoriesWf {s : State} {n : Nat} {desc : Bool} {e : XErr} (hs : s.memoriesWf = true) :
    (s.engError n desc e).memoriesWf = true := by
  unfold State.engError
  grind -ring -linarith -lia [State.memoriesWf, post_memoriesWf, hold_memoriesWf, met_memoriesWf, failCmd_memoriesWf]

theorem postPoison_memoriesWf {s : State} {c : Cmd} {a : Option DWord} (hs : s.memoriesWf = true) :
    (s.postPoison c a).memoriesWf = true := by
  unfold State.postPoison
  grind -ring -linarith -lia [State.memoriesWf, post_memoriesWf]

theorem engWrite_memoriesWf {s : State} {c : Cmd} {p : Plan} {pos : Nat} {x : Piece} (hs : s.memoriesWf = true) :
    (s.engWrite c p pos x).memoriesWf = true :=
  foldl_memoriesWf (fun _ _ hu => writePieces_memoriesWf hu) hs

theorem engPerform_memoriesWf {s : State} {n : Nat} {c : Cmd} {p : Plan} {ev : EngEvent} (hs : s.memoriesWf = true) :
    (s.engPerform n c p ev).memoriesWf = true := by
  unfold State.engPerform
  grind -ring -linarith -lia [State.memoriesWf, foldl_memoriesWf, claim_memoriesWf, readTouch_memoriesWf, engError_memoriesWf,
    postPoison_memoriesWf, engWrite_memoriesWf]

theorem engSettle_memoriesWf {s : State} {n : Nat} {p : Plan} (hs : s.memoriesWf = true) :
    (s.engSettle n p).memoriesWf = true :=
  hs

theorem engStep_memoriesWf {s : State} {n : Nat} {c : Cmd} {d : BitVec 512} {p : Plan} (hs : s.memoriesWf = true) :
    (s.engStep n c d p).memoriesWf = true := by
  have hclaim : ∀ (die : Nat) (ls : List Nat) (u : State), u.memoriesWf = true →
      (ls.foldl (fun s l => if s.lineReady l || s.wrapHeld die (.hbm (l * 128)) then s else s.claim die (.cmd n) l) u).memoriesWf = true :=
    fun die ls u hu => foldl_memoriesWf (fun v l hv => by split <;> [exact hv; exact claim_memoriesWf hv]) hu
  unfold State.engStep
  dsimp only
  split
  · exact hs
  split
  · exact hs
  split
  · exact engError_memoriesWf hs
  · split
    · next u hp => exact engPerform_memoriesWf (memoriesWf_of_snd hp (pick_memoriesWf (hclaim _ _ _ hs)))
    · next u hp => exact memoriesWf_of_snd hp (pick_memoriesWf (hclaim _ _ _ hs))

theorem runPlan_memoriesWf {s : State} {n : Nat} {c : Cmd} {d : BitVec 512} {p : Plan} (hs : s.memoriesWf = true) :
    (s.runPlan n c d p).memoriesWf = true :=
  engStep_memoriesWf hs

theorem stage_memoriesWf {s : State} {n : Nat} {bs : List Byte} {bad : List (Nat × Nat)} (hs : s.memoriesWf = true) :
    (s.stage n bs bad).memoriesWf = true :=
  hs

theorem runGather_memoriesWf {s : State} {n : Nat} {c : Cmd} {d : BitVec 512} (hs : s.memoriesWf = true) :
    (s.runGather n c d).memoriesWf = true := by
  unfold State.runGather
  grind -ring -linarith -lia [State.memoriesWf, failCmd_memoriesWf, engError_memoriesWf, engStep_memoriesWf, runPlan_memoriesWf,
    stage_memoriesWf]

theorem oddColl_memoriesWf {s : State} {c : Cmd} {cid : Word} {pod : Bool} {all here : List Nat} (hs : s.memoriesWf = true) :
    (s.oddColl c cid pod all here).memoriesWf = true := by
  unfold State.oddColl
  grind -ring -linarith -lia [State.memoriesWf]

theorem tellOdd_memoriesWf {s : State} {ctx fn : Nat} {cid : Word} {pod : Bool} {k : Nat} (hs : s.memoriesWf = true) :
    (s.tellOdd ctx fn cid pod k).2.memoriesWf = true := by
  unfold State.tellOdd
  grind -ring -linarith -lia [State.memoriesWf]

theorem dropOddPeers_memoriesWf {s : State} {c : Cmd} {cid : Word} (hs : s.memoriesWf = true) :
    (s.dropOddPeers c cid).memoriesWf = true := by
  unfold State.dropOddPeers
  grind -ring -linarith -lia [State.memoriesWf, foldl_memoriesWf, tellOdd_memoriesWf]

theorem linkFatal_memoriesWf {s : State} {n : Nat} {c : Cmd} (hs : s.memoriesWf = true) :
    (s.linkFatal n c).memoriesWf = true :=
  post_memoriesWf hs

theorem runColl_memoriesWf {s : State} {n : Nat} {c : Cmd} {d : BitVec 512} (hs : s.memoriesWf = true) :
    (s.runColl n c d).memoriesWf = true := by
  have hstage : ∀ (now : List (Nat × Cmd × BitVec 512)) bs bad (u : State), u.memoriesWf = true →
      (now.foldl (fun s x => s.stage x.1 bs bad) u).memoriesWf = true := fun _ _ _ _ hu => foldl_memoriesWf
        (fun _ _ hv => stage_memoriesWf hv) hu
  have hfail : ∀ (ms : List (Nat × Cmd × BitVec 512)) (u : State), u.memoriesWf = true →
      (ms.foldl (fun s x => s.failCmd x.1 0x97 x.2.1.seq 0) u).memoriesWf = true := fun _ _ hu => foldl_memoriesWf
        (fun _ _ hv => failCmd_memoriesWf hv) hu
  have hodd : (if decide (fieldN d 258 256 = 5) = true then (false,
    s.dropOddPeers c (field d 191 160)) else s.tellOdd c.ctx c.fn (field d 191 160) false c.die).2.memoriesWf = true := by
    split
    · exact dropOddPeers_memoriesWf hs
    · exact tellOdd_memoriesWf hs
  have hgone : ∀ (u : State) ps, u.memoriesWf = true → ({ u with peers := ps } : State).memoriesWf = true :=
    fun u ps hu => memoriesWf_congr hu rfl rfl rfl rfl rfl
  unfold State.runColl
  dsimp only
  split
  · exact failCmd_memoriesWf hs
  · exact runPlan_memoriesWf hs
  · split
    · next ho => exact failCmd_memoriesWf (memoriesWf_of_snd ho hodd)
    next u ho =>
    have hu := memoriesWf_of_snd ho hodd
    clear ho hodd
    split
    · exact hu
    split
    · exact hfail _ _ (oddColl_memoriesWf hu)
    split
    · exact failCmd_memoriesWf (hgone _ _ (oddColl_memoriesWf hu))
    split
    · exact failCmd_memoriesWf hu
    · exact engError_memoriesWf hu
    have he := engStep_memoriesWf (n := n) (c := c) (d := d) (p := Plan.toRead (fieldN d 63 0, 4 * fieldN d 159 128)) hu
    exact ite_memoriesWf (ite_memoriesWf (linkFatal_memoriesWf hu) hu) (ite_memoriesWf (hstage _ _ _ _ (hgone _ _ he)) he)

theorem descAgain_memoriesWf {s : State} {n : Nat} {c : Cmd} (hs : s.memoriesWf = true) :
    (s.descAgain n c).memoriesWf = true := by
  unfold State.descAgain
  grind -ring -linarith -lia [State.memoriesWf, fetchDesc_memoriesWf, engError_memoriesWf]

theorem execEngineCommandRun_memoriesWf {n : Nat} {s : State} {t : State} (hs : s.memoriesWf = true)
    (ht : execEngineCommandRun n s = .next t) :
    t.memoriesWf = true := by
  unfold execEngineCommandRun at ht
  grind -ring -linarith -lia [State.memoriesWf, failCmd_memoriesWf, runPlan_memoriesWf, runGather_memoriesWf, runColl_memoriesWf,
    descAgain_memoriesWf]

theorem execEngineCompletion_memoriesWf {n : Nat} {s : State} {t : State} (hs : s.memoriesWf = true)
    (ht : execEngineCompletion n s = .next t) :
    t.memoriesWf = true := by
  unfold execEngineCompletion at ht
  grind -ring -linarith -lia [State.memoriesWf, setToken_memoriesWf, endCmd_memoriesWf]

/-! ### The operations of Machine/System -/

theorem system_memoriesWf {s : State} {m : Mask} {act : State → Mask → State} (hs : s.memoriesWf = true) (hf0 : ∀ (u : State) m,
    u.memoriesWf = true → (act u m).memoriesWf = true) :
    (s.system m act).memoriesWf = true := by
  unfold State.system
  grind -ring -linarith -lia [onWarp_memoriesWf, takeAll_memoriesWf, holdSlot_memoriesWf]

theorem logOwn_memoriesWf {s : State} {g : Seg} {code : Nat} (hs : s.memoriesWf = true) :
    (s.logOwn g code).memoriesWf = true :=
  post_memoriesWf hs

theorem execRtt_memoriesWf {p : Pre} {s : State} {t : State} (hs : s.memoriesWf = true) (ht : execRtt p s = .next t) :
    t.memoriesWf = true := by
  unfold execRtt at ht
  grind -ring -linarith -lia [State.memoriesWf, foldl_memoriesWf, onWarp_memoriesWf, announce_memoriesWf, takeAt_memoriesWf,
    logOwn_memoriesWf]

theorem wakePorter_memoriesWf {s : State} {die : Nat} (hs : s.memoriesWf = true) :
    (s.wakePorter die).memoriesWf = true := by
  unfold State.wakePorter
  grind -ring -linarith -lia [State.memoriesWf, foldl_memoriesWf, onWarp_memoriesWf, onDie_memoriesWf]

theorem execHalt_memoriesWf {p : Pre} {s : State} {t : State} (hs : s.memoriesWf = true) (ht : execHalt p s = .next t) :
    t.memoriesWf = true := by
  unfold execHalt at ht
  grind -ring -linarith -lia [State.memoriesWf, onWarp_memoriesWf, onDie_memoriesWf, system_memoriesWf]

theorem execPorterWake_memoriesWf {die : Nat} {s : State} {t : State} (hs : s.memoriesWf = true) (ht : execPorterWake die s = .next t) :
    t.memoriesWf = true := by
  unfold execPorterWake at ht
  grind -ring -linarith -lia [State.memoriesWf, wakePorter_memoriesWf]

theorem srwrSeg_memoriesWf {s : State} {g : Seg} {sr : Nat} {v : DWord} (hs : s.memoriesWf = true) :
    (s.srwrSeg g sr v).memoriesWf = true := by
  unfold State.srwrSeg
  grind -ring -linarith -lia [State.memoriesWf, onWarp_memoriesWf, logOwn_memoriesWf]

theorem execSrwr_memoriesWf {p : Pre} {wide : Bool} {sr : BitVec 8} {a : Reg} {s : State} {t : State} (hs : s.memoriesWf = true)
    (ht : execSrwr p wide sr a s = .next t) :
    t.memoriesWf = true := by
  unfold execSrwr at ht
  grind -ring -linarith -lia [foldl_memoriesWf, system_memoriesWf, srwrSeg_memoriesWf]

theorem dropLine_memoriesWf {s : State} {w line : Nat} (hs : s.memoriesWf = true) :
    (s.dropLine w line).memoriesWf = true :=
  hs

theorem cleanLine_memoriesWf {s : State} {line : Nat} (hs : s.memoriesWf = true) :
    (s.cleanLine line).memoriesWf = true := by
  unfold State.cleanLine
  grind -ring -linarith -lia [State.memoriesWf, idlePoison_memoriesWf]

theorem flushL2_memoriesWf {s : State} {line : Nat} {stay : Bool} (hs : s.memoriesWf = true) :
    (s.flushL2 line stay).memoriesWf = true :=
  hs

theorem execCache_memoriesWf {p : Pre} {op : CacheOp} {a b : Reg} {off : BitVec 16} {s : State} {t : State}
    (hs : s.memoriesWf = true) (ht : execCache p op a b off s = .next t) :
    t.memoriesWf = true := by
  unfold execCache at ht
  grind -ring -linarith -lia [State.memoriesWf, foldl_memoriesWf, keepXlat_memoriesWf, system_memoriesWf, dropLine_memoriesWf,
    cleanLine_memoriesWf, flushL2_memoriesWf]

theorem execTlbi_memoriesWf {p : Pre} {op : TlbiOp} {a b : Reg} {s : State} {t : State} (hs : s.memoriesWf = true)
    (ht : execTlbi p op a b s = .next t) :
    t.memoriesWf = true := by
  unfold execTlbi at ht
  grind -ring -linarith -lia [State.memoriesWf, foldl_memoriesWf, holdSlot_memoriesWf, system_memoriesWf, logOwn_memoriesWf]

theorem execFence_memoriesWf {p : Pre} {rec : Bool} {s : State} {t : State} (hs : s.memoriesWf = true) (ht : execFence p rec s = .next t) :
    t.memoriesWf = true := by
  unfold execFence at ht
  grind -ring -linarith -lia [State.memoriesWf, onWarp_memoriesWf, onCore_memoriesWf, dropCode_memoriesWf, irrevocably_memoriesWf]

/-! ### The operations of Machine/Retired -/

theorem retire_memoriesWf {s : State} (hs : s.memoriesWf = true) :
    (s.retire).memoriesWf = true := by
  unfold State.retire
  grind -ring -linarith -lia [takeAll_memoriesWf, irrevocably_memoriesWf]

theorem emuWrite_memoriesWf {s : State} {w lb : Nat} {x : SegCause} {m : Mask} {words : Nat} {d : Reg} {f : Nat → Nat → Word}
    (hs : s.memoriesWf = true) :
    (s.emuWrite w lb x m words d f).memoriesWf = true := by
  unfold State.emuWrite
  grind -ring -linarith -lia [State.memoriesWf, foldl_memoriesWf, onWarp_memoriesWf]

theorem emuDone_memoriesWf {s : State} {w lb : Nat} (hs : s.memoriesWf = true) :
    (s.emuDone w lb).memoriesWf = true :=
  announce_memoriesWf hs

theorem emuTold_memoriesWf {s : State} {w lb : Nat} (hs : s.memoriesWf = true) :
    (s.emuTold w lb).memoriesWf = true :=
  hs

def Emu.MemoriesWf (e : Emu) : Prop := ∀ t, e = .ok t → t.memoriesWf = true

theorem ok_memoriesWf {u : State} (hu : u.memoriesWf = true) : Emu.MemoriesWf (.ok u) := fun _ h => by cases h; exact hu

theorem error_memoriesWf {r : Raise} : Emu.MemoriesWf (.error r) := fun _ h => by cases h

theorem emuAccess_memoriesWf {s : State} {w : Nat} {g : Seg} {m : Mask} {size : Nat} {acc : Access} {ea : Nat → DWord}
    {act : State → Nat → Loc → State} {done : State → State} (hs : s.memoriesWf = true)
    (hact : ∀ u l loc, u.memoriesWf = true → (act u l loc).memoriesWf = true) (hdone : ∀ u : State,
      u.memoriesWf = true → (done u).memoriesWf = true) :
    Emu.MemoriesWf (s.emuAccess w g m size acc ea act done) := by
  unfold State.emuAccess
  dsimp only
  split
  · exact error_memoriesWf
  · exact ok_memoriesWf (emuTold_memoriesWf (hdone _ (foldl_memoriesWf (fun _ _ hu => hact _ _ _ hu) hs)))

theorem emuSign_memoriesWf {s : State} {w : Nat} {wp : Warp} {g : Seg} {p : Pre} {cell : Nat} {n : BitVec 3} {t : Bool} {sel : BitVec 2}
    {a b k : Reg}
    (hs : s.memoriesWf = true) : Emu.MemoriesWf (s.emuSign w wp g p cell n t sel a b k) := by
  unfold State.emuSign
  dsimp only
  split
  · exact ok_memoriesWf (emuTold_memoriesWf hs)
  split
  · exact ok_memoriesWf hs
  split
  · exact error_memoriesWf
  · exact ok_memoriesWf (emuTold_memoriesWf (onCore_memoriesWf hs))

theorem emuStep_memoriesWf {s : State} {w : Nat} {g : Seg} {x : SegCause} {wp : Warp} {i : Instr} (hs : s.memoriesWf = true) :
    Emu.MemoriesWf (s.emuStep w g x wp i) := by
  unfold State.emuStep
  dsimp only
  split
  case h_1 => exact ok_memoriesWf (emuTold_memoriesWf (onWarp_memoriesWf (emuWrite_memoriesWf hs)))
  case h_2 => exact emuAccess_memoriesWf hs (fun _ _ _ hu => hu) fun _ hu => emuWrite_memoriesWf hu
  case h_3 => exact emuAccess_memoriesWf hs (fun _ _ _ hu => perform_memoriesWf hu) fun _ hu => hu
  case h_4 p d a b =>
    split
    · exact error_memoriesWf
    · exact ok_memoriesWf (emuTold_memoriesWf (emuWrite_memoriesWf (foldl_fst_memoriesWf (fun _ _ hx => perform_memoriesWf hx) hs)))
  case h_5 =>
    split
    · exact ok_memoriesWf (emuTold_memoriesWf hs)
    split
    · exact error_memoriesWf
    · exact ok_memoriesWf (arrive_memoriesWf (emuTold_memoriesWf hs))
  case h_6 => exact emuSign_memoriesWf hs
  case h_7 => exact emuSign_memoriesWf hs
  case h_8 => exact ok_memoriesWf (emuTold_memoriesWf hs)

theorem emulate_memoriesWf {s : State} {w lb : Nat} (hs : s.memoriesWf = true) : (s.emulate w lb).memoriesWf = true := by
  have hgo : ∀ (u : State) g m word, u.memoriesWf = true → (if u.emuFree w g m word then u.emuDone w lb else u).memoriesWf = true :=
    fun u g m word hu => by
    split
    · exact emuDone_memoriesWf hu
    · exact hu
  unfold State.emulate
  dsimp only
  split
  · exact hs
  split
  · exact hs
  split
  · exact hgo _ _ _ _ hs
  split
  · exact recause_memoriesWf (onWarp_memoriesWf hs)
  split
  · exact recause_memoriesWf (onWarp_memoriesWf hs)
  next ht =>
  have hu := emuStep_memoriesWf (onWarp_memoriesWf hs) _ ht
  split
  · exact recause_memoriesWf (onWarp_memoriesWf hs)
  split
  · exact hgo _ _ _ _ hu
  · exact hu

/-! ### The operations of Machine/Issue -/

theorem fetchWord_memoriesWf {s : State} {w : Nat} {q : Asker} {va : DWord} {z : DWord} {t : State} (hs : s.memoriesWf = true)
    (ht : s.fetchWord w q va = .ok (z, t)) :
    t.memoriesWf = true := by
  unfold State.fetchWord at ht
  grind -ring -linarith -lia [State.memoriesWf, onCore_memoriesWf, dropCode_memoriesWf, codeMiss_memoriesWf, touch_memoriesWf,
    classify_memoriesWf]

theorem fetchWords_memoriesWf {s : State} {w : Nat} {q : Asker} {n : Nat} {va : DWord} {z : List DWord} {t : State}
    (hs : s.memoriesWf = true)
    (ht : s.fetchWords w q n va = .ok (z, t)) : t.memoriesWf = true := by
  induction n generalizing s va z t with
  | zero => cases ht; exact hs
  | succ n ih =>
    unfold State.fetchWords at ht
    grind -ring -linarith -lia [fetchWord_memoriesWf]

def Fetched.MemoriesWf : Fetched → Prop
  | .clause _ _ t => t.memoriesWf = true
  | _ => True

theorem fetchClause_memoriesWf {s : State} {w lane : Nat} {hdr : DWord}
    (hs : s.memoriesWf = true) : (s.fetchClause w lane hdr).MemoriesWf := by
  have failed : ∀ e : Option XErr, ((e.map Fetched.fault).getD .late).MemoriesWf := fun e => by cases e <;> trivial
  unfold State.fetchClause
  dsimp only
  split
  · exact failed _
  next hw u hu =>
  split
  · trivial
  split
  · exact failed _
  · next ht => exact fetchWords_memoriesWf (fetchWord_memoriesWf hs hu) ht

theorem wouldIssue_memoriesWf {s : State} {w : Nat} {k : Pick} {f : Fetched} (hs : s.memoriesWf = true) (h : s.wouldIssue w = some (k,
    some f)) :
    f.MemoriesWf := by
  have hfetch := fun l hdr => fetchClause_memoriesWf (w := w) (lane := l) (hdr := hdr) hs
  unfold State.wouldIssue at h
  dsimp only at h
  grind -ring -linarith -lia

theorem execYieldP_memoriesWf {p : Pre} {s : State} {t : State} (hs : s.memoriesWf = true) (ht : execYieldP p s = .next t) :
    t.memoriesWf = true := by
  unfold execYieldP at ht
  grind -ring -linarith -lia [State.memoriesWf, onWarp_memoriesWf]

theorem noteReady_memoriesWf {s : State} (hs : s.memoriesWf = true) :
    (s.noteReady).memoriesWf = true :=
  hs

theorem refresh_memoriesWf {s : State} {core port : Nat} (hs : s.memoriesWf = true) :
    (s.refresh core port).memoriesWf = true :=
  foldl_memoriesWf (fun _ _ hu => onWarp_memoriesWf hu) hs

theorem execPortIssueChoice_memoriesWf {core port : Nat} {s : State} {t : State} (hs : s.memoriesWf = true)
    (ht : execPortIssueChoice core port s = .next t) :
    t.memoriesWf = true := by
  unfold execPortIssueChoice at ht
  grind -ring -linarith -lia [State.memoriesWf, onCore_memoriesWf, refresh_memoriesWf]

theorem execWaitPoll_memoriesWf {w : Nat} {s : State} {t : State} (hs : s.memoriesWf = true) (ht : execWaitPoll w s = .next t) :
    t.memoriesWf = true := by
  unfold execWaitPoll at ht
  grind -ring -linarith -lia [State.memoriesWf, tick_memoriesWf, dropChoice_memoriesWf, pollLanes_memoriesWf, noteReady_memoriesWf]

theorem takeStanding_memoriesWf {s : State} {w : Nat} {a : ClauseAt} {rs : List (Nat × Raise)} (hs : s.memoriesWf = true) :
    (s.takeStanding w a rs).memoriesWf = true :=
  takeAll_memoriesWf hs

theorem fetchFault_memoriesWf {s : State} {w : Nat} {k : Pick} {code : Nat} {detail : Word} {addr : DWord} {pc : Option DWord}
    (hs : s.memoriesWf = true) :
    (s.fetchFault w k code detail addr pc).memoriesWf = true :=
  takeStanding_memoriesWf hs

theorem badHeader_memoriesWf {s : State} {w : Nat} {k : Pick} {hw : DWord} (hs : s.memoriesWf = true) :
    (s.badHeader w k hw).memoriesWf = true := by
  unfold State.badHeader
  grind -ring -linarith -lia [State.memoriesWf, foldl_memoriesWf, takeStanding_memoriesWf]

theorem takeDeferred_memoriesWf {s : State} {w : Nat} {a : ClauseAt} (hs : s.memoriesWf = true) :
    (s.takeDeferred w a).memoriesWf = true := by
  unfold State.takeDeferred
  grind -ring -linarith -lia [State.memoriesWf, foldl_memoriesWf, onWarp_memoriesWf, announce_memoriesWf]

theorem issueSet_memoriesWf {s : State} {w : Nat} {k : Pick} {f : Option Fetched} (hs : s.memoriesWf = true)
    (hf : ∀ x, f = some x → x.MemoriesWf) : (s.issueSet w k f).memoriesWf = true := by
  unfold State.issueSet
  split
  · exact hs
  · exact fetchFault_memoriesWf hs
  · exact badHeader_memoriesWf hs
  · next h ws u =>
    have hu : u.memoriesWf = true := hf _ rfl
    grind -ring -linarith -lia [State.memoriesWf, takeDeferred_memoriesWf, takeStanding_memoriesWf, onWarp_memoriesWf]
  · split
    · exact memoriesWf_congr hs rfl rfl rfl rfl rfl
    · exact hs

theorem dropYields_memoriesWf {s : State} {w : Nat} (hs : s.memoriesWf = true) :
    (s.dropYields w).memoriesWf = true :=
  foldl_memoriesWf (fun _ _ hu => onWarp_memoriesWf hu) hs

theorem execClauseIssue_memoriesWf {w : Nat} {s t : State} (hs : s.memoriesWf = true)
    (ht : execClauseIssue w s = .next t) : t.memoriesWf = true := by
  unfold execClauseIssue at ht
  cases ht
  have hd : ((s.dropChoice w).dropYields w).memoriesWf = true := dropYields_memoriesWf (dropChoice_memoriesWf hs)
  dsimp only
  split
  · exact hs
  split
  · exact dropChoice_memoriesWf hs
  · next hi => exact issueSet_memoriesWf hd fun x hx => wouldIssue_memoriesWf hd (hx ▸ hi)

theorem checkStuck_memoriesWf {s : State} {w : Nat} {m : Mask} (hs : s.memoriesWf = true) :
    (s.checkStuck w m).memoriesWf = true := by
  unfold State.checkStuck
  grind -ring -linarith -lia [State.memoriesWf, foldl_memoriesWf, onWarp_memoriesWf, startTakeover_memoriesWf]

theorem afterSlot_memoriesWf {s t : State} {word : DWord} (ht : t.memoriesWf = true) : (s.afterSlot t word).memoriesWf = true := by
  unfold State.afterSlot
  grind -ring -linarith -lia [onWarp_memoriesWf, setWarp_memoriesWf, checkStuck_memoriesWf]

theorem refuseWord_memoriesWf {s : State} {code : Nat} {detail : Word} (hs : s.memoriesWf = true) :
    (s.refuseWord code detail).memoriesWf = true :=
  takeAll_memoriesWf hs

theorem atSlot_memoriesWf {s : State} (hs : s.memoriesWf = true) :
    (s.atSlot).memoriesWf = true := by
  unfold State.atSlot
  grind -ring -linarith -lia [State.memoriesWf, setWarp_memoriesWf, tick_memoriesWf, noteReady_memoriesWf]

theorem poisonTaken_memoriesWf {s : State} {m : Mask} (hs : s.memoriesWf = true) :
    (s.poisonTaken m).memoriesWf = true :=
  takeAll_memoriesWf hs

theorem execSwitchResume_memoriesWf {w : Nat} {s : State} {t : State} (hs : s.memoriesWf = true) (ht : execSwitchResume w s = .next t) :
    t.memoriesWf = true := by
  unfold execSwitchResume at ht
  grind -ring -linarith -lia [State.memoriesWf, onWarp_memoriesWf, checkStuck_memoriesWf]

/-! ### The operations of Machine/Coherence -/

theorem missFor_memoriesWf {s : State} {core line : Nat} {miss : State → Hint → Bool → State} (hs : s.memoriesWf = true)
    (hf0 : ∀ (u : State) m b, u.memoriesWf = true → (miss u m b).memoriesWf = true) :
    (s.missFor core line miss).memoriesWf = true := by
  unfold State.missFor
  grind -ring -linarith -lia [State.memoriesWf, classAccess_memoriesWf]

theorem execL1ReadMiss_memoriesWf {core line : Nat} {s : State} {t : State} (hs : s.memoriesWf = true)
    (ht : execL1ReadMiss core line s = .next t) :
    t.memoriesWf = true := by
  unfold execL1ReadMiss at ht
  grind -ring -linarith -lia [readMissLocal_memoriesWf, missFor_memoriesWf]

theorem execAnnexMiss_memoriesWf {core line : Nat} {s : State} {t : State} (hs : s.memoriesWf = true)
    (ht : execAnnexMiss core line s = .next t) :
    t.memoriesWf = true := by
  unfold execAnnexMiss at ht
  grind -ring -linarith -lia [readMissRemote_memoriesWf, missFor_memoriesWf]

theorem execOwnershipGrant_memoriesWf {core line : Nat} {s : State} {t : State} (hs : s.memoriesWf = true)
    (ht : execOwnershipGrant core line s = .next t) :
    t.memoriesWf = true := by
  unfold execOwnershipGrant at ht
  grind -ring -linarith -lia [State.memoriesWf, putL1_memoriesWf, invalidateAll_memoriesWf]

theorem execInvalidation_memoriesWf {core line : Nat} {s : State} {t : State} (hs : s.memoriesWf = true)
    (ht : execInvalidation core line s = .next t) :
    t.memoriesWf = true := by
  unfold execInvalidation at ht
  grind -ring -linarith -lia [State.memoriesWf, hitWhere_memoriesWf]

theorem execLeaseExpiry_memoriesWf {die line : Nat} {s : State} {t : State} (hs : s.memoriesWf = true)
    (ht : execLeaseExpiry die line s = .next t) :
    t.memoriesWf = true := by
  unfold execLeaseExpiry at ht
  grind -ring -linarith -lia [State.memoriesWf, hitLease_memoriesWf, expireLine_memoriesWf]

theorem wrapDie_memoriesWf {s : State} {d : Nat} (hs : s.memoriesWf = true) :
    (s.wrapDie d).memoriesWf = true := by
  unfold State.wrapDie
  grind -ring -linarith -lia [State.memoriesWf, onDie_memoriesWf, dropAnnexLines_memoriesWf]

theorem wrap_memoriesWf {s : State} {late : List Nat} (hs : s.memoriesWf = true) :
    (s.wrap late).memoriesWf = true := by
  unfold State.wrap
  grind -ring -linarith -lia [State.memoriesWf, foldl_memoriesWf, rollBack_memoriesWf, wrapDie_memoriesWf]

theorem execLeaseWrap_memoriesWf {s : State} {t : State} (hs : s.memoriesWf = true) (ht : execLeaseWrap s = .next t) :
    t.memoriesWf = true := by
  unfold execLeaseWrap at ht
  grind -ring -linarith -lia [wrap_memoriesWf]

theorem execWrapStall_memoriesWf {die : Nat} {s : State} {t : State} (hs : s.memoriesWf = true) (ht : execWrapStall die s = .next t) :
    t.memoriesWf = true := by
  unfold execWrapStall at ht
  grind -ring -linarith -lia [State.memoriesWf, foldl_memoriesWf, onDie_memoriesWf, post_memoriesWf, hold_memoriesWf, wrap_memoriesWf]

theorem execAnnexWake_memoriesWf {die : Nat} {s : State} {t : State} (hs : s.memoriesWf = true) (ht : execAnnexWake die s = .next t) :
    t.memoriesWf = true := by
  unfold execAnnexWake at ht
  grind -ring -linarith -lia [wakeAnnex_memoriesWf]

/-! ### The operations of Machine/Concourse -/

theorem ownTiles_memoriesWf {s : State} {core : Nat} {ts : List Nat} {o : Option Nat} (hs : s.memoriesWf = true) :
    (s.ownTiles core ts o).memoriesWf = true :=
  foldl_memoriesWf (fun _ _ hu => onTile_memoriesWf hu) hs

theorem ungate_memoriesWf {s : State} {core : Nat} (hs : s.memoriesWf = true) :
    (s.ungate core).memoriesWf = true := by
  unfold State.ungate
  grind -ring -linarith -lia [State.memoriesWf, onDie_memoriesWf, wakeAnnex_memoriesWf]

theorem seatGroup_memoriesWf {s : State} {core lnum unit grp : Nat} {l : Launch} {f : Fit} (hs : s.memoriesWf = true) :
    (s.seatGroup core lnum unit grp l f).memoriesWf = true := by
  unfold State.seatGroup
  grind -ring -linarith -lia [State.memoriesWf, foldl_memoriesWf, onWarp_memoriesWf, fresh_memoriesWf, ownTiles_memoriesWf,
    ungate_memoriesWf]

theorem fixMasks_memoriesWf {s : State} {u : Nat} (hs : s.memoriesWf = true) :
    (s.fixMasks u).memoriesWf = true :=
  hs

def Seating.MemoriesWf (r : Seating) : Prop := ∀ t, r = .placed t → t.memoriesWf = true

/-- A seater whose way of seating a group keeps the memories. -/
def Seater.KeepsMemories (p : Seater) : Prop := ∀ u c x f, u.memoriesWf = true → (p.put u c x f).memoriesWf = true

theorem seatAll_memoriesWf {p : Seater} (hp : p.KeepsMemories) {cores : List Nat} {l : Launch} {xs mates : List Nat} {s : State}
    (hs : s.memoriesWf = true) :
    (s.seatAll p cores l xs mates).MemoriesWf := by
  induction xs generalizing s mates with
  | nil => rintro _ ⟨⟩; exact hs
  | cons x rest ih =>
    unfold State.seatAll
    split
    · rintro _ ⟨⟩
    split
    · rintro _ ⟨⟩
    · exact ih (hp _ _ _ _ hs)

theorem seatGang_memoriesWf {p : Seater} (hp : p.KeepsMemories) {die : Nat} {l : Launch} {xs : List Nat} {s : State}
    (hs : s.memoriesWf = true) :
    (s.seatGang p die l xs).MemoriesWf := by
  unfold State.seatGang
  dsimp only
  split
  · rintro _ ⟨⟩
  split
  · rintro _ ⟨⟩
  · rintro _ ⟨⟩
    exact foldl_memoriesWf (fun _ _ hu => hp _ _ _ _ hu) hs

theorem seatGangs_memoriesWf {p : Seater} (hp : p.KeepsMemories) {dies : List Nat} {l : Launch} {xss : List (List Nat)} {s : State}
    (hs : s.memoriesWf = true) : (s.seatGangs p dies l xss).MemoriesWf := by
  induction xss generalizing s with
  | nil => rintro _ ⟨⟩; exact hs
  | cons xs rest ih =>
    unfold State.seatGangs
    dsimp only
    split
    · next t ht =>
      obtain ⟨d, -, hd⟩ := List.exists_of_findSome?_eq_some ht
      refine ih (seatGang_memoriesWf (die := d) (l := l) (xs := xs) hp hs t ?_)
      split at hd <;> grind
    · next x hx ht =>
      rintro t rfl
      exact (hx t rfl).elim
    · rintro _ ⟨⟩

theorem seatUnit_memoriesWf {p : Seater} (hp : p.KeepsMemories) {die : Nat} {l : Launch} {xs : List Nat} {s : State}
    (hs : s.memoriesWf = true) :
    (s.seatUnit p die l xs).MemoriesWf := by
  unfold State.seatUnit
  dsimp only
  split
  · exact seatGang_memoriesWf hp hs
  split
  · exact seatGangs_memoriesWf hp hs
  split
  · next hq =>
    have hbest : ∀ q : List (Nat × Seating), (∀ x ∈ q, x.2.MemoriesWf) → ∀ y, q.foldl (fun (b : Option (Nat × Seating)) x =>
        match b with
        | Option.none => some x
        | some y => if y.1 < x.1 then some x else some y) Option.none = some y → y.2.MemoriesWf := by
      intro q hq
      refine List.foldlRecOn (motive := fun b : Option (Nat × Seating) => ∀ y, b = some y → y.2.MemoriesWf) q _ (fun _ h => by cases h)
        fun b hb x hx y hy => ?_
      split at hy
      · cases hy; exact hq x hx
      · split at hy
        · cases hy; exact hq x hx
        · exact hb y hy
    intro t ht
    generalize hf : List.foldl _ _ _ = b at ht
    cases b with
    | none => cases ht
    | some y =>
      refine hbest _ (fun x hx => ?_) y hf t ht
      obtain ⟨n, -, hn⟩ := List.mem_filterMap.1 hx
      split at hn
      · cases hn
      · cases hn; exact seatAll_memoriesWf hp hs
  all_goals exact seatAll_memoriesWf hp hs

theorem seater_keepsMemories {s : State} {l : Launch} {n u : Nat} {but : Option Nat} : (s.seater l n u but).KeepsMemories :=
  fun _ _ _ _ hu => seatGroup_memoriesWf hu

theorem advanceIntake_memoriesWf {s : State} {die arrival : Nat} (hs : s.memoriesWf = true) :
    (s.advanceIntake die arrival).memoriesWf = true :=
  hs

theorem placeEntry_memoriesWf {s : State} {die : Nat} {i : Intake} (hs : s.memoriesWf = true) : (s.placeEntry die i).MemoriesWf := by
  unfold State.placeEntry
  split
  · rintro _ ⟨⟩
  · next l _ =>
    have hu := fun u r k => seatUnit_memoriesWf (s := { s.fresh.2 with units := s.fresh.2.units.put u r }) (die := die) (l := l)
      (xs := l.unitGroups k)
      (seater_keepsMemories (s := s.fresh.2) (l := l) (n := i.launch) (u := u) (but := some i.arrival)) (fresh_memoriesWf hs)
    dsimp only
    split
    · next t ht => rintro _ ⟨⟩; exact fixMasks_memoriesWf (hu _ _ _ _ ht)
    · next ht => 
      intro t h
      exact absurd h (ht t)

theorem execUnitPlacement_memoriesWf {die : Nat} {s t : State} (hs : s.memoriesWf = true) (ht : execUnitPlacement die s = .next t) :
    t.memoriesWf = true := by
  unfold execUnitPlacement at ht
  cases ht
  generalize hf : List.findSome? _ _ = b
  cases b with
  | none => exact hs
  | some t =>
    obtain ⟨i, -, hi⟩ := List.exists_of_findSome?_eq_some hf
    split at hi
    · cases hi; exact advanceIntake_memoriesWf hs
    split at hi
    · cases hi
    split at hi
    · next v hv => cases hi; exact advanceIntake_memoriesWf (placeEntry_memoriesWf hs v hv)
    · split at hi
      · cases hi
      · cases hi; exact hs
    · cases hi

theorem execIntakeHeadBlock_memoriesWf {u : Nat} {s : State} {t : State} (hs : s.memoriesWf = true)
    (ht : execIntakeHeadBlock u s = .next t) :
    t.memoriesWf = true := by
  cases ht
  exact hs

theorem execTaskSteal_memoriesWf {u : Nat} {s t : State} (hs : s.memoriesWf = true)
    (ht : execTaskSteal u s = .next t) : t.memoriesWf = true := by
  unfold execTaskSteal at ht
  cases ht
  split
  · exact hs
  split
  · exact hs
  split
  · split
    · exact hs
    split
    · exact hs
    split
    · next v hv => exact advanceIntake_memoriesWf (placeEntry_memoriesWf hs v hv)
    · exact hs
    · exact hs
  · exact hs

theorem departInsns_memoriesWf {s : State} {gid : Nat} {f : State → State} (hs : s.memoriesWf = true) (hf0 : ∀ u : State,
    u.memoriesWf = true → (f u).memoriesWf = true) :
    (s.departInsns gid f).memoriesWf = true := by
  unfold State.departInsns
  grind -ring -linarith -lia [foldl_memoriesWf, onWarp_memoriesWf, engine_memoriesWf]

theorem endThreads_memoriesWf {s : State} {gid : Nat} (hs : s.memoriesWf = true) :
    (s.endThreads gid).memoriesWf = true := by
  unfold State.endThreads
  grind -ring -linarith -lia [State.memoriesWf, foldl_memoriesWf, onWarp_memoriesWf, onCore_memoriesWf, unhold_memoriesWf,
    rollBack_memoriesWf, discardLog_memoriesWf, exitBars_memoriesWf, dropWaits_memoriesWf, departInsns_memoriesWf]

theorem endGroup_memoriesWf {s : State} {gid : Nat} {w : Nat} {detail : Word} (hs : s.memoriesWf = true) :
    (s.endGroup gid w detail).memoriesWf = true := by
  unfold State.endGroup
  grind -ring -linarith -lia [State.memoriesWf, post_memoriesWf, endThreads_memoriesWf]

theorem vacate_memoriesWf {s : State} {gid : Nat} (hs : s.memoriesWf = true) :
    (s.vacate gid).memoriesWf = true := by
  unfold State.vacate
  grind -ring -linarith -lia [State.memoriesWf, foldl_memoriesWf, setWarp_memoriesWf, fill_memoriesWf]

theorem freeGroup_memoriesWf {s : State} {gid : Nat} (hs : s.memoriesWf = true) :
    (s.freeGroup gid).memoriesWf = true := by
  unfold State.freeGroup
  grind -ring -linarith -lia [State.memoriesWf, ownTiles_memoriesWf, vacate_memoriesWf]

theorem taskDone_memoriesWf {s : State} {l : Launch} (hs : s.memoriesWf = true) :
    (s.taskDone l).memoriesWf = true := by
  unfold State.taskDone
  grind -ring -linarith -lia [State.memoriesWf, post_memoriesWf, setCtr_memoriesWf]

theorem endUnit_memoriesWf {s : State} {u : Nat} {failed : Bool} (hs : s.memoriesWf = true) :
    (s.endUnit u failed).memoriesWf = true := by
  unfold State.endUnit
  grind -ring -linarith -lia [State.memoriesWf, unclaim_memoriesWf, freeGals_memoriesWf, jobDone_memoriesWf, taskDone_memoriesWf]

theorem relaunch_memoriesWf {s : State} {u : Nat} (hs : s.memoriesWf = true) :
    (s.relaunch u).memoriesWf = true := by
  unfold State.relaunch
  grind -ring -linarith -lia [State.memoriesWf, addIntake_memoriesWf]

theorem releaseGroup_memoriesWf {s : State} {gid : Nat} (hs : s.memoriesWf = true) :
    (s.releaseGroup gid).memoriesWf = true := by
  unfold State.releaseGroup
  grind -ring -linarith -lia [State.memoriesWf, checkBars_memoriesWf, detachAll_memoriesWf, freeGroup_memoriesWf, endUnit_memoriesWf,
    relaunch_memoriesWf]

theorem execGroupRelease_memoriesWf {g : Nat} {s : State} {t : State} (hs : s.memoriesWf = true) (ht : execGroupRelease g s = .next t) :
    t.memoriesWf = true := by
  unfold execGroupRelease at ht
  grind -ring -linarith -lia [State.memoriesWf, releaseGroup_memoriesWf]

theorem wipeGroup_memoriesWf {s : State} {gid : Nat} (hs : s.memoriesWf = true) :
    (s.wipeGroup gid).memoriesWf = true := by
  unfold State.wipeGroup
  grind -ring -linarith -lia [State.memoriesWf, onCore_memoriesWf, fresh_memoriesWf, zeroSpad_memoriesWf, mma_memoriesWf]

theorem killUnit_memoriesWf {s : State} {u : Nat} (hs : s.memoriesWf = true) :
    (s.killUnit u).memoriesWf = true := by
  unfold State.killUnit
  grind -ring -linarith -lia [State.memoriesWf, foldl_memoriesWf, unclaim_memoriesWf, endThreads_memoriesWf, wipeGroup_memoriesWf]

/-! ### The operations of Machine/SaveArea -/

theorem writeArea_memoriesWf {s : State} {gid area : Nat} {ps : List Piece} {img : List Chunk} {barOff : Nat} (hs : s.memoriesWf = true) :
    (s.writeArea gid area ps img barOff).memoriesWf = true :=
  writePieces_memoriesWf hs

theorem offCore_memoriesWf {s : State} {gid : Nat} (hs : s.memoriesWf = true) :
    (s.offCore gid).memoriesWf = true := by
  unfold State.offCore
  grind -ring -linarith -lia [State.memoriesWf, foldl_memoriesWf, onWarp_memoriesWf, onCore_memoriesWf, unhold_memoriesWf,
    dropWaits_memoriesWf, departInsns_memoriesWf, freeGroup_memoriesWf]

theorem freeArea_memoriesWf {s : State} {gid : Nat} (hs : s.memoriesWf = true) :
    (s.freeArea gid).memoriesWf = true := by
  unfold State.freeArea
  grind -ring -linarith -lia [State.memoriesWf]

/-! ### The operations of Machine/Preempt -/

theorem stopUnit_memoriesWf {s : State} {u : Nat} (hs : s.memoriesWf = true) :
    (s.stopUnit u).memoriesWf = true :=
  hs

theorem without_memoriesWf {s : State} {u : Nat} (hs : s.memoriesWf = true) :
    (s.without u).memoriesWf = true := by
  unfold State.without
  grind -ring -linarith -lia [State.memoriesWf, foldl_memoriesWf, freeGroup_memoriesWf]

theorem execPreemptPriority_memoriesWf {u : Nat} {s t : State} (hs : s.memoriesWf = true)
    (ht : execPreemptPriority u s = .next t) : t.memoriesWf = true := by
  unfold execPreemptPriority at ht
  cases ht
  dsimp only
  split
  · exact hs
  split
  · exact hs
  split
  · split
    · exact hs
    split
    · exact hs
    · exact foldl_memoriesWf (fun _ _ hu => stopUnit_memoriesWf hu) hs
  · exact hs

theorem execTimeSliceExpiry_memoriesWf {ctx : Nat} {s : State} {t : State} (hs : s.memoriesWf = true)
    (ht : execTimeSliceExpiry ctx s = .next t) :
    t.memoriesWf = true := by
  unfold execTimeSliceExpiry at ht
  grind -ring -linarith -lia [State.memoriesWf, foldl_memoriesWf, stopUnit_memoriesWf]

theorem endTakeovers_memoriesWf {s : State} {gid : Nat} (hs : s.memoriesWf = true) :
    (s.endTakeovers gid).memoriesWf = true := by
  unfold State.endTakeovers
  grind -ring -linarith -lia [foldl_memoriesWf, onWarp_memoriesWf]

theorem unitCause_memoriesWf {s : State} {u gid code : Nat} {addr : DWord} (hs : s.memoriesWf = true) :
    (s.unitCause u gid code addr).memoriesWf = true :=
  post_memoriesWf hs

theorem settleHeld_memoriesWf {s : State} {gid : Nat} (hs : s.memoriesWf = true) :
    (s.settleHeld gid).memoriesWf = true :=
  foldl_memoriesWf (fun _ _ hu => onWarp_memoriesWf hu) hs

def Saving.MemoriesWf : Saving → Prop
  | .done t | .waits t => t.memoriesWf = true
  | _ => True

theorem saveAll_memoriesWf {u : Nat} {gs : List (Nat × Group)} {s : State} (hs : s.memoriesWf = true) : (s.saveAll u gs).MemoriesWf := by
  fun_induction State.saveAll s u gs with
  | case1 => exact unclaim_memoriesWf hs
  | case2 | case3 | case4 => trivial
  | case5 s gid x rest s0 w y l _ _ img barOff _ n pages c _ k _ area ps _ t hg =>
    have hgain := gainLines_memoriesWf (die := y.core / 256) (c := .unit u) (lines := pieceLines ps) hs
    rw [hg] at hgain
    exact hgain
  | case6 s gid x rest s0 w y l _ _ img barOff _ n pages c _ k _ area ps _ _ _ w' t ih =>
    have hw : w.memoriesWf = true := settleHeld_memoriesWf (endTakeovers_memoriesWf hs)
    have hw' : w'.memoriesWf = true := memoriesWf_congr hw rfl rfl rfl rfl rfl
    have ht : t.memoriesWf = true := offCore_memoriesWf (unclaim_memoriesWf (writeArea_memoriesWf hw'))
    exact ih (memoriesWf_congr ht rfl rfl rfl rfl rfl)
  | case7 s gid x rest w _ ih => exact ih (settleHeld_memoriesWf (endTakeovers_memoriesWf hs))

theorem dropUnit_memoriesWf {s : State} {u : Nat} (hs : s.memoriesWf = true) :
    (s.dropUnit u).memoriesWf = true := by
  unfold State.dropUnit
  grind -ring -linarith -lia [State.memoriesWf, foldl_memoriesWf, unhold_memoriesWf, detachAll_memoriesWf, endUnit_memoriesWf,
    freeArea_memoriesWf]

theorem execPreemption_memoriesWf {u : Nat} {s t : State} (hs : s.memoriesWf = true)
    (ht : execPreemption u s = .next t) : t.memoriesWf = true := by
  have hsave := fun gs => saveAll_memoriesWf (u := u) (gs := gs) hs
  unfold execPreemption at ht
  grind -ring -linarith -lia [State.memoriesWf, Saving.MemoriesWf, stopUnit_memoriesWf, unclaim_memoriesWf, unitCause_memoriesWf,
    dropUnit_memoriesWf, checkBars_memoriesWf]

theorem execPreemptBlocked_memoriesWf {u : Nat} {s : State} {t : State} (hs : s.memoriesWf = true) (ht : execPreemptBlocked u s = .next t) :
    t.memoriesWf = true := by
  unfold execPreemptBlocked at ht
  grind -ring -linarith -lia [State.memoriesWf, post_memoriesWf]

theorem bringGals_memoriesWf {s : State} {gid core : Nat} (hs : s.memoriesWf = true) :
    (s.bringGals gid core).memoriesWf = true := by
  unfold State.bringGals
  grind -ring -linarith -lia [State.memoriesWf, foldl_memoriesWf, wantOn_memoriesWf]

theorem standLane_memoriesWf {s : State} {w gid idx l lb : Nat} {pc : DWord} {slot kind : Nat} {passed : Bool} (hs : s.memoriesWf = true) :
    (s.standLane w gid idx l lb pc slot kind passed).memoriesWf = true := by
  unfold State.standLane
  grind -ring -linarith -lia [State.memoriesWf, onWarp_memoriesWf]

theorem reseat_memoriesWf {s : State} {w gid : Nat} {r : SegRec} {x : Group} (hs : s.memoriesWf = true) :
    (s.reseat w gid r x).memoriesWf = true := by
  unfold State.reseat
  grind -ring -linarith -lia [State.memoriesWf, foldl_memoriesWf, onWarp_memoriesWf, standLane_memoriesWf]

theorem recount_memoriesWf {s : State} {gid : Nat} {old : BitVec 16} {moves : List (Nat × Nat × Nat)} (hs : s.memoriesWf = true) :
    (s.recount gid old moves).memoriesWf = true :=
  foldl_memoriesWf (fun _ _ hu => onWarp_memoriesWf hu) hs

theorem resumeGroup_memoriesWf {s : State} {gid core : Nat} {f : Fit} {a : Area} (hs : s.memoriesWf = true) :
    (s.resumeGroup gid core f a).memoriesWf = true := by
  unfold State.resumeGroup
  grind -ring -linarith -lia +splitImp [State.memoriesWf, foldl_memoriesWf, memory_putAll_wf, onTile_memoriesWf, zeroSpad_memoriesWf,
    setLanding_memoriesWf, ownTiles_memoriesWf, ungate_memoriesWf, reseat_memoriesWf, recount_memoriesWf]

theorem reseater_keepsMemories {s : State} {l : Launch} {as : List (Nat × Area)} : (s.reseater l as).KeepsMemories :=
  fun _ _ _ _ hu => resumeGroup_memoriesWf hu

theorem reloadNode_memoriesWf {s : State} {b : Bar} {a : Nat} (hs : s.memoriesWf = true) :
    (s.reloadNode b a).memoriesWf = true := by
  unfold State.reloadNode
  grind -ring -linarith -lia [State.memoriesWf, perform_memoriesWf, releaseBar_memoriesWf]

theorem reloadNodes_memoriesWf {s : State} {gids : List Nat} (hs : s.memoriesWf = true) :
    (s.reloadNodes gids).memoriesWf = true := by
  unfold State.reloadNodes
  grind -ring -linarith -lia [foldl_memoriesWf, dissolve_memoriesWf, reloadNode_memoriesWf]

theorem endSaved_memoriesWf {s : State} {u gid code : Nat} (hs : s.memoriesWf = true) :
    (s.endSaved u gid code).memoriesWf = true := by
  unfold State.endSaved
  grind -ring -linarith -lia [State.memoriesWf, post_memoriesWf, dropUnit_memoriesWf]

theorem execUnitResumption_memoriesWf {u : Nat} {s t : State} (hs : s.memoriesWf = true)
    (ht : execUnitResumption u s = .next t) : t.memoriesWf = true := by
  unfold execUnitResumption at ht
  cases ht
  dsimp only
  split
  · exact hs
  split
  · exact hs
  split
  · exact hs
  split
  · exact hs
  split
  · exact unitCause_memoriesWf hs
  · exact unitCause_memoriesWf hs
  · exact endSaved_memoriesWf hs
  · exact hs
  · split
    · exact hs
    split
    · exact hs
    · split <;> exact hs
    · next v hv =>
      split
      · exact checkBars_memoriesWf (reloadNodes_memoriesWf (seatUnit_memoriesWf reseater_keepsMemories hs v hv))
      · exact foldl_memoriesWf (fun _ _ hu => bringGals_memoriesWf hu) hs

/-! ### The operations of Machine/Traps -/

theorem noHandler_memoriesWf {s : State} {w : Nat} {g : Seg} {x : SegCause} (hs : s.memoriesWf = true) :
    (s.noHandler w g x).memoriesWf = true := by
  unfold State.noHandler
  grind -ring -linarith -lia [State.memoriesWf, post_memoriesWf, endThreads_memoriesWf]

theorem passDead_memoriesWf {s : State} {w : Nat} {g : Seg} (hs : s.memoriesWf = true) :
    (s.passDead w g).memoriesWf = true := by
  unfold State.passDead
  grind -ring -linarith -lia [State.memoriesWf, onWarp_memoriesWf, queueAt_memoriesWf, endGroup_memoriesWf]

theorem execHandlerEntry_memoriesWf {w lb : Nat} {s : State} {t : State} (hs : s.memoriesWf = true)
    (ht : execHandlerEntry w lb s = .next t) :
    t.memoriesWf = true := by
  unfold execHandlerEntry at ht
  grind -ring -linarith -lia [State.memoriesWf, onWarp_memoriesWf, noHandler_memoriesWf, passDead_memoriesWf]

theorem serve_memoriesWf {s : State} {w : Nat} {m : Mask} {number : Nat} (hs : s.memoriesWf = true) :
    (s.serve w m number).memoriesWf = true := by
  unfold State.serve
  grind -ring -linarith -lia [State.memoriesWf, foldl_memoriesWf, onWarp_memoriesWf]

theorem execPorterReturn_memoriesWf {w lb : Nat} {s : State} {t : State} (hs : s.memoriesWf = true)
    (ht : execPorterReturn w lb s = .next t) :
    t.memoriesWf = true := by
  unfold execPorterReturn at ht
  grind -ring -linarith -lia [State.memoriesWf, foldl_memoriesWf, onWarp_memoriesWf, hold_memoriesWf, announce_memoriesWf,
    wakePorter_memoriesWf, emulate_memoriesWf, endGroup_memoriesWf, serve_memoriesWf]

theorem fetchHold_memoriesWf {s : State} {w : Nat} {g : Seg} {x : SegCause} {code : Nat} {detail : Word} (hs : s.memoriesWf = true) :
    (s.fetchHold w g x code detail).memoriesWf = true :=
  post_memoriesWf hs

theorem fillText_memoriesWf {s : State} {w : Nat} {cores : List Nat} {leaf pa : Nat} {bs : List Byte} (hs : s.memoriesWf = true) :
    (s.fillText w cores leaf pa bs).memoriesWf = true := by
  unfold State.fillText
  exact leafOp_memoriesWf (foldl_memoriesWf (fun _ _ hu => dropCode_memoriesWf hu) (dropCode_memoriesWf (writePieces_memoriesWf hs)))

theorem serveFetch_memoriesWf {s : State} {w : Nat} {g : Seg} {x : SegCause}
    (hs : s.memoriesWf = true) : (s.serveFetch w g x).memoriesWf = true := by
  have hback : ∀ u : State, u.memoriesWf = true → ((u.onWarp w fun wp => wp.returnHeld g.lbase).announce w g.lbase).memoriesWf = true :=
    fun u hu => announce_memoriesWf (onWarp_memoriesWf hu)
  unfold State.serveFetch
  dsimp only
  split
  · exact fetchHold_memoriesWf hs
  · refine ite_memoriesWf (hback _ hs) ?_
    split
    · exact fetchHold_memoriesWf hs
    · exact fetchHold_memoriesWf hs
    · split
      · exact fetchHold_memoriesWf hs
      · refine ite_memoriesWf (fetchHold_memoriesWf hs) (ite_memoriesWf hs ?_)
        split
        · exact ite_memoriesWf (fetchHold_memoriesWf hs) (hback _ (fillText_memoriesWf hs))
        · exact ite_memoriesWf (hback _ (fillText_memoriesWf hs))
            (ite_memoriesWf (fetchHold_memoriesWf hs) (ite_memoriesWf hs (fetchHold_memoriesWf hs)))

theorem execFetchFaultService_memoriesWf {w : Nat} {s : State} {t : State} (hs : s.memoriesWf = true)
    (ht : execFetchFaultService w s = .next t) :
    t.memoriesWf = true := by
  unfold execFetchFaultService at ht
  grind -ring -linarith -lia [State.memoriesWf, foldl_memoriesWf, wakePorter_memoriesWf, serveFetch_memoriesWf]

theorem execNoticeDelivery_memoriesWf {w lb : Nat} {s : State} {t : State} (hs : s.memoriesWf = true)
    (ht : execNoticeDelivery w lb s = .next t) :
    t.memoriesWf = true := by
  unfold execNoticeDelivery at ht
  grind -ring -linarith -lia [State.memoriesWf, onWarp_memoriesWf, pick_memoriesWf]

theorem tickSeg_memoriesWf {s : State} {w : Nat} {g : Seg} (hs : s.memoriesWf = true) :
    (s.tickSeg w g).memoriesWf = true := by
  unfold State.tickSeg
  grind -ring -linarith -lia [State.memoriesWf, onWarp_memoriesWf]

theorem tripSeg_memoriesWf {s : State} {w : Nat} {lb : Nat} (hs : s.memoriesWf = true) :
    (s.tripSeg w lb).memoriesWf = true := by
  unfold State.tripSeg
  grind -ring -linarith -lia [State.memoriesWf, onWarp_memoriesWf, startTakeover_memoriesWf]

theorem execBanisterTick_memoriesWf {s : State} {t : State} (hs : s.memoriesWf = true) (ht : execBanisterTick s = .next t) :
    t.memoriesWf = true := by
  unfold execBanisterTick at ht
  grind -ring -linarith -lia [State.memoriesWf, foldl_memoriesWf, tickSeg_memoriesWf, tripSeg_memoriesWf]

theorem execSoloPeriodEnd_memoriesWf {w : Nat} {s : State} {t : State} (hs : s.memoriesWf = true) (ht : execSoloPeriodEnd w s = .next t) :
    t.memoriesWf = true := by
  unfold execSoloPeriodEnd at ht
  grind -ring -linarith -lia [State.memoriesWf, setWarp_memoriesWf]

theorem execEscalationDecay_memoriesWf {w : Nat} {s : State} {t : State} (hs : s.memoriesWf = true)
    (ht : execEscalationDecay w s = .next t) :
    t.memoriesWf = true := by
  unfold execEscalationDecay at ht
  grind -ring -linarith -lia [State.memoriesWf, setWarp_memoriesWf]

theorem execSerialPassStart_memoriesWf {die : Nat} {s : State} {t : State} (hs : s.memoriesWf = true)
    (ht : execSerialPassStart die s = .next t) :
    t.memoriesWf = true := by
  unfold execSerialPassStart at ht
  grind -ring -linarith -lia [State.memoriesWf, onWarp_memoriesWf, onDie_memoriesWf]

theorem execSerialPassEnd_memoriesWf {die : Nat} {s : State} {t : State} (hs : s.memoriesWf = true)
    (ht : execSerialPassEnd die s = .next t) :
    t.memoriesWf = true := by
  unfold execSerialPassEnd at ht
  grind -ring -linarith -lia [State.memoriesWf, onDie_memoriesWf]

theorem execCkptStall_memoriesWf {w : Nat} {s : State} {t : State} (hs : s.memoriesWf = true) (ht : execCkptStall w s = .next t) :
    t.memoriesWf = true := by
  unfold execCkptStall at ht
  grind -ring -linarith -lia [State.memoriesWf, onWarp_memoriesWf, post_memoriesWf]

theorem postStall_memoriesWf {s : State} {code w : Nat} {g : Seg} {pc : DWord} {slot : Nat} (hs : s.memoriesWf = true) :
    (s.postStall code w g pc slot).memoriesWf = true :=
  post_memoriesWf hs

theorem execStallNotification_memoriesWf {kind : StallKind} {k : Nat} {s : State} {t : State} (hs : s.memoriesWf = true)
    (ht : execStallNotification kind k s = .next t) :
    t.memoriesWf = true := by
  unfold execStallNotification at ht
  grind -ring -linarith -lia [State.memoriesWf, onWarp_memoriesWf, setLanding_memoriesWf, postStall_memoriesWf]

theorem execLoadLong_memoriesWf {w lb : Nat} {s : State} {t : State} (hs : s.memoriesWf = true) (ht : execLoadLong w lb s = .next t) :
    t.memoriesWf = true := by
  unfold execLoadLong at ht
  grind -ring -linarith -lia [State.memoriesWf, onWarp_memoriesWf, post_memoriesWf]

theorem execLogLong_memoriesWf {w : Nat} {s : State} {t : State} (hs : s.memoriesWf = true) (ht : execLogLong w s = .next t) :
    t.memoriesWf = true := by
  unfold execLogLong at ht
  grind -ring -linarith -lia [State.memoriesWf, onWarp_memoriesWf, post_memoriesWf]

theorem dropSaved_memoriesWf {s : State} {u : Nat} {ends : Bool} (hs : s.memoriesWf = true) :
    (s.dropSaved u ends).memoriesWf = true := by
  unfold State.dropSaved
  grind -ring -linarith -lia [State.memoriesWf, foldl_memoriesWf, detachAll_memoriesWf, freeArea_memoriesWf]

theorem execMatrixUnitKill_memoriesWf {u : Nat} {s : State} {t : State} (hs : s.memoriesWf = true) (ht : execMatrixUnitKill u s = .next t) :
    t.memoriesWf = true := by
  unfold execMatrixUnitKill at ht
  grind -ring -linarith -lia [State.memoriesWf, post_memoriesWf, hold_memoriesWf, met_memoriesWf, killUnit_memoriesWf, dropSaved_memoriesWf]

/-! ### The operations of Machine/HostRegs -/

theorem physWrite_memoriesWf {s : State} {a : Nat} {bs : List Byte} (hs : s.memoriesWf = true) :
    (s.physWrite a bs).memoriesWf = true :=
  writePieces_memoriesWf hs

theorem await_memoriesWf {s : State} {i : Instr} (hs : s.memoriesWf = true) :
    (s.await i).memoriesWf = true := by
  unfold State.await
  grind -ring -linarith -lia [State.memoriesWf]

theorem served_memoriesWf {s : State} {i : Instr} (hs : s.memoriesWf = true) :
    (s.served i).memoriesWf = true :=
  hs

theorem setRing_memoriesWf {s : State} {r : Nat} {x : Ring} (hs : s.memoriesWf = true) :
    (s.setRing r x).memoriesWf = true :=
  hs

theorem onRing_memoriesWf {s : State} {r : Nat} {f : Ring → Ring} (hs : s.memoriesWf = true) :
    (s.onRing r f).memoriesWf = true :=
  hs

theorem freeRing_memoriesWf {s : State} {r : Nat} (hs : s.memoriesWf = true) :
    (s.freeRing r).memoriesWf = true := by
  unfold State.freeRing
  grind -ring -linarith -lia [State.memoriesWf, unhold_memoriesWf, unclaim_memoriesWf]

theorem postRing_memoriesWf {s : State} {r code : Nat} {addr : DWord} {detail : Word} {hold : Nat} (hs : s.memoriesWf = true) :
    (s.postRing r code addr detail hold).memoriesWf = true :=
  post_memoriesWf hs

theorem stopRing_memoriesWf {s : State} {r off code : Nat} {addr : DWord} {detail : Word} (hs : s.memoriesWf = true) :
    (s.stopRing r off code addr detail).memoriesWf = true :=
  postRing_memoriesWf (freeRing_memoriesWf hs)

theorem hostWake_memoriesWf {s : State} {die : Nat} (hs : s.memoriesWf = true) :
    (s.hostWake die).memoriesWf = true := by
  unfold State.hostWake
  grind -ring -linarith -lia [State.memoriesWf, onDie_memoriesWf, wakePorter_memoriesWf]

theorem execDoorbell_memoriesWf {die fn k : Nat} {v : DWord} {s : State} {t : State} (hs : s.memoriesWf = true)
    (ht : execDoorbell die fn k v s = .next t) :
    t.memoriesWf = true := by
  unfold execDoorbell at ht
  grind -ring -linarith -lia [State.memoriesWf, setRing_memoriesWf, stopRing_memoriesWf, hostWake_memoriesWf]

theorem execRingConfigWrite_memoriesWf {die fn k : Nat} {reg : RingReg} {v : DWord} {s : State} {t : State}
    (hs : s.memoriesWf = true) (ht : execRingConfigWrite die fn k reg v s = .next t) :
    t.memoriesWf = true := by
  unfold execRingConfigWrite at ht
  grind -ring -linarith -lia [State.memoriesWf, setRing_memoriesWf, hostWake_memoriesWf]

theorem trigDrop_memoriesWf {s : State} {die fn : Nat} (hs : s.memoriesWf = true) :
    (s.trigDrop die fn).memoriesWf = true :=
  hs

theorem trigger_memoriesWf {s : State} {die fn : Nat} {v : DWord} {ctx : Nat} {job : Option Nat} (hs : s.memoriesWf = true) :
    (s.trigger die fn v ctx job).memoriesWf = true := by
  unfold State.trigger
  grind -ring -linarith -lia [State.memoriesWf, later_memoriesWf, jobDone_memoriesWf, trigDrop_memoriesWf]

theorem execTrigger_memoriesWf {die fn : Nat} {v : DWord} {s : State} {t : State} (hs : s.memoriesWf = true)
    (ht : execTrigger die fn v s = .next t) :
    t.memoriesWf = true := by
  unfold execTrigger at ht
  grind -ring -linarith -lia [post_memoriesWf, hostWake_memoriesWf, trigger_memoriesWf]

theorem execTrigovfClear_memoriesWf {die fn : Nat} {s : State} {t : State} (hs : s.memoriesWf = true)
    (ht : execTrigovfClear die fn s = .next t) :
    t.memoriesWf = true := by
  unfold execTrigovfClear at ht
  grind -ring -linarith -lia [State.memoriesWf, hostWake_memoriesWf]

theorem execCtxcreate_memoriesWf {die fn : Nat} {a : DWord} {s : State} {t : State} (hs : s.memoriesWf = true)
    (ht : execCtxcreate die fn a s = .next t) :
    t.memoriesWf = true := by
  unfold execCtxcreate at ht
  grind -ring -linarith -lia [State.memoriesWf, post_memoriesWf, await_memoriesWf, served_memoriesWf, hostWake_memoriesWf]

theorem endUnitLater_memoriesWf {s : State} {u : Nat} (hs : s.memoriesWf = true) :
    (s.endUnitLater u).memoriesWf = true := by
  unfold State.endUnitLater
  grind -ring -linarith -lia [State.memoriesWf, endUnit_memoriesWf, dropSaved_memoriesWf]

theorem dropIntake_memoriesWf {s : State} {i : Intake} (hs : s.memoriesWf = true) :
    (s.dropIntake i).memoriesWf = true := by
  unfold State.dropIntake
  grind -ring -linarith -lia [State.memoriesWf, foldl_memoriesWf, jobDone_memoriesWf, relaunch_memoriesWf]

theorem endCtx_memoriesWf {s : State} {n : Nat} (hs : s.memoriesWf = true) : (s.endCtx n).memoriesWf = true := by
  unfold State.endCtx
  have hrings : ∀ (rs : List Nat) (u : State), u.memoriesWf = true →
      (rs.foldl (fun s r =>
        (s.freeRing r).onRing r fun x => { x.clear with base := 0, rdoff := 0, wroff := 0, stat := 0 }) u).memoriesWf = true :=
    fun _ _ hu => foldl_memoriesWf (fun _ _ hv => onRing_memoriesWf (freeRing_memoriesWf hv)) hu
  refine hrings _ _ (freeGals_memoriesWf (foldl_memoriesWf (fun u q hu => ?_) (foldl_memoriesWf (fun _ _ hu => dropIntake_memoriesWf hu)
    (foldl_memoriesWf (fun _ _ hu => setIntake_memoriesWf hu) hs))))
  split
  · exact stopUnit_memoriesWf hu
  · exact dropUnit_memoriesWf hu
  · split
    · exact endUnitLater_memoriesWf hu
    · exact endUnitLater_memoriesWf (unhold_memoriesWf hu)
  · exact hu

theorem execCtxend_memoriesWf {die fn : Nat} {v : DWord} {s : State} {t : State} (hs : s.memoriesWf = true)
    (ht : execCtxend die fn v s = .next t) :
    t.memoriesWf = true := by
  unfold execCtxend at ht
  grind -ring -linarith -lia [post_memoriesWf, hostWake_memoriesWf, endCtx_memoriesWf]

theorem answerObj_memoriesWf {s : State} {p code : Nat} (hs : s.memoriesWf = true) :
    (s.answerObj p code).memoriesWf = true :=
  physWrite_memoriesWf hs

theorem withBlock_memoriesWf {s : State} {die p : Nat} {again : Instr} {act : State → BitVec 256 → State} (hs : s.memoriesWf = true)
    (hf0 : ∀ (u : State) b, u.memoriesWf = true → (act u b).memoriesWf = true) :
    (s.withBlock die p again act).memoriesWf = true := by
  unfold State.withBlock
  grind -ring -linarith -lia [unclaim_memoriesWf, gainLines_memoriesWf, await_memoriesWf, served_memoriesWf]

theorem register_memoriesWf {s : State} {die : Nat} {a : DWord} {porter : Bool} {again : Instr} (hs : s.memoriesWf = true) :
    (s.register die a porter again).memoriesWf = true := by
  unfold State.register
  grind -ring -linarith -lia [State.memoriesWf, post_memoriesWf, met_memoriesWf, readTouch_memoriesWf, await_memoriesWf,
    answerObj_memoriesWf, withBlock_memoriesWf]

theorem execObjdel_memoriesWf {die : Nat} {a : DWord} {s : State} {t : State} (hs : s.memoriesWf = true)
    (ht : execObjdel die a s = .next t) :
    t.memoriesWf = true := by
  unfold execObjdel at ht
  grind -ring -linarith -lia [State.memoriesWf, post_memoriesWf, answerObj_memoriesWf, withBlock_memoriesWf]

theorem execS2SegmentWrite_memoriesWf {fn : Nat} {bound : Bool} {v : DWord} {s : State} {t : State} (hs : s.memoriesWf = true)
    (ht : execS2SegmentWrite fn bound v s = .next t) :
    t.memoriesWf = true := by
  unfold execS2SegmentWrite at ht
  grind -ring -linarith -lia [State.memoriesWf, onFn_memoriesWf, post_memoriesWf]

theorem unmask_memoriesWf {s : State} {fn v : Nat} (hs : s.memoriesWf = true) :
    (s.unmask fn v).memoriesWf = true := by
  unfold State.unmask
  grind -ring -linarith -lia [State.memoriesWf, onFn_memoriesWf, msix_memoriesWf]

theorem execMsixVectorUnmask_memoriesWf {fn v : Nat} {s : State} {t : State} (hs : s.memoriesWf = true)
    (ht : execMsixVectorUnmask fn v s = .next t) :
    t.memoriesWf = true := by
  unfold execMsixVectorUnmask at ht
  grind -ring -linarith -lia [unmask_memoriesWf]

theorem msixWrite_memoriesWf {s : State} {fn off : Nat} {v : DWord} (hs : s.memoriesWf = true) :
    (s.msixWrite fn off v).memoriesWf = true := by
  unfold State.msixWrite
  grind -ring -linarith -lia [State.memoriesWf, onFn_memoriesWf, msix_memoriesWf, unmask_memoriesWf]

theorem msixWrite32_memoriesWf {s : State} {fn off : Nat} {v : Word} (hs : s.memoriesWf = true) :
    (s.msixWrite32 fn off v).memoriesWf = true := by
  unfold State.msixWrite32
  grind -ring -linarith -lia [State.memoriesWf, onFn_memoriesWf, msix_memoriesWf, unmask_memoriesWf]

theorem mgmtWrite_memoriesWf {s : State} {die off : Nat} {v : DWord} (hs : s.memoriesWf = true) :
    (s.mgmtWrite die off v).memoriesWf = true := by
  unfold State.mgmtWrite
  grind -ring -linarith -lia [State.memoriesWf, onDie_memoriesWf, onFn_memoriesWf, msixWrite_memoriesWf]

theorem execRegisterWrite_memoriesWf {die : Nat} {page : RegPage} {off : Nat} {v : DWord} {s : State} {t : State}
    (hs : s.memoriesWf = true) (ht : execRegisterWrite die page off v s = .next t) :
    t.memoriesWf = true := by
  unfold execRegisterWrite at ht
  grind -ring -linarith -lia [State.memoriesWf, hostWake_memoriesWf, register_memoriesWf, msixWrite_memoriesWf, msixWrite32_memoriesWf,
    mgmtWrite_memoriesWf]

theorem execWfdropClear_memoriesWf {s : State} {t : State} (hs : s.memoriesWf = true) (ht : execWfdropClear s = .next t) :
    t.memoriesWf = true := by
  cases ht
  exact hs

theorem fwCopy_memoriesWf {s : State} {kind : Nat} (hs : s.memoriesWf = true) :
    (s.fwCopy kind).memoriesWf = true := by
  unfold State.fwCopy
  grind -ring -linarith -lia [State.memoriesWf]

theorem execModrst_memoriesWf {v : DWord} {s : State} {t : State} (hs : s.memoriesWf = true) (ht : execModrst v s = .next t) :
    t.memoriesWf = true := by
  unfold execModrst at ht
  grind -ring -linarith -lia [State.memoriesWf]

theorem execAttreq_memoriesWf {a : DWord} {s : State} {t : State} (hs : s.memoriesWf = true) (ht : execAttreq a s = .next t) :
    t.memoriesWf = true := by
  unfold execAttreq at ht
  grind -ring -linarith -lia [State.memoriesWf, post_memoriesWf]

theorem abandon_memoriesWf {s : State} {g : Nat} (hs : s.memoriesWf = true) :
    (s.abandon g).memoriesWf = true :=
  hs

theorem nextTrigger_memoriesWf {s : State} {g : Nat} {x : Graph} (hs : s.memoriesWf = true) :
    (s.nextTrigger g x).memoriesWf = true := by
  unfold State.nextTrigger
  grind -ring -linarith -lia [State.memoriesWf, later_memoriesWf]

theorem endRun_memoriesWf {s : State} {g : Nat} {x : Graph} {y : Run} (hs : s.memoriesWf = true) :
    (s.endRun g x y).memoriesWf = true :=
  nextTrigger_memoriesWf (jobDone_memoriesWf hs)

theorem settleRun_memoriesWf {s : State} {g : Nat} (hs : s.memoriesWf = true) :
    (s.settleRun g).memoriesWf = true := by
  unfold State.settleRun
  grind -ring -linarith -lia [State.memoriesWf, endRun_memoriesWf]

theorem dropTrigger_memoriesWf {s : State} {g : Nat} (hs : s.memoriesWf = true) :
    (s.dropTrigger g).memoriesWf = true := by
  unfold State.dropTrigger
  grind -ring -linarith -lia [State.memoriesWf, unclaim_memoriesWf, jobDone_memoriesWf, nextTrigger_memoriesWf]

theorem execClrelResume_memoriesWf {fn hid : Nat} {s t : State} (hs : s.memoriesWf = true)
    (ht : execClrelResume fn hid s = .next t) : t.memoriesWf = true := by
  have hu : (s.unhold hid).memoriesWf = true := unhold_memoriesWf hs
  unfold execClrelResume at ht
  cases ht
  dsimp only
  split
  · exact hs
  split
  · exact onWarp_memoriesWf hs
  generalize s.unhold hid = v at hu
  grind -ring -linarith -lia [State.memoriesWf, onWarp_memoriesWf, announce_memoriesWf, settleRun_memoriesWf, onRing_memoriesWf,
    fresh_memoriesWf, relaunch_memoriesWf, onDie_memoriesWf]

theorem endGallery_memoriesWf {s : State} {g : Nat} (hs : s.memoriesWf = true) :
    (s.endGallery g).memoriesWf = true := by
  unfold State.endGallery
  grind -ring -linarith -lia [State.memoriesWf, foldl_memoriesWf, unclaim_memoriesWf, endThreads_memoriesWf]

theorem hostEndUnit_memoriesWf {s : State} {u : Nat} (hs : s.memoriesWf = true) :
    (s.hostEndUnit u).memoriesWf = true := by
  unfold State.hostEndUnit
  grind -ring -linarith -lia [State.memoriesWf, foldl_memoriesWf, endThreads_memoriesWf, dropUnit_memoriesWf, endUnitLater_memoriesWf]

theorem execClrelEnd_memoriesWf {fn hid : Nat} {s : State} {t : State} (hs : s.memoriesWf = true) (ht : execClrelEnd fn hid s = .next t) :
    t.memoriesWf = true := by
  unfold execClrelEnd at ht
  grind -ring -linarith -lia [State.memoriesWf, foldl_memoriesWf, onDie_memoriesWf, unhold_memoriesWf, discardLog_memoriesWf,
    endCmd_memoriesWf, endThreads_memoriesWf, onRing_memoriesWf, freeRing_memoriesWf, abandon_memoriesWf, settleRun_memoriesWf,
      dropTrigger_memoriesWf, endGallery_memoriesWf, hostEndUnit_memoriesWf]

/-! ### The operations of Machine/CmdProc -/

theorem holdRing_memoriesWf {s : State} {r code : Nat} {e : XErr} (hs : s.memoriesWf = true) :
    (s.holdRing r code e).memoriesWf = true :=
  post_memoriesWf hs

theorem cpFail_memoriesWf {s : State} {r off : Nat} {e : XErr} (hs : s.memoriesWf = true) :
    (s.cpFail r off e).memoriesWf = true := by
  unfold State.cpFail
  grind -ring -linarith -lia [met_memoriesWf, stopRing_memoriesWf, holdRing_memoriesWf]

theorem settleRing_memoriesWf {s : State} {r n : Nat} (hs : s.memoriesWf = true) : (s.settleRing r n).memoriesWf = true := by
  induction n generalizing s with
  | zero => exact hs
  | succ n ih =>
    unfold State.settleRing
    grind -ring -linarith -lia [setRing_memoriesWf, stopRing_memoriesWf]

theorem readyRing_memoriesWf {s : State} {r : Nat} {before : Bool} (hs : s.memoriesWf = true) :
    (s.readyRing r before).memoriesWf = true := by
  unfold State.readyRing
  grind -ring -linarith -lia [State.memoriesWf, fresh_memoriesWf, onRing_memoriesWf]

theorem execPacketFetch_memoriesWf {r : Nat} {s : State} {t : State} (hs : s.memoriesWf = true) (ht : execPacketFetch r s = .next t) :
    t.memoriesWf = true := by
  unfold execPacketFetch at ht
  grind -ring -linarith -lia [State.memoriesWf, readTouch_memoriesWf, setRing_memoriesWf, stopRing_memoriesWf, cpFail_memoriesWf,
    settleRing_memoriesWf, readyRing_memoriesWf]

theorem donePkt_memoriesWf {s : State} {r : Nat} {f : Ring → Ring} (hs : s.memoriesWf = true) :
    (s.donePkt r f).memoriesWf = true :=
  settleRing_memoriesWf hs

theorem pkt_memoriesWf {s : State} {r kind : Nat} {act : FPkt → State} (hs : s.memoriesWf = true) (hf0 : ∀ p, (act p).memoriesWf = true) :
    (s.pkt r kind act).memoriesWf = true := by
  unfold State.pkt
  grind -ring -linarith -lia [State.memoriesWf]

theorem stopAt_memoriesWf {s : State} {r : Nat} {p : FPkt} {code : Nat} {detail : Word} (hs : s.memoriesWf = true) :
    (s.stopAt r p code detail).memoriesWf = true :=
  stopRing_memoriesWf hs

theorem cpRead_memoriesWf {s : State} {die : Nat} {ps : List Piece} {act : State → State} (hs : s.memoriesWf = true) (hf0 : ∀ u : State,
    u.memoriesWf = true → (act u).memoriesWf = true) :
    (s.cpRead die ps act).memoriesWf = true := by
  unfold State.cpRead
  grind -ring -linarith -lia [readTouch_memoriesWf]

theorem execPktNop_memoriesWf {r : Nat} {s : State} {t : State} (hs : s.memoriesWf = true) (ht : execPktNop r s = .next t) :
    t.memoriesWf = true := by
  unfold execPktNop at ht
  grind -ring -linarith -lia [donePkt_memoriesWf, pkt_memoriesWf]

theorem execPktIndirect_memoriesWf {r : Nat} {s : State} {t : State} (hs : s.memoriesWf = true) (ht : execPktIndirect r s = .next t) :
    t.memoriesWf = true := by
  unfold execPktIndirect at ht
  grind -ring -linarith -lia [State.memoriesWf, donePkt_memoriesWf, pkt_memoriesWf]

theorem execPktPred_memoriesWf {r : Nat} {s : State} {t : State} (hs : s.memoriesWf = true) (ht : execPktPred r s = .next t) :
    t.memoriesWf = true := by
  unfold execPktPred at ht
  grind -ring -linarith -lia [State.memoriesWf, cpFail_memoriesWf, donePkt_memoriesWf, pkt_memoriesWf, cpRead_memoriesWf]

theorem execPktLoop_memoriesWf {r : Nat} {s : State} {t : State} (hs : s.memoriesWf = true) (ht : execPktLoop r s = .next t) :
    t.memoriesWf = true := by
  unfold execPktLoop at ht
  grind -ring -linarith -lia [State.memoriesWf, donePkt_memoriesWf, pkt_memoriesWf]

theorem execPktFfence_memoriesWf {r : Nat} {s : State} {t : State} (hs : s.memoriesWf = true) (ht : execPktFfence r s = .next t) :
    t.memoriesWf = true := by
  unfold execPktFfence at ht
  grind -ring -linarith -lia [State.memoriesWf, donePkt_memoriesWf, pkt_memoriesWf]

theorem newJob_memoriesWf {s : State} {ring : Nat} {node : Option (Nat × Nat)} (hs : s.memoriesWf = true) :
    (s.newJob ring node).2.memoriesWf = true :=
  hs

theorem addParts_memoriesWf {s : State} {j n : Nat} (hs : s.memoriesWf = true) :
    (s.addParts j n).memoriesWf = true :=
  hs

theorem startLaunch_memoriesWf {s : State} {die ctx fn : Nat} {d : BitVec 512} {job : Nat} (hs : s.memoriesWf = true) :
    (s.startLaunch die ctx fn d job).2.memoriesWf = true := by
  unfold State.startLaunch
  grind -ring -linarith -lia [State.memoriesWf, fresh_memoriesWf, post_memoriesWf, addIntake_memoriesWf, addParts_memoriesWf]

theorem startCopy_memoriesWf {s : State} {die ctx fn : Nat} {d : BitVec 512} {job : Nat} (hs : s.memoriesWf = true) :
    (s.startCopy die ctx fn d job).memoriesWf = true :=
  endEmpty_memoriesWf hs

theorem execPktLaunch_memoriesWf {r : Nat} {s : State} {t : State} (hs : s.memoriesWf = true) (ht : execPktLaunch r s = .next t) :
    t.memoriesWf = true := by
  unfold execPktLaunch at ht
  grind -ring -linarith -lia [jobDone_memoriesWf, donePkt_memoriesWf, pkt_memoriesWf, newJob_memoriesWf, startLaunch_memoriesWf]

theorem execPktBundle_memoriesWf {r : Nat} {s : State} {t : State} (hs : s.memoriesWf = true) (ht : execPktBundle r s = .next t) :
    t.memoriesWf = true := by
  unfold execPktBundle at ht
  grind -ring -linarith -lia [foldl_memoriesWf, jobDone_memoriesWf, donePkt_memoriesWf, pkt_memoriesWf, newJob_memoriesWf,
    startLaunch_memoriesWf, startCopy_memoriesWf]

theorem execPktCopy_memoriesWf {r : Nat} {s : State} {t : State} (hs : s.memoriesWf = true) (ht : execPktCopy r s = .next t) :
    t.memoriesWf = true := by
  unfold execPktCopy at ht
  grind -ring -linarith -lia [jobDone_memoriesWf, donePkt_memoriesWf, pkt_memoriesWf, newJob_memoriesWf, startCopy_memoriesWf]

theorem execPktWaitCompletion_memoriesWf {r : Nat} {s : State} {t : State} (hs : s.memoriesWf = true)
    (ht : execPktWaitCompletion r s = .next t) :
    t.memoriesWf = true := by
  unfold execPktWaitCompletion at ht
  grind -ring -linarith -lia [State.memoriesWf, onRing_memoriesWf, donePkt_memoriesWf, pkt_memoriesWf]

theorem pollRing_memoriesWf {s : State} {r : Nat} {p : FPkt} {before : Option (Nat × Word)} (hs : s.memoriesWf = true) :
    (s.pollRing r p before).memoriesWf = true := by
  unfold State.pollRing
  grind -ring -linarith -lia [State.memoriesWf, readTouch_memoriesWf, onRing_memoriesWf, cpFail_memoriesWf, donePkt_memoriesWf]

theorem execPktWaitPoll_memoriesWf {r : Nat} {s : State} {t : State} (hs : s.memoriesWf = true) (ht : execPktWaitPoll r s = .next t) :
    t.memoriesWf = true := by
  unfold execPktWaitPoll at ht
  grind -ring -linarith -lia [pkt_memoriesWf, pollRing_memoriesWf]

theorem execCpWaitRelease_memoriesWf {r : Nat} {s : State} {t : State} (hs : s.memoriesWf = true) (ht : execCpWaitRelease r s = .next t) :
    t.memoriesWf = true := by
  unfold execCpWaitRelease at ht
  grind -ring -linarith -lia [State.memoriesWf, setRing_memoriesWf, readyRing_memoriesWf, pollRing_memoriesWf]

theorem execPktSignal_memoriesWf {r : Nat} {s : State} {t : State} (hs : s.memoriesWf = true) (ht : execPktSignal r s = .next t) :
    t.memoriesWf = true := by
  unfold execPktSignal at ht
  grind -ring -linarith -lia [State.memoriesWf, msix_memoriesWf, unclaim_memoriesWf, gainLines_memoriesWf, writePieces_memoriesWf,
    onRing_memoriesWf, cpFail_memoriesWf, donePkt_memoriesWf, pkt_memoriesWf]

theorem execPktGraph_memoriesWf {r : Nat} {s : State} {t : State} (hs : s.memoriesWf = true) (ht : execPktGraph r s = .next t) :
    t.memoriesWf = true := by
  unfold execPktGraph at ht
  grind -ring -linarith -lia [trigger_memoriesWf, donePkt_memoriesWf, pkt_memoriesWf, newJob_memoriesWf]

theorem execPktCtxsw_memoriesWf {r : Nat} {s : State} {t : State} (hs : s.memoriesWf = true) (ht : execPktCtxsw r s = .next t) :
    t.memoriesWf = true := by
  unfold execPktCtxsw at ht
  grind -ring -linarith -lia [foldl_memoriesWf, stopUnit_memoriesWf, donePkt_memoriesWf, pkt_memoriesWf, stopAt_memoriesWf]

theorem config_memoriesWf {s : State} {r op : Nat} {act : FPkt → State} (hs : s.memoriesWf = true) (hf0 : ∀ p, (act p).memoriesWf = true) :
    (s.config r op act).memoriesWf = true := by
  unfold State.config
  grind -ring -linarith -lia [pkt_memoriesWf]

theorem configBad_memoriesWf {s : State} {r : Nat} {p : FPkt} (hs : s.memoriesWf = true) :
    (s.configBad r p).memoriesWf = true :=
  stopAt_memoriesWf hs

theorem execConfigCreateTaskQueue_memoriesWf {r : Nat} {s : State} {t : State} (hs : s.memoriesWf = true)
    (ht : execConfigCreateTaskQueue r s = .next t) :
    t.memoriesWf = true := by
  unfold execConfigCreateTaskQueue at ht
  grind -ring -linarith -lia [State.memoriesWf, donePkt_memoriesWf, config_memoriesWf, configBad_memoriesWf]

theorem execConfigCreateCounter_memoriesWf {r : Nat} {s : State} {t : State} (hs : s.memoriesWf = true)
    (ht : execConfigCreateCounter r s = .next t) :
    t.memoriesWf = true := by
  unfold execConfigCreateCounter at ht
  grind -ring -linarith -lia [State.memoriesWf, donePkt_memoriesWf, config_memoriesWf, configBad_memoriesWf]

theorem execConfigCloseTaskQueue_memoriesWf {r : Nat} {s : State} {t : State} (hs : s.memoriesWf = true)
    (ht : execConfigCloseTaskQueue r s = .next t) :
    t.memoriesWf = true := by
  unfold execConfigCloseTaskQueue at ht
  grind -ring -linarith -lia [State.memoriesWf, donePkt_memoriesWf, config_memoriesWf, configBad_memoriesWf]

theorem execConfigJoinStealSet_memoriesWf {r : Nat} {s : State} {t : State} (hs : s.memoriesWf = true)
    (ht : execConfigJoinStealSet r s = .next t) :
    t.memoriesWf = true := by
  unfold execConfigJoinStealSet at ht
  grind -ring -linarith -lia [State.memoriesWf, donePkt_memoriesWf, config_memoriesWf, configBad_memoriesWf]

theorem unloadGraph_memoriesWf {s : State} {r g : Nat} (hs : s.memoriesWf = true) :
    (s.unloadGraph r g).2.memoriesWf = true := by
  unfold State.unloadGraph
  grind -ring -linarith -lia [State.memoriesWf, jobDone_memoriesWf, onRing_memoriesWf, trigDrop_memoriesWf]

theorem execConfigUnloadGraph_memoriesWf {r : Nat} {s : State} {t : State} (hs : s.memoriesWf = true)
    (ht : execConfigUnloadGraph r s = .next t) :
    t.memoriesWf = true := by
  unfold execConfigUnloadGraph at ht
  grind -ring -linarith -lia [State.memoriesWf, donePkt_memoriesWf, config_memoriesWf, unloadGraph_memoriesWf]

theorem execConfigLoadGraph_memoriesWf {r : Nat} {s t : State} (hs : s.memoriesWf = true)
    (ht : execConfigLoadGraph r s = .next t) : t.memoriesWf = true := by
  unfold execConfigLoadGraph at ht
  cases ht
  refine config_memoriesWf hs fun p => ?_
  dsimp only
  have hun := unloadGraph_memoriesWf (s := s) (r := r) (g := p.objDie * 256 + fieldN (p.w 1) 7 0) hs
  split
  · next h => rw [h] at hun; exact hun
  next v h =>
  rw [h] at hun
  replace hun : v.memoriesWf = true := hun
  split
  · exact stopAt_memoriesWf hun
  split
  · exact cpFail_memoriesWf hun
  refine cpRead_memoriesWf hun fun w hw => ?_
  split
  · exact stopAt_memoriesWf hw
  · exact donePkt_memoriesWf hw

/-! ### The operations of Machine/Graph -/

theorem onRun_memoriesWf {s : State} {g : Nat} {f : Run → Run} (hs : s.memoriesWf = true) :
    (s.onRun g f).memoriesWf = true :=
  hs

theorem postGraph_memoriesWf {s : State} {x : Graph} {code : Nat} {addr pc : DWord} {detail : Word} {hold : Nat}
    (hs : s.memoriesWf = true) :
    (s.postGraph x code addr pc detail hold).memoriesWf = true :=
  post_memoriesWf hs

theorem graphFault_memoriesWf {s : State} {g n : Nat} {x : Graph} {q : Asker} {e : XErr} (hs : s.memoriesWf = true) :
    (s.graphFault g n x q e).2.memoriesWf = true := by
  unfold State.graphFault
  grind -ring -linarith -lia [hold_memoriesWf, met_memoriesWf, postGraph_memoriesWf]

theorem writePatches_memoriesWf {s : State} {q : Asker} {ps : List (DWord × Nat)} (hs : s.memoriesWf = true) :
    (s.writePatches q ps).1.memoriesWf = true := by
  induction ps generalizing s with
  | nil => exact hs
  | cons x rest ih =>
    unfold State.writePatches
    split
    · exact hs
    · exact ih (writePieces_memoriesWf hs)

theorem execGraphRunStart_memoriesWf {g : Nat} {s : State} {t : State} (hs : s.memoriesWf = true) (ht : execGraphRunStart g s = .next t) :
    t.memoriesWf = true := by
  have hfail : ∀ (u : State) x q e, u.memoriesWf = true → (match u.graphFault g noNode x q e with
      | (true, v) => v
      | (false, v) => v.dropTrigger g).memoriesWf = true := fun u x q e hu => by
    have hv := graphFault_memoriesWf (g := g) (n := noNode) (x := x) (q := q) (e := e) hu
    split
    · next h => exact memoriesWf_of_snd h hv
    · next h => exact dropTrigger_memoriesWf (memoriesWf_of_snd h hv)
  unfold execGraphRunStart at ht
  cases ht
  split
  · exact hs
  split
  · exact hs
  split
  · exact hs
  next x _ _ v ctx job _ _ =>
  dsimp only
  split
  · exact hfail _ _ _ _ hs
  next bs ps _ =>
  split
  · exact hs
  have hgain := gainLines_memoriesWf (die := x.die) (c := .graph g)
    (lines := pieceLines (s.patchPieces (cpAsker x.die x.ctx x.fn) (x.patches bs (fieldN v 55 49)))) hs
  generalize s.gainLines _ _ _ = y at hgain
  obtain ⟨u, all⟩ := y
  dsimp only
  split
  · exact hgain
  have hw := fun q l => writePatches_memoriesWf (q := q) (ps := l) (readTouch_memoriesWf (core := none) (ps := ps) (unclaim_memoriesWf
    (c := .graph g) hgain))
  split
  · next h => exact hfail _ _ _ _ (memoriesWf_of_fst h (hw _ _))
  · next h => exact settleRun_memoriesWf (memoriesWf_congr (memoriesWf_of_fst h (hw _ _)) rfl rfl rfl rfl rfl)

theorem node_memoriesWf {s : State} {g n kind : Nat} {act : Graph → BitVec 512 → State} (hs : s.memoriesWf = true) (hf0 : ∀ x d,
    (act x d).memoriesWf = true) :
    (s.node g n kind act).memoriesWf = true := by
  unfold State.node
  grind -ring -linarith -lia [State.memoriesWf]

theorem failNode_memoriesWf {s : State} {g n : Nat} (hs : s.memoriesWf = true) :
    (s.failNode g n).memoriesWf = true :=
  settleRun_memoriesWf hs

theorem nodeFault_memoriesWf {s : State} {g n : Nat} {x : Graph} {e : XErr} (hs : s.memoriesWf = true) :
    (s.nodeFault g n x e).memoriesWf = true := by
  unfold State.nodeFault
  grind -ring -linarith -lia [State.memoriesWf, graphFault_memoriesWf, failNode_memoriesWf]

theorem execGraphLaunchNode_memoriesWf {g n : Nat} {s : State} {t : State} (hs : s.memoriesWf = true)
    (ht : execGraphLaunchNode g n s = .next t) :
    t.memoriesWf = true := by
  unfold execGraphLaunchNode at ht
  cases ht
  refine node_memoriesWf hs fun x d => ?_
  split
  · exact nodeFault_memoriesWf hs
  refine cpRead_memoriesWf hs fun u hu => ?_
  split
  · exact failNode_memoriesWf (postGraph_memoriesWf hu)
  have hl := fun die ctx fn d job => startLaunch_memoriesWf (die := die) (ctx := ctx) (fn := fn) (d := d) (job := job)
    (newJob_memoriesWf (ring := 0) (node := some (g, n)) hu)
  dsimp only
  split
  · next h => exact failNode_memoriesWf (memoriesWf_congr (memoriesWf_of_snd h (hl _ _ _ _ _)) rfl rfl rfl rfl rfl)
  · next h => exact onRun_memoriesWf (jobDone_memoriesWf (memoriesWf_of_snd h (hl _ _ _ _ _)))

theorem execGraphCopyNode_memoriesWf {g n : Nat} {s t : State} (hs : s.memoriesWf = true)
    (ht : execGraphCopyNode g n s = .next t) : t.memoriesWf = true := by
  unfold execGraphCopyNode at ht
  cases ht
  refine node_memoriesWf hs fun x d => ?_
  split
  · exact nodeFault_memoriesWf hs
  refine cpRead_memoriesWf hs fun w hw => ?_
  split
  · exact failNode_memoriesWf (postGraph_memoriesWf hw)
  · exact onRun_memoriesWf (jobDone_memoriesWf (startCopy_memoriesWf (newJob_memoriesWf hw)))

theorem nodeWord_memoriesWf {s : State} {g n : Nat} {x : Graph} {d : BitVec 512} {act : State → Bool → State}
    (hs : s.memoriesWf = true) (hf0 : ∀ (u : State) b, u.memoriesWf = true → (act u b).memoriesWf = true) :
    (s.nodeWord g n x d act).memoriesWf = true := by
  unfold State.nodeWord
  grind -ring -linarith -lia [State.memoriesWf, settleRun_memoriesWf, cpRead_memoriesWf, nodeFault_memoriesWf]

theorem execGraphCondNode_memoriesWf {g n : Nat} {s : State} {t : State} (hs : s.memoriesWf = true)
    (ht : execGraphCondNode g n s = .next t) :
    t.memoriesWf = true := by
  unfold execGraphCondNode at ht
  grind -ring -linarith -lia [onRun_memoriesWf, node_memoriesWf, nodeWord_memoriesWf]

theorem execGraphLoopNode_memoriesWf {g n : Nat} {s : State} {t : State} (hs : s.memoriesWf = true)
    (ht : execGraphLoopNode g n s = .next t) :
    t.memoriesWf = true := by
  unfold execGraphLoopNode at ht
  grind -ring -linarith -lia [onRun_memoriesWf, node_memoriesWf, nodeWord_memoriesWf]

theorem execGraphEndNode_memoriesWf {g n : Nat} {s : State} {t : State} (hs : s.memoriesWf = true) (ht : execGraphEndNode g n s = .next t) :
    t.memoriesWf = true := by
  unfold execGraphEndNode at ht
  grind -ring -linarith -lia [State.memoriesWf, settleRun_memoriesWf, onRun_memoriesWf, node_memoriesWf]

theorem execGraphNodeFinish_memoriesWf {g n : Nat} {s : State} {t : State} (hs : s.memoriesWf = true)
    (ht : execGraphNodeFinish g n s = .next t) :
    t.memoriesWf = true := by
  unfold execGraphNodeFinish at ht
  grind -ring -linarith -lia [State.memoriesWf, settleRun_memoriesWf, onRun_memoriesWf, node_memoriesWf, failNode_memoriesWf]

/-! ### The operations of Machine/Lodge -/

theorem execSwezinFrameArrival_memoriesWf {port : Nat} {frame : List Byte} {s : State} {t : State} (hs : s.memoriesWf = true)
    (ht : execSwezinFrameArrival port frame s = .next t) :
    t.memoriesWf = true := by
  unfold execSwezinFrameArrival at ht
  grind -ring -linarith -lia [State.memoriesWf, post_memoriesWf, hostWake_memoriesWf]

theorem execDieGating_memoriesWf {die : Nat} {s : State} {t : State} (hs : s.memoriesWf = true) (ht : execDieGating die s = .next t) :
    t.memoriesWf = true := by
  unfold execDieGating at ht
  grind -ring -linarith -lia [State.memoriesWf, onDie_memoriesWf]

theorem setEcc_memoriesWf {s : State} {e : EccRec} (hs : s.memoriesWf = true) :
    (s.setEcc e).memoriesWf = true :=
  hs

theorem corrected_memoriesWf {s : State} {die unit : Nat} {addr : DWord} (hs : s.memoriesWf = true) :
    (s.corrected die unit addr).memoriesWf = true := by
  unfold State.corrected
  grind -ring -linarith -lia [State.memoriesWf, post_memoriesWf, setEcc_memoriesWf]

theorem spoil_memoriesWf {s : State} {er : ErrInput} (hs : s.memoriesWf = true) :
    (s.spoil er).memoriesWf = true := by
  unfold State.spoil
  grind -ring -linarith -lia [State.memoriesWf, onWarp_memoriesWf, postIdle_memoriesWf, dropCode_memoriesWf, onTile_memoriesWf]

theorem vacatePlace_memoriesWf {s : State} {er : ErrInput} (hs : s.memoriesWf = true) :
    (s.vacatePlace er).memoriesWf = true := by
  unfold State.vacatePlace
  grind -ring -linarith -lia [State.memoriesWf, idlePoison_memoriesWf, dropCode_memoriesWf, roomL2_memoriesWf, dropAnnexLines_memoriesWf,
    evictL1_memoriesWf, roomL1_memoriesWf, roomAnnex_memoriesWf]

theorem loseUnit_memoriesWf {s : State} {u : Nat} (hs : s.memoriesWf = true) :
    (s.loseUnit u).memoriesWf = true :=
  foldl_memoriesWf (fun _ _ hu => endGroup_memoriesWf hu) (endUnitLater_memoriesWf hs)

theorem retireUnit_memoriesWf {s : State} {er : ErrInput} (hs : s.memoriesWf = true) :
    (s.retireUnit er).memoriesWf = true := by
  unfold State.retireUnit
  grind -ring -linarith -lia [State.memoriesWf, foldl_memoriesWf, post_memoriesWf, stopUnit_memoriesWf, vacatePlace_memoriesWf,
    loseUnit_memoriesWf]

theorem execMemoryError_memoriesWf {er : ErrInput} {s : State} {t : State} (hs : s.memoriesWf = true)
    (ht : execMemoryError er s = .next t) :
    t.memoriesWf = true := by
  unfold execMemoryError at ht
  grind -ring -linarith -lia [State.memoriesWf, post_memoriesWf, corrected_memoriesWf, spoil_memoriesWf, retireUnit_memoriesWf]

theorem execHbmScrub_memoriesWf {die : Nat} {s : State} {t : State} (hs : s.memoriesWf = true) (ht : execHbmScrub die s = .next t) :
    t.memoriesWf = true := by
  unfold execHbmScrub at ht
  grind -ring -linarith -lia [State.memoriesWf, foldl_memoriesWf, onDie_memoriesWf, postIdle_memoriesWf]

theorem postRejected_memoriesWf {s : State} {xs : List (Nat × Nat)} (hs : s.memoriesWf = true) :
    (s.postRejected xs).memoriesWf = true :=
  foldl_memoriesWf (fun _ _ hu => post_memoriesWf hu) hs

theorem startFirmware_memoriesWf {s : State} (hs : s.memoriesWf = true) :
    (s.startFirmware).memoriesWf = true := by
  unfold State.startFirmware
  grind -ring -linarith -lia [State.memoriesWf, postRejected_memoriesWf]

theorem survivor_memoriesWf {s : State} {lifecycle : Nat} (hs : s.memoriesWf = true) :
    (s.survivor lifecycle).memoriesWf = true := by
  obtain ⟨-, -, hrest⟩ := memoriesWf_iff.1 hs
  exact memoriesWf_iff.2 ⟨rfl, rfl, hrest⟩

theorem wipe_memoriesWf {s : State} {lifecycle : Nat} (hs : s.memoriesWf = true) :
    (s.wipe lifecycle).memoriesWf = true :=
  startFirmware_memoriesWf (post_memoriesWf (survivor_memoriesWf hs))

theorem execModuleReset_memoriesWf {s : State} {t : State} (hs : s.memoriesWf = true) (ht : execModuleReset s = .next t) :
    t.memoriesWf = true := by
  unfold execModuleReset at ht
  grind -ring -linarith -lia [wipe_memoriesWf]

theorem execLifecycleTransition_memoriesWf {sig : List Byte} {s : State} {t : State} (hs : s.memoriesWf = true)
    (ht : execLifecycleTransition sig s = .next t) :
    t.memoriesWf = true := by
  unfold execLifecycleTransition at ht
  grind -ring -linarith -lia [State.memoriesWf, wipe_memoriesWf]

theorem execFirmwareCopyComplete_memoriesWf {ok : Bool} {s : State} {t : State} (hs : s.memoriesWf = true)
    (ht : execFirmwareCopyComplete ok s = .next t) :
    t.memoriesWf = true := by
  unfold execFirmwareCopyComplete at ht
  grind -ring -linarith -lia [State.memoriesWf]

theorem execAttestReportDone_memoriesWf {s : State} {t : State} (hs : s.memoriesWf = true) (ht : execAttestReportDone s = .next t) :
    t.memoriesWf = true := by
  unfold execAttestReportDone at ht
  grind -ring -linarith -lia [State.memoriesWf, unclaim_memoriesWf, gainLines_memoriesWf, physWrite_memoriesWf]

theorem execPowerLimitExceeded_memoriesWf {s : State} {t : State} (hs : s.memoriesWf = true) (ht : execPowerLimitExceeded s = .next t) :
    t.memoriesWf = true := by
  unfold execPowerLimitExceeded at ht
  grind -ring -linarith -lia [State.memoriesWf, post_memoriesWf]

theorem execPowerThrottleRelease_memoriesWf {s : State} {t : State} (hs : s.memoriesWf = true) (ht : execPowerThrottleRelease s = .next t) :
    t.memoriesWf = true := by
  cases ht
  exact hs

theorem execHeartbeatSend_memoriesWf {s : State} {t : State} (hs : s.memoriesWf = true) (ht : execHeartbeatSend s = .next t) :
    t.memoriesWf = true := by
  unfold execHeartbeatSend at ht
  cases ht
  dsimp only
  split
  · exact hs
  · exact hs

theorem onNeighbour_memoriesWf {s : State} {pkg : Nat} {f : Neighbour → Neighbour} (hs : s.memoriesWf = true) :
    (s.onNeighbour pkg f).memoriesWf = true :=
  hs

theorem execHeartbeatMiss_memoriesWf {pkg : Nat} {s : State} {t : State} (hs : s.memoriesWf = true)
    (ht : execHeartbeatMiss pkg s = .next t) :
    t.memoriesWf = true := by
  unfold execHeartbeatMiss at ht
  grind -ring -linarith -lia [State.memoriesWf, post_memoriesWf, onNeighbour_memoriesWf]

theorem execResetVoteReceive_memoriesWf {voter target : Nat} {epoch : DWord} {sig : List Byte} {s : State} {t : State}
    (hs : s.memoriesWf = true) (ht : execResetVoteReceive voter target epoch sig s = .next t) :
    t.memoriesWf = true := by
  unfold execResetVoteReceive at ht
  grind -ring -linarith -lia [State.memoriesWf, post_memoriesWf, wipe_memoriesWf, onNeighbour_memoriesWf]

/-! ### Every row of the opcode table, and the step -/

/-- Every arm of the opcode table keeps the canonical form of every memory. -/
theorem exec_memoriesWf {i : Instr} {s t : State} (hs : s.memoriesWf = true) (ht : exec i s = .next t) : t.memoriesWf = true :=
  match i with
  | .nop p => execNop_memoriesWf (_p := p) hs ht
  | .bra .. => execBra_memoriesWf hs ht
  | .brau .. => execBrau_memoriesWf hs ht
  | .jmp .. => execJmp_memoriesWf hs ht
  | .call .. => execCall_memoriesWf hs ht
  | .ret .. => execRet_memoriesWf hs ht
  | .exit .. => execExit_memoriesWf hs ht
  | .yieldP .. => execYieldP_memoriesWf hs ht
  | .wait _ e _ d .. => execWait_memoriesWf (_eq := e) (_d := d) hs ht
  | .waitPoll .. => execWaitPoll_memoriesWf hs ht
  | .udone p => execUdone_memoriesWf (_p := p) hs ht
  | .park .. => execPark_memoriesWf hs ht
  | .wake .. => execWake_memoriesWf hs ht
  | .trap .. => next_memoriesWf (trapInsn_memoriesWf hs) ht
  | .svc .. => next_memoriesWf (trapInsn_memoriesWf hs) ht
  | .bkpt .. => next_memoriesWf (trapInsn_memoriesWf hs) ht
  | .mov .. => execMov_memoriesWf hs ht
  | .movsRead .. => next_memoriesWf (alu_memoriesWf hs) ht
  | .movsWrite .. => execMovsWrite_memoriesWf hs ht
  | .movi .. => execMovi_memoriesWf hs ht
  | .plop .. => execPlop_memoriesWf hs ht
  | .rtt .. => execRtt_memoriesWf hs ht
  | .halt .. => execHalt_memoriesWf hs ht
  | .srwr .. => execSrwr_memoriesWf hs ht
  | .cache .. => execCache_memoriesWf hs ht
  | .tlbi .. => execTlbi_memoriesWf hs ht
  | .iadd .. => next_memoriesWf (intBin_memoriesWf hs) ht
  | .iaddImm .. => next_memoriesWf (intBinImm_memoriesWf hs) ht
  | .isub .. => next_memoriesWf (intBin_memoriesWf hs) ht
  | .iadc .. => next_memoriesWf (carryOp_memoriesWf hs) ht
  | .isbb .. => next_memoriesWf (carryOp_memoriesWf hs) ht
  | .imul .. => next_memoriesWf (intBin_memoriesWf hs) ht
  | .imulImm .. => next_memoriesWf (intBinImm_memoriesWf hs) ht
  | .imulh .. => next_memoriesWf (intBin_memoriesWf hs) ht
  | .imad .. => next_memoriesWf (intTern_memoriesWf hs) ht
  | .imadh .. => next_memoriesWf (intTern_memoriesWf hs) ht
  | .imin .. => next_memoriesWf (intBin_memoriesWf hs) ht
  | .iminImm .. => next_memoriesWf (intBinImm_memoriesWf hs) ht
  | .imax .. => next_memoriesWf (intBin_memoriesWf hs) ht
  | .imaxImm .. => next_memoriesWf (intBinImm_memoriesWf hs) ht
  | .iabs .. => next_memoriesWf (intUn_memoriesWf hs) ht
  | .ineg .. => next_memoriesWf (intUn_memoriesWf hs) ht
  | .icmp .. => execIcmp_memoriesWf hs ht
  | .icmpImm .. => execIcmpImm_memoriesWf hs ht
  | .aadd .. => execAadd_memoriesWf hs ht
  | .aaddImm .. => next_memoriesWf (alu_memoriesWf hs) ht
  | .andL .. => next_memoriesWf (bitBin_memoriesWf hs) ht
  | .andImm .. => next_memoriesWf (bitImm_memoriesWf hs) ht
  | .orL .. => next_memoriesWf (bitBin_memoriesWf hs) ht
  | .orImm .. => next_memoriesWf (bitImm_memoriesWf hs) ht
  | .xorL .. => next_memoriesWf (bitBin_memoriesWf hs) ht
  | .xorImm .. => next_memoriesWf (bitImm_memoriesWf hs) ht
  | .andn .. => next_memoriesWf (bitBin_memoriesWf hs) ht
  | .notL .. => next_memoriesWf (bitUn_memoriesWf hs) ht
  | .shl .. => next_memoriesWf (shiftOp_memoriesWf hs) ht
  | .shlImm .. => next_memoriesWf (shiftImm_memoriesWf hs) ht
  | .shr .. => next_memoriesWf (shiftOp_memoriesWf hs) ht
  | .shrImm .. => next_memoriesWf (shiftImm_memoriesWf hs) ht
  | .sar .. => next_memoriesWf (shiftOp_memoriesWf hs) ht
  | .sarImm .. => next_memoriesWf (shiftImm_memoriesWf hs) ht
  | .rol .. => next_memoriesWf (shiftOp_memoriesWf hs) ht
  | .rolImm .. => next_memoriesWf (shiftImm_memoriesWf hs) ht
  | .clz .. => next_memoriesWf (bitUn_memoriesWf hs) ht
  | .ctz .. => next_memoriesWf (bitUn_memoriesWf hs) ht
  | .popc .. => next_memoriesWf (bitUn_memoriesWf hs) ht
  | .brev .. => next_memoriesWf (bitUn_memoriesWf hs) ht
  | .bfx .. => execBfx_memoriesWf hs ht
  | .bfi .. => execBfi_memoriesWf hs ht
  | .prmt .. => execPrmt_memoriesWf hs ht
  | .sel .. => execSel_memoriesWf hs ht
  | .xchl .. => execXchl_memoriesWf hs ht
  | .ballot .. => execBallot_memoriesWf hs ht
  | .vote .. => next_memoriesWf (aluPred_memoriesWf hs) ht
  | .gred .. => execGred_memoriesWf hs ht
  | .fadd .. => next_memoriesWf (floatArith_memoriesWf hs) ht
  | .fsub .. => next_memoriesWf (floatArith_memoriesWf hs) ht
  | .fmul .. => next_memoriesWf (floatArith_memoriesWf hs) ht
  | .ffma .. => next_memoriesWf (floatArith_memoriesWf hs) ht
  | .fmin .. => next_memoriesWf (floatTern_memoriesWf hs) ht
  | .fmax .. => next_memoriesWf (floatTern_memoriesWf hs) ht
  | .fabs .. => next_memoriesWf (floatTern_memoriesWf hs) ht
  | .fneg .. => next_memoriesWf (floatTern_memoriesWf hs) ht
  | .fcmp .. => execFcmp_memoriesWf hs ht
  | .fflr .. => next_memoriesWf (floatTern_memoriesWf hs) ht
  | .frnd .. => next_memoriesWf (floatTern_memoriesWf hs) ht
  | .cvt .. => execCvt_memoriesWf hs ht
  | .frcp .. => next_memoriesWf (floatApprox_memoriesWf hs) ht
  | .frsq .. => next_memoriesWf (floatApprox_memoriesWf hs) ht
  | .fexp2 .. => next_memoriesWf (floatApprox_memoriesWf hs) ht
  | .flog2 .. => next_memoriesWf (floatApprox_memoriesWf hs) ht
  | .fsin .. => next_memoriesWf (floatApprox_memoriesWf hs) ht
  | .fcos .. => next_memoriesWf (floatApprox_memoriesWf hs) ht
  | .fdiva .. => next_memoriesWf (retire_memoriesWf hs) ht
  | .ld .. => execLd_memoriesWf hs ht
  | .st .. => execSt_memoriesWf hs ht
  | .ldw .. => execLdw_memoriesWf hs ht
  | .stw .. => execStw_memoriesWf hs ht
  | .prf .. => execPrf_memoriesWf hs ht
  | .ldsp .. => next_memoriesWf (retire_memoriesWf hs) ht
  | .stsp .. => next_memoriesWf (retire_memoriesWf hs) ht
  | .atsp .. => next_memoriesWf (retire_memoriesWf hs) ht
  | .barw .. => next_memoriesWf (retire_memoriesWf hs) ht
  | .atom .. => execAtom_memoriesWf hs ht
  | .cas .. => execCas_memoriesWf hs ht
  | .red .. => execRed_memoriesWf hs ht
  | .sync .. => next_memoriesWf (barrier_memoriesWf hs) ht
  | .drain .. => next_memoriesWf (barrier_memoriesWf hs) ht
  | .drainArrival .. => execDrainArrival_memoriesWf hs ht
  | .fence .. => execFence_memoriesWf hs ht
  | .qpush .. => execQpush_memoriesWf hs ht
  | .qpop .. => execQpop_memoriesWf hs ht
  | .qtry .. => execQtry_memoriesWf hs ht
  | .heldSlotAct .. => execHeldSlotAct_memoriesWf hs ht
  | .enq .. => execEnq_memoriesWf hs ht
  | .deq .. => execDeq_memoriesWf hs ht
  | .dcset .. => execDcset_memoriesWf hs ht
  | .dcadd .. => execDcadd_memoriesWf hs ht
  | .dcdec .. => next_memoriesWf (counterOp_memoriesWf hs) ht
  | .gmake .. => execGmake_memoriesWf hs ht
  | .gatt .. => execGatt_memoriesWf hs ht
  | .gdet .. => execGdet_memoriesWf hs ht
  | .gfree .. => execGfree_memoriesWf hs ht
  | .mmaQ4 .. => next_memoriesWf (mma_memoriesWf hs) ht
  | .mmaE4m3 .. => next_memoriesWf (mma_memoriesWf hs) ht
  | .mmaE5m2 .. => next_memoriesWf (mma_memoriesWf hs) ht
  | .mmaI8 .. => next_memoriesWf (mma_memoriesWf hs) ht
  | .mmaH16 .. => next_memoriesWf (mma_memoriesWf hs) ht
  | .mma4 .. => next_memoriesWf (retire_memoriesWf hs) ht
  | .mma8 .. => next_memoriesWf (retire_memoriesWf hs) ht
  | .accz .. => next_memoriesWf (accEach_memoriesWf hs) ht
  | .accrd .. => execAccrd_memoriesWf hs ht
  | .accwr .. => execAccwr_memoriesWf hs ht
  | .ecopy .. => next_memoriesWf (engine_memoriesWf hs) ht
  | .egath .. => next_memoriesWf (engine_memoriesWf hs) ht
  | .ecoll .. => next_memoriesWf (engine_memoriesWf hs) ht
  | .ewait .. => execEwait_memoriesWf hs ht
  | .quant .. => next_memoriesWf (engine_memoriesWf hs) ht
  | .clauseIssue .. => execClauseIssue_memoriesWf hs ht
  | .portIssueChoice .. => execPortIssueChoice_memoriesWf hs ht
  | .switchResume .. => execSwitchResume_memoriesWf hs ht
  | .loadResultArrival .. => execLoadResultArrival_memoriesWf hs ht
  | .storeAck .. => next_memoriesWf (onWarp_memoriesWf hs) ht
  | .earlyRead .. => execEarlyRead_memoriesWf hs ht
  | .rollback .. => execRollback_memoriesWf hs ht
  | .commit .. => execCommit_memoriesWf hs ht
  | .irrevocableAct .. => execIrrevocableAct_memoriesWf hs ht
  | .sideLogDrain .. => execSideLogDrain_memoriesWf hs ht
  | .engineCommandRun .. => execEngineCommandRun_memoriesWf hs ht
  | .engineCompletion .. => execEngineCompletion_memoriesWf hs ht
  | .l1ReadMiss .. => execL1ReadMiss_memoriesWf hs ht
  | .ownershipGrant .. => execOwnershipGrant_memoriesWf hs ht
  | .invalidation .. => execInvalidation_memoriesWf hs ht
  | .l1Eviction .. => next_memoriesWf (evictL1_memoriesWf hs) ht
  | .annexMiss .. => execAnnexMiss_memoriesWf hs ht
  | .homeWritePerform .. => next_memoriesWf (performLine_memoriesWf hs) ht
  | .homeAtomic .. => next_memoriesWf (performLine_memoriesWf hs) ht
  | .leaseExpiry .. => execLeaseExpiry_memoriesWf hs ht
  | .wrapStall .. => execWrapStall_memoriesWf hs ht
  | .annexWake .. => execAnnexWake_memoriesWf hs ht
  | .galleryFillComplete .. => execGalleryFillComplete_memoriesWf hs ht
  | .galleryEviction .. => execGalleryEviction_memoriesWf hs ht
  | .galleryWritebackComplete .. => execGalleryWritebackComplete_memoriesWf hs ht
  | .landingIssue .. => execLandingIssue_memoriesWf hs ht
  | .gangLandingIssue .. => execGangLandingIssue_memoriesWf hs ht
  | .mmaTileWrite .. => execMmaTileWrite_memoriesWf hs ht
  | .groupRelease .. => execGroupRelease_memoriesWf hs ht
  | .unitPlacement .. => execUnitPlacement_memoriesWf hs ht
  | .intakeHeadBlock .. => execIntakeHeadBlock_memoriesWf hs ht
  | .taskSteal .. => execTaskSteal_memoriesWf hs ht
  | .preemptPriority .. => execPreemptPriority_memoriesWf hs ht
  | .timeSliceExpiry .. => execTimeSliceExpiry_memoriesWf hs ht
  | .preemption .. => execPreemption_memoriesWf hs ht
  | .unitResumption .. => execUnitResumption_memoriesWf hs ht
  | .banisterTakeover .. => execBanisterTakeover_memoriesWf hs ht
  | .noticeDelivery .. => execNoticeDelivery_memoriesWf hs ht
  | .handlerEntry .. => execHandlerEntry_memoriesWf hs ht
  | .porterReturn .. => execPorterReturn_memoriesWf hs ht
  | .fetchFaultService .. => execFetchFaultService_memoriesWf hs ht
  | .soloPeriodEnd .. => execSoloPeriodEnd_memoriesWf hs ht
  | .escalationDecay .. => execEscalationDecay_memoriesWf hs ht
  | .serialPassStart .. => execSerialPassStart_memoriesWf hs ht
  | .serialPassEnd .. => execSerialPassEnd_memoriesWf hs ht
  | .ckptStall .. => execCkptStall_memoriesWf hs ht
  | .preemptBlocked .. => execPreemptBlocked_memoriesWf hs ht
  | .stallNotification .. => execStallNotification_memoriesWf hs ht
  | .loadLong .. => execLoadLong_memoriesWf hs ht
  | .logLong .. => execLogLong_memoriesWf hs ht
  | .matrixUnitKill .. => execMatrixUnitKill_memoriesWf hs ht
  | .galleryFillFault .. => next_memoriesWf (galFault_memoriesWf hs) ht
  | .galleryWbFault .. => next_memoriesWf (galFault_memoriesWf hs) ht
  | .doorbell .. => execDoorbell_memoriesWf hs ht
  | .trigger .. => execTrigger_memoriesWf hs ht
  | .trigovfClear .. => execTrigovfClear_memoriesWf hs ht
  | .ctxcreate .. => execCtxcreate_memoriesWf hs ht
  | .ctxend .. => execCtxend_memoriesWf hs ht
  | .ringConfigWrite .. => execRingConfigWrite_memoriesWf hs ht
  | .clrelResume .. => execClrelResume_memoriesWf hs ht
  | .clrelEnd .. => execClrelEnd_memoriesWf hs ht
  | .objreg .. => next_memoriesWf (register_memoriesWf hs) ht
  | .objdel .. => execObjdel_memoriesWf hs ht
  | .s2SegmentWrite .. => execS2SegmentWrite_memoriesWf hs ht
  | .modrst .. => execModrst_memoriesWf hs ht
  | .attreq .. => execAttreq_memoriesWf hs ht
  | .registerWrite .. => execRegisterWrite_memoriesWf hs ht
  | .packetFetch .. => execPacketFetch_memoriesWf hs ht
  | .pktNop .. => execPktNop_memoriesWf hs ht
  | .pktLaunch .. => execPktLaunch_memoriesWf hs ht
  | .pktBundle .. => execPktBundle_memoriesWf hs ht
  | .pktCopy .. => execPktCopy_memoriesWf hs ht
  | .pktIndirect .. => execPktIndirect_memoriesWf hs ht
  | .pktPred .. => execPktPred_memoriesWf hs ht
  | .pktLoop .. => execPktLoop_memoriesWf hs ht
  | .pktFfence .. => execPktFfence_memoriesWf hs ht
  | .pktWaitCompletion .. => execPktWaitCompletion_memoriesWf hs ht
  | .pktWaitPoll .. => execPktWaitPoll_memoriesWf hs ht
  | .cpWaitRelease .. => execCpWaitRelease_memoriesWf hs ht
  | .pktSignal .. => execPktSignal_memoriesWf hs ht
  | .pktGraph .. => execPktGraph_memoriesWf hs ht
  | .pktCtxsw .. => execPktCtxsw_memoriesWf hs ht
  | .configCreateTaskQueue .. => execConfigCreateTaskQueue_memoriesWf hs ht
  | .configCreateCounter .. => execConfigCreateCounter_memoriesWf hs ht
  | .configCloseTaskQueue .. => execConfigCloseTaskQueue_memoriesWf hs ht
  | .configJoinStealSet .. => execConfigJoinStealSet_memoriesWf hs ht
  | .configLoadGraph .. => execConfigLoadGraph_memoriesWf hs ht
  | .configUnloadGraph .. => execConfigUnloadGraph_memoriesWf hs ht
  | .graphRunStart .. => execGraphRunStart_memoriesWf hs ht
  | .graphLaunchNode .. => execGraphLaunchNode_memoriesWf hs ht
  | .graphCopyNode .. => execGraphCopyNode_memoriesWf hs ht
  | .graphCondNode .. => execGraphCondNode_memoriesWf hs ht
  | .graphLoopNode .. => execGraphLoopNode_memoriesWf hs ht
  | .graphEndNode .. => execGraphEndNode_memoriesWf hs ht
  | .graphNodeFinish .. => execGraphNodeFinish_memoriesWf hs ht
  | .swezinFrameArrival .. => execSwezinFrameArrival_memoriesWf hs ht
  | .hostWriteWake .. => next_memoriesWf (hostWake_memoriesWf hs) ht
  | .porterWake .. => execPorterWake_memoriesWf hs ht
  | .memoryError .. => execMemoryError_memoriesWf hs ht
  | .hbmScrub .. => execHbmScrub_memoriesWf hs ht
  | .lifecycleTransition .. => execLifecycleTransition_memoriesWf hs ht
  | .heartbeatReceive .. => next_memoriesWf (onNeighbour_memoriesWf hs) ht
  | .heartbeatMiss .. => execHeartbeatMiss_memoriesWf hs ht
  | .resetVoteReceive .. => execResetVoteReceive_memoriesWf hs ht
  | .msixVectorUnmask .. => execMsixVectorUnmask_memoriesWf hs ht
  | .firmwareCopyComplete .. => execFirmwareCopyComplete_memoriesWf hs ht
  | .dieGating .. => execDieGating_memoriesWf hs ht
  | .leaseWrap => execLeaseWrap_memoriesWf hs ht
  | .banisterTick => execBanisterTick_memoriesWf hs ht
  | .wfdropClear => execWfdropClear_memoriesWf hs ht
  | .fwcmdLodge => next_memoriesWf (fwCopy_memoriesWf hs) ht
  | .fwcmdPorter => next_memoriesWf (fwCopy_memoriesWf hs) ht
  | .moduleReset => execModuleReset_memoriesWf hs ht
  | .powerLimitExceeded => execPowerLimitExceeded_memoriesWf hs ht
  | .powerThrottleRelease => execPowerThrottleRelease_memoriesWf hs ht
  | .heartbeatSend => execHeartbeatSend_memoriesWf hs ht
  | .attestReportDone => execAttestReportDone_memoriesWf hs ht

theorem acts_memoriesWf {s t : State} {i : Instr} (hs : s.memoriesWf = true) (ht : s.acts i = some t) : t.memoriesWf = true := by
  unfold State.acts at ht
  grind -ring -linarith -lia [exec_memoriesWf]

theorem auto_memoriesWf {s : State} (hs : s.memoriesWf = true) : s.auto.memoriesWf = true := by
  unfold State.auto
  cases h : s.candidates.findSome? s.acts with
  | none => exact tick_memoriesWf (noteReady_memoriesWf hs)
  | some t =>
    obtain ⟨i, -, hi⟩ := List.exists_of_findSome?_eq_some h
    exact acts_memoriesWf hs hi

theorem slotAct_memoriesWf {s : State} (hs : s.memoriesWf = true) : (∀ t, s.slotAct = .done t → t.memoriesWf = true) ∧
    ∀ i t, s.slotAct = .run i t → t.memoriesWf = true := by
  have hat := atSlot_memoriesWf hs
  unfold State.slotAct
  grind -ring -linarith -lia [holdSlot_memoriesWf, afterSlot_memoriesWf, retire_memoriesWf, refuseWord_memoriesWf]

theorem finishSlot_memoriesWf {s t : State} {i : Instr} (hs : s.memoriesWf = true)
    (ht : s.finishSlot i = .next t) : t.memoriesWf = true := by
  unfold State.finishSlot at ht
  grind -ring -linarith -lia [exec_memoriesWf, afterSlot_memoriesWf, poisonTaken_memoriesWf]

/-- Settles O60: every operation of the model keeps the canonical form of every memory, one lemma each above;
hence every arm of `exec` does, and with it the slot that issues and what the module does between slots. -/
theorem stepKeepsMemories : Obligations.StepKeepsMemories := by
  unfold Obligations.StepKeepsMemories
  intro s t hs ht
  unfold step at ht
  split at ht
  · refine exec_memoriesWf ?_ ht
    exact memoriesWf_congr hs rfl rfl rfl rfl rfl
  · split at ht
    · obtain ⟨hdone, hrun⟩ := slotAct_memoriesWf hs
      split at ht
      · next v hv => exact Host.Outcome.next.inj ht ▸ hdone v hv
      · next i v hv => exact finishSlot_memoriesWf (hrun i v hv) ht
    · cases ht
      exact auto_memoriesWf hs

end Sys2Proof.Machine
end

section
/-! SUPPORT. What the module holds after reset (O59). -/

namespace Sys2Proof.Machine

theorem reset_die (d : Nat) : State.reset.die d = Die.reset := List.getElem?_getD_replicate_default_eq Die.reset 4 d

theorem reset_fn (f : Nat) : State.reset.fn f = Fn.reset := List.getElem?_getD_replicate_default_eq Fn.reset 32 f

theorem reset_reg (w n : Nat) : (State.reset.warp w).reg n = VReg.reset := List.getElem?_getD_replicate_default_eq VReg.reset 128 n

theorem reset_landing (c n : Nat) : State.reset.landing c n = Landing.reset := List.getElem?_getD_replicate_default_eq Landing.reset 8 n

/-- Settles O59, table by table: the tables are empty, and the lists of dies, functions, registers and landings hold reset entries. -/
theorem resetState : Obligations.ResetState := by
  unfold Obligations.ResetState
  refine ⟨rfl, fun _ => ⟨rfl, rfl⟩, fun w => ⟨rfl, rfl, reset_reg w⟩, reset_landing, fun d _ => ?_, fun f => ?_, rfl, rfl, rfl,
    fun _ => rfl, rfl, rfl, rfl⟩
  · rw [reset_die]
    exact ⟨rfl, rfl, rfl, rfl, rfl, rfl⟩
  · rw [reset_fn]
    exact ⟨rfl, rfl, rfl, rfl⟩

end Sys2Proof.Machine
end

section
/-! SUPPORT. How the words of system instructions decode (R71, R95, R372). -/

namespace Sys2Proof

/-- Steps 2 to 4 of R95 let the word of a `sys` cell pass at the last slot of a clause of that class. -/
theorem decodeWord_sys {f : Fields} {row : CellRow} (hrow : cellRow f.opc.toNat = some row) (hcls : row.cls = some 5) (slot : Nat) :
    decodeWord 5 slot true f.toWord = decodeCell row f := by
  rw [decodeWord, ofWord_toWord, decodeFields, hrow]
  simp [hcls]

/-- A well-formed instruction of class `sys` decodes there to itself. -/
theorem decodeWord_sys_encode {i : Instr} {w : DWord} {f : Fields} {row : CellRow} (hwf : i.wf = true) (henc : encode i = some w)
    (hf : encodeFields i = some f) (hrow : cellRow f.opc.toNat = some row) (hcls : row.cls = some 5) (slot : Nat) :
    decodeWord 5 slot true w = .ok i := by
  rw [encode, hf] at henc
  obtain rfl := Option.some.inj henc
  rw [decodeWord_sys hrow hcls slot]
  simp only [decodeCell, checkType_encode i f row hwf hf hrow, checkRegs_encode i f row hwf hf hrow, checkRest_encode i f row hwf hf hrow,
    build_encode i f hf]

/-- The last check of step 7 (R372): an instruction that takes no guard has one. -/
theorem checkRest_guarded {f : Fields} {row : CellRow} (hsub : row.subs.contains f.sub = true)
    (hopc : f.opc = 0x14 ∨ f.opc = 0x15 ∨ f.opc = 0x16) (hmod : row.fmt = .R → f.m = 0) (himm : f.opc = 0x16 → f.b = 0 ∧ f.c = 0)
    (hguard : f.pr ≠ 15 ∨ f.pn ≠ 0) : checkRest row f = some (f.refuse .prefixRsvd 10 ((f.pn ++ f.pr).setWidth 16)) := by
  have hmask : ¬(row.fmt = .R ∧ ¬f.m &&& ~~~modMask row f = 0#8) := fun ⟨hr, hne⟩ => hne (by simp [hmod hr])
  have hsub' : f.sub ∈ row.subs := List.contains_iff_mem.1 hsub
  have hguard' : ¬f.pr = 15#4 ∨ ¬f.pn = 0#1 := hguard
  unfold checkRest
  rcases hopc with h | h | h
  · simp [h, hsub', hguard', hmask]
  · simp [h, hsub', hguard', hmask]
  · obtain ⟨hb, hc⟩ := himm h
    simp [h, hsub', hguard', hmask, hb, hc]

/-- A `sys` cell that is refused for its guard alone: its type and its registers are those of the instruction without the guard (R372). -/
theorem decodeWord_guarded {i : Instr} {f f' : Fields} {row : CellRow} (hwf : i.wf = true) (hf' : encodeFields i = some f')
    (hrow : cellRow f'.opc.toNat = some row) (hopc : f.opc = f'.opc) (hcls : row.cls = some 5) (htype : checkType row f = checkType row f')
    (hregs : checkRegs row f = checkRegs row f') (hrest : checkRest row f = some (f.refuse .prefixRsvd 10 ((f.pn ++ f.pr).setWidth 16)))
    (slot : Nat) : ∃ d, decodeWord 5 slot true f.toWord = .error (.prefixRsvd, d) := by
  refine ⟨insnDetail f.opc 10 ((f.pn ++ f.pr).setWidth 16), ?_⟩
  rw [decodeWord_sys (hopc ▸ hrow) hcls slot]
  simp only [decodeCell, htype, hregs, checkType_encode i f' row hwf hf' hrow, checkRegs_encode i f' row hwf hf' hrow, hrest]
  rfl

/-- The guard as a word has it (R78). -/
theorem guard_bits {p : Pre} (h : p.pr ≠ 15 ∨ p.pn = true) : p.pr ≠ 15#4 ∨ (if p.pn then 1#1 else 0#1) ≠ 0#1 := by
  rcases h with h | h
  · exact .inl h
  · exact .inr (by simp [h])

theorem decodeWord_rtt_guarded {p : Pre} (h : p.pr ≠ 15 ∨ p.pn = true) (slot : Nat) :
    ∃ d, decodeWord 5 slot true (encR p 0x14 0 0 .vz .vz .vz .vz 0).toWord = .error (.prefixRsvd, d) :=
  decodeWord_guarded (i := .rtt ⟨p.sw, p.hold, false, 15⟩) (f := encR p 0x14 0 0 .vz .vz .vz .vz 0) rfl rfl rfl rfl rfl rfl rfl
    (checkRest_guarded rfl (.inl rfl) (fun _ => rfl) (fun h => absurd h (by simp)) (guard_bits h)) slot

theorem decodeWord_halt_guarded {p : Pre} (h : p.pr ≠ 15 ∨ p.pn = true) (slot : Nat) :
    ∃ d, decodeWord 5 slot true (encR p 0x15 0 0 .vz .vz .vz .vz 0).toWord = .error (.prefixRsvd, d) :=
  decodeWord_guarded (i := .halt ⟨p.sw, p.hold, false, 15⟩) (f := encR p 0x15 0 0 .vz .vz .vz .vz 0) rfl rfl rfl rfl rfl rfl rfl
    (checkRest_guarded rfl (.inr (.inl rfl)) (fun _ => rfl) (fun h => absurd h (by simp)) (guard_bits h)) slot

theorem decodeWord_srwr_guarded {p : Pre} {wide : Bool} {sr : BitVec 8} {a : Reg} (h : p.pr ≠ 15 ∨ p.pn = true)
    (hwf : (Instr.srwr ⟨p.sw, p.hold, false, 15⟩ wide sr a).wf = true) (slot : Nat) :
    ∃ d, decodeWord 5 slot true (encI p 0x16 (wideCode wide) 0 .vz a (sr.setWidth 24)).toWord = .error (.prefixRsvd, d) :=
  decodeWord_guarded (f := encI p 0x16 (wideCode wide) 0 .vz a (sr.setWidth 24)) hwf rfl rfl rfl rfl rfl rfl
    (checkRest_guarded rfl (.inr (.inr rfl)) (fun h => nomatch h) (fun _ => ⟨sreg_high sr, sreg_mid sr⟩) (guard_bits h)) slot

end Sys2Proof

namespace Sys2Proof.Machine

/-- A system instruction that no lane executes does nothing (R253). -/
theorem system_none {s : State} {m : Mask} (hm : m = 0) (act : State → Mask → State) : s.system m act = s := if_pos hm

/-- Settles O15. `RTT`, `HALT` and `SRWR` are refused for their guard alone; `CACHE` and `TLBI` decode to themselves, and do nothing where no lane
executes them (`system_none`). -/
theorem systemGuards : Obligations.SystemGuards := by
  unfold Obligations.SystemGuards
  intro slot p wide sr op tl a b off w guarded
  refine ⟨fun hg i hi henc => ?_, fun hg henc hwf => ?_, fun henc hwf => ?_, fun henc hwf => ?_, fun s hm => ?_⟩
  · rcases List.mem_pair.1 hi with rfl | rfl
    · cases henc
      exact decodeWord_rtt_guarded hg slot
    · cases henc
      exact decodeWord_halt_guarded hg slot
  · cases henc
    exact decodeWord_srwr_guarded hg hwf slot
  · exact decodeWord_sys_encode hwf henc rfl rfl rfl slot
  · exact decodeWord_sys_encode hwf henc rfl rfl rfl slot
  · exact ⟨⟨_, rfl, system_none hm _⟩, _, rfl, system_none hm _⟩

end Sys2Proof.Machine
end

section
/-! SUPPORT. The system instructions: what their slot raises and when it acts (R253, R345, R371). -/

namespace Sys2Proof.Machine

/-! ### Grades -/

/-- A cause at handler grade is taken as the `TRAP_IN_HANDLER` that stands for it (R345). -/
theorem takeHere_atGrade {wp : Warp} {lb : Nat} {g : Seg} (r : Raise) (now : Nat) (hg : wp.segAt lb = some g) :
    wp.takeHere lb r now = wp.takeHere lb (r.atGrade g) now := by
  have hplaced : ∀ hdr, (r.placed hdr).atGrade g = ((r.atGrade g).placed hdr).atGrade g := fun hdr => by
    unfold Raise.atGrade Raise.placed
    grind
  unfold Warp.takeHere
  rw [hg]
  cases wp.clause with
  | none => rfl
  | some c => simp only [hplaced]

theorem takeAt_atGrade {s : State} {g : Seg} {r : Raise} (hg : s.curWarp.segAt g.lbase = some g) (hr : r.leavesNothing)
    (hr' : (r.atGrade g).leavesNothing) : s.takeAt s.cur g.lbase r = s.takeAt s.cur g.lbase (r.atGrade g) := by
  unfold State.takeAt
  rw [metAll_eq s _ _ r hr, metAll_eq s _ _ _ hr']
  have h : (s.onWarp s.cur fun wp => wp.takeHere g.lbase r s.now) = s.onWarp s.cur fun wp => wp.takeHere g.lbase (r.atGrade g) s.now :=
    congrArg (s.setWarp s.cur) (takeHere_atGrade r s.now hg)
  rw [h]

section
variable {s : State} {g : Seg} {m : Mask}

theorem privFault_firmware (wp : Warp) (hf : g.firmware = true) (hg : g.handler &&& g.rel m = 0) : wp.privFault g m = none := by
  simp [Warp.privFault, hg, hf]

/-- What a segment at program grade raises (R354). -/
theorem privFault_program (wp : Warp) (hf : g.firmware = false) (hg : g.handler &&& g.rel m = 0) :
    ∃ d, wp.privFault g m = some { code := 0x07, mask := g.rel m, detail := d } := by
  simp [Warp.privFault, hg, hf]

/-- What a segment at handler grade raises (R371). -/
theorem privFault_handler (wp : Warp) (hg : g.handler &&& g.rel m = g.rel m) (hm : g.rel m ≠ 0) :
    wp.privFault g m = some { code := 0x08, mask := g.rel m, detail := 0 } := by
  have hrel : ¬g.rel m = 0#64 := hm
  simp [Warp.privFault, hg, hrel]

/-! ### The slot of a system instruction -/

section
variable (ha : Alone s g m) (hm : m ≠ 0) (hw : s.curWarp.window = none) (hl : s.curWarp.sideLog = []) (act : State → Mask → State)
include ha hm hw hl

/-- A segment that may not run the instruction takes its cause, and nothing else happens. -/
theorem system_refused {r : Raise} (hr : s.curWarp.privFault g m = some r) : s.system m act = s.takeAt s.cur g.lbase r := by
  have hrs : (s.curWarp.raises m fun g => s.curWarp.privFault g m) = [(g.lbase, r)] := by simp [Warp.raises, ha.only, hr]
  have hstop : s.curWarp.stoppedBy [(g.lbase, r)] = g.slots := by simp [Warp.stoppedBy, ha.here]
  have hm' : ¬m = 0#64 := hm
  unfold State.system
  simp [hm', hw, hl, hrs, hstop, ha.all, State.takeAll]

/-- A segment that may run it acts. -/
theorem system_acts (hr : s.curWarp.privFault g m = none) : s.system m act = act (s.onWarp s.cur Warp.acted) m := by
  have hrs : (s.curWarp.raises m fun g => s.curWarp.privFault g m) = [] := by simp [Warp.raises, ha.only, hr]
  have hm' : ¬m = 0#64 := hm
  unfold State.system
  simp [hm', hw, hl, hrs, State.takeAll, stoppedBy_nil]

end

/-- At program grade a system instruction raises `PRIV_CLAUSE` (R354). -/
theorem takeAt_program (ha : Alone s g m) (d : Word) (hr : g.record = none) (hg : g.handler &&& g.rel m = 0) :
    Traps s (s.takeAt s.cur g.lbase { code := 0x07, mask := g.rel m, detail := d }) g m 0x07 fun _ => True :=
  takeAt_traps_at s g m 0x07 d [] _ ha (.inl hr) (by decide) (by decide) (.inl hg) fun _ _ _ => trivial

/-- At handler grade it raises `TRAP_IN_HANDLER` with 0x08 (R345, R371). -/
theorem takeAt_handler (ha : Alone s g m) (hg : g.handler &&& g.rel m = g.rel m) (hm : g.rel m ≠ 0) :
    Traps s (s.takeAt s.cur g.lbase { code := 0x08, mask := g.rel m, detail := 0 }) g m 0x19 fun x => x.detail = 8 := by
  have hat : Raise.atGrade { code := 0x08, mask := g.rel m, detail := 0 } g = { code := 0x19, mask := g.rel m, detail := 8 } := by
    have hrel : ¬g.rel m = 0#64 := hm
    simp [Raise.atGrade, hg, hrel]
  have hleaves : ∀ (code : Nat) (d : Word), code < 0x74 → Raise.leavesNothing { code := code, mask := g.rel m, detail := d } :=
    fun code d h => ⟨by dsimp only; omega, .inl h⟩
  rw [takeAt_atGrade ha.here (hleaves _ _ (by decide)) (hat ▸ hleaves _ _ (by decide)), hat]
  exact takeAt_traps_at s g m 0x19 8 [] _ ha (.inr (.inr rfl)) (by decide) (by decide) (.inr (.inr rfl)) fun _ h _ => h

/-! ### `RTT` -/

theorem tab_put_self {α : Type} (t : Tab α) (k : Nat) (v : α) (h : t.find k = some v) : t.put k v = t := by
  induction t with
  | nil => cases h
  | cons x rest ih =>
    obtain ⟨j, u⟩ := x
    unfold Tab.find at h
    unfold Tab.put
    by_cases hj : j = k
    · simp_all
    · by_cases hlt : k < j
      · simp [hj, hlt] at h
      · simp only [hj, hlt, if_false] at h ⊢
        rw [ih h]

/-- The warp that stands at a slot, put where it stands. -/
theorem setWarp_cur_self (hc : s.curWarp.clause.isSome = true) : s.setWarp s.cur s.curWarp = s := by
  have hfind : s.warps.find s.cur = some s.curWarp := by
    unfold State.curWarp State.warp at hc ⊢
    cases h : s.warps.find s.cur with
    | none => simp [h, Warp.reset] at hc
    | some x => rfl
  rw [State.setWarp, tab_put_self _ _ _ hfind]

/-- No result is on its way: there is nothing to make visible (R62). -/
theorem flush_of_pends (hp : s.pends = []) : s.curWarp.flush = s.curWarp := by
  have hpend : s.curWarp.clauseAt.pend = [] := hp
  have hbare : (s.curWarp.clause.map fun (c : Clause) => { c with at_ := { c.at_ with pend := [] } }) = s.curWarp.clause := by
    cases hc : s.curWarp.clause with
    | none => rfl
    | some c =>
      simp only [Warp.clauseAt, hc, Option.map_some, Option.getD_some] at hpend
      rw [Option.map_some, ← hpend]
  unfold Warp.flush
  rw [hpend]
  exact congrArg (fun c => { s.curWarp with clause := c }) hbare

theorem execRtt_refused (p : Pre) (ha : Alone s g (s.curWarp.execMask p)) (hf : g.firmware = false)
    (hg : g.handler &&& g.rel (s.curWarp.execMask p) = 0) {r : Raise} (hr : s.curWarp.privFault g (s.curWarp.execMask p) = some r) :
    execRtt p s = .next ((s.onWarp s.cur Warp.flush).takeAt s.cur g.lbase r) := by
  unfold execRtt
  simp [ha.only, hf, hg, hr]

end

/-- Settles O22. At program grade the four instructions are `system_refused` and `RTT` is refused in its segment (`takeAt_program`); at handler grade
the cause is `TRAP_IN_HANDLER` (`takeAt_handler`). -/
theorem privilege : Obligations.Privilege := by
  unfold Obligations.Privilege
  intro s p g wide sr op tl a b off m ha hm
  refine ⟨fun hf hr hg => ?_, fun i hi hw hl => ?_⟩
  · obtain ⟨d, hd⟩ := privFault_program s.curWarp hf hg
    refine ⟨_, execRtt_refused p ha hf hg hd, fun hp => ?_⟩
    have hflush : s.onWarp s.cur Warp.flush = s := (congrArg (s.setWarp s.cur) (flush_of_pends hp)).trans (setWarp_cur_self ha.inClause)
    rw [hflush]
    exact takeAt_program ha d hr hg
  · have hexec : ∃ act, exec i s = .next (s.system m act) := by
      simp only [List.mem_cons, List.not_mem_nil, or_false] at hi
      rcases hi with rfl | rfl | rfl | rfl <;> exact ⟨_, rfl⟩
    obtain ⟨act, hexec⟩ := hexec
    refine ⟨fun hf hr hg => ⟨_, hexec, ?_⟩, fun hg hrel => ⟨_, hexec, ?_⟩⟩
    · obtain ⟨d, hd⟩ := privFault_program s.curWarp hf hg
      rw [system_refused ha hm hw hl act hd]
      exact takeAt_program ha d hr hg
    · rw [system_refused ha hm hw hl act (privFault_handler s.curWarp hg hrel)]
      exact takeAt_handler ha hg hrel

end Sys2Proof.Machine
end

section
/-! SUPPORT. `HALT`, `SRWR`, `CACHE` and `TLBI` under firmware, and `FENCE` (R231, R255 to R258). -/

namespace Sys2Proof.Machine

/-! ### A warp slot whose slot has acted -/

theorem place_warps (s : State) (ws : Tab Warp) (q : Asker) (gid : Nat) (acc : Access) (size : Nat) (va : DWord) :
    ({ s with warps := ws } : State).place q gid acc size va = s.place q gid acc size va := by
  have hx : ({ s with warps := ws } : State).xlate q acc va = s.xlate q acc va := by
    unfold State.xlate
    simp only [walk_warps]
    rfl
  unfold State.place
  rw [hx]
  rfl

/-- Where a lane's access goes does not depend on the clause at which its warp stands. -/
theorem lanePlace_acted (s : State) (l : Nat) (acc : Access) (size : Nat) (va : DWord) :
    (s.onWarp s.cur Warp.acted).lanePlace s.cur l acc size va = s.lanePlace s.cur l acc size va := by
  have hsegs : ((s.onWarp s.cur Warp.acted).warp s.cur).segs = (s.warp s.cur).segs := by rw [warp_onWarp_same]; rfl
  have hgid : ((s.onWarp s.cur Warp.acted).warp s.cur).gidOf l = (s.warp s.cur).gidOf l := by rw [warp_onWarp_same]; rfl
  unfold State.lanePlace
  rw [hgid]
  exact (place_warps s _ _ _ _ _ _).trans (congrArg (s.place · _ acc size va) (laneAsker_warps s _ s.cur l hsegs))

section
variable (wp : Warp)

@[simp] theorem latched_acted (n : Nat) : wp.acted.latched n = wp.latched n := by
  unfold Warp.latched Warp.slotNo
  rw [acted_clauseAt]

@[simp] theorem srcReg_acted (n : Nat) : wp.acted.srcReg n = wp.srcReg n := by
  rw [Warp.srcReg, latched_acted]
  rfl

@[simp] theorem val32_acted (r : Reg) (l : Nat) : wp.acted.val32 r l = wp.val32 r l := by
  cases r with
  | v n => exact congrArg (VReg.word · l) (srcReg_acted wp n.toNat)
  | p n | u n | vz => rfl

@[simp] theorem val64_acted (r : Reg) (l : Nat) : wp.acted.val64 r l = wp.val64 r l := by
  cases r with
  | v n => simp only [Warp.val64, srcReg_acted]
  | p n | u n | vz => rfl

@[simp] theorem val_acted (wide : Bool) (r : Reg) (l : Nat) : wp.acted.val wide r l = wp.val wide r l := by
  simp only [Warp.val, val32_acted, val64_acted]

@[simp] theorem ea_acted (a b : Reg) (off : BitVec 16) (size l : Nat) : wp.acted.ea a b off size l = wp.ea a b off size l := by
  simp only [Warp.ea, val32_acted, val64_acted]

end

/-! ### `SRWR` -/

theorem lead_lt {g : Seg} {m : Mask} {l : Nat} (hlead : g.lead m = some l) : l < 64 :=
  BitVec.lt_of_getLsbD ((mem_lanesOf _ l).1 (List.mem_of_head? hlead))

theorem uni_lead {wp : Warp} {g : Seg} {m : Mask} {l : Nat} (hlead : g.lead m = some l) (wide : Bool) (r : Reg) :
    wp.uni g m wide r = wp.val wide r l := by
  simp [Warp.uni, hlead]

section
variable {s : State} {p : Pre} {g : Seg}

/-- One segment under firmware stands alone at the slot: what `SRWR` does is the write of its register. -/
theorem execSrwr_alone {wide : Bool} {sr : BitVec 8} {a : Reg} {l : Nat} (ha : Alone s g (s.curWarp.execMask p)) (hm : s.curWarp.execMask p ≠ 0)
    (hlead : g.lead (s.curWarp.execMask p) = some l) (hf : g.firmware = true) (hg : g.handler &&& g.rel (s.curWarp.execMask p) = 0)
    (hw : s.curWarp.window = none) (hl : s.curWarp.sideLog = []) :
    execSrwr p wide sr a s = .next ((s.onWarp s.cur Warp.acted).srwrSeg g sr.toNat (s.curWarp.val wide a l)) := by
  have honly : s.curWarp.acted.segsIn (s.curWarp.execMask p) = [g] := ha.only
  have huni : s.curWarp.acted.uni g (s.curWarp.execMask p) wide a = s.curWarp.val wide a l :=
    (uni_lead hlead wide a).trans (val_acted _ _ _ _)
  unfold execSrwr
  rw [system_acts ha hm hw hl _ (privFault_firmware _ hf hg), curWarp_onWarp, honly, List.foldl_cons, List.foldl_nil, curWarp_onWarp, huni]

/-- What a write of a special register keeps, and the segment that it leaves. -/
def SrwrLeaves (s : State) (g : Seg) (P : Seg → State → Prop) (t : State) : Prop :=
  t.apart s.cur = s.apart s.cur ∧ t.curWarp.regs = s.curWarp.regs ∧ t.curWarp.preds = s.curWarp.preds ∧ t.curWarp.pcs = s.curWarp.pcs ∧
    ∃ h, t.curWarp.segAt g.lbase = some h ∧ P h t

theorem SrwrLeaves.of_puts {s t : State} {v : Warp} {h : Seg} {P : Seg → State → Prop} (ht : Puts s t v) (hregs : v.regs = s.curWarp.regs)
    (hpreds : v.preds = s.curWarp.preds) (hpcs : v.pcs = s.curWarp.pcs) (hseg : v.segAt g.lbase = some h) (hP : P h t) : SrwrLeaves s g P t :=
  ⟨ht.apart, ht.warp ▸ hregs, ht.warp ▸ hpreds, ht.warp ▸ hpcs, h, ht.warp ▸ hseg, hP⟩

/-- A register of the segment itself. -/
theorem srwrLeaves_onSeg (hhere : s.curWarp.segAt g.lbase = some g) {f : Seg → Seg} (hf : ∀ x, (f x).lbase = x.lbase) :
    SrwrLeaves s g (fun h t => h = f g ∧ t.curWarp.fpflags = s.curWarp.fpflags)
      ((s.onWarp s.cur Warp.acted).onWarp s.cur fun wp => wp.onSeg g.lbase f) := by
  have hputs : Puts s ((s.onWarp s.cur Warp.acted).onWarp s.cur fun wp => wp.onSeg g.lbase f) (s.curWarp.acted.onSeg g.lbase f) :=
    (puts_setWarp s s.curWarp.acted).onWarp _
  exact .of_puts hputs rfl rfl rfl (segAt_onSeg s.curWarp.acted g.lbase f g hhere hf) ⟨rfl, (congrArg Warp.fpflags hputs.warp :)⟩

/-- The flags of the warp. -/
theorem srwrLeaves_flags (hhere : s.curWarp.segAt g.lbase = some g) (v : BitVec 5) :
    SrwrLeaves s g (fun h t => h = g ∧ t.curWarp.fpflags = v) ((s.onWarp s.cur Warp.acted).onWarp s.cur fun wp => { wp with fpflags := v }) := by
  have hputs := (puts_setWarp s s.curWarp.acted).onWarp fun wp => { wp with fpflags := v }
  exact .of_puts hputs rfl rfl rfl hhere ⟨rfl, congrArg Warp.fpflags hputs.warp⟩

end

/-! ### `HALT` -/

theorem setAt_die (s : State) (d : Nat) : setAt s.dies d (s.die d) = s.dies := by
  unfold setAt State.die
  by_cases h : d < s.dies.length
  · rw [List.getD_eq_getElem _ _ h, List.set_getElem_self]
  · exact List.set_eq_of_length_le (by omega)

/-- A wake that is kept for lanes that halt is used up (R255). -/
theorem porterWake_halt {s : State} {d : Nat} (hdie : d < s.dies.length) (w : Nat) (m : Mask) :
    (((s.onDie d fun x => { x with
      porterWake := if ((s.die d).porterWake.find w).getD 0 = 0 then x.porterWake else
        x.porterWake.put w (((s.die d).porterWake.find w).getD 0 &&& ~~~m) }).die d).porterWake.find w).getD 0 =
      ((s.die d).porterWake.find w).getD 0 &&& ~~~m := by
  rw [die_onDie_same _ _ _ hdie]
  by_cases hwoken : ((s.die d).porterWake.find w).getD 0 = 0
  · simp only [hwoken, if_true]
    exact (BitVec.zero_and).symm
  · simp only [hwoken, if_false, tab_find_put_same, Option.getD_some]

/-- Lanes that do not halt keep what holds them. -/
theorem holdLanes_find_other (wp : Warp) (m : Mask) (h : LaneHold) (l : Nat) (hl : m.getLsbD l = false) :
    (wp.holdLanes m h).holds.find l = wp.holds.find l := by
  refine List.foldlRecOn (motive := fun t : Tab LaneHold => t.find l = wp.holds.find l) (lanesOf m) _ rfl fun t ht k hk => ?_
  have hne : l ≠ k := fun e => by rw [e, (mem_lanesOf m k).1 hk] at hl; cases hl
  rw [tab_find_put_other t k l h hne, ht]

/-! ### `CACHE` -/

/-- Dirty copies of a line written back (R257). -/
theorem cleanLine_eq (s : State) (line : Nat) : ∃ u, Told s u ∧ s.cleanLine line = { u with l1 := s.l1.mapV fun k (x : L1Line) =>
    if k % 2 ^ 34 = line ∧ x.dirty then { x with dirty := false, way := x.way.written } else x } := by
  unfold State.cleanLine
  dsimp only
  split
  · have ht := idlePoison_told s (homeDie (line * 128)) (line * 128) 128
    exact ⟨_, ht, by rw [ht.same State.l1 fun _ _ _ _ => rfl]⟩
  · exact ⟨s, Told.refl s, rfl⟩

/-- A write-back leaves memory and the warp slots, and no dirty copy of its line (R257). -/
theorem cleanLine_keeps (s : State) (line : Nat) : (s.cleanLine line).mem = s.mem ∧ (s.cleanLine line).spad = s.spad ∧
    (s.cleanLine line).warps = s.warps ∧ (s.cleanLine line).cur = s.cur ∧ (s.cleanLine line).l1.map Prod.fst = s.l1.map Prod.fst ∧
    ∀ q ∈ (s.cleanLine line).l1, q.1 % 2 ^ 34 = line → q.2.dirty = false := by
  obtain ⟨u, hu, he⟩ := cleanLine_eq s line
  rw [he]
  refine ⟨hu.same State.mem fun _ _ _ _ => rfl, hu.same State.spad fun _ _ _ _ => rfl, hu.same State.warps fun _ _ _ _ => rfl,
    hu.same State.cur fun _ _ _ _ => rfl, by simp [Tab.mapV, Function.comp_def], fun q hq hline => ?_⟩
  obtain ⟨x, -, rfl⟩ := List.mem_map.1 hq
  cases hd : x.2.dirty <;> simp_all

/-- A line dropped from every L1 and annex (R165, R257). -/
theorem dropLine_keeps (s : State) (w line : Nat) : (s.dropLine w line).mem = s.mem ∧ (s.dropLine w line).spad = s.spad ∧
    (∀ k, ((s.dropLine w line).warp k).regs = (s.warp k).regs) ∧ (s.dropLine w line).cur = s.cur ∧
    (∀ q ∈ (s.dropLine w line).l1, q.1 % 2 ^ 34 ≠ line) ∧ ∀ q ∈ (s.dropLine w line).annex, q.1 % 2 ^ 34 ≠ line := by
  refine ⟨rfl, rfl, fun k => ?_, rfl, fun q hq => ?_, fun q hq => ?_⟩
  · unfold State.dropLine State.hitWhere State.warp
    rw [tab_find_mapV]
    cases s.warps.find k with
    | none => rfl
    | some x =>
      simp only [Option.map_some, Option.getD_some]
      split
      · split <;> rfl
      · rfl
  · simpa using (List.mem_filter.1 hq).2
  · simpa using (List.mem_filter.1 hq).2

theorem lanesOf_laneBit {l : Nat} (hl : l < 64) : lanesOf (laneBit l) = [l] := by
  have h : ∀ l < 64, lanesOf (laneBit l) = [l] := by decide
  exact h l hl

theorem tab_mem_put {α : Type} {t : Tab α} {k : Nat} {v : α} {q : Nat × α} (h : q ∈ t.put k v) : q = (k, v) ∨ q ∈ t := by
  induction t with
  | nil => exact .inl (List.mem_singleton.1 h)
  | cons x rest ih =>
    unfold Tab.put at h
    split at h
    · exact (List.mem_cons.1 h).imp_right (List.mem_cons_of_mem _)
    split at h
    · exact List.mem_cons.1 h
    · rcases List.mem_cons.1 h with rfl | h
      · exact .inr List.mem_cons_self
      · exact (ih h).imp_right (List.mem_cons_of_mem _)

/-- No access is on its way (R258). -/
theorem xlatInUse_quiet {u : State} (hops : u.homeOps = []) (hwarps : ∀ q ∈ u.warps, q.2.window = none ∧ q.2.sideLog = [])
    (hit : Xlat → Bool) :
    u.xlatInUse hit = false := by
  unfold State.xlatInUse
  rw [List.any_eq_false]
  rintro ⟨w, wp⟩ hq
  obtain ⟨hwin, hlog⟩ := hwarps _ hq
  simp only at hwin hlog
  simp [hwin, hlog, hops]

section
variable {s : State} {p : Pre} {g : Seg} (ha : Alone s g (s.curWarp.execMask p)) (hf : g.firmware = true)
  (hg : g.handler &&& g.rel (s.curWarp.execMask p) = 0) (hw : s.curWarp.window = none) (hl : s.curWarp.sideLog = [])
include ha hf hg hw hl

/-- Under firmware a system instruction of one segment acts at once. -/
theorem system_firmware (act : State → Mask → State) :
    s.system (s.curWarp.execMask p) act = act (s.onWarp s.cur Warp.acted) (s.curWarp.execMask p) :=
  system_acts ha (fun h => ha.some_lane (by rw [ha.slots_and, h])) hw hl act (privFault_firmware _ hf hg)

/-- `HALT` of a segment that stands alone: the lanes halt for which no wake is kept (R255). -/
theorem execHalt_alone : execHalt p s = .next (((s.onWarp s.cur Warp.acted).onDie (dieOf s.cur) fun d => { d with
      porterWake := if ((s.die (dieOf s.cur)).porterWake.find s.cur).getD 0 = 0 then d.porterWake else
        d.porterWake.put s.cur (((s.die (dieOf s.cur)).porterWake.find s.cur).getD 0 &&& ~~~s.curWarp.execMask p) }).onWarp s.cur fun wp =>
    wp.holdLanes (s.curWarp.execMask p &&& ~~~((s.die (dieOf s.cur)).porterWake.find s.cur).getD 0) (wp.holdHere .halt s.now)) := by
  unfold execHalt
  rw [system_firmware ha hf hg hw hl]
  rfl

/-- `CACHE` of one lane: the line of its address (R257). -/
theorem execCache_alone {op : CacheOp} {a b : Reg} {off : BitVec 16} {l pa : Nat} (hm : s.curWarp.execMask p = laneBit l) (hl64 : l < 64)
    (hplace : s.lanePlace s.cur l .load 1 (s.curWarp.ea a b off 128 l) = .ok ⟨.hbm pa, none⟩) :
    execCache p op a b off s = .next (match op with
      | .wb => ((s.onWarp s.cur Warp.acted).cleanLine (pa / 128)).flushL2 (pa / 128) true
      | .inv => ((s.onWarp s.cur Warp.acted).cleanLine (pa / 128)).dropLine s.cur (pa / 128)
      | .wbinv => (((s.onWarp s.cur Warp.acted).cleanLine (pa / 128)).flushL2 (pa / 128) false).dropLine s.cur (pa / 128)) := by
  have hat : (s.onWarp s.cur Warp.acted).lanePlace s.cur l .load 1 ((s.onWarp s.cur Warp.acted).curWarp.ea a b off 128 l) =
      .ok ⟨.hbm pa, none⟩ := by
    rw [lanePlace_acted, curWarp_onWarp, ea_acted, hplace]
  unfold execCache
  rw [system_firmware ha hf hg hw hl, hm, lanesOf_laneBit hl64, List.foldl_cons, List.foldl_nil, onWarp_cur, hat]
  cases op with
  | wb | inv | wbinv => rfl

/-- `TLBI` without operands, while no access is on its way (R258). -/
theorem execTlbi_all {a b : Reg} (hops : s.homeOps = []) (hwarps : ∀ q ∈ s.warps, q.2.window = none ∧ q.2.sideLog = []) :
    execTlbi p .all a b s = .next { s.onWarp s.cur Warp.acted with xlats := [] } := by
  have hquiet : ∀ q ∈ (s.onWarp s.cur Warp.acted).warps, q.2.window = none ∧ q.2.sideLog = [] := by
    intro q hq
    rcases tab_mem_put hq with rfl | hq
    · exact ⟨hw, hl⟩
    · exact hwarps q hq
  obtain ⟨l, hlane⟩ := exists_lane _ ha.some_lane
  rw [ha.slots_and, ← mem_lanesOf] at hlane
  have hidle := xlatInUse_quiet (u := s.onWarp s.cur Warp.acted) hops hquiet
  have hright : ∀ l : List Nat, (l.any fun _ => false) = false := fun l => by simp
  unfold execTlbi
  rw [system_firmware ha hf hg hw hl]
  simp [hidle, tlbiHits, hright]
  exact fun _ _ => ⟨l, hlane⟩

end

/-! ### `FENCE` -/

theorem dropCode_all (s : State) (core : Nat) :
    ∃ u, Told s u ∧ s.dropCode core (fun _ => true) = u.onCore core fun c => { c with icache := [] } := by
  refine ⟨((((s.core core).icache.filter fun _ => true).flatMap CodeLine.bad).foldl (fun s g => s.post 0xB5
    { addr := BitVec.ofNat 64 (32 * g), detail := Config.openDetail 0xB5, die := core / 256, core := core % 256 }) s),
    told_foldl (fun t _ => post_told t _ _) _ s, ?_⟩
  simp [State.dropCode]

theorem Told.core {s t : State} (h : Told s t) (c : Nat) : t.core c = s.core c := h.same (fun u => u.core c) fun _ _ _ _ => rfl
theorem Told.warp {s t : State} (h : Told s t) (w : Nat) : t.warp w = s.warp w := h.same (fun u => u.warp w) fun _ _ _ _ => rfl

/-- A change of a warp slot that keeps its registers keeps those of every warp slot. -/
theorem warp_regs_onWarp (t : State) (w k : Nat) {f : Warp → Warp} (hf : ∀ wp, (f wp).regs = wp.regs) :
    ((t.onWarp w f).warp k).regs = (t.warp k).regs := by
  by_cases h : k = w
  · rw [h, warp_onWarp_same, hf]
  · rw [warp_onWarp_other _ _ _ _ h]

theorem irrevocably_acts {s : State} (hact : s.curWarp.mayAct = true) (act : State → State) :
    s.irrevocably act = (act s).onWarp s.cur Warp.acted := if_pos hact

theorem execFence_acts {s : State} {p : Pre} (hm : s.curWarp.execMask p ≠ 0) (hact : s.curWarp.mayAct = true) (rec : Bool) :
    Completes (.fence p rec) s fun t => t.mem = s.mem ∧ t.spad = s.spad ∧ t.curWarp.regs = s.curWarp.regs ∧
      t.core (coreOf s.cur) = if rec then { s.core (coreOf s.cur) with recCache := [] } else { s.core (coreOf s.cur) with icache := [] } := by
  obtain ⟨u, hu, he⟩ := dropCode_all s (coreOf s.cur)
  have hcur : u.cur = s.cur := hu.same State.cur fun _ _ _ _ => rfl
  refine ⟨_, congrArg Host.Outcome.next ((if_neg hm).trans (irrevocably_acts hact _)), ?_⟩
  cases rec with
  | true =>
    simp only [if_true]
    refine ⟨rfl, rfl, ?_, (core_onCore_same s (coreOf s.cur) fun c => { c with recCache := [] } :)⟩
    rw [State.curWarp, warp_regs_onWarp]
    · rfl
    · exact fun _ => rfl
  | false =>
    simp only [Bool.false_eq_true, if_false, he]
    refine ⟨hu.same State.mem fun _ _ _ _ => rfl, hu.same State.spad fun _ _ _ _ => rfl, ?_, ?_⟩
    · rw [State.curWarp, warp_regs_onWarp, warp_regs_onWarp]
      · exact congrArg Warp.regs ((hu.warp u.cur).trans (congrArg s.warp hcur))
      · exact fun _ => rfl
      · exact fun _ => rfl
    · refine (core_onCore_same u (coreOf s.cur) fun c => { c with icache := [] }).trans ?_
      rw [hu.core]

/-- Settles O23. Under firmware `SRWR`, `HALT`, `CACHE` and `TLBI` are the `_alone` equations of this section; `FENCE` is `execFence_acts`. -/
theorem specialRegisters : Obligations.SpecialRegisters := by
  unfold Obligations.SpecialRegisters
  refine ⟨?srwr, ?rest⟩
  case srwr =>
    intro s p g wide a l wp m v ha hlead hf hg hw hl out
    have hm : m ≠ 0 := fun h => ha.some_lane (by rw [ha.slots_and, h])
    have hout : ∀ (sr : BitVec 8) (P : Seg → State → Prop), SrwrLeaves s g P ((s.onWarp s.cur Warp.acted).srwrSeg g sr.toNat v) → out sr P :=
      fun sr P h => ⟨_, execSrwr_alone ha hm hlead hf hg hw hl, h⟩
    refine ⟨fun hv => hout _ _ ?_, fun hv => hout _ _ ?_, hout _ _ ?_, fun h0 hmax => hout _ _ ?_, hout _ _ ?_⟩
    · exact (congrArg (SrwrLeaves s g _) (if_neg (not_not_intro hv))).mpr (srwrLeaves_onSeg ha.here fun _ => rfl)
    · exact (congrArg (SrwrLeaves s g _) (if_neg (not_not_intro hv))).mpr (srwrLeaves_onSeg ha.here fun _ => rfl)
    · exact srwrLeaves_flags ha.here _
    · exact (congrArg (SrwrLeaves s g _) (if_neg (by omega))).mpr (srwrLeaves_onSeg ha.here fun _ => rfl)
    · exact srwrLeaves_onSeg ha.here fun _ => rfl
  case rest =>
    intro s p g op a b off l pa rec wp m free woken
    refine ⟨?halt, ?cache, ?tlbi, fun hm hact => execFence_acts hm hact rec⟩
    case halt =>
      rintro ⟨ha, -, hf, hg, hw, hl⟩
      have hwarp : ∀ (d : Nat) (h : Die → Die) (f : Warp → Warp),
          (((s.onWarp s.cur Warp.acted).onDie d h).onWarp s.cur f).curWarp = f wp.acted :=
          fun d h f => (curWarp_onWarp ((s.onWarp s.cur Warp.acted).onDie d h) f).trans (congrArg f (curWarp_onWarp s Warp.acted))
      refine ⟨_, execHalt_alone ha hf hg hw hl, rfl, ?_, fun hwoken => ?_, fun hdie => ?_, fun k hk => ?_, fun k hk => ?_⟩
      · rw [hwarp]
        rfl
      · have hsame : (s.onWarp s.cur Warp.acted).onDie (dieOf s.cur) (fun d => { d with
            porterWake := if ((s.die (dieOf s.cur)).porterWake.find s.cur).getD 0 = 0 then d.porterWake else
              d.porterWake.put s.cur (((s.die (dieOf s.cur)).porterWake.find s.cur).getD 0 &&& ~~~s.curWarp.execMask p) }) =
            s.onWarp s.cur Warp.acted := by
          rw [show ((s.die (dieOf s.cur)).porterWake.find s.cur).getD 0 = 0 from hwoken]
          exact congrArg (fun ds => { s.onWarp s.cur Warp.acted with dies := ds }) (setAt_die s (dieOf s.cur))
        rw [hsame]
        exact ((puts_setWarp s wp.acted).onWarp _).apart
      · exact porterWake_halt (s := s.onWarp s.cur Warp.acted) hdie s.cur _
      · rw [hwarp, holdLanes_find _ _ _ _ hk]
        rfl
      · rw [hwarp, holdLanes_find_other]
        · rfl
        · rw [BitVec.getLsbD_and, Bool.and_eq_true] at hk
          have hwoken : (((s.die (dieOf s.cur)).porterWake.find s.cur).getD 0).getLsbD k = true := hk.2
          rw [BitVec.getLsbD_and, BitVec.getLsbD_not, hwoken]
          simp
    case cache =>
      rintro ⟨ha, hlead, hf, hg, hw, hl⟩ hm hplace
      refine ⟨_, execCache_alone ha hf hg hw hl hm (lead_lt hlead) hplace, ?_⟩
      obtain ⟨hmem, hspad, hwarps, hcur, hkeys, hclean⟩ := cleanLine_keeps (s.onWarp s.cur Warp.acted) (pa / 128)
      have hregs : (((s.onWarp s.cur Warp.acted).cleanLine (pa / 128)).warp s.cur).regs = wp.regs := by
        rw [State.warp, hwarps]
        exact (congrArg Warp.regs (curWarp_onWarp s Warp.acted) :)
      cases op with
      | wb =>
        exact ⟨hmem, hspad, (congrArg (fun w => (State.warp _ w).regs) hcur).trans hregs, fun _ => ⟨hkeys, hclean⟩, fun h => absurd rfl h⟩
      | inv =>
        obtain ⟨hmem', hspad', hregs', hcur', hl1, hannex⟩ := dropLine_keeps ((s.onWarp s.cur Warp.acted).cleanLine (pa / 128)) s.cur (pa / 128)
        exact ⟨hmem'.trans hmem, hspad'.trans hspad, (hregs' _).trans ((congrArg (fun w => (State.warp _ w).regs) hcur).trans hregs), nofun,
          fun _ => ⟨hl1, hannex⟩⟩
      | wbinv =>
        obtain ⟨hmem', hspad', hregs', hcur', hl1, hannex⟩ :=
          dropLine_keeps (((s.onWarp s.cur Warp.acted).cleanLine (pa / 128)).flushL2 (pa / 128) false) s.cur (pa / 128)
        exact ⟨hmem'.trans hmem, hspad'.trans hspad, (hregs' _).trans ((congrArg (fun w => (State.warp _ w).regs) hcur).trans hregs), nofun,
          fun _ => ⟨hl1, hannex⟩⟩
    case tlbi =>
      rintro ⟨ha, -, hf, hg, hw, hl⟩ hops hwarps
      exact ⟨_, execTlbi_all ha hf hg hw hl hops hwarps, rfl, rfl, warp_regs_onWarp s s.cur s.cur fun _ => rfl⟩

end Sys2Proof.Machine
end

section
/-! SUPPORT. Group queues: a ring of entries, and the slot of a queue instruction of one segment that stands alone at it (R67, R222, R223). -/

namespace Sys2Proof.Machine

/-! ### The ring of a queue -/

section
variable (q : Queue) (i j : Nat) (v u : Word)

theorem push_front (htail : q.tail = (q.head + q.count) % 64) (hroom : q.count + 2 ≤ 64) (h0 : 0 < q.count) :
    (q.push i v).front = q.front := by
  have hne : q.tail ≠ q.head := by omega
  simp [Queue.front, Queue.push, wordAt, setAt, List.getD_eq_getElem?_getD, List.getElem?_set_ne hne]

theorem push_front_empty (hlen : q.entries.length = 64) (hhead : q.head < 64) (htail : q.tail = q.head) : (q.push i v).front = v := by
  simp [Queue.front, Queue.push, wordAt, setAt, htail, List.getD_eq_getElem?_getD, List.getElem?_set_self (hlen ▸ hhead)]

theorem pop_front : q.pop.front = wordAt q.entries ((q.head + 1) % 64) := rfl

theorem push_tail (htail : q.tail = (q.head + q.count) % 64) : (q.push i v).tail = ((q.push i v).head + (q.push i v).count) % 64 := by
  show (q.tail + 1) % 64 = (q.head + (q.count + 1)) % 64
  omega

theorem pop_tail (htail : q.tail = (q.head + q.count) % 64) (h0 : 0 < q.count) : q.pop.tail = (q.pop.head + q.pop.count) % 64 := by
  show q.tail = ((q.head + 1) % 64 + (q.count - 1)) % 64
  omega

/-- What is pushed second comes out second (R222). -/
theorem push_push_pop_front (hlen : q.entries.length = 64) (htail : q.tail = q.head) :
    (((q.push i v).push j u).pop).front = u := by
  have hlt : (q.head + 1) % 64 < (setAt q.entries q.head v).length := by rw [setAt, List.length_set, hlen]; omega
  show wordAt (setAt (setAt q.entries q.tail v) ((q.tail + 1) % 64) u) ((q.head + 1) % 64) = u
  rw [htail, wordAt, List.getD_eq_getElem?_getD, setAt, List.getElem?_set_self hlt]
  rfl

end

/-! ### A queue of a group -/

theorem queue_setQueue {s : State} {gid n : Nat} {q : Queue} (h : s.queue gid n = some q) (q' : Queue) : (s.setQueue gid n q').queue gid n = some q' := by
  unfold State.queue State.group State.setQueue at *
  rw [tab_find_alter]
  obtain ⟨x, hx, hq⟩ := Option.bind_eq_some_iff.1 h
  obtain ⟨hlt, -⟩ := List.getElem?_eq_some_iff.1 hq
  simp only [hx, Option.map_some, Option.bind_some, setAt, List.getElem?_set_self hlt]

theorem setQueue_beside (s : State) (gid n : Nat) (q : Queue) : Beside s (s.setQueue gid n q) := ⟨rfl, rfl, rfl, rfl⟩

theorem setQueue_onWarp (s : State) (w gid n : Nat) (q : Queue) (f : Warp → Warp) :
    (s.onWarp w f).setQueue gid n q = (s.setQueue gid n q).onWarp w f := rfl

theorem queue_onWarp (s : State) (w gid n : Nat) (f : Warp → Warp) : (s.onWarp w f).queue gid n = s.queue gid n := rfl

theorem queueNo_lead {wp : Warp} {g : Seg} {m : Mask} {k : Nat} (h : g.lead m = some k) (b : Reg) : wp.queueNo g m b = (wp.val32 b k).toNat := by
  simp [Warp.queueNo, h]

/-- A queue record joins those of a warp. -/
theorem addRes_queue {r : Res} (hctr : r.ctr = .queue) (wp : Warp) :
    wp.addRes r = { wp with results := wp.results ++ [r], nextId := r.id, quCnt := wp.quCnt + 1 } := by
  rw [Warp.addRes, hctr]

theorem given_quCnt (wp : Warp) (r : Res) (m : Mask) (v : BitVec 128) : (wp.given r m v).quCnt = wp.quCnt := rfl

/-! ### The turn of one segment -/

/-- No segment raises a cause (R359, R366). -/
theorem judgeSegs_good {s : State} {g : Seg} {m : Mask} (ha : Alone s g m) {f : State → Seg → Option Raise} (hf : f s g = none) :
    s.judgeSegs m f = (m, s) := by
  have hrs : s.curWarp.raises m (f s) = [] := by simp [Warp.raises, ha.only, hf]
  simp [State.judgeSegs, hrs, State.takeAll, stoppedBy_nil]

section
variable {s u : State} {g : Seg} {m : Mask} {c : Clause} (hc : s.curWarp.clause = some c) (hturns : c.turns = 0)
  {act : State → Seg → Option State}
include hc hturns

/-- The segment takes its turn (R223). -/
theorem runTurns_acts (hact : act s g = some u) :
    s.runTurns m act [g] = (true, u.onWarp u.cur fun wp => (wp.takeTurn (g.slots &&& m)).acted) := by
  have h0 : (s.curWarp.turnsTaken &&& g.slots &&& m != 0) = false := by simp [Warp.turnsTaken, hc, hturns]
  rw [State.runTurns, h0, hact]
  rfl

/-- The segment cannot act: the slot is held (R67, R223). -/
theorem runTurns_holds (hact : act s g = none) : s.runTurns m act [g] = (false, s.holdSlot s.cur .queue) := by
  have h0 : (s.curWarp.turnsTaken &&& g.slots &&& m != 0) = false := by simp [Warp.turnsTaken, hc, hturns]
  rw [State.runTurns, h0, hact]
  rfl

end

/-- A queue instruction of the current warp in segment `g` alone, whose lead lane is `k`, at the slot of clause `c`, at which no turn has been taken:
the warp may act and its counter has room; the segment names its group's queue `q`. -/
structure NamesQueue (s : State) (p : Pre) (b : Reg) (g : Seg) (k : Nat) (q : Queue) (c : Clause) : Prop where
  alone : Alone s g (s.curWarp.execMask p)
  lead : g.lead (s.curWarp.execMask p) = some k
  acts : s.curWarp.mayAct = true
  room : s.curWarp.quCnt < 63
  clause : s.curWarp.clause = some c
  turns : c.turns = 0
  good : s.queueFault g (s.curWarp.execMask p) b = none
  queue : s.queue g.gid (s.curWarp.val32 b k).toNat = some q

section
variable {s : State} {p : Pre} {d a b : Reg} {g : Seg} {k : Nat} {q : Queue} {c : Clause} (h : NamesQueue s p b g k q c)
include h

theorem NamesQueue.execMask_ne : s.curWarp.execMask p ≠ 0 := fun hm => h.alone.some_lane (by rw [h.alone.slots_and, hm])

theorem NamesQueue.slot (act : State → State) :
    (if s.curWarp.execMask p = 0 then s else if Config.counterTop ≤ s.curWarp.quCnt then s.holdSlot s.cur .counter else s.irrevocably act) =
      (act s).onWarp s.cur Warp.acted := by
  have hroom := h.room
  rw [if_neg h.execMask_ne, if_neg (by unfold Config.counterTop; omega)]
  exact if_pos h.acts

theorem NamesQueue.turnOrder : s.curWarp.turnOrder (s.curWarp.execMask p) = [g] := h.alone.only

/-- The queue once the segment has pushed its value. -/
def State.pushed (s : State) (a b : Reg) (g : Seg) (k : Nat) (q : Queue) : State :=
  s.setQueue g.gid (s.curWarp.val32 b k).toNat (q.push g.idx (s.curWarp.val32 a k))

/-- A warp whose slot waits for a queue, from time `now` if it did not wait before. -/
def Warp.heldForQueue (wp : Warp) (now : Nat) : Warp := { wp with clause := wp.clause.map fun c => { c with
  held := some .queue, heldAt := now, heldSince := some (c.heldSince.getD now) } }

/-- A queue that takes a push: the entry stands in it, and the slot issues (R223). -/
theorem NamesQueue.qpush_acts (hpush : q.canPush g.idx = true) : ∃ r : Res, r.ctr = .queue ∧ execQpush p a b s =
    .next ((s.pushed a b g k q).onWarp s.cur fun wp => (((wp.turned (s.curWarp.execMask p)).addRes r).turnsDone).acted) := by
  have hrun := fun (act : State → Seg → Option State) u (hact : act s g = some u) =>
    runTurns_acts (m := s.curWarp.execMask p) h.clause h.turns hact
  refine ⟨((s.pushed a b g k q).onWarp s.cur fun wp => wp.turned (s.curWarp.execMask p)).newRes s.cur .queue .vz 0 .b32 0 .general, rfl, ?_⟩
  unfold execQpush
  dsimp only
  rw [h.slot, judgeSegs_good h.alone h.good]
  dsimp only
  rw [h.turnOrder, hrun _ ((s.pushed a b g k q).onWarp s.cur fun wp => wp.progress (s.curWarp.execMask p))]
  · dsimp only
    have hcur : (s.pushed a b g k q).cur = s.cur := rfl
    rw [if_pos ⟨rfl, h.execMask_ne⟩, h.alone.slots_and, onWarp_cur, hcur, onWarp_onWarp, onWarp_cur, hcur, onWarp_onWarp, onWarp_onWarp]
    rfl
  · rw [queueNo_lead h.lead, h.queue]
    dsimp only
    rw [if_pos hpush, h.lead, h.alone.slots_and]
    rfl

/-- A queue that takes no push holds the slot. -/
theorem NamesQueue.qpush_holds (hpush : q.canPush g.idx = false) :
    execQpush p a b s = .next (s.onWarp s.cur fun wp => (wp.heldForQueue s.now).acted) := by
  have hrun := fun (act : State → Seg → Option State) (hact : act s g = none) =>
    runTurns_holds (m := s.curWarp.execMask p) h.clause h.turns hact
  unfold execQpush
  dsimp only
  rw [h.slot, judgeSegs_good h.alone h.good]
  dsimp only
  rw [h.turnOrder, hrun]
  case hact =>
    rw [queueNo_lead h.lead, h.queue]
    simp [hpush]
  rw [if_neg fun hacts => Bool.false_ne_true hacts.1, State.holdSlot, onWarp_onWarp]
  rfl

/-- An entry is popped into the record that the slot makes for its segment (R223). -/
theorem NamesQueue.qpop_acts (hid : c.resId = 0) (hcount : q.count ≠ 0) : ∃ r : Res, r.id = s.curWarp.nextId + 1 ∧ r.dst = d ∧ r.words = 1 ∧
    r.lanes = s.curWarp.execMask p ∧ execQpop p d b s = .next ((s.setQueue g.gid (s.curWarp.val32 b k).toNat q.pop).onWarp s.cur fun wp =>
      (((wp.given r (s.curWarp.execMask p) (q.front.setWidth 128)).countUp .queue).turnsDone).acted) := by
  have hrun := fun (act : State → Seg → Option State) u (hact : act s g = some u) =>
    runTurns_acts (m := s.curWarp.execMask p) h.clause h.turns hact
  refine ⟨s.newRes s.cur .queue d 1 .b32 (s.curWarp.execMask p) .general, rfl, rfl, rfl, rfl, ?_⟩
  unfold execQpop
  dsimp only
  rw [h.slot, judgeSegs_good h.alone h.good]
  dsimp only
  rw [h.turnOrder, hrun _ ((s.setQueue g.gid (s.curWarp.val32 b k).toNat q.pop).onWarp s.cur fun wp =>
    ((wp.withRes (s.newRes s.cur .queue d 1 .b32 (s.curWarp.execMask p) .general)).onRes
      (s.newRes s.cur .queue d 1 .b32 (s.curWarp.execMask p) .general).id
        fun r => r.give (s.curWarp.execMask p) (q.front.setWidth 128)).progress (s.curWarp.execMask p))]
  · dsimp only
    have hcur : (s.setQueue g.gid (s.curWarp.val32 b k).toNat q.pop).cur = s.cur := rfl
    rw [if_pos ⟨rfl, h.execMask_ne⟩, h.alone.slots_and, onWarp_cur, hcur, onWarp_onWarp, onWarp_cur, hcur, onWarp_onWarp, onWarp_onWarp]
    rfl
  · rw [queueNo_lead h.lead, h.queue]
    dsimp only
    rw [if_neg hcount, sharedRes_first h.clause hid, h.alone.slots_and, setQueue_onWarp, onWarp_cur, onWarp_onWarp]

/-- An empty queue holds the slot. -/
theorem NamesQueue.qpop_holds (hcount : q.count = 0) : execQpop p d b s = .next (s.onWarp s.cur fun wp => (wp.heldForQueue s.now).acted) := by
  have hrun := fun (act : State → Seg → Option State) (hact : act s g = none) =>
    runTurns_holds (m := s.curWarp.execMask p) h.clause h.turns hact
  unfold execQpop
  dsimp only
  rw [h.slot, judgeSegs_good h.alone h.good]
  dsimp only
  rw [h.turnOrder, hrun]
  case hact =>
    rw [queueNo_lead h.lead, h.queue]
    simp [hcount]
  rw [if_neg fun hacts => Bool.false_ne_true hacts.1, State.holdSlot, onWarp_onWarp]
  rfl

end

theorem zero_or_mask (m : Mask) : 0 ||| m = m := BitVec.zero_or

/-- The number of the predicate register that an operand names. -/
def namedPred : Reg → Option Nat
  | .p n => some n.toNat
  | _ => none

/-- The record of a `QTRY` of one segment: the lanes that were served, and the entry that a pop gave them (R223). -/
def State.tryRes (u : State) (pop : Bool) (a c : Reg) (m ok : Mask) (vals : List (Mask × Word)) : Res :=
  vals.foldl (fun (r : Res) v => r.give v.1 (v.2.setWidth 128))
    { u.newRes u.cur .queue (if pop then a else .vz) 1 .b32 (if pop then ok else 0) .general with
      pdst := namedPred c, pbits := ok, pmask := m, gens := u.gensOf u.cur m }

section
variable {s : State} {p : Pre} {a b c' : Reg} {g : Seg} {k : Nat} {q : Queue} {c : Clause} (h : NamesQueue s p b g k q c)
include h

/-- `QTRY`, pushing, finds room: its predicate is set (R223). -/
theorem NamesQueue.qtry_pushes (hpush : q.canPush g.idx = true) :
    let u := (s.pushed a b g k q).onWarp s.cur fun wp => wp.progress (s.curWarp.execMask p)
    execQtry p false a b c' s = .next ((s.pushed a b g k q).onWarp s.cur fun wp => ((wp.progress (s.curWarp.execMask p)).addRes
      (u.tryRes false a c' (s.curWarp.execMask p) (s.curWarp.execMask p) [])).acted) := by
  intro u
  unfold execQtry
  dsimp only
  rw [h.slot, judgeSegs_good h.alone h.good]
  dsimp only
  rw [h.turnOrder, List.foldl_cons, List.foldl_nil]
  dsimp only
  rw [queueNo_lead h.lead, h.queue]
  dsimp only
  rw [if_neg Bool.false_ne_true, if_pos hpush, h.lead, h.alone.slots_and, zero_or_mask, if_neg h.execMask_ne]
  have hcur : (s.setQueue g.gid (s.curWarp.val32 b k).toNat (q.push g.idx (s.curWarp.val32 a k))).cur = s.cur := rfl
  dsimp only [Option.map_some, Option.getD_some]
  rw [onWarp_cur, hcur, onWarp_onWarp, onWarp_onWarp]
  rfl

/-- `QTRY`, pushing, finds no room: nothing is pushed (R223). -/
theorem NamesQueue.qtry_full (hpush : q.canPush g.idx = false) :
    execQtry p false a b c' s = .next (s.onWarp s.cur fun wp => (wp.addRes (s.tryRes false a c' (s.curWarp.execMask p) 0 [])).acted) := by
  unfold execQtry
  dsimp only
  rw [h.slot, judgeSegs_good h.alone h.good]
  dsimp only
  rw [h.turnOrder, List.foldl_cons, List.foldl_nil]
  dsimp only
  rw [queueNo_lead h.lead, h.queue]
  dsimp only
  rw [if_neg Bool.false_ne_true, hpush, if_neg Bool.false_ne_true, if_neg h.execMask_ne]
  dsimp only
  rw [onWarp_onWarp]
  rfl

/-- `QTRY`, popping, finds an entry (R223). -/
theorem NamesQueue.qtry_pops (hcount : q.count ≠ 0) :
    let u := (s.setQueue g.gid (s.curWarp.val32 b k).toNat q.pop).onWarp s.cur fun wp => wp.progress (s.curWarp.execMask p)
    execQtry p true a b c' s = .next ((s.setQueue g.gid (s.curWarp.val32 b k).toNat q.pop).onWarp s.cur fun wp =>
      ((wp.progress (s.curWarp.execMask p)).addRes (u.tryRes true a c' (s.curWarp.execMask p) (s.curWarp.execMask p)
        [(s.curWarp.execMask p, q.front)])).acted) := by
  intro u
  unfold execQtry
  dsimp only
  rw [h.slot, judgeSegs_good h.alone h.good]
  dsimp only
  rw [h.turnOrder, List.foldl_cons, List.foldl_nil]
  dsimp only
  rw [queueNo_lead h.lead, h.queue]
  dsimp only
  rw [if_pos rfl, if_neg hcount, h.alone.slots_and, zero_or_mask, List.nil_append, if_neg h.execMask_ne]
  have hcur : (s.setQueue g.gid (s.curWarp.val32 b k).toNat q.pop).cur = s.cur := rfl
  dsimp only
  rw [onWarp_cur, hcur, onWarp_onWarp, onWarp_onWarp]
  rfl

/-- `QTRY`, popping, finds the queue empty: nothing is popped (R223). -/
theorem NamesQueue.qtry_empty (hcount : q.count = 0) :
    execQtry p true a b c' s = .next (s.onWarp s.cur fun wp => (wp.addRes (s.tryRes true a c' (s.curWarp.execMask p) 0 [])).acted) := by
  unfold execQtry
  dsimp only
  rw [h.slot, judgeSegs_good h.alone h.good]
  dsimp only
  rw [h.turnOrder, List.foldl_cons, List.foldl_nil]
  dsimp only
  rw [queueNo_lead h.lead, h.queue]
  dsimp only
  rw [if_pos rfl, if_pos hcount, if_neg h.execMask_ne]
  dsimp only
  rw [onWarp_onWarp]
  rfl

/-- The slot is held for a queue: no queue has changed, and nothing has been counted. -/
theorem NamesQueue.heldForQueue : SamePlace s (s.onWarp s.cur fun wp => (wp.heldForQueue s.now).acted) ∧
    ((s.onWarp s.cur fun wp => (wp.heldForQueue s.now).acted).curWarp.clause.bind Clause.held) = some .queue := by
  refine ⟨Beside.samePlace ⟨rfl, rfl, rfl, rfl⟩ ⟨rfl, rfl, rfl⟩, ?_⟩
  rw [curWarp_onWarp, Warp.heldForQueue, Warp.acted, h.clause]
  rfl

/-! ### The completed slot -/

/-- The slot has issued with one more operation in the queue counter. -/
def Queued (s t : State) : Prop := SamePlace s t ∧ t.curWarp.quCnt = s.curWarp.quCnt + 1

/-- The slot is held for a queue, and the queue that it names has not changed. -/
def HeldForQueue (s t : State) (gid n : Nat) : Prop :=
  SamePlace s t ∧ (t.curWarp.clause.bind Clause.held) = some .queue ∧ s.queue gid n = t.queue gid n

theorem NamesQueue.waits : HeldForQueue s (s.onWarp s.cur fun wp => (wp.heldForQueue s.now).acted) g.gid (s.curWarp.val32 b k).toNat :=
  ⟨h.heldForQueue.1, h.heldForQueue.2, (queue_onWarp _ _ _ _ _).symm⟩

theorem NamesQueue.qpush_waits (hpush : q.canPush g.idx = false) : Completes (.qpush p a b) s (HeldForQueue s · g.gid (s.curWarp.val32 b k).toNat) :=
  ⟨_, h.qpush_holds hpush, h.waits⟩

theorem NamesQueue.qpop_waits (hcount : q.count = 0) : Completes (.qpop p d b) s (HeldForQueue s · g.gid (s.curWarp.val32 b k).toNat) :=
  ⟨_, h.qpop_holds hcount, h.waits⟩

/-- A slot that issues with a change of queue `q` and of the current warp has the change of both. -/
theorem NamesQueue.issues {i : Instr} {P : State → Prop} {q' : Queue} {f : Warp → Warp}
    (hexec : exec i s = .next ((s.setQueue g.gid (s.curWarp.val32 b k).toNat q').onWarp s.cur f)) (hf : KeepsPlace s.curWarp (f s.curWarp))
    (hP : ∀ t, t.curWarp = f s.curWarp → SamePlace s t → t.queue g.gid (s.curWarp.val32 b k).toNat = some q' → P t) : Completes i s P := by
  have hset := setQueue_beside s g.gid (s.curWarp.val32 b k).toNat q'
  exact ⟨_, hexec, hP _ (hset.curWarp_onWarp f) (hset.samePlace hf) ((queue_onWarp _ _ _ _ _).trans (queue_setQueue h.queue q'))⟩

theorem NamesQueue.qpush_completes (hpush : q.canPush g.idx = true) : Completes (.qpush p a b) s fun t => SamePlace s t ∧
    t.curWarp.quCnt = s.curWarp.quCnt + 1 ∧ t.queue g.gid (s.curWarp.val32 b k).toNat = some (q.push g.idx (s.curWarp.val32 a k)) := by
  obtain ⟨r, hctr, hexec⟩ := h.qpush_acts (a := a) hpush
  have hadd := addRes_queue hctr (s.curWarp.turned (s.curWarp.execMask p))
  refine h.issues hexec (hadd ▸ ⟨rfl, rfl, rfl⟩) fun t ht hplace hqueue => ⟨hplace, ?_, hqueue⟩
  rw [ht, hadd]
  rfl

theorem NamesQueue.qpop_completes (hid : c.resId = 0) (hnew : (s.curWarp.results.any fun r => r.id == s.curWarp.nextId + 1) = false)
    (hcount : q.count ≠ 0) : Completes (.qpop p d b) s fun t => SamePlace s t ∧ t.curWarp.quCnt = s.curWarp.quCnt + 1 ∧
      t.queue g.gid (s.curWarp.val32 b k).toNat = some q.pop ∧ ∃ r, t.curWarp.results = s.curWarp.results ++ [r] ∧ r.dst = d ∧
        r.lanes = s.curWarp.execMask p ∧ r.words = 1 ∧
          ∀ l, (s.curWarp.execMask p).getLsbD l = true → r.vals.find l = some (q.front.setWidth 128) := by
  obtain ⟨r, hrid, hdst, hwords, hlanes, hexec⟩ := h.qpop_acts (d := d) hid hcount
  have hkeeps := given_keeps s.curWarp r (s.curWarp.execMask p) (q.front.setWidth 128)
  refine h.issues hexec ⟨hkeeps.regs, hkeeps.preds, hkeeps.pcs⟩ fun t ht hplace hqueue =>
    ⟨hplace, ?_, hqueue, r.give (s.curWarp.execMask p) (q.front.setWidth 128), ?_, hdst, hlanes, hwords,
      fun l hl => give_find hlanes _ hl⟩
  · rw [ht]
    exact congrArg (· + 1) (given_quCnt _ _ _ _)
  rw [ht]
  exact given_results (hrid ▸ hnew) _ _

/-- `QTRY` issues with a change of its queue. -/
theorem NamesQueue.qtry_changes {i : Instr} {r : Res} {q' : Queue} {m : Mask} (hctr : r.ctr = .queue)
    (hexec : exec i s = .next ((s.setQueue g.gid (s.curWarp.val32 b k).toNat q').onWarp s.cur fun wp => ((wp.progress m).addRes r).acted)) :
    Completes i s fun t => SamePlace s t ∧ t.curWarp.quCnt = s.curWarp.quCnt + 1 ∧ t.queue g.gid (s.curWarp.val32 b k).toNat = some q' ∧
      t.curWarp.results = s.curWarp.results ++ [r] := by
  have hadd := addRes_queue hctr (s.curWarp.progress m)
  refine h.issues hexec (hadd ▸ ⟨rfl, rfl, rfl⟩) fun t ht hplace hqueue => ⟨hplace, ?_, hqueue, ?_⟩
  · rw [ht, hadd]
    rfl
  · rw [ht, hadd]
    rfl

theorem NamesQueue.qtry_push_completes (hpush : q.canPush g.idx = true) : Completes (.qtry p false a b c') s fun t => SamePlace s t ∧
    t.curWarp.quCnt = s.curWarp.quCnt + 1 ∧ t.queue g.gid (s.curWarp.val32 b k).toNat = some (q.push g.idx (s.curWarp.val32 a k)) ∧
      ∃ r, t.curWarp.results = s.curWarp.results ++ [r] ∧ r.pmask = s.curWarp.execMask p ∧ r.pbits = s.curWarp.execMask p :=
  (h.qtry_changes (i := .qtry p false a b c') rfl (h.qtry_pushes hpush)).imp fun _ ⟨hplace, hcnt, hqueue, hres⟩ => ⟨hplace, hcnt, hqueue, _, hres, rfl, rfl⟩

/-- `QTRY` issues without a change of a queue. -/
theorem NamesQueue.qtry_stays {i : Instr} {r : Res} (hctr : r.ctr = .queue) (hexec : exec i s = .next (s.onWarp s.cur fun wp => (wp.addRes r).acted)) :
    Completes i s fun t => SamePlace s t ∧ t.queue g.gid (s.curWarp.val32 b k).toNat = some q ∧ t.curWarp.results = s.curWarp.results ++ [r] := by
  have hadd := addRes_queue hctr s.curWarp
  refine ⟨_, hexec, Beside.samePlace ⟨rfl, rfl, rfl, rfl⟩ (hadd ▸ ⟨rfl, rfl, rfl⟩), (queue_onWarp _ _ _ _ _).trans h.queue, ?_⟩
  rw [curWarp_onWarp, hadd]
  rfl

theorem NamesQueue.qtry_full_completes (hpush : q.canPush g.idx = false) : Completes (.qtry p false a b c') s fun t => SamePlace s t ∧
    t.queue g.gid (s.curWarp.val32 b k).toNat = some q ∧
      ∃ r, t.curWarp.results = s.curWarp.results ++ [r] ∧ r.pmask = s.curWarp.execMask p ∧ r.pbits = 0 :=
  (h.qtry_stays (i := .qtry p false a b c') rfl (h.qtry_full hpush)).imp fun _ ⟨hplace, hqueue, hres⟩ => ⟨hplace, hqueue, _, hres, rfl, rfl⟩

theorem NamesQueue.qtry_pop_completes (hcount : q.count ≠ 0) : Completes (.qtry p true a b c') s fun t => SamePlace s t ∧
    t.queue g.gid (s.curWarp.val32 b k).toNat = some q.pop ∧ ∃ r, t.curWarp.results = s.curWarp.results ++ [r] ∧ r.dst = a ∧
      r.pmask = s.curWarp.execMask p ∧ r.pbits = s.curWarp.execMask p ∧
        ∀ l, (s.curWarp.execMask p).getLsbD l = true → r.vals.find l = some (q.front.setWidth 128) :=
  (h.qtry_changes (i := .qtry p true a b c') rfl (h.qtry_pops hcount)).imp fun _ ⟨hplace, _, hqueue, hres⟩ =>
    ⟨hplace, hqueue, _, hres, rfl, rfl, rfl, fun _ hl => give_find rfl _ hl⟩

theorem NamesQueue.qtry_empty_completes (hcount : q.count = 0) : Completes (.qtry p true a b c') s fun t => SamePlace s t ∧
    t.queue g.gid (s.curWarp.val32 b k).toNat = some q ∧
      ∃ r, t.curWarp.results = s.curWarp.results ++ [r] ∧ r.lanes = 0 ∧ r.pmask = s.curWarp.execMask p ∧ r.pbits = 0 :=
  (h.qtry_stays (i := .qtry p true a b c') rfl (h.qtry_empty hcount)).imp fun _ ⟨hplace, hqueue, hres⟩ => ⟨hplace, hqueue, _, hres, rfl, rfl, rfl⟩

end

/-- Settles O32: the ring of a queue, and the eight cases of the slot of one segment, alone at it. -/
theorem groupQueues : Obligations.GroupQueues := by
  refine ⟨fun q i j v u hlen _ hhead htail hroom => ⟨fun hcount => ?_, rfl, fun h0 => ⟨push_front q i v htail hroom h0, ?_⟩, ?_,
    pop_tail q htail⟩, ?_⟩
  · have hempty : q.tail = q.head := by omega
    have hpushed : (q.push i v).tail = ((q.push i v).head + (q.push i v).count) % 64 := push_tail q i v htail
    exact ⟨(push_front (q.push i v) j u hpushed (show q.count + 1 + 2 ≤ 64 by omega) (Nat.succ_pos _)).trans
      (push_front_empty q i v hlen hhead hempty), push_push_pop_front q i j v u hlen hempty⟩
  · exact Nat.sub_add_cancel h0
  · exact push_tail q i v htail
  · intro s p d a b c g k q cl wp m n halone hlead hacts hroom hclause hturns hid hnew hgood hqueue same held
    have h : NamesQueue s p b g k q cl := ⟨halone, hlead, hacts, hroom, hclause, hturns, hgood, hqueue⟩
    exact ⟨h.qpush_completes, h.qpush_waits, h.qpop_completes hid hnew, h.qpop_waits, h.qtry_push_completes, h.qtry_full_completes,
      h.qtry_pop_completes, h.qtry_empty_completes⟩

end Sys2Proof.Machine
end

section
/-! SUPPORT. The functions of the module, and what a cause that is posted leaves of them (R283, R348). -/

namespace Sys2Proof.Machine

theorem fn_onFn_same (s : State) (k : Nat) (f : Fn → Fn) (h : k < s.fns.length) : (s.onFn k f).fn k = f (s.fn k) := getD_setAt _ _ _ _ h

theorem fn_onFn_other (s : State) (k n : Nat) (f : Fn → Fn) (h : n ≠ k) : (s.onFn k f).fn n = s.fn n := by
  unfold State.onFn State.fn setAt
  simp [List.getD_eq_getElem?_getD, List.getElem?_set_ne (Ne.symm h)]

theorem fns_length_onFn (s : State) (k : Nat) (f : Fn → Fn) : (s.onFn k f).fns.length = s.fns.length := List.length_set

/-- A change of a function that keeps something of it keeps it of every function. -/
theorem fn_onFn_kept {β : Type} (s : State) (k n : Nat) (f : Fn → Fn) (p : Fn → β) (hf : ∀ x, p (f x) = p x) :
    p ((s.onFn k f).fn n) = p (s.fn n) := by
  by_cases hn : n = k
  · subst hn
    by_cases hl : n < s.fns.length
    · rw [fn_onFn_same s n f hl, hf]
    · rw [State.onFn, setAt, List.set_eq_of_length_le (Nat.le_of_not_lt hl)]
  · rw [fn_onFn_other s k n f hn]

/-- What a message of a vector leaves of every function: all but the vectors that wait. -/
theorem msix_fn {β : Type} (s : State) (f v n : Nat) (p : Fn → β) (hp : ∀ x pend, p { x with msixPend := pend } = p x) :
    p ((s.msix f v).fn n) = p (s.fn n) := by
  unfold State.msix
  dsimp only
  split
  · exact fn_onFn_kept s f n _ p fun x => hp x _
  · rfl

theorem fn_host (s : State) (h : Memory) (n : Nat) : ({ s with host := h } : State).fn n = s.fn n := rfl

/-- What a posted cause leaves of every function: all but the writer's index, the lost causes and the vectors that wait. -/
theorem post_fn {β : Type} (s : State) (code : Nat) (i : LogInfo) (n : Nat) (p : Fn → β)
    (hp : ∀ x clwr lost pend, p { x with clwr := clwr, cllost := lost, msixPend := pend } = p x) :
    p ((s.post code i).fn n) = p (s.fn n) := by
  have hlater : (if causeDest code = .porter then s.later (.porterWake i.die) else s).fn n = s.fn n := by
    split <;> rfl
  unfold State.post
  rw [← hlater]
  generalize (if causeDest code = .porter then s.later (.porterWake i.die) else s) = t
  dsimp only
  split
  · exact fn_onFn_kept t _ n _ p fun x => hp x _ _ _
  · rw [msix_fn _ _ _ n p fun x pend => hp x x.clwr x.cllost pend, fn_onFn_kept _ _ n _ p fun x => hp x (x.clwr + 1) x.cllost x.msixPend, fn_host]

end Sys2Proof.Machine
end

section
/-! SUPPORT. The registers of the management page: what a write changes (R283, R285, R348, R395, R413, R415). -/

namespace Sys2Proof.Machine

section
variable {s : State} {fn n : Nat} {e : Msix} (hlen : fn < s.fns.length) (he : (s.fn fn).msix[n]? = some e)

/-- The vector of a function is masked no more. -/
def Fn.unmasked (x : Fn) (v : Nat) : Fn :=
  { x with msix := x.msix.mapIdx fun k (e : Msix) => if k = v then { e with masked := false } else e }

theorem unmasked_msix {x : Fn} (he : x.msix[n]? = some e) : (x.unmasked n).msix[n]? = some { e with masked := false } := by
  simp [Fn.unmasked, he]

theorem getLsbD_and_not_bit (b : BitVec 16) : (b &&& ~~~BitVec.ofNat 16 (2 ^ n)).getLsbD n = false := by
  by_cases hn : n < 16
  · rw [BitVec.getLsbD_and, BitVec.getLsbD_not, BitVec.getLsbD_ofNat, Nat.testBit_two_pow_self]
    simp [hn]
  · exact BitVec.getLsbD_of_ge _ _ (Nat.le_of_not_lt hn)

/-- What `MSIX_VECTOR_UNMASK` changes: the vector, and a message that waits is sent (R348). -/
structure Unmasks (s t : State) (fn n : Nat) (e : Msix) : Prop where
  mem : t.mem = s.mem
  entry : (t.fn fn).msix[n]? = some { e with masked := false }
  pend : (t.fn fn).msixPend.getLsbD n = false
  out : t.out = if (s.fn fn).msixPend.getLsbD n then s.out ++ [.msix fn n e.addr e.data] else s.out

include hlen he in
theorem unmask_unmasks : Unmasks s (s.unmask fn n) fn n e := by
  have hfn : (s.onFn fn (Fn.unmasked · n)).fn fn = (s.fn fn).unmasked n := fn_onFn_same s fn _ hlen
  have hdef : s.unmask fn n = if ((s.onFn fn (Fn.unmasked · n)).fn fn).msixPend.getLsbD n then
      ((s.onFn fn (Fn.unmasked · n)).onFn fn fun x => { x with msixPend := x.msixPend &&& ~~~(BitVec.ofNat 16 (2 ^ n)) }).msix fn n
    else s.onFn fn (Fn.unmasked · n) := rfl
  have hpend : ((s.fn fn).unmasked n).msixPend = (s.fn fn).msixPend := rfl
  rw [hdef, hfn, hpend]
  by_cases hwaits : (s.fn fn).msixPend.getLsbD n = true
  case neg =>
    rw [if_neg hwaits]
    refine ⟨rfl, hfn ▸ unmasked_msix he, hfn ▸ eq_false_of_ne_true hwaits, (if_neg hwaits).symm⟩
  case pos =>
    rw [if_pos hwaits]
    have hnext := fn_onFn_same (s.onFn fn (Fn.unmasked · n)) fn (fun x => { x with msixPend := x.msixPend &&& ~~~(BitVec.ofNat 16 (2 ^ n)) })
      (by rwa [fns_length_onFn])
    rw [hfn] at hnext
    have hentry : ((s.fn fn).unmasked n).msix.getD n ⟨0, 0, true⟩ = { e with masked := false } := by
      rw [List.getD_eq_getElem?_getD, unmasked_msix he, Option.getD_some]
    rw [State.msix, hnext]
    dsimp only
    rw [hentry, if_neg Bool.false_ne_true]
    exact ⟨rfl, hnext ▸ unmasked_msix he, hnext ▸ getLsbD_and_not_bit _, (if_pos hwaits).symm⟩

end

/-! ### The registers of the lodge -/

theorem fwCopy_starts {s : State} (hidle : s.lodge.fwStat ≠ 1) (hfits : s.lodge.fwAddr.toNat + s.lodge.fwLen.toNat ≤ Config.physTop) (kind : Nat) :
    s.fwCopy kind = { s with lodge := { s.lodge with fwStat := 1, fwKind := kind, fwImage := s.mem.bytes s.lodge.fwAddr.toNat s.lodge.fwLen.toNat } } := by
  rw [State.fwCopy, if_neg hidle, if_neg (Nat.not_lt.2 hfits)]

theorem fwCopy_fails {s : State} (hidle : s.lodge.fwStat ≠ 1) (hbeyond : Config.physTop < s.lodge.fwAddr.toNat + s.lodge.fwLen.toNat) (kind : Nat) :
    s.fwCopy kind = { s with lodge := { s.lodge with fwStat := 3 } } := by
  rw [State.fwCopy, if_neg hidle, if_pos hbeyond]

theorem fwCopy_busy {s : State} (hbusy : s.lodge.fwStat = 1) (kind : Nat) : s.fwCopy kind = s := if_pos hbusy

theorem attreq_starts {s : State} {v : DWord} (hidle : s.lodge.attStat ≠ 1) (hcycle : s.lodge.lifecycle = 1 ∨ s.lodge.lifecycle = 2)
    (halign : v.toNat % 8 = 0) (hfits : v.toNat + 64 ≤ Config.physTop) (hclean : s.poison = []) :
    execAttreq v s = .next { s with lodge := { s.lodge with attStat := 1, attAddr := v } } := by
  have hbad : ¬(s.lodge.lifecycle = 0 ∨ s.lodge.lifecycle = 3 ∨ Config.physTop < v.toNat + 64 ∨
      (granules v.toNat 64).any s.poison.contains = true) := by
    have hgood : (granules v.toNat 64).any s.poison.contains = false := by simp [hclean]
    rw [hgood]
    rcases hcycle with h | h <;> simp [h, hfits]
  unfold execAttreq
  dsimp only
  rw [if_neg (by simp [hidle, halign]), if_neg hbad]

theorem attreq_refused {s : State} {v : DWord} (hidle : s.lodge.attStat ≠ 1) (halign : v.toNat % 8 = 0)
    (hbad : s.lodge.lifecycle = 0 ∨ s.lodge.lifecycle = 3 ∨ Config.physTop < v.toNat + 64) :
    execAttreq v s = .next (({ s with lodge := { s.lodge with attStat := 3 } } : State).post 0xB9 { addr := v, detail := Config.openDetail 0xB9 }) := by
  unfold execAttreq
  dsimp only
  rw [if_neg (by simp [hidle, halign]), if_pos]
  rcases hbad with h | h | h
  · exact .inl h
  · exact .inr (.inl h)
  · exact .inr (.inr (.inl h))

/-! ### Stage two -/

theorem s2SegmentWrite_taken {s : State} {fn : Nat} {v : DWord} {bound : Bool} (hup : s.lodge.coresUp = true) (h0 : 0 < fn) (h32 : fn < 32)
    (halign : v.toNat % 0x20_0000 = 0)
    (hfits : (if bound then (s.fn fn).s2base else v).toNat + (if bound then v else (s.fn fn).s2bound).toNat ≤ Config.physTop) :
    execS2SegmentWrite fn bound v s = .next (({ s with xlats := s.xlats.filter fun t => t.fn ≠ fn } : State).onFn fn fun x =>
      if bound then { x with s2bound := v } else { x with s2base := v }) := by
  unfold execS2SegmentWrite
  dsimp only
  rw [if_neg (by simp [hup]; omega), if_neg]
  rintro (h | h)
  · exact h halign
  · exact absurd hfits (Nat.not_le.2 h)

theorem s2SegmentWrite_refused {s : State} {fn : Nat} {v : DWord} {bound : Bool} (hup : s.lodge.coresUp = true) (h0 : 0 < fn) (h32 : fn < 32)
    (halign : v.toNat % 0x20_0000 ≠ 0) :
    execS2SegmentWrite fn bound v s = .next (s.post 0x8F { detail := Config.openDetail 0x8F, fn := fn }) := by
  unfold execS2SegmentWrite
  dsimp only
  rw [if_neg (by simp [hup]; omega), if_pos (.inl halign)]

/-! ### The management page -/

/-- A write of a cause-log register of a function. -/
theorem mgmtWrite_log (s : State) (die : Nat) {fn reg : Nat} (hfn : fn < 32) (hreg : reg < 64) (halign : reg % 8 = 0) (v : DWord) :
    s.mgmtWrite die (0x2000 + reg + 64 * fn) v = s.onFn fn (Fn.logWrite · reg v) := by
  have hno : (0x2000 + reg + 64 * fn - 0x2000) / 64 = fn := by omega
  have hoff : (0x2000 + reg + 64 * fn) % 64 = reg := by omega
  rw [State.mgmtWrite, if_neg (by omega), if_pos (by omega), hno, hoff]

theorem mgmtWrite_tune (s : State) (die : Nat) (v : DWord) : s.mgmtWrite die 0x5800 v = s.onDie die fun d => d.tune 0x5800 v.toNat := by
  rw [State.mgmtWrite, if_neg (by decide), if_neg (by decide), if_neg (by decide), if_neg (by decide), if_pos (by decide)]

theorem tune_lterm (d : Die) {v : Nat} (h : 16 ≤ v ∧ v ≤ 4096) : d.tune 0x5800 v = { d with lterm := v } := if_pos h

theorem tune_lterm_out (d : Die) {v : Nat} (h : ¬(16 ≤ v ∧ v ≤ 4096)) : d.tune 0x5800 v = d := if_neg h

/-- Settles O50: the registers, each by the branches of its row. -/
theorem managementRegisters : Obligations.ManagementRegisters := by
  intro s die fn n v bound x l lodge
  refine ⟨⟨_, rfl, rfl⟩, ⟨_, rfl, ?_⟩, fun hidle hfits => ⟨⟨_, rfl, fwCopy_starts hidle hfits 0⟩, _, rfl, fwCopy_starts hidle hfits 1⟩,
    fun hidle hbeyond => ⟨⟨_, rfl, fwCopy_fails hidle hbeyond 0⟩, _, rfl, fwCopy_fails hidle hbeyond 1⟩,
    fun hbusy => ⟨⟨_, rfl, fwCopy_busy hbusy 0⟩, _, rfl, fwCopy_busy hbusy 1⟩,
    fun hdrop => ⟨s, congrArg Host.Outcome.next (if_pos hdrop), rfl⟩,
    fun hidle hcycle halign hfits hclean => ⟨_, attreq_starts hidle hcycle halign hfits hclean, rfl⟩,
    fun hidle halign hbad => ⟨_, attreq_refused hidle halign hbad, (post_told _ _ _).same State.lodge fun _ _ _ _ => rfl⟩,
    fun hup h0 h32 hlen => ⟨fun halign hfits => ⟨_, s2SegmentWrite_taken hup h0 h32 halign hfits, rfl, fn_onFn_same _ fn _ hlen, fun q hq => ?_⟩,
      fun halign => ⟨_, s2SegmentWrite_refused hup h0 h32 halign, post_fn _ _ _ fn Fn.s2base fun _ _ _ _ => rfl,
        post_fn _ _ _ fn Fn.s2bound fun _ _ _ _ => rfl, (post_told _ _ _).same State.xlats fun _ _ _ _ => rfl⟩⟩,
    fun e hn h32 hlen he => ?_, fun h32 hlen => ⟨fun halign => ?_, ?_⟩, fun hlen hlo hhi => ?_, fun hout hlen => ?_⟩
  · split <;> rfl
  · exact of_decide_eq_true (List.mem_filter.1 hq).2
  · obtain ⟨hmem, hentry, hpend, hsent⟩ := unmask_unmasks hlen he
    exact ⟨_, congrArg Host.Outcome.next (if_pos ⟨hn, h32⟩), hmem, hentry, hpend, hsent⟩
  · refine ⟨_, congrArg Host.Outcome.next (mgmtWrite_log s die (reg := 0) h32 (by decide) rfl v), rfl, ?_⟩
    rw [fn_onFn_same s fn _ hlen]
    exact if_pos halign
  · exact ⟨_, congrArg Host.Outcome.next (mgmtWrite_log s die (reg := 0x18) h32 (by decide) rfl v), rfl, fn_onFn_same s fn _ hlen⟩
  · refine ⟨_, congrArg Host.Outcome.next (mgmtWrite_tune s die v), ?_⟩
    exact (die_onDie_same s die _ hlen).trans (tune_lterm _ ⟨hlo, hhi⟩)
  · refine ⟨_, congrArg Host.Outcome.next (mgmtWrite_tune s die v), ?_⟩
    exact (die_onDie_same s die _ hlen).trans (tune_lterm_out _ (by omega))

end Sys2Proof.Machine
end

section
/-! SUPPORT. Rings, doorbells and triggers, and what waking a porter leaves of the module (R255, R283, R287, R307, R309, R310). -/

namespace Sys2Proof.Machine

/-- `t` differs from `s` in the warp slots and the dies alone, as after a wake of a porter. -/
def Woken (s t : State) : Prop := ∃ warps dies, t = { s with warps := warps, dies := dies }

theorem Woken.trans {s t u : State} (a : Woken s t) (b : Woken t u) : Woken s u := by
  obtain ⟨_, _, rfl⟩ := a
  obtain ⟨_, _, rfl⟩ := b
  exact ⟨_, _, rfl⟩

/-- What a wake does not touch is the same. -/
theorem Woken.same {s t : State} {β : Type} (h : Woken s t) (p : State → β)
    (hp : ∀ warps dies, p { s with warps := warps, dies := dies } = p s) : p t = p s := by
  obtain ⟨_, _, rfl⟩ := h
  exact hp _ _

theorem wakePorter_woken (s : State) (die : Nat) : Woken s (s.wakePorter die) :=
  List.foldlRecOn (motive := Woken s) _ _ ⟨_, _, rfl⟩ fun _ h _ _ => h.trans ⟨_, _, rfl⟩

theorem hostWake_woken (s : State) (die : Nat) : Woken s (s.hostWake die) := by
  unfold State.hostWake
  split
  · exact Woken.trans ⟨_, _, rfl⟩ (wakePorter_woken _ die)
  · exact ⟨_, _, rfl⟩

theorem hostWake_gated (s : State) (die d : Nat) (hup : s.lodge.coresUp = true) : ((s.hostWake die).die d).gated = (s.die d).gated := by
  rw [State.hostWake, if_pos hup, ((wakePorter_gating _ die).2.2 d).1]
  exact die_onDie_kept s die d _ Die.gated fun _ => rfl

/-! ### Rings -/

theorem ring_setRing (s : State) (r : Nat) (x : Ring) : (s.setRing r x).ring r = x := by
  rw [State.ring, State.setRing, tab_find_put_same, Option.getD_some]

theorem ring_setRing_other (s : State) {r k : Nat} (h : k ≠ r) (x : Ring) : (s.setRing r x).ring k = s.ring k := by
  rw [State.ring, State.setRing, tab_find_put_other _ _ _ _ h]
  rfl

theorem ring_onRing (s : State) (r : Nat) (f : Ring → Ring) : (s.onRing r f).ring r = f (s.ring r) := ring_setRing _ _ _

/-- States with the same table of rings have the same rings. -/
theorem ring_congr {s t : State} (h : t.rings = s.rings) (r : Nat) : t.ring r = s.ring r := congrArg (fun q : Tab Ring => (q.find r).getD Ring.reset) h

theorem freeRing_rings (s : State) (r : Nat) : (s.freeRing r).rings = s.rings := by
  unfold State.freeRing
  dsimp only
  split <;> rfl

theorem ctxLive_congr {s t : State} (h : t.ctxs = s.ctxs) (ctx fn : Nat) : t.ctxLive ctx fn = s.ctxLive ctx fn := by
  rw [State.ctxLive, State.ctxLive, h]

/-- A ring that a cause stops (R310). -/
theorem stopRing_ring (s : State) (r off code : Nat) (addr : DWord) (detail : Word) :
    (s.stopRing r off code addr detail).ring r = { (s.ring r).clear with stat := 2, rdoff := off } := by
  have hpost : (s.stopRing r off code addr detail).rings = ((s.freeRing r).onRing r fun x => { x.clear with stat := 2, rdoff := off }).rings :=
    (post_told _ _ _).same State.rings fun _ _ _ _ => rfl
  rw [ring_congr hpost, ring_onRing, ring_congr (freeRing_rings s r)]

/-! ### Doorbells -/

section
variable {s : State} {die fn k : Nat} {v : DWord} (hup : s.lodge.coresUp = true)
include hup

/-- A doorbell in its ring, of a context that runs (R287). -/
theorem doorbell_good (hlegal : (s.ring (ringKey die fn k)).legal = true) (hctx : s.ctxLive (s.ring (ringKey die fn k)).ctx fn = true)
    (hin : v.toNat % 16 = 0 ∧ v.toNat < (s.ring (ringKey die fn k)).size) :
    let x := { s.ring (ringKey die fn k) with wroff := v.toNat }
    let y := if x.stat = 1 then x else x.start
    execDoorbell die fn k v s = .next ((s.hostWake die).setRing (ringKey die fn k)
      { y with stat := if y.stat = 1 ∨ y.rdoff ≠ y.wroff then 1 else 0 }) := by
  have hring : (s.hostWake die).ring (ringKey die fn k) = s.ring (ringKey die fn k) := (hostWake_woken s die).same (State.ring · _) fun _ _ => rfl
  have hlive : (s.hostWake die).ctxLive (s.ring (ringKey die fn k)).ctx fn = true :=
    (ctxLive_congr ((hostWake_woken s die).same State.ctxs fun _ _ => rfl) _ _).trans hctx
  obtain ⟨halign, hlt⟩ := hin
  unfold execDoorbell
  dsimp only
  simp [hup, hring, hlegal, halign, hlt, hlive]

/-- A doorbell outside its ring, of a ring that is not legal, or of a context that does not run, stops the ring where it stands (R310). -/
theorem doorbell_bad (hbad : ¬((s.ring (ringKey die fn k)).legal = true ∧ s.ctxLive (s.ring (ringKey die fn k)).ctx fn = true) ∨
      ¬(v.toNat % 16 = 0 ∧ v.toNat < (s.ring (ringKey die fn k)).size)) :
    ∃ code addr detail, execDoorbell die fn k v s = .next ((s.hostWake die).stopRing (ringKey die fn k) (s.ring (ringKey die fn k)).rdoff code addr detail) := by
  have hring : (s.hostWake die).ring (ringKey die fn k) = s.ring (ringKey die fn k) := (hostWake_woken s die).same (State.ring · _) fun _ _ => rfl
  have hlive : (s.hostWake die).ctxLive (s.ring (ringKey die fn k)).ctx fn = s.ctxLive (s.ring (ringKey die fn k)).ctx fn :=
    ctxLive_congr ((hostWake_woken s die).same State.ctxs fun _ _ => rfl) _ _
  unfold execDoorbell
  dsimp only
  rw [if_neg (by simp [hup]), hring, hlive]
  by_cases hlegal : (s.ring (ringKey die fn k)).legal = true
  case neg =>
    rw [if_pos (by simpa using hlegal)]
    exact ⟨_, _, _, rfl⟩
  case pos =>
    rw [if_neg (by simpa using hlegal)]
    by_cases hin : v.toNat % 16 = 0 ∧ v.toNat < (s.ring (ringKey die fn k)).size
    case neg =>
      rw [if_pos (by omega)]
      exact ⟨_, _, _, rfl⟩
    case pos =>
      have hctx : s.ctxLive (s.ring (ringKey die fn k)).ctx fn ≠ true := fun hctx => hbad.elim (· ⟨hlegal, hctx⟩) (· hin)
      rw [if_neg (by omega), if_pos (by simpa using hctx)]
      exact ⟨_, _, _, rfl⟩

/-- A write to the configuration of a ring that runs is not taken; one of another ring resets it (R287). -/
theorem ringConfigWrite_busy (hstat : (s.ring (ringKey die fn k)).stat = 1) (reg : RingReg) :
    execRingConfigWrite die fn k reg v s = .next (s.hostWake die) := by
  have hring : (s.hostWake die).ring (ringKey die fn k) = s.ring (ringKey die fn k) := (hostWake_woken s die).same (State.ring · _) fun _ _ => rfl
  unfold execRingConfigWrite
  dsimp only
  rw [if_neg (by simp [hup]), hring, if_pos hstat]

end

/-! ### Triggers -/

/-- The graph that a trigger value names on a die (R307). -/
def trigGraph (die : Nat) (v : DWord) : Nat := die * 256 + fieldN v 63 56

/-- The count of dropped triggers, to its top (R308). -/
theorem trigDrop_find (s : State) (die fn : Nat) :
    (s.trigDrop die fn).trigOvf.find (die * 32 + fn) = some (min ((s.trigOvf.find (die * 32 + fn)).getD 0 + 1) (2 ^ 64 - 1)) :=
  tab_find_put_same _ _ _

section
variable {s : State} {die fn : Nat} {v : DWord} {ctx : Nat} {y : Graph}

theorem trigger_unknown (h : s.graphs.find (trigGraph die v) = none) : s.trigger die fn v ctx none = s.trigDrop die fn := by
  rw [State.trigger]
  rw [show s.graphs.find (die * 256 + fieldN v 63 56) = none from h]
  rfl

theorem trigger_drops (h : s.graphs.find (trigGraph die v) = some y) (hpend : y.pending.isSome = true) :
    s.trigger die fn v ctx none = s.trigDrop die fn := by
  rw [State.trigger]
  rw [show s.graphs.find (die * 256 + fieldN v 63 56) = some y from h]
  dsimp only
  rw [if_pos (.inr hpend)]
  rfl

/-- A trigger that is taken starts the run of an idle graph, or is pending (R308). -/
theorem trigger_taken (h : s.graphs.find (trigGraph die v) = some y) (hload : y.unloading = false) (hpend : y.pending = none) :
    s.trigger die fn v ctx none = if y.run.isNone && y.starting.isNone then
      ({ s with graphs := s.graphs.put (trigGraph die v) { y with starting := some (v, ctx, none) } } : State).later (.graphRunStart (trigGraph die v))
    else { s with graphs := s.graphs.put (trigGraph die v) { y with pending := some (v, ctx, none) } } := by
  rw [State.trigger]
  rw [show s.graphs.find (die * 256 + fieldN v 63 56) = some y from h]
  dsimp only
  rw [if_neg (by simp [hload, hpend])]
  simp only [Bool.and_eq_true]
  rfl

end

section
variable {s : State} {die fn : Nat} {v : DWord} (hup : s.lodge.coresUp = true)
include hup

/-- A trigger write whose patch list is of a context that runs, or that has none (R307). -/
theorem execTrigger_good (hlegal : trigLegal v = true)
    (hctx : fieldN v 55 49 = 0 ∨ s.ctxLive (s.ring (ringKey die fn 0)).ctx fn = true) :
    execTrigger die fn v s = .next ((s.hostWake die).trigger die fn v (s.ring (ringKey die fn 0)).ctx none) := by
  have hring : (s.hostWake die).ring (ringKey die fn 0) = s.ring (ringKey die fn 0) := (hostWake_woken s die).same (State.ring · _) fun _ _ => rfl
  have hlive : (s.hostWake die).ctxLive (s.ring (ringKey die fn 0)).ctx fn = s.ctxLive (s.ring (ringKey die fn 0)).ctx fn :=
    ctxLive_congr ((hostWake_woken s die).same State.ctxs fun _ _ => rfl) _ _
  unfold execTrigger
  dsimp only
  rw [if_neg (by simp [hup]), hring, if_pos hlegal, hlive, if_neg]
  rcases hctx with h | h <;> simp [h]

theorem execTrigger_bad (hbad : trigLegal v = false ∨ (fieldN v 55 49 ≠ 0 ∧ s.ctxLive (s.ring (ringKey die fn 0)).ctx fn = false)) :
    ∃ code i, execTrigger die fn v s = .next ((s.hostWake die).post code i) := by
  have hring : (s.hostWake die).ring (ringKey die fn 0) = s.ring (ringKey die fn 0) := (hostWake_woken s die).same (State.ring · _) fun _ _ => rfl
  have hlive : (s.hostWake die).ctxLive (s.ring (ringKey die fn 0)).ctx fn = s.ctxLive (s.ring (ringKey die fn 0)).ctx fn :=
    ctxLive_congr ((hostWake_woken s die).same State.ctxs fun _ _ => rfl) _ _
  unfold execTrigger
  dsimp only
  rw [if_neg (by simp [hup]), hring, hlive]
  by_cases hlegal : trigLegal v = true
  · have hctx := hbad.resolve_left (by simp [hlegal])
    rw [if_pos hlegal, if_pos (by simpa using hctx)]
    exact ⟨_, _, rfl⟩
  · rw [if_neg hlegal]
    exact ⟨_, _, rfl⟩

end

/-- Settles O48: the registers of a function page, each by the branches of its row. -/
theorem ringRegisters : Obligations.RingRegisters := by
  intro s die fn k v reg r x good inRing cleared g hup
  have hwake := hostWake_woken s die
  have hmem : (s.hostWake die).mem = s.mem := hwake.same State.mem fun _ _ => rfl
  have hrings : (s.hostWake die).rings = s.rings := hwake.same State.rings fun _ _ => rfl
  have hring : (s.hostWake die).ring r = x := ring_congr hrings r
  have hgraphs : (s.hostWake die).graphs = s.graphs := hwake.same State.graphs fun _ _ => rfl
  have hovf : (s.hostWake die).trigOvf = s.trigOvf := hwake.same State.trigOvf fun _ _ => rfl
  refine ⟨fun hgood hin hstat => ?_, fun hgood hin hstat => ?_, fun hbad => ?_, fun hstat => ?_, fun hstat => ?_, fun hlegal hctx => ⟨fun hfind => ?_,
    fun y hfind hload => ⟨fun hpend => ?_, fun hpend => ?_⟩⟩, fun hbad => ?_, ?_, ?_⟩
  · refine ⟨_, doorbell_good hup hgood.1 hgood.2 hin, hmem, ?_⟩
    rw [ring_setRing]
    simp [show (s.ring (ringKey die fn k)).stat = 1 from hstat, x, r]
  · refine ⟨_, doorbell_good hup hgood.1 hgood.2 hin, hmem, ?_⟩
    rw [ring_setRing]
    have hstat' : (s.ring (ringKey die fn k)).stat ≠ 1 := hstat
    simp [hstat', Ring.start, Ring.cursor, x, r]
  · obtain ⟨code, addr, detail, hexec⟩ := doorbell_bad hup hbad
    refine ⟨_, hexec, ?_⟩
    have hstop := stopRing_ring (s.hostWake die) r x.rdoff code addr detail
    rw [hring] at hstop
    exact ⟨congrArg Ring.stat hstop, (congrArg Ring.rdoff hstop).trans rfl, (congrArg Ring.wroff hstop).trans rfl⟩
  · unfold Completes exec execRingConfigWrite
    dsimp only
    rw [if_neg (by simp [hup]), hring, if_neg hstat]
    refine ⟨_, rfl, hmem, ?_⟩
    rw [ring_setRing]
    cases reg <;> rfl
  · exact ⟨_, ringConfigWrite_busy hup hstat reg, hmem, hrings⟩
  · refine ⟨_, (execTrigger_good hup hlegal hctx).trans (congrArg _ (trigger_unknown (hgraphs ▸ hfind))), hmem, hgraphs, ?_⟩
    rw [trigDrop_find, hovf]
  · refine ⟨_, (execTrigger_good hup hlegal hctx).trans (congrArg _ (trigger_drops (hgraphs ▸ hfind) hpend)), hgraphs, ?_⟩
    rw [trigDrop_find, hovf]
  · refine ⟨_, (execTrigger_good hup hlegal hctx).trans (congrArg _ (trigger_taken (hgraphs ▸ hfind) hload hpend)), ?_⟩
    have hagenda : (s.hostWake die).agenda = s.agenda := hwake.same State.agenda fun _ _ => rfl
    rw [hgraphs]
    by_cases hidle : (y.run.isNone && y.starting.isNone) = true
    · rw [if_pos hidle, if_pos hidle, if_pos hidle]
      exact ⟨hovf, rfl, congrArg (· ++ [_]) hagenda⟩
    · rw [if_neg hidle, if_neg hidle, if_neg hidle]
      exact ⟨hovf, rfl, hagenda⟩
  · obtain ⟨code, i, hexec⟩ := execTrigger_bad hup hbad
    have htold := post_told (s.hostWake die) code i
    exact ⟨_, hexec, (htold.same State.graphs fun _ _ _ _ => rfl).trans hgraphs, (htold.same State.trigOvf fun _ _ _ _ => rfl).trans hovf⟩
  · refine ⟨_, congrArg Host.Outcome.next (if_neg (by simp [hup])), hmem, rfl⟩
  · refine ⟨_, rfl, hmem, hrings, hostWake_gated s die die hup, fun hlen => (hostWake_up s die hup hlen).2.2.1⟩

end Sys2Proof.Machine
end

section
/-! SUPPORT. What accesses to memory, posts and wakes leave of the module: every table of system software (R166, R170, R179, R255, R348). -/

namespace Sys2Proof.Machine

/-- The module without memory and what keeps it, without warp slots, dies and functions, and without what has been sent. -/
def State.bare (s : State) : State :=
  { s with
    agenda := [], mem := [], spad := [], host := [], poison := [], poisonSpad := [], warps := [], dies := [], leases := [], annex := []
    spent := [], l2 := [], directory := [], l1 := [], homeOps := [], xlats := [], fns := [], out := [] }

/-- A table that `State.bare` keeps. -/
theorem of_bare {s t : State} {β : Type} (h : t.bare = s.bare) (p : State → β) (hp : ∀ u : State, p u.bare = p u) : p t = p s := by
  rw [← hp t, h, hp s]

theorem Told.bare {s t : State} (h : Told s t) : t.bare = s.bare := by
  obtain ⟨_, _, _, _, rfl⟩ := h
  rfl

theorem Woken.bare {s t : State} (h : Woken s t) : t.bare = s.bare := by
  obtain ⟨_, _, rfl⟩ := h
  rfl

theorem post_bare (s : State) (code : Nat) (i : LogInfo) : (s.post code i).bare = s.bare := (post_told s code i).bare

theorem idlePoison_bare (s : State) (die pa n : Nat) : (s.idlePoison die pa n).bare = s.bare := (idlePoison_told s die pa n).bare

theorem onWarp_bare (s : State) (w : Nat) (f : Warp → Warp) : (s.onWarp w f).bare = s.bare := rfl

theorem hostWake_bare (s : State) (die : Nat) : (s.hostWake die).bare = s.bare := (hostWake_woken s die).bare

theorem msix_bare (s : State) (f v : Nat) : (s.msix f v).bare = s.bare := (msix_told s f v).bare

/-! ### Lines and pages -/

theorem hitLoc_bare (s : State) (but : Option Nat) (l : Loc) : (s.hitLoc but l).bare = s.bare := rfl

theorem writeLoc_bare (s : State) (l : Loc) (n v : Nat) : (s.writeLoc l n v).bare = s.bare := by
  unfold State.writeLoc
  split
  · split
    · split <;> rfl
    · rfl
  · rfl

theorem perform_bare (s : State) (but : Option Nat) (l : Loc) (n v : Nat) : (s.perform but l n v).bare = s.bare :=
  (foldl_field (p := State.bare) (fun t x => hitLoc_bare t but x) (linesOf l n) _).trans (writeLoc_bare s l n v)

theorem evictL1_bare (s : State) (core line : Nat) : (s.evictL1 core line).bare = s.bare := by
  unfold State.evictL1
  split
  · rfl
  · refine Eq.trans ?_ (idlePoison_bare s (core / 256) (line * 128) 128)
    dsimp only
    split <;> rfl

theorem flushPage_bare (s : State) (core base size : Nat) : (s.flushPage core base size).bare = s.bare :=
  foldl_field (p := State.bare) (fun t l => evictL1_bare t core l) _ s

theorem performLeaf_bare (s : State) (o : HomeOp) : (s.performLeaf o).bare = s.bare := by
  unfold State.performLeaf
  split
  · rfl
  · next a _ =>
    dsimp only
    have hwrite : ∀ (u : State) (v : DWord), u.bare = s.bare →
        (if u.mem.dword a = v then u else u.perform (some o.warp) (.hbm a) 8 v.toNat).bare = s.bare := fun u v hu => by
      split
      · exact hu
      · exact (perform_bare _ _ _ _ _).trans hu
    refine hwrite _ _ ?_
    split
    · exact flushPage_bare s _ _ _
    · rfl

/-- A request that waits at a home slice. -/
theorem queueOp_bare (s : State) (o : HomeOp) : (if s.homeOps.contains o then s else { s with homeOps := s.homeOps ++ [o] }).bare = s.bare := by
  split <;> rfl

theorem leafOp_bare (s : State) (o : HomeOp) : (s.leafOp o).bare = s.bare := by
  unfold State.leafOp
  split
  · rfl
  · dsimp only
    split
    · rfl
    split
    · exact performLeaf_bare s o
    · exact queueOp_bare s _

theorem setLeaf_bare (s : State) (but : Option Nat) (x : Xlat) (bits : DWord) : (s.setLeaf but x bits).bare = s.bare := leafOp_bare s _

theorem classify_bare (s : State) (but core : Option Nat) (x : Xlat) : (s.classify but core x).bare = s.bare := leafOp_bare s _

theorem keepXlat_bare (s : State) (x : Xlat) : (s.keepXlat x).bare = s.bare := by
  obtain ⟨xs, h⟩ := keepXlat_eq s x
  rw [h]
  rfl

theorem useL2_bare (s : State) (line : Nat) (hint : Hint) : (s.useL2 line hint).bare = s.bare := by
  have hroom : (s.roomL2 line).bare = s.bare := by
    unfold State.roomL2
    dsimp only
    split
    · exact idlePoison_bare s _ _ _
    · rfl
  unfold State.useL2
  split
  · rfl
  split
  · rfl
  · exact hroom

theorem recall_bare (s : State) (line : Nat) : (s.recall line).bare = s.bare := by
  unfold State.recall
  dsimp only
  split
  · rfl
  · have hpoison : ∀ b : Bool, (if b then s.idlePoison (homeDie (line * 128)) (line * 128) 128 else s).bare = s.bare := fun b => by
      cases b
      · rfl
      · exact idlePoison_bare s _ _ _
    exact hpoison _

theorem invalidateAll_bare (s : State) (but : Option Nat) (line keep : Nat) : (s.invalidateAll but line keep).bare = s.bare :=
  foldl_field (p := State.bare) (fun t _ => idlePoison_bare t _ _ _) _ s

/-! ### Pieces read and written -/

/-- What an access of a translated piece does to its page. -/
theorem pageTouch_bare (s : State) (x : Option Xlat) (core : Option Nat) (bits : DWord) : (match x with
    | some x => ((s.keepXlat x).setLeaf none x bits).classify none core x
    | none => s).bare = s.bare := by
  cases x with
  | none => rfl
  | some x => exact (classify_bare _ _ _ _).trans ((setLeaf_bare _ _ _ _).trans (keepXlat_bare s x))

theorem readTouch_bare (s : State) (core : Option Nat) (ps : List Piece) : (s.readTouch core ps).bare = s.bare := by
  refine foldl_field (p := State.bare) (fun t q => ?_) ps s
  exact (foldl_field (p := State.bare) (fun u l => (useL2_bare _ l .none).trans (recall_bare u l)) _ _).trans (pageTouch_bare t q.xlat core 0x100)

theorem writePiece_bare (s : State) (p : Piece) (bs : List Byte) (poison : Bool) : (s.writePiece p bs poison).bare = s.bare := by
  have hput : ∀ t : State, (match p.loc with
      | .hbm pa => { t with
          mem := t.mem.putAll pa (bs.take p.n)
          poison := if poison then t.poison ++ (granules pa p.n).filter fun g => !t.poison.contains g else cleanGranules t.poison pa p.n }
      | .spad c o => { t with
          spad := t.spad.putAll (spadAddr c o) (bs.take p.n)
          poisonSpad := if poison then t.poisonSpad ++ (granules (spadAddr c o) p.n).filter fun g => !t.poisonSpad.contains g
            else cleanGranules t.poisonSpad (spadAddr c o) p.n } : State).bare = t.bare := fun t => by
    cases p.loc <;> rfl
  refine (foldl_field (p := State.bare) (fun u l => hitLoc_bare u none l) _ _).trans ((hput _).trans ?_)
  exact (foldl_field (p := State.bare) (fun u l => (useL2_bare _ l .none).trans (invalidateAll_bare u none l 1000)) _ _).trans
    (pageTouch_bare s p.xlat none 0x300)

theorem writePieces_bare (s : State) (poison : Bool) (ps : List Piece) (bs : List Byte) : (s.writePieces poison ps bs).bare = s.bare := by
  induction ps generalizing s bs with
  | nil => rfl
  | cons p ps ih => exact (ih _ _).trans (writePiece_bare s p _ poison)

/-! ### Claims on lines -/

theorem unclaim_bare (s : State) (c : Claimer) : (s.unclaim c).bare = s.bare := rfl

theorem askLines_bare (s : State) (die : Nat) (c : Claimer) (lines : List Nat) : (s.askLines die c lines).1.bare = s.bare := by
  induction lines generalizing s with
  | nil => rfl
  | cons line rest ih =>
    have hclaim : (s.claim die c line).bare = s.bare := by
      unfold State.claim
      split <;> rfl
    unfold State.askLines
    split
    · rfl
    dsimp only
    split
    · exact (ih _).trans hclaim
    · exact hclaim

theorem gainLines_bare (s : State) (die : Nat) (c : Claimer) (lines : List Nat) : (s.gainLines die c lines).1.bare = s.bare := by
  unfold State.gainLines
  split
  · rfl
  · refine (askLines_bare _ die c _).trans ?_
    split <;> rfl

/-! ### Rings that stop -/

/-- What the stop of a ring leaves of the module. -/
theorem stopRing_keeps {β : Type} (s : State) (r off code : Nat) (addr : DWord) (detail : Word) (p : State → β) (hp : ∀ u : State, p u.bare = p u)
    (hq : ∀ (u : State) holds rings, p { u with holds := holds, rings := rings } = p u) : p (s.stopRing r off code addr detail) = p s := by
  have hfree : p (s.freeRing r) = p s := by
    unfold State.freeRing
    dsimp only
    split
    · exact (hq (s.unclaim (.ring r)) _ s.rings).trans (of_bare (unclaim_bare s _) p hp)
    · exact of_bare (unclaim_bare s _) p hp
  refine (of_bare (post_bare _ _ _) p hp).trans (Eq.trans ?_ hfree)
  exact hq (s.freeRing r) (s.freeRing r).holds _

end Sys2Proof.Machine
end

section
/-! SUPPORT. The packet at the head of a ring, and `CONFIG` packets (R224, R266, R287, R301, R303, R310). -/

namespace Sys2Proof.Machine

/-! ### Packets that execute -/

theorem pkt_acts {s : State} {r kind : Nat} {p : FPkt} (hhead : s.headPkt r = some p) (hkind : p.kind = kind) (act : FPkt → State) :
    s.pkt r kind act = act p := by
  rw [State.pkt, hhead]
  exact if_pos hkind

theorem config_acts {s : State} {r op : Nat} {p : FPkt} (hhead : s.headPkt r = some p) (hkind : p.kind = 13) (hop : p.par 7 0 = op)
    (act : FPkt → State) : s.config r op act = act p := by
  rw [State.config, pkt_acts hhead hkind]
  exact if_pos hop

/-- A packet that executes and does `u` beside its ring. -/
theorem Completes.onward {s u : State} {i : Instr} {r : Nat} {f : Ring → Ring} {P : State → Prop} (hexec : exec i s = .next (u.donePkt r f))
    (hrings : u.rings = s.rings) (hP : P u) : Completes i s (Onward s r f P) := ⟨_, hexec, u, rfl, hrings, hP⟩

/-- The ring has stopped at a packet, and no task queue and no counter has changed. -/
def StopsConfig (s t : State) (r : Nat) (p : FPkt) : Prop :=
  (t.ring r).stat = 2 ∧ (t.ring r).rdoff = p.rpos ∧ t.taskqs = s.taskqs ∧ t.depctrs = s.depctrs

/-- A ring that stops at its packet (R310). -/
theorem stopAt_stops {s u : State} (hu : u.bare = s.bare) (r : Nat) (p : FPkt) (code : Nat) (detail : Word) :
    StopsConfig s (u.stopAt r p code detail) r p := by
  have hring := stopRing_ring u r p.rpos code p.addr detail
  refine ⟨congrArg Ring.stat hring, congrArg Ring.rdoff hring, ?_, ?_⟩
  · exact (stopRing_keeps u r _ _ _ _ State.taskqs (fun _ => rfl) fun _ _ _ => rfl).trans (of_bare hu State.taskqs fun _ => rfl)
  · exact (stopRing_keeps u r _ _ _ _ State.depctrs (fun _ => rfl) fun _ _ _ => rfl).trans (of_bare hu State.depctrs fun _ => rfl)

theorem Completes.stops {s u : State} {i : Instr} {r : Nat} {p : FPkt} {code : Nat} {detail : Word} (hexec : exec i s = .next (u.stopAt r p code detail))
    (hu : u.bare = s.bare) : Completes i s fun t => (t.ring r).stat = 2 ∧ (t.ring r).rdoff = p.rpos ∧ t.taskqs = s.taskqs ∧ t.depctrs = s.depctrs :=
  ⟨_, hexec, stopAt_stops hu r p code detail⟩

/-! ### Task queues and counters -/

section
variable {s : State} {r : Nat} {p : FPkt} (hhead : s.headPkt r = some p) (hkind : p.kind = 13)
include hhead hkind

theorem configCreateTaskQueue_creates (hop : p.par 7 0 = 0) (hidx : p.objIdx ≤ 255) (hcap : fieldN (p.w 1) 47 32 ≠ 0)
    (hfree : s.taskqs.find (p.objDie * 256 + p.objIdx) = none) : exec (.configCreateTaskQueue r) s = .next (({ s with
      taskqs := s.taskqs.put (p.objDie * 256 + p.objIdx) ⟨fieldN (p.w 1) 16 16 == 1, fieldN (p.w 1) 47 32, false, none, []⟩ } : State).donePkt r id) := by
  refine congrArg Host.Outcome.next ((config_acts hhead hkind hop _).trans (if_neg ?_))
  rintro (h | h | h)
  · omega
  · exact hcap h
  · simp [hfree] at h

theorem configCreateTaskQueue_stops (hop : p.par 7 0 = 0)
    (hbad : 255 < p.objIdx ∨ fieldN (p.w 1) 47 32 = 0 ∨ (s.taskqs.find (p.objDie * 256 + p.objIdx)).isSome = true) :
    exec (.configCreateTaskQueue r) s = .next (s.configBad r p) :=
  congrArg Host.Outcome.next ((config_acts hhead hkind hop _).trans (if_pos hbad))

theorem configCreateCounter_creates (hop : p.par 7 0 = 1) (hfree : s.depctrs.find (p.objDie * 65536 + p.objIdx) = none) :
    exec (.configCreateCounter r) s = .next (({ s with
      depctrs := s.depctrs.put (p.objDie * 65536 + p.objIdx) ⟨loWord (p.w 2), []⟩ } : State).donePkt r id) :=
  congrArg Host.Outcome.next ((config_acts hhead hkind hop _).trans (if_neg (by simp [hfree])))

theorem configCreateCounter_stops (hop : p.par 7 0 = 1) (hused : (s.depctrs.find (p.objDie * 65536 + p.objIdx)).isSome = true) :
    exec (.configCreateCounter r) s = .next (s.configBad r p) :=
  congrArg Host.Outcome.next ((config_acts hhead hkind hop _).trans (if_pos hused))

/-- The task queue that a packet names, if it names one. -/
def State.namedTaskq (s : State) (p : FPkt) : Option TaskQ := if p.objIdx ≤ 255 then s.taskqs.find (p.objDie * 256 + p.objIdx) else none

theorem configCloseTaskQueue_closes (hop : p.par 7 0 = 2) {y : TaskQ} (hy : s.namedTaskq p = some y) :
    exec (.configCloseTaskQueue r) s = .next (({ s with
      taskqs := s.taskqs.put (p.objDie * 256 + p.objIdx) { y with closed := true } } : State).donePkt r id) := by
  refine congrArg Host.Outcome.next ((config_acts hhead hkind hop _).trans ?_)
  dsimp only
  rw [show (if p.objIdx ≤ 255 then s.taskqs.find (p.objDie * 256 + p.objIdx) else none) = some y from hy]

theorem configCloseTaskQueue_stops (hop : p.par 7 0 = 2) (hnone : s.namedTaskq p = none) :
    exec (.configCloseTaskQueue r) s = .next (s.configBad r p) := by
  refine congrArg Host.Outcome.next ((config_acts hhead hkind hop _).trans ?_)
  dsimp only
  rw [show (if p.objIdx ≤ 255 then s.taskqs.find (p.objDie * 256 + p.objIdx) else none) = none from hnone]

/-- A worker queue that is in no set joins one; it stays in its own (R266). -/
theorem configJoinStealSet_joins (hop : p.par 7 0 = 3) {y : TaskQ} (hy : s.namedTaskq p = some y) (hworker : y.worker = true)
    (hset : y.set = none ∨ y.set = some (fieldN (p.w 1) 23 16)) : exec (.configJoinStealSet r) s = .next (({ s with
      taskqs := s.taskqs.put (p.objDie * 256 + p.objIdx) { y with set := some (fieldN (p.w 1) 23 16) } } : State).donePkt r id) := by
  refine congrArg Host.Outcome.next ((config_acts hhead hkind hop _).trans ?_)
  dsimp only
  rw [show (if p.objIdx ≤ 255 then s.taskqs.find (p.objDie * 256 + p.objIdx) else none) = some y from hy]
  dsimp only
  rw [if_neg]
  rcases hset with h | h <;> simp [hworker, h]

theorem configJoinStealSet_stops (hop : p.par 7 0 = 3) {y : TaskQ} (hy : s.taskqs.find (p.objDie * 256 + p.objIdx) = some y)
    (hbad : y.worker = false ∨ ∃ k, y.set = some k ∧ k ≠ fieldN (p.w 1) 23 16) : exec (.configJoinStealSet r) s = .next (s.configBad r p) := by
  refine congrArg Host.Outcome.next ((config_acts hhead hkind hop _).trans ?_)
  dsimp only
  by_cases hidx : p.objIdx ≤ 255
  case neg => rw [if_neg hidx]
  case pos =>
    rw [if_pos hidx, hy]
    dsimp only
    rw [if_pos]
    rcases hbad with h | ⟨k, hk, hne⟩
    · exact .inl (by simp [h])
    · exact .inr ⟨by simp [hk], by rw [hk]; exact fun h => hne (Option.some.inj h)⟩

/-! ### Graphs -/

omit hhead hkind in
theorem unloadGraph_none {g : Nat} (hg : s.graphs.find g = none) (r : Nat) : s.unloadGraph r g = (true, s) := by
  rw [State.unloadGraph, hg]

/-- The nodes of a node array (R303). -/
def nodesOf (n : Nat) (bs : List Byte) : List (BitVec 512) := (List.range n).map fun k => BitVec.ofNat 512 (natOfBytes ((bs.drop (64 * k)).take 64))

/-- The graph that a `CONFIG` loads. -/
def State.loaded (s : State) (r : Nat) (p : FPkt) (ns : List (BitVec 512)) : Graph :=
  ⟨p.objDie, ringFn r, (s.ring r).ctx, ns, p.w 3, none, none, none, false⟩

/-- The node array can be read: the graph is loaded, or its description stops the ring (R303, R310). -/
theorem configLoadGraph_reads (hop : p.par 7 0 = 4) (hfree : s.graphs.find (p.objDie * 256 + fieldN (p.w 1) 7 0) = none)
    (hn : fieldN (p.w 1) 27 16 ≠ 0) {bs : List Byte} {ps : List Piece}
    (hread : s.readVirt (ringDie r) (s.ring r).ctx (ringFn r) (p.w 2).toNat (64 * fieldN (p.w 1) 27 16) = .ok (bs, ps))
    (hready : s.piecesReadable (ringDie r) ps = true) :
    (graphBad (nodesOf (fieldN (p.w 1) 27 16) bs) = none → exec (.configLoadGraph r) s = .next (({ s.readTouch none ps with
      graphs := (s.readTouch none ps).graphs.put (p.objDie * 256 + fieldN (p.w 1) 7 0)
        ((s.readTouch none ps).loaded r p (nodesOf (fieldN (p.w 1) 27 16) bs)) } : State).donePkt r id)) ∧
    ∀ k, graphBad (nodesOf (fieldN (p.w 1) 27 16) bs) = some k →
      exec (.configLoadGraph r) s = .next ((s.readTouch none ps).stopAt r p 0x2A (BitVec.ofNat 32 k)) := by
  have hexec : exec (.configLoadGraph r) s = .next (s.config r 4 _) := rfl
  rw [hexec, config_acts hhead hkind hop]
  dsimp only
  rw [unloadGraph_none hfree]
  dsimp only
  rw [if_neg hn, hread]
  dsimp only
  rw [State.cpRead, if_pos hready]
  refine ⟨fun hgood => ?_, fun k hk => ?_⟩
  · dsimp only [nodesOf] at hgood
    rw [hgood]
    rfl
  · dsimp only [nodesOf] at hk
    rw [hk]

theorem configLoadGraph_empty (hop : p.par 7 0 = 4) (hfree : s.graphs.find (p.objDie * 256 + fieldN (p.w 1) 7 0) = none)
    (hn : fieldN (p.w 1) 27 16 = 0) : exec (.configLoadGraph r) s = .next (s.stopAt r p 0x2A (BitVec.ofNat 32 noNode)) := by
  have hexec : exec (.configLoadGraph r) s = .next (s.config r 4 _) := rfl
  rw [hexec, config_acts hhead hkind hop]
  dsimp only
  rw [unloadGraph_none hfree]
  dsimp only
  rw [if_pos hn]

theorem configUnloadGraph_none (hop : p.par 7 0 = 5) (hfree : s.graphs.find (p.objDie * 256 + fieldN (p.w 1) 7 0) = none) :
    exec (.configUnloadGraph r) s = .next (s.donePkt r id) := by
  have hexec : exec (.configUnloadGraph r) s = .next (s.config r 5 _) := rfl
  rw [hexec, config_acts hhead hkind hop, unloadGraph_none hfree]

/-- A graph without a trigger is gone; one whose run is on, or about to start, is unloaded at its end (R301). -/
theorem configUnloadGraph_some (hop : p.par 7 0 = 5) {y : Graph} (hy : s.graphs.find (p.objDie * 256 + fieldN (p.w 1) 7 0) = some y)
    (hpend : y.pending = none) : exec (.configUnloadGraph r) s = .next (
      if y.run.isSome ∨ y.starting.isSome then
        ({ s with graphs := s.graphs.put (p.objDie * 256 + fieldN (p.w 1) 7 0) { y with pending := none, unloading := true } } : State).onRing r fun x =>
          { x with wait := some (.unload (p.objDie * 256 + fieldN (p.w 1) 7 0)) }
      else ({ s with graphs := s.graphs.del (p.objDie * 256 + fieldN (p.w 1) 7 0) } : State).donePkt r id) := by
  have hexec : exec (.configUnloadGraph r) s = .next (s.config r 5 _) := rfl
  rw [hexec, config_acts hhead hkind hop, State.unloadGraph, hy]
  dsimp only
  rw [hpend]
  dsimp only
  by_cases hbusy : y.run.isSome = true ∨ y.starting.isSome = true
  · rw [if_pos hbusy, if_pos hbusy]
  · rw [if_neg hbusy, if_neg hbusy]

end

/-- Settles O55: the six operations of `CONFIG`, each by what its object comes to. -/
theorem packetConfigs : Obligations.PacketConfigs := by
  intro s r p hhead hkind die idx q g n set done stops
  have hstops : ∀ {i : Instr}, exec i s = .next (s.configBad r p) → stops i := fun h => Completes.stops h rfl
  refine ⟨fun hop => ⟨fun hidx hcap hfree => ?_, fun hbad => hstops (configCreateTaskQueue_stops hhead hkind hop hbad)⟩,
    fun hop => ⟨fun hfree => ?_, fun hused => hstops (configCreateCounter_stops hhead hkind hop hused)⟩,
    fun hop => ⟨fun y hidx hy => ?_, fun hbad => hstops (configCloseTaskQueue_stops hhead hkind hop ?_)⟩,
    fun hop => ⟨fun y hidx hy hworker hset => ?_, fun y hy hbad => hstops (configJoinStealSet_stops hhead hkind hop hy hbad)⟩,
    fun hop hfree => ⟨fun bs ps hn hread hready => ?_, fun hn => ?_⟩,
    fun hop => ⟨fun hfree => ?_, fun y hy hpend => ⟨fun hrun hstart => ?_, fun hbusy => ?_⟩⟩⟩
  · exact Completes.onward (configCreateTaskQueue_creates hhead hkind hop hidx hcap hfree) rfl ⟨rfl, rfl⟩
  · exact Completes.onward (configCreateCounter_creates hhead hkind hop hfree) rfl ⟨rfl, rfl⟩
  · exact Completes.onward (configCloseTaskQueue_closes hhead hkind hop ((if_pos hidx).trans hy)) rfl ⟨rfl, rfl⟩
  · rcases hbad with h | h
    · exact if_neg (Nat.not_le.2 h)
    · unfold State.namedTaskq
      split
      · exact h
      · rfl
  · exact Completes.onward (configJoinStealSet_joins hhead hkind hop ((if_pos hidx).trans hy) hworker hset) rfl ⟨rfl, rfl⟩
  · have hbare := readTouch_bare s none ps
    have hrings : (s.readTouch none ps).rings = s.rings := of_bare hbare State.rings fun _ => rfl
    have hgraphs : (s.readTouch none ps).graphs = s.graphs := of_bare hbare State.graphs fun _ => rfl
    obtain ⟨hgood, hbad⟩ := configLoadGraph_reads hhead hkind hop hfree hn hread hready
    refine ⟨fun h => Completes.onward (hgood h) hrings ?_, fun h => ?_⟩
    · dsimp only
      rw [State.loaded, ring_congr hrings, hgraphs]
      rfl
    · obtain ⟨k, hk⟩ := Option.ne_none_iff_exists'.1 h
      exact Completes.stops (hbad k hk) hbare
  · exact Completes.stops (configLoadGraph_empty hhead hkind hop hfree hn) rfl
  · exact Completes.onward (configUnloadGraph_none hhead hkind hop hfree) rfl rfl
  · refine Completes.onward ((configUnloadGraph_some hhead hkind hop hy hpend).trans (congrArg _ (if_neg ?_))) rfl ⟨rfl, rfl⟩
    simp [hrun, hstart]
  · refine ⟨_, (configUnloadGraph_some hhead hkind hop hy hpend).trans (congrArg _ (if_pos hbusy)), ?_, ring_onRing _ _ _⟩
    rw [← hpend]
    rfl

end Sys2Proof.Machine
end

section
/-! SUPPORT. A ring between its packets (R283, R287, R296, R310). -/

namespace Sys2Proof.Machine

/-- A ring that runs, and that nothing holds back: no wait, no skip, no loop that is taken up. -/
structure Ring.Runs (x : Ring) : Prop where
  stat : x.stat = 1
  wait : x.wait = none
  gather : x.gather = none
  skip : x.skip = none

theorem setRing_setRing (s : State) (r : Nat) (x y : Ring) : (s.setRing r x).setRing r y = s.setRing r y := by
  unfold State.setRing
  dsimp only
  rw [tab_put_put]

theorem mark_rdoff {x : Ring} {f : Frame} {c : Cursor} (hframes : x.frames = [f]) (hhere : trimCurs f.here = [c]) : x.mark = { x with rdoff := c.off } := by
  rw [Ring.mark, hframes]
  dsimp only
  rw [hhere]

/-- Marking the ring changes no more than where it stands. -/
theorem mark_keeps (x : Ring) : ∃ n, x.mark = { x with rdoff := n } := by
  unfold Ring.mark
  split
  · split
    · exact ⟨_, rfl⟩
    · exact ⟨_, rfl⟩
  · exact ⟨_, rfl⟩

section
variable {s : State} {r : Nat} {f : Frame} {fs : List Frame} (hruns : (s.ring r).Runs) (hframes : (s.ring r).frames = f :: fs)
include hruns hframes

/-- A ring with a packet stands at it; one that breaks a rule stops the ring (R310). -/
theorem settleRing_head {q : FPkt} {rest : List FPkt} (hq : f.fetched = q :: rest) (n : Nat) : s.settleRing r (n + 1) =
    match q.fault (f.body != []) with
    | some z => (s.setRing r (s.ring r).mark).stopRing r q.rpos z.1 q.addr z.2
    | none => s.setRing r (s.ring r).mark := by
  rw [State.settleRing]
  dsimp only
  rw [if_neg (by simp [hruns.stat, hruns.wait]), hruns.gather, hruns.skip]
  dsimp only
  rw [hframes]
  dsimp only
  rw [hq] <;> rfl

/-- A ring without a packet, at the end of what has been fetched of it, rests (R287). -/
theorem settleRing_empty (hempty : f.fetched = []) (hbody : f.body = []) {c : Cursor} (hcurs : trimCurs f.curs = [c]) (n : Nat) :
    s.settleRing r (n + 1) = (s.setRing r (s.ring r).mark).setRing r (s.ring r).mark.rest := by
  rw [State.settleRing]
  dsimp only
  rw [if_neg (by simp [hruns.stat, hruns.wait]), hruns.gather, hruns.skip]
  dsimp only
  rw [hframes]
  dsimp only
  rw [hempty, if_neg (by simp [hbody]), hcurs]

end

/-! ### A packet has executed -/

section
variable {s : State} {r : Nat} {f : Frame} {p : FPkt} {rest : List FPkt} (hstat : (s.ring r).stat = 1) (hgather : (s.ring r).gather = none)
  (hskip : (s.ring r).skip = none) (hframes : (s.ring r).frames = [f]) (hfetched : f.fetched = p :: rest)

/-- The ring once its head packet is gone. -/
def Ring.popped (x : Ring) (f : Frame) (p : FPkt) (rest : List FPkt) (n : Nat) : Ring :=
  { x with frames := [{ f with fetched := rest, here := p.curs }], wait := none, turn := n }

include hframes hfetched in
theorem donePkt_eq : s.donePkt r id = (s.fresh.2.setRing r ((s.ring r).popped f p rest s.nextNo)).settleRing r settleFuel := by
  have hpop : (s.ring r).popPkt = { s.ring r with frames := [{ f with fetched := rest, here := p.curs }] } := by
    rw [Ring.popPkt, hframes]
    dsimp only
    rw [hfetched]
  have hring : s.fresh.2.ring r = s.ring r := rfl
  have hdone : s.donePkt r id = (s.fresh.2.onRing r fun x => { x.popPkt with wait := none, turn := s.nextNo }).settleRing r settleFuel := rfl
  rw [hdone, State.onRing, hring, hpop]
  rfl

include hstat hgather hskip in
theorem popped_runs (n : Nat) : ((s.fresh.2.setRing r ((s.ring r).popped f p rest n)).ring r).Runs := by
  rw [ring_setRing]
  exact ⟨hstat, rfl, hgather, hskip⟩

include hstat hgather hskip hframes hfetched

/-- The ring stands at its next packet, or that packet stops it (R310). -/
theorem donePkt_next {q : FPkt} {more : List FPkt} (hrest : rest = q :: more) (hbody : f.body = []) {c : Cursor} (hcurs : trimCurs p.curs = [c]) :
    let u := s.fresh.2.setRing r ((s.ring r).popped f p rest s.nextNo)
    let v := u.setRing r { (s.ring r).popped f p rest s.nextNo with rdoff := c.off }
    s.donePkt r id = match q.fault false with
      | some z => v.stopRing r q.rpos z.1 q.addr z.2
      | none => v := by
  intro u v
  have hring : u.ring r = (s.ring r).popped f p rest s.nextNo := ring_setRing _ _ _
  have hmark : (u.ring r).mark = { (s.ring r).popped f p rest s.nextNo with rdoff := c.off } := by
    rw [hring]
    exact mark_rdoff rfl hcurs
  have hno : (f.body != []) = false := by simp [hbody]
  rw [donePkt_eq hframes hfetched, settleFuel, settleRing_head (n := 4095) (popped_runs hstat hgather hskip s.nextNo)
    (f := { f with fetched := rest, here := p.curs }) (fs := []) (by rw [ring_setRing]; rfl) hrest, hmark]
  dsimp only
  rw [hno]

/-- The ring is idle: nothing is left (R287). -/
theorem donePkt_idle (hrest : rest = []) (hbody : f.body = []) {c : Cursor} (hcurs : f.curs = [c]) (hhere : p.curs = [c]) (hc : c.ring = true)
    (hleft : (s.ring r).left c = 0) : ∃ b : Ring, s.donePkt r id = s.fresh.2.setRing r b ∧ b.stat = 0 ∧ b.rdoff = c.off := by
  have htrim : trimCurs [c] = [c] := by simp [trimCurs, hc]
  have hring := ring_setRing s.fresh.2 r ((s.ring r).popped f p rest s.nextNo)
  have hmark : ((s.ring r).popped f p rest s.nextNo).mark = { (s.ring r).popped f p rest s.nextNo with rdoff := c.off } :=
    mark_rdoff rfl (hhere ▸ htrim)
  have hidle : ({ (s.ring r).popped f p rest s.nextNo with rdoff := c.off } : Ring).rest =
      { (s.ring r).popped f p rest s.nextNo with rdoff := c.off, stat := 0 } := by
    subst hrest
    simp only [Ring.rest, Ring.popped, hcurs, htrim]
    exact if_pos ⟨hbody, hc, hleft⟩
  refine ⟨{ (s.ring r).popped f p rest s.nextNo with rdoff := c.off, stat := 0 }, ?_, rfl, rfl⟩
  rw [donePkt_eq hframes hfetched, settleFuel, settleRing_empty (n := 4095) (popped_runs hstat hgather hskip s.nextNo)
    (f := { f with fetched := rest, here := p.curs }) (fs := []) (by rw [ring_setRing]; rfl) hrest hbody (c := c) (by rw [← htrim, ← hcurs]),
    hring, hmark, hidle, setRing_setRing, setRing_setRing]

end

/-! ### Fetching -/

/-- A ring whose packets are those of one stream, in no loop. -/
structure Ring.Streams (x : Ring) (f : Frame) : Prop where
  frames : x.frames = [f]
  body : f.body = []

section
variable {s : State} {r : Nat} {f : Frame} (hstream : (s.ring r).Streams f) (hstat : (s.ring r).stat = 1) (hwait : (s.ring r).wait = none)
include hstream hstat hwait

theorem packetFetch_eq : execPacketFetch r s = .next (
    if ¬f.fetched = [] ∧ 32 ≤ (s.ring r).ahead.1 then s
    else match s.fetchPkt r f.curs with
      | .dry => s
      | .long off addr detail => if f.fetched = [] then s.stopRing r off 0x25 addr detail else s
      | .fail off e => if f.fetched = [] then s.cpFail r off e else s
      | .pkt p ps =>
        if (¬f.fetched = [] ∧ 2048 < (s.ring r).ahead.2 + p.bytes) ∨ !s.piecesReadable (ringDie r) ps then s
        else (((s.readTouch none ps).setRing r { s.ring r with frames := [{ f with fetched := f.fetched ++ [p], curs := p.curs }] }).settleRing r
          settleFuel).readyRing r (s.headPkt r).isSome) := by
  have hloops : ((s.ring r).frames.takeWhile fun f => f.body != []) = [] := by
    rw [hstream.frames]
    simp [hstream.body]
  unfold execPacketFetch
  dsimp only
  rw [if_neg (by simp [hstat, hwait]), hloops]
  simp only [List.length_nil, List.drop_zero, hstream.frames, true_and, List.nil_append] <;> rfl

end

theorem readyRing_keeps (s : State) (r : Nat) (before : Bool) : (s.readyRing r before).mem = s.mem ∧
    ((s.readyRing r before).ring r).stat = (s.ring r).stat ∧ ((s.readyRing r before).ring r).frames = (s.ring r).frames := by
  unfold State.readyRing
  split
  · exact ⟨rfl, rfl, rfl⟩
  · dsimp only
    rw [ring_onRing]
    exact ⟨rfl, rfl, rfl⟩

/-- Settles O52: the fetch of a packet by what it finds, and the ring once its head packet has executed. -/
theorem packetFlow : Obligations.PacketFlow := by
  intro s r f p q rest c x hstat hgather hskip hframes hbody
  have hstream : (s.ring r).Streams f := ⟨hframes, hbody⟩
  refine ⟨fun hwait hdry => ?_, fun hwait hsome hfull => ?_, fun ps hwait hfetched hpkt => ⟨fun hlong => ?_, fun hroom hbytes hready hgood => ?_⟩,
    fun hfetched hcurs => ?_, fun hfetched hcurs hhere hc hleft => ?_⟩
  · refine ⟨_, packetFetch_eq hstream hstat hwait, ?_⟩
    rw [hdry]
    exact ite_self _
  · exact ⟨_, packetFetch_eq hstream hstat hwait, if_pos ⟨hsome, hfull⟩⟩
  · refine ⟨_, packetFetch_eq hstream hstat hwait, ?_⟩
    rw [hpkt]
    have hsome : f.fetched ≠ [] := by simp [hfetched]
    have hbig : (¬f.fetched = [] ∧ 2048 < (s.ring r).ahead.2 + p.bytes) ∨ (!s.piecesReadable (ringDie r) ps) = true := .inl ⟨hsome, hlong⟩
    dsimp only
    rw [if_pos hbig]
    exact ite_self _
  · refine ⟨_, packetFetch_eq hstream hstat hwait, ?_⟩
    have hstand : ¬(¬f.fetched = [] ∧ 32 ≤ (s.ring r).ahead.1) := fun h => Nat.not_lt.2 h.2 hroom
    have hfits : ¬((¬f.fetched = [] ∧ 2048 < (s.ring r).ahead.2 + p.bytes) ∨ (!s.piecesReadable (ringDie r) ps) = true) := by
      rintro (h | h)
      · exact Nat.not_lt.2 hbytes h.2
      · simp [hready] at h
    rw [if_neg hstand, hpkt]
    dsimp only
    rw [if_neg hfits]
    generalize hu : (s.readTouch none ps).setRing r { s.ring r with frames := [{ f with fetched := f.fetched ++ [p], curs := p.curs }] } = u
    have hring : u.ring r = { s.ring r with frames := [{ f with fetched := f.fetched ++ [p], curs := p.curs }] } := hu ▸ ring_setRing _ _ _
    have hruns : (u.ring r).Runs := hring ▸ ⟨hstat, hwait, hgather, hskip⟩
    have hno : (f.body != []) = false := by simp [hbody]
    have hsettle := settleRing_head hruns (congrArg Ring.frames hring) (q := q) (rest := rest ++ [p]) (by rw [hfetched]; rfl) 4095
    dsimp only at hsettle
    rw [hno, hgood] at hsettle
    dsimp only at hsettle
    obtain ⟨n, hmark⟩ := mark_keeps (u.ring r)
    obtain ⟨hmem, hst, hfr⟩ := readyRing_keeps (u.settleRing r settleFuel) r (s.headPkt r).isSome
    rw [hmem, hst, hfr, settleFuel, hsettle, ring_setRing, hmark, hring]
    exact ⟨hu ▸ rfl, hstat, rfl⟩
  · have hnext := donePkt_next hstat hgather hskip hframes hfetched rfl hbody hcurs
    refine ⟨fun hgood => ?_, fun code d hbad => ?_⟩
    · rw [hgood] at hnext
      dsimp only at hnext
      rw [hnext, ring_setRing]
      exact ⟨rfl, hstat, rfl, rfl⟩
    · rw [hbad] at hnext
      dsimp only at hnext
      rw [hnext, stopRing_ring]
      exact ⟨rfl, rfl, rfl, stopRing_keeps _ _ _ _ _ _ State.jobs (fun _ => rfl) fun _ _ _ => rfl⟩
  · obtain ⟨b, hdone, hb, hoff⟩ := donePkt_idle hstat hgather hskip hframes hfetched rfl hbody hcurs hhere hc hleft
    rw [hdone, ring_setRing]
    exact ⟨hb, hoff⟩

end Sys2Proof.Machine
end

section
/-! SUPPORT. A signal whose line is poisoned and stands in an L1: what is invalidated is posted (R299, R410). -/

namespace Sys2Proof.Machine

/-- The place of ring 0 behind its one packet, which is all that the ring holds. -/
def signalEnd : Cursor := ⟨0x40000, 4096, 32, true, 0, 32⟩

/-- A `SIGNAL` that writes 1 to address 8 and sends no message. -/
def signalPkt : FPkt := ⟨[0x0A10_0000_0000_0000, 8, 1, 0], 0x40000, 0, 0, [signalEnd], false⟩

/-- The stream of that packet alone. -/
def signalFrame : Frame := ⟨[signalEnd], [⟨0x40000, 4096, 0, true, 0, 0⟩], [signalPkt], [], 0⟩

/-- The module with that packet at the head of ring 0, whose context maps the addresses below 2 MiB to themselves. The first granule of memory is
poisoned, and the L1 of the porter's core holds its line. -/
def poisonedSignal : State :=
  { State.reset with
    mem := ((((Memory.store [] 0x8000 8 0x9001).store 0x9000 8 0xA001).store 0xA000 8 0xB001).store 0xB000 8 0xC001).store 0xC000 8 0x040F
    ctxs := [(5, ⟨0, 0x8000, 0, 0, 0, 0, false, false, 0, []⟩)]
    rings := [(0, { Ring.reset with base := 0x40000, size := 4096, ctx := 5, stat := 1, wroff := 32, frames := [signalFrame] })]
    poison := [0]
    l1 := [(l1Key (porterCore 0) 0, ⟨false, false, false, false, ⟨.none, 0⟩⟩)] }

/-- The translation of address 8 in that context. -/
def signalXlat : Xlat := ⟨cpAgent 0, 5, 0, 0, 0, 0xC000, 2 ^ 21, false, true, true, true⟩

theorem poisonedSignal_place : poisonedSignal.place (cpAsker (ringDie 0) (poisonedSignal.ring 0).ctx (ringFn 0)) 0 .store 8 (signalPkt.w 1) =
    .ok ⟨.hbm 8, some signalXlat⟩ := by decide +kernel

theorem poisonedSignal_ready : ∀ l ∈ pieceLines [⟨signalPkt.w 1, 8, .hbm 8, some signalXlat⟩],
    poisonedSignal.lineReady l = true ∧ poisonedSignal.wrapHeld (ringDie 0) (.hbm (l * 128)) = false := by decide +kernel

/-- The write takes the line from the L1, and the poison of what the L1 held is posted to the log of function 0, which is off: one cause is lost. -/
theorem poisonedSignal_tells : Completes (.pktSignal 0) poisonedSignal fun t => (t.fn 0).cllost = 1 :=
  completes_of_runsTo _ _ _ (by decide +kernel)

/-- A ring that rests after its packet has posted nothing. -/
theorem donePkt_signal_fns {u : State} (hrings : u.rings = poisonedSignal.rings) : (u.donePkt 0 id).fns = u.fns := by
  have hring : u.ring 0 = poisonedSignal.ring 0 := ring_congr hrings 0
  obtain ⟨b, hdone, -, -⟩ := donePkt_idle (s := u) (r := 0) (f := signalFrame) (p := signalPkt) (rest := []) (c := signalEnd) (hring ▸ rfl)
    (hring ▸ rfl) (hring ▸ rfl) (hring ▸ rfl) rfl rfl rfl rfl rfl rfl (hring ▸ by decide)
  rw [hdone]
  rfl

/-- Refutes O54. It says that a `SIGNAL` without a message changes no function, and asks nothing of poison; in `poisonedSignal` the write invalidates
a line of an L1 with a poisoned granule, which is posted (R410), so that function 0 counts a lost cause. -/
theorem not_packetWaits : ¬Obligations.PacketWaits := by
  unfold Obligations.PacketWaits
  intro h
  obtain ⟨⟨-, -, -, -, hsignal, -⟩, -⟩ := (h poisonedSignal 0 signalPkt).imp_left (· (by decide +kernel))
  obtain ⟨t, ht, u, hdone, hrings, -, hsilent, -⟩ := hsignal 8 (some signalXlat) (by decide) (.inl (by decide)) poisonedSignal_place
    poisonedSignal_ready (by decide +kernel)
  obtain ⟨v, hv, hlost⟩ := poisonedSignal_tells
  obtain rfl : t = v := Host.Outcome.next.inj (ht.symm.trans hv)
  have hfns : t.fns = poisonedSignal.fns := by rw [hdone, donePkt_signal_fns hrings, (hsilent (by decide)).2]
  rw [State.fn, hfns] at hlost
  exact absurd hlost (by decide)

end Sys2Proof.Machine
end

section
/-! SUPPORT. Packets that start work: jobs, launches and copies (R290 to R292, R300). -/

namespace Sys2Proof.Machine

/-! ### Jobs -/

/-- A job whose start is one of several parts. -/
theorem jobDone_left {s : State} {j : Nat} {x : Job} (hx : s.jobs.find j = some x) (hleft : x.left - 1 ≠ 0) (failed : Bool) :
    s.jobDone (some j) failed = { s with jobs := s.jobs.put j { x with left := x.left - 1, failed := x.failed || failed } } := by
  rw [State.jobDone]
  dsimp only
  rw [hx]
  dsimp only
  rw [if_neg fun h => hleft h.1]

/-- The state in which the job of a packet of ring `r` stands for its start alone. -/
def State.withJob (s : State) (r : Nat) : State := { s with nextNo := s.nextNo + 1, jobs := s.jobs.put s.nextNo ⟨1, r, none, false⟩ }

theorem newJob_eq (s : State) (r : Nat) : s.newJob r none = (s.nextNo, s.withJob r) := rfl

theorem withJob_find (s : State) (r : Nat) : (s.withJob r).jobs.find s.nextNo = some ⟨1, r, none, false⟩ := tab_find_put_same _ _ _

/-! ### Launches -/

/-- A launch that a die takes in (R259, R291). -/
theorem startLaunch_begins {s : State} {die ctx fn : Nat} {d : BitVec 512} {job : Nat} {o : CodeObj × Kern}
    (ho : s.findEntry die ctx (field d 63 0) = some o) (hfits : (launchOfDesc d ctx fn die o job).neverFits = false) :
    (s.startLaunch die ctx fn d job).2 =
      ((({ s.fresh.2 with launches := s.launches.put s.nextNo (launchOfDesc d ctx fn die o job) } : State).addIntake die s.nextNo
        (launchOfDesc d ctx fn die o job).prio (launchOfDesc d ctx fn die o job).unitCount none).addParts job
          (launchOfDesc d ctx fn die o job).unitCount) := by
  rw [State.startLaunch]
  dsimp only
  rw [ho]
  dsimp only
  rw [hfits, if_neg Bool.false_ne_true]
  rfl

/-- A launch stands last in the intake of its die. -/
theorem addIntake_last (s : State) (die l prio units : Nat) : ∃ old i, (s.addIntake die l prio units none).intake.find die = some (old ++ [i]) ∧
    old.length = ((s.intake.find die).getD []).length ∧ i.launch = l ∧ i.prio = prio ∧ i.next = 0 ∧ i.units = units := by
  unfold State.addIntake State.setIntake
  dsimp only
  rw [tab_find_put_same, List.map_append, List.map_singleton]
  refine ⟨_, _, rfl, List.length_map _, ?_⟩
  split <;> exact ⟨rfl, rfl, rfl, rfl⟩

/-- What a packet that starts one launch has done, before its ring goes on: `job` is the packet's. -/
structure Launches (s u : State) (r die : Nat) (l : Launch) : Prop where
  mem : u.mem = s.mem
  rings : u.rings = s.rings
  launch : u.launches.find (s.nextNo + 1) = some l
  job : u.jobs.find s.nextNo = some ⟨l.unitCount, r, none, false⟩
  intake : ∃ old i, u.intake.find die = some (old ++ [i]) ∧ old.length = ((s.intake.find die).getD []).length ∧ i.launch = s.nextNo + 1 ∧
    i.prio = l.prio ∧ i.next = 0 ∧ i.units = l.unitCount

theorem startLaunch_launches {s : State} {r die ctx fn : Nat} {d : BitVec 512} {o : CodeObj × Kern}
    (ho : s.findEntry die ctx (field d 63 0) = some o) (hfits : (launchOfDesc d ctx fn die o s.nextNo).neverFits = false)
    (hunits : (launchOfDesc d ctx fn die o s.nextNo).unitCount ≠ 0) :
    Launches s (((s.withJob r).startLaunch die ctx fn d s.nextNo).2.jobDone (some s.nextNo) false) r die (launchOfDesc d ctx fn die o s.nextNo) := by
  rw [startLaunch_begins (s := s.withJob r) ho hfits]
  generalize launchOfDesc d ctx fn die o s.nextNo = l at hunits
  generalize hv : ({ (s.withJob r).fresh.2 with launches := (s.withJob r).launches.put (s.withJob r).nextNo l } : State).addIntake die
    (s.withJob r).nextNo l.prio l.unitCount none = v
  have hjob : (v.addParts s.nextNo l.unitCount).jobs.find s.nextNo = some ⟨1 + l.unitCount, r, none, false⟩ := by
    rw [State.addParts, tab_find_alter, ← hv]
    exact congrArg (Option.map _) (withJob_find s r)
  rw [jobDone_left hjob (by dsimp only; omega)]
  refine ⟨hv ▸ rfl, hv ▸ rfl, ?_, ?_, ?_⟩
  · rw [← hv]
    exact tab_find_put_same _ _ _
  · refine (tab_find_put_same _ _ _).trans ?_
    rw [Nat.add_sub_cancel_left]
    rfl
  · rw [← hv]
    exact addIntake_last _ die (s.nextNo + 1) l.prio l.unitCount

/-! ### Copies -/

/-- The command of a copy that a packet starts (R292, R420). -/
def copyCmd (die ctx fn job now n : Nat) (d : BitVec 512) : Cmd :=
  { cell := 0xD0, seq := 0, warp := noWarp, lbase := 0, gid := none, gen := 0, desc := 0, image := some d,
    acq := true, rel := true, st := .released, job := some job, ctx := ctx, fn := fn, die := die, token := false, hid := 0, since := now, insn := n,
    upto := 0, lanes := 0, pos := 0, gain := false, eng := none, judged := false, ready := false, got := [], wrote := [], staged := none,
    stagedBad := [], spoiled := false }

theorem startCopy_eq (s : State) (die ctx fn job : Nat) {d : BitVec 512} (hfull : emptyCopy 0xD0 d = false) :
    s.startCopy die ctx fn d job = { s with
      nextNo := s.nextNo + 1, cmds := s.cmds.put s.nextNo (copyCmd die ctx fn job s.now s.nextNo d)
      jobs := s.jobs.alter job fun (x : Job) => { x with left := x.left + 1 } } := by
  have hcmds : ∀ c : Cmd, (s.cmds.put s.nextNo c).alter s.nextNo (fun (c : Cmd) => { c with image := some d }) =
      s.cmds.put s.nextNo { c with image := some d } := fun c => by
    rw [tab_alter_some (tab_find_put_same _ _ _), tab_put_put]
  have hend : ∀ (u : State) (c : Cmd), u.cmds.find s.nextNo = some c → c.image = some d → c.cell = 0xD0 → u.endEmpty s.nextNo = u := by
    intro u c hc himage hcell
    rw [State.endEmpty, hc]
    dsimp only
    rw [himage, hcell, Option.map_some, hfull]
    exact if_neg fun h => Bool.false_ne_true h.1
  unfold State.startCopy State.takeDesc State.addParts State.fresh
  dsimp only
  rw [hcmds]
  exact hend _ (copyCmd die ctx fn job s.now s.nextNo d) (tab_find_put_same _ _ _) rfl rfl

/-- The packet's job with `n` copies more, numbered from `first` on: `d` gives their descriptors. -/
structure Copies (s u : State) (r n : Nat) (d : Nat → BitVec 512) : Prop where
  mem : u.mem = s.mem
  rings : u.rings = s.rings
  now : u.now = s.now
  nextNo : u.nextNo = s.nextNo + 1 + n
  job : u.jobs.find s.nextNo = some ⟨1 + n, r, none, false⟩
  cmds : ∀ e, e < n → u.cmds.find (s.nextNo + 1 + e) =
    some (copyCmd (ringDie r) (s.ring r).ctx (ringFn r) s.nextNo s.now (s.nextNo + 1 + e) (d e))

theorem withJob_copies (s : State) (r : Nat) (d : Nat → BitVec 512) : Copies s (s.withJob r) r 0 d :=
  ⟨rfl, rfl, rfl, rfl, withJob_find s r, fun _ h => absurd h (Nat.not_lt_zero _)⟩

theorem Copies.next {s u : State} {r n : Nat} {d : Nat → BitVec 512} (h : Copies s u r n d) (hfull : emptyCopy 0xD0 (d n) = false) :
    Copies s (u.startCopy (ringDie r) (u.ring r).ctx (ringFn r) (d n) s.nextNo) r (n + 1) d := by
  rw [startCopy_eq u _ _ _ _ hfull]
  refine ⟨h.mem, h.rings, h.now, ?_, ?_, fun e he => ?_⟩
  · show u.nextNo + 1 = _
    rw [h.nextNo]
    omega
  · refine (tab_find_alter _ _ _).trans ?_
    rw [h.job]
    rfl
  · dsimp only
    by_cases hlast : e = n
    · subst hlast
      rw [h.nextNo, tab_find_put_same, ring_congr h.rings, h.now]
    · rw [h.nextNo, tab_find_put_other _ _ _ _ (by omega), h.cmds e (by omega)]

/-- The start of a job of `n` copies is over, too. -/
theorem Copies.started {s u : State} {r n : Nat} {d : Nat → BitVec 512} (h : Copies s u r n d) (hn : n ≠ 0) :
    let v := u.jobDone (some s.nextNo) false
    v.mem = s.mem ∧ v.rings = s.rings ∧ v.jobs.find s.nextNo = some ⟨n, r, none, false⟩ ∧ v.cmds = u.cmds := by
  intro v
  have hv : v = { u with jobs := u.jobs.put s.nextNo ⟨1 + n - 1, r, none, false || false⟩ } := jobDone_left h.job (by dsimp only; omega) false
  rw [hv]
  refine ⟨h.mem, h.rings, (tab_find_put_same _ _ _).trans ?_, rfl⟩
  rw [Nat.add_sub_cancel_left]
  rfl

/-! ### The packets -/

section
variable {s : State} {r : Nat} {p : FPkt} (hhead : s.headPkt r = some p)
include hhead

theorem pktLaunch_eq (hkind : p.kind = 2) : exec (.pktLaunch r) s = .next ((((s.withJob r).startLaunch (ringDie r) (s.ring r).ctx (ringFn r) (p.desc 2)
    s.nextNo).2.jobDone (some s.nextNo) false).donePkt r id) := congrArg Host.Outcome.next (pkt_acts hhead hkind _)

/-- What one entry of a bundle starts (R300). -/
def State.bundleOne (r : Nat) (p : FPkt) (job : Nat) (s : State) (e : Nat) : State :=
  if p.w (2 + 10 * e) = 0 then (s.startLaunch (ringDie r) (s.ring r).ctx (ringFn r) (p.desc (4 + 10 * e)) job).2
  else s.startCopy (ringDie r) (s.ring r).ctx (ringFn r) (p.desc (4 + 10 * e)) job

theorem pktBundle_eq (hkind : p.kind = 3) : exec (.pktBundle r) s = .next ((((List.range (p.par 7 0)).foldl (State.bundleOne r p s.nextNo)
    (s.withJob r)).jobDone (some s.nextNo) false).donePkt r id) := congrArg Host.Outcome.next (pkt_acts hhead hkind _)

theorem pktCopy_eq (hkind : p.kind = 4) : exec (.pktCopy r) s = .next ((((s.withJob r).startCopy (ringDie r) (s.ring r).ctx (ringFn r) (p.desc 2)
    s.nextNo).jobDone (some s.nextNo) false).donePkt r id) := congrArg Host.Outcome.next (pkt_acts hhead hkind _)

theorem pktIndirect_eq (hkind : p.kind = 5) : exec (.pktIndirect r) s = .next (s.donePkt r fun x => if p.followed then x else
    { x with frames := ⟨[⟨p.w 1, fieldN (p.w 2) 31 0, 0, false, p.lvl + 1, p.rpos⟩], [⟨p.w 1, fieldN (p.w 2) 31 0, 0, false, p.lvl + 1, p.rpos⟩],
      [], [], 0⟩ :: x.frames }) := congrArg Host.Outcome.next (pkt_acts hhead hkind _)

theorem pktPred_eq (hkind : p.kind = 6) {v : Word} {y : Piece} (hword : s.cpWord (ringDie r) (s.ring r).ctx (ringFn r) (p.w 1) = .ok (v, y))
    (hready : s.piecesReadable (ringDie r) [y] = true) : exec (.pktPred r) s = .next ((s.readTouch none [y]).donePkt r fun z =>
      if condHolds (p.par 10 8) v (loWord (p.w 2)) then z else { z with skip := some (p.lvl, p.par 7 0) }) := by
  refine congrArg Host.Outcome.next ((pkt_acts hhead hkind _).trans ?_)
  dsimp only
  rw [hword]
  exact if_pos hready

omit hhead in
/-- The copies of a bundle that starts copies alone. -/
theorem bundle_copies (s : State) {r n : Nat} {p : FPkt}
    (hall : ∀ e, e < n → p.w (2 + 10 * e) ≠ 0 ∧ emptyCopy 0xD0 (p.desc (4 + 10 * e)) = false) :
    Copies s ((List.range n).foldl (State.bundleOne r p s.nextNo) (s.withJob r)) r n fun e => p.desc (4 + 10 * e) := by
  induction n with
  | zero => exact withJob_copies s r _
  | succ n ih =>
    obtain ⟨hcopy, hfull⟩ := hall n (Nat.lt_succ_self n)
    rw [List.range_succ, List.foldl_append, List.foldl_cons, List.foldl_nil, State.bundleOne, if_neg hcopy]
    exact (ih fun e he => hall e (Nat.lt_succ_of_lt he)).next hfull

end

/-- Settles O53: the packets, each by what it starts or changes. -/
theorem packetWork : Obligations.PacketWork := by
  intro s r p hhead die fn ctx job copy
  refine ⟨fun hkind => ⟨_, congrArg Host.Outcome.next (pkt_acts hhead hkind _), rfl⟩, fun o hkind ho hfits hunits => ?_, fun hkind hn hall => ?_,
    fun o hkind hpar hw ho hfits hunits => ?_, fun hkind hfull => ?_, fun hkind hfol => ⟨_, pktIndirect_eq hhead hkind, by rw [hfol]; rfl⟩,
    fun hkind hfol => ⟨_, pktIndirect_eq hhead hkind, by rw [hfol]; rfl⟩, fun v y hkind hword hready => ⟨fun hcond => ?_, fun hcond => ?_⟩,
    fun hkind => ⟨_, congrArg Host.Outcome.next (pkt_acts hhead hkind _), rfl⟩,
    fun hkind => ⟨_, congrArg Host.Outcome.next (pkt_acts hhead hkind _), rfl⟩⟩
  · have hl := startLaunch_launches (r := r) ho hfits hunits
    exact Completes.onward (pktLaunch_eq hhead hkind) hl.rings ⟨hl.mem, hl.launch, hl.job, hl.intake⟩
  · have hc := bundle_copies s (r := r) hall
    obtain ⟨hmem, hrings, hjob, hcmds⟩ := hc.started hn
    exact Completes.onward (pktBundle_eq hhead hkind) hrings ⟨hmem, hjob, fun e he => by rw [hcmds, hc.cmds e he]; rfl⟩
  · have hl := startLaunch_launches (r := r) ho hfits hunits
    have hone : (List.range (p.par 7 0)).foldl (State.bundleOne r p s.nextNo) (s.withJob r) =
        ((s.withJob r).startLaunch (ringDie r) (s.ring r).ctx (ringFn r) (p.desc 4) s.nextNo).2 := by
      rw [hpar]
      exact if_pos hw
    exact Completes.onward ((pktBundle_eq hhead hkind).trans (by rw [hone])) hl.rings ⟨hl.mem, hl.launch, hl.job⟩
  · have hc := (withJob_copies s r fun _ => p.desc 2).next hfull
    obtain ⟨hmem, hrings, hjob, hcmds⟩ := hc.started (Nat.succ_ne_zero 0)
    exact Completes.onward (pktCopy_eq hhead hkind) hrings ⟨hmem, hjob, (congrArg (Tab.find · _) hcmds).trans (hc.cmds 0 Nat.one_pos)⟩
  · refine ⟨_, pktPred_eq hhead hkind hword hready, ?_⟩
    rw [hcond]
    rfl
  · refine ⟨_, pktPred_eq hhead hkind hword hready, ?_⟩
    rw [hcond]
    rfl

end Sys2Proof.Machine
end

section
/-! SUPPORT. Bytes that the lodge and the porter write at a host-physical address (R13, R166). -/

namespace Sys2Proof.Machine

/-- The bytes of a range, and those beside it. -/
theorem memory_byte_putAll (bs : List Byte) (m : Memory) (a k : Nat) (h : m.wf = true) :
    (m.putAll a bs).byte k = if a ≤ k ∧ k < a + bs.length then bs.getD (k - a) 0 else m.byte k := by
  induction bs generalizing m a with
  | nil =>
    rw [if_neg (by simp)]
    rfl
  | cons b bs ih =>
    rw [Memory.putAll, ih _ _ (memory_put_wf m a b h), List.length_cons]
    by_cases hk : k = a
    · subst hk
      rw [if_neg (by omega), if_pos (by omega), memory_byte_put_same m k b h, Nat.sub_self, List.getD_cons_zero]
    · rw [memory_byte_put_other m a k b h hk]
      by_cases hin : a + 1 ≤ k ∧ k < a + 1 + bs.length
      · rw [if_pos hin, if_pos (by omega), show k - a = k - (a + 1) + 1 by omega, List.getD_cons_succ]
      · rw [if_neg hin, if_neg (by omega)]

theorem invalidateAll_mem (s : State) (but : Option Nat) (line keep : Nat) : (s.invalidateAll but line keep).mem = s.mem :=
  foldl_field (p := State.mem) (fun t _ => (idlePoison_told t _ _ _).same State.mem fun _ _ _ _ => rfl) _ s

/-- What a write at a host-physical address leaves in memory (R13). -/
theorem physWrite_mem (s : State) (a : Nat) (bs : List Byte) :
    (s.physWrite a bs).mem = s.mem.putAll a (bs.take (min bs.length (Config.physTop - a))) := by
  have hlines : ∀ ls : List Nat, (ls.foldl (fun s l => (s.invalidateAll none l 1000).useL2 l .none) s).mem = s.mem := fun ls =>
    foldl_field (p := State.mem) (fun t l => (useL2_unwritten _ l .none).mem.trans (invalidateAll_mem t none l 1000)) ls s
  have hpiece : (s.physWrite a bs).mem = ((pieceLines [physPiece a bs.length]).foldl (fun s l => (s.invalidateAll none l 1000).useL2 l .none) s).mem.putAll a
      ((bs.take (physPiece a bs.length).n).take (physPiece a bs.length).n) :=
    foldl_field (p := State.mem) (fun t l => (rfl : (t.hitLoc none l).mem = t.mem)) (linesOf (.hbm a) (physPiece a bs.length).n) _
  rw [hpiece, hlines, List.take_take, Nat.min_self]
  rfl

theorem physWrite_bare (s : State) (a : Nat) (bs : List Byte) : (s.physWrite a bs).bare = s.bare := writePieces_bare s _ _ _

theorem physWrite_below {s : State} (hwf : s.mem.wf = true) {a k : Nat} (hk : k < a) (bs : List Byte) : (s.physWrite a bs).mem.byte k = s.mem.byte k := by
  rw [physWrite_mem, memory_byte_putAll _ _ _ _ hwf, if_neg (by omega)]

end Sys2Proof.Machine
end

section
/-! SUPPORT. The lodge: reset, firmware, the report, heartbeats and votes (R411 to R419). -/

namespace Sys2Proof.Machine

/-! ### Posts -/

/-- What has been sent stays sent. -/
theorem msix_out (s : State) (f v : Nat) : ∃ tail, (s.msix f v).out = s.out ++ tail := by
  unfold State.msix
  dsimp only
  split
  · exact ⟨[], (List.append_nil _).symm⟩
  · exact ⟨_, rfl⟩

theorem host_out (s : State) (h : Memory) : ({ s with host := h } : State).out = s.out := rfl

theorem post_out (s : State) (code : Nat) (i : LogInfo) : ∃ tail, (s.post code i).out = s.out ++ tail := by
  have hlater : (if causeDest code = .porter then s.later (.porterWake i.die) else s).out = s.out := by
    split <;> rfl
  unfold State.post
  rw [← hlater]
  generalize (if causeDest code = .porter then s.later (.porterWake i.die) else s) = t
  dsimp only
  split
  · exact ⟨[], (List.append_nil _).symm⟩
  · refine (msix_out _ _ _).imp fun tail h => h.trans ?_
    rw [onFn_out, host_out]

theorem post_lodge (s : State) (code : Nat) (i : LogInfo) : (s.post code i).lodge = s.lodge := (post_told s code i).same State.lodge fun _ _ _ _ => rfl

/-! ### Reset -/

/-- What a wipe leaves: all but the code store is as at reset, the life cycle is `cycle`, and no reset is asked for (R412). -/
def Wiped (s t : State) (cycle : Nat) : Prop :=
  t.mem = [] ∧ t.spad = [] ∧ t.warps = [] ∧ t.ctxs = [] ∧ t.rings = [] ∧ t.now = 0 ∧ t.flash = s.flash ∧ t.lodge.lifecycle = cycle ∧
    t.lodge.resetAsked = false

/-- What starting the firmware leaves of the module: all but the dies and the lodge, and of the lodge all but its firmware. -/
theorem startFirmware_eq (s : State) : ∃ lodgeFw porterFw m0 m1 m2 up dies, Told { s with
    lodge := { s.lodge with lodgeFw := lodgeFw, porterFw := porterFw, m0 := m0, m1 := m1, m2 := m2, coresUp := up }, dies := dies } s.startFirmware := by
  have hrej : ∀ (t : State) xs, Told t (t.postRejected xs) := fun t xs => told_foldl (fun u x => post_told u _ _) xs t
  exact ⟨_, _, _, _, _, _, _, (hrej _ _).trans (hrej _ _)⟩

theorem wipe_wiped (s : State) (cycle : Nat) : Wiped s (s.wipe cycle) cycle ∧
    (s.wipe cycle).lodge.keyPresent = decide (cycle = 1 ∨ cycle = 2) := by
  obtain ⟨_, _, _, _, hpost⟩ := post_told (s.survivor cycle) 0xBF { detail := BitVec.ofNat 32 (s.lodge.lifecycle + 16 * cycle) }
  obtain ⟨_, _, _, _, _, _, _, _, _, _, _, hstart⟩ :=
    startFirmware_eq ((s.survivor cycle).post 0xBF { detail := BitVec.ofNat 32 (s.lodge.lifecycle + 16 * cycle) })
  rw [State.wipe, hstart, hpost]
  exact ⟨⟨rfl, rfl, rfl, rfl, rfl, rfl, rfl, rfl, rfl⟩, rfl⟩

/-! ### The report (R415) -/

/-- The report with its signature, behind the nonce at `a`. -/
def State.signedReport (s : State) (a : Nat) : List Byte :=
  s.lodge.report (s.mem.bytes a 64) ++ (List.range 4627).map (Config.deviceSign (Config.sha3 (s.lodge.report (s.mem.bytes a 64))))

section
variable {s : State} (hasked : s.lodge.attStat = 1)
include hasked

theorem attestReportDone_waits (hnone : s.claimsOf (.lodge s.lodge.attAddr.toNat) = [])
    (hread : s.piecesReadable (homeDie s.lodge.attAddr.toNat) [physPiece s.lodge.attAddr.toNat 64] = false) :
    execAttestReportDone s = .next s := by
  unfold execAttestReportDone
  dsimp only
  rw [if_neg (by simp [hasked]), if_pos ⟨hnone, by simp [hread]⟩]

theorem attestReportDone_reports (hread : s.piecesReadable (homeDie s.lodge.attAddr.toNat) [physPiece s.lodge.attAddr.toNat 64] = true)
    (hready : ∀ l ∈ pieceLines [physPiece (s.lodge.attAddr.toNat + 64) 4907], s.lineReady l = true ∧
      s.wrapHeld (homeDie s.lodge.attAddr.toNat) (.hbm (l * 128)) = false) :
    execAttestReportDone s = .next { (s.unclaim (.lodge s.lodge.attAddr.toNat)).physWrite (s.lodge.attAddr.toNat + 64)
      (s.signedReport s.lodge.attAddr.toNat) with lodge := { s.lodge with attStat := 2 } } := by
  unfold execAttestReportDone
  dsimp only
  rw [if_neg (by simp [hasked]), if_neg (by simp [hread]), gainLines_ready _ hready]
  rfl

end

/-! ### Heartbeats and votes (R418, R419) -/

theorem onNeighbour_all (s : State) (pkg : Nat) (f : Neighbour → Neighbour) {P : Neighbour → Prop} (hf : ∀ n, P (f n)) :
    ∀ n ∈ (s.onNeighbour pkg f).lodge.neighbours, n.pkg = pkg → P n := by
  intro n hn hp
  obtain ⟨m, -, rfl⟩ := List.mem_map.1 hn
  by_cases hm : m.pkg = pkg
  · rw [if_pos hm]
    exact hf m
  · rw [if_neg hm] at hp
    exact absurd hp hm

section
variable {s : State} {pkg : Nat} {n : Neighbour} (hn : (s.lodge.neighbours.find? fun n => n.pkg == pkg) = some n)
include hn

theorem heartbeatMiss_early (hearly : s.now < max n.heard n.missed + 18000000) : execHeartbeatMiss pkg s = .next s := by
  unfold execHeartbeatMiss
  rw [hn]
  exact congrArg Host.Outcome.next (if_pos hearly)

/-- Silence for 30 ms: a vote leaves, of the next epoch (R418). -/
theorem heartbeatMiss_late (hlate : max n.heard n.missed + 18000000 ≤ s.now) : ∃ t, execHeartbeatMiss pkg s = .next t ∧
    t.lodge.voteEpoch = s.lodge.voteEpoch + 1 ∧ ∃ tail, t.out = s.out ++ .vote s.lodge.pkgNum.toNat pkg (s.lodge.voteEpoch + 1)
      ((List.range 4627).map (Config.deviceSign (Config.voteDigest s.lodge.pkgNum.toNat pkg (s.lodge.voteEpoch + 1)))) :: tail := by
  unfold execHeartbeatMiss
  rw [hn]
  dsimp only
  have hnow : ¬s.now < max n.heard n.missed + 30 * cyclesMs := Nat.not_lt.2 hlate
  rw [if_neg hnow]
  refine ⟨_, rfl, ?_⟩
  split
  · exact ⟨rfl, [], rfl⟩
  · refine ⟨congrArg Lodge.voteEpoch (post_lodge _ _ _), ?_⟩
    obtain ⟨tail, hout⟩ := post_out _ _ _
    exact ⟨tail, hout.trans (List.append_assoc _ _ _)⟩

/-- An accepted vote that is not the third (R419). -/
theorem resetVoteReceive_counts {target : Nat} {epoch : DWord} {sig : List Byte} (htarget : target = s.lodge.pkgNum.toNat)
    (hepoch : n.epoch.toNat < epoch.toNat) (hfew : s.lodge.votes.length < 2) (hsigned : Config.voteSigned n.key pkg target epoch sig = true) :
    execResetVoteReceive pkg target epoch sig s = .next { s.onNeighbour pkg fun n => { n with epoch := epoch } with
      lodge := { (s.onNeighbour pkg fun n => { n with epoch := epoch }).lodge with
        votes := (s.lodge.votes.filter fun v => decide (v.1 ≠ pkg ∧ s.now ≤ v.2 + 100 * cyclesMs)) ++ [(pkg, s.now)] } } := by
  have hlen : ((s.lodge.votes.filter fun v => decide (v.1 ≠ pkg ∧ s.now ≤ v.2 + 100 * cyclesMs)) ++ [(pkg, s.now)]).length < 3 := by
    rw [List.length_append, List.length_singleton]
    have hfilter := List.length_filter_le (fun v : Nat × Nat => decide (v.1 ≠ pkg ∧ s.now ≤ v.2 + 100 * cyclesMs)) s.lodge.votes
    omega
  unfold execResetVoteReceive
  dsimp only
  rw [hn]
  dsimp only
  rw [if_neg]
  · exact congrArg Host.Outcome.next (if_pos hlen)
  · simp [htarget] at hsigned ⊢
    exact ⟨hepoch, hsigned⟩

theorem resetVoteReceive_refused {target : Nat} {epoch : DWord} {sig : List Byte}
    (hbad : target ≠ s.lodge.pkgNum.toNat ∨ epoch.toNat ≤ n.epoch.toNat ∨ (!Config.voteSigned n.key pkg target epoch sig) = true) :
    ∃ t, execResetVoteReceive pkg target epoch sig s = .next t ∧ t.lodge = s.lodge := by
  unfold execResetVoteReceive
  dsimp only
  rw [hn]
  dsimp only
  rw [if_pos hbad]
  exact ⟨_, rfl, post_lodge _ _ _⟩

end

/-- Settles O58: the events of the lodge, each by the branches of its row. -/
theorem lodgeEvents : Obligations.LodgeEvents := by
  intro s pkg target seq epoch sig ok l wiped
  refine ⟨fun h => ⟨_, rfl, if_neg (by simp [show s.lodge.resetAsked = false from h])⟩, fun h => ⟨_, congrArg Host.Outcome.next (if_pos h), (wipe_wiped s _).1⟩,
    ?_, fun h => ⟨_, rfl, if_pos h⟩, fun hstat hkind => ?_, fun h => ⟨_, rfl, if_pos h⟩, fun hstat hwf => ⟨fun hnone hread => ?_, fun hread hready => ?_⟩,
    fun h => ?_, ⟨_, rfl, rfl⟩, fun h => ⟨_, rfl, if_pos h⟩, fun h => ⟨_, congrArg Host.Outcome.next (if_neg (Nat.not_lt.2 h)), rfl, rfl⟩,
    ⟨_, rfl, rfl, List.length_map _, ?_⟩, fun n hn => ⟨fun h => ⟨_, heartbeatMiss_early hn h, rfl⟩, heartbeatMiss_late hn, fun htarget hepoch hfew => ?_,
    fun hbad => resetVoteReceive_refused hn ?_⟩, fun hnone => ?_⟩
  · refine ⟨_, rfl, ?_⟩
    cases hk : Config.lifecycleCommand sig with
    | none => rfl
    | some k =>
      dsimp only
      by_cases hnext : k = s.lodge.lifecycle + 1 ∧ k ≤ 3
      · rw [if_pos hnext, if_pos hnext]
        exact wipe_wiped s k
      · rw [if_neg hnext, if_neg hnext]
  · unfold Completes exec execFirmwareCopyComplete
    dsimp only
    rw [if_neg (by simpa using hstat)]
    cases ok
    · exact ⟨_, rfl, rfl, rfl, rfl, fun _ => rfl, fun h => absurd h Bool.false_ne_true⟩
    · rw [if_neg (by decide), if_pos hkind]
      exact ⟨_, rfl, rfl, rfl, rfl, fun h => absurd h (Ne.symm Bool.false_ne_true), fun _ hactive => if_pos hactive⟩
  · exact ⟨_, attestReportDone_waits hstat hnone hread, rfl⟩
  · exact ⟨_, attestReportDone_reports hstat hread hready, rfl, fun k hk => physWrite_below (s := s.unclaim _) hwf hk _⟩
  · refine ⟨_, congrArg Host.Outcome.next (if_neg (by simp [show s.lodge.throttled = false from h])), post_lodge _ _ _, ?_⟩
    exact (post_told _ _ _).same State.warps fun _ _ _ _ => rfl
  · exact onNeighbour_all s pkg _ fun _ => rfl
  · cases hsigned : Config.voteSigned n.key pkg target epoch sig
    · obtain ⟨t, ht, hlodge⟩ := resetVoteReceive_refused (target := target) (epoch := epoch) (sig := sig) hn (.inr (.inr (by rw [hsigned]; rfl)))
      exact ⟨t, ht, hlodge⟩
    · exact ⟨_, resetVoteReceive_counts hn htarget hepoch hfew hsigned, rfl, List.mem_append_right _ (List.mem_singleton.2 rfl),
        onNeighbour_all s pkg _ fun _ => rfl⟩
  · exact hbad.imp_right .inl
  · unfold Completes exec execResetVoteReceive
    dsimp only
    rw [hnone]
    exact ⟨_, rfl, post_lodge _ _ _⟩

end Sys2Proof.Machine
end

section
/-! SUPPORT. A registration that waits, though memory could answer when the host wrote (R170, R172, R351). -/

namespace Sys2Proof.Machine

/-- A request that die 1 was late with at a wrap: a claim of the registration block at 0x40000 on another line. -/
def lateClaim : HomeOp := ⟨noWarp, 0, false, 0, .hbm 0x80000, 0, 0, .claim (.lodge 0x40000), 0, 0, 1, .late⟩

/-- A request for the line of the image that die 1 holds back until what it was late with is complete. -/
def unsentClaim : HomeOp := ⟨noWarp, 0, false, 0, .hbm 0x1000, 0, 0, .claim (.commit 0), 0, 0, 1, .unsent⟩

/-- The module with a registration block at 0x40000: of context 5, which maps the addresses below 2 MiB to themselves, for an image of 64 bytes at
0x1000 that declares nothing, and for text at 0x2000. Die 1 holds its request for the image's line as long as the late claim stands. -/
def lateRegistration : State :=
  { State.reset with
    mem := (((((((Memory.store [] 0x8000 8 0x9001).store 0x9000 8 0xA001).store 0xA000 8 0xB001).store 0xB000 8 0xC001).store 0xC000 8 0x040F).store
      0x1000 8 0x1_315A_5753).store 0x40000 32 (0x1000 + 0x2000 * 2 ^ 64 + 64 * 2 ^ 128 + 5 * 2 ^ 203))
    ctxs := [(5, ⟨0, 0x8000, 0, 0, 0, 0, false, false, 0, []⟩)]
    homeOps := [lateClaim, unsentClaim]
    lodge := { Lodge.reset with coresUp := true } }

/-- The translation of the image's page by the porter of die 0. -/
def imageXlat : Xlat := ⟨cpAgent 0, 5, 0, 1, 1, 0xC000, 2 ^ 21, false, true, true, true⟩

/-- The image, in one piece. -/
def imagePiece : Piece := ⟨0x1000, 64, .hbm 0x1000, some imageXlat⟩

theorem lateRegistration_read : lateRegistration.readVirt 0 5 0 0x1000 64 = .ok (lateRegistration.pieceBytes [imagePiece], [imagePiece]) := by
  decide +kernel

theorem lateRegistration_block : BitVec.ofNat 256 (lateRegistration.mem.nat 0x40000 32) =
    BitVec.ofNat 256 (0x1000 + 0x2000 * 2 ^ 64 + 64 * 2 ^ 128 + 5 * 2 ^ 203) := by decide +kernel

/-- No check of R352 refuses the image. -/
theorem lateRegistration_image : Image.refusal ⟨lateRegistration.pieceBytes [imagePiece]⟩ 64 0x2000 0 false = none := by decide +kernel

/-- The late claim goes with the block's claims, so that die 1 may send, and its request for the image's line comes first: nothing is registered. -/
theorem lateRegistration_waits : Completes (.objreg 0 0x40000) lateRegistration fun t => t.objs = [] := completes_of_runsTo _ _ _ (by decide +kernel)

/-- Refutes O49. The registration gives back the block's claims before it reads the image; where one of them is what a die was late with at a wrap, on
another line than the block's, that die sends what it held, and in `lateRegistration` the image's line, readable until then, is so no more: the host's
write waits, where the statement has the object registered. -/
theorem not_contextRegisters : ¬Obligations.ContextRegisters := by
  unfold Obligations.ContextRegisters
  intro h
  obtain ⟨-, -, -, -, -, -, hblock⟩ := h lateRegistration 0 0 0x40000 0x40000 (by decide +kernel)
  obtain ⟨-, -, hregister⟩ := hblock (by decide +kernel) (by decide +kernel) (by decide +kernel) (by decide +kernel)
  rw [lateRegistration_block] at hregister
  obtain ⟨⟨hobjreg, -⟩, -⟩ := hregister _ _ lateRegistration_read (by decide +kernel)
  obtain ⟨t, ht, -, -, hobjs⟩ := hobjreg lateRegistration_image
  obtain ⟨v, hv, hnone⟩ := lateRegistration_waits
  obtain rfl : t = v := Host.Outcome.next.inj (ht.symm.trans hv)
  rw [hnone] at hobjs
  exact absurd hobjs.symm (List.append_ne_nil_of_right_ne_nil _ (List.cons_ne_nil _ _))

end Sys2Proof.Machine
end

section
/-! SUPPORT. What the end of a group's threads leaves of a warp slot (R34, R203, R209, R347). -/

namespace Sys2Proof.Machine

/-! ### Releases and hits -/

/-- A segment without where its lanes go next. -/
def Seg.unsent (g : Seg) : Seg := { g with vpc := [], ovpc := [] }

/-- `u` keeps of a warp slot what the completion of a barrier and a hit leave (R34, R202). -/
structure Warp.Released (v u : Warp) : Prop where
  log : u.sideLog = v.sideLog
  regs : u.regs = v.regs
  live : u.live = v.live
  window : v.window = none → u.window = none
  segs : u.segs.map Seg.unsent = v.segs.map Seg.unsent

theorem Warp.Released.refl (v : Warp) : v.Released v := ⟨rfl, rfl, rfl, id, rfl⟩

theorem Warp.Released.trans {v u x : Warp} (a : v.Released u) (b : u.Released x) : v.Released x :=
  ⟨b.log.trans a.log, b.regs.trans a.regs, b.live.trans a.live, fun h => b.window (a.window h), b.segs.trans a.segs⟩

theorem releaseLane_released (wp : Warp) (l : Nat) : wp.Released (wp.releaseLane l) := by
  unfold Warp.releaseLane
  split
  · exact .refl wp
  · refine ⟨rfl, rfl, rfl, id, ?_⟩
    simp only [Warp.onSegs, List.map_map]
    refine List.map_congr_left fun g _ => ?_
    simp only [Function.comp_apply]
    split <;> rfl

theorem passBar_released (wp : Warp) (b : Bar) : wp.Released (wp.passBar b) := by
  unfold Warp.passBar
  refine List.foldlRecOn (motive := wp.Released) _ _ (.refl wp) fun u hu g _ => ?_
  refine List.foldlRecOn (motive := wp.Released) _ _ hu fun v hv l _ => ?_
  split
  · split
    · exact hv.trans (releaseLane_released v l)
    · exact hv
  · exact hv

theorem passed_released (wp : Warp) (b : Bar) : wp.Released (wp.passed b) := by
  have h := passBar_released wp b
  unfold Warp.passed
  split
  · exact ⟨h.log, h.regs, h.live, fun hw => Option.map_eq_none_iff.2 (h.window hw), h.segs⟩
  · exact .refl wp

section
variable (w : Nat)

/-- Every warp slot changed in a way that keeps what a release keeps. -/
theorem mapV_released (s : State) {t : State} (f : Nat → Warp → Warp) (ht : t.warps = s.warps.mapV f) (hf : ∀ k (wp : Warp), wp.Released (f k wp)) :
    (s.warp w).Released (t.warp w) := by
  rw [State.warp, State.warp, ht, tab_find_mapV]
  cases s.warps.find w with
  | none => exact .refl _
  | some wp => exact hf w wp

theorem releaseBar_released (s : State) (b : Bar) : (s.warp w).Released ((s.releaseBar b).warp w) :=
  mapV_released w s (fun _ wp => wp.passed b) rfl fun _ wp => passed_released wp b

theorem hitWhere_released (s : State) (p : Nat → Window → Bool) : (s.warp w).Released ((s.hitWhere p).warp w) := by
  refine mapV_released w s (fun k wp => match wp.window with
    | some x => if p k x then { wp with window := some { x with hit := true } } else wp
    | none => wp) rfl fun k wp => ?_
  split
  · next x hx =>
    split
    · exact ⟨rfl, rfl, rfl, fun h => by simp [hx] at h, rfl⟩
    · exact .refl wp
  · exact .refl wp

theorem released_foldl {α : Type} {f : State → α → State} (hf : ∀ (s : State) a, (s.warp w).Released ((f s a).warp w)) (l : List α) (s : State) :
    (s.warp w).Released ((l.foldl f s).warp w) :=
  List.foldlRecOn (motive := fun t : State => (s.warp w).Released (t.warp w)) l f (.refl _) fun _ h a _ => h.trans (hf _ a)

theorem perform_released (s : State) (but : Option Nat) (l : Loc) (n v : Nat) : (s.warp w).Released ((s.perform but l n v).warp w) := by
  have hwrite : (s.writeLoc l n v).warps = s.warps := by
    unfold State.writeLoc
    split
    · split
      · split <;> rfl
      · rfl
    · rfl
  have hsame : (s.writeLoc l n v).warp w = s.warp w := congrArg (fun q : Tab Warp => (q.find w).getD Warp.reset) hwrite
  exact hsame ▸ released_foldl w (fun t x => hitWhere_released w t _) (linesOf l n) (s.writeLoc l n v)

theorem performArrival_released (s : State) (a n : Nat) : (s.warp w).Released ((s.performArrival a n).warp w) := by
  have hadd := perform_released w s none (.hbm (a + 16)) 4 ((s.readLoc (.hbm (a + 16)) 4 + n) % 2 ^ 32)
  unfold State.performArrival
  dsimp only
  generalize s.perform none (.hbm (a + 16)) 4 ((s.readLoc (.hbm (a + 16)) 4 + n) % 2 ^ 32) = t at hadd ⊢
  split
  · have hdone := perform_released w t none (.hbm (a + 20)) 4 1
    generalize t.perform none (.hbm (a + 20)) 4 1 = u at hdone ⊢
    refine hadd.trans (hdone.trans ?_)
    split
    · exact .refl _
    · exact releaseBar_released w { u with bars := _ } _
  · exact hadd

theorem recordArrival_released (s : State) (die : Nat) (b : Bar) (before : Nat) : (s.warp w).Released ((s.recordArrival die b before).warp w) := by
  unfold State.recordArrival
  dsimp only
  split
  · exact .refl _
  · split
    · exact .refl _
    · split
      · exact performArrival_released w s _ _
      · exact .refl _

theorem checkBars_released (s : State) : (s.warp w).Released (s.checkBars.warp w) := by
  unfold State.checkBars
  dsimp only
  generalize (s.bars.filter fun b => !b.done && b.saved.isNone && s.barComplete b) = ready
  exact released_foldl w (releaseBar_released w) ready { s with bars := s.bars.filter fun b => !(ready.contains b) }

theorem exitBars_released (s t : State) (die : Nat) : (t.warp w).Released ((s.exitBars t die).warp w) :=
  (released_foldl w (fun u b => recordArrival_released w u die b _) _ t).trans (checkBars_released w _)

end

/-! ### The end of threads -/

/-- What the end of threads leaves of a warp slot: an empty log, and, outside a window, the registers, no more live lanes than before, and which
lanes its segments have. -/
structure Warp.Fades (v u : Warp) : Prop where
  log : v.sideLog = [] → u.sideLog = []
  window : v.window = none → u.window = none
  regs : v.window = none → u.regs = v.regs
  live : v.window = none → ∀ m, v.live &&& m = 0 → u.live &&& m = 0
  segs : v.window = none → (u.segs.map fun g => (g.gid, g.slots)) = v.segs.map fun g => (g.gid, g.slots)

theorem Warp.Fades.refl (v : Warp) : v.Fades v := ⟨id, id, fun _ => rfl, fun _ _ => id, fun _ => rfl⟩

theorem Warp.Fades.trans {v u x : Warp} (a : v.Fades u) (b : u.Fades x) : v.Fades x :=
  ⟨fun h => b.log (a.log h), fun h => b.window (a.window h), fun h => (b.regs (a.window h)).trans (a.regs h),
    fun h m hm => b.live (a.window h) m (a.live h m hm), fun h => (b.segs (a.window h)).trans (a.segs h)⟩

theorem Warp.Released.fades {v u : Warp} (h : v.Released u) : v.Fades u := by
  refine ⟨fun hl => h.log.trans hl, h.window, fun _ => h.regs, fun _ m hm => h.live ▸ hm, fun _ => ?_⟩
  have hsegs := congrArg (List.map fun g : Seg => (g.gid, g.slots)) h.segs
  rwa [List.map_map, List.map_map] at hsegs

section
variable (w : Nat)

theorem fades_foldl {α : Type} {f : State → α → State} (hf : ∀ (s : State) a, (s.warp w).Fades ((f s a).warp w)) (l : List α) (s : State) :
    (s.warp w).Fades ((l.foldl f s).warp w) :=
  List.foldlRecOn (motive := fun t : State => (s.warp w).Fades (t.warp w)) l f (.refl _) fun _ h a _ => h.trans (hf _ a)

theorem onWarp_fades (s : State) (k : Nat) (f : Warp → Warp) (hf : (s.warp k).Fades (f (s.warp k))) : (s.warp w).Fades ((s.onWarp k f).warp w) := by
  by_cases hk : w = k
  · subst hk
    rw [warp_onWarp_same]
    exact hf
  · rw [warp_onWarp_other s k w f hk]
    exact .refl _

theorem announce_fades (s : State) (k lb : Nat) : (s.warp w).Fades ((s.announce k lb).warp w) := by
  unfold State.announce
  dsimp only
  split
  · exact .refl _
  · split
    · exact .refl _
    · split
      · next x _ _ =>
        refine Eq.mp (congrArg (Warp.Fades _) ((post_told _ _ _).same (State.warp · w) fun _ _ _ _ => rfl).symm) ?_
        refine onWarp_fades w (s.hold _ _).2 k _ ⟨id, id, fun _ => rfl, fun _ _ => id, fun _ => ?_⟩
        simp only [Warp.onSeg, List.map_map]
        refine List.map_congr_left fun g _ => ?_
        simp only [Function.comp_apply]
        split <;> rfl
      · exact .refl _

/-- A window that is undone, or none. -/
theorem rollBack_fades (s : State) (k : Nat) : (s.warp w).Fades ((s.rollBack k false).warp w) := by
  unfold State.rollBack
  split
  · exact .refl _
  dsimp only
  rw [if_neg Bool.false_ne_true]
  unfold State.undo
  dsimp only
  split
  · exact .refl _
  · next x hx =>
    refine Warp.Fades.trans ?_ (fades_foldl w (fun t (g : Seg) => announce_fades w t k g.lbase) _ _)
    refine onWarp_fades w (State.withdrawSigns _ k) k (fun _ => _) ⟨id, fun _ => rfl, ?_, ?_, ?_⟩ <;>
      exact fun h => absurd (hx.symm.trans h) (Option.some_ne_none x)

/-- A log that is discarded. -/
theorem logEmptied_warp (s : State) (k : Nat) : (s.warp w).Fades ((s.logEmptied k).warp w) := by
  unfold State.logEmptied
  dsimp only
  split
  · refine Warp.Fades.trans ?_ (onWarp_fades w _ k _ ⟨id, id, fun _ => rfl, fun _ _ => id, fun _ => rfl⟩)
    split <;> exact .refl _
  · exact .refl _

/-- The log of a slot emptied, its stores done. -/
def Warp.unlogged (wp : Warp) : Warp :=
  (wp.sideLog.foldl (fun (wp : Warp) e => wp.storeDone e.store e.lane) { wp with sideLog := [] }).dropDone

theorem unlogged_eq (wp : Warp) : ∃ stores cnt, wp.unlogged = { wp with sideLog := [], stores := stores, stCnt := cnt } := by
  have hfold : ∃ stores, wp.sideLog.foldl (fun (wp : Warp) e => wp.storeDone e.store e.lane) { wp with sideLog := [] } =
      { wp with sideLog := [], stores := stores } :=
    List.foldlRecOn (motive := fun u : Warp => ∃ stores, u = { wp with sideLog := [], stores := stores }) _ _ ⟨_, rfl⟩ fun u hu e _ => by
      obtain ⟨stores, rfl⟩ := hu
      exact ⟨_, rfl⟩
  obtain ⟨stores, hstores⟩ := hfold
  rw [Warp.unlogged, hstores]
  exact ⟨_, _, rfl⟩

theorem unlogged_fades (wp : Warp) : wp.Fades wp.unlogged := by
  obtain ⟨_, _, h⟩ := unlogged_eq wp
  rw [h]
  exact ⟨fun _ => rfl, id, fun _ => rfl, fun _ _ => id, fun _ => rfl⟩

theorem discardLog_eq (s : State) (k : Nat) (h : (s.warp k).sideLog ≠ []) : s.discardLog k =
    (({ s with homeOps := s.homeOps.filter fun o => !(o.warp == k && o.fn == AtomFn.logWrite) } : State).onWarp k Warp.unlogged).logEmptied k :=
  if_neg h

theorem discardLog_fades (s : State) (k : Nat) : (s.warp w).Fades ((s.discardLog k).warp w) := by
  by_cases h : (s.warp k).sideLog = []
  · rw [State.discardLog, if_pos h]
    exact .refl _
  · rw [discardLog_eq s k h]
    have hlog := onWarp_fades w { s with homeOps := s.homeOps.filter fun o => !(o.warp == k && o.fn == AtomFn.logWrite) } k Warp.unlogged
      (unlogged_fades _)
    exact hlog.trans (logEmptied_warp w _ k)

theorem discardLog_empties (s : State) (k : Nat) : ((s.discardLog k).warp k).sideLog = [] := by
  by_cases h : (s.warp k).sideLog = []
  · rw [State.discardLog, if_pos h]
    exact h
  · rw [discardLog_eq s k h]
    refine (logEmptied_warp k _ k).log ?_
    rw [warp_onWarp_same]
    obtain ⟨_, _, hu⟩ := unlogged_eq (({ s with homeOps := s.homeOps.filter fun o => !(o.warp == k && o.fn == AtomFn.logWrite) } : State).warp k)
    rw [hu]

end

/-! ### A group's lanes gone -/

theorem lanesOfGroup_mem {wp : Warp} {g : Seg} (hg : g ∈ wp.segs) {l : Nat} (hl : g.slots.getLsbD l = true) : (wp.lanesOfGroup g.gid).getLsbD l = true := by
  have hfold : ∀ (gs : List Seg) (m : Mask), (m.getLsbD l = true ∨ g ∈ gs) →
      (gs.foldl (fun m h => if h.gid = g.gid then m ||| h.slots else m) m).getLsbD l = true := by
    intro gs
    induction gs with
    | nil => exact fun m h => h.resolve_right List.not_mem_nil
    | cons h gs ih =>
      intro m hm
      refine ih _ ?_
      dsimp only
      rcases hm with hm | hm
      · refine .inl ?_
        split
        · rw [BitVec.getLsbD_or, hm, Bool.true_or]
        · exact hm
      · rcases List.mem_cons.1 hm with rfl | hm
        · rw [if_pos rfl, BitVec.getLsbD_or, hl, Bool.or_true]
          exact .inl rfl
        · exact .inr hm
  exact hfold wp.segs 0 (.inr hg)

theorem dropTurns_eq (wp : Warp) (gid : Nat) (m : Mask) : ∃ results, wp.dropTurns gid m = { wp with results := results } := by
  unfold Warp.dropTurns
  split
  · exact ⟨_, rfl⟩
  · split <;> exact ⟨_, rfl⟩

theorem dropGroup_keeps (wp : Warp) (gid : Nat) : (wp.dropGroup gid).sideLog = wp.sideLog ∧ (wp.dropGroup gid).window = wp.window ∧
    (wp.dropGroup gid).regs = wp.regs ∧ (wp.dropGroup gid).live = wp.live &&& ~~~(wp.lanesOfGroup gid) ∧
    (wp.dropGroup gid).segs = wp.segs.map fun g => if g.gid = gid then g.dead else g := by
  obtain ⟨results, h⟩ := dropTurns_eq wp gid (wp.lanesOfGroup gid)
  unfold Warp.dropGroup
  dsimp only
  rw [h]
  exact ⟨rfl, rfl, rfl, rfl, rfl⟩

theorem dropGroup_fades (wp : Warp) (gid : Nat) : wp.Fades (wp.dropGroup gid) := by
  obtain ⟨hlog, hwindow, hregs, hlive, hsegs⟩ := dropGroup_keeps wp gid
  refine ⟨fun h => hlog.trans h, fun h => hwindow.trans h, fun _ => hregs, fun _ m hm => ?_, fun _ => ?_⟩
  · rw [hlive, BitVec.and_assoc, BitVec.and_comm (~~~_), ← BitVec.and_assoc, hm]
    exact BitVec.zero_and
  · rw [hsegs, List.map_map]
    refine List.map_congr_left fun g _ => ?_
    simp only [Function.comp_apply]
    split <;> rfl

/-- The lanes of a group's segment are live no more. -/
theorem dropGroup_dead {wp : Warp} {gid : Nat} {x : Nat × Mask} (hx : x ∈ wp.segs.map fun g => (g.gid, g.slots)) (hgid : x.1 = gid) :
    (wp.dropGroup gid).live &&& x.2 = 0 := by
  obtain ⟨g, hg, rfl⟩ := List.mem_map.1 hx
  obtain ⟨-, -, -, hlive, -⟩ := dropGroup_keeps wp gid
  rw [hlive]
  ext l hl
  simp only [BitVec.getElem_and, BitVec.getElem_not]
  cases hs : g.slots[l]
  · simp
  · have hm := lanesOfGroup_mem hg (l := l) (by rw [BitVec.getLsbD_eq_getElem hl]; exact hs)
    dsimp only at hgid
    rw [hgid, BitVec.getLsbD_eq_getElem hl] at hm
    simp [hm]

/-! ### The end of threads, step by step -/

/-- The windows and the logs of some warps gone. -/
def State.quelled (s : State) (ws : List Nat) : State := ws.foldl (fun s k => (s.rollBack k false).discardLog k) s

/-- One warp without the lanes, the landings and the waits of a group. -/
def State.rid (gid : Nat) (s : State) (k : Nat) : State :=
  let bases := ((s.warp k).segs.filter fun g => g.gid == gid).map Seg.lbase
  let s := s.onCore (coreOf k) fun c => { c with landings := c.landings.map fun d =>
    if d.st ≠ .free ∧ d.warp = k ∧ bases.contains d.lbase then Landing.reset else d }
  (bases.foldl (fun s lb => s.dropWaits k lb) s).onWarp k fun wp => wp.dropGroup gid

/-- The holds of a group's segments. -/
def State.groupHolds (s : State) (gid : Nat) (ws : List Nat) : List Nat :=
  ws.flatMap fun k => ((s.warp k).segs.filter fun g => g.gid == gid).filterMap fun g => (g.cause.map SegCause.hid).filter (· ≠ 0)

/-- A group of a further generation, which waits at no barrier. -/
def State.aged (s : State) (gid : Nat) : State :=
  { s with
    groups := s.groups.alter gid fun (x : Group) => { x with gen := x.gen + 1 }
    bars := s.bars.map fun (b : Bar) => { b with arrived := b.arrived.filter fun a => a.1 ≠ gid } }

/-- The module before the barriers see the end of the threads. -/
def State.unthreaded (s : State) (gid : Nat) : State :=
  (s.warpsOf gid).foldl (State.rid gid) (((s.quelled (s.warpsOf gid)).groupHolds gid (s.warpsOf gid)).foldl State.unhold (s.quelled (s.warpsOf gid)))

theorem endThreads_eq (s : State) (gid : Nat) : s.endThreads gid = (s.unthreaded gid).exitBars
    ((s.unthreaded gid).departInsns gid fun t => t.aged gid) ((((s.unthreaded gid).group gid).map Group.core).getD 0 / 256) := rfl

section
variable (w : Nat)

theorem quelled_fades (s : State) (ws : List Nat) : (s.warp w).Fades ((s.quelled ws).warp w) :=
  fades_foldl w (fun t k => (rollBack_fades w t k).trans (discardLog_fades w _ k)) ws s

/-- Waits dropped at galleries, and landings at a core, leave the warp slots. -/
theorem rid_eq (gid : Nat) (s : State) (k : Nat) : ∃ cores gals, s.rid gid k =
    ({ s with cores := cores, gals := gals } : State).onWarp k fun wp => wp.dropGroup gid := by
  have hfold : ∀ (t : State) (ls : List Nat), ∃ gals, ls.foldl (fun s lb => s.dropWaits k lb) t = { t with gals := gals } := fun t ls =>
    List.foldlRecOn (motive := fun u : State => ∃ gals, u = { t with gals := gals }) ls _ ⟨_, rfl⟩ fun u hu lb _ => by
      obtain ⟨gals, rfl⟩ := hu
      exact ⟨_, rfl⟩
  obtain ⟨gals, hgals⟩ := hfold (s.onCore (coreOf k) fun c => { c with landings := c.landings.map fun d =>
    if d.st ≠ .free ∧ d.warp = k ∧ (((s.warp k).segs.filter fun g => g.gid == gid).map Seg.lbase).contains d.lbase then Landing.reset else d })
    (((s.warp k).segs.filter fun g => g.gid == gid).map Seg.lbase)
  refine ⟨(s.onCore (coreOf k) fun c => { c with landings := c.landings.map fun d =>
    if d.st ≠ .free ∧ d.warp = k ∧ (((s.warp k).segs.filter fun g => g.gid == gid).map Seg.lbase).contains d.lbase then Landing.reset else d }).cores, gals, ?_⟩
  unfold State.rid
  dsimp only
  rw [hgals]
  rfl

theorem rid_fades (gid : Nat) (s : State) (k : Nat) : (s.warp w).Fades ((s.rid gid k).warp w) := by
  obtain ⟨cores, gals, h⟩ := rid_eq gid s k
  rw [h]
  exact onWarp_fades w { s with cores := cores, gals := gals } k _ (dropGroup_fades _ gid)

theorem unholds_warp (s : State) (hids : List Nat) : (hids.foldl State.unhold s).warp w = s.warp w :=
  foldl_field (f := State.unhold) (p := fun t : State => t.warp w) (fun _ _ => rfl) hids s

theorem unthreaded_fades (s : State) (gid : Nat) : (s.warp w).Fades ((s.unthreaded gid).warp w) := by
  refine (quelled_fades w s (s.warpsOf gid)).trans ?_
  exact Eq.mp (congrArg (Warp.Fades · _) (unholds_warp w _ _)) (fades_foldl w (rid_fades w gid) _ _)

theorem departInsns_fades (s : State) (gid : Nat) {f : State → State} (hf : (f s).warps = s.warps) :
    (s.warp w).Fades ((s.departInsns gid f).warp w) := by
  have hsame : (f s).warp w = s.warp w := congrArg (fun q : Tab Warp => (q.find w).getD Warp.reset) hf
  rw [← hsame]
  refine fades_foldl w (fun t c => ?_) _ (f s)
  split
  · exact .refl _
  · exact onWarp_fades w t c.warp _ ⟨id, id, fun _ => rfl, fun _ _ => id, fun _ => rfl⟩

theorem endThreads_fades (s : State) (gid : Nat) : (s.warp w).Fades ((s.endThreads gid).warp w) := by
  rw [endThreads_eq]
  exact ((unthreaded_fades w s gid).trans (departInsns_fades w _ gid rfl)).trans (exitBars_released w _ _ _).fades

end

/-- What one step of a fold brings about, and every other keeps. -/
theorem foldl_establishes {α : Type} {f : State → α → State} {P Q : State → Prop} {a : α} (hQ : ∀ s b, Q s → Q (f s b)) (hP : ∀ s b, P s → P (f s b))
    (ha : ∀ s, Q s → P (f s a)) {l : List α} (hl : a ∈ l) {s : State} (hs : Q s) : P (l.foldl f s) := by
  induction l generalizing s with
  | nil => exact absurd hl List.not_mem_nil
  | cons b l ih =>
    rcases List.mem_cons.1 hl with rfl | hl
    · exact List.foldlRecOn (motive := P) l f (ha s hs) fun t ht c _ => hP t c ht
    · exact ih hl (hQ s b hs)

section
variable {w : Nat} {x : Nat × Mask}

/-- A warp slot outside a window of which a segment is of group `x.1` and has the lanes `x.2`. -/
def Warp.Has (v : Warp) (x : Nat × Mask) : Prop := v.window = none ∧ x ∈ v.segs.map fun g => (g.gid, g.slots)

/-- A warp slot outside a window in which none of the lanes is live. -/
def Warp.Lacks (v : Warp) (m : Mask) : Prop := v.window = none ∧ v.live &&& m = 0

theorem Warp.Fades.has {v u : Warp} (h : v.Fades u) (hv : v.Has x) : u.Has x := ⟨h.window hv.1, (h.segs hv.1).symm ▸ hv.2⟩

theorem Warp.Fades.lacks {v u : Warp} {m : Mask} (h : v.Fades u) (hv : v.Lacks m) : u.Lacks m := ⟨h.window hv.1, h.live hv.1 m hv.2⟩

/-- A slot that holds a segment of a group is one of the group's warps. -/
theorem mem_warpsOf {s : State} (h : (s.warp w).Has x) : w ∈ s.warpsOf x.1 := by
  obtain ⟨g, hg, hx⟩ := List.mem_map.1 h.2
  have hgid : g.gid = x.1 := congrArg Prod.fst hx
  cases hw : s.warps.find w with
  | none =>
    rw [State.warp, hw] at hg
    exact absurd hg List.not_mem_nil
  | some wp =>
    rw [State.warp, hw] at hg
    refine List.mem_map.2 ⟨(w, wp), List.mem_filter.2 ⟨tab_mem_of_find _ _ _ hw, List.any_eq_true.2 ⟨g, hg, by simp [hgid]⟩⟩, rfl⟩

theorem rid_lacks {s : State} (h : (s.warp w).Has x) : ((s.rid x.1 w).warp w).Lacks x.2 := by
  obtain ⟨cores, gals, heq⟩ := rid_eq x.1 s w
  refine ⟨((rid_fades w x.1 s w).has h).1, ?_⟩
  rw [heq, warp_onWarp_same]
  exact dropGroup_dead h.2 rfl

/-- The end of a group's threads leaves none of its lanes live. -/
theorem endThreads_lacks {s : State} (h : (s.warp w).Has x) : ((s.endThreads x.1).warp w).Lacks x.2 := by
  have hdead : ((s.unthreaded x.1).warp w).Lacks x.2 := by
    refine foldl_establishes (P := fun t => (t.warp w).Lacks x.2) (Q := fun t => (t.warp w).Has x) (fun t k => (rid_fades w x.1 t k).has)
      (fun t k => (rid_fades w x.1 t k).lacks) (fun t => rid_lacks) (mem_warpsOf h) ?_
    rw [unholds_warp]
    exact (quelled_fades w s _).has h
  rw [endThreads_eq]
  exact ((departInsns_fades w _ x.1 rfl).trans (exitBars_released w _ _ _).fades).lacks hdead

end

/-! ### Memory -/

/-- `t` has the memory of `s`, and no barrier of it is saved if none of `s` is. -/
def Spared (s t : State) : Prop := t.mem = s.mem ∧ ((∀ b ∈ s.bars, b.saved = none) → ∀ b ∈ t.bars, b.saved = none)

theorem Spared.refl (s : State) : Spared s s := ⟨rfl, id⟩

theorem Spared.trans {s t u : State} (a : Spared s t) (b : Spared t u) : Spared s u := ⟨b.1.trans a.1, fun h => b.2 (a.2 h)⟩

theorem spared_of_bars {s t : State} (hmem : t.mem = s.mem) (hbars : t.bars = s.bars) : Spared s t := ⟨hmem, fun h => hbars ▸ h⟩

theorem spared_foldl {α : Type} {f : State → α → State} (hf : ∀ s a, Spared s (f s a)) (l : List α) (s : State) : Spared s (l.foldl f s) :=
  List.foldlRecOn l f (Spared.refl s) fun _ h a _ => h.trans (hf _ a)

theorem rollBack_spared (s : State) (k : Nat) : Spared s (s.rollBack k false) := by
  unfold State.rollBack
  split
  · exact .refl s
  dsimp only
  rw [if_neg Bool.false_ne_true]
  unfold State.undo
  dsimp only
  split
  · exact .refl s
  · refine Spared.trans ?_ (spared_of_bars (announceAll_stays _ k).mem (announceAll_stays _ k).bars)
    exact ⟨rfl, id⟩

theorem discardLog_spared (s : State) (k : Nat) : Spared s (s.discardLog k) := by
  by_cases h : (s.warp k).sideLog = []
  · rw [State.discardLog, if_pos h]
    exact .refl s
  · rw [discardLog_eq s k h]
    unfold State.logEmptied
    dsimp only
    split
    · split <;> exact ⟨rfl, id⟩
    · exact ⟨rfl, id⟩

theorem rid_spared (gid : Nat) (s : State) (k : Nat) : Spared s (s.rid gid k) := by
  obtain ⟨cores, gals, h⟩ := rid_eq gid s k
  rw [h]
  exact ⟨rfl, id⟩

theorem departInsns_spared (s : State) (gid : Nat) : Spared s (s.departInsns gid fun t => t.aged gid) := by
  have haged : Spared s (s.aged gid) := ⟨rfl, fun h b hb => by
    obtain ⟨c, hc, rfl⟩ := List.mem_map.1 hb
    exact h c hc⟩
  refine haged.trans (spared_foldl (fun t c => ?_) _ _)
  split <;> exact ⟨rfl, id⟩

theorem unthreaded_spared (s : State) (gid : Nat) : Spared s (s.unthreaded gid) :=
  (spared_foldl (fun t k => (rollBack_spared t k).trans (discardLog_spared _ k)) _ s).trans
    ((spared_foldl (f := State.unhold) (fun _ _ => ⟨rfl, id⟩) _ _).trans (spared_foldl (rid_spared gid) _ _))

/-- Where no barrier is saved, the end of threads leaves memory, and saves none. -/
theorem endThreads_mem {s : State} (gid : Nat) (h : ∀ b ∈ s.bars, b.saved = none) : (s.endThreads gid).mem = s.mem ∧
    ∀ b ∈ (s.endThreads gid).bars, b.saved = none := by
  obtain ⟨hmem, hbars⟩ := (unthreaded_spared s gid).trans (departInsns_spared _ gid)
  rw [endThreads_eq, exitBars_unsaved _ _ (hbars h)]
  refine ⟨(checkBars_mem _).trans hmem, fun b hb => ?_⟩
  have hfold : ∀ (t : State) (l : List Bar), (l.foldl State.releaseBar t).bars = t.bars := fun t l =>
    foldl_field (f := State.releaseBar) (p := State.bars) (fun _ _ => rfl) l t
  unfold State.checkBars at hb
  rw [hfold] at hb
  exact hbars h b (List.mem_of_mem_filter hb)

end Sys2Proof.Machine
end

section
/-! SUPPORT. The release of a hold (R348, R392). -/

namespace Sys2Proof.Machine

/-! ### A cause that the host lets go on -/

/-- A segment without a waiting cause takes none up. -/
theorem nextCause_idle {g : Seg} (hq : g.queue = []) : g.nextCause = g := by
  unfold Seg.nextCause
  split
  · rfl
  · rw [hq]
    rfl

section
variable {wp : Warp} {lb : Nat} {g : Seg} {x : SegCause} (hg : wp.segAt lb = some g) (hx : g.cause = some x)

include hg hx

/-- The lanes of a cause at a slot of a clause, which did not wait for its end, stand there again (R348). -/
theorem returnHeld_eq (hcls : x.at_.cls ≠ 7) (hd : x.cls ≠ .d) (hm : g.abs x.lanes &&& wp.live ≠ 0) : wp.returnHeld lb =
    (({ (wp.onSeg lb fun g => { g with cause := none }).setPcs (g.abs x.lanes &&& wp.live) fun _ => x.at_.hdr + BitVec.ofNat 64 (8 * (x.at_.cnt + 2)) with
      resume := wp.resume ++ [{ x.at_ with lanes := g.abs x.lanes &&& wp.live }] } : Warp).onSeg lb Seg.nextCause) := by
  unfold Warp.returnHeld
  rw [hg, Option.bind_some, hx]
  dsimp only
  rw [if_neg (not_or.2 ⟨hcls, hd⟩), Warp.resumeCause, hg]
  dsimp only
  rw [hx]
  dsimp only
  rw [if_neg Bool.false_ne_true, Warp.standAt, if_neg hm]
  rfl

/-- Without a further cause the segment has none. -/
theorem returnHeld_segAt (hcls : x.at_.cls ≠ 7) (hd : x.cls ≠ .d) (hm : g.abs x.lanes &&& wp.live ≠ 0) (hq : g.queue = []) :
    (wp.returnHeld lb).segAt lb = some { g with cause := none } := by
  rw [returnHeld_eq hg hx hcls hd hm, segAt_onSeg _ lb _ { g with cause := none } ?_ nextCause_lbase, nextCause_idle (g := { g with cause := none }) hq]
  exact segAt_onSeg wp lb _ g hg fun _ => rfl

end

/-! ### A segment that the host ends -/

/-- A log that is discarded leaves the lanes and the segments. -/
theorem discardLog_keeps (s : State) (w : Nat) : ((s.discardLog w).warp w).live = (s.warp w).live ∧ ((s.discardLog w).warp w).segs = (s.warp w).segs := by
  by_cases h : (s.warp w).sideLog = []
  · rw [State.discardLog, if_pos h]
    exact ⟨rfl, rfl⟩
  · rw [discardLog_eq s w h]
    obtain ⟨_, _, hu⟩ := unlogged_eq (({ s with homeOps := s.homeOps.filter fun o => !(o.warp == w && o.fn == AtomFn.logWrite) } : State).warp w)
    unfold State.logEmptied
    dsimp only
    split
    · rw [warp_onWarp_same]
      split
      · rw [warp_onWarp_same, hu]
        exact ⟨rfl, rfl⟩
      · rw [show ∀ t : State, ∀ k, (t.unhold k).warp w = t.warp w from fun _ _ => rfl, warp_onWarp_same, hu]
        exact ⟨rfl, rfl⟩
    · rw [warp_onWarp_same, hu]
      exact ⟨rfl, rfl⟩

theorem departInsns_released (w : Nat) (s : State) (gid : Nat) : (s.warp w).Released ((s.departInsns gid fun t => t.aged gid).warp w) := by
  refine released_foldl w (fun t c => ?_) _ (s.aged gid)
  split
  · exact .refl _
  · by_cases hw : w = c.warp
    · subst hw
      rw [warp_onWarp_same]
      exact ⟨rfl, rfl, rfl, id, rfl⟩
    · rw [warp_onWarp_other t c.warp w _ hw]
      exact .refl _

/-- The one segment of the one warp ends with its group (R348). -/
theorem endThreads_one {s : State} {w : Nat} {wp : Warp} {g : Seg} (hwarps : s.warps = [(w, wp)]) (hsegs : wp.segs = [g]) (hwindow : wp.window = none) :
    ((s.endThreads g.gid).warp w).live = wp.live &&& ~~~g.slots ∧ ((s.endThreads g.gid).warp w).segs.map Seg.unsent = [g.dead.unsent] := by
  have hwarp : s.warp w = wp := by simp [State.warp, hwarps, Tab.find]
  have hmine : s.warpsOf g.gid = [w] := by simp [State.warpsOf, hwarps, hsegs]
  have hquelled : s.quelled [w] = s.discardLog w := by
    show (s.rollBack w false).discardLog w = _
    rw [State.rollBack, if_pos (by rw [hwarp, hwindow]; rfl)]
  obtain ⟨hlive, hkept⟩ := discardLog_keeps s w
  rw [hwarp] at hlive hkept
  have hrid : ((s.unthreaded g.gid).warp w).live = wp.live &&& ~~~g.slots ∧ ((s.unthreaded g.gid).warp w).segs = [g.dead] := by
    rw [State.unthreaded, hmine, hquelled]
    show ((State.rid g.gid (List.foldl State.unhold (s.discardLog w) _) w).warp w).live = _ ∧
      ((State.rid g.gid (List.foldl State.unhold (s.discardLog w) _) w).warp w).segs = _
    generalize (s.discardLog w).groupHolds g.gid [w] = hids
    obtain ⟨cores, gals, heq⟩ := rid_eq g.gid (hids.foldl State.unhold (s.discardLog w)) w
    obtain ⟨-, -, -, hdrop, hdead⟩ := dropGroup_keeps ((s.discardLog w).warp w) g.gid
    rw [heq, warp_onWarp_same, show ({ hids.foldl State.unhold (s.discardLog w) with cores := cores, gals := gals } : State).warp w =
      (s.discardLog w).warp w from unholds_warp w _ hids, hdrop, hdead, Warp.lanesOfGroup, hkept, hlive, hsegs]
    simp
  have hrel := (departInsns_released w (s.unthreaded g.gid) g.gid).trans (exitBars_released w (s.unthreaded g.gid)
    ((s.unthreaded g.gid).departInsns g.gid fun t => t.aged g.gid) ((((s.unthreaded g.gid).group g.gid).map Group.core).getD 0 / 256))
  rw [endThreads_eq]
  exact ⟨hrel.live.trans hrid.1, hrel.segs.trans (by rw [hrid.2]; rfl)⟩

/-- A side log that the host ends is empty, and its writers have ended (R392). -/
theorem endLog_ends (s : State) (w : Nat) : let t := (s.loggers w).foldl State.endThreads (s.discardLog w)
    (t.warp w).sideLog = [] ∧ ((∀ b ∈ s.bars, b.saved = none) → t.mem = s.mem) ∧ ((s.warp w).window = none → (t.warp w).regs = (s.warp w).regs ∧
      ∀ e ∈ (s.warp w).sideLog, ∀ g, (s.warp w).segAt e.lbase = some g → (t.warp w).live &&& g.slots = 0) := by
  intro t
  have hdiscard := discardLog_fades w s w
  have hends : ((s.discardLog w).warp w).Fades (t.warp w) := fades_foldl w (endThreads_fades w) _ _
  refine ⟨hends.log (discardLog_empties s w), fun hbars => ?_, fun hwindow => ⟨(hdiscard.trans hends).regs hwindow, fun e he g hg => ?_⟩⟩
  · obtain ⟨hmem, hsaved⟩ := discardLog_spared s w
    refine (List.foldlRecOn (motive := fun u : State => u.mem = s.mem ∧ ∀ b ∈ u.bars, b.saved = none) (s.loggers w) _ ⟨hmem, hsaved hbars⟩
      fun u hu gid _ => ?_).1
    exact ⟨(endThreads_mem gid hu.2).1.trans hu.1, (endThreads_mem gid hu.2).2⟩
  · have hgid : g.gid ∈ s.loggers w := List.mem_eraseDups.2 (List.mem_filterMap.2 ⟨e, he, by rw [hg]; rfl⟩)
    have hhas : (s.warp w).Has (g.gid, g.slots) := ⟨hwindow, List.mem_map.2 ⟨g, List.mem_of_find?_eq_some hg, rfl⟩⟩
    exact (foldl_establishes (P := fun u => (u.warp w).Lacks g.slots) (Q := fun u => (u.warp w).Has (g.gid, g.slots))
      (fun u k => (endThreads_fades w u k).has) (fun u k => (endThreads_fades w u k).lacks) (fun u => endThreads_lacks) hgid (hdiscard.has hhas)).2

/-! ### Other holds -/

theorem settleRun_keeps (s : State) (g : Nat) : (s.settleRun g).holds = s.holds ∧ (s.settleRun g).cmds = s.cmds := by
  unfold State.settleRun
  split
  · exact ⟨rfl, rfl⟩
  split
  · exact ⟨rfl, rfl⟩
  dsimp only
  split
  · unfold State.endRun State.nextTrigger State.jobDone
    dsimp only
    repeat' split
    all_goals exact ⟨rfl, rfl⟩
  · exact ⟨rfl, rfl⟩

section
variable {s : State} {fn hid : Nat}

/-- A segment's lanes stand at the slot of the cause again (R348). -/
theorem segResume_goes {w lb : Nat} {g : Seg} {x : SegCause} (hold : s.holdOf fn hid = some (.seg w lb)) (hg : (s.warp w).segAt lb = some g)
    (hx : g.cause = some x) (hq : g.queue = []) (hcode : x.code ≠ 0x18) (hcls : x.at_.cls ≠ 7) (hd : x.cls ≠ .d)
    (hm : g.abs x.lanes &&& (s.warp w).live ≠ 0) :
    execClrelResume fn hid s = .next ((s.unhold hid).onWarp w fun wp => wp.returnHeld lb) := by
  have hat : ((s.unhold hid).warp w).segAt lb = some g := hg
  have hafter : (((s.unhold hid).onWarp w fun wp => wp.returnHeld lb).warp w).segAt lb = some { g with cause := none } := by
    rw [warp_onWarp_same]
    exact returnHeld_segAt hg hx hcls hd hm hq
  rw [execClrelResume, hold]
  dsimp only
  rw [hat, Option.bind_some, hx]
  dsimp only
  simp only [if_neg hcode]
  rw [announce_calm hafter rfl]

theorem cmdResume_goes {c : Nat} {x : Cmd} (hold : s.holdOf fn hid = some (.cmd c)) (hc : s.cmds.find c = some x) :
    Completes (.clrelResume fn hid) s fun t => t.holds = s.holds.filter (fun h => h.1 != hid) ∧ t.cmds.find c = some { x with st := .released, hid := 0 } := by
  have hfind : (s.cmds.alter c fun (x : Cmd) => { x with st := .released, hid := 0 }).find c = some { x with st := .released, hid := 0 } := by
    rw [tab_find_alter, hc]
    rfl
  refine ⟨_, show execClrelResume fn hid s = _ by rw [execClrelResume, hold], ?_⟩
  dsimp only
  split
  · next g _ =>
    obtain ⟨hholds, hcmds⟩ := settleRun_keeps
      { s.unhold hid with cmds := (s.unhold hid).cmds.alter c fun (x : Cmd) => { x with st := .released, hid := 0 } } g
    rw [hholds, hcmds]
    exact ⟨rfl, hfind⟩
  · exact ⟨rfl, hfind⟩

theorem galleryEnd_goes {n : Nat} {e : Gal} (hold : s.holdOf fn hid = some (.gallery n)) (he : s.gals.find n = some e) (hst : e.st ≠ .filling) :
    Completes (.clrelEnd fn hid) s fun t => t.gals = s.gals.del n ∧ t.mem = s.mem := by
  refine ⟨_, show execClrelEnd fn hid s = _ by rw [execClrelEnd, hold], ?_⟩
  dsimp only
  rw [State.endGallery, show (s.unhold hid).gals.find n = some e from he]
  dsimp only
  rw [if_neg hst]
  exact ⟨rfl, rfl⟩

theorem ringEnd_goes {r : Nat} (hold : s.holdOf fn hid = some (.ring r)) :
    Completes (.clrelEnd fn hid) s fun t => (t.ring r).stat = 2 ∧ (t.ring r).frames = [] ∧ (t.ring r).rdoff = (s.ring r).rdoff := by
  refine ⟨_, show execClrelEnd fn hid s = _ by rw [execClrelEnd, hold], ?_⟩
  dsimp only
  rw [ring_onRing, ring_congr (freeRing_rings (s.unhold hid) r)]
  exact ⟨rfl, rfl, rfl⟩

end

/-- Settles O51: by what the hold names, each a step that resumes it or ends it. -/
theorem holdRelease : Obligations.HoldRelease := by
  unfold Obligations.HoldRelease
  intro s fn hid w lb wp free
  refine ⟨fun hold => ?_, fun hold => ?_, fun g x hold hg hlb hx hq => ?_, fun hold => ?_, fun r x hold hr => ?_, fun c x hold hc => ?_,
    fun n e hold he => ?_, fun d hold hd => ?_⟩
  · constructor <;> refine ⟨s, ?_, rfl⟩
    · show execClrelResume fn hid s = _
      rw [execClrelResume, hold]
    · show execClrelEnd fn hid s = _
      rw [execClrelEnd, hold]
  · constructor
    · refine ⟨_, ?_, rfl⟩
      show execClrelResume fn hid s = _
      rw [execClrelResume, hold]
      rfl
    · refine ⟨_, ?_, endLog_ends (s.unhold hid) w⟩
      show execClrelEnd fn hid s = _
      rw [execClrelEnd, hold]
  · refine ⟨fun hcode hcls hd hm => ⟨_, segResume_goes hold hg hx hq hcode hcls hd hm, rfl, rfl, ?_⟩, fun hwarps hsegs hwindow hbars => ?_⟩
    · rw [warp_onWarp_same]
      refine ⟨?_, ⟨_, returnHeld_segAt hg hx hcls hd hm hq, rfl⟩, ?_⟩ <;> rw [show (s.unhold hid).warp w = wp from rfl, returnHeld_eq hg hx hcls hd hm]
      · rfl
      · exact ⟨_, List.mem_append_right _ (List.mem_singleton_self _), rfl, rfl, rfl⟩
    · have hend : execClrelEnd fn hid s = .next ((s.unhold hid).endThreads g.gid) := by
        rw [execClrelEnd, hold]
        dsimp only
        rw [show ((s.unhold hid).warp w).segAt lb = some g from hg]
      obtain ⟨hlive, hsegs'⟩ := endThreads_one (s := s.unhold hid) hwarps hsegs hwindow
      refine ⟨_, hend, (endThreads_mem (s := s.unhold hid) g.gid hbars).1, hlive, ?_⟩
      obtain ⟨h, hh, hdead⟩ := List.map_eq_singleton_iff.1 hsegs'
      have hbase : h.lbase = lb := (congrArg Seg.lbase hdead).trans hlb
      refine ⟨h, ?_, congrArg Seg.cause hdead, congrArg Seg.lmask hdead⟩
      rw [Warp.segAt, hh, List.find?_cons_of_pos (by simp [hbase])]
  · refine ⟨_, show execClrelResume fn hid s = _ by rw [execClrelResume, hold], rfl, warp_onWarp_same _ _ _⟩
  · subst hr
    refine ⟨⟨_, show execClrelResume fn hid s = _ by rw [execClrelResume, hold], rfl, _, ring_onRing _ _ _⟩, ringEnd_goes hold⟩
  · exact cmdResume_goes hold hc
  · refine ⟨⟨_, show execClrelResume fn hid s = _ by rw [execClrelResume, hold], rfl, ?_⟩, galleryEnd_goes hold he⟩
    exact (tab_find_alter _ _ _).trans (congrArg (Option.map _) he)
  · refine ⟨_, show execClrelResume fn hid s = _ by rw [execClrelResume, hold], rfl, ?_⟩
    exact congrArg Die.wrapLate (die_onDie_same (s.unhold hid) d _ hd)

end Sys2Proof.Machine
end

section
/-! SUPPORT. Entry to the group trap handler (R344). -/

namespace Sys2Proof.Machine

/-! ### One register delivered -/

section
variable (wp : Warp) (m : Mask) (n : Nat) (sh : Shape) (f : Nat → Word)

theorem deliverReg_same (hn : n < 128) (l : Nat) (hl : m.getLsbD l = true) : ((wp.deliverReg m n sh f).reg n).word l = f l := by
  have hreg : (wp.deliverReg m n sh f).reg n = (wp.reg n).write m (wp.reach m).1 (wp.reach m).2 sh f := (reg_setReg wp n n _ hn).trans (if_pos rfl)
  rw [hreg, write_word _ _ _ _ _ _ _ hl]

theorem deliverReg_other (k : Nat) (hk : k ≠ n) : (wp.deliverReg m n sh f).reg k = wp.reg k := fileAt_getD_other 128 n k _ _ wp.regs hk

end

/-- What a delivery to the lanes of `m` in registers from `v118` on leaves of a warp slot. -/
structure Warp.Delivered (m : Mask) (v u : Warp) : Prop where
  preds : u.preds = v.preds
  pcs : u.pcs = v.pcs
  segs : u.segs = v.segs
  live : u.live = v.live
  low : ∀ k, k < 118 → u.reg k = v.reg k
  outside : ∀ l, v.live.getLsbD l = true → m.getLsbD l = false → ∀ k, (u.reg k).word l = (v.reg k).word l

theorem Warp.Delivered.trans {m : Mask} {v u x : Warp} (a : v.Delivered m u) (b : u.Delivered m x) : v.Delivered m x :=
  ⟨b.preds.trans a.preds, b.pcs.trans a.pcs, b.segs.trans a.segs, b.live.trans a.live, fun k hk => (b.low k hk).trans (a.low k hk),
    fun l hl hm k => (b.outside l (a.live ▸ hl) hm k).trans (a.outside l hl hm k)⟩

theorem deliverReg_delivered (v : Warp) (m : Mask) (n : Nat) (sh : Shape) (f : Nat → Word) (hn : 118 ≤ n) (h128 : n < 128) :
    v.Delivered m (v.deliverReg m n sh f) := by
  refine ⟨rfl, rfl, rfl, rfl, fun k hk => deliverReg_other v m n sh f k (by omega), fun l hl hm k => ?_⟩
  obtain rfl | hne := eq_or_ne k n
  · have hreg : (v.deliverReg m k sh f).reg k = (v.reg k).write m (v.reach m).1 (v.reach m).2 sh f :=
      (reg_setReg v k k _ h128).trans (if_pos rfl)
    rw [hreg, write_word_other _ _ _ _ _ _ _ (lane_lt _ _ hl) hm (reach_fill v m l hl)]
  · rw [deliverReg_other v m n sh f k hne]

/-! ### All of them -/

/-- The shape of the word that the handler finds in `v(118 + k)`. -/
def trapShape (k : Nat) : Shape := if k = 6 ∨ k = 7 then .general else .uniform

/-- The word that the handler finds in `v(118 + k)` in lane `l` of a segment at `lbase` (R344). -/
def SegCause.trapWord (x : SegCause) (lbase k l : Nat) : Word :=
  [loWord x.lanes, hiWord x.lanes, loWord x.at_.hdr, hiWord x.at_.hdr, x.codeWord, x.detail, loWord (x.addrs.getD (l - lbase) 0),
    hiWord (x.addrs.getD (l - lbase) 0), loWord x.mask, hiWord x.mask].getD k 0

/-- The first `n` words of a trap delivered. -/
def Warp.trapWords (wp : Warp) (m : Mask) (x : SegCause) (lbase n : Nat) : Warp :=
  (List.range n).foldl (fun wp k => wp.deliverReg m (118 + k) (trapShape k) fun l => x.trapWord lbase k l) wp

theorem trapWords_succ (wp : Warp) (m : Mask) (x : SegCause) (lbase n : Nat) : wp.trapWords m x lbase (n + 1) =
    (wp.trapWords m x lbase n).deliverReg m (118 + n) (trapShape n) fun l => x.trapWord lbase n l := by
  rw [Warp.trapWords, List.range_succ, List.foldl_concat]
  rfl

theorem trapWords_delivered (wp : Warp) (m : Mask) (x : SegCause) (lbase n : Nat) (hn : n ≤ 10) : wp.Delivered m (wp.trapWords m x lbase n) ∧
    ∀ k l, k < n → m.getLsbD l = true → ((wp.trapWords m x lbase n).reg (118 + k)).word l = x.trapWord lbase k l := by
  induction n with
  | zero => exact ⟨⟨rfl, rfl, rfl, rfl, fun _ _ => rfl, fun _ _ _ _ => rfl⟩, fun k _ hk => absurd hk (Nat.not_lt_zero k)⟩
  | succ n ih =>
    obtain ⟨hkept, hwords⟩ := ih (by omega)
    rw [trapWords_succ]
    refine ⟨hkept.trans (deliverReg_delivered _ _ _ _ _ (by omega) (by omega)), fun k l hk hl => ?_⟩
    obtain rfl | hne := eq_or_ne k n
    · rw [deliverReg_same _ _ _ _ _ (by omega) l hl]
    · rw [deliverReg_other _ _ _ _ _ _ (by omega), hwords k l (by omega) hl]

/-- The segment of a cause, under the handler (R344). -/
def Seg.handled (g : Seg) (x : SegCause) (saved : List VReg) (now : Nat) : Seg :=
  { g with
    cause := none
    record := some ⟨x, saved, g.udepth, g.handler &&& x.lanes != 0⟩
    handler := g.handler ||| x.lanes
    notBefore := max g.notBefore (now + 24) }

theorem enterHandler_eq {wp : Warp} {lb : Nat} {g : Seg} {x : SegCause} (hg : wp.segAt lb = some g) (hx : g.cause = some x) (now : Nat) :
    wp.enterHandler lb now = ((wp.trapWords (g.abs x.lanes) x g.lbase 10).setPcs (g.abs x.lanes) fun _ => g.tbase).onSeg lb fun g =>
      g.handled x ((List.range 10).map fun k => wp.reg (118 + k)) now := by
  unfold Warp.enterHandler
  rw [hg]
  dsimp only
  rw [hx]
  rfl

theorem setPcs_pc (wp : Warp) (m : Mask) (f : Nat → DWord) (l : Nat) (hl : l < 64) :
    (wp.setPcs m f).pc l = if m.getLsbD l then f l else wp.pc l :=
  allLanes_map_getD (fun l => if m.getLsbD l then f l else wp.pc l) 0 l hl

/-- Settles O20: the ten words one after the other, each in a register of its own, and then the segment. -/
theorem handlerEntry : Obligations.HandlerEntry := by
  unfold Obligations.HandlerEntry
  intro s w lb g x wp hg hx hdest hwindow hrec htbase
  have hstep : execHandlerEntry w lb s = .next (s.onWarp w fun wp => wp.enterHandler lb s.now) := by
    unfold execHandlerEntry
    dsimp only
    rw [show (s.warp w).segAt lb = some g from hg]
    dsimp only
    rw [hx]
    dsimp only
    rw [if_neg (by simp [hdest, Warp.mayDeliver, hrec, show (s.warp w).window = none from hwindow]), if_neg htbase]
  refine ⟨_, hstep, apart_onWarp_of s w _, ?_⟩
  have hw := (warp_onWarp_same s w fun wp => wp.enterHandler lb s.now).trans (enterHandler_eq hg hx s.now)
  generalize (s.onWarp w fun wp => wp.enterHandler lb s.now).warp w = v at hw ⊢
  obtain ⟨hkept, hwords⟩ := trapWords_delivered wp (g.abs x.lanes) x g.lbase 10 (le_refl 10)
  generalize wp.trapWords (g.abs x.lanes) x g.lbase 10 = u at hw hkept hwords
  have hseg : (u.setPcs (g.abs x.lanes) fun _ => g.tbase).segAt lb = some g := (congrArg (List.find? _) hkept.segs).trans hg
  subst hw
  refine ⟨hkept.preds, ⟨_, _, segAt_onSeg _ lb _ g hseg fun _ => rfl, rfl, rfl, rfl, rfl, rfl, rfl, Nat.le_max_right _ _⟩, hkept.low,
    fun l hl hm => ⟨?_, hkept.outside l hl hm⟩, fun l hl => ⟨?_, ?_⟩⟩
  · exact (setPcs_pc u (g.abs x.lanes) (fun _ => g.tbase) l (lane_lt _ _ hl)).trans ((if_neg (by simp [hm])).trans (congrArg (List.getD · l 0) hkept.pcs))
  · exact (setPcs_pc u (g.abs x.lanes) (fun _ => g.tbase) l (lane_lt _ _ hl)).trans (if_pos hl)
  · exact ⟨hwords 0 l (by omega) hl, hwords 1 l (by omega) hl, hwords 2 l (by omega) hl, hwords 3 l (by omega) hl, hwords 4 l (by omega) hl,
      hwords 5 l (by omega) hl, hwords 6 l (by omega) hl, hwords 7 l (by omega) hl, hwords 8 l (by omega) hl, hwords 9 l (by omega) hl⟩

end Sys2Proof.Machine
end

section
/-! SUPPORT. The return from the group trap handler (R346, R363). -/

namespace Sys2Proof.Machine

/-! ### What a boundary reads -/

/-- What a result leaves in a register depends on that register alone. -/
theorem apply_reg_congr {u v : Warp} {n : Nat} (hn : n < 128) (h : u.reg n = v.reg n) (p : Pend) : (u.apply p).reg n = (v.apply p).reg n := by
  obtain ⟨slot, due, tgt, lanes, vals, shape, cover, fill⟩ := p
  cases tgt
  case vreg k =>
    by_cases hk : n = k
    · subst hk
      rw [apply_vreg_reg u slot due n n lanes vals shape cover fill hn, apply_vreg_reg v slot due n n lanes vals shape cover fill hn, h]
    · exact (fileAt_getD_other 128 k n _ _ u.regs hk).trans (h.trans (fileAt_getD_other 128 k n _ _ v.regs hk).symm)
  all_goals exact h

/-- What a result leaves in the predicates depends on them alone. -/
theorem apply_preds_congr {u v : Warp} (h : u.preds = v.preds) (p : Pend) : (u.apply p).preds = (v.apply p).preds := by
  obtain ⟨slot, due, tgt, lanes, vals, shape, cover, fill⟩ := p
  cases tgt
  case preg k =>
    show fileAt 15 0 u.preds k _ = fileAt 15 0 v.preds k _
    rw [h, show u.pred k = v.pred k by rw [Warp.pred, Warp.pred, h]]
  all_goals exact h

theorem applyEnd_reg_congr {u v : Warp} {n : Nat} (hn : n < 128) (h : u.reg n = v.reg n) (ps : List Pend) :
    (u.applyEnd ps).reg n = (v.applyEnd ps).reg n := by
  unfold Warp.applyEnd
  induction orderPends ps generalizing u v with
  | nil => exact h
  | cons p ps ih => exact ih (apply_reg_congr hn h p)

theorem applyEnd_preds_congr {u v : Warp} (h : u.preds = v.preds) (ps : List Pend) : (u.applyEnd ps).preds = (v.applyEnd ps).preds := by
  unfold Warp.applyEnd
  induction orderPends ps generalizing u v with
  | nil => exact h
  | cons p ps ih => exact ih (apply_preds_congr h p)

/-- A boundary leaves the lanes that stand at a slot. -/
theorem applyEnd_resume (wp : Warp) (ps : List Pend) : (wp.applyEnd ps).resume = wp.resume := by
  unfold Warp.applyEnd
  refine List.foldlRecOn (motive := fun u : Warp => u.resume = wp.resume) _ _ rfl fun u hu p _ => ?_
  obtain ⟨slot, due, tgt, lanes, vals, shape, cover, fill⟩ := p
  cases tgt <;> exact hu

/-! ### A segment at rest -/

/-- A segment with neither causes nor a record, at a grade and a depth of divergence. -/
structure Seg.Rested (g : Seg) (depth : Nat) (handler : Mask) : Prop where
  cause : g.cause = none
  queue : g.queue = []
  record : g.record = none
  udepth : g.udepth = depth
  handler : g.handler = handler

/-- A boundary leaves a segment at rest so. -/
theorem apply_rested {wp : Warp} {lb depth : Nat} {handler : Mask} (h : ∃ g, wp.segAt lb = some g ∧ g.Rested depth handler) (p : Pend) :
    ∃ g, (wp.apply p).segAt lb = some g ∧ g.Rested depth handler := by
  obtain ⟨g, hg, hrest⟩ := h
  have hmap : ∃ f : Seg → Seg, (∀ x : Seg, (f x).cause = x.cause ∧ (f x).queue = x.queue ∧ (f x).record = x.record ∧ (f x).udepth = x.udepth ∧
      (f x).handler = x.handler) ∧ (wp.apply p).segAt lb = (wp.segAt lb).map f := by
    obtain ⟨slot, due, tgt, lanes, vals, shape, cover, fill⟩ := p
    cases tgt
    case lmask | lpark | lparkClear =>
      refine ⟨_, fun x => ?_, segAt_startWoken wp lb _ fun x => ?_⟩
      · split <;> exact ⟨rfl, rfl, rfl, rfl, rfl⟩
      · split <;> rfl
    case vpc =>
      refine ⟨_, fun _ => ?_, segAt_onSegs wp lb _ ?_⟩
      · exact ⟨rfl, rfl, rfl, rfl, rfl⟩
      · exact fun _ => rfl
    all_goals exact ⟨id, fun _ => ⟨rfl, rfl, rfl, rfl, rfl⟩, Option.map_id_apply.symm⟩
  obtain ⟨f, hf, hseg⟩ := hmap
  obtain ⟨hcause, hqueue, hrecord, hudepth, hhandler⟩ := hf g
  exact ⟨f g, by rw [hseg, hg, Option.map_some], hcause.trans hrest.cause, hqueue.trans hrest.queue, hrecord.trans hrest.record,
    hudepth.trans hrest.udepth, hhandler.trans hrest.handler⟩

theorem applyEnd_rested {wp : Warp} {lb depth : Nat} {handler : Mask} (h : ∃ g, wp.segAt lb = some g ∧ g.Rested depth handler) (ps : List Pend) :
    ∃ g, (wp.applyEnd ps).segAt lb = some g ∧ g.Rested depth handler :=
  List.foldlRecOn (motive := fun u : Warp => ∃ g, u.segAt lb = some g ∧ g.Rested depth handler) _ _ h fun _ hu p _ => apply_rested hu p

/-! ### The three ways back -/

/-- The register `n` after a return: the record's copy in the trapped lanes, from `v118` on. -/
def Warp.backReg (wp : Warp) (m : Mask) (r : TrapRec) (n : Nat) : VReg :=
  if n < 118 then wp.reg n
  else VReg.mk ((r.saved.getD (n - 118) VReg.reset).tag.join (wp.reg n).tag)
    (allLanes.map fun l => if m.getLsbD l then (r.saved.getD (n - 118) VReg.reset).word l else (wp.reg n).word l)

/-- The grade of a segment after a return. -/
def Seg.backGrade (g : Seg) (r : TrapRec) : Mask := if r.wasHandler then g.handler else g.handler &&& ~~~r.cause.lanes

/-- A warp slot with a segment's record gone and its copies back. -/
def Warp.restored (wp : Warp) (lb : Nat) (m : Mask) (r : TrapRec) : Warp :=
  ({ wp with regs := (List.range 128).map (wp.backReg m r) } : Warp).onSeg lb fun g =>
    { g with record := none, udepth := r.udepth, handler := g.backGrade r }

/-- The lanes of a record stand at the slot of its cause again, and those that are done behind it. -/
def Warp.stoodBack (wp : Warp) (x : SegCause) (again past : Mask) : Warp :=
  (wp.standAt { x.at_ with lanes := again, pend := (x.at_.pend.map (Pend.split again)).filter Pend.alive }).standPast
    { x.at_ with lanes := past, pend := (x.at_.pend.map (Pend.split past)).filter Pend.alive } x.after

/-- Where the lanes `m` of a record go on. -/
def Warp.sentBack (wp : Warp) (g : Seg) (m : Mask) (x : SegCause) : Warp :=
  if x.cls = .d then wp.setPcs m fun _ => x.at_.hdr
  else if x.code = 0x16 then (wp.finish x.at_).setPcs m fun _ => x.nextHdr
  else (wp.setPcs m fun _ => x.nextHdr).stoodBack x (m &&& ~~~g.abs x.done) (m &&& g.abs x.done)

theorem returnTo_eq {wp : Warp} {g : Seg} {r : TrapRec} (hg : wp.segAt g.lbase = some g) (hr : g.record = some r) : wp.returnTo g.lbase =
    (wp.restored g.lbase (g.abs r.cause.lanes &&& wp.live) r).sentBack g (g.abs r.cause.lanes &&& wp.live) r.cause := by
  unfold Warp.returnTo
  rw [hg]
  dsimp only
  rw [hr]
  rfl

/-- The results of a clause that a return makes visible (R62, R363). -/
def SegCause.owed (x : SegCause) (past : Mask) : List Pend :=
  if x.cls = .d then [] else if x.code = 0x16 then x.at_.pend
  else if past ≠ 0 ∧ x.at_.cnt ≤ x.at_.slot then (x.at_.pend.map (Pend.split past)).filter Pend.alive else []

/-- `u` is `v` with results made visible, as far as the files go. -/
structure Warp.Shown (v : Warp) (ps : List Pend) (u : Warp) : Prop where
  regs : ∀ n, n < 128 → u.reg n = (v.applyEnd ps).reg n
  preds : u.preds = (v.applyEnd ps).preds

theorem standAt_shown (wp : Warp) (x : ClauseAt) : wp.Shown [] (wp.standAt x) := by
  unfold Warp.standAt
  split <;> exact ⟨fun _ _ => rfl, rfl⟩

theorem finish_shown (wp : Warp) (x : ClauseAt) : wp.Shown x.pend (wp.finish x) := ⟨fun _ _ => rfl, rfl⟩

/-- A boundary behind the same files shows the same. -/
theorem Warp.Shown.trans {v u x : Warp} {ps : List Pend} (a : v.Shown [] u) (b : u.Shown ps x) : v.Shown ps x :=
  ⟨fun n hn => (b.regs n hn).trans (applyEnd_reg_congr hn (a.regs n hn) ps), b.preds.trans (applyEnd_preds_congr a.preds ps)⟩

theorem standPast_shown (wp : Warp) (x : ClauseAt) (after : List Latch) :
    wp.Shown (if x.lanes ≠ 0 ∧ x.cnt ≤ x.slot then x.pend else []) (wp.standPast x after) := by
  unfold Warp.standPast
  by_cases hm : x.lanes = 0
  · rw [if_pos hm, if_neg fun h => h.1 hm]
    exact ⟨fun _ _ => rfl, rfl⟩
  · rw [if_neg hm]
    by_cases hlast : x.cnt ≤ x.slot
    · rw [if_pos hlast, if_pos ⟨hm, hlast⟩]
      exact finish_shown wp x
    · rw [if_neg hlast, if_neg fun h => hlast h.2]
      exact standAt_shown wp _

section
variable (v : Warp) (g : Seg) (m : Mask) (x : SegCause)

/-- What a return makes visible are the results that it owes. -/
theorem sentBack_shown : v.Shown (x.owed (m &&& g.abs x.done)) (v.sentBack g m x) := by
  unfold Warp.sentBack SegCause.owed
  split
  · exact ⟨fun _ _ => rfl, rfl⟩
  split
  · exact ⟨(finish_shown v x.at_).regs, rfl⟩
  · have hsent : v.Shown [] (v.setPcs m fun _ => x.nextHdr) := ⟨fun _ _ => rfl, rfl⟩
    unfold Warp.stoodBack
    exact (hsent.trans (standAt_shown _ { x.at_ with lanes := m &&& ~~~g.abs x.done, pend := _ })).trans
      (standPast_shown _ { x.at_ with lanes := m &&& g.abs x.done, pend := _ } x.after)

/-- Lanes that stand at a slot leave the segments. -/
theorem standAt_segs (wp : Warp) (y : ClauseAt) : (wp.standAt y).segs = wp.segs := by
  unfold Warp.standAt
  split <;> rfl

/-- A return leaves a segment at rest so. -/
theorem sentBack_rested {lb depth : Nat} {handler : Mask} (h : ∃ k, v.segAt lb = some k ∧ k.Rested depth handler) :
    ∃ k, (v.sentBack g m x).segAt lb = some k ∧ k.Rested depth handler := by
  have of_segs {u t : Warp} (hsegs : t.segs = u.segs) (hu : ∃ k, u.segAt lb = some k ∧ k.Rested depth handler) :
      ∃ k, t.segAt lb = some k ∧ k.Rested depth handler := by
    rwa [Warp.segAt, hsegs]
  unfold Warp.sentBack
  split
  · exact of_segs rfl h
  split
  · exact of_segs rfl (applyEnd_rested h x.at_.pend)
  · unfold Warp.stoodBack Warp.standPast
    have hagain := fun y => of_segs (standAt_segs (v.setPcs m fun _ => x.nextHdr) y) h
    split
    · exact hagain _
    split
    · exact of_segs rfl (applyEnd_rested (hagain _) _)
    · exact of_segs (standAt_segs _ _) (hagain _)

/-- The lanes of a deferred cause stand at the boundary where it was taken (R346). -/
theorem sentBack_deferred (hd : x.cls = .d) {l : Nat} (hl : m.getLsbD l = true) : (v.sentBack g m x).pc l = x.at_.hdr := by
  rw [Warp.sentBack, if_pos hd, setPcs_pc _ _ _ _ (lane_lt _ _ hl), if_pos hl]

theorem standAt_pcs (wp : Warp) (y : ClauseAt) : (wp.standAt y).pcs = wp.pcs := by
  unfold Warp.standAt
  split <;> rfl

/-- Other lanes have the next header as their counter, unless a boundary sends them elsewhere (R62, R346). -/
theorem sentBack_next (hd : x.cls ≠ .d) (h : x.code = 0x16 ∨ x.owed (m &&& g.abs x.done) = []) {l : Nat} (hl : m.getLsbD l = true) :
    (v.sentBack g m x).pc l = x.nextHdr := by
  have hat : ∀ u : Warp, (u.setPcs m fun _ => x.nextHdr).pc l = x.nextHdr := fun u => by rw [setPcs_pc _ _ _ _ (lane_lt _ _ hl), if_pos hl]
  unfold Warp.sentBack
  rw [if_neg hd]
  by_cases hcode : x.code = 0x16
  · rw [if_pos hcode]
    exact hat _
  · rw [if_neg hcode]
    have hnone := h.resolve_left hcode
    unfold SegCause.owed at hnone
    rw [if_neg hd, if_neg hcode] at hnone
    have hagain := fun y => (congrArg (List.getD · l 0) (standAt_pcs (v.setPcs m fun _ => x.nextHdr) y)).trans (hat v)
    unfold Warp.stoodBack Warp.standPast
    split
    · exact hagain _
    · next hpast =>
      split
      · next hlast =>
        rw [if_pos ⟨hpast, hlast⟩] at hnone
        rw [Warp.finish, hnone]
        exact hagain _
      · exact (congrArg (List.getD · l 0) (standAt_pcs _ _)).trans (hagain _)

theorem mem_standAt {wp : Warp} {y : ClauseAt} (hy : y.lanes ≠ 0) : y ∈ (wp.standAt y).resume := by
  rw [Warp.standAt, if_neg hy]
  exact List.mem_append_right _ (List.mem_singleton_self y)

theorem standAt_resume {wp : Warp} {a : ClauseAt} (ha : a ∈ wp.resume) (y : ClauseAt) : a ∈ (wp.standAt y).resume := by
  unfold Warp.standAt
  split
  · exact ha
  · exact List.mem_append_left _ ha

theorem standPast_resume {wp : Warp} {a : ClauseAt} (ha : a ∈ wp.resume) (y : ClauseAt) (after : List Latch) : a ∈ (wp.standPast y after).resume := by
  unfold Warp.standPast
  split
  · exact ha
  split
  · exact (applyEnd_resume wp y.pend).symm ▸ ha
  · exact standAt_resume ha _

variable (hd : x.cls ≠ .d) (hcode : x.code ≠ 0x16)
include hd hcode

/-- The lanes of a precise cause stand at its slot again (R346). -/
theorem sentBack_again (hm : m &&& ~~~g.abs x.done ≠ 0) : ∃ a ∈ (v.sentBack g m x).resume, a.hdr = x.at_.hdr ∧ a.slot = x.at_.slot ∧
    a.words = x.at_.words ∧ a.latch = x.at_.latch ∧ a.lanes = m &&& ~~~g.abs x.done := by
  rw [Warp.sentBack, if_neg hd, if_neg hcode]
  exact ⟨_, standPast_resume (mem_standAt hm) _ _, rfl, rfl, rfl, rfl, rfl⟩

/-- Those that are done stand at the next slot (R363). -/
theorem sentBack_past (hm : m &&& g.abs x.done ≠ 0) (hmore : x.at_.slot < x.at_.cnt) : ∃ a ∈ (v.sentBack g m x).resume, a.hdr = x.at_.hdr ∧
    a.slot = x.at_.slot + 1 ∧ a.words = x.at_.words ∧ a.latch = x.after ∧ a.lanes = m &&& g.abs x.done := by
  rw [Warp.sentBack, if_neg hd, if_neg hcode, Warp.stoodBack, Warp.standPast, if_neg hm, if_neg (Nat.not_le.2 hmore)]
  exact ⟨_, mem_standAt hm, rfl, rfl, rfl, rfl, rfl⟩

end

/-! ### The return as an instruction -/

/-- A warp slot without what its lanes had under way under the handler. -/
def Warp.quitHandler (wp : Warp) (m : Mask) : Warp :=
  { wp with
    holds := wp.holds.filter fun h => !m.getLsbD h.1
    resume := (wp.resume.map fun (a : ClauseAt) => { a with lanes := a.lanes &&& ~~~m }).filter fun a => a.lanes != 0
    via := wp.via.filter fun v => !m.getLsbD v.1 }

/-- A slot in which no result is due shows nothing at a flush. -/
theorem flush_idle {wp : Warp} (h : wp.clauseAt.pend = []) : wp.flush = wp := by
  have hclause : (wp.clause.map fun (c : Clause) => { c with at_ := { c.at_ with pend := [] } }) = wp.clause := by
    cases hc : wp.clause with
    | none => rfl
    | some c =>
      have hpend : c.at_.pend = [] := by
        rw [Warp.clauseAt, hc] at h
        exact h
      rw [Option.map_some, ← hpend]
  rw [Warp.flush, h]
  show ({ wp with clause := wp.clause.map fun (c : Clause) => { c with at_ := { c.at_ with pend := [] } } } : Warp) = wp
  rw [hclause]

section
variable {wp : Warp} {g : Seg} {r : TrapRec} (hg : wp.segAt g.lbase = some g) (hr : g.record = some r)
include hg hr

/-- A return: what the lanes had under way goes, the copies come back, and the lanes go on. -/
theorem leaveHandler_eq : wp.leaveHandler g.lbase = (((wp.quitHandler (g.abs r.cause.lanes)).restored g.lbase (g.abs r.cause.lanes &&& wp.live)
    r).sentBack g (g.abs r.cause.lanes &&& wp.live) r.cause).onSeg g.lbase Seg.nextCause := by
  unfold Warp.leaveHandler
  rw [hg]
  dsimp only
  rw [hr]
  exact congrArg (Warp.onSeg · g.lbase Seg.nextCause) (returnTo_eq (wp := wp.quitHandler (g.abs r.cause.lanes)) hg hr)

omit hr in
theorem restored_rested (hc : g.cause = none) (hq : g.queue = []) (m : Mask) :
    ∃ k, (wp.restored g.lbase m r).segAt g.lbase = some k ∧ k.Rested r.udepth (g.backGrade r) :=
  ⟨_, segAt_onSeg ({ wp with regs := (List.range 128).map (wp.backReg m r) } : Warp) g.lbase _ g hg fun _ => rfl, hc, hq, rfl, rfl, rfl⟩

end

theorem restored_reg (wp : Warp) (lb : Nat) (m : Mask) (r : TrapRec) (n : Nat) (hn : n < 128) : (wp.restored lb m r).reg n = wp.backReg m r n := by
  show ((List.range 128).map (wp.backReg m r)).getD n VReg.reset = _
  rw [List.getD_eq_getElem?_getD, List.getElem?_map, List.getElem?_range hn]
  rfl

theorem backReg_word (wp : Warp) (m : Mask) (r : TrapRec) {n l : Nat} (hn : 118 ≤ n) (hl : l < 64) : (wp.backReg m r n).word l =
    if m.getLsbD l then (r.saved.getD (n - 118) VReg.reset).word l else (wp.reg n).word l := by
  rw [Warp.backReg, if_neg (by omega)]
  exact allLanes_map_getD (fun l => if m.getLsbD l then (r.saved.getD (n - 118) VReg.reset).word l else (wp.reg n).word l) 0 l hl

/-- `RTT` of the one segment whose lanes execute (R254). -/
theorem execRtt_one {s : State} {p : Pre} {g : Seg} {r : TrapRec} (hin : s.curWarp.segsIn (s.curWarp.execMask p) = [g])
    (hgrade : g.firmware = true ∨ g.handler &&& g.rel (s.curWarp.execMask p) ≠ 0) (hr : g.record = some r) :
    execRtt p s = .next (((s.onWarp s.cur Warp.flush).onWarp s.cur fun wp => wp.leaveHandler g.lbase).announce s.cur g.lbase) := by
  have hgo : (!g.firmware && g.handler &&& g.rel (s.curWarp.execMask p) == 0) = false := by
    rcases hgrade with h | h
    · rw [h]
      rfl
    · rw [beq_false_of_ne h, Bool.and_false]
  unfold execRtt
  dsimp only
  rw [hin, List.foldl_cons, List.foldl_nil, hgo, if_neg Bool.false_ne_true, hr, if_neg (by simp)]
  rfl

/-- Settles O21: the copies come back, and the lanes go on by the kind of the cause. -/
theorem handlerReturn : Obligations.HandlerReturn := by
  unfold Obligations.HandlerReturn
  intro s p g r wp m k x past owed hg hin hgrade hr hc hq hpend hk
  have hwarp : (((s.onWarp s.cur Warp.flush).onWarp s.cur fun wp => wp.leaveHandler g.lbase).warp s.cur) = wp.leaveHandler g.lbase := by
    rw [warp_onWarp_same, warp_onWarp_same]
    exact congrArg (Warp.leaveHandler · g.lbase) (flush_idle hpend)
  have hleft := leaveHandler_eq hg hr
  generalize hv : (wp.quitHandler (g.abs r.cause.lanes)).restored g.lbase k r = v at hleft
  have hshown : v.Shown owed (v.sentBack g k x) := sentBack_shown v g k x
  obtain ⟨h, hseg, hrest⟩ := sentBack_rested v g k x (hv ▸ restored_rested (wp := wp.quitHandler (g.abs r.cause.lanes)) (r := r) hg hc hq k)
  have hafter : (((v.sentBack g k x).onSeg g.lbase Seg.nextCause).segAt g.lbase) = some h := by
    rw [segAt_onSeg _ _ _ h hseg nextCause_lbase, nextCause_calm hrest.record hrest.queue]
  have hstep := execRtt_one hin hgrade hr
  rw [announce_calm ((congrArg (Warp.segAt · g.lbase) (hwarp.trans hleft)).trans hafter) hrest.cause] at hstep
  refine ⟨_, hstep, (apart_onWarp_of _ s.cur _).trans (apart_onWarp_of s s.cur _), ?_⟩
  have hcur : ((s.onWarp s.cur Warp.flush).onWarp s.cur fun wp => wp.leaveHandler g.lbase).curWarp = _ := hwarp.trans hleft
  generalize ((s.onWarp s.cur Warp.flush).onWarp s.cur fun wp => wp.leaveHandler g.lbase).curWarp = u at hcur ⊢
  generalize hb : v.sentBack g k x = b at hshown hafter hcur
  subst hcur
  refine ⟨?_, ⟨h, hafter, hrest.record, hrest.cause, hrest.udepth, hrest.handler⟩, fun n hn => ?_, fun n l howed hlo hhi hl => ?_,
    fun hd l hl => ?_, fun hd howed l hl => ?_, fun hd hcode => ⟨fun hm => ?_, fun hm hmore => ?_⟩⟩
  · exact hshown.preds.trans (applyEnd_preds_congr (hv ▸ rfl) owed)
  · refine (hshown.regs n (by omega)).trans (applyEnd_reg_congr (by omega) ?_ owed)
    rw [← hv, restored_reg _ _ _ _ _ (by omega), Warp.backReg, if_pos hn]
    rfl
  · refine (congrArg (VReg.word · l) (hshown.regs n hhi)).trans ?_
    rw [howed]
    show (v.reg n).word l = _
    rw [← hv, restored_reg _ _ _ _ _ hhi, backReg_word _ _ _ hlo hl]
    rfl
  · rw [← hb]
    exact sentBack_deferred v g k x hd hl
  · rw [← hb]
    exact sentBack_next v g k x hd howed hl
  · rw [← hb]
    exact sentBack_again v g k x hd hcode hm
  · rw [← hb]
    exact sentBack_past v g k x hd hcode hm hmore

end Sys2Proof.Machine
end

section
/-! SUPPORT. An `ENQ` whose record lies on the stack, in a line at whose home slice another operation waits (R161, R170, R226). -/

namespace Sys2Proof.Machine

/-- A launch of one group of one segment, whose stacks begin at address 0. -/
def stackLaunch : Launch where
  ctx := 0
  fn := 0
  die := 0
  entry := 0
  args := 0
  gaff := 0
  groups := 1
  width := 64
  segs := 1
  gm := 1
  gn := 1
  reach := .core
  gang := false
  spu := 0
  acc := 0
  prio := 0
  stack := some 0
  kern := ⟨0, 0, 0, []⟩
  text := 0
  job := none
  taskq := none
  dcdone := noCtr
  ended := 0

/-- The group of that launch, on core 0. -/
def stackGroup : Group where
  launch := 0
  unit := 0
  grp := 0
  gmem := 0
  core := 0
  gen := 0
  spadBase := 0
  tiles := []
  queues := []
  gals := []
  vcore := 0
  pkg := 0
  vslots := 1
  segSlots := [0]
  placed := true
  area := 0
  released := false
  passed := []
  drops := 0
  gcores := 1
  gquads := 1
  notices := []

/-- An empty worker queue. -/
def workerQueue : TaskQ := ⟨true, 8, false, none, []⟩

/-- A load of another warp that waits at the home slice of line 0. -/
def waitingOp : HomeOp := ⟨1, 0, false, 0, .hbm 0, 0, 4, .exch false, 0, 0, 0, .none⟩

/-- A warp of which lane 0 stands alone at a slot, with the first address of its stack in `v4` and `v5`; the record there waits on no counter and
counts none down. -/
def stackRecord : State :=
  let s := State.reset.withFetchWord 64 0
  { s.onWarp 0 fun wp => { wp.setReg 5 ⟨.general, [0xFFFF_FF80]⟩ with live := 1 } with
    mem := (List.range 8).map fun k => (24 + k, 255)
    launches := [(0, stackLaunch)]
    groups := [(0, stackGroup)]
    taskqs := [(0, workerQueue)]
    homeOps := [waitingOp] }

/-- `ENQ` of the record at the address in `v4` and `v5` to worker queue 0. -/
def enqStack : Instr := .enq unguarded (.v 4) .vz

/-- The read of the record waits at its home slice, and no store is on its way. -/
theorem enqStack_waits : Completes enqStack stackRecord fun t => t.curWarp.stCnt = 0 :=
  completes_of_runsTo _ _ _ (by decide +kernel)

theorem stackRecord_seg : (stackRecord.curWarp.segAt 0).isSome = true := by decide +kernel

/-- The one segment of the warp. -/
def stackSeg : Seg := (stackRecord.curWarp.segAt 0).get stackRecord_seg

theorem stackRecord_alone : Alone stackRecord stackSeg (stackRecord.curWarp.execMask unguarded) := by
  refine ⟨by decide +kernel, fun l hl => ?_, by decide +kernel, by decide +kernel, by decide +kernel, by decide +kernel, by decide +kernel⟩
  have hall : ∀ l < 64, stackRecord.curWarp.segOf l = some stackSeg := by decide +kernel
  exact hall l (lane_lt _ l hl)

/-- What the record at the address reads as. -/
theorem stackRecord_reads : (stackRecord.readStruct stackRecord.cur 0 (stackRecord.curWarp.val64 (.v 4) 0)).toOption.map (fun r => (taskOf r 0 0).dcw) =
    some noCtr := by decide +kernel

theorem stackRecord_clause : ∃ cl, stackRecord.curWarp.clause = some cl ∧ cl.turns = 0 ∧ cl.resId = 0 := by
  have hclause : (stackRecord.curWarp.clause.map fun c => (c.turns, c.resId)) = some (0, 0) := by decide +kernel
  obtain ⟨cl, hcl, heq⟩ := Option.map_eq_some_iff.1 hclause
  exact ⟨cl, hcl, congrArg Prod.fst heq, congrArg Prod.snd heq⟩

/-- Refutes O33. What it says of `ENQ` asks for no free home slice where the record lies on the stack; in `stackRecord` another operation waits there,
and the slot is held. -/
theorem not_taskQueues : ¬Obligations.TaskQueues := by
  unfold Obligations.TaskQueues
  intro h
  obtain ⟨u, hu, hcount⟩ := enqStack_waits
  obtain ⟨cl, hcl, hturns, hres⟩ := stackRecord_clause
  have hread := stackRecord_reads
  cases hr : stackRecord.readStruct stackRecord.cur 0 (stackRecord.curWarp.val64 (.v 4) 0) with
  | error e =>
    rw [hr] at hread
    cases hread
  | ok r =>
    rw [hr] at hread
    obtain ⟨henq, -⟩ := h stackRecord unguarded .vz (.v 4) .vz stackSeg 0 0 workerQueue cl stackRecord_alone (by decide +kernel) (by decide +kernel)
      (by decide +kernel) hcl hturns hres (by decide +kernel) (by decide +kernel)
    obtain ⟨t, ht, -, hstCnt, -⟩ := henq r (by decide +kernel) rfl (by decide +kernel) (by decide +kernel) hr (Option.some.inj hread) (by decide +kernel)
    obtain rfl : u = t := Host.Outcome.next.inj (hu.symm.trans ht)
    rw [hcount] at hstCnt
    exact absurd hstCnt (by decide +kernel)

end Sys2Proof.Machine
end

section
/-! SUPPORT. Dependence counters: the values that a counter takes as lanes act one after another (R228, R363). -/

namespace Sys2Proof.Machine

/-! ### The counters as a table -/

/-- A counter with a new value: at 0 no task waits on it any more. -/
def DepCtr.take (c : DepCtr) (v : Word) : DepCtr := ⟨v, if v = 0 then [] else c.waiting⟩

/-- The counter that an id names, in a table. -/
def ctrAt (cs : Tab DepCtr) (id : Word) : Option (Nat × DepCtr) := (ctrKey id).bind fun k => (cs.find k).map fun c => (k, c)

/-- The counters, and the lanes that are refused with the value that they found, once one lane has acted. -/
def ctrStep (id : Nat → Word) (f : Nat → Word → Option Word) (acc : Tab DepCtr × Tab Word) (l : Nat) : Tab DepCtr × Tab Word :=
  match ctrAt acc.1 (id l) with
  | none => acc
  | some (key, c) =>
    match f l c.val with
    | some v => (acc.1.put key (c.take v), acc.2)
    | none => (acc.1, acc.2.put l c.val)

/-- The values that a counter takes, from `v` on, as the lanes of a list act. -/
def ctrVals (f : Nat → Word → Option Word) : Word → List Nat → List Word
  | _, [] => []
  | v, l :: ls =>
    match f l v with
    | some u => u :: ctrVals f u ls
    | none => ctrVals f v ls

/-- The lanes whose id names the counter at a key. -/
def ctrLanes (id : Nat → Word) (key : Nat) (ls : List Nat) : List Nat := ls.filter fun l => ctrKey (id l) == some key

/-- A counter that has taken some values. -/
def DepCtr.after (c : DepCtr) (vs : List Word) : DepCtr := ⟨vs.getLast?.getD c.val, if (0 : Word) ∈ vs then [] else c.waiting⟩

theorem after_cons (c : DepCtr) (v : Word) (vs : List Word) : (c.take v).after vs = c.after (v :: vs) := by
  unfold DepCtr.after DepCtr.take
  rw [List.getLast?_cons, Option.getD_some]
  by_cases hv : v = 0
  · simp [hv]
  · have hzero : ¬v = 0#32 := hv
    have hzero' : ¬0#32 = v := fun h => hv h.symm
    simp [hzero, hzero']

section
variable (id : Nat → Word) (f : Nat → Word → Option Word)

/-- Each counter takes the values of the lanes that name it, in their order. -/
theorem ctrSteps_find (ls : List Nat) (acc : Tab DepCtr × Tab Word) {key : Nat} {c : DepCtr} (hc : acc.1.find key = some c) :
    (ls.foldl (ctrStep id f) acc).1.find key = some (c.after (ctrVals f c.val (ctrLanes id key ls))) := by
  induction ls generalizing acc c with
  | nil => exact hc
  | cons l ls ih =>
    rw [List.foldl_cons]
    by_cases hl : ctrKey (id l) = some key
    · have hat : ctrAt acc.1 (id l) = some (key, c) := by rw [ctrAt, hl, Option.bind_some, hc, Option.map_some]
      have hlanes : ctrLanes id key (l :: ls) = l :: ctrLanes id key ls := List.filter_cons_of_pos (by simp [hl])
      rw [hlanes, ctrVals, ctrStep, hat]
      dsimp only
      cases hv : f l c.val with
      | none => exact ih _ hc
      | some v => exact (ih _ (tab_find_put_same _ _ _)).trans (congrArg some (after_cons c v _))
    · have hlanes : ctrLanes id key (l :: ls) = ctrLanes id key ls := List.filter_cons_of_neg (by simp [hl])
      rw [hlanes]
      refine ih _ ?_
      rw [ctrStep, ctrAt]
      cases hk : ctrKey (id l) with
      | none => exact hc
      | some k =>
        have hne : key ≠ k := fun h => hl (h ▸ hk)
        rw [Option.bind_some]
        cases acc.1.find k with
        | none => exact hc
        | some d =>
          rw [Option.map_some]
          dsimp only
          split
          · exact (tab_find_put_other _ _ _ _ hne).trans hc
          · exact hc

end

/-! ### The values of each instruction -/

theorem ctrVals_set (g : Nat → Word) (v : Word) (ls : List Nat) : ctrVals (fun l _ => some (g l)) v ls = ls.map g := by
  induction ls generalizing v with
  | nil => rfl
  | cons l ls ih => exact congrArg (g l :: ·) (ih (g l))

/-- The sum at a counter, in range, or none (R228). -/
def ctrSum (g : Nat → Word) (l : Nat) (c : Word) : Option Word :=
  if 0 ≤ (c.toNat : Int) + (g l).toInt ∧ (c.toNat : Int) + (g l).toInt < 2 ^ 32 then some (BitVec.ofInt 32 ((c.toNat : Int) + (g l).toInt)) else none

theorem ofInt_toNat {x : Int} (hlo : 0 ≤ x) (hhi : x < 2 ^ 32) : ((BitVec.ofInt 32 x).toNat : Int) = x := by
  rw [BitVec.toNat_ofInt]
  omega

theorem ctrVals_sum (g : Nat → Word) (v : Word) (ls : List Nat)
    (h : ∀ n ≤ ls.length, 0 ≤ (v.toNat : Int) + ((ls.take n).map fun l => (g l).toInt).sum ∧
      (v.toNat : Int) + ((ls.take n).map fun l => (g l).toInt).sum < 2 ^ 32) :
    ctrVals (ctrSum g) v ls =
      (List.range ls.length).map fun n => BitVec.ofInt 32 ((v.toNat : Int) + ((ls.take (n + 1)).map fun l => (g l).toInt).sum) := by
  induction ls generalizing v with
  | nil => rfl
  | cons l ls ih =>
    have hfirst : 0 ≤ (v.toNat : Int) + (g l).toInt ∧ (v.toNat : Int) + (g l).toInt < 2 ^ 32 := by simpa using h 1 (by simp)
    have hval := ofInt_toNat hfirst.1 hfirst.2
    rw [ctrVals, ctrSum, if_pos hfirst]
    dsimp only
    rw [ih, List.length_cons, List.range_succ_eq_map, List.map_cons, List.map_map]
    · refine congrArg₂ List.cons (by simp) (List.map_congr_left fun n _ => ?_)
      rw [hval]
      simp [Int.add_assoc]
    · intro n hn
      rw [hval]
      have hnext := h (n + 1) (by simpa using hn)
      simpa [Int.add_assoc] using hnext

/-- The value below a counter's, or none at 0 (R228). -/
def ctrBelow (_ : Nat) (c : Word) : Option Word := if c = 0 then none else some (c - 1)

theorem ctrVals_below (v : Word) (ls : List Nat) (h : ls.length ≤ v.toNat) :
    ctrVals ctrBelow v ls = (List.range ls.length).map fun n => v - BitVec.ofNat 32 (n + 1) := by
  induction ls generalizing v with
  | nil => rfl
  | cons l ls ih =>
    rw [List.length_cons] at h
    have hne : v ≠ 0 := fun hz => by rw [hz] at h; exact absurd h (by simp)
    have hval : (v - 1).toNat = v.toNat - 1 := by bv_omega
    rw [ctrVals, ctrBelow, if_neg hne]
    dsimp only
    rw [ih _ (by omega), List.length_cons, List.range_succ_eq_map, List.map_cons, List.map_map]
    refine congrArg₂ List.cons rfl (List.map_congr_left fun n _ => ?_)
    simp only [Function.comp_apply, Nat.succ_eq_add_one]
    rw [BitVec.sub_sub, BitVec.add_comm 1]
    exact congrArg (v - ·) (BitVec.ofNat_add (n + 1) 1).symm

/-! ### The counters of the module -/

theorem makeReady_beside (s : State) (key : Nat) (t : Task) : Beside s (s.makeReady key t) ∧ (s.makeReady key t).depctrs = s.depctrs := by
  have hpost : ∀ (u : State) (code : Nat) (i : LogInfo), Beside u (u.post code i) ∧ (u.post code i).depctrs = u.depctrs := fun u code i => by
    obtain ⟨_, _, _, _, h⟩ := post_told u code i
    rw [h]
    exact ⟨⟨rfl, rfl, rfl, rfl⟩, rfl⟩
  unfold State.makeReady
  split
  · exact ⟨⟨rfl, rfl, rfl, rfl⟩, rfl⟩
  dsimp only
  split
  · exact ⟨⟨rfl, rfl, rfl, rfl⟩, rfl⟩
  split
  · obtain ⟨⟨hcur, hwarps, hmem, hspad⟩, hctrs⟩ := hpost s.fresh.2 0x23 { addr := t.entry, fn := t.fn, ctx := t.ctx, die := key / 256, detail := Config.openDetail 0x23 }
    exact ⟨⟨hcur, hwarps, hmem, hspad⟩, hctrs⟩
  split
  · obtain ⟨⟨hcur, hwarps, hmem, hspad⟩, hctrs⟩ := hpost s.fresh.2.fresh.2 0x49 { addr := t.entry, fn := t.fn, ctx := t.ctx, die := key / 256, detail := Config.openDetail 0x49 }
    exact ⟨⟨hcur, hwarps, hmem, hspad⟩, hctrs⟩
  · exact ⟨⟨rfl, rfl, rfl, rfl⟩, rfl⟩

theorem Beside.refl (s : State) : Beside s s := ⟨rfl, rfl, rfl, rfl⟩

theorem Beside.trans {s t u : State} (a : Beside s t) (b : Beside t u) : Beside s u :=
  ⟨b.cur.trans a.cur, b.warps.trans a.warps, b.mem.trans a.mem, b.spad.trans a.spad⟩

section
variable {s : State} {key : Nat} {c : DepCtr} (hc : s.depctrs.find key = some c)
include hc

/-- A counter takes a value: the tasks that wait on it at 0 go elsewhere. -/
theorem setCtr_beside (v : Word) : Beside s (s.setCtr key v) ∧ (s.setCtr key v).depctrs = s.depctrs.put key (c.take v) := by
  unfold State.setCtr
  rw [hc]
  dsimp only
  split
  · next hv =>
    refine List.foldlRecOn (motive := fun u : State => Beside s u ∧ u.depctrs = s.depctrs.put key (c.take v)) _ _ ⟨⟨rfl, rfl, rfl, rfl⟩, ?_⟩ fun u hu t _ => ?_
    · rw [DepCtr.take, if_pos hv]
    · obtain ⟨hbeside, hctrs⟩ := makeReady_beside u t.1 t.2
      exact ⟨hu.1.trans hbeside, hctrs.trans hu.2⟩
  · next hv =>
    refine ⟨⟨rfl, rfl, rfl, rfl⟩, ?_⟩
    rw [DepCtr.take, if_neg hv]

/-- Without a task that becomes ready nothing else happens. -/
theorem setCtr_quiet (v : Word) (h : v = 0 → c.waiting = []) : s.setCtr key v = { s with depctrs := s.depctrs.put key (c.take v) } := by
  unfold State.setCtr
  rw [hc]
  dsimp only
  split
  · next hv => rw [h hv, DepCtr.take, if_pos hv, List.foldl_nil]
  · next hv => rw [DepCtr.take, if_neg hv]

end

/-! ### The turns of the lanes -/

/-- A change of segments that concerns the mark of their progress alone (R374). -/
def Marks (f : Seg → Seg) : Prop := ∀ x, ∃ p b, f x = { x with progress := p, bc := b }

theorem Marks.refl : Marks id := fun _ => ⟨_, _, rfl⟩

theorem Marks.comp {f g : Seg → Seg} (hg : Marks g) (hf : Marks f) : Marks (g ∘ f) := fun x => by
  obtain ⟨_, _, hx⟩ := hf x
  obtain ⟨p, b, hy⟩ := hg (f x)
  exact ⟨p, b, by rw [Function.comp_apply, hy, hx]⟩

theorem Marks.keepsGrade {f : Seg → Seg} (hf : Marks f) : KeepsGrade f := by
  refine ⟨fun x => ?_, fun x => ?_, fun x => ?_, fun x => ?_, fun x => ?_⟩ <;>
    · obtain ⟨_, _, hx⟩ := hf x
      rw [hx]

theorem progress_marks (wp : Warp) (m : Mask) : ∃ f, Marks f ∧ wp.progress m = wp.onSegs f := by
  refine ⟨_, fun x => ?_, rfl⟩
  split
  · exact ⟨_, _, rfl⟩
  · exact ⟨_, _, rfl⟩

theorem onSegs_onSegs (wp : Warp) (f g : Seg → Seg) : (wp.onSegs f).onSegs g = wp.onSegs (g ∘ f) := by
  simp only [Warp.onSegs, List.map_map]

theorem onSegs_id (wp : Warp) : wp.onSegs id = wp := by
  simp only [Warp.onSegs, List.map_id_fun, id]

/-- `u` is `s` after some turns: but for tasks, counters and marks of progress, what the warp reads is as it was. -/
structure Turned (s u : State) : Prop where
  cur : u.cur = s.cur
  mem : u.mem = s.mem
  spad : u.spad = s.spad
  warp : ∃ f, Marks f ∧ u.curWarp = s.curWarp.onSegs f

theorem Turned.refl (s : State) : Turned s s := ⟨rfl, rfl, rfl, id, .refl, (onSegs_id _).symm⟩

theorem Turned.trans {s t u : State} (a : Turned s t) (b : Turned t u) : Turned s u := by
  obtain ⟨f, hf, hw⟩ := a.warp
  obtain ⟨g, hg, hv⟩ := b.warp
  exact ⟨b.cur.trans a.cur, b.mem.trans a.mem, b.spad.trans a.spad, g ∘ f, hg.comp hf, by rw [hv, hw, onSegs_onSegs]⟩

theorem Beside.turned {s u : State} (h : Beside s u) (m : Mask) : Turned s (u.onWarp u.cur fun wp => wp.progress m) := by
  obtain ⟨f, hf, hw⟩ := progress_marks u.curWarp m
  exact ⟨h.cur, h.mem, h.spad, f, hf, by rw [Machine.curWarp_onWarp, hw, h.curWarp]⟩

/-- One lane's turn (R363). -/
def ctrTurn (w : Nat) (id : Nat → Word) (f : Nat → Word → Option Word) (acc : State × Tab Word) (l : Nat) : State × Tab Word :=
  match acc.1.depctr (id l) with
  | none => acc
  | some (key, c) =>
    match f l c.val with
    | some v => ((acc.1.setCtr key v).onWarp w fun wp => wp.progress (laneBit l), acc.2)
    | none => (acc.1, acc.2.put l c.val)

section
variable (id : Nat → Word) (f : Nat → Word → Option Word)

theorem ctrAt_find {cs : Tab DepCtr} {i : Word} {key : Nat} {c : DepCtr} (h : ctrAt cs i = some (key, c)) : ctrKey i = some key ∧ cs.find key = some c := by
  obtain ⟨k, hk, hc⟩ := Option.bind_eq_some_iff.1 h
  obtain ⟨d, hd, heq⟩ := Option.map_eq_some_iff.1 hc
  cases heq
  exact ⟨hk, hd⟩

/-- A turn does to the counters what it should. -/
theorem ctrTurn_step (acc : State × Tab Word) (l : Nat) : Turned acc.1 (ctrTurn acc.1.cur id f acc l).1 ∧
    ((ctrTurn acc.1.cur id f acc l).1.depctrs, (ctrTurn acc.1.cur id f acc l).2) = ctrStep id f (acc.1.depctrs, acc.2) l := by
  rw [ctrTurn, ctrStep, show acc.1.depctr (id l) = ctrAt acc.1.depctrs (id l) from rfl]
  cases h : ctrAt acc.1.depctrs (id l) with
  | none => exact ⟨.refl _, rfl⟩
  | some x =>
    obtain ⟨key, c⟩ := x
    obtain ⟨-, hc⟩ := ctrAt_find h
    dsimp only
    cases f l c.val with
    | none => exact ⟨.refl _, rfl⟩
    | some v =>
      obtain ⟨hbeside, hctrs⟩ := setCtr_beside hc v
      exact ⟨hbeside.cur ▸ hbeside.turned (laneBit l), congrArg (·, acc.2) hctrs⟩

theorem ctrTurns_steps (ls : List Nat) (acc : State × Tab Word) : Turned acc.1 (ls.foldl (ctrTurn acc.1.cur id f) acc).1 ∧
    ((ls.foldl (ctrTurn acc.1.cur id f) acc).1.depctrs, (ls.foldl (ctrTurn acc.1.cur id f) acc).2) =
      ls.foldl (ctrStep id f) (acc.1.depctrs, acc.2) := by
  induction ls generalizing acc with
  | nil => exact ⟨.refl _, rfl⟩
  | cons l ls ih =>
    obtain ⟨hturned, hstep⟩ := ctrTurn_step id f acc l
    obtain ⟨hrest, hsteps⟩ := ih (ctrTurn acc.1.cur id f acc l)
    rw [hturned.cur] at hrest hsteps
    exact ⟨hturned.trans hrest, hsteps.trans (congrArg (ls.foldl (ctrStep id f)) hstep)⟩

/-- A counter reaches 0 only if no task waits on it. -/
def CtrsQuiet (cs : Tab DepCtr) (ls : List Nat) : Prop :=
  ∀ key c, cs.find key = some c → (0 : Word) ∈ ctrVals f c.val (ctrLanes id key ls) → c.waiting = []

/-- Each lane of a list that names a counter is let act. -/
def CtrsFree (cs : Tab DepCtr) (ls : List Nat) : Prop :=
  ∀ key c, cs.find key = some c → (ctrVals f c.val (ctrLanes id key ls)).length = (ctrLanes id key ls).length

theorem ctrLanes_cons_same {key l : Nat} (h : ctrKey (id l) = some key) (ls : List Nat) : ctrLanes id key (l :: ls) = l :: ctrLanes id key ls :=
  List.filter_cons_of_pos (by simp [h])

theorem ctrLanes_cons_other {key l : Nat} (h : ctrKey (id l) ≠ some key) (ls : List Nat) : ctrLanes id key (l :: ls) = ctrLanes id key ls :=
  List.filter_cons_of_neg (by simp [h])

theorem ctrVals_length (v : Word) (ls : List Nat) : (ctrVals f v ls).length ≤ ls.length := by
  induction ls generalizing v with
  | nil => exact Nat.le_refl 0
  | cons l ls ih =>
    rw [ctrVals, List.length_cons]
    split
    · rw [List.length_cons]
      exact Nat.succ_le_succ (ih _)
    · exact Nat.le_succ_of_le (ih v)

/-- What is so of the values of each counter in a list is so in the rest of it, if a lane that acts makes it so. -/
theorem ctrs_rest {cs : Tab DepCtr} {R : DepCtr → List Word → List Nat → Prop} {l : Nat} {ls : List Nat} {key : Nat} {c : DepCtr} {v : Word}
    (hkey : ctrKey (id l) = some key) (hc : cs.find key = some c) (hv : f l c.val = some v)
    (hR : R c (v :: ctrVals f v (ctrLanes id key ls)) (l :: ctrLanes id key ls) → R (c.take v) (ctrVals f v (ctrLanes id key ls)) (ctrLanes id key ls))
    (h : ∀ k d, cs.find k = some d → R d (ctrVals f d.val (ctrLanes id k (l :: ls))) (ctrLanes id k (l :: ls))) :
    ∀ k d, (cs.put key (c.take v)).find k = some d → R d (ctrVals f d.val (ctrLanes id k ls)) (ctrLanes id k ls) := by
  intro k d hd
  by_cases hk : k = key
  · subst hk
    rw [tab_find_put_same] at hd
    obtain rfl := Option.some.inj hd
    have hfirst := h k c hc
    rw [ctrLanes_cons_same id hkey, ctrVals, hv] at hfirst
    exact hR hfirst
  · rw [tab_find_put_other _ _ _ _ hk] at hd
    have hother : ctrKey (id l) ≠ some k := fun h => hk (Option.some.inj (h.symm.trans hkey))
    rw [← ctrLanes_cons_other id hother ls]
    exact h k d hd

/-- No lane is refused that is let act. -/
theorem ctrSteps_free (ls : List Nat) (acc : Tab DepCtr × Tab Word) (h : CtrsFree id f acc.1 ls) : (ls.foldl (ctrStep id f) acc).2 = acc.2 := by
  induction ls generalizing acc with
  | nil => rfl
  | cons l ls ih =>
    rw [List.foldl_cons]
    have hskip (hnone : ctrAt acc.1 (id l) = none) : CtrsFree id f acc.1 ls := fun key c hc => by
      have hother : ctrKey (id l) ≠ some key := fun hk => by
        rw [ctrAt, hk, Option.bind_some, hc] at hnone
        cases hnone
      rw [← ctrLanes_cons_other id hother ls]
      exact h key c hc
    unfold ctrStep
    cases hat : ctrAt acc.1 (id l) with
    | none => exact ih acc (hskip hat)
    | some x =>
      obtain ⟨key, c⟩ := x
      obtain ⟨hkey, hc⟩ := ctrAt_find hat
      dsimp only
      cases hv : f l c.val with
      | none =>
        have hlen := h key c hc
        rw [ctrLanes_cons_same id hkey, ctrVals, hv] at hlen
        have := ctrVals_length f c.val (ctrLanes id key ls)
        rw [List.length_cons] at hlen
        dsimp only at hlen
        omega
      | some v =>
        exact ih _ (ctrs_rest id f (R := fun _ vs ms => vs.length = ms.length) hkey hc hv (fun hR => Nat.succ.inj hR) h)

/-- Apart from the warp slot, only the counters have changed. -/
theorem apart_ctrs (s : State) (cs ds : Tab DepCtr) (g : Warp → Warp) :
    ({ ({ s with depctrs := cs } : State).onWarp s.cur g with depctrs := ds } : State).apart s.cur = ({ s with depctrs := ds } : State).apart s.cur :=
  congrArg (fun u : State => { u with depctrs := ds }) (apart_onWarp_of s s.cur g)

/-- Turns at which no task becomes ready change counters and marks of progress alone. -/
theorem ctrTurns_quiet (ls : List Nat) (s : State) (r : Tab Word) (h : CtrsQuiet id f s.depctrs ls) :
    ∃ g, Marks g ∧ Puts { s with depctrs := (ls.foldl (ctrStep id f) (s.depctrs, r)).1 } (ls.foldl (ctrTurn s.cur id f) (s, r)).1 (s.curWarp.onSegs g) := by
  induction ls generalizing s r with
  | nil => exact ⟨_, .refl, rfl, (onSegs_id _).symm⟩
  | cons l ls ih =>
    rw [List.foldl_cons, List.foldl_cons]
    have hskip (hother : ∀ key c, s.depctrs.find key = some c → ctrKey (id l) ≠ some key ∨ f l c.val = none) :
        CtrsQuiet id f s.depctrs ls := fun key c hc hz => by
      refine h key c hc ?_
      by_cases hkey : ctrKey (id l) = some key
      · rw [ctrLanes_cons_same id hkey, ctrVals, (hother key c hc).resolve_left (not_not_intro hkey)]
        exact hz
      · rwa [ctrLanes_cons_other id hkey]
    cases hat : ctrAt s.depctrs (id l) with
    | none =>
      rw [show ctrTurn s.cur id f (s, r) l = (s, r) by rw [ctrTurn, show s.depctr (id l) = none from hat], show ctrStep id f (s.depctrs, r) l =
        (s.depctrs, r) by rw [ctrStep, hat]]
      refine ih s r (hskip fun key c hc => .inl fun hk => ?_)
      rw [ctrAt, hk, Option.bind_some, hc] at hat
      cases hat
    | some x =>
      obtain ⟨key, c⟩ := x
      obtain ⟨hkey, hc⟩ := ctrAt_find hat
      cases hv : f l c.val with
      | none =>
        rw [show ctrTurn s.cur id f (s, r) l = (s, r.put l c.val) by simp only [ctrTurn, show s.depctr (id l) = some (key, c) from hat, hv],
          show ctrStep id f (s.depctrs, r) l = (s.depctrs, r.put l c.val) by simp only [ctrStep, hat, hv]]
        refine ih s _ (hskip fun k d hd => ?_)
        by_cases hk : k = key
        · subst hk
          exact .inr (Option.some.inj (hd.symm.trans hc) ▸ hv)
        · exact .inl fun h => hk (Option.some.inj (h.symm.trans hkey))
      | some v =>
        have hnext := ctrs_rest id f (R := fun c vs _ => (0 : Word) ∈ vs → c.waiting = []) hkey hc hv
          (fun hR hz => by
            have := hR (List.mem_cons_of_mem v hz)
            rw [DepCtr.take, this]
            exact ite_self [])
          h
        have hquiet : v = 0 → c.waiting = [] := fun hz => by
          refine h key c hc ?_
          rw [ctrLanes_cons_same id hkey, ctrVals, hv]
          exact List.mem_cons.2 (.inl hz.symm)
        rw [show ctrTurn s.cur id f (s, r) l =
            (({ s with depctrs := s.depctrs.put key (c.take v) } : State).onWarp s.cur fun wp => wp.progress (laneBit l), r) by
          simp only [ctrTurn, show s.depctr (id l) = some (key, c) from hat, hv, setCtr_quiet hc v hquiet],
          show ctrStep id f (s.depctrs, r) l = (s.depctrs.put key (c.take v), r) by simp only [ctrStep, hat, hv]]
        obtain ⟨g, hg, hapart, hwarp⟩ := ih (({ s with depctrs := s.depctrs.put key (c.take v) } : State).onWarp s.cur fun wp => wp.progress (laneBit l)) r hnext
        obtain ⟨k, hk, hprogress⟩ := progress_marks s.curWarp (laneBit l)
        refine ⟨g ∘ k, hg.comp hk, hapart.trans ?_, hwarp.trans ?_⟩
        · exact apart_ctrs s _ _ _
        · rw [← onSegs_onSegs, ← hprogress]
          exact congrArg (Warp.onSegs · g) (warp_onWarp_same _ s.cur _)

end

/-! ### The instruction -/

/-- The store counter counts a counter instruction, and the segments of the lanes that were refused take the cause (R363). -/
def State.ctrsEnd (s : State) (wp : Warp) (refused : Tab Word) : State :=
  let bad := refused.foldl (fun k r => k ||| laneBit r.1) 0
  (wp.segsIn bad).foldl (fun s g => s.takeAt s.cur g.lbase
    { code := 0x47, mask := g.rel bad, done := g.rel (wp.clauseAt.lanes &&& ~~~bad), after := wp.nextLatch
      detail := ((g.lead bad).bind fun l => refused.find l).getD 0 }) (s.onWarp s.cur fun wp' => wp'.addStore [] 0)

theorem segsIn_zero (wp : Warp) : wp.segsIn 0 = [] := List.filter_eq_nil_iff.2 fun g _ => by simp

theorem ctrsEnd_nil (s : State) (wp : Warp) : s.ctrsEnd wp [] = s.onWarp s.cur fun wp' => wp'.addStore [] 0 := by
  rw [State.ctrsEnd, List.foldl_nil, segsIn_zero]
  rfl

section
variable {s : State} {p : Pre} {a : Reg} {g : Seg} (ha : Alone s g (s.curWarp.execMask p)) (hact : s.curWarp.mayAct = true)
  (hst : s.curWarp.stCnt < 63) (hnamed : ∀ l, (s.curWarp.execMask p).getLsbD l = true → (s.depctr (s.curWarp.val32 a l)).isSome = true)
include ha hact hst hnamed

/-- A counter instruction once the warp may act, each of whose lanes names a counter. -/
theorem counterOp_eq (f : Nat → Word → Option Word) :
    let r := (lanesOf (s.curWarp.execMask p)).foldl (ctrTurn s.cur (s.curWarp.val32 a) f) (s, [])
    s.counterOp p a f = (r.1.ctrsEnd s.curWarp r.2).onWarp s.cur Warp.acted := by
  intro r
  have hm : s.curWarp.execMask p ≠ 0 := fun hz => ha.some_lane (by rw [ha.slots_and, hz])
  have hjudge := judgeSegs_good ha (f := fun t h => s.curWarp.raiseOf (s.curWarp.execMask p) h
    (fun l => if (t.depctr (s.curWarp.val32 a l)).isNone then some ⟨0x46, s.curWarp.val32 a l, 0, none⟩ else none) fun _ => 0)
    (raiseOf_none _ _ _ _ _ fun l hl => if_neg (by simp [Option.isSome_iff_ne_none.1 (hnamed l hl)]))
  unfold State.counterOp
  dsimp only
  rw [if_neg hm, if_neg (Nat.not_le.2 (show s.curWarp.stCnt < Config.counterTop from hst)), State.irrevocably, if_pos hact]
  rw [hjudge]
  dsimp only
  rw [if_neg hm]
  rfl

/-- Lanes that are all let act. -/
theorem counterOp_runs (f : Nat → Word → Option Word) (hfree : CtrsFree (s.curWarp.val32 a) f s.depctrs (lanesOf (s.curWarp.execMask p))) :
    (s.counterOp p a f).mem = s.mem ∧ (s.counterOp p a f).spad = s.spad ∧ (s.counterOp p a f).curWarp.regs = s.curWarp.regs ∧
      (s.counterOp p a f).curWarp.preds = s.curWarp.preds ∧ (s.counterOp p a f).curWarp.pcs = s.curWarp.pcs ∧
      (s.counterOp p a f).curWarp.stCnt = s.curWarp.stCnt + 1 ∧
      (∀ key c, s.depctrs.find key = some c → (s.counterOp p a f).depctrs.find key =
        some (c.after (ctrVals f c.val (ctrLanes (s.curWarp.val32 a) key (lanesOf (s.curWarp.execMask p)))))) ∧
      (CtrsQuiet (s.curWarp.val32 a) f s.depctrs (lanesOf (s.curWarp.execMask p)) →
        (s.counterOp p a f).taskqs = s.taskqs ∧ (s.counterOp p a f).intake = s.intake) := by
  have heq := counterOp_eq ha hact hst hnamed f
  have hquiet := ctrTurns_quiet (s.curWarp.val32 a) f (lanesOf (s.curWarp.execMask p)) s []
  have hfind := fun key c => ctrSteps_find (s.curWarp.val32 a) f (lanesOf (s.curWarp.execMask p)) (s.depctrs, []) (key := key) (c := c)
  obtain ⟨hturned, hsteps⟩ := ctrTurns_steps (s.curWarp.val32 a) f (lanesOf (s.curWarp.execMask p)) (s, [])
  have hnone := (congrArg Prod.snd hsteps).trans (ctrSteps_free _ f _ (s.depctrs, []) hfree)
  dsimp only at heq hturned hsteps hnone
  generalize (lanesOf (s.curWarp.execMask p)).foldl (ctrTurn s.cur (s.curWarp.val32 a) f) (s, []) = r at heq hturned hsteps hnone hquiet
  rw [hnone, ctrsEnd_nil, hturned.cur, onWarp_onWarp] at heq
  rw [heq]
  have hcur : (r.1.onWarp s.cur fun wp => (wp.addStore [] 0).acted).curWarp = (r.1.curWarp.addStore [] 0).acted := by
    rw [← hturned.cur, curWarp_onWarp]
  obtain ⟨k, -, hwarp⟩ := hturned.warp
  rw [hcur, hwarp]
  refine ⟨hturned.mem, hturned.spad, rfl, rfl, rfl, rfl, fun key c hc => ?_, fun hq => ?_⟩
  · rw [← hfind key c hc, ← hsteps]
    rfl
  · obtain ⟨_, _, hapart, -⟩ := hquiet hq
    exact ⟨(congrArg State.taskqs hapart :), (congrArg State.intake hapart :)⟩


end

/-! ### Refused lanes -/

/-- Fewer lanes of the segment. -/
theorem Alone.fewer {s : State} {g : Seg} {m k : Mask} (ha : Alone s g m) (hsub : k &&& ~~~m = 0) (hk : k ≠ 0) : Alone s g k := by
  have hin : m &&& k = k := by
    have := and_not_of_and_eq_zero hsub
    rwa [BitVec.not_not, BitVec.and_comm] at this
  have hof (x : Mask) : x &&& k = (x &&& m) &&& k := by rw [BitVec.and_assoc, hin]
  refine ⟨ha.here, ha.own, ?_, ?_, ha.inClause, ha.calm, ha.fits⟩
  · have honly := ha.only
    rw [Warp.segsIn] at honly ⊢
    have hfewer : (s.curWarp.segs.filter fun h => h.slots &&& k != 0) =
        (s.curWarp.segs.filter fun h => h.slots &&& m != 0).filter fun h => h.slots &&& k != 0 := by
      rw [List.filter_filter]
      refine List.filter_congr fun h _ => ?_
      by_cases hz : h.slots &&& k = 0
      · simp [hz]
      · have hm : h.slots &&& m ≠ 0 := fun hm => hz (by rw [hof, hm]; exact BitVec.zero_and)
        rw [bne_iff_ne.2 hz, bne_iff_ne.2 hm]
        rfl
    rw [hfewer, honly]
    exact List.filter_cons_of_pos (bne_iff_ne.2 (by rwa [hof, ha.slots_and, hin]))
  · rw [BitVec.and_comm, hof, BitVec.and_comm (~~~_), ha.all]
    exact BitVec.zero_and

theorem placed_done (r : Raise) (hdr : DWord) : (r.placed hdr).done = r.done := by
  unfold Raise.placed
  split <;> rfl

/-- A segment takes a cause that nobody posts, with what its lanes have done. -/
theorem takeAt_traps_done {s : State} {g : Seg} {m : Mask} {r : Raise} (ha : Alone s g m) (hm : r.mask = g.rel m) (hrec : g.record = none)
    (hd : causeDest r.code ≠ .host) (hr : r.leavesNothing) (hg : g.handler = 0) :
    Traps s (s.takeAt s.cur g.lbase r) g m r.code fun x => x.detail = r.detail ∧ x.done = r.done := by
  have hgrade : g.handler &&& r.mask = 0 := by simp [hg]
  obtain ⟨hapart, ⟨h, x, hh, hx, hrest⟩, hleft, hfiles⟩ := takeAt_traps s g m r (fun x => x.detail = r.detail) ha hm (.inl hrec) hd hr
    (.inl (hm ▸ hgrade)) fun x hx _ _ _ => hx
  obtain ⟨c, hc⟩ := Option.isSome_iff_exists.mp ha.inClause
  have hcause : (s.takeAt s.cur g.lbase r).curWarp.segAt g.lbase = some { g with cause := some (slotCause c.at_ g r s.now) } := by
    rw [takeAt_eq s c g r hc ha.here ha.calm (.inl hrec) hd hr (.inl hgrade), curWarp_setWarp]
    exact stoppedAt_seg s.curWarp c g _ ha.here ha.calm (.inl hrec)
  obtain rfl := Option.some.inj (hh.symm.trans hcause)
  obtain rfl := Option.some.inj hx
  obtain ⟨hcode, hmask, hhdr, hslot, hlmask, hlpark, hudepth, hdetail⟩ := hrest
  exact ⟨hapart, ⟨_, _, hh, rfl, hcode, hmask, hhdr, hslot, hlmask, hlpark, hudepth, hdetail, placed_done r c.at_.hdr⟩, hleft, hfiles⟩

/-- A cause of a warp of which only marks of progress and the count of its stores have changed. -/
theorem Traps.of_puts {s u t : State} {g : Seg} {m : Mask} {code : Nat} {P : SegCause → Prop} {f : Seg → Seg} (hf : Marks f)
    (hu : Puts s u ((s.curWarp.onSegs f).addStore [] 0)) (ht : Traps u t (f g) m code P) : Traps s t g m code P := by
  obtain ⟨hapart, ⟨h, x, hh, hx, hcode, hmask, hhdr, hslot, hlmask, hlpark, hudepth, hP⟩, hleft, hfiles⟩ := ht
  obtain ⟨_, _, hfg⟩ := hf g
  rw [hfg] at hh hmask hlmask hlpark hudepth hleft
  rw [hu.warp] at hhdr hslot hleft hfiles
  rw [hu.cur] at hapart
  exact ⟨hapart.trans hu.apart, ⟨h, x, hh, hx, hcode, hmask, hhdr, hslot, hlmask, hlpark, hudepth, hP⟩, hleft, hfiles⟩

section
variable {s : State} {p : Pre} {a : Reg} {g : Seg} (ha : Alone s g (s.curWarp.execMask p)) (hact : s.curWarp.mayAct = true)
  (hst : s.curWarp.stCnt < 63) (hnamed : ∀ l, (s.curWarp.execMask p).getLsbD l = true → (s.depctr (s.curWarp.val32 a l)).isSome = true)
include ha hact hst hnamed

/-- The lanes that were refused raise `DCNT_RANGE` (R363). -/
theorem counterOp_refuses {f : Nat → Word → Option Word} {cs : Tab DepCtr} {refused : Tab Word} {bad : Mask}
    (hsteps : (lanesOf (s.curWarp.execMask p)).foldl (ctrStep (s.curWarp.val32 a) f) (s.depctrs, []) = (cs, refused))
    (hquiet : CtrsQuiet (s.curWarp.val32 a) f s.depctrs (lanesOf (s.curWarp.execMask p)))
    (hbad : refused.foldl (fun k r => k ||| laneBit r.1) 0 = bad) (hsub : bad &&& ~~~s.curWarp.execMask p = 0) (hne : bad ≠ 0)
    (hrec : g.record = none) (hg : g.handler = 0) :
    Traps { s with depctrs := cs } (s.counterOp p a f) g bad 0x47 fun x => x.detail = ((g.lead bad).bind fun l => refused.find l).getD 0 ∧
      x.done = g.rel (s.curWarp.clauseAt.lanes &&& ~~~bad) := by
  have heq := counterOp_eq ha hact hst hnamed f
  obtain ⟨k, hk, hputs⟩ := ctrTurns_quiet (s.curWarp.val32 a) f (lanesOf (s.curWarp.execMask p)) s [] hquiet
  obtain ⟨-, hpair⟩ := ctrTurns_steps (s.curWarp.val32 a) f (lanesOf (s.curWarp.execMask p)) (s, [])
  rw [hsteps] at hputs hpair
  have hrefused := congrArg Prod.snd hpair
  dsimp only at heq hrefused hputs
  generalize (lanesOf (s.curWarp.execMask p)).foldl (ctrTurn s.cur (s.curWarp.val32 a) f) (s, []) = r at heq hrefused hputs
  have hfewer := ha.fewer hsub hne
  have hcounted := hputs.onWarp fun wp => wp.addStore [] 0
  have halone : Alone (r.1.onWarp s.cur fun wp => wp.addStore [] 0) (k g) bad := by
    refine hfewer.mapped hk.keepsGrade ?_ ?_ <;> rw [hcounted.warp]
    · rfl
    · exact ha.inClause
  have hkg := hk g
  obtain ⟨_, _, hkg⟩ := hkg
  rw [heq, hrefused, State.ctrsEnd, hbad, hfewer.only, List.foldl_cons, List.foldl_nil, show r.1.cur = s.cur from hputs.cur]
  have htraps := takeAt_traps_done (r := { code := 0x47, mask := g.rel bad, done := g.rel (s.curWarp.clauseAt.lanes &&& ~~~bad)
                                           after := s.curWarp.nextLatch, detail := ((g.lead bad).bind fun l => refused.find l).getD 0 })
    halone (by rw [hk.keepsGrade.rel]) (by rw [hk.keepsGrade.record, hrec]) (show causeDest 0x47 ≠ .host by decide)
    ⟨show (0x47 : Nat) ≠ 0x7D by decide, .inl (show (0x47 : Nat) < 0x74 by decide)⟩ (by rw [hk.keepsGrade.handler, hg])
  rw [hk.keepsGrade.lbase] at htraps
  exact (htraps.of_puts hk hcounted).acted

end

end Sys2Proof.Machine
end

section
/-! SUPPORT. Dependence counters: one lane alone, and lanes that count one counter down below 0 (R228, R363). -/

namespace Sys2Proof.Machine

theorem lanesOf_one {k : Nat} (hk : k < 64) : lanesOf (laneBit k) = [k] := by
  have hall : ∀ k < 64, lanesOf (laneBit k) = [k] := by decide +kernel
  exact hall k hk

theorem lead_getLsbD {g : Seg} {m : Mask} {k : Nat} (h : g.lead m = some k) : m.getLsbD k = true := by
  have hk := firstLane_lane _ k h
  rw [BitVec.getLsbD_and, Bool.and_eq_true] at hk
  exact hk.2

/-! ### Tasks that become ready -/

/-- The tasks of one worker queue become ready in their order (R226). -/
theorem makeReady_all {kq n base : Nat} {q : TaskQ} (hw : q.worker = true) (ws : List (Nat × Task)) (hws : ∀ x ∈ ws, x.1 = kq) {u : State}
    (hq : u.taskqs.find kq = some q) (hn : u.nextNo = base + n) :
    let t := ws.foldl (fun s t => s.makeReady t.1 t.2) u
    t.intake = u.intake ∧ t.depctrs = u.depctrs ∧
      t.taskqs.find kq = some { q with ready := q.ready ++ (ws.zipIdx n).map fun x => { x.1.2 with order := base + x.2 } } := by
  induction ws generalizing u q n with
  | nil => exact ⟨rfl, rfl, by simpa using hq⟩
  | cons w ws ih =>
    have hone : u.makeReady w.1 w.2 = { u.fresh.2 with taskqs := u.taskqs.put kq { q with ready := q.ready ++ [{ w.2 with order := u.nextNo }] } } := by
      unfold State.makeReady
      rw [hws w List.mem_cons_self, hq]
      dsimp only
      rw [if_pos hw]
      rfl
    obtain ⟨hintake, hctrs, hqueue⟩ := ih (q := { q with ready := q.ready ++ [{ w.2 with order := u.nextNo }] }) (n := n + 1) hw
      (fun x hx => hws x (List.mem_cons_of_mem w hx)) (u := u.makeReady w.1 w.2) (by rw [hone]; exact tab_find_put_same _ _ _)
      (by rw [hone]; exact (congrArg (· + 1) hn))
    dsimp only
    rw [List.foldl_cons]
    refine ⟨hintake.trans (by rw [hone]; rfl), hctrs.trans (by rw [hone]; rfl), hqueue.trans ?_⟩
    rw [List.zipIdx_cons, List.map_cons, List.append_assoc, hn]
    rfl

/-! ### Lanes that count a counter down -/

/-- A key above all others joins at the end. -/
theorem tab_put_last {α : Type} (t : Tab α) (k : Nat) (v : α) (h : ∀ x ∈ t, x.1 < k) : Tab.put t k v = t ++ [(k, v)] := by
  induction t with
  | nil => rfl
  | cons x t ih =>
    obtain ⟨j, u⟩ := x
    have hj : j < k := h (j, u) List.mem_cons_self
    rw [Tab.put, if_neg (by omega), if_neg (by omega), ih fun y hy => h y (List.mem_cons_of_mem _ hy)]
    rfl

section
variable {id : Nat → Word} {key : Nat} {ls : List Nat} (hkey : ∀ l ∈ ls, ctrKey (id l) = some key)
include hkey

/-- Lanes while there is something to count down. -/
theorem countDown_acts (cs : Tab DepCtr) (v : Word) (r : Tab Word) (h : ls.length ≤ v.toNat) :
    ls.foldl (ctrStep id ctrBelow) (cs.put key ⟨v, []⟩, r) = (cs.put key ⟨v - BitVec.ofNat 32 ls.length, []⟩, r) := by
  induction ls generalizing v with
  | nil => simp
  | cons l ls ih =>
    rw [List.length_cons] at h
    have hne : v ≠ 0 := fun hz => by rw [hz] at h; exact absurd h (by simp)
    have hat : ctrAt (cs.put key ⟨v, []⟩) (id l) = some (key, ⟨v, []⟩) := by
      rw [ctrAt, hkey l List.mem_cons_self, Option.bind_some, tab_find_put_same, Option.map_some]
    have hstep : ctrStep id ctrBelow (cs.put key ⟨v, []⟩, r) l = (cs.put key ⟨v - 1, []⟩, r) := by
      simp only [ctrStep, hat, ctrBelow, if_neg hne, tab_put_put, DepCtr.take, ite_self]
    rw [List.foldl_cons, hstep, ih (fun l hl => hkey l (List.mem_cons_of_mem _ hl)) _ (by bv_omega), List.length_cons, BitVec.sub_sub,
      BitVec.add_comm 1]
    exact congrArg (fun n => (cs.put key ⟨v - n, []⟩, r)) (BitVec.ofNat_add ls.length 1).symm

/-- Lanes that find 0 are refused. -/
theorem countDown_refuses (cs : Tab DepCtr) (r : Tab Word) (hsort : ls.Pairwise (· < ·)) (hr : ∀ x ∈ r, ∀ l ∈ ls, x.1 < l) :
    ls.foldl (ctrStep id ctrBelow) (cs.put key ⟨0, []⟩, r) = (cs.put key ⟨0, []⟩, r ++ ls.map fun l => (l, 0)) := by
  induction ls generalizing r with
  | nil => simp
  | cons l ls ih =>
    obtain ⟨hfirst, hsort⟩ := List.pairwise_cons.1 hsort
    have hat : ctrAt (cs.put key ⟨0, []⟩) (id l) = some (key, ⟨0, []⟩) := by
      rw [ctrAt, hkey l List.mem_cons_self, Option.bind_some, tab_find_put_same, Option.map_some]
    have hstep : ctrStep id ctrBelow (cs.put key ⟨0, []⟩, r) l = (cs.put key ⟨0, []⟩, r ++ [(l, 0)]) := by
      simp only [ctrStep, hat, ctrBelow, if_pos]
      rw [tab_put_last r l _ fun x hx => hr x hx l List.mem_cons_self]
    rw [List.foldl_cons, hstep, ih (fun l hl => hkey l (List.mem_cons_of_mem _ hl)) _ hsort, List.append_assoc]
    · rfl
    · intro x hx j hj
      rcases List.mem_append.1 hx with hx | hx
      · exact hr x hx j (List.mem_cons_of_mem _ hj)
      · rw [List.mem_singleton.1 hx]
        exact hfirst j hj

end

/-- In a rising list the first `n` are those with fewer than `n` below. -/
theorem mem_drop_rising {ls : List Nat} (hsort : ls.Pairwise (· < ·)) (n j : Nat) :
    j ∈ ls.drop n ↔ j ∈ ls ∧ n ≤ (ls.filter fun i => decide (i < j)).length := by
  induction ls generalizing n with
  | nil => simp
  | cons a ls ih =>
    obtain ⟨hfirst, hsort⟩ := List.pairwise_cons.1 hsort
    cases n with
    | zero => simp
    | succ n =>
      rw [List.drop_succ_cons, ih hsort]
      by_cases hj : j ∈ ls
      · have haj := hfirst j hj
        simp [hj, haj]
      · by_cases ha : j = a
        · subst ha
          have hnone : (ls.filter fun i => decide (i < j)) = [] := List.filter_eq_nil_iff.2 fun i hi => by
            have := hfirst i hi
            simp
            omega
          simp [hj, hnone]
        · simp [hj, ha]

theorem foldl_laneBit (ls : List Nat) (m : Mask) (j : Nat) (hj : j < 64) :
    (ls.foldl (fun k l => k ||| laneBit l) m).getLsbD j = (m.getLsbD j || decide (j ∈ ls)) := by
  induction ls generalizing m with
  | nil => simp
  | cons l ls ih =>
    rw [List.foldl_cons, ih, BitVec.getLsbD_or, laneBit_getLsbD, decide_eq_true hj]
    by_cases h : l = j
    · simp [h]
    · simp [h, Ne.symm h]

theorem lanesOf_sorted (m : Mask) : (lanesOf m).Pairwise (· < ·) := List.Pairwise.filter _ List.pairwise_lt_range

/-- The lanes of `m` with at least `n` of its lanes below them. -/
theorem bad_iff (m : Mask) (n l : Nat) :
    (maskWhere fun l => m.getLsbD l && decide (n ≤ ((lanesOf m).filter fun j => decide (j < l)).length)).getLsbD l = true ↔ l ∈ (lanesOf m).drop n := by
  rw [mem_drop_rising (lanesOf_sorted m), mem_lanesOf, maskWhere_getLsbD]
  constructor
  · intro h
    rw [Bool.and_eq_true] at h
    simpa using h.2
  · intro h
    simpa [lane_lt m l h.1] using h

theorem refused_mask (m : Mask) (n : Nat) : (((lanesOf m).drop n).map fun l => (l, (0 : Word))).foldl (fun k r => k ||| laneBit r.1) 0 =
    maskWhere fun l => m.getLsbD l && decide (n ≤ ((lanesOf m).filter fun j => decide (j < l)).length) := by
  apply BitVec.eq_of_getLsbD_eq
  intro j hj
  rw [List.foldl_map, foldl_laneBit _ _ _ hj, Bool.eq_iff_iff, bad_iff]
  simp

theorem refused_detail (ls : List Nat) (o : Option Nat) : (o.bind fun l => Tab.find (ls.map fun l => (l, (0 : Word))) l).getD 0 = 0 := by
  cases o with
  | none => rfl
  | some k =>
    rw [Option.bind_some]
    induction ls with
    | nil => rfl
    | cons l ls ih =>
      rw [List.map_cons, Tab.find]
      split
      · rfl
      · split
        · rfl
        · exact ih

/-- Lanes of which there are more than one counter can count: the first make it 0, and the others are refused. -/
theorem countDown_below {id : Nat → Word} {cs : Tab DepCtr} {m : Mask} {key : Nat} {c : DepCtr}
    (hnamed : ∀ l, m.getLsbD l = true → ctrKey (id l) = some key ∧ cs.find key = some c) (hw : c.waiting = []) (hfew : c.val.toNat < (lanesOf m).length) :
    (lanesOf m).foldl (ctrStep id ctrBelow) (cs, []) = (cs.put key ⟨0, []⟩, ((lanesOf m).drop c.val.toNat).map fun l => (l, 0)) ∧
      CtrsQuiet id ctrBelow cs (lanesOf m) := by
  have hkey : ∀ l ∈ lanesOf m, ctrKey (id l) = some key := fun l hl => (hnamed l ((mem_lanesOf m l).1 hl)).1
  obtain ⟨l, hl⟩ : ∃ l, l ∈ lanesOf m := List.exists_mem_of_ne_nil _ fun h => by rw [h] at hfew; exact absurd hfew (Nat.not_lt_zero _)
  have hc : cs.find key = some ⟨c.val, []⟩ := by rw [← hw]; exact (hnamed l ((mem_lanesOf m l).1 hl)).2
  constructor
  · calc (lanesOf m).foldl (ctrStep id ctrBelow) (cs, [])
      _ = ((lanesOf m).drop c.val.toNat).foldl (ctrStep id ctrBelow)
          (((lanesOf m).take c.val.toNat).foldl (ctrStep id ctrBelow) (cs.put key ⟨c.val, []⟩, [])) := by
        rw [← List.foldl_append, List.take_append_drop, tab_put_self _ _ _ hc]
      _ = ((lanesOf m).drop c.val.toNat).foldl (ctrStep id ctrBelow) (cs.put key ⟨0, []⟩, []) := by
        rw [countDown_acts (fun l hl => hkey l (List.mem_of_mem_take hl)) cs c.val [] (by simp), List.length_take, Nat.min_eq_left (by omega),
          BitVec.ofNat_toNat, BitVec.setWidth_eq, BitVec.sub_self]
        rfl
      _ = _ := by
        rw [countDown_refuses (fun l hl => hkey l (List.mem_of_mem_drop hl)) cs [] ((lanesOf_sorted m).sublist (List.drop_sublist _ _))
          fun x hx => absurd hx List.not_mem_nil]
        rfl
  · intro k d hd hz
    by_cases hk : k = key
    · subst hk
      rw [Option.some.inj (hd.symm.trans hc)]
    · have hnone : ctrLanes id k (lanesOf m) = [] := List.filter_eq_nil_iff.2 fun l hl => by
        rw [hkey l hl]
        simpa using Ne.symm hk
      rw [hnone] at hz
      exact absurd hz List.not_mem_nil

/-! ### The three instructions -/

theorem exec_dcset (s : State) (p : Pre) (a b : Reg) : exec (.dcset p a b) s = .next (s.counterOp p a fun l _ => some (s.curWarp.val32 b l)) := rfl

theorem exec_dcadd (s : State) (p : Pre) (a b : Reg) : exec (.dcadd p a b) s = .next (s.counterOp p a (ctrSum (s.curWarp.val32 b))) := rfl

theorem exec_dcdec (s : State) (p : Pre) (a : Reg) : exec (.dcdec p a) s = .next (s.counterOp p a ctrBelow) := rfl

/-- One lane alone that is let act, at 0, on a counter on which tasks of one worker queue wait. -/
theorem counterOp_releases {s : State} {p : Pre} {a : Reg} {g : Seg} {k key kq : Nat} {c : DepCtr} {q : TaskQ} {f : Nat → Word → Option Word}
    (ha : Alone s g (s.curWarp.execMask p)) (hact : s.curWarp.mayAct = true) (hst : s.curWarp.stCnt < 63) (hone : lanesOf (s.curWarp.execMask p) = [k])
    (hc : s.depctr (s.curWarp.val32 a k) = some (key, c)) (hf : f k c.val = some 0) (hq : s.taskqs.find kq = some q) (hw : q.worker = true)
    (hws : ∀ x ∈ c.waiting, x.1 = kq) : (s.counterOp p a f).depctrs.find key = some ⟨0, []⟩ ∧ (s.counterOp p a f).intake = s.intake ∧
      (s.counterOp p a f).taskqs.find kq =
        some { q with ready := q.ready ++ c.waiting.zipIdx.map fun x => { x.1.2 with order := s.nextNo + x.2 } } := by
  have hnamed : ∀ l, (s.curWarp.execMask p).getLsbD l = true → (s.depctr (s.curWarp.val32 a l)).isSome = true := fun l hl => by
    have hmem := (mem_lanesOf _ l).2 hl
    rw [hone, List.mem_singleton] at hmem
    rw [hmem, hc]
    rfl
  obtain ⟨-, hfind⟩ := ctrAt_find hc
  have heq := counterOp_eq ha hact hst hnamed f
  dsimp only at heq
  rw [hone, List.foldl_cons, List.foldl_nil, show ctrTurn s.cur (s.curWarp.val32 a) f (s, []) k =
    ((s.setCtr key 0).onWarp s.cur fun wp => wp.progress (laneBit k), []) by simp only [ctrTurn, hc, hf], ctrsEnd_nil] at heq
  have hset : s.setCtr key 0 = c.waiting.foldl (fun s t => s.makeReady t.1 t.2) { s with depctrs := s.depctrs.put key ⟨0, []⟩ } := by
    rw [State.setCtr, hfind]
    exact if_pos rfl
  obtain ⟨hintake, hctrs, hqueue⟩ := makeReady_all hw c.waiting hws (u := { s with depctrs := s.depctrs.put key ⟨0, []⟩ }) (n := 0) (base := s.nextNo) hq rfl
  rw [← hset] at hintake hctrs hqueue
  rw [heq]
  exact ⟨(congrArg (Tab.find · key) hctrs).trans (tab_find_put_same _ _ _), hintake, hqueue⟩

/-- One lane alone that is refused. -/
theorem counterOp_refuses_one {s : State} {p : Pre} {a : Reg} {g : Seg} {k key : Nat} {c : DepCtr} {f : Nat → Word → Option Word}
    (ha : Alone s g (s.curWarp.execMask p)) (hact : s.curWarp.mayAct = true) (hst : s.curWarp.stCnt < 63) (hm : s.curWarp.execMask p = laneBit k)
    (hlead : g.lead (s.curWarp.execMask p) = some k) (hc : s.depctr (s.curWarp.val32 a k) = some (key, c)) (hf : f k c.val = none)
    (hrec : g.record = none) (hg : g.handler = 0) : Traps s (s.counterOp p a f) g (s.curWarp.execMask p) 0x47 fun x => x.detail = c.val := by
  have hk : k < 64 := lane_lt _ k (lead_getLsbD hlead)
  have hone : lanesOf (s.curWarp.execMask p) = [k] := by rw [hm, lanesOf_one hk]
  have hnamed : ∀ l, (s.curWarp.execMask p).getLsbD l = true → (s.depctr (s.curWarp.val32 a l)).isSome = true := fun l hl => by
    have hmem := (mem_lanesOf _ l).2 hl
    rw [hone, List.mem_singleton] at hmem
    rw [hmem, hc]
    rfl
  have hsteps : (lanesOf (s.curWarp.execMask p)).foldl (ctrStep (s.curWarp.val32 a) f) (s.depctrs, []) = (s.depctrs, [(k, c.val)]) := by
    rw [hone, List.foldl_cons, List.foldl_nil]
    simp only [ctrStep, show ctrAt s.depctrs (s.curWarp.val32 a k) = some (key, c) from hc, hf]
    rfl
  have hquiet : CtrsQuiet (s.curWarp.val32 a) f s.depctrs (lanesOf (s.curWarp.execMask p)) := fun i d hd hz => by
    rw [hone] at hz
    obtain ⟨hkey, hfind⟩ := ctrAt_find (show ctrAt s.depctrs (s.curWarp.val32 a k) = some (key, c) from hc)
    by_cases hi : ctrKey (s.curWarp.val32 a k) = some i
    · obtain rfl := Option.some.inj (hi.symm.trans hkey)
      obtain rfl := Option.some.inj (hd.symm.trans hfind)
      rw [ctrLanes_cons_same _ hi, ctrVals, hf] at hz
      exact absurd hz List.not_mem_nil
    · rw [ctrLanes_cons_other _ hi] at hz
      exact absurd hz List.not_mem_nil
  have hne : s.curWarp.execMask p ≠ 0 := fun hz => ha.some_lane (by rw [ha.slots_and, hz])
  obtain ⟨hapart, ⟨h, x, hh, hx, hcode, hmask, hhdr, hslot, hlmask, hlpark, hudepth, hdetail, -⟩, hleft, hfiles⟩ :=
    counterOp_refuses ha hact hst hnamed hsteps hquiet (bad := s.curWarp.execMask p) (by rw [hm]; exact BitVec.zero_or) (by simp) hne hrec hg
  rw [hlead] at hdetail
  exact ⟨hapart, ⟨h, x, hh, hx, hcode, hmask, hhdr, hslot, hlmask, hlpark, hudepth, hdetail.trans (by simp [Tab.find])⟩, hleft, hfiles⟩

/-- Settles O34: the values that each counter takes, and, where a lane is refused, the cause of the refused lanes. -/
theorem dependenceCounters : Obligations.DependenceCounters := by
  unfold Obligations.DependenceCounters
  refine ⟨?_, ?_, ?_⟩
  · intro s p a b g wp m mine sum ha hm hact hst hnamed runs
    have hmine : ∀ key, mine key = ctrLanes (wp.val32 a) key (lanesOf m) := fun _ => rfl
    have hruns {i : Instr} {f : Nat → Word → Option Word} {vals : Nat → DepCtr → List Word} (hexec : exec i s = .next (s.counterOp p a f))
        (hvals : ∀ key c, s.depctrs.find key = some c → ctrVals f c.val (mine key) = vals key c)
        (hlen : ∀ key c, (vals key c).length = (mine key).length) : runs i vals := by
      have hfree : CtrsFree (wp.val32 a) f s.depctrs (lanesOf m) := fun key c hc => by rw [← hmine, hvals key c hc, hlen]
      obtain ⟨hmem, hspad, hregs, hpreds, hpcs, hcnt, hfind, hquiet⟩ := counterOp_runs ha hact hst hnamed f hfree
      refine ⟨_, hexec, hmem, hspad, hregs, hpreds, hpcs, hcnt, fun key c hc => ?_, fun hz => hquiet fun key c hc h => hz key c hc ?_⟩
      · rw [hfind key c hc, ← hvals key c hc]
        rfl
      · rwa [← hvals key c hc]
    refine ⟨hruns (exec_dcset s p a b) (fun key c _ => ctrVals_set _ _ _) fun _ _ => List.length_map _, fun hrange => ?_, fun hroom => ?_⟩
    · exact hruns (exec_dcadd s p a b) (fun key c hc => ctrVals_sum _ _ _ fun n hn => hrange key c n hc hn) fun _ _ => by simp
    · exact hruns (exec_dcdec s p a) (fun key c hc => ctrVals_below _ _ (hroom key c hc)) fun _ _ => by simp
  · intro s p a b g k key kq c q wp m v sum ha hm hlead hact hst hc
    have hone : lanesOf m = [k] := by rw [hm, lanesOf_one (lane_lt _ k (lead_getLsbD hlead))]
    refine ⟨fun hq hw hws => ?_, fun hrec hg => ⟨fun hsum => ?_, fun hz => ?_⟩⟩
    · have hqueues : ∀ x ∈ c.waiting, x.1 = kq := List.map_inj_left.1 hws
      intro released
      have hreleases {i : Instr} {f : Nat → Word → Option Word} (hexec : exec i s = .next (s.counterOp p a f)) (hf : f k c.val = some 0) :
          Completes i s released := by
        obtain ⟨hctr, hintake, hqueue⟩ := counterOp_releases ha hact hst hone hc hf hq hw hqueues
        exact ⟨_, hexec, hctr, hintake, fun _ => hqueue⟩
      refine ⟨fun hv => hreleases (exec_dcset s p a b) (congrArg some hv), fun hsum => hreleases (exec_dcadd s p a b) ?_, fun hval =>
        hreleases (exec_dcdec s p a) ?_⟩
      · have hsum' : (c.val.toNat : Int) + (s.curWarp.val32 b k).toInt = 0 := hsum
        rw [ctrSum, hsum']
        rfl
      · rw [ctrBelow, hval]
        rfl
    · exact ⟨_, exec_dcadd s p a b, counterOp_refuses_one ha hact hst hm hlead hc (if_neg fun h => by
        have hlo : 0 ≤ sum := h.1
        have hhi : sum < 2 ^ 32 := h.2
        omega) hrec hg⟩
    · have htraps := counterOp_refuses_one (f := ctrBelow) ha hact hst hm hlead hc (if_pos hz) hrec hg
      rw [hz] at htraps
      exact ⟨_, exec_dcdec s p a, htraps⟩
  · intro s p a g key c wp m bad ha hact hst hnamed hw _ hfew hrec hg
    obtain ⟨l, hl⟩ : ∃ l, l ∈ (lanesOf m).drop c.val.toNat := List.exists_mem_of_ne_nil _ fun h => by
      rw [List.drop_eq_nil_iff] at h
      omega
    have hbit := bad_iff m c.val.toNat
    have hsub : bad &&& ~~~m = 0 := by
      apply BitVec.eq_of_getLsbD_eq
      intro j hj
      simp only [bad, BitVec.getLsbD_and, maskWhere_getLsbD, BitVec.getLsbD_not, hj]
      cases m.getLsbD j <;> simp
    have hne : bad ≠ 0 := fun hz => by
      have hbad := (hbit l).2 hl
      rw [show maskWhere _ = bad from rfl, hz] at hbad
      exact absurd hbad (by simp)
    obtain ⟨hsteps, hquiet⟩ := countDown_below (id := wp.val32 a) (cs := s.depctrs) (m := m) (fun l hl => ctrAt_find (hnamed l hl)) hw hfew
    obtain ⟨hapart, ⟨h, x, hh, hx, hcode, hmask, hhdr, hslot, hlmask, hlpark, hudepth, hdetail, hdone⟩, hleft, hfiles⟩ :=
      counterOp_refuses ha hact hst (fun l hl => by rw [hnamed l hl]; rfl) hsteps hquiet (bad := bad) (refused_mask m c.val.toNat) hsub hne hrec hg
    exact ⟨_, exec_dcdec s p a, hapart, ⟨h, x, hh, hx, hcode, hmask, hhdr, hslot, hlmask, hlpark, hudepth,
      hdetail.trans (refused_detail _ _), hdone⟩, hleft, hfiles⟩

end Sys2Proof.Machine
end

section
/-! SUPPORT. Accumulator instructions of one segment that stands alone at its slot (R234, R244, R245, R368). -/

namespace Sys2Proof.Machine

/-! ### Operands that the segment shares -/

section
variable {wp : Warp} {g : Seg} {m : Mask} {l : Nat} (hlead : g.lead m = some l)
include hlead

theorem uni_toNat (r : Reg) : (wp.uni g m false r).toNat = (wp.val32 r l).toNat := by
  rw [uni_lead hlead, Warp.val, if_neg Bool.false_ne_true, BitVec.toNat_setWidth]
  omega

end

theorem matrixUnif_good {wp : Warp} {g : Seg} {m : Mask} {ops : List (Nat × Bool × Reg)} (h : wp.unifFault g m ops = none) (low : Nat) :
    wp.matrixUnif g m low ops = none := by
  rw [Warp.matrixUnif, h]
  rfl

/-! ### What a segment raises -/

section
variable {s : State} {g : Seg} {m : Mask} {l : Nat} (hlead : g.lead m = some l) {a : Reg} {b : Option Reg}
  (hunif : s.curWarp.unifFault g m ((5, false, a) :: (b.map fun r => (6, false, r)).toList) = none)
include hlead hunif

theorem accFault_unheld (htile : s.tileOf g.gid ((s.curWarp.val32 a l).toNat % 2) = none) : s.accFault g m a b =
    some { code := 0x3F, mask := g.rel m, detail := BitVec.ofNat 32 ((s.curWarp.val32 a l).toNat % 2 + 5 * 256) } := by
  unfold State.accFault
  dsimp only
  rw [matrixUnif_good hunif, uni_toNat hlead, htile]
  exact if_pos rfl

theorem accFault_held {t0 : Nat} (htile : s.tileOf g.gid ((s.curWarp.val32 a l).toNat % 2) = some t0) : s.accFault g m a b =
    if 63 < (b.map fun r => (s.curWarp.val32 r l).toNat).getD 0 then
      some { code := 0x40, mask := g.rel m, detail := BitVec.ofNat 32 ((s.curWarp.val32 a l).toNat % 2 + 6 * 256) }
    else none := by
  unfold State.accFault
  dsimp only
  simp only [matrixUnif_good hunif, uni_toNat hlead, htile]
  rfl

end

/-! ### The instructions without a result -/

section
variable {s : State} {p : Pre} {a : Reg} {g : Seg} {l : Nat} (ha : Alone s g (s.curWarp.execMask p)) (hlead : g.lead (s.curWarp.execMask p) = some l)
  {b : Option Reg} {op : Warp → Seg → Mask → TileOp}
include ha hlead

/-- The operation of the one segment enters its tile's sequence. -/
theorem accEach_enters {t0 : Nat} (htile : s.tileOf g.gid ((s.curWarp.val32 a l).toNat % 2) = some t0) (hdue : s.landingDue s.cur t0 = false)
    (hfault : s.accFault g (s.curWarp.execMask p) a b = none) :
    s.accEach p a b op = s.tileOp s.cur t0 (op s.curWarp g (s.curWarp.execMask p)) := by
  unfold State.accEach
  dsimp only
  rw [ha.only, List.any_cons, List.any_nil, uni_toNat hlead, htile, List.foldl_cons, List.foldl_nil, hfault]
  simp only [hdue, Bool.or_self, Bool.false_eq_true, if_false, uni_toNat hlead, htile]

/-- The one segment raises a cause, where no landing holds the slot. -/
theorem accEach_raises {code : Nat} {detail : Word} (hdue : ∀ t0, s.tileOf g.gid ((s.curWarp.val32 a l).toNat % 2) = some t0 → s.landingDue s.cur t0 = false)
    (hfault : s.accFault g (s.curWarp.execMask p) a b = some { code := code, mask := g.rel (s.curWarp.execMask p), detail := detail })
    (hrec : g.record = none) (hg : g.handler = 0) (hd : causeDest code ≠ .host) (hl : code < 0x74) :
    Traps s (s.accEach p a b op) g (s.curWarp.execMask p) code fun x => x.detail = detail := by
  have heq : s.accEach p a b op = s.takeAt s.cur g.lbase { code := code, mask := g.rel (s.curWarp.execMask p), detail := detail } := by
    unfold State.accEach
    dsimp only
    rw [ha.only, List.any_cons, List.any_nil, List.foldl_cons, List.foldl_nil, hfault, uni_toNat hlead, Bool.or_false, if_neg]
    cases h : s.tileOf g.gid ((s.curWarp.val32 a l).toNat % 2) with
    | none => exact Bool.false_ne_true
    | some t0 => simp [hdue t0 h]
  rw [heq]
  exact takeAt_traps_at s g _ code detail [] _ ha (.inl hrec) hd hl (.inl (by simp [hg])) fun _ hx _ => hx

end

/-! ### The sequence of a tile -/

theorem markOutside_same (s : State) : s.markOutside.mem = s.mem ∧ s.markOutside.cores = s.cores ∧ s.markOutside.curWarp.regs = s.curWarp.regs ∧
    s.markOutside.curWarp.preds = s.curWarp.preds ∧ s.markOutside.curWarp.ldCnt = s.curWarp.ldCnt := by
  unfold State.markOutside
  split
  · rw [curWarp_onWarp]
    exact ⟨rfl, rfl, rfl, rfl, rfl⟩
  · exact ⟨rfl, rfl, rfl, rfl, rfl⟩

/-- `t` has the bytes of `s` and its warp's files, and the sequence of a tile has one operation more. -/
def Joins (s t : State) (t0 : Nat) (op : TileOp) : Prop :=
  (t.mem = s.mem ∧ t.curWarp.regs = s.curWarp.regs ∧ t.curWarp.preds = s.curWarp.preds) ∧
    t.tile (coreOf s.cur) t0 = { s.tile (coreOf s.cur) t0 with seq := (s.tile (coreOf s.cur) t0).seq ++ [op] }

theorem joined_joins {s u : State} {t0 : Nat} (ht : t0 < (s.core (coreOf s.cur)).tiles.length) (op : TileOp) (hmem : u.mem = s.mem)
    (hcores : u.cores = s.cores) (hregs : u.curWarp.regs = s.curWarp.regs) (hpreds : u.curWarp.preds = s.curWarp.preds) :
    Joins s (u.onTile (coreOf s.cur) t0 fun y => { y with seq := y.seq ++ [op] }).markOutside t0 op := by
  obtain ⟨hmem', hcores', hregs', hpreds', -⟩ := markOutside_same (u.onTile (coreOf s.cur) t0 fun y => { y with seq := y.seq ++ [op] })
  have htile : ∀ v w : State, v.cores = w.cores → v.tile (coreOf s.cur) t0 = w.tile (coreOf s.cur) t0 := fun v w h => by
    rw [State.tile, State.tile, State.core, State.core, h]
  refine ⟨⟨hmem'.trans hmem, hregs'.trans hregs, hpreds'.trans hpreds⟩, ?_⟩
  rw [htile _ _ hcores', tile_onTile_same u _ (by rwa [State.core, hcores]), htile u s hcores]

section
variable {s : State} {t0 : Nat} {op : TileOp}

/-- Outside a window an operation enters at once (R234). -/
theorem tileOp_joins (hw : s.curWarp.window = none) (ht : t0 < (s.core (coreOf s.cur)).tiles.length) : Joins s (s.tileOp s.cur t0 op) t0 op := by
  unfold State.tileOp
  rw [show (s.warp s.cur).window = none from hw]
  exact joined_joins ht op rfl rfl rfl rfl

/-- In a window it waits for the commit (R234, R244). -/
theorem tileOp_waits {x : Window} (hw : s.curWarp.window = some x) : ((s.tileOp s.cur t0 op).mem = s.mem ∧
    (s.tileOp s.cur t0 op).curWarp.regs = s.curWarp.regs ∧ (s.tileOp s.cur t0 op).curWarp.preds = s.curWarp.preds) ∧
    (s.tileOp s.cur t0 op).cores = s.cores ∧ ((s.tileOp s.cur t0 op).curWarp.window.map Window.tileOps) = some (x.tileOps ++ [(t0, op)]) := by
  unfold State.tileOp
  rw [show (s.warp s.cur).window = some x from hw]
  dsimp only
  rw [curWarp_onWarp]
  exact ⟨⟨rfl, rfl, rfl⟩, rfl, rfl⟩

end

/-! ### The read -/

/-- The read of the one segment enters its tile's sequence (R244). -/
theorem execAccrd_joins {s : State} {p : Pre} {ty : Ty} {d a b : Reg} {g : Seg} {l t0 : Nat} (ha : Alone s g (s.curWarp.execMask p))
    (hlead : g.lead (s.curWarp.execMask p) = some l) (htile : s.tileOf g.gid ((s.curWarp.val32 a l).toNat % 2) = some t0)
    (ht : t0 < (s.core (coreOf s.cur)).tiles.length) (hfault : s.accFault g (s.curWarp.execMask p) a (some b) = none) (hld : s.curWarp.ldCnt < 63)
    (hbusy : s.tileBusy s.cur t0 = false) : Completes (.accrd p ty d a b) s fun t => t.curWarp.ldCnt = s.curWarp.ldCnt + 1 ∧
      Joins s t t0 (.read s.cur (s.curWarp.nextId + 1) (s.curWarp.val32 b l).toNat (g.slots &&& s.curWarp.execMask p) ty) := by
  have hm : s.curWarp.execMask p ≠ 0 := fun hz => ha.some_lane (by rw [ha.slots_and, hz])
  have hjudge := judgeSegs_good ha (f := fun t h => t.accFault h (s.curWarp.execMask p) a (some b)) hfault
  have hstep : execAccrd p ty d a b s = .next ((s.onWarp s.cur fun wp => wp.addRes (s.newRes s.cur .load d 1 ty (s.curWarp.execMask p) .general)).onTile
      (coreOf s.cur) t0 fun y => { y with seq := y.seq ++
        [.read s.cur (s.curWarp.nextId + 1) (s.curWarp.val32 b l).toNat (g.slots &&& s.curWarp.execMask p) ty] }).markOutside := by
    unfold execAccrd
    dsimp only
    rw [if_neg hm, if_neg (Nat.not_le.2 (show s.curWarp.ldCnt < Config.counterTop from hld)), hjudge]
    dsimp only
    rw [if_neg hm, ha.only]
    simp only [List.any_cons, List.any_nil, List.map_cons, List.map_nil, List.foldl_cons, List.foldl_nil, uni_toNat hlead, htile, Option.getD_some, hbusy,
      Bool.or_self, Bool.false_eq_true, if_false]
    rfl
  have hwarp := curWarp_onWarp s fun wp => wp.addRes (s.newRes s.cur .load d 1 ty (s.curWarp.execMask p) .general)
  refine ⟨_, hstep, ?_, joined_joins ht _ rfl rfl ?_ ?_⟩
  · obtain ⟨-, -, -, -, hcnt⟩ := markOutside_same ((s.onWarp s.cur fun wp => wp.addRes (s.newRes s.cur .load d 1 ty (s.curWarp.execMask p) .general)).onTile
      (coreOf s.cur) t0 fun y => { y with seq := y.seq ++
        [.read s.cur (s.curWarp.nextId + 1) (s.curWarp.val32 b l).toNat (g.slots &&& s.curWarp.execMask p) ty] })
    rw [hcnt]
    exact (congrArg Warp.ldCnt hwarp :)
  · exact (congrArg Warp.regs hwarp :)
  · exact (congrArg Warp.preds hwarp :)

/-- Settles O38: each instruction's operation enters the sequence or waits in the window, and what the segment raises else. -/
theorem accumulators : Obligations.Accumulators := by
  unfold Obligations.Accumulators
  intro s p ty d a b c g l t0 wp m core row bit val ha hlead hua hub same joins write
  have hwrite : TileOp.write (wp.uni g m false b).toNat ((lanesOf (g.slots &&& m)).map fun j => (j, val j)) = write := by
    rw [uni_toNat hlead]
  refine ⟨fun htile ht hdue => ?_, fun htile hrec hg => ?_, fun htile hdue hrow hrec hg => ?_⟩
  · have hz : exec (.accz p a) s = .next (s.tileOp s.cur t0 .zero) :=
      congrArg Host.Outcome.next (accEach_enters ha hlead htile hdue (accFault_held (b := none) hlead hua htile))
    have hw (hrow : row ≤ 63) : exec (.accwr p a b c) s = .next (s.tileOp s.cur t0 write) := by
      rw [← hwrite]
      exact congrArg Host.Outcome.next (accEach_enters ha hlead htile hdue
        ((accFault_held (b := some b) hlead hub htile).trans (if_neg (Nat.not_lt.2 hrow))))
    refine ⟨fun hwin => ⟨_, hz, tileOp_joins hwin ht⟩, fun hwin hrow => ⟨_, hw hrow, tileOp_joins hwin ht⟩, fun hrow hld hbusy =>
      execAccrd_joins ha hlead htile ht ((accFault_held (b := some b) hlead hub htile).trans (if_neg (Nat.not_lt.2 hrow))) hld hbusy,
      fun x hwin => ⟨_, hz, tileOp_waits hwin⟩, fun x hwin hrow => ⟨_, hw hrow, tileOp_waits hwin⟩⟩
  · have hnone : ∀ t0, s.tileOf g.gid ((s.curWarp.val32 a l).toNat % 2) = some t0 → s.landingDue s.cur t0 = false := fun t0 h =>
      absurd (htile.symm.trans h) nofun
    exact ⟨⟨_, rfl, accEach_raises ha hlead hnone (accFault_unheld (b := none) hlead hua htile) hrec hg (by decide) (by decide)⟩,
      ⟨_, rfl, accEach_raises ha hlead hnone (accFault_unheld (b := some b) hlead hub htile) hrec hg (by decide) (by decide)⟩⟩
  · have hfree : ∀ t1, s.tileOf g.gid ((s.curWarp.val32 a l).toNat % 2) = some t1 → s.landingDue s.cur t1 = false := fun t1 h =>
      Option.some.inj (htile.symm.trans h) ▸ hdue
    exact ⟨_, rfl, accEach_raises ha hlead hfree ((accFault_held (b := some b) hlead hub htile).trans (if_pos hrow)) hrec hg (by decide) (by decide)⟩

end Sys2Proof.Machine
end

section
/-! SUPPORT. A signature of one segment that stands alone at its slot (R238, R239, R368). -/

namespace Sys2Proof.Machine

/-- The values put at the keys of a list, of which no two share a key. -/
theorem foldl_put_find {α : Type} (ls : List Nat) (k : Nat → Nat) (v : Nat → α) (t : Tab α) {j : Nat} (hj : j ∈ ls)
    (hinj : ∀ i ∈ ls, k i = k j → i = j) : Tab.find ((ls.map fun i => (k i, v i)).foldl (fun t x => t.put x.1 x.2) t) (k j) = some (v j) := by
  have hkeep : ∀ (ls : List Nat) (t : Tab α), (∀ i ∈ ls, k i = k j → i = j) → t.find (k j) = some (v j) →
      Tab.find ((ls.map fun i => (k i, v i)).foldl (fun t x => t.put x.1 x.2) t) (k j) = some (v j) := by
    intro ls
    induction ls with
    | nil => exact fun _ _ h => h
    | cons i ls ih =>
      intro t hinj h
      refine ih _ (fun i hi => hinj i (List.mem_cons_of_mem _ hi)) ?_
      by_cases hk : k i = k j
      · obtain rfl := hinj i List.mem_cons_self hk
        exact tab_find_put_same _ _ _
      · exact (tab_find_put_other _ _ _ _ (Ne.symm hk)).trans h
  induction ls generalizing t with
  | nil => exact absurd hj List.not_mem_nil
  | cons i ls ih =>
    rcases List.mem_cons.1 hj with rfl | hj
    · exact hkeep ls _ (fun i hi => hinj i (List.mem_cons_of_mem _ hi)) (tab_find_put_same _ _ _)
    · exact ih _ hj fun i hi => hinj i (List.mem_cons_of_mem _ hi)

section
variable {s : State} {g : Seg} {m : Mask} {n l : Nat} {a b k : Reg} (hlead : g.lead m = some l)
  (hunif : s.curWarp.unifFault g m [(5, true, a), (6, true, b), (8, false, k)] = none) (hfree : (s.landing (coreOf s.cur) n).st = .free)
  (cell sel : Nat) (tile : Bool) (c : Reg)
include hlead hunif hfree

omit hlead in
/-- A segment narrower than 64 lanes cannot sign (R368). -/
theorem sign_narrow (hwidth : g.width ≠ 64) : s.sign g m cell n tile sel a b c k =
    s.takeAt s.cur g.lbase { code := 0x3D, mask := g.rel m, detail := BitVec.ofNat 32 n } := by
  unfold State.sign
  dsimp only
  simp only [matrixUnif_good hunif, hfree, hwidth, ne_eq, not_true_eq_false, false_and, if_false, not_false_eq_true, if_true, Nat.mul_zero, Nat.add_zero]

/-- The landing that a signature binds (R238). -/
def State.bound (s : State) (g : Seg) (m : Mask) (cell sel bit : Nat) (l : Nat) (a b c k : Reg) (turn : Nat) : Landing :=
  { st := .signing, warp := s.cur, lbase := g.lbase, cell := cell, tile := bit, recA := s.curWarp.val64 a l, recB := s.curWarp.val64 b l
    koff := s.curWarp.val32 k l, mask := g.rel s.curWarp.live
    signers := ((lanesOf (g.slots &&& m)).map fun j => (j - g.lbase, Signer.mk (s.curWarp.groupWord c 0 j) (s.curWarp.groupWord c 1 j) sel
      s.curWarp.window.isNone s.curWarp.nextId false)).foldl (fun t x => t.put x.1 x.2) []
    since := s.now, told := false, turn := turn }

theorem sign_binds {bit : Nat} (hbit : bit = if tile then 1 else 0) (hwidth : g.width = 64) (htile : (s.tileOf g.gid bit).isSome = true)
    (ha : (s.curWarp.val64 a l).toNat % 64 = 0) (hb : (s.curWarp.val64 b l).toNat % 64 = 0) (hsel : ¬if cell = 0xC4 then sel ≠ 0 else 4 < sel + mmaKop cell / 32)
    (hnow : s.curWarp.window = none → ∀ t0, s.tileOf g.gid bit = some t0 → s.landingNow (coreOf s.cur) t0 = false) :
    s.sign g m cell n tile sel a b c k =
      (s.fresh.2.setLanding (coreOf s.cur) n (s.bound g m cell sel bit l a b c k s.nextNo)).markOutside := by
  have huna : s.curWarp.uni g m true a = s.curWarp.val64 a l := uni_lead hlead true a
  have hunb : s.curWarp.uni g m true b = s.curWarp.val64 b l := uni_lead hlead true b
  have hunk : loWord (s.curWarp.uni g m false k) = s.curWarp.val32 k l := by
    rw [uni_lead hlead]
    show loWord ((s.curWarp.val32 k l).setWidth 64) = _
    simp [loWord]
  have hheld : (s.curWarp.window.isNone && ((s.tileOf g.gid bit).map (s.landingNow (coreOf s.cur))).getD false) = false := by
    cases hw : s.curWarp.window with
    | some x => rfl
    | none =>
      obtain ⟨t0, ht⟩ := Option.isSome_iff_exists.1 htile
      rw [ht, Option.map_some, Option.getD_some, hnow hw t0 ht]
      rfl
  unfold State.sign
  dsimp only
  rw [matrixUnif_good hunif, huna, hunb, hunk, ← hbit]
  simp only [hfree, hwidth, ne_eq, not_true_eq_false, false_and, if_false, ha, hb, hheld, Bool.false_eq_true, Option.isNone_eq_false_iff.2 htile]
  rw [if_neg hsel, State.bound, ← Option.not_isSome]
  rfl

end

theorem mma_one {s : State} {p : Pre} {g : Seg} (ha : Alone s g (s.curWarp.execMask p)) (cell : Nat) (n : BitVec 3) (tile : Bool) (sel : BitVec 2)
    (a b c k : Reg) : s.mma p cell n tile sel a b c k = s.sign g (s.curWarp.execMask p) cell n.toNat tile sel.toNat a b c k := by
  unfold State.mma
  dsimp only
  rw [ha.only]
  rfl

/-- Settles O37: the one segment binds the landing, or raises `LAND_WIDTH`, whatever the cell. -/
theorem signatures : Obligations.Signatures := by
  unfold Obligations.Signatures
  intro s p n tile sel a b c k g l wp m core bit ha hlead hunif hfree hlen good out bad
  have hout {i : Instr} {cell : Nat} (hexec : exec i s = .next (s.mma p cell n tile sel a b c k)) (hgood : good)
      (hsel : ¬if cell = 0xC4 then sel.toNat ≠ 0 else 4 < sel.toNat + mmaKop cell / 32) : out i cell := by
    obtain ⟨hwidth, htile, hrecA, hrecB, hnow⟩ := hgood
    have hsign := sign_binds hlead hunif hfree cell sel.toNat tile c (bit := bit) rfl hwidth htile hrecA hrecB hsel hnow
    obtain ⟨hmem, hcores, hregs, hpreds, -⟩ := markOutside_same
      (s.fresh.2.setLanding core n.toNat (s.bound g m cell sel.toNat bit l a b c k s.nextNo))
    have hland : ((s.fresh.2.setLanding core n.toNat (s.bound g m cell sel.toNat bit l a b c k s.nextNo)).markOutside).landing core n.toNat =
        s.bound g m cell sel.toNat bit l a b c k s.nextNo := by
      rw [State.landing, State.core, hcores]
      exact landing_setLanding_same s.fresh.2 _ (by show n.toNat < (s.core core).landings.length; rw [hlen]; exact n.isLt)
    refine ⟨_, hexec.trans (congrArg Host.Outcome.next ((mma_one ha cell n tile sel a b c k).trans hsign)), hmem, hregs, hpreds, ?_⟩
    dsimp only
    rw [hland]
    refine ⟨rfl, rfl, rfl, rfl, rfl, rfl, rfl, rfl, rfl, fun j hj => ?_⟩
    have hlow : ∀ i ∈ lanesOf (g.slots &&& m), g.lbase ≤ i := fun i hi => by
      simp only [mem_lanesOf, BitVec.getLsbD_and, slots_getLsbD_eq, Seg.hasLane, Bool.and_eq_true, decide_eq_true_eq] at hi
      omega
    have hjmem := (mem_lanesOf _ j).2 hj
    exact foldl_put_find _ (fun i => i - g.lbase) _ [] hjmem fun i hi h => by
      have hi' := hlow i hi
      have hj' := hlow j hjmem
      omega
  have hbad {i : Instr} {cell : Nat} (hexec : exec i s = .next (s.mma p cell n tile sel a b c k)) : bad i := fun hwidth hrec hg => by
    refine ⟨_, hexec, ?_⟩
    rw [mma_one ha, sign_narrow hunif hfree cell sel.toNat tile c hwidth]
    exact takeAt_traps_at s g _ 0x3D _ [] _ ha (.inl hrec) (by decide) (by decide) (.inl (by simp [hg])) fun _ hx _ => hx
  have hfew {cell : Nat} (hsel : sel.toNat ≤ 2) (hcell : cell ≠ 0xC4) (hkop : mmaKop cell / 32 = 2) :
      ¬if cell = 0xC4 then sel.toNat ≠ 0 else 4 < sel.toNat + mmaKop cell / 32 := by
    rw [if_neg hcell, hkop]
    omega
  refine ⟨fun hgood hsel => hout rfl hgood ?_, fun hgood hsel => hout rfl hgood (hfew hsel (by decide) rfl),
    fun hgood hsel => hout rfl hgood (hfew hsel (by decide) rfl), fun hgood hsel => hout rfl hgood (hfew hsel (by decide) rfl),
    fun hgood hsel => hout rfl hgood ?_, hbad rfl, hbad rfl, hbad rfl, hbad rfl, hbad rfl⟩
  · rw [hsel]
    decide
  · rw [hsel]
    decide

end Sys2Proof.Machine
end

section
/-! SUPPORT. A wake of a porter one of whose warps holds a lane that its slot does not have (R255). -/

namespace Sys2Proof.Machine

/-- A hold of a lane that a warp slot, which has 64 lanes, does not have. -/
def strayHold : Tab LaneHold := [(64, ⟨.halt, 0, 0, 0, 0, 0, 0, []⟩)]

/-- The porter of die 0, awake, with the one warp that stands, in which that lane is halted. -/
def strayHalt : State :=
  { State.reset with
    dies := [{ Die.reset with porterGated := false }]
    warps := [(porterCore 0 * 16, { Warp.reset with holds := strayHold })] }

/-- The wake reaches the lanes of the slot alone: the hold stays. -/
theorem strayHalt_stays : Completes (.porterWake 0) strayHalt fun t => (t.warp (porterCore 0 * 16)).holds.length = 1 :=
  completes_of_runsTo _ _ _ (by decide +kernel)

/-- Refutes O47. What it says of a wake asks for no bound on the lane that is held; in `strayHalt` it is lane 64, whose hold the wake leaves. -/
theorem not_escalation : ¬Obligations.Escalation := by
  unfold Obligations.Escalation
  intro h
  obtain ⟨-, -, -, -, -, -, hwake, -⟩ := h.2 strayHalt (porterCore 0 * 16) 0
  obtain ⟨t, ht, hholds, -⟩ := hwake 64 ⟨.halt, 0, 0, 0, 0, 0, 0, []⟩ rfl (by decide +kernel) rfl rfl rfl rfl
  obtain ⟨u, hu, hlen⟩ := strayHalt_stays
  obtain rfl : u = t := Host.Outcome.next.inj (hu.symm.trans ht)
  rw [hholds] at hlen
  exact absurd hlen (by decide)

end Sys2Proof.Machine
end

section
/-! SUPPORT. A cause posted to its log (R255, R348). -/

namespace Sys2Proof.Machine

/-- The state once a cause that is bound for the porter has asked for its wake (R255). -/
def State.rung (s : State) (code : Nat) (i : LogInfo) : State := if causeDest code = .porter then s.later (.porterWake i.die) else s

/-- Whether a cause log is off or full (R348). -/
def Fn.logFull (x : Fn) : Prop := x.clbase = 0 ∨ x.clsize = 0 ∨ x.clsize ≤ (x.clwr - x.clrd).toNat

/-- The address in host memory of the next entry of a cause log (R348). -/
def Fn.nextEntry (x : Fn) : Nat := x.clbase.toNat + 32 * (x.clwr.toNat % x.clsize)

/-- `p` is the same before and after the wake that a cause asks for. -/
theorem rung_same {β : Type} (s : State) (code : Nat) (i : LogInfo) (p : State → β) (hp : ∀ agenda, p { s with agenda := agenda } = p s) :
    p (s.rung code i) = p s := by
  unfold State.rung
  split
  · exact hp _
  · rfl

theorem rung_agenda (s : State) (code : Nat) (i : LogInfo) :
    (s.rung code i).agenda = s.agenda ++ (if causeDest code = .porter then [.porterWake i.die] else []) := by
  unfold State.rung
  split
  · rfl
  · exact (List.append_nil _).symm

theorem rung_fn (s : State) (code : Nat) (i : LogInfo) (n : Nat) : (s.rung code i).fn n = s.fn n := rung_same s code i (State.fn · n) fun _ => rfl

theorem rung_fns (s : State) (code : Nat) (i : LogInfo) : (s.rung code i).fns = s.fns := rung_same s code i State.fns fun _ => rfl

theorem rung_out (s : State) (code : Nat) (i : LogInfo) : (s.rung code i).out = s.out := rung_same s code i State.out fun _ => rfl

theorem rung_host (s : State) (code : Nat) (i : LogInfo) : (s.rung code i).host = s.host := rung_same s code i State.host fun _ => rfl

/-- A log that is off or full counts the cause as lost. -/
theorem post_lost (s : State) (code : Nat) (i : LogInfo) (h : (s.fn (logOwner code i.fn)).logFull) :
    s.post code i = (s.rung code i).onFn (logOwner code i.fn) fun x => { x with cllost := min (x.cllost + 1) 65535 } := by
  rw [← rung_fn s code i] at h
  exact if_pos h

/-- The state with a cause written at the next index of its log. -/
def State.logged (s : State) (code : Nat) (i : LogInfo) : State :=
  ({ s.rung code i with host := s.host.store (s.fn (logOwner code i.fn)).nextEntry 32 (logEntry code i).toNat } : State).onFn
    (logOwner code i.fn) fun x => { x with clwr := x.clwr + 1 }

/-- A log with room takes the entry, and vector 0 follows it. -/
theorem post_logged (s : State) (code : Nat) (i : LogInfo) (h : ¬(s.fn (logOwner code i.fn)).logFull) :
    s.post code i = (s.logged code i).msix (logOwner code i.fn) 0 := by
  rw [← rung_fn s code i] at h
  rw [State.logged, ← rung_fn s code i, ← rung_host s code i]
  exact if_neg h

theorem logged_fn (s : State) (code : Nat) (i : LogInfo) (hf : logOwner code i.fn < s.fns.length) :
    (s.logged code i).fn (logOwner code i.fn) =
      { s.fn (logOwner code i.fn) with clwr := (s.fn (logOwner code i.fn)).clwr + 1 } := by
  unfold State.logged
  rw [fn_onFn_same _ _ _ (by rw [← rung_fns s code i] at hf; exact hf), fn_host, rung_fn]

theorem logged_host (s : State) (code : Nat) (i : LogInfo) :
    (s.logged code i).host = s.host.store (s.fn (logOwner code i.fn)).nextEntry 32 (logEntry code i).toNat := by
  rw [State.logged, onFn_host]

theorem logged_out (s : State) (code : Nat) (i : LogInfo) : (s.logged code i).out = s.out := by
  rw [State.logged, onFn_out, host_out, rung_out]

theorem logged_fns (s : State) (code : Nat) (i : LogInfo) : (s.logged code i).fns.length = s.fns.length := by
  rw [State.logged, fns_length_onFn]
  exact congrArg List.length (rung_fns s code i)

/-- A message of a vector leaves host memory and what is due. -/
theorem msix_apart (s : State) (f v : Nat) : (s.msix f v).host = s.host ∧ (s.msix f v).agenda = s.agenda := by
  unfold State.msix
  dsimp only
  split <;> exact ⟨rfl, rfl⟩

/-- A vector that is not masked is sent; a masked one waits (R283). -/
theorem msix_sent {s : State} {f v : Nat} {e : Msix} (he : (s.fn f).msix[v]? = some e) (h : e.masked = false) :
    s.msix f v = { s with out := s.out ++ [.msix f v e.addr e.data] } := by
  unfold State.msix
  dsimp only
  rw [List.getD_eq_getElem?_getD, he]
  exact if_neg (by simp [h])

theorem msix_waits {s : State} {f v : Nat} {e : Msix} (he : (s.fn f).msix[v]? = some e) (h : e.masked = true) :
    s.msix f v = s.onFn f fun x => { x with msixPend := x.msixPend ||| BitVec.ofNat 16 (2 ^ v) } := by
  unfold State.msix
  dsimp only
  rw [List.getD_eq_getElem?_getD, he]
  exact if_pos h

/-- Byte `k` of an entry of 32 bytes. -/
theorem entry_byte (x : BitVec 256) (k : Nat) : BitVec.ofNat 8 (x.toNat / 2 ^ (8 * k)) = x.extractLsb' (8 * k) 8 := by
  rw [BitVec.extractLsb', Nat.shiftRight_eq_div_pow]

/-! ### The log with room -/

section
variable {s : State} {code : Nat} {i : LogInfo} (hroom : ¬(s.fn (logOwner code i.fn)).logFull) (hf : logOwner code i.fn < s.fns.length)

include hroom

theorem post_logged_host : (s.post code i).host = s.host.store (s.fn (logOwner code i.fn)).nextEntry 32 (logEntry code i).toNat := by
  rw [post_logged s code i hroom, (msix_apart _ _ _).1, logged_host]

/-- The entry stands at the next index, and the rest of host memory is what it was. -/
theorem post_entry (hwf : s.host.wf = true) :
    (∀ k, k < 32 → (s.post code i).host.byte ((s.fn (logOwner code i.fn)).nextEntry + k) = (logEntry code i).extractLsb' (8 * k) 8) ∧
    (∀ k, k < (s.fn (logOwner code i.fn)).nextEntry ∨ (s.fn (logOwner code i.fn)).nextEntry + 32 ≤ k →
      (s.post code i).host.byte k = s.host.byte k) := by
  rw [post_logged_host hroom]
  refine ⟨fun k hk => ?_, fun k hk => memory_byte_store_other 32 _ _ _ _ hwf hk⟩
  rw [memory_byte_store _ _ 32 _ _ hwf (Nat.le_add_right _ _) (Nat.add_lt_add_left hk _), Nat.add_sub_cancel_left, entry_byte]

include hf

/-- The writer's index moves on, and nothing counts as lost. -/
theorem post_index : ((s.post code i).fn (logOwner code i.fn)).clwr = (s.fn (logOwner code i.fn)).clwr + 1 ∧
    ((s.post code i).fn (logOwner code i.fn)).cllost = (s.fn (logOwner code i.fn)).cllost := by
  rw [post_logged s code i hroom]
  exact ⟨(msix_fn _ _ 0 _ Fn.clwr fun _ _ => rfl).trans (by rw [logged_fn s code i hf]),
    (msix_fn _ _ 0 _ Fn.cllost fun _ _ => rfl).trans (by rw [logged_fn s code i hf])⟩

/-- Vector 0 of the log's owner is sent, or waits while it is masked. -/
theorem post_vector {e : Msix} (he : (s.fn (logOwner code i.fn)).msix[0]? = some e) :
    (e.masked = false → (s.post code i).out = s.out ++ [.msix (logOwner code i.fn) 0 e.addr e.data]) ∧
    (e.masked = true → (s.post code i).out = s.out ∧ ((s.post code i).fn (logOwner code i.fn)).msixPend.getLsbD 0 = true) := by
  have hvector : ((s.logged code i).fn (logOwner code i.fn)).msix[0]? = some e := by rw [logged_fn s code i hf]; exact he
  rw [post_logged s code i hroom]
  refine ⟨fun h => ?_, fun h => ?_⟩
  · rw [msix_sent hvector h, logged_out]
  · rw [msix_waits hvector h, onFn_out, logged_out, fn_onFn_same _ _ _ (by rw [logged_fns]; exact hf)]
    refine ⟨rfl, ?_⟩
    rw [BitVec.getLsbD_or]
    exact Bool.or_eq_true_iff.2 (.inr (by decide))

end

theorem post_agenda (s : State) (code : Nat) (i : LogInfo) :
    (s.post code i).agenda = s.agenda ++ (if causeDest code = .porter then [.porterWake i.die] else []) := by
  rw [← rung_agenda s code i]
  by_cases h : (s.fn (logOwner code i.fn)).logFull
  · rw [post_lost s code i h, onFn_agenda]
  · rw [post_logged s code i h, (msix_apart _ _ _).2, State.logged, onFn_agenda]

end Sys2Proof.Machine
end

section
/-! SUPPORT. A notice that enters the usher (R350). -/

namespace Sys2Proof.Machine

/-- The segment once a notice has entered the usher: `k` is where the lowest runnable lanes stand, `v` the words of `vpc`. -/
def Seg.noticed (g : Seg) (code : Nat) (rest : List Nat) (hdr : DWord) (run : Mask) (v : List DWord) (now : Nat) : Seg :=
  { g with
    notices := rest
    etaken := 0
    evt := ⟨hdr, BitVec.ofNat 64 (8 * code + 1), hdr⟩
    udepth := 1
    usher := g.rel run
    urun := g.rel run
    vpc := v
    notBefore := max g.notBefore (now + 12) }

section
variable {s : State} {w lb : Nat} {g : Seg} (hg : (s.warp w).segAt lb = some g)

include hg

/-- A segment whose usher is entered, or that has no notice, takes none. -/
theorem execNoticeDelivery_idle (h : g.udepth ≠ 0 ∨ g.notices = []) : execNoticeDelivery w lb s = .next s := by
  unfold execNoticeDelivery
  dsimp only
  rw [hg]
  dsimp only
  rcases h with h | h
  · split
    · rfl
    · rw [if_pos (.inl h)]
  · rw [h]

/-- The first waiting notice enters where nothing keeps it out. -/
theorem execNoticeDelivery_enters {code : Nat} {rest : List Nat} {k : Pick} (hn : g.notices = code :: rest) (hu : g.udepth = 0) (hh : g.handler = 0)
    (hrec : g.record = none) (hc : g.cause = none) (ht : g.takeover = none) (hb : (s.warp w).atBoundary g = true)
    (hrun : (s.warp w).runnableIn g ≠ 0) (hk : (s.warp w).pick ((s.warp w).runnableIn g) = some k) :
    execNoticeDelivery w lb s = .next (s.onWarp w fun wp => (wp.goVpc ((s.warp w).runnableIn g) fun _ => g.ubase).onSeg lb fun h =>
      h.noticed code rest k.hdr ((s.warp w).runnableIn g) ((List.range h.width).map fun l =>
        if (g.lmask &&& ~~~g.lpark &&& g.rel (s.warp w).live).getLsbD l then wp.standing (lb + l) else h.vpc.getD l 0) s.now) := by
  unfold execNoticeDelivery
  dsimp only
  rw [hg]
  dsimp only
  rw [hn]
  dsimp only
  rw [if_neg (by simpa [hu, hh, hrec, hc, ht, hb] using hrun), hk]
  rfl

end

end Sys2Proof.Machine
end

section
/-! SUPPORT. The porter's service of a fetch fault (R255, R393, R394). -/

namespace Sys2Proof.Machine

/-! ### What the service reads (R176, R181, R393) -/

theorem leafSlot_congr {s t : State} (hmem : t.mem = s.mem) (hfns : t.fns = s.fns) (fn : Nat) (va : DWord) (lvls : List Nat) (table : Nat) :
    t.leafSlot fn va lvls table = s.leafSlot fn va lvls table := by
  have hstage : ∀ g, t.stageTwo fn g = s.stageTwo fn g := fun g => by
    unfold State.stageTwo State.fn
    rw [hfns]
  induction lvls generalizing table with
  | nil => rfl
  | cons lvl rest ih =>
    unfold State.leafSlot
    rw [hstage, hmem]
    simp only [ih]

/-- A wake keeps of every die all but what waits for its porter. -/
theorem wakePorter_die {β : Type} (s : State) (die d : Nat) (p : Die → β) (hp : ∀ x k, p { x with porterWake := k } = p x) :
    p ((s.wakePorter die).die d) = p (s.die d) := by
  unfold State.wakePorter
  exact foldl_field (p := fun t : State => p (t.die d))
    (fun t w => (die_onDie_kept (t.onWarp w Warp.wakeHalted) die d _ p fun x => hp x _).trans rfl) _ s

/-- A wake of a porter keeps nothing from a line (R170, R172). -/
theorem wakePorter_textReady (s : State) (die k leaf pa : Nat) : (s.wakePorter die).textReady k leaf pa = s.textReady k leaf pa := by
  have hholds : ∀ d, (s.wakePorter die).wrapHolds d = s.wrapHolds d := fun d => by
    unfold State.wrapHolds
    rw [wakePorter_die s die d Die.wrapLate fun _ _ => rfl, (wakePorter_woken s die).same State.wrapAt fun _ _ => rfl,
      (wakePorter_woken s die).same State.homeOps fun _ _ => rfl]
  have hready : ∀ line, (s.wakePorter die).lineReady line = s.lineReady line := fun line => by
    have hat : (s.wakePorter die).atHome line = s.atHome line := funext fun o => by
      unfold State.atHome
      rw [hholds]
    unfold State.lineReady State.lineHeld
    rw [hat, (wakePorter_woken s die).same (State.leaseFree · line) fun _ _ => rfl, (wakePorter_woken s die).same State.homeOps fun _ _ => rfl]
  unfold State.textReady State.wrapHeld
  rw [hholds]
  simp only [hready]

/-! ### Code lines dropped (R394, R410) -/

/-- `t` is `s` but for posts, and for what the instruction caches hold. -/
def Fetches (s t : State) : Prop := ∃ cores, Told { s with cores := cores } t

theorem dropCode_fetches (s : State) (core : Nat) (p : CodeLine → Bool) : Fetches s (s.dropCode core p) := by
  obtain ⟨_, _, _, _, hposted⟩ := told_foldl (fun t g => post_told t 0xB5
    { addr := BitVec.ofNat 64 (32 * g), detail := Config.openDetail 0xB5, die := core / 256, core := core % 256 })
    (((s.core core).icache.filter p).flatMap CodeLine.bad) s
  unfold State.dropCode
  dsimp only
  rw [hposted]
  exact ⟨_, _, _, _, _, rfl⟩

/-- What neither posts nor instruction caches touch is the same. -/
theorem Fetches.same {s t : State} {β : Type} (h : Fetches s t) (p : State → β)
    (hp : ∀ cores agenda host fns out, p { s with cores := cores, agenda := agenda, host := host, fns := fns, out := out } = p s) : p t = p s := by
  obtain ⟨_, _, _, _, _, rfl⟩ := h
  exact hp _ _ _ _ _

theorem Fetches.shaken {s t : State} (h : Fetches s t) : Shaken s t := by
  obtain ⟨_, h⟩ := h
  exact h.shaken.since rfl rfl (.refl _) rfl rfl

/-! ### The page filled (R394) -/

/-- The bytes that a piece of memory without a translation takes. -/
theorem writePieces_memory (s : State) (v : DWord) (a n : Nat) (bs : List Byte) :
    (s.writePieces false [⟨v, n, .hbm a, none⟩] bs).mem = s.mem.putAll a (bs.take n) := by
  have hlines : ∀ ls : List Nat, (ls.foldl (fun s l => (s.invalidateAll none l 1000).useL2 l .none) s).mem = s.mem := fun ls =>
    foldl_field (p := State.mem) (fun t l => (useL2_unwritten _ l .none).mem.trans (invalidateAll_mem t none l 1000)) ls s
  have hpiece : (s.writePieces false [⟨v, n, .hbm a, none⟩] bs).mem =
      ((pieceLines [⟨v, n, .hbm a, none⟩]).foldl (fun s l => (s.invalidateAll none l 1000).useL2 l .none) s).mem.putAll a (bs.take n) :=
    foldl_field (p := State.mem) (fun t l => (rfl : (t.hitLoc none l).mem = t.mem)) (linesOf (.hbm a) n) _
  rw [hpiece, hlines]

/-- Such a write tests the windows of the warp slots and leaves the rest of them. -/
theorem writePieces_struck (s : State) (v : DWord) (a n : Nat) (bs : List Byte) : Struck s (s.writePieces false [⟨v, n, .hbm a, none⟩] bs) := by
  have hlines : Struck s ((pieceLines [⟨v, n, .hbm a, none⟩]).foldl (fun s l => (s.invalidateAll none l 1000).useL2 l .none) s) :=
    struck_foldl (fun t l => (invalidateAll_recalled t none l 1000).shaken.toStruck.trans (useL2_refilled _ l .none).shaken.toStruck) _ s
  rw [State.writePieces, State.writePieces, State.writePiece]
  dsimp only
  refine (hlines.trans ?_).trans (struck_foldl (fun t l => (hitLoc_shaken t none l).toStruck) (linesOf (.hbm a) n) _)
  exact ⟨rfl, rfl, .refl _⟩

/-- A translation whose leaf entry lies at an address. -/
def leafAt (leaf : Nat) : Xlat := ⟨0, 0, 0, 0, 0, leaf, 0, false, false, false, false⟩

/-- The service's own request to the home slice of a leaf entry changes that entry alone (R179). -/
theorem fillBit_marks (s : State) (leaf die : Nat) :
    Marked (some (leafAt leaf)) s (s.leafOp ⟨noWarp, 0, false, noLane, .hbm leaf, 0, 8, .leafBits, 1, 0, die, .none⟩) := by
  have hwaits : ∀ o, Shaken s (if s.homeOps.contains o then s else { s with homeOps := s.homeOps ++ [o] }) := fun o => by
    split
    · exact .refl s
    · exact ⟨⟨rfl, rfl, .refl _⟩, rfl, rfl⟩
  unfold State.leafOp
  dsimp only
  split
  · exact (Shaken.refl s).marked _
  split
  · exact performLeaf_marks s noWarp (leafAt leaf) 1
  · exact (hwaits _).marked _

section
variable (s : State) (w : Nat) (cores : List Nat) (leaf pa : Nat) (bs : List Byte)

/-- The state once the bytes stand and the caches have dropped the page's lines. -/
def State.textWritten : State :=
  cores.foldl (fun s core => s.dropCode core fun c => c.line / 32 == pa / 4096)
    ((s.writePieces false [⟨BitVec.ofNat 64 pa, 4096, .hbm pa, none⟩] bs).dropCode (porterCore (dieOf w)) fun _ => true)

theorem fillText_eq : s.fillText w cores leaf pa bs =
    (s.textWritten w cores pa bs).leafOp ⟨noWarp, 0, false, noLane, .hbm leaf, 0, 8, .leafBits, 1, 0, dieOf w, .none⟩ := rfl

theorem textWritten_struck : Struck s (s.textWritten w cores pa bs) :=
  ((writePieces_struck s _ pa 4096 bs).trans (dropCode_fetches _ _ _).shaken.toStruck).trans
    (struck_foldl (fun t core => (dropCode_fetches t core _).shaken.toStruck) cores _)

theorem textWritten_mem : (s.textWritten w cores pa bs).mem = s.mem.putAll pa (bs.take 4096) :=
  (foldl_field (p := State.mem) (fun t core => (dropCode_fetches t core _).shaken.mem) cores _).trans
    ((dropCode_fetches _ _ _).shaken.mem.trans (writePieces_memory s _ pa 4096 bs))

theorem textWritten_flash : (s.textWritten w cores pa bs).flash = s.flash :=
  (foldl_field (p := State.flash) (fun t core => (dropCode_fetches t core _).same State.flash fun _ _ _ _ _ => rfl) cores _).trans
    (((dropCode_fetches _ _ _).same State.flash fun _ _ _ _ _ => rfl).trans
      (of_bare (writePieces_bare s _ _ _) State.flash fun _ => rfl))

theorem fillText_struck : Struck s (s.fillText w cores leaf pa bs) :=
  (textWritten_struck s w cores pa bs).trans (fillBit_marks _ leaf (dieOf w)).toStruck

theorem fillText_flash : (s.fillText w cores leaf pa bs).flash = s.flash :=
  (of_bare (leafOp_bare (s.textWritten w cores pa bs) _) State.flash fun _ => rfl).trans (textWritten_flash s w cores pa bs)

/-- Apart from the leaf entry, memory holds the page and what it held. -/
theorem fillText_byte (hwf : s.mem.wf = true) {k : Nat} (hk : k < leaf ∨ leaf + 8 ≤ k) :
    (s.fillText w cores leaf pa bs).mem.byte k = (s.mem.putAll pa (bs.take 4096)).byte k := by
  have hmem := textWritten_mem s w cores pa bs
  rw [fillText_eq, (fillBit_marks _ leaf (dieOf w)).byte (by rw [hmem]; exact memory_putAll_wf _ _ _ hwf) k ?_, hmem]
  rintro ⟨x, hx, hin⟩
  cases hx
  have hleaf : (leafAt leaf).leafPa = leaf := rfl
  omega

end

/-! ### Lanes that fetch again -/

section
variable {wp : Warp} {lb : Nat} {g : Seg} {x : SegCause} (hg : wp.segAt lb = some g) (hx : g.cause = some x)

include hg hx

/-- The segment has no cause any more where none waits behind it. -/
theorem returnHeld_freed (hq : g.queue = []) : (wp.returnHeld lb).segAt lb = some { g with cause := none } := by
  unfold Warp.returnHeld
  rw [hg, Option.bind_some, hx]
  dsimp only
  rw [segAt_onSeg _ lb _ { g with cause := none } ?_ nextCause_lbase, nextCause_idle (g := { g with cause := none }) hq]
  split
  · rw [Warp.resumeHeader, hg]
    dsimp only
    rw [hx]
    exact sentOn_segAt hg _ _
  · rw [Warp.resumeCause, hg]
    dsimp only
    rw [hx]
    dsimp only
    rw [if_neg Bool.false_ne_true, Warp.segAt, standAt_segs]
    exact sentOn_segAt hg _ _

/-- Lanes whose clause had not begun stand at its header. -/
theorem returnHeld_pc (hcls : x.at_.cls = 7) {l : Nat} (hl : (g.abs x.lanes &&& wp.live).getLsbD l = true) : (wp.returnHeld lb).pc l = x.at_.hdr := by
  have heq : wp.returnHeld lb = (wp.sentOn lb (g.abs x.lanes &&& wp.live) x.at_.hdr).onSeg lb Seg.nextCause := by
    unfold Warp.returnHeld
    rw [hg, Option.bind_some, hx]
    dsimp only
    rw [if_pos (.inl hcls), Warp.resumeHeader, hg]
    dsimp only
    rw [hx]
    rfl
  rw [heq]
  exact sentOn_pc wp lb _ _ l hl

end

/-- The lanes of a served fetch fault of warp `w` return to where they stood. -/
def State.sentBack (s : State) (w lb : Nat) : State := s.onWarp w fun wp => wp.returnHeld lb

section
variable {s : State} {w lb : Nat} {g : Seg} {x : SegCause} (hsegs : (s.warp w).segs = [g]) (hlb : g.lbase = lb) (hx : g.cause = some x)

include hsegs hlb

theorem segAt_alone : (s.warp w).segAt lb = some g := by
  simp [Warp.segAt, hsegs, hlb]

include hx

theorem sentBack_segAt (hq : g.queue = []) : ((s.sentBack w lb).warp w).segAt lb = some { g with cause := none } := by
  rw [State.sentBack, warp_onWarp_same]
  exact returnHeld_freed (segAt_alone hsegs hlb) hx hq

theorem sentBack_announced (hq : g.queue = []) : (s.sentBack w lb).announce w lb = s.sentBack w lb :=
  announce_calm (sentBack_segAt hsegs hlb hx hq) rfl

end

/-! ### The service (R255, R394) -/

/-- A warp slot among those that are all changed. -/
theorem warp_mapV {s t : State} {w : Nat} {f : Nat → Warp → Warp} (hfind : s.warps.find w = some (s.warp w)) (h : t.warps = s.warps.mapV f) :
    t.warp w = f w (s.warp w) := by
  rw [State.warp, h, tab_find_mapV, hfind]
  rfl

section
variable {s : State} {w lb : Nat} {g : Seg} {x : SegCause} (hsegs : (s.warp w).segs = [g]) (hlb : g.lbase = lb) (hx : g.cause = some x)
  (hcode : x.code = 0x73) (hhid : x.hid = 0)

include hsegs hlb hx hcode hhid

/-- A fetch fault of the only segment of a warp wakes the porter, which serves it. -/
theorem execFetchFaultService_one (hwin : (s.warp w).window = none) :
    execFetchFaultService w s = .next ((s.wakePorter (dieOf w)).serveFetch w g x) := by
  unfold execFetchFaultService
  dsimp only
  rw [if_neg (by simp [Warp.mayDeliver, hwin]), hsegs, List.foldl_cons, List.foldl_nil, hlb, segAt_alone hsegs hlb, Option.bind_some, hx]
  dsimp only
  rw [if_pos ⟨hcode, hhid⟩]

/-- A failure holds the cause for the host, which the free hold identifier names. -/
theorem fetchHold_holds (code : Nat) (detail : Word) : ((s.fetchHold w g x code detail).warp w).regs = (s.warp w).regs ∧
    ((s.fetchHold w g x code detail).warp w).segAt lb = some { g with cause := some { x with hid := freeHold s.holds } } := by
  have hmine : s.waitsFill (s.ctxOf g.gid) x.logAddr.toNat g = true := by simp [State.waitsFill, hx, hcode, hhid]
  have hfind : s.warps.find w = some (s.warp w) := by
    cases h : s.warps.find w with
    | none =>
      rw [State.warp, h] at hsegs
      cases hsegs
    | some v => rw [State.warp, h, Option.getD_some]
  have hwarp : (s.fetchHold w g x code detail).warp w = (s.warp w).onSegs fun h =>
      if s.waitsFill (s.ctxOf g.gid) x.logAddr.toNat h then h.onCause fun y => { y with hid := freeHold s.holds } else h := by
    refine warp_mapV (f := fun _ wp => wp.onSegs fun h => if s.waitsFill (s.ctxOf g.gid) x.logAddr.toNat h then
      h.onCause fun y => { y with hid := freeHold s.holds } else h) hfind ?_
    unfold State.fetchHold
    exact (post_quiet _ _ _).warps
  rw [hwarp]
  refine ⟨rfl, ?_⟩
  rw [Warp.segAt, Warp.onSegs, hsegs, List.map_singleton, if_pos hmine, Seg.onCause, hx]
  exact List.find?_cons_of_pos (by simp [hlb])

end

/-! ### The ways the service ends (R393, R394) -/

/-- The leaf entry of the page at which a segment's fetch fault stands. -/
def State.faultSlot (s : State) (g : Seg) (x : SegCause) : Except Nat Nat :=
  s.leafSlot (s.fnOf g.gid) x.logAddr [5, 4, 3, 2, 1, 0] (((s.ctxs.find (s.ctxOf g.gid)).map fun c => c.root.toNat).getD 0)

/-- The text extent of that page. -/
def State.faultExtent (s : State) (g : Seg) (x : SegCause) : Option (Except Nat (Nat × Option Nat)) :=
  s.extent (s.ctxOf g.gid) (x.logAddr.toNat - x.logAddr.toNat % 4096)

section
variable {s : State} {w : Nat} {g : Seg} {x : SegCause}

/-- A page that is valid by now lets the lanes fetch again. -/
theorem serveFetch_valid {leaf : Nat} (hslot : s.faultSlot g x = .ok leaf) (hv : pteValid (s.mem.dword leaf) = true) :
    s.serveFetch w g x = (s.sentBack w g.lbase).announce w g.lbase := by
  unfold State.serveFetch
  rw [State.faultSlot] at hslot
  simp only [hslot, hv, if_true]
  rfl

/-- A walk that fails, and a page that no extent covers or whose extent cannot be read, are held for the host. -/
theorem serveFetch_fails (h : (∃ code, s.faultSlot g x = .error code) ∨ (∃ leaf, s.faultSlot g x = .ok leaf ∧
    pteValid (s.mem.dword leaf) = false ∧ (s.faultExtent g x = none ∨ ∃ code, s.faultExtent g x = some (.error code)))) :
    ∃ code detail, s.serveFetch w g x = s.fetchHold w g x code detail := by
  unfold State.serveFetch
  rw [State.faultSlot, State.faultExtent] at h
  rcases h with ⟨code, hslot⟩ | ⟨leaf, hslot, hv, hext | ⟨code, hext⟩⟩
  · simp only [hslot]
    exact ⟨_, _, rfl⟩
  · simp only [hslot, hv, hext]
    exact ⟨_, _, rfl⟩
  · simp only [hslot, hv, hext]
    exact ⟨_, _, rfl⟩

section
variable {leaf src pa : Nat} (hslot : s.faultSlot g x = .ok leaf) (hv : pteValid (s.mem.dword leaf) = false)
  (hext : s.faultExtent g x = some (.ok (src, none))) (hpa : s.stageTwo (s.fnOf g.gid) (ptePa (s.mem.dword leaf)) = some pa)
  (hphys : physFault pa = none) (hready : s.textReady (dieOf w) leaf pa = true)

include hslot hv hext hpa hphys hready

/-- A page of the code store that cannot be read is held for the host. -/
theorem serveFetch_unread (hbad : s.flashBad src = true) : s.serveFetch w g x = s.fetchHold w g x 0x89 2 := by
  unfold State.serveFetch
  rw [State.faultSlot] at hslot
  rw [State.faultExtent] at hext
  simp [hslot, hv, hext, hpa, hphys, hready, hbad]

/-- One that can be read is filled, and the lanes fetch again. -/
theorem serveFetch_filled (hgood : s.flashBad src = false) :
    ∃ cores, s.serveFetch w g x = ((s.fillText w cores leaf pa (s.flash.bytes src 4096)).sentBack w g.lbase).announce w g.lbase := by
  unfold State.serveFetch
  rw [State.faultSlot] at hslot
  rw [State.faultExtent] at hext
  simp only [hslot, hv, hext, hpa, hphys, hready, hgood]
  exact ⟨_, rfl⟩

end

end

end Sys2Proof.Machine
end

section
/-! SUPPORT. What a wake of a porter leaves of a fetch fault's service (R255). -/

namespace Sys2Proof.Machine

section
variable (s : State) (die : Nat)

theorem wakePorter_faultSlot (g : Seg) (x : SegCause) : (s.wakePorter die).faultSlot g x = s.faultSlot g x := by
  have h := wakePorter_woken s die
  unfold State.faultSlot
  rw [h.same (State.fnOf · g.gid) fun _ _ => rfl, h.same (State.ctxOf · g.gid) fun _ _ => rfl, h.same State.ctxs fun _ _ => rfl]
  exact leafSlot_congr (h.same State.mem fun _ _ => rfl) (h.same State.fns fun _ _ => rfl) _ _ _ _

theorem wakePorter_faultExtent (g : Seg) (x : SegCause) : (s.wakePorter die).faultExtent g x = s.faultExtent g x :=
  (wakePorter_woken s die).same (State.faultExtent · g x) fun _ _ => rfl

theorem wakePorter_mem : (s.wakePorter die).mem = s.mem := (wakePorter_woken s die).same State.mem fun _ _ => rfl

theorem wakePorter_stageTwo (g : Seg) (a : Nat) : (s.wakePorter die).stageTwo ((s.wakePorter die).fnOf g.gid) a = s.stageTwo (s.fnOf g.gid) a :=
  (wakePorter_woken s die).same (fun t => t.stageTwo (t.fnOf g.gid) a) fun _ _ => rfl

theorem wakePorter_flashBad (src : Nat) : (s.wakePorter die).flashBad src = s.flashBad src :=
  (wakePorter_woken s die).same (State.flashBad · src) fun _ _ => rfl

theorem wakePorter_flash : (s.wakePorter die).flash = s.flash := (wakePorter_woken s die).same State.flash fun _ _ => rfl

theorem wakePorter_holds : (s.wakePorter die).holds = s.holds := (wakePorter_wakes s die).holds

end

/-- The warps of a porter core alone are touched. -/
theorem wakePorter_warp (s : State) {w : Nat} (h : isPorter (coreOf w) = false) : (s.wakePorter (dieOf w)).warp w = s.warp w :=
  (wakePorter_wakes s (dieOf w)).warp w fun hcore => by
    rw [hcore, isPorter, porterCore, coreNo] at h
    have hmod : (dieOf w * 256 + 128) % 256 = 128 := by omega
    rw [hmod] at h
    cases h

/-- A byte of a list of bytes of memory. -/
theorem memory_bytes_getD (m : Memory) (a n k : Nat) (hk : k < n) : (m.bytes a n).getD k 0 = m.byte (a + k) := by
  simp [Memory.bytes, List.getD_eq_getElem?_getD, hk]

theorem memory_bytes_length (m : Memory) (a n : Nat) : (m.bytes a n).length = n := by
  rw [Memory.bytes, List.length_map, List.length_range]

end Sys2Proof.Machine
end

section
/-! SUPPORT. Cause logs, notices and the service of fetch faults together (R255, R348, R350, R393, R394). -/

namespace Sys2Proof.Machine

/-- The bytes of a page that has been filled from the code store, and those beside it. -/
theorem fillText_page {s : State} (w : Nat) (cores : List Nat) (leaf pa src : Nat) (hwf : s.mem.wf = true) :
    (∀ k, k < 4096 → leaf + 8 ≤ pa + k ∨ pa + k < leaf →
      (s.fillText w cores leaf pa (s.flash.bytes src 4096)).mem.byte (pa + k) = s.flash.byte (src + k)) ∧
    ∀ k, k < pa ∨ pa + 4096 ≤ k → leaf + 8 ≤ k ∨ k < leaf →
      (s.fillText w cores leaf pa (s.flash.bytes src 4096)).mem.byte k = s.mem.byte k := by
  have hlen := memory_bytes_length s.flash src 4096
  refine ⟨fun k hk hout => ?_, fun k hk hout => ?_⟩
  · rw [fillText_byte s w cores leaf pa _ hwf (by omega), memory_byte_putAll _ _ _ _ hwf, List.take_of_length_le (le_of_eq hlen), hlen,
      if_pos (by omega), Nat.add_sub_cancel_left, memory_bytes_getD _ _ _ _ hk]
  · rw [fillText_byte s w cores leaf pa _ hwf (by omega), memory_byte_putAll _ _ _ _ hwf, List.take_of_length_le (le_of_eq hlen), hlen,
      if_neg (by omega)]

/-- Settles O46: a post by its log, a notice by the event, and a fetch fault by the four ends of its service. -/
theorem causeEvents : Obligations.CauseEvents := by
  unfold Obligations.CauseEvents
  constructor
  · intro s code i f x full a hf hwf
    refine ⟨(post_quiet s code i).mem, post_agenda s code i, fun hfull => ?_, fun hroom => ?_⟩
    · rw [post_lost s code i hfull, onFn_host, onFn_out, rung_host, rung_out, fn_onFn_same _ _ _ (by rw [rung_fns]; exact hf), rung_fn]
      exact ⟨rfl, rfl, rfl⟩
    · obtain ⟨hwr, hlost⟩ := post_index hroom hf
      obtain ⟨hentry, hrest⟩ := post_entry hroom hwf
      exact ⟨hwr, hlost, hentry, hrest, fun e he => post_vector hroom hf he⟩
  intro s w lb g wp run hsegs hlb
  refine ⟨?_, fun h => ⟨_, execNoticeDelivery_idle (segAt_alone hsegs hlb) h, rfl⟩, ?_⟩
  · intro code rest k hn hu hh hrec hc ht hb hrun hk
    have hg := segAt_alone hsegs hlb
    refine ⟨_, execNoticeDelivery_enters hg hn hu hh hrec hc ht hb hrun hk, apart_onWarp_of s w _, ?_⟩
    rw [warp_onWarp_same]
    refine ⟨rfl, ⟨_, segAt_onSeg _ lb _ g hg fun _ => rfl, rfl, rfl, rfl, rfl, rfl, rfl, le_max_right _ _, fun l hl hact => ?_⟩,
      fun l hl => ?_⟩
    · have hget : ∀ f : Nat → DWord, ((List.range g.width).map f).getD l 0 = f l := fun f => by
        simp [List.getD_eq_getElem?_getD, hl]
      exact (hget _).trans (if_pos hact)
    · exact setPcs_pc (s.warp w) run (fun _ => g.ubase) l hl
  · intro x hx hcode hhid hwin hporter fn ctx page slot back held
    have hstep := execFetchFaultService_one hsegs hlb hx hcode hhid hwin
    have hwarp := wakePorter_warp s hporter
    have hslot := wakePorter_faultSlot s (dieOf w) g x
    have hext := wakePorter_faultExtent s (dieOf w) g x
    have hmem := wakePorter_mem s (dieOf w)
    have hstage := wakePorter_stageTwo s (dieOf w) g
    have hready := wakePorter_textReady s (dieOf w) (dieOf w)
    have hbad := wakePorter_flashBad s (dieOf w)
    have hflash := wakePorter_flash s (dieOf w)
    have hholds := wakePorter_holds s (dieOf w)
    generalize s.wakePorter (dieOf w) = u at *
    have husegs : (u.warp w).segs = [g] := by rw [hwarp]; exact hsegs
    have hheld : ∀ code detail, held (u.fetchHold w g x code detail) := fun code detail => by
      obtain ⟨hregs, hseg⟩ := fetchHold_holds husegs hlb hx hcode hhid code detail
      rw [hwarp] at hregs
      rw [hholds] at hseg
      exact ⟨hregs, _, hseg, rfl⟩
    refine ⟨fun leaf hleaf hv hcls hq => ?_, fun hfails => ?_,
      fun leaf src pa hleaf hv hfrom hpa hphys htext => ⟨fun h => ?_, fun h hwf hq => ?_⟩⟩
    · have hserve := serveFetch_valid (w := w) (hslot.trans hleaf) (by rw [hmem]; exact hv)
      rw [hlb, sentBack_announced husegs hlb hx hq] at hserve
      refine ⟨_, hstep.trans (by rw [hserve]), ⟨_, sentBack_segAt husegs hlb hx hq, by simp⟩, apart_onWarp_of u w _, fun l hl => ?_⟩
      rw [State.sentBack, warp_onWarp_same, hwarp]
      exact returnHeld_pc (segAt_alone hsegs hlb) hx hcls hl
    · obtain ⟨code, detail, hserve⟩ := serveFetch_fails (s := u) (w := w) (g := g) (x := x) (by rw [hslot, hext, hmem]; exact hfails)
      exact ⟨_, hstep.trans (by rw [hserve]), hheld code detail⟩
    · have hserve := serveFetch_unread (w := w) (hslot.trans hleaf) (by rw [hmem]; exact hv) (hext.trans hfrom)
        (by rw [hmem]; exact (hstage _).trans hpa) hphys (by rw [hready]; exact htext) (by rw [hbad]; exact h)
      exact ⟨_, hstep.trans (by rw [hserve]), hheld _ _⟩
    · obtain ⟨cores, hserve⟩ := serveFetch_filled (w := w) (hslot.trans hleaf) (by rw [hmem]; exact hv) (hext.trans hfrom)
        (by rw [hmem]; exact (hstage _).trans hpa) hphys (by rw [hready]; exact htext) (by rw [hbad]; exact h)
      have hfill := (fillText_struck u w cores leaf pa (u.flash.bytes src 4096)).warp w
      have hfsegs : ((u.fillText w cores leaf pa (u.flash.bytes src 4096)).warp w).segs = [g] := (congrArg Warp.segs hfill :).trans husegs
      rw [hlb, sentBack_announced hfsegs hlb hx hq] at hserve
      obtain ⟨hpage, hbeside⟩ := fillText_page w cores leaf pa src (by rw [hmem]; exact hwf)
      exact ⟨_, hstep.trans (by rw [hserve]), ⟨_, sentBack_segAt hfsegs hlb hx hq, by simp⟩,
        (fillText_flash u w cores leaf pa _).trans hflash, fun k hk ho => (hpage k hk ho).trans (by rw [hflash]),
        fun k hk ho => (hbeside k hk ho).trans (by rw [hmem])⟩

end Sys2Proof.Machine
end

section
/-! SUPPORT. Runs of graphs: their nodes, and what the work of a node starts (R304 to R308). -/

namespace Sys2Proof.Machine

/-! ### A run (R304) -/

theorem decrement_idle {y : Run} {k : Nat} (h : y.sts[k]? ≠ some .waiting) : y.decrement k = y := if_pos h

/-- What a decrement leaves of a run, whatever the node. -/
theorem decrement_kept (y : Run) (k : Nat) : (y.decrement k).done = y.done ∧ (y.decrement k).abandoned = y.abandoned := by
  unfold Run.decrement
  split
  · exact ⟨rfl, rfl⟩
  · dsimp only
    split <;> exact ⟨rfl, rfl⟩

/-- A node that waits counts down, and is ready at 0 where the run goes on. -/
theorem decrement_counts {y : Run} {k : Nat} (h : y.sts[k]? = some .waiting) (hk : k < y.counts.length) :
    (y.decrement k).counts.getD k 0 = y.counts.getD k 0 - 1 ∧
    (y.decrement k).sts[k]? = some (if y.counts.getD k 0 ≤ 1 ∧ y.abandoned = false then .ready else .waiting) := by
  have hlen : k < y.sts.length := (List.getElem?_eq_some_iff.1 h).1
  have hcount : (y.counts.set k (y.counts.getD k 0 - 1)).getD k 0 = y.counts.getD k 0 - 1 := by
    simp [List.getD_eq_getElem?_getD, hk]
  unfold Run.decrement
  rw [if_neg (not_not.2 h)]
  dsimp only
  by_cases hready : y.counts.getD k 0 ≤ 1 ∧ y.abandoned = false
  · rw [if_pos hready, if_pos ⟨by omega, by simp [hready.2]⟩]
    refine ⟨hcount, ?_⟩
    rw [Run.setSt]
    exact List.getElem?_set_self hlen
  · rw [if_neg hready, if_neg fun hc => hready ⟨by omega, by simpa using hc.2⟩]
    exact ⟨hcount, h⟩

theorem finish_kept (y : Run) (n : Nat) (ks : List Nat) : (y.finish n ks).done = y.done ∧ (y.finish n ks).abandoned = y.abandoned :=
  List.foldlRecOn (motive := fun z : Run => z.done = y.done ∧ z.abandoned = y.abandoned) ks Run.decrement ⟨rfl, rfl⟩ fun z hz k _ =>
    ⟨(decrement_kept z k).1.trans hz.1, (decrement_kept z k).2.trans hz.2⟩

theorem enterLoop_kept (y : Run) (x : Graph) (n : Nat) (d : BitVec 512) :
    (y.enterLoop x n d).done = y.done ∧ (y.enterLoop x n d).abandoned = y.abandoned := decrement_kept _ _

theorem newRun_count (x : Graph) (job : Option Nat) {k : Nat} {d : BitVec 512} (hk : k < x.nodes.length) (hd : x.nodes.getD k 0 = d) :
    (x.newRun job).counts[k]? = some (nodePred d) ∧
    (x.newRun job).sts[k]? = some (if nodePred d = 0 then NodeSt.ready else NodeSt.waiting) := by
  have hget : x.nodes[k]? = some d := by
    rw [← hd, List.getD_eq_getElem?_getD, List.getElem?_eq_getElem hk, Option.getD_some]
  unfold Graph.newRun
  simp [hget]

/-! ### The run of a graph in a state -/

section
variable {s : State} {g : Nat} {x : Graph} {y : Run} (hx : s.graphs.find g = some x) (hy : x.run = some y)

include hx hy

theorem onRun_find (f : Run → Run) : (s.onRun g f).graphs.find g = some { x with run := some (f y) } := by
  rw [State.onRun, tab_find_alter, hx, Option.map_some, hy]
  rfl

/-- A run that goes on stays. -/
theorem settleRun_goes (hdone : y.done = false) (habandoned : y.abandoned = false) : s.settleRun g = s := by
  unfold State.settleRun
  rw [hx]
  dsimp only
  rw [hy]
  exact if_neg (by simp [hdone, habandoned])

/-- A run that goes on, changed. -/
theorem settleRun_onRun {f : Run → Run} (hdone : (f y).done = false) (habandoned : (f y).abandoned = false) :
    (s.onRun g f).settleRun g = s.onRun g f := settleRun_goes (onRun_find hx hy f) rfl hdone habandoned

/-- A ready node of its kind, which no fault holds, acts. -/
theorem node_acts {n : Nat} {d : BitVec 512} (hd : x.nodes[n]? = some d) (hready : y.sts[n]? = some .ready) (habandoned : y.abandoned = false)
    (hheld : (s.holds.any fun h => h.2.2 == .node g n) = false) {kind : Nat} (hkind : nodeKind d = kind)
    (act : Graph → BitVec 512 → State) : s.node g n kind act = act x d := by
  unfold State.node
  rw [hx]
  dsimp only
  rw [hd, hy]
  exact if_pos ⟨hkind, hready, by simp [habandoned], by simp [hheld]⟩

/-- A run whose end node has finished is over where no node is held. -/
theorem settleRun_ends (hdone : y.done = true) (hnone : s.nodeHeld g = false) : s.settleRun g = s.endRun g x y := by
  unfold State.settleRun
  rw [hx]
  dsimp only
  rw [hy]
  exact if_pos ⟨.inl hdone, by simp [hnone]⟩

end

/-- A run that is over leaves memory, and no run of its graph where no trigger waits and no unload. -/
theorem endRun_calm (s : State) (g : Nat) {x : Graph} (y : Run) (hunloading : x.unloading = false) (hpending : x.pending = none) :
    (s.endRun g x y).graphs.find g = some { x with run := none, starting := none } ∧ (s.endRun g x y).mem = s.mem := by
  have hnext : ∀ t : State, t.nextTrigger g { x with run := none } =
      { t with graphs := t.graphs.put g { x with run := none, starting := none } } := fun t => by
    unfold State.nextTrigger
    rw [if_neg (by rw [hunloading]; decide), hpending]
    rfl
  unfold State.endRun
  dsimp only
  rw [hnext]
  refine ⟨tab_find_put_same _ _ _, ?_⟩
  exact (jobDone_steady _ _ _).mem

/-! ### The work of a node (R304, R420) -/

/-- The state in which the job of a node stands for its start alone. -/
def State.withNodeJob (s : State) (g n : Nat) : State :=
  { s with nextNo := s.nextNo + 1, jobs := s.jobs.put s.nextNo ⟨1, 0, some (g, n), false⟩ }

theorem newNodeJob_eq (s : State) (g n : Nat) : s.newJob 0 (some (g, n)) = (s.nextNo, s.withNodeJob g n) := rfl

theorem withNodeJob_find (s : State) (g n : Nat) : (s.withNodeJob g n).jobs.find s.nextNo = some ⟨1, 0, some (g, n), false⟩ :=
  tab_find_put_same _ _ _

theorem startLaunch_begun {s : State} {die ctx fn : Nat} {d : BitVec 512} {job : Nat} {o : CodeObj × Kern}
    (ho : s.findEntry die ctx (field d 63 0) = some o) (hfits : (launchOfDesc d ctx fn die o job).neverFits = false) :
    (s.startLaunch die ctx fn d job).1 = true := by
  rw [State.startLaunch]
  dsimp only
  rw [ho]
  dsimp only
  rw [hfits, if_neg Bool.false_ne_true]

/-- The launch of a node has begun, and the node's job stands for its units. -/
theorem nodeLaunch_begins {s : State} {g n die ctx fn : Nat} {d : BitVec 512} {o : CodeObj × Kern}
    (ho : s.findEntry die ctx (field d 63 0) = some o) (hfits : (launchOfDesc d ctx fn die o s.nextNo).neverFits = false)
    (hunits : (launchOfDesc d ctx fn die o s.nextNo).unitCount ≠ 0) :
    let u := ((s.withNodeJob g n).startLaunch die ctx fn d s.nextNo).2.jobDone (some s.nextNo) false
    u.graphs = s.graphs ∧ u.launches.find (s.nextNo + 1) = some (launchOfDesc d ctx fn die o s.nextNo) ∧
      u.jobs.find s.nextNo = some ⟨(launchOfDesc d ctx fn die o s.nextNo).unitCount, 0, some (g, n), false⟩ := by
  rw [startLaunch_begins (s := s.withNodeJob g n) ho hfits]
  generalize launchOfDesc d ctx fn die o s.nextNo = l at hunits
  generalize hv : ({ (s.withNodeJob g n).fresh.2 with launches := (s.withNodeJob g n).launches.put (s.withNodeJob g n).nextNo l } : State).addIntake
    die (s.withNodeJob g n).nextNo l.prio l.unitCount none = v
  have hjob : (v.addParts s.nextNo l.unitCount).jobs.find s.nextNo = some ⟨1 + l.unitCount, 0, some (g, n), false⟩ := by
    rw [State.addParts, tab_find_alter, ← hv]
    exact congrArg (Option.map _) (withNodeJob_find s g n)
  rw [jobDone_left hjob (by dsimp only; omega)]
  refine ⟨hv ▸ rfl, ?_, (tab_find_put_same _ _ _).trans ?_⟩
  · rw [← hv]
    exact tab_find_put_same _ _ _
  · rw [Nat.add_sub_cancel_left]
    rfl

/-- The copy of a node has begun, and the node's job stands for it. -/
theorem nodeCopy_begins {s : State} {g n die ctx fn : Nat} {d : BitVec 512} (hfull : emptyCopy 0xD0 d = false) :
    let u := ((s.withNodeJob g n).startCopy die ctx fn d s.nextNo).jobDone (some s.nextNo) false
    u.graphs = s.graphs ∧ u.jobs.find s.nextNo = some ⟨1, 0, some (g, n), false⟩ ∧ (u.cmds.find (s.nextNo + 1)).bind Cmd.image = some d := by
  rw [startCopy_eq _ _ _ _ _ hfull]
  have hjob : ((s.withNodeJob g n).jobs.alter s.nextNo fun (x : Job) => { x with left := x.left + 1 }).find s.nextNo =
      some ⟨2, 0, some (g, n), false⟩ := by
    rw [tab_find_alter, withNodeJob_find]
    rfl
  intro u
  have hu := jobDone_left (s := { s.withNodeJob g n with
    nextNo := (s.withNodeJob g n).nextNo + 1
    cmds := (s.withNodeJob g n).cmds.put (s.withNodeJob g n).nextNo (copyCmd die ctx fn s.nextNo (s.withNodeJob g n).now (s.withNodeJob g n).nextNo d)
    jobs := (s.withNodeJob g n).jobs.alter s.nextNo fun (x : Job) => { x with left := x.left + 1 } }) hjob Nat.one_ne_zero false
  rw [show u = _ from hu]
  refine ⟨rfl, tab_find_put_same _ _ _, ?_⟩
  exact congrArg (Option.bind · Cmd.image) (tab_find_put_same _ _ _)

/-! ### The kinds of nodes (R304 to R308, R338, R420) -/

section
variable {s : State} {g n : Nat} {x : Graph} {y : Run} {d : BitVec 512} (hx : s.graphs.find g = some x) (hy : x.run = some y)
  (hd : x.nodes[n]? = some d) (hready : y.sts[n]? = some .ready) (habandoned : y.abandoned = false)
  (hheld : (s.holds.any fun h => h.2.2 == .node g n) = false)

include hx hy hd hready habandoned hheld

/-- A launch node starts its launch and acts until the launch has completed. -/
theorem launchNode_acts (hkind : nodeKind d = 0) {bs : List Byte} {ps : List Piece} {o : CodeObj × Kern}
    (hdesc : s.readVirt x.die x.ctx x.fn (nodePtr d).toNat 64 = .ok (bs, ps)) (hps : s.piecesReadable x.die ps = true)
    (hfault : launchFault (BitVec.ofNat 512 (natOfBytes bs)) = none)
    (ho : s.findEntry x.die x.ctx (field (BitVec.ofNat 512 (natOfBytes bs)) 63 0) = some o)
    (hfits : (launchOfDesc (BitVec.ofNat 512 (natOfBytes bs)) x.ctx x.fn x.die o s.nextNo).neverFits = false) :
    execGraphLaunchNode g n s = .next (((((s.readTouch none ps).withNodeJob g n).startLaunch x.die x.ctx x.fn (BitVec.ofNat 512 (natOfBytes bs))
      s.nextNo).2.jobDone (some s.nextNo) false).onRun g fun y => y.setSt n .acting) := by
  have hbare := readTouch_bare s none ps
  have hno : (s.readTouch none ps).nextNo = s.nextNo := of_bare hbare State.nextNo fun _ => rfl
  have hentry : (s.readTouch none ps).findEntry x.die x.ctx (field (BitVec.ofNat 512 (natOfBytes bs)) 63 0) = some o :=
    (of_bare hbare (State.findEntry · x.die x.ctx (field (BitVec.ofNat 512 (natOfBytes bs)) 63 0)) fun _ => rfl).trans ho
  have hbegun := startLaunch_begun (s := (s.readTouch none ps).withNodeJob g n) hentry hfits
  unfold execGraphLaunchNode
  rw [node_acts hx hy hd hready habandoned hheld hkind, State.nodeDesc, hdesc]
  dsimp only
  rw [State.cpRead, if_pos hps, hfault]
  dsimp only
  rw [newNodeJob_eq, hno]
  dsimp only
  split
  · next hno' => exact Bool.noConfusion (hbegun.symm.trans (congrArg Prod.fst hno') : true = false)
  · next u hu => rw [hu]

/-- A copy node starts its copy and acts until the copy has completed. -/
theorem copyNode_acts (hkind : nodeKind d = 1) {bs : List Byte} {ps : List Piece}
    (hdesc : s.readVirt x.die x.ctx x.fn (nodePtr d).toNat 64 = .ok (bs, ps)) (hps : s.piecesReadable x.die ps = true)
    (hfault : copyFault (BitVec.ofNat 512 (natOfBytes bs)) = false) :
    execGraphCopyNode g n s = .next (((((s.readTouch none ps).withNodeJob g n).startCopy x.die x.ctx x.fn (BitVec.ofNat 512 (natOfBytes bs))
      s.nextNo).jobDone (some s.nextNo) false).onRun g fun y => y.setSt n .acting) := by
  have hno : (s.readTouch none ps).nextNo = s.nextNo := of_bare (readTouch_bare s none ps) State.nextNo fun _ => rfl
  unfold execGraphCopyNode
  rw [node_acts hx hy hd hready habandoned hheld hkind, State.nodeDesc, hdesc]
  dsimp only
  rw [State.cpRead, if_pos hps, hfault, if_neg Bool.false_ne_true, newNodeJob_eq, hno]

/-- A node that reads a word changes its run by what the word says, and the run goes on. -/
theorem wordNode_acts {kind : Nat} (hkind : nodeKind d = kind) {v : Word} {z : Piece} {f : Graph → BitVec 512 → Bool → Run → Run}
    (hword : s.cpWord x.die x.ctx x.fn (nodePtr d) = .ok (v, z)) (hz : s.piecesReadable x.die [z] = true) (hdone : y.done = false)
    (hkept : ∀ ok, (f x d ok y).done = y.done ∧ (f x d ok y).abandoned = y.abandoned) :
    ∃ t, s.node g n kind (fun x d => s.nodeWord g n x d fun s ok => s.onRun g (f x d ok)) = t ∧
      t.graphs.find g = some { x with run := some (f x d (condHolds (nodeCond d) v (nodeCmp d)) y) } := by
  have hgraphs : (s.readTouch none [z]).graphs.find g = some x :=
    (congrArg (Tab.find · g) (of_bare (readTouch_bare s none [z]) State.graphs fun _ => rfl)).trans hx
  obtain ⟨hsame, hgoes⟩ := hkept (condHolds (nodeCond d) v (nodeCmp d))
  refine ⟨_, ?_, onRun_find hgraphs hy _⟩
  rw [node_acts hx hy hd hready habandoned hheld hkind, State.nodeWord, hword]
  dsimp only
  rw [State.cpRead, if_pos hz, settleRun_onRun hgraphs hy (hsame.trans hdone) (hgoes.trans habandoned)]

/-- The end node ends its run where no node is held. -/
theorem endNode_ends (hkind : nodeKind d = 4) (hnone : s.nodeHeld g = false) :
    execGraphEndNode g n s = .next ((s.onRun g fun y => { y.finish n (nodeSuccs d) with done := true }).endRun g
      { x with run := some { y.finish n (nodeSuccs d) with done := true } } { y.finish n (nodeSuccs d) with done := true }) := by
  unfold execGraphEndNode
  rw [node_acts hx hy hd hready habandoned hheld hkind]
  exact congrArg _ (settleRun_ends (onRun_find hx hy _) rfl rfl hnone)

end

/-! ### Runs that start, nodes that finish (R304, R307) -/

section
variable {s : State} {g : Nat} {x : Graph} (hx : s.graphs.find g = some x)

include hx

/-- A run without patches starts at once. -/
theorem execGraphRunStart_starts {v : DWord} {ctx : Nat} {job : Option Nat} (hstart : x.starting = some (v, ctx, job)) (hrun : x.run = none)
    (hnone : s.nodeHeld g = false) (hpatches : fieldN v 55 49 = 0) : execGraphRunStart g s =
      .next { s.unclaim (.graph g) with graphs := s.graphs.put g { x with starting := none, run := some (x.newRun job) } } := by
  have hgoes := settleRun_goes (s := { s.unclaim (.graph g) with graphs := s.graphs.put g { x with starting := none, run := some (x.newRun job) } })
    (tab_find_put_same _ _ _) rfl rfl rfl
  unfold execGraphRunStart
  rw [hx]
  dsimp only
  rw [hstart]
  dsimp only
  rw [if_neg (by simp [hrun, hnone]), hpatches]
  exact congrArg _ hgoes

/-- Without a trigger, and while a run is under way, none starts. -/
theorem execGraphRunStart_waits (h : x.starting = none ∨ x.run.isSome = true) : execGraphRunStart g s = .next s := by
  unfold execGraphRunStart
  rw [hx]
  dsimp only
  rcases h with h | h
  · rw [h]
  · split
    · rfl
    · rw [if_pos (.inl h)]

/-- The work of a node has completed, and its run goes on. -/
theorem execGraphNodeFinish_goes {n j : Nat} {y : Run} {w : Job} (hy : x.run = some y)
    (hjob : (s.jobs.find? fun q => q.2.node == some (g, n) && q.2.left == 0) = some (j, w)) (hfailed : w.failed = false)
    (hdone : y.done = false) (habandoned : y.abandoned = false) : execGraphNodeFinish g n s =
      .next (({ s with jobs := s.jobs.del j } : State).onRun g fun y => y.finish n (nodeSuccs (x.nodes.getD n 0))) := by
  obtain ⟨hd, ha⟩ := finish_kept y n (nodeSuccs (x.nodes.getD n 0))
  unfold execGraphNodeFinish
  rw [hjob]
  dsimp only
  rw [hx]
  dsimp only
  rw [hfailed, if_neg Bool.false_ne_true]
  exact congrArg _ (settleRun_onRun (s := { s with jobs := s.jobs.del j }) hx hy (hd.trans hdone) (ha.trans habandoned))

end

/-- Settles O56: what each kind of node does to the run, and the run by its counts. -/
theorem graphEvents : Obligations.GraphEvents := by
  unfold Obligations.GraphEvents
  intro s g n x hx
  refine ⟨fun v ctx job hstart hrun hnone hpatches => ?_, fun h => ⟨_, execGraphRunStart_waits hx h, rfl⟩, ?_, ?_,
    fun y k => ⟨decrement_idle, decrement_counts⟩⟩
  · refine ⟨_, execGraphRunStart_starts hx hstart hrun hnone hpatches, rfl, x.newRun job, tab_find_put_same _ _ _, rfl, rfl, rfl, ?_⟩
    exact fun k d hk hd => newRun_count x job hk hd
  · intro y d hy hd hready habandoned hheld after desc
    refine ⟨?_, ?_, ?_, ?_, ?_⟩
    · intro bs ps o hkind hdesc hps hfault ho l hfits hunits
      have hbare := readTouch_bare s none ps
      have hno : (s.readTouch none ps).nextNo = s.nextNo := of_bare hbare State.nextNo fun _ => rfl
      have hgraphs : (s.readTouch none ps).graphs = s.graphs := of_bare hbare State.graphs fun _ => rfl
      have hentry := (of_bare hbare (State.findEntry · x.die x.ctx (field (BitVec.ofNat 512 (natOfBytes bs)) 63 0)) fun _ => rfl).trans ho
      have hstep := launchNode_acts hx hy hd hready habandoned hheld hkind hdesc hps hfault ho hfits
      have hbegins := nodeLaunch_begins (g := g) (n := n) (fn := x.fn) hentry
      rw [hno] at hbegins
      obtain ⟨hkept, hlaunch, hjob⟩ := hbegins hfits hunits
      exact ⟨_, hstep, onRun_find (by rw [hkept, hgraphs]; exact hx) hy _, hlaunch, hjob⟩
    · intro bs ps hkind hdesc hps hfault hfull
      have hbare := readTouch_bare s none ps
      have hno : (s.readTouch none ps).nextNo = s.nextNo := of_bare hbare State.nextNo fun _ => rfl
      have hgraphs : (s.readTouch none ps).graphs = s.graphs := of_bare hbare State.graphs fun _ => rfl
      obtain ⟨hkept, hjob, himage⟩ := nodeCopy_begins (s := s.readTouch none ps) (g := g) (n := n) (die := x.die) (ctx := x.ctx)
        (fn := x.fn) hfull
      rw [hno] at hkept hjob himage
      exact ⟨_, copyNode_acts hx hy hd hready habandoned hheld hkind hdesc hps hfault,
        onRun_find (by rw [hkept, hgraphs]; exact hx) hy _, hjob, himage⟩
    · intro v z hkind hword hz hdone
      obtain ⟨t, ht, hafter⟩ := wordNode_acts hx hy hd hready habandoned hheld hkind
        (f := fun _ d ok y => y.finish n (if ok then nodeSuccs d else [nodeElse d])) hword hz hdone fun ok => finish_kept y n _
      exact ⟨t, congrArg _ ht, hafter⟩
    · intro v z hkind hword hz hdone
      obtain ⟨t, ht, hafter⟩ := wordNode_acts hx hy hd hready habandoned hheld hkind
        (f := fun x d ok y => if ok then y.enterLoop x n d else y.finish n (nodeSuccs d)) hword hz hdone fun ok => by
          cases ok
          · exact finish_kept y n _
          · exact enterLoop_kept y x n d
      exact ⟨t, congrArg _ ht, hafter⟩
    · intro hkind hunloading hpending hnone
      have hstep := endNode_ends hx hy hd hready habandoned hheld hkind hnone
      obtain ⟨hgraph, hmem⟩ := endRun_calm (s.onRun g fun y => { y.finish n (nodeSuccs d) with done := true }) g
        { y.finish n (nodeSuccs d) with done := true } (x := { x with run := some { y.finish n (nodeSuccs d) with done := true } })
        hunloading hpending
      exact ⟨_, hstep, hgraph, hmem⟩
  · intro y j w hy hjob hfailed hdone habandoned
    exact ⟨_, execGraphNodeFinish_goes hx hy hjob hfailed hdone habandoned, rfl, rfl,
      onRun_find (s := { s with jobs := s.jobs.del j }) hx hy _⟩

end Sys2Proof.Machine
end

section
/-! SUPPORT. A poll of a `WAIT` whose read sets a bit of a leaf entry in a memory that is not in canonical form (R121, R179). -/

namespace Sys2Proof.Machine

/-- The `WAIT` at which the lane is held: it goes on once the word at address 0 is not 0. -/
def nonzeroWait : DWord := (encode (.wait unguarded false false .vz .vz .vz 0)).getD 0

/-- The hold of the lane, whose first poll is due. -/
def firstPoll : LaneHold := ⟨.wait, 0x1000, 0, nonzeroWait, 0, 0, 0, []⟩

/-- A segment of one lane. -/
def pollSeg : Seg :=
  { lbase := 0, width := 1, gid := 0, idx := 0, vslot := 0, lmask := 1, lpark := 0, vpc := [0], evt := ⟨0, 0, 0⟩, etaken := 0, udepth := 0
    olmask := 0, ovpc := [0], oevt := ⟨0, 0, 0⟩, oetaken := 0, usher := 0, urun := 0, ubase := 0, tbase := 0, bancnt := 8, dropcnt := 0
    firmware := false, handler := 0, record := none, cause := none, queue := [], notices := [], notBefore := 0, progress := false, bc := 0
    takeover := none, tripped := false }

/-- The warp of that segment, with its lane held. -/
def pollWarp : Warp := { Warp.reset with segs := [pollSeg], live := 1, holds := [(0, firstPoll)] }

/-- The translation of page 0 that the core holds: its leaf entry is at 8192, and the page it maps at 4096. -/
def pollXlat : Xlat := ⟨0, 0, 0, 0, 1, 8192, 4096, false, true, true, true⟩

/-- A module whose memory lists a blank byte at 8192, which hides the byte at 8191 that stands behind it. -/
def hiddenByte : State := { State.reset with warps := [(0, pollWarp)], xlats := [pollXlat], mem := [(8192, 0), (8191, 1), (8199, 8)] }

/-- The write of the leaf entry takes the blank byte away, and the byte behind it is read. -/
theorem hiddenByte_shows : Completes (.waitPoll 0) hiddenByte fun t => t.mem.byte 8191 = 1 :=
  completes_of_runsTo _ _ _ (by decide +kernel)

theorem hiddenByte_place : hiddenByte.loadPlace 0 0 4 0 = ⟨.hbm 4096, some pollXlat⟩ := by decide +kernel

theorem nonzeroWait_decodes : decodeAlone nonzeroWait = .ok (.wait unguarded false false .vz .vz .vz 0) := by decide +kernel

/-- What the poll reads is 0. -/
theorem hiddenByte_reads : ((hiddenByte.touch 0 (some pollXlat) false).viewRead 0 0 (.hbm 4096) 0 4).setWidth 64 = (0 : DWord) := by decide +kernel

theorem hiddenByte_stays : (hiddenByte.touch 0 (some pollXlat) false).classStays 0 0 0 := by
  refine ⟨fun x hx => ?_, by decide +kernel⟩
  obtain rfl : pollXlat = x := Option.some.inj (Eq.trans (by decide +kernel) hx)
  decide +kernel

/-- Refutes O45. It says that a poll changes memory in the leaf entry of its page alone, and asks of memory no canonical form; in `hiddenByte` the
write of that entry takes away a blank byte that has hidden another. -/
theorem not_banisterEvents : ¬Obligations.BanisterEvents := by
  unfold Obligations.BanisterEvents
  intro h
  obtain ⟨-, -, hpolls⟩ := h hiddenByte 0 0 pollWarp pollSeg rfl rfl rfl rfl
  obtain ⟨-, -, -, hpoll⟩ := hpolls firstPoll unguarded false false .vz .vz .vz 0 rfl
  have hva : (pollWarp.atHold firstPoll).ea .vz .vz 0 4 0 = 0 := by decide +kernel
  have hval : (pollWarp.atHold firstPoll).val false .vz 0 = 0 := by decide +kernel
  have hfails := hpoll nonzeroWait_decodes (by decide +kernel) (by decide +kernel) (.inl rfl) (by decide) rfl
    (by decide +kernel) (by decide +kernel) rfl
  dsimp only at hfails
  rw [if_neg Bool.false_ne_true, hva, hiddenByte_place] at hfails
  obtain ⟨-, hfail⟩ := hfails (by decide +kernel) (by decide +kernel) hiddenByte_stays
  rw [hiddenByte_reads, hval] at hfail
  obtain ⟨t, ht, hnear, -⟩ := hfail (by decide)
  obtain ⟨u, hu, hshown⟩ := hiddenByte_shows
  obtain rfl : t = u := Host.Outcome.next.inj (ht.symm.trans hu)
  have hout : ¬Xlat.leafByte (some pollXlat) 8191 := by
    rintro ⟨x, hx, hlow, -⟩
    obtain rfl := Option.some.inj hx
    exact absurd hlow (by decide)
  rw [hnear 8191 hout] at hshown
  exact absurd hshown (by decide +kernel)

end Sys2Proof.Machine
end
